-- ==== Sys2Proof/Word.lean ====
section
/-! DEFINITION. The word types of TQ1 and their plainest arithmetic (R6, R8). -/

namespace Sys2Proof

/-- One byte of memory (R6). -/
abbrev Byte := BitVec 8

/-- A lane register (R16). -/
abbrev Word := BitVec 32

/-- A uniform register, a register pair or an address (R16, R18). -/
abbrev DWord := BitVec 64

/-- One bit per home lane (R22, R31). -/
abbrev Mask := BitVec 8

/-- Bit `n` of a lane mask. -/
def Mask.has (m : Mask) (lane : Nat) : Bool := m.getLsbD lane

/-- The lanes of a mask, ascending. -/
def Mask.lanes (m : Mask) : List Nat := (List.range 8).filter fun l => m.getLsbD l

/-- The mask of one lane. -/
def Mask.one (lane : Nat) : Mask := 1#8 <<< lane

/-- The mask that holds exactly the lanes of a list. -/
def Mask.ofLanes (ls : List Nat) : Mask := ls.foldl (fun m l => m ||| Mask.one l) 0#8

/-- The concatenation `hi : lo` of two 32-bit halves (R18). -/
def pairOf (hi lo : Word) : DWord := hi ++ lo

/-- Bits [31:0] of a 64-bit value. -/
def lowWord (x : DWord) : Word := x.setWidth 32

/-- Bits [63:32] of a 64-bit value. -/
def highWord (x : DWord) : Word := (x >>> 32).setWidth 32

/-- A 64-bit value from a natural number, bits [63:0] (R8). -/
def dword (n : Nat) : DWord := BitVec.ofNat 64 n

/-- A 32-bit value from a natural number, bits [31:0] (R8). -/
def word (n : Nat) : Word := BitVec.ofNat 32 n

/-- The least power-of-two or other multiple of `k` that is at least `n`. -/
def roundUp (n k : Nat) : Nat := (n + k - 1) / k * k

/-- Division that rounds up, as Ceil of R38. -/
def ceilDiv (n k : Nat) : Nat := (n + k - 1) / k

end Sys2Proof
end

