-- ==== Sys2Proof/Config.lean ====
section
/-! DEFINITION. What an implementation fixes, and the free values: constants without a body, so that nothing in Lean can
evaluate them (R10, R11). -/

namespace Sys2Proof.Config

/-- The value that an undefined result takes (R10, R20, R209, R224). It is applied to a counter of State, so each use is a
value of its own. [DESIGN CHOICE, log 6] -/
opaque freeWord : Nat → BitVec 64

/-- The core cycle within the current heartbeat tick, before its reduction to 0..215 (R251). [DEDUCED, log 51] -/
opaque subTick : Nat → Nat

/-- Nanoseconds elapsed within the current tick, before reduction below 80 (R252). [DEDUCED, log 51] -/
opaque subNs : Nat → Nat

/-- Fold records of a context's pool that may be taken while another is in use: R184 names the pool and does not number
it. One record is always there. [DESIGN CHOICE, log 44] -/
opaque foldPool : Nat → Nat

/-- The L2 slice nearest to a core, before reduction to 0..263 (R26, R184). [DESIGN CHOICE, log 45] -/
opaque nearestSlice : Nat → Nat

/-- The HBM pseudo-channel (stack × 64 + channel) of a 32-byte granule of device memory, before reduction to 0..511: the
spec gives no interleave (R459, R462). [DEDUCED, log 88] -/
opaque channelOf : Nat → Nat

/-- The row of a 32-byte granule of device memory within its stack: the spec gives no address map (R462). [DEDUCED, log 88] -/
opaque rowOf : Nat → Nat

/-- Whether an L2 slice (kind 2) or a pseudo-channel (kind 3) that dies held a dirty line of a context: the spec gives no
step that writes an L2 line back (R460). [DESIGN CHOICE, log 89] -/
opaque heldDirty : Nat → Nat → Nat → Nat → Bool

/-- The security version that a firmware image carries: its place in the image is not given (R468). [DESIGN CHOICE, log 95] -/
opaque imageVersion : List Byte → BitVec 16

/-- The address at which a shepherd-core image starts: its place in the image is not given (R32, R468). [DESIGN CHOICE, log 94] -/
opaque imageEntry : List Byte → BitVec 64

/-- Whether the root port reports AtomicOp completer support for a width in bits (R447). [DESIGN CHOICE, log 50] -/
opaque rootPortAtomic : Nat → Bool

/-- The value a sensor reads (R470). [DESIGN CHOICE, log 93] -/
opaque sensor : Nat → Nat → Nat

/-- The SHA-384 digest of bytes: the spec names the function and does not define it (R467). [DESIGN CHOICE, log 95] -/
opaque sha384 : List Byte → List Byte

/-- Whether the RSASSA-PSS signature that an object carries verifies over a digest (R467). [DESIGN CHOICE, log 95] -/
opaque pssVerifies : List Byte → List Byte → Bool

/-- Whether the SLH-DSA signature that an object carries verifies over a digest (R467). [DESIGN CHOICE, log 95] -/
opaque slhVerifies : List Byte → List Byte → Bool

/-- Whether the keys of an object's signatures chain to the roots fused into the Baszer controller (R467). [DESIGN CHOICE, log 95] -/
opaque keysChain : List Byte → Bool

/-- The device's own RSASSA-3072 and SLH-DSA signatures over a transcript hash (R469). [DESIGN CHOICE, log 95] -/
opaque pssSign : List Byte → List Byte
opaque slhSign : List Byte → List Byte

/-- The certificate chain of a slot (R469). [DESIGN CHOICE, log 95] -/
opaque certificates : Nat → List Byte

/-- The fuse that disables debug (R469). [DESIGN CHOICE, log 95] -/
opaque debugDisabled : Bool

/-- The SPDM 1.3 message that answers a request with the device's capabilities, its certificate chain, its measurement blocks
and its signature: the framing is that of SPDM (R469). [DESIGN CHOICE, log 95] -/
opaque spdmMessage : List Byte → Nat → List Byte → List (Nat × List Byte) → List Byte → List Byte

/-- Whether a Swetex link carries the path to a device: the spec gives no wiring (R453, R462). [DESIGN CHOICE, log 97] -/
opaque linkCarries : Nat → Nat → Bool

/-- Bytes of HBM of one device: 384 GiB, addresses 0 to 0x5F_FFFF_FFFF (R408, R410). -/
def hbmBytes : Nat := 0x6000000000

end Sys2Proof.Config
end

