-- ==== Sys2Proof/Syntax.lean ====
section
/-! DEFINITION. The abstract syntax of TQ1: the operand kinds of the encoding chapter and the ONE inductive Instr,
one constructor per row of the opcode table (166 instruction rows, then the steps of the device's other agents). -/

namespace Sys2Proof

/-- A source operand: a lane register or a uniform register (R76). -/
inductive Src where
  | v (n : BitVec 8)
  | s (n : BitVec 8)
  deriving DecidableEq, Repr

/-- The guard of an instruction word, PG and PN (R22, R75). -/
structure Guard where
  pg : BitVec 4 := 0#4
  pn : Bool := false
  deriving DecidableEq, Repr

/-- One-source operands of a REG instruction; `ud` is the uniform form (R77). -/
structure Un where
  ud : Bool
  d : BitVec 8
  a : Src
  deriving DecidableEq, Repr

/-- Two-source operands of a REG instruction (R77). -/
structure Bin where
  ud : Bool
  d : BitVec 8
  a : Src
  b : Src
  deriving DecidableEq, Repr

/-- Three-source operands of a REG instruction (R77). -/
structure Tri where
  ud : Bool
  d : BitVec 8
  a : Src
  b : Src
  c : Src
  deriving DecidableEq, Repr

/-- Operands of an IMM instruction (R78). -/
structure ImmOp where
  ud : Bool
  d : BitVec 8
  a : Src
  imm : BitVec 12
  deriving DecidableEq, Repr

/-- Saturation of ADD and SUB (R137, R138). -/
inductive Sat where
  | wrap | ss | us
  deriving DecidableEq, Repr

/-- The second operand of ADDD and SUBD (R143). -/
inductive BWidth where
  | pair | sw | zw
  deriving DecidableEq, Repr

/-- Integer conditions (R142). -/
inductive Cond where
  | eq | ne | lt | le | gt | ge
  deriving DecidableEq, Repr

/-- How a comparison joins the old predicate (R142). -/
inductive Comb where
  | set | and | or
  deriving DecidableEq, Repr

/-- The format of the floating-point group (R146). -/
inductive FFmt where
  | fp32 | fp16 | bf16
  deriving DecidableEq, Repr

/-- Format and two-element bit of a floating-point instruction (R146). -/
structure FMode where
  fmt : FFmt
  x2 : Bool
  deriving DecidableEq, Repr

/-- The rounding-mode field (R146). -/
inductive RmField where
  | dyn | rn | rz | rd | ru
  deriving DecidableEq, Repr

/-- Floating-point conditions (R150). -/
inductive FCond where
  | eq | ne | lt | le | gt | ge | un | or
  deriving DecidableEq, Repr

/-- Element formats (R40) and the two integer codes of CVT (R153). -/
inductive Fmt where
  | fp32 | fp16 | bf16 | int8 | int4 | bead8 | bead6 | bead4 | int32 | uint32
  deriving DecidableEq, Repr

/-- Slot widths of PACK and UNPK (R155). -/
inductive SlotW where
  | e4 | e6 | e8 | e16
  deriving DecidableEq, Repr

/-- Fixed groups of the cross-lane instructions (R157). -/
inductive Group where
  | g8 | g2 | g4
  deriving DecidableEq, Repr

/-- A partition: a fixed group or the mask of operand C (R157). -/
inductive Part where
  | fixed (g : Group)
  | mask (c : Src)
  deriving DecidableEq, Repr

/-- SHFL modes (R158). -/
inductive ShflMode where
  | idx | up | down | xor
  deriving DecidableEq, Repr

/-- VOTE modes (R159). -/
inductive VoteMode where
  | any | all | ballot | eq
  deriving DecidableEq, Repr

/-- REDU operations (R160). -/
inductive ReduOp where
  | add | min | max | minu | maxu | and | or | xor | fadd | fmin | fmax
  deriving DecidableEq, Repr

/-- MOVU lane selection (R162). -/
inductive MovuSel where
  | lo | hi | lane (n : BitVec 3)
  deriving DecidableEq, Repr

/-- Access widths (R80). -/
inductive Wid where
  | b | bz | h | hz | w | d | q | o | g3
  deriving DecidableEq, Repr

/-- Address spaces (R80, R165). -/
inductive Space where
  | generic | lane | core | cluster | chip
  deriving DecidableEq, Repr

/-- Scopes (R80, R329). -/
inductive Scope where
  | fibre | flock | team | cluster | device | system
  deriving DecidableEq, Repr

/-- Ordering of an access (R80). -/
inductive Ord where
  | plain | acq | rel | ar
  deriving DecidableEq, Repr

/-- FT and FSEL (R85): untracked, or tracked by SET_FLAG0 or SET_FLAG1. -/
inductive Ft where
  | none | f0 | f1
  deriving DecidableEq, Repr

/-- Operands of a MEM instruction (R80). -/
structure MemF where
  d : BitVec 8
  base : Src
  wid : Wid
  ofs : BitVec 12
  ft : Ft
  space : Space
  scope : Scope
  ord : Ord
  line : Bool
  deriving DecidableEq, Repr

/-- Address and ordering fields of a MEM instruction that moves no register of a width (R164). -/
structure LineF where
  base : Src
  ofs : BitVec 12
  ft : Ft
  space : Space
  scope : Scope
  ord : Ord
  deriving DecidableEq, Repr

/-- Operands of an ATM instruction (R81). -/
structure AtmF where
  d : BitVec 8
  base : Src
  b : BitVec 8
  ft : Ft
  space : Space
  scope : Scope
  ord : Ord
  deriving DecidableEq, Repr

/-- Atomic operations (R176). -/
inductive AtomOp where
  | add | and | or | xor | min | max | minu | maxu | xchg | incw | fadd | fmin | fmax
  deriving DecidableEq, Repr

/-- KINFO selectors (R134). -/
inductive KSel where
  | state (a : Src) | eff (a : Src) | val (a : Src) | pc (a : Src) | nseg (a : Src) | regs (a : Src) | top
  deriving DecidableEq, Repr

/-- TQRY selectors (R212). -/
inductive TSel where
  | state | tag | rows | cols | base | pitch | axis
  deriving DecidableEq, Repr

/-- QST register counts 1, 2, 4, 8, 16 and 32 (R216). -/
inductive QstN where
  | n1 | n2 | n4 | n8 | n16 | n32
  deriving DecidableEq, Repr

/-- ACCRD and ACCWR register counts (R227). -/
inductive AccN where
  | n1 | n4 | n8
  deriving DecidableEq, Repr

/-- A message that carries a continuation from another device (R298): the header fields, the bytes of the captured
segments from TOP down to BOT, and the bytes of the register image. -/
structure KMsg where
  src : Nat
  ctx : Nat
  delivery : DWord
  token : Nat
  hdrBytes : List Byte
  segs : List (List Byte)
  segAddrs : List Nat
  image : List (List Byte)
  deriving DecidableEq, Repr

/-- A queue descriptor (R377). -/
structure QueueDesc where
  base : DWord
  slots : Nat
  ctx : Nat
  kind : Nat
  tail : DWord
  head : DWord
  dbi : Nat
  deriving DecidableEq, Repr

/-- What a host or remote agent does to a word at its home (R449, R451, R453). -/
inductive MemReq where
  | read (n : Nat)
  | write (bytes : List Byte)
  | add (bytes : List Byte)
  | swap (bytes : List Byte)
  | cas (expected bytes : List Byte)
  /-- Any other operation of R176 on 4 or 8 bytes. -/
  | op (f : AtomOp) (bytes : List Byte)
  deriving DecidableEq, Repr

/-- A fold of another device's fibre, whose device the message names: its context, SLICE and SEQ (R26, R342). -/
structure AwayFold where
  ctx : Nat
  slice : Nat
  seq : Nat
  deriving DecidableEq, Repr

/-- What a TC2 message of another device asks of a line's home (R453): an access of a fibre of a context; a fibre's load with its view
(R343); an invalidation of the fetch paths (R194); the answer to an invalidation that this device asked for (R194, R245); a
store of a fold and the steps of its seal at a home here (R341, R342); or that the device has been reset (R465). -/
inductive RemoteReq where
  | mem (ctx : Nat) (r : MemReq)
  | load (ctx n view : Nat)
  | icinv (token : Nat)
  | ack (token : Nat)
  | foldStore (f : AwayFold) (k : Nat) (bytes : List Byte)
  | foldAck (f : AwayFold)
  | foldStamp (f : AwayFold) (t : Nat) (digest : DWord)
  | foldConfirm (f : AwayFold) (t : Nat) (digest : DWord)
  | foldDiscard (f : AwayFold)
  | wasReset
  deriving DecidableEq, Repr

/-- Where a message of a launch comes from: the device that sends it, and the queue of the launch's origin device (R390). -/
structure LaunchFrom where
  dev : Nat
  queue : Nat
  deriving DecidableEq, Repr

/-- A device that asks for an acknowledgement, with the token that the answer carries (R245). -/
structure Asker where
  dev : Nat
  token : Nat
  deriving DecidableEq, Repr

/-- What a training of the fabric finds: this device's index and the devices that it reaches (R383, R453). -/
structure Training where
  self : Nat
  devs : List Nat
  deriving DecidableEq, Repr

/-- The structures of the protection table (R455, R456): a scratchpad byte or a segment with the fibre whose access meets the
error, where one does; the control state of an agent of R459. -/
inductive ErrPlace where
  | laneReg (fibre n : Nat)
  | uniformReg (flock n : Nat)
  | segment (fibre : Nat) (pa : Nat)
  | scratch (fibre : Nat) (key : Nat)
  | dirtyL1 (key : Nat)
  | l2 (key : Nat)
  | hbm (key : Nat)
  | rod (core rod : Nat)
  | acc (core bank row col : Nat)
  | control (kind index : Nat)
  /-- An instruction cache or the trace cache of a core. -/
  | codeCache (core key : Nat)
  deriving DecidableEq, Repr

/-- The boot stages of R467, in order. -/
inductive BootStage where
  | baszer | ioDie | shepherd | drover
  deriving DecidableEq, Repr

/-- The sensors of R470. -/
inductive Sensor where
  | temperature (unit : Nat) | power | rail (n : Nat)
  deriving DecidableEq, Repr

/-- Why a dependent wait ends when KSEND completes (R133). -/
abbrev KStatus := Nat

/-- The instructions of TQ1 and the steps of the device's agents. One constructor per row of the opcode table, in its
order. The first argument of an instruction of the table's first 166 rows is its guard. -/
inductive Instr where
  -- integer lane instructions (R137 to R142)
  | add (g : Guard) (o : Bin) (sat : Sat)
  | sub (g : Guard) (o : Bin) (sat : Sat)
  | mul (g : Guard) (o : Bin)
  | mulhi (g : Guard) (o : Bin) (u : Bool)
  | mad (g : Guard) (o : Tri)
  | div (g : Guard) (o : Bin) (u : Bool)
  | rem (g : Guard) (o : Bin) (u : Bool)
  | min (g : Guard) (o : Bin) (u : Bool)
  | max (g : Guard) (o : Bin) (u : Bool)
  | and (g : Guard) (o : Bin) (nb : Bool)
  | or (g : Guard) (o : Bin) (nb : Bool)
  | xor (g : Guard) (o : Bin) (nb : Bool)
  | shl (g : Guard) (o : Bin)
  | shr (g : Guard) (o : Bin)
  | sar (g : Guard) (o : Bin)
  | rot (g : Guard) (o : Bin)
  | bfx (g : Guard) (o : Bin) (sgn : Bool)
  | bfi (g : Guard) (o : Tri)
  | clz (g : Guard) (o : Un)
  | popc (g : Guard) (o : Un)
  | brev (g : Guard) (o : Un)
  | sel (g : Guard) (d : BitVec 8) (a b : Src) (p : BitVec 4)
  | icmp (g : Guard) (p : BitVec 4) (a b : Src) (cond : Cond) (u : Bool) (comb : Comb)
  | mov (g : Guard) (o : Un)
  -- 64-bit pair instructions (R143)
  | addd (g : Guard) (o : Bin) (bw : BWidth)
  | subd (g : Guard) (o : Bin) (bw : BWidth)
  | muld (g : Guard) (o : Bin)
  | shld (g : Guard) (o : Bin)
  | shrd (g : Guard) (o : Bin)
  | sard (g : Guard) (o : Bin)
  | icmpd (g : Guard) (p : BitVec 4) (a b : Src) (cond : Cond) (u : Bool) (comb : Comb)
  | movd (g : Guard) (o : Un)
  | andd (g : Guard) (o : Bin)
  | ord (g : Guard) (o : Bin)
  | xord (g : Guard) (o : Bin)
  -- immediate instructions (R144)
  | addi (g : Guard) (o : ImmOp)
  | muli (g : Guard) (o : ImmOp)
  | andi (g : Guard) (o : ImmOp)
  | ori (g : Guard) (o : ImmOp)
  | xori (g : Guard) (o : ImmOp)
  | shli (g : Guard) (o : ImmOp)
  | shri (g : Guard) (o : ImmOp)
  | sari (g : Guard) (o : ImmOp)
  | icmpi (g : Guard) (p : BitVec 4) (a : Src) (imm : BitVec 12) (cond : Cond) (u : Bool) (comb : Comb)
  | adddi (g : Guard) (o : ImmOp)
  | movi (g : Guard) (ud : Bool) (d : BitVec 8) (imm : BitVec 12)
  -- address formation (R145)
  | lui (g : Guard) (ud : Bool) (d : BitVec 8) (imm : BitVec 20)
  | aupc (g : Guard) (ud : Bool) (d : BitVec 8) (imm : BitVec 20)
  | lup (g : Guard) (ud : Bool) (d : BitVec 8) (imm : BitVec 20)
  -- floating-point instructions (R146 to R152)
  | fadd (g : Guard) (o : Bin) (m : FMode) (rm : RmField)
  | fsub (g : Guard) (o : Bin) (m : FMode) (rm : RmField)
  | fmul (g : Guard) (o : Bin) (m : FMode) (rm : RmField)
  | ffma (g : Guard) (o : Tri) (m : FMode) (rm : RmField)
  | fdiv (g : Guard) (o : Bin) (m : FMode) (rm : RmField)
  | fsqrt (g : Guard) (o : Un) (m : FMode) (rm : RmField)
  | fmin (g : Guard) (o : Bin) (m : FMode) (nan : Bool)
  | fmax (g : Guard) (o : Bin) (m : FMode) (nan : Bool)
  | fcmp (g : Guard) (p : BitVec 4) (a b : Src) (fmt : FFmt) (cond : FCond) (sgn : Bool)
  | frcp (g : Guard) (o : Un) (m : FMode)
  | frsq (g : Guard) (o : Un) (m : FMode)
  | fexp2 (g : Guard) (o : Un) (m : FMode)
  | flog2 (g : Guard) (o : Un) (m : FMode)
  | fabs (g : Guard) (o : Un) (m : FMode)
  | fneg (g : Guard) (o : Un) (m : FMode)
  | fclass (g : Guard) (o : Un) (m : FMode)
  -- conversions, packing, predicates (R153 to R156)
  | cvt (g : Guard) (d : BitVec 8) (a : Src) (dst src : Fmt) (rm : RmField) (sat : Bool)
  | pack (g : Guard) (d : BitVec 8) (a c : Src) (w : SlotW) (j : BitVec 3)
  | unpk (g : Guard) (d : BitVec 8) (a : Src) (w : SlotW) (j : BitVec 3) (sgn : Bool)
  | pand (g : Guard) (p a b : BitVec 4) (na nb : Bool)
  | por (g : Guard) (p a b : BitVec 4) (na nb : Bool)
  | pxor (g : Guard) (p a b : BitVec 4) (na nb : Bool)
  | pnot (g : Guard) (p a : BitVec 4)
  | pset (g : Guard) (p : BitVec 4) (a : Src) (z : Bool)
  -- cross-lane instructions and special registers (R157 to R163)
  | part (g : Guard) (d : BitVec 8) (a : Src) (pw : Group) (dbl : Bool)
  | shfl (g : Guard) (d : BitVec 8) (a b : Src) (pw : Group) (mode : ShflMode) (dbl : Bool)
  | vote (g : Guard) (d : BitVec 8) (a : Src) (pw : Part) (mode : VoteMode) (dbl : Bool)
  | redu (g : Guard) (d : BitVec 8) (a : Src) (pw : Part) (op : ReduOp) (dbl : Bool)
  | movu (g : Guard) (d : BitVec 8) (a : BitVec 8) (sel : MovuSel) (dbl : Bool)
  | srd (g : Guard) (ud : Bool) (d : BitVec 8) (n : BitVec 8)
  | swr (g : Guard) (n : BitVec 8) (a : Src)
  -- control, fibre and effect instructions (R104 to R134)
  | bra (g : Guard) (off : BitVec 24)
  | call (g : Guard) (d : BitVec 8) (off : BitVec 24)
  | calls (g : Guard) (d : BitVec 8) (off : BitVec 24)
  | ret (g : Guard) (a : Src)
  | retS (g : Guard)
  | brx (g : Guard) (a b : Src)
  | callx (g : Guard) (d : BitVec 8) (a b : Src)
  | reform (g : Guard)
  | backoff (g : Guard) (p : BitVec 4)
  | nop (g : Guard)
  | exit (g : Guard)
  | spawn (g : Guard) (x d : BitVec 8) (off : BitVec 24)
  | hinst (g : Guard) (ve : BitVec 8) (k : Src) (off : BitVec 24)
  | hdrop (g : Guard)
  | perf (g : Guard) (d : BitVec 8) (a b : Src) (r : Bool)
  | rsm (g : Guard) (a b : Src)
  | rsmt (g : Guard) (a b : Src)
  | dropk (g : Guard) (a : Src)
  | ksend (g : Guard) (d : BitVec 8) (a b c : Src)
  | kinfo (g : Guard) (d : BitVec 8) (sel : KSel)
  -- memory, atomic, fence and fold instructions (R164 to R196)
  | ld (g : Guard) (m : MemF)
  | st (g : Guard) (m : MemF)
  | lds (g : Guard) (m : MemF)
  | sts (g : Guard) (m : MemF)
  | atom (g : Guard) (m : AtmF) (op : AtomOp) (nr : Bool)
  | atomd (g : Guard) (m : AtmF) (op : AtomOp) (nr : Bool)
  | cas (g : Guard) (m : AtmF) (c : BitVec 8)
  | casd (g : Guard) (m : AtmF) (c : BitVec 8)
  | lnset (g : Guard) (m : LineF)
  | lnclr (g : Guard) (m : LineF)
  | fence (g : Guard) (scope : Scope) (ord : Ord)
  | fenceSc (g : Guard) (scope : Scope)
  | fopen (g : Guard) (n : BitVec 2)
  | fseal (g : Guard) (d : BitVec 8) (n : BitVec 2)
  | fabort (g : Guard) (d : BitVec 8) (n : BitVec 2)
  | view (g : Guard) (d : BitVec 8) (stamp : Option Src)
  | baraArrive (g : Guard) (d : BitVec 8) (m : LineF)
  | baraInit (g : Guard) (d : BitVec 8) (m : LineF)
  | baraLeave (g : Guard) (d : BitVec 8) (m : LineF)
  | baraKill (g : Guard) (d : BitVec 8) (m : LineF)
  | barw (g : Guard) (d : BitVec 8) (m : LineF)
  | icinv (g : Guard) (m : LineF)
  | isync (g : Guard)
  -- tile, matrix and engine instructions (R197 to R238)
  | tdef (g : Guard) (d : BitVec 8) (a b : Src) (chain ready : Bool)
  | ttag (g : Guard) (a b : Src)
  | tqry (g : Guard) (d : BitVec 8) (a : Src) (sel : TSel)
  | twait (g : Guard) (a : Src) (empty : Bool)
  | trel (g : Guard) (a : Src) (u : Bool)
  | tld (g : Guard) (d : BitVec 8) (a b c : Src) (ft : Ft)
  | tst (g : Guard) (d : BitVec 8) (a b c : Src) (ft : Ft)
  | qst (g : Guard) (d : BitVec 8) (a b : Src) (keep : Option Src) (n : QstN) (cy : BitVec 3) (ft : Ft)
  | cyrd (g : Guard) (d : BitVec 8) (cy : BitVec 3)
  | cywr (g : Guard) (a : Src) (cy : BitVec 3)
  | mready (g : Guard) (a : Src)
  | mloop (g : Guard) (d : BitVec 8) (a b c : Src) (bank : BitVec 2) (ft : Ft)
  | mwait (g : Guard) (bank : BitVec 2)
  | accrd (g : Guard) (d : BitVec 8) (a : Src) (bank : BitVec 2) (n : AccN)
  | accwr (g : Guard) (d : BitVec 8) (a : Src) (bank : BitVec 2) (n : AccN)
  | accz (g : Guard) (bank : BitVec 2)
  | mstat (g : Guard) (d : BitVec 8) (a : Src) (clr : Bool)
  | tcopy (g : Guard) (d : BitVec 8) (a b : Src) (tile : Bool) (ft : Ft)
  | tcopyv (g : Guard) (d : BitVec 8) (a b c : Src) (tile : Bool) (ft : Ft)
  | rodld (g : Guard) (d : BitVec 8) (a b : Src) (ft : Ft)
  | fork (g : Guard) (d : BitVec 8) (a b c : Src)
  | rdv (g : Guard) (a b : Src)
  | disp (g : Guard) (d : BitVec 8) (a b c : Src)
  -- privileged and system instructions (R239 to R255)
  | prd (g : Guard) (ud : Bool) (d : BitVec 8) (n : BitVec 8)
  | pwr (g : Guard) (n : BitVec 8) (a : Src)
  | pwrHbctl (g : Guard) (a : Src)
  | tlbiVa (g : Guard) (sys : Bool) (a b : Src)
  | tlbiCtx (g : Guard) (sys : Bool) (b : Src)
  | tlbiAll (g : Guard) (sys : Bool)
  | tlbs (g : Guard) (d : BitVec 8) (a b : Src) (walk : Bool)
  | cancelfCtx (g : Guard) (d a : BitVec 8)
  | cancelfPage (g : Guard) (d a b : BitVec 8)
  | cancelfRec (g : Guard) (d a b : BitVec 8)
  | regroup (g : Guard) (a b : Src) (hold : Bool)
  | ctxrd (g : Guard) (ud : Bool) (d : BitVec 8) (a : Src) (n : BitVec 8)
  | hbrd (g : Guard) (ud : Bool) (d : BitVec 8) (sub : Bool)
  | tbrd (g : Guard) (d : BitVec 8) (n : BitVec 8)
  | svc (g : Guard) (d : BitVec 8) (a b : Src)
  | winrd (g : Guard) (d a c : BitVec 8)
  | winwr (g : Guard) (d a c : BitVec 8)
  -- the three actions of a window's control write, as steps (R255)
  | winwrResume (shepherd window : Nat)
  | winwrTerminate (shepherd window code : Nat)
  | winwrClose (shepherd window : Nat)
  -- issue (R92, R262 to R274)
  | runStart (core port : Nat)
  | flockWake (flock : Nat)
  | holdOffExpiry (flock : Nat)
  | unchosenFlockLimit (flock : Nat)
  | lagLimit (flock lane : Nat)
  | penDraw (core : Nat)
  | penFibreAged (fibre : Nat)
  | flockRestore (flock : Nat)
  | savedFlockWaitLimit (flock : Nat)
  -- store queues, caches and homes (R321, R322, R330, R332, R341 to R344)
  | storeQueueDrain (fibre : Nat)
  | storePerform (core n : Nat)
  | l1MissFill (cluster line : Nat)
  | l1WriteBack (cluster line : Nat)
  | spanInvalidate (cluster line : Nat) (span : BitVec 32)
  | storePending (core n : Nat)
  | foldAcknowledge (fold slice : Nat)
  | foldStamp (fold slice : Nat)
  | foldConfirm (fold slice : Nat)
  | foldSealEnd (fold : Nat)
  | homeRead (cluster line view : Nat)
  | settledStampAdvertise (dev : Nat) (stamp : Nat)
  | heartbeatTick
  -- engines (R214, R223, R228, R231, R234, R235, R362, R363, R365, R458)
  | matrixStep (core : Nat)
  | matrixLoopComplete (core : Nat)
  | accZeroComplete (core bank : Nat)
  | tileTransferComplete (core : Nat)
  | rodLoadComplete (core : Nat)
  | copyPhaseRun (core : Nat)
  | copyPhaseComplete (core : Nat)
  | engineCmdEnd (core task : Nat)
  | engineCmdMatrixLoop (core task : Nat)
  | engineCmdAccZero (core task : Nat)
  | engineCmdTileLoad (core task : Nat)
  | engineCmdTileStore (core task : Nat)
  | engineCmdConvert (core task : Nat)
  | engineCmdRodLoad (core task : Nat)
  | engineCmdReserved (core task : Nat)
  | taskWatchdog (core task : Nat)
  -- continuations and waits (R133, R192, R204, R237, R298, R299, R303, R421, R438, R458)
  | ksendTransferReceive (m : KMsg)
  | ksendComplete (token : Nat) (status : KStatus)
  | parkedFibreWake (fibre : Nat)
  | bindWake (fibre : Nat)
  | faultRecordRewalk (index : Nat)
  | systemEventDelivery
  | watchdogExpiry (flock : Nat)
  | barwWaitLimit (flock : Nat)
  | tileStallLimit (flock : Nat)
  | rdvWaitLimit (flock : Nat)
  -- queues, launches and contexts (R377 to R406)
  | doorbell (dbi : Nat)
  | tailInvalidate (queue : Nat)
  | tailPoll (drover : Nat)
  | queueInstall (drover : Nat) (q : QueueDesc)
  | packetRead (queue : Nat)
  | serviceRequestPacket (queue : Nat)
  | dependenceRecheck (launch : Nat)
  | launchReplicate (src : LaunchFrom) (ctx : Nat) (packet : List Byte)
  | armedMessage (src : LaunchFrom) (gen : Word)
  | goMessage (src : LaunchFrom) (gen : Word)
  | rejectMessage (src : LaunchFrom) (gen : Word)
  | abortMessage (src : LaunchFrom) (gen : Word)
  | armedTimeout (launch : Nat)
  | startTimeRelease (launch : Nat)
  | admitTeam
  | teamComplete (team : Nat)
  | methodTableInstall (launch : Nat)
  | contextSwapOut (ctx : Nat)
  | contextSwapIn (ctx : Nat)
  | contextSuspend (ctx : Nat)
  | contextTeardown (ctx : Nat)
  | preempt
  | vacateCore (team : Nat)
  | teamRestore (team : Nat)
  | chipScratchpadConvert (die ctx : Nat) (grant : Bool)
  | segmentCacheEvict (core : Nat)
  | activeMessage (queue : Nat)
  | activeMessageDeliver (ctx : Nat)
  | serviceLoad (ctx : Nat)
  | serviceUnload (ctx : Nat)
  -- host and links (R380, R443 to R454)
  | hostMemoryRead (pa n : Nat)
  | hostMemoryWrite (pa : Nat) (bytes : List Byte)
  | hostAtomic (pa : Nat) (r : MemReq)
  | hostAccessCompletion (core n : Nat) (ok : Bool)
  | remoteAccess (dev pa : Nat) (r : RemoteReq)
  | tlbiSysMessage (src : Asker) (kind ctx : Nat) (va : DWord)
  | heartbeatAgreement (dev : Nat) (hb : Nat)
  | linkTrain (cxl : Bool) (width : Nat)
  -- errors and repair (R455 to R463)
  | uncorrectableError (p : ErrPlace)
  | correctedError (p : ErrPlace)
  | agentDead (kind index : Nat)
  | rodSpare (core rod : Nat)
  | coreSpareJoin (die : Nat)
  | l2SliceSpare (slice : Nat)
  | hbmRowSpare (stack row : Nat)
  | pseudoChannelSpare (channel : Nat)
  | swetexLaneSpare (link : Nat)
  -- reset, trust, management (R16, R391 to R393, R464 to R471)
  | functionLevelReset
  | surpriseLinkLoss
  | hostLinkReset
  | powerOn
  | bootVerify (stage : BootStage) (image : List Byte)
  | firmwareUpdate (image : List Byte) (version : BitVec 16) (confirmed : Bool)
  | spdmRequest (request : List Byte)
  | sensorRead (s : Sensor)
  | errorLog
  | spareState
  | contextSummary
  | powerCycle
  | thermalThrottle (down : Bool)
  | thermalShutdown
  | contextAllocation (ctx : Nat)
  | contextResume (ctx : Nat)
  | hostSnoop (line : Nat)
  | swetexLinkTrain (found : Training)
  | timeBaseLock (locked : Bool) (offset : BitVec 31)
  deriving DecidableEq, Repr

end Sys2Proof
end

