-- ==== Sys2Proof/WellFormed.lean ====
section
/-! DEFINITION. Which instruction terms have an encoding: the field checks whose failure is ILLEGAL 0x07 (R75, R77,
and the entries' own lists) and the uniform-register check whose failure is ILLEGAL 0x0D (R76). -/

namespace Sys2Proof

/-- The operand names a uniform register. -/
def Src.uniform : Src → Bool
  | .v _ => false
  | .s _ => true

/-- R76: a uniform register number is below 128. -/
def Src.inRange : Src → Bool
  | .v _ => true
  | .s n => n.toNat < 128

/-- A destination that is uniform exactly when `ud` holds, under R76. -/
def destInRange (ud : Bool) (d : BitVec 8) : Bool := !ud || decide (d.toNat < 128)

/-- R77: a uniform instruction has uniform sources only. -/
def Un.listed (o : Un) : Bool := !o.ud || o.a.uniform
def Bin.listed (o : Bin) : Bool := !o.ud || (o.a.uniform && o.b.uniform)
def Tri.listed (o : Tri) : Bool := !o.ud || (o.a.uniform && o.b.uniform && o.c.uniform)
def ImmOp.listed (o : ImmOp) : Bool := !o.ud || o.a.uniform

def Un.inRange (o : Un) : Bool := destInRange o.ud o.d && o.a.inRange
def Bin.inRange (o : Bin) : Bool := destInRange o.ud o.d && o.a.inRange && o.b.inRange
def Tri.inRange (o : Tri) : Bool := destInRange o.ud o.d && o.a.inRange && o.b.inRange && o.c.inRange
def ImmOp.inRange (o : ImmOp) : Bool := destInRange o.ud o.d && o.a.inRange

/-- R146: two elements per register only with a 16-bit format. -/
def FMode.listed (m : FMode) : Bool := !m.x2 || decide (m.fmt ≠ .fp32)

/-- R144: a shift immediate lies from 0 to 31. -/
def ImmOp.shiftListed (o : ImmOp) : Bool := o.listed && decide (o.imm.toNat < 32)

/-- R155: the slot index is below the slot count of the width. -/
def SlotW.slots : SlotW → Nat
  | .e4 => 8
  | .e6 => 4
  | .e8 => 4
  | .e16 => 2

def Src.isPred : Src → Bool
  | .v n => n.toNat < 16
  | .s _ => false

/-- R159: what the D and A fields of each VOTE mode name, and where .d is permitted. A of .eq may be uniform (SA = 1), as R77's
REG permits. [DESIGN CHOICE, log 114] -/
def VoteMode.listed (d : BitVec 8) (a : Src) (dbl : Bool) : VoteMode → Bool
  | .any | .all => decide (d.toNat < 16) && a.isPred && !dbl
  | .ballot => a.isPred && !dbl
  | .eq => decide (d.toNat < 16)

/-- R160: the FP32 operations forbid .d. -/
def ReduOp.listed (dbl : Bool) : ReduOp → Bool
  | .fadd | .fmin | .fmax => !dbl
  | _ => true

def Wid.loadU : Wid → Bool
  | .b | .bz | .h | .hz | .w | .d => true
  | _ => false
def Wid.store : Wid → Bool
  | .bz | .hz => false
  | _ => true
def Wid.storeU : Wid → Bool
  | .b | .h | .w | .d => true
  | _ => false
def Ord.loadOk : Ord → Bool
  | .plain | .acq => true
  | _ => false
def Ord.storeOk : Ord → Bool
  | .plain | .rel => true
  | _ => false

/-- R176: the FP32 operations are not operations of ATOMD. -/
def AtomOp.wide : AtomOp → Bool
  | .fadd | .fmin | .fmax => false
  | _ => true

/-- Every field holds a value that its entry lists (R75, R77, R135, R136, R164, R176, R206): the conditions that a
field-by-field reading of the word does not settle by itself. -/
def Instr.fieldsListed : Instr → Bool
  | .add _ o _ | .sub _ o _ | .mul _ o | .mulhi _ o _ | .min _ o _ | .max _ o _ | .and _ o _ | .or _ o _ | .xor _ o _
  | .shl _ o | .shr _ o | .sar _ o | .rot _ o | .bfx _ o _ => o.listed
  | .mad _ o | .bfi _ o => o.listed
  | .div _ o _ | .rem _ o _ => !o.ud
  | .clz _ o | .popc _ o | .brev _ o | .mov _ o | .movd _ o => o.listed
  | .addd _ o _ | .subd _ o _ | .muld _ o | .shld _ o | .shrd _ o | .sard _ o | .andd _ o | .ord _ o | .xord _ o =>
    o.listed
  | .addi _ o | .muli _ o | .andi _ o | .ori _ o | .xori _ o | .adddi _ o => o.listed
  | .shli _ o | .shri _ o | .sari _ o => o.shiftListed
  | .fadd _ o m _ | .fsub _ o m _ | .fmul _ o m _ | .fdiv _ o m _ => !o.ud && m.listed
  | .ffma _ o m _ => !o.ud && m.listed
  | .fmin _ o m _ | .fmax _ o m _ => !o.ud && m.listed
  | .fsqrt _ o m _ => !o.ud && m.listed
  | .frcp _ o m | .frsq _ o m | .fexp2 _ o m | .flog2 _ o m | .fabs _ o m | .fneg _ o m | .fclass _ o m =>
    !o.ud && m.listed
  | .pack _ _ _ _ w j | .unpk _ _ _ w j _ => decide (j.toNat < w.slots)
  | .vote _ d a _ mode dbl => mode.listed d a dbl
  | .redu _ _ _ _ op dbl => op.listed dbl
  | .ld _ m => decide (m.ft = .none) && m.ord.loadOk
  | .st _ m => m.wid.store && m.ord.storeOk
  | .lds _ m => m.wid.loadU && m.base.uniform && decide (m.ft = .none) && m.ord.loadOk
  | .sts _ m => m.wid.storeU && m.base.uniform && m.ord.storeOk
  | .atom _ m _ nr => !nr || decide (m.d = 0)
  | .atomd _ m op nr => op.wide && (!nr || decide (m.d = 0))
  | .lnset _ m => decide (m.space ≠ .chip) && m.ord.storeOk
  | .lnclr _ m => decide (m.space ≠ .chip) && decide (m.ord = .plain)
  | .fence _ _ q => decide (q ≠ .plain)
  | .baraArrive _ _ m | .baraInit _ _ m | .baraLeave _ _ m | .baraKill _ _ m => decide (m.ord = .plain)
  | .barw _ _ m => decide (m.ord = .plain) && decide (m.ft = .none)
  | .icinv _ m => decide (m.space = .generic) && decide (m.ord = .plain) &&
      decide (m.scope ≠ .fibre) && decide (m.scope ≠ .flock)
  | .pwr _ n _ => decide (n ≠ 0x08)
  | .ctxrd _ ud _ a _ => !ud || a.uniform
  | _ => true

/-- R76: every field that names a uniform register holds a number below 128. -/
def Instr.uniformInRange : Instr → Bool
  | .add _ o _ | .sub _ o _ | .mul _ o | .mulhi _ o _ | .div _ o _ | .rem _ o _ | .min _ o _ | .max _ o _
  | .and _ o _ | .or _ o _ | .xor _ o _ | .shl _ o | .shr _ o | .sar _ o | .rot _ o | .bfx _ o _
  | .addd _ o _ | .subd _ o _ | .muld _ o | .shld _ o | .shrd _ o | .sard _ o | .andd _ o | .ord _ o | .xord _ o
  | .fadd _ o _ _ | .fsub _ o _ _ | .fmul _ o _ _ | .fdiv _ o _ _ | .fmin _ o _ _ | .fmax _ o _ _ => o.inRange
  | .mad _ o | .bfi _ o | .ffma _ o _ _ => o.inRange
  | .clz _ o | .popc _ o | .brev _ o | .mov _ o | .movd _ o | .fsqrt _ o _ _ | .frcp _ o _ | .frsq _ o _
  | .fexp2 _ o _ | .flog2 _ o _ | .fabs _ o _ | .fneg _ o _ | .fclass _ o _ => o.inRange
  | .addi _ o | .muli _ o | .andi _ o | .ori _ o | .xori _ o | .shli _ o | .shri _ o | .sari _ o | .adddi _ o =>
    o.inRange
  | .sel _ _ a b _ | .icmp _ _ a b _ _ _ | .icmpd _ _ a b _ _ _ | .fcmp _ _ a b _ _ _ | .shfl _ _ a b _ _ _
  | .brx _ a b | .callx _ _ a b | .perf _ _ a b _ | .rsm _ a b | .rsmt _ a b | .tdef _ _ a b _ _ | .ttag _ a b
  | .tcopy _ _ a b _ _ | .rodld _ _ a b _ | .rdv _ a b | .tlbiVa _ _ a b | .tlbs _ _ a b _ | .regroup _ a b _
  | .svc _ _ a b => a.inRange && b.inRange
  | .icmpi _ _ a _ _ _ _ | .cvt _ _ a _ _ _ _ | .unpk _ _ a _ _ _ | .pset _ _ a _ | .part _ _ a _ _ | .swr _ _ a
  | .ret _ a | .dropk _ a | .tqry _ _ a _ | .twait _ a _ | .trel _ a _ | .cywr _ a _ | .mready _ a
  | .accrd _ _ a _ _ | .accwr _ _ a _ _ | .mstat _ _ a _ | .pwr _ _ a | .pwrHbctl _ a | .tlbiCtx _ _ a => a.inRange
  | .pack _ _ a c _ _ => a.inRange && c.inRange
  | .vote _ _ a p _ _ | .redu _ _ a p _ _ =>
    a.inRange && (match p with | .fixed _ => true | .mask c => c.inRange)
  | .movi _ ud d _ | .lui _ ud d _ | .aupc _ ud d _ | .lup _ ud d _ | .srd _ ud d _ | .prd _ ud d _ | .hbrd _ ud d _ =>
    destInRange ud d
  | .movu _ d _ _ _ => decide (d.toNat < 128)
  | .hinst _ _ k _ => k.inRange
  | .ksend _ _ a b c | .tld _ _ a b c _ | .tst _ _ a b c _ | .mloop _ _ a b c _ _ | .tcopyv _ _ a b c _ _
  | .fork _ _ a b c | .disp _ _ a b c => a.inRange && b.inRange && c.inRange
  | .kinfo _ _ q => (match q with
    | .state a | .eff a | .val a | .pc a | .nseg a | .regs a => a.inRange
    | .top => true)
  | .ld _ m | .st _ m => m.base.inRange
  | .lds _ m | .sts _ m => decide (m.d.toNat < 128) && m.base.inRange
  | .atom _ m _ _ | .atomd _ m _ _ | .cas _ m _ | .casd _ m _ => m.base.inRange
  | .lnset _ m | .lnclr _ m | .baraArrive _ _ m | .baraInit _ _ m | .baraLeave _ _ m | .baraKill _ _ m
  | .barw _ _ m | .icinv _ m => m.base.inRange
  | .view _ _ stamp => (match stamp with | none => true | some a => a.inRange)
  | .qst _ _ a b keep _ _ _ => a.inRange && b.inRange && (match keep with | none => true | some c => c.inRange)
  | .ctxrd _ ud d a _ => destInRange ud d && a.inRange
  | _ => true

/-- An instruction word of R75 holds exactly this term. -/
def Instr.wellFormed (i : Instr) : Bool := i.fieldsListed && i.uniformInRange

end Sys2Proof
end

