-- ==== Sys2Proof/Decode.lean ====
section
/-! DEFINITION. The decoder of one instruction word and, after it, the encoder, both from the formats of R75 to R84, the
opcode map of R86 and the entries' field lists. A refused word is refused by the name of R88's reason. -/

namespace Sys2Proof

/-- Why a word is no instruction: the reasons 0x05, 0x06 and 0x07 of R88. -/
inductive DecodeError where
  | unassigned | bitZero | reserved
  deriving DecidableEq, Repr

/-- The reason code of R88. -/
def DecodeError.code : DecodeError → Nat
  | .unassigned => 0x05
  | .bitZero => 0x06
  | .reserved => 0x07

/-- What the decoder answers for one word. -/
inductive Decoded where
  | ok (i : Instr)
  | bad (e : DecodeError)
  deriving DecidableEq, Repr

/-! ### Field values -/

def Sat.code : Sat → Nat
  | .wrap => 0 | .ss => 1 | .us => 2
def Sat.ofCode : Nat → Option Sat
  | 0 => some .wrap | 1 => some .ss | 2 => some .us | _ => none
def BWidth.code : BWidth → Nat
  | .pair => 0 | .sw => 1 | .zw => 2
def BWidth.ofCode : Nat → Option BWidth
  | 0 => some .pair | 1 => some .sw | 2 => some .zw | _ => none
def Cond.code : Cond → Nat
  | .eq => 0 | .ne => 1 | .lt => 2 | .le => 3 | .gt => 4 | .ge => 5
def Cond.ofCode : Nat → Option Cond
  | 0 => some .eq | 1 => some .ne | 2 => some .lt | 3 => some .le | 4 => some .gt | 5 => some .ge | _ => none
def Comb.code : Comb → Nat
  | .set => 0 | .and => 1 | .or => 2
def Comb.ofCode : Nat → Option Comb
  | 0 => some .set | 1 => some .and | 2 => some .or | _ => none
def FFmt.code : FFmt → Nat
  | .fp32 => 0 | .fp16 => 1 | .bf16 => 2
def FFmt.ofCode : Nat → Option FFmt
  | 0 => some .fp32 | 1 => some .fp16 | 2 => some .bf16 | _ => none
def RmField.code : RmField → Nat
  | .dyn => 0 | .rn => 4 | .rz => 5 | .rd => 6 | .ru => 7
def RmField.ofCode : Nat → Option RmField
  | 0 => some .dyn | 4 => some .rn | 5 => some .rz | 6 => some .rd | 7 => some .ru | _ => none
def FCond.code : FCond → Nat
  | .eq => 0 | .ne => 1 | .lt => 2 | .le => 3 | .gt => 4 | .ge => 5 | .un => 6 | .or => 7
def FCond.ofCode : Nat → Option FCond
  | 0 => some .eq | 1 => some .ne | 2 => some .lt | 3 => some .le | 4 => some .gt | 5 => some .ge | 6 => some .un
  | 7 => some .or | _ => none
/-- The format codes of R40 and, for CVT, of R153. -/
def Fmt.code : Fmt → Nat
  | .fp32 => 0x01 | .fp16 => 0x02 | .bf16 => 0x03 | .int8 => 0x08 | .int4 => 0x09 | .bead8 => 0x10 | .bead6 => 0x11
  | .bead4 => 0x12 | .int32 => 0x40 | .uint32 => 0x41
def Fmt.ofCode : Nat → Option Fmt
  | 0x01 => some .fp32 | 0x02 => some .fp16 | 0x03 => some .bf16 | 0x08 => some .int8 | 0x09 => some .int4
  | 0x10 => some .bead8 | 0x11 => some .bead6 | 0x12 => some .bead4 | 0x40 => some .int32 | 0x41 => some .uint32
  | _ => none
def SlotW.code : SlotW → Nat
  | .e4 => 0 | .e6 => 1 | .e8 => 2 | .e16 => 3
def SlotW.ofCode : Nat → Option SlotW
  | 0 => some .e4 | 1 => some .e6 | 2 => some .e8 | 3 => some .e16 | _ => none
def Group.code : Group → Nat
  | .g8 => 0 | .g2 => 1 | .g4 => 2
def Group.ofCode : Nat → Option Group
  | 0 => some .g8 | 1 => some .g2 | 2 => some .g4 | _ => none
def ShflMode.code : ShflMode → Nat
  | .idx => 0 | .up => 1 | .down => 2 | .xor => 3
def ShflMode.ofCode : Nat → Option ShflMode
  | 0 => some .idx | 1 => some .up | 2 => some .down | 3 => some .xor | _ => none
def VoteMode.code : VoteMode → Nat
  | .any => 0 | .all => 1 | .ballot => 2 | .eq => 3
def VoteMode.ofCode : Nat → Option VoteMode
  | 0 => some .any | 1 => some .all | 2 => some .ballot | 3 => some .eq | _ => none
def ReduOp.code : ReduOp → Nat
  | .add => 0 | .min => 1 | .max => 2 | .minu => 3 | .maxu => 4 | .and => 5 | .or => 6 | .xor => 7 | .fadd => 8
  | .fmin => 9 | .fmax => 10
def ReduOp.ofCode : Nat → Option ReduOp
  | 0 => some .add | 1 => some .min | 2 => some .max | 3 => some .minu | 4 => some .maxu | 5 => some .and
  | 6 => some .or | 7 => some .xor | 8 => some .fadd | 9 => some .fmin | 10 => some .fmax | _ => none
def MovuSel.code : MovuSel → Nat
  | .lo => 0 | .hi => 1 | .lane n => 8 + n.toNat
def MovuSel.ofCode (c : Nat) : Option MovuSel :=
  if c = 0 then some .lo else if c = 1 then some .hi
  else if 8 ≤ c ∧ c < 16 then some (.lane (BitVec.ofNat 3 (c - 8))) else none
/-- The width codes of R80. -/
def Wid.code : Wid → Nat
  | .b => 0 | .bz => 1 | .h => 2 | .hz => 3 | .w => 4 | .d => 5 | .q => 6 | .o => 7 | .g3 => 8
def Wid.ofCode : Nat → Option Wid
  | 0 => some .b | 1 => some .bz | 2 => some .h | 3 => some .hz | 4 => some .w | 5 => some .d | 6 => some .q
  | 7 => some .o | 8 => some .g3 | _ => none
def Space.code : Space → Nat
  | .generic => 0 | .lane => 1 | .core => 2 | .cluster => 3 | .chip => 4
def Space.ofCode : Nat → Option Space
  | 0 => some .generic | 1 => some .lane | 2 => some .core | 3 => some .cluster | 4 => some .chip | _ => none
def Scope.code : Scope → Nat
  | .fibre => 0 | .flock => 1 | .team => 2 | .cluster => 3 | .device => 4 | .system => 5
def Scope.ofCode : Nat → Option Scope
  | 0 => some .fibre | 1 => some .flock | 2 => some .team | 3 => some .cluster | 4 => some .device
  | 5 => some .system | _ => none
def Ord.code : Ord → Nat
  | .plain => 0 | .acq => 1 | .rel => 2 | .ar => 3
def Ord.ofCode : Nat → Option Ord
  | 0 => some .plain | 1 => some .acq | 2 => some .rel | 3 => some .ar | _ => none
def AtomOp.code : AtomOp → Nat
  | .add => 0 | .and => 1 | .or => 2 | .xor => 3 | .min => 4 | .max => 5 | .minu => 6 | .maxu => 7 | .xchg => 8
  | .incw => 9 | .fadd => 10 | .fmin => 11 | .fmax => 12
def AtomOp.ofCode : Nat → Option AtomOp
  | 0 => some .add | 1 => some .and | 2 => some .or | 3 => some .xor | 4 => some .min | 5 => some .max
  | 6 => some .minu | 7 => some .maxu | 8 => some .xchg | 9 => some .incw | 10 => some .fadd | 11 => some .fmin
  | 12 => some .fmax | _ => none
def TSel.code : TSel → Nat
  | .state => 0 | .tag => 1 | .rows => 2 | .cols => 3 | .base => 4 | .pitch => 5 | .axis => 6
def TSel.ofCode : Nat → Option TSel
  | 0 => some .state | 1 => some .tag | 2 => some .rows | 3 => some .cols | 4 => some .base | 5 => some .pitch
  | 6 => some .axis | _ => none
def QstN.code : QstN → Nat
  | .n1 => 0 | .n2 => 1 | .n4 => 2 | .n8 => 3 | .n16 => 4 | .n32 => 5
def QstN.ofCode : Nat → Option QstN
  | 0 => some .n1 | 1 => some .n2 | 2 => some .n4 | 3 => some .n8 | 4 => some .n16 | 5 => some .n32 | _ => none
def AccN.code : AccN → Nat
  | .n1 => 0 | .n4 => 1 | .n8 => 2
def AccN.ofCode : Nat → Option AccN
  | 0 => some .n1 | 1 => some .n4 | 2 => some .n8 | _ => none
/-- FT and FSEL of R85. -/
def Ft.ft : Ft → Bool
  | .none => false | _ => true
def Ft.fsel : Ft → Bool
  | .f1 => true | _ => false
def Ft.ofBits (ft fsel : Bool) : Ft := if ft then (if fsel then .f1 else .f0) else .none

/-! ### Fields of a word -/

/-- Bits [lo+len−1:lo] of a word. -/
def bitsOf (w lo len : Nat) : Nat := w / 2 ^ lo % 2 ^ len
/-- One bit of a word. -/
def bitOf (w lo : Nat) : Bool := w / 2 ^ lo % 2 == 1
/-- OP [63:54] of R75. -/
def opOf (w : Nat) : Nat := bitsOf w 54 10
/-- PG [53:50] and PN [49] of R75. -/
def guardOf (w : Nat) : Guard := ⟨BitVec.ofNat 4 (bitsOf w 50 4), bitOf w 49⟩
/-- The D, A, B and C fields, which stand at the same bits in every format that has them (R77 to R84). -/
def fieldD (w : Nat) : BitVec 8 := BitVec.ofNat 8 (bitsOf w 41 8)
def fieldA (w : Nat) : BitVec 8 := BitVec.ofNat 8 (bitsOf w 33 8)
def fieldB (w : Nat) : BitVec 8 := BitVec.ofNat 8 (bitsOf w 25 8)
def fieldC (w : Nat) : BitVec 8 := BitVec.ofNat 8 (bitsOf w 17 8)
/-- A predicate field of R76: bits [3:0] of an operand field. -/
def predD (w : Nat) : BitVec 4 := BitVec.ofNat 4 (bitsOf w 41 4)
def predA (w : Nat) : BitVec 4 := BitVec.ofNat 4 (bitsOf w 33 4)
def predB (w : Nat) : BitVec 4 := BitVec.ofNat 4 (bitsOf w 25 4)
def predC (w : Nat) : BitVec 4 := BitVec.ofNat 4 (bitsOf w 17 4)
/-- A source from its field and its kind bit. -/
def srcOf (uniform : Bool) (n : BitVec 8) : Src := if uniform then .s n else .v n
/-- The number in an operand field and its kind bit. -/
def Src.num : Src → BitVec 8
  | .v n => n
  | .s n => n

/-! ### Reading one word, format by format -/

/-- REG sources of R77. -/
def regA (w : Nat) : Src := srcOf (bitOf w 16) (fieldA w)
def regB (w : Nat) : Src := srcOf (bitOf w 15) (fieldB w)
def regC (w : Nat) : Src := srcOf (bitOf w 14) (fieldC w)
def regFn (w : Nat) : Nat := bitsOf w 5 8
def regUn (w : Nat) : Un := ⟨bitOf w 13, fieldD w, regA w⟩
def regBin (w : Nat) : Bin := ⟨bitOf w 13, fieldD w, regA w, regB w⟩
def regTri (w : Nat) : Tri := ⟨bitOf w 13, fieldD w, regA w, regB w, regC w⟩
/-- FN[0] of R77. -/
def regFn0 (w : Nat) : Bool := bitOf w 5
def regFMode (w : Nat) : Option FMode := (FFmt.ofCode (bitsOf w 11 2)).map fun f => ⟨f, bitOf w 10⟩
def regRm (w : Nat) : Option RmField := RmField.ofCode (bitsOf w 7 3)

/-- Integer and pair groups, R137 and R143. -/
def readInt (op w : Nat) : Option Instr :=
  let g := guardOf w
  match op with
  | 0x000 => (Sat.ofCode (regFn w)).map (.add g (regBin w))
  | 0x001 => (Sat.ofCode (regFn w)).map (.sub g (regBin w))
  | 0x002 => some (.mul g (regBin w))
  | 0x003 => some (.mulhi g (regBin w) (regFn0 w))
  | 0x004 => some (.mad g (regTri w))
  | 0x005 => some (.div g (regBin w) (regFn0 w))
  | 0x006 => some (.rem g (regBin w) (regFn0 w))
  | 0x007 => some (.min g (regBin w) (regFn0 w))
  | 0x008 => some (.max g (regBin w) (regFn0 w))
  | 0x009 => some (.and g (regBin w) (regFn0 w))
  | 0x00A => some (.or g (regBin w) (regFn0 w))
  | 0x00B => some (.xor g (regBin w) (regFn0 w))
  | 0x00C => some (.shl g (regBin w))
  | 0x00D => some (.shr g (regBin w))
  | 0x00E => some (.sar g (regBin w))
  | 0x00F => some (.rot g (regBin w))
  | 0x010 => some (.bfx g (regBin w) (regFn0 w))
  | 0x011 => some (.bfi g (regTri w))
  | 0x012 => some (.clz g (regUn w))
  | 0x013 => some (.popc g (regUn w))
  | 0x014 => some (.brev g (regUn w))
  | 0x015 => some (.sel g (fieldD w) (regA w) (regB w) (predC w))
  | 0x016 => (Cond.ofCode (bitsOf w 10 3)).bind fun c => (Comb.ofCode (bitsOf w 7 2)).map fun m =>
      .icmp g (predD w) (regA w) (regB w) c (bitOf w 9) m
  | 0x017 => some (.mov g (regUn w))
  | 0x020 => (BWidth.ofCode (regFn w)).map (.addd g (regBin w))
  | 0x021 => (BWidth.ofCode (regFn w)).map (.subd g (regBin w))
  | 0x022 => some (.muld g (regBin w))
  | 0x023 => some (.shld g (regBin w))
  | 0x024 => some (.shrd g (regBin w))
  | 0x025 => some (.sard g (regBin w))
  | 0x026 => (Cond.ofCode (bitsOf w 10 3)).bind fun c => (Comb.ofCode (bitsOf w 7 2)).map fun m =>
      .icmpd g (predD w) (regA w) (regB w) c (bitOf w 9) m
  | 0x027 => some (.movd g (regUn w))
  | 0x028 => some (.andd g (regBin w))
  | 0x029 => some (.ord g (regBin w))
  | 0x02A => some (.xord g (regBin w))
  | _ => none

/-- IMM operands of R78. -/
def immA (w : Nat) : Src := srcOf (bitOf w 32) (fieldA w)
def immOp (w : Nat) : ImmOp := ⟨bitOf w 31, fieldD w, immA w, BitVec.ofNat 12 (bitsOf w 5 12)⟩
/-- UPI fields of R79. -/
def upiImm (w : Nat) : BitVec 20 := BitVec.ofNat 20 (bitsOf w 21 20)

/-- Immediate group and address formation, R144 and R145. -/
def readImm (op w : Nat) : Option Instr :=
  let g := guardOf w
  match op with
  | 0x040 => some (.addi g (immOp w))
  | 0x041 => some (.muli g (immOp w))
  | 0x042 => some (.andi g (immOp w))
  | 0x043 => some (.ori g (immOp w))
  | 0x044 => some (.xori g (immOp w))
  | 0x045 => some (.shli g (immOp w))
  | 0x046 => some (.shri g (immOp w))
  | 0x047 => some (.sari g (immOp w))
  | 0x048 => (Cond.ofCode (bitsOf w 28 3)).bind fun c => (Comb.ofCode (bitsOf w 25 2)).map fun m =>
      .icmpi g (predD w) (immA w) (BitVec.ofNat 12 (bitsOf w 5 12)) c (bitOf w 27) m
  | 0x049 => some (.adddi g (immOp w))
  | 0x04A => some (.movi g (bitOf w 31) (fieldD w) (BitVec.ofNat 12 (bitsOf w 5 12)))
  | 0x060 => some (.lui g (bitOf w 16) (fieldD w) (upiImm w))
  | 0x061 => some (.aupc g (bitOf w 16) (fieldD w) (upiImm w))
  | 0x062 => some (.lup g (bitOf w 16) (fieldD w) (upiImm w))
  | _ => none

/-- Floating-point group, R146 to R152. -/
def readFloat (op w : Nat) : Option Instr :=
  let g := guardOf w
  match op with
  | 0x080 => (regFMode w).bind fun m => (regRm w).map (.fadd g (regBin w) m)
  | 0x081 => (regFMode w).bind fun m => (regRm w).map (.fsub g (regBin w) m)
  | 0x082 => (regFMode w).bind fun m => (regRm w).map (.fmul g (regBin w) m)
  | 0x083 => (regFMode w).bind fun m => (regRm w).map (.ffma g (regTri w) m)
  | 0x084 => (regFMode w).bind fun m => (regRm w).map (.fdiv g (regBin w) m)
  | 0x085 => (regFMode w).bind fun m => (regRm w).map (.fsqrt g (regUn w) m)
  | 0x086 => (regFMode w).map fun m => .fmin g (regBin w) m (regFn0 w)
  | 0x087 => (regFMode w).map fun m => .fmax g (regBin w) m (regFn0 w)
  | 0x088 => (FFmt.ofCode (bitsOf w 11 2)).bind fun f => (FCond.ofCode (bitsOf w 7 3)).map fun c =>
      .fcmp g (predD w) (regA w) (regB w) f c (regFn0 w)
  | 0x089 => (regFMode w).map (.frcp g (regUn w))
  | 0x08A => (regFMode w).map (.frsq g (regUn w))
  | 0x08B => (regFMode w).map (.fexp2 g (regUn w))
  | 0x08C => (regFMode w).map (.flog2 g (regUn w))
  | 0x08D => (regFMode w).map (.fabs g (regUn w))
  | 0x08E => (regFMode w).map (.fneg g (regUn w))
  | 0x08F => (regFMode w).map (.fclass g (regUn w))
  | _ => none

/-- The partition of PW [7:6] of R157. -/
def regPart (w : Nat) : Option Part :=
  if bitsOf w 11 2 = 3 then some (.mask (regC w)) else (Group.ofCode (bitsOf w 11 2)).map .fixed

/-- Conversions, packing, predicates, cross-lane instructions and special-register moves, R153 to R163. -/
def readCross (op w : Nat) : Option Instr :=
  let g := guardOf w
  match op with
  | 0x0A0 => (Fmt.ofCode (fieldB w).toNat).bind fun dst => (Fmt.ofCode (fieldC w).toNat).bind fun src =>
      (RmField.ofCode (bitsOf w 10 3)).map fun rm => .cvt g (fieldD w) (regA w) dst src rm (bitOf w 9)
  | 0x0A1 => (SlotW.ofCode (bitsOf w 11 2)).map fun s =>
      .pack g (fieldD w) (regA w) (regC w) s (BitVec.ofNat 3 (bitsOf w 8 3))
  | 0x0A2 => (SlotW.ofCode (bitsOf w 11 2)).map fun s =>
      .unpk g (fieldD w) (regA w) s (BitVec.ofNat 3 (bitsOf w 8 3)) (bitOf w 7)
  | 0x0C0 => some (.pand g (predD w) (predA w) (predB w) (bitOf w 6) (bitOf w 5))
  | 0x0C1 => some (.por g (predD w) (predA w) (predB w) (bitOf w 6) (bitOf w 5))
  | 0x0C2 => some (.pxor g (predD w) (predA w) (predB w) (bitOf w 6) (bitOf w 5))
  | 0x0C3 => some (.pnot g (predD w) (predA w))
  | 0x0C4 => some (.pset g (predD w) (regA w) (bitOf w 5))
  | 0x0E0 => (Group.ofCode (bitsOf w 11 2)).map fun p => .part g (fieldD w) (regA w) p (bitOf w 6)
  | 0x0E1 => (Group.ofCode (bitsOf w 11 2)).bind fun p => (ShflMode.ofCode (bitsOf w 7 4)).map fun m =>
      .shfl g (fieldD w) (regA w) (regB w) p m (bitOf w 6)
  | 0x0E2 => (regPart w).bind fun p => (VoteMode.ofCode (bitsOf w 7 4)).map fun m =>
      .vote g (fieldD w) (regA w) p m (bitOf w 6)
  | 0x0E3 => (regPart w).bind fun p => (ReduOp.ofCode (bitsOf w 7 4)).map fun m =>
      .redu g (fieldD w) (regA w) p m (bitOf w 6)
  | 0x0E4 => (MovuSel.ofCode (bitsOf w 7 4)).map fun m => .movu g (fieldD w) (fieldA w) m (bitOf w 6)
  | 0x0F0 => some (.srd g (bitOf w 15) (fieldD w) (fieldB w))
  | 0x0F1 => some (.swr g (fieldB w) (srcOf (bitOf w 16) (fieldA w)))
  | _ => none

/-- OFF24 of R82. -/
def brnOff (w : Nat) : BitVec 24 := BitVec.ofNat 24 (bitsOf w 17 24)

/-- The selectors of KINFO, R134. -/
def kselOf (c : Nat) (a : Src) : Option KSel :=
  match c with
  | 0 => some (.state a) | 1 => some (.eff a) | 2 => some (.val a) | 3 => some (.pc a) | 4 => some (.nseg a)
  | 5 => some (.regs a) | 6 => some .top | _ => none

/-- Control, fibre and effect instructions, R114 to R134. -/
def readControl (op w : Nat) : Option Instr :=
  let g := guardOf w
  match op with
  | 0x100 => some (.bra g (brnOff w))
  | 0x101 => some (.call g (fieldD w) (brnOff w))
  | 0x102 => some (.calls g (fieldD w) (brnOff w))
  | 0x103 => if regFn0 w then some (.retS g) else some (.ret g (regA w))
  | 0x104 => some (.brx g (regA w) (regB w))
  | 0x105 => some (.callx g (fieldD w) (regA w) (regB w))
  | 0x106 => some (.reform g)
  | 0x107 => some (.backoff g (predA w))
  | 0x108 => some (.nop g)
  | 0x109 => some (.exit g)
  | 0x10A => some (.spawn g (BitVec.ofNat 8 (bitsOf w 5 8)) (fieldD w) (brnOff w))
  | 0x10B => some (.hinst g (fieldD w) (srcOf (bitOf w 13) (BitVec.ofNat 8 (bitsOf w 5 8))) (brnOff w))
  | 0x10C => some (.hdrop g)
  | 0x10D => some (.perf g (fieldD w) (regA w) (regB w) (regFn0 w))
  | 0x10E => some (.rsm g (regA w) (regB w))
  | 0x10F => some (.rsmt g (regA w) (regB w))
  | 0x110 => some (.dropk g (regA w))
  | 0x111 => some (.ksend g (fieldD w) (regA w) (regB w) (regC w))
  | 0x112 => (kselOf (bitsOf w 5 3) (regA w)).map (.kinfo g (fieldD w))
  | _ => none

/-- The base of MEM and ATM, R80 and R81. -/
def memBase (w : Nat) : Src := srcOf (bitOf w 14) (fieldA w)
def memOfs (w : Nat) : BitVec 12 := BitVec.ofNat 12 (bitsOf w 17 12)
def memFt (w : Nat) : Ft := Ft.ofBits (bitOf w 16) (bitOf w 15)
/-- SPACE, SCOPE and ORD of R80. -/
def memSSO (w : Nat) : Option (Space × Scope × Ord) :=
  (Space.ofCode (bitsOf w 11 3)).bind fun sp => (Scope.ofCode (bitsOf w 8 3)).bind fun sc =>
    (Ord.ofCode (bitsOf w 6 2)).map fun o => (sp, sc, o)
def memF (w : Nat) : Option MemF :=
  (memSSO w).bind fun x => (Wid.ofCode (bitsOf w 29 4)).map fun wd =>
    ⟨fieldD w, memBase w, wd, memOfs w, memFt w, x.1, x.2.1, x.2.2, bitOf w 5⟩
def lineF (w : Nat) : Option LineF :=
  (memSSO w).map fun x => ⟨memBase w, memOfs w, memFt w, x.1, x.2.1, x.2.2⟩
def atmF (w : Nat) : Option AtmF :=
  (memSSO w).map fun x => ⟨fieldD w, memBase w, fieldB w, memFt w, x.1, x.2.1, x.2.2⟩

/-- The modes of BARA, R191. -/
def readBara (w : Nat) : Option Instr :=
  let g := guardOf w
  (lineF w).bind fun m =>
    match bitsOf w 29 4 with
    | 0 => some (.baraArrive g (fieldD w) m)
    | 1 => some (.baraInit g (fieldD w) m)
    | 2 => some (.baraLeave g (fieldD w) m)
    | 3 => some (.baraKill g (fieldD w) m)
    | _ => none

/-- FENCE and FENCE.SC, R180 and R181. -/
def readFence (w : Nat) : Option Instr :=
  let g := guardOf w
  (memSSO w).bind fun x =>
    match bitsOf w 29 4 with
    | 0 => some (.fence g x.2.1 x.2.2)
    | 1 => some (.fenceSc g x.2.1)
    | _ => none

/-- Memory, atomic, fence and fold instructions, R164 to R195. -/
def readMem (op w : Nat) : Option Instr :=
  let g := guardOf w
  match op with
  | 0x140 => (memF w).map (.ld g)
  | 0x141 => (memF w).map (.st g)
  | 0x142 => (memF w).map (.lds g)
  | 0x143 => (memF w).map (.sts g)
  | 0x144 => (atmF w).bind fun m => (AtomOp.ofCode (bitsOf w 17 4)).map fun o => .atom g m o (bitOf w 21)
  | 0x145 => (atmF w).bind fun m => (AtomOp.ofCode (bitsOf w 17 4)).map fun o => .atomd g m o (bitOf w 21)
  | 0x146 => (atmF w).map fun m => .cas g m (fieldC w)
  | 0x147 => (atmF w).map fun m => .casd g m (fieldC w)
  | 0x148 => (lineF w).map (.lnset g)
  | 0x149 => (lineF w).map (.lnclr g)
  | 0x14A => readFence w
  | 0x14B => some (.fopen g (BitVec.ofNat 2 (bitsOf w 41 2)))
  | 0x14C => some (.fseal g (fieldD w) (BitVec.ofNat 2 (bitsOf w 33 2)))
  | 0x14D => some (.fabort g (fieldD w) (BitVec.ofNat 2 (bitsOf w 33 2)))
  | 0x14E => some (.view g (fieldD w) (if regFn0 w then some (regA w) else none))
  | 0x14F => readBara w
  | 0x150 => (lineF w).map (.barw g (fieldD w))
  | 0x151 => (lineF w).map (.icinv g)
  | 0x152 => some (.isync g)
  | _ => none

/-- ENG operands of R83. -/
def engA (w : Nat) : Src := srcOf (bitOf w 14) (fieldA w)
def engB (w : Nat) : Src := srcOf (bitOf w 13) (fieldB w)
def engC (w : Nat) : Src := srcOf (bitOf w 12) (fieldC w)
def engBank (w : Nat) : BitVec 2 := BitVec.ofNat 2 (bitsOf w 5 2)
def engCy (w : Nat) : BitVec 3 := BitVec.ofNat 3 (bitsOf w 5 3)

/-- Tile, matrix and engine instructions, R206 to R238. -/
def readEngine (op w : Nat) : Option Instr :=
  let g := guardOf w
  match op with
  | 0x180 => some (.tdef g (fieldD w) (engA w) (engB w) (bitOf w 6) (bitOf w 5))
  | 0x181 => some (.ttag g (engA w) (engB w))
  | 0x182 => (TSel.ofCode (bitsOf w 5 3)).map (.tqry g (fieldD w) (engA w))
  | 0x183 => some (.twait g (engA w) (bitOf w 5))
  | 0x184 => some (.trel g (engA w) (bitOf w 5))
  | 0x185 => some (.tld g (fieldD w) (engA w) (engB w) (engC w) (memFt w))
  | 0x186 => some (.tst g (fieldD w) (engA w) (engB w) (engC w) (memFt w))
  | 0x187 => (QstN.ofCode (bitsOf w 8 3)).map fun n =>
      .qst g (fieldD w) (engA w) (engB w) (if bitOf w 11 then some (engC w) else none) n (engCy w) (memFt w)
  | 0x188 => some (.cyrd g (fieldD w) (engCy w))
  | 0x189 => some (.cywr g (engA w) (engCy w))
  | 0x18A => some (.mready g (engA w))
  | 0x18B => some (.mloop g (fieldD w) (engA w) (engB w) (engC w) (engBank w) (memFt w))
  | 0x18C => some (.mwait g (engBank w))
  | 0x18D => (AccN.ofCode (bitsOf w 7 2)).map (.accrd g (fieldD w) (engA w) (engBank w))
  | 0x18E => (AccN.ofCode (bitsOf w 7 2)).map (.accwr g (fieldD w) (engA w) (engBank w))
  | 0x18F => some (.accz g (engBank w))
  | 0x190 => some (.mstat g (fieldD w) (engA w) (bitOf w 5))
  | 0x191 => some (.tcopy g (fieldD w) (engA w) (engB w) (bitOf w 5) (memFt w))
  | 0x192 => some (.tcopyv g (fieldD w) (engA w) (engB w) (engC w) (bitOf w 5) (memFt w))
  | 0x193 => some (.rodld g (fieldD w) (engA w) (engB w) (memFt w))
  | 0x194 => some (.fork g (fieldD w) (engA w) (engB w) (engC w))
  | 0x195 => some (.rdv g (engA w) (engB w))
  | 0x196 => some (.disp g (fieldD w) (engA w) (engB w) (engC w))
  | _ => none

/-- The kinds of TLBI, R244. -/
def readTlbi (w : Nat) : Option Instr :=
  let g := guardOf w
  match bitsOf w 5 2 with
  | 0 => some (.tlbiVa g (bitOf w 7) (regA w) (regB w))
  | 1 => some (.tlbiCtx g (bitOf w 7) (regB w))
  | 2 => some (.tlbiAll g (bitOf w 7))
  | _ => none

/-- The selections of CANCELF, R247. -/
def readCancelf (w : Nat) : Option Instr :=
  let g := guardOf w
  match bitsOf w 5 2 with
  | 0 => some (.cancelfCtx g (fieldD w) (fieldA w))
  | 1 => some (.cancelfPage g (fieldD w) (fieldA w) (fieldB w))
  | 2 => some (.cancelfRec g (fieldD w) (fieldA w) (fieldB w))
  | _ => none

/-- SPC source A of R84. -/
def spcA (w : Nat) : Src := srcOf (bitOf w 16) (fieldA w)

/-- PWR, whose register 0x08 is HBCTL (R241, R242). -/
def readPwr (w : Nat) : Option Instr :=
  if fieldB w = 0x08 then some (.pwrHbctl (guardOf w) (spcA w)) else some (.pwr (guardOf w) (fieldB w) (spcA w))

/-- Privileged and system instructions, R239 to R254. -/
def readSystem (op w : Nat) : Option Instr :=
  let g := guardOf w
  match op with
  | 0x1C0 => some (.prd g (bitOf w 15) (fieldD w) (fieldB w))
  | 0x1C1 => readPwr w
  | 0x1C2 => readTlbi w
  | 0x1C3 => some (.tlbs g (fieldD w) (regA w) (regB w) (regFn0 w))
  | 0x1C4 => readCancelf w
  | 0x1C5 => some (.regroup g (regA w) (regB w) (regFn0 w))
  | 0x1C6 => some (.ctxrd g (bitOf w 15) (fieldD w) (spcA w) (fieldB w))
  | 0x1C7 => if fieldB w = 0 then some (.hbrd g (bitOf w 15) (fieldD w) false)
      else if fieldB w = 1 then some (.hbrd g (bitOf w 15) (fieldD w) true) else none
  | 0x1C8 => some (.tbrd g (fieldD w) (fieldB w))
  | 0x1C9 => some (.svc g (fieldD w) (regA w) (regB w))
  | 0x1CA => some (.winrd g (fieldD w) (fieldA w) (fieldB w))
  | 0x1CB => some (.winwr g (fieldD w) (fieldA w) (fieldB w))
  | _ => none

/-- The assigned opcodes of R86. -/
def assigned (op : Nat) : Bool :=
  op ≤ 0x017 || (0x020 ≤ op && op ≤ 0x02A) || (0x040 ≤ op && op ≤ 0x04A) || (0x060 ≤ op && op ≤ 0x062)
  || (0x080 ≤ op && op ≤ 0x08F) || (0x0A0 ≤ op && op ≤ 0x0A2) || (0x0C0 ≤ op && op ≤ 0x0C4)
  || (0x0E0 ≤ op && op ≤ 0x0E4) || (0x0F0 ≤ op && op ≤ 0x0F1) || (0x100 ≤ op && op ≤ 0x112)
  || (0x140 ≤ op && op ≤ 0x152) || (0x180 ≤ op && op ≤ 0x196) || (0x1C0 ≤ op && op ≤ 0x1CB)

/-- The used fields of a word, read under the opcode's format. A field the entry leaves unused is not looked at here:
the comparison with the encoder's word finds it (R75). -/
def readWord (op w : Nat) : Option Instr :=
  if op < 0x040 then readInt op w
  else if op < 0x080 then readImm op w
  else if op < 0x0A0 then readFloat op w
  else if op < 0x100 then readCross op w
  else if op < 0x140 then readControl op w
  else if op < 0x180 then readMem op w
  else if op < 0x1C0 then readEngine op w
  else readSystem op w

/-! ### The encoder -/

def natOfBool (b : Bool) : Nat := if b then 1 else 0

/-- OP, PG and PN of R75. -/
def packHead (op : Nat) (g : Guard) : Nat := op * 2 ^ 54 + g.pg.toNat * 2 ^ 50 + natOfBool g.pn * 2 ^ 49

/-- A REG word of R77. -/
def packReg (op : Nat) (g : Guard) (d : Nat) (a b c : Src) (ud : Bool) (fn : Nat) : Nat :=
  packHead op g + d * 2 ^ 41 + a.num.toNat * 2 ^ 33 + b.num.toNat * 2 ^ 25 + c.num.toNat * 2 ^ 17
    + natOfBool a.uniform * 2 ^ 16 + natOfBool b.uniform * 2 ^ 15 + natOfBool c.uniform * 2 ^ 14
    + natOfBool ud * 2 ^ 13 + fn * 2 ^ 5
/-- An absent operand: field 0 with its kind bit clear (R96, R135). -/
def Src.absent : Src := .v 0
/-- An IMM word of R78. -/
def packImm (op : Nat) (g : Guard) (d : Nat) (a : Src) (ud : Bool) (fn imm : Nat) : Nat :=
  packHead op g + d * 2 ^ 41 + a.num.toNat * 2 ^ 33 + natOfBool a.uniform * 2 ^ 32 + natOfBool ud * 2 ^ 31
    + fn * 2 ^ 25 + imm * 2 ^ 5
/-- A UPI word of R79. -/
def packUpi (op : Nat) (g : Guard) (d : Nat) (imm : Nat) (ud : Bool) : Nat :=
  packHead op g + d * 2 ^ 41 + imm * 2 ^ 21 + natOfBool ud * 2 ^ 16
/-- The FT, FSEL, UB, SPACE, SCOPE and ORD bits of R80. -/
def packAcc (ft : Ft) (base : Src) (space : Space) (scope : Scope) (o : Ord) : Nat :=
  natOfBool ft.ft * 2 ^ 16 + natOfBool ft.fsel * 2 ^ 15 + natOfBool base.uniform * 2 ^ 14 + space.code * 2 ^ 11
    + scope.code * 2 ^ 8 + o.code * 2 ^ 6
/-- A MEM word of R80. -/
def packMem (op : Nat) (g : Guard) (d wid ofs : Nat) (ft : Ft) (base : Src) (space : Space) (scope : Scope) (o : Ord)
    (line : Bool) : Nat :=
  packHead op g + d * 2 ^ 41 + base.num.toNat * 2 ^ 33 + wid * 2 ^ 29 + ofs * 2 ^ 17 + packAcc ft base space scope o
    + natOfBool line * 2 ^ 5
def packMemF (op : Nat) (g : Guard) (m : MemF) : Nat :=
  packMem op g m.d.toNat m.wid.code m.ofs.toNat m.ft m.base m.space m.scope m.ord m.line
def packLineF (op : Nat) (g : Guard) (d wid : Nat) (m : LineF) : Nat :=
  packMem op g d wid m.ofs.toNat m.ft m.base m.space m.scope m.ord false
/-- An ATM word of R81. -/
def packAtm (op : Nat) (g : Guard) (m : AtmF) (c : Nat) : Nat :=
  packHead op g + m.d.toNat * 2 ^ 41 + m.base.num.toNat * 2 ^ 33 + m.b.toNat * 2 ^ 25 + c * 2 ^ 17
    + packAcc m.ft m.base m.space m.scope m.ord
/-- A BRN word of R82. -/
def packBrn (op : Nat) (g : Guard) (d off md : Nat) : Nat := packHead op g + d * 2 ^ 41 + off * 2 ^ 17 + md * 2 ^ 5
/-- An ENG word of R83. -/
def packEng (op : Nat) (g : Guard) (d : Nat) (a b c : Src) (ft : Ft) (ef : Nat) : Nat :=
  packHead op g + d * 2 ^ 41 + a.num.toNat * 2 ^ 33 + b.num.toNat * 2 ^ 25 + c.num.toNat * 2 ^ 17
    + natOfBool ft.ft * 2 ^ 16 + natOfBool ft.fsel * 2 ^ 15 + natOfBool a.uniform * 2 ^ 14
    + natOfBool b.uniform * 2 ^ 13 + natOfBool c.uniform * 2 ^ 12 + ef * 2 ^ 5
/-- An SPC word of R84. -/
def packSpc (op : Nat) (g : Guard) (d : Nat) (a : Src) (srn : Nat) (ud : Bool) : Nat :=
  packHead op g + d * 2 ^ 41 + a.num.toNat * 2 ^ 33 + srn * 2 ^ 25 + natOfBool a.uniform * 2 ^ 16
    + natOfBool ud * 2 ^ 15

def packUn (op : Nat) (g : Guard) (o : Un) (fn : Nat) : Nat := packReg op g o.d.toNat o.a .absent .absent o.ud fn
def packBin (op : Nat) (g : Guard) (o : Bin) (fn : Nat) : Nat := packReg op g o.d.toNat o.a o.b .absent o.ud fn
def packTri (op : Nat) (g : Guard) (o : Tri) (fn : Nat) : Nat := packReg op g o.d.toNat o.a o.b o.c o.ud fn
def packImmOp (op : Nat) (g : Guard) (o : ImmOp) : Nat := packImm op g o.d.toNat o.a o.ud 0 o.imm.toNat
/-- FN of ICMP and ICMPD (R137). -/
def fnCmp (c : Cond) (u : Bool) (m : Comb) : Nat := c.code * 2 ^ 5 + natOfBool u * 2 ^ 4 + m.code * 2 ^ 2
/-- FN of the floating-point group (R146). -/
def fnFloat (m : FMode) (rm opt : Nat) : Nat := m.fmt.code * 2 ^ 6 + natOfBool m.x2 * 2 ^ 5 + rm * 2 ^ 2 + opt
/-- FN of the cross-lane group (R157). -/
def fnCross (pw mode : Nat) (dbl : Bool) : Nat := pw * 2 ^ 6 + mode * 2 ^ 2 + natOfBool dbl * 2
def Part.code : Part → Nat
  | .fixed g => g.code
  | .mask _ => 3
def Part.src : Part → Src
  | .fixed _ => .absent
  | .mask c => c
def KSel.code : KSel → Nat
  | .state _ => 0 | .eff _ => 1 | .val _ => 2 | .pc _ => 3 | .nseg _ => 4 | .regs _ => 5 | .top => 6
def KSel.src : KSel → Src
  | .state a | .eff a | .val a | .pc a | .nseg a | .regs a => a
  | .top => .absent

/-- The word of an instruction, with HNT zero (R75); the steps of the other agents have none. -/
def encode : Instr → Option Nat
  | .add g o s => some (packBin 0x000 g o s.code)
  | .sub g o s => some (packBin 0x001 g o s.code)
  | .mul g o => some (packBin 0x002 g o 0)
  | .mulhi g o u => some (packBin 0x003 g o (natOfBool u))
  | .mad g o => some (packTri 0x004 g o 0)
  | .div g o u => some (packBin 0x005 g o (natOfBool u))
  | .rem g o u => some (packBin 0x006 g o (natOfBool u))
  | .min g o u => some (packBin 0x007 g o (natOfBool u))
  | .max g o u => some (packBin 0x008 g o (natOfBool u))
  | .and g o n => some (packBin 0x009 g o (natOfBool n))
  | .or g o n => some (packBin 0x00A g o (natOfBool n))
  | .xor g o n => some (packBin 0x00B g o (natOfBool n))
  | .shl g o => some (packBin 0x00C g o 0)
  | .shr g o => some (packBin 0x00D g o 0)
  | .sar g o => some (packBin 0x00E g o 0)
  | .rot g o => some (packBin 0x00F g o 0)
  | .bfx g o s => some (packBin 0x010 g o (natOfBool s))
  | .bfi g o => some (packTri 0x011 g o 0)
  | .clz g o => some (packUn 0x012 g o 0)
  | .popc g o => some (packUn 0x013 g o 0)
  | .brev g o => some (packUn 0x014 g o 0)
  | .sel g d a b p => some (packReg 0x015 g d.toNat a b (.v (p.setWidth 8)) false 0)
  | .icmp g p a b c u m => some (packReg 0x016 g p.toNat a b .absent false (fnCmp c u m))
  | .mov g o => some (packUn 0x017 g o 0)
  | .addd g o w => some (packBin 0x020 g o w.code)
  | .subd g o w => some (packBin 0x021 g o w.code)
  | .muld g o => some (packBin 0x022 g o 0)
  | .shld g o => some (packBin 0x023 g o 0)
  | .shrd g o => some (packBin 0x024 g o 0)
  | .sard g o => some (packBin 0x025 g o 0)
  | .icmpd g p a b c u m => some (packReg 0x026 g p.toNat a b .absent false (fnCmp c u m))
  | .movd g o => some (packUn 0x027 g o 0)
  | .andd g o => some (packBin 0x028 g o 0)
  | .ord g o => some (packBin 0x029 g o 0)
  | .xord g o => some (packBin 0x02A g o 0)
  | .addi g o => some (packImmOp 0x040 g o)
  | .muli g o => some (packImmOp 0x041 g o)
  | .andi g o => some (packImmOp 0x042 g o)
  | .ori g o => some (packImmOp 0x043 g o)
  | .xori g o => some (packImmOp 0x044 g o)
  | .shli g o => some (packImmOp 0x045 g o)
  | .shri g o => some (packImmOp 0x046 g o)
  | .sari g o => some (packImmOp 0x047 g o)
  | .icmpi g p a imm c u m =>
    some (packImm 0x048 g p.toNat a false (c.code * 2 ^ 3 + natOfBool u * 2 ^ 2 + m.code) imm.toNat)
  | .adddi g o => some (packImmOp 0x049 g o)
  | .movi g ud d imm => some (packImm 0x04A g d.toNat .absent ud 0 imm.toNat)
  | .lui g ud d imm => some (packUpi 0x060 g d.toNat imm.toNat ud)
  | .aupc g ud d imm => some (packUpi 0x061 g d.toNat imm.toNat ud)
  | .lup g ud d imm => some (packUpi 0x062 g d.toNat imm.toNat ud)
  | .fadd g o m rm => some (packBin 0x080 g o (fnFloat m rm.code 0))
  | .fsub g o m rm => some (packBin 0x081 g o (fnFloat m rm.code 0))
  | .fmul g o m rm => some (packBin 0x082 g o (fnFloat m rm.code 0))
  | .ffma g o m rm => some (packTri 0x083 g o (fnFloat m rm.code 0))
  | .fdiv g o m rm => some (packBin 0x084 g o (fnFloat m rm.code 0))
  | .fsqrt g o m rm => some (packUn 0x085 g o (fnFloat m rm.code 0))
  | .fmin g o m n => some (packBin 0x086 g o (fnFloat m 0 (natOfBool n)))
  | .fmax g o m n => some (packBin 0x087 g o (fnFloat m 0 (natOfBool n)))
  | .fcmp g p a b f c s =>
    some (packReg 0x088 g p.toNat a b .absent false (fnFloat ⟨f, false⟩ c.code (natOfBool s)))
  | .frcp g o m => some (packUn 0x089 g o (fnFloat m 0 0))
  | .frsq g o m => some (packUn 0x08A g o (fnFloat m 0 0))
  | .fexp2 g o m => some (packUn 0x08B g o (fnFloat m 0 0))
  | .flog2 g o m => some (packUn 0x08C g o (fnFloat m 0 0))
  | .fabs g o m => some (packUn 0x08D g o (fnFloat m 0 0))
  | .fneg g o m => some (packUn 0x08E g o (fnFloat m 0 0))
  | .fclass g o m => some (packUn 0x08F g o (fnFloat m 0 0))
  | .cvt g d a dst src rm sat =>
    some (packReg 0x0A0 g d.toNat a (.v (BitVec.ofNat 8 dst.code)) (.v (BitVec.ofNat 8 src.code)) false
      (rm.code * 2 ^ 5 + natOfBool sat * 2 ^ 4))
  | .pack g d a c w j => some (packReg 0x0A1 g d.toNat a .absent c false (w.code * 2 ^ 6 + j.toNat * 2 ^ 3))
  | .unpk g d a w j s =>
    some (packReg 0x0A2 g d.toNat a .absent .absent false (w.code * 2 ^ 6 + j.toNat * 2 ^ 3 + natOfBool s * 2 ^ 2))
  | .pand g p a b na nb =>
    some (packReg 0x0C0 g p.toNat (.v (a.setWidth 8)) (.v (b.setWidth 8)) .absent false
      (natOfBool na * 2 + natOfBool nb))
  | .por g p a b na nb =>
    some (packReg 0x0C1 g p.toNat (.v (a.setWidth 8)) (.v (b.setWidth 8)) .absent false
      (natOfBool na * 2 + natOfBool nb))
  | .pxor g p a b na nb =>
    some (packReg 0x0C2 g p.toNat (.v (a.setWidth 8)) (.v (b.setWidth 8)) .absent false
      (natOfBool na * 2 + natOfBool nb))
  | .pnot g p a => some (packReg 0x0C3 g p.toNat (.v (a.setWidth 8)) .absent .absent false 0)
  | .pset g p a z => some (packReg 0x0C4 g p.toNat a .absent .absent false (natOfBool z))
  | .part g d a pw dbl => some (packReg 0x0E0 g d.toNat a .absent .absent false (fnCross pw.code 0 dbl))
  | .shfl g d a b pw mode dbl => some (packReg 0x0E1 g d.toNat a b .absent false (fnCross pw.code mode.code dbl))
  | .vote g d a pw mode dbl => some (packReg 0x0E2 g d.toNat a .absent pw.src false (fnCross pw.code mode.code dbl))
  | .redu g d a pw op dbl => some (packReg 0x0E3 g d.toNat a .absent pw.src false (fnCross pw.code op.code dbl))
  | .movu g d a sel dbl => some (packReg 0x0E4 g d.toNat (.v a) .absent .absent false (fnCross 0 sel.code dbl))
  | .srd g ud d n => some (packSpc 0x0F0 g d.toNat .absent n.toNat ud)
  | .swr g n a => some (packSpc 0x0F1 g 0 a n.toNat false)
  | .bra g off => some (packBrn 0x100 g 0 off.toNat 0)
  | .call g d off => some (packBrn 0x101 g d.toNat off.toNat 0)
  | .calls g d off => some (packBrn 0x102 g d.toNat off.toNat 0)
  | .ret g a => some (packReg 0x103 g 0 a .absent .absent false 0)
  | .retS g => some (packReg 0x103 g 0 .absent .absent .absent false 1)
  | .brx g a b => some (packReg 0x104 g 0 a b .absent false 0)
  | .callx g d a b => some (packReg 0x105 g d.toNat a b .absent false 0)
  | .reform g => some (packReg 0x106 g 0 .absent .absent .absent false 0)
  | .backoff g p => some (packReg 0x107 g 0 (.v (p.setWidth 8)) .absent .absent false 0)
  | .nop g => some (packReg 0x108 g 0 .absent .absent .absent false 0)
  | .exit g => some (packReg 0x109 g 0 .absent .absent .absent false 0)
  | .spawn g x d off => some (packBrn 0x10A g d.toNat off.toNat x.toNat)
  | .hinst g ve k off => some (packBrn 0x10B g ve.toNat off.toNat (k.num.toNat + natOfBool k.uniform * 2 ^ 8))
  | .hdrop g => some (packReg 0x10C g 0 .absent .absent .absent false 0)
  | .perf g d a b r => some (packReg 0x10D g d.toNat a b .absent false (natOfBool r))
  | .rsm g a b => some (packReg 0x10E g 0 a b .absent false 0)
  | .rsmt g a b => some (packReg 0x10F g 0 a b .absent false 0)
  | .dropk g a => some (packReg 0x110 g 0 a .absent .absent false 0)
  | .ksend g d a b c => some (packReg 0x111 g d.toNat a b c false 0)
  | .kinfo g d sel => some (packReg 0x112 g d.toNat sel.src .absent .absent false sel.code)
  | .ld g m => some (packMemF 0x140 g m)
  | .st g m => some (packMemF 0x141 g m)
  | .lds g m => some (packMemF 0x142 g m)
  | .sts g m => some (packMemF 0x143 g m)
  | .atom g m op nr => some (packAtm 0x144 g m (natOfBool nr * 2 ^ 4 + op.code))
  | .atomd g m op nr => some (packAtm 0x145 g m (natOfBool nr * 2 ^ 4 + op.code))
  | .cas g m c => some (packAtm 0x146 g m c.toNat)
  | .casd g m c => some (packAtm 0x147 g m c.toNat)
  | .lnset g m => some (packLineF 0x148 g 0 0 m)
  | .lnclr g m => some (packLineF 0x149 g 0 0 m)
  | .fence g scope o => some (packMem 0x14A g 0 0 0 .none .absent .generic scope o false)
  | .fenceSc g scope => some (packMem 0x14A g 0 1 0 .none .absent .generic scope .plain false)
  | .fopen g n => some (packReg 0x14B g n.toNat .absent .absent .absent false 0)
  | .fseal g d n => some (packReg 0x14C g d.toNat (.v (n.setWidth 8)) .absent .absent false 0)
  | .fabort g d n => some (packReg 0x14D g d.toNat (.v (n.setWidth 8)) .absent .absent false 0)
  | .view g d none => some (packReg 0x14E g d.toNat .absent .absent .absent false 0)
  | .view g d (some a) => some (packReg 0x14E g d.toNat a .absent .absent false 1)
  | .baraArrive g d m => some (packLineF 0x14F g d.toNat 0 m)
  | .baraInit g d m => some (packLineF 0x14F g d.toNat 1 m)
  | .baraLeave g d m => some (packLineF 0x14F g d.toNat 2 m)
  | .baraKill g d m => some (packLineF 0x14F g d.toNat 3 m)
  | .barw g d m => some (packLineF 0x150 g d.toNat 0 m)
  | .icinv g m => some (packLineF 0x151 g 0 0 m)
  | .isync g => some (packReg 0x152 g 0 .absent .absent .absent false 0)
  | .tdef g d a b chain ready =>
    some (packEng 0x180 g d.toNat a b .absent .none (natOfBool chain * 2 + natOfBool ready))
  | .ttag g a b => some (packEng 0x181 g 0 a b .absent .none 0)
  | .tqry g d a sel => some (packEng 0x182 g d.toNat a .absent .absent .none sel.code)
  | .twait g a e => some (packEng 0x183 g 0 a .absent .absent .none (natOfBool e))
  | .trel g a u => some (packEng 0x184 g 0 a .absent .absent .none (natOfBool u))
  | .tld g d a b c ft => some (packEng 0x185 g d.toNat a b c ft 0)
  | .tst g d a b c ft => some (packEng 0x186 g d.toNat a b c ft 0)
  | .qst g d a b none n cy ft => some (packEng 0x187 g d.toNat a b .absent ft (n.code * 2 ^ 3 + cy.toNat))
  | .qst g d a b (some c) n cy ft => some (packEng 0x187 g d.toNat a b c ft (2 ^ 6 + n.code * 2 ^ 3 + cy.toNat))
  | .cyrd g d cy => some (packEng 0x188 g d.toNat .absent .absent .absent .none cy.toNat)
  | .cywr g a cy => some (packEng 0x189 g 0 a .absent .absent .none cy.toNat)
  | .mready g a => some (packEng 0x18A g 0 a .absent .absent .none 0)
  | .mloop g d a b c bank ft => some (packEng 0x18B g d.toNat a b c ft bank.toNat)
  | .mwait g bank => some (packEng 0x18C g 0 .absent .absent .absent .none bank.toNat)
  | .accrd g d a bank n => some (packEng 0x18D g d.toNat a .absent .absent .none (n.code * 2 ^ 2 + bank.toNat))
  | .accwr g d a bank n => some (packEng 0x18E g d.toNat a .absent .absent .none (n.code * 2 ^ 2 + bank.toNat))
  | .accz g bank => some (packEng 0x18F g 0 .absent .absent .absent .none bank.toNat)
  | .mstat g d a clr => some (packEng 0x190 g d.toNat a .absent .absent .none (natOfBool clr))
  | .tcopy g d a b t ft => some (packEng 0x191 g d.toNat a b .absent ft (natOfBool t))
  | .tcopyv g d a b c t ft => some (packEng 0x192 g d.toNat a b c ft (natOfBool t))
  | .rodld g d a b ft => some (packEng 0x193 g d.toNat a b .absent ft 0)
  | .fork g d a b c => some (packEng 0x194 g d.toNat a b c .none 0)
  | .rdv g a b => some (packEng 0x195 g 0 a b .absent .none 0)
  | .disp g d a b c => some (packEng 0x196 g d.toNat a b c .none 0)
  | .prd g ud d n => some (packSpc 0x1C0 g d.toNat .absent n.toNat ud)
  | .pwr g n a => some (packSpc 0x1C1 g 0 a n.toNat false)
  | .pwrHbctl g a => some (packSpc 0x1C1 g 0 a 0x08 false)
  | .tlbiVa g sys a b => some (packReg 0x1C2 g 0 a b .absent false (natOfBool sys * 2 ^ 2))
  | .tlbiCtx g sys b => some (packReg 0x1C2 g 0 .absent b .absent false (natOfBool sys * 2 ^ 2 + 1))
  | .tlbiAll g sys => some (packReg 0x1C2 g 0 .absent .absent .absent false (natOfBool sys * 2 ^ 2 + 2))
  | .tlbs g d a b walk => some (packReg 0x1C3 g d.toNat a b .absent false (natOfBool walk))
  | .cancelfCtx g d a => some (packReg 0x1C4 g d.toNat (.v a) .absent .absent false 0)
  | .cancelfPage g d a b => some (packReg 0x1C4 g d.toNat (.v a) (.v b) .absent false 1)
  | .cancelfRec g d a b => some (packReg 0x1C4 g d.toNat (.v a) (.v b) .absent false 2)
  | .regroup g a b hold => some (packReg 0x1C5 g 0 a b .absent false (natOfBool hold))
  | .ctxrd g ud d a n => some (packSpc 0x1C6 g d.toNat a n.toNat ud)
  | .hbrd g ud d sub => some (packSpc 0x1C7 g d.toNat .absent (natOfBool sub) ud)
  | .tbrd g d n => some (packSpc 0x1C8 g d.toNat .absent n.toNat false)
  | .svc g d a b => some (packReg 0x1C9 g d.toNat a b .absent false 0)
  | .winrd g d a c => some (packSpc 0x1CA g d.toNat (.v a) c.toNat false)
  | .winwr g d a c => some (packSpc 0x1CB g d.toNat (.v a) c.toNat false)
  | _ => none

/-! ### Properties of an instruction -/

/-- The instructions that may take FT = 1 (R85, R169, R206). -/
def Instr.longLatency : Instr → Bool
  | .st .. | .sts .. | .atom .. | .atomd .. | .cas .. | .casd .. | .lnset .. | .lnclr .. | .baraArrive ..
  | .baraInit .. | .baraLeave .. | .baraKill .. | .icinv .. | .tld .. | .tst .. | .qst .. | .mloop .. | .tcopy ..
  | .tcopyv .. | .rodld .. => true
  | _ => false

/-- The tracking fields of an instruction. -/
def Instr.tracked : Instr → Ft
  | .st _ m | .sts _ m => m.ft
  | .atom _ m _ _ | .atomd _ m _ _ | .cas _ m _ | .casd _ m _ => m.ft
  | .lnset _ m | .lnclr _ m | .baraArrive _ _ m | .baraInit _ _ m | .baraLeave _ _ m | .baraKill _ _ m
  | .icinv _ m => m.ft
  | .tld _ _ _ _ _ ft | .tst _ _ _ _ _ ft | .qst _ _ _ _ _ _ _ ft | .mloop _ _ _ _ _ _ ft | .tcopy _ _ _ _ _ ft
  | .tcopyv _ _ _ _ _ _ ft | .rodld _ _ _ _ ft => ft
  | _ => .none

/-- The word without HNT, and without FSEL where FT = 0 lets FlagSelectBad of R89, code 0x0E, judge it (R75, R85). -/
def strictWord (i : Instr) (w : Nat) : Nat :=
  let v := w / 2 ^ 5 * 2 ^ 5
  if i.longLatency && !bitOf w 16 then v - bitsOf v 15 1 * 2 ^ 15 else v

/-- DecodeInstruction of R89 as far as one word decides it: 0x05, 0x06, then 0x07 for a field value that the entry
does not list or a non-zero unused field, found by comparing the word with the encoder's. -/
def decodeWord (w : Nat) : Decoded :=
  if !assigned (opOf w) then .bad .unassigned
  else if bitOf w 0 then .bad .bitZero
  else match readWord (opOf w) w with
    | none => .bad .reserved
    | some i => if i.fieldsListed && encode i == some (strictWord i w) then .ok i else .bad .reserved

/-- A word from its bytes, little-endian (R6, R68). -/
def natOfBytes : List Byte → Nat
  | [] => 0
  | b :: r => b.toNat + 256 * natOfBytes r

/-- The bytes of a number, little-endian, `n` of them (R6). -/
def bytesOfNat : Nat → Nat → List Byte
  | 0, _ => []
  | n + 1, x => BitVec.ofNat 8 (x % 256) :: bytesOfNat n (x / 256)

/-- The decoder on a list of bytes: the instruction of the first eight bytes and the rest, total on any bytes. -/
def decode (bytes : List Byte) : Option (Decoded × List Byte) :=
  if bytes.length < 8 then none else some (decodeWord (natOfBytes (bytes.take 8)), bytes.drop 8)

/-- The decoder on an opcode-table row's bits: the word laid out as eight little-endian bytes (R68). -/
def decodeTableWord (_nbits w : Nat) : Option Instr :=
  match decode (bytesOfNat 8 w) with
  | some (.ok i, _) => if i.uniformInRange then some i else none
  | _ => none

/-- FlagSelectBad of R89 on the word's own bits: FT = 0 leaves FSEL zero (R85). -/
def fselWithoutFt (i : Instr) (w : Nat) : Bool := i.longLatency && !bitOf w 16 && bitOf w 15

/-- The guard of an instruction; the steps of other agents have none (R22, R75). -/
def Instr.guard : Instr → Guard
  | .add g .. | .sub g .. | .mul g .. | .mulhi g .. | .mad g .. | .div g .. | .rem g .. | .min g .. | .max g ..
  | .and g .. | .or g .. | .xor g .. | .shl g .. | .shr g .. | .sar g .. | .rot g .. | .bfx g .. | .bfi g ..
  | .clz g .. | .popc g .. | .brev g .. | .sel g .. | .icmp g .. | .mov g .. | .addd g .. | .subd g ..
  | .muld g .. | .shld g .. | .shrd g .. | .sard g .. | .icmpd g .. | .movd g .. | .andd g .. | .ord g ..
  | .xord g .. | .addi g .. | .muli g .. | .andi g .. | .ori g .. | .xori g .. | .shli g .. | .shri g ..
  | .sari g .. | .icmpi g .. | .adddi g .. | .movi g .. | .lui g .. | .aupc g .. | .lup g .. | .fadd g ..
  | .fsub g .. | .fmul g .. | .ffma g .. | .fdiv g .. | .fsqrt g .. | .fmin g .. | .fmax g .. | .fcmp g ..
  | .frcp g .. | .frsq g .. | .fexp2 g .. | .flog2 g .. | .fabs g .. | .fneg g .. | .fclass g .. | .cvt g ..
  | .pack g .. | .unpk g .. | .pand g .. | .por g .. | .pxor g .. | .pnot g .. | .pset g .. | .part g ..
  | .shfl g .. | .vote g .. | .redu g .. | .movu g .. | .srd g .. | .swr g .. | .bra g .. | .call g ..
  | .calls g .. | .ret g .. | .retS g .. | .brx g .. | .callx g .. | .reform g .. | .backoff g .. | .nop g ..
  | .exit g .. | .spawn g .. | .hinst g .. | .hdrop g .. | .perf g .. | .rsm g .. | .rsmt g .. | .dropk g ..
  | .ksend g .. | .kinfo g .. | .ld g .. | .st g .. | .lds g .. | .sts g .. | .atom g .. | .atomd g ..
  | .cas g .. | .casd g .. | .lnset g .. | .lnclr g .. | .fence g .. | .fenceSc g .. | .fopen g ..
  | .fseal g .. | .fabort g .. | .view g .. | .baraArrive g .. | .baraInit g .. | .baraLeave g ..
  | .baraKill g .. | .barw g .. | .icinv g .. | .isync g .. | .tdef g .. | .ttag g .. | .tqry g ..
  | .twait g .. | .trel g .. | .tld g .. | .tst g .. | .qst g .. | .cyrd g .. | .cywr g .. | .mready g ..
  | .mloop g .. | .mwait g .. | .accrd g .. | .accwr g .. | .accz g .. | .mstat g .. | .tcopy g ..
  | .tcopyv g .. | .rodld g .. | .fork g .. | .rdv g .. | .disp g .. | .prd g .. | .pwr g .. | .pwrHbctl g ..
  | .tlbiVa g .. | .tlbiCtx g .. | .tlbiAll g .. | .tlbs g .. | .cancelfCtx g .. | .cancelfPage g ..
  | .cancelfRec g .. | .regroup g .. | .ctxrd g .. | .hbrd g .. | .tbrd g .. | .svc g .. | .winrd g ..
  | .winwr g .. => g
  | _ => ⟨0, false⟩

/-- The opcode of an instruction, R86. -/
def Instr.opcode (i : Instr) : Option Nat := (encode i).map opOf

/-- Home class of R70; `none` is ANY. -/
inductive Home where
  | lane | mem | eng | ctl | sys | any
  deriving DecidableEq, Repr

/-- Home classes of R86. -/
def Instr.home (i : Instr) : Home :=
  match i.opcode with
  | none => .any
  | some op =>
    if op < 0x100 then .lane
    else if op < 0x106 then .any
    else if op < 0x108 then .ctl
    else if op < 0x10A then .any
    else if op < 0x140 then .ctl
    else if op < 0x180 then .mem
    else if op < 0x1C0 then .eng
    else .sys

/-- The engine class code of R70. -/
def Home.code : Home → Nat
  | .lane => 0 | .mem => 1 | .eng => 2 | .ctl => 3 | .sys => 4 | .any => 0

/-- R70: what a clause of an engine class may hold. -/
def Home.permitted (cls : Nat) : Home → Bool
  | .lane | .any => true
  | h => h.code == cls

/-- Clause-ending instructions, R87. -/
def Instr.endsClause : Instr → Bool
  | .bra .. | .call .. | .calls .. | .ret .. | .retS .. | .brx .. | .callx .. | .exit .. | .reform .. | .backoff ..
  | .hinst .. | .hdrop .. | .perf .. | .rsm .. | .rsmt .. | .isync .. | .svc .. | .regroup .. => true
  | _ => false

/-- The clause-ending opcodes of R87, for LastOp of R74. -/
def opEndsClause (op : Nat) : Bool :=
  (0x100 ≤ op && op ≤ 0x107) || op == 0x109 || (0x10B ≤ op && op ≤ 0x10F) || op == 0x152 || op == 0x1C5 || op == 0x1C9

/-- The required privilege level, R239; 0 elsewhere. -/
def Instr.level : Instr → Nat
  | .prd .. | .pwr .. | .pwrHbctl .. | .tlbiVa .. | .tlbiCtx .. | .tlbiAll .. | .tlbs .. | .cancelfCtx ..
  | .cancelfPage .. | .cancelfRec .. | .regroup .. | .ctxrd .. | .winrd .. | .winwr .. => 1
  | _ => 0

/-! ### The clause header -/

/-- The fields of a clause header (R69). -/
structure Header where
  cls : Nat
  count : Nat
  wait : BitVec 12
  sf0 : Option (BitVec 4)
  sf1 : Option (BitVec 4)
  cont : Bool
  deriving DecidableEq, Repr

/-- The header signature, bits [63:58] = 0b111110 (R69). -/
def hasSignature (w : Nat) : Bool := bitsOf w 58 6 == 0b111110

/-- A SET_FLAG field: V at the fifth bit, the index below it. -/
def setFlagOf (f : Nat) : Option (BitVec 4) := if f / 16 = 1 then some (BitVec.ofNat 4 f) else none

/-- A single SET_FLAG field is bad, R71. -/
def setFlagBad (f : Nat) : Bool := (f / 16 == 0 && f % 16 != 0) || (f / 16 == 1 && 12 ≤ f % 16)

/-- What DecodeClause answers: the header or the reason code of R88. -/
inductive HeaderResult where
  | ok (h : Header)
  | bad (code : Nat)
  deriving DecidableEq, Repr

/-- DecodeClause of R72 on the header word. -/
def decodeHeader (w : Nat) : HeaderResult :=
  if !hasSignature w then .bad 0x01
  else if 5 ≤ bitsOf w 55 3 then .bad 0x02
  else if bitsOf w 0 28 ≠ 0 then .bad 0x03
  else if setFlagBad (bitsOf w 34 5) || setFlagBad (bitsOf w 29 5) then .bad 0x04
  else if bitOf w 38 && bitOf w 33 && bitsOf w 34 4 == bitsOf w 29 4 then .bad 0x04
  else .ok ⟨bitsOf w 55 3, bitsOf w 51 4 + 1, BitVec.ofNat 12 (bitsOf w 39 12), setFlagOf (bitsOf w 34 5),
    setFlagOf (bitsOf w 29 5), bitOf w 28⟩

/-- The header word of R69. -/
def encodeHeader (h : Header) : Nat :=
  let sf : Option (BitVec 4) → Nat := fun x => match x with | none => 0 | some i => 16 + i.toNat
  0b111110 * 2 ^ 58 + h.cls * 2 ^ 55 + (h.count - 1) * 2 ^ 51 + h.wait.toNat * 2 ^ 39 + sf h.sf0 * 2 ^ 34
    + sf h.sf1 * 2 ^ 29 + natOfBool h.cont * 2 ^ 28

/-- FlagSelectBad of R89 against a header: FT = 1 names a valid SET_FLAG field (R85). -/
def ftBad (i : Instr) (h : Header) : Bool :=
  match i.tracked with
  | .none => false
  | .f0 => h.sf0.isNone
  | .f1 => h.sf1.isNone

end Sys2Proof
end

