-- ==== Sys2Proof/Machine/Table.lean ====
section
/-! DEFINITION. Finite tables as sorted lists of key and value pairs, and the sparse ones that list no default value. -/

namespace Sys2Proof.Machine

/-- A table: key and value pairs with strictly rising keys. -/
abbrev Tab (α : Type) := List (Nat × α)

/-- The value at a key. -/
def tabGet {α : Type} : Tab α → Nat → Option α
  | [], _ => none
  | (j, v) :: r, k => if j = k then some v else tabGet r k

/-- The value at a key, or a default. -/
def tabGetD {α : Type} (t : Tab α) (k : Nat) (d : α) : α := (tabGet t k).getD d

/-- Puts a value at a key, keeping the keys rising. -/
def tabPut {α : Type} : Tab α → Nat → α → Tab α
  | [], k, v => [(k, v)]
  | (j, w) :: r, k, v => if k < j then (k, v) :: (j, w) :: r else if k = j then (k, v) :: r else (j, w) :: tabPut r k v

/-- Removes a key. -/
def tabDel {α : Type} : Tab α → Nat → Tab α
  | [], _ => []
  | (j, w) :: r, k => if j = k then tabDel r k else (j, w) :: tabDel r k

/-- Puts a value at a key of a sparse table, which lists no default. -/
def tabPutD {α : Type} [DecidableEq α] (t : Tab α) (k : Nat) (v d : α) : Tab α :=
  if v = d then tabDel t k else tabPut t k v

/-- Changes the value at a key that the table holds. -/
def tabMod {α : Type} (t : Tab α) (k : Nat) (f : α → α) : Tab α :=
  match tabGet t k with
  | none => t
  | some v => tabPut t k (f v)

/-- The least key not below `n` that the table does not hold. -/
def tabFresh {α : Type} (t : Tab α) (n : Nat) : Nat := t.foldl (fun m kv => if m ≤ kv.1 then kv.1 + 1 else m) n

/-- The keys rise strictly and no listed value is the default: the canonical form. -/
def tabCanonical {α : Type} [DecidableEq α] (d : α) : Tab α → Bool
  | [] => true
  | [(_, v)] => decide (v ≠ d)
  | (j, v) :: (k, w) :: r => decide (j < k) && decide (v ≠ d) && tabCanonical d ((k, w) :: r)

/-- Sets the element at an index of a list. -/
def setAt {α : Type} (l : List α) (n : Nat) (x : α) : List α := l.set n x

/-- The first element of a list that satisfies a test, with its index. -/
def indexOf? {α : Type} (p : α → Bool) : List α → Nat → Option Nat
  | [], _ => none
  | x :: r, n => if p x then some n else indexOf? p r (n + 1)

/-- Removes the element at an index. -/
def dropAt {α : Type} (l : List α) (n : Nat) : List α := l.take n ++ l.drop (n + 1)

end Sys2Proof.Machine
end

