-- ==== Sys2Proof/Machine/State.lean ====
section
/-! DEFINITION. The state of one Leriz device as plain data, the reasons a step can stop, and the state after reset. -/

namespace Sys2Proof.Machine

/-- Why the machine stops with a fault. -/
inductive Fault where
  /-- Raised by every meaning of an instruction word when no run is in progress, so that no flock issues it: the spec
  gives an instruction no effect outside a run (R92). Safe: no claim about an issued instruction meets it. -/
  | noRun
  deriving DecidableEq, Repr

/-- Why an instruction has no meaning. -/
inductive Refusal where
  /-- Raised by the dispatcher for a row of the opcode table without a meaning yet. Safe: the run stops there. -/
  | notModelled (mnemonic : String)
  deriving DecidableEq, Repr

/-- How a fibre reached its PC (R90). -/
inductive Pck where
  | sequential | transfer | within
  deriving DecidableEq, Repr

/-- The code of a PC kind (R90, R287). -/
def Pck.code : Pck → Nat
  | .sequential => 0 | .transfer => 1 | .within => 2

/-- State of a fold slot (R26). -/
inductive FoldSt where
  | open | sealing | committed | aborted
  deriving DecidableEq, Repr

/-- The identifier of a fold: DEV, SLICE and SEQ of R26. -/
structure FoldTag where
  dev : Nat
  slice : Nat
  seq : Nat
  deriving DecidableEq, Repr

/-- A fold slot FDn (R26); an empty slot is `none` in the fibre. `stamp` is T once the fold is committed (R186). -/
structure FoldSlot where
  tag : FoldTag
  st : FoldSt
  stamp : Nat
  deriving DecidableEq, Repr

/-- One store on its way to its coherence point (R171, R332): byte keys with value and bit mask (R216 writes single
elements), the scope and the LINE bit, the fold it belongs to, K(f), and the operation token of a tracked store. -/
structure StoreReq where
  cells : List (Nat × Byte × Byte)
  va : DWord
  scope : Scope
  line : Bool
  fold : Option FoldTag
  fibre : Nat
  ctx : Nat
  k : Nat
  untype : Bool
  tok : Option Nat
  deriving DecidableEq, Repr

/-- What a parked fibre waits for (R283, R299, R300). For BIND (R438): `bind`, its BindEntry is due; `entry`, a store or atomic to
the unbound entry at a key. -/
inductive ParkObj where
  | page (record : Nat)
  | word (key : Nat)
  | phase (key : Nat) (phase : Word)
  | tile (core entry : Nat) (state : Nat) (busy : Bool)
  | flags (mask : BitVec 12)
  | bind (ea : DWord) (reg : Nat)
  | entry (key : Nat) (ea : DWord) (reg : Nat)
  | room
  deriving DecidableEq, Repr

/-- Where a fibre is (R256). `vacated` is outside the table: the fibre lies in its team's vacate image (R402). -/
inductive Loc where
  | flock (id : Nat)
  | pen
  | regroup (key : Word)
  | parked (o : ParkObj)
  | vacated
  deriving DecidableEq, Repr

/-- The state of one fibre (R15, R16, R22, R23, R25 to R29, and the marks of R90, R219, R237, R422). -/
structure Fibre where
  team : Nat
  index : Nat
  role : Nat
  alloc : Nat
  core : Nat
  home : Nat
  loc : Loc
  regs : List Word
  preds : BitVec 16
  cy : List Word
  pc : DWord
  pck : Pck
  /-- Outstanding operations on completion flags: flag index and operation token (R25). -/
  pending : List (Nat × Nat)
  /-- Lane registers with an outstanding write: register and operation token (R19). -/
  busy : List (Nat × Nat)
  fd : List (Option FoldSlot)
  vst : Nat
  hch : DWord
  top : DWord
  fpm : Word
  armed : Option (BitVec 16 × BitVec 16)
  arrived : Bool
  cancel : Option DWord
  queue : List StoreReq
  /-- Greatest carried stamp read since the last acquire point (LineStamps, R338). -/
  lineStamp : Nat
  /-- The tick T0 of a FENCE.SC that has not completed (R181). -/
  scStart : Option Nat
  /-- Base of the fibre's lane-private slice in its core's scratchpad (R311). -/
  slice : Nat
  /-- Segments of its park record (R300). -/
  parkSegs : List Nat
  /-- Bytes that its own stores left in lines which some fetch path held at the time, each with its moment: its fetches see
  them until the line is filled anew (R74, R195). -/
  ownCode : Tab (Byte × Nat)
  /-- Registers that a tracked engine operation has written, with the stamp that their first read acquires (R344, R348). -/
  acq : List (Nat × Nat)
  deriving DecidableEq, Repr

/-- One flock: a slot of R259, or a saved flock of R262 when `slot` is `none`. -/
structure Flock where
  core : Nat
  slot : Option Nat
  team : Nat
  role : Nat
  lanes : List (Option Nat)
  frozen : Mask
  /-- The active mask that a window write has set: its other lanes do not issue (R254, R255). -/
  act : Option Mask
  efm : Mask
  su : List DWord
  step : Nat
  holdoff : Bool
  asleep : Bool
  stopped : Bool
  /-- Stopped by a window control write of action 3 (R254). -/
  kept : Bool
  level8 : Bool
  /-- Lanes whose lag has reached 1024 cycles, greatest lag first (R263). -/
  lag : List Nat
  /-- The moment it was last found to have become eligible, while it is (R267). -/
  since : Option Nat
  lastRun : Nat
  /-- The tick of its last restore (R262). -/
  restored : Option Nat
  /-- For a saved flock, the moment it first could issue after its save (R262). -/
  could : Option Nat
  overdue : Bool
  watch : Nat
  deriving DecidableEq, Repr

/-- A role of a team (R277, R382). -/
structure Role where
  count : Nat
  regs : Nat
  consumer : Bool
  deriving DecidableEq, Repr

/-- One team (R16, R30 to R34, R309 to R311, R396). -/
structure Team where
  ctx : Nat
  launch : Nat
  index : Nat
  devIndex : Nat
  gen : Word
  nbv : BitVec 8
  pl : BitVec 2
  su : List DWord
  cores : List Nat
  die : Nat
  cluster : Nat
  p : Nat
  q : Nat
  e : Nat
  banks : Nat
  roles : List Role
  declared : Nat
  held : Bool
  vacated : Bool
  /-- A vacate of the team has been requested (R94, R401). -/
  leaving : Bool
  /-- Status word of R301 once the team is terminated. -/
  status : Option DWord
  /-- Segment of an active message's payload, freed at completion (R405). -/
  payload : Option Nat
  /-- Segments reserved for the vacate image (R403). -/
  reserve : Nat
  deriving DecidableEq, Repr

/-- State of a tile entry (R203). -/
inductive TileSt where
  | empty | filling | ready | draining
  deriving DecidableEq, Repr

/-- A tile-table entry (R198). -/
structure Tile where
  st : TileSt
  tag : BitVec 16
  rod : Bool
  base : Nat
  rows : Nat
  cols : Nat
  pitch : Nat
  axis : Bool
  chain : Bool
  gen : Nat
  ls : Nat
  deriving DecidableEq, Repr

/-- A reference to a tile: the core that holds it and the entry key there. -/
structure TileRef where
  core : Nat
  key : Nat
  deriving DecidableEq, Repr

/-- Resolved operands of a matrix loop (R218). -/
structure LoopOps where
  fmtA : Fmt
  fmtB : Fmt
  scaleA : Nat
  scaleB : Nat
  sparse : Nat
  deriving DecidableEq, Repr

/-- Work queued on an accumulator bank: a loop, or a zeroing when `ops` is `none` (R222, R228). -/
structure BankOp where
  team : Nat
  bank : Nat
  ops : Option LoopOps
  ta : TileRef
  tb : TileRef
  steps : Nat
  ainc : Nat
  binc : Nat
  next : Nat
  nbv : BitVec 8
  obj : Option Nat
  k : Nat
  /-- The elements (row × 256 + column) that hold a NaN as the loop begins (R67). -/
  nan0 : List Nat
  nans : Nat
  errs : Nat
  /-- The elements that an uncorrectable error has affected: undefined as the loop ends (R223). -/
  lost : List Nat
  task : Option Nat
  tok : Option Nat
  fibres : List Nat
  deriving DecidableEq, Repr

/-- A loop without a matching wait yet (R224): its bank, its barrier line, the A operand's bytes in the team's core area,
and the elements it writes. `tainted`: a store met the operand. A loop of an engine program belongs to a task group, whose
rendezvous line is `rdv` once the group has arrived there. -/
structure LoopWait where
  team : Nat
  bank : Nat
  line : Option Nat
  group : Option Nat
  rdv : Option Nat
  /-- The core of the A operand. -/
  acore : Nat
  lo : Nat
  hi : Nat
  rows : Nat
  cols : Nat
  k : Nat
  /-- The phase that its arrival counted in, once it has arrived at a live line (R223, R224). -/
  arr : Option Nat
  ended : Bool
  tainted : Bool
  deriving DecidableEq, Repr

/-- Kinds of copy-engine transfer (R214, R215) and the convert command (R235). -/
inductive XferKind where
  | load | store | rod | convert
  deriving DecidableEq, Repr

/-- A transfer of the copy or convert engine in progress. -/
structure Xfer where
  kind : XferKind
  team : Nat
  slice : Nat
  src : Option TileRef
  dst : Option TileRef
  va : DWord
  pitch : Nat
  tag : BitVec 16
  k : Nat
  fibres : List Nat
  reg : Option Nat
  tok : Option Nat
  task : Option Nat
  /-- The scratchpad lines whose full/empty bit it cleared, as core and line (R205). -/
  lines : List (Nat × Nat)
  /-- Error bits of R209 that it has met. -/
  errs : Nat
  deriving DecidableEq, Repr

/-- A slice of a copy (R230). -/
structure Slice where
  src : DWord
  dst : DWord
  tile : Option TileRef
  rowBytes : Nat
  rows : Nat
  spitch : Nat
  dpitch : Nat
  vaddr : Option DWord
  expected : DWord
  team : Nat
  core : Nat
  base : Nat
  fibres : List Nat
  tok : Option Nat
  k : Nat
  deriving DecidableEq, Repr

/-- One phase of a copy object that holds a slice (R231, R365). [DEDUCED, log 61] -/
structure CopyPhase where
  obj : Nat
  tiles : List TileRef
  slices : List Slice
  queued : Bool
  started : Bool
  /-- The source bytes of each slice, once the engine has read them (R231, R232). -/
  staged : List (List Byte)
  /-- The code that reading the sources gave (R209). -/
  code : Nat
  /-- The scratchpad lines whose full/empty bit it cleared, as core and line (R205). -/
  lines : List (Nat × Nat)
  /-- Error bits of R209 that it has met. -/
  errs : Nat
  deriving DecidableEq, Repr

/-- Engine classes (R236). -/
inductive Engine where
  | matrix | copy | convert
  deriving DecidableEq, Repr

/-- One 32-byte engine command (R234). -/
structure Cmd where
  op : Nat
  ef : Nat
  w : Word
  x : DWord
  y : DWord
  zero : Bool
  deriving DecidableEq, Repr

/-- A tile task: one entry of the dependency table (R352). -/
structure Task where
  team : Nat
  engine : Engine
  /-- The program's address; 0 for a convert task of DISP, which has no program. -/
  prog : DWord
  cmds : List Cmd
  cursor : Nat
  list : List (BitVec 16)
  inputs : List TileRef
  outputs : List TileRef
  group : Nat
  /-- Base of the issuing fibre's lane-private slice, for its commands' addresses. -/
  slice : Nat
  k : Nat
  status : DWord
  running : Bool
  /-- Ticks that the next command has waited (R458). -/
  watch : Nat
  deriving DecidableEq, Repr

/-- The group of a DISP or FORK: its rendezvous object, its status and its temporary tiles (R352, R360, R362). -/
structure TaskGroup where
  team : Nat
  obj : Nat
  status : DWord
  k : Nat
  temps : List TileRef
  deriving DecidableEq, Repr

/-- A fibre in the reform-pen array, in filing order (R270, R271). -/
structure PenEntry where
  fibre : Nat
  spill : Bool
  aged : Bool
  /-- The moment of its filing (R271). -/
  filed : Nat
  deriving DecidableEq, Repr

/-- A TLB entry (R415): one present leaf of one context. -/
structure TlbEntry where
  ctx : Nat
  page : Nat
  bits : Nat
  r : Bool
  w : Bool
  x : Bool
  u : Bool
  kind : Nat
  dev : Nat
  pa : Nat
  deriving DecidableEq, Repr

/-- The holder of an accumulator bank with its rod-store quarter (R24, R202). -/
structure BankGrant where
  team : Nat
  name : Nat
  deriving DecidableEq, Repr

/-- One compute or shepherd core. -/
structure Core where
  tiles : Tab Tile
  /-- Generations of freed entries, kept for their next use (R198). -/
  gens : Tab Nat
  /-- Scratchpad lines whose full/empty bit is clear (R175). -/
  emptyLines : Tab Unit
  acc : Tab Word
  banks : List (Option BankGrant)
  loops : List BankOp
  waits : List LoopWait
  turn : Nat
  xfers : List Xfer
  phases : List CopyPhase
  /-- The copy engine's last turn went to a program command (R355). -/
  copyCmd : Bool
  tasks : Tab Task
  groups : Tab TaskGroup
  pens : List PenEntry
  segs : List Nat
  tlb : List TlbEntry
  /-- The core order: stores that have left their queues and are not yet performed, oldest first (R332). -/
  order : List StoreReq
  /-- Lines of the core's fetch path (R194, R440): line key, the number of the fill that brought it (R74), and bytes. -/
  code : Tab (Nat × List Byte)
  /-- Scratchpad areas granted: team, kind tag, base, bytes (R311). -/
  areas : List (Nat × Nat × Nat × Nat)
  contained : Bool
  /-- Whether the next host accesses of the core's fibres, in order, succeed; one beyond the list does (R448). -/
  hostErr : List Bool
  /-- Rods served by a spare (R326, R209 SPARE). -/
  spareRods : List Nat
  deriving DecidableEq, Repr

/-- A dirty byte of an owner L1 with the fibres that stored it and the address of its word (R182, R322). -/
structure DirtyByte where
  val : Byte
  mask : Byte
  storers : List Nat
  ctx : Nat
  va : DWord
  ls : Nat
  deriving DecidableEq, Repr

/-- A clean copy of a line in an owner L1 (R345): valid words, bytes, stamp, settled stamp, carried stamp, fold. -/
structure Copy where
  valid : BitVec 32
  bytes : List Byte
  s : Nat
  u : Nat
  ls : Nat
  tag : Option FoldTag
  stamp : Nat
  digest : DWord
  deriving DecidableEq, Repr

/-- The L1s and the shared TLB of one cluster (R320, R415). [DEDUCED, log 98] -/
structure Cluster where
  dirty : Tab DirtyByte
  copies : Tab Copy
  tlb : List TlbEntry
  deriving DecidableEq, Repr

/-- State of a pending version (R340). -/
inductive PendSt where
  | open | acked (tf : Nat) | stamped (t : Nat)
  deriving DecidableEq, Repr

/-- PEND of R340. -/
structure Pend where
  bytes : List Byte
  fold : FoldTag
  st : PendSt
  digest : DWord
  deriving DecidableEq, Repr

/-- PRI of R340, with the context whose fold superseded it (R346). -/
structure Prior where
  bytes : List Byte
  stamp : Nat
  ctx : Nat
  deriving DecidableEq, Repr

/-- The version state of a line at its home (R340). CUR's bytes are memory itself. -/
structure Line where
  tc : Nat
  tag : Option FoldTag
  digest : DWord
  pri : Option Prior
  pend : Option Pend
  ls : Nat
  /-- BARA .leave arrivals of the current phase of a barrier line: they lower EXPECT for the phases after it (R191). -/
  leaves : Nat
  /-- The line is a live barrier line (R190). -/
  live : Bool
  deriving DecidableEq, Repr

/-- A fold record (R183 to R187, R341, R342): lines as line keys, and what each home slice has answered. -/
structure Fold where
  tag : FoldTag
  ctx : Nat
  fibre : Nat
  slot : Nat
  lines : List Nat
  acked : List Nat
  lastAck : Nat
  t : Option Nat
  stampedAt : List Nat
  confirmed : List Nat
  aborting : Bool
  dreg : Option Nat
  tok : Option Nat
  deriving DecidableEq, Repr

/-- A service-queue record (R253, R404). -/
structure SvcRec where
  ctx : Nat
  team : Nat
  index : Nat
  addr : DWord
  number : Nat
  deriving DecidableEq, Repr

/-- An active message with the segment that holds its payload (R405, R406). -/
structure InMsg where
  bytes : List Byte
  seg : Nat
  /-- Context of the queue it came through, whose address space holds its status word. -/
  src : Nat
  deriving DecidableEq, Repr

/-- A kernel of a loaded code object (R424, R437). -/
structure Kernel where
  entry : DWord
  fibres : Nat
  banks : Nat
  roles : List Role
  deriving DecidableEq, Repr

/-- A code object loaded in a context (R424 to R439). -/
structure Image where
  base : DWord
  /-- Bytes of the mapped range: the load block, rounded up to 64 KiB. -/
  size : Nat
  kernels : List Kernel
  /-- Exported symbols: name and address (R431). -/
  exports : List (List Byte × DWord)
  /-- GOT entries and the names of the symbols that they bind (R437, R439). -/
  binds : List (DWord × List Byte)
  deriving DecidableEq, Repr

/-- State of a context (R393). -/
inductive CtxSt where
  | free | resident | swapped | suspended | torn
  deriving DecidableEq, Repr

/-- One context (R241, R393). -/
structure Ctx where
  st : CtxSt
  ttb : DWord
  thb : DWord
  thl : DWord
  tho : DWord
  fhb : DWord
  fhl : DWord
  mtp : DWord
  nbvd : Bool
  cprio : BitVec 3
  /-- Ways of the chip-scratchpad grant on die 0 and die 1 (R318). -/
  chip : List Nat
  /-- Segments that hold the grant's contents while the context is swapped out (R394). -/
  swapSegs : List Nat
  segs : List Nat
  hdrSegs : List Nat
  folds : Nat
  svcQ : List SvcRec
  announce : List SvcRec
  inbound : List InMsg
  images : List Image
  lastResident : Nat
  /-- A launch of the context has had teams on other devices, whose fibres' views this device does not hold (R346). -/
  away : Bool
  deriving DecidableEq, Repr

/-- A record of the fault buffer (R419). -/
structure FaultRec where
  addr : DWord
  ctx : Nat
  reason : Nat
  replaying : Bool
  fibres : List Nat
  hb : Nat
  deriving DecidableEq, Repr

/-- An open register window (R254, R304). -/
structure Window where
  flock : Nat
  words : List DWord
  deriving DecidableEq, Repr

/-- An event that waits for a window (R303). -/
structure SysEvent where
  flock : Nat
  cls : Nat
  words : List DWord
  deriving DecidableEq, Repr

/-- An installed queue and its drover (R377 to R381). -/
structure Queue where
  drover : Nat
  desc : QueueDesc
  head : Nat
  tail : Nat
  stopped : Bool
  entry : Option Nat
  deriving DecidableEq, Repr

/-- Phases of a launch on this device (R387 to R397). -/
inductive LaunchPh where
  | deps | admitting | armed | released | aborted
  deriving DecidableEq, Repr

/-- A launch on this device (R382, R388 to R390). -/
structure Launch where
  ctx : Nat
  bytes : List Byte
  queue : Option Nat
  origin : Nat
  /-- The queue of the origin device that the packet came through: with the origin and GEN it names the launch (R390). -/
  originQueue : Nat
  sup : Bool
  prio : Nat
  age : Nat
  ph : LaunchPh
  metDeps : List Nat
  /-- Grid indices of this device's teams not yet admitted. -/
  waiting : List Nat
  /-- Devices that have reported ARMED, at the origin. -/
  armed : List Nat
  replicated : Option Nat
  /-- First status of R397 on this device. -/
  status : DWord
  message : Option InMsg
  deriving DecidableEq, Repr

/-- A run in progress (R92): the words of the current clause, fetched whole (R73), and the slot of the next one. -/
structure Run where
  core : Nat
  flock : Nat
  lanes : Mask
  base : DWord
  hdr : Header
  words : List Nat
  idx : Nat
  issued : Nat
  deriving DecidableEq, Repr

/-- Who moves next: a step of another agent, or an issue port of a core (the model's own, log entry 1). -/
inductive Turn where
  | event (i : Instr)
  | issue (core port : Nat)
  deriving DecidableEq, Repr

/-- A message that leaves the device (R133, R244, R298, R344, R389, R390, R397, R405, R451, R453): to a device or the
host. -/
inductive OutMsg where
  | ksend (dev : Nat) (token : Nat) (m : KMsg)
  | ksendReply (dev : Nat) (token : Nat) (status : Nat)
  | packet (dev ctx queue : Nat) (bytes : List Byte)
  | armed (dev queue : Nat) (gen : Word)
  | go (dev queue : Nat) (gen : Word)
  | reject (dev queue : Nat) (gen : Word)
  | abort (dev queue : Nat) (gen : Word)
  | irq (queue : Nat)
  | tlbi (dev token kind ctx : Nat) (va : DWord)
  | icinv (dev token key : Nat)
  | ack (dev token : Nat)
  | settled (stamp : Nat)
  | hostReply (ok : Bool) (bytes : List Byte)
  | remoteReply (dev : Nat) (ok : Bool) (bytes : List Byte)
  | sideband (code : Nat) (data : List Byte)
  deriving DecidableEq, Repr

/-- An entry of the error log of R470. -/
structure LogEntry where
  time : Nat
  agent : Nat
  index : Nat
  kind : Nat
  addr : Nat
  /-- A repair of R462 has answered it. -/
  served : Bool
  deriving DecidableEq, Repr

/-- The personality of the host port (R443). -/
inductive HostKind where
  | pcie | cxl
  deriving DecidableEq, Repr

/-- Device-wide registers and units. -/
structure Device where
  /-- Index of this device on the fabric (R241, DEVID). -/
  devid : Nat
  hb : Nat
  hbRun : Bool
  /-- The core cycle within the tick that HBRD .sub last read, so that no later read is less (R251). -/
  sub : Nat
  tb0 : DWord
  locked : Bool
  offset : BitVec 31
  ctxsel : BitVec 12
  sparemap : BitVec 10
  wdt : Nat
  host : Option (HostKind × Nat)
  hostUp : Bool
  /-- The bases that the host has written into BAR0, BAR2 and the HDM decoder (R444). -/
  bar0 : DWord
  bar2 : DWord
  hdm : DWord
  /-- A function-level reset is in progress: its steps 1 to 5 are done (R464). -/
  inReset : Bool
  /-- Fabric devices enumerated at training, and those whose path is down (R383, R453). -/
  fabric : List Nat
  down : List Nat
  /-- Contexts that a peer device has lost in a reset of its own: device and context (R465). -/
  tornAt : List (Nat × Nat)
  /-- Settled stamp last received from each other device (R344). -/
  settled : Tab Nat
  foldSeq : Tab Nat
  /-- Error marks of 32-byte granules by key/32: 5 in the L2 or the chip scratchpad, 6 in the HBM, 0 cleared (R457). -/
  poisoned : Tab Nat
  /-- Pseudo-channels whose spare took over: every granule without a mark is poisoned (R462). -/
  badChannels : List Nat
  /-- Spare L2 slices, HBM rows, pseudo-channels and link lanes already used (R459 to R462). -/
  spareSlices : List Nat
  spareRows : List (Nat × Nat)
  spareChannels : List Nat
  spareLanes : Tab Nat
  /-- Cores whose place the spare of their die has taken (R462). -/
  spareCores : List Nat
  contained : List (Nat × Nat)
  /-- Agents that answer no request, with the tick from which they do not: kind, index, tick (R459). -/
  silent : List (Nat × Nat × Nat)
  /-- Acknowledgements of other devices that TLBI .sys and ICINV at scope 5 wait for: token and device (R194, R245). -/
  acks : List (Nat × Nat)
  /-- Heartbeat last told by each other device (R392). -/
  peers : Tab Nat
  /-- Lines of host memory with a copy in the L2 slice of a die, and whether the copy permits writing (R446). -/
  hostLines : List (Nat × Nat × Bool)
  /-- Lines of device memory that a host cache holds, and whether it holds them writable (R443, R450). -/
  hostHeld : Tab Bool
  /-- The SCOPE of the atomics on a word (key / 4), under which all of them must be (R178). -/
  atomScope : Tab Nat
  clockMHz : Nat
  computeOn : Bool
  booted : Nat
  bootFailed : Bool
  /-- The firmware images that the boot has verified, by stage (R467, R469). -/
  fwImages : Tab (List Byte)
  fwVersion : BitVec 16
  fwPending : Option (BitVec 16)
  rollback : BitVec 16
  errors : List LogEntry
  responses : List (Nat × List Byte)
  svcEntry : DWord
  deriving DecidableEq, Repr

/-- The whole machine. -/
structure State where
  dev : Device
  mem : List Host.Cell
  lines : Tab Line
  clusters : Tab Cluster
  cores : Tab Core
  ctxs : Tab Ctx
  teams : Tab Team
  fibres : Tab Fibre
  flocks : Tab Flock
  folds : List Fold
  faults : Tab FaultRec
  windows : Tab Window
  events : List SysEvent
  queues : Tab Queue
  launches : Tab Launch
  /-- What each core of a vacated team keeps, by team × 8 + core-in-cluster index (R402). -/
  images : Tab Core
  outbox : List OutMsg
  runs : List Run
  agenda : List Turn
  picks : List Nat
  free : Nat
  seq : Nat
  deriving DecidableEq, Repr

/-- A core at reset: nothing granted, every buffer zero (R16, R328). [DEDUCED, log 15] -/
def Core.reset : Core where
  tiles := []
  gens := []
  emptyLines := []
  acc := []
  banks := [none, none, none, none]
  loops := []
  waits := []
  turn := 0
  xfers := []
  phases := []
  copyCmd := false
  tasks := []
  groups := []
  pens := []
  segs := []
  tlb := []
  order := []
  code := []
  areas := []
  contained := false
  hostErr := []
  spareRods := []

/-- A cluster's L1s and TLB at reset. -/
def Cluster.reset : Cluster := ⟨[], [], []⟩

/-- A line that no fold has touched (R340). -/
def Line.reset : Line := ⟨0, none, 0, none, none, 0, 0, false⟩

/-- A context identifier that is not allocated: the reset values of R241. -/
def Ctx.reset : Ctx where
  st := .free
  ttb := 0
  thb := 0
  thl := 0
  tho := 0
  fhb := 0
  fhl := 0
  mtp := 0
  nbvd := true
  cprio := 0
  chip := [0, 0]
  swapSegs := []
  segs := []
  hdrSegs := []
  folds := 0
  svcQ := []
  announce := []
  inbound := []
  images := []
  lastResident := 0
  away := false

/-- The device registers at reset (R241, R391, R445, R471). [DEDUCED, log 11] [DESIGN CHOICE, log 12] [DESIGN CHOICE, log 13] [DESIGN CHOICE, log 14] -/
def Device.reset : Device where
  devid := 0
  hb := 0
  hbRun := true
  sub := 0
  tb0 := 0
  locked := false
  offset := 0
  ctxsel := 0
  sparemap := 0
  wdt := 12500000
  host := none
  hostUp := false
  bar0 := 0
  bar2 := 0
  hdm := 0
  inReset := false
  fabric := [0]
  down := []
  tornAt := []
  settled := []
  foldSeq := []
  poisoned := []
  badChannels := []
  spareSlices := []
  spareRows := []
  spareChannels := []
  spareLanes := []
  spareCores := []
  contained := []
  silent := []
  acks := []
  peers := []
  hostLines := []
  hostHeld := []
  atomScope := []
  clockMHz := 2700
  computeOn := true
  booted := 4
  bootFailed := false
  fwImages := []
  fwVersion := 0
  fwPending := none
  rollback := 0
  errors := []
  responses := []
  svcEntry := 0

/-- The machine right after power-on (R16, R241, R391): no context, no team, no fibre, nothing listed in memory. [DEDUCED, log 11] [DEDUCED, log 15] -/
def State.reset : State where
  dev := Device.reset
  mem := []
  lines := []
  clusters := []
  cores := []
  ctxs := []
  teams := []
  fibres := []
  flocks := []
  folds := []
  faults := []
  windows := []
  events := []
  queues := []
  launches := []
  images := []
  outbox := []
  runs := []
  agenda := []
  picks := []
  free := 0
  seq := 0

end Sys2Proof.Machine
end

