-- ==== Sys2Proof/Machine/Base.lean ====
section
/-! DEFINITION. The result of a lane's part of an instruction, and the accessors and updates of State. -/

namespace Sys2Proof.Machine

/-- An effect with its value (R280). `wb` marks a PAGE or PROT that a write-back raised (R350), `next` an effect whose
resume PC is the next header (PERF); `park` the object that the root handler parks a WAIT or BIND on (R299, R438); `perf` the
next header, the resume-value pair and the R bit of a PERF (R128); `fills` the translations that the failing access has
walked (R414); `host` that it has taken an error completion (R448). -/
structure Eff where
  eid : Nat
  val : DWord
  wb : Bool := false
  next : Bool := false
  park : Option ParkObj := none
  perf : Option (DWord × Nat × Bool) := none
  fills : List TlbEntry := []
  host : Bool := false
  deriving DecidableEq, Repr

/-- What a computation for one lane answers: a value, an effect, a stall of R168, or a system-class event of R302. -/
inductive Res (α : Type) where
  | ok (a : α)
  | bad (e : Eff)
  | wait
  | sys (cls : Nat) (w : DWord)
  deriving Repr

/-- Sequencing: the first failure wins (R167). -/
def Res.bind {α β : Type} (r : Res α) (f : α → Res β) : Res β :=
  match r with
  | .ok a => f a
  | .bad e => .bad e
  | .wait => .wait
  | .sys c w => .sys c w

/-- Notes something on the effect of a failure. -/
def Res.onBad {α : Type} (g : Eff → Eff) (r : Res α) : Res α :=
  match r with
  | .bad e => .bad (g e)
  | r => r

def Res.map {α β : Type} (f : α → β) (r : Res α) : Res β := r.bind fun a => .ok (f a)

@[simp] theorem Res.bind_ok {α β : Type} (a : α) (f : α → Res β) : (Res.ok a).bind f = f a := rfl
@[simp] theorem Res.bind_bad {α β : Type} (e : Eff) (f : α → Res β) : (Res.bad e).bind f = .bad e := rfl
@[simp] theorem Res.bind_wait {α β : Type} (f : α → Res β) : (Res.wait : Res α).bind f = .wait := rfl
@[simp] theorem Res.bind_sys {α β : Type} (c : Nat) (w : DWord) (f : α → Res β) :
    (Res.sys c w : Res α).bind f = .sys c w := rfl

/-- Runs a computation over a list, in order, and collects the values. -/
def Res.mapM {α β : Type} (f : α → Res β) : List α → Res (List β)
  | [] => .ok []
  | x :: r => (f x).bind fun y => (Res.mapM f r).bind fun ys => .ok (y :: ys)

/-- Threads a state through a list, in order. -/
def Res.foldM {α σ : Type} (f : σ → α → Res σ) (s : σ) : List α → Res σ
  | [] => .ok s
  | x :: r => (f s x).bind fun s' => Res.foldM f s' r

/-- Succeeds or raises. -/
def Res.guard (b : Bool) (e : Eff) : Res Unit := if b then .ok () else .bad e

/-- Succeeds or stalls. -/
def Res.await (b : Bool) : Res Unit := if b then .ok () else .wait

/-- How a lane leaves an instruction it has completed: to the next word; with a PC of its own; into a handler; out of the
flock; or from a handler by a resume (R35, R105, R285, R286). -/
inductive Adv where
  | next | moved | enter | left | resumed
  deriving DecidableEq, Repr

/-! ### Effects by name (R280) -/

def illegal (code : Nat) : Eff := { eid := 0x0050, val := dword code }
/-- The address word of R281. -/
def addrWord (addr : Nat) (acc : Nat) (upper : Bool) : DWord :=
  dword (addr % 2 ^ 54 + acc * 2 ^ 56 + (if upper then 2 ^ 59 else 0))
def effPage (w : DWord) : Eff := { eid := 0x0010, val := w }
def effProt (w : DWord) : Eff := { eid := 0x0011, val := w }
def effAlign (w : DWord) : Eff := { eid := 0x0012, val := w }
def effArith (cond : Nat) : Eff := { eid := 0x0020, val := dword cond }
def effNoMethod (v : Nat) : Eff := { eid := 0x0030, val := dword v }
def effSplit (v : Nat) : Eff := { eid := 0x0031, val := dword v }
def effSpent (h : DWord) : Eff := { eid := 0x0040, val := h }
def effViewLost (w : DWord) : Eff := { eid := 0x0041, val := w }
def effPriv (op : Nat) : Eff := { eid := 0x0051, val := dword op }
def effClobber (w : DWord) : Eff := { eid := 0x0060, val := w }
def effBind (w : DWord) : Eff := { eid := 0x0070, val := w }
def effCancelled (w : DWord) : Eff := { eid := 0x00F0, val := w }
def effWait (v : DWord) : Eff := { eid := 0x0002, val := v }

/-! ### Accessors -/

/-- A fibre with nothing in it, read where a table names no fibre. -/
def Fibre.blank : Fibre where
  team := 0
  index := 0
  role := 0
  alloc := 0
  core := 0
  home := 0
  loc := .vacated
  regs := []
  preds := 1
  cy := List.replicate 8 0
  pc := 0
  pck := .sequential
  pending := []
  busy := []
  fd := [none, none, none, none]
  vst := 0
  hch := 0
  top := 0
  fpm := 0x200
  armed := none
  arrived := false
  cancel := none
  queue := []
  lineStamp := 0
  scStart := none
  slice := 0
  parkSegs := []
  ownCode := []
  acq := []

def Flock.blank : Flock where
  core := 0
  slot := none
  team := 0
  role := 0
  lanes := List.replicate 8 none
  frozen := 0
  act := none
  efm := 0
  su := List.replicate 64 0
  step := 0
  holdoff := false
  asleep := false
  stopped := false
  kept := false
  level8 := false
  lag := []
  since := none
  lastRun := 0
  restored := none
  could := none
  overdue := false
  watch := 0

/-- A launch key that no launch has: that of a team which no packet has launched. -/
def noLaunch : Nat := 2 ^ 64

def Team.blank : Team where
  ctx := 0
  launch := noLaunch
  index := 0
  devIndex := 0
  gen := 0
  nbv := 0
  pl := 0
  su := List.replicate 64 0
  cores := []
  die := 0
  cluster := 0
  p := 0
  q := 0
  e := 0
  banks := 0
  roles := []
  declared := 0
  held := false
  vacated := false
  leaving := false
  status := none
  payload := none
  reserve := 0

def State.fib (s : State) (f : Nat) : Fibre := tabGetD s.fibres f Fibre.blank
def State.flk (s : State) (k : Nat) : Flock := tabGetD s.flocks k Flock.blank
def State.tm (s : State) (t : Nat) : Team := tabGetD s.teams t Team.blank
def State.core (s : State) (c : Nat) : Core := tabGetD s.cores c Core.reset
def State.clus (s : State) (c : Nat) : Cluster := tabGetD s.clusters c Cluster.reset
def State.ctx (s : State) (c : Nat) : Ctx := tabGetD s.ctxs c Ctx.reset
def State.line (s : State) (l : Nat) : Line := tabGetD s.lines l Line.reset

/-! ### Updates -/

def State.setFib (s : State) (f : Nat) (x : Fibre) : State := { s with fibres := tabPut s.fibres f x }
def State.modFib (s : State) (f : Nat) (g : Fibre → Fibre) : State := { s with fibres := tabMod s.fibres f g }
def State.modFibs (s : State) (fs : List Nat) (g : Fibre → Fibre) : State := fs.foldl (fun s f => s.modFib f g) s
def State.delFib (s : State) (f : Nat) : State := { s with fibres := tabDel s.fibres f }
def State.setFlk (s : State) (k : Nat) (x : Flock) : State := { s with flocks := tabPut s.flocks k x }
def State.modFlk (s : State) (k : Nat) (g : Flock → Flock) : State := { s with flocks := tabMod s.flocks k g }
def State.delFlk (s : State) (k : Nat) : State := { s with flocks := tabDel s.flocks k }
def State.modTm (s : State) (t : Nat) (g : Team → Team) : State := { s with teams := tabMod s.teams t g }
def State.setCore (s : State) (c : Nat) (x : Core) : State := { s with cores := tabPut s.cores c x }
def State.modCore (s : State) (c : Nat) (g : Core → Core) : State := s.setCore c (g (s.core c))
def State.setClus (s : State) (c : Nat) (x : Cluster) : State := { s with clusters := tabPut s.clusters c x }
def State.modClus (s : State) (c : Nat) (g : Cluster → Cluster) : State := s.setClus c (g (s.clus c))
def State.setCtx (s : State) (c : Nat) (x : Ctx) : State := { s with ctxs := tabPut s.ctxs c x }
def State.modCtx (s : State) (c : Nat) (g : Ctx → Ctx) : State := s.setCtx c (g (s.ctx c))
def State.setLine (s : State) (l : Nat) (x : Line) : State := { s with lines := tabPutD s.lines l x Line.reset }
def State.modLine (s : State) (l : Nat) (g : Line → Line) : State := s.setLine l (g (s.line l))
def State.modDev (s : State) (g : Device → Device) : State := { s with dev := g s.dev }
def State.send (s : State) (m : OutMsg) : State := { s with outbox := s.outbox ++ [m] }

/-- A fresh operation token or identifier. [DESIGN CHOICE, log 7] -/
def State.bump (s : State) : State := { s with seq := s.seq + 1 }

/-- An undefined value: the free value of the counter, which then moves on (R10). [DESIGN CHOICE, log 6] -/
def State.draw (s : State) : DWord × State := (Config.freeWord s.free, { s with free := s.free + 1 })

/-- Several undefined values. -/
def State.drawMany (s : State) (n : Nat) : List DWord × State :=
  ((List.range n).map fun i => Config.freeWord (s.free + i), { s with free := s.free + n })

/-- A choice the spec leaves to the device, among `n` candidates: taken from the list of picks, else the first. [DESIGN CHOICE, log 5] -/
def State.pick (s : State) (n : Nat) : Nat × State :=
  match s.picks with
  | [] => (0, s)
  | p :: r => (if n = 0 then 0 else p % n, { s with picks := r })

/-! ### Placement (R3, R241) -/

/-- Cores 0 to 25 are compute cores, 13 a die: clusters 0 to 2 of four cores, then the die's spare; 26 to 33 are the
shepherds. -/
def coreDie (c : Nat) : Nat := c / 13
def coreCluster (c : Nat) : Nat := c % 13 / 4
def coreInCluster (c : Nat) : Nat := c % 13 % 4
/-- The cluster's key: four to a die, the last being the spare core's place. -/
def clusterOf (c : Nat) : Nat := coreDie c * 4 + coreCluster c
def isShepherd (c : Nat) : Bool := 26 ≤ c
/-- COREID of R241: a core whose place the die's spare has taken reads cluster 3 (R462). The die, cluster and core bits of a
shepherd, which lies on no compute die, read 0. [DESIGN CHOICE, log 100] -/
def State.coreId (s : State) (c : Nat) : Nat :=
  if isShepherd c then (c - 26) * 2 ^ 8
  else if s.dev.spareCores.contains c then coreDie c * 2 ^ 4 + 3 * 2 ^ 2 + coreInCluster c + 0xFF * 2 ^ 8
  else coreDie c * 2 ^ 4 + coreCluster c * 2 ^ 2 + coreInCluster c + 0xFF * 2 ^ 8

/-- The context of a fibre. -/
def State.ctxOf (s : State) (f : Nat) : Nat := (s.tm (s.fib f).team).ctx
/-- The privilege level of a fibre (R33). -/
def State.plOf (s : State) (f : Nat) : Nat := (s.tm (s.fib f).team).pl.toNat
/-- A pre-emption request is pending for a core (R92, R401). -/
def State.preemptPending (s : State) (core : Nat) : Bool :=
  s.teams.any fun t => t.2.leaving && t.2.cores.contains core
/-- The rank of a core among the team's cores (R197). -/
def Team.rank (t : Team) (c : Nat) : Nat := (indexOf? (· == c) t.cores 0).getD 0

/-- K(f) of R344: the greater of VST and the stamps of the fibre's committed fold slots. -/
def Fibre.k (x : Fibre) : Nat :=
  x.fd.foldl (fun m o => match o with
    | some sl => if sl.st = .committed then Nat.max m sl.stamp else m
    | none => m) x.vst

/-- The fold that the fibre holds open (R183). -/
def Fibre.openFold (x : Fibre) : Option FoldTag :=
  x.fd.findSome? fun o => match o with
    | some sl => if sl.st = .open then some sl.tag else none
    | none => none

/-- The home lanes of a flock that hold a fibre, as a mask (R259). -/
def Flock.active (k : Flock) : Mask := Mask.ofLanes ((List.range 8).filter fun l => (k.lanes.getD l none).isSome)

/-- The fibre in a lane of a flock. -/
def Flock.fibreAt (k : Flock) (lane : Nat) : Option Nat := k.lanes.getD lane none

/-- The run of the instruction in issue. -/
def State.run (s : State) : Run := s.runs.headD ⟨0, 0, 0, 0, ⟨0, 1, 0, none, none, false⟩, [], 1, 0⟩

/-- Ends an operation: its flags set and its destination registers are interlocked no longer (R19, R25). -/
def Fibre.opDone (x : Fibre) (tok : Nat) : Fibre :=
  { x with pending := x.pending.filter (fun p => p.2 ≠ tok), busy := x.busy.filter (fun p => p.2 ≠ tok) }

/-- CFn of R25: set when nothing is pending on it. -/
def Fibre.cf (x : Fibre) (n : Nat) : Bool := x.pending.all fun p => p.1 ≠ n

/-- CF0 to CF11 as a mask. -/
def Fibre.cfMask (x : Fibre) : Nat := (List.range 12).foldl (fun m n => if x.cf n then m + 2 ^ n else m) 0

end Sys2Proof.Machine
end

