-- ==== Sys2Proof/Machine/Memory.lean ====
section
/-! DEFINITION. Memory: byte keys of every storage level, translation, the store path from queue to coherence point, and
the versions that loads read (R164 to R175, R308 to R350, R407 to R418). -/

namespace Sys2Proof.Machine

/-! ### Bytes by key -/

/-- The storage level that a byte lies in. `frame` is this device's memory inside a context's frame-heap region. -/
inductive PKind where
  | dev | remote | host | scratch | chip | frame
  deriving DecidableEq, Repr

/-- A place: the level and the key of its byte. -/
structure Place where
  kind : PKind
  key : Nat
  deriving DecidableEq, Repr

/-- Keys of the levels in the one byte table: this device's memory from 0, then disjoint ranges. [DESIGN CHOICE, log 9] -/
def remoteKey (dev pa : Nat) : Nat := 2 ^ 60 + dev * 2 ^ 52 + pa
def hostKey (pa : Nat) : Nat := 2 ^ 61 + pa
def scratchKey (core ofs : Nat) : Nat := 2 ^ 62 + core * 2 ^ 22 + ofs
def chipKey (die ctx ofs : Nat) : Nat := 2 ^ 62 + 2 ^ 40 + (die * 4096 + ctx) * 2 ^ 25 + ofs
def rodKey (core rod ofs : Nat) : Nat := 2 ^ 62 + 2 ^ 50 + (core * 256 + rod) * 2 ^ 15 + ofs
/-- The core and offset of a scratchpad key. -/
def scratchCore (key : Nat) : Nat := (key - 2 ^ 62) / 2 ^ 22
def scratchOfs (key : Nat) : Nat := (key - 2 ^ 62) % 2 ^ 22
/-- The level of a key, where frame-heap bytes count as memory. [DESIGN CHOICE, log 9] -/
def levelOf (key : Nat) : PKind :=
  if key < 2 ^ 60 then .dev else if key < 2 ^ 61 then .remote else if key < 2 ^ 62 then .host
  else if key < 2 ^ 62 + 2 ^ 40 then .scratch else .chip

/-- What a byte that nothing has written reads as (the spec gives HBM no contents). [DESIGN CHOICE, log 10] -/
def unlistedByte : Byte := 0

/-- One byte of the byte table. [DESIGN CHOICE, log 10] -/
def State.byte (s : State) (key : Nat) : Byte := tabGetD s.mem key unlistedByte
/-- Writes one byte, keeping the canonical form. -/
def State.putByte (s : State) (key : Nat) (b : Byte) : State :=
  { s with mem := tabPutD s.mem key b unlistedByte }
/-- Merges the bits of a mask. -/
def mergeByte (old v m : Byte) : Byte := (old &&& ~~~m) ||| (v &&& m)
/-- Bytes from a key upwards. -/
def State.bytes (s : State) (key n : Nat) : List Byte := (List.range n).map fun i => s.byte (key + i)
/-- Writes bytes from a key upwards. -/
def State.putBytes (s : State) (key : Nat) : List Byte → State
  | [] => s
  | b :: r => (s.putByte key b).putBytes (key + 1) r
/-- A little-endian number of `n` bytes (R6). -/
def State.num (s : State) (key n : Nat) : Nat := natOfBytes (s.bytes key n)
/-- Writes a little-endian number of `n` bytes. -/
def State.putNum (s : State) (key n x : Nat) : State := s.putBytes key (bytesOfNat n x)
/-- Zeroes a range (R328). -/
def State.zero (s : State) (key n : Nat) : State :=
  { s with mem := s.mem.filter fun c => c.1 < key || key + n ≤ c.1 }

/-- The canonical form of memory: rising keys, no listed zero. -/
def Memory.wf (m : List Host.Cell) : Bool := tabCanonical unlistedByte m

/-- The 128-byte line of a key (R340). -/
def lineOf (key : Nat) : Nat := key / 128

/-- LogicalSlice of R323 on a physical address. -/
def logicalSlice (pa : Nat) : Nat :=
  let a : BitVec 52 := BitVec.ofNat 52 pa
  (a.extractLsb' 7 8 ^^^ a.extractLsb' 15 8 ^^^ a.extractLsb' 23 8 ^^^ a.extractLsb' 31 8 ^^^ a.extractLsb' 39 8
    ^^^ (a.extractLsb' 47 5).setWidth 8).toNat

/-- The device that holds a memory key. -/
def State.keyDev (s : State) (key : Nat) : Nat := if key < 2 ^ 60 then s.dev.devid else (key - 2 ^ 60) / 2 ^ 52

/-- The home device and slice of a memory key, as one number: device × 512 + slice. -/
def State.homeSlice (s : State) (key : Nat) : Nat := s.keyDev key * 512 + logicalSlice (key % 2 ^ 52)

/-- The die and the offset of a chip-scratchpad key. -/
def chipDie (key : Nat) : Nat := (key - (2 ^ 62 + 2 ^ 40)) / 2 ^ 25 / 4096
def chipOfs (key : Nat) : Nat := (key - (2 ^ 62 + 2 ^ 40)) % 2 ^ 25
/-- The core-in-cluster index of a line's owner L1 (R320). -/
def ownerIndex (key : Nat) : Nat := Nat.xor (bitsOf key 7 2) (bitsOf key 17 2)

/-! ### Poison and contained agents (R456, R457, R459, R460) -/

/-- The pseudo-channel of a key of this device's memory. -/
def channelOf (key : Nat) : Nat := Config.channelOf (key / 32) % 512

/-- The code of a poisoned granule: 5 in the L2 or the chip scratchpad, 6 in the HBM; 0 when it is not poisoned. [DEDUCED, log 92] -/
def State.poisonCode (s : State) (key : Nat) : Nat :=
  match tabGet s.dev.poisoned (key / 32) with
  | some c => c
  | none => if key < 2 ^ 60 && s.dev.badChannels.contains (channelOf key) then 6 else 0

/-- A byte of a poisoned granule. -/
def State.poisonedAt (s : State) (key : Nat) : Bool := s.poisonCode key ≠ 0

/-- The first poisoned granule that `n` bytes from a key touch. -/
def State.poisonIn (s : State) (key n : Nat) : Option Nat :=
  ((List.range ((key + n - 1) / 32 - key / 32 + 1)).find? fun i => s.poisonedAt ((key / 32 + i) * 32)).map fun i =>
    (key / 32 + i) * 32

/-- The bytes are sound: a poisoned granule among them is the event of CLASS 1 (R457). -/
def State.sound (s : State) (key n : Nat) : Res Unit :=
  match s.poisonIn key n with
  | none => .ok ()
  | some g => .sys 1 (dword g)

/-- Marks a granule. -/
def State.markPoison (s : State) (key code : Nat) : State :=
  s.modDev fun d => { d with poisoned := tabPut d.poisoned (key / 32) code }

/-- The granules that a store writes whole are poisoned no more (R457). -/
def State.clearPoison (s : State) (cells : List (Nat × Byte × Byte)) : State :=
  let whole := fun (g : Nat) => (List.range 32).all fun i => cells.any fun c => c.1 = g * 32 + i && c.2.2 = 0xFF
  if s.dev.poisoned.isEmpty && s.dev.badChannels.isEmpty then s
  else ((cells.map fun c => c.1 / 32).dedup.filter fun g => s.poisonedAt (g * 32) && whole g).foldl
    (fun s g => s.modDev fun d => { d with
      poisoned := if d.badChannels.isEmpty then tabDel d.poisoned g else tabPut d.poisoned g 0 }) s

/-- Word 5 of CLASS 2 (R456). -/
def agentWord (kind index : Nat) : DWord := dword (kind + index * 2 ^ 8)

/-- The contained agent that an access to a place meets (R459, R460). -/
def State.deadAgent (s : State) (kind : PKind) (key : Nat) : Option DWord :=
  let dead := fun (k i : Nat) => if s.dev.contained.contains (k, i) then some (agentWord k i) else none
  match kind with
  | .dev | .frame => if s.dev.contained.isEmpty then none
    else (dead 2 (logicalSlice (key % 2 ^ 52))).or (dead 3 (channelOf key))
  | .remote => (dead 4 ((key - 2 ^ 60) / 2 ^ 52)).or
      (if s.dev.down.contains ((key - 2 ^ 60) / 2 ^ 52) then some (agentWord 4 ((key - 2 ^ 60) / 2 ^ 52)) else none)
  | .host => dead 5 0
  | .scratch => if (s.core (scratchCore key)).contained then some (agentWord 1 (s.coreId (scratchCore key) % 32)) else none
  | .chip => dead 2 (chipDie key * 128 + bitsOf (chipOfs key) 7 7)

/-- The owner L1 of a line in a cluster is contained, and no spare has taken its place: the cluster serves the line from
its home, with no L1 copy (R460). -/
def State.ownerDead (s : State) (cl key : Nat) : Bool :=
  (s.core (cl / 4 * 13 + cl % 4 * 4 + ownerIndex key)).contained

/-- A core as an agent of R459. -/
def State.coreAgent (s : State) (c : Nat) : Nat × Nat := if isShepherd c then (6, c - 26) else (1, s.coreId c % 32)

/-- The agents that an access to a place asks (R459). -/
def State.agentsOf (s : State) (kind : PKind) (key : Nat) : List (Nat × Nat) :=
  match kind with
  | .dev | .frame => [(2, logicalSlice (key % 2 ^ 52)), (3, channelOf key)]
  | .remote => [(4, (key - 2 ^ 60) / 2 ^ 52)]
  | .host => [(5, 0)]
  | .scratch => [s.coreAgent (scratchCore key)]
  | .chip => [(2, chipDie key * 128 + bitsOf (chipOfs key) 7 7)]

/-- An agent that answers no request, and is not yet found dead (R459). -/
def State.mute (s : State) (agent : Nat × Nat) : Bool := s.dev.silent.any fun a => (a.1, a.2.1) = agent

/-- An access of a cluster to a place that such an agent does not answer: the place's own agents, or the owner L1 of its line
(R320). -/
def State.muteAt (s : State) (cl : Nat) (kind : PKind) (key : Nat) : Bool :=
  if s.dev.silent.isEmpty then false
  else (s.agentsOf kind key).any s.mute || ((kind = .dev || kind = .remote || kind = .chip)
    && s.mute (s.coreAgent (cl / 4 * 13 + cl % 4 * 4 + ownerIndex key)))

/-- A peer device has lost the context in a reset of its own: an access of the context to the device's memory raises CLASS 2
(R465). -/
def State.peerLost (s : State) (cx : Nat) (kind : PKind) (key : Nat) : Option DWord :=
  let dev := (key - 2 ^ 60) / 2 ^ 52
  if kind = .remote && s.dev.tornAt.contains (dev, cx) then some (agentWord 4 dev) else none

/-! ### The scratch aperture (R308 to R310) -/

/-- Access codes of R281. -/
inductive Acc where
  | load | store | atomic | fetch | table | engine
  deriving DecidableEq, Repr
def Acc.code : Acc → Nat
  | .load => 0 | .store => 1 | .atomic => 2 | .fetch => 3 | .table => 4 | .engine => 5

/-- The base of an area that a core granted: kind 0 the core area, 1 the export area (R311). -/
def Core.area (c : Core) (team kind : Nat) : Nat :=
  ((c.areas.find? fun a => a.1 = team ∧ a.2.1 = kind).map fun a => a.2.2.1).getD 0

/-- The window base of SPACE n (R308). -/
def windowBase (n : Nat) : Nat := 0x3F000000000000 + n * 2 ^ 44

/-- ScratchWindow of R310; `none` is MEMORY. -/
def scratchWindow (s : State) (f : Nat) (va : DWord) (w : DWord) : Res (Option Place) :=
  let x := s.fib f
  let t := s.tm x.team
  let o := va.toNat % 2 ^ 44
  if va.toNat / 2 ^ 54 ≠ 0 then .bad (effProt w)
  else if va.toNat / 2 ^ 48 ≠ 0x3F then .ok none
  else match va.toNat / 2 ^ 44 % 16 with
    | 1 => if t.p ≤ o then .bad (effProt w) else .ok (some ⟨.scratch, scratchKey x.core (x.slice + o)⟩)
    | 2 => if t.q ≤ o then .bad (effProt w)
      else .ok (some ⟨.scratch, scratchKey x.core ((s.core x.core).area x.team 0 + o)⟩)
    | 3 => if 4 * t.e ≤ o then .bad (effProt w)
      else
        let c := t.die * 13 + t.cluster * 4 + o / t.e
        .ok (some ⟨.scratch, scratchKey c ((s.core c).area x.team 1 + o % t.e)⟩)
    | 4 => if (s.ctx t.ctx).chip.getD (coreDie x.core) 0 * 2 ^ 23 ≤ o then .bad (effProt w)
      else .ok (some ⟨.chip, chipKey (coreDie x.core) t.ctx o⟩)
    | _ => .bad (effProt w)

/-! ### Translation (R407 to R416) -/

/-- Page sizes by level: 64 KiB, 512 MiB, 4 TiB (R411). -/
def levelBits (lvl : Nat) : Nat := if lvl = 0 then 16 else if lvl = 1 then 29 else 42

/-- The launch's devices, for the malformed test of R412. -/
def State.launchDevs (s : State) (f : Nat) : List Nat :=
  match tabGet s.launches (s.tm (s.fib f).team).launch with
  | none => [s.dev.devid]
  | some l => (List.range 64).filter fun d => bitOf (natOfBytes ((l.bytes.drop 0x18).take 8)) d

/-- A present tree entry is malformed, R412. -/
def entryMalformed (s : State) (f lvl e : Nat) : Bool :=
  bitsOf e 6 2 ≠ 0 || bitsOf e 52 6 ≠ 0
  || (bitOf e 1 && (bitsOf e 2 4 ≠ 0 || bitsOf e 8 8 ≠ 0))
  || (bitOf e 1 && lvl = 0) || bitsOf e 8 2 = 3
  || (bitsOf e 10 6 ≠ 0 && bitsOf e 8 2 ≠ 1)
  || (!bitOf e 1 && bitsOf e 16 (levelBits lvl - 16) ≠ 0)
  || (bitsOf e 8 2 = 1 && !bitOf e 1 && !(s.launchDevs f).contains (bitsOf e 10 6))

/-- What a walk finds. -/
inductive WalkRes where
  | leaf (e : TlbEntry)
  | missing (reason : Nat)
  | malformed
  /-- A tree entry in a poisoned granule. -/
  | poisoned (key : Nat)
  /-- A tree entry that lies behind a contained agent: word 5 of its event. -/
  | dead (w : DWord)
  deriving DecidableEq, Repr

/-- The levels of Walk (R414), from `lvl` down. -/
def walkFrom (s : State) (f ctx va : Nat) : Nat → Nat → WalkRes
  | 0, _ => .malformed
  | n + 1, t =>
    let lvl := n
    let idx := if lvl = 2 then va / 2 ^ 42 % 4096 else va / 2 ^ levelBits lvl % 8192
    let e := s.num (t + 8 * idx) 8
    match s.deadAgent .dev (t + 8 * idx) with
    | some w => .dead w
    | none =>
    if s.poisonedAt (t + 8 * idx) then .poisoned ((t + 8 * idx) / 32 * 32)
    else if !bitOf e 0 then .missing (4 - lvl)
    else if entryMalformed s f lvl e then .malformed
    else if bitOf e 1 then walkFrom s f ctx va n (bitsOf e 16 36 * 2 ^ 16)
    else .leaf ⟨ctx, va / 2 ^ levelBits lvl, levelBits lvl, bitOf e 2, bitOf e 3, bitOf e 4, bitOf e 5, bitsOf e 8 2,
      bitsOf e 10 6, bitsOf e 16 36 * 2 ^ 16⟩

/-- Walk of R414. -/
def walk (s : State) (f ctx va : Nat) : WalkRes :=
  let ttb := (s.ctx ctx).ttb
  if ttb = 0 then .missing 1 else walkFrom s f ctx va 3 (bitsOf ttb.toNat 12 40 * 2 ^ 12)

/-- What a leaf permits, R413. -/
def TlbEntry.permits (e : TlbEntry) (acc : Acc) (lvl : Nat) : Bool :=
  (lvl ≠ 0 || e.u) && (match acc with
    | .load | .table => e.r
    | .store | .engine => e.w
    | .atomic => e.r && e.w
    | .fetch => e.x)

/-- Whether an entry is of the context and covers the address. -/
def TlbEntry.covers (e : TlbEntry) (ctx va : Nat) : Bool := e.ctx = ctx && e.page = va / 2 ^ e.bits

/-- The place of an address under a leaf (R410, R411). -/
def TlbEntry.place (e : TlbEntry) (devid va : Nat) : Place :=
  let pa := e.pa + va % 2 ^ e.bits
  if e.kind = 0 then ⟨.dev, pa⟩ else if e.kind = 1 then (if e.dev = devid then ⟨.dev, pa⟩ else
    ⟨.remote, remoteKey e.dev pa⟩) else ⟨.host, hostKey pa⟩

/-- Adds an entry to a TLB of `n` entries, the oldest leaving (R415). -/
def tlbFill (n : Nat) (t : List TlbEntry) (e : TlbEntry) : List TlbEntry := (e :: t.filter (· ≠ e)).take n

/-- Fills the core's and the cluster's TLB. -/
def State.fillTlb (s : State) (core : Nat) (e : TlbEntry) : State :=
  (s.modCore core fun c => { c with tlb := tlbFill 128 c.tlb e }).modClus (clusterOf core) fun c =>
    { c with tlb := tlbFill 4096 c.tlb e }

/-- The KIND byte of the segment that holds a frame-heap address (R106). -/
def State.segKind (s : State) (pa : Nat) : Nat := (s.byte (pa / 1024 * 1024 + 0x10)).toNat

/-- The frame-heap checks of R107, R289 and R409 on the byte at `va`; `lvl` is the privilege level. -/
def frameDenied (s : State) (c : Ctx) (va lvl : Nat) (acc : Acc) : Bool :=
  let wr := acc = .store || acc = .atomic || acc = .engine
  if acc = .fetch then true
  else if va < c.fhb.toNat + 0x80000 then lvl = 0 || wr
  else wr && lvl = 0 && (va % 1024 < 0x40 || ((s.segKind va = 3 || s.segKind va = 4)
    && (c.segs.contains (va / 1024 * 1024) || c.hdrSegs.contains (va / 1024 * 1024))))

/-- The first region of R407 that holds an address. -/
inductive Region where
  | aperture (p : Place)
  | frame
  | tensor
  | paged
  deriving DecidableEq, Repr

/-- The region that decides the translation of an address (R407); `w` is the address word of a PROT of the aperture. -/
def regionOf (s : State) (f : Nat) (va : DWord) (w : DWord) : Res Region :=
  (scratchWindow s f va w).map fun sc =>
    let c := s.ctx (s.ctxOf f)
    match sc with
    | some p => .aperture p
    | none =>
      if c.fhb.toNat ≤ va.toNat && va.toNat < c.fhl.toNat then .frame
      else if c.thb.toNat ≤ va.toNat && va.toNat < c.thl.toNat then .tensor
      else .paged

/-- The TLB entry that serves a paged access without a walk, the core's TLB first (R414). -/
def tlbHit (s : State) (f : Nat) (va : DWord) (acc : Acc) : Option TlbEntry :=
  let core := (s.fib f).core
  let hit := ((s.core core).tlb ++ (s.clus (clusterOf core)).tlb).find? fun e => e.covers (s.ctxOf f) va.toNat
  hit.filter fun e => e.permits acc (s.plOf f)

/-- The leaf with which the walk of a paged access fills both TLBs, before its permission is tested (R414). -/
def walkFills (s : State) (f : Nat) (va : DWord) (acc : Acc) : List TlbEntry :=
  match regionOf s f va 0 with
  | .ok .paged =>
    if (tlbHit s f va acc).isSome then []
    else match walk s f (s.ctxOf f) va.toNat with
      | .leaf e => [e]
      | _ => []
  | _ => []

/-- Fills the TLBs of a core with the leaves of some walks. -/
def State.fillTlbs (s : State) (core : Nat) (es : List TlbEntry) : State := es.foldl (fun s e => s.fillTlb core e) s

/-- Translate of R414 for the byte at `va`, with ScratchWindow before it. The state gains a TLB entry. -/
def translateAny (s : State) (f : Nat) (va : DWord) (acc : Acc) (upper : Bool) : Res (Place × State) :=
  let w := addrWord va.toNat acc.code upper
  let cx := s.ctxOf f
  let c := s.ctx cx
  let lvl := s.plOf f
  let a := va.toNat
  (regionOf s f va w).bind fun g =>
    match g with
    | .aperture p => if acc = .fetch then .bad (effProt w) else .ok (p, s)
    | .frame => if frameDenied s c a lvl acc then .bad (effProt w) else .ok (⟨.frame, a⟩, s)
    | .tensor =>
      let pa := a - c.thb.toNat + c.tho.toNat
      if acc = .fetch || Config.hbmBytes ≤ pa then .bad (effProt w) else .ok (⟨.dev, pa⟩, s)
    | .paged => match tlbHit s f va acc with
      | some e => .ok (e.place s.dev.devid a, s)
      | none => match walk s f cx a with
        | .missing _ => .bad (effPage w)
        | .malformed => .bad (effProt w)
        | .poisoned g => .sys 1 (dword g)
        | .dead w5 => .sys 2 w5
        | .leaf e => if e.permits acc lvl then .ok (e.place s.dev.devid a, s.fillTlb (s.fib f).core e)
          else .bad { effProt w with fills := [e] }

/-- An access to a contained agent ends in CLASS 2 (R460), and so does one to memory of a device that has lost the context
(R465); one to an agent that does not answer waits (R459). -/
def translate (s : State) (f : Nat) (va : DWord) (acc : Acc) (upper : Bool) : Res (Place × State) :=
  (translateAny s f va acc upper).bind fun r =>
    match (s.deadAgent r.1.kind r.1.key).or (s.peerLost (s.ctxOf f) r.1.kind r.1.key) with
    | some w => .sys 2 w
    | none => if s.muteAt (clusterOf (s.fib f).core) r.1.kind r.1.key then .wait else .ok r

/-! ### Stores on their way (R171, R332) -/

/-- Overlays the bits that one store writes to a byte. -/
def StoreReq.over (r : StoreReq) (key : Nat) (b : Byte) : Byte :=
  r.cells.foldl (fun b c => if c.1 = key then mergeByte b c.2.1 c.2.2 else b) b

/-- Overlays a list of stores, oldest first. -/
def overlay (rs : List StoreReq) (key : Nat) (b : Byte) : Byte := rs.foldl (fun b r => r.over key b) b

/-- Two stores touch a common byte, or a common scratchpad line: they are performed in the order in which they left their
queues (R315, R333). -/
def StoreReq.meets (a b : StoreReq) : Bool := a.cells.any fun c => b.cells.any fun d =>
  c.1 = d.1 || (levelOf c.1 = .scratch && lineOf c.1 = lineOf d.1)

/-- Two accesses of one fibre to one owning core's scratchpad reach it in program order (R315). -/
def StoreReq.sameCore (a b : StoreReq) : Bool := a.fibre = b.fibre && a.cells.any fun c => b.cells.any fun d =>
  levelOf c.1 = .scratch && levelOf d.1 = .scratch && scratchCore c.1 = scratchCore d.1

/-- Whether a store that waits holds a later one of its core back: of its own fibre any (R341); of another fibre one that it
meets, unless the later one is a fold store, which a store that waits for that fold never holds. [DEDUCED, log 38] -/
def StoreReq.holdsBack (a b : StoreReq) : Bool := a.fibre = b.fibre || (b.fold.isNone && a.meets b)

/-- The stores of a core order that a fibre of the core sees: a fold store is its own fibre's alone (R332). -/
def Core.seenBy (c : Core) (f : Nat) : List StoreReq := c.order.filter fun r => r.fold.isNone || r.fibre = f

/-- A byte with the fibre's queue over it, and with its own fold stores under that (R170, R186). -/
def State.fwdOver (s : State) (f key : Nat) (b : Byte) : Byte :=
  overlay ((s.core (s.fib f).core).order.filter (fun r => r.fold.isSome && r.fibre = f) ++ (s.fib f).queue) key b

/-- A byte with all the stores over it that the fibre sees on its core (R332). -/
def State.seenOver (s : State) (f key : Nat) (b : Byte) : Byte :=
  overlay ((s.core (s.fib f).core).seenBy f ++ (s.fib f).queue) key b

/-- A byte with the fibre's own stores over it: over a version that is its own pending one (R186, R343). -/
def State.ownOver (s : State) (f key : Nat) (b : Byte) : Byte :=
  overlay ((s.core (s.fib f).core).order.filter (fun r => r.fibre = f) ++ (s.fib f).queue) key b

/-- A dirty byte of a cluster's L1s over a byte. -/
def Cluster.overDirty (c : Cluster) (key : Nat) (b : Byte) : Byte :=
  match tabGet c.dirty key with
  | none => b
  | some d => mergeByte b d.val d.mask

/-- The words of R322 that the bytes [a, a+n) of one line touch. -/
def wordSpan (a n : Nat) (whole : Bool) : BitVec 32 :=
  if whole then BitVec.allOnes 32
  else
    let w0 := a % 128 / 4
    let w1 := (a + n - 1) % 128 / 4
    BitVec.ofNat 32 ((2 ^ (w1 - w0 + 1) - 1) * 2 ^ w0)

/-- Removes the words of a span from every clean copy of a line, in every cluster but those excepted (R322). -/
def State.invalidate (s : State) (line : Nat) (span : BitVec 32) (keep : Option Nat) : State :=
  { s with clusters := s.clusters.map fun c =>
      if some c.1 = keep then c else (c.1, { c.2 with copies := match tabGet c.2.copies line with
        | none => c.2.copies
        | some k =>
          if k.valid &&& ~~~span = 0 then tabDel c.2.copies line
          else tabPut c.2.copies line { k with valid := k.valid &&& ~~~span } }) }

/-- Drops the dirty state of bytes that another store overwrites whole (R322, R333). -/
def State.dropDirty (s : State) (keys : List Nat) : State :=
  { s with clusters := s.clusters.map fun c => (c.1, { c.2 with dirty := keys.foldl tabDel c.2.dirty }) }

/-- Raises LS of a line (R344). -/
def State.raiseLs (s : State) (key k : Nat) : State :=
  if k = 0 then s else s.modLine (lineOf key) fun l => { l with ls := Nat.max l.ls k }

/-- Parked fibres whose word a write at device scope touched may return (R299); those parked on a GOT entry call BindEntry again
(R438). -/
def State.wakeWords (s : State) (keys : List Nat) : State :=
  { s with fibres := s.fibres.map fun p => match p.2.loc with
      | .parked (.word key) =>
        if keys.any fun k => k / 8 = key / 8 then (p.1, { p.2 with loc := .parked .room }) else p
      | .parked (.entry key ea reg) =>
        if keys.any fun k => k / 8 = key / 8 then (p.1, { p.2 with loc := .parked (.bind ea reg) }) else p
      | _ => p }

/-- A byte lies in the areas of a scratchpad tile's line range; an ordinary store sets such a tile's tag to 0 (R205).
`extent` gives a tile's bytes. -/
def Tile.holds (t : Tile) (base ofs extent : Nat) : Bool :=
  !t.rod && base + t.base ≤ ofs && ofs < base + t.base + extent

/-- Element bits of a tag's format; an untyped tile counts 8 (R40, R202). -/
def tagBits (tag : BitVec 16) : Nat :=
  match Fmt.ofCode (tag.toNat % 64) with
  | some .fp32 => 32
  | some .fp16 | some .bf16 => 16
  | some .int4 | some .bead4 => 4
  | some .bead6 => 6
  | _ => 8

def tagSparsity (tag : BitVec 16) : Nat := bitsOf tag.toNat 6 2
def tagLayout (tag : BitVec 16) : Nat := bitsOf tag.toNat 8 4
def tagScale (tag : BitVec 16) : Nat := bitsOf tag.toNat 12 2

/-- The lines of a tile's reduction and their length (R202, R216, R316); rod j of a rod tile is line j. -/
def Tile.lineCount (t : Tile) : Nat := if t.rod || t.axis then t.cols else t.rows
def Tile.lineLen (t : Tile) : Nat := if t.rod || t.axis then t.rows else t.cols
/-- ROWBYTES of R202. -/
def rowBytesOf (cols bits sparsity : Nat) : Nat :=
  if sparsity = 1 then ceilDiv (ceilDiv (cols * bits) 8) 2 else ceilDiv (cols * bits) 8
def Tile.dataSize (t : Tile) : Nat := t.rows * t.pitch
/-- Bytes of the scale area (R316). -/
def Tile.scaleStride (t : Tile) : Nat :=
  if tagScale t.tag = 1 then 4 else if tagScale t.tag = 2 then roundUp (ceilDiv t.lineLen 48) 16 else 0
def Tile.scaleSize (t : Tile) : Nat := roundUp (t.lineCount * t.scaleStride) 16
/-- Bytes of the sparsity-metadata area (R316). -/
def Tile.metaStride (t : Tile) : Nat :=
  if tagSparsity t.tag = 1 then roundUp (ceilDiv t.lineLen 8) 16
  else if tagSparsity t.tag = 2 then roundUp (ceilDiv t.lineLen 384) 16 else 0
def Tile.metaSize (t : Tile) : Nat := t.lineCount * t.metaStride
/-- Bytes of all areas. -/
def Tile.extent (t : Tile) : Nat := t.dataSize + t.scaleSize + t.metaSize

/-- The team of a tile entry's key, and its TN (R198). -/
def tileKey (team tn : Nat) : Nat := team * 2048 + tn

/-- Untypes the scratchpad tiles that hold a written byte, except one entry (R205). -/
def State.untype (s : State) (key : Nat) (keep : Option TileRef) : State :=
  if levelOf key ≠ .scratch then s
  else
    let core := scratchCore key
    let c := s.core core
    if c.tiles.isEmpty then s
    else
      let base := c.area
      let hit := fun (p : Nat × Tile) => decide (keep ≠ some (TileRef.mk core p.1))
        && p.2.holds (base (p.1 / 2048) 0) (scratchOfs key) p.2.extent
      let tiles := c.tiles.map fun p => if hit p then (p.1, { p.2 with tag := 0 }) else p
      s.setCore core { c with tiles := tiles }

/-- A scratchpad key lies in the A operand of a loop that has no matching wait yet (R224). -/
def LoopWait.holds (w : LoopWait) (s : State) (key : Nat) : Bool :=
  levelOf key = .scratch && scratchCore key = w.acore && (s.core w.acore).area w.team 0 + w.lo ≤ scratchOfs key
    && scratchOfs key < (s.core w.acore).area w.team 0 + w.hi

/-- A store into such an operand taints the elements that the loop writes (R224). -/
def State.taint (s : State) (key : Nat) : State :=
  { s with cores := s.cores.map fun p => if p.2.waits.any fun w => w.holds s key then
      (p.1, { p.2 with waits := p.2.waits.map fun w => { w with tainted := w.tainted || w.holds s key } }) else p }

/-- Writes store cells to the byte table. -/
def State.putCells (s : State) (cells : List (Nat × Byte × Byte)) : State :=
  cells.foldl (fun s c => s.putByte c.1 (mergeByte (s.byte c.1) c.2.1 c.2.2)) s

/-- Under CXL the L2 slice of a die holds a copy of a host line that the die has reached, `wr` in a state that permits
writing (R446). -/
def State.holdHost (s : State) (die key : Nat) (wr : Bool) : State :=
  match s.dev.host with
  | some (.cxl, _) => s.modDev fun d =>
    let old := d.hostLines.filter fun l => l.1 = lineOf key && l.2.1 = die
    let rest := d.hostLines.filter fun l => !(l.1 = lineOf key && (l.2.1 = die || wr))
    { d with hostLines := rest ++ [(lineOf key, die, wr || old.any fun l => l.2.2)] }
  | _ => s

/-- The home takes a line of device memory back from the host caches that hold it, before a write, or before a load where one
holds it writable (R450). The bytes that the host wrote are in memory already. [DESIGN CHOICE, log 87] -/
def State.backInvalidate (s : State) (keys : List Nat) (write : Bool) : State :=
  if s.dev.hostHeld.isEmpty then s
  else s.modDev fun d => { d with
    hostHeld := d.hostHeld.filter fun l => !((keys.any fun k => lineOf k = l.1) && (write || l.2)) }

/-- An agent of a die reads bytes at their homes: a host cache that holds a line writable gives it up (R450), and under CXL the
die's slice holds a copy of a host line (R446). -/
def State.readBy (s : State) (die : Nat) (keys : List Nat) : State :=
  (keys.filter fun k => levelOf k = .host).foldl (fun s k => s.holdHost die k false)
    (s.backInvalidate (keys.filter fun k => levelOf k ≠ .host) false)

/-- Notes the stored bytes of lines that a fetch path holds, for the fibres that stored them (R195). -/
def State.markCode (s : State) (fs : List Nat) (cells : List (Nat × Byte × Byte)) : State :=
  let keys := (cells.map fun c => c.1).filter fun k => s.cores.any fun c => (tabGet c.2.code (lineOf k)).isSome
  if keys.isEmpty then s
  else { s with fibres := s.fibres.map fun p =>
    if fs.contains p.1 then
      (p.1, { p.2 with ownCode := keys.foldl (fun t k => tabPut t k (s.byte k, s.seq)) p.2.ownCode })
    else p }

/-- Whether the current translation of a dirty word's page still lets its context write it (R182). [DEDUCED, log 40] -/
def writeBackCheck (s : State) (f : Nat) (d : DirtyByte) : Res Unit :=
  match translate s f d.va .store false with
  | .ok _ => .ok ()
  | .bad e => .bad { e with wb := true }
  | .wait => .wait
  | .sys c w => .sys c w

/-- A dirty byte may leave its L1: a fibre that stored it may still write it (R182). -/
def State.mayLeave (s : State) (d : DirtyByte) : Bool :=
  match d.storers.find? fun f => (tabGet s.fibres f).isSome with
  | none => true
  | some f => match writeBackCheck s f d with
    | .ok _ => true
    | _ => false

/-- One dirty byte of a cluster goes home and is merged there: performed at device scope, so that no clean copy of its word
stays and a fibre parked on it may return (R299, R322, R330). -/
def State.mergeHome (s : State) (cl : Nat) (d : Nat × DirtyByte) : State :=
  (((((s.modClus cl fun c => { c with dirty := tabDel c.dirty d.1 }).invalidate (lineOf d.1) (wordSpan d.1 1 false)
    none).putCells [(d.1, d.2.val, d.2.mask)]).raiseLs d.1 d.2.ls).markCode d.2.storers
      [(d.1, d.2.val, d.2.mask)]).wakeWords [d.1]

/-- Before a home gives words to a new holder, the dirty bytes that any L1 holds there go home (R178, R322); a byte whose page
may not be written any more stays held (R182). -/
def State.flushWords (s : State) (hit : Nat → Bool) : State :=
  s.clusters.foldl (fun s c => c.2.dirty.foldl (fun s d =>
    if hit d.1 && s.mayLeave d.2 then s.mergeHome c.1 d else s) s) s

/-- Performs store cells at the home of their line (scope 4 and 5): CUR in place, other copies of the words invalid, of the
whole line where LINE = 1 (R174, R322, R330, R347). Dirty bytes that another L1 holds in the same aligned eight go home
before, so that no reader sees a part of one store (R334); a host cache gives the line up (R450). It wakes no fibre. -/
def State.performQuiet (s : State) (cells : List (Nat × Byte × Byte)) (k : Nat) (whole : Bool) : State :=
  let s := s.flushWords fun a => cells.any fun c => if whole then lineOf c.1 = lineOf a else c.1 / 8 = a / 8
  let s := s.backInvalidate (cells.map (·.1)) true
  let s := s.dropDirty ((cells.filter fun c => c.2.2 = 0xFF).map (·.1))
  let s := cells.foldl (fun s c => s.invalidate (lineOf c.1) (wordSpan c.1 1 whole) none) s
  let s := s.putCells cells
  cells.foldl (fun s c => s.raiseLs c.1 k) s

/-- The same, and the fibres parked on the words wake (R299, R438). -/
def State.performSpan (s : State) (cells : List (Nat × Byte × Byte)) (k : Nat) (whole : Bool) : State :=
  (s.performQuiet cells k whole).wakeWords (cells.map (·.1))

/-- Performs store cells at their home, with the span of the words they touch. -/
def State.performHome (s : State) (cells : List (Nat × Byte × Byte)) (k : Nat) : State := s.performSpan cells k false

/-- Performs cells of a store, each with its place in it, in the owner L1s of a cluster (scope 0 to 3): the bytes become dirty
there (R174, R322). [DEDUCED, log 38] -/
def State.performL1 (s : State) (cl : Nat) (r : StoreReq) (cells : List ((Nat × Byte × Byte) × Nat)) : State :=
  let put := fun (d : Tab DirtyByte) (at_ : (Nat × Byte × Byte) × Nat) =>
    let cell := at_.1
    let old : DirtyByte := (tabGet d cell.1).getD (DirtyByte.mk 0 0 [] r.ctx 0 0)
    let storers := if old.storers.contains r.fibre then old.storers else old.storers ++ [r.fibre]
    let va := dword ((r.va.toNat + at_.2) / 4 * 4)
    tabPut d cell.1 (DirtyByte.mk (mergeByte old.val cell.2.1 cell.2.2) (old.mask ||| cell.2.2) storers r.ctx va
      (Nat.max old.ls r.k))
  s.modClus cl fun c => { c with dirty := cells.foldl put c.dirty }

/-- The pending version of a line belongs to another fold than the store's (R171, R347). -/
def State.pendBlocks (s : State) (cells : List (Nat × Byte × Byte)) (fold : Option FoldTag) : Bool :=
  cells.any fun c => match (s.line (lineOf c.1)).pend with
    | none => false
    | some p => some p.fold ≠ fold

/-- The two digest bits of a line's physical address (R345). -/
def digestBits (key : Nat) : DWord :=
  let pa := key % 2 ^ 52
  let h1 := Nat.xor (bitsOf pa 7 6) (bitsOf pa 19 6)
  let h2 := Nat.xor (bitsOf pa 13 6) (bitsOf pa 25 6)
  (1#64 <<< h1) ||| (1#64 <<< h2)

/-- Version entries of a slice: PENDs and PRIs of its lines (R340). -/
def State.versionsAt (s : State) (slice : Nat) : Nat :=
  (s.lines.map fun l => if s.homeSlice (l.1 * 128) = slice then
    (if l.2.pend.isSome then 1 else 0) + (if l.2.pri.isSome then 1 else 0) else 0).sum

/-- The line whose PRI StorePending takes: least TC, then lowest address (R341). [DEDUCED, log 42] -/
def State.priVictim (s : State) (slice : Nat) : Option Nat :=
  (s.lines.foldl (fun (b : Option (Nat × Nat)) l =>
    if s.homeSlice (l.1 * 128) = slice && l.2.pri.isSome then
      match b with
      | none => some (l.2.tc, l.1)
      | some (tc, _) => if l.2.tc < tc then some (l.2.tc, l.1) else b
    else b) none).map (·.2)

/-- Writes bytes with masks into the bytes of one line. -/
def mergeLine (line : Nat) (bytes : List Byte) (cells : List (Nat × Byte × Byte)) : List Byte :=
  cells.foldl (fun bs c => if lineOf c.1 = line then
    setAt bs (c.1 % 128) (mergeByte (bs.getD (c.1 % 128) 0) c.2.1 c.2.2) else bs) bytes

/-- The record of a fold. -/
def State.foldRec (s : State) (t : FoldTag) : Option Fold := s.folds.find? fun r => r.tag = t
def State.modFold (s : State) (t : FoldTag) (g : Fold → Fold) : State :=
  { s with folds := s.folds.map fun r => if r.tag = t then g r else r }

/-- The digest of a fold's record so far. -/
def Fold.digest (r : Fold) : DWord := r.lines.foldl (fun d l => d ||| digestBits (l * 128)) 0

/-- StorePending of R341 on one line; `none` while no version entry can be had or another fold holds the line. -/
def storePendingLine (s : State) (fold : FoldTag) (k line : Nat) (cells : List (Nat × Byte × Byte)) : Option State :=
  let l := s.line line
  match l.pend with
  | some p =>
    if p.fold ≠ fold then none
    else some (s.setLine line { l with pend := some { p with bytes := mergeLine line p.bytes cells },
                                       ls := Nat.max l.ls k })
  | none =>
    let slice := s.homeSlice (line * 128)
    let s1? : Option State :=
      if s.versionsAt slice < 1024 then some s
      else (s.priVictim slice).map fun v => s.modLine v fun x => { x with pri := none }
    s1?.map fun s1 =>
      let s2 := s1.modFold fold fun r => if r.lines.contains line then r else { r with lines := r.lines ++ [line] }
      let dg := ((s2.foldRec fold).map Fold.digest).getD 0
      s2.modLine line fun x => { x with
        pend := some ⟨mergeLine line (s1.bytes (line * 128) 128) cells, fold, .open, dg⟩, ls := Nat.max x.ls k }

/-- StorePending for a store that may touch two lines: in both or in neither (R417). -/
def storePendingAll (s : State) (fold : FoldTag) (r : StoreReq) : Option State :=
  let ls := (r.cells.map fun c => lineOf c.1).dedup
  if s.pendBlocks r.cells (some fold) then none
  else ls.foldl (fun o l => o.bind fun s => storePendingLine s fold r.k l r.cells) (some s)

/-- Ends an operation for every fibre that named a flag or a register for it (R19, R25, R173). -/
def State.finishTok (s : State) (t : Nat) : State :=
  { s with fibres := s.fibres.map fun p =>
      if (p.2.pending ++ p.2.busy).any fun q => q.2 = t then (p.1, p.2.opDone t) else p }

/-- Ends a tracked store. -/
def State.finishStore (s : State) (r : StoreReq) : State :=
  match r.tok with
  | none => s
  | some t => s.finishTok t

/-- Writes a dirty byte back to its home, with the other dirty bytes of its aligned eight, so that the home never shows a part
of one store (R322, R334); `none` behind a pending version. -/
def writeBackGroup (s : State) (cl key : Nat) : Option State :=
  let ds := (s.clus cl).dirty.filter fun d => d.1 / 8 = key / 8
  let cells := ds.map fun d => (d.1, d.2.val, d.2.mask)
  if ds.isEmpty then some s
  else if s.pendBlocks cells none then none
  else
    let k := ds.foldl (fun m d => Nat.max m d.2.ls) 0
    let s := s.modClus cl fun c => { c with dirty := ds.foldl (fun t d => tabDel t d.1) c.dirty }
    some (ds.foldl (fun s d => s.markCode d.2.storers [(d.1, d.2.val, d.2.mask)]) (s.performHome cells k))

/-- Before a fold store goes to its home, the dirty words of its line in the cluster are written back, so that the bytes
merged with the store hold them (R333, R341). [DEDUCED, log 40] -/
def foldWriteBack (s : State) (core : Nat) (r : StoreReq) : State :=
  let mine := (s.clus (clusterOf core)).dirty.filter fun d => r.cells.any fun c => lineOf c.1 = lineOf d.1
  mine.foldl (fun s d => if s.mayLeave d.2 then (writeBackGroup s (clusterOf core) d.1).getD s else s) s

/-- The segment of a context's frame heap that holds an address is taken (R325). -/
def Ctx.segTaken (c : Ctx) (a : Nat) : Bool :=
  c.segs.contains (a / 1024 * 1024) || c.hdrSegs.contains (a / 1024 * 1024)

/-- An access to a segment's bytes puts the segment into the core's segment cache of 512 entries, the least recently touched
leaving; a core that held it gives it up (R325). [DEDUCED, log 30] -/
def touchSeg (s : State) (core a : Nat) : State :=
  let g := a / 1024 * 1024
  let drop := fun (p : Nat × Core) => (p.1, { p.2 with segs := p.2.segs.filter (· ≠ g) })
  ({ s with cores := s.cores.map fun (p : Nat × Core) => if p.1 = core then p else drop p }).modCore core fun c =>
    { c with segs := (g :: c.segs.filter (· ≠ g)).take 512 }

/-- The same for several addresses, of which those outside taken segments touch nothing. -/
def touchSegs (s : State) (f : Nat) (as : List Nat) : State :=
  as.foldl (fun s a => if (s.ctx (s.ctxOf f)).segTaken a then touchSeg s (s.fib f).core a else s) s

/-- A byte of a context's frame-heap region that keeps what is stored to it: in the fault log, or in a taken segment; any
byte outside the region does. -/
def Ctx.keeps (c : Ctx) (a : Nat) : Bool := a < c.fhb.toNat + 0x80000 || decide (c.fhl.toNat ≤ a) || c.segTaken a

/-- A store into the frame-heap region: what it writes to a free segment is lost (R325). -/
def State.storeFrame (s : State) (core : Nat) (r : StoreReq) : State :=
  let c := s.ctx r.ctx
  let cells := r.cells.filter fun x => c.keeps x.1
  cells.foldl (fun s x => if c.segTaken x.1 then touchSeg s core x.1 else s) (s.performHome cells r.k)

/-- Where the bytes of a store are performed: at the core of a scratchpad, in the frame heap, at the host, in the owner L1, or
at the home (R174, R315, R325, R446). [DEDUCED, log 38] -/
inductive StorePath where
  | scratch | frame | host | near | home
  deriving DecidableEq, Repr

/-- The path of one byte of a store: the pieces of a store may lie in different memories (R417). -/
def StoreReq.path (r : StoreReq) (s : State) (core key : Nat) : StorePath :=
  let c := s.ctx r.ctx
  match levelOf key with
  | .scratch => .scratch
  | .host => .host
  | _ =>
    if c.fhb.toNat ≤ key && key < c.fhl.toNat then .frame
    else if r.scope.code ≤ 3 && !s.ownerDead (clusterOf core) key then .near else .home

/-- Performs the bytes of a store that take one path. -/
def performPart (s : State) (core : Nat) (r : StoreReq) (p : StorePath) : State :=
  let part := r.cells.zipIdx.filter fun c => r.path s core c.1.1 = p
  let cells := part.map (·.1)
  if part.isEmpty then s
  else match p with
    | .scratch =>
      let s := s.putCells cells
      let s := if r.untype then cells.foldl (fun s c => s.untype c.1 none) s else s
      let s := cells.foldl (fun s c => s.taint c.1) s
      let s := cells.foldl (fun s c => s.raiseLs c.1 r.k) s
      s.wakeWords (cells.map (·.1))
    | .frame => s.storeFrame core { r with cells := cells }
    | .host => (cells.foldl (fun s c => s.holdHost (coreDie core) c.1 true) (s.performHome cells r.k)).markCode [r.fibre] cells
    | .near => s.performL1 (clusterOf core) r part
    | .home => (s.performSpan cells r.k r.line).markCode [r.fibre] cells

/-- Performs one store of a core at its coherence point, in both its lines or in neither (R171, R174, R330, R417); `none` while
it must wait behind another fold's pending version (R347), for a version entry, or for an agent that does not answer (R459). [DEDUCED, log 38] -/
def performStore (s : State) (core : Nat) (r : StoreReq) : Option State :=
  match r.fold with
  | some t => (storePendingAll (foldWriteBack s core r) t r).map fun s => s.finishStore r
  | none =>
    if s.pendBlocks r.cells none || r.cells.any fun c => s.muteAt (clusterOf core) (levelOf c.1) c.1 then none
    else some (([StorePath.scratch, .frame, .host, .near, .home].foldl (fun s p => performPart s core r p)
      (s.clearPoison r.cells)).finishStore r)

/-- A store of the fibre in the core order waits at its home: the fibre's later stores wait in the queue behind it (R341). -/
def waitsAtHome (s : State) (f core : Nat) : Bool :=
  (s.core core).order.any fun r => r.fibre = f && (performStore s core r).isNone

/-- STORE_QUEUE_DRAIN: the oldest store of a fibre's queue joins the core order (R332), unless an earlier one waits at its home
(R341). -/
def drainOne (s : State) (f : Nat) : State :=
  let x := s.fib f
  match x.queue with
  | [] => s
  | r :: rest =>
    if waitsAtHome s f x.core then s
    else (s.setFib f { x with queue := rest }).modCore x.core fun c => { c with order := c.order ++ [r] }

/-- The stores of the fibre's queue join the core order, as far as they can. [DESIGN CHOICE, log 18] -/
def drainQueue (s : State) (f : Nat) : State := (s.fib f).queue.foldl (fun s _ => drainOne s f) s

/-- The same for some fibres. -/
def drainAll (s : State) (fs : List Nat) : State := fs.foldl drainQueue s

/-- The drain of R112: it waits until every store of the fibres has left its queue. -/
def drained (s : State) (fs : List Nat) : Res State :=
  if fs.any fun f => !((drainAll s fs).fib f).queue.isEmpty then .wait else .ok (drainAll s fs)

/-- Performs the stores of a core order, oldest first; a store that must wait holds others back (R341). -/
def performFrom (s : State) (core : Nat) : List StoreReq → List StoreReq → List StoreReq × State
  | [], kept => (kept, s)
  | r :: rest, kept =>
    if kept.any fun q => q.holdsBack r then performFrom s core rest (kept ++ [r])
    else match performStore s core r with
      | none => performFrom s core rest (kept ++ [r])
      | some s' => performFrom s' core rest kept

/-- Performs everything of a core's order that can be performed. -/
def performCore (s : State) (core : Nat) : State :=
  let r := performFrom s core (s.core core).order []
  r.2.modCore core fun c => { c with order := r.1 }

/-- The write-backs of the bytes that a fibre holds dirty, in ascending order of their places, so that of several that are
refused the first is reported (R182) [DESIGN CHOICE, log 124]; those that fail in a way that `pass` selects stay held. -/
def writeBackWhere (s : State) (f : Nat) (pass : Res Unit → Bool) : Res State :=
  let cl := clusterOf (s.fib f).core
  let mine := (s.clus cl).dirty.filter fun d => d.2.storers.contains f
  Res.foldM (fun s d =>
    let r := writeBackCheck s f d.2
    if pass r then .ok s
    else r.bind fun _ => match writeBackGroup s cl d.1 with
      | none => .wait
      | some s' => .ok s') s mine

/-- A write-back that the translation refuses. -/
def refused (r : Res Unit) : Bool := match r with
  | .bad _ => true
  | _ => false

/-- One that a system-class event ends. -/
def struck (r : Res Unit) : Bool := match r with
  | .sys _ _ => true
  | _ => false

/-- The write-backs that an instruction of the fibre starts at device or system scope (R182, R350). With `skip` the
drain passes over a write-back that the translation refuses, and no other. -/
def writeBackFibre (s : State) (f : Nat) (skip : Bool) : Res State := writeBackWhere s f fun r => skip && refused r

/-- The fibre has an ICINV or a TLBI outstanding at other devices (R194, R245). [DEDUCED, log 109] -/
def Fibre.awaitsDevices (x : Fibre) : Bool := x.pending.any fun p => 12 ≤ p.1

/-- Starts such an operation: a message to each device, whose acknowledgement it awaits; `flag` is its completion flag, if it
has one. [DEDUCED, log 109] -/
def askDevices (s : State) (f : Nat) (devs : List Nat) (flag : Option Nat) (msg : Nat → Nat → OutMsg) : State :=
  if devs.isEmpty then s
  else
    let tok := s.seq
    let on := fun (x : Fibre) => { x with
      pending := x.pending ++ (12, tok) :: (flag.map fun n => (n, tok)).toList }
    devs.foldl (fun s d => (s.modDev fun v => { v with acks := v.acks ++ [(tok, d)] }).send (msg d tok)) (s.bump.modFib f on)

/-- The answers of a device that have come, or will not come any more: operations that await no other answer end. -/
def ackedBy (s : State) (gone : Nat × Nat → Bool) : State :=
  let hit := s.dev.acks.filter gone
  let left := s.dev.acks.filter fun a => !gone a
  ((hit.map (·.1)).dedup.filter fun t => !left.any fun a => a.1 = t).foldl (fun s t => s.finishTok t)
    (s.modDev fun d => { d with acks := left })

/-- The earlier stores of the fibre are performed (R332). [DEDUCED, log 60] -/
def settleStores (s : State) (f : Nat) : Res State :=
  let s1 := performCore (drainQueue s f) (s.fib f).core
  if !(s1.fib f).queue.isEmpty || (s1.core (s1.fib f).core).order.any fun r => r.fibre = f then .wait else .ok s1

/-- Makes every earlier store of the fibre performed at a scope (R171, R330, R338), and its invalidations in other devices
done (R194, R245). [DESIGN CHOICE, log 18] [DEDUCED, log 33] -/
def drainAt (s : State) (f : Nat) (scope : Scope) (skip : Bool) : Res State :=
  if (s.fib f).awaitsDevices then .wait
  else
  (settleStores s f).bind fun s => if scope.code ≤ 3 then .ok s else writeBackFibre s f skip

/-- The drain of an exiting fibre (R121, R350): a write-back that is refused or that meets a contained agent reports nothing.
The bytes that a refused write-back leaves stay dirty in the L1 and leave it as any other fibre's do; the spec says nothing of
them. [DESIGN CHOICE, log 124] -/
def exitDrain (s : State) (f : Nat) : Res State :=
  (drainAt s f .team false).bind fun s => writeBackWhere s f fun r => refused r || struck r

/-! ### Loads (R170, R343 to R345) -/

/-- The settled stamp of this device, over the lines that are homed on it (R344). -/
def State.settled (s : State) : Nat :=
  s.lines.foldl (fun m l => match l.2.pend with
    | none => m
    | some p => if 2 ^ 60 ≤ l.1 * 128 then m else match p.st with
      | .open => m
      | .acked tf => Nat.min m (tf - 1)
      | .stamped t => Nat.min m (t - 1)) s.dev.hb

/-- The settled stamp last advertised by a device of the launch. -/
def State.settledOf (s : State) (dev : Nat) : Nat :=
  if dev = s.dev.devid then s.settled else tabGetD s.dev.settled dev 0

/-- The system settled stamp (R344) over a launch's devices. [DESIGN CHOICE, log 97] -/
def State.systemSettled (s : State) (devs : List Nat) : Nat :=
  devs.foldl (fun m d => Nat.min m (s.settledOf d)) s.settled

/-- HomeRead of R343: the version's bytes with stamp, fold tag and digest; `current` tells CUR from PRI. -/
structure Version where
  bytes : List Byte
  stamp : Nat
  tag : Option FoldTag
  digest : DWord
  current : Bool
  deriving DecidableEq, Repr

def homeRead (s : State) (line v : Nat) (w : DWord) : Res Version :=
  let l := s.line line
  let waits := match l.pend with
    | none => false
    | some p => match p.st with
      | .open => false
      | .acked tf => decide (tf ≤ v)
      | .stamped t => decide (t ≤ v)
  if waits then .wait
  else if l.tc ≤ v then .ok ⟨s.bytes (line * 128) 128, l.tc, l.tag, l.digest, true⟩
  else match l.pri with
    | some p => if p.stamp ≤ v then .ok ⟨p.bytes, p.stamp, none, 0, false⟩ else .bad (effViewLost w)
    | none => .bad (effViewLost w)

/-- A copy serves a load of view v, R345. A copy of the version before CUR, whose stamp is `tc`, is a stale copy for a view
at or above `tc`: it counts as invalidated there. [DEDUCED, log 41] -/
def Copy.usable (c : Copy) (v rs tc : Nat) (span : BitVec 32) : Bool :=
  c.s ≤ v && v ≤ Nat.max c.u rs && (c.s = tc || v < tc) && c.valid &&& span = span

/-- Fills or widens a clean copy (R321, R345). -/
def State.fillCopy (s : State) (cl line : Nat) (span : BitVec 32) (v : Version) : State :=
  if s.ownerDead cl (line * 128) then s
  else s.modClus cl fun c =>
    let u := s.settledOf (s.keyDev (line * 128))
    let ls := (s.line line).ls
    let valid := match tabGet c.copies line with
      | some k => if k.s = v.stamp then k.valid ||| span else span
      | none => span
    { c with copies := tabPut c.copies line ⟨valid, v.bytes, v.stamp, u, ls, v.tag, v.stamp, v.digest⟩ }

/-- FractureCheck of R345: companions of the fold that may be stale leave the L1. -/
def fractureCheck (s : State) (cl : Nat) (tag : Option FoldTag) (stamp : Nat) (digest : DWord) : State :=
  match tag with
  | none => s
  | some _ => s.modClus cl fun c => { c with copies := c.copies.filter fun k =>
      !((digest &&& digestBits (k.1 * 128) = digestBits (k.1 * 128))
        && Nat.max k.2.u (s.settledOf (s.keyDev (k.1 * 128))) < stamp) }

/-- The fold of a fibre's open or sealing slot whose pending version the line holds (R186, R343). -/
def ownPend (x : Fibre) (l : Line) : Option Pend :=
  match l.pend with
  | none => none
  | some p => if x.fd.any fun o => (match o with
      | some sl => sl.tag = p.fold && (sl.st = .open || sl.st = .sealing)
      | none => false) then some p else none

/-- The line's last promotion is of a fold that the fibre is still sealing: it reads its own version (R186, R332). -/
def sealingTag (x : Fibre) (t : Option FoldTag) : Bool :=
  match t with
  | none => false
  | some t => x.fd.any fun o => match o with
    | some sl => sl.tag = t && sl.st = .sealing
    | none => false

/-- A live barrier line (R190): made so by BARA .init and not yet retired. -/
def State.barrierLive (s : State) (key : Nat) : Bool := (s.line (lineOf key)).live

/-- The carried stamp of a line as a core reads it: `base` at its home or in a copy, with those of the L1's dirty bytes and of
the stores of the core that the fibre sees (R344). -/
def State.lineLs (s : State) (f line base : Nat) : Nat :=
  let x := s.fib f
  let m := (s.clus (clusterOf x.core)).dirty.foldl (fun m d => if lineOf d.1 = line then Nat.max m d.2.ls else m) base
  ((s.core x.core).seenBy f).foldl (fun m r => if r.cells.any fun c => lineOf c.1 = line then Nat.max m r.k else m) m

/-- LineStamps of R338: notes the carried stamp of a line that a load of the fibre has read. -/
def State.noteLs (s : State) (f k : Nat) : State := s.modFib f fun y => { y with lineStamp := Nat.max y.lineStamp k }

/-- An offset of a core's scratchpad lies in the A operand of a loop that has no matching wait yet (R224). -/
def State.loopHolds (s : State) (key : Nat) : Bool :=
  s.cores.any fun p => p.2.waits.any fun w => w.holds s key

/-- A store that goes to the scratchpad of a core. -/
def StoreReq.toCore (r : StoreReq) (core : Nat) : Bool :=
  r.cells.any fun c => levelOf c.1 = .scratch && scratchCore c.1 = core

/-- The earlier stores of the fibre to the scratchpad of a key reach its core before a later access of the fibre to it (R315):
its queue and the core order are performed as far as they can be. -/
def reachCore (s : State) (f key : Nat) : State :=
  let x := s.fib f
  if (x.queue ++ (s.core x.core).order).any fun r => r.fibre = f && r.toCore (scratchCore key) then
    performCore (drainQueue s f) x.core
  else s

/-- A store of the fibre to the scratchpad of a key is still on its way. -/
def onItsWay (s : State) (f key : Nat) : Bool :=
  ((s.fib f).queue ++ (s.core (s.fib f).core).order).any fun r => r.fibre = f && r.toCore (scratchCore key)

/-- A load from a scratchpad line (R170, R175, R314, R315): it waits for a clear full/empty bit, except on a barrier line.
[DESIGN CHOICE, log 101] -/
def loadScratch (s : State) (f : Nat) (p : Place) (n : Nat) : Res (List Byte × Nat × State) :=
  let keys := (List.range n).map (p.key + ·)
  if (tabGet (s.core (scratchCore p.key)).emptyLines (scratchOfs p.key / 128)).isSome && !s.barrierLive p.key then .wait
  else
    let s := reachCore s f p.key
    if onItsWay s f p.key then .wait
    else
      let s := s.noteLs f (s.lineLs f (lineOf p.key) (s.line (lineOf p.key)).ls)
      if !(keys.any s.loopHolds) then .ok (keys.map fun k => s.seenOver f k (s.byte k), 0, s)
      else
        let (vs, s1) := s.drawMany n
        .ok ((List.range n).map fun i =>
          let k := p.key + i
          if s.loopHolds k then (vs.getD i 0).setWidth 8 else s.seenOver f k (s.byte k), 0, s1)

/-- A host access of a core takes its completion (R448). -/
def State.hostAnswer (s : State) (core : Nat) (w : DWord) : Res State :=
  match (s.core core).hostErr with
  | [] => .ok s
  | true :: r => .ok (s.modCore core fun c => { c with hostErr := r })
  | false :: _ => .bad { effProt w with host := true }

/-- Bytes [key, key+n) of one line as fibre f loads them, with the stamp k that an acquire takes and the filled copy
(LoadVersion of R343; k := 0 in a scratch place, R170). The carried stamp of the line joins LineStamps. `w` is the address
word of a VIEW_LOST. -/
def loadPiece (s : State) (f : Nat) (p : Place) (n : Nat) (whole : Bool) (w : DWord) : Res (List Byte × Nat × State) :=
  (s.sound p.key n).bind fun _ =>
  let x := s.fib f
  let cl := clusterOf x.core
  let line := lineOf p.key
  let l := s.line line
  let keys := (List.range n).map (p.key + ·)
  let ls := s.lineLs f line l.ls
  let dirty := fun (key : Nat) (b : Byte) => s.seenOver f key ((s.clus cl).overDirty key b)
  match p.kind with
  | .scratch => loadScratch s f p n
  | .frame => .ok (keys.map fun k => if (s.ctx (s.ctxOf f)).keeps k then s.seenOver f k (s.byte k) else 0, ls,
      (if (s.ctx (s.ctxOf f)).segTaken p.key then touchSeg s x.core p.key else s).noteLs f ls)
  | .host => (s.hostAnswer x.core w).bind fun s =>
      .ok (keys.map fun k => s.seenOver f k (s.byte k), 0, s.holdHost (coreDie x.core) p.key false)
  | .chip => .ok (keys.map fun k => dirty k (s.byte k), 0, s.noteLs f ls)
  | .dev | .remote =>
    match ownPend x l with
    | some pd => .ok (keys.map fun k => s.ownOver f k (pd.bytes.getD (k % 128) 0), ls, s.noteLs f ls)
    | none =>
      let v := if sealingTag x l.tag then Nat.max x.k l.tc else x.k
      let span := wordSpan p.key n whole
      let rs := s.settledOf (s.keyDev p.key)
      let home : Res (List Byte × Nat × State) := (homeRead s line v w).bind fun ver =>
        let s1 := (fractureCheck (s.fillCopy cl line span ver) cl ver.tag ver.stamp ver.digest).backInvalidate keys false
        .ok (keys.map fun k =>
          let b := ver.bytes.getD (k % 128) 0
          if ver.current then dirty k b else s.fwdOver f k b, ls, s1.noteLs f ls)
      match tabGet (s.clus cl).copies line with
      | none => home
      | some cp =>
        if cp.usable v rs l.tc span then
          let s1 := fractureCheck s cl cp.tag cp.stamp cp.digest
          let cls := s.lineLs f line cp.ls
          .ok (keys.map fun k =>
            let b := cp.bytes.getD (k % 128) 0
            if cp.s = l.tc then dirty k b else s.fwdOver f k b, cls, s1.noteLs f cls)
        else home

/-- AdvanceView of R344; stalls while the carried stamp leads the heartbeat. [DEDUCED, log 32] -/
def advanceView (s : State) (f : Nat) (scope : Scope) (k : Nat) : Res State :=
  if s.dev.hb < k then .wait
  else
    let t := if scope.code ≤ 4 then s.settled else s.systemSettled (s.launchDevs f)
    .ok (s.modFib f fun x =>
      let v := Nat.max x.vst (Nat.max k t)
      { x with vst := v, lineStamp := 0, fd := x.fd.map fun o => match o with
          | some sl => if sl.st = .committed && sl.stamp ≤ v then none else o
          | none => none })

/-! ### Accesses of an instruction (R165 to R167, R417) -/

/-- SplitAccess of R417. -/
def splitAccess (a n : Nat) : List (Nat × Nat) :=
  if a % 128 + n ≤ 128 then [(a, n)] else [(a, 128 - a % 128), (a + (128 - a % 128), n - (128 - a % 128))]

/-- A checked piece: its place and its bytes. -/
structure Piece where
  place : Place
  n : Nat
  va : Nat
  deriving DecidableEq, Repr

/-- Bytes of a width (R80). -/
def Wid.bytes : Wid → Nat
  | .b | .bz => 1 | .h | .hz => 2 | .w => 4 | .d => 8 | .q => 16 | .o => 32 | .g3 => 3

/-- The alignment a width needs (R166). -/
def Wid.align : Wid → Nat
  | .b | .bz | .g3 => 1 | .h | .hz => 2 | .w => 4 | .d => 8 | .q => 16 | .o => 32

/-- Translates every piece: first every PAGE, then every PROT (R167, R417). A failure keeps what the pieces' walks have filled
(R414). -/
def translatePieces (s : State) (f : Nat) (acc : Acc) (ps : List (Nat × Nat)) : Res (List Piece × State) :=
  let upper := fun (i : Nat) => i ≠ 0
  let rs := (List.range ps.length).map fun i =>
    let p := ps.getD i (0, 0)
    (p, translate s f (dword p.1) acc (upper i))
  let page := rs.findSome? fun r => match r.2 with
    | .bad e => if e.eid = 0x0010 then some e else none
    | _ => none
  let walked := fun (e : Eff) => { e with fills := ps.flatMap fun p => walkFills s f (dword p.1) acc }
  match page with
  | some e => .bad (walked e)
  | none => (Res.foldM (fun (q : List Piece × State) i =>
      let p := ps.getD i (0, 0)
      (translate q.2 f (dword p.1) acc (upper i)).bind fun r => .ok (q.1 ++ [⟨r.1, p.2, p.1⟩], r.2))
      ([], s) (List.range ps.length)).onBad walked

/-- The barrier rule of R193 for a write. -/
def clobberCheck (s : State) (ps : List Piece) (acc : Acc) : Res Unit :=
  match (List.range ps.length).find? fun i => s.barrierLive (ps.getD i ⟨⟨.dev, 0⟩, 0, 0⟩).place.key with
  | none => .ok ()
  | some i => .bad (effClobber (addrWord (ps.getD i ⟨⟨.dev, 0⟩, 0, 0⟩).va acc.code (decide (i ≠ 0))))

/-- The checks of R167 up to permission: alignment, translation, permission. -/
def checkAccess (s : State) (f : Nat) (va : DWord) (n align : Nat) (acc : Acc) : Res (List Piece × State) :=
  if va.toNat % align ≠ 0 then .bad (effAlign (addrWord va.toNat acc.code false))
  else translatePieces s f acc (splitAccess va.toNat n)

/-- A checked load of `n` bytes (R170): the bytes, the carried stamp and the state. -/
def loadBytes (s : State) (f : Nat) (va : DWord) (n align : Nat) (acc : Acc) (whole : Bool) :
    Res (List Byte × Nat × State) :=
  (checkAccess s f va n align acc).bind fun r =>
    (Res.foldM (fun (q : List Byte × Nat × State) (p : Piece) =>
      (loadPiece q.2.2 f p.place p.n whole (addrWord p.va acc.code (decide (p.va ≠ va.toNat)))).bind fun x =>
        .ok (q.1 ++ x.1, Nat.max q.2.1 x.2.1, x.2.2)) ([], 0, r.2) r.1)

/-- A plain load of a number at fibre scope (descriptors, tables). -/
def loadNum (s : State) (f : Nat) (va : DWord) (n align : Nat) (acc : Acc) : Res (Nat × State) :=
  (loadBytes s f va n align acc false).bind fun r => .ok (natOfBytes r.1, r.2.2)

/-- Cells of bytes laid over checked pieces. -/
def cellsOf (ps : List Piece) (bytes : List Byte) : List (Nat × Byte × Byte) :=
  (ps.foldl (fun (q : List (Nat × Byte × Byte) × List Byte) p =>
    (q.1 ++ (List.range p.n).map (fun i => (p.place.key + i, q.2.getD i 0, 0xFF)), q.2.drop p.n)) ([], bytes)).1

/-- Appends a store to the fibre's queue (R171). Where it meets a store in the queue of a sibling of its flock, that queue
drains first, so that of two lanes of one issue the highest leaves its bytes (R172, R366). [DESIGN CHOICE, log 102] -/
def enqueueStore (s : State) (f : Nat) (r : StoreReq) : State :=
  let sibs := match (s.fib f).loc with
    | .flock k => ((s.flk k).lanes.filterMap id).filter fun g => g ≠ f && (s.fib g).queue.any fun q => q.meets r
    | _ => []
  (sibs.foldl drainQueue s).modFib f fun x => { x with queue := x.queue ++ [r] }

end Sys2Proof.Machine
end

