-- ==== Sys2Proof/Machine/Fetch.lean ====
section
/-! DEFINITION. Code fetch, where a fibre's next clause begins, and which lanes of which flock may issue next (R72 to R74,
R90 to R93, R195, R263 to R267, R418). -/

namespace Sys2Proof.Machine

/-! ### The fetch path (R72 to R74, R195, R418) -/

/-- A clause as fetched. -/
inductive FetchRes where
  | ok (h : Header) (words : List Nat) (s : State)
  | bad (e : Eff)
  /-- A poisoned word or a contained agent: the system-class event (R457, R460). -/
  | sys (cls : Nat) (w : DWord)
  /-- An agent that does not answer keeps it back (R459). -/
  | wait

/-- A byte of code as the fibre's fetch path holds it (ReadCode64 of R74): of the line as it was last filled, with the fibre's
own latest stores over it (R195): those that have left its L1 since the fill, then those that have not. -/
def codeByte (s : State) (f : Nat) (key : Nat) : Byte :=
  let x := s.fib f
  let c := s.core x.core
  let base := match tabGet c.code (lineOf key) with
    | none => s.byte key
    | some ln => match tabGet x.ownCode key with
      | some own => if ln.1 < own.2 then own.1 else ln.2.getD (key % 128) 0
      | none => ln.2.getD (key % 128) 0
  let own := match tabGet (s.clus (clusterOf x.core)).dirty key with
    | some d => if d.storers.contains f then mergeByte base d.val d.mask else base
    | none => base
  overlay (c.order.filter (fun r => r.fibre = f && r.fold.isNone) ++ x.queue.filter (·.fold.isNone)) key own

/-- One word of code at a key. -/
def codeWord (s : State) (f : Nat) (key : Nat) : Nat := natOfBytes ((List.range 8).map fun i => codeByte s f (key + i))

/-- The lines of the keys, all from one fill of the fetch path (R74): as they stand where they share one, else filled
together anew. -/
def fillCode (s : State) (core : Nat) (lines : List Nat) : State :=
  let held := lines.map fun l => (tabGet (s.core core).code l).map (·.1)
  if held.all fun o => o.isSome && o = held.headD none then s
  else (s.modCore core fun c => { c with
      code := lines.foldl (fun t l => tabPut t l (s.seq, s.bytes (l * 128) 128)) c.code }).bump

/-- The place of an address of code under its translation, whatever the translation permits: a header is sought in pages and
regions that may not be executed too (R73, R93). -/
def codePlace (s : State) (f : Nat) (a : DWord) : Res Place :=
  let w := addrWord a.toNat 3 false
  let c := s.ctx (s.ctxOf f)
  (regionOf s f a w).bind fun g =>
    match g with
    | .aperture p => .ok p
    | .frame => .ok ⟨.frame, a.toNat⟩
    | .tensor =>
      let pa := a.toNat - c.thb.toNat + c.tho.toNat
      if Config.hbmBytes ≤ pa then .bad (effProt w) else .ok ⟨.dev, pa⟩
    | .paged => match tlbHit s f a .fetch with
      | some e => .ok (e.place s.dev.devid a.toNat)
      | none => match walk s f (s.ctxOf f) a.toNat with
        | .leaf e => .ok (e.place s.dev.devid a.toNat)
        | .missing _ => .bad (effPage w)
        | .malformed => .bad (effProt w)
        | .poisoned g => .sys 1 (dword g)
        | .dead w5 => .sys 2 w5

/-- A clause whose header lies where it may not be executed, and whose end lies in a page without a translation: the missing
page is the one reported (R418). -/
def upperMissing (s : State) (f : Nat) (a : DWord) : Option Eff :=
  match codePlace s f a with
  | .ok p =>
    match decodeHeader (codeWord s f p.key) with
    | .ok hd =>
      let top := (a.toNat + 8 * hd.count) / 2 ^ 16 * 2 ^ 16
      if top ≤ a.toNat then none
      else match translate s f (dword top) .fetch false with
        | .bad e => if e.eid = 0x0010 then some e else none
        | _ => none
    | .bad _ => none
  | _ => none

/-- The header at a key and the words after it, whose keys `rest` gives for a count, all from one fill (R74): where the lines do
not share one they are filled together, and a header that this changes is read again. -/
def readClause (s : State) (f key : Nat) (rest : Nat → Option (List Nat)) : Nat → State × Except Nat (Header × List Nat)
  | 0 => (s, .error 0x01)
  | n + 1 =>
    match decodeHeader (codeWord s f key) with
    | .bad c => (s, .error c)
    | .ok hd =>
      match rest hd.count with
      | none => (s, .ok (hd, []))
      | some keys =>
        let s1 := fillCode s (s.fib f).core ((key :: keys).map lineOf).dedup
        if codeWord s1 f key = codeWord s f key then (s1, .ok (hd, keys.map (codeWord s1 f)))
        else readClause s1 f key rest n

/-- Fetches the clause at `a` for fibre f whole. `transfer` makes a missing signature 0x0C (R90, R91). The address word of a
fault in the words names the first of them that it keeps back, which is the first byte of the clause in that page (R418); the
walks of both pages fill the TLBs whether or not the fetch succeeds (R414). [DEDUCED, log 26] -/
def fetchClause (s : State) (f : Nat) (a : DWord) (transfer : Bool) : FetchRes :=
  match translate s f a .fetch false with
  | .bad e =>
    let e1 := (if e.eid = 0x0011 then upperMissing s f a else none).getD e
    .bad { e1 with fills := walkFills s f a .fetch }
  | .wait => .wait
  | .sys c w => .sys c w
  | .ok (p, s1) =>
    let words := fun (n : Nat) => (List.range n).map fun i => ((a + dword (8 * (i + 1))).toNat, 8)
    let pieces := fun (n : Nat) => translatePieces s1 f .fetch (words n)
    let keys := fun (n : Nat) => match pieces n with
      | .ok (ps, _) => some (ps.map fun q => q.place.key)
      | _ => none
    if s1.poisonedAt p.key then .sys 1 (dword (p.key / 32 * 32))
    else match readClause (fillCode s1 (s1.fib f).core [lineOf p.key]) f p.key keys 4 with
    | (_, .error c) => .bad (illegal (if c = 0x01 && transfer then 0x0C else c))
    | (s2, .ok (hd, ws)) => match pieces hd.count with
      | .bad e => .bad { e with
          val := addrWord (e.val.toNat % 2 ^ 54) 3 false
          fills := walkFills s f a .fetch ++ e.fills }
      | .wait => .wait
      | .sys c w => .sys c w
      | .ok (ps, _) => match ps.find? fun q => s2.poisonedAt q.place.key with
        | some q => .sys 1 (dword (q.place.key / 32 * 32))
        | none => .ok hd ws (s2.fillTlbs (s2.fib f).core
            ((words hd.count).flatMap fun q => walkFills s1 f (dword q.1) .fetch))

/-- The words that a further lane sees agree with those fetched (R195). -/
def sameView (s : State) (f : Nat) (a : DWord) (hd : Header) (words : List Nat) : Bool :=
  match fetchClause s f a false with
  | .ok h w _ => h = hd && w = words
  | _ => false

/-! ### Where a fibre's next clause begins (R90, R93) -/

/-- A word of code at a virtual address as a fibre's fetch sees it. -/
def peekCode (s : State) (f : Nat) (a : DWord) : Res Nat := (codePlace s f a).map fun p => codeWord s f p.key

/-- Where a fibre's next clause begins: at a header, from a slot, reached by a transfer or not; or at a header that cannot be
read, with the address where the search met a page, or a region, that gives none. -/
inductive ClausePos where
  | at (a : DWord) (slot : Nat) (transfer : Bool)
  | missing (a : DWord)
  deriving DecidableEq, Repr

/-- Seeks the header of the clause that holds an address: the nearest word at or before it that carries the signature, `n`
words down at most (R68, R93). `none`: there is none; a word that cannot be read ends the search. [DEDUCED, log 26] -/
def findHeader (s : State) (f : Nat) : Nat → DWord → Option (DWord × Option Nat)
  | 0, _ => none
  | n + 1, b => match peekCode s f b with
    | .ok w => if hasSignature w then some (b, some w) else findHeader s f n (b - 8)
    | _ => some (b, none)

/-- The clause that holds the word at `a` from below, where the word itself cannot be read: its header, and the first byte of
the clause in the page of `a` (R418). -/
def clauseBelow (s : State) (f : Nat) (a : DWord) : Option DWord :=
  let top := a.toNat / 2 ^ 16 * 2 ^ 16
  match findHeader s f 17 (dword top - 8) with
  | some (h, some w) => if a.toNat ≤ h.toNat + 8 * (bitsOf w 51 4 + 1) then some h else none
  | _ => none

/-- Where a fibre's next clause begins (R90, R93). With PCK 2, a PC at the word after the clause acts as with PCK 0; so does,
by this model's choice, a PC further on, and one with no header in the 17 words before it, which only a window write can set.
[DESIGN CHOICE, log 103] -/
def clauseAt (s : State) (f : Nat) : ClausePos :=
  let x := s.fib f
  match x.pck with
  | .sequential => .at x.pc 1 false
  | .transfer => .at x.pc 1 true
  | .within => match findHeader s f 18 x.pc with
    | none => .at x.pc 1 false
    | some (b, none) => if b ≠ x.pc then .missing b
      else match clauseBelow s f x.pc with
        | some h => .at h ((x.pc.toNat - h.toNat) / 8) false
        | none => .missing x.pc
    | some (h, some w) =>
      let slot := (x.pc.toNat - h.toNat) / 8
      if slot = 0 then .at h 1 false
      else if slot ≤ bitsOf w 51 4 + 1 then .at h slot false else .at x.pc 1 false

/-- The address at which a fibre's next fetch begins. -/
def ClausePos.addr : ClausePos → DWord
  | .at a _ _ => a
  | .missing a => a

/-! ### Which lanes may issue (R92, R263, R266) -/

/-- A lane of a flock may issue: it is not frozen, and a window write has not left it out of the active mask (R255). -/
def Flock.opens (k : Flock) (lane : Nat) : Bool := !k.frozen.has lane && k.act.all fun m => m.has lane

/-- The lanes of a flock that may issue and whose PC is an address. [DEDUCED, log 21] -/
def lanesAt (s : State) (k : Nat) (pc : DWord) : Mask :=
  let fl := s.flk k
  Mask.ofLanes ((List.range 8).filter fun l => fl.opens l &&
    (match fl.fibreAt l with | none => false | some f => (s.fib f).pc = pc))

/-- Every lane of a mask has the named flags set (R25). -/
def flagsSet (s : State) (k : Nat) (lanes : Mask) (wait : BitVec 12) : Bool :=
  lanes.lanes.all fun l => match (s.flk k).fibreAt l with
    | none => true
    | some f => (List.range 12).all fun n => !wait.getLsbD n || (s.fib f).cf n

/-- Ready of R263 for one lane: each flag of its clause's WAIT_MASK is set. -/
def laneReady (s : State) (f : Nat) : Bool :=
  match peekCode s f (clauseAt s f).addr with
  | .ok w => match decodeHeader w with
    | .bad _ => true
    | .ok h => (List.range 12).all fun n => !h.wait.getLsbD n || (s.fib f).cf n
  | _ => true

/-- The lanes of a flock that may issue, with their fibres. -/
def openLanes (s : State) (k : Nat) : List (Nat × Nat) :=
  let fl := s.flk k
  (List.range 8).filterMap fun l => if fl.opens l then (fl.fibreAt l).map fun f => (l, f) else none

/-- Grp and Ready of R263. -/
def groupReady (s : State) (k : Nat) (pc : DWord) : Bool :=
  (openLanes s k).all fun p => (s.fib p.2).pc ≠ pc || laneReady s p.2

/-- IssueSelect of R263: the lanes and their PC, no lanes when the flock is not eligible. -/
def issueSelect (s : State) (k : Nat) : Mask × DWord :=
  let u := openLanes s k
  let late := (s.flk k).lag.find? fun l => u.any fun p => p.1 = l && groupReady s k (s.fib p.2).pc
  match late.bind (s.flk k).fibreAt with
  | some f => (lanesAt s k (s.fib f).pc, (s.fib f).pc)
  | none => match u with
    | [] => (0, 0)
    | p :: rest =>
      let pc0 := rest.foldl (fun m q => if (s.fib q.2).pc.toNat < m.toNat then (s.fib q.2).pc else m) (s.fib p.2).pc
      if groupReady s k pc0 then (lanesAt s k pc0, pc0) else (0, 0)

/-- A flock is eligible (R266), its team neither held nor leaving nor vacated, its core powered and served (R390, R402,
R471). -/
def eligible (s : State) (k : Nat) : Bool :=
  let fl := s.flk k
  fl.slot.isSome && !fl.stopped && !fl.holdoff && !fl.asleep && !(s.tm fl.team).held && !(s.tm fl.team).leaving
    && !(s.tm fl.team).vacated && s.dev.computeOn && !(s.core fl.core).contained
    && !s.mute (s.coreAgent fl.core)
    && !(s.runs.any fun r => r.flock = k) && (issueSelect s k).1 ≠ 0

/-- The quadrant of a flock: its slot modulo 4 (R259). -/
def Flock.quadrant (k : Flock) : Nat := k.slot.getD 0 % 4

/-- Another flock of a flock's quadrant is eligible (R269). -/
def otherEligible (s : State) (k : Nat) : Bool :=
  s.flocks.any fun p => p.1 ≠ k && p.2.core = (s.flk k).core && p.2.quadrant = (s.flk k).quadrant && eligible s p.1

/-- A saved flock would be eligible but for its lack of a slot (R262). -/
def couldIssue (s : State) (k : Nat) : Bool :=
  (s.flk k).slot.isNone && eligible (s.modFlk k fun fl => { fl with slot := some 0 }) k

/-- Notes which flocks have become eligible since the last such look, and which saved ones could issue for the first time
since their save (R262, R267): step looks before every turn, so that whatever makes a flock eligible (a flag, a wake, a
released team) is noted before anything else happens. [DESIGN CHOICE, log 67] -/
def noteEligible (s : State) : State :=
  let note := fun (p : Nat × Flock) =>
    if p.2.slot.isNone then
      (p.1, { p.2 with could := if p.2.could.isNone && couldIssue s p.1 then some s.seq else p.2.could })
    else (p.1, { p.2 with since := if eligible s p.1 then some (p.2.since.getD s.seq) else none })
  let flocks := s.flocks.map note
  if flocks = s.flocks then s else { s with flocks := flocks, seq := s.seq + 1 }

end Sys2Proof.Machine
end

