-- ==== Sys2Proof/Machine/Regs.lean ====
section
/-! DEFINITION. The lane registers that an instruction names, as spans (first register, count), for the interlock of R19 and
the verification of a virtual image (R17, R18, R429). -/

namespace Sys2Proof.Machine

/-- Registers of a width (R80). -/
def widRegs : Wid → Nat
  | .d => 2 | .q => 4 | .o => 8 | _ => 1

/-- Registers of an N code of QST (R216). -/
def QstN.count : QstN → Nat
  | .n1 => 1 | .n2 => 2 | .n4 => 4 | .n8 => 8 | .n16 => 16 | .n32 => 32

/-- Registers of an N code of ACCRD and ACCWR (R227). -/
def accCount : AccN → Nat
  | .n1 => 1 | .n4 => 4 | .n8 => 8

/-- Window item classes of 64 bits (R254). -/
def winWide (c : Nat) : Bool := [0x01, 0x03, 0x08, 0x09, 0x0A, 0x0C, 0x0D].contains c

/-- The span of a source operand. -/
def srcSpan (w : Nat) : Src → List (Nat × Nat)
  | .v n => [(n.toNat, w)]
  | .s _ => []

/-- The span of a lane destination. -/
def dstSpan (ud : Bool) (d : BitVec 8) (w : Nat) : List (Nat × Nat) := if ud then [] else [(d.toNat, w)]

def unSpans (o : Un) (w : Nat) : List (Nat × Nat) := dstSpan o.ud o.d w ++ srcSpan w o.a
def binSpans (o : Bin) (w wb : Nat) : List (Nat × Nat) := dstSpan o.ud o.d w ++ srcSpan w o.a ++ srcSpan wb o.b
def triSpans (o : Tri) : List (Nat × Nat) := dstSpan o.ud o.d 1 ++ srcSpan 1 o.a ++ srcSpan 1 o.b ++ srcSpan 1 o.c
def immSpans (o : ImmOp) (w : Nat) : List (Nat × Nat) := dstSpan o.ud o.d w ++ srcSpan w o.a
/-- An operand of one or two registers. -/
def wideCount (dbl : Bool) : Nat := if dbl then 2 else 1
def lineSpans (m : LineF) : List (Nat × Nat) := srcSpan 2 m.base
def memSpans (m : MemF) : List (Nat × Nat) := srcSpan 2 m.base ++ [(m.d.toNat, widRegs m.wid)]
/-- D of an atomic counts where it receives the old value. -/
def atmSpans (m : AtmF) (w : Nat) (ret : Bool) : List (Nat × Nat) :=
  srcSpan 2 m.base ++ [(m.b.toNat, w)] ++ (if ret then [(m.d.toNat, w)] else [])

/-- Registers of a special register, 1 where R34 lists none (R34). -/
def specialCount (n : Nat) : Nat := if (n = 1 || n = 2 || (8 ≤ n && n ≤ 11)) then 2 else 1

/-- The lane registers that an instruction names. [DEDUCED, log 21] [DEDUCED, log 22] -/
def laneSpans : Instr → List (Nat × Nat)
  | .add _ o _ | .sub _ o _ | .mul _ o | .mulhi _ o _ | .div _ o _ | .rem _ o _ | .min _ o _ | .max _ o _
  | .and _ o _ | .or _ o _ | .xor _ o _ | .shl _ o | .shr _ o | .sar _ o | .rot _ o | .bfx _ o _
  | .fadd _ o _ _ | .fsub _ o _ _ | .fmul _ o _ _ | .fdiv _ o _ _ | .fmin _ o _ _ | .fmax _ o _ _ => binSpans o 1 1
  | .mad _ o | .bfi _ o | .ffma _ o _ _ => triSpans o
  | .clz _ o | .popc _ o | .brev _ o | .mov _ o | .fsqrt _ o _ _ | .frcp _ o _ | .frsq _ o _ | .fexp2 _ o _
  | .flog2 _ o _ | .fabs _ o _ | .fneg _ o _ | .fclass _ o _ => unSpans o 1
  | .sel _ d a b _ => [(d.toNat, 1)] ++ srcSpan 1 a ++ srcSpan 1 b
  | .icmp _ _ a b _ _ _ | .fcmp _ _ a b _ _ _ => srcSpan 1 a ++ srcSpan 1 b
  | .addd _ o bw | .subd _ o bw => binSpans o 2 (if bw = .pair then 2 else 1)
  | .muld _ o | .andd _ o | .ord _ o | .xord _ o => binSpans o 2 2
  | .shld _ o | .shrd _ o | .sard _ o => binSpans o 2 1
  | .icmpd _ _ a b _ _ _ => srcSpan 2 a ++ srcSpan 2 b
  | .movd _ o => unSpans o 2
  | .addi _ o | .muli _ o | .andi _ o | .ori _ o | .xori _ o | .shli _ o | .shri _ o | .sari _ o => immSpans o 1
  | .icmpi _ _ a _ _ _ _ => srcSpan 1 a
  | .adddi _ o => immSpans o 2
  | .movi _ ud d _ | .lui _ ud d _ => dstSpan ud d 1
  | .aupc _ ud d _ | .lup _ ud d _ => dstSpan ud d 2
  | .cvt _ d a _ _ _ _ => [(d.toNat, 1)] ++ srcSpan 1 a
  | .pack _ d a c _ _ => [(d.toNat, 1)] ++ srcSpan 1 a ++ srcSpan 1 c
  | .unpk _ d a _ _ _ => [(d.toNat, 1)] ++ srcSpan 1 a
  | .pset _ _ a _ => srcSpan 1 a
  | .part _ d a _ dbl => [(d.toNat, 1)] ++ srcSpan (wideCount dbl) a
  | .shfl _ d a b _ _ dbl => [(d.toNat, wideCount dbl)] ++ srcSpan (wideCount dbl) a ++ srcSpan 1 b
  | .vote _ d a pw mode dbl =>
    (match mode with
      | .ballot => [(d.toNat, 1)]
      | .eq => srcSpan (wideCount dbl) a
      | _ => []) ++ (match pw with
      | .mask c => srcSpan 1 c
      | _ => [])
  | .redu _ d a pw _ dbl => [(d.toNat, wideCount dbl)] ++ srcSpan (wideCount dbl) a ++ (match pw with
      | .mask c => srcSpan 1 c
      | _ => [])
  | .movu _ _ a _ dbl => [(a.toNat, wideCount dbl)]
  | .srd _ ud d n => dstSpan ud d (specialCount n.toNat)
  | .swr _ _ a => srcSpan 1 a
  | .call _ d _ | .calls _ d _ => [(d.toNat, 2)]
  | .ret _ a => srcSpan 2 a
  | .brx _ a b => srcSpan 1 a ++ srcSpan 2 b
  | .callx _ d a b => [(d.toNat, 2)] ++ srcSpan 1 a ++ srcSpan 2 b
  | .spawn _ x d _ => [(x.toNat, 1), (d.toNat, 2)]
  | .hinst _ ve k _ => [(ve.toNat, 5)] ++ srcSpan 1 k
  | .perf _ d a b _ => [(d.toNat, 2)] ++ srcSpan 1 a ++ srcSpan 2 b
  | .rsm _ a b | .rsmt _ a b => srcSpan 2 a ++ srcSpan 2 b
  | .dropk _ a => srcSpan 2 a
  | .ksend _ d a b c => [(d.toNat, 1)] ++ srcSpan 2 a ++ srcSpan 2 b ++ srcSpan 1 c
  | .kinfo _ d sel => match sel with
    | .state a | .eff a | .nseg a | .regs a => [(d.toNat, 1)] ++ srcSpan 2 a
    | .val a | .pc a => [(d.toNat, 2)] ++ srcSpan 2 a
    | .top => [(d.toNat, 2)]
  | .ld _ m | .st _ m => memSpans m
  | .lds _ m | .sts _ m => srcSpan 2 m.base
  | .atom _ m _ nr => atmSpans m 1 (!nr)
  | .atomd _ m _ nr => atmSpans m 2 (!nr)
  | .cas _ m c => atmSpans m 1 true ++ [(c.toNat, 1)]
  | .casd _ m c => atmSpans m 2 true ++ [(c.toNat, 2)]
  | .lnset _ m | .lnclr _ m | .icinv _ m => lineSpans m
  | .fseal _ d _ => [(d.toNat, 2)]
  | .fabort _ d _ => [(d.toNat, 1)]
  | .view _ d stamp => [(d.toNat, 2)] ++ ((stamp.map (srcSpan 2)).getD [])
  | .baraArrive _ d m | .baraInit _ d m | .baraLeave _ d m | .baraKill _ d m | .barw _ d m =>
    [(d.toNat, 1)] ++ lineSpans m
  | .tdef _ d a b _ _ => [(d.toNat, 1)] ++ srcSpan 2 a ++ srcSpan 1 b
  | .ttag _ a b => srcSpan 1 a ++ srcSpan 1 b
  | .tqry _ d a _ => [(d.toNat, 1)] ++ srcSpan 1 a
  | .twait _ a _ | .trel _ a _ => srcSpan 1 a
  | .tld _ d a b c _ | .tst _ d a b c _ => [(d.toNat, 1)] ++ srcSpan 1 a ++ srcSpan 2 b ++ srcSpan 1 c
  | .qst _ d a b keep n _ _ =>
    [(d.toNat, QstN.count n)] ++ srcSpan 1 a ++ srcSpan 1 b ++ ((keep.map (srcSpan 1)).getD [])
  | .cyrd _ d _ => [(d.toNat, 1)]
  | .cywr _ a _ => srcSpan 1 a
  | .mready _ a => srcSpan 2 a
  | .mloop _ d a b c _ _ => [(d.toNat, 1)] ++ srcSpan 2 a ++ srcSpan 2 b ++ srcSpan 1 c
  | .accrd _ d a _ n | .accwr _ d a _ n => [(d.toNat, accCount n)] ++ srcSpan 1 a
  | .mstat _ d a _ => [(d.toNat, 2)] ++ srcSpan 2 a
  | .tcopy _ d a b _ _ => [(d.toNat, 1)] ++ srcSpan 2 a ++ srcSpan 2 b
  | .tcopyv _ d a b c _ _ => [(d.toNat, 1)] ++ srcSpan 2 a ++ srcSpan 2 b ++ srcSpan 2 c
  | .rodld _ d a b _ => [(d.toNat, 1)] ++ srcSpan 1 a ++ srcSpan 1 b
  | .fork _ d a b c => [(d.toNat, 1)] ++ srcSpan 2 a ++ srcSpan 2 b ++ srcSpan 2 c
  | .rdv _ a b => srcSpan 2 a ++ srcSpan 1 b
  | .disp _ d a b c => [(d.toNat, 1)] ++ srcSpan 1 a ++ srcSpan 2 b ++ srcSpan 2 c
  | .hbrd _ ud d _ => dstSpan ud d 2
  | .tbrd _ d n => [(d.toNat, if n = 0 then 2 else 1)]
  | .svc _ d a b => [(d.toNat, 1)] ++ srcSpan 2 a ++ srcSpan 1 b
  | .prd _ ud d _ => dstSpan ud d 2
  | .pwr _ _ a | .pwrHbctl _ a => srcSpan 2 a
  | .tlbiVa _ _ a b => srcSpan 2 a ++ srcSpan 1 b
  | .tlbiCtx _ _ b => srcSpan 1 b
  | .tlbs _ d a b _ => [(d.toNat, 2)] ++ srcSpan 2 a ++ srcSpan 1 b
  | .cancelfCtx _ d a => [(d.toNat, 1), (a.toNat, 1)]
  | .cancelfPage _ d a b | .cancelfRec _ d a b => [(d.toNat, 1), (a.toNat, 1), (b.toNat, 2)]
  | .regroup _ a b _ => srcSpan 1 a ++ srcSpan 1 b
  | .ctxrd _ ud d a _ => dstSpan ud d 1 ++ srcSpan 1 a
  | .winrd _ d a c | .winwr _ d a c => [(d.toNat, wideCount (winWide c.toNat)), (a.toNat, 1)]
  | _ => []

/-- The lane registers among them that the instruction writes and does not read. -/
def writeSpans : Instr → List (Nat × Nat)
  | .add _ o _ | .sub _ o _ | .mul _ o | .mulhi _ o _ | .div _ o _ | .rem _ o _ | .min _ o _ | .max _ o _
  | .and _ o _ | .or _ o _ | .xor _ o _ | .shl _ o | .shr _ o | .sar _ o | .rot _ o | .bfx _ o _
  | .fadd _ o _ _ | .fsub _ o _ _ | .fmul _ o _ _ | .fdiv _ o _ _ | .fmin _ o _ _ | .fmax _ o _ _ => dstSpan o.ud o.d 1
  | .mad _ o | .bfi _ o | .ffma _ o _ _ => dstSpan o.ud o.d 1
  | .clz _ o | .popc _ o | .brev _ o | .mov _ o | .fsqrt _ o _ _ | .frcp _ o _ | .frsq _ o _ | .fexp2 _ o _
  | .flog2 _ o _ | .fabs _ o _ | .fneg _ o _ | .fclass _ o _ => dstSpan o.ud o.d 1
  | .addd _ o _ | .subd _ o _ | .muld _ o | .andd _ o | .ord _ o | .xord _ o | .shld _ o | .shrd _ o | .sard _ o =>
    dstSpan o.ud o.d 2
  | .movd _ o => dstSpan o.ud o.d 2
  | .addi _ o | .muli _ o | .andi _ o | .ori _ o | .xori _ o | .shli _ o | .shri _ o | .sari _ o => dstSpan o.ud o.d 1
  | .adddi _ o => dstSpan o.ud o.d 2
  | .movi _ ud d _ | .lui _ ud d _ => dstSpan ud d 1
  | .aupc _ ud d _ | .lup _ ud d _ | .hbrd _ ud d _ | .prd _ ud d _ => dstSpan ud d 2
  | .sel _ d _ _ _ | .cvt _ d _ _ _ _ _ | .pack _ d _ _ _ _ | .unpk _ d _ _ _ _ | .part _ d _ _ _ | .ksend _ d _ _ _
  | .fabort _ d _ | .baraArrive _ d _ | .baraLeave _ d _ | .baraKill _ d _ | .tdef _ d _ _ _ _ | .tqry _ d _ _
  | .tld _ d _ _ _ _ | .tst _ d _ _ _ _ | .cyrd _ d _ | .mloop _ d _ _ _ _ _ | .tcopy _ d _ _ _ _
  | .tcopyv _ d _ _ _ _ _ | .rodld _ d _ _ _ | .fork _ d _ _ _ | .disp _ d _ _ _ | .svc _ d _ _ | .cancelfCtx _ d _
  | .cancelfPage _ d _ _ | .cancelfRec _ d _ _ => [(d.toNat, 1)]
  | .shfl _ d _ _ _ _ dbl | .redu _ d _ _ _ dbl => [(d.toNat, wideCount dbl)]
  | .vote _ d _ _ .ballot _ => [(d.toNat, 1)]
  | .srd _ ud d n => dstSpan ud d (specialCount n.toNat)
  | .call _ d _ | .calls _ d _ | .callx _ d _ _ | .perf _ d _ _ _ | .fseal _ d _ | .view _ d _ | .mstat _ d _ _
  | .tlbs _ d _ _ _ => [(d.toNat, 2)]
  | .spawn _ x _ _ => [(x.toNat, 1)]
  | .hinst _ ve _ _ => [(ve.toNat, 5)]
  | .kinfo _ d sel => match sel with
    | .state _ | .eff _ | .nseg _ | .regs _ => [(d.toNat, 1)]
    | .val _ | .pc _ | .top => [(d.toNat, 2)]
  | .ld _ m => [(m.d.toNat, widRegs m.wid)]
  | .atom _ m _ nr => if nr then [] else [(m.d.toNat, 1)]
  | .atomd _ m _ nr => if nr then [] else [(m.d.toNat, 2)]
  | .cas _ m _ => [(m.d.toNat, 1)]
  | .casd _ m _ => [(m.d.toNat, 2)]
  | .accrd _ d _ _ n => [(d.toNat, accCount n)]
  | .tbrd _ d n => [(d.toNat, if n = 0 then 2 else 1)]
  | .ctxrd _ ud d _ _ => dstSpan ud d 1
  | .winrd _ d _ c => [(d.toNat, wideCount (winWide c.toNat))]
  | _ => []

/-- The lane registers that an instruction reads. -/
def readSpans (i : Instr) : List (Nat × Nat) := (laneSpans i).diff (writeSpans i)

end Sys2Proof.Machine
end

