-- ==== Sys2Proof/Machine/Ops.lean ====
section
/-! DEFINITION. The named operations that instructions share: segments and continuations, taking an effect and returning
from one, parking, pens, system-class events, and how an issued instruction ends (R35, R106 to R113, R284 to R304). -/

namespace Sys2Proof.Machine

/-! ### Segments (R106, R107, R289, R325) -/

/-- Segments that the frame heap of a context can hold (R409). -/
def Ctx.segTotal (c : Ctx) : Nat := (c.fhl.toNat - (c.fhb.toNat + 0x80000)) / 1024
def Ctx.segBase (c : Ctx) : Nat := c.fhb.toNat + 0x80000
/-- Segments reserved for vacate images (R396, R403). [DESIGN CHOICE, log 77] -/
def State.reserved (s : State) (cx : Nat) : Nat :=
  (s.teams.map fun t => if t.2.ctx = cx then t.2.reserve else 0).sum
/-- Free segments (R250). -/
def State.segFree (s : State) (cx : Nat) : Nat :=
  (s.ctx cx).segTotal - (s.ctx cx).segs.length - (s.ctx cx).hdrSegs.length - s.reserved cx

/-- Takes a free segment, zeroed; the device chooses which (R107). [DESIGN CHOICE, log 5] -/
def takeSeg (s : State) (cx : Nat) : Option (Nat × State) :=
  let c := s.ctx cx
  if s.segFree cx = 0 then none
  else
    let (p, s) := s.pick c.segTotal
    let cand := (List.range (c.segs.length + c.hdrSegs.length + 1)).map fun i =>
      c.segBase + (p + i) % c.segTotal * 1024
    (cand.find? fun a => !c.segs.contains a && !c.hdrSegs.contains a).map fun a =>
      (a, (s.zero a 1024).modCtx cx fun c => { c with segs := c.segs ++ [a] })

/-- Takes several segments, or none. -/
def takeSegs (s : State) (cx : Nat) : Nat → Option (List Nat × State)
  | 0 => some ([], s)
  | n + 1 => (takeSeg s cx).bind fun r => (takeSegs r.2 cx n).map fun q => (r.1 :: q.1, q.2)

/-- Stores on their way to a segment's bytes, which freeing discards (R325). -/
def StoreReq.inSeg (r : StoreReq) (a : Nat) : Bool := r.cells.any fun c => a ≤ c.1 && c.1 < a + 1024

/-- Frees and zeroes a segment (R107, R325): the stores on their way to it are lost, and the operations of those that were
tracked end. -/
def freeSeg (s : State) (cx a : Nat) : State :=
  let lost := (s.fibres.flatMap fun p => p.2.queue) ++ s.cores.flatMap fun p => p.2.order
  let s := (lost.filter fun r => r.inSeg a).foldl (fun s r => s.finishStore r) s
  let s := (s.zero a 1024).modCtx cx fun c => { c with segs := c.segs.filter (· ≠ a) }
  let core := fun (c : Core) =>
    { c with order := c.order.filter fun r => !r.inSeg a, segs := c.segs.filter (· ≠ a) }
  { s with fibres := s.fibres.map fun p => (p.1, { p.2 with queue := p.2.queue.filter fun r => !r.inSeg a }),
           cores := s.cores.map fun p => (p.1, core p.2) }

/-- Fields of the link block (R106). -/
def State.segPrev (s : State) (a : Nat) : Nat := s.num a 8
def State.segRpc (s : State) (a : Nat) : Nat := s.num (a + 0x08) 8
def State.segHlink (s : State) (a : Nat) : Nat := s.num (a + 0x18) 8
def State.segEid (s : State) (a : Nat) : Nat := s.num (a + 0x20) 4
def State.segEnt (s : State) (a : Nat) : Nat := s.num (a + 0x24) 1
def State.segHpc (s : State) (a : Nat) : Nat := s.num (a + 0x28) 8

/-- Writes a link block whole. -/
def State.putLink (s : State) (a prev rpc kind hlink eid ent hpc : Nat) : State :=
  ((((((s.putNum a 8 prev).putNum (a + 0x08) 8 rpc).putNum (a + 0x10) 1 kind).putNum (a + 0x18) 8 hlink).putNum
    (a + 0x20) 4 eid).putNum (a + 0x24) 1 ent).putNum (a + 0x28) 8 hpc

/-- A bound on the length of a chain in memory that ends: every segment of it but the last holds a link that is not zero, so
that at least one byte of it is listed. [DESIGN CHOICE, log 27] -/
def State.chainFuel (s : State) : Nat := s.mem.length + 2

/-- The segments of a chain from `a` down through PREV, to `stop` inclusive or to the base. [DESIGN CHOICE, log 27] -/
def chainOf (s : State) (stop : Nat) : Nat → Nat → List Nat
  | 0, _ => []
  | n + 1, a => if a = 0 then [] else if a = stop then [a] else a :: chainOf s stop n (s.segPrev a)

/-- HandlerSearch of R284 (R126): the first frame that matches the effect, 0 when none. -/
def handlerFrom (s : State) (e : Nat) : Nat → Nat → Nat
  | 0, _ => 0
  | n + 1, a =>
    if a = 0 then 0
    else
      let k := s.segEid a
      if Nat.land (Nat.xor e (k % 65536)) (65535 - k / 65536) = 0 then a else handlerFrom s e n (s.segHlink a)
def handlerSearch (s : State) (f e : Nat) : Nat := handlerFrom s e s.chainFuel (s.fib f).hch.toNat

/-- The frames that the search reads, from an address to the one that matches. -/
def searchPath (s : State) (e : Nat) : Nat → Nat → List Nat
  | 0, _ => []
  | n + 1, a =>
    if a = 0 then []
    else
      let k := s.segEid a
      if Nat.land (Nat.xor e (k % 65536)) (65535 - k / 65536) = 0 then [a] else a :: searchPath s e n (s.segHlink a)

/-- Link blocks are sound (R457). -/
def linksSound (s : State) (as : List Nat) : Res Unit := Res.foldM (fun _ a => s.sound a 0x40) () as

/-- The search for an effect's frame as an access to the link blocks that it reads: a poisoned one stops the flock (R457), and
the segments enter the core's segment cache (R325). -/
def searched (s : State) (f e : Nat) : Res State :=
  let path := searchPath s e s.chainFuel (s.fib f).hch.toNat
  (linksSound s path).bind fun _ => .ok (touchSegs s f path)

/-! ### Continuation headers (R109, R287 to R289) -/

/-- The handle of a header (R109, R291). -/
def handleOf (s : State) (a : Nat) : DWord := dword (s.num (a + 2) 2 % 1024 * 2 ^ 54 + a)

/-- The header that a handle designates: in a KIND 4 segment of the context, at a header slot, of that generation. -/
def headerOf (s : State) (cx : Nat) (h : DWord) : Option Nat :=
  let a := h.toNat % 2 ^ 54
  if a % 64 = 0 && (s.ctx cx).hdrSegs.contains (a / 1024 * 1024) && 0x40 ≤ a % 1024 && a % 1024 ≤ 0x3C0
    && s.num (a + 2) 2 % 1024 = h.toNat / 2 ^ 54 then some a else none

/-- The header of a live handle. -/
def liveHeader (s : State) (cx : Nat) (h : DWord) : Option Nat :=
  (headerOf s cx h).bind fun a => if s.byte a = 1 then some a else none

/-- A header slot for a capture: a reusable one, else the first slot of a fresh header segment (R289). -/
def takeHeader (s : State) (cx : Nat) : Option (Nat × State) :=
  let slots := (s.ctx cx).hdrSegs.flatMap fun h => (List.range 15).map fun i => h + 0x40 + 64 * i
  let free := slots.filter fun a => s.byte a = 0 || s.byte a = 3 || s.byte a = 4 || s.byte a = 6
  match free with
  | a :: _ =>
    let (p, s) := s.pick free.length
    some (free.getD p a, s)
  | [] => (takeSeg s cx).map fun r =>
    (r.1 + 0x40, (r.2.putNum (r.1 + 0x10) 1 4).modCtx cx fun c =>
      { c with segs := c.segs.filter (· ≠ r.1), hdrSegs := c.hdrSegs ++ [r.1] })

/-- Segments that `n` image bytes take (R290). -/
def imageSegs (n : Nat) : Nat := ceilDiv n 960

/-- Writes image bytes through a chain of KIND 3 segments (R290). [DEDUCED, log 30] -/
def writeImage (s : State) : List Nat → List Byte → State
  | [], _ => s
  | a :: rest, bs =>
    writeImage ((((s.putNum a 8 (rest.headD 0)).putNum (a + 0x10) 1 3)).putBytes (a + 0x40) (bs.take 960)) rest
      (bs.drop 960)

/-- The bytes of a KIND 3 chain. -/
def readImage (s : State) : Nat → Nat → List Byte
  | 0, _ => []
  | n + 1, a => if a = 0 then [] else s.bytes (a + 0x40) 960 ++ readImage s n (s.segPrev a)

/-- The register image of R290. -/
def imageBytes (x : Fibre) : List Byte :=
  bytesOfNat 4 x.alloc ++ bytesOfNat 4 x.preds.toNat ++ bytesOfNat 4 x.fpm.toNat ++ List.replicate 12 0
    ++ x.cy.flatMap (fun c => bytesOfNat 4 c.toNat) ++ List.replicate 8 0
    ++ x.regs.flatMap (fun r => bytesOfNat 4 r.toNat)

/-! ### Register writes without checks -/

def Fibre.reg (x : Fibre) (n : Nat) : Word := x.regs.getD n 0
def Fibre.pair (x : Fibre) (n : Nat) : DWord := pairOf (x.reg (n + 1)) (x.reg n)
/-- Writes a lane register; the acquire that a read of its former value would make is due no more (R348). -/
def Fibre.setReg (x : Fibre) (n : Nat) (v : Word) : Fibre :=
  { x with regs := setAt x.regs n v, acq := x.acq.filter fun a => a.1 ≠ n }
def Fibre.setPair (x : Fibre) (n : Nat) (v : DWord) : Fibre := (x.setReg n (lowWord v)).setReg (n + 1) (highWord v)
def Fibre.pred (x : Fibre) (n : Nat) : Bool := x.preds.getLsbD n
/-- Writes a predicate; P0 discards writes (R22). -/
def Fibre.setPred (x : Fibre) (n : Nat) (b : Bool) : Fibre :=
  if n = 0 then x else
    { x with preds := if b then x.preds ||| (1#16 <<< n) else x.preds &&& ~~~(1#16 <<< n) }

/-- The read of registers that tracked engine operations have written acquires the releases that ended them, at team scope; it
waits while one's stamp leads the heartbeat (R344, R348). [DEDUCED, log 58] -/
def acquireRegs (s : State) (f : Nat) (hit : Nat → Bool) : Res State :=
  let due := (s.fib f).acq.filter fun a => hit a.1
  if due.isEmpty then .ok s
  else (advanceView s f .team (due.foldl (fun k a => Nat.max k a.2) 0)).map fun s1 =>
    s1.modFib f fun x => { x with acq := x.acq.filter fun a => !hit a.1 }

/-! ### Capture (R291) -/

/-- CaptureSegments of R291. `none` in the value is FAIL. `skip` leaves out the write-backs that raised (R350). -/
def captureSegments (s : State) (f frame : Nat) (e : Eff) (rpc : DWord) (pck : Pck) (rvd : Option Nat) (r : Bool) :
    Res (Option DWord × State) :=
  let x := s.fib f
  let cx := s.ctxOf f
  let ent := s.segEnt frame
  if !x.pending.isEmpty || x.busy.any fun b => r || (ent ≤ b.1 && b.1 < ent + 5) then .wait
  else (drainAt s f .device e.wb).bind fun s => (acquireRegs s f fun _ => r).bind fun s =>
    match takeHeader s cx with
    | none => .ok (none, s)
    | some (a, s1) =>
      match (if r then takeSegs s1 cx (imageSegs (64 + 4 * x.alloc)) else some ([], s1)) with
      | none => .ok (none, s)
      | some (img, s2) =>
        let gen := (s2.num (a + 2) 2 % 1024 + 1) % 1024
        let flags := (if rvd.isSome then 1 else 0) + (if r then 2 else 0) + (if e.next then 0 else 4)
          + pck.code * 8 + (if x.arrived then 32 else 0)
        let s3 := (((((s2.putNum (a + 1) 1 flags).putNum (a + 2) 2 gen).putNum (a + 4) 2 e.eid).putNum (a + 6) 2
          (Nat.min (chainOf s2 frame s2.chainFuel x.top.toNat).length 65535)).putNum (a + 8) 8 e.val.toNat)
        let s4 := (((((s3.putNum (a + 0x10) 8 rpc.toNat).putNum (a + 0x18) 8 x.top.toNat).putNum (a + 0x20) 8
          frame).putNum (a + 0x28) 8 x.hch.toNat).putNum (a + 0x30) 8 (img.headD 0)).putNum (a + 0x38) 8
          ((s.fib f).vst + rvd.getD 0 * 2 ^ 56)
        let s4 := (a :: img).foldl (fun s g => touchSeg s x.core g) s4
        let s5 := (writeImage s4 img (imageBytes x)).modFib f fun y => { y with armed := none }
        let s6 := s5.putNum a 1 1
        .ok (some (handleOf s6 a), s6)

/-- Handler entry after a capture (R128, R284): the frame leaves the chain, the entry registers take the handle, the value
and the identifier, and the PC, whose bits [2:0] are zero (R90), goes to the handler. -/
def enterHandler (s : State) (f frame : Nat) (h : DWord) (e : Eff) : State :=
  let ent := s.segEnt frame
  s.modFib f fun x =>
    let y := ((x.setPair ent h).setPair (ent + 2) e.val).setReg (ent + 4) (word e.eid)
    { y with
      top := dword (s.segPrev frame), hch := dword (s.segHlink frame)
      pc := dword (s.segHpc frame) &&& ~~~7#64, pck := .transfer, arrived := false }

/-! ### Leaving a flock, pens and parking (R256, R271, R286, R300) -/

/-- Clears the frozen mask where EFM has become 0: every fibre of the flock then issues (R286). -/
def Flock.thaw (k : Flock) (b : Bool) : Flock := if b then { k with frozen := 0, act := none } else k

/-- Removes a fibre from its flock: its EFM bit clears, the frozen mask clears with the last such bit, and an empty flock's
slot frees (R261, R286). -/
def leaveFlock (s : State) (f : Nat) : State :=
  let x := s.fib f
  match x.loc with
  | .flock k =>
    let fl := s.flk k
    let efm := fl.efm &&& ~~~(Mask.one x.home)
    let fl' : Flock := { fl.thaw (fl.efm ≠ 0 && efm = 0) with lanes := setAt fl.lanes x.home none, efm := efm }
    if fl'.active = 0 then s.delFlk k else s.setFlk k fl'
  | _ => { s with cores := s.cores.map fun c => (c.1, { c.2 with pens := c.2.pens.filter fun p => p.fibre ≠ f }) }

/-- Fibres of one home lane on a core that hold a bank (R256, R258). -/
def Loc.counts : Loc → Bool
  | .flock _ | .pen | .regroup _ => true
  | _ => false
def State.laneFibres (s : State) (core lane : Nat) : List (Nat × Fibre) :=
  s.fibres.filter fun p => p.2.core = core && p.2.home = lane && p.2.loc.counts && !(s.tm p.2.team).vacated
/-- Registers in use in a lane's bank: 32 768 of 32 bits each (R17). -/
def State.laneRegs (s : State) (core lane : Nat) : Nat := ((s.laneFibres core lane).map fun p => p.2.alloc).sum
def State.laneFits (s : State) (core lane n : Nat) : Bool :=
  s.laneRegs core lane + n ≤ 32768 && (s.laneFibres core lane).length < 512

/-- The key of a pen entry (R270). -/
def State.penKey (s : State) (f : Nat) : Nat × Nat × DWord := ((s.fib f).team, (s.fib f).role, (s.fib f).pc)

/-- PenFile of R271. -/
def penFile (s : State) (f : Nat) : State :=
  let core := (s.fib f).core
  let c := s.core core
  let keys := ((c.pens.filter fun p => !p.spill).map fun p => s.penKey p.fibre).dedup
  let spill := !keys.contains (s.penKey f) && 512 ≤ keys.length
  ((s.modFib f fun x => { x with loc := .pen }).setCore core { c with pens := c.pens ++ [⟨f, spill, false, s.seq⟩] }).bump

/-- The home lane of a returning fibre: its former one, else the one with the most free registers (R257). -/
def returnLane (s : State) (core home n : Nat) : Option Nat :=
  if s.laneFits core home n then some home
  else (List.range 8).foldl (fun b l =>
    if s.laneFits core l n then
      match b with
      | none => some l
      | some m => if s.laneRegs core l < s.laneRegs core m then some l else b
    else b) none

/-- Returns a parked fibre into a pen, when a lane has room and its team is resident (R258, R300, R402). -/
def returnParked (s : State) (f : Nat) : State :=
  let x := s.fib f
  match (if (s.tm x.team).vacated then none else returnLane s x.core x.home x.alloc) with
  | none => s.modFib f fun y => { y with loc := .parked .room }
  | some l =>
    let s := x.parkSegs.foldl (fun s a => freeSeg s (s.ctxOf f) a) s
    penFile (s.modFib f fun y => { y with home := l, parkSegs := [] }) f

/-- A returning fibre that needs nothing but a lane. -/
def State.readyToReturn (s : State) (f : Nat) : State := s.modFib f fun y => { y with loc := .parked .room }

/-- Extra bytes of a park record after the register image: the spec gives no size. [DESIGN CHOICE, log 28] -/
def parkExtra : Nat := 256

/-- Removes the engine work of a team that has ended; none of it completes, no arrival is made (R356). [DEDUCED, log 80] -/
def dropEngine (s : State) (t : Nat) : State :=
  let core := fun (c : Core) => { c with
    tasks := c.tasks.filter fun x => x.2.team ≠ t, groups := c.groups.filter fun x => x.2.team ≠ t,
    loops := c.loops.filter fun x => x.team ≠ t, waits := c.waits.filter fun x => x.team ≠ t,
    xfers := c.xfers.filter fun x => x.team ≠ t,
    phases := c.phases.filter fun p => !p.slices.any fun x => x.team = t }
  { s with cores := s.cores.map fun c => (c.1, core c.2), images := s.images.map fun c => (c.1, core c.2) }

/-- The flocks of a team end, but those that a test keeps, and its fibres stop where they are. -/
def endFlocks (s : State) (t : Nat) (keep : Flock → Bool) : State :=
  let gone := fun (k : Flock) => k.team = t && !keep k
  let fs := (s.fibres.filter fun p => p.2.team = t && (match p.2.loc with
    | .flock k => gone (s.flk k)
    | _ => true)).map (·.1)
  { s with flocks := s.flocks.filter fun k => !gone k.2,
           cores := s.cores.map fun c => (c.1, { c.2 with pens := c.2.pens.filter fun p => !fs.contains p.fibre }),
           fibres := s.fibres.map fun p => if fs.contains p.1 then (p.1, { p.2 with loc := .vacated }) else p,
           runs := s.runs.filter fun r => !gone (s.flk r.flock) }

/-- Ends a team with a status word (R299, R301): its fibres stop where they are and its tasks are removed (R356). A stopped
flock stays stopped until its window's control write (R303). TEAM_COMPLETE does the rest. -/
def terminateTeam (s : State) (t : Nat) (status : DWord) : State :=
  let tm := s.tm t
  if tm.status.isSome then s
  else
    let first := fun (l : Launch) => { l with status := if l.status = 0 then status else l.status }
    endFlocks (dropEngine ({ s with launches := tabMod s.launches tm.launch first }.modTm t fun x =>
      { x with status := some status }) t) t (·.stopped)

/-- The status word of R301. -/
def statusWord (kind eid code index : Nat) : DWord := dword (eid + code * 2 ^ 16 + kind * 2 ^ 24 + index * 2 ^ 32)
def effStatus (s : State) (f kind : Nat) (e : Eff) : DWord :=
  statusWord kind e.eid (if e.eid = 0x0050 then e.val.toNat % 256 else 0) (s.tm (s.fib f).team).index

/-- FDn as R26 lays it out; an empty slot reads 0. -/
def foldWord : Option FoldSlot → DWord
  | none => 0
  | some sl => dword (2 ^ 63 + (match sl.st with
      | .open => 0 | .sealing => 1 | .committed => 2 | .aborted => 3) * 2 ^ 61
      + sl.tag.dev % 64 * 2 ^ 55 + sl.tag.slice % 512 * 2 ^ 46 + sl.tag.seq % 2 ^ 46)

/-- The fibre's other state, after the image of a park record: PC, its kind and the arrived mark; VST; HCH; the top segment;
the completion flags; the four fold slots with their stamps; the MLOOP arming. [DESIGN CHOICE, log 28] -/
def parkBytes (x : Fibre) : List Byte :=
  let words := [x.pc, dword (x.pck.code + if x.arrived then 4 else 0), dword x.vst, x.hch, x.top, dword x.cfMask]
    ++ (List.range 4).map (fun n => foldWord (x.fd.getD n none))
    ++ (List.range 4).map (fun n => dword (((x.fd.getD n none).map FoldSlot.stamp).getD 0))
    ++ [match x.armed with
      | none => 0
      | some a => dword (2 ^ 32 + a.2.toNat * 2 ^ 16 + a.1.toNat)]
  let bs := words.flatMap fun w => bytesOfNat 8 w.toNat
  bs ++ List.replicate (parkExtra - bs.length) 0

/-- Saves a fibre's image and the rest of its state into KIND 3 segments (R290, R300, R402); none where its context's frame heap has
no room. [DESIGN CHOICE, log 28] -/
def saveRecord (s : State) (f : Nat) : Option (List Nat × State) :=
  let x := s.fib f
  (takeSegs s (s.ctxOf f) (imageSegs (64 + 4 * x.alloc + parkExtra))).map fun r =>
    (r.1, writeImage (r.1.foldl (fun s g => touchSeg s x.core g) r.2) r.1 (imageBytes x ++ parkBytes x))

/-- Saves a fibre into KIND 3 segments and takes it out of its flock (R300). -/
def parkFibre (s : State) (f : Nat) (o : ParkObj) (e : Eff) : Res State :=
  let x := s.fib f
  if !x.pending.isEmpty || !x.busy.isEmpty then .wait
  else (drained s [f]).bind fun s =>
    match saveRecord s f with
    | none => .ok (terminateTeam s x.team (effStatus s f 2 e))
    | some (img, s) =>
      let s := leaveFlock s f
      .ok (s.modFib f fun y => { y with loc := .parked o, parkSegs := img })

/-! ### Fault records (R419, R420) -/

/-- The log slot of a record (R419). -/
def logRecord (s : State) (idx : Nat) : State :=
  match tabGet s.faults idx with
  | none => s
  | some r =>
    let a := (s.ctx r.ctx).fhb.toNat + 64 * idx
    ((((((((s.zero a 64).putNum a 8 r.addr.toNat).putNum (a + 8) 2 r.ctx).putNum (a + 0x0A) 1 r.reason).putNum (a + 0x0B) 1
      (if r.replaying then 2 else 1)).putNum (a + 0x0C) 2 idx).putNum (a + 0x0E) 2
      (Nat.min r.fibres.length 65535)).putNum (a + 0x10) 8 r.hb)

/-- Frees a record; its slot is zeroed, and so holds STATE 0 (R419, R463). -/
def freeRecord (s : State) (idx : Nat) : State :=
  match tabGet s.faults idx with
  | none => s
  | some r => { s.zero ((s.ctx r.ctx).fhb.toNat + 64 * idx) 64 with faults := tabDel s.faults idx }

/-- Posts to a context's service queue; a full queue delays the announcement (R404, R420). -/
def postAnnounce (s : State) (cx : Nat) (r : SvcRec) : State :=
  s.modCtx cx fun c => if c.svcQ.length < 1024 then { c with svcQ := c.svcQ ++ [r] }
    else { c with announce := c.announce ++ [r] }

/-- The access code of an address word. -/
def accOfWord (w : DWord) : Acc :=
  match bitsOf w.toNat 56 3 with
  | 1 => .store | 2 => .atomic | 3 => .fetch | 4 => .table | 5 => .engine | _ => .load

/-- ParkFault of R420 with the park before it; stalls while the buffer has no free record. A second walk that finds a malformed
entry raises PROT, as any walk does (R414). -/
def parkFault (s : State) (f : Nat) (e : Eff) : Res State :=
  let cx := s.ctxOf f
  let va := e.val.toNat % 2 ^ 54
  let old := s.faults.find? fun r => !r.2.replaying && r.2.ctx = cx && r.2.addr.toNat % 2 ^ 54 / 2 ^ 16 = va / 2 ^ 16
  match old with
  | some r => (parkFibre s f (.page r.1) e).bind fun s =>
      if (s.tm (s.fib f).team).status.isSome then .ok s
      else .ok (logRecord { s with faults := tabMod s.faults r.1 fun y => { y with fibres := y.fibres ++ [f] } } r.1)
  | none =>
    match walk s f cx va with
    | .poisoned g => .sys 1 (dword g)
    | .dead w5 => .sys 2 w5
    | .leaf _ => (parkFibre s f .room e).bind fun s =>
        if (s.tm (s.fib f).team).status.isSome then .ok s else .ok (returnParked s f)
    | .malformed => .bad (effProt e.val)
    | .missing reason =>
      match (List.range 8192).find? fun i => (tabGet s.faults i).isNone with
      | none => .wait
      | some idx => (parkFibre s f (.page idx) e).bind fun s =>
        if (s.tm (s.fib f).team).status.isSome then .ok s
        else
          let s := logRecord { s with faults := tabPut s.faults idx ⟨e.val, cx, reason, false, [f], s.dev.hb⟩ } idx
          .ok (postAnnounce s cx ⟨cx, (s.tm (s.fib f).team).index, idx, e.val, 0xFFF0⟩)

/-! ### BindEntry (R438) -/

/-- BindEntry of R438 for a parked fibre: an atomic step at the entry's home, and an acquire at system scope. An unbound entry keeps
the fibre parked until a store or atomic to it, the claim itself apart; a pending version of the line, or its carried stamp,
holds the step up (R344, R347). Where the entry is
poisoned or lies behind a contained agent, the fibre returns, and its instruction meets the event (R457, R460). -/
def bindEntry (s : State) (f : Nat) (ea : DWord) (reg : Nat) : State :=
  match translate s f ea .atomic false with
  | .sys _ _ => returnParked s f
  | .wait => s
  | .ok (p, s) =>
    let v := s.num p.key 8
    let claim := (p.key + 6, (0 : Byte), (0x40 : Byte))
    let stay := fun (s : State) => s.modFib f fun x => { x with loc := .parked (.entry p.key ea reg) }
    if (s.poisonIn p.key 8).isSome then returnParked s f
    else if s.pendBlocks [claim] none then s
    else if v / 2 ^ 55 = 0x1FF && v % 2 ^ 54 = ea.toNat % 2 ^ 54 then
      if bitOf v 54 then
        postAnnounce (stay (s.performQuiet [claim] 0 false)) (s.ctxOf f)
          ⟨s.ctxOf f, (s.tm (s.fib f).team).index, (s.fib f).index, ea, 0xFFF1⟩
      else stay s
    else match advanceView s f .system (s.line (lineOf p.key)).ls with
      | .ok s1 => returnParked (s1.modFib f fun x => x.setPair reg (dword v)) f
      | _ => s
  | .bad _ => terminateTeam s (s.fib f).team (statusWord 1 0x0011 0 (s.tm (s.fib f).team).index)

/-! ### Taking an effect (R284, R299) -/

/-- The PROT of a frame heap without a free segment (R107). -/
def noSegment (s : State) (f : Nat) : Eff := effProt (addrWord (s.ctx (s.ctxOf f)).fhl.toNat 6 false)

/-- RootHandler of R299. -/
def rootHandler (s : State) (f : Nat) (e : Eff) : Res State :=
  if e.eid = 0x0010 then parkFault s f e
  else match e.eid, e.park with
    | 0x0002, some o => (parkFibre s f o e).bind fun s =>
        if (s.tm (s.fib f).team).status.isNone && decide (o = .room) then .ok (returnParked s f) else .ok s
    | 0x0070, some (.bind ea n) =>
      let event : Res Unit := match translate s f ea .atomic false with
        | .sys c w => .sys c w
        | .ok (p, _) => s.sound p.key 8
        | _ => .ok ()
      event.bind fun _ => (parkFibre s f (.bind ea n) e).bind fun s =>
        if (s.tm (s.fib f).team).status.isSome then .ok s else .ok (bindEntry s f ea n)
    | _, _ => .ok (terminateTeam s (s.fib f).team (effStatus s f 1 e))

/-- What became of a raising lane. -/
inductive Raised where
  | entered | left
  deriving DecidableEq, Repr

/-- The root handler's turn. PERF is a release at device scope with or without a frame, and its PC is at the next header by
then (R112, R299). [DEDUCED, log 35] -/
def rootRaise (s : State) (f : Nat) (e : Eff) : Res State :=
  match e.perf with
  | none => rootHandler s f e
  | some p => (drainAt s f .device false).bind fun s =>
      rootHandler (s.modFib f fun x => { x with pc := p.1, pck := .sequential }) f e

/-- The capture of an effect for a frame: of a hardware effect with the fibre's PC and registers (R129, R280), of a PERF with
the next header, its resume-value pair and R (R128). -/
def captureFor (s : State) (f frame : Nat) (e : Eff) : Res (Option DWord × State) :=
  match e.perf with
  | none => captureSegments s f frame e (s.fib f).pc (s.fib f).pck none true
  | some p => captureSegments s f frame e p.1 .sequential (some p.2.1) p.2.2

/-- RaiseEffect of R284 and PERF of R128, ONE operation for every instruction: the handler's capture, link and entry, or the
root handler. The fibre's PC is the raising word, or the header at a fetch or header fault (R280). A fault of a write-back
takes the effect's place, with its own handler (R350); so does PROT where PERF finds no segment (R107), and ILLEGAL 0x0A
where an entry register lies outside the allocation, before anything of the entry has taken effect (R17, R113). PROT at level 1
or 2 is the system-class event of CLASS 4 (R33). The count bounds these replacements. [DEDUCED, log 23] [DEDUCED, log 104] -/
def raiseFrom : Nat → State → Nat → Eff → Res (Raised × State)
  | 0, s, f, e => .ok (.left, terminateTeam s (s.fib f).team (effStatus s f 1 e))
  | n + 1, s, f, e =>
    if e.eid = 0x0011 && s.plOf f ≠ 0 then .sys 4 e.val
    else (searched s f e.eid).bind fun s =>
      let frame := handlerSearch s f e.eid
      if frame = 0 then
        match rootRaise s f e with
        | .ok s1 => .ok (.left, s1)
        | .bad e' => raiseFrom n s f e'
        | .wait => .wait
        | .sys c w => .sys c w
      else if (s.fib f).alloc ≤ s.segEnt frame + 4 then raiseFrom n s f (illegal 0x0A)
      else match captureFor s f frame e with
        | .ok (some h, s1) => .ok (.entered, enterHandler s1 f frame h e)
        | .ok (none, s1) => if e.perf.isSome then raiseFrom n s f (noSegment s f)
          else .ok (.left, terminateTeam s1 (s.fib f).team (effStatus s f 2 e))
        | .bad e' => raiseFrom n s f e'
        | .wait => .wait
        | .sys c w => .sys c w

/-- Takes one effect of a lane. -/
def takeEffect (s : State) (f : Nat) (e : Eff) : Res (Raised × State) := raiseFrom (s.chainFuel + 4) s f e

/-! ### Returning from an effect (R293, R295) -/

/-- Frees a chain of segments. -/
def freeSegs (s : State) (cx : Nat) (as : List Nat) : State := as.foldl (fun s a => freeSeg s cx a) s

/-- The image segments of a header. -/
def imageChain (s : State) (a : Nat) : List Nat := chainOf s 0 s.chainFuel (s.num (a + 0x30) 8)

/-- Restores a fibre's registers from an image (R293); the reserved bits of FPM stay zero (R12, R29). -/
def restoreImage (x : Fibre) (img : List Byte) : Fibre :=
  let at4 := fun (o : Nat) => natOfBytes ((img.drop o).take 4)
  let n := at4 0 % 512
  { x with acq := x.acq.filter fun a => n ≤ a.1, preds := BitVec.ofNat 16 (at4 4) ||| 1#16, fpm := word (at4 8) &&& 0x001F03F3#32,
           cy := (List.range 8).map fun i => word (at4 (0x18 + 4 * i)),
           regs := (List.range x.regs.length).map fun i => if i < n then word (at4 (0x40 + 4 * i)) else x.reg i }

/-- N of a header's image; 0 when none (R287, R290). -/
def imageN (s : State) (a : Nat) : Nat :=
  if bitOf (s.num (a + 1) 1) 1 then s.num (s.num (a + 0x30) 8 + 0x40) 4 % 512 else 0

/-- The header of a continuation, its image and its bottom frame are sound (R457). -/
def contSound (s : State) (a : Nat) : Res Unit :=
  (s.sound a 64).bind fun _ => (s.sound (s.num (a + 0x20) 8) 0x40).bind fun _ =>
    if bitOf (s.num (a + 1) 1) 1 then Res.foldM (fun _ g => s.sound g 1024) () (imageChain s a) else .ok ()

/-- ResumeContinuation of R293, after the waits: the return from an effect, ONE operation for RSM and RSMT. The segments that it
reads or writes enter the core's segment cache (R325); bits [2:0] of the PC are zero (R90). -/
def resumeContinuation (s : State) (f a : Nat) (xv : DWord) : State :=
  let flags := s.num (a + 1) 1
  let regs := bitOf flags 1
  let hw := bitOf flags 2
  let pck := bitsOf flags 3 2
  let img := if regs then readImage s (imageSegs (64 + 4 * 256)) (s.num (a + 0x30) 8) else []
  let vsr := s.num (a + 0x38) 8
  let rv := vsr / 2 ^ 56
  let rpc := s.num (a + 0x10) 8
  let skip := hw && bitOf xv.toNat 0 && pck = 2
  let pc := if skip then rpc + 8 else rpc
  let s := touchSegs s f [a, s.num (a + 0x20) 8]
  let s1 := s.modFib f fun x =>
    let x := if regs then restoreImage x img else x
    let x := if bitOf flags 0 && rv + 1 < x.alloc then x.setPair rv xv else x
    { x with vst := Nat.max x.vst (vsr % 2 ^ 56), hch := dword (s.num (a + 0x28) 8),
             top := dword (s.num (a + 0x18) 8), pc := dword pc &&& ~~~7#64,
             pck := if pck = 0 then .sequential else if pck = 1 then .transfer else .within,
             armed := none, arrived := bitOf flags 5 && !skip }
  let s2 := if regs then freeSegs s1 (s.ctxOf f) (imageChain s a) else s1
  s2.putNum a 1 3

/-- DropContinuation of R295. -/
def dropContinuation (s : State) (cx a : Nat) : State :=
  let segs := chainOf s (s.num (a + 0x20) 8) s.chainFuel (s.num (a + 0x18) 8)
  let img := if bitOf (s.num (a + 1) 1) 1 then imageChain s a else []
  (freeSegs s cx (segs ++ img)).putNum a 1 4

/-! ### Flock slots (R259, R260) -/

/-- The slots that a core's flocks hold. -/
def State.slotsUsed (s : State) (core : Nat) : List Nat :=
  s.flocks.filterMap fun k => if k.2.core = core then k.2.slot else none

/-- The lowest free slot of the quadrant with the fewest flocks (R260); a core has 512 slots. -/
def freeSlot (s : State) (core : Nat) : Option Nat :=
  let used := s.slotsUsed core
  let load := fun (q : Nat) => (used.filter fun n => n % 4 = q).length
  let q := [1, 2, 3].foldl (fun b q => if load q < load b then q else b) 0
  ((List.range 128).map fun i => 4 * i + q).find? fun n => !used.contains n

/-- S64 to S127 of a slot with an undefined value (R20). -/
def undefinedSu (s : State) : List DWord × State := s.drawMany 64

/-- Forms a flock of fibres on their home lanes (R260); saved, when no slot is given (R262). Its key and the state. -/
def formFlock (s : State) (core team role : Nat) (lanes : List (Option Nat)) (slot : Option Nat) (su : List DWord) :
    Nat × State :=
  let k := tabFresh s.flocks 0
  let fl : Flock := { Flock.blank with
    core := core, slot := slot, team := team, role := role, lanes := lanes, su := su }
  (k, { s with flocks := tabPut s.flocks k fl }.modFibs (lanes.filterMap id) fun x => { x with loc := .flock k })

/-! ### System-class events (R302 to R304) -/

/-- The windows of a shepherd: 16 each (R254). -/
def windowKey (sh w : Nat) : Nat := sh * 16 + w
def State.freeWindow (s : State) (cx : Nat) : Option Nat :=
  ((List.range 8).flatMap fun i => (List.range 16).map fun w => windowKey ((cx + i) % 8) w).find? fun k =>
    (tabGet s.windows k).isNone && !(s.core (26 + k / 16)).contained
/-- A base segment for a fibre that starts outside a launch, where its context's frame heap has one: its address, else 0
(R108). [DESIGN CHOICE, log 29] -/
def baseSegment (s : State) (cx core : Nat) : Nat × State :=
  match takeSeg s cx with
  | none => (0, s)
  | some r => (r.1, touchSeg (r.2.putLink r.1 0 0 2 0 0 0 0) core r.1)

/-- Starts a fibre of the device's own software on a shepherd core at a level: a team of one fibre (R32, R303). NBV of such a
team, which no packet gives, is 1. [DESIGN CHOICE, log 14] [DESIGN CHOICE, log 29] -/
def startOwn (s : State) (sh level : Nat) (entry : DWord) (v0 v1 : Nat) : State :=
  let t := tabFresh s.teams 0
  let f := tabFresh s.fibres 0
  let core := 26 + sh
  let b := baseSegment s 0 core
  let regs := setAt (setAt (List.replicate 64 (0 : Word)) 0 (word v0)) 1 (word v1)
  let fib : Fibre := { Fibre.blank with
    team := t, alloc := 64, core := core, regs := regs, top := dword b.1,
    pc := entry &&& ~~~7#64, pck := .transfer, vst := s.dev.hb }
  let team : Team := { Team.blank with
    pl := BitVec.ofNat 2 level, nbv := 1, cores := [core], roles := [⟨1, 64, false⟩], declared := 1 }
  let s1 := { b.2 with teams := tabPut b.2.teams t team, fibres := tabPut b.2.fibres f fib }
  (formFlock s1 core t 0 (some f :: List.replicate 7 none) (freeSlot s core) (List.replicate 64 0)).2

/-- Starts a service fibre at level 1 on a shepherd core (R303). -/
def startService (s : State) (sh : Nat) (v0 v1 : Nat) : State := startOwn s sh 1 s.dev.svcEntry v0 v1

/-- The event record of R304. -/
def eventWords (s : State) (k cls : Nat) (lanes : Mask) (low : Nat) (w detail : DWord) : List DWord :=
  let fl := s.flk k
  let x := s.fib low
  let cx := (s.tm fl.team).ctx
  [dword (cls + cx * 2 ^ 16),
   dword (s.coreId fl.core + (fl.slot.getD 0) * 2 ^ 16 + lanes.toNat * 2 ^ 32 + fl.active.toNat * 2 ^ 40
     + fl.frozen.toNat * 2 ^ 48),
   x.pc, w, dword s.dev.hb, detail, dword ((s.tm fl.team).index + x.index * 2 ^ 32), 0]

/-- Opens a window on a stopped flock, or queues the event behind those that wait (R303). [DEDUCED, log 23] [DESIGN CHOICE, log 29] -/
def openWindow (s : State) (k cls : Nat) (words : List DWord) : State :=
  match (if s.events.isEmpty then s.freeWindow (s.tm (s.flk k).team).ctx else none) with
  | none => { s with events := s.events ++ [⟨k, cls, words⟩] }
  | some key =>
    let w0 := words.getD 0 0 ||| dword (key % 16 * 2 ^ 8)
    startService { s with windows := tabPut s.windows key ⟨k, setAt words 0 w0⟩ } (key / 16) (key % 16) cls

/-- Stops a flock whole (R303); a further event of a stopped flock is added to its record. -/
def stopFlock (s : State) (k cls : Nat) (lanes : Mask) (low : Nat) (w detail : DWord) : State :=
  if (tabGet s.flocks k).isNone then s
  else if (s.flk k).stopped then
    let mark := fun (ws : List DWord) => setAt ws 7 (ws.getD 7 0 ||| (1#64 <<< cls))
    let ws := s.windows.map fun p => if p.2.flock = k then (p.1, { p.2 with words := mark p.2.words }) else p
    let es := s.events.map fun e => if e.flock = k then { e with words := mark e.words } else e
    { s with windows := ws, events := es }
  else
    let words := eventWords s k cls lanes low w detail
    openWindow (s.modFlk k fun fl => { fl with stopped := true }) k cls words

/-! ### How an issued instruction ends (R22, R35, R92, R168, R285, R286) -/

/-- GuardMask of R22 over the run's active lanes. -/
def guardMask (s : State) (r : Run) (g : Guard) : Mask :=
  Mask.ofLanes (r.lanes.lanes.filter fun l =>
    match (s.flk r.flock).fibreAt l with
    | none => false
    | some f => (g.pg = 0 || (s.fib f).pred g.pg.toNat) != g.pn)

/-- Address of the word in slot `idx`. -/
def Run.wordAddr (r : Run) : DWord := r.base + dword (8 * r.idx)
/-- The header that follows the clause (R105). -/
def Run.nextHeader (r : Run) : DWord := r.base + dword (8 * (r.hdr.count + 1))

/-- Continues at the header that follows the clause (R105, R280 "next"). -/
def toNextHeader (r : Run) (x : Fibre) : Fibre := { x with pc := r.nextHeader, pck := .sequential }

/-- Moves a lane past the current word (R22, R90). A fibre with the arrived mark of an RDV that a window write of its predicates has
taken out of GuardMask keeps the mark as it moves on: R237 names the other ways only. [DESIGN CHOICE, log 118] -/
def advanceFibre (r : Run) (x : Fibre) : Fibre :=
  if r.idx < r.hdr.count then { x with pc := r.wordAddr + 8, pck := .within }
  else { x with pc := r.nextHeader, pck := .sequential }

/-- Ends the run at the head of the list; its flock waits for the port from then on (R267). -/
def endRun (s : State) : State :=
  match s.runs with
  | [] => s
  | r :: rest => { s.modFlk r.flock (fun k =>
      { k with lastRun := s.seq, since := if k.holdoff then none else some s.seq }) with runs := rest, seq := s.seq + 1 }

/-- The flock of a run stops before the word in issue: its lanes keep that word's PC, with PCK 2 (R93); a run that failed at
its fetch has moved no PC. -/
def dropRun (s : State) (r : Run) : State :=
  let fs := r.lanes.lanes.filterMap fun l => (s.flk r.flock).fibreAt l
  endRun (if r.words.isEmpty then s else s.modFibs fs fun x => { x with pc := r.wordAddr, pck := .within })

/-- Retraction of R168: nothing took effect, the PCs stay, the flock sleeps. [DEDUCED, log 19] -/
def retract (s : State) (r : Run) : State := (dropRun s r).modFlk r.flock fun k => { k with asleep := true, since := none }

/-- The interlock of R19: an acting lane has an outstanding write to a register that the word in issue names. -/
def interlocked (s : State) (r : Run) : Bool :=
  if r.words.isEmpty then false
  else match decodeWord (r.words.getD (r.idx - 1) 0) with
  | .ok i => (guardMask s r i.guard).lanes.any fun l => match (s.flk r.flock).fibreAt l with
    | none => false
    | some f => (laneSpans i).any fun p => (s.fib f).busy.any fun b => p.1 ≤ b.1 && b.1 < p.1 + p.2
  | .bad _ => false

/-- A stalled issue: one that an interlock holds stays in its run, which ends without a sleep where another flock of the
quadrant is eligible (R269); any other stall is retracted (R168). [DEDUCED, log 19] -/
def stall (s : State) (r : Run) : State :=
  if !interlocked s r then retract s r
  else if otherEligible s r.flock then dropRun s r
  else match s.runs with
    | [] => s
    | q :: rest => { s with runs := rest ++ [q] }

/-- The conditions of RunLength (R92) at the end of a clause: the run goes on into the next clause, or ends. -/
def continueRun (s : State) (r : Run) (ends : Bool) : State :=
  if !r.hdr.cont || ends then endRun s
  else
    let a := r.nextHeader
    let lanes := lanesAt s r.flock a
    match lanes.lanes.head?.bind (s.flk r.flock).fibreAt with
    | none => endRun s
    | some f =>
      match fetchClause s f a false with
      | .bad _ => endRun s
      | .sys _ _ => endRun s
      | .wait => endRun s
      | .ok h words s1 =>
        let same := Mask.ofLanes (lanes.lanes.filter fun l => match (s.flk r.flock).fibreAt l with
          | none => false
          | some f' => f' = f || sameView s f' a h words)
        if 24 < r.issued + h.count then endRun s
        else if !flagsSet s r.flock same h.wait then endRun s
        else if s.preemptPending r.core then endRun s
        else
          let fs := same.lanes.filterMap (s.flk r.flock).fibreAt
          match s1.runs with
          | [] => s1
          | _ :: rest =>
            let s2 := s1.modFlk r.flock fun k => { k with lag := k.lag.filter fun l => !same.has l }
            { s2.modFibs fs (fun x => { x with pc := a + 8, pck := .within }) with
              runs := { r with lanes := same, base := a, hdr := h, words := words, idx := 1 } :: rest }

/-- The lanes' outcomes of one issue. -/
structure Outs where
  s : State
  raises : List (Nat × Nat × Eff)
  sys : List (Nat × Nat × Nat × DWord)
  entered : Mask
  cleared : Mask
  /-- Lanes whose effect the root handler cannot take yet: they keep their PC and issue the word again (R300, R420, R423). -/
  held : Mask
  stalled : Bool

/-- What a failing access leaves behind: the translations that it walked fill the TLBs (R414), and an error completion is
spent (R448). -/
def State.afterFailure (s : State) (f : Nat) (e : Eff) : State :=
  let core := (s.fib f).core
  let s := s.fillTlbs core e.fills
  if e.host then s.modCore core fun c => { c with hostErr := c.hostErr.drop 1 } else s

/-- Applies a lane's outcome. A PROT of a fibre at level 1 or 2 is the system-class event of CLASS 4 (R33, R302). -/
def Outs.add (o : Outs) (r : Run) (lane f : Nat) (x : Res (Adv × State)) : Outs :=
  match x with
  | .wait => { o with stalled := true }
  | .bad e =>
    let o := { o with s := o.s.afterFailure f e }
    if e.eid = 0x0011 && o.s.plOf f ≠ 0 then { o with sys := o.sys ++ [(lane, f, 4, e.val)] }
    else { o with raises := o.raises ++ [(lane, f, e)] }
  | .sys c w => { o with sys := o.sys ++ [(lane, f, c, w)] }
  | .ok (.next, s) => { o with s := s.modFib f (advanceFibre r) }
  | .ok (.moved, s) => { o with s := s }
  | .ok (.enter, s) => { o with s := s, entered := o.entered ||| Mask.one lane }
  | .ok (.resumed, s) => { o with s := s, cleared := o.cleared ||| Mask.one lane }
  | .ok (.left, s) => { o with s := s }

/-- The raises of an issue in ascending home-lane order (R35, R284). -/
def byLane (raises : List (Nat × Nat × Eff)) : List (Nat × Nat × Eff) :=
  (List.range 8).flatMap fun l => raises.filter fun x => x.1 = l

/-- The raising lanes enter their handlers, one after another (R35, R284), a FENCE.SC among them losing its T0; a lane whose
team an earlier one has ended does nothing more (R301). A lane that the root handler cannot park yet is held and no other lane
waits for it (R423); a capture that must wait stalls the issue. [DEDUCED, log 24] -/
def takeEffects (o : Outs) : List (Nat × Nat × Eff) → Outs
  | [] => o
  | (lane, f, e) :: rest =>
    if (tabGet o.s.fibres f).isNone || ((o.s.tm (o.s.fib f).team).status.isSome) then takeEffects o rest
    else match takeEffect (o.s.modFib f fun x => { x with scStart := none }) f e with
      | .ok (.entered, s) => takeEffects { o with s := s, entered := o.entered ||| Mask.one lane } rest
      | .ok (.left, s) => takeEffects { o with s := s } rest
      | .sys c w => takeEffects { o with sys := o.sys ++ [(lane, f, c, w)] } rest
      | .bad _ => { o with stalled := true }
      | .wait => if handlerSearch o.s f e.eid = 0 then takeEffects { o with held := o.held ||| Mask.one lane } rest
        else { o with stalled := true }

/-- EFM and the frozen mask after an issue (R285, R286). -/
def settleMasks (s : State) (k : Nat) (entered cleared : Mask) : State :=
  s.modFlk k fun fl =>
    let here := fl.active
    let ent := entered &&& here
    let fl1 := if fl.efm = 0 then
        if ent = 0 then fl else { fl with efm := ent, frozen := here &&& ~~~ent }
      else { fl with efm := fl.efm ||| ent }
    let efm := fl1.efm &&& ~~~cleared
    { fl1.thaw (fl1.efm ≠ 0 && efm = 0) with efm := efm }

/-- Words 3 and 5 of a lane's event (R304, R456): the granule and its code with the home lane; the agent; the count; the
address word. -/
def eventDetail (s : State) (lane cls : Nat) (w : DWord) : DWord × DWord :=
  if cls = 1 then (dword (w.toNat % 2 ^ 52), dword (s.poisonCode w.toNat + lane * 2 ^ 8))
  else if cls = 4 then (w, 0) else (0, w)

/-- Gives the system-class events of an issue to the service: that of the lowest lane opens the record, each further event is
added to it (R303, R461); lanes of one class that report one thing report one event. -/
def stopLanes (s : State) (k : Nat) (lanes : Mask) (evs : List (Nat × Nat × Nat × DWord)) : State :=
  (evs.foldl (fun (q : List (Nat × DWord) × State) (ev : Nat × Nat × Nat × DWord) =>
    let key := ev.2.2
    let d := eventDetail q.2 ev.1 key.1 key.2
    if q.1.contains key then q else (q.1 ++ [key], stopFlock q.2 k key.1 lanes ev.2.1 d.1 d.2)) ([], s)).2

/-- Ends the issue: raises, system-class events, masks, and the run (R35, R92, R285, R303). `s0` is the state before the
instruction, for a stall. [DEDUCED, log 19] -/
def settle (s0 : State) (r : Run) (ends : Bool) (o : Outs) : State :=
  let o1 := if o.stalled then o else takeEffects o (byLane o.raises)
  if o1.stalled || (o1.held ≠ 0 && r.lanes &&& ~~~o1.held = 0) then stall s0 r
  else
    let quiet := o.raises.isEmpty && o1.sys.isEmpty && o1.entered = 0
    let alive := match o1.s.runs with
      | [] => false
      | q :: _ => q.core = r.core && q.flock = r.flock
    let failed := Mask.ofLanes ((o.raises.filter fun x => x.2.2.perf.isNone).map (·.1) ++ o1.sys.map (·.1))
    let s0 := if r.lanes &&& ~~~failed = 0 then o1.s else o1.s.modFlk r.flock fun k => { k with watch := 0 }
    let s1 := settleMasks s0 r.flock o1.entered o1.cleared
    let evs := (List.range 8).flatMap fun l => o1.sys.filter fun x => x.1 = l
    let s2 := stopLanes s1 r.flock (Mask.ofLanes (evs.map (·.1))) evs
    if !alive then s2
    else if !quiet then endRun s2
    else if r.idx < r.hdr.count then
      match s2.runs with
      | [] => s2
      | _ :: rest => { s2 with runs := { r with idx := r.idx + 1, issued := r.issued + 1 } :: rest }
    else continueRun s2 { r with issued := r.issued + 1 } ends

/-- Lanes that only advance (R22). -/
def advanceLanes (s : State) (r : Run) (lanes : Mask) : State :=
  s.modFibs (lanes.lanes.filterMap (s.flk r.flock).fibreAt) (advanceFibre r)

/-- Folds the lanes of a mask, ascending (R35, R172). -/
def foldLanes (s : State) (r : Run) (lanes : List Nat) (body : State → Nat → Nat → Res (Adv × State)) (o : Outs) : Outs :=
  lanes.foldl (fun o l => match (s.flk r.flock).fibreAt l with
    | none => o
    | some f => if o.stalled then o else o.add r l f (body o.s f l)) o

/-- The active lanes that hold a cancel mark, with the CANCELLED each raises (R422). -/
def cancelRaises (s : State) (r : Run) : List (Nat × Nat × Eff) :=
  r.lanes.lanes.filterMap fun l => ((s.flk r.flock).fibreAt l).bind fun f =>
    (s.fib f).cancel.map fun w => (l, f, effCancelled w)

/-- The outcomes before any lane acts: marked lanes raise, lanes outside `acting` advance (R22, R422). [DEDUCED, log 22] -/
def openOuts (s : State) (r : Run) (acting : Mask) : Outs :=
  let cs := cancelRaises s r
  let marked := Mask.ofLanes (cs.map (·.1))
  let s1 := if cs.isEmpty then s else s.modFibs (cs.map (·.2.1)) fun x => { x with cancel := none, scStart := none }
  ⟨advanceLanes s1 r (r.lanes &&& ~~~acting &&& ~~~marked), cs, [], 0, 0, 0, false⟩

/-- The lanes of GuardMask that no cancel mark keeps from acting. -/
def actingMask (s : State) (r : Run) (g : Guard) : Mask :=
  guardMask s r g &&& ~~~(Mask.ofLanes ((cancelRaises s r).map (·.1)))

/-- Issues an instruction that acts per lane (R35, R37): `body` is given GuardMask, the fibre and the lane. [DESIGN CHOICE, log 3] -/
def perLane (i : Instr) (s : State) (body : Mask → State → Nat → Nat → Res (Adv × State)) :
    Host.Outcome State Fault Refusal :=
  match s.runs with
  | [] => .fault .noRun
  | r :: _ =>
    let g := actingMask s r i.guard
    .next (settle s r i.endsClause (foldLanes s r g.lanes (fun s f l => body g s f l) (openOuts s r g)))

/-- Issues an instruction that acts once for the flock (R77, R173, R207): nothing when GuardMask is zero, any effect on
every lane of GuardMask. `body` is given the lowest lane's fibre and the fibres of GuardMask, which advance. [DESIGN CHOICE, log 3] -/
def perFlock (i : Instr) (s : State) (body : State → Nat → List Nat → Res State) : Host.Outcome State Fault Refusal :=
  match s.runs with
  | [] => .fault .noRun
  | r :: _ =>
    let g := actingMask s r i.guard
    match g.lanes.filterMap (s.flk r.flock).fibreAt with
    | [] => .next (settle s r i.endsClause (openOuts s r 0))
    | f0 :: fs =>
      let o0 := openOuts s r g
      .next (settle s r i.endsClause (match body o0.s f0 (f0 :: fs) with
        | .ok s1 => { o0 with s := s1.modFibs (f0 :: fs) (advanceFibre r) }
        | .bad e => foldLanes s r g.lanes (fun _ f _ => .bad { e with host := e.host && f = f0 }) o0
        | .wait => foldLanes s r g.lanes (fun _ _ _ => .wait) o0
        | .sys c w => foldLanes s r g.lanes (fun _ _ _ => .sys c w) o0))

/-- The lanes of a mask that no cancel mark keeps from acting: a marked lane raises CANCELLED and nothing else (R422). -/
def unmarked (s : State) (r : Run) (lanes : Mask) : Mask :=
  lanes &&& ~~~(Mask.ofLanes ((cancelRaises s r).map (·.1)))

/-- Raises an effect on lanes of a run, the other active lanes advancing (R89). -/
def raiseOn (s : State) (r : Run) (lanes : Mask) (ends : Bool) (e : Eff) : State :=
  settle s r ends (foldLanes s r (unmarked s r lanes).lanes (fun _ _ _ => .bad e) (openOuts s r lanes))

end Sys2Proof.Machine
end

