-- ==== Sys2Proof/Machine/Operands.lean ====
section
/-! DEFINITION. Operand forms of the lane instructions: register checks and reads, uniform registers, and the shapes of
an issue that computes a 32-bit or 64-bit value (R17 to R21, R76, R77, R136). -/

namespace Sys2Proof.Machine

/-- A range of lane registers lies in the allocation (R17) and has no outstanding write (R19). -/
def needRegs (x : Fibre) (n count : Nat) : Res Unit :=
  if x.alloc < n + count then .bad (illegal 0x0A)
  else if x.busy.any fun b => n ≤ b.1 && b.1 < n + count then .wait
  else .ok ()

/-- A 32-bit lane operand. -/
def need32 (x : Fibre) (n : BitVec 8) : Res Unit := needRegs x n.toNat 1

/-- A 64-bit lane operand: an even register, both halves in the allocation (R18). -/
def need64 (x : Fibre) (n : BitVec 8) : Res Unit :=
  if n.toNat % 2 = 1 then .bad (illegal 0x0B) else needRegs x n.toNat 2

/-- A uniform register as fibre f's flock reads it: S0 to S63 of the team, S64 to S127 of the flock slot (R20, R21). -/
def sreg (s : State) (f : Nat) (n : BitVec 8) : DWord :=
  if n.toNat < 64 then (s.tm (s.fib f).team).su.getD n.toNat 0
  else match (s.fib f).loc with
    | .flock k => (s.flk k).su.getD (n.toNat - 64) 0
    | _ => 0

/-- Writes a uniform register (R20, R21); a write to S0 to S63 is visible to the team's other flocks and cores at once. [DESIGN CHOICE, log 105] -/
def setSreg (s : State) (f : Nat) (n : BitVec 8) (v : DWord) : State :=
  if n.toNat < 64 then s.modTm (s.fib f).team fun t => { t with su := setAt t.su n.toNat v }
  else match (s.fib f).loc with
    | .flock k => s.modFlk k fun fl => { fl with su := setAt fl.su (n.toNat - 64) v }
    | _ => s

/-- A 32-bit source; a uniform one supplies bits [31:0] (R76). -/
def src32 (s : State) (f : Nat) : Src → Res Word
  | .v n => (need32 (s.fib f) n).bind fun _ => .ok ((s.fib f).reg n.toNat)
  | .s n => .ok (lowWord (sreg s f n))

/-- A 64-bit source: a pair, or a uniform register whole (R18, R76). -/
def src64 (s : State) (f : Nat) : Src → Res DWord
  | .v n => (need64 (s.fib f) n).bind fun _ => .ok ((s.fib f).pair n.toNat)
  | .s n => .ok (sreg s f n)

/-- The 32-bit and 64-bit values of a uniform instruction's source (R77, R136). -/
def uni32 (s : State) (f : Nat) (a : Src) : Word := lowWord (sreg s f a.num)
def uni64 (s : State) (f : Nat) (a : Src) : DWord := sreg s f a.num

def put32 (s : State) (f : Nat) (d : BitVec 8) (v : Word) : State := s.modFib f fun x => x.setReg d.toNat v
def put64 (s : State) (f : Nat) (d : BitVec 8) (v : DWord) : State := s.modFib f fun x => x.setPair d.toNat v
def putPred (s : State) (f : Nat) (p : BitVec 4) (b : Bool) : State := s.modFib f fun x => x.setPred p.toNat b

/-- A lane's 32-bit result: the destination's checks, the value, the write (R35, R37). -/
def lane32 (i : Instr) (d : BitVec 8) (s : State) (val : State → Nat → Res Word) : Host.Outcome State Fault Refusal :=
  perLane i s fun _ s f _ => (need32 (s.fib f) d).bind fun _ => (val s f).bind fun v => .ok (.next, put32 s f d v)

/-- A lane's 64-bit result. -/
def lane64 (i : Instr) (d : BitVec 8) (s : State) (val : State → Nat → Res DWord) :
    Host.Outcome State Fault Refusal :=
  perLane i s fun _ s f _ => (need64 (s.fib f) d).bind fun _ => (val s f).bind fun v => .ok (.next, put64 s f d v)

/-- A lane's predicate result. -/
def lanePred (i : Instr) (p : BitVec 4) (s : State) (val : State → Nat → Res Bool) :
    Host.Outcome State Fault Refusal :=
  perLane i s fun _ s f _ => (val s f).bind fun b => .ok (.next, putPred s f p b)

/-- A uniform instruction's result, written once for the flock (R77, R136). -/
def uniform (i : Instr) (d : BitVec 8) (s : State) (val : State → Nat → DWord) : Host.Outcome State Fault Refusal :=
  perFlock i s fun s f0 _ => .ok (setSreg s f0 d (val s f0))

/-- One, two and three 32-bit sources, in the lane or the uniform form. -/
def op1 (i : Instr) (o : Un) (s : State) (fn : Word → Word) : Host.Outcome State Fault Refusal :=
  if o.ud then uniform i o.d s fun s f => (fn (uni32 s f o.a)).setWidth 64
  else lane32 i o.d s fun s f => (src32 s f o.a).bind fun a => .ok (fn a)

def op2 (i : Instr) (o : Bin) (s : State) (fn : Word → Word → Word) : Host.Outcome State Fault Refusal :=
  if o.ud then uniform i o.d s fun s f => (fn (uni32 s f o.a) (uni32 s f o.b)).setWidth 64
  else lane32 i o.d s fun s f => (src32 s f o.a).bind fun a => (src32 s f o.b).bind fun b => .ok (fn a b)

def op3 (i : Instr) (o : Tri) (s : State) (fn : Word → Word → Word → Word) : Host.Outcome State Fault Refusal :=
  if o.ud then uniform i o.d s fun s f => (fn (uni32 s f o.a) (uni32 s f o.b) (uni32 s f o.c)).setWidth 64
  else lane32 i o.d s fun s f => (src32 s f o.a).bind fun a => (src32 s f o.b).bind fun b =>
    (src32 s f o.c).bind fun c => .ok (fn a b c)

/-- 64-bit sources A and B. -/
def pair2 (i : Instr) (o : Bin) (s : State) (fn : DWord → DWord → DWord) : Host.Outcome State Fault Refusal :=
  if o.ud then uniform i o.d s fun s f => fn (uni64 s f o.a) (uni64 s f o.b)
  else lane64 i o.d s fun s f => (src64 s f o.a).bind fun a => (src64 s f o.b).bind fun b => .ok (fn a b)

/-- A 64-bit A and a 32-bit B (R143). -/
def pairBy (i : Instr) (o : Bin) (s : State) (fn : DWord → Word → DWord) : Host.Outcome State Fault Refusal :=
  if o.ud then uniform i o.d s fun s f => fn (uni64 s f o.a) (uni32 s f o.b)
  else lane64 i o.d s fun s f => (src64 s f o.a).bind fun a => (src32 s f o.b).bind fun b => .ok (fn a b)

/-- The 12-bit immediate, sign-extended (R78). -/
def imm32 (n : BitVec 12) : Word := n.signExtend 32
def imm64 (n : BitVec 12) : DWord := n.signExtend 64

def opImm (i : Instr) (o : ImmOp) (s : State) (fn : Word → Word) : Host.Outcome State Fault Refusal :=
  if o.ud then uniform i o.d s fun s f => (fn (uni32 s f o.a)).setWidth 64
  else lane32 i o.d s fun s f => (src32 s f o.a).bind fun a => .ok (fn a)

end Sys2Proof.Machine
end

