-- ==== Sys2Proof/Machine/Flags.lean ====
section
/-! DEFINITION. Every flag computation: integer comparisons and saturation, and the floating-point conditions with the
mode register FPM (R29, R58, R138, R142, R282). -/

namespace Sys2Proof.Machine

/-- Condition bits of R282: IV, DZ, OF, UF, NX and integer divide by zero. -/
def cIV : Nat := 1
def cDZ : Nat := 2
def cOF : Nat := 4
def cUF : Nat := 8
def cNX : Nat := 16
def cIZ : Nat := 32

/-- The rounding directions: to nearest even, towards zero, down and up (R29, R53). -/
inductive Rm where
  | rne | rz | rd | ru
  deriving DecidableEq, Repr

/-- FPM.RM of R29. -/
def Rm.ofFpm (fpm : Word) : Rm :=
  match bitsOf fpm.toNat 0 2 with
  | 0 => .rne
  | 1 => .rz
  | 2 => .rd
  | _ => .ru

/-- The RM field of R146: dynamic takes FPM.RM. -/
def RmField.rm (fpm : Word) : RmField → Rm
  | .dyn => Rm.ofFpm fpm
  | .rn => .rne
  | .rz => .rz
  | .rd => .rd
  | .ru => .ru

/-- The conditions that FPM enables, of those that arose (R29): EIV to ENX at bits 4 to 8, EIZ at bit 9. -/
def enabledOf (fpm : Word) (cond : Nat) : Nat := Nat.land cond (bitsOf fpm.toNat 4 6)

/-- Sets the sticky bits SIV to SNX, bits 16 to 20; integer divide by zero has none (R29). -/
def stickyFpm (fpm : Word) (cond : Nat) : Word := fpm ||| word (cond % 32 * 2 ^ 16)

/-- FPM as a write leaves it: reserved bits are ignored (R12, R29). -/
def writeFpm (a : Word) : Word := a &&& 0x001F03F3#32

/-- A floating-point result with its conditions: ARITH when one is enabled, else the sticky bits and the write (R29). -/
def withConds (s : State) (f : Nat) (cond : Nat) (write : State → State) : Res (Adv × State) :=
  let fpm := (s.fib f).fpm
  if enabledOf fpm cond ≠ 0 then .bad (effArith cond)
  else .ok (.next, write (if cond % 32 = 0 then s else s.modFib f fun x => { x with fpm := stickyFpm x.fpm cond }))

/-- An integer comparison (R142). -/
def compareInt {n : Nat} (c : Cond) (u : Bool) (a b : BitVec n) : Bool :=
  let lt := if u then decide (a.toNat < b.toNat) else decide (a.toInt < b.toInt)
  match c with
  | .eq => a == b
  | .ne => a != b
  | .lt => lt
  | .le => lt || a == b
  | .gt => !(lt || a == b)
  | .ge => !lt

/-- How a comparison joins the old predicate (R142). -/
def combine (m : Comb) (old result : Bool) : Bool :=
  match m with
  | .set => result
  | .and => old && result
  | .or => old || result

/-- Clamps an exact value to the signed or unsigned 32-bit range (R138). -/
def clampSigned (x : Int) : Word := BitVec.ofInt 32 (max (-2147483648) (min 2147483647 x))
def clampUnsigned (x : Int) : Word := BitVec.ofInt 32 (max 0 (min 4294967295 x))

/-- ADD with its saturation (R137, R138). -/
def addSat (m : Sat) (a b : Word) : Word :=
  match m with
  | .wrap => a + b
  | .ss => clampSigned (a.toInt + b.toInt)
  | .us => clampUnsigned ((a.toNat : Int) + (b.toNat : Int))

/-- SUB with its saturation (R137, R138). -/
def subSat (m : Sat) (a b : Word) : Word :=
  match m with
  | .wrap => a - b
  | .ss => clampSigned (a.toInt - b.toInt)
  | .us => clampUnsigned ((a.toNat : Int) - (b.toNat : Int))

end Sys2Proof.Machine
end

