-- ==== Sys2Proof/Machine/Integer.lean ====
section
/-! DEFINITION. The integer group on 32-bit lanes (R137 to R142), the 64-bit pair group (R143), the immediate group (R144)
and address formation (R145). -/

namespace Sys2Proof.Machine

abbrev Out := Host.Outcome State Fault Refusal

/-! ### The integer group -/

def execAdd (g : Guard) (o : Bin) (sat : Sat) (s : State) : Out := op2 (.add g o sat) o s (addSat sat)
def execSub (g : Guard) (o : Bin) (sat : Sat) (s : State) : Out := op2 (.sub g o sat) o s (subSat sat)
def execMul (g : Guard) (o : Bin) (s : State) : Out := op2 (.mul g o) o s fun a b => a * b

/-- Bits [63:32] of the product (R137). -/
def mulHigh (u : Bool) (a b : Word) : Word :=
  if u then BitVec.ofNat 32 (a.toNat * b.toNat / 2 ^ 32) else BitVec.ofInt 32 (a.toInt * b.toInt / 2 ^ 32)
def execMulhi (g : Guard) (o : Bin) (u : Bool) (s : State) : Out := op2 (.mulhi g o u) o s (mulHigh u)
def execMad (g : Guard) (o : Tri) (s : State) : Out := op3 (.mad g o) o s fun a b c => a * b + c

/-- Quotient and remainder of R139 for a divisor that is not zero. -/
def divWord (u : Bool) (a b : Word) : Word := if u then a / b else BitVec.ofInt 32 (a.toInt.tdiv b.toInt)
def remWord (u : Bool) (a b : Word) : Word := if u then a % b else BitVec.ofInt 32 (a.toInt.tmod b.toInt)

/-- A division of R139: with a zero divisor ARITH when FPM.EIZ is 1, else the value that the table gives. -/
def divLane (i : Instr) (o : Bin) (s : State) (fn : Word → Word → Word) (zero : Word → Word) : Out :=
  perLane i s fun _ s f _ => (need32 (s.fib f) o.d).bind fun _ => (src32 s f o.a).bind fun a =>
    (src32 s f o.b).bind fun b =>
      if b = 0 then withConds s f cIZ fun s => put32 s f o.d (zero a) else .ok (.next, put32 s f o.d (fn a b))
def execDiv (g : Guard) (o : Bin) (u : Bool) (s : State) : Out :=
  divLane (.div g o u) o s (divWord u) fun _ => 0xFFFFFFFF
def execRem (g : Guard) (o : Bin) (u : Bool) (s : State) : Out := divLane (.rem g o u) o s (remWord u) fun a => a

/-- The smaller and the larger operand, signed or unsigned. -/
def minWord {n : Nat} (u : Bool) (a b : BitVec n) : BitVec n := if compareInt .le u a b then a else b
def maxWord {n : Nat} (u : Bool) (a b : BitVec n) : BitVec n := if compareInt .ge u a b then a else b
def execMin (g : Guard) (o : Bin) (u : Bool) (s : State) : Out := op2 (.min g o u) o s (minWord u)
def execMax (g : Guard) (o : Bin) (u : Bool) (s : State) : Out := op2 (.max g o u) o s (maxWord u)

/-- B′ of R137. -/
def notIf (n : Bool) (b : Word) : Word := if n then ~~~b else b
def execAnd (g : Guard) (o : Bin) (nb : Bool) (s : State) : Out := op2 (.and g o nb) o s fun a b => a &&& notIf nb b
def execOr (g : Guard) (o : Bin) (nb : Bool) (s : State) : Out := op2 (.or g o nb) o s fun a b => a ||| notIf nb b
def execXor (g : Guard) (o : Bin) (nb : Bool) (s : State) : Out := op2 (.xor g o nb) o s fun a b => a ^^^ notIf nb b

/-- Shifts by the whole of B (R140): an amount of the width or more shifts everything out. The amount is bounded first,
so that a large one costs no work. -/
def shlBits {n : Nat} (a : BitVec n) (k : Nat) : BitVec n := if n ≤ k then 0 else a <<< k
def shrBits {n : Nat} (a : BitVec n) (k : Nat) : BitVec n := if n ≤ k then 0 else a >>> k
def sarBits {n : Nat} (a : BitVec n) (k : Nat) : BitVec n := a.sshiftRight (Nat.min k n)
def execShl (g : Guard) (o : Bin) (s : State) : Out := op2 (.shl g o) o s fun a b => shlBits a b.toNat
def execShr (g : Guard) (o : Bin) (s : State) : Out := op2 (.shr g o) o s fun a b => shrBits a b.toNat
def execSar (g : Guard) (o : Bin) (s : State) : Out := op2 (.sar g o) o s fun a b => sarBits a b.toNat
def execRot (g : Guard) (o : Bin) (s : State) : Out := op2 (.rot g o) o s fun a b => a.rotateLeft (b.toNat % 32)

/-- Position and width of R141. -/
def fieldPos (b : Word) : Nat := bitsOf b.toNat 0 5
def fieldWidth (b : Word) : Nat := Nat.min (bitsOf b.toNat 8 6) 32

/-- BFX of R141. -/
def bfxWord (sgn : Bool) (a b : Word) : Word :=
  let w := fieldWidth b
  let t := a.toNat / 2 ^ fieldPos b % 2 ^ w
  if sgn && 0 < w && 2 ^ (w - 1) ≤ t then BitVec.ofInt 32 ((t : Int) - 2 ^ w) else BitVec.ofNat 32 t
def execBfx (g : Guard) (o : Bin) (sgn : Bool) (s : State) : Out := op2 (.bfx g o sgn) o s (bfxWord sgn)

/-- BFI of R141. -/
def bfiWord (a b c : Word) : Word :=
  let m : DWord := dword ((2 ^ fieldWidth b - 1) * 2 ^ fieldPos b)
  lowWord ((c.setWidth 64 &&& ~~~m) ||| (a.setWidth 64 <<< fieldPos b &&& m))
def execBfi (g : Guard) (o : Tri) (s : State) : Out := op3 (.bfi g o) o s bfiWord

/-- Leading zeros, ones and the bit reversal (R137). -/
def clzWord (a : Word) : Word := word ((indexOf? (fun i => a.getLsbD (31 - i)) (List.range 32) 0).getD 32)
def popcWord (a : Word) : Word := word ((List.range 32).filter fun i => a.getLsbD i).length
def brevWord (a : Word) : Word := BitVec.ofBoolListLE ((List.range 32).map fun i => a.getLsbD (31 - i)) |>.setWidth 32
def execClz (g : Guard) (o : Un) (s : State) : Out := op1 (.clz g o) o s clzWord
def execPopc (g : Guard) (o : Un) (s : State) : Out := op1 (.popc g o) o s popcWord
def execBrev (g : Guard) (o : Un) (s : State) : Out := op1 (.brev g o) o s brevWord

def execSel (g : Guard) (d : BitVec 8) (a b : Src) (p : BitVec 4) (s : State) : Out :=
  lane32 (.sel g d a b p) d s fun s f => (src32 s f a).bind fun x => (src32 s f b).bind fun y =>
    .ok (if (s.fib f).pred p.toNat then x else y)

def execIcmp (g : Guard) (p : BitVec 4) (a b : Src) (cond : Cond) (u : Bool) (comb : Comb) (s : State) : Out :=
  lanePred (.icmp g p a b cond u comb) p s fun s f => (src32 s f a).bind fun x => (src32 s f b).bind fun y =>
    .ok (combine comb ((s.fib f).pred p.toNat) (compareInt cond u x y))

def execMov (g : Guard) (o : Un) (s : State) : Out := op1 (.mov g o) o s fun a => a

/-! ### The pair group -/

/-- B″ of R143 for a 32-bit B. -/
def widen (sgn : Bool) (b : Word) : DWord := if sgn then b.signExtend 64 else b.setWidth 64

/-- ADDD and SUBD with the width of B. -/
def pairSum (i : Instr) (o : Bin) (bw : BWidth) (s : State) (fn : DWord → DWord → DWord) : Out :=
  match bw with
  | .pair => pair2 i o s fn
  | .sw => pairBy i o s fun a b => fn a (widen true b)
  | .zw => pairBy i o s fun a b => fn a (widen false b)
def execAddd (g : Guard) (o : Bin) (bw : BWidth) (s : State) : Out := pairSum (.addd g o bw) o bw s fun a b => a + b
def execSubd (g : Guard) (o : Bin) (bw : BWidth) (s : State) : Out := pairSum (.subd g o bw) o bw s fun a b => a - b
def execMuld (g : Guard) (o : Bin) (s : State) : Out := pair2 (.muld g o) o s fun a b => a * b
def execShld (g : Guard) (o : Bin) (s : State) : Out := pairBy (.shld g o) o s fun a b => shlBits a b.toNat
def execShrd (g : Guard) (o : Bin) (s : State) : Out := pairBy (.shrd g o) o s fun a b => shrBits a b.toNat
def execSard (g : Guard) (o : Bin) (s : State) : Out := pairBy (.sard g o) o s fun a b => sarBits a b.toNat

def execIcmpd (g : Guard) (p : BitVec 4) (a b : Src) (cond : Cond) (u : Bool) (comb : Comb) (s : State) : Out :=
  lanePred (.icmpd g p a b cond u comb) p s fun s f => (src64 s f a).bind fun x => (src64 s f b).bind fun y =>
    .ok (combine comb ((s.fib f).pred p.toNat) (compareInt cond u x y))

def execMovd (g : Guard) (o : Un) (s : State) : Out :=
  if o.ud then uniform (.movd g o) o.d s fun s f => uni64 s f o.a
  else lane64 (.movd g o) o.d s fun s f => src64 s f o.a
def execAndd (g : Guard) (o : Bin) (s : State) : Out := pair2 (.andd g o) o s fun a b => a &&& b
def execOrd (g : Guard) (o : Bin) (s : State) : Out := pair2 (.ord g o) o s fun a b => a ||| b
def execXord (g : Guard) (o : Bin) (s : State) : Out := pair2 (.xord g o) o s fun a b => a ^^^ b

/-! ### The immediate group -/

def execAddi (g : Guard) (o : ImmOp) (s : State) : Out := opImm (.addi g o) o s fun a => a + imm32 o.imm
def execMuli (g : Guard) (o : ImmOp) (s : State) : Out := opImm (.muli g o) o s fun a => a * imm32 o.imm
def execAndi (g : Guard) (o : ImmOp) (s : State) : Out := opImm (.andi g o) o s fun a => a &&& imm32 o.imm
def execOri (g : Guard) (o : ImmOp) (s : State) : Out := opImm (.ori g o) o s fun a => a ||| imm32 o.imm
def execXori (g : Guard) (o : ImmOp) (s : State) : Out := opImm (.xori g o) o s fun a => a ^^^ imm32 o.imm
def execShli (g : Guard) (o : ImmOp) (s : State) : Out := opImm (.shli g o) o s fun a => shlBits a o.imm.toNat
def execShri (g : Guard) (o : ImmOp) (s : State) : Out := opImm (.shri g o) o s fun a => shrBits a o.imm.toNat
def execSari (g : Guard) (o : ImmOp) (s : State) : Out := opImm (.sari g o) o s fun a => sarBits a o.imm.toNat

def execIcmpi (g : Guard) (p : BitVec 4) (a : Src) (imm : BitVec 12) (cond : Cond) (u : Bool) (comb : Comb)
    (s : State) : Out :=
  lanePred (.icmpi g p a imm cond u comb) p s fun s f => (src32 s f a).bind fun x =>
    .ok (combine comb ((s.fib f).pred p.toNat) (compareInt cond u x (imm32 imm)))

def execAdddi (g : Guard) (o : ImmOp) (s : State) : Out :=
  if o.ud then uniform (.adddi g o) o.d s fun s f => uni64 s f o.a + imm64 o.imm
  else lane64 (.adddi g o) o.d s fun s f => (src64 s f o.a).bind fun a => .ok (a + imm64 o.imm)

def execMovi (g : Guard) (ud : Bool) (d : BitVec 8) (imm : BitVec 12) (s : State) : Out :=
  if ud then uniform (.movi g ud d imm) d s fun _ _ => (imm32 imm).setWidth 64
  else lane32 (.movi g ud d imm) d s fun _ _ => .ok (imm32 imm)

/-! ### Address formation -/

/-- The upper immediate of LUI: IMM20 : 0x000 (R145). -/
def upper32 (imm : BitVec 20) : Word := imm ++ (0 : BitVec 12)

def execLui (g : Guard) (ud : Bool) (d : BitVec 8) (imm : BitVec 20) (s : State) : Out :=
  if ud then uniform (.lui g ud d imm) d s fun _ _ => (upper32 imm).setWidth 64
  else lane32 (.lui g ud d imm) d s fun _ _ => .ok (upper32 imm)

/-- The address of the word that the run at the head of the list issues. -/
def State.wordAddr (s : State) : DWord := (s.runs.head?.map Run.wordAddr).getD 0

def execAupc (g : Guard) (ud : Bool) (d : BitVec 8) (imm : BitVec 20) (s : State) : Out :=
  let v := s.wordAddr + (upper32 imm).signExtend 64
  if ud then uniform (.aupc g ud d imm) d s fun _ _ => v
  else lane64 (.aupc g ud d imm) d s fun _ _ => .ok v

def execLup (g : Guard) (ud : Bool) (d : BitVec 8) (imm : BitVec 20) (s : State) : Out :=
  let v := pairOf (imm.setWidth 32) 0
  if ud then uniform (.lup g ud d imm) d s fun _ _ => v
  else lane64 (.lup g ud d imm) d s fun _ _ => .ok v

end Sys2Proof.Machine
end

