-- ==== Sys2Proof/Machine/Num.lean ====
section
/-! DEFINITION. Number formats and exact arithmetic: decoding, RoundToFormat, the BEAD and scale codes, the quantising
conversion and the matrix cell (R40 to R67). -/

namespace Sys2Proof.Machine

/-! ### Exact values -/

/-- An extended real: NaN, an infinity, or `± m × 2^e` with its sign kept at zero (R53, R63). A result that lies strictly
between two such values is held with a last bit of 1 far below every format's precision, so that it rounds alike. -/
inductive XNum where
  | nan
  | inf (neg : Bool)
  | fin (neg : Bool) (m : Nat) (e : Int)
  deriving DecidableEq, Repr

def XNum.zero : XNum := .fin false 0 0
def XNum.isZero : XNum → Bool
  | .fin _ 0 _ => true
  | _ => false
def XNum.isNaN : XNum → Bool
  | .nan => true
  | _ => false
def XNum.isInf : XNum → Bool
  | .inf _ => true
  | _ => false
def XNum.sign : XNum → Bool
  | .nan => false
  | .inf n => n
  | .fin n _ _ => n
def XNum.neg : XNum → XNum
  | .nan => .nan
  | .inf n => .inf (!n)
  | .fin n m e => .fin (!n) m e

/-- The signed integer of a magnitude. -/
def signed (neg : Bool) (m : Nat) : Int := if neg then -(m : Int) else m

/-- Brings two finite values to one exponent: the two signed integers and the exponent. -/
def alignInts (n1 : Bool) (m1 : Nat) (e1 : Int) (n2 : Bool) (m2 : Nat) (e2 : Int) : Int × Int × Int :=
  let e := if m1 = 0 then e2 else if m2 = 0 then e1 else min e1 e2
  (signed n1 (m1 * 2 ^ (e1 - e).toNat), signed n2 (m2 * 2 ^ (e2 - e).toNat), e)

/-- A finite value from a signed integer. -/
def XNum.ofInt (x : Int) (e : Int) : XNum := .fin (decide (x < 0)) x.natAbs e

/-- The exact sum (R63); an exact zero sum has the common sign of its terms, else the sign of IEEE 754 under `rm`. -/
def XNum.add (rm : Rm) (a b : XNum) : XNum :=
  match a, b with
  | .nan, _ => .nan
  | _, .nan => .nan
  | .inf n, .inf k => if n = k then .inf n else .nan
  | .inf n, _ => .inf n
  | _, .inf n => .inf n
  | .fin n1 m1 e1, .fin n2 m2 e2 =>
    let (x, y, e) := alignInts n1 m1 e1 n2 m2 e2
    if x + y = 0 then .fin (if n1 = n2 then n1 else decide (rm = .rd)) 0 0 else .ofInt (x + y) e

/-- The exact product (R63). -/
def XNum.mul (a b : XNum) : XNum :=
  match a, b with
  | .nan, _ => .nan
  | _, .nan => .nan
  | .inf n, .inf k => .inf (n != k)
  | .inf n, .fin k m _ => if m = 0 then .nan else .inf (n != k)
  | .fin k m _, .inf n => if m = 0 then .nan else .inf (n != k)
  | .fin n1 m1 e1, .fin n2 m2 e2 => .fin (n1 != n2) (m1 * m2) (e1 + e2)

/-- The order of two values that are no NaN; `−0` and `+0` are equal (R150). -/
def XNum.lt (a b : XNum) : Bool :=
  match a, b with
  | .inf n, .inf k => n && !k
  | .inf n, .fin _ _ _ => n
  | .fin _ _ _, .inf n => !n
  | .fin n1 m1 e1, .fin n2 m2 e2 =>
    let (x, y, _) := alignInts n1 m1 e1 n2 m2 e2
    decide (x < y)
  | _, _ => false

/-- Keeps a value that lies strictly above `m × 2^e` and below the next integer apart from it. -/
def stickyNum (neg : Bool) (m : Nat) (e : Int) (inexact : Bool) : XNum :=
  if inexact then .fin neg (2 * m + 1) (e - 1) else .fin neg m e

/-- The quotient of finite values, the divisor not zero, to at least 100 bits. -/
def divNum (neg : Bool) (ma : Nat) (ea : Int) (mb : Nat) (eb : Int) : XNum :=
  let k := Nat.log2 mb + 100
  let n := ma * 2 ^ k
  stickyNum neg (n / mb) (ea - eb - k) (n % mb != 0)

/-- Newton's iteration for the integer square root, from above. -/
def isqrtFrom (n : Nat) : Nat → Nat → Nat
  | 0, x => x
  | fuel + 1, x =>
    let y := (x + n / x) / 2
    if x ≤ y then x else isqrtFrom n fuel y
/-- The integer square root. -/
def isqrt (n : Nat) : Nat := if n = 0 then 0 else isqrtFrom n (Nat.log2 n + 8) (2 ^ (Nat.log2 n / 2 + 1))

/-- The square root of a positive value, to at least 100 bits. -/
def sqrtNum (m : Nat) (e : Int) : XNum :=
  let m1 := if e % 2 = 0 then m else 2 * m
  let e1 := if e % 2 = 0 then e else e - 1
  let n := m1 * 2 ^ 200
  let r := isqrt n
  stickyNum false r (e1 / 2 - 100) (r * r != n)

/-- The reciprocal square root of a positive value, to at least 100 bits. -/
def rsqrtNum (m : Nat) (e : Int) : XNum :=
  let m1 := if e % 2 = 0 then m else 2 * m
  let e1 := if e % 2 = 0 then e else e - 1
  let k := Nat.log2 m1 / 2 + 101
  let r := isqrt (2 ^ (2 * k) / m1)
  stickyNum false r (-(e1 / 2) - k) (r * r * m1 != 2 ^ (2 * k))

/-! ### Binary floating point (R42, R43) -/

/-- Precision with the hidden bit, exponent-field width, and the exponent of the smallest subnormal. -/
structure FPar where
  p : Nat
  xb : Nat
  e0 : Int
  deriving DecidableEq, Repr
def p32 : FPar := ⟨24, 8, -149⟩
def p16 : FPar := ⟨11, 5, -24⟩
def pb16 : FPar := ⟨8, 8, -133⟩

/-- Codes of a format, without their sign: infinity, canonical NaN, largest finite. -/
def FPar.infCode (q : FPar) : Nat := (2 ^ q.xb - 1) * 2 ^ (q.p - 1)
def FPar.nanCode (q : FPar) : Nat := q.infCode + 2 ^ (q.p - 2)
def FPar.width (q : FPar) : Nat := q.p + q.xb
def FPar.signBit (q : FPar) : Nat := 2 ^ (q.p + q.xb - 1)
def FPar.withSign (q : FPar) (neg : Bool) (c : Nat) : Nat := if neg then c + q.signBit else c

/-- Sign and magnitude code of an encoding. -/
def FPar.negOf (q : FPar) (x : Nat) : Bool := bitOf x (q.width - 1)
def FPar.magOf (q : FPar) (x : Nat) : Nat := x % q.signBit
def FPar.isNaN (q : FPar) (x : Nat) : Bool := q.infCode < q.magOf x
/-- Signalling: a NaN with its fraction's most significant bit clear (R43). -/
def FPar.isSNaN (q : FPar) (x : Nat) : Bool := q.isNaN x && !bitOf x (q.p - 2)

/-- The value of an encoding (R42, R43). -/
def FPar.decode (q : FPar) (x : Nat) : XNum :=
  let c := q.magOf x
  let ex := c / 2 ^ (q.p - 1)
  let fr := c % 2 ^ (q.p - 1)
  if q.isNaN x then .nan
  else if c = q.infCode then .inf (q.negOf x)
  else if ex = 0 then .fin (q.negOf x) fr q.e0
  else .fin (q.negOf x) (fr + 2 ^ (q.p - 1)) (q.e0 + ex - 1)

/-- The magnitude `m × 2^e` as a multiple of `2^q`: the integer chosen by the rounding mode, and whether it is inexact
(R53). -/
def roundInt (neg : Bool) (m : Nat) (e q : Int) (rm : Rm) : Nat × Bool :=
  if q ≤ e then (m * 2 ^ (e - q).toNat, false)
  else
    let d := (q - e).toNat
    let far := Nat.log2 m + 2 < d
    let hi := if far then 0 else m / 2 ^ d
    let rem := if far then m else m % 2 ^ d
    let half := if far then 2 * m + 1 else 2 ^ (d - 1)
    let up := match rm with
      | .rne => decide (half < rem) || (rem == half && hi % 2 == 1)
      | .rz => false
      | .rd => neg && rem != 0
      | .ru => !neg && rem != 0
    (if up then hi + 1 else hi, rem != 0)

/-- OverflowCode of R54. -/
def FPar.overflow (q : FPar) (neg : Bool) (rm : Rm) (sat : Bool) : Nat :=
  let toInf := !sat && (match rm with
    | .rne => true
    | .rz => false
    | .rd => neg
    | .ru => !neg)
  q.withSign neg (if toInf then q.infCode else q.infCode - 1)

/-- RoundToFormat of R53 for an FP target: the code and the conditions, in the order IV, DZ, OF, UF, NX. -/
def FPar.round (q : FPar) (x : XNum) (rm : Rm) (sat : Bool) : Nat × Nat :=
  match x with
  | .nan => (q.nanCode, 0)
  | .inf n => if sat then (q.withSign n (q.infCode - 1), cOF + cNX) else (q.withSign n q.infCode, 0)
  | .fin n m e =>
    if m = 0 then (q.withSign n 0, 0)
    else
      let top : Int := e + Nat.log2 m + 1
      let lsb := max (top - q.p) q.e0
      let (h, inexact) := roundInt n m e lsb rm
      let code := (lsb - q.e0).toNat * 2 ^ (q.p - 1) + h
      if q.infCode ≤ code then (q.overflow n rm sat, cOF + cNX)
      else
        let tiny := decide (code < 2 ^ (q.p - 1))
        (q.withSign n code, if inexact then cNX + (if tiny then cUF else 0) else 0)

/-! ### BEAD (R45 to R49) -/

/-- The length of the run of bits equal to `b` from bit `n − 1` of `c` downwards. -/
def runLength (c : Nat) (b : Bool) : Nat → Nat
  | 0 => 0
  | n + 1 => if bitOf c n = b then 1 + runLength c b n else 0

/-- The magnitude of a non-zero magnitude code: fraction with its leading one, and exponent (BeadDecode). -/
def beadMag (c w : Nat) : Nat × Int :=
  let b := bitOf c (w - 1)
  let n := runLength c b w
  let k : Int := if b then (n : Int) - 1 else -(n : Int)
  let rest := w - n - 1
  let e : Int := if 1 ≤ rest then (if bitOf c (rest - 1) then 1 else 0) else 0
  let fw := rest - 1
  (2 ^ fw + c % 2 ^ fw, 2 * k + e - fw)

/-- BeadDecode of R45. -/
def beadDecode (x w : Nat) : XNum :=
  let c := x % 2 ^ w
  let s := bitOf x w
  if c = 0 then (if s then .nan else XNum.zero)
  else .fin s (beadMag c w).1 (beadMag c w).2

/-- Compares two positive dyadic values. -/
def magLe (m1 : Nat) (e1 : Int) (m2 : Nat) (e2 : Int) : Bool := !(XNum.fin false m2 e2).lt (.fin false m1 e1)

/-- The greatest magnitude code whose value does not exceed `m × 2^e`; 0 when none (codes rise with magnitude, R47). -/
def beadFloor (m : Nat) (e : Int) (w : Nat) : Nat :=
  (List.range w).foldl (fun c i =>
    let c' := c + 2 ^ (w - 1 - i)
    if magLe (beadMag c' w).1 (beadMag c' w).2 m e then c' else c) 0

/-- RoundToFormat of R53 for a BEAD target of width w + 1. -/
def beadRound (x : XNum) (w : Nat) (rm : Rm) : Nat × Nat :=
  match x with
  | .nan => (2 ^ w, 0)
  | .inf n => ((if n then 2 ^ w else 0) + (2 ^ w - 1), cOF + cNX)
  | .fin n m e =>
    let top := 2 ^ w - 1
    let lo := if m = 0 then 0 else beadFloor m e w
    let vlo : XNum := if lo = 0 then XNum.zero else .fin false (beadMag lo w).1 (beadMag lo w).2
    let x := XNum.fin false m e
    let exact := !vlo.lt x
    let sgn := fun (c : Nat) => if n && c ≠ 0 then 2 ^ w + c else c
    if lo = top && !exact then (sgn top, cOF + cNX)
    else if exact then (sgn lo, 0)
    else
      let vhi := XNum.fin false (beadMag (lo + 1) w).1 (beadMag (lo + 1) w).2
      let sum := XNum.add .rne vlo vhi
      let dbl := XNum.fin false m (e + 1)
      let up := match rm with
        | .rne => sum.lt dbl || (!dbl.lt sum && lo % 2 = 1)
        | .rz => false
        | .rd => n
        | .ru => !n
      let c := if up then lo + 1 else lo
      (sgn c, if c = 0 then cUF + cNX else cNX)

/-! ### Integers (R44) -/

/-- RoundToFormat of R53 for an integer target with limits `lo` and `hi`: the value and the conditions. -/
def intRound (x : XNum) (lo hi : Int) (rm : Rm) : Int × Nat :=
  match x with
  | .nan => (0, cIV)
  | .inf n => (if n then lo else hi, cIV)
  | .fin n m e =>
    if m = 0 then (0, 0)
    else
      let (h, inexact) := if 64 ≤ e then (2 ^ 64, false) else roundInt n m e 0 rm
      let y := signed n h
      if y < lo then (lo, cIV) else if hi < y then (hi, cIV) else (y, if inexact then cNX else 0)

end Sys2Proof.Machine

namespace Sys2Proof

open Machine

/-! ### Every format (R40, R54) -/

/-- Bits of an element (R40, R153). -/
def Fmt.bits : Fmt → Nat
  | .fp32 | .int32 | .uint32 => 32
  | .fp16 | .bf16 => 16
  | .int8 | .bead8 => 8
  | .bead6 => 6
  | .int4 | .bead4 => 4

def Fmt.fpar? : Fmt → Option FPar
  | .fp32 => some p32
  | .fp16 => some p16
  | .bf16 => some pb16
  | _ => none
/-- w of R45. -/
def Fmt.beadW? : Fmt → Option Nat
  | .bead8 => some 7
  | .bead6 => some 5
  | .bead4 => some 3
  | _ => none
def Fmt.isInt (f : Fmt) : Bool := f.fpar?.isNone && f.beadW?.isNone

/-- A two's-complement value of `n` bits. -/
def signedOf (x n : Nat) : Int :=
  let v := x % 2 ^ n
  if n ≠ 0 && bitOf v (n - 1) then (v : Int) - 2 ^ n else v

/-- The value of an element's code; higher bits are ignored (R42, R44, R45, R154). -/
def Fmt.value (f : Fmt) (x : Nat) : XNum :=
  match f with
  | .fp32 => p32.decode (x % 2 ^ 32)
  | .fp16 => p16.decode (x % 2 ^ 16)
  | .bf16 => pb16.decode (x % 2 ^ 16)
  | .bead8 => beadDecode (x % 2 ^ 8) 7
  | .bead6 => beadDecode (x % 2 ^ 6) 5
  | .bead4 => beadDecode (x % 2 ^ 4) 3
  | .int8 => .ofInt (signedOf x 8) 0
  | .int4 => .ofInt (signedOf x 4) 0
  | .int32 => .ofInt (signedOf x 32) 0
  | .uint32 => .ofInt ((x % 2 ^ 32 : Nat) : Int) 0

/-- Limits of an integer format. -/
def Fmt.minInt : Fmt → Int
  | .int8 => -128
  | .int4 => -8
  | .int32 => -2147483648
  | _ => 0
def Fmt.maxInt : Fmt → Int
  | .int8 => 127
  | .int4 => 7
  | .int32 => 2147483647
  | _ => 4294967295

/-- RoundToFormat of R53: the code and the conditions. -/
def Fmt.round (f : Fmt) (x : XNum) (rm : Rm) (sat : Bool) : Nat × Nat :=
  match f.fpar?, f.beadW? with
  | some q, _ => q.round x rm sat
  | none, some w => beadRound x w rm
  | none, none =>
    let r := intRound x f.minInt f.maxInt rm
    ((r.1 % 2 ^ f.bits).toNat, r.2)

/-- NaNCode of R54; 0 for an integer format. -/
def Fmt.nanCode (f : Fmt) : Nat :=
  match f.fpar?, f.beadW? with
  | some q, _ => q.nanCode
  | none, some w => 2 ^ w
  | none, none => 0

/-- The code is a NaN of its format. -/
def Fmt.isNaN (f : Fmt) (x : Nat) : Bool := (f.value x).isNaN

/-- MaxCode of R54. -/
def Fmt.maxCode (f : Fmt) (neg : Bool) : Nat := (f.round (.fin neg 1 300) .rz true).1

/-- Cmax of R60. -/
def Fmt.cmax : Fmt → XNum
  | .fp16 => .fin false 16 0
  | .bf16 => .fin false 1 119
  | .int8 | .int4 => .fin false 1 (-1)
  | .bead8 => .fin false 1536 0
  | .bead6 => .fin false 96 0
  | .bead4 => .fin false 6 0
  | _ => XNum.zero

end Sys2Proof

namespace Sys2Proof.Machine

/-- fl32 of R53, as the code. -/
def fl32 (x : XNum) : Nat := (p32.round x .rne false).1

/-! ### Scales and the quantising conversion (R50 to R52, R59, R60) -/

/-- ScaleDecode of R50. -/
def scaleDecode (s : Nat) : XNum := if s = 0xFF then .nan else .fin false 1 ((s : Int) - 127)

/-- Deq of R52. -/
def deq (q : Nat) (f : Fmt) (s : Nat) : XNum := (f.value q).mul (scaleDecode s)

/-- QuantiseElement of R59: the code and the outgoing carry's bits. -/
def quantiseElement (v c : Nat) (f : Fmt) (s : Nat) : Nat × Nat :=
  if s = 0xFF then (f.nanCode, 0)
  else
    let m := scaleDecode s
    let vpc := fl32 ((p32.decode v).add .rne (p32.decode c))
    match p32.decode vpc with
    | .nan => (f.nanCode, 0)
    | .inf n => (f.maxCode n, 0)
    | .fin n k e =>
      let vp := XNum.fin n k e
      let r := f.round (.fin n k (e - ((s : Int) - 127))) .rne true
      let d := vp.add .rne (deq r.1 f s).neg
      let lim := f.cmax.mul m
      let d := if Nat.land r.2 (cOF + cIV) = 0 then d
        else if lim.lt d then lim else if d.lt lim.neg then lim.neg else d
      (r.1, if d.isZero then 0 else fl32 d)

/-! ### The matrix cell (R63 to R67) -/

/-- AccRound of R63. -/
def accRound (acc : Nat) (x : XNum) : Nat := if x.isZero then acc else fl32 ((p32.decode acc).add .rne x)

/-- The exact sum of terms. -/
def sumTerms (ts : List XNum) : XNum := ts.foldl (XNum.add .rne) XNum.zero

/-- Splits a list into groups of `g`. -/
def groupsOf {α : Type} (g : Nat) : Nat → List α → List (List α)
  | 0, _ => []
  | n + 1, l => if l.isEmpty then [] else l.take g :: groupsOf g n (l.drop g)

/-- CellSum of R64 over the terms of one cell in ascending index, with the row factor `f`; NBV 1 joins groups of `g`. -/
def cellSum (acc : Nat) (f : XNum) (ts : List XNum) (g : Nat) (nbv : Nat) : Nat :=
  if nbv = 1 then (groupsOf g ts.length ts).foldl (fun a grp => accRound a (f.mul (sumTerms grp))) acc
  else ts.foldl (fun a t => accRound a (f.mul t)) acc

end Sys2Proof.Machine
end

