-- ==== Sys2Proof/Machine/Float.lean ====
section
/-! DEFINITION. The floating-point instructions (R57, R58, R146 to R152). -/

namespace Sys2Proof

/-- The RM field over the fibre's dynamic mode. -/
def RmField.over (r : RmField) (dyn : Machine.Rm) : Machine.Rm :=
  match r with
  | .dyn => dyn
  | .rn => .rne
  | .rz => .rz
  | .rd => .rd
  | .ru => .ru

/-- The parameters of a floating-point group's format (R146). -/
def FFmt.fpar : FFmt → Machine.FPar
  | .fp32 => Machine.p32
  | .fp16 => Machine.p16
  | .bf16 => Machine.pb16

end Sys2Proof

namespace Sys2Proof.Machine

/-! ### Results with their conditions on one element -/

/-- A result and the conditions that arose: IV when an operand is a signalling NaN or when no operand is a NaN and the
result is one (R57, R58). R58's row of IV does not list 0/0 and inf/inf of FDIV; R57's IEEE 754 has both signal it.
`ops` are the operand codes. [DESIGN CHOICE, log 120] -/
def ieee (q : FPar) (rm : Rm) (ops : List Nat) (x : XNum) (cond : Nat) : Nat × Nat :=
  if ops.any q.isNaN then (q.nanCode, if ops.any q.isSNaN then cIV else cond)
  else if x.isNaN then (q.nanCode, cIV)
  else
    let r := q.round x rm false
    (r.1, Nat.lor r.2 cond)

def fpAdd (q : FPar) (rm : Rm) (a b : Nat) : Nat × Nat := ieee q rm [a, b] ((q.decode a).add rm (q.decode b)) 0
def fpSub (q : FPar) (rm : Rm) (a b : Nat) : Nat × Nat := ieee q rm [a, b] ((q.decode a).add rm (q.decode b).neg) 0
def fpMul (q : FPar) (rm : Rm) (a b : Nat) : Nat × Nat := ieee q rm [a, b] ((q.decode a).mul (q.decode b)) 0

/-- A × B + C with one rounding; `0 × ∞` signals IV whatever the addend is (R58). -/
def fpFma (q : FPar) (rm : Rm) (a b c : Nat) : Nat × Nat :=
  let p := (q.decode a).mul (q.decode b)
  let bad := p.isNaN && !q.isNaN a && !q.isNaN b
  ieee q rm [a, b, c] (p.add rm (q.decode c)) (if bad then cIV else 0)

/-- The quotient of two values that are no NaN, with DZ. -/
def quotient (x y : XNum) : XNum × Nat :=
  let s := x.sign != y.sign
  match x, y with
  | .inf _, .inf _ => (.nan, 0)
  | .inf _, _ => (.inf s, 0)
  | _, .inf _ => (.fin s 0 0, 0)
  | .fin _ m e, .fin _ k d =>
    if m = 0 then (if k = 0 then .nan else .fin s 0 0, 0)
    else if k = 0 then (.inf s, cDZ)
    else (divNum s m e k d, 0)
  | _, _ => (.nan, 0)
def fpDiv (q : FPar) (rm : Rm) (a b : Nat) : Nat × Nat :=
  let r := quotient (q.decode a) (q.decode b)
  ieee q rm [a, b] r.1 (if q.isNaN a || q.isNaN b then 0 else r.2)

/-- The square root; below zero other than −0 it has none (R58). -/
def squareRoot : XNum → XNum
  | .fin n m e => if m = 0 then .fin n 0 e else if n then .nan else sqrtNum m e
  | .inf n => if n then .nan else .inf n
  | .nan => .nan
def fpSqrt (q : FPar) (rm : Rm) (a : Nat) : Nat × Nat := ieee q rm [a] (squareRoot (q.decode a)) 0

/-- A below B, with −0 below +0 (R149). -/
def belowZeroed (x y : XNum) : Bool := if x.isZero && y.isZero then x.sign && !y.sign else x.lt y

/-- FMIN and FMAX of R149; `big` chooses the larger. -/
def fpMinMax (q : FPar) (big nan : Bool) (a b : Nat) : Nat × Nat :=
  let cond := if q.isSNaN a || q.isSNaN b then cIV else 0
  if (q.isNaN a && q.isNaN b) || (nan && (q.isNaN a || q.isNaN b)) then (q.nanCode, cond)
  else if q.isNaN a then (b, cond)
  else if q.isNaN b then (a, cond)
  else
    let less := belowZeroed (q.decode b) (q.decode a)
    (if less != big then b else a, 0)

/-- FCMP of R150. -/
def fpCompare (q : FPar) (c : FCond) (sgn : Bool) (a b : Nat) : Bool × Nat :=
  let un := q.isNaN a || q.isNaN b
  let lt := !un && (q.decode a).lt (q.decode b)
  let gt := !un && (q.decode b).lt (q.decode a)
  let eq := !un && !lt && !gt
  (match c with
    | .eq => eq
    | .ne => !eq
    | .lt => lt
    | .le => lt || eq
    | .gt => gt
    | .ge => gt || eq
    | .un => un
    | .or => !un,
   if q.isSNaN a || q.isSNaN b || (sgn && un) then cIV else 0)

/-- FABS and FNEG of R148: a NaN gives the canonical NaN, else only the sign bit changes. -/
def fpAbs (q : FPar) (a : Nat) : Nat := if q.isNaN a then q.nanCode else q.magOf a
def fpNeg (q : FPar) (a : Nat) : Nat := if q.isNaN a then q.nanCode else q.withSign (!q.negOf a) (q.magOf a)

/-- FCLASS of R152. -/
def fpClass (q : FPar) (a : Nat) : Nat :=
  let n := q.negOf a
  let c := q.magOf a
  2 ^ (if q.isSNaN a then 8 else if q.isNaN a then 9
    else if c = q.infCode then (if n then 0 else 7)
    else if c = 0 then (if n then 3 else 4)
    else if c < 2 ^ (q.p - 1) then (if n then 2 else 5)
    else (if n then 1 else 6))

/-! ### The functions of R151 -/

/-- ln 2 × 2^256, rounded down. -/
def ln2Fixed : Nat := 0xb17217f7d1cf79abc9e3b39803f2f6af40f343267298b62d8a0d175b8baafa2b

/-- The sum of the exponential series in 256-bit fixed point: `t` is the term of index k − 1. -/
def expSeries (x : Nat) : Nat → Nat → Nat → Nat → Nat
  | 0, _, _, acc => acc
  | fuel + 1, k, t, acc =>
    let t' := t * x / (k * 2 ^ 256)
    expSeries x fuel (k + 1) t' (acc + t')

/-- 2^x of a finite value; an exact power of two for an integer, else about 250 bits with a last bit of 1. Outside
−2^10 < x < 2^10 a value of the same side stands for it. -/
def exp2Num (neg : Bool) (m : Nat) (e : Int) : XNum :=
  if m = 0 then .fin false 1 0
  else if 10 ≤ e + Nat.log2 m then .fin false 1 (if neg then -1024 else 1024)
  else if 0 ≤ e then .fin false 1 (signed neg (m * 2 ^ e.toNat))
  else
    let d := (-e).toNat
    let x := signed neg m
    let n := x / 2 ^ d
    let r := (x % 2 ^ d).toNat
    if r = 0 then .fin false 1 n
    else
      let f := r * 2 ^ 256 / 2 ^ d
      let y := expSeries (f * ln2Fixed / 2 ^ 256) 64 1 (2 ^ 256) (2 ^ 256)
      stickyNum false y (n - 256) true

/-- The binary digits of log₂ y for 2^255 ≤ y < 2^256, by repeated squaring. -/
def log2Digits : Nat → Nat → Nat → Nat
  | 0, _, acc => acc
  | fuel + 1, y, acc =>
    let z := y * y / 2 ^ 255
    if z < 2 ^ 256 then log2Digits fuel z (2 * acc) else log2Digits fuel (z / 2) (2 * acc + 1)

/-- log₂ of a positive value: an integer for a power of two, else 200 binary places with a last bit of 1. -/
def log2Num (m : Nat) (e : Int) : XNum :=
  let l := Nat.log2 m
  let n := e + l
  if m = 2 ^ l then .ofInt n 0
  else
    let y := if l ≤ 255 then m * 2 ^ (255 - l) else m / 2 ^ (l - 255)
    let v : Int := n * 2 ^ 200 + log2Digits 200 y 0
    .ofInt (2 * v + 1) (-201)

/-- An approximation form of R151: to nearest even, and OF with NX the only conditions but those given. -/
def approx (q : FPar) (x : XNum) (cond : Nat) : Nat × Nat :=
  if x.isNaN then (q.nanCode, cond)
  else
    let r := q.round x .rne false
    (r.1, Nat.lor cond (if Nat.land r.2 cOF = 0 then 0 else cOF + cNX))

/-- The NaN row of R151. -/
def approxNaN (q : FPar) (a : Nat) : Nat × Nat := (q.nanCode, if q.isSNaN a then cIV else 0)

def fpRcp (q : FPar) (a : Nat) : Nat × Nat :=
  match q.decode a with
  | .nan => approxNaN q a
  | .inf n => approx q (.fin n 0 0) 0
  | .fin n m e => if m = 0 then approx q (.inf n) cDZ else approx q (divNum n 1 0 m e) 0

def fpRsq (q : FPar) (a : Nat) : Nat × Nat :=
  match q.decode a with
  | .nan => approxNaN q a
  | .inf n => if n then (q.nanCode, cIV) else approx q XNum.zero 0
  | .fin n m e => if m = 0 then approx q (.inf n) cDZ else if n then (q.nanCode, cIV) else approx q (rsqrtNum m e) 0

def fpExp2 (q : FPar) (a : Nat) : Nat × Nat :=
  match q.decode a with
  | .nan => approxNaN q a
  | .inf n => approx q (if n then XNum.zero else .inf false) 0
  | .fin n m e => approx q (exp2Num n m e) 0

def fpLog2 (q : FPar) (a : Nat) : Nat × Nat :=
  match q.decode a with
  | .nan => approxNaN q a
  | .inf n => if n then (q.nanCode, cIV) else approx q (.inf false) 0
  | .fin n m e => if m = 0 then approx q (.inf true) cDZ else if n then (q.nanCode, cIV) else approx q (log2Num m e) 0

/-! ### Elements in registers (R147) -/

/-- Element `j` of a source: the whole register for FP32, a 16-bit half otherwise. -/
def fpElem (m : FMode) (j : Nat) (a : Word) : Nat :=
  match m.fmt with
  | .fp32 => a.toNat
  | _ => bitsOf a.toNat (16 * j) 16

/-- Joins the results of the elements, with the conditions of both. -/
def fpJoin (m : FMode) (fn : Nat → Nat × Nat) : Word × Nat :=
  let r0 := fn 0
  if m.x2 then
    let r1 := fn 1
    (word (r0.1 + r1.1 * 2 ^ 16), Nat.lor r0.2 r1.2)
  else (word r0.1, r0.2)

/-- A lane's floating-point result: the destination's checks, the sources, the conditions, the write (R29, R147). -/
def fpLane (i : Instr) (d : BitVec 8) (s : State) (val : State → Nat → Res (Word × Nat)) : Out :=
  perLane i s fun _ s f _ => (need32 (s.fib f) d).bind fun _ => (val s f).bind fun r =>
    withConds s f r.2 fun s => put32 s f d r.1

def fp1 (i : Instr) (o : Un) (m : FMode) (s : State) (fn : Rm → Nat → Nat × Nat) : Out :=
  fpLane i o.d s fun s f => (src32 s f o.a).bind fun a =>
    .ok (fpJoin m fun j => fn (Rm.ofFpm (s.fib f).fpm) (fpElem m j a))

def fp2 (i : Instr) (o : Bin) (m : FMode) (s : State) (fn : Rm → Nat → Nat → Nat × Nat) : Out :=
  fpLane i o.d s fun s f => (src32 s f o.a).bind fun a => (src32 s f o.b).bind fun b =>
    .ok (fpJoin m fun j => fn (Rm.ofFpm (s.fib f).fpm) (fpElem m j a) (fpElem m j b))

/-! ### The instructions -/

def execFadd (g : Guard) (o : Bin) (m : FMode) (rm : RmField) (s : State) : Out :=
  fp2 (.fadd g o m rm) o m s fun r => fpAdd m.fmt.fpar (RmField.over rm r)
def execFsub (g : Guard) (o : Bin) (m : FMode) (rm : RmField) (s : State) : Out :=
  fp2 (.fsub g o m rm) o m s fun r => fpSub m.fmt.fpar (RmField.over rm r)
def execFmul (g : Guard) (o : Bin) (m : FMode) (rm : RmField) (s : State) : Out :=
  fp2 (.fmul g o m rm) o m s fun r => fpMul m.fmt.fpar (RmField.over rm r)
def execFfma (g : Guard) (o : Tri) (m : FMode) (rm : RmField) (s : State) : Out :=
  fpLane (.ffma g o m rm) o.d s fun s f => (src32 s f o.a).bind fun a => (src32 s f o.b).bind fun b =>
    (src32 s f o.c).bind fun c => .ok (fpJoin m fun j =>
      fpFma m.fmt.fpar (RmField.over rm (Rm.ofFpm (s.fib f).fpm)) (fpElem m j a) (fpElem m j b) (fpElem m j c))
def execFdiv (g : Guard) (o : Bin) (m : FMode) (rm : RmField) (s : State) : Out :=
  fp2 (.fdiv g o m rm) o m s fun r => fpDiv m.fmt.fpar (RmField.over rm r)
def execFsqrt (g : Guard) (o : Un) (m : FMode) (rm : RmField) (s : State) : Out :=
  fp1 (.fsqrt g o m rm) o m s fun r => fpSqrt m.fmt.fpar (RmField.over rm r)
def execFmin (g : Guard) (o : Bin) (m : FMode) (nan : Bool) (s : State) : Out :=
  fp2 (.fmin g o m nan) o m s fun _ => fpMinMax m.fmt.fpar false nan
def execFmax (g : Guard) (o : Bin) (m : FMode) (nan : Bool) (s : State) : Out :=
  fp2 (.fmax g o m nan) o m s fun _ => fpMinMax m.fmt.fpar true nan

def execFcmp (g : Guard) (p : BitVec 4) (a b : Src) (fmt : FFmt) (cond : FCond) (sgn : Bool) (s : State) : Out :=
  perLane (.fcmp g p a b fmt cond sgn) s fun _ s f _ => (src32 s f a).bind fun x => (src32 s f b).bind fun y =>
    let m : FMode := ⟨fmt, false⟩
    let r := fpCompare fmt.fpar cond sgn (fpElem m 0 x) (fpElem m 0 y)
    withConds s f r.2 fun s => putPred s f p r.1

def execFrcp (g : Guard) (o : Un) (m : FMode) (s : State) : Out := fp1 (.frcp g o m) o m s fun _ => fpRcp m.fmt.fpar
def execFrsq (g : Guard) (o : Un) (m : FMode) (s : State) : Out := fp1 (.frsq g o m) o m s fun _ => fpRsq m.fmt.fpar
def execFexp2 (g : Guard) (o : Un) (m : FMode) (s : State) : Out := fp1 (.fexp2 g o m) o m s fun _ => fpExp2 m.fmt.fpar
def execFlog2 (g : Guard) (o : Un) (m : FMode) (s : State) : Out := fp1 (.flog2 g o m) o m s fun _ => fpLog2 m.fmt.fpar
def execFabs (g : Guard) (o : Un) (m : FMode) (s : State) : Out :=
  fp1 (.fabs g o m) o m s fun _ a => (fpAbs m.fmt.fpar a, 0)
def execFneg (g : Guard) (o : Un) (m : FMode) (s : State) : Out :=
  fp1 (.fneg g o m) o m s fun _ a => (fpNeg m.fmt.fpar a, 0)
def execFclass (g : Guard) (o : Un) (m : FMode) (s : State) : Out :=
  fp1 (.fclass g o m) o m s fun _ a => (fpClass m.fmt.fpar a, 0)

end Sys2Proof.Machine
end

