-- ==== Sys2Proof/Machine/Convert.lean ====
section
/-! DEFINITION. Conversions, packing and unpacking, and the predicate instructions (R153 to R156). -/

namespace Sys2Proof.Machine

/-- A code placed in a lane register: INT8 and INT4 sign-extended, all others zero-extended (R154). -/
def placeCode (f : Fmt) (code : Nat) : Word :=
  match f with
  | .int8 | .int4 => BitVec.ofInt 32 (signedOf code f.bits)
  | _ => word (code % 2 ^ f.bits)

/-- The source code is a signalling NaN of its format; only the FP formats have them (R43). -/
def isSignalling (f : Fmt) (x : Nat) : Bool :=
  match f.fpar? with
  | some q => q.isSNaN (x % 2 ^ f.bits)
  | none => false

/-- The pairs of R55 that are exact although SAT could act: an infinity stays an infinity. -/
def satActs (dst src : Fmt) : Bool := !(dst = .fp32 && (src = .fp16 || src = .bf16))

/-- The conversion of R153: the placed result and the conditions. -/
def convert (dst src : Fmt) (rm : Rm) (sat : Bool) (a : Word) : Word × Nat :=
  let x := a.toNat % 2 ^ src.bits
  if dst = src then (placeCode dst (if src.fpar?.isSome && src.isNaN x then src.nanCode else x), 0)
  else
    let r := dst.round (src.value x) rm (sat && satActs dst src)
    (placeCode dst r.1, if isSignalling src x then Nat.lor r.2 cIV else r.2)

def execCvt (g : Guard) (d : BitVec 8) (a : Src) (dst src : Fmt) (rm : RmField) (sat : Bool) (s : State) : Out :=
  fpLane (.cvt g d a dst src rm sat) d s fun s f => (src32 s f a).bind fun x =>
    .ok (convert dst src (rm.over (Rm.ofFpm (s.fib f).fpm)) sat x)

/-- Bits of a slot (R155). -/
def slotBits : SlotW → Nat
  | .e4 => 4 | .e6 => 6 | .e8 => 8 | .e16 => 16

/-- PACK of R155: slot `j` of `c` replaced by the low bits of `a`. -/
def packWord (w : SlotW) (j : Nat) (a c : Word) : Word :=
  let n := slotBits w
  let m : Word := word ((2 ^ n - 1) * 2 ^ (n * j))
  (c &&& ~~~m) ||| (shlBits a (n * j) &&& m)

/-- UNPK of R155. -/
def unpackWord (w : SlotW) (j : Nat) (sgn : Bool) (a : Word) : Word :=
  let n := slotBits w
  let x := bitsOf a.toNat (n * j) n
  if sgn then BitVec.ofInt 32 (signedOf x n) else word x

def execPack (g : Guard) (d : BitVec 8) (a c : Src) (w : SlotW) (j : BitVec 3) (s : State) : Out :=
  lane32 (.pack g d a c w j) d s fun s f => (src32 s f a).bind fun x => (src32 s f c).bind fun y =>
    .ok (packWord w j.toNat x y)
def execUnpk (g : Guard) (d : BitVec 8) (a : Src) (w : SlotW) (j : BitVec 3) (sgn : Bool) (s : State) : Out :=
  lane32 (.unpk g d a w j sgn) d s fun s f => (src32 s f a).bind fun x => .ok (unpackWord w j.toNat sgn x)

/-! ### Predicates (R156) -/

/-- A two-source predicate operation. -/
def pred2 (i : Instr) (p a b : BitVec 4) (na nb : Bool) (s : State) (fn : Bool → Bool → Bool) : Out :=
  lanePred i p s fun s f => .ok (fn ((s.fib f).pred a.toNat != na) ((s.fib f).pred b.toNat != nb))
def execPand (g : Guard) (p a b : BitVec 4) (na nb : Bool) (s : State) : Out :=
  pred2 (.pand g p a b na nb) p a b na nb s and
def execPor (g : Guard) (p a b : BitVec 4) (na nb : Bool) (s : State) : Out :=
  pred2 (.por g p a b na nb) p a b na nb s or
def execPxor (g : Guard) (p a b : BitVec 4) (na nb : Bool) (s : State) : Out :=
  pred2 (.pxor g p a b na nb) p a b na nb s xor
def execPnot (g : Guard) (p a : BitVec 4) (s : State) : Out :=
  lanePred (.pnot g p a) p s fun s f => .ok (!(s.fib f).pred a.toNat)
def execPset (g : Guard) (p : BitVec 4) (a : Src) (z : Bool) (s : State) : Out :=
  lanePred (.pset g p a z) p s fun s f => (src32 s f a).bind fun x => .ok (if z then x == 0 else x != 0)

end Sys2Proof.Machine
end

