-- ==== Sys2Proof/Machine/Cross.lean ====
section
/-! DEFINITION. Cross-lane instructions and special-register moves (R34, R157 to R163). -/

namespace Sys2Proof.Machine

/-- Lanes of a fixed group. -/
def groupSize : Group → Nat
  | .g8 => 8 | .g2 => 2 | .g4 => 4

/-- The lanes of the fixed group that holds lane `l`, as a mask (R157). -/
def groupMask (p : Group) (l : Nat) : Mask :=
  let n := groupSize p
  BitVec.ofNat 8 ((2 ^ n - 1) * 2 ^ (l / n * n))

/-- A value that each lane of a mask supplies, read before any write (R37); a lane that raises supplies none (R157). -/
def supplied {α : Type} (s : State) (g : Mask) (val : Nat → Nat → Res α) : List (Nat × Res α) :=
  match s.runs with
  | [] => []
  | r :: _ => g.lanes.filterMap fun l => ((s.flk r.flock).fibreAt l).map fun f => (l, val f l)

/-- The lanes and values that take part. -/
def takingPart {α : Type} (vs : List (Nat × Res α)) : List (Nat × α) :=
  vs.filterMap fun v => match v.2 with
    | .ok a => some (v.1, a)
    | _ => none

/-- part(l) of R157 within the lanes that take part. -/
def partOf (p : Part) (l : Nat) (c : Word) : Mask :=
  match p with
  | .fixed g => groupMask g l
  | .mask _ => c.setWidth 8 ||| Mask.one l

/-- Issues a cross-lane instruction: `val` is what a lane supplies (its checks included), `fin` the write of a lane from
its own value and those of all lanes that take part. -/
def crossLane {α : Type} (i : Instr) (s : State) (val : State → Nat → Res α)
    (fin : State → Nat → Nat → α → List (Nat × α) → State) : Out :=
  perLane i s fun g s1 f l =>
    let vs := supplied s g fun f' _ => val s f'
    (val s f).bind fun a => .ok (.next, fin s1 f l a (takingPart vs))

/-- A 32-bit or 64-bit source as 64 bits. -/
def srcWide (s : State) (f : Nat) (dbl : Bool) (a : Src) : Res DWord :=
  if dbl then src64 s f a else (src32 s f a).map fun x => x.setWidth 64
/-- The destination checks of a 32-bit or 64-bit result. -/
def needWide (x : Fibre) (dbl : Bool) (d : BitVec 8) : Res Unit := if dbl then need64 x d else need32 x d
def putWide (s : State) (f : Nat) (dbl : Bool) (d : BitVec 8) (v : DWord) : State :=
  if dbl then put64 s f d v else put32 s f d (lowWord v)

/-- The mask operand of a partition, zero for a fixed group. -/
def partSrc (s : State) (f : Nat) : Part → Res Word
  | .fixed _ => .ok 0
  | .mask c => src32 s f c

/-- The values of the lanes of part(l), ascending. -/
def inPart {α : Type} (p : Part) (l : Nat) (c : Word) (vs : List (Nat × α)) : List (Nat × α) :=
  vs.filter fun v => (partOf p l c).has v.1

def execPart (g : Guard) (d : BitVec 8) (a : Src) (pw : Group) (dbl : Bool) (s : State) : Out :=
  crossLane (.part g d a pw dbl) s (fun s f => (need32 (s.fib f) d).bind fun _ => srcWide s f dbl a)
    fun s f l v vs => put32 s f d
      ((Mask.ofLanes (((inPart (.fixed pw) l 0 vs).filter fun w => w.2 = v).map (·.1))).setWidth 32)

/-- The source lane of R158. -/
def shflSource (m : ShflMode) (p : Group) (l : Nat) (n : Nat) : Option Nat :=
  let size := groupSize p
  let b := l / size * size
  match m with
  | .idx => some (b + n % size)
  | .up => if n < size && b + n ≤ l then some (l - n) else none
  | .down => if n < size && l + n < b + size then some (l + n) else none
  | .xor => if n < size then some (Nat.xor l n) else none

def execShfl (g : Guard) (d : BitVec 8) (a b : Src) (pw : Group) (mode : ShflMode) (dbl : Bool) (s : State) : Out :=
  crossLane (.shfl g d a b pw mode dbl) s
    (fun s f => (needWide (s.fib f) dbl d).bind fun _ => (srcWide s f dbl a).bind fun x => (src32 s f b).bind fun n =>
      .ok (x, n))
    fun s f l v vs => putWide s f dbl d (((shflSource mode pw l v.2.toNat).bind fun k => tabGet vs k).getD v).1

/-- The predicate that an operand field names. -/
def predSrc (s : State) (f : Nat) (a : Src) : Bool := (s.fib f).pred a.num.toNat

/-- VOTE (R159): what a lane supplies is its A and its mask. -/
def execVote (g : Guard) (d : BitVec 8) (a : Src) (pw : Part) (mode : VoteMode) (dbl : Bool) (s : State) : Out :=
  crossLane (.vote g d a pw mode dbl) s
    (fun s f => (match mode with | .ballot => need32 (s.fib f) d | _ => .ok ()).bind fun _ =>
      (match mode with
        | .eq => srcWide s f dbl a
        | _ => .ok (if predSrc s f a then 1 else 0)).bind fun x => (partSrc s f pw).bind fun c => .ok (x, c))
    fun s f l v vs =>
      let ws := inPart pw l v.2 vs
      match mode with
      | .any => putPred s f (d.setWidth 4) (ws.any fun w => w.2.1 ≠ 0)
      | .all => putPred s f (d.setWidth 4) (ws.all fun w => w.2.1 ≠ 0)
      | .ballot => put32 s f d ((Mask.ofLanes ((ws.filter fun w => w.2.1 ≠ 0).map (·.1))).setWidth 32)
      | .eq => putPred s f (d.setWidth 4) (ws.all fun w => w.2.1 = v.1)

/-- One step of a reduction (R160), on 32-bit values held in 64 bits unless `dbl`. [DEDUCED, log 52] -/
def reduStep (op : ReduOp) (dbl : Bool) (x y : DWord) : DWord :=
  let on := fun (w32 : Word → Word → Word) (w64 : DWord → DWord → DWord) =>
    if dbl then w64 x y else (w32 (lowWord x) (lowWord y)).setWidth 64
  match op with
  | .add => on (· + ·) (· + ·)
  | .min => on (minWord false) (minWord false)
  | .max => on (maxWord false) (maxWord false)
  | .minu => on (minWord true) (minWord true)
  | .maxu => on (maxWord true) (maxWord true)
  | .and => on (· &&& ·) (· &&& ·)
  | .or => on (· ||| ·) (· ||| ·)
  | .xor => on (· ^^^ ·) (· ^^^ ·)
  | .fadd => dword (fpAdd p32 .rne (lowWord x).toNat (lowWord y).toNat).1
  | .fmin => dword (fpMinMax p32 false false (lowWord x).toNat (lowWord y).toNat).1
  | .fmax => dword (fpMinMax p32 true false (lowWord x).toNat (lowWord y).toNat).1

/-- A NaN result of an FP32 reduction is canonical, a partition of one lane included (R43, R160). -/
def reduResult (op : ReduOp) (x : DWord) : DWord :=
  match op with
  | .fadd | .fmin | .fmax => if p32.isNaN (lowWord x).toNat then dword p32.nanCode else x
  | _ => x

/-- The reduction of values in ascending lane order (R160). [DEDUCED, log 52] -/
def reduce (op : ReduOp) (dbl : Bool) : List DWord → DWord
  | [] => 0
  | x :: r => reduResult op (r.foldl (reduStep op dbl) x)

def execRedu (g : Guard) (d : BitVec 8) (a : Src) (pw : Part) (op : ReduOp) (dbl : Bool) (s : State) : Out :=
  crossLane (.redu g d a pw op dbl) s
    (fun s f => (needWide (s.fib f) dbl d).bind fun _ => (srcWide s f dbl a).bind fun x =>
      (partSrc s f pw).bind fun c => .ok (x, c))
    fun s f l v vs => putWide s f dbl d (reduce op dbl ((inPart pw l v.2 vs).map fun w => w.2.1))

/-- MOVU (R162): the selected lane is chosen among the lanes that raise nothing (R157). -/
def execMovu (g : Guard) (d : BitVec 8) (a : BitVec 8) (sel : MovuSel) (dbl : Bool) (s : State) : Out :=
  perLane (.movu g d a sel dbl) s fun gm s1 f l =>
    let val := fun f' => srcWide s f' dbl (.v a)
    let vs := takingPart (supplied s gm fun f' _ => val f')
    (val f).bind fun v =>
      let chosen : Option Nat := match sel with
        | .lo => (vs.head?).map (·.1)
        | .hi => (vs.getLast?).map (·.1)
        | .lane n => some n.toNat
      .ok (.next, if chosen = some l then setSreg s1 f d v else s1)

/-! ### Special registers (R34, R163) -/

/-- The value of special register `n` and whether it is 64 bits wide; none where R34 lists no such number. -/
def specialReg (s : State) (f : Nat) (n : Nat) : Option (Bool × DWord) :=
  let x := s.fib f
  let t := s.tm x.team
  match n with
  | 0x00 => some (false, match x.loc with | .flock k => (s.flk k).efm.setWidth 64 | _ => 0)
  | 0x01 => some (true, dword x.vst)
  | 0x02 => some (true, x.hch)
  | 0x03 => some (false, t.nbv.setWidth 64)
  | 0x04 => some (false, x.fpm.setWidth 64)
  | 0x05 => some (false, t.pl.setWidth 64)
  | 0x08 => some (true, foldWord (x.fd.getD 0 none))
  | 0x09 => some (true, foldWord (x.fd.getD 1 none))
  | 0x0A => some (true, foldWord (x.fd.getD 2 none))
  | 0x0B => some (true, foldWord (x.fd.getD 3 none))
  | 0x10 => some (false, dword x.cfMask)
  | 0x11 => some (false, x.preds.setWidth 64)
  | 0x20 => some (false, dword x.home)
  | 0x21 => some (false, dword x.index)
  | 0x22 => some (false, dword t.index)
  | 0x23 => some (false, dword t.devIndex)
  | 0x24 => some (false, dword x.role)
  | 0x25 => some (false, dword x.alloc)
  | 0x26 => some (false, t.gen.setWidth 64)
  | _ => none

/-- SRD (R34, R163): a number or an access that R34 refuses raises 0x0F before a lane register outside the allocation raises
0x0A. [DESIGN CHOICE, log 121] -/
def execSrd (g : Guard) (ud : Bool) (d : BitVec 8) (n : BitVec 8) (s : State) : Out :=
  if ud then perFlock (.srd g ud d n) s fun s f _ =>
    match specialReg s f n.toNat with
    | none => .bad (illegal 0x0F)
    | some (_, v) => .ok (setSreg s f d v)
  else perLane (.srd g ud d n) s fun _ s f _ =>
    match specialReg s f n.toNat with
    | none => .bad (illegal 0x0F)
    | some (wide, v) => (needWide (s.fib f) wide d).bind fun _ => .ok (.next, putWide s f wide d v)

/-- SWR writes FPM and P1 to P15 only (R34, R163): a number that it may not write raises 0x0F before a lane register outside
the allocation raises 0x0A. [DESIGN CHOICE, log 121] -/
def execSwr (g : Guard) (n : BitVec 8) (a : Src) (s : State) : Out :=
  perLane (.swr g n a) s fun _ s f _ =>
    if n = 0x04 then (src32 s f a).bind fun v => .ok (.next, s.modFib f fun x => { x with fpm := writeFpm v })
    else if n = 0x11 then (src32 s f a).bind fun v =>
      .ok (.next, s.modFib f fun x => { x with preds := v.setWidth 16 ||| 1#16 })
    else .bad (illegal 0x0F)

end Sys2Proof.Machine
end

