-- ==== Sys2Proof/Machine/FoldOps.lean ====
section
/-! DEFINITION. Shared operations of folds and of scratchpad areas (R184 to R187, R311, R341, R342). -/

namespace Sys2Proof.Machine

/-- The slot of a fibre that holds a fold. -/
def Fibre.slotOf (x : Fibre) (t : FoldTag) : Option Nat :=
  indexOf? (fun o => match o with | some sl => decide (sl.tag = t) | none => false) x.fd 0

/-- Sets a fold slot. -/
def Fibre.setSlot (x : Fibre) (n : Nat) (o : Option FoldSlot) : Fibre := { x with fd := setAt x.fd n o }

/-- Drops the stores of a fold that are on their way, and ends their operations for every fibre that has a flag on them
(R173, R187). -/
def dropFoldStores (s : State) (t : FoldTag) (f : Nat) : State :=
  let mine := fun (r : StoreReq) => decide (r.fold = some t)
  let toks := ((s.fib f).queue ++ (s.core (s.fib f).core).order).filterMap fun r => if mine r then r.tok else none
  let s1 := s.modFib f fun x => { x with queue := x.queue.filter fun r => !mine r }
  let s2 := { s1 with cores := s1.cores.map fun c => (c.1, { c.2 with order := c.2.order.filter fun r => !mine r }) }
  toks.foldl (fun s k => s.finishTok k) s2

/-- Discards every pending version of a fold at its home (R187, R342). -/
def discardPend (s : State) (t : FoldTag) : State :=
  match s.foldRec t with
  | none => s
  | some r => r.lines.foldl (fun s l => s.modLine l fun x =>
      match x.pend with
      | some p => if p.fold = t then { x with pend := none } else x
      | none => x) s

/-- Returns a fold's record to its context's pool. -/
def dropFoldRec (s : State) (t : FoldTag) : State :=
  match s.foldRec t with
  | none => s
  | some r => ({ s with folds := s.folds.filter fun q => q.tag ≠ t }).modCtx r.ctx fun c => { c with folds := c.folds - 1 }

/-- Ends an open fold without commitment (R187): stores, pending versions and record go. -/
def discardFold (s : State) (t : FoldTag) (f : Nat) : State := dropFoldRec (discardPend (dropFoldStores s t f) t) t

/-! ### Scratchpad areas (R311) -/

/-- Bytes of a core's scratchpad. -/
def scratchBytes : Nat := 4194304

/-- Area kinds: the core area, the export area, a lane-private slice. -/
def areaCore : Nat := 0
def areaExport : Nat := 1
def areaSlice : Nat := 2

/-- The lowest 128-aligned free range of `n` bytes; 0 for no bytes. -/
def Core.freeArea (c : Core) (n : Nat) : Option Nat :=
  if n = 0 then some 0
  else
    let cand := 0 :: c.areas.map fun a => roundUp (a.2.2.1 + a.2.2.2) 128
    (cand.filter fun b => b + n ≤ scratchBytes
        && c.areas.all fun a => a.2.2.2 = 0 || b + n ≤ a.2.2.1 || a.2.2.1 + a.2.2.2 ≤ b).foldl
      (fun m b => match m with
        | none => some b
        | some x => some (Nat.min x b)) none

/-- Grants an area: zeroed, its lines full (R314, R328). -/
def grantArea (s : State) (core team kind n : Nat) : Option (Nat × State) :=
  ((s.core core).freeArea n).map fun b =>
    let lo := lineOf (scratchKey core b)
    let s0 := s.zero (scratchKey core b) n
    let s1 := { s0 with lines := s0.lines.filter fun l => l.1 < lo || lo + n / 128 ≤ l.1 }
    (b, s1.modCore core fun c => { c with
      areas := if n = 0 && kind ≠ areaCore && kind ≠ areaExport then c.areas else c.areas ++ [(team, kind, b, n)],
      emptyLines := c.emptyLines.filter fun l => l.1 * 128 + 128 ≤ b || b + n ≤ l.1 * 128 })

/-- Frees the area of a team at a base. -/
def freeArea (s : State) (core team kind base : Nat) : State :=
  s.modCore core fun c => { c with
    areas := c.areas.filter fun a => !(a.1 = team && a.2.1 = kind && a.2.2.1 = base) }

end Sys2Proof.Machine
end

