-- ==== Sys2Proof/Machine/TileOps.lean ====
section
/-! DEFINITION. Tile handles and entries (R197 to R199). -/

namespace Sys2Proof.Machine

/-- The key under which a core keeps the generation of a freed entry: team and TN. -/
def handleTn (h : Nat) : Nat := bitsOf h 0 11
def handleCx (h : Nat) : Nat := bitsOf h 11 2
def handleGen (h : Nat) : Nat := bitsOf h 13 2

/-- The entry that a handle names, under R197. -/
def namedTile (s : State) (team h : Nat) : Option TileRef :=
  if h / 2 ^ 15 ≠ 0 then none
  else match (s.tm team).cores[handleCx h]? with
    | none => none
    | some c =>
      let key := tileKey team (handleTn h)
      match tabGet (s.core c).tiles key with
      | some t => if t.gen = handleGen h then some ⟨c, key⟩ else none
      | none => none

/-- The entry of a reference. -/
def State.tile (s : State) (r : TileRef) : Option Tile := tabGet (s.core r.core).tiles r.key
def State.modTile (s : State) (r : TileRef) (g : Tile → Tile) : State :=
  s.modCore r.core fun c => { c with tiles := tabMod c.tiles r.key g }

/-- Code of a tile's state (R203). -/
def TileSt.code : TileSt → Nat
  | .empty => 0 | .filling => 1 | .ready => 2 | .draining => 3

end Sys2Proof.Machine
end

