-- ==== Sys2Proof/Machine/Control.lean ====
section
/-! DEFINITION. Branches, calls, returns, and fibre and flock control (R104 to R124). -/

namespace Sys2Proof.Machine

/-! ### Transfers -/

/-- A BRN target (R91). -/
def brnTarget (r : Run) (off : BitVec 24) : DWord := r.wordAddr + (off.signExtend 64) * 8

/-- A target outside the 54-bit space raises ILLEGAL 0x10 (R91). -/
def needTarget (t : DWord) : Res Unit := Res.guard (t.toNat / 2 ^ 54 = 0) (illegal 0x10)

/-- Sets the PC of a lane to its transfer target; bits [2:0] of a PC are zero (R16, R91, R105). -/
def setTarget (s : State) (f : Nat) (t : DWord) : State :=
  s.modFib f fun x => { x with pc := t &&& ~~~7#64, pck := .transfer }

/-- Transfers a lane. -/
def transfer (s : State) (f : Nat) (t : DWord) : Res (Adv × State) :=
  (needTarget t).bind fun _ => .ok (.moved, setTarget s f t)

/-- A marker in a lane pair raises BIND (R437). -/
def bindCheck (m : DWord) (reg : Nat) (acc : Acc) : Res Unit :=
  if m.toNat / 2 ^ 55 = 0x1FF then
    let ea := m.toNat % 2 ^ 54 / 8 * 8
    .bad { effBind (addrWord ea acc.code false) with park := some (.bind (dword ea) reg) }
  else .ok ()

/-- A 64-bit source whose marker raises BIND when it is a lane pair. -/
def srcBind (s : State) (f : Nat) (a : Src) (acc : Acc) : Res DWord :=
  (src64 s f a).bind fun v => match a with
    | .v n => (bindCheck v n.toNat acc).bind fun _ => .ok v
    | .s _ => .ok v

def execBra (g : Guard) (off : BitVec 24) (s : State) : Out :=
  perLane (.bra g off) s fun _ s1 f _ => transfer s1 f (brnTarget s.run off)

def execCall (g : Guard) (d : BitVec 8) (off : BitVec 24) (s : State) : Out :=
  perLane (.call g d off) s fun _ s1 f _ => (need64 (s1.fib f) d).bind fun _ =>
    (transfer s1 f (brnTarget s.run off)).map fun r => (r.1, put64 r.2 f d s.run.nextHeader)

/-- Pushes a segment: CALLS and HINST (R116, R125). -/
def pushSegment (s : State) (f : Nat) (rpc kind hlink eid ent hpc : Nat) : Res (Nat × State) :=
  match takeSeg s (s.ctxOf f) with
  | none => .bad (noSegment s f)
  | some (a, s1) =>
    let s2 := touchSeg (s1.putLink a (s.fib f).top.toNat rpc kind hlink eid ent hpc) (s.fib f).core a
    .ok (a, s2.modFib f fun x => { x with top := dword a })

def execCalls (g : Guard) (d : BitVec 8) (off : BitVec 24) (s : State) : Out :=
  perLane (.calls g d off) s fun _ s1 f _ => (need64 (s1.fib f) d).bind fun _ =>
    (needTarget (brnTarget s.run off)).bind fun _ =>
      (pushSegment s1 f s.run.nextHeader.toNat 0 0 0 0 0).bind fun p =>
        .ok (.moved, setTarget (put64 p.2 f d (dword (p.1 + 0x40))) f (brnTarget s.run off))

def execRet (g : Guard) (a : Src) (s : State) : Out :=
  perLane (.ret g a) s fun _ s1 f _ => (srcBind s1 f a .fetch).bind fun t => transfer s1 f t

/-- Where a segment's RPC leads: 0 means the header that follows the clause (R106). [DEDUCED, log 25] -/
def leaveTo (s : State) (f rpc : Nat) (r : Run) : State :=
  if rpc = 0 then s.modFib f (toNextHeader r) else setTarget s f (dword rpc)

/-- The link block of the fibre's top segment, read by RET.S and HDROP: sound (R457), and its segment in the core's segment cache
(R325). -/
def readLink (s : State) (f : Nat) : Res State :=
  (s.sound (s.fib f).top.toNat 0x40).bind fun _ => .ok (touchSegs s f [(s.fib f).top.toNat])

/-- RET.S (R117): the KIND check, the target check, then the segment is left and freed. -/
def execRetS (g : Guard) (s : State) : Out :=
  perLane (.retS g) s fun _ s0 f _ => (readLink s0 f).bind fun s1 =>
    let top := (s1.fib f).top.toNat
    let kind := s1.num (top + 0x10) 1
    if kind = 2 then .bad (illegal 0x21)
    else if kind ≠ 0 then .bad (illegal 0x20)
    else (needTarget (dword (s1.segRpc top))).bind fun _ =>
      let s2 := s1.modFib f fun x => { x with top := dword (s1.segPrev top) }
      .ok (.moved, freeSeg (leaveTo s2 f (s1.segRpc top) s.run) (s1.ctxOf f) top)

/-- The target that a permitted-target table gives (R118, R119). -/
def tableTarget (s : State) (f : Nat) (i : Word) (t : DWord) : Res (DWord × State) :=
  (loadNum s f t 8 8 .table).bind fun h =>
    let n := h.1 % 2 ^ 32
    if h.1 / 2 ^ 32 ≠ 0 || n = 0 || 4096 < n then .bad (illegal 0x26)
    else if n ≤ i.toNat then .bad (illegal 0x24)
    else (loadNum h.2 f (t + 8 + 4 * i.setWidth 64) 4 4 .table).bind fun e =>
      .ok (t + 8 * (BitVec.ofNat 32 e.1).signExtend 64, e.2)

def execBrx (g : Guard) (a b : Src) (s : State) : Out :=
  perLane (.brx g a b) s fun _ s1 f _ => (src32 s1 f a).bind fun i => (srcBind s1 f b .table).bind fun t =>
    (tableTarget s1 f i t).bind fun r => transfer r.2 f r.1

def execCallx (g : Guard) (d : BitVec 8) (a b : Src) (s : State) : Out :=
  perLane (.callx g d a b) s fun _ s1 f _ => (need64 (s1.fib f) d).bind fun _ =>
    (src32 s1 f a).bind fun i => (srcBind s1 f b .table).bind fun t => (tableTarget s1 f i t).bind fun r =>
      (transfer r.2 f r.1).map fun q => (q.1, put64 q.2 f d s.run.nextHeader)

/-! ### Fibre and flock control -/

def execNop (g : Guard) (s : State) : Out := perLane (.nop g) s fun _ s _ _ => .ok (.next, s)

/-- A flock's S64 to S127 take an undefined value (R20, R122). -/
def scrambleSu (s : State) (k : Nat) : State :=
  let (vs, s1) := s.drawMany 64
  s1.modFlk k fun fl => { fl with su := vs }

/-- REFORM (R122). -/
def execReform (g : Guard) (s : State) : Out :=
  perLane (.reform g) s fun _ s1 f _ => (drained s1 [f]).bind fun s2 =>
    .ok (.left, scrambleSu (penFile (leaveFlock (s2.modFib f (toNextHeader s.run)) f) f) s.run.flock)

/-- BACKOFF (R123): the flock's step and hold-off change; every active lane advances. -/
def execBackoff (g : Guard) (p : BitVec 4) (s : State) : Out :=
  match s.runs with
  | [] => .fault .noRun
  | r :: _ =>
    let polled := (actingMask s r g).lanes.filterMap (s.flk r.flock).fibreAt
    let failed := polled.any fun f => (s.fib f).pred p.toNat
    let o := openOuts s r 0
    let s1 := o.s.modFlk r.flock fun k =>
      let step := if failed then Nat.min (k.step + 1) 7 else 0
      { k with step := step, holdoff := decide (step ≠ 0) }
    .next (settle s r true { o with s := s1 })

/-- Ends the fold slots of an exiting fibre (R121): open ones abort, the others empty; a sealing one must end first. -/
def exitFolds (s : State) (f : Nat) : Res State :=
  Res.foldM (fun s n => match (s.fib f).fd.getD n none with
    | none => .ok s
    | some sl => match sl.st with
      | .sealing => .wait
      | .open => .ok ((discardFold s sl.tag f).modFib f fun x => x.setSlot n none)
      | _ => .ok (s.modFib f fun x => x.setSlot n none)) s [0, 1, 2, 3]

/-- Removes a fibre from the machine: chain, slice, place, registers. -/
def removeFibre (s : State) (f : Nat) : State :=
  let x := s.fib f
  let s1 := (chainOf s 0 s.chainFuel x.top.toNat).foldl (fun s a => freeSeg s (s.ctxOf f) a) s
  let s2 := freeArea (leaveFlock s1 f) x.core x.team areaSlice x.slice
  s2.delFib f

/-- EXIT (R121, R350): its drain reports nothing of a write-back that is refused or meets a contained agent. -/
def execExit (g : Guard) (s : State) : Out :=
  perLane (.exit g) s fun _ s1 f _ =>
    if !(s1.fib f).pending.isEmpty then .wait
    else (exitDrain s1 f).bind fun s2 => (exitFolds s2 f).bind fun s3 => .ok (.left, removeFibre s3 f)

/-- A key for a new fibre. -/
def freshFibre (s : State) : Nat := Nat.max (tabFresh s.fibres 0) s.seq

/-- Fibres of a team. -/
def State.teamFibres (s : State) (t : Nat) : List (Nat × Fibre) := s.fibres.filter fun p => p.2.team = t

/-- The core and home lane of a new fibre of N registers, and its slice (R257, R311). -/
def spawnPlace (s : State) (t n : Nat) : Option (Nat × Nat) :=
  let tm := s.tm t
  let lanes := fun (c : Nat) => (List.range 8).filter fun l => s.laneFits c l n
  let ok := tm.cores.filter fun c => !(lanes c).isEmpty && ((s.core c).freeArea tm.p).isSome
  let load := fun (c : Nat) => ((s.teamFibres t).filter fun p => p.2.core = c).length
  let best := ok.foldl (fun (b : Option Nat) c => match b with
    | none => some c
    | some d => if load c < load d then some c else b) none
  best.bind fun c => ((lanes c).foldl (fun (b : Option Nat) l => match b with
    | none => some l
    | some m => if (s.laneFibres c l).length < (s.laneFibres c m).length then some l else b) none).map fun l => (c, l)

/-- The lowest fibre index that no fibre of the team holds (R124). -/
def freeIndex (s : State) (t : Nat) : Nat :=
  let used := (s.teamFibres t).map fun p => p.2.index
  ((List.range (used.length + 1)).find? fun i => !used.contains i).getD used.length

/-- Creates a fibre with the initial state of R16, its base segment and its slice, at a place; not yet filed. -/
def createFibre (s : State) (t role n idx core lane : Nat) (pc : DWord) (vst : Nat) : Option (Nat × State) :=
  (takeSeg s (s.tm t).ctx).bind fun seg => (grantArea seg.2 core t areaSlice (s.tm t).p).map fun ar =>
    let f := freshFibre ar.2
    let s1 := touchSeg (ar.2.putLink seg.1 0 0 2 0 0 0 0) core seg.1
    let x : Fibre := { Fibre.blank with
      team := t, index := idx, role := role, alloc := n, core := core, home := lane, loc := .pen,
      regs := List.replicate n 0, pc := pc &&& ~~~7#64, pck := .transfer, top := dword seg.1, vst := vst, slice := ar.1 }
    (f, { s1 with fibres := tabPut s1.fibres f x, seq := f + 1 })

/-- The new fibre of R124, filed into a pen: its index, its key and the state; none where it cannot be created. -/
def spawnFibre (s : State) (f : Nat) (target arg : DWord) : Res (Option (Nat × Nat × State)) :=
  let x := s.fib f
  let t := s.tm x.team
  let n := (t.roles.getD x.role ⟨0, x.alloc, false⟩).regs
  if t.declared ≤ (s.teamFibres x.team).length then .ok none
  else match spawnPlace s x.team n with
    | none => .ok none
    | some (c, l) =>
      let idx := freeIndex s x.team
      match createFibre s x.team x.role n idx c l target x.vst with
      | none => .bad (noSegment s f)
      | some (k, s1) => .ok (some (idx, k, penFile (s1.modFib k fun y => y.setPair 0 arg) k))

/-- SPAWN for one lane (R124): the status value and the state. -/
def spawnOne (s : State) (f : Nat) (target arg : DWord) : Res (Word × State) :=
  (spawnFibre s f target arg).map fun r => match r with
    | none => (0xFFFFFFFF, s)
    | some (idx, _, s1) => (word idx, s1)

def execSpawn (g : Guard) (x d : BitVec 8) (off : BitVec 24) (s : State) : Out :=
  perLane (.spawn g x d off) s fun _ s1 f _ => (need32 (s1.fib f) x).bind fun _ =>
    (src64 s1 f (.v d)).bind fun arg => (needTarget (brnTarget s.run off)).bind fun _ =>
      (drainAt s1 f .team false).bind fun s2 => (spawnOne s2 f (brnTarget s.run off) arg).bind fun r =>
        .ok (.next, put32 r.2 f x r.1)

end Sys2Proof.Machine
end

