-- ==== Sys2Proof/Machine/Effects.lean ====
section
/-! DEFINITION. Handler frames, PERF and the instructions on continuations (R125 to R134, R283 to R298). -/

namespace Sys2Proof.Machine

/-- HINST (R125). -/
def execHinst (g : Guard) (ve : BitVec 8) (k : Src) (off : BitVec 24) (s : State) : Out :=
  perLane (.hinst g ve k off) s fun _ s1 f _ =>
    let x := s1.fib f
    if ve.toNat % 2 = 1 then .bad (illegal 0x0B)
    else if x.alloc ≤ ve.toNat + 4 then .bad (illegal 0x0A)
    else (needTarget (brnTarget s.run off)).bind fun _ => (src32 s1 f k).bind fun key =>
      (pushSegment s1 f 0 1 x.hch.toNat key.toNat ve.toNat (brnTarget s.run off).toNat).bind fun p =>
        .ok (.moved, p.2.modFib f fun x => toNextHeader s.run { x with hch := dword p.1 })

/-- HDROP (R127); bits [2:0] of the PC are zero (R90). [DEDUCED, log 25] -/
def execHdrop (g : Guard) (s : State) : Out :=
  perLane (.hdrop g) s fun _ s0 f _ => (readLink s0 f).bind fun s1 =>
    let x := s1.fib f
    let top := x.top.toNat
    let kind := s1.num (top + 0x10) 1
    let rpc := s1.segRpc top
    if kind = 2 then .bad (illegal 0x21)
    else if kind ≠ 1 || x.hch ≠ x.top then .bad (illegal 0x20)
    else
      let s2 := s1.modFib f fun x =>
        let y : Fibre := { x with hch := dword (s1.segHlink top), top := dword (s1.segPrev top) }
        if rpc = 0 then toNextHeader s.run y else { y with pc := dword rpc &&& ~~~7#64, pck := .sequential }
      .ok (.moved, freeSeg s2 (s1.ctxOf f) top)

/-! ### PERF (R128, R283, R299) -/

/-- The object that a PERF of WAIT parks on; `room` returns at once (R283, R299). [DEDUCED, log 35] -/
def waitObject (s : State) (f : Nat) (v : DWord) : ParkObj :=
  match bitsOf v.toNat 62 2 with
  | 0 =>
    let a := bitsOf v.toNat 0 54 / 8 * 8
    match translate s f (dword a) .load false with
    | .ok (p, _) => if p.kind = .host then .room else .word p.key
    | _ => .room
  | 1 => match namedTile s (s.fib f).team (bitsOf v.toNat 0 32) with
    | none => .room
    | some r => .tile r.core r.key (((s.tile r).map fun t => t.st.code).getD 0) false
  | _ => .room

/-- PERF may name this identifier (R128). -/
def performable (e : Nat) : Bool := e = 1 || e = 2 || e = 3 || (0x100 ≤ e && e < 0x10000)

/-- PERF (R128): the effect of every performing lane is taken with those that the issue raises, in home-lane order. [DEDUCED, log 24] -/
def execPerf (g : Guard) (d : BitVec 8) (a b : Src) (r : Bool) (s : State) : Out :=
  perLane (.perf g d a b r) s fun _ s1 f _ => (need64 (s1.fib f) d).bind fun _ => (src32 s1 f a).bind fun e =>
    (src64 s1 f b).bind fun v =>
      if !performable e.toNat then .bad (illegal 0x22)
      else .bad { eid := e.toNat, val := v, next := true, park := some (waitObject s1 f v),
                  perf := some (s.run.nextHeader, d.toNat, r) }

/-! ### Resuming and dropping -/

/-- The segments of a header, from TOP down to BOT. -/
def chainSegs (s : State) (a : Nat) : List Nat :=
  chainOf s (s.num (a + 0x20) 8) s.chainFuel (s.num (a + 0x18) 8)

/-- A register that the resume of header `a` writes has an outstanding write: the image's registers and the resume pair
(R19, R293). -/
def resumeBusy (s : State) (f a : Nat) : Bool :=
  let rv := s.num (a + 0x3F) 1
  (s.fib f).busy.any fun b => b.1 < imageN s a || (bitOf (s.num (a + 1) 1) 0 && (b.1 = rv || b.1 = rv + 1))

/-- The waits of ResumeContinuation and of its acquire (R19, R112, R293, R294). [DEDUCED, log 31] -/
def resumeReady (s : State) (f a : Nat) : Res State :=
  if !(s.fib f).pending.isEmpty || resumeBusy s f a then .wait
  else (drained s [f]).bind fun s1 => advanceView s1 f .device (s.fib f).lineStamp

/-- The header that a handle may designate is sound (R457). -/
def handleSound (s : State) (cx : Nat) (h : DWord) : Res Unit :=
  let a := h.toNat % 2 ^ 54
  if a % 64 = 0 && (s.ctx cx).hdrSegs.contains (a / 1024 * 1024) && 0x40 ≤ a % 1024 && a % 1024 ≤ 0x3C0 then s.sound a 64
  else .ok ()

/-- RSM and RSMT (R130, R131): `tail` keeps the links of the bottom frame. [DEDUCED, log 32] -/
def resumeLane (s : State) (run : Run) (f : Nat) (tail : Bool) (h xv : DWord) : Res (Adv × State) :=
  (handleSound s (s.ctxOf f) h).bind fun _ => match liveHeader s (s.ctxOf f) h with
  | none => .bad (effSpent h)
  | some a => (contSound s a).bind fun _ =>
    let x := s.fib f
    let bot := s.num (a + 0x20) 8
    if x.alloc < imageN s a then .bad (illegal 0x25)
    else if tail && (s.segPrev bot ≠ x.top.toNat || s.segHlink bot ≠ x.hch.toNat) then .bad (illegal 0x23)
    else (resumeReady s f a).bind fun s1 =>
      let s2 := if tail then s1 else
        ((s1.putNum bot 8 x.top.toNat).putNum (bot + 0x08) 8 run.nextHeader.toNat).putNum (bot + 0x18) 8 x.hch.toNat
      .ok (.resumed, resumeContinuation s2 f a xv)

def execRsm (g : Guard) (a b : Src) (s : State) : Out :=
  perLane (.rsm g a b) s fun _ s1 f _ => (src64 s1 f a).bind fun h => (src64 s1 f b).bind fun x =>
    resumeLane s1 s.run f false h x
def execRsmt (g : Guard) (a b : Src) (s : State) : Out :=
  perLane (.rsmt g a b) s fun _ s1 f _ => (src64 s1 f a).bind fun h => (src64 s1 f b).bind fun x =>
    resumeLane s1 s.run f true h x

/-- DROPK (R132). -/
def execDropk (g : Guard) (a : Src) (s : State) : Out :=
  perLane (.dropk g a) s fun _ s1 f _ => (src64 s1 f a).bind fun h =>
    (handleSound s1 (s1.ctxOf f) h).bind fun _ => match liveHeader s1 (s1.ctxOf f) h with
    | none => .bad (effSpent h)
    | some p => (contSound s1 p).bind fun _ => (linksSound s1 (chainSegs s1 p)).bind fun _ =>
      .ok (.next, dropContinuation (touchSegs s1 f [p]) (s1.ctxOf f) p)

/-! ### KSEND (R133, R298) -/

/-- What travels to another device. -/
def sendMessage (s : State) (cx a : Nat) (delivery : DWord) : KMsg where
  src := s.dev.devid
  ctx := cx
  delivery := delivery
  token := a
  hdrBytes := s.bytes a 64
  segs := (chainSegs s a).map fun g => s.bytes g 1024
  segAddrs := chainSegs s a
  image := if bitOf (s.num (a + 1) 1) 1 then (imageChain s a).map fun g => s.bytes g 1024 else []

/-- The operation token of a KSEND whose header is at `a`, apart from the counted ones. -/
def sendToken (a : Nat) : Nat := 2 ^ 60 + a

/-- A new header that takes over the continuation of header `a` (R298); none when no header can be had. -/
def rehead (s : State) (cx a : Nat) : Option (Nat × State) :=
  (takeHeader s cx).map fun r =>
    let gen := (r.2.num (r.1 + 2) 2 % 1024 + 1) % 1024
    let s1 := (r.2.putBytes r.1 (s.bytes a 64)).putNum (r.1 + 2) 2 gen
    (r.1, s1.putNum r.1 1 1)

/-- Writes a delivery word as a release store at system scope (R133); none while a pending version blocks it. [DEDUCED, log 36] -/
def deliver (s : State) (key k : Nat) (h : DWord) : Option State :=
  let cells := (List.range 8).map fun i => (key + i, BitVec.ofNat 8 (h.toNat / 2 ^ (8 * i)), (0xFF : Byte))
  if s.pendBlocks cells none then none else some (s.performHome cells k)

/-- The status of a KSEND whose delivery word cannot be written: 6 where the word, or an entry of the tree that leads to it, lies
behind a contained agent (R460); 4 otherwise, where a tree entry is poisoned too. [DESIGN CHOICE, log 123] -/
def deliveryStatus (cls : Nat) : Word := if cls = 2 then 6 else 4

/-- A local move (R133): a new header over the same segments, and the delivery word, checked at the fibre's level. The room is
tested before the delivery word, as in the receive step. [DEDUCED, log 34] -/
def sendLocal (s : State) (f a : Nat) (delivery : DWord) : Res (Word × State) :=
  if (s.ctx (s.ctxOf f)).st = .torn then .ok (2, s)
  else match rehead s (s.ctxOf f) a with
    | none => .ok (3, s)
    | some (b, s1) => match translate s1 f delivery .store false with
      | .ok (p, s2) => (match deliver (s2.putNum a 1 6) p.key (s.fib f).k (handleOf s2 b) with
        | none => .wait
        | some s3 => .ok (0, s3))
      | .wait => .wait
      | .sys c _ => .ok (deliveryStatus c, s)
      | .bad _ => .ok (4, s)

/-- Every byte that a continuation takes along is sound (R457): its header, its segments and its image. -/
def contWhole (s : State) (a : Nat) : Res Unit :=
  (contSound s a).bind fun _ => Res.foldM (fun _ g => s.sound g 1024) () (chainSegs s a)

/-- KSEND for one lane, after its release at system scope (R112): the status, or the token of one that comes later; a target
behind a contained or down path gives status 6 (R133, R460). [DEDUCED, log 34] -/
def sendOne (s : State) (f : Nat) (h delivery : DWord) (dev : Nat) : Res ((Word ⊕ Nat) × State) :=
  (drainAt s f .system false).bind fun s1 => (handleSound s1 (s1.ctxOf f) h).bind fun _ =>
    match liveHeader s1 (s1.ctxOf f) h with
    | none => .ok (.inl 5, s1)
    | some a => (contWhole s1 a).bind fun _ =>
      if !(s1.launchDevs f).contains dev then .ok (.inl 1, s1)
      else if dev = s1.dev.devid then (sendLocal s1 f a delivery).map fun r => (.inl r.1, r.2)
      else if s1.dev.down.contains dev || s1.dev.contained.contains (4, dev) then .ok (.inl 6, s1)
      else .ok (.inr (sendToken a), (s1.putNum a 1 5).send (.ksend dev a (sendMessage s1 (s1.ctxOf f) a delivery)))

def execKsend (g : Guard) (d : BitVec 8) (a b c : Src) (s : State) : Out :=
  perLane (.ksend g d a b c) s fun _ s1 f _ => (need32 (s1.fib f) d).bind fun _ => (src64 s1 f a).bind fun h =>
    (src64 s1 f b).bind fun w => (src32 s1 f c).bind fun dev =>
      if w.toNat % 8 ≠ 0 then .bad (effAlign (addrWord w.toNat 1 false))
      else (sendOne s1 f h w dev.toNat).bind fun r => .ok (.next, match r.1 with
        | .inl st => put32 r.2 f d st
        | .inr tok => r.2.modFib f fun x => { x with busy := x.busy ++ [(d.toNat, tok)] })

/-! ### KINFO (R134) -/

/-- A selector's value on a header address, none when the handle is not live: its width and its value. -/
def kinfoValue (s : State) (f : Nat) (sel : KSel) (h : DWord) : Bool × DWord :=
  let hd := liveHeader s (s.ctxOf f) h
  let on := fun (n : Nat → Nat) => match hd with
    | none => (0 : DWord)
    | some a => dword (n a)
  match sel with
  | .state _ => (false, match headerOf s (s.ctxOf f) h with
    | none => 0
    | some a => if s.num a 1 = 1 then 1 else if s.num a 1 = 5 then 2 else 0)
  | .eff _ => (false, on fun a => s.num (a + 4) 2)
  | .val _ => (true, on fun a => s.num (a + 8) 8)
  | .pc _ => (true, on fun a => s.num (a + 0x10) 8)
  | .nseg _ => (false, on fun a => s.num (a + 6) 2)
  | .regs _ => (false, on fun a => imageN s a)
  | .top => (true, (s.fib f).top + 0x40)

/-- The handle operand of a selector. -/
def kselSrc (s : State) (f : Nat) : KSel → Res DWord
  | .state a | .eff a | .val a | .pc a | .nseg a | .regs a => src64 s f a
  | .top => .ok 0

def execKinfo (g : Guard) (d : BitVec 8) (sel : KSel) (s : State) : Out :=
  perLane (.kinfo g d sel) s fun _ s0 f _ =>
    (needWide (s0.fib f) (kinfoValue s0 f sel 0).1 d).bind fun _ => (kselSrc s0 f sel).bind fun h =>
      (handleSound s0 (s0.ctxOf f) h).bind fun _ =>
      let s1 := touchSegs s0 f ((headerOf s0 (s0.ctxOf f) h).toList)
      .ok (.next, putWide s1 f (kinfoValue s1 f sel 0).1 d (kinfoValue s1 f sel h).2)

end Sys2Proof.Machine
end

