-- ==== Sys2Proof/Machine/Access.lean ====
section
/-! DEFINITION. Shared operations of the memory instructions: addresses, stores into the queue, atomics at their point
(R164 to R182). -/

namespace Sys2Proof.Machine

/-! ### Addresses (R165 to R167, R437) -/

/-- The base of a MEM access; a marker in a lane pair raises BIND in SPACE 0. -/
def memBase (s : State) (f : Nat) (base : Src) (space : Space) (acc : Acc) : Res DWord :=
  (src64 s f base).bind fun v => match base with
    | .v n => if space = .generic then (bindCheck v n.toNat acc).bind fun _ => .ok v else .ok v
    | .s _ => .ok v

/-- The pieces of an access after alignment, translation and permission (R167), with its generic address. The PROT of an
offset of 2^44 or more carries the offset itself. [DESIGN CHOICE, log 106] -/
def resolve (s : State) (f : Nat) (space : Space) (a : DWord) (n align : Nat) (acc : Acc) :
    Res (DWord × List Piece × State) :=
  match space with
  | .generic => (checkAccess s f a n align acc).map fun r => (a, r)
  | sp =>
    let va := dword (windowBase sp.code + a.toNat % 2 ^ 44)
    if a.toNat % align ≠ 0 then .bad (effAlign (addrWord va.toNat acc.code false))
    else if a.toNat / 2 ^ 44 ≠ 0 then .bad (effProt (addrWord a.toNat acc.code false))
    else (checkAccess s f va n align acc).map fun r => (va, r)

/-- The first piece of an access. -/
def firstPiece (ps : List Piece) : Piece := ps.headD ⟨⟨.dev, 0⟩, 0, 0⟩

/-- The flag that FT and FSEL name (R25, R85). -/
def flagOf (r : Run) : Ft → Option Nat
  | .none => Option.none
  | .f0 => r.hdr.sf0.map fun n => n.toNat
  | .f1 => r.hdr.sf1.map fun n => n.toNat

/-- A fresh operation token, registered on a flag of some fibres (R25). [DESIGN CHOICE, log 7] [DESIGN CHOICE, log 17] -/
def startTok (s : State) (r : Run) (ft : Ft) (fs : List Nat) : Option Nat × State :=
  match flagOf r ft with
  | none => (none, s)
  | some n => (some s.seq, (s.bump).modFibs fs fun x => { x with pending := x.pending ++ [(n, s.seq)] })

/-! ### Loads (R80, R170) -/

/-- The register checks of a width: an even pair, a group that starts at a multiple of its size (R18, R166). -/
def needWid (x : Fibre) (wd : Wid) (d : BitVec 8) : Res Unit :=
  match wd with
  | .d => need64 x d
  | .q | .o => if d.toNat % widRegs wd ≠ 0 then .bad (illegal 0x36) else needRegs x d.toNat (widRegs wd)
  | _ => need32 x d

/-- A loaded number as a 64-bit value: `.b` and `.h` sign-extended (R80, R173). -/
def extend (wd : Wid) (n : Nat) : DWord :=
  match wd with
  | .b => (BitVec.ofNat 8 n).signExtend 64
  | .h => (BitVec.ofNat 16 n).signExtend 64
  | _ => dword n

/-- Writes loaded bytes to lane registers (R80). -/
def putLoaded (s : State) (f : Nat) (wd : Wid) (d : BitVec 8) (bytes : List Byte) : State :=
  match wd with
  | .d => put64 s f d (dword (natOfBytes bytes))
  | .q | .o => s.modFib f fun x => (List.range (widRegs wd)).foldl
      (fun x i => x.setReg (d.toNat + i) (word (natOfBytes ((bytes.drop (4 * i)).take 4)))) x
  | _ => put32 s f d (lowWord (extend wd (natOfBytes bytes)))

/-! ### Stores (R171, R183) -/

/-- Bytes that a width stores from lane registers. -/
def storeBytes (x : Fibre) (wd : Wid) (d : BitVec 8) : List Byte :=
  ((List.range (widRegs wd)).flatMap fun i => bytesOfNat 4 (x.reg (d.toNat + i)).toNat).take (Wid.bytes wd)

/-- The fold rules on a store's pieces (R167, R183): the fold it belongs to, with the record's new lines. -/
def foldCheck (s : State) (f : Nat) (space : Space) (ps : List Piece) : Res (Option FoldTag × State) :=
  match (s.fib f).openFold with
  | none => .ok (none, s)
  | some t =>
    if space ≠ .generic then .ok (none, s)
    else match (ps.find? fun p => p.place.kind = .host) with
      | some p => .bad (effProt (addrWord p.va 1 (decide (p.va ≠ (firstPiece ps).va))))
      | none =>
        if ps.any fun p => p.place.kind ≠ .dev && p.place.kind ≠ .remote then .ok (none, s)
        else
          let old := ((s.foldRec t).map (·.lines)).getD []
          let new := ((ps.map fun p => lineOf p.place.key).dedup).filter fun l => !old.contains l
          if 512 < old.length + new.length then .bad (illegal 0x33)
          else .ok (some t, s.modFold t fun r => { r with lines := r.lines ++ new })

/-- A checked store of bytes joins the fibre's queue (R171). [DESIGN CHOICE, log 17] [DEDUCED, log 39] -/
def pushStore (s : State) (f : Nat) (va : DWord) (ps : List Piece) (bytes : List Byte) (scope : Scope)
    (line : Bool) (fold : Option FoldTag) (k : Nat) (tok : Option Nat) : State :=
  enqueueStore s f ⟨cellsOf ps bytes, va, scope, line, fold, f, s.ctxOf f, k, true, tok⟩

/-- The checks of a store up to the fold rules (R167). -/
def checkStore (s : State) (f : Nat) (space : Space) (a : DWord) (n align : Nat) :
    Res (DWord × List Piece × Option FoldTag × State) :=
  (resolve s f space a n align .store).bind fun r => (clobberCheck r.2.2 r.2.1 .store).bind fun _ =>
    (foldCheck r.2.2 f space r.2.1).bind fun q => .ok (r.1, r.2.1, q.1, q.2)

/-! ### Atomics (R176 to R179) -/

/-- Writes the dirty bytes of the words of keys back from every cluster but one: exclusive ownership (R178, R324); none
behind a pending version. -/
def flushKeys (s : State) (keys : List Nat) (keep : Option Nat) : Option State :=
  let words := (keys.map (· / 4)).dedup
  (s.clusters.map (·.1)).foldl (fun o c => if keep = some c then o else
    words.foldl (fun o w => (List.range 4).foldl (fun o i => o.bind fun s => writeBackGroup s c (4 * w + i)) o) o) (some s)

/-- The fibre holds the fold of a line's pending version open (R179): one that it is sealing makes the atomic wait. -/
def ownsPend (s : State) (f key : Nat) : Bool :=
  match (s.line (lineOf key)).pend with
  | none => false
  | some p => (s.fib f).openFold = some p.fold

/-- An earlier store of the core to bytes of an atomic's word is not performed yet: the core's loads see it, so the atomic waits
for it (R332, R333). -/
def wordHeld (s : State) (core : Nat) (keys : List Nat) : Bool :=
  (s.core core).order.any fun r => r.fold.isNone && r.cells.any fun c => keys.contains c.1

/-- An atomic at its point (R178), at address `va`: `fn` gives the new bytes from the old ones, or none where it writes
nothing. Answers the old bytes, the stamp that an acquire takes and the state. -/
def atomicAt (s : State) (f : Nat) (va : DWord) (p : Place) (n : Nat) (scope : Scope)
    (fn : List Byte → Option (List Byte)) : Res (List Byte × Nat × State) :=
  let keys := (List.range n).map (p.key + ·)
  let blank := keys.map fun k => (k, (0 : Byte), (0xFF : Byte))
  let cl := clusterOf (s.fib f).core
  let req := fun (bs : List Byte) => StoreReq.mk ((List.range n).map fun i => (p.key + i, bs.getD i 0, (0xFF : Byte)))
    va scope false none f (s.ctxOf f) (s.fib f).k true none
  let ls := s.lineLs f (lineOf p.key) (s.line (lineOf p.key)).ls
  let done := fun (old : List Byte) (k : Nat) (s1 : State) => Res.ok (old, k, s1.noteLs f ls)
  (s.sound p.key n).bind fun _ =>
  if s.pendBlocks blank none || wordHeld s (s.fib f).core keys then .wait
  else match p.kind with
    | .scratch =>
      let old := keys.map s.byte
      (match fn old with
      | none => done old 0 s
      | some bs => match performStore s (s.fib f).core (req bs) with
        | none => .wait
        | some s1 => done old 0 s1)
    | .frame =>
      let old := keys.map s.byte
      done old ls (match fn old with
      | none => s
      | some bs => s.storeFrame (s.fib f).core (req bs))
    | .host => (s.hostAnswer (s.fib f).core (addrWord va.toNat 2 false)).bind fun s =>
      let old := keys.map s.byte
      done old 0 ((match fn old with
      | none => s
      | some bs => (s.performHome (req bs).cells (s.fib f).k).markCode [f] (req bs).cells).holdHost
        (coreDie (s.fib f).core) p.key true)
    | _ =>
      let near := scope.code ≤ 3 && p.kind ≠ .remote && !(s.ownerDead cl p.key)
      match flushKeys (s.backInvalidate keys true) keys (if near then some cl else none) with
      | none => .wait
      | some s1 =>
        let old := keys.map fun k => (s1.clus cl).overDirty k (s1.byte k)
        done old (if p.kind = .chip then 0 else ls) (match fn old with
        | none => s1
        | some bs => if near then s1.performL1 cl (req bs) (req bs).cells.zipIdx
          else (s1.performHome (req bs).cells (s.fib f).k).markCode [f] (req bs).cells)

/-- Which atomics of `n` bytes reach host memory (R178, R447): scope 5, and under PCIe only those that map to an AtomicOp of a
width that the root port completes. -/
def hostAtomicOk (s : State) (scope : Scope) (n : Nat) (mapped : Bool) : Bool :=
  scope = .system && (match s.dev.host with
    | some (.cxl, _) => true
    | _ => mapped && Config.rootPortAtomic (8 * n))

/-- Atomics of another SCOPE have acted on a word of the bytes (R178). -/
def State.mixedScope (s : State) (key n : Nat) (scope : Scope) : Bool :=
  (List.range n).any fun i => match tabGet s.dev.atomScope ((key + i) / 4) with
    | some c => c ≠ scope.code
    | none => false

/-- Notes the SCOPE of an atomic on its words. -/
def State.noteScope (s : State) (key n : Nat) (scope : Scope) : State :=
  s.modDev fun d => { d with
    atomScope := (List.range n).foldl (fun t i => tabPut t ((key + i) / 4) scope.code) d.atomScope }

/-- An atomic where atomics of another SCOPE have acted on its word: a software error whose outcome R11 leaves open, so that D
and the word take undefined values (R178). -/
def atomicMixed (s : State) (f : Nat) (va : DWord) (p : Place) (n : Nat) (scope : Scope) : Res (List Byte × Nat × State) :=
  let (vs, s1) := s.drawMany 2
  (atomicAt s1 f va p n scope fun _ => some (bytesOfNat n (vs.getD 1 0).toNat)).map fun q =>
    (bytesOfNat n (vs.getD 0 0).toNat, q.2)

/-- An aligned atomic of an instruction, with its checks, its ordering and its view change (R167, R176 to R179). One that
writes nothing, a CAS that fails, releases nothing (R177). -/
def atomicAccess (s : State) (f : Nat) (m : AtmF) (n : Nat) (mapped : Bool) (fn : List Byte → Option (List Byte)) :
    Res (List Byte × State) :=
  (memBase s f m.base .generic .atomic).bind fun b => (resolve s f m.space b n n .atomic).bind fun r =>
    let p := firstPiece r.2.1
    (clobberCheck r.2.2 r.2.1 .atomic).bind fun _ =>
      if p.place.kind = .host && !hostAtomicOk s m.scope n mapped then .bad (effProt (addrWord r.1.toNat 2 false))
      else (settleStores r.2.2 f).bind fun s0 =>
        if ownsPend s0 f p.place.key then .bad (illegal 0x32)
        else
          let mixed := s0.mixedScope p.place.key n m.scope
          let act := fun (s : State) =>
            if mixed then atomicMixed s f r.1 p.place n m.scope else atomicAt s f r.1 p.place n m.scope fn
          (act s0).bind fun seen =>
            (if (m.ord = .rel || m.ord = .ar) && (mixed || (fn seen.1).isSome) then
              (drainAt s0 f m.scope false).bind act
              else .ok seen).bind fun q =>
                (if m.ord = .acq || m.ord = .ar then advanceView q.2.2 f m.scope q.2.1 else .ok q.2.2).map fun s3 =>
                  (q.1, s3.noteScope p.place.key n m.scope)

/-! ### Matching waits of matrix loops (R24, R224) -/

/-- The physical bank that a team names ACCm on a core (R24); none when it holds no such bank. -/
def Core.physBank (c : Core) (team m : Nat) : Option Nat := indexOf? (fun b => decide (b = some ⟨team, m⟩)) c.banks 0

/-- Key of accumulator element [a][c] of a physical bank. -/
def accKey (phys a c : Nat) : Nat := phys * 16384 + a * 256 + c

/-- The elements that a tainted loop wrote take undefined values (R224). -/
def undefineBank (s : State) (core : Nat) (w : LoopWait) : State :=
  match (s.core core).physBank w.team w.bank with
  | none => s
  | some p => ((List.range w.rows).flatMap fun a => (List.range w.cols).map fun c => accKey p a c).foldl (fun s k =>
      let (v, s1) := s.draw
      s1.modCore core fun c => { c with acc := tabPutD c.acc k (lowWord v) 0 }) s

/-- A matching wait: the loops that `done` selects on a core have one. -/
def matchLoops (s : State) (core : Nat) (done : LoopWait → Bool) : State :=
  let hit := (s.core core).waits.filter done
  let s1 := (hit.filter fun w => w.tainted).foldl (fun s w => undefineBank s core w) s
  s1.modCore core fun c => { c with waits := c.waits.filter fun w => !done w }

/-- Fields of a barrier line by its line key. -/
def State.barField (s : State) (line ofs n : Nat) : Nat := s.num (line * 128 + ofs) n

/-- An acquire at a barrier line is the matching wait of the loops whose arrival counted in a phase that is over (R224).
[DEDUCED, log 58] -/
def observeLine (s : State) (line : Nat) : State :=
  let ended := fun (p : Nat) => s.barField line 8 4 ≠ p
  let seen := fun (w : LoopWait) => w.ended && (w.line = some line || w.rdv = some line) && w.arr.any ended
  (s.cores.filter fun c => c.2.waits.any seen).foldl (fun s c => matchLoops s c.1 seen) s

/-! ### Barrier lines (R190 to R193) -/

/-- Changes the first 24 bytes of a barrier line at its atomic point; the reserved bytes after them stay as they were, at .init
too. [DESIGN CHOICE, log 107] -/
def putBarrier (s : State) (line expect arrived phase flags status k : Nat) : State :=
  let bytes := bytesOfNat 4 expect ++ bytesOfNat 4 arrived ++ bytesOfNat 4 phase ++ bytesOfNat 4 flags ++
    bytesOfNat 8 status
  (s.performHome ((List.range 24).map fun i => (line * 128 + i, bytes.getD i 0, (0xFF : Byte))) k).modLine line
    fun l => { l with live := decide (flags = 1) }

/-- Fibres parked on a barrier line that has moved on may return (R299). -/
def wakeBarrier (s : State) (line : Nat) : State :=
  { s with fibres := s.fibres.map fun p => match p.2.loc with
      | .parked (.phase key _) => if lineOf key = line then (p.1, { p.2 with loc := .parked .room }) else p
      | _ => p }

/-- The dirty bytes of a line leave the L1s before an atomic step at its home (R178, R322, R349). -/
def clearLine (s : State) (line : Nat) : State := s.flushWords fun a => lineOf a = line

/-- One arrival (R191) on a line of which no L1 holds a dirty byte: the phase before it, and the line after it. `leave` lowers
EXPECT for later phases. [DEDUCED, log 46] -/
def arriveAt (s : State) (line k : Nat) (leave : Bool) : Nat × State :=
  let phase := s.barField line 8 4
  let expect := s.barField line 0 4
  let arrived := (s.barField line 4 4 + 1) % 2 ^ 32
  let leaves := (s.line line).leaves + (if leave then 1 else 0)
  if arrived = expect then
    let e := expect - leaves
    let s1 := s.modLine line fun l => { l with leaves := 0 }
    (phase, wakeBarrier (putBarrier s1 line e 0 ((phase + 1) % 2 ^ 32) (if e = 0 then 0 else 1)
      (s.barField line 0x10 8) k) line)
  else
    (phase, putBarrier (s.modLine line fun l => { l with leaves := leaves }) line expect arrived phase 1
      (s.barField line 0x10 8) k)

/-- LIVE := 0, and nothing else of the line (R191). -/
def killBarrier (s : State) (line k : Nat) : State :=
  (s.performHome [(line * 128 + 0x0C, 0, 1)] k).modLine line fun l => { l with live := false }

/-- A store that passed its check before is still on its way to the line, or held dirty in an L1 (R349). [DEDUCED, log 47] -/
def lineBusy (s : State) (line : Nat) : Bool :=
  let on := fun (r : StoreReq) => r.cells.any fun c => lineOf c.1 = line
  s.fibres.any (fun p => p.2.queue.any on) || s.cores.any (fun c => c.2.order.any on)
    || s.clusters.any fun c => c.2.dirty.any fun d => lineOf d.1 = line

end Sys2Proof.Machine
end

