-- ==== Sys2Proof/Machine/MemIns.lean ====
section
/-! DEFINITION. Loads, stores, atomics, full/empty bits, fences and code modification (R164 to R182, R194, R195). -/

namespace Sys2Proof.Machine

/-! ### Loads and stores -/

/-- A load of one fibre: its bytes, its carried stamp and the state (R167, R170). -/
def loadAccess (s : State) (f : Nat) (m : MemF) : Res (List Byte × Nat × State) :=
  let n := Wid.bytes m.wid
  (memBase s f m.base m.space .load).bind fun b =>
    (resolve s f m.space (b + m.ofs.signExtend 64) n (Wid.align m.wid) .load).bind fun r =>
      loadBytes s f r.1 n (Wid.align m.wid) .load m.line

/-- The pieces of a load. -/
def loadPieces (s : State) (f : Nat) (m : MemF) : List Piece :=
  match (memBase s f m.base m.space .load).bind fun b =>
      resolve s f m.space (b + m.ofs.signExtend 64) (Wid.bytes m.wid) (Wid.align m.wid) .load with
  | .ok r => r.2.1
  | _ => []

/-- The lines whose PHASE word an access reads (R190). -/
def phaseLines (ps : List Piece) : List Nat := ps.filterMap fun p =>
  if p.place.key % 128 < 12 && 8 < p.place.key % 128 + p.n then some (lineOf p.place.key) else none

/-- The scope at which an access acts: one to host memory acts at scope 5 (R446). -/
def actScope (ps : List Piece) (scope : Scope) : Scope :=
  if ps.any fun p => p.place.kind = .host then .system else scope

/-- The view change of an acquire load, for some fibres; a load of PHASE observes the arrivals of loops (R224). -/
def acquireLoad (s : State) (f : Nat) (fs : List Nat) (m : MemF) (k : Nat) : Res State :=
  if m.ord = .acq then
    let ps := loadPieces s f m
    (Res.foldM (fun s h => advanceView s h (actScope ps m.scope) k) s fs).map fun s1 =>
      if s1.cores.all fun c => c.2.waits.isEmpty then s1 else (phaseLines ps).foldl observeLine s1
  else .ok s

def execLd (g : Guard) (m : MemF) (s : State) : Out :=
  perLane (.ld g m) s fun _ s1 f _ => (needWid (s1.fib f) m.wid m.d).bind fun _ => (loadAccess s1 f m).bind fun r =>
    (acquireLoad r.2.2 f [f] m r.2.1).bind fun s2 =>
      .ok (.next, putLoaded s2 f m.wid m.d r.1)

def execSt (g : Guard) (m : MemF) (s : State) : Out :=
  perLane (.st g m) s fun _ s1 f _ => (needWid (s1.fib f) m.wid m.d).bind fun _ =>
    (memBase s1 f m.base m.space .store).bind fun b =>
      (checkStore s1 f m.space (b + m.ofs.signExtend 64) (Wid.bytes m.wid) (Wid.align m.wid)).bind fun r =>
        (if m.ord = .rel then drainAt r.2.2.2 f (actScope r.2.1 m.scope) false else .ok r.2.2.2).bind fun s2 =>
          let (tok, s3) := startTok s2 s.run m.ft [f]
          .ok (.next, pushStore s3 f r.1 r.2.1 (storeBytes (s3.fib f) m.wid m.d) m.scope m.line r.2.2.1 (s3.fib f).k tok)

/-- LDS (R173): once for the flock; the view change is of every fibre in GuardMask. The access is that of the lowest acting
lane's fibre: its slice, its queue, its folds, its carried stamps. [DESIGN CHOICE, log 108] -/
def execLds (g : Guard) (m : MemF) (s : State) : Out :=
  perFlock (.lds g m) s fun s1 f fs => (loadAccess s1 f m).bind fun r =>
    (acquireLoad r.2.2 f fs m r.2.1).bind fun s2 =>
      .ok (setSreg s2 f m.d (extend m.wid (natOfBytes r.1)))

/-- STS (R173): once for the flock; with .rel it is a release of every fibre in GuardMask. The store is that of the lowest
acting lane's fibre: its queue, its open fold, its slice. [DESIGN CHOICE, log 108] -/
def execSts (g : Guard) (m : MemF) (s : State) : Out :=
  perFlock (.sts g m) s fun s1 f fs => (memBase s1 f m.base m.space .store).bind fun b =>
    (checkStore s1 f m.space (b + m.ofs.signExtend 64) (Wid.bytes m.wid) (Wid.align m.wid)).bind fun r =>
      (if m.ord = .rel then Res.foldM (fun s h => drainAt s h (actScope r.2.1 m.scope) false) r.2.2.2 fs else .ok r.2.2.2).bind fun s2 =>
        let k := if m.ord = .rel then fs.foldl (fun k h => Nat.max k (s2.fib h).k) 0 else (s2.fib f).k
        let (tok, s3) := startTok s2 s.run m.ft fs
        .ok (pushStore s3 f r.1 r.2.1 (bytesOfNat (Wid.bytes m.wid) (sreg s3 f m.d).toNat) m.scope m.line r.2.2.1 k tok)

/-! ### Atomics (R176, R177) -/

/-- The new value of an atomic on `n`-bit words (R176). -/
def atomValue {n : Nat} (op : AtomOp) (old b : BitVec n) : BitVec n :=
  match op with
  | .add => old + b
  | .and => old &&& b
  | .or => old ||| b
  | .xor => old ^^^ b
  | .min => minWord false old b
  | .max => maxWord false old b
  | .minu => minWord true old b
  | .maxu => maxWord true old b
  | .xchg => b
  | .incw => if b ≤ old then 0 else old + 1
  | .fadd => BitVec.ofNat n (fpAdd p32 .rne old.toNat b.toNat).1
  | .fmin => BitVec.ofNat n (fpMinMax p32 false false old.toNat b.toNat).1
  | .fmax => BitVec.ofNat n (fpMinMax p32 true false old.toNat b.toNat).1

/-- The atomics that PCIe carries (R447). -/
def atomMapped : AtomOp → Bool
  | .add | .xchg => true
  | _ => false

/-- An atomic lane: `wide` for 64 bits, `ret` when D receives the old value; `fn` is the new value, if the word changes. -/
def atomLane (s : State) (f : Nat) (m : AtmF) (wide ret mapped : Bool) (fn : DWord → Option DWord) :
    Res (Adv × State) :=
  let n := if wide then 8 else 4
  (if ret then needWide (s.fib f) wide m.d else .ok ()).bind fun _ =>
    (atomicAccess s f m n mapped fun bs => (fn (dword (natOfBytes bs))).map fun v => bytesOfNat n v.toNat).bind fun r =>
      .ok (.next, if ret then putWide r.2 f wide m.d (dword (natOfBytes r.1)) else r.2)

def execAtom (g : Guard) (m : AtmF) (op : AtomOp) (nr : Bool) (s : State) : Out :=
  perLane (.atom g m op nr) s fun _ s1 f _ => (src32 s1 f (.v m.b)).bind fun b =>
    atomLane s1 f m false (!nr) (atomMapped op) fun old => some ((atomValue op (lowWord old) b).setWidth 64)
def execAtomd (g : Guard) (m : AtmF) (op : AtomOp) (nr : Bool) (s : State) : Out :=
  perLane (.atomd g m op nr) s fun _ s1 f _ => (src64 s1 f (.v m.b)).bind fun b =>
    atomLane s1 f m true (!nr) (atomMapped op) fun old => some (atomValue op old b)
def execCas (g : Guard) (m : AtmF) (c : BitVec 8) (s : State) : Out :=
  perLane (.cas g m c) s fun _ s1 f _ => (src32 s1 f (.v m.b)).bind fun b => (src32 s1 f (.v c)).bind fun e =>
    atomLane s1 f m false true true fun old => if lowWord old = e then some (b.setWidth 64) else none
def execCasd (g : Guard) (m : AtmF) (c : BitVec 8) (s : State) : Out :=
  perLane (.casd g m c) s fun _ s1 f _ => (src64 s1 f (.v m.b)).bind fun b => (src64 s1 f (.v c)).bind fun e =>
    atomLane s1 f m true true true fun old => if old = e then some b else none

/-! ### Full/empty bits (R175) -/

/-- Sets or clears the bit of the line that holds a scratchpad key. -/
def setLineBit (s : State) (key : Nat) (full : Bool) : State :=
  s.modCore (scratchCore key) fun c =>
    let l := scratchOfs key / 128
    { c with emptyLines := if full then tabDel c.emptyLines l else tabPut c.emptyLines l () }

/-- LNSET and LNCLR for one lane, after its earlier stores to the core (R315). Their address is checked as a store's, with ACC 1.
[DESIGN CHOICE, log 125] -/
def lineBit (s : State) (f : Nat) (m : LineF) (full : Bool) : Res (Adv × State) :=
  (memBase s f m.base m.space .store).bind fun b =>
    (resolve s f m.space (b + m.ofs.signExtend 64) 1 1 .store).bind fun r =>
      let p := firstPiece r.2.1
      if p.place.kind ≠ .scratch then .bad (illegal 0x34)
      else (if m.ord = .rel then drainAt r.2.2 f m.scope false else .ok r.2.2).bind fun s1 =>
        let s2 := reachCore s1 f p.place.key
        (Res.await (!onItsWay s2 f p.place.key)).bind fun _ => .ok (.next, setLineBit s2 p.place.key full)

def execLnset (g : Guard) (m : LineF) (s : State) : Out := perLane (.lnset g m) s fun _ s1 f _ => lineBit s1 f m true
def execLnclr (g : Guard) (m : LineF) (s : State) : Out := perLane (.lnclr g m) s fun _ s1 f _ => lineBit s1 f m false

/-! ### Fences (R180, R181, R338) -/

def execFence (g : Guard) (scope : Scope) (ord : Ord) (s : State) : Out :=
  perLane (.fence g scope ord) s fun _ s1 f _ =>
    (if ord = .rel || ord = .ar then drainAt s1 f scope false else .ok s1).bind fun s2 =>
      (if ord = .acq || ord = .ar then advanceView s2 f scope (s2.fib f).lineStamp else .ok s2).bind fun s3 =>
        .ok (.next, s3)

/-- The drain of FENCE.SC: every store issued on the core, by any flock, with the write-backs; a write-back of another
context raises nothing here. -/
def drainCore (s : State) (f : Nat) (scope : Scope) : Res State :=
  let fs := (s.fibres.filter fun p => p.2.core = (s.fib f).core).map (·.1)
  Res.foldM (fun s g => drainAt s g scope (decide (s.ctxOf g ≠ s.ctxOf f))) s fs

/-- The ticks that FENCE.SC waits beyond T0. -/
def fenceTicks (scope : Scope) : Nat := if scope = .system then 3 else 1

/-- FENCE.SC for one lane whose T0 is recorded. -/
def fenceLane (s : State) (f : Nat) (scope : Scope) : Res (Adv × State) :=
  (drainCore s f (if scope = .system then .system else .device)).bind fun s1 =>
    if s1.dev.hb < ((s1.fib f).scStart.getD s1.dev.hb) + fenceTicks scope then .wait
    else .ok (.next, s1.modFib f fun x =>
      { x with vst := Nat.max x.vst s1.dev.hb, scStart := none, lineStamp := 0, fd := x.fd.map fun o => match o with
          | some sl => if sl.st = .committed && sl.stamp ≤ Nat.max x.vst s1.dev.hb then none else o
          | none => none })

/-- The state with T0 recorded for the acting fibres of a run that have none (R181). -/
def recordT0 (s : State) (g : Guard) : State :=
  match s.runs with
  | [] => s
  | r :: _ => s.modFibs ((actingMask s r g).lanes.filterMap (s.flk r.flock).fibreAt) fun x =>
      { x with scStart := some (x.scStart.getD s.dev.hb) }

/-- FENCE.SC (R181): T0 is taken at the first issue and kept over retractions. -/
def execFenceSc (g : Guard) (scope : Scope) (s : State) : Out :=
  perLane (.fenceSc g scope) (recordT0 s g) fun _ s1 f _ => fenceLane s1 f scope

/-! ### Code modification (R194, R195) -/

/-- The cores whose fetch copies a scope covers. [DEDUCED, log 49] -/
def scopeCores (s : State) (f : Nat) (scope : Scope) : List Nat :=
  let t := s.tm (s.fib f).team
  match scope with
  | .fibre | .flock | .team => t.cores
  | .cluster => (s.cores.map (·.1)).filter fun c => !isShepherd c && clusterOf c = clusterOf (s.fib f).core
  | .device | .system => s.cores.map (·.1)

/-- The physical line that ICINV names: none at a scratch level. The address is translated as a fetch would translate it, so
that the aperture outside every window and the two heaps are PROT, but no page's permission counts (R194). [DEDUCED, log 49] -/
def icinvLine (s : State) (f : Nat) (a : DWord) : Res (Option Nat) :=
  let w := addrWord a.toNat 3 false
  let cx := s.ctxOf f
  let c := s.ctx cx
  let within := fun (lo hi : DWord) => decide (lo.toNat ≤ a.toNat ∧ a.toNat < hi.toNat)
  (scratchWindow s f a w).bind fun sc => match sc with
    | some _ => .ok none
    | none =>
      if within c.fhb c.fhl || within c.thb c.thl then .bad (effProt w)
      else match walk s f cx a.toNat with
        | .leaf e => .ok (some (lineOf (e.place s.dev.devid a.toNat).key))
        | .missing _ => .bad (effPage w)
        | .malformed => .bad (effProt w)
        | .poisoned g => .sys 1 (dword g)
        | .dead w5 => .sys 2 w5

/-- The dirty bytes that a cluster holds of a line go home, so that the new code reaches the fetch path before the stale copies
disappear (R194); none behind a pending version. [DEDUCED, log 49] -/
def homeLine (s : State) (cl line : Nat) : Option State :=
  ((s.clus cl).dirty.filter fun d => lineOf d.1 = line && s.mayLeave d.2).foldl
    (fun o d => o.bind fun s => writeBackGroup s cl d.1) (some s)

/-- The fetch path of a core drops a line. -/
def dropCode (s : State) (c line : Nat) : State := s.modCore c fun x => { x with code := tabDel x.code line }

/-- The other devices of a fibre's launch that a scope covers and whose path is up. -/
def scopeDevs (s : State) (f : Nat) (scope : Scope) : List Nat :=
  if scope = .system then (s.launchDevs f).filter fun d =>
    d ≠ s.dev.devid && !s.dev.down.contains d && !s.dev.contained.contains (4, d)
  else []

/-- ICINV (R194): at scope 5 the other devices are asked too, and it ends with their answers. [DEDUCED, log 109] -/
def execIcinv (g : Guard) (m : LineF) (s : State) : Out :=
  perLane (.icinv g m) s fun _ s1 f _ => (memBase s1 f m.base .generic .fetch).bind fun b =>
    (icinvLine s1 f (b + m.ofs.signExtend 64)).bind fun line => (drainAt s1 f m.scope false).bind fun s2 =>
      match line with
      | none => .ok (.next, s2)
      | some l => match homeLine s2 (clusterOf (s2.fib f).core) l with
        | none => .wait
        | some s3 => .ok (.next, askDevices ((scopeCores s3 f m.scope).foldl (fun s c => dropCode s c l) s3) f
            (scopeDevs s3 f m.scope) (flagOf s.run m.ft) fun d tok => .icinv d tok (l * 128))

/-- ISYNC (R195): a run holds its clause only while it runs, and ISYNC ends it. -/
def execIsync (g : Guard) (s : State) : Out := perLane (.isync g) s fun _ s1 _ _ => .ok (.next, s1)

end Sys2Proof.Machine
end

