-- ==== Sys2Proof/Machine/Fold.lean ====
section
/-! DEFINITION. Folds, views and barrier lines (R183 to R193). -/

namespace Sys2Proof.Machine

/-! ### Folds -/

/-- A fold slot of a fibre. -/
def slotAt (s : State) (f : Nat) (n : BitVec 2) : Option FoldSlot := (s.fib f).fd.getD n.toNat none

/-- The slice nearest to a core (R26). [DESIGN CHOICE, log 45] -/
def sliceOf (core : Nat) : Nat := Config.nearestSlice core % 264

/-- A fold record without lines. -/
def Fold.fresh (tag : FoldTag) (ctx fibre slot : Nat) : Fold where
  tag := tag
  ctx := ctx
  fibre := fibre
  slot := slot
  lines := []
  acked := []
  lastAck := 0
  t := none
  stampedAt := []
  confirmed := []
  aborting := false
  dreg := none
  tok := none

/-- FOPEN for one lane (R184). The PROT of an exhausted pool names the pool limit with ACC 6, that of the frame heap: the spec
lists no code for it. [DESIGN CHOICE, log 44] -/
def openLane (s : State) (f : Nat) (n : BitVec 2) : Res State :=
  let x := s.fib f
  let c := s.ctx (s.ctxOf f)
  let slice := sliceOf x.core
  let seq := tabGetD s.dev.foldSeq slice 0
  let tag : FoldTag := ⟨(s.tm x.team).devIndex, slice, seq⟩
  if (slotAt s f n).isSome then .bad (illegal 0x30)
  else if x.openFold.isSome then .bad (illegal 0x31)
  else if c.folds = 0 || decide (c.folds ≤ Config.foldPool (s.ctxOf f)) then
    let s1 := ({ s with folds := s.folds ++ [Fold.fresh tag (s.ctxOf f) f n.toNat] }).modCtx (s.ctxOf f)
      fun c => { c with folds := c.folds + 1 }
    let s2 := s1.modDev fun d => { d with foldSeq := tabPut d.foldSeq slice (seq + 1) }
    .ok (s2.modFib f fun x => x.setSlot n.toNat (some ⟨tag, .open, 0⟩))
  else .bad (effProt (addrWord (Config.foldPool (s.ctxOf f)) 6 false))

def execFopen (g : Guard) (n : BitVec 2) (s : State) : Out :=
  perLane (.fopen g n) s fun _ s1 f _ => (openLane s1 f n).map fun s2 => (.next, s2)

/-- What FSEAL writes for an ended fold (R185). [DEDUCED, log 43] -/
def sealResult (sl : FoldSlot) : DWord := if sl.st = .committed then dword sl.stamp else 1#64 <<< 63

/-- FSEAL for one lane (R185): an open fold starts its seal once every earlier store is performed; D waits for its end. [DEDUCED, log 33] -/
def sealLane (s : State) (f : Nat) (d : BitVec 8) (n : BitVec 2) : Res State :=
  (need64 (s.fib f) d).bind fun _ =>
    match slotAt s f n with
    | none => .bad (illegal 0x30)
    | some sl => match sl.st with
      | .sealing => .wait
      | .open => (drainAt s f .system false).bind fun s1 =>
        let tok := s1.seq
        let s2 := (s1.bump).modFold sl.tag fun r => { r with dreg := some d.toNat, tok := some tok }
        .ok (s2.modFib f fun x => { x.setSlot n.toNat (some { sl with st := .sealing }) with
          busy := x.busy ++ [(d.toNat, tok), (d.toNat + 1, tok)] })
      | _ => (drainAt s f .system false).map fun s1 => put64 s1 f d (sealResult sl)

def execFseal (g : Guard) (d : BitVec 8) (n : BitVec 2) (s : State) : Out :=
  perLane (.fseal g d n) s fun _ s1 f _ => (sealLane s1 f d n).map fun s2 => (.next, s2)

/-- FABORT for one lane (R187): its value and the state. -/
def abortLane (s : State) (f : Nat) (n : BitVec 2) : Res (Word × State) :=
  match slotAt s f n with
  | none => .ok (3, s)
  | some sl =>
    let empty := fun (s : State) => s.modFib f fun x => x.setSlot n.toNat none
    match sl.st with
    | .open => .ok (0, empty (discardFold s sl.tag f))
    | .sealing => .wait
    | .committed => .ok (1, empty s)
    | .aborted => .ok (2, empty s)

def execFabort (g : Guard) (d : BitVec 8) (n : BitVec 2) (s : State) : Out :=
  perLane (.fabort g d n) s fun _ s1 f _ => (need32 (s1.fib f) d).bind fun _ => (abortLane s1 f n).bind fun r =>
    .ok (.next, put32 r.2 f d r.1)

/-- VIEW (R188, R344). -/
def viewLane (s : State) (f : Nat) (stamp : Option DWord) : Res State :=
  match stamp with
  | none => advanceView s f .system 0
  | some a =>
    let t := a.toNat % 2 ^ 56
    if s.dev.hb + 2 ^ 16 < t then .bad (illegal 0x35)
    else if Nat.max (s.fib f).vst (s.systemSettled (s.launchDevs f)) < t then .wait
    else .ok (s.modFib f fun x =>
      let v := Nat.max x.vst t
      { x with vst := v, lineStamp := 0, fd := x.fd.map fun o => match o with
          | some sl => if sl.st = .committed && sl.stamp ≤ v then none else o
          | none => none })

def execView (g : Guard) (d : BitVec 8) (stamp : Option Src) (s : State) : Out :=
  perLane (.view g d stamp) s fun _ s1 f _ => (need64 (s1.fib f) d).bind fun _ =>
    (match stamp with
      | none => (Res.ok none : Res (Option DWord))
      | some a => (src64 s1 f a).map some).bind fun t => (viewLane s1 f t).bind fun s2 =>
        .ok (.next, put64 s2 f d (dword ((s2.fib f).vst % 2 ^ 56)))

/-! ### Barrier lines -/

/-- The line of a barrier instruction, 128-aligned, not in host memory (R191). [DEDUCED, log 48] -/
def barrierLine (s : State) (f : Nat) (m : LineF) (acc : Acc) : Res (DWord × Nat × State) :=
  (memBase s f m.base m.space acc).bind fun b =>
    (resolve s f m.space (b + m.ofs.signExtend 64) 1 128 acc).bind fun r =>
      let p := (firstPiece r.2.1).place
      if p.kind = .host then .bad (effProt (addrWord r.1.toNat acc.code false))
      else (r.2.2.sound p.key 24).bind fun _ => .ok (r.1, lineOf p.key, r.2.2)

/-- The line is ready for an atomic step: no pending version of it is in the way (R179). -/
def lineOpen (s : State) (line : Nat) : Res Unit := Res.await (s.line line).pend.isNone

/-- A copy object's phase holds a slice (R231). -/
def copyHolds (s : State) (line : Nat) : Bool := s.cores.any fun c => c.2.phases.any fun p => p.obj = line

/-- An arrival of one lane (R191). -/
def arriveLane (s : State) (f : Nat) (d : BitVec 8) (m : LineF) (leave : Bool) : Res (Adv × State) :=
  (need32 (s.fib f) d).bind fun _ => (barrierLine s f m .atomic).bind fun r =>
    if !r.2.2.barrierLive (r.2.1 * 128) || copyHolds r.2.2 r.2.1 then .bad (effClobber (addrWord r.1.toNat 2 false))
    else (drainAt r.2.2 f m.scope false).bind fun s1 => (lineOpen s1 r.2.1).bind fun _ =>
      let a := arriveAt (clearLine s1 r.2.1) r.2.1 (s1.fib f).k leave
      .ok (.next, put32 a.2 f d (word a.1))

def execBaraArrive (g : Guard) (d : BitVec 8) (m : LineF) (s : State) : Out :=
  perLane (.baraArrive g d m) s fun _ s1 f _ => arriveLane s1 f d m false
def execBaraLeave (g : Guard) (d : BitVec 8) (m : LineF) (s : State) : Out :=
  perLane (.baraLeave g d m) s fun _ s1 f _ => arriveLane s1 f d m true

/-- BARA.init (R191, R349), once for the flock. [DEDUCED, log 47] -/
def execBaraInit (g : Guard) (d : BitVec 8) (m : LineF) (s : State) : Out :=
  perFlock (.baraInit g d m) s fun s1 f fs => (need32 (s1.fib f) d).bind fun _ =>
    (barrierLine s1 f m .atomic).bind fun r =>
      let n := ((s1.fib f).reg d.toNat).toNat
      if r.2.2.barrierLive (r.2.1 * 128) then .bad (effClobber (addrWord r.1.toNat 2 false))
      else if n = 0 || 2 ^ 24 < n then .bad (illegal 0x07)
      else (Res.foldM (fun s h => drainAt s h m.scope false) r.2.2 fs).bind fun s2 =>
        let s3 := clearLine s2 r.2.1
        (lineOpen s3 r.2.1).bind fun _ => (Res.await (!lineBusy s3 r.2.1)).bind fun _ =>
          .ok (putBarrier (s3.modLine r.2.1 fun l => { l with leaves := 0 }) r.2.1 n 0 0 1 0 (s3.fib f).k)

/-- BARA.kill (R191), once for the flock. -/
def execBaraKill (g : Guard) (d : BitVec 8) (m : LineF) (s : State) : Out :=
  perFlock (.baraKill g d m) s fun s1 f fs => (barrierLine s1 f m .atomic).bind fun r =>
    (Res.foldM (fun s h => drainAt s h m.scope false) r.2.2 fs).bind fun s2 => (lineOpen s2 r.2.1).bind fun _ =>
      let l := r.2.1
      .ok (wakeBarrier (killBarrier (s2.modLine l fun x => { x with leaves := 0 }) l (s2.fib f).k) l)

/-- The test of BARW (R192): the phase has moved on, or the line is not live. -/
def barrierMoved (s : State) (line : Nat) (token : Word) : Bool :=
  !s.barrierLive (line * 128) || s.barField line 8 4 ≠ token.toNat

/-- BARW (R192): waits by retraction; then an acquire at its scope with the line's carried stamp. -/
def barwLane (s : State) (f : Nat) (d : BitVec 8) (m : LineF) : Res (Adv × State) :=
  (need32 (s.fib f) d).bind fun _ => (barrierLine s f m .load).bind fun r =>
    if barrierMoved r.2.2 r.2.1 ((s.fib f).reg d.toNat) then
      (advanceView r.2.2 f m.scope (s.line r.2.1).ls).map fun s1 => (.next, observeLine s1 r.2.1)
    else .wait

def execBarw (g : Guard) (d : BitVec 8) (m : LineF) (s : State) : Out :=
  perLane (.barw g d m) s fun _ s1 f _ => barwLane s1 f d m

end Sys2Proof.Machine
end

