-- ==== Sys2Proof/Machine/Geometry.lean ====
section
/-! DEFINITION. Where the elements, scales and metadata of a tile lie, and what a tile's limits are (R41, R198 to R205,
R316, R317, R326, R327). -/

namespace Sys2Proof.Machine

/-! ### Bytes of a tile -/

/-- Base of a team's core area on a core (R311). -/
def State.coreBase (s : State) (core team : Nat) : Nat := (s.core core).area team areaCore

/-- The stored place of logical byte `o` of storage row `r`, R317. -/
def Tile.swizzle (t : Tile) (r o : Nat) : Nat := if tagLayout t.tag = 3 then Nat.xor o (8 * (r % 8)) else o

/-- Key of logical byte `o` of storage row `r` of a scratchpad tile. -/
def rowKey (s : State) (core team : Nat) (t : Tile) (r o : Nat) : Nat :=
  scratchKey core (s.coreBase core team + t.base + r * t.pitch + t.swizzle r o)

/-- Key of byte `o` of the scale and metadata areas of a scratchpad tile. -/
def areaKey (s : State) (core team : Nat) (t : Tile) (o : Nat) : Nat :=
  scratchKey core (s.coreBase core team + t.base + t.dataSize + o)

/-- Key of byte `o` of a team's rod space in rod `j` (R202, R327). -/
def rodByte (s : State) (core team j o : Nat) : Nat :=
  rodKey core j (((s.core core).physBank team (o / 8192)).getD 0 * 8192 + o % 8192)

/-- A byte as an engine of a core reads it: CUR at device scope with what its cluster and its core order hold; a fold store
is no part of CUR (R347, R348). -/
def engineByte (s : State) (core key : Nat) : Byte :=
  let owner := if levelOf key = .scratch then scratchCore key else core
  overlay ((s.core owner).order.filter (·.fold.isNone)) key ((s.clus (clusterOf core)).overDirty key (s.byte key))

/-- A byte of the rod store. -/
def rodStored (s : State) (key : Nat) : Byte := s.byte key

/-! ### Elements (R41) -/

/-- A tile as an operand: where it is, and the format, scale mode and sparsity it is taken with (R218). -/
structure TileView where
  core : Nat
  team : Nat
  t : Tile
  fmt : Fmt
  scale : Nat
  sparse : Nat
  deriving DecidableEq, Repr

/-- A tile with what its tag gives. -/
def TileView.ofTag (core team : Nat) (t : Tile) (fmt : Fmt) : TileView :=
  ⟨core, team, t, fmt, tagScale t.tag, tagSparsity t.tag⟩

/-- Keys of the bytes that hold stored element `e` of line `l`, and the first bit in them. -/
def TileView.keys (s : State) (v : TileView) (l e : Nat) : List Nat × Nat :=
  let row := if !v.t.rod && v.t.axis then e else l
  let col := if !v.t.rod && v.t.axis then l else e
  let b := col * v.fmt.bits
  ((List.range (ceilDiv (b % 8 + v.fmt.bits) 8)).map fun i =>
    if v.t.rod then rodByte s v.core v.team row (v.t.base + b / 8 + i)
    else rowKey s v.core v.team v.t row (b / 8 + i), b % 8)

/-- The code of stored element `e` of line `l`. -/
def TileView.stored (s : State) (v : TileView) (l e : Nat) : Nat :=
  let k := TileView.keys s v l e
  natOfBytes (k.1.map (engineByte s v.core)) / 2 ^ k.2 % 2 ^ v.fmt.bits

/-- Bytes between the scale codes of two lines, for a scale mode (R316). -/
def TileView.scaleStride (v : TileView) : Nat :=
  if v.scale = 2 then roundUp (ceilDiv v.t.lineLen 48) 16 else 4
/-- Bytes of the scale area. -/
def TileView.scaleSize (v : TileView) : Nat :=
  if v.scale = 0 then 0 else roundUp (v.t.lineCount * v.scaleStride) 16
def TileView.metaStride (v : TileView) : Nat :=
  if v.sparse = 1 then roundUp (ceilDiv v.t.lineLen 8) 16 else roundUp (ceilDiv v.t.lineLen 384) 16
def TileView.metaSize (v : TileView) : Nat :=
  if v.sparse = 1 || v.sparse = 2 then v.t.lineCount * v.metaStride else 0

/-- Key of byte `b` of line `l`'s scale codes. -/
def TileView.scaleKey (s : State) (v : TileView) (l b : Nat) : Nat :=
  if v.t.rod then rodByte s v.core v.team l (v.t.base + roundUp (ceilDiv (v.t.rows * v.fmt.bits) 8) 8 + b)
  else areaKey s v.core v.team v.t (l * v.scaleStride + b)

/-- The E8 code that governs element `e` of line `l` (R51, R216). -/
def TileView.blockScale (s : State) (v : TileView) (l e : Nat) : Nat :=
  if v.scale = 2 then (engineByte s v.core (TileView.scaleKey s v l (e / 48))).toNat else 0x7F

/-- The row factor of line `l` (R52). -/
def TileView.factor (s : State) (v : TileView) (l : Nat) : XNum :=
  if v.scale = 1 then
    p32.decode (natOfBytes ((List.range 4).map fun i => engineByte s v.core (TileView.scaleKey s v l i)))
  else .fin false 1 0

/-- Key of the metadata byte `b` of line `l`, and the byte. [DEDUCED, log 55] -/
def TileView.metaKey (s : State) (v : TileView) (l b : Nat) : Nat :=
  areaKey s v.core v.team v.t (v.scaleSize + l * v.metaStride + b)
def TileView.metaByte (s : State) (v : TileView) (l b : Nat) : Nat :=
  (engineByte s v.core (TileView.metaKey s v l b)).toNat

/-- The stored index of element `e` of line `l`; none when it is absent (R316). [DEDUCED, log 55] -/
def TileView.place (s : State) (v : TileView) (l e : Nat) : Option Nat :=
  if v.t.rod then some e
  else if v.sparse = 1 then
    let g := e / 4
    let c := bitsOf (TileView.metaByte s v l (g / 2)) (4 * (g % 2)) 4
    if c / 4 ≤ c % 4 then none
    else if e % 4 = c % 4 then some (2 * g) else if e % 4 = c / 4 then some (2 * g + 1) else none
  else if v.sparse = 2 then
    if bitOf (TileView.metaByte s v l (e / 48 / 8)) (e / 48 % 8) then none else some e
  else some e

/-- The scaled value of element `e` of line `l` (R52); none when it is absent. -/
def TileView.value (s : State) (v : TileView) (l e : Nat) : Option XNum :=
  (TileView.place s v l e).map fun p => deq (TileView.stored s v l p) v.fmt (TileView.blockScale s v l e)

/-- Byte keys, values and masks that write an element's code: exactly its bits (R216). -/
def TileView.cells (s : State) (v : TileView) (l e code : Nat) : List (Nat × Byte × Byte) :=
  let k := TileView.keys s v l e
  let val := bytesOfNat k.1.length (code % 2 ^ v.fmt.bits * 2 ^ k.2)
  let msk := bytesOfNat k.1.length ((2 ^ v.fmt.bits - 1) * 2 ^ k.2)
  (List.range k.1.length).map fun i => (k.1.getD i 0, val.getD i 0, msk.getD i 0)

/-! ### Tags and limits (R200 to R202, R316, R317) -/

/-- A reserved format, sparsity, layout or scale code (R201). The two bits [15:14], which must be zero, count as a reserved
code when they are not. [DESIGN CHOICE, log 110] -/
def tagReserved (tag : BitVec 16) : Bool :=
  let f := tag.toNat % 64
  (f ≠ 0 && (Fmt.ofCode f).isNone) || tagSparsity tag = 3 || 4 ≤ tagLayout tag || tagScale tag = 3
    || bitsOf tag.toNat 14 2 ≠ 0

/-- The format of a tag; none when it is untyped. -/
def tagFmt (tag : BitVec 16) : Option Fmt := Fmt.ofCode (tag.toNat % 64)

/-- ROWBYTES of R202. -/
def Tile.rowBytes (t : Tile) : Nat := rowBytesOf t.cols (tagBits t.tag) (tagSparsity t.tag)

/-- The generic address of offset `o` of the core window (R220). -/
def coreWindow (o : Nat) : Nat := windowBase 2 + o

/-- Rod bytes of a rod tile from BASE: data rounded up to 8, then scale codes (R327). -/
def Tile.rodExtent (t : Tile) : Nat :=
  roundUp (ceilDiv (t.rows * tagBits t.tag) 8) 8
    + (if tagScale t.tag = 2 then ceilDiv t.rows 48 else if tagScale t.tag = 1 then 4 else 0)

/-- The limits of R202, R316 and R317 on a tile under its tag; the answer holds the effective pitch, which of a rod tile is
its 0. [DEDUCED, log 54] [DESIGN CHOICE, log 111] -/
def tileLimits (s : State) (team : Nat) (t : Tile) : Res Tile :=
  let tm := s.tm team
  if t.rod then
    if 256 < t.cols || t.axis || t.pitch ≠ 0 || t.base % 8 ≠ 0 then .bad (illegal 0x49)
    else if tm.banks * 8192 < t.base + t.rodExtent then
      .bad (effProt (addrWord (Nat.max t.base (tm.banks * 8192)) 7 false))
    else .ok t
  else
    let al := if tagLayout t.tag = 3 then 64 else 16
    let t1 : Tile := if t.pitch = 0 then { t with pitch := roundUp t.rowBytes al } else t
    if tagSparsity t.tag = 1 && (t.axis || t.cols % 4 ≠ 0) then .bad (illegal 0x49)
    else if t1.pitch % al ≠ 0 || t1.pitch < t.rowBytes then .bad (illegal 0x49)
    else if t.base % 128 ≠ 0 then .bad (illegal 0x49)
    else if tm.q < t1.base + t1.extent then
      .bad (effProt (addrWord (coreWindow (Nat.max t.base tm.q)) 0 false))
    else .ok t1

/-- A tag written to a tile: reserved codes, kind, then the limits (R201, R202). -/
def retag (s : State) (team : Nat) (t : Tile) (tag : BitVec 16) : Res Tile :=
  if tagReserved tag then .bad (illegal 0x41)
  else if (tagLayout tag = 2) != t.rod then .bad (illegal 0x43)
  else tileLimits s team { t with tag := tag }

/-! ### Tile-table entries (R198, R199) -/

/-- Entries that a team holds on a core. -/
def Core.held (c : Core) (team : Nat) : Nat := (c.tiles.filter fun p => p.1 / 2048 = team).length

/-- Teams that reside on a core. -/
def State.residents (s : State) (core : Nat) : List Nat :=
  (s.teams.filter fun t => t.2.cores.contains core && !t.2.vacated).map (·.1)

/-- Entries left in a core's shared pool. -/
def sharedFree (s : State) (core : Nat) : Nat :=
  let ts := s.residents core
  2048 - 16 * ts.length - (ts.map fun t => (s.core core).held t - 16).sum

/-- Entries that a team can still take on a core. -/
def entriesFree (s : State) (core team : Nat) : Nat := 16 - (s.core core).held team + sharedFree s core

/-- The lowest free TN of a team on a core. [DEDUCED, log 53] -/
def lowestTn (s : State) (core team : Nat) : Nat :=
  let used := fun (n : Nat) => (tabGet (s.core core).tiles (tileKey team n)).isSome
  ((List.range ((s.core core).held team + 1)).find? fun n => !used n).getD 0

/-- The handle of an entry (R197). -/
def State.handle (s : State) (team : Nat) (r : TileRef) (gen : Nat) : Word :=
  word (r.key % 2048 + (s.tm team).rank r.core * 2 ^ 11 + gen % 4 * 2 ^ 13)

/-- Takes the lowest free entry for a tile (R198); its handle. [DEDUCED, log 53] -/
def defineTile (s : State) (core team : Nat) (t : Tile) : Word × TileRef × State :=
  let r : TileRef := ⟨core, tileKey team (lowestTn s core team)⟩
  let gen := tabGetD (s.core core).gens r.key 0
  (s.handle team r gen, r, s.modCore core fun c => { c with tiles := tabPut c.tiles r.key { t with gen := gen } })

/-! ### States (R203 to R205) -/

/-- The scratchpad lines of keys, as core and line. -/
def scratchLines (keys : List Nat) : List (Nat × Nat) :=
  ((keys.filter fun k => levelOf k = .scratch).map fun k => (scratchCore k, scratchOfs k / 128)).dedup

/-- Sets or clears the bits of lines (R205). -/
def markLines (s : State) (ls : List (Nat × Nat)) (full : Bool) : State :=
  ls.foldl (fun s l => s.modCore l.1 fun c => { c with
    emptyLines := if full then tabDel c.emptyLines l.2 else tabPut c.emptyLines l.2 () }) s

/-- Fibres parked on a tile may return (R204, R299): on its next change of state, and those that wait for a pending
operation when one completes. -/
def wakeTile (s : State) (r : TileRef) (changed : Bool) : State :=
  { s with fibres := s.fibres.map fun p => match p.2.loc with
      | .parked (.tile c k _ busy) =>
        if c = r.core && k = r.key && (changed || busy) then (p.1, { p.2 with loc := .parked .room }) else p
      | _ => p }

/-- Moves a tile to a state (R203). -/
def setTileState (s : State) (r : TileRef) (st : TileSt) : State :=
  match s.tile r with
  | none => s
  | some t =>
    let s1 := s.modTile r fun x => { x with st := st }
    if st = t.st then s1 else wakeTile s1 r true

/-- A pending loop names the tile (R224). -/
def loopNames (s : State) (r : TileRef) : Bool :=
  s.cores.any fun c => c.2.loops.any fun o => o.ops.isSome && (o.ta = r || o.tb = r)

/-- A pending loop, copy or engine task names the tile (R204). [DEDUCED, log 56] -/
def tileBusy (s : State) (r : TileRef) : Bool :=
  loopNames s r || s.cores.any fun c => c.2.phases.any (fun p => p.tiles.contains r)
    || c.2.tasks.any fun t => t.2.inputs.contains r || t.2.outputs.contains r

/-- Frees an entry, GEN advancing (R198). -/
def freeTile (s : State) (r : TileRef) : State :=
  match s.tile r with
  | none => s
  | some t =>
    let gen := (t.gen + 1) % 4
    wakeTile (s.modCore r.core fun c =>
      { c with tiles := tabDel c.tiles r.key, gens := tabPut c.gens r.key gen }) r true

/-! ### Engines as agents (R329) -/

/-- An agent of a team on a core, for the translations of an engine: its key and the state that holds it. -/
def withAgent (s : State) (core team slice : Nat) : Nat × State :=
  let k := freshFibre s
  (k, { s with fibres := tabPut s.fibres k { Fibre.blank with team := team, core := core, slice := slice } })



end Sys2Proof.Machine
end

