-- ==== Sys2Proof/Machine/Tile.lean ====
section
/-! DEFINITION. Tile instructions: definition, tags, queries, waits, transfers, rod loads and the quantising store
(R206, R207, R210 to R217, R366 to R370). -/

namespace Sys2Proof.Machine

/-! ### What the fibres of GuardMask share (R207) -/

/-- A check of every fibre. -/
def needAll (s : State) (fs : List Nat) (chk : Fibre → Res Unit) : Res Unit :=
  Res.foldM (fun _ f => chk (s.fib f)) () fs
/-- A release of every fibre at a scope. -/
def releaseAll (s : State) (fs : List Nat) (scope : Scope) : Res State :=
  Res.foldM (fun s f => drainAt s f scope false) s fs
/-- An acquire of every fibre at a scope, of carried stamp `k`. -/
def acquireAll (s : State) (fs : List Nat) (scope : Scope) (k : Nat) : Res State :=
  Res.foldM (fun s f => advanceView s f scope k) s fs
/-- The greatest K of the fibres (R344). -/
def greatestK (s : State) (fs : List Nat) : Nat := fs.foldl (fun k f => Nat.max k (s.fib f).k) 0
/-- Writes a register of every fibre. -/
def put32All (s : State) (fs : List Nat) (d : BitVec 8) (v : Word) : State := fs.foldl (fun s f => put32 s f d v) s

/-- Starts an operation of the fibres: its token, with the flag and the destination register it holds (R19, R25). -/
def startOp (s : State) (r : Run) (ft : Ft) (fs : List Nat) (d : Option (BitVec 8)) : Nat × State :=
  let tok := s.seq
  let flag := (flagOf r ft).toList.map fun n => (n, tok)
  let reg := d.toList.map fun n => (n.toNat, tok)
  (tok, s.bump.modFibs fs fun x => { x with pending := x.pending ++ flag, busy := x.busy ++ reg })

/-- Ends an operation that writes a register: the value lands, the flags set (R19, R214). The first read of the register acquires
at team scope the release that ended the operation, of stamp `k` (R344, R348). [DEDUCED, log 58] -/
def landReg (s : State) (fs : List Nat) (tok d : Nat) (v : Word) (k : Nat) : State :=
  let mine := fs.filter fun f => (s.fib f).busy.contains (d, tok)
  let land := fun (x : Fibre) => { x.setReg d v with acq := (x.setReg d v).acq ++ [(d, k)] }
  (s.modFibs mine land).finishTok tok

/-- The tile that a handle names (R197). -/
def tileOf (s : State) (f : Nat) (h : Word) : Res (TileRef × Tile) :=
  match namedTile s (s.fib f).team h.toNat with
  | none => .bad (illegal 0x40)
  | some r => match s.tile r with
    | none => .bad (illegal 0x40)
    | some t => .ok (r, t)

/-- An instruction that finds a tile READY acquires the release that made it so, at team scope (R348). -/
def findReady (s : State) (fs : List Nat) (t : Tile) : Res State := acquireAll s fs .team t.ls

/-- A tile must be READY (R204). -/
def needReady (t : Tile) : Res Unit := Res.await (t.st = .ready)

/-! ### TDEF, TTAG, TQRY, TWAIT, TREL (R210 to R213) -/

/-- The tile that a descriptor gives (R200): its fields' limits and its tag's codes. [DEDUCED, log 54] -/
def descTile (b : List Byte) (base : Word) (chain ready : Bool) : Res Tile :=
  let num := fun (o n : Nat) => natOfBytes ((b.drop o).take n)
  let tag : BitVec 16 := BitVec.ofNat 16 (num 0 2)
  if num 2 2 = 0 || 4096 < num 2 2 || num 4 4 = 0 || 65536 < num 4 4 || 1 < num 8 1 || num 9 1 ≠ 0 || num 0x0A 2 ≠ 0
  then .bad (illegal 0x49)
  else if tagReserved tag then .bad (illegal 0x41)
  else .ok { st := if ready then .ready else .empty, tag := tag, rod := tagLayout tag = 2, base := base.toNat,
             rows := num 2 2, cols := num 4 4, pitch := num 0x0C 4, axis := num 8 1 = 1, chain := chain, gen := 0,
             ls := 0 }

def execTdef (g : Guard) (d : BitVec 8) (a b : Src) (chain ready : Bool) (s : State) : Out :=
  perFlock (.tdef g d a b chain ready) s fun s1 f fs => (needAll s1 fs fun x => need32 x d).bind fun _ =>
    (src64 s1 f a).bind fun va => (src32 s1 f b).bind fun base =>
      (loadBytes s1 f va 16 16 .table false).bind fun r => (descTile r.1 base chain ready).bind fun t =>
        (tileLimits s1 (s1.fib f).team t).bind fun t1 =>
          if entriesFree s1 (s1.fib f).core (s1.fib f).team = 0 then .ok (put32All r.2.2 fs d 0xFFFFFFFF)
          else
            let q := defineTile r.2.2 (s1.fib f).core (s1.fib f).team t1
            .ok (put32All q.2.2 fs d q.1)

def execTtag (g : Guard) (a b : Src) (s : State) : Out :=
  perFlock (.ttag g a b) s fun s1 f fs => (src32 s1 f a).bind fun h => (src32 s1 f b).bind fun tag =>
    (tileOf s1 f h).bind fun r =>
      if tag.toNat / 2 ^ 16 ≠ 0 then .bad (illegal 0x45)
      else (needReady r.2).bind fun _ => (Res.await (!tileBusy s1 r.1)).bind fun _ =>
        (retag s1 (s1.fib f).team r.2 (tag.setWidth 16)).bind fun t =>
          (drained s1 fs).bind fun s0 => (findReady (performCore s0 (s0.fib f).core) fs r.2).bind fun s2 =>
            .ok (s2.modTile r.1 fun _ => t)

/-- TQRY's fields (R212). -/
def queryTile (sel : TSel) (o : Option Tile) : Word :=
  match o, sel with
  | none, .state => 0xFFFFFFFF
  | none, _ => 0
  | some t, .state => word t.st.code
  | some t, .tag => t.tag.setWidth 32
  | some t, .rows => word t.rows
  | some t, .cols => word t.cols
  | some t, .base => word t.base
  | some t, .pitch => word t.pitch
  | some t, .axis => word ((if t.axis then 1 else 0) + (if t.chain then 2 else 0))

def execTqry (g : Guard) (d : BitVec 8) (a : Src) (sel : TSel) (s : State) : Out :=
  lane32 (.tqry g d a sel) d s fun s1 f => (src32 s1 f a).bind fun h =>
    .ok (queryTile sel ((namedTile s1 (s1.fib f).team h.toNat).bind s1.tile))

def execTwait (g : Guard) (a : Src) (empty : Bool) (s : State) : Out :=
  perFlock (.twait g a empty) s fun s1 f fs => (src32 s1 f a).bind fun h => (tileOf s1 f h).bind fun r =>
    (Res.await (r.2.st = if empty then .empty else .ready)).bind fun _ => acquireAll s1 fs .team r.2.ls

/-- TREL (R213): a READY tile that a pending operation names waits. -/
def execTrel (g : Guard) (a : Src) (u : Bool) (s : State) : Out :=
  perFlock (.trel g a u) s fun s1 f fs => (src32 s1 f a).bind fun h => (tileOf s1 f h).bind fun r =>
    (Res.await (r.2.st = .empty || (r.2.st = .ready && !tileBusy s1 r.1))).bind fun _ =>
      (drained s1 fs).bind fun s0 => (if r.2.st = .ready then findReady s0 fs r.2 else .ok s0).bind fun s2 =>
        let s3 := setTileState s2 r.1 .empty
        .ok (if u then freeTile s3 r.1 else s3)

/-! ### Transfers (R205, R209, R214) -/

/-- Cuts a byte range at line boundaries. -/
def lineChunks (a n : Nat) : List (Nat × Nat) :=
  if n = 0 then []
  else (List.range ((a + n - 1) / 128 - a / 128 + 1)).map fun i =>
    let lo := Nat.max a ((a / 128 + i) * 128)
    (lo, Nat.min (a + n) ((a / 128 + i + 1) * 128) - lo)

/-- Translates every chunk of an engine's byte ranges: every PAGE before every PROT (R167). -/
def translateImage (s : State) (f : Nat) (acc : Acc) (segs : List (Nat × Nat)) : Res (List Piece × State) :=
  let ps := segs.flatMap fun r => lineChunks r.1 r.2
  match ps.findSome? fun p => match translate s f (dword p.1) acc false with
    | .bad e => if e.eid = 0x0010 then some e else none
    | _ => none with
  | some e => .bad e
  | none => Res.foldM (fun (q : List Piece × State) p =>
      (translate q.2 f (dword p.1) acc false).bind fun r => .ok (q.1 ++ [⟨r.1, p.2, p.1⟩], r.2)) ([], s) ps

/-- The keys of pieces, in order. -/
def pieceKeys (ps : List Piece) : List Nat := ps.flatMap fun p => (List.range p.n).map (p.place.key + ·)

/-- The same for an engine of a core that acts for a team (R329); it reads the bytes of a load. -/
def engineImage (s : State) (core team slice : Nat) (acc : Acc) (segs : List (Nat × Nat)) : Res (List Piece × State) :=
  let a := withAgent s core team slice
  (translateImage a.2 a.1 acc segs).map fun r =>
    (r.1, if acc = .load then (r.2.delFib a.1).readBy (coreDie core) (pieceKeys r.1) else r.2.delFib a.1)

/-- Writes scratchpad bytes for an engine: stores that left their queues before come first. -/
def engineScratch (s : State) (core : Nat) (cells : List (Nat × Byte × Byte)) (k : Nat) : State :=
  let s1 := (performCore s core).putCells cells
  let s2 := cells.foldl (fun s c => (s.taint c.1).raiseLs c.1 k) s1
  s2.wakeWords (cells.map (·.1))

/-- Which tiles an engine's write untypes (R205): none, or all but one. -/
inductive Untypes where
  | no
  | yes (keep : Option TileRef)
  deriving DecidableEq, Repr

/-- The untyping of the tiles that written bytes belong to (R205). -/
def untypeKeys (s : State) (u : Untypes) (keys : List Nat) : State :=
  match u with
  | .no => s
  | .yes keep => keys.foldl (fun s k => s.untype k keep) s

/-- Performs an engine's write of one piece at device scope; none while a pending version is in the way (R347). -/
def engineWrite (s : State) (core ctx k : Nat) (u : Untypes) (p : Piece) (bytes : List Byte) : Option State :=
  let cells := cellsOf [p] bytes
  if p.place.kind = .scratch then
    some (untypeKeys (engineScratch s (scratchCore p.place.key) cells k) u (cells.map (·.1)))
  else performStore s core ⟨cells, dword p.va, .device, false, none, 0, ctx, k, false, none⟩

/-- Writes bytes over pieces, in order. -/
def engineWrites (s : State) (core ctx k : Nat) (u : Untypes) : List Piece → List Byte → Option State
  | [], _ => some s
  | p :: r, bs => (engineWrite s core ctx k u p (bs.take p.n)).bind fun s1 =>
    engineWrites s1 core ctx k u r (bs.drop p.n)

/-- Undefined bytes (R10, R209). -/
def undefinedBytes (s : State) (n : Nat) : List Byte × State :=
  let (vs, s1) := s.drawMany n
  (vs.map fun v => v.setWidth 8, s1)

/-- Bytes that a row of a transfer moves. -/
def Tile.moved (t : Tile) (pitch : Nat) : Nat := Nat.min t.pitch (if pitch = 0 then t.pitch else pitch)

/-- The memory image of a tile (R214): its rows, then the scale and metadata block. -/
def Tile.image (t : Tile) (va pitch : Nat) : List (Nat × Nat) :=
  let p := if pitch = 0 then t.pitch else pitch
  ((List.range t.rows).map fun r => (va + r * p, t.moved pitch))
    ++ [(va + t.rows * p, t.scaleSize + t.metaSize)]

/-- The keys of a tile's bytes in the order of its image. -/
def tileImageKeys (s : State) (r : TileRef) (t : Tile) (pitch : Nat) : List Nat :=
  ((List.range t.rows).flatMap fun i => (List.range (t.moved pitch)).map fun o => rowKey s r.core (r.key / 2048) t i o)
    ++ (List.range (t.scaleSize + t.metaSize)).map fun o => areaKey s r.core (r.key / 2048) t o

/-- The checks of TLD and TST at issue (R214). -/
def checkTransfer (s : State) (f : Nat) (t : Tile) (va : DWord) (pitch : Nat) (store : Bool) : Res State :=
  let acc := if store then Acc.engine else Acc.load
  if t.rod then .bad (illegal 0x43)
  else if pitch ≠ 0 && (pitch % 16 ≠ 0 || pitch < t.rowBytes) then .bad (illegal 0x45)
  else if va.toNat % 16 ≠ 0 then .bad (effAlign (addrWord va.toNat acc.code false))
  else (translateImage s f acc (t.image va.toNat pitch)).map fun r => r.2

/-- The bytes of a scratchpad tile that a convert writes: the data of each row and the scale codes (R235). -/
def convertKeys (s : State) (r : TileRef) (t : Tile) : List Nat :=
  let codes := if tagScale t.tag = 2 then ceilDiv t.lineLen 48 else 0
  ((List.range t.rows).flatMap fun i => (List.range t.rowBytes).map fun o => rowKey s r.core (r.key / 2048) t i o)
    ++ (List.range t.lineCount).flatMap fun l => (List.range codes).map fun b =>
      areaKey s r.core (r.key / 2048) t (l * t.scaleStride + b)

/-- The scratchpad lines that a transfer will write (R205): RODLD and TST write none. -/
def Xfer.fills (s : State) (x : Xfer) : List (Nat × Nat) :=
  match x.dst.bind fun r => (s.tile r).map fun t => (r, t) with
  | none => []
  | some (r, t) =>
    if t.rod then []
    else scratchLines (if x.kind = .convert then convertKeys s r t else tileImageKeys s r t x.pitch)

/-- Hands a transfer to its engine (R203, R205, R214): the tile fills or drains, and the lines to be written are empty. -/
def beginTransfer (s : State) (core : Nat) (x : Xfer) : State :=
  let s1 := match x.dst with
    | some r => setTileState s r .filling
    | none => s
  let s2 := match x.src with
    | some r => setTileState s1 r .draining
    | none => s1
  let ls := x.fills s
  (markLines s2 ls false).modCore core fun c => { c with xfers := c.xfers ++ [{ x with lines := ls }] }

/-- TLD and TST. -/
def transferTile (s : State) (run : Run) (f : Nat) (fs : List Nat) (d : BitVec 8) (a b c : Src) (ft : Ft)
    (store : Bool) : Res State :=
  (needAll s fs fun x => need32 x d).bind fun _ => (src32 s f a).bind fun h => (src64 s f b).bind fun va =>
    (src32 s f c).bind fun pitch => (tileOf s f h).bind fun r =>
      (checkTransfer s f r.2 va pitch.toNat store).bind fun s1 =>
        (Res.await (r.2.st = if store then .ready else .empty)).bind fun _ =>
          (drained s1 fs).bind fun s0 => (if store then findReady s0 fs r.2 else .ok s0).bind fun s2 =>
            let (tok, s3) := startOp s2 run ft fs (some d)
            let x : Xfer := ⟨if store then .store else .load, (s.fib f).team, (s.fib f).slice,
              if store then some r.1 else none, if store then none else some r.1, va, pitch.toNat, r.2.tag,
              greatestK s fs, fs, some d.toNat, some tok, none, [], 0⟩
            .ok (beginTransfer s3 (s.fib f).core x)

def execTld (g : Guard) (d : BitVec 8) (a b c : Src) (ft : Ft) (s : State) : Out :=
  perFlock (.tld g d a b c ft) s fun s1 f fs => transferTile s1 s.run f fs d a b c ft false
def execTst (g : Guard) (d : BitVec 8) (a b c : Src) (ft : Ft) (s : State) : Out :=
  perFlock (.tst g d a b c ft) s fun s1 f fs => transferTile s1 s.run f fs d a b c ft true

/-! ### RODLD (R215) -/

/-- The tag that a rod load gives its destination. -/
def rodTag (tag : BitVec 16) : BitVec 16 := tag &&& 0xF0FF#16 ||| 0x0200#16

/-- The checks of a rod load, in the order written; the answer is the destination under its new tag. -/
def checkRodLoad (s : State) (team : Nat) (dst src : Tile) : Res Tile :=
  if src.rod || tagLayout src.tag ≠ 1 || src.axis then .bad (illegal 0x43)
  else if !dst.rod || dst.rows ≠ src.cols || dst.cols ≠ src.rows then .bad (illegal 0x46)
  else if tagSparsity src.tag ≠ 0 && tagSparsity src.tag ≠ 2 then .bad (illegal 0x43)
  else tileLimits s team { dst with tag := rodTag src.tag }

def execRodld (g : Guard) (d : BitVec 8) (a b : Src) (ft : Ft) (s : State) : Out :=
  perFlock (.rodld g d a b ft) s fun s1 f fs => (needAll s1 fs fun x => need32 x d).bind fun _ =>
    (src32 s1 f a).bind fun ha => (src32 s1 f b).bind fun hb => (tileOf s1 f ha).bind fun dst =>
      (tileOf s1 f hb).bind fun src => (checkRodLoad s1 (s1.fib f).team dst.2 src.2).bind fun _ =>
        (Res.await (dst.2.st = .empty)).bind fun _ => (needReady src.2).bind fun _ =>
          (Res.await (!loopNames s1 dst.1 && !loopNames s1 src.1)).bind fun _ =>
            (drained s1 fs).bind fun s0 => (findReady s0 fs src.2).bind fun s2 =>
              let (tok, s3) := startOp s2 s.run ft fs (some d)
              let x : Xfer := ⟨.rod, (s1.fib f).team, (s1.fib f).slice, some src.1, some dst.1, 0, 0,
                rodTag src.2.tag, greatestK s1 fs, fs, some d.toNat, some tok, none, [], 0⟩
              .ok (beginTransfer s3 (s1.fib f).core x)

/-! ### The quantising store (R216, R366, R367) -/

/-- The target of a QST: a scratchpad tile in a format that it writes. -/
def qstTarget (t : Tile) : Res Fmt :=
  if t.rod then .bad (illegal 0x43)
  else match tagFmt t.tag with
    | none => .bad (illegal 0x44)
    | some m => if m = .fp32 || tagSparsity t.tag ≠ 0 || tagScale t.tag = 1 then .bad (illegal 0x44) else .ok m

/-- The side tile of a QST.keep (R216). -/
def qstSide (s : State) (f : Nat) (keep : Option Src) (cnt : Nat) : Res (Option (TileRef × Tile)) :=
  match keep with
  | none => .ok none
  | some c => (src32 s f c).bind fun h => (tileOf s f h).bind fun r =>
    if r.2.rod || tagFmt r.2.tag ≠ some .fp32 || r.2.cols < cnt then .bad (illegal 0x44) else .ok (some r)

/-- A side tile, too, must be READY (R204). -/
def sideReady (side : Option (TileRef × Tile)) : Res Unit :=
  match side with
  | none => .ok ()
  | some u => needReady u.2

/-- What a QST finds READY as its side tile, it acquires (R348). -/
def sideFound (s : State) (f : Nat) (side : Option (TileRef × Tile)) : Res State :=
  match side with
  | none => .ok s
  | some u => findReady s [f] u.2

/-- CarryHandOver of R367. -/
def carryHandOver (x : Fibre) (k : Nat) : Word := x.cy.getD k 0

/-- The codes of a QST and the carry after the last one, in ascending element order (R59, R216). -/
def qstCodes (m : Fmt) (scale : Nat → Nat) : Nat → List Word → Nat → List Nat × Nat
  | c, [], _ => ([], c)
  | c, v :: vs, e =>
    let r := quantiseElement v.toNat c m (scale e)
    let q := qstCodes m scale r.2 vs (e + 1)
    (r.1 :: q.1, q.2)

/-- A store of element cells, at fibre scope, that keeps the tile's tag. -/
def elementStore (s : State) (f : Nat) (cells : List (Nat × Byte × Byte)) (tok : Option Nat) : State :=
  enqueueStore s f ⟨cells, 0, .fibre, false, none, f, s.ctxOf f, (s.fib f).k, false, tok⟩

/-- Sets a carry register. -/
def Fibre.setCy (x : Fibre) (k : Nat) (v : Word) : Fibre := { x with cy := setAt x.cy k v }

/-- The stores of a QST in order, the operation's flag on the last. -/
def pushElements (s : State) (f : Nat) (tok : Option Nat) : List (List (Nat × Byte × Byte)) → State
  | [] => s
  | [c] => elementStore s f c tok
  | c :: r => pushElements (elementStore s f c none) f tok r

/-- The barrier rule of R193 for the element stores of a QST: CLOBBER names the first byte, in element order, that a live barrier
line holds. [DESIGN CHOICE, log 119] -/
def elementClobber (s : State) (team : Nat) (cells : List (Nat × Byte × Byte)) : Res Unit :=
  match cells.find? fun c => s.barrierLive c.1 with
  | none => .ok ()
  | some c => .bad (effClobber (addrWord
      (coreWindow (scratchOfs c.1 - (s.core (scratchCore c.1)).area team 0)) 1 false))

/-- QST for one lane (R216): its element stores are checked before any of them joins the queue (R167, R193), and what it finds
READY, the side tile of .keep too, it acquires (R348). -/
def qstLane (s : State) (run : Run) (f : Nat) (d : BitVec 8) (a b : Src) (keep : Option Src) (n cy : Nat) (ft : Ft) :
    Res State :=
  (src32 s f a).bind fun h => (tileOf s f h).bind fun r =>
    let t := r.2
    let team := (s.fib f).team
    (qstTarget t).bind fun m => (qstSide s f keep t.lineCount).bind fun side =>
      if d.toNat % Nat.min n 8 ≠ 0 then .bad (illegal 0x4A)
      else (needRegs (s.fib f) d.toNat n).bind fun _ => (src32 s f b).bind fun pos =>
        let l := pos.toNat % 2 ^ 12
        let e := bitsOf pos.toNat 12 16
        if pos.toNat / 2 ^ 28 ≠ 0 || t.lineCount ≤ l || t.lineLen < e + n then .bad (illegal 0x45)
        else (needReady t).bind fun _ => (sideReady side).bind fun _ => (findReady s [f] t).bind fun s0 =>
          (sideFound s0 f side).bind fun s1 =>
          let v := TileView.ofTag r.1.core team t m
          let scale := fun (e : Nat) => if v.scale = 2 then
              let k := TileView.scaleKey s v l (e / 48)
              (overlay (s.fib f).queue k (engineByte s v.core k)).toNat
            else 0x7F
          let vals := (List.range n).map fun i => (s.fib f).reg (d.toNat + i)
          let q := qstCodes m scale (carryHandOver (s.fib f) cy).toNat vals e
          let stores := (List.range n).map fun i => TileView.cells s v l (e + i) (q.1.getD i 0)
          let ends := t.lineLen = e + n && !t.chain
          let kept := match side with
            | some u => if ends then
                [TileView.cells s ⟨u.1.core, team, { u.2 with axis := false }, .fp32, 0, 0⟩ 0 l q.2] else []
            | none => []
          (elementClobber s team (stores ++ kept).flatten).bind fun _ =>
          let (tok, s2) := startTok s1 run ft [f]
          .ok ((pushElements s2 f tok (stores ++ kept)).modFib f fun x => x.setCy cy (if ends then 0 else word q.2))

def execQst (g : Guard) (d : BitVec 8) (a b : Src) (keep : Option Src) (n : QstN) (cy : BitVec 3) (ft : Ft)
    (s : State) : Out :=
  perLane (.qst g d a b keep n cy ft) s fun _ s1 f _ =>
    (qstLane s1 s.run f d a b keep (QstN.count n) cy.toNat ft).map fun s2 => (.next, s2)

/-- CYRD and CYWR (R217). -/
def execCyrd (g : Guard) (d : BitVec 8) (cy : BitVec 3) (s : State) : Out :=
  lane32 (.cyrd g d cy) d s fun s1 f => .ok (carryHandOver (s1.fib f) cy.toNat)
def execCywr (g : Guard) (a : Src) (cy : BitVec 3) (s : State) : Out :=
  perLane (.cywr g a cy) s fun _ s1 f _ => (src32 s1 f a).bind fun v =>
    .ok (.next, s1.modFib f fun x => x.setCy cy.toNat v)

end Sys2Proof.Machine
end

