-- ==== Sys2Proof/Machine/Matrix.lean ====
section
/-! DEFINITION. Matrix-loop instructions: arming, acceptance, waits and accumulator moves (R24, R218 to R229). -/

namespace Sys2Proof.Machine

/-! ### Banks -/

/-- A bank that the team does not hold raises PROT (R24). -/
def needBank (s : State) (f bank : Nat) : Res Unit :=
  if bank < (s.tm (s.fib f).team).banks then .ok () else .bad (effProt (addrWord bank 7 false))

/-- The work of a bank that the array has not ended. -/
def BankOp.open (o : BankOp) : Bool := o.ops.isNone || o.next < o.steps

/-- A bank's queue holds 8 loops and zeroings (R222). [DEDUCED, log 56] -/
def bankRoom (s : State) (core team bank : Nat) : Bool :=
  ((s.core core).loops.filter fun o => o.team = team && o.bank = bank && o.open).length < 8

/-- Work is left on a bank of a team. -/
def bankBusy (s : State) (core team bank : Nat) : Bool :=
  (s.core core).loops.any fun o => o.team = team && o.bank = bank

/-- A bank has a loop without a matching wait (R224). [DEDUCED, log 57] -/
def bankUnwaited (s : State) (core team bank : Nat) : Bool :=
  (s.core core).waits.any fun w => w.team = team && w.bank = bank

/-! ### Loop and format words (R218) -/

structure LoopWord where
  ah : BitVec 16
  bh : BitVec 16
  steps : Nat
  ainc : Nat
  binc : Nat
  bad : Bool
  deriving DecidableEq, Repr

/-- The fields of a loop word. -/
def loopWord (w : DWord) : LoopWord :=
  let n := w.toNat
  ⟨BitVec.ofNat 16 n, BitVec.ofNat 16 (n / 2 ^ 16), bitsOf n 32 12, bitsOf n 44 8, bitsOf n 52 8,
    bitsOf n 60 4 ≠ 0 || bitsOf n 32 12 = 0⟩

/-- Width class of a format (R62): element bits that a step divides 3072 by; none outside the table. -/
def widthClass : Fmt → Option Nat
  | .fp16 | .bf16 => some 16
  | .int8 | .bead8 => some 8
  | .bead6 => some 6
  | .int4 | .bead4 => some 4
  | _ => none

/-- Elements of a step (R40). -/
def stepDepth (cls : Nat) : Nat := 3072 / cls
/-- Group size G (R62). -/
def groupDepth (cls : Nat) : Nat := if cls = 16 then 4 else if cls = 8 then 8 else if cls = 6 then 32 else 16

/-- NOMETHOD of a loop with the tag that failed (R280). -/
def loopNoMethod (tag : BitVec 16) : Eff := effNoMethod (0xFFFF + tag.toNat * 2 ^ 16)

/-- Format code, scale mode and sparsity: of a tag, and of a side of a format word. -/
def tagTriple (tag : BitVec 16) : Nat × Nat × Nat := (tag.toNat % 64, tagScale tag, tagSparsity tag)

/-- An operand's triple under a format word, with the checks of R218 on one operand. -/
def operandTriple (tag : BitVec 16) (fw : Word) (w : Nat × Nat × Nat) : Res (Nat × Nat × Nat) :=
  if fw = 0 then (if tag.toNat % 64 = 0 then .bad (loopNoMethod tag) else .ok (tagTriple tag))
  else if tag.toNat % 64 ≠ 0 && decide (tagTriple tag ≠ w) then .bad (loopNoMethod tag)
  else .ok w

/-- A format code is not reserved (R40). -/
def fmtKnown (c : Nat) : Bool := c = 0 || (Fmt.ofCode c).isSome

/-- The operands of a loop (R218). -/
def resolveOps (ta tb : BitVec 16) (fw : Word) (w : LoopWord) : Res LoopOps :=
  let n := fw.toNat
  let wa := (bitsOf n 0 6, bitsOf n 12 2, bitsOf n 16 2)
  let wb := (bitsOf n 6 6, bitsOf n 14 2, 0)
  if bitsOf n 18 14 ≠ 0 || !fmtKnown wa.1 || !fmtKnown wb.1 || wa.2.1 = 3 || wb.2.1 = 3 || wa.2.2 = 3 then
    .bad (illegal 0x41)
  else (operandTriple ta fw wa).bind fun a => (operandTriple tb fw wb).bind fun b =>
    if b.2.2 ≠ 0 then .bad (loopNoMethod tb)
    else match Fmt.ofCode a.1, Fmt.ofCode b.1 with
      | some fa, some fb =>
        if (widthClass fa).isNone || widthClass fa ≠ widthClass fb then .bad (loopNoMethod ta)
        else if fa = .bead6 && (w.ainc % 3 ≠ 0 || w.binc % 3 ≠ 0) then .bad (illegal 0x45)
        else .ok ⟨fa, fb, a.2.1, b.2.1, a.2.2⟩
      | _, _ => .bad (loopNoMethod ta)

/-! ### The checks of R220 -/

/-- Bytes of a row that a step reads: 48 clocks of 8 bytes, or 24 with a 2:4 A (R222, R326). -/
def stepBytes (sparse : Nat) : Nat := if sparse = 1 then 192 else 384

/-- The lowest byte at or above `lim` among [b + i × d, b + i × d + n) for i < steps. -/
def firstOutside (b d n steps lim : Nat) : Option Nat :=
  let i := if lim < b + n then 0 else if d = 0 then steps else (lim - n - b) / d + 1
  if i < steps then some (Nat.max (b + i * d) lim) else none

/-- The least of some numbers. -/
def leastOf (l : List Nat) : Option Nat := l.foldl (fun m x => match m with
  | none => some x
  | some y => some (Nat.min x y)) none

/-- The parts of `unit` elements, of a row of `len`, that hold an element of a step: step i takes the elements from i × d on,
`depth` of them (R221). -/
def usedParts (unit len d depth steps : Nat) : List Nat :=
  (List.range (ceilDiv len unit)).filter fun u =>
    let i := if u * unit < depth then 0 else if d = 0 then steps else (u * unit - depth) / d + 1
    i < steps && i * d < Nat.min len ((u + 1) * unit)

/-- Offsets in a line's scale codes and in its metadata that the steps of a loop read (R221, R316). -/
def TileView.scaleReads (v : TileView) (d depth steps : Nat) : List Nat :=
  if v.scale = 1 then List.range 4 else if v.scale = 2 then usedParts 48 v.t.lineLen d depth steps else []
def TileView.metaReads (v : TileView) (d depth steps : Nat) : List Nat :=
  if v.sparse = 1 then usedParts 8 v.t.lineLen d depth steps
  else if v.sparse = 2 then usedParts 384 v.t.lineLen d depth steps else []

/-- The extent check of R220: the bytes of the Reads of R221, with the scale codes, the row factors and the metadata of the
elements that the steps take. [DEDUCED, log 55] -/
def loopExtent (s : State) (team : Nat) (ta tb : Tile) (o : LoopOps) (w : LoopWord) : Res Unit :=
  let q := (s.tm team).q
  let rods := (s.tm team).banks * 8192
  let depth := stepDepth ((widthClass o.fmtA).getD 8)
  let va : TileView := ⟨0, team, ta, o.fmtA, o.scaleA, o.sparse⟩
  let vb : TileView := ⟨0, team, tb, o.fmtB, o.scaleB, 0⟩
  let da := (List.range ta.rows).filterMap fun a =>
    firstOutside (ta.base + a * ta.pitch) (if o.sparse = 1 then w.ainc * 4 else w.ainc * 8) (stepBytes o.sparse) w.steps q
  let ea := w.ainc * 64 / o.fmtA.bits
  let aux := (List.range ta.rows).flatMap fun a =>
    (va.scaleReads ea depth w.steps).map (fun b => a * va.scaleStride + b)
      ++ (va.metaReads ea depth w.steps).map fun b => va.scaleSize + a * va.metaStride + b
  let sa := (aux.map (ta.base + ta.dataSize + ·)).filter (q ≤ ·)
  let s0 := tb.base + roundUp (ceilDiv (tb.rows * o.fmtB.bits) 8) 8
  let sb := ((vb.scaleReads (w.binc * 64 / o.fmtB.bits) depth w.steps).map (s0 + ·)).filter (rods ≤ ·)
  let db := (firstOutside tb.base (w.binc * 8) 384 w.steps rods).toList
  match leastOf (da ++ sa), leastOf (db ++ sb) with
  | some x, _ => .bad (effProt (addrWord (coreWindow x) 0 false))
  | none, some y => .bad (effProt (addrWord y 7 false))
  | none, none => .ok ()

/-- A loop whose operands have passed every check but those of its barrier and its waits. -/
structure LoopPlan where
  ra : TileRef
  rb : TileRef
  ta : Tile
  tb : Tile
  ops : LoopOps
  w : LoopWord
  deriving DecidableEq, Repr

/-- Kinds and geometry (R220). -/
def loopShape (ta tb : Tile) (w : LoopWord) : Res Unit :=
  if w.bad then .bad (illegal 0x45)
  else if ta.rod || (tagLayout ta.tag ≠ 0 && tagLayout ta.tag ≠ 3) || !tb.rod then .bad (illegal 0x43)
  else if ta.axis || 64 < ta.rows || tb.rows ≠ ta.cols then .bad (illegal 0x46)
  else .ok ()

/-- The barrier of a loop, fork or dispatch: 128-aligned, accessible, not in host memory, live (R220, R236). -/
def namedBarrier (s : State) (f : Nat) (ba : DWord) : Res (Nat × State) :=
  (checkAccess s f ba 1 128 .atomic).bind fun r =>
    let p := (firstPiece r.1).place
    if p.kind = .host then .bad (effProt (addrWord ba.toNat 2 false))
    else if !r.2.barrierLive p.key then .bad (effClobber (addrWord ba.toNat 2 false))
    else (r.2.sound p.key 24).bind fun _ => .ok (lineOf p.key, r.2)

/-- A barrier address of 0 names no barrier. -/
def loopBarrier (s : State) (f : Nat) (ba : DWord) : Res (Option Nat × State) :=
  if ba = 0 then .ok (none, s) else (namedBarrier s f ba).map fun r => (some r.1, r.2)

/-- The group of a task of a core. -/
def taskGroup (s : State) (core : Nat) (task : Option Nat) : Option Nat :=
  task.bind fun t => (tabGet (s.core core).tasks t).map fun x => x.group

/-- Accepts a loop into its bank's queue; until its matching wait its operand and its elements are undefined to the team
(R222, R224). The stores to the operand that have left their queues by then are performed first: they come before the loop
(R219, R370). -/
def acceptLoop (s : State) (core team bank : Nat) (p : LoopPlan) (obj : Option Nat) (k : Nat) (task tok : Option Nat)
    (fs : List Nat) : State :=
  let o : BankOp := {
    team := team, bank := bank, ops := some p.ops, ta := p.ra, tb := p.rb, steps := p.w.steps, ainc := p.w.ainc,
    binc := p.w.binc, next := 0, nbv := (s.tm team).nbv, obj := obj, k := k, nan0 := [], nans := 0, errs := 0,
    lost := [], task := task,
    tok := tok, fibres := fs }
  let v : TileView := ⟨p.ra.core, team, p.ta, p.ops.fmtA, p.ops.scaleA, p.ops.sparse⟩
  let w : LoopWait := {
    team := team, bank := bank, line := obj, group := taskGroup s core task, rdv := none, acore := p.ra.core,
    lo := p.ta.base, k := k,
    hi := p.ta.base + p.ta.dataSize + v.scaleSize + v.metaSize, rows := p.ta.rows, cols := p.tb.cols, arr := none, ended := false,
    tainted := false }
  (performCore s core).modCore core fun c => { c with loops := c.loops ++ [o], waits := c.waits ++ [w] }

/-- Accepts a zeroing of a bank (R228). -/
def acceptZero (s : State) (core team bank k : Nat) (task : Option Nat) : State :=
  let o : BankOp := {
    team := team, bank := bank, ops := none, ta := ⟨0, 0⟩, tb := ⟨0, 0⟩, steps := 0, ainc := 0, binc := 0, next := 0,
    nbv := 0, obj := none, k := k, nan0 := [], nans := 0, errs := 0,
    lost := [], task := task, tok := none, fibres := [] }
  let w : LoopWait := {
    team := team, bank := bank, line := none, group := taskGroup s core task, rdv := none, acore := core, lo := 0, hi := 0, rows := 0,
    cols := 0, k := k, arr := none, ended := false, tainted := false }
  s.modCore core fun c => { c with loops := c.loops ++ [o], waits := c.waits ++ [w] }

/-! ### Instructions -/

/-- Every store of some fibres to a scratchpad that has left its queue is performed (R219, R370). -/
def scratchSettled (s : State) (core : Nat) (fs : List Nat) : Bool :=
  !((s.core core).order.any fun r => fs.contains r.fibre && r.cells.any fun c => levelOf c.1 = .scratch)

/-- MREADY (R219): the drain, and the drained stores to scratchpads performed, so that none of them meets the loop. -/
def execMready (g : Guard) (a : Src) (s : State) : Out :=
  perFlock (.mready g a) s fun s1 f fs => (src64 s1 f a).bind fun lw =>
    let w := loopWord lw
    (tileOf s1 f (w.ah.setWidth 32)).bind fun ta => (tileOf s1 f (w.bh.setWidth 32)).bind fun tb =>
      (needReady ta.2).bind fun _ => (needReady tb.2).bind fun _ =>
        (drained s1 fs).bind fun sd =>
        let s0 := performCore sd (s1.fib f).core
        (Res.await (scratchSettled s0 (s1.fib f).core fs)).bind fun _ =>
        (findReady s0 fs ta.2).bind fun s2 => (findReady s2 fs tb.2).bind fun s3 =>
          .ok (s3.modFibs fs fun x => { x with armed := some (w.ah, w.bh) })

/-- The format words of the lanes agree (R220): the word of the lowest lane. -/
def agreedFormat (s : State) (c : Src) (fs : List Nat) : Res Word :=
  (Res.mapM (fun f => (src32 s f c).map fun w => (f, w)) fs).bind fun ws =>
    let w0 := (ws.headD (0, 0)).2
    let off := Mask.ofLanes ((ws.filter fun p => p.2 ≠ w0).map fun p => (s.fib p.1).home)
    if off = 0 then .ok w0 else .bad (effSplit (w0.toNat + off.toNat * 2 ^ 32))

/-- MLOOP (R220): the checks in the order written, then the waits, then acceptance. -/
def execMloop (g : Guard) (d : BitVec 8) (a b c : Src) (bank : BitVec 2) (ft : Ft) (s : State) : Out :=
  perFlock (.mloop g d a b c bank ft) s fun s1 f fs => (needAll s1 fs fun x => need32 x d).bind fun _ =>
    (Res.foldM (fun _ h => (src32 s1 h c).map fun _ => ()) () fs).bind fun _ => (src64 s1 f a).bind fun lw => (src64 s1 f b).bind fun ba =>
      let w := loopWord lw
      let core := (s1.fib f).core
      let team := (s1.fib f).team
      if fs.any fun h => (s1.fib h).armed ≠ some (w.ah, w.bh) then .bad (illegal 0x42)
      else (needBank s1 f bank.toNat).bind fun _ => (tileOf s1 f (w.ah.setWidth 32)).bind fun ta =>
        (tileOf s1 f (w.bh.setWidth 32)).bind fun tb => (loopShape ta.2 tb.2 w).bind fun _ =>
          (agreedFormat s1 c fs).bind fun fw => (resolveOps ta.2.tag tb.2.tag fw w).bind fun ops =>
            (loopExtent s1 team ta.2 tb.2 ops w).bind fun _ => (loopBarrier s1 f ba).bind fun br =>
              (needReady ta.2).bind fun _ => (needReady tb.2).bind fun _ =>
                (Res.await (bankRoom s1 core team bank.toNat)).bind fun _ =>
                  (findReady br.2 fs ta.2).bind fun s2 => (findReady s2 fs tb.2).bind fun s3 =>
                    let phase := match br.1 with
                      | none => 0
                      | some l => s3.barField l 8 4
                    let (tok, s4) := startTok s3 s.run ft fs
                    let s5 := acceptLoop s4 core team bank.toNat ⟨ta.1, tb.1, ta.2, tb.2, ops, w⟩ br.1
                      (greatestK s4 fs) none tok fs
                    .ok ((put32All s5 fs d (word phase)).modFibs fs fun x => { x with armed := none })

/-- MWAIT (R226): every loop and zeroing accepted on the bank so far has completed. [DEDUCED, log 57] -/
def execMwait (g : Guard) (bank : BitVec 2) (s : State) : Out :=
  perFlock (.mwait g bank) s fun s1 f fs => (needBank s1 f bank.toNat).bind fun _ =>
    let core := (s1.fib f).core
    let team := (s1.fib f).team
    let mine := fun (w : LoopWait) => w.team = team && w.bank = bank.toNat
    (Res.await (!bankBusy s1 core team bank.toNat)).bind fun _ =>
      let k := ((s1.core core).waits.filter mine).foldl (fun k w => Nat.max k w.k) 0
      (acquireAll s1 fs .team k).map fun s2 => matchLoops s2 core mine

/-- The checks of ACCRD and ACCWR (R227): the row, the column and the physical bank. -/
def accPlace (s : State) (f : Nat) (d : BitVec 8) (a : Src) (bank n : Nat) : Res (Nat × Nat × Nat) :=
  (needRegs (s.fib f) d.toNat n).bind fun _ => (src32 s f a).bind fun pos =>
    let col := pos.toNat % 256
    if pos.toNat / 2 ^ 14 ≠ 0 || 256 < col + n then .bad (illegal 0x45)
    else if d.toNat % n ≠ 0 then .bad (illegal 0x4A)
    else (needBank s f bank).bind fun _ =>
      .ok (bitsOf pos.toNat 8 6, col, ((s.core (s.fib f).core).physBank (s.fib f).team bank).getD 0)

/-- ACCRD (R227): an element of a bank without a matching wait is undefined (R224). -/
def accRead (s : State) (f : Nat) (d : BitVec 8) (a : Src) (bank n : Nat) : Res State :=
  (accPlace s f d a bank n).bind fun p =>
    let core := (s.fib f).core
    if bankUnwaited s core (s.fib f).team bank then
      let (vs, s1) := s.drawMany n
      .ok (s1.modFib f fun x => (List.range n).foldl (fun x i => x.setReg (d.toNat + i) (lowWord (vs.getD i 0))) x)
    else .ok (s.modFib f fun x => (List.range n).foldl (fun x i =>
      x.setReg (d.toNat + i) (tabGetD (s.core core).acc (accKey p.2.2 p.1 (p.2.1 + i)) 0)) x)

def execAccrd (g : Guard) (d : BitVec 8) (a : Src) (bank : BitVec 2) (n : AccN) (s : State) : Out :=
  perLane (.accrd g d a bank n) s fun _ s1 f _ => (accRead s1 f d a bank.toNat (accCount n)).map fun s2 => (.next, s2)

def execAccwr (g : Guard) (d : BitVec 8) (a : Src) (bank : BitVec 2) (n : AccN) (s : State) : Out :=
  perLane (.accwr g d a bank n) s fun _ s1 f _ => (accPlace s1 f d a bank.toNat (accCount n)).bind fun p =>
    let x := s1.fib f
    let put := fun (t : Tab Word) (i : Nat) => tabPutD t (accKey p.2.2 p.1 (p.2.1 + i)) (x.reg (d.toNat + i)) 0
    .ok (.next, s1.modCore x.core fun c => { c with acc := (List.range (accCount n)).foldl put c.acc })

/-- ACCZ (R228). -/
def execAccz (g : Guard) (bank : BitVec 2) (s : State) : Out :=
  perFlock (.accz g bank) s fun s1 f fs => (needBank s1 f bank.toNat).bind fun _ =>
    let core := (s1.fib f).core
    let team := (s1.fib f).team
    (Res.await (bankRoom s1 core team bank.toNat)).bind fun _ =>
      .ok (acceptZero s1 core team bank.toNat (greatestK s1 fs) none)

/-- The arrival that writes the status word of a line is still due, or has not flipped the phase yet: a loop, a copy or a task of
the line is unfinished, or a loop has arrived in the phase that the line is in (R223, R229). -/
def statusDue (s : State) (line : Nat) : Bool :=
  s.cores.any fun c => (c.2.loops.any fun o => o.obj = some line) || (c.2.phases.any fun p => p.obj = line)
    || (c.2.groups.any fun g => g.2.obj = line)
    || c.2.waits.any fun w => (w.line = some line || w.rdv = some line) && w.arr = some (s.barField line 8 4)

/-- MSTAT (R229): STATUS at the line's atomic point of team scope, zeroed by .clr, then an acquire at team scope of the line's
carried stamp (R344). A status word read before the phase has flipped is a software error: D, and the STATUS that .clr writes,
are undefined (R11). [DEDUCED, log 57] Of a line in host memory, which no atomic of team scope reaches (R178), it raises PROT with
the ACC of a load. [DESIGN CHOICE, log 119] -/
def execMstat (g : Guard) (d : BitVec 8) (a : Src) (clr : Bool) (s : State) : Out :=
  perLane (.mstat g d a clr) s fun _ s1 f _ => (need64 (s1.fib f) d).bind fun _ => (src64 s1 f a).bind fun va =>
    (checkAccess s1 f va 24 128 .load).bind fun r =>
      let p := (firstPiece r.1).place
      if p.kind = .host then .bad (effProt (addrWord va.toNat 0 false))
      else (settleStores r.2 f).bind fun s2 =>
        let line := lineOf p.key
        let due := statusDue s2 line
        let (vs, s3) := if due then s2.drawMany 2 else ([], s2)
        let cleared := if due then bytesOfNat 8 (vs.getD 1 0).toNat else List.replicate 8 0
        (atomicAt s3 f (va + 16) ⟨p.kind, p.key + 16⟩ 8 .team fun _ => if clr then some cleared else none).bind fun q =>
          (advanceView q.2.2 f .team (s2.line line).ls).bind fun s4 =>
            .ok (.next, put64 s4 f d (if due then vs.getD 0 0 else dword (natOfBytes q.1)))

end Sys2Proof.Machine
end

