-- ==== Sys2Proof/Machine/Copy.lean ====
section
/-! DEFINITION. Collective copies (R209, R230 to R233, R362, R365). -/

namespace Sys2Proof.Machine

/-! ### Status words (R209, R362) -/

/-- The merge of R362: STATUS `old` with a new status word. -/
def mergeWord (old new : Nat) : Nat :=
  let code := if bitsOf old 32 8 ≠ 0 then bitsOf old 32 8 else bitsOf new 32 8
  Nat.min 255 (bitsOf old 0 8 + bitsOf new 0 8) + Nat.lor (bitsOf old 8 4) (bitsOf new 8 4) * 2 ^ 8
    + bitsOf new 13 3 * 2 ^ 13 + Nat.min 65535 (bitsOf old 16 16 + bitsOf new 16 16) * 2 ^ 16 + code * 2 ^ 32

/-- A status word: KIND, CODE, NaN count and error bits. -/
def engineWord (kind code nans errs : Nat) : Nat :=
  Nat.land errs 0xFFF + kind * 2 ^ 13 + Nat.min 65535 nans * 2 ^ 16 + code * 2 ^ 32

/-- UOPD of R209: an engine read a poisoned byte. -/
def errsOf (code : Nat) : Nat := if code = 6 then 0x400 else 0

/-- Merges a status word into a live line's STATUS (R223, R362). -/
def mergeStatus (s : State) (line w k : Nat) : State :=
  putBarrier s line (s.barField line 0 4) (s.barField line 4 4) (s.barField line 8 4) 1
    (mergeWord (s.barField line 0x10 8) w) k

/-- The status write and the arrival of an engine at an object (R223, R236); discarded when the line is not live. None
while a pending version holds the line. -/
def engineArrive (s : State) (line w k : Nat) : Option State :=
  if !(s.line line).live then some s
  else if (s.line line).pend.isSome then none
  else some (arriveAt (mergeStatus (clearLine s line) line w k) line k false).2

/-! ### Slices (R230, R231) -/

/-- The fields of a slice descriptor with their limits; the tile handle beside it. -/
def readSlice (b : List Byte) (tile versioned : Bool) (expected : DWord) : Res (Slice × Nat) :=
  let num := fun (o n : Nat) => natOfBytes ((b.drop o).take n)
  let h := num 0x16 2
  if num 0x10 4 = 0 || 2 ^ 20 < num 0x10 4 || num 0x14 2 = 0 || 4096 < num 0x14 2 || (!tile && h ≠ 0)
      || (versioned && num 0x20 8 % 8 ≠ 0) then .bad (illegal 0x45)
  else .ok ({ src := dword (num 0 8), dst := dword (num 8 8), tile := none, rowBytes := num 0x10 4, rows := num 0x14 2,
              spitch := num 0x18 4, dpitch := num 0x1C 4, vaddr := if versioned then some (dword (num 0x20 8)) else none,
              expected := expected, team := 0, core := 0, base := 0, fibres := [], tok := none, k := 0 }, h)

/-- Source and destination ranges of a slice. -/
def Slice.sources (x : Slice) : List (Nat × Nat) := (List.range x.rows).map fun r => (x.src.toNat + r * x.spitch, x.rowBytes)
def Slice.dests (x : Slice) : List (Nat × Nat) := (List.range x.rows).map fun r => (x.dst.toNat + r * x.dpitch, x.rowBytes)

/-- Bytes from DST to the end of a slice's last row. -/
def Slice.extent (x : Slice) : Nat := (x.rows - 1) * x.dpitch + x.rowBytes

/-- The tile of a slice with .t (R231): it exists, is a scratchpad tile, and holds the slice. -/
def sliceTile (s : State) (f h : Nat) (x : Slice) : Res (TileRef × Tile) :=
  (tileOf s f (word h)).bind fun r =>
    if r.2.rod then .bad (illegal 0x43)
    else if r.2.extent < x.dst.toNat + x.extent then .bad (illegal 0x45)
    else .ok r

/-- The incomplete phase of a copy object: the core that keeps it, and it. -/
def openPhase (s : State) (obj : Nat) : Option (Nat × CopyPhase) :=
  s.cores.findSome? fun c => (c.2.phases.find? fun p => p.obj = obj && !p.queued).map fun p => (c.1, p)

/-- Slices that a team has in its store on a core (R233). -/
def slicesHeld (s : State) (core team : Nat) : Nat :=
  (s.cores.map fun c => ((c.2.phases.flatMap (·.slices)).filter fun x => x.core = core && x.team = team).length).sum

/-- A phase without slices. -/
def CopyPhase.fresh (obj : Nat) : CopyPhase := ⟨obj, [], [], false, false, [], 0, [], 0⟩

/-- Adds a slice to the object's phase, at the core that issues it; the last one queues the phase there. -/
def addSlice (s : State) (core obj : Nat) (x : Slice) (last : Bool) : State :=
  let p := match openPhase s obj with
    | some q => q.2
    | none => CopyPhase.fresh obj
  let tiles := match x.tile with
    | some r => if p.tiles.contains r then p.tiles else p.tiles ++ [r]
    | none => p.tiles
  let q := { p with slices := p.slices ++ [x], tiles := tiles, queued := last }
  let s1 : State := { s with cores := s.cores.map fun c => (c.1, { c.2 with
    phases := c.2.phases.filter fun y => y.obj ≠ obj || y.queued }) }
  s1.modCore core fun c => { c with phases := c.phases ++ [q] }

/-- The copy object of a slice (R231): live, EXPECT at most 1024, no BARA arrival in its phase. -/
def copyObject (s : State) (f : Nat) (a : DWord) : Res (Nat × State) :=
  (namedBarrier s f a).bind fun r =>
    let held := ((openPhase r.2 r.1).map fun p => p.2.slices.length).getD 0
    if 1024 < r.2.barField r.1 0 4 then .bad (illegal 0x47)
    else if r.2.barField r.1 4 4 ≠ held then .bad (effClobber (addrWord a.toNat 2 false))
    else .ok r

/-- One arrival of a slice (steps 6 and 8 of R231): the phase, whether it was the last, and the line after it. -/
def arriveSlice (s : State) (obj k : Nat) : Nat × Bool × State :=
  let phase := s.barField obj 8 4
  let expect := s.barField obj 0 4
  let arrived := s.barField obj 4 4 + 1
  let last := decide (arrived = expect)
  (phase, last, putBarrier s obj expect (if last then 0 else arrived) phase 1 (s.barField obj 0x10 8) k)

/-- The tile of a slice is EMPTY for the first slice of its phase, FILLING for the others (R231). -/
def sliceReady (s : State) (obj : Nat) (r : TileRef × Tile) : Res Unit :=
  let held := match openPhase s obj with
    | some p => p.2.tiles.contains r.1
    | none => false
  Res.await (r.2.st = if held then TileSt.filling else TileSt.empty)

/-- The destination checks of a slice (step 3 of R231): its tile, or the translation of every byte. -/
def copyDest (s : State) (f h : Nat) (tile : Bool) (x : Slice) : Res (Option (TileRef × Tile)) :=
  if tile then (sliceTile s f h x).map some else (translateImage s f .engine x.dests).map fun _ => none

/-- Steps 5 to 8 of R231: the release, the arrival, the tile and the slice. [DEDUCED, log 61] -/
def joinPhase (s : State) (run : Run) (f : Nat) (fs : List Nat) (d : BitVec 8) (ft : Ft) (obj : Nat)
    (tl : Option (TileRef × Tile)) (x : Slice) : Res State :=
  let x0 := s.fib f
  (releaseAll s fs .device).bind fun s1 => (Res.await (s1.line obj).pend.isNone).bind fun _ =>
    let k := greatestK s1 fs
    let ar := arriveSlice (clearLine s1 obj) obj k
    let (tok, s2) := startTok ar.2.2 run ft fs
    let s3 := match tl with
      | some r => if r.2.st = .filling then s2 else setTileState s2 r.1 .filling
      | none => s2
    let y : Slice := { x with
      tile := tl.map (·.1), team := x0.team, core := x0.core, base := x0.slice, fibres := fs, tok := tok, k := k }
    .ok (put32All (addSlice s3 x0.core obj y ar.2.1) fs d (word ar.1))

/-- The waits of a slice: its tile, and room in the team's slice store (R231, R233). -/
def sliceWaits (s : State) (f obj : Nat) (tl : Option (TileRef × Tile)) : Res Unit :=
  (match tl with
    | some r => sliceReady s obj r
    | none => .ok ()).bind fun _ => Res.await (slicesHeld s (s.fib f).core (s.fib f).team < 1024)

/-- TCOPY and TCOPYV once for the flock (R231). -/
def copySlice (s : State) (run : Run) (f : Nat) (fs : List Nat) (d : BitVec 8) (a b : Src) (c : Option Src) (tile : Bool)
    (ft : Ft) : Res State :=
  (needAll s fs fun x => need32 x d).bind fun _ => (src64 s f a).bind fun obj => (src64 s f b).bind fun va =>
    (match c with
      | some c => src64 s f c
      | none => .ok 0).bind fun expected =>
      (loadBytes s f va (if c.isSome then 40 else 32) 8 .table false).bind fun q =>
        (readSlice q.1 tile c.isSome expected).bind fun xs => (translateImage q.2.2 f .load xs.1.sources).bind fun r1 =>
          (copyDest r1.2 f xs.2 tile xs.1).bind fun tl => (copyObject r1.2 f obj).bind fun o =>
            (sliceWaits o.2 f o.1 tl).bind fun _ => joinPhase o.2 run f fs d ft o.1 tl xs.1

def execTcopy (g : Guard) (d : BitVec 8) (a b : Src) (tile : Bool) (ft : Ft) (s : State) : Out :=
  perFlock (.tcopy g d a b tile ft) s fun s1 f fs => copySlice s1 s.run f fs d a b none tile ft
def execTcopyv (g : Guard) (d : BitVec 8) (a b c : Src) (tile : Bool) (ft : Ft) (s : State) : Out :=
  perFlock (.tcopyv g d a b c tile ft) s fun s1 f fs => copySlice s1 s.run f fs d a b (some c) tile ft

/-! ### The copy engine's phases (R231, R232, R365) -/

/-- Key of byte `o` of a tile's areas (R230). -/
def tileOffsetKey (s : State) (r : TileRef) (t : Tile) (o : Nat) : Nat :=
  if o < t.dataSize then rowKey s r.core (r.key / 2048) t (o / t.pitch) (o % t.pitch)
  else areaKey s r.core (r.key / 2048) t (o - t.dataSize)

/-- The destination of a slice as pieces: a tile's bytes, or translated ones. -/
def sliceDests (s : State) (x : Slice) : Res (List Piece × State) :=
  match x.tile with
  | none => engineImage s x.core x.team x.base .engine x.dests
  | some r => match s.tile r with
    | none => .bad (illegal 0x40)
    | some t => .ok (x.dests.flatMap fun d => (List.range d.2).map fun i =>
        ⟨⟨.scratch, tileOffsetKey s r t (d.1 + i)⟩, 1, d.1 + i⟩, s)

/-- Reads the source of a slice: its bytes, or the code of the abort. -/
def sliceSource (s : State) (x : Slice) : Except Nat (List Byte × State) :=
  match engineImage s x.core x.team x.base .load x.sources with
  | .ok r =>
    let keys := pieceKeys r.1
    if keys.any s.poisonedAt then .error 6 else .ok (keys.map (engineByte r.2 x.core), r.2)
  | .sys _ _ => .error 6
  | _ => .error 3

/-- Reads every slice's source, the first abort deciding the code. -/
def stageSlices (s : State) : List Slice → List (List Byte) × Nat × State
  | [] => ([], 0, s)
  | x :: r => match sliceSource s x with
    | .error c => ([], c, s)
    | .ok b =>
      let q := stageSlices b.2 r
      (b.1 :: q.1, q.2.1, q.2.2)

/-- The version word and expected value that the slices agree on (R232): none where they do not. -/
def agreedVersion (xs : List Slice) : Option (Option DWord × DWord) :=
  match xs with
  | [] => none
  | x :: r => if r.all fun y => y.vaddr = x.vaddr && y.expected = x.expected then some (x.vaddr, x.expected) else none

/-- Bytes of a phase. -/
def CopyPhase.size (p : CopyPhase) : Nat := (p.slices.map fun x => x.rows * x.rowBytes).sum

/-- The scratchpad lines that a phase will write (R205). -/
def phaseLinesOf (s : State) (p : CopyPhase) : List (Nat × Nat) :=
  scratchLines (p.slices.flatMap fun x => match sliceDests s x with
    | .ok r => pieceKeys r.1
    | _ => [])

/-- What a slice untypes (R205): nothing with .t, else every tile that it writes into. -/
def Slice.untypes (x : Slice) : Untypes := if x.tile.isSome then .no else .yes none

/-- Changes the first phase that a test selects. -/
def modPhase (s : State) (core : Nat) (sel : CopyPhase → Bool) (g : CopyPhase → CopyPhase) : State :=
  match indexOf? sel (s.core core).phases 0 with
  | none => s
  | some i => s.modCore core fun c => { c with phases := match c.phases[i]? with
      | some p => setAt c.phases i (g p)
      | none => c.phases }

/-- The phase is queued and every slice's team is resident (R402). -/
def CopyPhase.ready (s : State) (p : CopyPhase) : Bool := p.queued && p.slices.all fun x => !(s.tm x.team).vacated

/-- A queued phase starts: the lines that it will write empty, and the engine reads every source byte (R231, R232). [DEDUCED, log 59] -/
def startPhase (s : State) (core : Nat) (p : CopyPhase) : State :=
  let bad := if p.slices.any fun x => x.vaddr.isSome then
      (if (agreedVersion p.slices).isNone then 4 else if 2 ^ 20 < p.size then 5 else 0) else 0
  let q := if bad = 0 then stageSlices s p.slices else ([], bad, s)
  let ls := if bad = 0 then phaseLinesOf s p else []
  let s1 := markLines q.2.2 ls false
  modPhase (s1.modCore core fun c => { c with copyCmd := false }) core (CopyPhase.ready s) fun x =>
    { x with started := true, staged := q.1, code := q.2.1, lines := ls }

/-- The pieces of every destination of a phase. -/
def phasePieces (s : State) : List Slice → Res (List (List Piece) × State)
  | [] => .ok ([], s)
  | x :: r => (sliceDests s x).bind fun d => (phasePieces d.2 r).map fun q => (d.1 :: q.1, q.2)

/-- Makes the destination bytes that still have a place undefined; a live barrier line keeps its bytes (R209). [DEDUCED, log 62] -/
def undefineDests (s : State) (xs : List Slice) : State :=
  xs.foldl (fun s x => match sliceDests s x with
    | .ok d => (d.1.filter fun p => !d.2.barrierLive p.place.key).foldl (fun s p =>
        let b := undefinedBytes s p.n
        (engineWrite b.2 x.core (s.tm x.team).ctx x.k x.untypes p b.1).getD b.2) d.2
    | _ => s) s

/-- Destination bytes that two slices write, or that are source bytes, are undefined (R231). -/
def conflictKeys (s : State) (xs : List Slice) (ps : List (List Piece)) : List Nat :=
  let per := ps.map fun p => (pieceKeys p).dedup
  let all := per.flatten
  let src := xs.flatMap fun x => match engineImage s x.core x.team x.base .load x.sources with
    | .ok r => pieceKeys r.1
    | _ => []
  all.dedup.filter fun k => 1 < all.count k || src.contains k

/-- Writes the staged bytes of every slice; none while a pending version is in the way. -/
def writeSlices (s : State) : List Slice → List (List Piece) → List (List Byte) → Option State
  | x :: xs, p :: ps, b :: bs =>
    (engineWrites s x.core (s.tm x.team).ctx x.k x.untypes p b).bind fun s1 => writeSlices s1 xs ps bs
  | _, _, _ => some s

/-- Makes single bytes undefined; the tags stand as their writes have left them (R205, R231). -/
def undefineKeys (s : State) (ctx : Nat) (core : Nat) (keys : List Nat) : State :=
  keys.foldl (fun s k =>
    let b := undefinedBytes s 1
    (engineWrite b.2 core ctx 0 .no ⟨⟨levelOf k, k⟩, 1, 0⟩ b.1).getD b.2) s

/-- The writes of a phase: none while they must wait; the code otherwise: 1 where a live barrier line would be written, 3 where a
destination has no translation any more, 6 where one lies behind a contained agent (R209, R460). -/
def writePhase (p : CopyPhase) (x : Slice) (s : State) : Option (Nat × State) :=
  match phasePieces s p.slices with
  | .ok (ps, s1) =>
    if ps.flatten.any fun q => s1.barrierLive q.place.key then some (1, s1)
    else (writeSlices s1 p.slices ps p.staged).map fun u =>
      (0, undefineKeys u (s.tm x.team).ctx x.core (conflictKeys s1 p.slices ps))
  | .sys _ _ => some (6, s)
  | .bad _ => some (3, s)
  | .wait => none

/-- Commits a TCOPYV phase at its version word (R232): none while it must wait; the code otherwise. The word is compared before
anything is written; a poisoned word, or one behind a contained agent, ends the copy with CODE 6 (R457, R460). -/
def commitVersion (s : State) (x : Slice) (va expected : DWord) (write : State → Option (Nat × State)) :
    Option (Nat × State) :=
  let a := withAgent s x.core x.team x.base
  match translate a.2 a.1 va .atomic false with
  | .bad _ => some (3, s)
  | .sys _ _ => some (6, s)
  | .wait => none
  | .ok r =>
    let key := r.1.key
    let keys := (List.range 8).map (key + ·)
    if (s.line (lineOf key)).live then some (1, s)
    else if (s.poisonIn key 8).isSome then some (6, s)
    else if s.pendBlocks (keys.map fun k => (k, 0, 0xFF)) none then none
    else (flushKeys s keys none).bind fun s1 =>
      if dword (s1.num key 8) ≠ expected then some (2, s1)
      else (write s1).map fun q => if q.1 ≠ 0 then q else (0, q.2.performHome ((List.range 8).map fun i =>
        (key + i, BitVec.ofNat 8 ((expected + 1).toNat / 2 ^ (8 * i)), (0xFF : Byte))) x.k)

/-- The end of a phase: none while it must wait; the code otherwise (R209, R231, R232). [DEDUCED, log 59] -/
def finishPhase (s : State) (p : CopyPhase) : Option (Nat × State) :=
  if p.code ≠ 0 then some (p.code, s)
  else match p.slices with
    | [] => some (3, s)
    | x :: _ => match x.vaddr with
      | some va => commitVersion s x va x.expected (writePhase p x)
      | none => writePhase p x s

/-- COPY_PHASE_COMPLETE (R231): writes, STATUS with KIND 2, then PHASE + 1; the tiles, the lines and the flags. -/
def completePhase (s : State) (core : Nat) (p : CopyPhase) : State :=
  if (s.line p.obj).live && (s.line p.obj).pend.isSome then s
  else match finishPhase s p with
    | none => s
    | some (code, s1) =>
      let aborted := code = 1 || code = 3 || code = 6
      let s2 := if aborted then undefineDests s1 p.slices else s1
      let k := p.slices.foldl (fun k x => Nat.max k x.k) 0
      let s3 := p.tiles.foldl (fun s r => setTileState (s.modTile r fun t => { t with ls := Nat.max t.ls k }) r
        (if aborted then .empty else .ready)) s2
      let s4 := markLines s3 p.lines true
      let s5 := if !(s4.line p.obj).live then s4 else
        let t := mergeStatus (clearLine s4 p.obj) p.obj (engineWord 2 code 0 (Nat.lor (errsOf code) p.errs)) k
        wakeBarrier (putBarrier t p.obj (t.barField p.obj 0 4) (t.barField p.obj 4 4)
          ((t.barField p.obj 8 4 + 1) % 2 ^ 32) 1 (t.barField p.obj 0x10 8) k) p.obj
      let s6 := (p.slices.filterMap (·.tok)).foldl (fun s t => s.finishTok t) s5
      let s7 := s6.modCore core fun c => { c with phases := c.phases.filter fun q => !q.started }
      p.tiles.foldl (fun s r => wakeTile s r false) s7

def execCopyPhaseComplete (core : Nat) (s : State) : Out :=
  .next (match (s.core core).phases.find? fun p => p.started with
    | none => s
    | some p => completePhase s core p)

end Sys2Proof.Machine
end

