-- ==== Sys2Proof/Machine/Task.lean ====
section
/-! DEFINITION. Engine programs as tile tasks: FORK, RDV and DISP, the dispatch lookup and the enqueue
(R234, R236 to R238, R352, R353, R358 to R362, R398). -/

namespace Sys2Proof.Machine

/-! ### Programs (R234, R353) -/

/-- One command of 32 bytes; `zero` marks a non-zero byte where the layout requires zero. -/
def readCmd (b : List Byte) : Cmd :=
  let num := fun (o n : Nat) => natOfBytes ((b.drop o).take n)
  { op := num 0 1, ef := num 1 1, w := word (num 4 4), x := dword (num 8 8), y := dword (num 0x10 8),
    zero := num 2 2 ≠ 0 || num 0x18 8 ≠ 0 }

/-- A program from its first command up to END, within 256 commands: the commands, or the code that ends the task. An END with
a non-zero byte where the layout requires zero stays among the commands: it stops the program with CODE 7 when it is reached
(R234). [DEDUCED, log 65] -/
def readProgram (s : State) (f : Nat) : Nat → DWord → Except Nat (List Cmd)
  | 0, _ => .error 7
  | n + 1, a => match translate s f a .table false with
    | .ok (p, _) =>
      let keys := (List.range 32).map (p.key + ·)
      if keys.any s.poisonedAt then .error 6
      else
        let c := readCmd (keys.map (engineByte s (s.fib f).core))
        if c.op = 0 then .ok (if c.zero then [c] else []) else (readProgram s f n (a + 32)).map fun r => c :: r
    | .sys _ _ => .error 6
    | _ => .error 3

/-- The handle of a command's field: bit 15 selects a tile-list entry (R234). -/
def listHandle (list : List (BitVec 16)) (h : Nat) : Nat :=
  if bitOf h 15 then (list.getD (h % 4) 0).toNat else h

/-- The handle fields that a command reads and writes (R353). -/
def Cmd.reads (c : Cmd) : List Nat :=
  let lo := c.x.toNat % 2 ^ 16
  let hi := bitsOf c.x.toNat 16 16
  match c.op with
  | 1 => [lo, hi] | 4 => [lo] | 5 => [lo] | 6 => [hi] | _ => []
def Cmd.writes (c : Cmd) : List Nat :=
  let lo := c.x.toNat % 2 ^ 16
  let hi := bitsOf c.x.toNat 16 16
  match c.op with
  | 3 => [lo] | 5 => [hi] | 6 => [lo] | _ => []

/-- The tile that a field names for a team on a core; none where the team holds none there. -/
def taskTile (s : State) (core team : Nat) (list : List (BitVec 16)) (h : Nat) : Option TileRef :=
  (namedTile s team (listHandle list h)).bind fun r => if r.core = core then some r else none

/-! ### Entries of the dependency table (R352) -/

/-- The table has room for `n` more entries. -/
def taskRoom (s : State) (core n : Nat) : Bool := (s.core core).tasks.length + n ≤ 256

/-- A new group. -/
def newGroup (s : State) (core : Nat) (g : TaskGroup) : Nat × State :=
  let key := tabFresh (s.core core).groups 0
  (key, s.modCore core fun c => { c with groups := tabPut c.groups key g })

/-- Enqueues one task, the youngest of the core. -/
def enqueueTask (s : State) (f group : Nat) (e : Engine) (addr : DWord) (prog : Except Nat (List Cmd))
    (list : List (BitVec 16)) (k : Nat) : State :=
  let x := s.fib f
  let cmds := match prog with
    | .ok c => c
    | .error _ => []
  let code := match prog with
    | .ok _ => 0
    | .error c => c
  let refs := fun (g : Cmd → List Nat) => (cmds.flatMap g).filterMap fun h => taskTile s x.core x.team list h
  let t : Task := {
    team := x.team, engine := e, prog := addr, cmds := cmds, cursor := 0, list := list, inputs := refs Cmd.reads,
    outputs := refs Cmd.writes, group := group, slice := x.slice, k := k,
    status := dword (engineWord 3 code 0 (errsOf code)), running := false, watch := 0 }
  s.modCore x.core fun c => { c with tasks := tabPut c.tasks (tabFresh c.tasks 0) t }

/-- Four handles of a tile list (R236). -/
def tileList (v : DWord) : List (BitVec 16) := (List.range 4).map fun i => (v >>> (16 * i)).setWidth 16

/-- The engine of a program's number (R236). -/
def engineOf (n : Nat) : Engine := if n = 0 then .matrix else if n = 1 then .copy else .convert

/-- Enqueues the programs that are not 0, in order. -/
def enqueuePrograms (s : State) (f group : Nat) (progs : List Nat) (list : List (BitVec 16)) (k : Nat) : State :=
  (List.range 3).foldl (fun t e =>
    let a := progs.getD e 0
    if a = 0 then t else enqueueTask t f group (engineOf e) (dword a) (readProgram s f 256 (dword a)) list k) s

/-! ### FORK (R236) -/

def execFork (g : Guard) (d : BitVec 8) (a b c : Src) (s : State) : Out :=
  perFlock (.fork g d a b c) s fun s1 f fs => (needAll s1 fs fun x => need32 x d).bind fun _ =>
    (src64 s1 f a).bind fun va => (src64 s1 f b).bind fun list => (src64 s1 f c).bind fun obj =>
      (loadBytes s1 f va 32 32 .table false).bind fun q =>
        let ent := (List.range 4).map fun i => natOfBytes ((q.1.drop (8 * i)).take 8)
        let need := ((ent.take 3).filter (· ≠ 0)).length
        if need = 0 || ent.getD 3 0 ≠ 0 || ent.any fun e => e % 32 ≠ 0 then .bad (illegal 0x48)
        else (namedBarrier q.2.2 f obj).bind fun o => (Res.await (taskRoom s1 (s1.fib f).core need)).bind fun _ =>
          (releaseAll o.2 fs .team).bind fun s2 =>
            let k := greatestK s2 fs
            let (grp, s3) := newGroup s2 (s2.fib f).core ⟨(s2.fib f).team, o.1, dword (engineWord 3 0 0 0), k, []⟩
            let s4 := enqueuePrograms s3 f grp (ent.take 3) (tileList list) k
            .ok (put32All s4 fs d (word (s4.barField o.1 8 4)))

/-! ### RDV (R237) -/

/-- The rendezvous line of RDV with its checks; not that it is live. -/
def rdvLine (s : State) (f : Nat) (a : Src) : Res (DWord × Nat × State) :=
  (src64 s f a).bind fun va => (checkAccess s f va 1 128 .atomic).bind fun r =>
    let p := (firstPiece r.1).place
    if p.kind = .host then .bad (effProt (addrWord va.toNat 2 false))
    else (r.2.sound p.key 24).bind fun _ => .ok (va, lineOf p.key, r.2)

/-- The one arrival of an RDV, for a flock whose lowest lane lacks the arrived mark; it stays over a retraction. As an arrival
it is a release, at team scope, of the fibres that make it (R349). [DEDUCED, log 66] -/
def rdvArrive (s : State) (g : Guard) (a b : Src) : State :=
  match s.runs with
  | [] => s
  | r :: _ => match (actingMask s r g).lanes.filterMap (s.flk r.flock).fibreAt with
    | [] => s
    | f :: fs =>
      let mark := fun (s : State) => s.modFibs (f :: fs) fun x => { x with arrived := true }
      if (s.fib f).arrived then
        s.modFibs ((f :: fs).filter fun h => !(s.fib h).arrived) fun x => { x with arrived := true }
      else match rdvLine s f a, src32 s f b with
        | .ok (_, l, s1), .ok _ =>
          if !(s1.line l).live || copyHolds s1 l || (s1.line l).pend.isSome then s
          else match releaseAll s1 (f :: fs) .team with
            | .ok s2 => mark (arriveAt (clearLine s2 l) l (greatestK s2 (f :: fs)) false).2
            | _ => s
        | _, _ => s

/-- The wait of RDV, whose registers are checked first (R17): the phase has moved on or the line is not live; then an acquire at team scope, and the mark clears. [DEDUCED, log 66] -/
def rdvWait (s : State) (f : Nat) (fs : List Nat) (a b : Src) : Res State :=
  (src64 s f a).bind fun _ => (src32 s f b).bind fun tok => (rdvLine s f a).bind fun r =>
    if !(s.fib f).arrived then
      (if !(s.line r.2.1).live || copyHolds s r.2.1 then .bad (effClobber (addrWord r.1.toNat 2 false)) else .wait)
    else if barrierMoved s r.2.1 tok then
      (acquireAll r.2.2 fs .team (s.line r.2.1).ls).map fun s1 =>
        (observeLine s1 r.2.1).modFibs fs fun x => { x with arrived := false }
    else .wait

def execRdv (g : Guard) (a b : Src) (s : State) : Out :=
  perFlock (.rdv g a b) (rdvArrive s g a b) fun s1 f fs => rdvWait s1 f fs a b

/-! ### The dispatch lookup (R358, R359, R398) -/

/-- An operand position during the lookup: its tag; none when it is absent. -/
abbrev Operand := Option (BitVec 16)

/-- Key k matches an operand position (R358). An operand whose FMT is 0 is untyped and matches no key (R201, R238). -/
def keyMatches (k : Nat) (o : Operand) : Bool :=
  match o with
  | none => k = 0xFFFF || k = 0xFFFE
  | some t => (tagFmt t).isSome && (k = 0xFFFF || (k ≠ 0xFFFE && decide (t.toNat = k)))

/-- Fields of a record. -/
def recNum (r : List Byte) (o n : Nat) : Nat := natOfBytes ((r.drop o).take n)
def recKey (r : List Byte) (i : Nat) : Nat := recNum r (2 + 2 * i) 2
def recMatches (r : List Byte) (op : Nat) (os : List Operand) : Bool :=
  recNum r 0 2 = op && (List.range 4).all fun i => keyMatches (recKey r i) (os.getD i none)

/-- A record that R398 refuses once selected. -/
def recBad (r : List Byte) : Bool :=
  let kind := recNum r 0x0A 1
  1 < kind || 3 < recNum r 0x0B 1 || recNum r 0x0E 2 ≠ 0 || recNum r 0x14 4 ≠ 0 || recNum r 0x38 8 ≠ 0
    || (kind = 0 && (recNum r 0x0B 1 ≠ 0 || recNum r 0x0C 2 ≠ 0 || recNum r 0x10 4 ≠ 0
      || (List.range 3).any fun e => recNum r (0x18 + 8 * e) 8 % 32 ≠ 0))
    || (kind = 1 && (recNum r 0x18 8 ≠ 0 || recNum r 0x20 8 ≠ 0 || recNum r 0x28 8 ≠ 0 || recNum r 0x30 8 ≠ 0))

/-- The first matching record from record `i`, `n` records being left; the records of the operator read on the way. -/
def findRecord (s : State) (f : Nat) (mtp : DWord) (op : Nat) (os : List Operand) :
    Nat → Nat → List (List Byte) → Res (Option (List Byte) × List (List Byte) × State)
  | 0, _, seen => .ok (none, seen, s)
  | n + 1, i, seen => (loadBytes s f (mtp + dword (16 + 64 * i)) 64 16 .table false).bind fun r =>
    if recMatches r.1 op os then .ok (some r.1, seen, r.2.2)
    else findRecord r.2.2 f mtp op os n (i + 1) (if recNum r.1 0 2 = op then seen ++ [r.1] else seen)

/-- The tag that NOMETHOD reports when no record matches (R359). [DEDUCED, log 37] -/
def failedTag (os : List Operand) (seen : List (List Byte)) : Nat :=
  match (List.range 4).findSome? fun i => (os.getD i none).bind fun t =>
      if seen.any fun r => keyMatches (recKey r i) (some t) then none else some t with
  | some t => t.toNat
  | none => match os.getD 0 none with
    | some t => t.toNat
    | none => 0xFFFF

/-- NOMETHOD of a dispatch (R280). [DEDUCED, log 37] -/
def dispNoMethod (op tag : Nat) : Eff := effNoMethod (op + tag * 2 ^ 16)

/-- A conversion rule that applies: operand, tag and base of its temporary tile. -/
structure Conv where
  i : Nat
  tag : BitVec 16
  base : Nat
  deriving DecidableEq, Repr

/-- What the lookup finds: the routine's programs and entry point, and the conversions before it. -/
structure Found where
  progs : List Nat
  fentry : Nat
  rules : List Conv
  deriving DecidableEq, Repr

/-- DispatchLookup of R359, `n` searches being left. -/
def dispatchLookup (s : State) (f : Nat) (mtp : DWord) (op count : Nat) :
    Nat → List Operand → List Conv → Res (Found × State)
  | 0, _, _ => .bad (dispNoMethod op 0xFFFF)
  | n + 1, os, rules => (findRecord s f mtp op os count 0 []).bind fun q =>
    match q.1 with
    | none => .bad (dispNoMethod op (failedTag os q.2.1))
    | some r =>
      if recBad r then .bad (illegal 0x61)
      else if recNum r 0x0A 1 = 0 then
        .ok (⟨(List.range 3).map fun e => recNum r (0x18 + 8 * e) 8, recNum r 0x30 8, rules⟩, q.2.2)
      else
        let i := recNum r 0x0B 1
        let t : BitVec 16 := BitVec.ofNat 16 (recNum r 0x0C 2)
        if tagReserved t then .bad (illegal 0x41)
        else if recNum r 0x10 4 % 128 ≠ 0 then .bad (illegal 0x49)
        else match os.getD i none with
        | none => .bad (dispNoMethod op 0xFFFF)
        | some old =>
          if rules.any fun c => c.i = i then .bad (dispNoMethod op old.toNat)
          else dispatchLookup s f mtp op count n (setAt os i (some t)) (rules ++ [⟨i, t, recNum r 0x10 4⟩])

/-- The lookup with the table's header (R398). -/
def lookupMethod (s : State) (f : Nat) (op : Nat) (os : List Operand) : Res (Found × State) :=
  let mtp := (s.ctx (s.ctxOf f)).mtp
  if mtp = 0 then .bad (dispNoMethod op (failedTag os []))
  else (loadBytes s f mtp 16 16 .table false).bind fun h =>
    let n := recNum h.1 0 4
    if n = 0 || 4096 < n || recNum h.1 4 4 ≠ 0 || recNum h.1 8 8 ≠ 0 then .bad (illegal 0x60)
    else dispatchLookup h.2.2 f mtp op n 5 os []

/-! ### The enqueue of a dispatch (R360, R361) -/

/-- Defines the temporary tiles of the rules, in order: operand, source handle, new handle, tag and reference. [DEDUCED, log 65] -/
def defineTemps (s : State) (f : Nat) : List Conv → List (BitVec 16) → Res (List (Conv × Word × TileRef) × State)
  | [], _ => .ok ([], s)
  | c :: rest, hs => (tileOf s f ((hs.getD c.i 0).setWidth 32)).bind fun src =>
    let t : Tile := {
      st := .empty, tag := c.tag, rod := tagLayout c.tag = 2, base := c.base, rows := src.2.rows, cols := src.2.cols,
      pitch := 0, axis := src.2.axis, chain := false, gen := 0, ls := 0 }
    (tileLimits s (s.fib f).team t).bind fun t1 =>
      let q := defineTile s (s.fib f).core (s.fib f).team t1
      (defineTemps q.2.2 f rest hs).map fun r => ((c, q.1, q.2.1) :: r.1, r.2)

/-- The convert command of an inserted conversion. -/
def convertCmd (src dst : Nat) (tag : BitVec 16) : Cmd :=
  { op := 5, ef := 0, w := tag.setWidth 32, x := dword (src + dst * 2 ^ 16), y := 0, zero := false }

/-- The inserted conversions of a dispatch, then its routine's programs. -/
def enqueueDispatch (s : State) (f grp : Nat) (found : Found) (hs : List (BitVec 16)) (temps : List (Conv × Word × TileRef))
    (k : Nat) : State :=
  let hs2 := temps.foldl (fun l t => setAt l t.1.i (t.2.1.setWidth 16)) hs
  let s1 := temps.foldl (fun s t => enqueueTask s f grp .convert 0
    (.ok [convertCmd (hs.getD t.1.i 0).toNat t.2.1.toNat t.1.tag]) hs2 k) s
  enqueuePrograms s1 f grp found.progs hs2 k

/-- No fibre can be created for the fibre's team and role (R124). -/
def spawnFull (s : State) (f : Nat) : Bool :=
  match spawnFibre s f 0 0 with
  | .ok none => true
  | _ => false

/-- The fibre of a routine's entry point (R361), created as SPAWN creates one, with its check of the target (R124), at the registers
that it starts with; none where none can be created. -/
def routineFibre (s : State) (f : Nat) (found : Found) (hs : List (BitVec 16)) (obj : DWord) : Res (Option State) :=
  let arg := fun (i : Nat) => (hs.getD i 0).toNat
  if found.fentry = 0 then .ok (some s)
  else (needTarget (dword found.fentry)).bind fun _ => (spawnFibre s f (dword found.fentry) (dword (arg 0 + arg 1 * 2 ^ 16 + arg 2 * 2 ^ 32 + arg 3 * 2 ^ 48))).map
    fun r => r.map fun q => q.2.2.modFib q.2.1 fun y => y.setPair 2 obj

/-- A dispatch that enqueues nothing: its status word and its arrival (R361). -/
def dispatchEnds (s : State) (line code k : Nat) : Res State :=
  match engineArrive s line (engineWord 3 code 0 0) k with
  | none => .wait
  | some s1 => .ok s1

/-- EnqueueTask of R361 for a found routine, the waits being over: the test that its fibre can be created, the temporary
tiles, the tasks, then the fibre. -/
def runDispatch (s : State) (f : Nat) (found : Found) (hs : List (BitVec 16)) (obj : DWord) (line k : Nat) : Res State :=
  let core := (s.fib f).core
  if found.fentry ≠ 0 && spawnFull s f then dispatchEnds s line 8 k
  else (defineTemps s f found.rules hs).bind fun td =>
      let hs2 := td.1.foldl (fun l t => setAt l t.1.i (t.2.1.setWidth 16)) hs
      let tasks := found.rules.length + (found.progs.filter (· ≠ 0)).length
      let s2 := if tasks = 0 then td.2 else
        let g := newGroup td.2 core ⟨(s.fib f).team, line, dword (engineWord 3 0 0 0), k, td.1.map (·.2.2)⟩
        enqueueDispatch g.2 f g.1 found hs td.1 k
      (routineFibre s2 f found hs2 obj).bind fun o =>
        if tasks = 0 then dispatchEnds (o.getD s2) line 0 k else .ok (o.getD s2)

/-- The operands of a DISP: every present handle names a tile of the issuing core (R238, R359). -/
def dispOperands (s : State) (f : Nat) (hs : List (BitVec 16)) : Res (List Operand) :=
  (Res.mapM (fun (h : BitVec 16) => if h = 0xFFFF#16 then (.ok none : Res (Option (TileRef × Tile)))
      else (tileOf s f (h.setWidth 32)).map some) hs).bind fun os =>
    if os.any fun o => match o with
        | some r => r.1.core ≠ (s.fib f).core
        | none => false then .bad (illegal 0x43)
    else .ok (os.map fun o => o.map fun r => r.2.tag)

/-- DISP (R238). -/
def execDisp (g : Guard) (d : BitVec 8) (a b c : Src) (s : State) : Out :=
  perFlock (.disp g d a b c) s fun s1 f fs => (needAll s1 fs fun x => need32 x d).bind fun _ =>
    (src32 s1 f a).bind fun op => (src64 s1 f b).bind fun list => (src64 s1 f c).bind fun obj =>
      if op.toNat / 2 ^ 16 ≠ 0 then .bad (illegal 0x45)
      else (dispOperands s1 f (tileList list)).bind fun os => (namedBarrier s1 f obj).bind fun o =>
        (lookupMethod o.2 f op.toNat os).bind fun found =>
          let core := (s1.fib f).core
          let need := found.1.rules.length + (found.1.progs.filter (· ≠ 0)).length
          (Res.await (taskRoom s1 core need && found.1.rules.length ≤ entriesFree s1 core (s1.fib f).team)).bind fun _ =>
            (releaseAll found.2 fs .team).bind fun s2 =>
              (runDispatch s2 f found.1 (tileList list) obj o.1 (greatestK s2 fs)).map fun s3 =>
                put32All s3 fs d (word (s2.barField o.1 8 4))

end Sys2Proof.Machine
end

