-- ==== Sys2Proof/Machine/Engine.lean ====
section
/-! DEFINITION. The engines at work: matrix steps, zeroings, transfers and the commands of tile tasks
(R209, R214, R215, R221 to R228, R234, R235, R352 to R363, R458). -/

namespace Sys2Proof.Machine

/-! ### Tasks that end (R352, R360, R362) -/

/-- The word of a task's command. -/
def Task.cmd (t : Task) : Option Cmd := t.cmds[t.cursor]?

/-- The phase in which an arrival at a line counts: none where the line is live no more, and the arrival is discarded (R223). -/
def arrivalPhase (s : State) (line : Nat) : Option Nat :=
  if (s.line line).live then some (s.barField line 8 4) else none

/-- A group's arrival once its last task has ended: its temporary tiles are free; none while it must wait. -/
def endGroup (s : State) (core grp : Nat) (g : TaskGroup) : Option State :=
  (engineArrive s g.obj g.status.toNat g.k).map fun s1 =>
    let arrive := fun (w : LoopWait) => if w.team = g.team && w.group = some grp then
      { w with group := none, rdv := some g.obj, arr := arrivalPhase s g.obj, ended := true } else w
    (g.temps.foldl freeTile s1).modCore core fun c =>
      { c with groups := tabDel c.groups grp, waits := c.waits.map arrive }

/-- A task ends with its status word `w` (R352, R362); none while its group's arrival must wait. -/
def endTask (s : State) (core key : Nat) (w : Nat) : Option State :=
  match tabGet (s.core core).tasks key with
  | none => some s
  | some t => match tabGet (s.core core).groups t.group with
    | none => some (s.modCore core fun c => { c with tasks := tabDel c.tasks key })
    | some g =>
      let g1 := { g with status := dword (mergeWord g.status.toNat w) }
      let s1 := s.modCore core fun c =>
        { c with tasks := tabDel c.tasks key, groups := tabPut c.groups t.group g1 }
      let s2 := (t.inputs ++ t.outputs).foldl (fun s r => wakeTile s r false) s1
      if (s.core core).tasks.any fun u => u.1 ≠ key && u.2.group = t.group then some s2
      else endGroup s2 core t.group g1

/-- A command ends with a code, a NaN count and error bits: the next one is due, or the task stops (R234, R362). -/
def commandDone (s : State) (core key code nans errs : Nat) : Option State :=
  match tabGet (s.core core).tasks key with
  | none => some s
  | some t =>
    let w := mergeWord t.status.toNat (engineWord 3 code nans errs)
    let u := { t with status := dword w, running := false, watch := 0, cursor := t.cursor + 1 }
    if code ≠ 0 then endTask s core key w
    else some (s.modCore core fun c => { c with tasks := tabPut c.tasks key u })

/-- The same where a task may be absent. -/
def commandDone? (s : State) (core : Nat) (key : Option Nat) (code nans errs : Nat) : Option State :=
  match key with
  | none => some s
  | some k => commandDone s core k code nans errs

/-! ### Matrix steps (R221, R222, R363) -/

/-- A loop's operands as views. -/
def loopViews (s : State) (o : BankOp) (l : LoopOps) : Option (TileView × TileView) :=
  match s.tile o.ta, s.tile o.tb with
  | some ta, some tb => some (⟨o.ta.core, o.team, ta, l.fmtA, l.scaleA, l.sparse⟩,
      ⟨o.tb.core, o.team, tb, l.fmtB, l.scaleB, 0⟩)
  | _, _ => none

/-- Term m of step i for cell (a, j), an exact zero beyond either operand's length (R63, R221). -/
def stepTerm (s : State) (o : BankOp) (va vb : TileView) (i a j m : Nat) : XNum :=
  let x := i * o.ainc * 64 / va.fmt.bits + m
  let y := i * o.binc * 64 / vb.fmt.bits + m
  if va.t.cols ≤ x || vb.t.rows ≤ y then XNum.zero
  else match TileView.value s va a x, TileView.value s vb j y with
    | some p, some q => p.mul q
    | _, _ => XNum.zero

/-- The bytes that the elements of a step take from a line: codes, scale codes or the factor, metadata (R221). [DEDUCED, log 55] -/
def TileView.lineReads (s : State) (v : TileView) (x0 depth l : Nat) : List Nat :=
  let es := ((List.range depth).map (x0 + ·)).filter (· < v.t.lineLen)
  (es.flatMap fun e => match TileView.place s v l e with
    | some p => (TileView.keys s v l p).1
    | none => [])
    ++ (if v.scale = 2 then ((es.map (· / 48)).dedup).map (TileView.scaleKey s v l)
      else if v.scale = 1 then (List.range 4).map (TileView.scaleKey s v l) else [])
    ++ (if v.sparse = 1 then ((es.map (· / 8)).dedup).map (TileView.metaKey s v l)
      else if v.sparse = 2 then ((es.map (· / 384)).dedup).map (TileView.metaKey s v l) else [])

/-- The bytes of row a of the A operand that a loop's next step takes. -/
def BankOp.rowReads (s : State) (o : BankOp) (va : TileView) (a : Nat) : List Nat :=
  TileView.lineReads s va (o.next * o.ainc * 64 / va.fmt.bits) (stepDepth ((widthClass va.fmt).getD 8)) a

/-- The elements of a loop: rows of A and columns of B. -/
def loopElems (va vb : TileView) : List (Nat × Nat) :=
  (List.range va.t.rows).flatMap fun a => (List.range vb.t.cols).map fun j => (a, j)

/-- MatrixStep of R363: the new elements of the loop's bank on its core. -/
def stepCells (s : State) (o : BankOp) (va vb : TileView) (core phys : Nat) : List (Nat × Nat) :=
  let cls := (widthClass va.fmt).getD 8
  (loopElems va vb).map fun p =>
    let key := accKey phys p.1 p.2
    let ts := (List.range (stepDepth cls)).map fun m => stepTerm s o va vb o.next p.1 p.2 m
    let f := (TileView.factor s va p.1).mul (TileView.factor s vb p.2)
    (key, cellSum (tabGetD (s.core core).acc key 0).toNat f ts (groupDepth cls) o.nbv.toNat)

/-- The elements of a loop that hold a NaN, as row × 256 + column. -/
def nanElems (s : State) (core phys : Nat) (va vb : TileView) : List Nat :=
  ((loopElems va vb).filter fun p => p32.isNaN (tabGetD (s.core core).acc (accKey phys p.1 p.2) 0).toNat).map fun p =>
    p.1 * 256 + p.2

/-- Elements of a bank, as row × 256 + column, take undefined values (R223). -/
def undefineElems (s : State) (core phys : Nat) (es : List Nat) : State :=
  let vs := s.drawMany es.length
  let put := fun (t : Tab Word) (i : Nat) => tabPutD t (accKey phys 0 (es.getD i 0)) (lowWord (vs.1.getD i 0)) 0
  vs.2.modCore core fun c => { c with acc := (List.range es.length).foldl put c.acc }

/-- Changes the work at an index of a core's list. -/
def setOp (s : State) (core i : Nat) (o : BankOp) : State :=
  s.modCore core fun c => { c with loops := setAt c.loops i o }

/-- SPARE of R209: a spare rod serves one of the loop's rods. -/
def spareErr (s : State) (core cols : Nat) : Nat :=
  if (s.core core).spareRods.any fun r => r < cols then 0x800 else 0

/-- One step of a loop. An error of an operand byte sets UOPD and leaves the elements of its row undefined as the loop ends
(R223, R457); NANS is counted from its first step to its last (R67). [DEDUCED, log 64] -/
def runStep (s : State) (core phys i : Nat) (o : BankOp) (l : LoopOps) : State :=
  match loopViews s o l with
  | none => s
  | some (va, vb) =>
    let cells := stepCells s o va vb core phys
    let nan0 := if o.next = 0 then nanElems s core phys va vb else o.nan0
    let hurt := (List.range va.t.rows).filter fun a => (o.rowReads s va a).any s.poisonedAt
    let lost := (o.lost ++ hurt.flatMap fun a => (List.range vb.t.cols).map fun j => a * 256 + j).dedup
    let last := o.next + 1 = o.steps
    let s1 := s.modCore core fun c => { c with acc := cells.foldl (fun t k => tabPutD t k.1 (word k.2) 0) c.acc }
    let s2 := if last then undefineElems s1 core phys lost else s1
    let nans := if last then ((nanElems s2 core phys va vb).filter fun e => !nan0.contains e).length else 0
    setOp s2 core i { o with
      next := o.next + 1, nan0 := nan0, nans := nans, lost := lost
      errs := Nat.lor (Nat.lor o.errs (if hurt.isEmpty then 0 else 0x400)) (spareErr s core vb.t.cols) }

/-- The first open work on a physical bank of a core, with its index. -/
def bankHead (s : State) (core phys : Nat) : Option (Nat × BankOp) :=
  let c := s.core core
  (indexOf? (fun (o : BankOp) => o.open && c.physBank o.team o.bank = some phys) c.loops 0).bind fun i =>
    c.loops[i]?.map fun o => (i, o)

/-- The bank whose turn it is: the first with open work, from the core's turn on (R222). -/
def turnBank (s : State) (core : Nat) : Option (Nat × Nat × BankOp) :=
  ((List.range 4).map fun i => ((s.core core).turn + i) % 4).findSome? fun p =>
    (bankHead s core p).map fun h => (p, h)

/-- The turn passes to the bank after. -/
def passTurn (s : State) (core phys : Nat) : State := s.modCore core fun c => { c with turn := (phys + 1) % 4 }

/-- MATRIX_STEP (R222, R363): one step of the loop whose turn it is; the turn of a zeroing is ACC_ZERO_COMPLETE's. -/
def execMatrixStep (core : Nat) (s : State) : Out :=
  .next (match turnBank s core with
    | none => s
    | some (p, i, o) => match o.ops with
      | none => s
      | some l => passTurn (runStep s core p i o l) core p)

/-- ACC_ZERO_COMPLETE (R228): the zeroing of a physical bank whose turn it is. -/
def execAccZeroComplete (core bank : Nat) (s : State) : Out :=
  .next (match turnBank s core with
    | none => s
    | some (p, i, o) =>
      if o.ops.isSome || p ≠ bank then s
      else
        let s1 := passTurn s core p
        let s2 := s1.modCore core fun c => { c with
          acc := c.acc.filter fun e => e.1 / 16384 ≠ p, loops := dropAt c.loops i }
        (commandDone? s2 core o.task 0 0 0).getD s)

/-- The first wait of a loop on a bank becomes that of an ended loop, which has arrived in the phase `arr` (R224). -/
def endWait (ws : List LoopWait) (o : BankOp) (arr : Option Nat) : List LoopWait :=
  match indexOf? (fun (w : LoopWait) => decide (w.team = o.team) && decide (w.bank = o.bank) && !w.ended
      && decide (w.rows ≠ 0)) ws 0 with
  | none => ws
  | some i => match ws[i]? with
    | some w => setAt ws i { w with arr := arr, ended := true }
    | none => ws

/-- A loop whose last step has ended: status word, with CODE 6 where UOPD is set (R457), arrival, flags (R223). -/
def finishLoop (s : State) (core i : Nat) (o : BankOp) : Option State :=
  let code := if bitOf o.errs 10 then 6 else 0
  let w := engineWord 1 code o.nans o.errs
  (match o.obj with
    | none => some s
    | some l => engineArrive s l w o.k).bind fun s1 =>
      let s2 := s1.modCore core fun c => { c with loops := dropAt c.loops i, waits := endWait c.waits o (o.obj.bind (arrivalPhase s)) }
      let s3 := match o.tok with
        | none => s2
        | some t => s2.finishTok t
      commandDone? (wakeTile (wakeTile s3 o.ta false) o.tb false) core o.task code o.nans o.errs

/-- MATRIX_LOOP_COMPLETE (R223). -/
def execMatrixLoopComplete (core : Nat) (s : State) : Out :=
  let c := s.core core
  .next (match indexOf? (fun (o : BankOp) => o.ops.isSome && !o.open) c.loops 0 with
    | none => s
    | some i => match c.loops[i]? with
      | none => s
      | some o => (finishLoop s core i o).getD s)

/-! ### Transfers (R203, R205, R209, R214, R215) -/

/-- Ends a transfer: tiles, lines, the register and its flag, or the command (R203, R205, R214). `aborted` empties the tile
being filled. -/
def finishXfer (s : State) (core i : Nat) (x : Xfer) (code : Nat) (aborted : Bool) : Option State :=
  let raise := fun (s : State) (r : TileRef) => s.modTile r fun t => { t with ls := Nat.max t.ls x.k }
  let s1 := match x.dst with
    | some r => setTileState (raise s r) r (if aborted then .empty else .ready)
    | none => s
  let s2 := match x.src with
    | some r => setTileState (raise s1 r) r .ready
    | none => s1
  let s3 := (markLines s2 x.lines true).modCore core fun c => { c with xfers := dropAt c.xfers i }
  let s4 := match x.reg, x.tok with
    | some d, some t => landReg s3 x.fibres t d (word code) x.k
    | _, _ => s3
  commandDone? s4 core x.task code 0 (Nat.lor (errsOf code) x.errs)

/-- Writes undefined bytes at keys of a core's tiles. -/
def undefineTile (s : State) (keys : List Nat) : State :=
  let (bs, s1) := undefinedBytes s keys.length
  s1.putCells ((List.range keys.length).map fun i => (keys.getD i 0, bs.getD i 0, (0xFF : Byte)))

/-- An uncorrectable error has hit a source byte of a transfer in progress (R455). -/
def Xfer.lostSource (x : Xfer) : Bool := bitOf x.errs 10

/-- A tile load that ends (R214): the newest committed bytes of memory, or an abort. -/
def endLoad (s : State) (core i : Nat) (x : Xfer) (r : TileRef) (t : Tile) : Option State :=
  let keys := tileImageKeys s r t x.pitch
  let abort := fun (s : State) (code : Nat) => finishXfer (undefineTile s keys) core i x code true
  match engineImage s core x.team x.slice .load (t.image x.va.toNat x.pitch) with
  | .ok p =>
    let src := pieceKeys p.1
    if x.lostSource || src.any s.poisonedAt then abort p.2 6
    else
      let cells := (List.range keys.length).map fun n =>
        (keys.getD n 0, engineByte p.2 core (src.getD n 0), (0xFF : Byte))
      finishXfer (engineScratch p.2 r.core cells x.k) core i x 0 false
  | .sys _ _ => abort s 6
  | _ => abort s 3

/-- The bytes of memory that a tile store had still to write become undefined, a live barrier line apart (R209). [DEDUCED, log 62] -/
def undefinePieces (s : State) (core ctx k : Nat) (keep : Option TileRef) (ps : List Piece) : State :=
  (ps.filter fun p => !s.barrierLive p.place.key).foldl (fun s p =>
    let b := undefinedBytes s p.n
    (engineWrite b.2 core ctx k (.yes keep) p b.1).getD b.2) s

/-- The chunks of an image that still translate. -/
def placedChunks (s : State) (core team slice : Nat) (segs : List (Nat × Nat)) : List Piece :=
  (segs.flatMap fun r => lineChunks r.1 r.2).flatMap fun c => match engineImage s core team slice .engine [c] with
    | .ok p => p.1
    | _ => []

/-- A tile store that ends (R214): plain stores at device scope, none while a pending version is in the way. -/
def endStore (s : State) (core i : Nat) (x : Xfer) (r : TileRef) (t : Tile) : Option State :=
  let ctx := (s.tm x.team).ctx
  let segs := t.image x.va.toNat x.pitch
  let abort := fun (code : Nat) =>
    finishXfer (undefinePieces s core ctx x.k (some r) (placedChunks s core x.team x.slice segs)) core i x code true
  let keys := tileImageKeys s r t x.pitch
  match engineImage s core x.team x.slice .engine segs with
  | .ok p =>
    if p.1.any fun q => s.barrierLive q.place.key then abort 1
    else if x.lostSource || keys.any s.poisonedAt then abort 6
    else (engineWrites p.2 core ctx x.k (.yes (some r)) p.1 (keys.map (engineByte p.2 core))).bind fun s1 =>
      finishXfer s1 core i x 0 false
  | .sys _ _ => abort 6
  | _ => abort 3

/-- Kinds of transfer by the event that ends them. -/
def Xfer.isTile (x : Xfer) : Bool := x.kind = .load || x.kind = .store
def Xfer.isRod (x : Xfer) : Bool := x.kind = .rod
def Xfer.isConvert (task : Nat) (x : Xfer) : Bool := x.kind = .convert && x.task = some task

/-- The first transfer of a core that a test selects. -/
def firstXfer (s : State) (core : Nat) (p : Xfer → Bool) : Option (Nat × Xfer) :=
  (indexOf? p (s.core core).xfers 0).bind fun i => (s.core core).xfers[i]?.map fun x => (i, x)

/-- An engine runs the commands of programs one at a time, and a copy phase between them: one that a restore has brought to
a busy engine waits for its restart (R355, R402). -/
def commandTurn (s : State) (core i : Nat) (x : Xfer) : Bool :=
  let c := s.core core
  let conv := fun (y : Xfer) => decide (y.kind = .convert)
  x.task.isNone || (!((c.xfers.take i).any fun y => y.task.isSome && conv y = conv x)
    && (conv x || !c.phases.any fun p => p.started))

/-- The first transfer that a test selects, when its engine serves it now. -/
def servedXfer (s : State) (core : Nat) (p : Xfer → Bool) : Option (Nat × Xfer) :=
  (firstXfer s core p).bind fun r => if commandTurn s core r.1 r.2 then some r else none

/-- TILE_TRANSFER_COMPLETE (R214). -/
def execTileTransferComplete (core : Nat) (s : State) : Out :=
  .next ((match servedXfer s core Xfer.isTile with
    | none => none
    | some (i, x) => match x.dst, x.src with
      | some r, _ => (s.tile r).bind fun t => endLoad s core i x r t
      | none, some r => (s.tile r).bind fun t => endStore s core i x r t
      | none, none => none).getD s)

/-- The bytes that RODLD copies (R215, R327): row j of the source and its scale codes, into rod j. -/
def rodCopies (s : State) (rs rd : TileRef) (src dst : Tile) : List (Nat × Nat) :=
  let team := rs.key / 2048
  let bits := tagBits src.tag
  let n := ceilDiv (src.cols * bits) 8
  let scales := if tagScale src.tag = 2 then ceilDiv src.cols 48 else if tagScale src.tag = 1 then 4 else 0
  (List.range src.rows).flatMap fun j =>
    ((List.range n).map fun o => (rowKey s rs.core team src j o, rodByte s rd.core team j (dst.base + o)))
      ++ (List.range scales).map fun o =>
        (areaKey s rs.core team src (j * src.scaleStride + o), rodByte s rd.core team j (dst.base + roundUp n 8 + o))

/-- A rod load that ends. -/
def endRod (s : State) (core i : Nat) (x : Xfer) (rs rd : TileRef) (src dst : Tile) : Option State :=
  let ps := rodCopies s rs rd src dst
  if x.lostSource || ps.any (fun p => s.poisonedAt p.1) then finishXfer (undefineTile s (ps.map (·.2))) core i x 6 true
  else
    let s1 := s.putCells (ps.map fun p => (p.2, engineByte s core p.1, (0xFF : Byte)))
    finishXfer (s1.modTile rd fun t => { t with tag := x.tag }) core i x 0 false

/-- ROD_LOAD_COMPLETE (R215). -/
def execRodLoadComplete (core : Nat) (s : State) : Out :=
  .next ((match servedXfer s core Xfer.isRod with
    | none => none
    | some (i, x) => match x.dst, x.src with
      | some rd, some rs => (s.tile rd).bind fun dst => (s.tile rs).bind fun src => endRod s core i x rs rd src dst
      | _, _ => none).getD s)

/-! ### Which command may begin (R354, R355) -/

/-- The bank of a command's EF bits (R220, R234). EF bits that the command's instruction does not name are ignored. [DESIGN CHOICE, log 112] -/
def Cmd.bank (c : Cmd) : Nat := c.ef % 4

/-- TileReady of R354. -/
def tileReady (s : State) (core key : Nat) (t : Task) (c : Cmd) : Bool :=
  let refs := fun (hs : List Nat) => hs.filterMap fun h => taskTile s core t.team t.list h
  let older := (s.core core).tasks.filter fun u => u.1 < key && u.2.team = t.team
  let stateIs := fun (r : TileRef) (st : TileSt) => ((s.tile r).map (·.st)) = some st
  (refs c.reads).all (fun r => stateIs r .ready && !(older.any fun u => u.2.outputs.contains r))
    && (refs c.writes).all (fun r => stateIs r .empty
      && !(older.any fun u => u.2.inputs.contains r || u.2.outputs.contains r))
    && (!(c.op = 1 || c.op = 2) || bankRoom s core t.team c.bank)

/-- A task of a core whose next command may begin. -/
def taskReady (s : State) (core : Nat) (k : Nat × Task) : Bool :=
  !k.2.running && (match k.2.cmd with
    | some c => tileReady s core k.1 k.2 c
    | none => false)

/-- The task that the sequencer of a class serves next: the oldest ready one (R355). -/
def nextTask (s : State) (core : Nat) (e : Engine) : Option (Nat × Task) :=
  (s.core core).tasks.find? fun k => k.2.engine = e && taskReady s core k

/-- A command of the class is running. -/
def engineRunning (s : State) (core : Nat) (e : Engine) : Bool :=
  (s.core core).tasks.any fun k => k.2.engine = e && k.2.running

/-- The sequencer of a class may start a command: the matrix sequencer is always free; the copy engine alternates with
copy phases (R355). -/
def sequencerFree (s : State) (core : Nat) (e : Engine) : Bool :=
  let c := s.core core
  match e with
  | .matrix => true
  | .convert => !engineRunning s core .convert
  | .copy => !engineRunning s core .copy && !(c.phases.any fun p => p.started)
    && (!c.copyCmd || !(c.phases.any (CopyPhase.ready s)))

/-- COPY_PHASE_RUN (R355, R365): the oldest queued phase starts when the engine is free and it is the phases' turn: the
lines that it will write empty, and the engine reads every source byte. [DEDUCED, log 64] -/
def execCopyPhaseRun (core : Nat) (s : State) : Out :=
  let c := s.core core
  .next (if c.phases.any (fun p => p.started) || engineRunning s core .copy || !c.copyCmd && (nextTask s core .copy).isSome
      then s
    else match c.phases.find? (CopyPhase.ready s) with
      | none => s
      | some p => startPhase s core p)

/-! ### Commands (R234, R235) -/

/-- The code of an effect that stops a program (R234): NOMETHOD, FORMAT_SPLIT, 0x41, 0x44; a translation or permission;
everything else. -/
def effCode (e : Eff) : Nat :=
  if e.eid = 0x0010 || e.eid = 0x0011 then 3
  else if e.eid = 0x0030 || e.eid = 0x0031 then 9
  else if e.eid = 0x0050 && (e.val = 0x41 || e.val = 0x44) then 9
  else 8

/-- The code of a failed check; a PROT of `bankCheck` is of a bank or an extent. -/
def resCode {α : Type} (bankCheck : Bool) (r : Res α) : Except Nat α :=
  match r with
  | .ok a => .ok a
  | .bad e => .error (if bankCheck && e.eid = 0x0011 then 8 else effCode e)
  | .wait => .error 8
  | .sys _ _ => .error 6

/-- A command's tile, or CODE 8 when the team does not hold it on this core. -/
def commandTile (s : State) (core : Nat) (t : Task) (h : Nat) : Except Nat (TileRef × Tile) :=
  match taskTile s core t.team t.list h with
  | none => .error 8
  | some r => match s.tile r with
    | none => .error 8
    | some x => .ok (r, x)

/-- The command marks its task as running. -/
def startRunning (s : State) (core key : Nat) (e : Engine) : State :=
  s.modCore core fun c => { c with
    tasks := tabMod c.tasks key fun t => { t with running := true, watch := 0 },
    copyCmd := c.copyCmd || decide (e = .copy) }

/-- A matrix loop of a program (R220, R234). -/
def loopCommand (s : State) (core key : Nat) (t : Task) (c : Cmd) : Except Nat State :=
  let a := withAgent s core t.team t.slice
  let w0 := loopWord c.x
  let w := { w0 with
    ah := BitVec.ofNat 16 (listHandle t.list w0.ah.toNat), bh := BitVec.ofNat 16 (listHandle t.list w0.bh.toNat) }
  (resCode true (needBank a.2 a.1 c.bank)).bind fun _ => (commandTile s core t w0.ah.toNat).bind fun ta =>
    (commandTile s core t w0.bh.toNat).bind fun tb => (resCode true (loopShape ta.2 tb.2 w)).bind fun _ =>
      (resCode true (resolveOps ta.2.tag tb.2.tag c.w w)).bind fun ops =>
        (resCode true (loopExtent s t.team ta.2 tb.2 ops w)).bind fun _ =>
          (resCode false (loopBarrier a.2 a.1 c.y)).bind fun br =>
            .ok (acceptLoop (startRunning (br.2.delFib a.1) core key .matrix) core t.team c.bank
              ⟨ta.1, tb.1, ta.2, tb.2, ops, w⟩ br.1 t.k (some key) none [])

/-- An accumulator zeroing of a program (R228, R234). -/
def zeroCommand (s : State) (core key : Nat) (t : Task) (c : Cmd) : Except Nat State :=
  let a := withAgent s core t.team t.slice
  (resCode true (needBank a.2 a.1 c.bank)).map fun _ =>
    acceptZero (startRunning s core key .matrix) core t.team c.bank t.k (some key)

/-- A tile load or store of a program (R214, R234). -/
def transferCommand (s : State) (core key : Nat) (t : Task) (c : Cmd) (store : Bool) : Except Nat State :=
  let a := withAgent s core t.team t.slice
  (commandTile s core t (c.x.toNat % 2 ^ 16)).bind fun r =>
    (resCode false (checkTransfer a.2 a.1 r.2 c.y c.w.toNat store)).map fun s1 =>
      beginTransfer (startRunning (s1.delFib a.1) core key .copy) core
        ⟨if store then .store else .load, t.team, t.slice, if store then some r.1 else none,
          if store then none else some r.1, c.y, c.w.toNat, r.2.tag, t.k, [], none, none, some key, [], 0⟩

/-- A rod load of a program (R215, R234). -/
def rodCommand (s : State) (core key : Nat) (t : Task) (c : Cmd) : Except Nat State :=
  (commandTile s core t (c.x.toNat % 2 ^ 16)).bind fun rd => (commandTile s core t (bitsOf c.x.toNat 16 16)).bind fun rs =>
    (resCode true (checkRodLoad s t.team rd.2 rs.2)).map fun _ =>
      beginTransfer (startRunning s core key .copy) core
        ⟨.rod, t.team, t.slice, some rs.1, some rd.1, 0, 0, rodTag rs.2.tag, t.k, [], none, none, some key, [], 0⟩

/-- The destination of a convert under its new tag, with the checks of R235: a rod tile takes LAYOUT 2 and no other tile does.
Either tile may be a rod tile. [DEDUCED, log 63] -/
def convertDest (s : State) (team : Nat) (src dst : Tile) (tag : BitVec 16) : Except Nat Tile :=
  if src.rows ≠ dst.rows || src.cols ≠ dst.cols || src.axis ≠ dst.axis || dst.st ≠ .empty
      || decide (tagLayout tag = 2) != dst.rod then .error 8
  else if (tagFmt src.tag).isNone || (tagFmt tag).isNone || tagReserved tag then .error 9
  else if tagScale tag = 1 || tagSparsity tag ≠ 0 then .error 9
  else resCode true (tileLimits s team { dst with tag := tag })

/-- The convert command starts: its destination fills, its source drains (R203, R235). [DEDUCED, log 63] -/
def convertCommand (s : State) (core key : Nat) (t : Task) (c : Cmd) : Except Nat State :=
  (commandTile s core t (c.x.toNat % 2 ^ 16)).bind fun rs => (commandTile s core t (bitsOf c.x.toNat 16 16)).bind fun rd =>
    (convertDest s t.team rs.2 rd.2 (c.w.setWidth 16)).map fun d =>
      let s1 := (startRunning s core key .convert).modTile rd.1 fun _ => d
      beginTransfer s1 core
        ⟨.convert, t.team, t.slice, some rs.1, some rd.1, 0, 0, c.w.setWidth 16, t.k, [], none, none, some key, [], 0⟩

/-- The E8 code of a block (R235): the smallest under which every finite magnitude fits; a free one where none does. The
format's largest finite magnitude is its greatest positive value, 127 and 7 for INT8 and INT4. [DESIGN CHOICE, log 113] -/
def blockCode (m : Fmt) (vs : List XNum) (fallback : Nat) : Nat :=
  if vs.any XNum.isInf then 0xFE
  else if vs.all fun v => v.isNaN || v.isZero then 0x7F
  else
    let big := m.value (m.maxCode false)
    let fits := fun (c : Nat) => vs.all fun v => match v with
      | .fin _ n e => !(big.mul (scaleDecode c)).lt (.fin false n e)
      | _ => true
    ((List.range 255).find? fits).getD (fallback % 255)

/-- Lines of a tile run along its rows' elements; those of a rod tile and of an AXIS 1 tile are columns (R202, R316). -/
def Tile.columnLines (t : Tile) : Bool := t.rod || t.axis

/-- The scaled value of a convert's source at element `e` of line `l` of the destination: both tiles number an element by its
row and column, whichever way their lines run. An absent element is a zero. -/
def convertValue (s : State) (vs : TileView) (turned : Bool) (l e : Nat) : XNum :=
  let p := if turned then (e, l) else (l, e)
  ((TileView.value s vs p.1 p.2).getD XNum.zero).mul (TileView.factor s vs p.1)

/-- The cells that a convert writes for one block of a line of its destination, and the NaNs it produces. `n` numbers the block. -/
def convertBlock (s : State) (vs vd : TileView) (n l b len : Nat) : List (Nat × Byte × Byte) × Nat :=
  let es := (List.range 48).filterMap fun i => if b * 48 + i < len then some (b * 48 + i) else none
  let vals := es.map fun e => convertValue s vs (vs.t.columnLines != vd.t.columnLines) l e
  let code := if vd.scale = 2 then blockCode vd.fmt vals (Config.freeWord (s.free + n)).toNat else 0x7F
  let inv : XNum := .fin false 1 (127 - (code : Int))
  let codes := vals.map fun x => (vd.fmt.round (x.mul inv) .rne false).1
  let cells := (List.range es.length).flatMap fun i => TileView.cells s vd l (es.getD i 0) (codes.getD i 0)
  let scale := if vd.scale = 2 then [(TileView.scaleKey s vd l b, BitVec.ofNat 8 code, (0xFF : Byte))] else []
  (cells ++ scale, (codes.filter fun c => vd.fmt.isNaN c).length)

/-- Every block of a convert. -/
def convertBlocks (s : State) (vs vd : TileView) : List (List (Nat × Byte × Byte) × Nat) :=
  let per := ceilDiv vd.t.lineLen 48
  (List.range vd.t.lineCount).flatMap fun l => (List.range per).map fun b =>
    convertBlock s vs vd (l * per + b) l b vd.t.lineLen

/-- Writes the bytes of a convert: a rod tile's into the rod store, another's into the scratchpad. -/
def convertWrite (s : State) (core k : Nat) (dst : Tile) (cells : List (Nat × Byte × Byte)) : State :=
  if dst.rod then s.putCells cells else engineScratch s core cells k

/-- The convert command ends (R235): elements, scale codes and the NaN count; a poisoned source byte aborts it. [DEDUCED, log 63] -/
def endConvert (s : State) (core i : Nat) (x : Xfer) : Option State :=
  match x.src, x.dst with
  | some rs, some rd => (s.tile rs).bind fun src => (s.tile rd).bind fun dst =>
    match tagFmt src.tag, tagFmt x.tag with
    | some fs, some fd =>
      let vs := TileView.ofTag rs.core x.team src fs
      let vd := TileView.ofTag rd.core x.team dst fd
      let bs := convertBlocks s vs vd
      let keys := (List.range src.lineCount).flatMap fun l => TileView.lineReads s vs 0 src.lineLen l
      let cells := bs.flatMap (·.1)
      let s0 := { s with free := s.free + bs.length }
      if x.lostSource || keys.any s.poisonedAt then finishXfer (undefineTile s0 (cells.map (·.1))) core i x 6 true
      else
        (finishXfer (convertWrite s0 rd.core x.k dst cells) core i { x with task := none } 0 false).bind fun s3 =>
          commandDone? s3 core x.task 0 (bs.map (·.2)).sum x.errs
    | _, _ => none
  | _, _ => none

/-- The engine class of a command; none when it is reserved. -/
def Cmd.engine (c : Cmd) : Option Engine :=
  if c.op = 1 || c.op = 2 then some .matrix else if c.op = 3 || c.op = 4 || c.op = 6 then some .copy
  else if c.op = 5 then some .convert else none

/-- A command of the right class and layout (R234). -/
def commandValid (t : Task) (c : Cmd) : Bool := !c.zero && c.engine = some t.engine

/-- Runs the next command of a task when the sequencer of its class serves it now: a failure stops the task (R234), its turn
at the copy engine taken (R355). -/
def serveCommand (s : State) (core task : Nat) (op : Nat → Bool)
    (run : State → Nat → Nat → Task → Cmd → Except Nat State) : State :=
  match tabGet (s.core core).tasks task with
  | none => s
  | some t => match t.cmd with
    | none => s
    | some c =>
      if !op c.op || !sequencerFree s core t.engine || (nextTask s core t.engine).map (·.1) ≠ some task then s
      else match (if commandValid t c then run s core task t c else .error 7) with
        | .ok s1 => s1
        | .error code =>
          let turn := s.modCore core fun c => { c with copyCmd := c.copyCmd || decide (t.engine = .copy) }
          (commandDone turn core task code 0 (errsOf code)).getD s

/-- ENGINE_CMD_END (R352, R362): a task that has reached END, or whose program could not be read, ends. -/
def execEngineCmdEnd (core task : Nat) (s : State) : Out :=
  .next (match tabGet (s.core core).tasks task with
    | none => s
    | some t => if t.running || t.cursor < t.cmds.length then s else (endTask s core task t.status.toNat).getD s)

def execEngineCmdMatrixLoop (core task : Nat) (s : State) : Out :=
  .next (serveCommand s core task (· == 1) loopCommand)
def execEngineCmdAccZero (core task : Nat) (s : State) : Out :=
  .next (serveCommand s core task (· == 2) zeroCommand)
def execEngineCmdTileLoad (core task : Nat) (s : State) : Out :=
  .next (serveCommand s core task (· == 3) fun s core key t c => transferCommand s core key t c false)
def execEngineCmdTileStore (core task : Nat) (s : State) : Out :=
  .next (serveCommand s core task (· == 4) fun s core key t c => transferCommand s core key t c true)
def execEngineCmdRodLoad (core task : Nat) (s : State) : Out :=
  .next (serveCommand s core task (· == 6) rodCommand)

/-- A reserved command, or an END with a non-zero byte where zero is required, stops its task with CODE 7. -/
def execEngineCmdReserved (core task : Nat) (s : State) : Out :=
  .next (serveCommand s core task (fun n => n = 0 || 6 < n) fun _ _ _ _ _ => .error 7)

/-- ENGINE_CMD_CONVERT (R235): the command starts, and a second time ends. -/
def execEngineCmdConvert (core task : Nat) (s : State) : Out :=
  .next (match firstXfer s core (Xfer.isConvert task) with
    | some (i, x) => if commandTurn s core i x then (endConvert s core i x).getD s else s
    | none => serveCommand s core task (· == 5) convertCommand)

/-- TASK_WATCHDOG (R458): a next command that has waited WDT ticks stops its task with CODE 8. -/
def execTaskWatchdog (core task : Nat) (s : State) : Out :=
  .next (match tabGet (s.core core).tasks task with
    | none => s
    | some t => if t.running || t.cmds.length ≤ t.cursor || t.watch < s.dev.wdt then s
      else (commandDone s core task 8 0 0).getD s)

end Sys2Proof.Machine
end

