-- ==== Sys2Proof/Machine/Sched.lean ====
section
/-! DEFINITION. Which flock issues next and where its run begins: IssueSelect, eligibility and the start of a run
(R92, R93, R195, R263 to R267). -/

namespace Sys2Proof.Machine

/-- The level of a flock (R267). -/
def flockLevel (fl : Flock) : Nat := if fl.level8 then 8 else 7 - fl.step

/-- A flock became eligible before another (R267); one not yet noted is the latest. -/
def Flock.waitedLonger (a b : Flock) : Bool :=
  match a.since, b.since with
  | some x, some y => x < y
  | some _, none => true
  | none, _ => false

/-- The flock that a free port starts: the highest level, then the longest wait, then the lowest slot (R267). -/
def portChoice (s : State) (core port : Nat) : Option Nat :=
  if s.runs.any fun r => r.core = core && (s.flk r.flock).quadrant = port then none
  else ((s.flocks.filter fun p => p.2.core = core && p.2.quadrant = port && eligible s p.1).foldl
    (fun (b : Option (Nat × Flock)) p => match b with
      | none => some p
      | some q =>
        if flockLevel q.2 < flockLevel p.2 then some p
        else if flockLevel p.2 < flockLevel q.2 then b
        else if p.2.waitedLonger q.2 then some p
        else if q.2.waitedLonger p.2 then b
        else if p.2.slot.getD 0 < q.2.slot.getD 0 then some p else b) none).map (·.1)

/-- What a lane of the selection meets at its own fetch (R72, R73): an effect with the place where its PC then stands. Of a
clause whose header cannot be read neither the header's address nor the first byte of the clause in its page is known: the PC
stays at its word, and the address word names the word that the search could not read. [DESIGN CHOICE, log 122] -/
def fetchFault (s : State) (f : Nat) : Option (DWord × Eff) :=
  match clauseAt s f with
  | .missing b => match codePlace s f b with
    | .bad e => some ((s.fib f).pc, e)
    | _ => none
  | .at a _ transfer => match fetchClause s f a transfer with
    | .bad e => some (a, e)
    | _ => none

/-- A fetch or header fault at the start of a run: the lanes that would be active there, that is, those whose own clause begins
where that of the lowest lane does and whose own fetch fails, raise each its own effect, with PC at the header (R72, R73,
R91, R195). Where a raise must stall, no PC has moved. [DEDUCED, log 26] -/
def failRun (s : State) (r : Run) : State :=
  let hit := r.lanes.lanes.filterMap fun l => ((s.flk r.flock).fibreAt l).bind fun f =>
    (fetchFault s f).map fun x => (l, f, x)
  let r := { r with lanes := Mask.ofLanes (hit.map (·.1)) }
  let s0 := { s with runs := r :: s.runs }
  let s1 := hit.foldl (fun s x => s.modFib x.2.1 fun y => { y with pc := x.2.2.1 }) s0
  let o := openOuts s1 r r.lanes
  settle s0 r false { o with
    s := hit.foldl (fun s x => s.afterFailure x.2.1 x.2.2.2) o.s
    raises := o.raises ++ (hit.filter fun x => (unmarked s1 r r.lanes).has x.1).map fun x => (x.1, x.2.1, x.2.2.2) }

/-- Starts the run of a flock: fetches its clause whole and checks its header (R72, R73, R93, R195). The run's lanes are those
of IssueSelect whose clause begins at the same word as the lowest lane's and that see the same words. A poisoned word stops
the flock (R457). [DEDUCED, log 26] -/
def startRun (s : State) (k : Nat) : State :=
  let sel := issueSelect s k
  match sel.1.lanes.head?.bind (s.flk k).fibreAt with
  | none => s
  | some f =>
    let core := (s.flk k).core
    let c := clauseAt s f
    let here := Mask.ofLanes (sel.1.lanes.filter fun l => match (s.flk k).fibreAt l with
      | none => false
      | some g => match c, clauseAt s g with
        | .at a i _, .at b j _ => a = b && i = j
        | .missing a, .missing b => a = b
        | _, _ => false)
    let blank : Run := ⟨core, k, here, c.addr, ⟨0, 1, 0, none, none, false⟩, [], 1, 0⟩
    let s0 := s.modFlk k fun fl => { fl with level8 := false, lag := fl.lag.filter fun l => !here.has l }
    let stop := fun (c : Nat) (w : DWord) =>
      let s1 := { s0 with runs := blank :: s0.runs }
      settle s1 blank false (foldLanes s1 blank (unmarked s1 blank here).lanes (fun _ _ _ => .sys c w) (openOuts s1 blank here))
    match c with
    | .missing b => match codePlace s0 f b with
      | .sys c w => stop c w
      | _ => failRun s0 blank
    | .at a slot transfer => match fetchClause s0 f a transfer with
      | .bad _ => failRun s0 blank
      | .wait => s0.modFlk k fun fl => { fl with asleep := true, since := none }
      | .sys c w => stop c w
      | .ok h words s1 =>
        let same := Mask.ofLanes (here.lanes.filter fun l => match (s1.flk k).fibreAt l with
          | none => false
          | some g => g = f || sameView s1 g a h words)
        if !flagsSet s1 k same h.wait then s1
        else
          let run : Run := ⟨core, k, same, a, h, words, slot, 0⟩
          { s1.modFibs (same.lanes.filterMap (s1.flk k).fibreAt)
              (fun x => { x with pc := run.wordAddr, pck := .within }) with runs := run :: s1.runs }

end Sys2Proof.Machine
end

