-- ==== Sys2Proof/Machine/System.lean ====
section
/-! DEFINITION. Privileged and system instructions: registers, translation maintenance, fault cancellation, regrouping,
time and service requests (R239 to R253, R421, R422). -/

namespace Sys2Proof.Machine

/-! ### Privileged registers (R241 to R243) -/

/-- The code of a context's state (R241). -/
def CtxSt.code : CtxSt → Nat
  | .free => 0 | .resident => 1 | .swapped => 2 | .suspended => 3 | .torn => 4

/-- Fault records of a context in STATE 1 or 2 (R419). -/
def State.faultCount (s : State) (cx : Nat) : Nat := (s.faults.filter fun r => r.2.ctx = cx).length

/-- A context holds a resident, held or vacated team (R242). -/
def State.hasTeams (s : State) (cx : Nat) : Bool := s.teams.any fun t => t.2.ctx = cx

/-- A context identifier that R240 refuses. -/
def State.ctxBad (s : State) (cx : Nat) : Bool := 4096 ≤ cx || (s.ctx cx).st = .free

/-- Numbers 0x10 to 0x1A, which address the context that CTXSEL names. -/
def ctxNumber (n : Nat) : Bool := 0x10 ≤ n && n ≤ 0x1A

/-- The value of a privileged register (R241); none where the table has no such number. -/
def privValue (s : State) (f n : Nat) : Option DWord :=
  let c := s.ctx s.dev.ctxsel.toNat
  match n with
  | 0x00 => some (s.dev.ctxsel.setWidth 64)
  | 0x01 => some (dword (s.ctxOf f))
  | 0x02 => some (dword (s.coreId (s.fib f).core))
  | 0x03 => some (dword s.dev.devid)
  | 0x04 => some (s.dev.sparemap.setWidth 64)
  | 0x08 => some (if s.dev.hbRun then 1 else 0)
  | 0x09 => some s.dev.tb0
  | 0x0A => some (dword s.dev.wdt)
  | 0x10 => some (dword c.st.code)
  | 0x11 => some c.ttb
  | 0x12 => some c.thb
  | 0x13 => some c.thl
  | 0x14 => some c.tho
  | 0x15 => some c.fhb
  | 0x16 => some c.fhl
  | 0x17 => some c.mtp
  | 0x18 => some (if c.nbvd then 1 else 0)
  | 0x19 => some (dword (s.faultCount s.dev.ctxsel.toNat))
  | 0x1A => some (c.cprio.setWidth 64)
  | _ => none

/-- PRD's checks and value (R242): the number, then an unallocated context, CSTATE apart. -/
def readPriv (s : State) (f n : Nat) : Res DWord :=
  match privValue s f n with
  | none => .bad (illegal 0x0F)
  | some v => if ctxNumber n && n ≠ 0x10 && s.ctxBad s.dev.ctxsel.toNat then .bad (illegal 0x50) else .ok v

/-- Registers that may be written, with their level (R241). -/
def privLevel (n : Nat) : Option Nat :=
  if n = 0x08 then some 2
  else if n = 0x00 || n = 0x0A || (0x11 ≤ n && n ≤ 0x18) || n = 0x1A then some 1 else none

/-- A value outside a register's range (R242). -/
def privRange (n : Nat) (v : DWord) : Bool :=
  let x := v.toNat
  match n with
  | 0x00 => 4096 ≤ x
  | 0x08 => 1 < x
  | 0x0A => x = 0 || 2 ^ 40 < x
  | 0x11 => x % 2 ^ 15 ≠ 0 || 2 ^ 52 ≤ x
  | 0x12 => x % 2 ^ 16 ≠ 0
  | 0x13 => x % 2 ^ 16 ≠ 0
  | 0x14 => x % 2 ^ 16 ≠ 0
  | 0x15 => x % 2 ^ 10 ≠ 0
  | 0x16 => x % 2 ^ 10 ≠ 0
  | 0x18 => 1 < x
  | 0x1A => 7 < x
  | _ => false

/-- Writes a privileged register. -/
def putPriv (s : State) (n : Nat) (v : DWord) : State :=
  let cx := s.dev.ctxsel.toNat
  match n with
  | 0x00 => s.modDev fun d => { d with ctxsel := v.setWidth 12 }
  | 0x08 => s.modDev fun d => { d with hbRun := v.getLsbD 0 }
  | 0x0A => s.modDev fun d => { d with wdt := v.toNat }
  | 0x11 => s.modCtx cx fun c => { c with ttb := v }
  | 0x12 => s.modCtx cx fun c => { c with thb := v }
  | 0x13 => s.modCtx cx fun c => { c with thl := v }
  | 0x14 => s.modCtx cx fun c => { c with tho := v }
  | 0x15 => s.modCtx cx fun c => { c with fhb := v }
  | 0x16 => s.modCtx cx fun c => { c with fhl := v }
  | 0x17 => s.modCtx cx fun c => { c with mtp := v }
  | 0x18 => s.modCtx cx fun c => { c with nbvd := v.getLsbD 0 }
  | 0x1A => s.modCtx cx fun c => { c with cprio := v.setWidth 3 }
  | _ => s

/-- The value that PWR leaves in a register: FHB and FHL of a context with a header segment, which software must not change,
take an undefined one where the write would change them (R11, R242). -/
def privGiven (s : State) (n : Nat) (v : DWord) : DWord × State :=
  let c := s.ctx s.dev.ctxsel.toNat
  if ((n = 0x15 && decide (v ≠ c.fhb)) || (n = 0x16 && decide (v ≠ c.fhl))) && !c.hdrSegs.isEmpty then s.draw else (v, s)

/-- PWR's checks in the order of R242, then its drain and the write. -/
def writePriv (s : State) (f : Nat) (fs : List Nat) (n : Nat) (v : DWord) : Res State :=
  match privLevel n with
  | none => .bad (illegal 0x0F)
  | some l =>
    if s.plOf f < l then .bad (effPriv 0x1C1)
    else if ctxNumber n && s.ctxBad s.dev.ctxsel.toNat then .bad (illegal 0x50)
    else if privRange n v then .bad (illegal 0x56)
    else if (0x12 ≤ n && n ≤ 0x16) && s.hasTeams s.dev.ctxsel.toNat then .bad (illegal 0x51)
    else (drained s fs).map fun s1 =>
      let g := privGiven s1 n v
      putPriv g.2 n g.1

/-- The checks of a pair or uniform destination. -/
def needDest64 (s : State) (fs : List Nat) (ud : Bool) (d : BitVec 8) : Res Unit :=
  if ud then .ok () else needAll s fs fun x => need64 x d

/-- Writes a pair of every fibre, or a uniform register once. -/
def putDest64 (s : State) (f : Nat) (fs : List Nat) (ud : Bool) (d : BitVec 8) (v : DWord) : State :=
  if ud then setSreg s f d v else fs.foldl (fun s g => put64 s g d v) s

def execPrd (g : Guard) (ud : Bool) (d : BitVec 8) (n : BitVec 8) (s : State) : Out :=
  perFlock (.prd g ud d n) s fun s1 f fs => (needDest64 s1 fs ud d).bind fun _ =>
    (readPriv s1 f n.toNat).map fun v => putDest64 s1 f fs ud d v

def execPwr (g : Guard) (n : BitVec 8) (a : Src) (s : State) : Out :=
  perFlock (.pwr g n a) s fun s1 f fs => (src64 s1 f a).bind fun v => writePriv s1 f fs n.toNat v

/-- PWR of HBCTL: level 2 (R241, R243). -/
def execPwrHbctl (g : Guard) (a : Src) (s : State) : Out :=
  perFlock (.pwrHbctl g a) s fun s1 f fs => (src64 s1 f a).bind fun v => writePriv s1 f fs 0x08 v

/-! ### Fault records (R421, R422) -/

/-- ReplayFault of R421. -/
def replayFault (s : State) (idx : Nat) : State :=
  match tabGet s.faults idx with
  | none => s
  | some r =>
    let s1 := logRecord { s with faults := tabMod s.faults idx fun y => { y with replaying := true } } idx
    freeRecord (r.fibres.foldl returnParked s1) idx

/-- A pending record is walked again; a present, well-formed leaf replays it (R421). -/
def rewalkRecord (s : State) (idx : Nat) : State :=
  match tabGet s.faults idx with
  | none => s
  | some r => match walk s (r.fibres.headD 0) r.ctx (r.addr.toNat % 2 ^ 54) with
    | .leaf _ => if r.replaying then s else replayFault s idx
    | _ => s

/-- Walks again every record that a test selects. -/
def rewalkAll (s : State) (p : FaultRec → Bool) : State :=
  ((s.faults.filter fun r => p r.2).map (·.1)).foldl rewalkRecord s

/-- Cancels a record (R247, R422): its fibres return with a cancel mark. -/
def cancelRecord (s : State) (idx : Nat) : State :=
  match tabGet s.faults idx with
  | none => s
  | some r =>
    let s1 := r.fibres.foldl (fun s f => s.modFib f fun x => { x with cancel := some r.addr }) s
    freeRecord (r.fibres.foldl returnParked s1) idx

/-! ### Translation maintenance (R244 to R246) -/

/-- Removes translations from every TLB of the device. -/
def dropTlb (s : State) (p : TlbEntry → Bool) : State :=
  let cores := s.cores.map fun c => (c.1, { c.2 with tlb := c.2.tlb.filter fun e => !p e })
  let clusters := s.clusters.map fun c => (c.1, { c.2 with tlb := c.2.tlb.filter fun e => !p e })
  { s with cores := cores, clusters := clusters }

/-- Performs the stores of some contexts that were translated before (R245). [DEDUCED, log 71] -/
def settleContext (s : State) (p : Nat → Bool) : Res State :=
  let fs := (s.fibres.filter fun x => p (s.tm x.2.team).ctx && !x.2.queue.isEmpty).map (·.1)
  let s1 := fs.foldl drainQueue s
  let s2 := (s1.cores.map (·.1)).foldl performCore s1
  Res.await (!(s2.cores.any fun c => c.2.order.any fun r => p r.ctx)) |>.map fun _ => s2

/-- What a TLBI removes: KIND, context and address. -/
def tlbiHits (kind ctx va : Nat) (e : TlbEntry) : Bool :=
  if kind = 0 then e.covers ctx va else if kind = 1 then e.ctx = ctx else true

/-- A fault record that a TLBI walks again: of its context, of all contexts, or covering its address (R421). -/
def tlbiRecord (kind ctx va : Nat) (r : FaultRec) : Bool :=
  kind = 2 || r.ctx = ctx || (kind = 0 && decide (r.addr.toNat % 2 ^ 54 / 2 ^ 16 = va / 2 ^ 16))

/-- The removal on this device, with the records walked again. [DEDUCED, log 71] -/
def tlbiLocal (s : State) (kind ctx : Nat) (va : DWord) : Res State :=
  (settleContext (dropTlb s (tlbiHits kind ctx va.toNat)) fun c => kind = 2 || c = ctx).map fun s1 =>
    rewalkAll s1 (tlbiRecord kind ctx va.toNat)

/-- The devices that TLBI .sys reaches: all others of the fabric whose path is up (R244, R245). -/
def tlbiDevs (s : State) : List Nat :=
  s.dev.fabric.filter fun d => d ≠ s.dev.devid && !s.dev.down.contains d && !s.dev.contained.contains (4, d)

/-- A TLBI's context that R240 accepts. -/
def tlbiOk (s : State) (kind ctx : Nat) : Bool := kind = 2 || !s.ctxBad ctx

/-- The first issue of a TLBI .sys asks the other devices; the fibres of GuardMask hold a mark of it over retractions, so that
they are asked once. `arg` reads KIND, context and address. [DEDUCED, log 109] -/
def tlbiAsk (s : State) (g : Guard) (sys : Bool) (arg : State → Nat → Res (Nat × Nat × DWord)) : State :=
  match s.runs with
  | [] => s
  | r :: _ => match (actingMask s r g).lanes.filterMap (s.flk r.flock).fibreAt with
    | [] => s
    | f :: fs =>
      if !sys || (s.fib f).scStart.isSome then s
      else match arg s f with
        | .ok (kind, ctx, va) =>
          if !tlbiOk s kind ctx then s
          else (askDevices s f (tlbiDevs s) none fun d tok => .tlbi d tok kind ctx va).modFibs (f :: fs) fun x =>
            { x with scStart := some s.dev.hb }
        | _ => s

/-- TLBI (R244, R245): with .sys it stalls until every other device has answered or its link has ended the wait; then the
drain and the removal here. [DEDUCED, log 109] -/
def tlbiAt (s : State) (f : Nat) (fs : List Nat) (q : Nat × Nat × DWord) : Res State :=
  if !tlbiOk s q.1 q.2.1 then .bad (illegal 0x50)
  else if (s.fib f).awaitsDevices then .wait
  else (drained s fs).bind fun s0 => (tlbiLocal s0 q.1 q.2.1 q.2.2).map fun s1 => s1.modFibs fs fun x => { x with scStart := none }

/-- The operands of the three kinds. -/
def tlbiVaArg (a b : Src) (s : State) (f : Nat) : Res (Nat × Nat × DWord) :=
  (src64 s f a).bind fun va => (src32 s f b).map fun cx => (0, cx.toNat, va)
def tlbiCtxArg (b : Src) (s : State) (f : Nat) : Res (Nat × Nat × DWord) := (src32 s f b).map fun cx => (1, cx.toNat, 0)

def execTlbiVa (g : Guard) (sys : Bool) (a b : Src) (s : State) : Out :=
  perFlock (.tlbiVa g sys a b) (tlbiAsk s g sys (tlbiVaArg a b)) fun s1 f fs =>
    (tlbiVaArg a b s1 f).bind (tlbiAt s1 f fs)
def execTlbiCtx (g : Guard) (sys : Bool) (b : Src) (s : State) : Out :=
  perFlock (.tlbiCtx g sys b) (tlbiAsk s g sys (tlbiCtxArg b)) fun s1 f fs =>
    (tlbiCtxArg b s1 f).bind (tlbiAt s1 f fs)
def execTlbiAll (g : Guard) (sys : Bool) (s : State) : Out :=
  perFlock (.tlbiAll g sys) (tlbiAsk s g sys fun _ _ => .ok (2, 0, 0)) fun s1 f fs => tlbiAt s1 f fs (2, 0, 0)

/-- The result of TLBS for a permission, a size code, a region bit and a physical address (R246). -/
def tlbsWord (r w x : Bool) (size region pa : Nat) : DWord :=
  let bit := fun (b : Bool) (n : Nat) => if b then 2 ^ n else 0
  dword (pa % 2 ^ 52 + region * 2 ^ 57 + size * 2 ^ 58 + bit x 60 + bit w 61 + bit r 62 + 2 ^ 63)

/-- What TLBS reports for a page. [DEDUCED, log 72] -/
def tlbsEntry (e : TlbEntry) (va : Nat) : DWord :=
  tlbsWord e.r e.w e.x (if e.bits = 16 then 0 else if e.bits = 29 then 1 else 2) 0 (e.pa + va % 2 ^ e.bits)

/-- TLBS of R246 over the regions of R407. [DEDUCED, log 72] -/
def searchTlb (s : State) (f cx va : Nat) (walks : Bool) : Res DWord :=
  let c := s.ctx cx
  let core := (s.fib f).core
  if va / 2 ^ 54 ≠ 0 || va / 2 ^ 48 = 0x3F then .ok 0
  else if c.fhb.toNat ≤ va && va < c.fhl.toNat then
    .ok (tlbsWord true (decide (c.fhb.toNat + 0x80000 ≤ va)) false 3 1 va)
  else if c.thb.toNat ≤ va && va < c.thl.toNat then
    .ok (tlbsWord true true false 3 0 (va - c.thb.toNat + c.tho.toNat))
  else match ((s.core core).tlb ++ (s.clus (clusterOf core)).tlb).find? fun e => e.covers cx va with
    | some e => .ok (tlbsEntry e va)
    | none => if !walks then .ok 0
      else match walk s f cx va with
        | .leaf e => .ok (tlbsEntry e va)
        | .poisoned g => .sys 1 (dword g)
        | .dead w5 => .sys 2 w5
        | _ => .ok 0

def execTlbs (g : Guard) (d : BitVec 8) (a b : Src) (walk : Bool) (s : State) : Out :=
  lane64 (.tlbs g d a b walk) d s fun s1 f => (src64 s1 f a).bind fun va => (src32 s1 f b).bind fun cx =>
    if s1.ctxBad cx.toNat then .bad (illegal 0x50) else searchTlb s1 f cx.toNat va.toNat walk

/-! ### Fault cancellation (R247) -/

/-- CANCELF over the pending records of a context that a test selects: the fibres cancelled. -/
def cancelFaults (s : State) (fs : List Nat) (d : BitVec 8) (cx : Nat) (p : Nat → FaultRec → Bool) : Res State :=
  if s.ctxBad cx then .bad (illegal 0x50)
  else
    let hit := s.faults.filter fun r => r.2.ctx = cx && !r.2.replaying && p r.1 r.2
    let n := (hit.map fun r => r.2.fibres.length).sum
    .ok (put32All ((hit.map (·.1)).foldl cancelRecord s) fs d (word n))

def execCancelfCtx (g : Guard) (d a : BitVec 8) (s : State) : Out :=
  perFlock (.cancelfCtx g d a) s fun s1 f fs => (needAll s1 fs fun x => need32 x d).bind fun _ =>
    (src32 s1 f (.v a)).bind fun cx => cancelFaults s1 fs d cx.toNat fun _ _ => true
def execCancelfPage (g : Guard) (d a b : BitVec 8) (s : State) : Out :=
  perFlock (.cancelfPage g d a b) s fun s1 f fs => (needAll s1 fs fun x => need32 x d).bind fun _ =>
    (src32 s1 f (.v a)).bind fun cx => (src64 s1 f (.v b)).bind fun va =>
      cancelFaults s1 fs d cx.toNat fun _ r => r.addr.toNat % 2 ^ 54 / 2 ^ 16 = va.toNat / 2 ^ 16
def execCancelfRec (g : Guard) (d a b : BitVec 8) (s : State) : Out :=
  perFlock (.cancelfRec g d a b) s fun s1 f fs => (needAll s1 fs fun x => need32 x d).bind fun _ =>
    (src32 s1 f (.v a)).bind fun cx => (src64 s1 f (.v b)).bind fun n =>
      cancelFaults s1 fs d cx.toNat fun i _ => i = n.toNat % 2 ^ 13

/-! ### Regrouping (R248, R249) -/

/-- The order of a fibre in the regroup unit: role, key, fibre index. -/
def regroupRank (s : State) (f : Nat) : Nat :=
  let x := s.fib f
  let key := match x.loc with
    | .regroup k => k.toNat
    | _ => 0
  (x.role * 2 ^ 32 + key) * 2 ^ 32 + x.index

/-- Inserts a fibre by rank. -/
def insertRanked (s : State) (f : Nat) : List Nat → List Nat
  | [] => [f]
  | g :: r => if regroupRank s f < regroupRank s g then f :: g :: r else g :: insertRanked s f r

/-- Cuts the sorted fibres into flocks: one role, one key, as many fibres as lanes allowed. -/
def regroupFlocks (s : State) (n : Nat) (fs : List Nat) : List (List Nat) :=
  fs.foldl (fun (done : List (List Nat)) f => match done.getLast? with
    | some cur =>
      if decide (cur.length < n) && (cur.all fun g => regroupRank s g / 2 ^ 32 = regroupRank s f / 2 ^ 32)
      then done.dropLast ++ [cur ++ [f]] else done ++ [[f]]
    | none => [[f]]) []

/-- Forms one flock of the regroup unit on the allowed lanes. [DEDUCED, log 68] -/
def regroupForm (s : State) (core team : Nat) (lanes fs : List Nat) : Option State :=
  (freeSlot s core).map fun slot =>
    let at_ := fun (l : Nat) => (indexOf? (· == l) lanes 0).bind fun i => fs[i]?
    let s1 := (List.range fs.length).foldl (fun s i => s.modFib (fs.getD i 0) fun x => { x with home := lanes.getD i 0 }) s
    let u := undefinedSu s1
    (formFlock u.2 core team (s.fib (fs.headD 0)).role ((List.range 8).map at_) (some slot) u.1).2

/-- Every lane's bank holds what its fibres need (R17, R258). -/
def banksFit (s : State) (core : Nat) : Bool := (List.range 8).all fun l =>
  s.laneRegs core l ≤ 32768 && (s.laneFibres core l).length ≤ 512

/-- The regroup unit builds flocks of the fibres that it holds for a team on a core (R249); stalls where slots or bank
space are lacking. -/
def regroupBuild (s : State) (core team : Nat) (forbidden : Mask) : Res State :=
  let held := (s.fibres.filter fun p => p.2.core = core && p.2.team = team && (match p.2.loc with
    | .regroup _ => true
    | _ => false)).map (·.1)
  let lanes := (List.range 8).filter fun l => !forbidden.has l
  let flocks := regroupFlocks s lanes.length (held.foldl (fun l f => insertRanked s f l) [])
  match flocks.foldl (fun (o : Option State) fs => o.bind fun s => regroupForm s core team lanes fs) (some s) with
  | none => .wait
  | some s1 => if banksFit s1 core then .ok s1 else .wait

/-- The fibres of GuardMask drain and are handed to the regroup unit (R248). [DEDUCED, log 68] -/
def handOver (s : State) (r : Run) (fs : List Nat) (a : Src) : Res State :=
  (Res.mapM (fun f => (src32 s f a).map fun k => (f, k)) fs).bind fun ks => (drained s fs).map fun s0 =>
    let s1 := ks.foldl (fun s p => (leaveFlock s p.1).modFib p.1 fun x =>
      { toNextHeader r x with loc := .regroup p.2 }) s0
    scrambleSu s1 r.flock

/-- REGROUP (R248, R249): the registers of A are checked before B is (R17). -/
def execRegroup (g : Guard) (a b : Src) (hold : Bool) (s : State) : Out :=
  perFlock (.regroup g a b hold) s fun s1 f fs =>
    (Res.foldM (fun _ h => (src32 s1 h a).map fun _ => ()) () fs).bind fun _ => (src32 s1 f b).bind fun fw =>
    if fw.toNat / 2 ^ 8 ≠ 0 then .bad (illegal 0x56)
    else if fw.toNat = 0xFF then .bad (illegal 0x52)
    else (handOver s1 s.run fs a).bind fun s2 =>
      if hold then .ok s2 else regroupBuild s2 (s1.fib f).core (s1.fib f).team (fw.setWidth 8)

/-! ### Context, heartbeat and time reads (R250 to R252) -/

/-- The value of CTXRD (R250). -/
def contextRead (s : State) (cx n : Nat) : Res Word :=
  if 4 < n then .bad (illegal 0x0F)
  else if s.ctxBad cx then (if n = 0 then .ok 0 else .bad (illegal 0x50))
  else match n with
    | 0 => .ok (word (s.ctx cx).st.code)
    | 1 => .ok (word ((s.teams.filter fun t => t.2.ctx = cx && !t.2.vacated).length))
    | 2 => .ok (word (s.faultCount cx))
    | 3 => .ok (word (s.segFree cx))
    | _ => .ok (word (s.ctx cx).inbound.length)

/-- CTXRD to a uniform register writes once for the flock (R77). -/
def execCtxrd (g : Guard) (ud : Bool) (d : BitVec 8) (a : Src) (n : BitVec 8) (s : State) : Out :=
  if ud then
    perFlock (.ctxrd g ud d a n) s fun s1 f _ => (src32 s1 f a).bind fun cx => (contextRead s1 cx.toNat n.toNat).map
      fun v => setSreg s1 f d (v.setWidth 64)
  else lane32 (.ctxrd g ud d a n) d s fun s1 f => (src32 s1 f a).bind fun cx => contextRead s1 cx.toNat n.toNat

/-- The core cycle within the tick that a read of .sub finds (R251): a free value, not below the one last read in the tick. [DEDUCED, log 51] -/
def State.subCycle (s : State) : Nat := s.dev.sub + Config.subTick s.free % (216 - s.dev.sub)

/-- HBRD's value (R251). -/
def heartbeatRead (s : State) (f : Nat) (sub : Bool) : DWord :=
  let hb := Nat.max s.dev.hb (s.fib f).vst % 2 ^ 56
  dword (hb + (if sub then s.subCycle * 2 ^ 56 else 0))

def execHbrd (g : Guard) (ud : Bool) (d : BitVec 8) (sub : Bool) (s : State) : Out :=
  let tick := fun (t : State) =>
    if sub then { t.modDev fun v => { v with sub := t.subCycle } with free := t.free + 1 } else t
  if ud then perFlock (.hbrd g ud d sub) s fun s1 f _ => .ok (setSreg (tick s1) f d (heartbeatRead s1 f sub))
  else perLane (.hbrd g ud d sub) s fun _ s1 f _ => (need64 (s1.fib f) d).map fun _ =>
    (.next, put64 (tick s1) f d (heartbeatRead s1 f sub))

/-- The time base in ns (R252): a free part of the 80 ns of the tick. -/
def timeBase (s : State) : DWord := s.dev.tb0 + dword (s.dev.hb * 80 + Config.subNs s.free % 80)

def execTbrd (g : Guard) (d : BitVec 8) (n : BitVec 8) (s : State) : Out :=
  perLane (.tbrd g d n) s fun _ s1 f _ =>
    if n = 0 then (need64 (s1.fib f) d).map fun _ => (.next, put64 { s1 with free := s1.free + 1 } f d (timeBase s1))
    else if n = 1 then (need32 (s1.fib f) d).map fun _ =>
      (.next, put32 s1 f d (s1.dev.offset.setWidth 32 <<< 1 ||| (if s1.dev.locked then 1 else 0)))
    else .bad (illegal 0x0F)

/-! ### Service traps (R253) -/

/-- SVC posts its request. -/
def postService (s : State) (f : Nat) (fs : List Nat) (d : BitVec 8) (va : DWord) (num : Word) : Res State :=
  if num.toNat / 2 ^ 16 ≠ 0 then .bad (illegal 0x56)
  else (checkAccess s f va 64 64 .store).bind fun r => (releaseAll r.2 fs .device).map fun s1 =>
    let cx := s1.ctxOf f
    let rec_ : SvcRec := ⟨cx, (s1.tm (s1.fib f).team).index, (s1.fib f).index, va, num.toNat⟩
    if (s1.ctx cx).svcQ.length < 1024 then
      put32All (s1.modCtx cx fun c => { c with svcQ := c.svcQ ++ [rec_] }) fs d 0
    else put32All s1 fs d 1

def execSvc (g : Guard) (d : BitVec 8) (a b : Src) (s : State) : Out :=
  perFlock (.svc g d a b) s fun s1 f fs => (needAll s1 fs fun x => need32 x d).bind fun _ =>
    (src64 s1 f a).bind fun va => (src32 s1 f b).bind fun num => postService s1 f fs d va num

end Sys2Proof.Machine
end

