-- ==== Sys2Proof/Machine/Window.lean ====
section
/-! DEFINITION. Register windows on stopped flocks: items, control writes and the delivery of waiting events
(R254, R255, R303, R304). -/

namespace Sys2Proof.Machine

/-- The selector word of a window access (R254). -/
structure WinSel where
  index : Nat
  lane : Nat
  window : Nat
  deriving DecidableEq, Repr

/-- Item classes that the table lists. -/
def winKnown (c : Nat) : Bool := c ≤ 0x0D || c = 0x0F
/-- Item classes that a write may change. -/
def winWritable (c : Nat) : Bool := [0x00, 0x01, 0x02, 0x03, 0x04, 0x06, 0x0B, 0x0F].contains c
/-- Item classes of a lane. -/
def winLane (c : Nat) : Bool := [0x00, 0x02, 0x03, 0x06, 0x07, 0x08, 0x09, 0x0A, 0x0B, 0x0C].contains c

/-- The window of an access on the issuing core: its key and it (R254). [DEDUCED, log 69] -/
def openedWindow (s : State) (f : Nat) (a : Word) : Res (Nat × Window × WinSel) :=
  let n := a.toNat
  let sel : WinSel := ⟨n % 256, bitsOf n 8 3, bitsOf n 16 4⟩
  let core := (s.fib f).core
  if bitsOf n 11 5 ≠ 0 || n / 2 ^ 20 ≠ 0 then .bad (illegal 0x56)
  else if !isShepherd core then .bad (illegal 0x53)
  else
    let key := windowKey (core - 26) sel.window
    match tabGet s.windows key with
    | none => .bad (illegal 0x53)
    | some w => .ok (key, w, sel)

/-- The item's place: the lane's fibre, or the flock itself; ILLEGAL 0x54 outside it (R255). [DEDUCED, log 69] -/
def winPlace (s : State) (w : Window) (c : Nat) (sel : WinSel) : Res (Option Nat) :=
  let fl := s.flk w.flock
  if winLane c then
    match fl.fibreAt sel.lane with
    | none => .bad (illegal 0x54)
    | some f =>
      if (c = 0x00 && (s.fib f).alloc ≤ sel.index) || (c = 0x06 && 8 ≤ sel.index) || (c = 0x0A && 4 ≤ sel.index) then
        .bad (illegal 0x54)
      else .ok (some f)
  else if (c = 0x01 && 128 ≤ sel.index) || (c = 0x0D && 8 ≤ sel.index) then .bad (illegal 0x54)
  else .ok none

/-- Lanes of a flock that hold a fibre and are not frozen (item 0x04). [DEDUCED, log 70] -/
def Flock.unfrozen (k : Flock) : Mask := k.active &&& ~~~k.frozen

/-- The value of an item (R254). [DEDUCED, log 70] -/
def winItem (s : State) (w : Window) (c : Nat) (sel : WinSel) (f : Option Nat) : DWord :=
  let fl := s.flk w.flock
  let x := s.fib (f.getD 0)
  match c with
  | 0x00 => (x.reg sel.index).setWidth 64
  | 0x01 => if sel.index < 64 then (s.tm fl.team).su.getD sel.index 0 else fl.su.getD (sel.index - 64) 0
  | 0x02 => x.preds.setWidth 64 ||| 1
  | 0x03 => x.pc
  | 0x04 => dword ((fl.act.getD fl.unfrozen).toNat + fl.frozen.toNat * 2 ^ 8)
  | 0x05 => fl.efm.setWidth 64
  | 0x06 => (x.cy.getD sel.index 0).setWidth 64
  | 0x07 => dword x.cfMask
  | 0x08 => dword x.vst
  | 0x09 => x.hch
  | 0x0A => foldWord (x.fd.getD sel.index none)
  | 0x0B => x.fpm.setWidth 64
  | 0x0C => x.top
  | _ => w.words.getD sel.index 0

/-- WINRD (R254, R255). -/
def execWinrd (g : Guard) (d a c : BitVec 8) (s : State) : Out :=
  perLane (.winrd g d a c) s fun _ s1 f _ =>
    let n := c.toNat
    if !winKnown n || n = 0x0F then .bad (illegal 0x0F)
    else (if winWide n then need64 (s1.fib f) d else need32 (s1.fib f) d).bind fun _ =>
      (src32 s1 f (.v a)).bind fun sel => (openedWindow s1 f sel).bind fun w =>
        (winPlace s1 w.2.1 n w.2.2).map fun p =>
          let v := winItem s1 w.2.1 n w.2.2 p
          (.next, if winWide n then put64 s1 f d v else put32 s1 f d (lowWord v))

/-- A value outside an item's range (R254, R255). -/
def winRange (s : State) (w : Window) (c : Nat) (v : DWord) : Bool :=
  let x := v.toNat
  let fl := s.flk w.flock
  match c with
  | 0x02 => x / 2 ^ 16 ≠ 0
  | 0x03 => x % 8 ≠ 0
  | 0x04 =>
    let frozen : Mask := BitVec.ofNat 8 (x / 2 ^ 8)
    x / 2 ^ 16 ≠ 0 || frozen &&& ~~~fl.active ≠ 0 || frozen &&& (BitVec.ofNat 8 x) ≠ 0
  | 0x0F => x % 16 = 0 || 3 < x % 16 || bitsOf x 4 12 ≠ 0
  | _ => false

/-- Closes a window. -/
def closeWindow (s : State) (key : Nat) : State := { s with windows := tabDel s.windows key }

/-- The stop of a flock ends: one whose team has been terminated meanwhile ends with it (R303). -/
def endStop (s : State) (k : Nat) : State :=
  let s1 := s.modFlk k fun fl => { fl with stopped := false, kept := false, asleep := false, since := some s.seq }
  let t := (s1.flk k).team
  if (s1.tm t).status.isSome then endFlocks s1 t (·.stopped) else s1

/-- Action 1: the flock issues again (R255). -/
def resumeWindow (s : State) (key : Nat) : State :=
  match tabGet s.windows key with
  | none => s
  | some w => endStop (closeWindow s key) w.flock

/-- Action 2: the team of the stopped flock terminates with a service code (R255, R301). -/
def terminateWindow (s : State) (key code : Nat) : State :=
  match tabGet s.windows key with
  | none => s
  | some w => endStop (terminateTeam (closeWindow s key) (s.flk w.flock).team
      (statusWord 6 (code % 2 ^ 16) 0 ((w.words.getD 6 0).toNat % 2 ^ 32))) w.flock

/-- Action 3: the window closes and the flock stays stopped (R254). -/
def keepWindow (s : State) (key : Nat) : State :=
  match tabGet s.windows key with
  | none => s
  | some w => (closeWindow s key).modFlk w.flock fun fl => { fl with kept := true }

/-- Writes an item of a window (R254, R255). -/
def putItem (s : State) (key : Nat) (w : Window) (c : Nat) (sel : WinSel) (f : Option Nat) (v : DWord) : State :=
  let k := w.flock
  let lane := fun (g : Fibre → Fibre) => match f with
    | some f => s.modFib f g
    | none => s
  match c with
  | 0x00 => lane fun x => x.setReg sel.index (lowWord v)
  | 0x01 => if sel.index < 64 then s.modTm (s.flk k).team fun t => { t with su := setAt t.su sel.index v }
      else s.modFlk k fun fl => { fl with su := setAt fl.su (sel.index - 64) v }
  | 0x02 => lane fun x => { x with preds := v.setWidth 16 ||| 1 }
  | 0x03 => lane fun x => { x with pc := v, pck := .within, arrived := false, scStart := none }
  | 0x04 => s.modFlk k fun fl => { fl with
    act := some (BitVec.ofNat 8 v.toNat), frozen := BitVec.ofNat 8 (v.toNat / 2 ^ 8) }
  | 0x06 => lane fun x => x.setCy sel.index (lowWord v)
  | 0x0B => lane fun x => { x with fpm := writeFpm (lowWord v) }
  | _ =>
    let act := v.toNat % 16
    if act = 1 then resumeWindow s key else if act = 2 then terminateWindow s key (bitsOf v.toNat 16 16)
    else keepWindow s key

/-- WINWR (R254, R255): the value comes from the register that D names. -/
def execWinwr (g : Guard) (d a c : BitVec 8) (s : State) : Out :=
  perLane (.winwr g d a c) s fun _ s1 f _ =>
    let n := c.toNat
    if !winKnown n then .bad (illegal 0x0F)
    else (if winWide n then src64 s1 f (.v d) else (src32 s1 f (.v d)).map fun v => v.setWidth 64).bind fun v =>
      (src32 s1 f (.v a)).bind fun sel => (openedWindow s1 f sel).bind fun w =>
        (winPlace s1 w.2.1 n w.2.2).bind fun p =>
          if !winWritable n then .bad (illegal 0x55)
          else if winRange s1 w.2.1 n v then .bad (illegal 0x56)
          else (drained s1 [f]).map fun s2 => (.next, putItem s2 w.1 w.2.1 n w.2.2 p v)

/-- WINWR_RESUME, WINWR_TERMINATE and WINWR_CLOSE: the three control actions as steps. -/
def execWinwrResume (shepherd window : Nat) (s : State) : Out := .next (resumeWindow s (windowKey shepherd window))
def execWinwrTerminate (shepherd window code : Nat) (s : State) : Out :=
  .next (terminateWindow s (windowKey shepherd window) code)
def execWinwrClose (shepherd window : Nat) (s : State) : Out := .next (keepWindow s (windowKey shepherd window))

/-- SYSTEM_EVENT_DELIVERY (R303): the oldest waiting event opens a window once one is free. -/
def execSystemEventDelivery (s : State) : Out :=
  .next (match s.events with
    | [] => s
    | e :: rest =>
      if (tabGet s.flocks e.flock).isNone then { s with events := rest }
      else if (s.freeWindow (s.tm (s.flk e.flock).team).ctx).isNone then s
      else
        let s1 := openWindow { s with events := [] } e.flock e.cls e.words
        { s1 with events := s1.events ++ rest })

end Sys2Proof.Machine
end

