-- ==== Sys2Proof/Machine/Issue.lean ====
section
/-! DEFINITION. Steps of the issue logic: run starts, wakes, hold-offs, ageing, pen draws and the save area
(R92, R168, R262 to R273, R278). -/

namespace Sys2Proof.Machine

/-- The run that a core's port has in progress, brought to the head of the list. -/
def takeRun (s : State) (core port : Nat) : Option (Run × State) :=
  let mine := fun (r : Run) => r.core = core && ((s.flk r.flock).slot.getD 0) % 4 = port
  match s.runs.find? mine with
  | none => none
  | some r => some (r, { s with runs := r :: s.runs.filter (· ≠ r) })

/-- The stalls of a port's run, for room in a store queue, for a fetch or for operands, have reached 32 cycles before its next
word: where another flock of the quadrant is eligible the run ends there, and its lanes keep that word's PC (R93, R269). [DEDUCED, log 19] -/
def endStalledRun (s : State) (core port : Nat) : State :=
  match takeRun s core port with
  | none => s
  | some (r, s1) => if otherEligible s1 r.flock then dropRun s1 r else s

/-- RUN_START (R92, R263, R267): a free port starts the run of its best eligible flock. On a port with a run in progress the event
stands for the end of that run by its stalls (R269). -/
def execRunStart (core port : Nat) (s : State) : Out :=
  let s1 := endStalledRun (noteEligible s) core port
  .next (match portChoice s1 core port with
    | none => s1
    | some k => startRun s1 k)

/-- FLOCK_WAKE (R168, R266): a sleeping flock wakes. -/
def execFlockWake (flock : Nat) (s : State) : Out :=
  .next (noteEligible (s.modFlk flock fun k => { k with asleep := false }))

/-- HOLD_OFF_EXPIRY (R266). [DESIGN CHOICE, log 16] -/
def execHoldOffExpiry (flock : Nat) (s : State) : Out :=
  .next (noteEligible (s.modFlk flock fun k => { k with holdoff := false }))

/-- UNCHOSEN_FLOCK_LIMIT (R267): level 8 for a flock eligible and unchosen for 1024 cycles. -/
def execUnchosenFlockLimit (flock : Nat) (s : State) : Out :=
  .next (if eligible s flock then s.modFlk flock fun k => { k with level8 := true } else s)

/-- LAG_LIMIT (R263): the lag of a lane passed over while ready reaches 1024 cycles. [DESIGN CHOICE, log 16] -/
def execLagLimit (flock lane : Nat) (s : State) : Out :=
  let fl := s.flk flock
  .next (match fl.fibreAt lane with
    | none => s
    | some f =>
      if fl.slot.isNone || !fl.opens lane || fl.lag.contains lane || !groupReady s flock (s.fib f).pc
        || s.runs.any (fun r => r.flock = flock && r.lanes.has lane) then s
      else s.modFlk flock fun k => { k with lag := k.lag ++ [lane] })

/-! ### The save area (R262) -/

/-- A flock that R262 lets the core save: not within 1024 cycles of its restore, that is, at the earliest six ticks after it. [DESIGN CHOICE, log 67] -/
def savable (s : State) (core : Nat) (p : Nat × Flock) : Bool :=
  p.2.core = core && p.2.slot.isSome && !(s.runs.any fun r => r.flock = p.1) && p.2.efm = 0 && p.2.frozen = 0
    && !p.2.stopped && (match p.2.restored with
      | none => true
      | some t => t + 6 ≤ s.dev.hb)

/-- A flock of a consumer role. -/
def isConsumer (s : State) (k : Flock) : Bool := ((s.tm k.team).roles.getD k.role ⟨0, 0, false⟩).consumer

/-- Whether `a` is saved before `b`: consumer role, lowest level, longest since its last run, highest slot (R262). -/
def saveBefore (s : State) (a b : Flock) : Bool :=
  if isConsumer s a ≠ isConsumer s b then isConsumer s a
  else if flockLevel a ≠ flockLevel b then flockLevel a < flockLevel b
  else if a.lastRun ≠ b.lastRun then a.lastRun < b.lastRun
  else b.slot.getD 0 < a.slot.getD 0

/-- Saves the flock that R262 chooses, its wait time with it (R259, R262); none where no flock qualifies. [DESIGN CHOICE, log 67] -/
def saveFlock (s : State) (core : Nat) : Option State :=
  ((s.flocks.filter (savable s core)).foldl (fun (b : Option (Nat × Flock)) p => match b with
    | none => some p
    | some q => if saveBefore s p.2 q.2 then some p else b) none).map fun p =>
    s.modFlk p.1 fun k => { k with slot := none, overdue := false, could := none }

/-- A free slot, made by a save where none is free. -/
def makeSlot (s : State) (core : Nat) : Option (Nat × State) :=
  match freeSlot s core with
  | some n => some (n, s)
  | none => (saveFlock s core).bind fun s1 => (freeSlot s1 core).map fun n => (n, s1)

/-! ### Reform pens (R270 to R273) -/

/-- PEN_FIBRE_AGED (R272): a fibre has waited 256 cycles in the array. -/
def execPenFibreAged (fibre : Nat) (s : State) : Out :=
  let core := (s.fib fibre).core
  .next (s.modCore core fun c => { c with
    pens := c.pens.map fun p => if p.fibre = fibre then { p with aged := true } else p })

/-- The entries of the pen of an entry, oldest first. -/
def penOf (s : State) (core : Nat) (e : PenEntry) : List PenEntry :=
  (s.core core).pens.filter fun p => p.spill = e.spill && (p.spill || decide (s.penKey p.fibre = s.penKey e.fibre))

/-- The heads of a pen's lane FIFOs. -/
def penHeads (s : State) (pen : List PenEntry) : List (Option Nat) :=
  (List.range 8).map fun l => (pen.find? fun p => (s.fib p.fibre).home = l).map (·.fibre)

/-- An entry's team may be drawn: it is resident. -/
def penTeamHere (s : State) (p : PenEntry) : Bool := !(s.tm (s.fib p.fibre).team).vacated

/-- The entry whose pen PenDraw takes: that of the oldest fibre among the full pens, else the oldest aged fibre (R272). -/
def penChoice (s : State) (core : Nat) : Option PenEntry :=
  let ps := (s.core core).pens.filter (penTeamHere s)
  match ps.find? fun p => !p.spill && (penHeads s (penOf s core p)).all Option.isSome with
  | some p => some p
  | none => ps.find? fun p => p.aged

/-- The fibres of a draw: the heads of the pen, and aged fibres of the same team and role in the empty lanes. A fibre of
the spill pen is drawn alone, with fillers. -/
def penDrawn (s : State) (core : Nat) (e : PenEntry) : List (Option Nat) :=
  let x := s.fib e.fibre
  let heads := if e.spill then (List.range 8).map fun l => if x.home = l then some e.fibre else none
    else penHeads s (penOf s core e)
  let filler := fun (l : Nat) => ((s.core core).pens.find? fun p => p.aged && (s.fib p.fibre).home = l
    && (s.fib p.fibre).team = x.team && (s.fib p.fibre).role = x.role).map (·.fibre)
  (List.range 8).map fun l => match heads.getD l none with
    | some f => some f
    | none => filler l

/-! ### Who takes a free slot (R262, R272, R275) -/

/-- A saved flock that waits for a slot, since the moment it first could issue: whether its flags let it issue now does not
count (R262, R275). -/
def waitsForSlot (s : State) (core : Nat) (p : Nat × Flock) : Option Nat :=
  if p.2.core = core && p.2.slot.isNone && !(s.tm p.2.team).vacated then p.2.could else none

/-- Nothing on a core has waited for a slot longer than since `age`: no saved flock, and no pen that is due (R262). -/
def oldestClaim (s : State) (core age : Nat) : Bool :=
  (s.flocks.all fun p => (waitsForSlot s core p).all fun a => age ≤ a)
    && (penChoice s core).all fun e => age ≤ e.filed

/-- FLOCK_RESTORE (R262): the saved flock that has waited longest takes a free slot; where none is free, one that has waited 1024
cycles makes one. -/
def execFlockRestore (flock : Nat) (s : State) : Out :=
  let s0 := noteEligible s
  let fl := s0.flk flock
  .next (match waitsForSlot s0 fl.core (flock, fl) with
    | none => s0
    | some age =>
      match (if (freeSlot s0 fl.core).isSome then
          (if oldestClaim s0 fl.core age then (freeSlot s0 fl.core).map fun n => (n, s0) else none)
        else if fl.overdue then makeSlot s0 fl.core else none) with
      | none => s0
      | some (n, s1) => noteEligible (s1.modFlk flock fun k =>
        { k with slot := some n, restored := some s.dev.hb, overdue := false, could := none }))

/-- SAVED_FLOCK_WAIT_LIMIT (R262). -/
def execSavedFlockWaitLimit (flock : Nat) (s : State) : Out :=
  .next (if (waitsForSlot s (s.flk flock).core (flock, s.flk flock)).isSome then
    s.modFlk flock fun k => { k with overdue := true } else s)

/-- PEN_DRAW (R272): forms one flock, in a free slot where no saved flock has waited longer, or in one that a save makes. -/
def execPenDraw (core : Nat) (s : State) : Out :=
  let s0 := noteEligible s
  .next (match penChoice s0 core with
    | none => s0
    | some e => match (if (freeSlot s0 core).isSome && !oldestClaim s0 core e.filed then none else makeSlot s0 core) with
      | none => s0
      | some (slot, s1) =>
        let lanes := penDrawn s1 core e
        let x := s1.fib e.fibre
        let s2 := s1.modCore core fun c => { c with pens := c.pens.filter fun p => !lanes.contains (some p.fibre) }
        let u := undefinedSu s2
        (formFlock u.2 core x.team x.role lanes (some slot) u.1).2)

/-! ### What a word reads as it issues -/

/-- The acting fibres of a word read its registers: a register that a tracked engine operation has written acquires the release
that ended it; none while one of them must wait (R344, R348). [DEDUCED, log 58] -/
def issueReads (s : State) (r : Run) (i : Instr) : Option State :=
  let hit := fun (n : Nat) => (readSpans i).any fun p => decide (p.1 ≤ n) && decide (n < p.1 + p.2)
  match Res.foldM (fun s f => acquireRegs s f hit) s ((actingMask s r i.guard).lanes.filterMap (s.flk r.flock).fibreAt) with
  | .ok s1 => some s1
  | _ => none

end Sys2Proof.Machine
end

