-- ==== Sys2Proof/Machine/Homes.lean ====
section
/-! DEFINITION. Steps of the store queues, the L1s, the homes and the heartbeat
(R182, R185, R321, R322, R330, R332, R340 to R346, R391, R458). -/

namespace Sys2Proof.Machine

/-! ### Stores on their way -/

/-- STORE_QUEUE_DRAIN (R332). -/
def execStoreQueueDrain (fibre : Nat) (s : State) : Out := .next (drainOne s fibre)

/-- An earlier store of a core order keeps a later one from being performed: one that must wait as R341 says, any other by
what the two share, and in the scratchpad of another core by the fibre (R315, R333). -/
def keepsBack (s : State) (core : Nat) (q r : StoreReq) : Bool :=
  if (performStore s core q).isNone then q.holdsBack r else q.meets r || q.sameCore r

/-- Performs the store at a place of a core's order, when no earlier one keeps it back and it need not wait. -/
def performNth (s : State) (core n : Nat) : State :=
  let order := (s.core core).order
  match order[n]? with
  | none => s
  | some r =>
    if (order.take n).any fun q => keepsBack s core q r then s
    else match performStore s core r with
      | none => s
      | some s1 => s1.modCore core fun c => { c with order := dropAt c.order n }

/-- STORE_PERFORM (R330). -/
def execStorePerform (core n : Nat) (s : State) : Out := .next (performNth s core n)

/-- STORE_PENDING (R341): the fold store at a place of a core's order. -/
def execStorePending (core n : Nat) (s : State) : Out :=
  .next (match (s.core core).order[n]? with
    | some r => if r.fold.isSome then performNth s core n else s
    | none => s)

/-! ### Caches (R320 to R322, R345) -/

/-- Fills a whole line's copy in a cluster with the version of a view; the companions of its fold follow FractureCheck. -/
def fillAt (s : State) (cluster line v : Nat) : State :=
  if (levelOf (line * 128) ≠ .dev && levelOf (line * 128) ≠ .remote) || (s.poisonIn (line * 128) 128).isSome then s
  else match homeRead s line v 0 with
    | .ok ver => fractureCheck (s.fillCopy cluster line (BitVec.allOnes 32) ver) cluster ver.tag ver.stamp ver.digest
    | _ => s

/-- L1_MISS_FILL (R321): the newest committed version that no wait holds back. [DEDUCED, log 41] -/
def execL1MissFill (cluster line : Nat) (s : State) : Out := .next (fillAt s cluster line s.settled)

/-- HOME_READ (R343): a fill at a view; nothing while the home must wait or has no such version. -/
def execHomeRead (cluster line view : Nat) (s : State) : Out := .next (fillAt s cluster line view)

/-- A core of a cluster. -/
def clusterCore (cl : Nat) : Nat := cl / 4 * 13 + cl % 4 * 4

/-- An agent of a context on a core, for accesses that no fibre makes: its key, its team's key, the state. -/
def withContext (s : State) (core ctx : Nat) (pl : BitVec 2) : Nat × Nat × State :=
  let t := tabFresh s.teams 0
  let s1 := { s with teams := tabPut s.teams t { Team.blank with ctx := ctx, launch := noLaunch, pl := pl } }
  let a := withAgent s1 core t 0
  (a.1, t, a.2)

/-- Removes such an agent. -/
def dropAgent (s : State) (f t : Nat) : State := { s.delFib f with teams := tabDel s.teams t }

/-- A write-back that no fibre starts, checked against the current translation of the byte's page (R182, R245, R322); a
chip-scratchpad byte has none (R319). -/
def evictByte (s : State) (cl key : Nat) : State :=
  match tabGet (s.clus cl).dirty key with
  | none => s
  | some d =>
    let a := withContext s (clusterCore cl) d.ctx 1
    let home := (writeBackGroup s cl key).getD s
    if levelOf key = .chip then home
    else match writeBackCheck a.2.2 a.1 d with
      | .ok _ => home
      | _ => s

/-- L1_WRITE_BACK (R322): the dirty bytes of a line go to its home, and its clean copy leaves. -/
def execL1WriteBack (cluster line : Nat) (s : State) : Out :=
  let keys := ((s.clus cluster).dirty.filter fun d => lineOf d.1 = line).map (·.1)
  .next ((keys.foldl (fun s k => evictByte s cluster k) s).modClus cluster fun c =>
    { c with copies := tabDel c.copies line })

/-- SPAN_INVALIDATE (R322): only the words of the span leave the holder. -/
def execSpanInvalidate (cluster line : Nat) (span : BitVec 32) (s : State) : Out :=
  .next (s.modClus cluster fun c => { c with copies := match tabGet c.copies line with
    | none => c.copies
    | some k =>
      if k.valid &&& ~~~span = 0 then tabDel c.copies line
      else tabPut c.copies line { k with valid := k.valid &&& ~~~span } })

/-! ### Seals at the homes (R185, R342) -/

/-- The home slices of a fold's lines. -/
def State.foldSlices (s : State) (r : Fold) : List Nat := (r.lines.map fun l => s.homeSlice (l * 128)).dedup

/-- The fold is sealing: its slot is in state 01. -/
def foldSealing (s : State) (r : Fold) : Bool :=
  match (s.fib r.fibre).slotOf r.tag with
  | none => false
  | some n => match (s.fib r.fibre).fd.getD n none with
    | some sl => sl.st = .sealing
    | none => false

/-- No store of the fold is still on its way. -/
def foldQuiet (s : State) (t : FoldTag) : Bool :=
  let on := fun (q : StoreReq) => decide (q.fold = some t)
  !(s.fibres.any fun p => p.2.queue.any on) && !(s.cores.any fun c => c.2.order.any on)

/-- T of R185, chosen once every home has acknowledged. [DEDUCED, log 43] -/
def sealStamp (s : State) (r : Fold) (lastAck : Nat) : Nat :=
  lastAck + 1 + (if ((r.lines.map fun l => s.keyDev (l * 128)).dedup).length ≤ 1 then 0 else 2)

/-- Changes the pending version of each line of a fold that a slice is home to. -/
def modPends (s : State) (r : Fold) (slice : Nat) (g : Pend → Pend) : State :=
  (r.lines.filter fun l => s.homeSlice (l * 128) = slice).foldl (fun s l => s.modLine l fun x =>
    { x with pend := x.pend.map fun p => if p.fold = r.tag then g p else p }) s

/-- A line of the fold that a slice is home to lies behind a contained agent (R460), or at a device that has lost the fold's
context (R465). -/
def foldCut (s : State) (r : Fold) (slice : Nat) : Bool :=
  r.lines.any fun l => s.homeSlice (l * 128) = slice
    && ((s.deadAgent (levelOf (l * 128)) (l * 128)).or (s.peerLost r.ctx (levelOf (l * 128)) (l * 128))).isSome

/-- Aborts every seal that a test selects and that no home has promoted (R185, R342). -/
def abortSeals (s : State) (hit : Fold → Bool) : State :=
  ((s.folds.filter fun r => foldSealing s r && r.confirmed.isEmpty && hit r).map (·.tag)).foldl (fun s t =>
    (discardPend s t).modFold t fun r => { r with aborting := true }) s

/-- A step of a seal on the fold at a place of the record list. -/
def onFold (s : State) (fold : Nat) (ok : Fold → Bool) (g : Fold → State) : State :=
  match s.folds[fold]? with
  | none => s
  | some r => if foldSealing s r && !r.aborting && ok r then g r else s

/-- A home marks the fold's versions ACKED; the last acknowledgement fixes T (R185, R342). A fold whose home lies behind a
contained agent aborts (R460). -/
def ackFold (s : State) (fold slice : Nat) : State :=
  onFold s fold (fun r => (s.foldSlices r).contains slice && !r.acked.contains slice && foldQuiet s r.tag) fun r =>
    if foldCut s r slice then s.modFold r.tag fun q => { q with aborting := true } else
    let acked := r.acked ++ [slice]
    let t := if acked.length = (s.foldSlices r).length then some (sealStamp s r s.dev.hb) else none
    (modPends s r slice fun p => { p with st := .acked (s.dev.hb + 1) }).modFold r.tag fun q =>
      { q with acked := acked, lastAck := s.dev.hb, t := t }

/-- FOLD_ACKNOWLEDGE (R342). -/
def execFoldAcknowledge (fold slice : Nat) (s : State) : Out := .next (ackFold s fold slice)

/-- The copies of the fold's lines leave every L1 of the device, then the versions are STAMPED (R342). -/
def stampFold (s : State) (fold slice : Nat) : State :=
  onFold s fold (fun r => r.t.isSome && (s.foldSlices r).contains slice && !r.stampedAt.contains slice) fun r =>
    let mine := r.lines.filter fun l => s.homeSlice (l * 128) = slice
    let s1 := mine.foldl (fun s l => s.invalidate l (BitVec.allOnes 32) none) s
    (modPends s1 r slice fun p => { p with st := .stamped (r.t.getD 0), digest := r.digest }).modFold r.tag fun q =>
      { q with stampedAt := q.stampedAt ++ [slice] }

/-- FOLD_STAMP (R342). -/
def execFoldStamp (fold slice : Nat) (s : State) : Out := .next (stampFold s fold slice)

/-- Copies of a line in the L1s that hold neither its committed version nor, after a promotion, the one that this supersedes:
no view may be served by them (R343, R351). -/
def dropOlder (s : State) (line tc : Nat) : State :=
  let cl := fun (c : Cluster) => { c with copies := c.copies.filter fun k => k.1 ≠ line || k.2.s = tc }
  { s with clusters := s.clusters.map fun c => (c.1, cl c.2) }

/-- Promotion of a line with the pending version of a fold (R342): CUR becomes PRI, PEND becomes CUR, and no host cache keeps
the line (R450); `fibres` are those of the fold on this device. [DEDUCED, log 41] -/
def promoteWith (s : State) (tag : FoldTag) (ctx : Nat) (digest : DWord) (fibres : List Nat) (t line : Nat) : State :=
  let l := s.line line
  match l.pend with
  | none => s
  | some p =>
    if p.fold ≠ tag then s
    else
      let old := s.bytes (line * 128) 128
      let keys := (List.range 128).map (line * 128 + ·)
      let s1 := ((dropOlder s line l.tc).backInvalidate keys true).putBytes (line * 128) p.bytes
      let s2 := s1.setLine line { l with
        tc := t, tag := some tag, digest := digest, pri := some ⟨old, l.tc, ctx⟩, pend := none,
        ls := Nat.max l.ls t }
      (s2.markCode fibres (keys.map fun k => (k, 0, 0xFF))).wakeWords keys

/-- Promotion of a line of a fold of this device. -/
def promoteLine (s : State) (r : Fold) (t line : Nat) : State := promoteWith s r.tag r.ctx r.digest [r.fibre] t line

/-- Once every home is stamped, a home promotes the fold's lines (R342). -/
def confirmFold (s : State) (fold slice : Nat) : State :=
  onFold s fold (fun r => r.t.isSome && r.stampedAt.length = (s.foldSlices r).length
      && (s.foldSlices r).contains slice && !r.confirmed.contains slice) fun r =>
    ((r.lines.filter fun l => s.homeSlice (l * 128) = slice).foldl (fun s l => promoteLine s r (r.t.getD 0) l) s).modFold
      r.tag fun q => { q with confirmed := q.confirmed ++ [slice] }

/-- FOLD_CONFIRM (R342). -/
def execFoldConfirm (fold slice : Nat) (s : State) : Out := .next (confirmFold s fold slice)

/-- The end of a seal (R185): the slot's state, FSEAL's D and its interlock, the record. -/
def endSeal (s : State) (r : Fold) (st : FoldSt) (t : Nat) (v : DWord) : State :=
  let s1 := s.modFib r.fibre fun x => match x.slotOf r.tag with
    | some n =>
      let y := x.setSlot n (some ⟨r.tag, st, t⟩)
      (match r.dreg with
        | some d => y.setPair d v
        | none => y)
    | none => x
  let s2 := match r.tok with
    | some k => s1.finishTok k
    | none => s1
  dropFoldRec s2 r.tag

/-- The fold commits after its last promotion; one whose home was contained aborts (R185). -/
def endFold (s : State) (fold : Nat) : State :=
  match s.folds[fold]? with
    | none => s
    | some r =>
      if !foldSealing s r then s
      else if r.aborting then endSeal (discardPend s r.tag) r .aborted 0 (1#64 <<< 63)
      else if r.lines.isEmpty then
        let t := sealStamp s r s.dev.hb
        if foldQuiet s r.tag then endSeal s r .committed t (dword t) else s
      else if r.confirmed.length = (s.foldSlices r).length then
        endSeal s r .committed (r.t.getD 0) (dword (r.t.getD 0))
      else s

/-- FOLD_SEAL_END (R185). -/
def execFoldSealEnd (fold : Nat) (s : State) : Out := .next (endFold s fold)

/-- The steps of a seal that are left, one after another (R342): what a wait for its end amounts to. -/
def sealThrough (s : State) (t : FoldTag) : State :=
  match indexOf? (fun r : Fold => decide (r.tag = t)) s.folds 0 with
  | none => s
  | some n =>
    let homes := ((s.folds[n]?).map s.foldSlices).getD []
    let s1 := homes.foldl (fun s h => ackFold s n h) s
    let s2 := homes.foldl (fun s h => stampFold s n h) s1
    endFold (homes.foldl (fun s h => confirmFold s n h) s2) n

/-! ### Settled stamps and the heartbeat (R344, R346, R391, R458) -/

/-- SETTLED_STAMP_ADVERTISE (R344): another device's stamp arrives, or this device sends its own. -/
def execSettledStampAdvertise (dev : Nat) (stamp : Nat) (s : State) : Out :=
  .next (if dev = s.dev.devid then s.send (.settled s.settled)
    else if !s.dev.fabric.contains dev then s
    else s.modDev fun d => { d with settled := tabPut d.settled dev (Nat.max (tabGetD d.settled dev 0) stamp) })

/-- The PRI of a line goes when every fibre of its context has a view at or above TC (R346); it stays
where a launch of the context has had teams on other devices, whose fibres' views this device does not hold. [DEDUCED, log 42] -/
def pruneLine (s : State) (l : Line) : Line :=
  match l.pri with
  | none => l
  | some p =>
    if !(s.ctx p.ctx).away && s.fibres.all fun f => (s.tm f.2.team).ctx ≠ p.ctx || l.tc ≤ f.2.vst then
      { l with pri := none }
    else l

/-- A flock whose watch counts this tick: a fibre that is unfrozen, in a flock that is not stopped and that holds a slot or is
saved; a vacated team's flocks are neither (R402, R458). [DEDUCED, log 73] -/
def Flock.watched (k : Flock) (s : State) : Bool := !k.stopped && k.unfrozen ≠ 0 && !(s.tm k.team).vacated

/-- A function-level reset in progress ends: Baszer is told, and the port answers again (R464, step 6). -/
def endReset (s : State) : State :=
  if s.dev.inReset then (s.modDev fun d => { d with inReset := false }).send (.sideband 0x64 []) else s

/-- One tick (R391): the count, the watchdogs, the priors that no view needs, and a look at which flocks may issue. -/
def tick (s : State) : State :=
  let flocks := s.flocks.map fun k => (k.1, if k.2.watched s then { k.2 with watch := k.2.watch + 1 } else k.2)
  let count := fun (t : Task) => if t.running || t.cmds.length ≤ t.cursor then t else { t with watch := t.watch + 1 }
  let cores := s.cores.map fun c => (c.1, { c.2 with tasks := c.2.tasks.map fun t => (t.1, count t.2) })
  let lines := (s.lines.map fun l => (l.1, pruneLine s l.2)).filter fun l => l.2 ≠ Line.reset
  noteEligible { s with
    dev := { s.dev with hb := s.dev.hb + 1, sub := 0 }, flocks := flocks, cores := cores, lines := lines }

/-- HEARTBEAT_TICK (R243, R391): no tick while HBCTL.RUN is 0. A function-level reset has ended by the tick after it.
[DESIGN CHOICE, log 94] -/
def execHeartbeatTick (s : State) : Out := .next (if s.dev.hbRun then tick (endReset s) else s)

end Sys2Proof.Machine
end

