-- ==== Sys2Proof/Machine/Wait.lean ====
section
/-! DEFINITION. Steps that end or bound a wait: KSEND transfers, parked fibres, fault records, watchdogs and the 4096-cycle
limits (R133, R192, R204, R237, R298, R299, R421, R438, R458). -/

namespace Sys2Proof.Machine

/-! ### KSEND between devices (R133, R298) -/

/-- The new address of a segment that travelled; any other number is kept. -/
def movedAddr (old new : List Nat) (a : Nat) : Nat :=
  match indexOf? (· == a) old 0 with
  | some i => new.getD i a
  | none => a

/-- Lays out the segments of a continuation (R298): PREV and HLINK name the new segments, no other byte changes. -/
def layoutSegs (s : State) (old new : List Nat) (segs : List (List Byte)) : State :=
  (List.range new.length).foldl (fun s i =>
    let a := new.getD i 0
    let s1 := s.putBytes a (segs.getD i [])
    (s1.putNum a 8 (movedAddr old new (s1.segPrev a))).putNum (a + 0x18) 8 (movedAddr old new (s1.segHlink a))) s

/-- Lays out an image chain, each segment naming the next. -/
def layoutImage (s : State) (new : List Nat) (segs : List (List Byte)) : State :=
  (List.range new.length).foldl (fun s i =>
    let a := new.getD i 0
    (s.putBytes a (segs.getD i [])).putNum a 8 (new.getD (i + 1) 0)) s

/-- Writes the header that a continuation takes on this device. -/
def layoutHeader (s : State) (a : Nat) (m : KMsg) (new img : List Nat) : State :=
  let gen := (s.num (a + 2) 2 % 1024 + 1) % 1024
  let num := fun (o : Nat) => natOfBytes ((m.hdrBytes.drop o).take 8)
  let mv := fun (o : Nat) => movedAddr m.segAddrs new (num o)
  (((((((s.putBytes a m.hdrBytes).putNum (a + 2) 2 gen).putNum (a + 0x18) 8 (mv 0x18)).putNum (a + 0x20) 8
    (mv 0x20)).putNum (a + 0x28) 8 (mv 0x28)).putNum (a + 0x30) 8 (img.headD 0)).putNum a 1 1)

/-- The continuation in this device's frame heap: the new handle and the state; none when there is no room. [DEDUCED, log 36] -/
def receiveContinuation (s : State) (m : KMsg) : Option (DWord × State) :=
  (takeHeader s m.ctx).bind fun h => (takeSegs h.2 m.ctx m.segs.length).bind fun g =>
    (takeSegs g.2 m.ctx m.image.length).map fun im =>
      let s1 := layoutImage (layoutSegs im.2 m.segAddrs g.1 m.segs) im.1 m.image
      let s2 := layoutHeader s1 h.1 m g.1 im.1
      (handleOf s2 h.1, s2)

/-- KSEND_TRANSFER_RECEIVE (R133, R298). The message carries no privilege level: the delivery word is checked at level 0. [DESIGN CHOICE, log 123] -/
def execKsendTransferReceive (m : KMsg) (s : State) : Out :=
  let reply := fun (s : State) (st : Nat) => s.send (.ksendReply m.src m.token st)
  let c := s.ctx m.ctx
  .next (if c.st = .free || c.st = .torn then reply s 2
    else match receiveContinuation s m with
      | none => reply s 3
      | some (h, s1) =>
        let a := withContext s1 0 m.ctx 0
        match translate a.2.2 a.1 m.delivery .store false with
        | .ok (p, s2) =>
          let k := natOfBytes ((m.hdrBytes.drop 0x38).take 7)
          match deliver (dropAgent s2 a.1 a.2.1) p.key k h with
          | none => s
          | some s3 => reply s3 0
        | .sys c _ => reply s (deliveryStatus c).toNat
        | .wait => s
        | .bad _ => reply s 4)

/-- The context whose frame heap holds a header. -/
def headerCtx (s : State) (a : Nat) : Option Nat :=
  (s.ctxs.find? fun c => c.2.hdrSegs.contains (a / 1024 * 1024)).map (·.1)

/-- A send ends with a status (R133): D of the fibre that sent takes it, where that fibre still is; the header then leaves its
transit: a delivered source is freed, any other but one whose claim failed lives again. -/
def completeSend (s : State) (token : Nat) (status : KStatus) : State :=
  let tok := sendToken token
  let put := fun (x : Fibre) => x.busy.foldl (fun y b => if b.2 = tok then y.setReg b.1 (word status) else y) x
  match headerCtx s token with
  | none => s
  | some cx =>
    if s.byte token ≠ 5 then s
    else
      let s1 : State := { s with fibres := s.fibres.map fun p => (p.1, put p.2) }
      let s2 := s1.finishTok tok
      if status = 0 then (dropContinuation s2 cx token).putNum token 1 6
      else if status = 5 then s2 else s2.putNum token 1 1

/-- Where each header was last sent: a header in transit is on its way there. -/
def lastSends (s : State) : Tab Nat :=
  s.outbox.foldl (fun t m => match m with
    | .ksend d token _ => tabPut t token d
    | _ => t) []

/-- Ends the sends in transit to a device with a status (R133, R453, R460, R465). -/
def abortSends (s : State) (dev : Nat) (status : KStatus) : State :=
  (lastSends s).foldl (fun s p => if p.2 = dev then completeSend s p.1 status else s) s

/-- Ends stores on their way that a test selects, in error: each raises CLASS 2 on the flock of its fibre, with the agent as word 5
(R302, R453, R460). A fibre in no flock has none to stop. [DEDUCED, log 90] -/
def loseStores (s : State) (hit : StoreReq → Bool) (w : DWord) : State :=
  let gone := (s.fibres.flatMap fun f => f.2.queue.filter hit) ++ (s.cores.flatMap fun c => c.2.order.filter hit)
  let s1 : State := { s with
    fibres := s.fibres.map fun f => (f.1, { f.2 with queue := f.2.queue.filter fun r => !hit r }),
    cores := s.cores.map fun c => (c.1, { c.2 with order := c.2.order.filter fun r => !hit r }) }
  ((gone.map (·.fibre)).dedup).foldl (fun s f => match (s.fib f).loc with
    | .flock k => stopFlock { s with runs := s.runs.filter fun r => r.flock ≠ k } k 2 (Mask.one (s.fib f).home) f 0 w
    | _ => s) (gone.foldl State.finishStore s1)

/-- The path to a device is lost: its sends end with status 6, no operation waits for its answer, its agreement lapses, and the
accesses outstanding to it raise CLASS 2 (R133, R453). -/
def losePath (s : State) (dev : Nat) : State :=
  let s1 := loseStores (ackedBy (abortSends s dev 6) fun a => decide (a.2 = dev))
    (fun r => r.cells.any fun c => levelOf c.1 = .remote && s.keyDev c.1 = dev) (agentWord 4 dev)
  s1.modDev fun d => { d with down := (d.down ++ [dev]).dedup, peers := tabDel d.peers dev }

/-- KSEND_COMPLETE (R133). -/
def execKsendComplete (token : Nat) (status : KStatus) (s : State) : Out := .next (completeSend s token status)

/-! ### Parked fibres and fault records -/

/-- What a parked fibre waits for has come (R299, R300). -/
def parkOver (s : State) (x : Fibre) : Bool :=
  match x.loc with
  | .parked .room => true
  | .parked (.phase key tok) => !s.barrierLive key || s.barField (lineOf key) 8 4 ≠ tok.toNat
  | .parked (.tile core entry st busy) => ((tabGet (s.core core).tiles entry).map fun t => t.st.code) ≠ some st
      || (busy && !tileBusy s ⟨core, entry⟩)
  | .parked (.flags m) => (List.range 12).all fun n => !m.getLsbD n || x.cf n
  | _ => false

/-- PARKED_FIBRE_WAKE (R299). -/
def execParkedFibreWake (fibre : Nat) (s : State) : Out :=
  .next (if parkOver s (s.fib fibre) then returnParked s fibre else s)

/-- FAULT_RECORD_REWALK (R421). -/
def execFaultRecordRewalk (index : Nat) (s : State) : Out := .next (rewalkRecord s index)

/-- WATCHDOG_EXPIRY (R458): the flock raises CLASS 3; word 5 holds WDT's low 40 bits (R456). [DEDUCED, log 73] -/
def execWatchdogExpiry (flock : Nat) (s : State) : Out :=
  let fl := s.flk flock
  .next (if !fl.watched s || fl.watch < s.dev.wdt then s
    else stopFlock { s with runs := s.runs.filter fun r => r.flock ≠ flock } flock 3 fl.unfrozen
      ((fl.unfrozen.lanes.head?.bind fl.fibreAt).getD 0) 0 (dword (s.dev.wdt % 2 ^ 40)))

/-! ### The 4096-cycle limits (R192, R204, R237) -/

/-- The instruction that a sleeping flock issues next, with its run, which the state then has at the head of its list. -/
def stalledAt (s : State) (k : Nat) : Option (Run × Instr × State) :=
  let fl := s.flk k
  if !fl.asleep || fl.stopped || fl.slot.isNone || s.runs.any (fun r => r.flock = k) then none
  else
    let s1 := startRun (s.modFlk k fun fl => { fl with asleep := false }) k
    match s1.runs with
    | [] => none
    | r :: _ =>
      if r.flock ≠ k || r.words.isEmpty then none
      else match decodeWord (r.words.getD (r.idx - 1) 0) with
        | .ok i => some (r, i, s1)
        | .bad _ => none

/-- Issues a stalled instruction whose waiting lanes raise WAIT. -/
def limitRun (s : State) (k : Nat) (body : Instr → Run → Mask → State → Nat → Res (Adv × State)) (sel : Instr → Bool) :
    State :=
  match stalledAt s k with
  | none => s
  | some (r, i, s1) =>
    if !sel i then s
    else match issueReads s1 r i with
      | none => s
      | some s2 =>
        let g := actingMask s2 r i.guard
        settle s2 r i.endsClause (foldLanes s2 r g.lanes (fun s f _ => body i r g s f) (openOuts s2 r g))

/-- The lowest fibre of a mask. -/
def lowFibre (s : State) (r : Run) (g : Mask) : Nat := (g.lanes.head?.bind (s.flk r.flock).fibreAt).getD 0

def isBarw : Instr → Bool
  | .barw .. => true
  | _ => false
def isRdv : Instr → Bool
  | .rdv .. => true
  | _ => false

/-- A BARW lane at its limit: it raises WAIT when its barrier has not moved on (R192). -/
def barwLimit (i : Instr) (_ : Run) (_ : Mask) (s : State) (f : Nat) : Res (Adv × State) :=
  match i with
  | .barw _ d m => (need32 (s.fib f) d).bind fun _ => (barrierLine s f m .load).bind fun r =>
    let tok := (s.fib f).reg d.toNat
    if barrierMoved r.2.2 r.2.1 tok then barwLane s f d m
    else .bad { effWait r.1 with park := some (.phase (r.2.1 * 128) tok) }
  | _ => .wait

/-- BARW_WAIT_LIMIT (R192). -/
def execBarwWaitLimit (flock : Nat) (s : State) : Out := .next (limitRun s flock barwLimit isBarw)

/-- An RDV at its limit: every lane of GuardMask raises WAIT while the line has not moved on (R237). -/
def rdvLimit (i : Instr) (r : Run) (g : Mask) (s : State) (f : Nat) : Res (Adv × State) :=
  match i with
  | .rdv _ a b =>
    let low := lowFibre s r g
    (rdvLine s low a).bind fun l => (src32 s low b).bind fun tok =>
      if (s.fib f).arrived && !barrierMoved s l.2.1 tok then
        .bad { effWait l.1 with park := some (.phase (l.2.1 * 128) tok) }
      else .wait
  | _ => .wait

/-- RDV_WAIT_LIMIT (R237). -/
def execRdvWaitLimit (flock : Nat) (s : State) : Out := .next (limitRun s flock rdvLimit isRdv)

/-- A handle with the states that its tile may be in, and whether a pending operation that names it counts against READY,
as for TREL, TLD and TTAG (R204). -/
structure TileNeed where
  handle : Nat
  states : List TileSt
  idle : Bool
  deriving DecidableEq, Repr

/-- The tile of a slice with .t: EMPTY for the first slice of its phase, FILLING for a later one (R231). -/
def sliceNeed (s : State) (f : Nat) (obj desc : Src) (n : Nat) : List TileNeed :=
  match src64 s f desc with
  | .ok va => match loadBytes s f va n 8 .table false with
    | .ok r =>
      let h := natOfBytes ((r.1.drop 0x16).take 2)
      let held : Bool := match (src64 s f obj).bind fun a => namedBarrier s f a with
        | .ok l => (openPhase l.2 l.1).any fun p => (namedTile s (s.fib f).team h).any fun t => p.2.tiles.contains t
        | _ => false
      [⟨h, [if held then .filling else .empty], false⟩]
    | _ => []
  | _ => []

/-- The tiles that an instruction needs, read by its lowest lane's fibre (R204). -/
def tileNeeds (s : State) (f : Nat) (i : Instr) : List TileNeed :=
  let h := fun (a : Src) => match src32 s f a with
    | .ok w => w.toNat
    | _ => 2 ^ 31
  let ready := fun (a : Src) => TileNeed.mk (h a) [.ready] false
  let lw := fun (a : Src) => match src64 s f a with
    | .ok w => [TileNeed.mk (loopWord w).ah.toNat [.ready] false, ⟨(loopWord w).bh.toNat, [.ready], false⟩]
    | _ => []
  match i with
  | .ttag _ a _ => [⟨h a, [.ready], true⟩]
  | .trel _ a _ => [⟨h a, [.ready, .empty], true⟩]
  | .twait _ a empty => [⟨h a, [if empty then .empty else .ready], false⟩]
  | .tld _ _ a _ _ _ => [⟨h a, [.empty], true⟩]
  | .tst _ _ a _ _ _ => [ready a]
  | .rodld _ _ a b _ => [⟨h a, [.empty], false⟩, ready b]
  | .qst _ _ a _ keep _ _ _ => ready a :: keep.toList.map ready
  | .mready _ a => lw a
  | .mloop _ _ a _ _ _ _ => lw a
  | .tcopy _ _ a b true _ => sliceNeed s f a b 32
  | .tcopyv _ _ a b _ true _ => sliceNeed s f a b 40
  | _ => []

/-- The WAIT of the first tile that holds an instruction back, if any does. -/
def tileWaitEff (s : State) (f : Nat) (i : Instr) : Option Eff :=
  (tileNeeds s f i).findSome? fun n => match namedTile s (s.fib f).team n.handle with
    | none => none
    | some r => match s.tile r with
      | none => none
      | some t =>
        let busy := n.idle && t.st = .ready && tileBusy s r
        if n.states.contains t.st && !busy then none
        else some { effWait (dword n.handle) with park := some (.tile r.core r.key t.st.code busy) }

/-- A lane of an instruction stalled on a tile: QST answers for its own lane, every other for the flock. -/
def tileLimit (i : Instr) (r : Run) (g : Mask) (s : State) (f : Nat) : Res (Adv × State) :=
  match i with
  | .qst _ d a b keep n cy ft => match tileWaitEff s f i with
    | some e => .bad e
    | none => (qstLane s r f d a b keep (QstN.count n) cy.toNat ft).map fun s1 => (.next, s1)
  | _ => match tileWaitEff s (lowFibre s r g) i with
    | some e => .bad e
    | none => .wait

/-- TILE_STALL_LIMIT (R204). -/
def execTileStallLimit (flock : Nat) (s : State) : Out := .next (limitRun s flock tileLimit fun _ => true)

end Sys2Proof.Machine
end

