-- ==== Sys2Proof/Machine/Launch.lean ====
section
/-! DEFINITION. Queues, launch packets, the start barrier, admission and completion (R377 to R390, R396 to R400). -/

namespace Sys2Proof.Machine

/-! ### A drover's accesses (R379, R387, R397) -/

/-- Appends to the error log, which keeps the newest 4096 records (R470). Kinds: 1 corrected, 2 uncorrectable, 3 containment,
4 a stopped queue, 5 a rejected packet that no completion word tells of, 6 a dropped host store. [DESIGN CHOICE, log 82] -/
def State.logError (s : State) (agent index kind addr : Nat) : State :=
  s.modDev fun d => { d with
    errors := (d.errors ++ [LogEntry.mk d.hb agent index kind addr false]).drop (d.errors.length + 1 - 4096) }

/-- Runs a computation as an agent of a context, at a level, for a launch: its fibre key is given. [DEDUCED, log 74] -/
def asContext {α : Type} (s : State) (ctx lvl launch : Nat) (body : State → Nat → Res (α × State)) : Res (α × State) :=
  let t := tabFresh s.teams 0
  let tm : Team := { Team.blank with ctx := ctx, pl := BitVec.ofNat 2 lvl, launch := launch }
  let a := withAgent { s with teams := tabPut s.teams t tm } 26 t 0
  (body a.2 a.1).map fun r => (r.1, dropAgent r.2 a.1 t)

/-- Reads bytes of a context with an acquire at system scope; a host line that a drover reaches is held on die 0. [DEDUCED, log 74] -/
def droverRead (s : State) (ctx lvl launch : Nat) (va n : Nat) : Res (List Byte × State) :=
  asContext s ctx lvl launch fun s f => (translateImage s f .load [(va, n)]).bind fun r =>
    match (pieceKeys r.1).find? r.2.poisonedAt with
    | some g => .sys 1 (dword (g / 32 * 32))
    | none => .ok ((pieceKeys r.1).map r.2.byte, r.2.readBy 0 (pieceKeys r.1))

/-- Writes bytes of a context with a release store at system scope; waits behind a pending version (R347). -/
def droverWrite (s : State) (ctx lvl launch : Nat) (va : Nat) (bytes : List Byte) : Res State :=
  (asContext s ctx lvl launch fun s f => (translateImage s f .store [(va, bytes.length)]).bind fun r =>
    let cells := cellsOf r.1 bytes
    if r.1.any fun p => r.2.barrierLive p.place.key then .bad (effClobber (addrWord va 1 false))
    else if r.2.pendBlocks cells none then .wait
    else
      let s1 := (r.2.clearPoison cells).performHome cells 0
      .ok ((), cells.foldl (fun s c => if levelOf c.1 = .host then s.holdHost 0 c.1 true else s) s1)).map (·.2)

/-- What follows such a write: `done` where it was made, `s` where the word cannot be written, none where it must only wait. -/
def Res.orKeep (r : Res State) (s : State) (done : State → State) : Option State :=
  match r with
  | .ok t => some (done t)
  | .wait => none
  | _ => some s

/-! ### Queues (R377 to R381) -/

/-- The limits of R377. -/
def queueInLimits (q : QueueDesc) : Bool :=
  q.base.toNat % 256 = 0 && ((List.range 17).any fun i => q.slots = 2 ^ i) && q.ctx < 4096 && q.kind < 3 && q.dbi < 768

/-- An address that translates to memory of this device, in a page that level 0 cannot write (R378). -/
def privateToDevice (s : State) (ctx : Nat) (va : DWord) : Bool :=
  (match asContext s ctx 1 noLaunch fun s f => translate s f va .load false with
    | .ok r => decide (r.1.kind = .dev)
    | _ => false)
  && (match asContext s ctx 0 noLaunch fun s f => translate s f va .store false with
    | .ok _ => false
    | _ => true)

/-- A descriptor that its drover takes (R377, R378). -/
def installable (s : State) (drover : Nat) (q : QueueDesc) : Bool :=
  queueInLimits q && drover < 48
    && ((s.queues.filter fun p => p.2.drover = drover && !(p.2.desc.ctx = q.ctx && p.2.desc.base = q.base)).length < 16)
    && (q.kind ≠ 1 || (privateToDevice s q.ctx q.base && privateToDevice s q.ctx q.tail && privateToDevice s q.ctx q.head))

/-- A number that a drover reads, 0 where it cannot. -/
def droverNum (s : State) (ctx va : Nat) : Nat :=
  match droverRead s ctx 1 noLaunch va 8 with
  | .ok r => natOfBytes r.1
  | _ => 0

/-- QUEUE_INSTALL (R377, R378): counts start from the HEAD in memory; installing a queue again clears its stop. A drover runs
once its image has been verified, the last of the boot's stages (R467). -/
def execQueueInstall (drover : Nat) (q : QueueDesc) (s : State) : Out :=
  .next (if s.dev.booted < 4 then s
    else if !installable s drover q then s.send (.sideband 0x78 (bytesOfNat 8 q.base.toNat))
    else
      let rest := s.queues.filter fun p => !(p.2.desc.ctx = q.ctx && p.2.desc.base = q.base)
      let n := droverNum s q.ctx q.head.toNat
      { s with queues := tabPut rest (tabFresh rest 0) ⟨drover, q, n, n, false, none⟩ })

/-- Changes an installed queue. -/
def State.modQueue (s : State) (key : Nat) (g : Queue → Queue) : State := { s with queues := tabMod s.queues key g }

/-- A drover that no containment has taken (R459). -/
def State.droverAlive (s : State) (d : Nat) : Bool := !s.dev.contained.contains (7, d)

/-- A queue whose TAIL exceeds HEAD by more than SLOTS stops (R379). -/
def overflowStop (s : State) (key : Nat) (q : Queue) : State :=
  if q.desc.slots < q.tail - q.head && !q.stopped then
    (s.modQueue key fun x => { x with stopped := true }).logError 7 q.drover 4 q.desc.base.toNat
  else s

/-- The drover reads TAIL (R380). -/
def readTail (s : State) (key : Nat) : State :=
  match tabGet s.queues key with
  | none => s
  | some q =>
    if q.stopped || !s.droverAlive q.drover then s
    else match droverRead s q.desc.ctx 1 noLaunch q.desc.tail.toNat 8 with
      | .ok r =>
        let q1 := { q with tail := natOfBytes r.1 }
        overflowStop (r.2.modQueue key fun _ => q1) key q1
      | _ => s

/-- Queues that a test selects. -/
def State.queueKeys (s : State) (p : Queue → Bool) : List Nat := (s.queues.filter fun q => p q.2).map (·.1)

/-- The host port carries traffic: it has trained, and no containment isolates it (R443, R466). -/
def State.portUp (s : State) : Bool := s.dev.hostUp && s.dev.host.isSome && !s.dev.contained.contains (5, 0)

/-- DOORBELL (R380, R445): a DBI that names no queue is ignored, and so is a write while the host port is down
or in reset (R464, R466). -/
def execDoorbell (dbi : Nat) (s : State) : Out :=
  .next (if !s.portUp || s.dev.inReset then s
    else (s.queueKeys fun q => dbi < 768 && decide (q.desc.dbi = dbi)).foldl readTail s)

/-- TAIL_INVALIDATE (R380): under CXL the host's write takes the drover's copy. -/
def execTailInvalidate (queue : Nat) (s : State) : Out :=
  .next (match s.dev.host with
    | some (.cxl, _) => readTail s queue
    | _ => s)

/-- TAIL_POLL (R380). -/
def execTailPoll (drover : Nat) (s : State) : Out := .next ((s.queueKeys fun q => q.drover = drover).foldl readTail s)

/-- The next entry of a queue, HEAD having passed it (R379, R381): none while the entry before it is not accepted, or where
a read or a write of the queue fails. -/
def takeEntry (s : State) (key : Nat) (q : Queue) : Option (List Byte × State) :=
  if q.stopped || q.entry.isSome || q.tail ≤ q.head || q.desc.slots < q.tail - q.head || !s.droverAlive q.drover then none
  else match droverRead s q.desc.ctx 1 noLaunch (q.desc.base.toNat + q.head % q.desc.slots * 256) 256 with
    | .ok r => match droverWrite r.2 q.desc.ctx 1 noLaunch q.desc.head.toNat (bytesOfNat 8 (q.head + 1)) with
      | .ok s1 => some (r.1, s1.modQueue key fun x => { x with head := q.head + 1 })
      | _ => none
    | _ => none

/-! ### The launch packet (R382 to R386) -/

/-- A number of a packet. -/
def pkNum (b : List Byte) (o n : Nat) : Nat := natOfBytes ((b.drop o).take n)
/-- Role i of a packet. -/
def pkRole (b : List Byte) (i : Nat) : Role :=
  let w := pkNum b (0x30 + 4 * i) 4
  ⟨w % 2 ^ 16, bitsOf w 16 8 * 8, bitOf w 24⟩
def pkRoles (b : List Byte) : List Role := (List.range 4).map (pkRole b)
/-- The devices of a packet. -/
def pkDevs (b : List Byte) : List Nat := (List.range 64).filter fun d => bitOf (pkNum b 0x18 8) d
def pkFibres (b : List Byte) : Nat := pkNum b 0x20 2
def pkSup (b : List Byte) : Bool := bitOf (pkNum b 1 1) 1
/-- The level that a launch's teams run at (R385). -/
def pkLevel (b : List Byte) : Nat := if pkSup b then 1 else 0

/-- Cores per team of AdmitTeam (R396). -/
def pkCores (b : List Byte) : Nat :=
  if pkNum b 0x23 1 ≠ 0 then pkNum b 0x23 1
  else (([1, 2, 3, 4].find? fun c => 8 * ceilDiv (pkFibres b) (8 * c) ≤ 4096).getD 4)

/-- The role of fibre index i (R277). -/
def roleAt (roles : List Role) (i : Nat) : Nat :=
  ((roles.foldl (fun (q : Nat × Nat × Option Nat) r =>
    (q.1 + 1, q.2.1 + r.count, if q.2.2.isNone && decide (i < q.2.1 + r.count) then some q.1 else q.2.2)) (0, 0, none)).2.2).getD 0

/-- Fibre indices of the core of rank r, of c (R276). -/
def rankFibres (f c r : Nat) : List Nat :=
  let b := 8 * ceilDiv f (8 * c)
  (List.range (Nat.min f ((r + 1) * b) - r * b)).map (r * b + ·)

/-- Flocks of consecutive indices of one role, eight at a time (R276). -/
def layFlocks (roles : List Role) (is : List Nat) : List (Nat × List Nat) :=
  is.foldl (fun (l : List (Nat × List Nat)) i => match l.getLast? with
    | some q => if q.1 = roleAt roles i && q.2.length < 8 then l.dropLast ++ [(q.1, q.2 ++ [i])]
      else l ++ [(roleAt roles i, [i])]
    | none => [(roleAt roles i, [i])]) []

/-- Registers that indices need in a lane's bank. -/
def laneNeed (roles : List Role) (is : List Nat) (lane : Nat) : Nat :=
  ((is.filter fun i => i % 8 = lane).map fun i => (roles.getD (roleAt roles i) ⟨0, 0, false⟩).regs).sum

/-- One core without other teams holds the fibres of a rank (reason 7). [DEDUCED, log 75] -/
def rankFits (b : List Byte) (is : List Nat) : Bool :=
  (List.range 8).all (fun l => (is.filter fun i => i % 8 = l).length ≤ 512 && laneNeed (pkRoles b) is l ≤ 32768)
    && (layFlocks (pkRoles b) is).length ≤ 512
    && pkNum b 0x28 4 + pkNum b 0x24 4 * is.length + pkNum b 0x2C 4 ≤ scratchBytes

/-- The kernel that a packet names in a context (R430). -/
def kernelOf (s : State) (ctx code kidx : Nat) : Option Kernel :=
  ((s.ctx ctx).images.find? fun m => m.base = dword code).bind fun m => m.kernels[kidx]?

/-- The kernel admits the packet (R430). -/
def kernelAdmits (k : Kernel) (b : List Byte) : Bool :=
  pkFibres b ≤ k.fibres && k.banks ≤ pkNum b 0x22 1 && (List.range 4).all fun i =>
    let r := pkRole b i
    let d := k.roles.getD i ⟨0, 0, false⟩
    r.count = 0 || (d.count ≠ 0 && d.consumer = r.consumer && d.regs ≤ r.regs)

/-- Bytes of a packet from an offset on are zero. -/
def zeroFrom (b : List Byte) (o n : Nat) : Bool := pkNum b o n = 0

/-- Reason 1 of R383. -/
def reservedBad (b : List Byte) : Bool :=
  pkNum b 0 1 ≠ 1 || pkNum b 1 1 / 4 ≠ 0 || pkNum b 2 1 / 8 ≠ 0
    || ((List.range 4).any fun i => pkNum b (0x30 + 4 * i) 4 / 2 ^ 25 ≠ 0) || !zeroFrom b 0xA0 96

/-- Reason 2 of R383. -/
def limitsBad (s : State) (b : List Byte) : Bool :=
  let rs := pkRoles b
  let present := rs.filter fun r => r.count ≠ 0
  let n := pkNum b 0x14 4
  let devs := pkDevs b
  n = 0 || 2 ^ 24 < n || n < devs.length || !devs.contains s.dev.devid
    || (devs.any fun d => !s.dev.fabric.contains d)
    || pkFibres b = 0 || 8192 < pkFibres b || 4 < pkNum b 0x22 1 || 4 < pkNum b 0x23 1
    || pkNum b 0x24 4 % 128 ≠ 0 || 65536 < pkNum b 0x24 4
    || pkNum b 0x28 4 % 4096 ≠ 0 || scratchBytes < pkNum b 0x28 4
    || pkNum b 0x2C 4 % 4096 ≠ 0 || 2 ^ 20 < pkNum b 0x2C 4
    || (present.any fun r => r.regs = 0 || 256 < r.regs)
    || (rs.map (·.count)).sum ≠ pkFibres b || !(present.any fun r => !r.consumer)
    || pkNum b 0x50 8 % 16 ≠ 0 || (List.range 4).any fun i => pkNum b (0x60 + 16 * i) 8 % 8 ≠ 0

/-- Reason 7 of R383. [DEDUCED, log 75] -/
def sizeBad (b : List Byte) : Bool :=
  4096 * pkCores b < pkFibres b
    || (List.range (pkCores b)).any fun r => !rankFits b (rankFibres (pkFibres b) (pkCores b) r)

/-- A DEP address that cannot be read (reason 6). -/
def depBad (s : State) (ctx launch : Nat) (b : List Byte) : Bool := (List.range 4).any fun i =>
  let a := pkNum b (0x60 + 16 * i) 8
  a ≠ 0 && (match asContext s ctx (pkLevel b) launch fun s f => translate s f (dword a) .load false with
    | .ok _ => false
    | _ => true)

/-- The reason of R383 for a packet of a context, from a queue of a kind or from a link; 0 for none. -/
def packetReason (s : State) (ctx launch : Nat) (kind : Option Nat) (b : List Byte) : Nat :=
  if reservedBad b then 1
  else if limitsBad s b then 2
  else if pkNum b 3 1 ≠ 0 && pkNum b 3 1 ≠ 1 && pkNum b 3 1 ≠ 0xFF then 3
  else if !((kernelOf s ctx (pkNum b 0x08 8) (pkNum b 0x10 4)).any fun k => kernelAdmits k b) then 4
  else if pkSup b && (kind ≠ some 1 || 1 < (pkDevs b).length) then 5
  else if depBad s ctx launch b then 6
  else if sizeBad b then 7
  else if (s.ctx ctx).st = .torn || (s.ctx ctx).st = .free then 9
  else 0

/-- The completion word of a packet can be written (R383). -/
def doneWritable (s : State) (ctx launch : Nat) (b : List Byte) : Bool :=
  pkNum b 0x50 8 % 16 = 0 && (match asContext s ctx (pkLevel b) launch fun s f =>
      translate s f (dword (pkNum b 0x50 8)) .store false with
    | .ok _ => true
    | _ => false)

/-- The status of a rejected packet (R383). -/
def rejectStatus (reason : Nat) : DWord := dword (reason + 3 * 2 ^ 24)

/-- The launch of a packet read or received now: its priority and its age are fixed (R388). -/
def newLaunch (s : State) (ctx : Nat) (b : List Byte) (queue : Option Nat) (origin originQueue : Nat) : Launch where
  ctx := ctx
  bytes := b
  queue := queue
  origin := origin
  originQueue := originQueue
  sup := pkSup b
  prio := (s.ctx ctx).cprio.toNat * 8 + pkNum b 2 1 % 8
  age := s.seq
  ph := .deps
  metDeps := []
  waiting := []
  armed := []
  replicated := none
  status := 0
  message := none

/-- The packet of the launch is accepted, at GO (R381, R390). -/
def Launch.accepted (l : Launch) : Bool := l.ph = .released

/-- Grid indices of the teams of this device (R386). -/
def localTeams (dev : Nat) (b : List Byte) : List Nat :=
  let devs := pkDevs b
  let n := pkNum b 0x14 4
  let i := (indexOf? (· == dev) devs 0).getD 0
  let lo := ceilDiv (i * n) devs.length
  (List.range (ceilDiv ((i + 1) * n) devs.length - lo)).map (lo + ·)

/-- Adds a launch. Its context has fibres on other devices once one of its launches spans them (R346). -/
def State.addLaunch (s : State) (key : Nat) (l : Launch) : State :=
  let s1 : State := { s with launches := tabPut s.launches key l, seq := s.seq + 1 }
  if pkNum l.bytes 0 1 = 1 && (pkDevs l.bytes).any (· ≠ s.dev.devid) then s1.modCtx l.ctx fun c => { c with away := true } else s1
def State.modLaunch (s : State) (key : Nat) (g : Launch → Launch) : State := { s with launches := tabMod s.launches key g }
def State.delLaunch (s : State) (key : Nat) : State := { s with launches := tabDel s.launches key }

/-- The entry of a queue is accepted (R381). -/
def acceptEntry (s : State) (queue : Option Nat) : State :=
  match queue with
  | none => s
  | some q => s.modQueue q fun x => { x with entry := none }

/-! ### Dependences (R387, R389) -/

/-- The dependence words of a launch that are met now. -/
def metNow (s : State) (key : Nat) (l : Launch) : List Nat := (List.range 4).filter fun i =>
  let a := pkNum l.bytes (0x60 + 16 * i) 8
  a = 0 || l.metDeps.contains i || (match droverRead s l.ctx (if l.sup then 1 else 0) key a 8 with
    | .ok r => decide (pkNum l.bytes (0x68 + 16 * i) 8 ≤ natOfBytes r.1)
    | _ => false)

/-- Rereads the unmet words; when every entry is met the origin replicates the packet and admission begins. -/
def checkDeps (s : State) (key : Nat) : State :=
  match tabGet s.launches key with
  | none => s
  | some l =>
    if l.ph ≠ .deps || pkNum l.bytes 0 1 ≠ 1 then s
    else
      let met := metNow s key l
      if met.length < 4 then s.modLaunch key fun x => { x with metDeps := met }
      else
        let others := if l.origin = s.dev.devid then (pkDevs l.bytes).filter (· ≠ s.dev.devid) else []
        let s1 := others.foldl (fun s d => s.send (.packet d l.ctx l.originQueue l.bytes)) s
        s1.modLaunch key fun x => { x with
          metDeps := met, ph := .admitting, waiting := localTeams s.dev.devid l.bytes,
          replicated := if others.isEmpty then none else some s.dev.hb }

/-- DEPENDENCE_RECHECK (R387). -/
def execDependenceRecheck (launch : Nat) (s : State) : Out := .next (checkDeps s launch)

/-- After a completion word: the launch is over, the queue's interrupt is signalled where the packet asks for it (R397) and the
host port is up (R466), and every dependence that is not met is read again (R387). -/
def afterCompletion (s : State) (launch : Nat) (queue : Option Nat) (b : List Byte) : State :=
  let s := s.delLaunch launch
  let s1 := match queue with
    | some q => if bitOf (pkNum b 1 1) 0 && s.portUp then s.send (.irq q) else s
    | none => s
  (s1.launches.map (·.1)).foldl checkDeps s1

/-- Writes word 0, then word 1 as a release at system scope (R397); none while a word must wait. -/
def writeCompletion (s : State) (ctx launch : Nat) (queue : Option Nat) (b : List Byte) (status : DWord) : Option State :=
  let done := pkNum b 0x50 8
  ((droverWrite s ctx (pkLevel b) launch done (bytesOfNat 8 status.toNat)).bind fun s1 =>
    droverWrite s1 ctx (pkLevel b) launch (done + 8) (bytesOfNat 8 (2 ^ 63 + pkNum b 4 4))).orKeep
      (s.logError 7 0 5 done) fun s1 => afterCompletion s1 launch queue b

/-- Takes a packet that was read or received: a launch, or its rejection. The answer tells the rejection's reason; none while
a completion word must wait. -/
def takePacket (s : State) (ctx : Nat) (b : List Byte) (queue : Option Nat) (kind : Option Nat) (origin originQueue : Nat) :
    Option (Nat × State) :=
  let key := tabFresh s.launches 0
  let s1 := s.addLaunch key (newLaunch s ctx b queue origin originQueue)
  if !doneWritable s1 ctx key b then some (1, (s1.delLaunch key).logError 7 0 5 (pkNum b 0x50 8))
  else match packetReason s1 ctx key kind b with
    | 0 => some (0, checkDeps (match queue with
        | some q => s1.modQueue q fun x => { x with entry := some key }
        | none => s1) key)
    | r => (writeCompletion s1 ctx key queue b (rejectStatus r)).map fun s2 => (r, s2.delLaunch key)

/-- PACKET_READ (R381, R383): a TYPE 2 entry of KIND 0 or 1 is kept for SERVICE_REQUEST_PACKET. -/
def execPacketRead (queue : Nat) (s : State) : Out :=
  .next (match tabGet s.queues queue with
    | none => s
    | some q =>
      if q.desc.kind = 2 then s
      else match takeEntry s queue q with
        | none => overflowStop s queue q
        | some (b, s1) =>
          if pkNum b 0 1 = 2 then
            let key := tabFresh s1.launches 0
            (s1.addLaunch key (newLaunch s1 q.desc.ctx b (some queue) s.dev.devid queue)).modQueue
              queue fun x => { x with entry := some key }
          else match takePacket s1 q.desc.ctx b (some queue) (some q.desc.kind) s.dev.devid queue with
            | none => s
            | some (_, s2) => s2)

/-- LAUNCH_REPLICATE (R389): a copy is validated; a rejection is reported to the origin (R390). -/
def execLaunchReplicate (src : LaunchFrom) (ctx : Nat) (packet : List Byte) (s : State) : Out :=
  .next (match takePacket s ctx packet none none src.dev src.queue with
    | none => s
    | some (0, s1) => s1
    | some (_, s1) => s1.send (.reject src.dev src.queue (word (pkNum packet 4 4))))

/-! ### Service requests (R384) -/

/-- A service request's rejection reason; 0 for none (R384, R395). -/
def requestReason (s : State) (ctx key : Nat) (b : List Byte) : Nat :=
  let a := pkNum b 8 8
  if !zeroFrom b 1 7 || !zeroFrom b 0x12 (256 - 0x12) then 1
  else if a % 64 ≠ 0 then 6
  else match asContext s ctx 0 key fun s f => translate s f (dword a) .store false with
    | .ok _ => if (s.ctx ctx).st = .torn || (s.ctx ctx).st = .free then 9 else 0
    | _ => 6

/-- SERVICE_REQUEST_PACKET (R384): posts the record; a full service queue delays it. -/
def execServiceRequestPacket (queue : Nat) (s : State) : Out :=
  .next (match (tabGet s.queues queue).bind fun q => q.entry with
    | none => s
    | some key => match tabGet s.launches key with
      | none => s
      | some l =>
        let done := acceptEntry (s.delLaunch key) (some queue)
        if pkNum l.bytes 0 1 ≠ 2 then s
        else if requestReason s l.ctx key l.bytes ≠ 0 then done.logError 7 0 5 (pkNum l.bytes 8 8)
        else if 1024 ≤ (s.ctx l.ctx).svcQ.length then s
        else done.modCtx l.ctx fun c => { c with svcQ := c.svcQ ++
          [⟨l.ctx, 0xFFFFFFFF, 0xFFFFFFFF, dword (pkNum l.bytes 8 8), pkNum l.bytes 0x10 2⟩] })

end Sys2Proof.Machine
end

