-- ==== Sys2Proof/Machine/Admit.lean ====
section
/-! DEFINITION. Admission of teams, the start barrier, and the end of teams and launches
(R388 to R390, R394, R396 to R401, R405, R406). -/

namespace Sys2Proof.Machine

/-! ### Who is admitted next (R388, R399) -/

/-- The team's home in the order of R388: priority, age, grid index. -/
structure Waiting where
  prio : Nat
  age : Nat
  index : Nat
  launch : Nat
  /-- A vacated team; none for a team not yet admitted. -/
  team : Option Nat
  deriving DecidableEq, Repr

/-- `a` is admitted before `b`. [DEDUCED, log 76] -/
def Waiting.before (a b : Waiting) : Bool :=
  if a.prio ≠ b.prio then b.prio < a.prio else if a.age ≠ b.age then a.age < b.age else a.index < b.index

/-- The method table that a launch needs is in force, or the launch has begun under it (R399). -/
def methodReady (s : State) (l : Launch) : Bool :=
  let m := pkNum l.bytes 0x40 8
  m = 0 || dword m = (s.ctx l.ctx).mtp || l.waiting.length ≠ (localTeams s.dev.devid l.bytes).length

/-- The teams that await admission or restore. -/
def awaiting (s : State) : List Waiting :=
  let fresh := s.launches.filterMap fun p =>
    match p.2.waiting with
    | [] => none
    | t :: _ => if p.2.ph = .admitting && (s.ctx p.2.ctx).st = .resident && methodReady s p.2 then
        some ⟨p.2.prio, p.2.age, t, p.1, none⟩ else none
  let old := s.teams.filterMap fun t =>
    if !t.2.vacated || (s.ctx t.2.ctx).st ≠ .resident then none
    else (tabGet s.launches t.2.launch).map fun l => Waiting.mk l.prio l.age t.2.index t.2.launch (some t.1)
  fresh ++ old

/-- The first of them. [DEDUCED, log 76] -/
def firstWaiting (s : State) : Option Waiting :=
  (awaiting s).foldl (fun b w => match b with
    | none => some w
    | some v => if w.before v then some w else b) none

/-! ### Resources (R24, R199, R257, R311, R396) -/

/-- The cores of a cluster, but those contained (R462). -/
def clusterCores (s : State) (die cl : Nat) : List Nat :=
  ((List.range 4).map fun i => die * 13 + cl * 4 + i).filter fun c => !(s.core c).contained

/-- Areas of these sizes, granted in this order, fit a core's scratchpad (R311). [DEDUCED, log 78] -/
def areasFit : List Nat → Core → Bool
  | [], _ => true
  | n :: ns, c => match c.freeArea n with
    | none => false
    | some b => areasFit ns { c with areas := c.areas ++ [(0, 0, b, n)] }

/-- Fibres of a rank fit a core's lanes and slots, its scratchpad, its banks and its tile table. -/
def coreFits (s : State) (core : Nat) (roles : List Role) (is : List Nat) (banks entries : Nat) (areas : List Nat) :
    Bool :=
  (List.range 8).all (fun l => s.laneRegs core l + laneNeed roles is l ≤ 32768
      && (s.laneFibres core l).length + (is.filter fun i => i % 8 = l).length ≤ 512)
    && (layFlocks roles is).length + (s.slotsUsed core).length ≤ 512
    && banks ≤ ((s.core core).banks.filter Option.isNone).length
    && entries ≤ sharedFree s core && (s.residents core).length < 64 && areasFit areas (s.core core)

/-- Cores for the ranks, ascending, each of which fits its rank; none where they do not suffice. -/
def chooseCores (fits : Nat → Nat → Bool) : Nat → Nat → List Nat → Option (List Nat)
  | 0, _, _ => some []
  | _ + 1, _, [] => none
  | n + 1, r, c :: cs =>
    if fits c r then (chooseCores fits n (r + 1) cs).map (c :: ·) else chooseCores fits (n + 1) r cs

/-- Zeroes a physical bank with its rod-store quarters (R24, R327, R328). -/
def zeroBank (s : State) (core phys : Nat) : State :=
  let lo := rodKey core 0 0
  let inQuarter := fun (k : Nat) => lo ≤ k && k < lo + 256 * 2 ^ 15 && (k - lo) % 2 ^ 15 / 8192 = phys
  let s1 : State := { s with mem := s.mem.filter fun c => !inQuarter c.1 }
  s1.modCore core fun c => { c with acc := c.acc.filter fun e => e.1 / 16384 ≠ phys }

/-- Grants `n` free banks of a core under the names ACC0 on. -/
def grantBanks (s : State) (core team n : Nat) : Option State :=
  (List.range n).foldl (fun (o : Option State) m => o.bind fun s =>
    (indexOf? (fun (b : Option BankGrant) => b.isNone) (s.core core).banks 0).map fun p =>
      (zeroBank s core p).modCore core fun c => { c with banks := setAt c.banks p (some ⟨team, m⟩) }) (some s)

/-- Grants an area on each of some cores. -/
def grantAll (s : State) (team kind n : Nat) (cores : List Nat) : Option State :=
  cores.foldl (fun (o : Option State) c => o.bind fun s => (grantArea s c team kind n).map (·.2)) (some s)

/-- Segments that a vacate image may take: the fibres' records, the areas, the banks with their quarters. [DESIGN CHOICE, log 77] -/
def imageReserve (b : List Byte) : Nat :=
  let fibres := ((pkRoles b).map fun r => r.count * imageSegs (64 + 4 * r.regs + parkExtra)).sum
  let c := pkCores b
  fibres + ceilDiv (pkFibres b * pkNum b 0x24 4 + c * pkNum b 0x28 4 + 4 * pkNum b 0x2C 4) 960
    + ceilDiv (c * pkNum b 0x22 1 * (65536 + 256 * 8192)) 960

/-- The team of a launch (R30, R385, R396). -/
def newTeam (s : State) (l : Launch) (key index die cl : Nat) (cores : List Nat) (k : Kernel) : Team where
  ctx := l.ctx
  launch := key
  index := index
  devIndex := (indexOf? (· == s.dev.devid) (pkDevs l.bytes) 0).getD 0
  gen := word (pkNum l.bytes 4 4)
  nbv := let v := pkNum l.bytes 3 1; if v = 0xFF then (if (s.ctx l.ctx).nbvd then 1 else 0) else BitVec.ofNat 8 v
  pl := if l.sup then 1 else 0
  su := dword (pkNum l.bytes 0x48 8) :: List.replicate 63 0
  cores := cores
  die := die
  cluster := cl
  p := pkNum l.bytes 0x24 4
  q := pkNum l.bytes 0x28 4
  e := pkNum l.bytes 0x2C 4
  banks := pkNum l.bytes 0x22 1
  roles := pkRoles l.bytes
  declared := k.fibres
  held := true
  vacated := false
  leaving := false
  status := none
  payload := l.message.map (·.seg)
  reserve := imageReserve l.bytes

/-- Creates the fibres of a rank on its core (R16, R108, R257). -/
def createRank (s : State) (team core : Nat) (roles : List Role) (pc : DWord) (is : List Nat) : Option State :=
  is.foldl (fun (o : Option State) i => o.bind fun s =>
    let r := roleAt roles i
    (createFibre s team r (roles.getD r ⟨0, 0, false⟩).regs i core (i % 8) pc s.dev.hb).map (·.2)) (some s)

/-- Forms the flocks of a rank whose roles are consumers, or producers (R276, R278). -/
def formRank (s : State) (team core : Nat) (roles : List Role) (is : List Nat) (consumer : Bool) : State :=
  ((layFlocks roles is).filter fun q => (roles.getD q.1 ⟨0, 0, false⟩).consumer = consumer).foldl (fun s q =>
    let keyOf := fun (i : Nat) => ((s.teamFibres team).find? fun p => p.2.index = i).map (·.1)
    let lanes := (List.range 8).map fun l => (q.2.find? fun i => i % 8 = l).bind keyOf
    (formFlock s core team q.1 lanes (freeSlot s core) (List.replicate 64 0)).2) s

/-- Places a team on cores of a cluster; none where a resource is lacking (R396). -/
def placeTeam (s : State) (l : Launch) (key index die cl : Nat) (k : Kernel) (cores : List Nat) : Option State :=
  let t := tabFresh s.teams 0
  let tm := newTeam s l key index die cl cores k
  let roles := tm.roles
  let rank := fun (r : Nat) => rankFibres (pkFibres l.bytes) (pkCores l.bytes) r
  let s0 := { s with teams := tabPut s.teams t tm }
  let ranks := List.range cores.length
  ((grantAll s0 t areaCore tm.q cores).bind fun s1 => (grantAll s1 t areaExport tm.e (clusterCores s die cl)).bind fun s2 =>
    (cores.foldl (fun (o : Option State) c => o.bind fun s => grantBanks s c t tm.banks) (some s2)).bind fun s3 =>
      (ranks.foldl (fun (o : Option State) r => o.bind fun s =>
        createRank s t (cores.getD r 0) roles k.entry (rank r)) (some s3)).bind fun s4 =>
        if s.segFree l.ctx < pkFibres l.bytes + tm.reserve then none
        else
          let s5 := ranks.foldl (fun s r => formRank s t (cores.getD r 0) roles (rank r) false) s4
          some (ranks.foldl (fun s r => formRank s t (cores.getD r 0) roles (rank r) true) s5))

/-- A rank of a launch's team fits a core. [DEDUCED, log 78] -/
def rankHolds (s : State) (l : Launch) (core r : Nat) : Bool :=
  let is := rankFibres (pkFibres l.bytes) (pkCores l.bytes) r
  coreFits s core (pkRoles l.bytes) is (pkNum l.bytes 0x22 1) 16
    (pkNum l.bytes 0x28 4 :: pkNum l.bytes 0x2C 4 :: is.map fun _ => pkNum l.bytes 0x24 4)

/-- Every cluster's way to hold the team. -/
def placements (s : State) (l : Launch) (key index : Nat) (k : Kernel) : List State :=
  [(0, 0), (0, 1), (0, 2), (1, 0), (1, 1), (1, 2)].filterMap fun d =>
    (chooseCores (rankHolds s l) (pkCores l.bytes) 0 (clusterCores s d.1 d.2)).bind (placeTeam s l key index d.1 d.2 k)

/-- AdmitTeam of R396 on the first team of a launch that waits: none where no cluster holds it. -/
def admitFirst (s : State) (key : Nat) (l : Launch) : Option State :=
  match l.waiting, kernelOf s l.ctx (pkNum l.bytes 8 8) (pkNum l.bytes 0x10 4) with
  | t :: rest, some k =>
    let n := (placements s l key t k).length
    if n = 0 then none
    else
      let p := s.pick n
      ((placements p.2 l key t k)[p.1]?).map fun s1 => s1.modLaunch key fun x => { x with waiting := rest }
  | _, _ => none

/-! ### The start barrier (R390) -/

/-- Teams of a launch on this device. -/
def launchTeams (s : State) (key : Nat) : List Nat := (s.teams.filter fun t => t.2.launch = key).map (·.1)

/-- Releases the held teams of a launch. -/
def releaseTeams (s : State) (key : Nat) : State :=
  (launchTeams s key).foldl (fun s t => s.modTm t fun x => { x with held := false }) s

/-- START has come, in ns of the time base; 0 waits for nothing. -/
def startReached (s : State) (l : Launch) : Bool :=
  let t := pkNum l.bytes 0x58 8
  t = 0 || t ≤ (timeBase s).toNat

/-- A launch of which no team is left writes its completion word and ends (R397); none while the word must wait. -/
def endLaunch (s : State) (key : Nat) : Option State :=
  match tabGet s.launches key with
  | none => some s
  | some l =>
    if l.ph ≠ .released || !l.waiting.isEmpty || !(launchTeams s key).isEmpty then some s
    else if l.message.isSome then some (s.delLaunch key)
    else (writeCompletion s l.ctx key l.queue l.bytes l.status).map fun s1 => s1.delLaunch key

/-- The teams of a launch go; one whose teams have all been terminated at the barrier ends (R397, R460). -/
def startTeams (s : State) (key : Nat) : State := (endLaunch (releaseTeams s key) key).getD (releaseTeams s key)

/-- GO on this device: the teams go at START. -/
def goLocal (s : State) (key : Nat) (l : Launch) : State :=
  let s1 := s.modLaunch key fun x => { x with ph := .released }
  if startReached s l then startTeams s1 key else s1

/-- The origin's decision to go, when every device is armed; it accepts the packet. -/
def tryGo (s : State) (key : Nat) : State :=
  match tabGet s.launches key with
  | none => s
  | some l =>
    let devs := pkDevs l.bytes
    if l.origin ≠ s.dev.devid || l.ph ≠ .armed || !(devs.all l.armed.contains) then s
    else
      let gen := word (pkNum l.bytes 4 4)
      let s1 := (devs.filter (· ≠ s.dev.devid)).foldl (fun s d => s.send (.go d l.originQueue gen)) s
      goLocal (acceptEntry s1 l.queue) key l

/-- A launch whose teams are all admitted reports ARMED. -/
def armLaunch (s : State) (key : Nat) : State :=
  match tabGet s.launches key with
  | none => s
  | some l =>
    if l.ph ≠ .admitting || !l.waiting.isEmpty then s
    else if l.origin = s.dev.devid then
      tryGo (s.modLaunch key fun x => { x with ph := .armed, armed := x.armed ++ [s.dev.devid] }) key
    else (s.modLaunch key fun x => { x with ph := .armed }).send (.armed l.origin l.originQueue (word (pkNum l.bytes 4 4)))

/-- ADMIT_TEAM (R388, R396): the first team in order, and no other. -/
def execAdmitTeam (s : State) : Out :=
  .next (match firstWaiting s with
    | none => s
    | some w => match w.team, tabGet s.launches w.launch with
      | none, some l => (match admitFirst s w.launch l with
        | none => s
        | some s1 => armLaunch s1 w.launch)
      | _, _ => s)

/-- The launch of a generation that came through a queue of its origin; the oldest, should several bear it (R390). -/
def launchOf (s : State) (origin queue : Nat) (gen : Word) (open_ : Launch → Bool) : Option (Nat × Launch) :=
  s.launches.find? fun p => p.2.origin = origin && p.2.originQueue = queue && word (pkNum p.2.bytes 4 4) = gen && pkNum p.2.bytes 0 1 = 1
    && open_ p.2

/-- A launch that is neither released nor aborted. -/
def Launch.undecided (l : Launch) : Bool := l.ph ≠ .released && l.ph ≠ .aborted

/-- ARMED_MESSAGE (R390). -/
def execArmedMessage (src : LaunchFrom) (gen : Word) (s : State) : Out :=
  .next (match launchOf s s.dev.devid src.queue gen fun l => l.undecided && (pkDevs l.bytes).contains src.dev with
    | none => s
    | some (key, _) => tryGo (s.modLaunch key fun x =>
        { x with armed := if x.armed.contains src.dev then x.armed else x.armed ++ [src.dev] }) key)

/-- GO_MESSAGE (R390). -/
def execGoMessage (src : LaunchFrom) (gen : Word) (s : State) : Out :=
  .next (match launchOf s src.dev src.queue gen fun l => l.ph = .armed && src.dev ≠ s.dev.devid with
    | none => s
    | some (key, l) => goLocal s key l)

/-- START_TIME_RELEASE (R390). -/
def execStartTimeRelease (launch : Nat) (s : State) : Out :=
  .next (match tabGet s.launches launch with
    | none => s
    | some l => if l.ph = .released && startReached s l then startTeams s launch else s)

/-! ### Teams that end (R356, R397) -/

/-- Frees what a team holds on the cores: areas, banks, tile entries (R24, R198, R311). -/
def freeTeam (s : State) (t : Nat) : State :=
  let core := fun (c : Core) => { c with
    areas := c.areas.filter fun a => a.1 ≠ t, tiles := c.tiles.filter fun p => p.1 / 2048 ≠ t,
    gens := c.gens.filter fun p => p.1 / 2048 ≠ t,
    banks := c.banks.map fun b => match b with
      | some g => if g.team = t then none else b
      | none => none }
  { s with cores := s.cores.map fun c => (c.1, core c.2), images := s.images.filter fun p => p.1 / 8 ≠ t }

/-- Ends a fibre of a terminated team: its stores are performed, its open folds abort and its seals end, its segments are free and
the slots of the fault records that it was parked on count it no more (R419); none while a store must wait. [DEDUCED, log 80] -/
def endFibre (s : State) (f : Nat) : Option State :=
  let x := s.fib f
  let cx := s.ctxOf f
  match settleStores s f with
  | .ok s1 =>
    let s2 := (x.fd.filterMap id).foldl (fun s sl =>
      if sl.st = .open || (s.foldRec sl.tag).any (·.aborting) then discardFold s sl.tag f
      else if sl.st = .sealing then sealThrough s sl.tag else s) s1
    let s3 := x.parkSegs.foldl (fun s a => freeSeg s cx a) s2
    let parked := (s3.faults.filter fun r => r.2.fibres.contains f).map (·.1)
    let s4 : State := { s3 with faults := s3.faults.map fun r => (r.1, { r.2 with fibres := r.2.fibres.filter (· ≠ f) }) }
    some (removeFibre (parked.foldl logRecord s4) f)
  | _ => none

/-- The fibres of a vacated team, which hold nothing on a core, counted to a core of the device. -/
def landFibres (s : State) (t : Nat) : State :=
  let tm := s.tm t
  if !tm.vacated then s
  else { s with fibres := s.fibres.map fun f =>
    if f.2.team = t then (f.1, { f.2 with core := tm.cores.headD 0 }) else f }

/-- Ends the fibres of a team. -/
def endFibres (s : State) (t : Nat) : Option State :=
  ((s.teamFibres t).map (·.1)).foldl (fun (o : Option State) f => o.bind fun s => endFibre s f) (some (landFibres s t))

/-- Engine operations of a team that will still end (R356). -/
def engineBusy (s : State) (t : Nat) : Bool := (s.cores ++ s.images).any fun c =>
  c.2.tasks.any (fun x => x.2.team = t) || c.2.groups.any (fun x => x.2.team = t) || c.2.loops.any (fun x => x.team = t)
    || c.2.xfers.any (fun x => x.team = t) || c.2.phases.any fun p => p.queued && p.slices.any fun x => x.team = t

/-- Windows and waiting events of flocks that are gone. -/
def dropWindows (s : State) : State :=
  { s with windows := s.windows.filter fun w => (tabGet s.flocks w.2.flock).isSome,
           events := s.events.filter fun e => (tabGet s.flocks e.flock).isSome }

/-- Removes a team that has completed or terminated; none while its stores must wait. -/
def removeTeam (s : State) (t : Nat) : Option State :=
  let tm := s.tm t
  (endFibres s t).map fun s1 =>
    let s2 := freeTeam (dropEngine s1 t) t
    let s3 := match tm.payload with
      | some a => freeSeg s2 tm.ctx a
      | none => s2
    dropWindows { s3 with teams := tabDel s3.teams t }

/-- A flock of the team is stopped: it stays so until its window's control write (R303). -/
def teamStopped (s : State) (t : Nat) : Bool := s.flocks.any fun k => k.2.team = t && k.2.stopped

/-- TEAM_COMPLETE (R397): the last fibre has exited and no engine operation remains, or the team is terminated and no flock of it
stopped (R303). The launch holds the first status already. -/
def execTeamComplete (team : Nat) (s : State) : Out :=
  .next (match tabGet s.teams team with
    | none => s
    | some tm =>
      if teamStopped s team || (tm.status.isNone && (tm.held || !(s.teamFibres team).isEmpty || engineBusy s team)) then s
      else (((removeTeam s team).bind fun s1 => endLaunch s1 tm.launch).getD s))

/-! ### Aborts (R390) -/

/-- Discards the held teams of a launch unrun. -/
def discardHeld (s : State) (key : Nat) : Option State :=
  (launchTeams s key).foldl (fun (o : Option State) t => o.bind fun s => removeTeam s t) (some s)

/-- ABORT on this device: completion with reason 8 (R390); the state unchanged while a word must wait. -/
def abortLocal (s : State) (key : Nat) : State :=
  match tabGet s.launches key with
  | none => s
  | some l => (((discardHeld s key).bind fun s1 => writeCompletion s1 l.ctx key l.queue l.bytes (rejectStatus 8)).map fun s2 =>
      acceptEntry (s2.delLaunch key) l.queue).getD s

/-- The origin abandons a launch: ABORT to every device. -/
def abortAll (s : State) (key : Nat) : State :=
  match tabGet s.launches key with
  | none => s
  | some l =>
    let s1 := abortLocal s key
    if (tabGet s1.launches key).isSome then s
    else ((pkDevs l.bytes).filter (· ≠ s.dev.devid)).foldl (fun s d => s.send (.abort d l.originQueue (word (pkNum l.bytes 4 4)))) s1

/-- REJECT_MESSAGE (R390). -/
def execRejectMessage (src : LaunchFrom) (gen : Word) (s : State) : Out :=
  .next (match launchOf s s.dev.devid src.queue gen fun l => l.undecided && (pkDevs l.bytes).contains src.dev with
    | none => s
    | some (key, _) => abortAll s key)

/-- ABORT_MESSAGE (R390). -/
def execAbortMessage (src : LaunchFrom) (gen : Word) (s : State) : Out :=
  .next (match launchOf s src.dev src.queue gen fun l => l.undecided && src.dev ≠ s.dev.devid with
    | none => s
    | some (key, _) => abortLocal s key)

/-- ARMED_TIMEOUT (R390): 2^20 ticks after the copies were sent. -/
def execArmedTimeout (launch : Nat) (s : State) : Out :=
  .next (match tabGet s.launches launch with
    | none => s
    | some l => match l.replicated with
      | none => s
      | some t0 => if l.undecided && l.origin = s.dev.devid && t0 + 2 ^ 20 ≤ s.dev.hb then abortAll s launch else s)

/-! ### Method tables (R399) -/

/-- METHOD_TABLE_INSTALL (R399): MTP changes once the context has no resident, held or vacated team. -/
def execMethodTableInstall (launch : Nat) (s : State) : Out :=
  .next (match tabGet s.launches launch with
    | none => s
    | some l =>
      let m := pkNum l.bytes 0x40 8
      if l.ph ≠ .admitting || m = 0 || dword m = (s.ctx l.ctx).mtp || s.hasTeams l.ctx then s
      else s.modCtx l.ctx fun c => { c with mtp := dword m })

/-! ### Active messages (R405, R406) -/

/-- The packet that an active message's launch acts as (R405). -/
def messagePacket (dev : Nat) (m : InMsg) (role : Role) : List Byte :=
  let code := (m.bytes.take 12)
  [1, 0, 0, 0xFF] ++ bytesOfNat 4 0 ++ code.take 8 ++ (code.drop 8).take 4 ++ bytesOfNat 4 1
    ++ bytesOfNat 8 (2 ^ dev) ++ bytesOfNat 2 1 ++ [0, 1] ++ bytesOfNat 12 0
    ++ bytesOfNat 4 (1 + role.regs / 8 * 2 ^ 16 + (if role.consumer then 2 ^ 24 else 0)) ++ bytesOfNat 12 0
    ++ bytesOfNat 8 0 ++ bytesOfNat 8 m.seg ++ List.replicate 176 0

/-- Writes a message's status word, when it has one; none while the word must wait. -/
def messageStatus (s : State) (src : Nat) (b : List Byte) (status : Nat) : Option State :=
  let a := pkNum b 0x10 8
  if a = 0 then some s else (droverWrite s src 0 noLaunch a (bytesOfNat 8 status)).orKeep s id

/-- Delivers a message as a launch of one team of one fibre. -/
def deliverMessage (s : State) (ctx : Nat) (m : InMsg) (role : Role) (queue : Option Nat) : Option State :=
  (messageStatus s m.src m.bytes 1).map fun s1 =>
    let key := tabFresh s1.launches 0
    let l := { newLaunch s1 ctx (messagePacket s.dev.devid m role) queue s.dev.devid (queue.getD 0) with
      ph := .admitting, waiting := [0], message := some m }
    let s2 := s1.addLaunch key l
    match queue with
    | some q => s2.modQueue q fun x => { x with entry := some key }
    | none => s2

/-- The payload's segment of a context (R405). -/
def payloadSeg (s : State) (ctx : Nat) (b : List Byte) : Option (Nat × State) :=
  (takeSeg s ctx).map fun r =>
    (r.1, (r.2.putLink r.1 0 0 0 0 0 0 0).putBytes (r.1 + 0x40) ((b.drop 0x18).take 40))

/-- Role 0 of the kernel that a message names, where it has one. -/
def messageRole (s : State) (ctx : Nat) (b : List Byte) : Option Role :=
  (kernelOf s ctx (pkNum b 0 8) (pkNum b 8 4)).bind fun k => k.roles.head?.bind fun r =>
    if r.count = 0 then none else some r

/-- What becomes of a message taken from a queue of context `src` (R406): none where it must wait. -/
def takeMessage (s : State) (queue src : Nat) (b : List Byte) : Option State :=
  let ctx := pkNum b 0x0C 2
  let c := s.ctx ctx
  if c.st = .torn || c.st = .free then messageStatus s src b 3
  else match messageRole s ctx b with
    | none => messageStatus s src b 5
    | some role =>
      if c.st = .resident then
        if !c.inbound.isEmpty then none
        else (payloadSeg s ctx b).bind fun r => deliverMessage r.2 ctx ⟨b, r.1, src⟩ role (some queue)
      else if 4096 ≤ c.inbound.length then messageStatus s src b 4
      else match payloadSeg s ctx b with
        | none => messageStatus s src b 4
        | some r => messageStatus (r.2.modCtx ctx fun x => { x with inbound := x.inbound ++ [⟨b, r.1, src⟩] }) src b 2

/-- ACTIVE_MESSAGE (R405, R406). -/
def execActiveMessage (queue : Nat) (s : State) : Out :=
  .next (match tabGet s.queues queue with
    | none => s
    | some q =>
      if q.desc.kind ≠ 2 then s
      else match takeEntry s queue q with
        | none => overflowStop s queue q
        | some (b, s1) => (takeMessage s1 queue q.desc.ctx (b.take 64)).getD s)

/-- ACTIVE_MESSAGE_DELIVER (R406): the oldest held message of a resident context. -/
def execActiveMessageDeliver (ctx : Nat) (s : State) : Out :=
  .next (match (s.ctx ctx).inbound with
    | [] => s
    | m :: rest =>
      if (s.ctx ctx).st ≠ .resident then s
      else
        let s1 := s.modCtx ctx fun c => { c with inbound := rest }
        match messageRole s ctx m.bytes with
        | none => ((messageStatus s1 m.src m.bytes 5).map fun s2 => freeSeg s2 ctx m.seg).getD s
        | some role => (deliverMessage s1 ctx m role none).getD s)

end Sys2Proof.Machine
end

