-- ==== Sys2Proof/Machine/Vacate.lean ====
section
/-! DEFINITION. Pre-emption: which teams leave, the vacate image and the restore (R94, R225, R313, R356, R401 to R403). -/

namespace Sys2Proof.Machine

/-! ### Moving a team's state between cores (R313, R402) -/

/-- Where the state of a team goes: each core, each area (old core, base, bytes, new core, new base), each physical bank (old
core, bank, new core, bank). -/
structure Move where
  team : Nat
  cores : List (Nat × Nat)
  areas : List (Nat × Nat × Nat × Nat × Nat)
  banks : List (Nat × Nat × Nat × Nat)
  deriving DecidableEq, Repr

/-- The number that stands for a core in a team's vacate image; no core of the device bears it. -/
def imageCore (team idx : Nat) : Nat := 1024 + team * 8 + idx

def Move.core (m : Move) (c : Nat) : Nat := ((m.cores.find? fun p => p.1 = c).map (·.2)).getD c
/-- The new key of a scratchpad byte, none for a byte that stays. -/
def Move.scratch (m : Move) (key : Nat) : Option Nat :=
  if levelOf key ≠ .scratch then none
  else (m.areas.find? fun a => a.1 = scratchCore key && a.2.1 ≤ scratchOfs key && scratchOfs key < a.2.1 + a.2.2.1).map
    fun a => scratchKey a.2.2.2.1 (a.2.2.2.2 + (scratchOfs key - a.2.1))
/-- The new key of a rod-store byte. -/
def Move.rod (m : Move) (key : Nat) : Option Nat :=
  let base := rodKey 0 0 0
  if key < base then none
  else
    let core := (key - base) / 2 ^ 23
    let j := (key - base) / 2 ^ 15 % 256
    let o := (key - base) % 2 ^ 15
    (m.banks.find? fun b => b.1 = core && b.2.1 = o / 8192).map fun b => rodKey b.2.2.1 j (b.2.2.2 * 8192 + o % 8192)
/-- The new key of a byte. -/
def Move.key (m : Move) (key : Nat) : Option Nat := (m.scratch key).or (m.rod key)
/-- The new number of a line. -/
def Move.line (m : Move) (l : Nat) : Nat := ((m.scratch (l * 128)).map lineOf).getD l
/-- The new place of a tile. -/
def Move.ref (m : Move) (r : TileRef) : TileRef := if r.key / 2048 = m.team then ⟨m.core r.core, r.key⟩ else r
/-- The new base of a slice on a core. -/
def Move.slice (m : Move) (core base : Nat) : Nat :=
  ((m.areas.find? fun a => a.1 = core && a.2.1 = base && a.2.2.1 ≠ 0).map fun a => a.2.2.2.2).getD base

/-- The new object that a parked fibre waits for. -/
def Move.park (m : Move) (o : ParkObj) : ParkObj :=
  match o with
  | .word k => .word ((m.scratch k).getD k)
  | .phase k p => .phase ((m.scratch k).getD k) p
  | .entry k ea n => .entry ((m.scratch k).getD k) ea n
  | .tile c e st b => if e / 2048 = m.team then .tile (m.core c) e st b else o
  | _ => o

def Move.loc (m : Move) (l : Loc) : Loc :=
  match l with
  | .parked o => .parked (m.park o)
  | _ => l

/-- A fibre of the team after the move. -/
def Move.fibre (m : Move) (x : Fibre) : Fibre :=
  if x.team ≠ m.team then x else { x with core := m.core x.core, slice := m.slice x.core x.slice, loc := m.loc x.loc }

def Move.bankOp (m : Move) (o : BankOp) : BankOp :=
  { o with ta := m.ref o.ta, tb := m.ref o.tb, obj := o.obj.map m.line }
/-- The new place of a scratchpad line. -/
def Move.lineAt (m : Move) (l : Nat × Nat) : Nat × Nat := match m.scratch (scratchKey l.1 (l.2 * 128)) with
  | some k => (scratchCore k, scratchOfs k / 128)
  | none => l
/-- A transfer after the move: it is restarted whole (R356, R402). -/
def Move.xfer (m : Move) (core : Nat) (x : Xfer) : Xfer :=
  { x with
    slice := m.slice core x.slice, src := x.src.map m.ref, dst := x.dst.map m.ref, lines := x.lines.map m.lineAt, errs := 0 }
/-- A loop's wait after the move. -/
def Move.wait (m : Move) (w : LoopWait) : LoopWait :=
  { w with line := w.line.map m.line, rdv := w.rdv.map m.line, acore := m.core w.acore }
def Move.task (m : Move) (core : Nat) (t : Task) : Task :=
  { t with slice := m.slice core t.slice, inputs := t.inputs.map m.ref, outputs := t.outputs.map m.ref }
def Move.sliceOf (m : Move) (x : Slice) : Slice :=
  if x.team ≠ m.team then x
  else { x with core := m.core x.core, base := m.slice x.core x.base, tile := x.tile.map m.ref }
/-- A phase after the move: one with a slice of the team starts again from its sources (R402). -/
def Move.phase (m : Move) (p : CopyPhase) : CopyPhase :=
  let mine := p.slices.any fun x => x.team = m.team
  { p with
    obj := m.line p.obj, tiles := p.tiles.map m.ref, slices := p.slices.map m.sliceOf,
    started := p.started && !mine, staged := if mine then [] else p.staged, code := if mine then 0 else p.code
    lines := p.lines.map m.lineAt, errs := if mine then 0 else p.errs }

/-- What a core holds for the team, under its new numbers; `mine` tells the team's fibres. -/
def Move.part (m : Move) (mine : Nat → Bool) (o : Nat) (c : Core) : Core :=
  let area := fun (a : Nat × Nat × Nat × Nat) => (a.1, a.2.1, m.slice o a.2.2.1, a.2.2.2)
  let bank := fun (p : Nat) => ((m.banks.find? fun b => b.1 = o && b.2.1 = p).map fun b => b.2.2.2)
  let lineNo := fun (l : Nat) => (m.scratch (scratchKey o (l * 128))).map fun k => (scratchOfs k / 128, ())
  { Core.reset with
    tiles := c.tiles.filter fun p => p.1 / 2048 = m.team
    gens := c.gens.filter fun p => p.1 / 2048 = m.team
    emptyLines := c.emptyLines.filterMap fun l => lineNo l.1
    acc := c.acc.filterMap fun e => (bank (e.1 / 16384)).map fun p => (p * 16384 + e.1 % 16384, e.2)
    banks := (List.range 4).map fun p => (m.banks.find? fun b => b.1 = o && b.2.2.2 = p).bind fun b =>
      c.banks.getD b.2.1 none
    loops := (c.loops.filter fun x => x.team = m.team).map m.bankOp
    waits := (c.waits.filter fun x => x.team = m.team).map m.wait
    xfers := (c.xfers.filter fun x => x.team = m.team).map (m.xfer o)
    tasks := (c.tasks.filter fun x => x.2.team = m.team).map fun t => (t.1, m.task o t.2)
    groups := (c.groups.filter fun x => x.2.team = m.team).map fun g =>
      (g.1, { g.2 with obj := m.line g.2.obj, temps := g.2.temps.map m.ref })
    pens := c.pens.filter fun p => mine p.fibre
    areas := (c.areas.filter fun a => a.1 = m.team).map area }

/-- What a core keeps once the team has left. -/
def Move.rest (m : Move) (mine : Nat → Bool) (o : Nat) (c : Core) : Core :=
  let held := fun (p : Nat) => m.banks.any fun b => b.1 = o && b.2.1 = p
  { c with
    tiles := c.tiles.filter fun p => p.1 / 2048 ≠ m.team
    gens := c.gens.filter fun p => p.1 / 2048 ≠ m.team
    emptyLines := c.emptyLines.filter fun l => (m.scratch (scratchKey o (l.1 * 128))).isNone
    acc := c.acc.filter fun e => !held (e.1 / 16384)
    banks := (List.range 4).map fun p => if held p then none else c.banks.getD p none
    loops := c.loops.filter fun x => x.team ≠ m.team
    waits := c.waits.filter fun x => x.team ≠ m.team
    xfers := c.xfers.filter fun x => x.team ≠ m.team
    tasks := c.tasks.filter fun x => x.2.team ≠ m.team
    groups := c.groups.filter fun x => x.2.team ≠ m.team
    pens := c.pens.filter fun p => !mine p.fibre
    areas := c.areas.filter fun a => a.1 ≠ m.team }

/-- Joins two tables, the second one's entries put into the first. -/
def tabJoin {α : Type} (a b : Tab α) : Tab α := b.foldl (fun t p => tabPut t p.1 p.2) a

/-- A core that takes a team in: its tasks follow those already there, in their order of age; its pens are filed apart. -/
def joinCore (c p : Core) : Core :=
  let dt := tabFresh c.tasks 0
  let dg := tabFresh c.groups 0
  { c with
    tiles := tabJoin c.tiles p.tiles
    gens := tabJoin c.gens p.gens
    emptyLines := tabJoin c.emptyLines p.emptyLines
    acc := tabJoin c.acc p.acc
    banks := (List.range 4).map fun i => (p.banks.getD i none).or (c.banks.getD i none)
    loops := c.loops ++ p.loops.map fun o => { o with task := o.task.map (· + dt) }
    waits := c.waits ++ p.waits.map fun w => { w with group := w.group.map (· + dg) }
    xfers := c.xfers ++ p.xfers.map fun x => { x with task := x.task.map (· + dt) }
    tasks := tabJoin c.tasks (p.tasks.map fun t => (t.1 + dt, { t.2 with group := t.2.group + dg }))
    groups := tabJoin c.groups (p.groups.map fun g => (g.1 + dg, g.2))
    areas := c.areas ++ p.areas }

/-- Pen entries join a core's array in their order of filing: in a pen of their key, in a free one of its 512, else in the
spill pen (R270, R271). They keep the moment of their filing and their age (R402), and stand in their FIFOs behind the entries
filed meanwhile. [DESIGN CHOICE, log 67] -/
def joinPens (s : State) (core : Nat) (ps : List PenEntry) : State :=
  ps.foldl (fun s p =>
    let c := s.core core
    let keys := ((c.pens.filter fun q => !q.spill).map fun q => s.penKey q.fibre).dedup
    let spill := !keys.contains (s.penKey p.fibre) && 512 ≤ keys.length
    s.setCore core { c with pens := c.pens ++ [{ p with spill := spill }] }) s

/-- Moves the bytes and the lines of the team, and every reference to its cores, tiles and lines. -/
def Move.apply (m : Move) (s : State) : State :=
  let gone := s.mem.filter fun c => (m.key c.1).isSome
  let lines := s.lines.filter fun l => (m.scratch (l.1 * 128)).isSome
  let s1 : State := { s with
    mem := s.mem.filter fun c => (m.key c.1).isNone, lines := s.lines.filter fun l => (m.scratch (l.1 * 128)).isNone,
    fibres := s.fibres.map fun f => (f.1, m.fibre f.2),
    flocks := s.flocks.map fun k => if k.2.team = m.team then (k.1, { k.2 with core := m.core k.2.core }) else k,
    cores := s.cores.map fun c => (c.1, { c.2 with phases := c.2.phases.map m.phase }) }
  let s2 := gone.foldl (fun s c => s.putByte ((m.key c.1).getD c.1) c.2) s1
  lines.foldl (fun s l => s.setLine (m.line l.1) l.2) s2

/-! ### Vacating (R402) -/

/-- The move of a team into its image: bases and banks keep their numbers. [DEDUCED, log 79] -/
def vacateMove (s : State) (t : Nat) : Move :=
  let tm := s.tm t
  let cs := (List.range 4).map fun i => (tm.die * 13 + tm.cluster * 4 + i, imageCore t i)
  { team := t, cores := cs,
    areas := cs.flatMap fun p => ((s.core p.1).areas.filter fun a => a.1 = t).map fun a =>
      (p.1, a.2.2.1, a.2.2.2, p.2, a.2.2.1),
    banks := cs.flatMap fun p => (List.range 4).filterMap fun b => match (s.core p.1).banks.getD b none with
      | some g => if g.team = t then some (p.1, b, p.2, b) else none
      | none => none }

/-- Stores of the team's fibres are performed and its dirty bytes written back; none while one must wait. -/
def settleTeam (s : State) (t : Nat) : Option State :=
  ((s.teamFibres t).map (·.1)).foldl (fun (o : Option State) f => o.bind fun s => match drainAt s f .device true with
    | .ok s1 => some s1
    | _ => none) (some s)

/-- The team can leave: no run of it is in progress and no flock of it is stopped (R402). -/
def canLeave (s : State) (t : Nat) : Bool := !(s.runs.any fun r => (s.flk r.flock).team = t) && !teamStopped s t

/-- Saves a fibre of a team that leaves as a KIND 3 image, in segments that the team has reserved (R290, R402, R403); a parked
fibre has its record already. -/
def imageFibre (s : State) (t f : Nat) : State :=
  let x := s.fib f
  match x.loc with
  | .parked _ => s
  | _ =>
    let n := imageSegs (64 + 4 * x.alloc + parkExtra)
    match saveRecord (s.modTm t fun m => { m with reserve := m.reserve - n }) f with
    | none => s
    | some (segs, s1) => s1.modFib f fun y => { y with parkSegs := segs }

/-- The image of a fibre is read back, and its segments are the team's reserve again (R403). -/
def freeImage (s : State) (t f : Nat) : State :=
  let x := s.fib f
  match x.loc with
  | .parked _ => s
  | _ => ((freeSegs s (s.ctxOf f) x.parkSegs).modTm t fun m => { m with reserve := m.reserve + x.parkSegs.length }).modFib f
    fun y => { y with parkSegs := [] }

/-- Saves a team whole and frees its places. [DEDUCED, log 79] -/
def vacateTeam (s : State) (t : Nat) : State :=
  let m := vacateMove s t
  let mine := fun (f : Nat) => decide ((s.fib f).team = t)
  let s0 := m.apply (((s.teamFibres t).map (·.1)).foldl (fun s f => imageFibre s t f) s)
  let s1 := m.cores.foldl (fun s p =>
    let c := s.core p.1
    let idx := p.2 - imageCore t 0
    { s.setCore p.1 (m.rest mine p.1 c) with images := tabPut s.images (t * 8 + idx) (m.part mine p.1 c) }) s0
  let saved := fun (k : Flock) => { k with slot := none, overdue := false, since := none, could := none }
  { s1.modTm t fun x => { x with vacated := true, leaving := false } with
    flocks := s1.flocks.map fun k => if k.2.team = t then (k.1, saved k.2) else k }

/-- VACATE_CORE (R402): a team that has been asked to leave, on all its cores together. -/
def execVacateCore (team : Nat) (s : State) : Out :=
  .next (match tabGet s.teams team with
    | none => s
    | some tm =>
      if !tm.leaving || tm.vacated || !canLeave s team then s
      else ((settleTeam s team).map fun s1 => vacateTeam s1 team).getD s)

/-! ### Restoring (R403) -/

/-- The lanes that a rank's fibres take on a core (R257): registers and fibres of each lane, and the lanes given so far. -/
structure LanePlan where
  regs : List Nat
  held : List Nat
  lanes : List (Nat × Nat)
  deriving DecidableEq, Repr

/-- A lane of a fibre's flock is another's: of one there before, or of one placed in it. -/
def LanePlan.taken (p : LanePlan) (s : State) (f : Nat) (x : Fibre) (lane : Nat) : Bool :=
  match x.loc with
  | .flock k => (lane ≠ x.home && ((s.flk k).fibreAt lane).isSome)
      || p.lanes.any fun m => m.1 ≠ f && m.2 = lane && (s.fib m.1).loc = x.loc
  | _ => false

/-- The lane of one fibre: its former one, when that has room, else the one with the most free registers (R257). [DEDUCED, log 78] -/
def LanePlan.place (p : LanePlan) (s : State) (f : Nat) (x : Fibre) : Option LanePlan :=
  let fits := fun (l : Nat) => p.regs.getD l 0 + x.alloc ≤ 32768 && p.held.getD l 0 < 512 && !p.taken s f x l
  let best := (List.range 8).foldl (fun (b : Option Nat) l => if !fits l then b else match b with
    | none => some l
    | some m => if p.regs.getD l 0 < p.regs.getD m 0 then some l else b) none
  (if fits x.home then some x.home else best).map fun l =>
    ⟨setAt p.regs l (p.regs.getD l 0 + x.alloc), setAt p.held l (p.held.getD l 0 + 1), p.lanes ++ [(f, l)]⟩

/-- The lanes of the fibres of a rank, image core `old`, on a core; none where they do not fit (R257, R258). -/
def lanePlan (s : State) (t core old : Nat) : Option LanePlan :=
  let p0 : LanePlan :=
    ⟨(List.range 8).map (s.laneRegs core), (List.range 8).map fun l => (s.laneFibres core l).length, []⟩
  ((s.teamFibres t).filter fun q => q.2.core = old && q.2.loc.counts).foldl
    (fun (o : Option LanePlan) q => o.bind fun p => p.place s q.1 q.2) (some p0)

/-- A lane mask after a lane has taken another's place. -/
def moveBit (m : Mask) (a b : Nat) : Mask := if m.has a then m &&& ~~~(Mask.one a) ||| Mask.one b else m

/-- A flock one of whose fibres has taken another home lane. -/
def Flock.relane (k : Flock) (f a b : Nat) : Flock :=
  { k with
    lanes := setAt (setAt k.lanes a none) b (some f), efm := moveBit k.efm a b, frozen := moveBit k.frozen a b
    act := k.act.map fun m => moveBit m a b, lag := k.lag.map fun l => if l = a then b else l }

/-- Gives fibres their lanes. -/
def takeLanes (s : State) (ls : List (Nat × Nat)) : State :=
  ls.foldl (fun s m =>
    let x := s.fib m.1
    if x.home = m.2 then s
    else
      let s1 := s.modFib m.1 fun y => { y with home := m.2 }
      match x.loc with
      | .flock k => s1.modFlk k fun fl => fl.relane m.1 x.home m.2
      | _ => s1) s

/-- A core can take the part of a rank back: lanes, banks, tile entries, entries of the dependency table (R352). -/
def restoreFits (s : State) (t : Nat) (core old : Nat) : Bool :=
  let img := tabGetD s.images (t * 8 + (old - imageCore t 0)) Core.reset
  (lanePlan s t core old).isSome && (s.core core).tasks.length + img.tasks.length ≤ 256
    && (img.banks.filter Option.isSome).length ≤ ((s.core core).banks.filter Option.isNone).length
    && Nat.max 16 (img.tiles.length) ≤ sharedFree s core && (s.residents core).length < 64
    && areasFit (((img.areas.filter fun a => a.2.1 ≠ areaExport) ++ img.areas.filter fun a => a.2.1 = areaExport).map
      fun a => a.2.2.2) (s.core core)

/-- Grants the areas of an image core on a new core: the pairs of the move. -/
def restoreAreas (s : State) (t v c : Nat) (areas : List (Nat × Nat × Nat × Nat)) :
    Option (List (Nat × Nat × Nat × Nat × Nat) × State) :=
  areas.foldl (fun (o : Option (List (Nat × Nat × Nat × Nat × Nat) × State)) a => o.bind fun q =>
    (grantArea q.2 c t a.2.1 a.2.2.2).map fun g => (q.1 ++ [(v, a.2.2.1, a.2.2.2, c, g.1)], g.2)) (some ([], s))

/-- Grants the banks of an image core. -/
def restoreBanks (s : State) (v c : Nat) (banks : List (Option BankGrant)) :
    Option (List (Nat × Nat × Nat × Nat) × State) :=
  (List.range 4).foldl (fun (o : Option (List (Nat × Nat × Nat × Nat) × State)) b => o.bind fun q =>
    match banks.getD b none with
    | none => some q
    | some g => (indexOf? (fun (x : Option BankGrant) => x.isNone) (q.2.core c).banks 0).map fun p =>
      (q.1 ++ [(v, b, c, p)], (zeroBank q.2 c p).modCore c fun x => { x with banks := setAt x.banks p (some g) })) (some ([], s))

/-- The copy phases whose last slice is of a team, on the core that holds its rank now. -/
def rehomePhases (s : State) (t : Nat) : State :=
  let mine := fun (p : CopyPhase) => p.slices.getLast?.any fun x => x.team = t
  let ps := s.cores.flatMap fun c => c.2.phases.filter mine
  let s1 : State := { s with cores := s.cores.map fun c => (c.1, { c.2 with phases := c.2.phases.filter fun p => !mine p }) }
  ps.foldl (fun s p => s.modCore ((p.slices.getLast?.map (·.core)).getD 0) fun c => { c with phases := c.phases ++ [p] }) s1

/-- Restores a team on a cluster, its ranks on cores in order: none where a resource is lacking. The new areas and banks are
granted, then the image's parts take their places. -/
def restoreOn (s : State) (t : Nat) (tm : Team) (cl : Nat) (cores : List Nat) : Option State :=
  let old := tm.cores.map fun c => imageCore t (coreInCluster c)
  let pairs := (List.range cores.length).map fun r => (old.getD r 0, cores.getD r 0)
  let exports := (clusterCores s tm.die cl).map fun c => (imageCore t (coreInCluster c), c)
  let img := fun (v : Nat) => tabGetD s.images (t * 8 + (v - imageCore t 0)) Core.reset
  let own := fun (o : Option (Move × State)) (p : Nat × Nat) => o.bind fun q =>
    (restoreAreas q.2 t p.1 p.2 ((img p.1).areas.filter fun a => a.2.1 ≠ areaExport)).bind fun a =>
      (restoreBanks a.2 p.1 p.2 (img p.1).banks).map fun b =>
        ({ q.1 with areas := q.1.areas ++ a.1, banks := q.1.banks ++ b.1, cores := q.1.cores ++ [p] }, b.2)
  let exp := fun (o : Option (Move × State)) (p : Nat × Nat) => o.bind fun q =>
    (restoreAreas q.2 t p.1 p.2 ((img p.1).areas.filter fun a => a.2.1 = areaExport)).map fun a =>
      ({ q.1 with areas := q.1.areas ++ a.1 }, a.2)
  (exports.foldl exp (pairs.foldl own (some (⟨t, [], [], []⟩, s)))).map fun q =>
    let m := q.1
    let lanes := pairs.flatMap fun p => ((lanePlan s t p.2 p.1).map (·.lanes)).getD []
    let s1 := rehomePhases (takeLanes (m.apply q.2) lanes) t
    let take := fun (s : State) (p : Nat × Nat) =>
      let part := m.part (fun _ => true) p.1 (img p.1)
      joinPens (s.modCore p.2 fun c => joinCore c { part with areas := [], emptyLines := [] }) p.2 part.pens
    let clear := fun (s : State) (key : Nat) => s.modCore (scratchCore key) fun c =>
      { c with emptyLines := tabPut c.emptyLines (scratchOfs key / 128) () }
    let clears := (List.range 4).flatMap fun i => (img (imageCore t i)).emptyLines.filterMap fun l =>
      m.scratch (scratchKey (imageCore t i) (l.1 * 128))
    let s2 := clears.foldl clear (pairs.foldl take s1)
    let awake := fun (k : Flock) => { k with asleep := false, restored := some s2.dev.hb }
    let s2 := ((s2.teamFibres t).map (·.1)).foldl (fun s f => freeImage s t f) s2
    { s2.modTm t fun x => { x with vacated := false, cores := cores, cluster := cl } with
      flocks := s2.flocks.map fun k => if k.2.team = t then (k.1, awake k.2) else k,
      images := s2.images.filter fun p => p.1 / 8 ≠ t }

/-- The ways to restore a team on clusters of its die. -/
def restores (s : State) (t : Nat) (clusters : List Nat) : List State :=
  let tm := s.tm t
  let fits := fun (c r : Nat) => restoreFits s t c (imageCore t (coreInCluster (tm.cores.getD r 0)))
  clusters.filterMap fun cl => (chooseCores fits tm.cores.length 0 (clusterCores s tm.die cl)).bind
    (restoreOn s t tm cl)

/-- TEAM_RESTORE (R388, R403): the vacated team whose turn it is. -/
def execTeamRestore (team : Nat) (s : State) : Out :=
  .next (match firstWaiting s with
    | none => s
    | some w =>
      if w.team ≠ some team then s
      else
        let n := (restores s team [0, 1, 2]).length
        if n = 0 then s
        else
          let p := s.pick n
          ((restores p.2 team [0, 1, 2])[p.1]?).getD s)

/-! ### Pre-emption (R401) -/

/-- What a team awaiting admission needs can be had on a cluster. -/
def fitsOn (s : State) (w : Waiting) (die cl : Nat) : Bool :=
  match w.team with
  | some t => decide ((s.tm t).die = die) && !(restores s t [cl]).isEmpty
  | none => match tabGet s.launches w.launch with
    | none => false
    | some l => match kernelOf s l.ctx (pkNum l.bytes 8 8) (pkNum l.bytes 0x10 4) with
      | none => false
      | some k =>
        ((chooseCores (rankHolds s l) (pkCores l.bytes) 0 (clusterCores s die cl)).bind
          (placeTeam s l w.launch w.index die cl k)).isSome

/-- The state as it would be without a team on its cores. -/
def without (s : State) (t : Nat) : State :=
  freeTeam (dropEngine { s.modTm t fun x => { x with vacated := true } with
    flocks := s.flocks.map fun k => if k.2.team = t then (k.1, { k.2 with slot := none }) else k } t) t

/-- The order in which resident teams leave: lowest priority, youngest launch, highest index (R401). -/
def leavesBefore (s : State) (a b : Nat) : Bool :=
  match tabGet s.launches (s.tm a).launch, tabGet s.launches (s.tm b).launch with
  | some x, some y =>
    if x.prio ≠ y.prio then x.prio < y.prio else if x.age ≠ y.age then y.age < x.age else (s.tm b).index < (s.tm a).index
  | _, _ => false

/-- Inserts a team in the order of leaving. -/
def insertLeaving (s : State) (t : Nat) : List Nat → List Nat
  | [] => [t]
  | u :: r => if leavesBefore s t u then t :: u :: r else u :: insertLeaving s t r

/-- Resident teams of lower priority on a cluster, in the order in which they leave. -/
def lowerTeams (s : State) (w : Waiting) (die cl : Nat) : List Nat :=
  ((s.teams.filter fun t => t.2.die = die && t.2.cluster = cl && !t.2.cores.isEmpty && !t.2.vacated && !t.2.leaving
    && ((tabGet s.launches t.2.launch).any fun l => l.prio < w.prio)).map (·.1)).foldl
    (fun l t => insertLeaving s t l) []

/-- The least prefix of the teams whose leaving makes room. -/
def leavingPrefix (s : State) (w : Waiting) (die cl : Nat) : Option (List Nat) :=
  let ts := lowerTeams s w die cl
  ((List.range (ts.length + 1)).find? fun n => fitsOn ((ts.take n).foldl without s) w die cl).map fun n => ts.take n

/-- Asks teams to leave. -/
def askToLeave (s : State) (ts : List Nat) : State :=
  ts.foldl (fun s t => s.modTm t fun x => if x.vacated then x else { x with leaving := true }) s

/-- PREEMPT (R401): for the first team in order; none leaves where no cluster would have room. -/
def execPreempt (s : State) : Out :=
  .next (match firstWaiting s with
    | none => s
    | some w =>
      let s1 := ((s.teams.filter fun t => t.2.leaving).map (·.1)).foldl without s
      let ways := [(0, 0), (0, 1), (0, 2), (1, 0), (1, 1), (1, 2)].filterMap fun d => leavingPrefix s1 w d.1 d.2
      if ways.isEmpty || ways.any List.isEmpty then s
      else
        let p := s.pick ways.length
        askToLeave p.2 (ways.getD p.1 []))

end Sys2Proof.Machine
end

