-- ==== Sys2Proof/Machine/Context.lean ====
section
/-! DEFINITION. The life of a context: allocation, swaps, suspension, teardown, its chip-scratchpad grants; the segment cache
(R318, R319, R325, R393 to R395). -/

namespace Sys2Proof.Machine

/-! ### Residence (R393, R394) -/

/-- Resident contexts. -/
def State.residentCount (s : State) : Nat := (s.ctxs.filter fun c => c.2.st = .resident).length

/-- A resident context that holds no team and no accepted launch. -/
def idle (s : State) (ctx : Nat) : Bool :=
  (s.ctx ctx).st = .resident && !(s.teams.any fun t => t.2.ctx = ctx && !t.2.vacated)
    && !(s.launches.any fun l => l.2.ctx = ctx && l.2.accepted)

/-- Bytes of chip scratchpad that caches hold for a context, written to their places. -/
def flushChip (s : State) (ctx : Nat) : State :=
  let mine := fun (key : Nat) => levelOf key = .chip && (key - chipKey 0 0 0) / 2 ^ 25 % 4096 = ctx
  s.clusters.foldl (fun s c => (c.2.dirty.filter fun d => mine d.1).foldl (fun s d =>
    (s.putByte d.1 (mergeByte (s.byte d.1) d.2.val d.2.mask)).modClus c.1 fun x =>
      { x with dirty := tabDel x.dirty d.1 }) s) s

/-- Bytes of one way: 8 MiB. -/
def wayBytes : Nat := 2 ^ 23

/-- Bytes of a context's grant. -/
def Ctx.chipBytes (c : Ctx) : Nat := (c.chip.getD 0 0 + c.chip.getD 1 0) * wayBytes

/-- Where byte `o` of a context's grant lies: die 0's ways come first. -/
def Ctx.chipByte (c : Ctx) (ctx o : Nat) : Nat :=
  let n := c.chip.getD 0 0 * wayBytes
  if o < n then chipKey 0 ctx o else chipKey 1 ctx (o - n)

/-- The offset in a context's grant of a byte of it, none for any other key. -/
def Ctx.chipOffset (c : Ctx) (ctx key : Nat) : Option Nat :=
  if levelOf key ≠ .chip || (key - chipKey 0 0 0) / 2 ^ 25 % 4096 ≠ ctx || 1 < chipDie key then none
  else some (chipDie key * (c.chip.getD 0 0 * wayBytes) + chipOfs key)

/-- Moves the grant's contents into segments of 960 bytes each, and the ways are left zeroed. [DESIGN CHOICE, log 115] -/
def saveChip (s : State) (ctx : Nat) (segs : List Nat) : State :=
  let c := s.ctx ctx
  let mine := s.mem.filter fun b => (c.chipOffset ctx b.1).isSome
  let s1 : State := { s with mem := s.mem.filter fun b => (c.chipOffset ctx b.1).isNone }
  mine.foldl (fun s b =>
    let o := (c.chipOffset ctx b.1).getD 0
    s.putByte (segs.getD (o / 960) 0 + 0x40 + o % 960) b.2) (writeImage s1 segs [])

/-- The contents of the segments return into the grant's ways, and the segments are free again. -/
def loadChip (s : State) (ctx : Nat) : State :=
  let c := s.ctx ctx
  let back := c.swapSegs.zipIdx.flatMap fun g => (s.mem.filter fun b => g.1 + 0x40 ≤ b.1 && b.1 < g.1 + 1024).map fun b =>
    (c.chipByte ctx (g.2 * 960 + (b.1 - (g.1 + 0x40))), b.2)
  let s1 := freeSegs s ctx c.swapSegs
  (back.foldl (fun s b => s.putByte b.1 b.2) s1).modCtx ctx fun c => { c with swapSegs := [] }

/-- Swaps a context out: its grant's contents go to its frame heap, its translations go, its registers stay (R394). None where
its frame heap has no room. [DESIGN CHOICE, log 115] -/
def swapOut (s : State) (ctx : Nat) : Option State :=
  (takeSegs (flushChip s ctx) ctx (ceilDiv (s.ctx ctx).chipBytes 960)).map fun r =>
    (dropTlb (saveChip r.2 ctx r.1) fun e => e.ctx = ctx).modCtx ctx fun c => { c with st := .swapped, swapSegs := r.1 }

/-- CONTEXT_SWAP_OUT (R394). -/
def execContextSwapOut (ctx : Nat) (s : State) : Out := .next (if idle s ctx then (swapOut s ctx).getD s else s)

/-- The context that leaves for another: lowest CPRIO, then least recently resident. -/
def swapVictim (s : State) : Option Nat :=
  ((s.ctxs.filter fun c => idle s c.1).foldl (fun (b : Option (Nat × Ctx)) c => match b with
    | none => some c
    | some v =>
      if c.2.cprio.toNat < v.2.cprio.toNat then some c
      else if c.2.cprio = v.2.cprio && c.2.lastResident < v.2.lastResident then some c else b) none).map (·.1)

/-- A resident place, made by a swap-out where 64 contexts are resident. -/
def makePlace (s : State) : Option State :=
  if s.residentCount < 64 then some s else (swapVictim s).bind (swapOut s)

/-- Ways of a die that contexts hold (R318); a swapped-out context holds none. -/
def waysHeld (s : State) (die : Nat) : Nat :=
  ((s.ctxs.filter fun c => c.2.st ≠ .swapped).map fun c => c.2.chip.getD die 0).sum

/-- Makes a context resident. -/
def becomeResident (s : State) (ctx : Nat) : State :=
  { s.modCtx ctx fun c => { c with st := .resident, lastResident := s.seq } with seq := s.seq + 1 }

/-- CONTEXT_SWAP_IN (R394): the grant returns on the same dies with the same C. -/
def execContextSwapIn (ctx : Nat) (s : State) : Out :=
  let c := s.ctx ctx
  .next (if c.st ≠ .swapped then s
    else match makePlace s with
      | none => s
      | some s1 =>
        if waysHeld s1 0 + c.chip.getD 0 0 ≤ 4 && waysHeld s1 1 + c.chip.getD 1 0 ≤ 4 then
          loadChip (becomeResident s1 ctx) ctx
        else s)

/-- CONTEXT_ALLOCATION (R393): the registers of a new identifier hold their reset values. -/
def execContextAllocation (ctx : Nat) (s : State) : Out :=
  .next (if 4096 ≤ ctx || !s.dev.computeOn || (s.ctx ctx).st ≠ .free then s
    else match makePlace s with
      | none => s
      | some s1 => becomeResident ((s1.setCtx ctx Ctx.reset).modDev fun d =>
          { d with tornAt := d.tornAt.filter fun p => p.2 ≠ ctx }) ctx)

/-- Teams of a context. -/
def ctxTeams (s : State) (ctx : Nat) : List Nat := (s.teams.filter fun t => t.2.ctx = ctx).map (·.1)

/-- CONTEXT_SUSPEND (R393, R401): every team is asked to leave. [DEDUCED, log 81] -/
def execContextSuspend (ctx : Nat) (s : State) : Out :=
  .next (if (s.ctx ctx).st ≠ .resident then s
    else askToLeave (s.modCtx ctx fun c => { c with st := .suspended }) (ctxTeams s ctx))

/-- CONTEXT_RESUME (R393): a team that has not left yet stays. -/
def execContextResume (ctx : Nat) (s : State) : Out :=
  .next (if (s.ctx ctx).st ≠ .suspended then s
    else match makePlace s with
      | none => s
      | some s1 => (ctxTeams s ctx).foldl (fun s t => s.modTm t fun x => { x with leaving := false })
          (becomeResident s1 ctx))

/-! ### Chip scratchpad (R318, R319) -/

/-- CHIP_SCRATCHPAD_CONVERT (R319): a die's next way is granted to a context, or its last way returns to the cache, zeroed. -/
def execChipScratchpadConvert (die ctx : Nat) (grant : Bool) (s : State) : Out :=
  let c := s.ctx ctx
  let n := c.chip.getD die 0
  .next (if 2 ≤ die || c.st ≠ .resident then s
    else if grant then
      if 4 ≤ waysHeld s die then s
      else (s.zero (chipKey die ctx (n * wayBytes)) wayBytes).modCtx ctx fun x => { x with chip := setAt x.chip die (n + 1) }
    else if n = 0 then s
    else
      let s1 := flushChip s ctx
      (s1.zero (chipKey die ctx ((n - 1) * wayBytes)) wayBytes).modCtx ctx fun x =>
        { x with chip := setAt x.chip die (n - 1) })

/-! ### The segment cache (R325) -/

/-- SEGMENT_CACHE_EVICT (R325): a full cache lets the least recently touched segment go; its bytes are those of the frame
heap already. -/
def execSegmentCacheEvict (core : Nat) (s : State) : Out :=
  .next (if (s.core core).segs.length < 512 then s
    else s.modCore core fun c => { c with segs := c.segs.dropLast })

/-! ### Teardown (R395) -/

/-- Dirty bytes of a context go home where its translations still allow, and the rest is dropped. -/
def settleDirty (s : State) (ctx : Nat) : State :=
  let s1 := s.clusters.foldl (fun s c => ((c.2.dirty.filter fun d => d.2.ctx = ctx).map (·.1)).foldl
    (fun s k => evictByte s c.1 k) s) s
  { s1 with clusters := s1.clusters.map fun c => (c.1, { c.2 with dirty := c.2.dirty.filter fun d => d.2.ctx ≠ ctx }) }

/-- Removes every fault record of a context (step 2). -/
def dropFaults (s : State) (ctx : Nat) : State :=
  ((s.faults.filter fun r => r.2.ctx = ctx).map (·.1)).foldl freeRecord s

/-- Frees every continuation and segment (step 3). -/
def dropSegments (s : State) (ctx : Nat) : State :=
  let c := s.ctx ctx
  ((c.segs ++ c.hdrSegs).foldl (fun s a => freeSeg s ctx a) s).modCtx ctx fun c => { c with segs := [], hdrSegs := [], swapSegs := [] }

/-- Zeroes every grant (step 4). -/
def dropGrants (s : State) (ctx : Nat) : State :=
  ([0, 1].foldl (fun s die => s.zero (chipKey die ctx 0) (4 * wayBytes)) (flushChip s ctx)).modCtx ctx fun c =>
    { c with chip := [0, 0] }

/-- Ends a launch of a context that is torn down: accepted ones with 4, others as rejected with reason 9, a service request as one
that no completion word tells of (R384); the other devices are told (step 5). -/
def tearLaunch (s : State) (key : Nat) (writes : Bool) : Option State :=
  match tabGet s.launches key with
  | none => some s
  | some l =>
    let gen := word (pkNum l.bytes 4 4)
    let status := if l.accepted then dword (4 * 2 ^ 24) else rejectStatus 9
    let s1 := if l.undecided && pkNum l.bytes 0 1 = 1 then
        if l.origin ≠ s.dev.devid then s.send (.reject l.origin l.originQueue gen)
        else if l.replicated.isNone then s
        else ((pkDevs l.bytes).filter (· ≠ s.dev.devid)).foldl (fun s d => s.send (.abort d l.originQueue gen)) s
      else s
    (if writes && pkNum l.bytes 0 1 = 1 && l.message.isNone then writeCompletion s1 l.ctx key l.queue l.bytes status
      else some (if pkNum l.bytes 0 1 = 2 then s1.logError 7 0 5 (pkNum l.bytes 8 8) else s1)).map fun s2 => acceptEntry (s2.delLaunch key) l.queue

/-- Answers the messages held for a context (R406). -/
def tearInbound (s : State) (ctx : Nat) : Option State :=
  (s.ctx ctx).inbound.foldl (fun (o : Option State) m => o.bind fun s => messageStatus s m.src m.bytes 3) (some s)

/-- Removes every team of a context (step 1). -/
def dropTeams (s : State) (ctx : Nat) : Option State :=
  (ctxTeams s ctx).foldl (fun (o : Option State) t => o.bind fun s => removeTeam s t) (some s)

/-- The whole teardown, in the order of R395; none while a store or a word must wait. -/
def tearDown (s : State) (ctx : Nat) (writes : Bool) : Option State :=
  (dropTeams (settleDirty s ctx) ctx).bind fun s1 =>
    let s2 := dropGrants (dropSegments (dropFaults s1 ctx) ctx) ctx
    let keys := (s2.launches.filter fun l => l.2.ctx = ctx).map (·.1)
    (keys.foldl (fun (o : Option State) k => o.bind fun s => tearLaunch s k writes) (some s2)).bind fun s3 =>
      (if writes then tearInbound s3 ctx else some s3).map fun s4 =>
        { dropTlb (settleDirty s4 ctx) (fun e => e.ctx = ctx) with ctxs := tabDel s4.ctxs ctx }

/-- CONTEXT_TEARDOWN (R393, R395): from its start the context is torn down; it ends once every team can leave. [DEDUCED, log 81] -/
def execContextTeardown (ctx : Nat) (s : State) : Out :=
  .next (if (s.ctx ctx).st = .free then s
    else if (s.ctx ctx).st ≠ .torn then askToLeave (s.modCtx ctx fun c => { c with st := .torn }) (ctxTeams s ctx)
    else if (ctxTeams s ctx).all (canLeave s) then (tearDown s ctx true).getD s else s)

end Sys2Proof.Machine
end

