-- ==== Sys2Proof/Machine/Host.lean ====
section
/-! DEFINITION. The host port and the Swetex links as steps: accesses from outside to this device's memory, completions of
this device's own, the personality, the fabric and the time base (R244, R383, R391, R392, R443 to R454). -/

namespace Sys2Proof.Machine

/-! ### The port (R443 to R445) -/

/-- A BAR0 register that host software reads, 0 at every other offset (R445). -/
def bar0Read (s : State) (ofs : Nat) : Nat :=
  if ofs = 0 then (match s.dev.host with
    | none => 0
    | some (k, w) => (if k = .cxl then 1 else 0) + (if s.dev.hostUp then 4 else 0) + w % 256 * 2 ^ 8)
  else if ofs = 4 then s.dev.devid % 64
  else 0

/-- Where this model puts BAR0 and the configuration registers among the addresses of the host's accesses (R444).
[DESIGN CHOICE, log 128] -/
def bar0Base : Nat := 2 ^ 63
def configBase : Nat := 2 ^ 63 + 2 ^ 62

/-- Bytes of a bank of 4-byte registers. -/
def regBytes (read : Nat → Nat) (ofs n : Nat) : List Byte :=
  (List.range n).map fun i => BitVec.ofNat 8 (read ((ofs + i) / 4 * 4) / 256 ^ ((ofs + i) % 4))

/-- Bytes of BAR0 as host software reads them. -/
def bar0Bytes (s : State) (ofs n : Nat) : List Byte := regBytes (bar0Read s) ofs n

/-- Bytes of device memory that BAR2, or under CXL the HDM decoder, gives the host (R444). -/
def hostRange (s : State) : Nat := match s.dev.host with
  | some (.cxl, _) => Config.hbmBytes
  | _ => 2 ^ 39

/-- The function's base address registers and the HDM decoder, 0 at every other offset: a base is a multiple of its size, and the
low bits tell a 64-bit register, BAR2's that it is prefetchable (R444). Under CXL BAR2 is absent. [PRESUMED, log 117] -/
def configRead (s : State) (ofs : Nat) : Nat :=
  let cxl : Bool := match s.dev.host with
    | some (.cxl, _) => true
    | _ => false
  let half := fun (v : DWord) (low : Bool) => if low then v.toNat % 2 ^ 32 else v.toNat / 2 ^ 32
  match ofs with
  | 0x10 => half s.dev.bar0 true + 4
  | 0x14 => half s.dev.bar0 false
  | 0x18 => if cxl then 0 else half s.dev.bar2 true + 12
  | 0x1C => if cxl then 0 else half s.dev.bar2 false
  | 0x100 => if cxl then half s.dev.hdm true else 0
  | 0x104 => if cxl then half s.dev.hdm false else 0
  | 0x10C => if cxl then Config.hbmBytes / 2 ^ 32 else 0
  | _ => 0

/-- Writes half of a base, whose bits below its size stay 0. -/
def putHalf (v : DWord) (low : Bool) (w size : Nat) : DWord :=
  let n := if low then v.toNat / 2 ^ 32 * 2 ^ 32 + w % 2 ^ 32 else v.toNat % 2 ^ 32 + w % 2 ^ 32 * 2 ^ 32
  dword (n / size * size)

/-- A 4-byte write of a configuration register; BAR0 has 32 MiB, BAR2 512 GiB, and the decoder's base is a multiple of 256 MiB.
[PRESUMED, log 117] -/
def configWrite (d : Device) (ofs w : Nat) : Device :=
  match ofs with
  | 0x10 => { d with bar0 := putHalf d.bar0 true w (2 ^ 25) }
  | 0x14 => { d with bar0 := putHalf d.bar0 false w (2 ^ 25) }
  | 0x18 => { d with bar2 := putHalf d.bar2 true w (2 ^ 39) }
  | 0x1C => { d with bar2 := putHalf d.bar2 false w (2 ^ 39) }
  | 0x100 => { d with hdm := putHalf d.hdm true w (2 ^ 28) }
  | 0x104 => { d with hdm := putHalf d.hdm false w (2 ^ 28) }
  | _ => d

/-- LINK_TRAIN (R443): a port without a link trains into one personality, kept until the next link reset. -/
def execLinkTrain (cxl : Bool) (width : Nat) (s : State) : Out :=
  .next (if s.dev.hostUp || s.dev.contained.contains (5, 0) then s
    else s.modDev fun d => { d with host := some (if cxl then .cxl else .pcie, width), hostUp := true })

/-! ### Attestation (R467, R469) -/

/-- Both signatures of an object over its digest verify against keys that chain to the fused roots (R467). [DESIGN CHOICE, log 95] -/
def signedWell (object : List Byte) : Bool :=
  let d := Config.sha384 object
  Config.pssVerifies object d && Config.slhVerifies object d && Config.keysChain object

/-- The measurements of R469: index and value. [DESIGN CHOICE, log 95] -/
def measurements (s : State) : List (Nat × List Byte) :=
  let d := s.dev
  let digest := fun (stage : Nat) => Config.sha384 (tabGetD d.fwImages stage [])
  let two := fun (n : Nat) => bytesOfNat 2 n
  let fuses := two d.rollback.toNat ++ [if Config.debugDisabled then 1 else 0] ++ two d.sparemap.toNat
    ++ (d.spareCores ++ d.spareSlices ++ d.spareChannels).flatMap two
    ++ (d.spareRows.flatMap fun r => two r.1 ++ bytesOfNat 4 r.2) ++ (d.spareLanes.flatMap fun l => two l.1 ++ two l.2)
    ++ s.cores.flatMap fun c => c.2.spareRods.flatMap fun r => two c.1 ++ two r
  [(0x01, digest 0 ++ two d.fwVersion.toNat), (0x02, digest 1), (0x03, digest 2), (0x04, digest 3), (0x05, fuses),
    (0x06, Config.sha384 (bytesOfNat 8 d.svcEntry.toNat))]

/-- The capabilities that the device supports: CERT, CHAL, MEAS with signature, KEY_EX, ENCRYPT_CAP, at their places in the SPDM
flags (R469). [PRESUMED, log 127] -/
def spdmCapabilities : Nat := 2 ^ 1 + 2 ^ 2 + 2 * 2 ^ 3 + 2 ^ 6 + 2 ^ 9

/-- The answer to an SPDM request (R469): the capabilities, the chain of slot 0 and the measurements, framed by SPDM 1.3; block
0xF0 is the SLH-DSA signature, beside the RSASSA one, over the same transcript hash. [DESIGN CHOICE, log 95] -/
def spdmAnswer (s : State) (request : List Byte) : List Byte :=
  let ms := measurements s
  let hash := Config.sha384 (request ++ ms.flatMap (·.2))
  Config.spdmMessage request spdmCapabilities (Config.certificates 0) (ms ++ [(0xF0, Config.slhSign hash)]) (Config.pssSign hash)

/-- Where the host port's DOE mailbox lies in this model's configuration registers (R469). [DESIGN CHOICE, log 128] -/
def doeMailbox : Nat := 0x200

/-! ### Accesses from outside (R347, R449 to R451, R453) -/

/-- The bytes of an access that a word names: a poisoned granule, or a contained home, ends it in error (R457, R460). -/
def outsideBad (s : State) (pa n : Nat) : Bool :=
  (s.poisonIn pa n).isSome || (List.range n).any fun i => (s.deadAgent .dev (pa + i)).isSome

/-- Bytes of this device's memory, 0 beyond it (R444). -/
def outsideBytes (s : State) (pa n : Nat) : List Byte :=
  (List.range n).map fun i => if pa + i < Config.hbmBytes then s.byte (pa + i) else 0

/-- Store cells of bytes from an address on, without those beyond the device's memory and those of a contained home. -/
def outsideCells (s : State) (pa : Nat) (bytes : List Byte) : List (Nat × Byte × Byte) :=
  ((List.range bytes.length).map fun i => (pa + i, bytes.getD i 0, (0xFF : Byte))).filter fun c =>
    c.1 < Config.hbmBytes && (s.deadAgent .dev c.1).isNone

/-- Performs one line's part at the home: none behind a pending version (R347). -/
def writeLine (s : State) (pa : Nat) (bytes : List Byte) : Option State :=
  let cells := outsideCells s pa bytes
  if s.pendBlocks cells none then none
  else some (((s.clearPoison cells).performHome cells 0).markCode [] cells)

/-- Performs a write line by line (R449): none while a line waits behind a pending version. The host that writes some lines
before others is as many writes. -/
def writeLines (s : State) : Nat → Nat → List Byte → Option State
  | 0, _, _ => some s
  | n + 1, pa, bytes =>
    if bytes.isEmpty then some s
    else
      let k := 128 - pa % 128
      (writeLine s pa (bytes.take k)).bind fun s1 => writeLines s1 n (pa + k) (bytes.drop k)

/-- Under CXL a host cache holds the lines of device memory that the host has reached, tracked at their homes: writable once it
has written (R443, R450). [DESIGN CHOICE, log 87] -/
def hostHolds (s : State) (pa n : Nat) (wr : Bool) : State :=
  match s.dev.host with
  | some (.cxl, _) => s.modDev fun d => { d with
      hostHeld := (((List.range n).map fun i => lineOf (pa + i)).dedup).foldl (fun t l =>
        tabPut t l (wr || tabGetD t l false)) d.hostHeld }
  | _ => s

/-- The host's own writes to its memory: under CXL they first snoop the device's copies (R446). [DESIGN CHOICE, log 87] -/
def hostOwnWrite (s : State) (key : Nat) (bytes : List Byte) : State :=
  let keys := (List.range bytes.length).map (key + ·)
  let s1 := (s.putBytes key bytes).wakeWords keys
  s1.modDev fun d => { d with hostLines := d.hostLines.filter fun l => !keys.any fun k => lineOf k = l.1 }

/-- HOST_MEMORY_READ (R449): the committed version at the home; the registers of BAR0 and of the configuration space (R444, R445).
Nothing of the device answers beyond its range. In a function-level reset a configuration request is to be tried again, and
every other read is all ones (R464). [DESIGN CHOICE, log 8] -/
def execHostMemoryRead (pa n : Nat) (s : State) : Out :=
  .next (if !s.portUp then s
    else if s.dev.inReset then
      (if configBase ≤ pa then s.send (.hostReply false [2]) else s.send (.hostReply true (List.replicate n 0xFF)))
    else if configBase ≤ pa then s.send (.hostReply true (regBytes (configRead s) (pa - configBase) n))
    else if bar0Base ≤ pa then s.send (.hostReply true (bar0Bytes s (pa - bar0Base) n))
    else if outsideBad s pa n || hostRange s < pa + n then s.send (.hostReply false [])
    else (hostHolds s pa n false).send (.hostReply true (outsideBytes s pa n)))

/-- A host write of a configuration register, or of an SPDM request to the DOE mailbox, which it answers (R444, R469). -/
def hostConfigWrite (s : State) (ofs : Nat) (bytes : List Byte) : State :=
  if ofs = doeMailbox then s.send (.hostReply true (spdmAnswer s bytes))
  else if bytes.length = 4 then s.modDev fun d => configWrite d ofs (natOfBytes bytes)
  else s

/-- HOST_MEMORY_WRITE (R449): device memory; the doorbell of BAR0, whose other registers ignore writes (R445); a configuration
register; or the host's own memory at its key. A function-level reset discards it (R464). -/
def execHostMemoryWrite (pa : Nat) (bytes : List Byte) (s : State) : Out :=
  if levelOf pa = .host && pa < bar0Base then .next (hostOwnWrite s pa bytes)
  else if !s.portUp || s.dev.inReset then .next (if s.portUp && configBase ≤ pa then s.send (.hostReply false [2]) else s)
  else if configBase ≤ pa then .next (hostConfigWrite s (pa - configBase) bytes)
  else if bar0Base ≤ pa then
    (if pa = bar0Base + 0x1000 && bytes.length = 4 then execDoorbell (natOfBytes bytes % 1024) s else .next s)
  else .next (if hostRange s < pa + bytes.length then s
    else ((writeLines s (bytes.length / 128 + 2) pa bytes).map fun s1 => hostHolds s1 pa bytes.length true).getD s)

/-- Bytes that a request moves. -/
def reqBytes : MemReq → Nat
  | .read n => n
  | .write b | .add b | .swap b | .cas _ b | .op _ b => b.length

/-- The bytes that a request leaves where it found `old` (R176, R451). -/
def reqApply (r : MemReq) (old : List Byte) : List Byte :=
  let n := old.length
  match r with
  | .read _ => old
  | .write b | .swap b => b
  | .add b => bytesOfNat n (natOfBytes old + natOfBytes b)
  | .cas e b => if old = e then b else old
  | .op f b => bytesOfNat n (atomValue f (BitVec.ofNat (8 * n) (natOfBytes old)) (BitVec.ofNat (8 * n) (natOfBytes b))).toNat

/-- An atomic, and no load or store. -/
def reqAtomic : MemReq → Bool
  | .read _ | .write _ => false
  | _ => true

/-- The PCIe AtomicOps of R451: FetchAdd, Swap and CAS of 32 and 64 bits, CAS also of 128; aligned within a line. [PRESUMED, log 126] -/
def atomicOpOk (r : MemReq) (pa : Nat) : Bool :=
  let n := reqBytes r
  pa % n = 0 && (match r with
    | .add _ | .swap _ => n = 4 || n = 8
    | .cas e b => e.length = b.length && (n = 4 || n = 8 || n = 16)
    | _ => false)

/-- One request performed whole at the home, an atomic as a device atomic of SCOPE 5 is: the dirty bytes of its words come home
first (R178, R451), and where atomics of another SCOPE have acted on a word both results are undefined (R11, R178). The old
bytes with the state; none behind a pending version. -/
def reqAtHome (s : State) (pa : Nat) (r : MemReq) : Option (List Byte × State) :=
  let n := reqBytes r
  if !reqAtomic r then
    let old := outsideBytes s pa n
    match r with
    | .read _ => some (old, s)
    | _ => (writeLine s pa (reqApply r old)).map fun s1 => (old, s1)
  else
    let (vs, s0) := if s.mixedScope pa n .system then s.drawMany 2 else ([], s)
    (flushKeys s0 ((List.range n).map (pa + ·)) none).bind fun s1 =>
      let read := outsideBytes s1 pa n
      let old := (vs[0]?.map fun v => bytesOfNat n v.toNat).getD read
      let new := (vs[1]?.map fun v => bytesOfNat n v.toNat).getD (reqApply r read)
      (writeLine s1 pa new).map fun s2 => (old, s2.noteScope pa n .system)

/-- HOST_ATOMIC (R451): at the home slice under PCIe, on a line owned by the host under CXL. An atomic to a live barrier line is
refused, as a device atomic is (R193). -/
def execHostAtomic (pa : Nat) (r : MemReq) (s : State) : Out :=
  .next (if !s.portUp || s.dev.inReset then s
    else if (match s.dev.host with
        | some (.pcie, _) => !atomicOpOk r pa
        | _ => lineOf pa ≠ lineOf (pa + reqBytes r - 1)) || outsideBad s pa (reqBytes r) || s.barrierLive pa then
      s.send (.hostReply false [])
    else match reqAtHome s pa r with
      | none => s
      | some q => (hostHolds q.2 pa (reqBytes r) true).send (.hostReply true q.1))

/-- HOST_SNOOP (R446): the host takes back a copy of its line. [DESIGN CHOICE, log 87] -/
def execHostSnoop (line : Nat) (s : State) : Out :=
  .next (s.modDev fun d => { d with hostLines := d.hostLines.filter fun l => l.1 ≠ line })

/-! ### Accesses of other devices (R342, R343, R453, R465) -/

/-- A load of another device's fibre at the home, with its view (R343): the bytes; a VIEW_LOST as its code in place of them. -/
def viewReply (s : State) (dev pa n view : Nat) : State :=
  match homeRead s (lineOf pa) view 0 with
  | .ok ver => (s.backInvalidate ((List.range n).map (pa + ·)) false).send
      (.remoteReply dev true ((ver.bytes.drop (pa % 128)).take n))
  | .bad _ => s.send (.remoteReply dev false [0x41])
  | _ => s

/-- The context of an access is torn down here (R465). -/
def ctxGone (s : State) (cx : Nat) : Bool := (s.ctx cx).st = .free || (s.ctx cx).st = .torn

/-- An access of another device for a context: refused with CLASS 2 where the context is torn down here (R465), in error where its
bytes are not this device's or not sound. -/
def remoteAt (s : State) (dev cx pa n : Nat) (ok : State) : State :=
  if ctxGone s cx then s.send (.remoteReply dev false [2])
  else if outsideBad s pa n || Config.hbmBytes < pa + n then s.send (.remoteReply dev false []) else ok

/-- A load, store or atomic of another device's fibre; a store or an atomic to a live barrier line raises CLOBBER there, as its
code in place of the bytes (R193). -/
def remoteMem (s : State) (dev pa : Nat) (q : MemReq) : State :=
  if (match q with
      | .read _ => false
      | _ => s.barrierLive pa) then s.send (.remoteReply dev false [0x60])
  else match reqAtHome s pa q with
    | none => s
    | some u => (u.2.backInvalidate ((List.range (reqBytes q)).map (pa + ·)) false).send (.remoteReply dev true u.1)

/-- The tag of another device's fold. -/
def awayTag (dev : Nat) (f : AwayFold) : FoldTag := ⟨dev, f.slice, f.seq⟩

/-- The lines homed here that hold a fold's pending version. -/
def foldLinesHere (s : State) (t : FoldTag) : List Nat :=
  (s.lines.filter fun l => l.1 * 128 < 2 ^ 60 && l.2.pend.any fun p => p.fold = t).map (·.1)

/-- A store of another device's fold at its home (R341). -/
def awayStore (s : State) (dev : Nat) (f : AwayFold) (k pa : Nat) (bytes : List Byte) : State :=
  let cells := (List.range bytes.length).map fun i => (pa + i, bytes.getD i 0, (0xFF : Byte))
  let r : StoreReq := ⟨cells, dword pa, .device, false, some (awayTag dev f), 0, f.ctx, k, false, none⟩
  if s.barrierLive pa then s.send (.remoteReply dev false [0x60])
  else match storePendingAll s (awayTag dev f) r with
    | none => s
    | some s1 => s1.send (.remoteReply dev true [])

/-- A step of another device's seal on this device's lines of the fold (R342). -/
def awayStep (s : State) (dev : Nat) (t : FoldTag) (g : State → Nat → State) (reply : List Byte) : State :=
  ((foldLinesHere s t).foldl g s).send (.remoteReply dev true reply)

/-- Changes the pending version of a line. -/
def modPend (g : Pend → Pend) (s : State) (l : Nat) : State := s.modLine l fun x => { x with pend := x.pend.map g }

/-- The homes mark another device's fold ACKED and answer with their heartbeat; a home behind a contained agent answers in error, so that
the fold aborts (R342, R460). -/
def awayAck (s : State) (dev : Nat) (t : FoldTag) : State :=
  if (foldLinesHere s t).any fun l => (s.deadAgent .dev (l * 128)).isSome then s.send (.remoteReply dev false [2])
  else awayStep s dev t (modPend fun p => { p with st := .acked (s.dev.hb + 1) }) (bytesOfNat 8 s.dev.hb)

/-- The homes invalidate this device's copies of the fold's lines, then stamp them (R342). -/
def awayStamp (s : State) (dev : Nat) (t : FoldTag) (stamp : Nat) (digest : DWord) : State :=
  awayStep s dev t (fun s l => modPend (fun p => { p with st := .stamped stamp, digest := digest })
    (s.invalidate l (BitVec.allOnes 32) none) l) []

/-- Another device has been reset: this device sees the contexts of the launches that span it as torn down there. Sends to it end with
status 2, seals with a home there abort, and accesses outstanding to it raise CLASS 2 (R342, R465). -/
def peerReset (s : State) (dev : Nat) : State :=
  let cxs := ((s.launches.filter fun l => pkNum l.2.bytes 0 1 = 1 && (pkDevs l.2.bytes).contains dev).map fun l => l.2.ctx).dedup
  let s1 := abortSeals s fun r => cxs.contains r.ctx && r.lines.any fun l => s.keyDev (l * 128) = dev
  let s2 := loseStores (abortSends s1 dev 2) (fun r => cxs.contains r.ctx && r.cells.any fun c =>
    levelOf c.1 = .remote && s.keyDev c.1 = dev) (agentWord 4 dev)
  s2.modDev fun d => { d with tornAt := (d.tornAt ++ cxs.map fun c => (dev, c)).dedup }

/-- REMOTE_ACCESS (R453): a message of another device's traffic class TC2 at this device. [DESIGN CHOICE, log 8] -/
def execRemoteAccess (dev pa : Nat) (r : RemoteReq) (s : State) : Out :=
  .next (if dev = s.dev.devid || !s.dev.fabric.contains dev || s.dev.down.contains dev then s
    else match r with
      | .mem cx q => remoteAt s dev cx pa (reqBytes q) (remoteMem s dev pa q)
      | .load cx n view => remoteAt s dev cx pa n (viewReply s dev pa n view)
      | .icinv tok => ((s.cores.map (·.1)).foldl (fun s c => dropCode s c (lineOf pa)) s).send (.ack dev tok)
      | .ack tok => ackedBy s fun a => decide (a = (tok, dev))
      | .foldStore f k bytes => remoteAt s dev f.ctx pa bytes.length (awayStore s dev f k pa bytes)
      | .foldAck f => awayAck s dev (awayTag dev f)
      | .foldStamp f t digest => awayStamp s dev (awayTag dev f) t digest
      | .foldConfirm f t digest => awayStep s dev (awayTag dev f) (fun s l => promoteWith s (awayTag dev f) f.ctx digest [] t l) []
      | .foldDiscard f => awayStep s dev (awayTag dev f) (fun s l => s.modLine l fun x => { x with pend := none }) []
      | .wasReset => peerReset s dev)

/-! ### Completions of this device's accesses to host memory (R446, R448) -/

/-- Bytes of a store to host memory. -/
def StoreReq.hostCells (r : StoreReq) : List (Nat × Byte × Byte) := r.cells.filter fun c => levelOf c.1 = .host

/-- A store that the host has rejected: its host bytes are dropped without effect and counted; bytes that it has elsewhere stay. -/
def rejectStore (s : State) (core n : Nat) (r : StoreReq) : State :=
  let rest := r.cells.filter fun c => levelOf c.1 ≠ .host
  let s1 := s.logError 5 0 6 (((r.hostCells.head?).map fun c => c.1 - 2 ^ 61).getD 0)
  if rest.isEmpty then (s1.modCore core fun c => { c with order := dropAt c.order n }).finishStore r
  else s1.modCore core fun c => { c with order := setAt c.order n { r with cells := rest } }

/-- HOST_ACCESS_COMPLETION (R446, R448): the nth store of a core's order, when it is one to host memory, is performed, or
rejected; any other completion is that of a load or atomic of the core to come, in order. [DESIGN CHOICE, log 99] -/
def execHostAccessCompletion (core n : Nat) (ok : Bool) (s : State) : Out :=
  let later := s.modCore core fun c => { c with hostErr := c.hostErr ++ [ok] }
  .next (match (s.core core).order[n]? with
    | none => later
    | some r => if r.hostCells.isEmpty then later else if ok then performNth s core n else rejectStore s core n r)

/-! ### Messages of other devices (R244, R392, R452) -/

/-- A device whose path is up. [DESIGN CHOICE, log 97] -/
def State.linked (s : State) (dev : Nat) : Bool :=
  dev ≠ s.dev.devid && s.dev.fabric.contains dev && !s.dev.down.contains dev && !s.dev.contained.contains (4, dev)

/-- TLBI_SYS_MESSAGE (R244, R245): the removal on this device; it waits for the stores translated before, and is then
acknowledged. -/
def execTlbiSysMessage (src : Asker) (kind ctx : Nat) (va : DWord) (s : State) : Out :=
  .next (if !s.linked src.dev then s
    else match tlbiLocal s kind ctx va with
      | .ok s1 => s1.send (.ack src.dev src.token)
      | _ => s)

/-- HEARTBEAT_AGREEMENT (R392): the count that another device tells. While the time base is locked a count that differs by more
than 1 is none that an agreeing device tells, and it is not taken. [DESIGN CHOICE, log 97] -/
def execHeartbeatAgreement (dev hb : Nat) (s : State) : Out :=
  .next (if !s.linked dev then s
    else if s.dev.locked && (s.dev.hb + 1 < hb || hb + 1 < s.dev.hb) then s
    else s.modDev fun d => { d with peers := tabPut d.peers dev hb })

/-- SWETEX_LINK_TRAIN (R383, R453): the fabric enumerates the devices that it reaches, and gives this device its index while
no context is allocated; the path to a device known before and reached no more is lost. [DESIGN CHOICE, log 97] -/
def execSwetexLinkTrain (found : Training) (s : State) : Out :=
  let me := if s.ctxs.isEmpty && found.self < 64 then found.self else s.dev.devid
  let known := if me = s.dev.devid then s.dev.fabric else s.dev.fabric.filter (· ≠ s.dev.devid)
  let reached := (me :: found.devs.filter (· < 64)).dedup
  let all_ := (known ++ reached).dedup
  let lost := (all_.filter fun x => !reached.contains x && !s.dev.down.contains x).foldl losePath s
  .next (lost.modDev fun d => { d with
    devid := me, fabric := all_, down := all_.filter fun x => !reached.contains x
    peers := d.peers.filter fun p => reached.contains p.1 })

/-- TIME_BASE_LOCK (R252, R392). -/
def execTimeBaseLock (locked : Bool) (offset : BitVec 31) (s : State) : Out :=
  .next (s.modDev fun d => { d with locked := locked, offset := offset, peers := if locked then d.peers else [] })

end Sys2Proof.Machine
end

