-- ==== Sys2Proof/Machine/Error.lean ====
section
/-! DEFINITION. Errors, containment and repair (R455 to R463, R466). -/

namespace Sys2Proof.Machine

/-! ### What an error counts as (R209, R455, R462) -/

/-- The core of the cluster whose core-in-cluster index owns a line's L1 (R320). -/
def ownerCore (cl key : Nat) : Nat := cl / 4 * 13 + cl % 4 * 4 + ownerIndex key

/-- The place of an error in the log: agent kind, index, address. The core of a dirty byte is its line's owner L1's. -/
def errAgent (s : State) : ErrPlace → Nat × Nat × Nat
  | .laneReg f n => (1, (s.fib f).core, n)
  | .uniformReg k n => (1, (s.flk k).core, n)
  | .segment f pa => (1, (s.fib f).core, pa)
  | .scratch _ key => (1, scratchCore key, key)
  | .dirtyL1 key => (1, (s.clusters.find? fun c => (tabGet c.2.dirty key).isSome).elim 0 fun c => ownerCore c.1 key, key)
  | .l2 key => (2, logicalSlice (key % 2 ^ 52), key)
  | .hbm key => (3, channelOf key, key)
  | .rod core rod => (1, core, rodKey core rod 0)
  | .acc core bank row col => (1, core, accKey bank row col)
  | .control kind index => (kind, index, 0)
  | .codeCache core key => (1, core, key)

/-- Logs an error: kind 1 corrected, kind 2 uncorrectable. [DESIGN CHOICE, log 82] -/
def logPlace (s : State) (p : ErrPlace) (kind : Nat) : State :=
  let a := errAgent s p
  s.logError a.1 a.2.1 kind a.2.2

/-- Changes the work of a core's banks that is under way: the head of each bank, when a test selects it. -/
def markLoops (s : State) (core : Nat) (hit : BankOp → Bool) (g : BankOp → BankOp) : State :=
  (List.range 4).foldl (fun s p => match bankHead s core p with
    | none => s
    | some (i, o) => if o.ops.isSome && hit o then setOp s core i (g o) else s) s

/-- The B operand of a loop takes a rod of the array. -/
def usesRod (s : State) (rod : Nat) (o : BankOp) : Bool := match s.tile o.tb with
  | some t => t.rod && rod < t.cols
  | none => false

/-- The rows of a loop's A operand whose next step takes a byte. -/
def rowsWith (s : State) (key : Nat) (o : BankOp) : List Nat := match o.ops.bind (loopViews s o) with
  | some v => (List.range v.1.t.rows).filter fun a => (o.rowReads s v.1 a).contains key
  | none => []

/-- CORR counts to 255 (R209). -/
def addCorr (e : Nat) : Nat := if e % 256 < 255 then e + 1 else e

/-- The bytes that a transfer in progress reads (R214, R215, R235). -/
def Xfer.sourceKeys (s : State) (core : Nat) (x : Xfer) : List Nat :=
  match x.src, x.dst with
  | none, some r => match s.tile r with
    | some t => match engineImage s core x.team x.slice .load (t.image x.va.toNat x.pitch) with
      | .ok p => pieceKeys p.1
      | _ => []
    | none => []
  | some r, d => match s.tile r, x.kind with
    | some t, .store => tileImageKeys s r t x.pitch
    | some t, .rod => match d.bind fun q => (s.tile q).map fun u => rodCopies s r q t u with
      | some ps => ps.map (·.1)
      | none => []
    | some t, _ => match tagFmt t.tag with
      | some f => (List.range t.lineCount).flatMap fun l => TileView.lineReads s (TileView.ofTag r.core x.team t f) 0 t.lineLen l
      | none => []
    | none, _ => []
  | none, none => []

/-- The bytes of memory that a tile store writes. -/
def Xfer.destKeys (s : State) (core : Nat) (x : Xfer) : List Nat :=
  match x.kind, x.src.bind s.tile with
  | .store, some t => match engineImage s core x.team x.slice .engine (t.image x.va.toNat x.pitch) with
    | .ok p => pieceKeys p.1
    | _ => []
  | _, _ => []

/-- The bytes that a copy phase writes. -/
def CopyPhase.destKeys (s : State) (p : CopyPhase) : List Nat := p.slices.flatMap fun x => match sliceDests s x with
  | .ok r => pieceKeys r.1
  | _ => []

/-- The source bytes of a copy phase (R231). -/
def CopyPhase.sourceKeys (s : State) (p : CopyPhase) : List Nat := p.slices.flatMap fun x =>
  match engineImage s x.core x.team x.base .load x.sources with
  | .ok r => pieceKeys r.1
  | _ => []

/-- Changes the engine work of every core that reads a byte: loops by their A operand, transfers, copy phases under way. -/
def engineHit (s : State) (key : Nat) (loop : BankOp → BankOp) (xfer : Xfer → Xfer) (phase : CopyPhase → CopyPhase) : State :=
  (s.cores.map (·.1)).foldl (fun t c =>
    (markLoops t c (fun o => !(rowsWith s key o).isEmpty) loop).modCore c fun x => { x with
      xfers := x.xfers.map fun y => if (y.sourceKeys s c).contains key then xfer y else y,
      phases := x.phases.map fun p => if p.started && (p.sourceKeys s).contains key then phase p else p }) s

/-- An error that a matrix loop, a copy or an engine program meets counts in its CORR field (R455). -/
def countCorr (s : State) (p : ErrPlace) : State :=
  let count := fun (o : BankOp) => { o with errs := addCorr o.errs }
  let read := fun (key : Nat) => engineHit s key count (fun x => { x with errs := addCorr x.errs })
    fun p => { p with errs := addCorr p.errs }
  match p with
  | .rod core rod => markLoops s core (usesRod s rod) count
  | .acc core bank _ _ => markLoops s core (fun o => (s.core core).physBank o.team o.bank = some bank) count
  | .scratch _ key | .dirtyL1 key | .l2 key | .hbm key => read key
  | _ => s

/-- CORRECTED_ERROR (R455): no value changes. -/
def execCorrectedError (p : ErrPlace) (s : State) : Out := .next (logPlace (countCorr s p) p 1)

/-! ### Containment (R459, R460) -/

/-- The key of the core that an agent kind and index name, none where there is no such core. -/
def agentCore (s : State) (kind index : Nat) : Option Nat :=
  if kind = 1 then (List.range 26).find? fun c => s.coreId c % 32 = index && coreCluster c < 3
  else if kind = 6 && index < 8 then some (26 + index) else none

/-- An agent that R459 names. -/
def agentExists (s : State) (kind index : Nat) : Bool :=
  match kind with
  | 1 | 6 => (agentCore s kind index).isSome
  | 2 => index < 256
  | 3 => index < 512
  | 4 => index < 64 && index ≠ s.dev.devid
  | 5 => index = 0
  | 7 => index < 48
  | _ => false

/-- A byte that lies behind an agent. -/
def behind (s : State) (kind index key : Nat) : Bool :=
  match kind, levelOf key with
  | 1, .scratch => agentCore s kind index = some (scratchCore key)
  | 2, .dev => logicalSlice (key % 2 ^ 52) = index
  | 3, .dev => channelOf key = index
  | 2, .chip => chipDie key * 128 + bitsOf (chipOfs key) 7 7 = index
  | 4, .remote => s.keyDev key = index
  | 5, .host => true
  | _, _ => false

/-- A store that is on its way to an agent: behind it its bytes lie, or it goes to the owner L1 of a core (R320). -/
def towards (s : State) (kind index : Nat) (r : StoreReq) : Bool :=
  let owner : Option Nat := if kind = 1 && r.scope.code ≤ 3 then agentCore s kind index else none
  r.cells.any fun c => behind s kind index c.1 || (match levelOf c.1, owner with
    | .dev, some x | .chip, some x => ownerCore (clusterOf (s.fib r.fibre).core) c.1 = x
    | _, _ => false)

/-- A KIND 2 leaf among the entries of a table and those below it. -/
def hostLeafIn (s : State) : Nat → Nat → Bool
  | 0, _ => false
  | n + 1, t => (List.range (if n = 2 then 4096 else 8192)).any fun i =>
    let e := s.num (t + 8 * i) 8
    bitOf e 0 && (if bitOf e 1 then hostLeafIn s n (bitsOf e 16 36 * 2 ^ 16) else bitsOf e 8 2 = 2)

/-- A context that the host owns (R466). -/
def hostOwned (s : State) (cx : Nat) : Bool :=
  (s.queues.any fun q => q.2.desc.ctx = cx && (match asContext s cx 1 noLaunch fun s f =>
      translateAny s f q.2.desc.base .load false with
    | .ok r => decide (r.1.kind = .host)
    | _ => false))
  || (s.launches.any fun l => l.2.ctx = cx && l.2.accepted
      && (l.2.queue.bind (tabGet s.queues)).any fun q => q.desc.kind = 0)
  || ((s.ctx cx).ttb ≠ 0 && hostLeafIn s 3 (bitsOf (s.ctx cx).ttb.toNat 12 40 * 2 ^ 12))

/-- What a context held in a dead slice or pseudo-channel: pending and prior versions, chip scratchpad on the die, dirty
lines. [DESIGN CHOICE, log 89] -/
def heldBehind (s : State) (kind index cx : Nat) : Bool :=
  let mine := fun (l : Nat × Line) => behind s kind index (l.1 * 128)
  (kind = 2 && (s.lines.any fun l => mine l && ((l.2.pri.any fun p => p.ctx = cx)
      || (l.2.pend.any fun p => (s.foldRec p.fold).any fun r => r.ctx = cx))))
    || (kind = 2 && (s.ctx cx).chip.getD (index / 128) 0 ≠ 0)
    || s.clusters.any (fun c => c.2.dirty.any fun d => d.2.ctx = cx && behind s kind index d.1)
    || Config.heldDirty s.free kind index cx

/-- A transfer, started copy phase or matrix loop of a context's team reads or writes bytes behind an agent. -/
def engineTowards (s : State) (kind index cx : Nat) : Bool :=
  let mine := fun (t : Nat) => decide ((s.tm t).ctx = cx)
  let hit := fun (keys : List Nat) => keys.any (behind s kind index)
  s.cores.any fun c => c.2.xfers.any (fun x => mine x.team && (hit (x.sourceKeys s c.1) || hit (x.destKeys s c.1)))
    || c.2.phases.any (fun p => p.started && p.slices.any (fun x => mine x.team) && (hit (p.sourceKeys s) || hit (p.destKeys s)))
    || c.2.loops.any fun o => mine o.team && decide (agentCore s kind index = some o.ta.core)

/-- A context that a dead agent affects (R460, R466): a store, a transfer, a copy, a loop or a seal of it is outstanding to the
agent, or the agent held state of it. [DEDUCED, log 90] -/
def affected (s : State) (kind index cx : Nat) : Bool :=
  engineTowards s kind index cx
    || (s.folds.any fun r => r.ctx = cx && foldSealing s r && r.lines.any fun l => behind s kind index (l * 128))
    || (s.fibres.any fun f => (s.tm f.2.team).ctx = cx && f.2.queue.any (towards s kind index))
    || (s.cores.any fun c => c.2.order.any fun r => r.ctx = cx && towards s kind index r)
    || (match kind with
      | 1 => s.teams.any fun t => t.2.ctx = cx && (match agentCore s 1 index with
          | some c => t.2.cores.contains c && !t.2.vacated
          | none => false)
      | 2 | 3 => heldBehind s kind index cx
      | 4 => s.launches.any fun l => l.2.ctx = cx && (pkDevs l.2.bytes).contains index
      | 5 => hostOwned s cx
      | _ => false)

/-- The L1 of a core is gone: the copies of the lines that it owned go, and the bytes that it held dirty are lost, so their
granules are poisoned (R320, R457, R460). [DEDUCED, log 116] -/
def loseOwner (s : State) (core : Nat) : State :=
  let cl := clusterOf core
  let mine := fun (key : Nat) => decide (ownerCore cl key = core)
  let lost := ((s.clus cl).dirty.map (·.1)).filter mine
  let s1 := s.modClus cl fun c => { c with
    dirty := c.dirty.filter fun d => !mine d.1, copies := c.copies.filter fun k => !mine (k.1 * 128) }
  (lost.map (· / 32)).dedup.foldl (fun s g => s.markPoison (g * 32) 5) s1

/-- Marks an agent dead: what is outstanding to it ends in error, and what comes later meets the mark (R460, step 1). -/
def markDead (s : State) (kind index : Nat) : State :=
  let s1 := loseStores (abortSeals s fun r => r.lines.any fun l => behind s kind index (l * 128)) (towards s kind index)
    (agentWord kind index)
  let s2 := if kind = 4 then losePath s1 index else s1
  let s3 := match agentCore s2 kind index with
    | some c => (if isShepherd c then s2 else loseOwner s2 c).modCore c fun x => { x with contained := true }
    | none => s2
  s3.modDev fun d => { d with
    contained := d.contained ++ [(kind, index)]
    silent := d.silent.filter fun a => !(a.1 = kind && a.2.1 = index)
    hostUp := d.hostUp && kind ≠ 5 }

/-- Completes an accepted launch of a halted context with a status; launches not yet accepted stay (R460). [DEDUCED, log 90] -/
def haltLaunch (s : State) (status : DWord) (key : Nat) : Option State :=
  match tabGet s.launches key with
  | none => some s
  | some l =>
    if !l.accepted then some s
    else
      let w := if l.status = 0 then status else l.status
      (if l.message.isSome then some s else writeCompletion s l.ctx key l.queue l.bytes w).map fun s1 =>
        acceptEntry (s1.delLaunch key) l.queue

/-- The teams of a context terminate, and the context moves to CSTATE 3 (R460, step 2). -/
def stopContext (s : State) (status : DWord) (cx : Nat) : State :=
  ((ctxTeams s cx).foldl (fun s t => terminateTeam s t status) s).modCtx cx fun c => { c with st := .suspended }

/-- Halts a context: its teams terminate, its accepted launches write completion, CSTATE 3 (R460, step 2). Where a flock of it is
stopped, or a store or a word must wait, its teams leave and its launches end one by one at TEAM_COMPLETE (R303, R397).
[DEDUCED, log 90] -/
def haltContext (s : State) (status : DWord) (cx : Nat) : State :=
  let ts := ctxTeams s cx
  let s1 := stopContext s status cx
  if ts.any (teamStopped s1) then s1
  else ((ts.foldl (fun (o : Option State) t => o.bind fun s => removeTeam s t) (some s1)).bind fun s2 =>
    ((s2.launches.filter fun l => l.2.ctx = cx).map (·.1)).foldl
      (fun (o : Option State) k => o.bind fun s => haltLaunch s status k) (some s2)).getD s1

/-- Containment of an agent (R460): its traffic is isolated at once, then the contexts that it affects are halted. -/
def contain (s : State) (kind index : Nat) : State :=
  let hit := ((s.ctxs.filter fun c => c.2.st ≠ .free && c.2.st ≠ .torn && affected s kind index c.1).map (·.1))
  let s1 := markDead { s with free := s.free + 1 } kind index
  (hit.foldl (fun s cx => haltContext s (statusWord 5 kind 0 index) cx) s1).logError kind index 3 0

/-- An agent that R459 names and that no containment has taken. -/
def agentAlive (s : State) (kind index : Nat) : Bool := agentExists s kind index && !s.dev.contained.contains (kind, index)

/-- AGENT_DEAD (R459, R460): an agent stops answering; 64 heartbeat ticks later it is dead, and is contained. [DEDUCED, log 90] -/
def execAgentDead (kind index : Nat) (s : State) : Out :=
  .next (if !agentAlive s kind index then s
    else match s.dev.silent.find? fun a => a.1 = kind && a.2.1 = index with
      | none => s.modDev fun d => { d with silent := d.silent ++ [(kind, index, d.hb)] }
      | some a => if a.2.2 + 64 ≤ s.dev.hb then contain s kind index else s)

/-! ### Uncorrectable errors (R455 to R457) -/

/-- CLASS 1 on a flock: structure code, lane, register (R456). -/
def stopClass1 (s : State) (k code lane reg : Nat) : State :=
  let fl := s.flk k
  let lanes := if code = 2 then fl.unfrozen else Mask.one lane
  stopFlock { s with runs := s.runs.filter fun r => r.flock ≠ k } k 1 lanes ((fl.fibreAt lane).getD 0) 0
    (dword (code + lane * 2 ^ 8 + reg * 2 ^ 16))

/-- CLASS 1 of a flock that exists, for its uniform registers: at its lowest open lane. -/
def stopAtLow (s : State) (k code reg : Nat) : State :=
  match (tabGet s.flocks k).bind fun fl => fl.unfrozen.lanes.head? with
  | none => s
  | some l => stopClass1 s k code l reg

/-- CLASS 1 on the flock of the fibre whose access meets the error, at the fibre's home lane (R456); none for a fibre in no flock. -/
def stopFibre (s : State) (f code reg : Nat) : Option State :=
  (tabGet s.fibres f).bind fun x => match x.loc with
    | .flock k => some (stopClass1 s k code x.home reg)
    | _ => none

/-- A dirty byte of a word that an L1 holds. -/
def dirtyWord (s : State) (key : Nat) : Bool :=
  s.clusters.any fun c => (List.range 4).any fun i => (tabGet c.2.dirty (key / 4 * 4 + i)).isSome

/-- A dirty word of an L1 leaves poisoned (R455, R457). -/
def loseDirty (s : State) (key : Nat) : State :=
  (s.dropDirty ((List.range 4).map (key / 4 * 4 + ·))).markPoison key 5

/-- Structures whose uncorrectable error is always corrected: a clean L1 word and a code line are fetched again (R455). The state
without the copy; none for any other place. -/
def refetched (s : State) (p : ErrPlace) : Option State :=
  match p with
  | .dirtyL1 key => if dirtyWord s key then none
    else some (s.invalidate (lineOf key) (wordSpan (key / 4 * 4) 4 false) none)
  | .codeCache core key => some (dropCode s core (lineOf key))
  | _ => none

/-- Elements of a loop (row × 256 + column) that an error has affected, and its bit of the status word: they are undefined as
the loop ends (R209, R223). -/
def BankOp.lose (bit : Nat) (es : List Nat) (o : BankOp) : BankOp :=
  { o with errs := Nat.lor o.errs bit, lost := (o.lost ++ es).dedup }

/-- The elements of a loop's row, and of its column. -/
def rowElems (s : State) (o : BankOp) (a : Nat) : List Nat :=
  (List.range (((s.tile o.tb).map (·.cols)).getD 0)).map fun j => a * 256 + j
def colElems (s : State) (o : BankOp) (j : Nat) : List Nat :=
  (List.range (((s.tile o.ta).map (·.rows)).getD 0)).map fun a => a * 256 + j

/-- A rod fails under the loops that use it: UROD, and its column of each bank undefined (R209, R223). -/
def loseRod (s : State) (core rod : Nat) : State :=
  markLoops s core (usesRod s rod) fun o => o.lose 0x100 (colElems s o rod)

/-- An element of a bank fails: UACC under a loop that writes the bank; with none, the element is undefined at once. -/
def loseElem (s : State) (core bank e : Nat) : State :=
  match bankHead s core bank with
  | some (i, o) => if o.ops.isSome then setOp s core i (o.lose 0x200 [e]) else undefineElems s core bank [e]
  | none => undefineElems s core bank [e]

/-- A scratchpad byte fails under the engine work that reads it: UOPD, CODE 6, and the rows of a loop undefined (R209, R455). -/
def loseScratch (s : State) (key : Nat) : State :=
  engineHit s key (fun o => o.lose 0x400 ((rowsWith s key o).flatMap (rowElems s o)))
    (fun x => { x with errs := Nat.lor x.errs 0x400 }) fun p => { p with errs := Nat.lor p.errs 0x400, code := 6 }

/-- The outcome of an error that nothing corrects (R455 to R459). -/
def uncorrected (s : State) (p : ErrPlace) : State :=
  match p with
  | .laneReg f n => (stopFibre s f 1 n).getD s
  | .uniformReg k n => stopAtLow s k 2 n
  | .scratch f key => (stopFibre s f 3 0).getD (loseScratch s key)
  | .segment f _ => (stopFibre s f 4 0).getD s
  | .dirtyL1 key => loseDirty s key
  | .l2 key => s.markPoison key 5
  | .hbm key => s.markPoison key 6
  | .rod core rod => loseRod s core rod
  | .acc core bank row col => loseElem s core bank (row * 256 + col)
  | .control kind index => if agentAlive s kind index then contain s kind index else s
  | .codeCache _ _ => s

/-- UNCORRECTABLE_ERROR (R455): the outcome of its structure; one that a new fetch corrects counts as corrected. -/
def execUncorrectableError (p : ErrPlace) (s : State) : Out :=
  .next (match refetched s p with
    | some s1 => logPlace (countCorr s1 p) p 1
    | none => uncorrected (logPlace s p 2) p)

/-! ### Repair (R462) -/

/-- Errors of a kind that the log holds of the last 2^20 ticks, where a test selects them and no repair has answered them.
[DEDUCED, log 91] -/
def recentErrors (s : State) (kind : Nat) (p : LogEntry → Bool) : Nat :=
  (s.dev.errors.filter fun e => e.kind = kind && p e && !e.served && s.dev.hb < e.time + 2 ^ 20).length

/-- A repair has answered the errors that a test selects. -/
def served (s : State) (p : LogEntry → Bool) : State :=
  s.modDev fun d => { d with errors := d.errors.map fun e => if p e then { e with served := true } else e }

/-- The threshold of rods and rows: 16 corrected or 1 uncorrectable. [DEDUCED, log 91] -/
def worn (s : State) (p : LogEntry → Bool) : Bool := 16 ≤ recentErrors s 1 p || 1 ≤ recentErrors s 2 p

/-- ROD_SPARE (R462): the slice moves to one of eight spares, from a spare that fails too; a ninth failure contains the core. -/
def execRodSpare (core rod : Nat) (s : State) : Out :=
  let c := s.core core
  let mine := fun (e : LogEntry) => e.agent = 1 && e.addr = rodKey core rod 0
  .next (if 256 ≤ rod || isShepherd core || c.contained || !worn s mine then s
    else if c.spareRods.length < 8 then (served s mine).modCore core fun x => { x with spareRods := x.spareRods ++ [rod] }
    else contain s 1 (s.coreId core % 32))

/-- The first core of a die that is contained and not the spare. -/
def deadCore (s : State) (die : Nat) : Option Nat := (List.range 26).find? fun c =>
  coreDie c = die && coreCluster c < 3 && (s.core c).contained && !s.dev.spareCores.contains c

/-- CORE_SPARE_JOIN (R462): the die's spare takes the dead core's place, zeroed, once the cluster holds no resident team. -/
def execCoreSpareJoin (die : Nat) (s : State) : Out :=
  .next (match deadCore s die with
    | none => s
    | some c =>
      if s.dev.spareCores.any (fun x => coreDie x = die) || 2 ≤ die || s.teams.any (fun t => !t.2.vacated && t.2.cores.any fun x =>
          clusterOf x = clusterOf c) then s
      else
        let s1 := (s.zero (scratchKey c 0) (2 ^ 22)).zero (rodKey c 0 0) (2 ^ 23)
        (s1.setCore c Core.reset).modDev fun d => { d with
          spareCores := d.spareCores ++ [c], sparemap := d.sparemap ||| (1#10 <<< die) })

/-- A byte of this device that an L2 slice holds of a chip-scratchpad grant (R318). -/
def chipSlice (key : Nat) : Option Nat :=
  if levelOf key = .chip && key < 2 ^ 62 + 2 ^ 50 then some (chipDie key * 128 + bitsOf (chipOfs key) 7 7) else none

/-- A dead slice's spare starts zeroed: the chip scratchpad and the prior and pending versions that it held are gone (R328, R340,
R463). -/
def zeroSlice (s : State) (slice : Nat) : State :=
  let bare := fun (l : Nat × Line) => if l.1 * 128 < 2 ^ 60 && logicalSlice (l.1 * 128) = slice then
    (l.1, { l.2 with pri := none, pend := none }) else l
  { s with
    mem := s.mem.filter fun c => chipSlice c.1 ≠ some slice
    lines := (s.lines.map bare).filter fun l => l.2 ≠ Line.reset }

/-- L2_SLICE_SPARE (R462): a spare of the die takes a failing slice with its contents, or a dead one zeroed. With no spare left a
failing slice is contained. -/
def execL2SliceSpare (slice : Nat) (s : State) : Out :=
  let die := slice / 128
  let used := (s.dev.spareSlices.filter fun x => x / 128 = die).length
  let mine := fun (e : LogEntry) => e.agent = 2 && e.index = slice
  let dead := s.dev.contained.contains (2, slice)
  .next (if 256 ≤ slice || !(dead || 64 ≤ recentErrors s 1 mine) then s
    else if 4 ≤ used then (if dead then s else contain s 2 slice)
    else (served (if dead then zeroSlice s slice else s) mine).modDev fun d => { d with
      contained := d.contained.filter (· ≠ (2, slice)),
      spareSlices := d.spareSlices ++ [slice], sparemap := d.sparemap ||| (1#10 <<< (2 + die * 4 + used)) })

/-- HBM_ROW_SPARE (R462): the row is copied; poisoned granules stay poisoned. The spec gives no number of spare rows. [DEDUCED, log 91] -/
def execHbmRowSpare (stack row : Nat) (s : State) : Out :=
  let hit := fun (e : LogEntry) => e.agent = 3 && channelOf e.addr / 64 = stack && Config.rowOf (e.addr / 32) = row
  .next (if !worn s hit then s
    else (served s hit).modDev fun d => { d with spareRows := d.spareRows ++ [(stack, row)] })

/-- PSEUDO_CHANNEL_SPARE (R462): the range returns zeroed, every granule poisoned. [DEDUCED, log 92] -/
def execPseudoChannelSpare (channel : Nat) (s : State) : Out :=
  let mine := fun (key : Nat) => decide (key < 2 ^ 60) && decide (channelOf key = channel)
  .next (if !s.dev.contained.contains (3, channel)
      || 2 ≤ (s.dev.spareChannels.filter fun c => c / 64 = channel / 64).length then s
    else { s with
      mem := s.mem.filter fun c => !mine c.1
      dev := { s.dev with
        contained := s.dev.contained.filter (· ≠ (3, channel)), spareChannels := s.dev.spareChannels ++ [channel],
        badChannels := (s.dev.badChannels ++ [channel]).dedup,
        poisoned := s.dev.poisoned.filter fun g => !mine (g.1 * 32) } })

/-- Devices every path to which is down, once a link is (R453). -/
def cutOff (s : State) (down : Nat → Bool) : List Nat := s.dev.fabric.filter fun d =>
  let links := (List.range 16).filter fun l => Config.linkCarries l d
  d ≠ s.dev.devid && !s.dev.down.contains d && !links.isEmpty && links.all down

/-- SWETEX_LANE_SPARE (R462): the spare lane, then 4 lanes, then the link is down, and with it the paths that it alone carried.
[DESIGN CHOICE, log 97] -/
def execSwetexLaneSpare (link : Nat) (s : State) : Out :=
  let n := tabGetD s.dev.spareLanes link 0
  .next (if 16 ≤ link || 3 ≤ n then s
    else
      let s1 := s.modDev fun d => { d with spareLanes := tabPut d.spareLanes link (n + 1) }
      (cutOff s1 fun l => 3 ≤ tabGetD s1.dev.spareLanes l 0).foldl losePath s1)

/-! ### The host link (R466) -/

/-- SURPRISE_LINK_LOSS (R466): containment of the host port. -/
def execSurpriseLinkLoss (s : State) : Out :=
  .next (if !s.dev.hostUp || s.dev.contained.contains (5, 0) then s else contain s 5 0)

/-- HOST_LINK_RESET (R466): the port leaves containment and trains again, its personality open; no cache of the host holds a line
any more. -/
def execHostLinkReset (s : State) : Out :=
  .next (s.modDev fun d => { d with
    contained := d.contained.filter (· ≠ (5, 0)), host := none, hostUp := false, hostLines := [], hostHeld := [] })

end Sys2Proof.Machine
end

