-- ==== Sys2Proof/Machine/Loader.lean ====
section
/-! DEFINITION. Code objects: the container, verification, relocation, and services 0x0010 and 0x0011 (R424 to R436). -/

namespace Sys2Proof.Machine

/-! ### The container (R424 to R426, R430, R431) -/

/-- The offset of the first check that fails. -/
def firstBad (cs : List (Bool × Nat)) : Option Nat := (cs.find? fun c => c.1).map (·.2)

/-- Byte range and kind of image i (R425): offset, size, kind. -/
def dirEntry (b : List Byte) (i : Nat) : Nat × Nat × Nat :=
  (pkNum b (0x40 + 32 * i) 8, pkNum b (0x48 + 32 * i) 8, pkNum b (0x50 + 32 * i) 1)

/-- The bytes of image i. -/
def imageBytesOf (b : List Byte) (i : Nat) : List Byte := (b.drop (dirEntry b i).1).take (dirEntry b i).2.1

/-- Two images overlap. -/
def imagesMeet (b : List Byte) (i j : Nat) : Bool :=
  let x := dirEntry b i
  let y := dirEntry b j
  x.1 < y.1 + y.2.1 && y.1 < x.1 + x.2.1

/-- R424 and R425: the first malformed field's offset. [DEDUCED, log 84] -/
def containerBad (b : List Byte) (size : Nat) : Option Nat :=
  let n := pkNum b 6 2
  (firstBad [(pkNum b 0 4 ≠ 0x014F434B, 0), (pkNum b 4 2 ≠ 1, 4), (n = 0 || 16 < n, 6), (size < 0x40 + 32 * n, 8),
    (!zeroFrom b 0x10 48, 0x10)]).or (firstBad ((List.range n).flatMap fun i =>
      let e := dirEntry b i
      let o := 0x40 + 32 * i
      [(e.1 % 8 ≠ 0 || size < e.1 + e.2.1 || (List.range i).any (imagesMeet b i), o), (2 ≤ e.2.2, o + 0x10),
        (!zeroFrom b (o + 0x11) 15, o + 0x11)]))

/-- The notes of an image: key and value (R427). -/
def notesOf (m : List Byte) : List (Nat × Nat) := (List.range (Nat.min (pkNum m 0x50 4) 64)).map fun i =>
  (pkNum m (pkNum m 0x48 8 + 16 * i) 2, pkNum m (pkNum m 0x48 8 + 16 * i + 8) 8)

/-- An image matches Leriz (R428). -/
def imageMatches (m : List Byte) : Bool :=
  let ns := notesOf m
  ((ns.filter fun x => x.1 = 1).map (·.2)) = [0x0100] && (ns.all fun x => x.1 ≠ 2 || x.2 ≤ 1)
    && ns.all fun x => x.1 < 0x8000

/-- The rank of a matching image (R428). -/
def imageRank (kind : Nat) (m : List Byte) : Nat :=
  if kind = 1 then 2 else if (notesOf m).any fun x => x.1 = 2 && x.2 = 1 then 0 else 1

/-- The image that the loader selects (R428). -/
def selectImage (b : List Byte) : Option Nat :=
  let ok := (List.range (pkNum b 6 2)).filter fun i => imageMatches (imageBytesOf b i)
  let ofRank := fun (r : Nat) => ok.find? fun i => imageRank (dirEntry b i).2.2 (imageBytesOf b i) = r
  ((ofRank 0).or (ofRank 1)).or (ofRank 2)

/-- Fields of an image header (R426). -/
def imBasep (m : List Byte) : Nat := pkNum m 0 8
def imCode (m : List Byte) : Nat := pkNum m 0x08 4
def imConst (m : List Byte) : Nat := pkNum m 0x0C 4
def imGot (m : List Byte) : Nat := pkNum m 0x10 4
def imNgot (m : List Byte) : Nat := pkNum m 0x14 4
def imLoadSize (m : List Byte) : Nat := pkNum m 0x18 4
def imLoad (m : List Byte) : Nat := pkNum m 0x20 8
/-- The load block. -/
def loadBlock (m : List Byte) : List Byte := (m.drop (imLoad m)).take (imLoadSize m)
/-- Offset of kernel record k. -/
def kernOfs (m : List Byte) (k : Nat) : Nat := pkNum m 0x28 8 + 32 * k
/-- Offset of symbol record i. -/
def symOfs (m : List Byte) (i : Nat) : Nat := pkNum m 0x40 8 + 16 * i
/-- A string of the string table. -/
def nameAt (m : List Byte) (ofs : Nat) : List Byte :=
  (((m.drop (pkNum m 0x58 8)).take (pkNum m 0x54 4)).drop ofs).takeWhile (· ≠ 0)

/-- R426: the first header field out of its limits. -/
def headerBad (m : List Byte) : Option Nat :=
  let size := m.length
  let area := fun (o n : Nat) => decide (size < pkNum m o 8 + n)
  firstBad [(imBasep m % 65536 ≠ 0 || 2 ^ 54 ≤ imBasep m, 0), (imCode m % 8 ≠ 0 || imCode m < 16, 0x08),
    (imConst m % 64 ≠ 0 || imConst m < imCode m, 0x0C),
    (if imNgot m = 0 then imGot m ≠ 0 else imGot m % 65536 ≠ 0 || imGot m < imCode m || imGot m < imConst m, 0x10),
    (65536 < imNgot m, 0x14),
    (imLoadSize m < imConst m || imLoadSize m < imGot m + 8 * imNgot m, 0x18),
    (pkNum m 0x1C 4 = 0 || 256 < pkNum m 0x1C 4, 0x1C), (imLoad m % 8 ≠ 0 || area 0x20 (imLoadSize m), 0x20),
    (area 0x28 (32 * pkNum m 0x1C 4), 0x28), (area 0x30 (24 * pkNum m 0x38 4), 0x30), (pkNum m 0x3C 4 = 0, 0x3C),
    (area 0x40 (16 * pkNum m 0x3C 4), 0x40), (area 0x48 (16 * pkNum m 0x50 4), 0x48),
    (pkNum m 0x50 4 = 0 || 64 < pkNum m 0x50 4, 0x50),
    (area 0x58 (pkNum m 0x54 4) || (pkNum m 0x54 4 ≠ 0 && pkNum m (pkNum m 0x58 8 + pkNum m 0x54 4 - 1) 1 ≠ 0), 0x58),
    (!zeroFrom m 0x60 32, 0x60)]

/-- Limits of a kernel record (R430). -/
def kernelChecks (m : List Byte) (k : Nat) : List (Bool × Nat) :=
  let o := kernOfs m k
  [(pkNum m (o + 8) 2 = 0 || 8192 < pkNum m (o + 8) 2, o + 8), (4 < pkNum m (o + 10) 1, o + 10),
    (pkNum m (o + 11) 1 ≠ 0, o + 11)] ++ ((List.range 4).map fun i =>
      let r := pkNum m (o + 12 + 4 * i) 4
      (r / 65536 ≠ 0 || bitsOf r 2 6 ≠ 0 || (bitOf r 0 && (bitsOf r 8 8 = 0 || 32 < bitsOf r 8 8)), o + 12 + 4 * i))
    ++ [(!zeroFrom m (o + 28) 4, o + 28)]

/-- Limits of a symbol record (R431). -/
def symbolChecks (m : List Byte) (i : Nat) : List (Bool × Nat) :=
  let o := symOfs m i
  let fl := pkNum m (o + 4) 4
  if i = 0 then [(pkNum m o 8 ≠ 0, o)]
  else [(4 ≤ fl, o + 4), (bitOf fl 0 && pkNum m (o + 8) 8 ≠ 0, o + 8)]

/-- The whole check of an image: an offset within it. -/
def imageBad (m : List Byte) : Option Nat :=
  ((headerBad m).or (firstBad ((List.range (pkNum m 0x50 4)).map fun i =>
    (!zeroFrom m (pkNum m 0x48 8 + 16 * i + 2) 6, pkNum m 0x48 8 + 16 * i + 2)))).or
    (firstBad (((List.range (pkNum m 0x1C 4)).flatMap (kernelChecks m)) ++
      (List.range (pkNum m 0x3C 4)).flatMap (symbolChecks m)))

/-- Kernel k of an image loaded at B (R430, R437). -/
def kernelAt (m : List Byte) (b k : Nat) : Kernel :=
  let o := kernOfs m k
  ⟨dword (b + pkNum m o 4), pkNum m (o + 8) 2, pkNum m (o + 10) 1, (List.range 4).map fun i =>
    let r := pkNum m (o + 12 + 4 * i) 4
    if bitOf r 0 then ⟨1, bitsOf r 8 8 * 8, bitOf r 1⟩ else ⟨0, 0, false⟩⟩

/-- The exported symbols of an image loaded at B (R431). -/
def exportsAt (m : List Byte) (b : Nat) : List (List Byte × DWord) :=
  (List.range (pkNum m 0x3C 4)).filterMap fun i =>
    let fl := pkNum m (symOfs m i + 4) 1
    if i ≠ 0 && bitOf fl 1 && !bitOf fl 0 then
      some (nameAt m (pkNum m (symOfs m i) 4), dword (b + pkNum m (symOfs m i + 8) 8))
    else none

/-! ### Relocation records (R434 to R436) -/

/-- A relocation record. -/
structure RelRec where
  site : Nat
  sym : Nat
  kind : Nat
  addend : Int
  clean : Bool
  deriving DecidableEq, Repr

/-- Record i (R434). -/
def relAt (m : List Byte) (i : Nat) : RelRec :=
  let o := pkNum m 0x30 8 + 24 * i
  ⟨pkNum m o 8, pkNum m (o + 8) 4, pkNum m (o + 12) 1, (dword (pkNum m (o + 16) 8)).toInt, zeroFrom m (o + 13) 3⟩

/-- The records of an image. -/
def relsOf (m : List Byte) : List RelRec := (List.range (pkNum m 0x38 4)).map (relAt m)

/-- The GOT entries of an image loaded at B with the symbols that they bind (R435, R437). -/
def bindsAt (m : List Byte) (b : Nat) : List (DWord × List Byte) :=
  ((relsOf m).filter fun r => r.kind = 9).map fun r => (dword (b + r.site), nameAt m (pkNum m (symOfs m r.sym) 4))

/-- An aligned field of `n` bytes within an area. -/
def siteIn (site n lo hi : Nat) : Bool := site % n = 0 && lo ≤ site && site + n ≤ hi

/-- End of the constant area. -/
def constEnd (m : List Byte) : Nat := if imNgot m = 0 then imLoadSize m else imGot m

/-- The site rule of R435. -/
def siteOk (m : List Byte) (r : RelRec) : Bool :=
  let op := opOf (pkNum (loadBlock m) r.site 8)
  let code := siteIn r.site 8 0 (imCode m)
  let got := siteIn r.site 8 (imGot m) (imGot m + 8 * imNgot m)
  let imm := 0x40 ≤ op && op ≤ 0x4A
  let mem := (0x140 ≤ op && op ≤ 0x143) || (0x148 ≤ op && op ≤ 0x14A) || (0x14F ≤ op && op ≤ 0x151)
  match r.kind with
  | 1 => siteIn r.site 8 (imConst m) (constEnd m) || got
  | 2 => siteIn r.site 4 (imConst m) (constEnd m)
  | 3 => code && op = 0x60
  | 4 | 7 => code && imm
  | 5 | 8 => code && mem
  | 6 => code && op = 0x61
  | 9 => got
  | _ => false

/-- The check of R435 on e. -/
def valueOk (m : List Byte) (r : RelRec) (e : Int) : Bool :=
  match r.kind with
  | 2 => 0 ≤ e && e ≤ 0xFFFFFFFF
  | 3 => 0 ≤ e && e ≤ 0xFFFFF7FF
  | 6 => -2 ^ 31 ≤ e && e ≤ 2 ^ 31 - 0x801
  | 9 => bitOf (pkNum m (symOfs m r.sym + 4) 1) 0 && r.sym ≠ 0
  | _ => true

/-- hi20 and lo12 of R98. -/
def hi20 (e : Int) : Nat := ((e + 0x800) / 4096 % 2 ^ 20).toNat
def lo12 (e : Int) : Nat := (e % 4096).toNat

/-- Replaces bits of a word. -/
def setBits (w lo len v : Nat) : Nat := w - bitsOf w lo len * 2 ^ lo + v % 2 ^ len * 2 ^ lo

/-- Writes a number of `n` bytes into a block. -/
def blockPut (b : List Byte) (o n v : Nat) : List Byte := b.take o ++ bytesOfNat n v ++ b.drop (o + n)

/-- The field of R435. -/
def putField (b : List Byte) (r : RelRec) (e : Int) : List Byte :=
  let w := pkNum b r.site 8
  match r.kind with
  | 1 => blockPut b r.site 8 (e % 2 ^ 64).toNat
  | 2 => blockPut b r.site 4 e.toNat
  | 3 | 6 => blockPut b r.site 8 (setBits w 21 20 (hi20 e))
  | 4 | 7 => blockPut b r.site 8 (setBits w 5 12 (lo12 e))
  | 5 | 8 => blockPut b r.site 8 (setBits w 17 12 (lo12 e))
  | _ => blockPut b r.site 8 (0xFFC0000000000000 + (e % 2 ^ 54).toNat)

/-- The value of an exported symbol (R431): later loads first. -/
def Ctx.symbol (c : Ctx) (name : List Byte) : Option DWord :=
  c.images.reverse.findSome? fun i => (i.exports.find? fun x => x.1 = name).map (·.2)

/-- The value of a symbol, none where an external one is unresolved (R431, R436): later loads first. -/
def symbolValue (c : Ctx) (m : List Byte) (b sym : Nat) : Option Int :=
  let o := symOfs m sym
  if sym = 0 then some b
  else if !bitOf (pkNum m (o + 4) 1) 0 then some (b + pkNum m (o + 8) 8)
  else (Ctx.symbol c (nameAt m (pkNum m o 4))).map fun a => (a.toNat : Int)

/-- Relocate of R436 for record i: the status and detail of R433, or the block. [DEDUCED, log 85] -/
def relocate (c : Ctx) (m : List Byte) (b i : Nat) (r : RelRec) (blk : List Byte) : Except (Nat × Nat) (List Byte) :=
  if !r.clean || pkNum m 0x3C 4 ≤ r.sym || r.kind = 0 || 10 ≤ r.kind then .error (7, i)
  else match (if r.kind = 9 then some ((b + r.site : Nat) : Int) else symbolValue c m b r.sym) with
    | none => .error (5, r.sym)
    | some x =>
      let p : Int := ((b + r.site : Nat) : Int)
      let e := if r.kind = 9 then x else if r.kind ≤ 5 then x + r.addend else x + r.addend - p
      if !valueOk m r e then .error (4, i)
      else if !siteOk m r then .error (7, i)
      else .ok (putField blk r e)

/-- Every record in order. [DEDUCED, log 85] -/
def relocateAll (c : Ctx) (m : List Byte) (b : Nat) : Nat → List RelRec → List Byte → Except (Nat × Nat) (List Byte)
  | _, [], blk => .ok blk
  | i, r :: rs, blk => match relocate c m b i r blk with
    | .error e => .error e
    | .ok blk1 => relocateAll c m b (i + 1) rs blk1

/-! ### Verification (R429) -/

/-- The clauses of a code area from an offset, and the header where they break off. -/
def codeClauses (word : Nat → Nat) (size : Nat) : Nat → Nat → List (Nat × Header) × Option Nat
  | 0, o => ([], if o = size then none else some o)
  | n + 1, o =>
    if o = size then ([], none)
    else match decodeHeader (word o) with
      | .bad _ => ([], some o)
      | .ok h =>
        if size < o + 8 * (h.count + 1) then ([], some o)
        else
          let r := codeClauses word size n (o + 8 * (h.count + 1))
          ((o, h) :: r.1, r.2)

/-- The offset operand of a branch, HINST, SPAWN or CALLS. -/
def targetOf : Instr → Option (BitVec 24)
  | .bra _ off | .call _ _ off | .calls _ _ off | .spawn _ _ _ off | .hinst _ _ _ off => some off
  | _ => none

/-- A word of a virtual image fails DecodeInstruction, needs a level, or names registers beyond the allocation. -/
def wordFails (regs : Nat) (h : Header) (slot w : Nat) : Bool :=
  match decodeWord w with
  | .bad _ => true
  | .ok i => !Home.permitted h.cls i.home || (i.endsClause && slot ≠ h.count) || !i.uniformInRange || fselWithoutFt i w
    || ftBad i h || i.level ≠ 0 || (laneSpans i).any fun p => regs < p.1 + p.2

/-- Its target is no clause header of the image. -/
def targetFails (heads : List Nat) (ofs w : Nat) : Bool :=
  match decodeWord w with
  | .bad _ => false
  | .ok i => match targetOf i with
    | none => false
    | some off =>
      let t : Int := ofs + off.toInt * 8
      t < 0 || !heads.contains t.toNat

/-- The least of some offsets. -/
def lowestOf (xs : List Nat) : Option Nat := xs.foldl (fun m x => match m with
  | none => some x
  | some y => some (Nat.min x y)) none

/-- The first failing word of a virtual image. -/
def verifyFails (m : List Byte) : Option Nat :=
  let word := fun (o : Nat) => pkNum (loadBlock m) o 8
  let kernels := (List.range (pkNum m 0x1C 4)).map (kernelAt m 0)
  let regs := (kernels.flatMap fun k => k.roles.map (·.regs)).foldl Nat.max 0
  let cl := codeClauses word (imCode m) (imCode m / 8 + 1) 0
  let heads := cl.1.map (·.1)
  let slots := cl.1.flatMap fun p => (List.range p.2.count).map fun i => (p.1 + 8 * (i + 1), p.2, i + 1)
  let bad := (slots.filter fun x => wordFails regs x.2.1 x.2.2 (word x.1)).map (·.1)
  lowestOf (cl.2.toList ++ bad ++ ((slots.filter fun x => targetFails heads x.1 (word x.1)).map (·.1))
    ++ ((kernels.filter fun k => !heads.contains k.entry.toNat).map fun k => k.entry.toNat)
    ++ ((relsOf m).filter fun r => !siteOk m r).map fun r => r.site)

/-! ### Placing an image (R432) -/

def pageBytes : Nat := 65536

/-- A 64 KiB page that holds no present leaf. -/
def pageFree (s : State) (ctx va : Nat) : Bool :=
  match walk s 0 ctx va with
  | .missing _ => true
  | _ => false

/-- Two ranges meet. -/
def rangesMeet (a n lo hi : Nat) : Bool := lo < hi && a < hi && lo < a + n

/-- A range without a present page, outside the tensor-heap window and the frame-heap region. -/
def rangeFree (s : State) (ctx b n : Nat) : Bool :=
  let c := s.ctx ctx
  b + n ≤ 2 ^ 54 && !rangesMeet b n c.thb.toNat c.thl.toNat && !rangesMeet b n c.fhb.toNat c.fhl.toNat
    && (List.range (n / pageBytes)).all fun i => pageFree s ctx (b + i * pageBytes)

/-- Bytes of a table of the page tree (R411). -/
def tableBytes (lvl : Nat) : Nat := if lvl = 2 then 32768 else 65536

/-- A present entry of a page tree: its address, its level, and the first address that it maps. -/
structure TreeEntry where
  key : Nat
  lvl : Nat
  va : Nat
  deriving DecidableEq, Repr

/-- The present entries of a table of a level, `va` being the first address that the table maps. Only bytes that memory lists can be
of a present entry. -/
def tableEntries (s : State) (lvl table va : Nat) : List TreeEntry :=
  let hits := ((s.mem.filter fun c => table ≤ c.1 && c.1 < table + tableBytes lvl).map fun c => (c.1 - table) / 8).dedup
  (hits.filter fun i => bitOf (s.num (table + 8 * i) 8) 0).map fun i => ⟨table + 8 * i, lvl, va + i * 2 ^ levelBits lvl⟩

/-- The present entries of the tree under a table of a level. -/
def treeUnder (s : State) : Nat → Nat → Nat → List TreeEntry
  | 0, table, va => tableEntries s 0 table va
  | n + 1, table, va => (tableEntries s (n + 1) table va).flatMap fun e =>
    e :: (if bitOf (s.num e.key 8) 1 then treeUnder s n (bitsOf (s.num e.key 8) 16 36 * pageBytes) e.va else [])

/-- The root table of a context. -/
def rootTable (s : State) (ctx : Nat) : Nat := bitsOf (s.ctx ctx).ttb.toNat 12 40 * 2 ^ 12

/-- The present entries of a context's page tree. -/
def treeOf (s : State) (ctx : Nat) : List TreeEntry := if (s.ctx ctx).ttb = 0 then [] else treeUnder s 2 (rootTable s ctx) 0

/-- Where the lowest free range of any size can begin: behind a present page, the tensor heap or the frame heap, or at the
beginning of the space. -/
def rangeStarts (s : State) (ctx : Nat) : List Nat :=
  let c := s.ctx ctx
  let up := fun (a : Nat) => roundUp a pageBytes
  pageBytes :: 0 :: up c.thl.toNat :: up c.fhl.toNat :: (treeOf s ctx).map fun e => e.va + 2 ^ levelBits e.lvl

/-- A free range that begins below a limit: at a chosen page where it is free there, else at the first place of those where one
can begin. -/
def findRange (s : State) (ctx n limit from_ : Nat) : Option Nat :=
  (from_ % (ceilDiv limit pageBytes) * pageBytes :: rangeStarts s ctx).find? fun b =>
    b < limit && !rangesMeet b n 0x3F000000000000 0x40000000000000 && rangeFree s ctx b n

/-- Step 3 of R432: the base. [DESIGN CHOICE, log 86] -/
def chooseBase (s : State) (ctx : Nat) (m : List Byte) (required : Nat) : Option (Nat × State) :=
  let n := roundUp (imLoadSize m) pageBytes
  if required ≠ 0 then (if required % pageBytes = 0 && rangeFree s ctx required n then some (required, s) else none)
  else if rangeFree s ctx (imBasep m) n then some (imBasep m, s)
  else
    let p := s.pick (2 ^ 38)
    let inLow := if (relsOf m).any (fun r => r.kind = 2 || r.kind = 3) then
      findRange s ctx n (2 ^ 32 - imLoadSize m) p.1 else none
    (inLow.or (findRange s ctx n (2 ^ 54) p.1)).map fun b => (b, p.2)

/-- A store of the service, performed at the home. -/
def serviceStore (s : State) (key : Nat) (bytes : List Byte) : State :=
  let cells := (List.range bytes.length).map fun i => (key + i, bytes.getD i 0, (0xFF : Byte))
  (s.clearPoison cells).performHome cells 0

/-- The frames of device memory, 64 KiB each, that the service hands out: a chosen one where it is free, and ranges of
physical bytes that are in use. [DESIGN CHOICE, log 86] -/
structure Frames where
  first : Nat
  busy : List (Nat × Nat)
  deriving DecidableEq, Repr

/-- The device memory that a present entry of a page tree takes: a table, or the page of a leaf. -/
def TreeEntry.bytes (e : TreeEntry) (s : State) : List (Nat × Nat) :=
  let w := s.num e.key 8
  let a := bitsOf w 16 36 * pageBytes
  if e.lvl ≠ 0 && bitOf w 1 then [(a, pageBytes)]
  else if bitsOf w 8 2 = 0 || (bitsOf w 8 2 = 1 && bitsOf w 10 6 = s.dev.devid) then [(a, 2 ^ levelBits e.lvl)] else []

/-- The device memory that the contexts use: the root tables, what the trees hold, the frame heaps. -/
def State.framesUsed (s : State) : List (Nat × Nat) :=
  s.ctxs.flatMap fun c => (rootTable s c.1, tableBytes 2) :: (c.2.fhb.toNat, c.2.fhl.toNat - c.2.fhb.toNat)
    :: (treeOf s c.1).flatMap fun e => e.bytes s

/-- The next frame's physical address; none where every frame is in use. -/
def Frames.next (f : Frames) : Option (Nat × Frames) :=
  let starts := f.first % (Config.hbmBytes / pageBytes) * pageBytes :: 0 :: f.busy.map fun r => roundUp (r.1 + r.2) pageBytes
  (starts.find? fun a => a + pageBytes ≤ Config.hbmBytes && f.busy.all fun r => !rangesMeet a pageBytes r.1 (r.1 + r.2)).map
    fun a => (a, { f with busy := (a, pageBytes) :: f.busy })

/-- The table that an entry names, made zero where the entry is not present (R411, R412). -/
def tableUnder (s : State) (fr : Frames) (entry : Nat) : Option (Nat × Frames × State) :=
  let e := s.num entry 8
  if bitOf e 0 then some (bitsOf e 16 36 * pageBytes, fr, s)
  else fr.next.map fun t => (t.1, t.2, serviceStore (s.zero t.1 pageBytes) entry (bytesOfNat 8 (t.1 + 3)))

/-- Places of the entries of an address in the root and in a level-1 table. -/
def rootEntry (s : State) (ctx va : Nat) : Nat := rootTable s ctx + 8 * (va / 2 ^ 42 % 4096)
def tableEntry (t va bits : Nat) : Nat := t + 8 * (va / 2 ^ bits % 8192)

/-- Maps one page on the next frame, with its bytes (R432, steps 4 and 5). -/
def mapPage (s : State) (ctx va leaf : Nat) (bytes : List Byte) (fr : Frames) : Option (Frames × State) :=
  (tableUnder s fr (rootEntry s ctx va)).bind fun t1 => (tableUnder t1.2.2 t1.2.1 (tableEntry t1.1 va 29)).bind fun t0 =>
    t0.2.1.next.map fun p =>
      let s1 := serviceStore t0.2.2 (tableEntry t0.1 va 16) (bytesOfNat 8 (p.1 + leaf))
      (p.2, serviceStore (s1.zero p.1 pageBytes) p.1 bytes)

/-- The leaf bits of page i: P, R, U, then W and X (R432, step 4). -/
def leafBits (m : List Byte) (flags i : Nat) : Nat :=
  let lo := i * pageBytes
  let code := decide (lo < imCode m)
  let got := rangesMeet lo pageBytes (imGot m) (imGot m + 8 * imNgot m)
  let w := if code then bitOf flags 0 else if got then true else bitOf flags 1
  1 + 4 + (if w then 8 else 0) + (if code then 16 else 0) + 32

/-- Every page of a block; none where the frames do not suffice. -/
def mapPages (s : State) (ctx b flags : Nat) (m blk : List Byte) (fr : Frames) : Option State :=
  ((List.range (ceilDiv (imLoadSize m) pageBytes)).foldl (fun (x : Option (Frames × State)) i => x.bind fun q =>
    mapPage q.2 ctx (b + i * pageBytes) (leafBits m flags i) ((blk.drop (i * pageBytes)).take pageBytes) q.1)
      (some (fr, s))).map (·.2)

/-- ICINV at device scope for every line of the pages of a range (R432, step 7). -/
def icinvRange (s : State) (ctx b n : Nat) : State :=
  let keys := (List.range (n / pageBytes)).filterMap fun i => match walk s 0 ctx (b + i * pageBytes) with
    | .leaf e => some ((e.place s.dev.devid (b + i * pageBytes)).key / pageBytes)
    | _ => none
  { s with cores := s.cores.map fun c => (c.1, { c.2 with
      code := c.2.code.filter fun l => !keys.contains (l.1 * 128 / pageBytes) }) }

/-! ### The services (R404, R432, R433, R439) -/

/-- What the service writes into a GOT entry: the address of its symbol, or a value that is no marker (R439). -/
def boundValue (c : Ctx) (ea : DWord) : DWord :=
  (((c.images.findSome? fun i => (i.binds.find? fun x => x.1 = ea).map (·.2)).bind c.symbol)).getD
    (0xFF40000000000000#64 ||| ea)

/-- The service answers a record 0xFFF1 by a release store at system scope (R439); none while the store must wait. -/
def answerBind (s : State) (r : SvcRec) : Option State :=
  (droverWrite s r.ctx 1 noLaunch r.addr.toNat (bytesOfNat 8 (boundValue (s.ctx r.ctx) r.addr).toNat)).orKeep s id

/-- The reply word of R432. -/
def loadReply (status detail : Nat) : Nat := 2 ^ 63 + status + detail % 2 ^ 32 * 2 ^ 8

/-- The level with whose rights the service acts: 0 for a packet's request (R384), that of its team for a fibre's.
[DEDUCED, log 83] -/
def SvcRec.level (r : SvcRec) (s : State) : Nat :=
  ((s.teams.find? fun t => t.2.ctx = r.ctx && t.2.index = r.team).map fun t => t.2.pl.toNat).getD 0

/-- Writes bytes of a request block by a release store at system scope; none while it must wait. -/
def serviceWrite (s : State) (r : SvcRec) (va : DWord) (bytes : List Byte) : Option State :=
  (droverWrite s r.ctx (r.level s) noLaunch va.toNat bytes).orKeep s id

/-- Reads bytes of the requesting context, none where the request has no right to them. -/
def serviceRead (s : State) (r : SvcRec) (va n : Nat) : Option (List Byte) :=
  match droverRead s r.ctx (r.level s) noLaunch va n with
  | .ok r => some r.1
  | _ => none

/-- A load: the base with the state that holds the image, or the status and detail of R433 (R432); without frames for it, status 6
and detail 0. [DESIGN CHOICE, log 86] -/
def loadImage (s : State) (ctx : Nat) (b : List Byte) (required flags : Nat) : Except (Nat × Nat) (Nat × State) :=
  match containerBad b b.length with
  | some o => .error (1, o)
  | none => match selectImage b with
    | none => .error (2, 0)
    | some i =>
      let e := dirEntry b i
      let m := imageBytesOf b i
      match imageBad m with
      | some o => .error (1, e.1 + o)
      | none => match (if e.2.2 = 1 then verifyFails m else none) with
        | some o => .error (3, o)
        | none => match (if (s.ctx ctx).ttb = 0 then none else chooseBase s ctx m required) with
          | none => .error (6, 0)
          | some (base, s1) => match relocateAll (s1.ctx ctx) m base 0 (relsOf m) (loadBlock m) with
            | .error x => .error x
            | .ok blk =>
              let n := roundUp (imLoadSize m) pageBytes
              let p := s1.pick (Config.hbmBytes / pageBytes)
              match mapPages p.2 ctx base flags m blk ⟨p.1, p.2.framesUsed⟩ with
              | none => .error (6, 0)
              | some s2 =>
              let s2 := icinvRange s2 ctx base (roundUp (imCode m) pageBytes)
              let image := Image.mk (dword base) n ((List.range (pkNum m 0x1C 4)).map (kernelAt m base)) (exportsAt m base)
                (bindsAt m base)
              .ok (base, s2.modCtx ctx fun c => { c with images := c.images ++ [image] })

/-- The container of a request: its header gives its size. An unreadable one is malformed at 0. [DEDUCED, log 84] -/
def readContainer (s : State) (r : SvcRec) (va : Nat) : List Byte :=
  match serviceRead s r va 64 with
  | none => []
  | some h => (serviceRead s r va (pkNum h 8 8)).getD []

/-- The service's load for a record (R432): a failure leaves everything but the reply as it was; none while a store of the reply
must wait. [DEDUCED, log 83] -/
def serveLoad (s : State) (r : SvcRec) : Option State :=
  match serviceRead s r r.addr.toNat 64 with
  | none => some s
  | some blk => match loadImage s r.ctx (readContainer s r (pkNum blk 8 8)) (pkNum blk 0x10 8) (pkNum blk 0x18 4) with
    | .error (st, d) => serviceWrite s r r.addr (bytesOfNat 8 (loadReply st d))
    | .ok (base, s2) => (serviceWrite s2 r (r.addr + 0x20) (bytesOfNat 8 base)).bind fun s3 =>
        serviceWrite s3 r r.addr (bytesOfNat 8 (loadReply 0 0))

/-- A context holds a team, or an accepted launch (R381), whose CODE is a base (R433). -/
def codeInUse (s : State) (ctx base : Nat) : Bool :=
  let runs := fun (l : Launch) => decide (l.ctx = ctx) && decide (pkNum l.bytes 8 8 = base)
  (s.launches.any fun l => runs l.2 && l.2.accepted)
    || s.teams.any fun t => t.2.ctx = ctx && (tabGet s.launches t.2.launch).any runs

/-- Clears the leaf of a page and its TLB entries. -/
def unmapPage (s : State) (ctx va : Nat) : State :=
  let e2 := s.num (rootEntry s ctx va) 8
  let e1 := s.num (tableEntry (bitsOf e2 16 36 * pageBytes) va 29) 8
  let s1 := if bitOf e2 0 && bitOf e2 1 && bitOf e1 0 && bitOf e1 1 then
      serviceStore s (tableEntry (bitsOf e1 16 36 * pageBytes) va 16) (List.replicate 8 0)
    else s
  dropTlb s1 fun t => t.covers ctx va

/-- The unload of an image: the status with the state (R433). -/
def unloadImage (s : State) (ctx base : Nat) : Nat × State :=
  match (s.ctx ctx).images.find? fun i => i.base.toNat = base with
  | none => (9, s)
  | some i =>
    if codeInUse s ctx base then (8, s)
    else (0, ((List.range (i.size / pageBytes)).foldl (fun s k => unmapPage s ctx (base + k * pageBytes)) s).modCtx ctx
      fun c => { c with images := c.images.filter fun x => x.base.toNat ≠ base })

/-- The service's unload for a record (R433). -/
def serveUnload (s : State) (r : SvcRec) : Option State :=
  match serviceRead s r r.addr.toNat 64 with
  | none => some s
  | some blk =>
    let u := unloadImage s r.ctx (pkNum blk 0x10 8)
    serviceWrite u.2 r r.addr (bytesOfNat 8 (loadReply u.1 0))

/-! ### The queue of records (R404) -/

/-- The service answers a record; none while a store of its answer must wait. A record of another number has no answer that the
spec gives. [DEDUCED, log 83] -/
def serveRecord (s : State) (r : SvcRec) : Option State :=
  if r.number = 0x10 then serveLoad s r
  else if r.number = 0x11 then serveUnload s r
  else if r.number = 0xFFF1 then answerBind s r
  else some s

/-- Takes the first record of a context's queue, into which an announcement that has waited for room moves up, and answers it. -/
def serveFirst (s : State) (ctx : Nat) : Option State :=
  match (s.ctx ctx).svcQ with
  | [] => some s
  | r :: rest =>
    let late := (s.ctx ctx).announce
    let room := 1024 - rest.length
    serveRecord (s.modCtx ctx fun c => { c with svcQ := rest ++ late.take room, announce := late.drop room }) r

/-- The service takes records in order (R404): those of a context up to the first that a test selects. The state as it was where
there is none, or where a store of an answer must wait. [DEDUCED, log 83] -/
def serveThrough (s : State) (ctx : Nat) (sel : SvcRec → Bool) : State :=
  match indexOf? sel (s.ctx ctx).svcQ 0 with
  | none => s
  | some i => ((List.range (i + 1)).foldl (fun (o : Option State) _ => o.bind fun s => serveFirst s ctx) (some s)).getD s

/-- SERVICE_LOAD (R432). -/
def execServiceLoad (ctx : Nat) (s : State) : Out := .next (serveThrough s ctx fun r => r.number = 0x10)

/-- SERVICE_UNLOAD (R433). -/
def execServiceUnload (ctx : Nat) (s : State) : Out := .next (serveThrough s ctx fun r => r.number = 0x11)

/-- The service comes to the record of a GOT entry, where its context's queue holds one (R439). -/
def serveBind (s : State) (ctx : Nat) (ea : DWord) : State := serveThrough s ctx fun r => r.number = 0xFFF1 && r.addr = ea

/-- The BindEntry of a fibre that is due (R438). -/
def bindDue (s : State) (f : Nat) : State :=
  match (s.fib f).loc with
  | .parked (.bind ea reg) => bindEntry s f ea reg
  | _ => s

/-- BIND_WAKE (R438, R439): a fibre that a store to its entry has woken calls BindEntry; for one still parked on the entry the
service first comes to the entry's record, whose answer is such a store. [DEDUCED, log 83] -/
def execBindWake (fibre : Nat) (s : State) : Out :=
  .next (match (s.fib fibre).loc with
    | .parked (.entry _ ea _) => bindDue (serveBind s (s.ctxOf fibre) ea) fibre
    | _ => bindDue s fibre)

end Sys2Proof.Machine
end

