-- ==== Sys2Proof/Machine/Manage.lean ====
section
/-! DEFINITION. Reset, boot, firmware, attestation, the Baszer sideband, power and clocks (R16, R464 to R471). -/

namespace Sys2Proof.Machine

/-! ### Function-level reset (R464, R465) -/

/-- Step 2: the device's accesses to host memory end without effect. -/
def dropHostStores (s : State) : State :=
  let keep := fun (r : StoreReq) => !r.cells.any fun c => decide (levelOf c.1 = .host)
  { s with
    fibres := s.fibres.map fun f => (f.1, { f.2 with queue := f.2.queue.filter keep }),
    cores := s.cores.map fun c => (c.1, { c.2 with order := c.2.order.filter keep }) }

/-- Step 3: every context is torn down and nothing is written. A store that must wait is ended by the reset: the steps 2 to 4 of
R395 are then taken, and step 4 of the reset removes the teams. -/
def dropContexts (s : State) : State :=
  (s.ctxs.map (·.1)).foldl (fun s cx =>
    let forced := dropGrants (dropSegments (dropFaults (settleDirty s cx) cx) cx) cx
    (tearDown s cx false).getD { forced with ctxs := tabDel forced.ctxs cx }) s

/-- What a core keeps: whether it is contained, and its spare rods (R463, R465). -/
def bareCore (c : Core) : Core := { Core.reset with contained := c.contained, spareRods := c.spareRods }

/-- Step 4: no queue is installed, every buffer and core is zero, and every line's stamps, tag and versions are at reset (R12, R340). -/
def zeroBuffers (s : State) : State :=
  { s with
    mem := s.mem.filter fun c => c.1 < 2 ^ 62
    lines := []
    clusters := []
    cores := []
    ctxs := [], teams := [], fibres := [], flocks := [], folds := [], faults := [], windows := [], events := []
    queues := [], launches := [], images := [], runs := [] }

/-- FUNCTION_LEVEL_RESET (R464, R465), steps 1 to 5: the heartbeat, the time base, the links, DEVID, the bases that the host has
set, the spare units in use, the poison and Baszer stay; SPAREMAP reads its reset value (R12, R241). Until the next heartbeat
tick, which ends it, the port answers as step 1 says. [DESIGN CHOICE, log 94] -/
def execFunctionLevelReset (s : State) : Out :=
  let s1 := zeroBuffers (dropContexts (dropHostStores s))
  let dev := { s.dev with
    errors := s1.dev.errors, poisoned := s1.dev.poisoned, inReset := true
    ctxsel := 0, wdt := Device.reset.wdt, sparemap := 0, hbRun := true, hostLines := [], acks := [], tornAt := [], atomScope := [] }
  .next { s1 with dev := dev, cores := s.cores.map fun c => (c.1, bareCore c.2) }

/-! ### Power (R16, R391, R470, R471) -/

/-- The compute and I/O dies without power: what Baszer and the fuses hold stays, the spare maps with them (R469); SPAREMAP is at its
reset value (R12). [DEDUCED, log 96] -/
def powerLost (s : State) : State :=
  { State.reset with
    dev := { Device.reset with
      spareSlices := s.dev.spareSlices, spareRows := s.dev.spareRows,
      spareChannels := s.dev.spareChannels, spareCores := s.dev.spareCores, spareLanes := s.dev.spareLanes, rollback := s.dev.rollback,
      fwVersion := s.dev.fwVersion, fwPending := s.dev.fwPending, errors := s.dev.errors, responses := s.dev.responses,
      svcEntry := s.dev.svcEntry, booted := 0, computeOn := false, hbRun := false }
    cores := s.cores.map fun c => (c.1, { Core.reset with spareRods := c.2.spareRods })
    outbox := s.outbox, agenda := s.agenda, picks := s.picks, free := s.free, seq := s.seq }

/-- Power returns: the heartbeat starts from 0 at an instant of the time base that the spec does not fix (R391), and the
compute side is held until the boot ends (R467). [DESIGN CHOICE, log 12] [DEDUCED, log 96] -/
def powered (s : State) : State :=
  { s with dev := { s.dev with tb0 := Config.freeWord s.free, hbRun := true }, free := s.free + 1 }

/-- POWER_ON (R16, R391): Baszer starts anew too; the fuses stay. -/
def execPowerOn (s : State) : Out :=
  let s1 := powerLost s
  .next (powered (s1.modDev fun d => { d with errors := [], responses := [] }))

/-- POWER_CYCLE (R470). -/
def execPowerCycle (s : State) : Out := .next (powered (powerLost s))

/-- THERMAL_SHUTDOWN (R471): the compute side is powered down, and Baszer reports it. -/
def execThermalShutdown (s : State) : Out := .next ((powerLost s).send (.sideband 0x71 []))

/-- THERMAL_THROTTLE (R471): a step of 100 MHz, down, or up to 2.7 GHz. -/
def execThermalThrottle (down : Bool) (s : State) : Out :=
  .next (s.modDev fun d => { d with
    clockMHz := if down then d.clockMHz - 100 else Nat.min 2700 (d.clockMHz + 100) })

/-! ### Boot and firmware (R467, R468) -/

/-- The place of a stage in the order of the boot. -/
def stageIndex : BootStage → Nat
  | .baszer => 0 | .ioDie => 1 | .shepherd => 2 | .drover => 3

/-- An image that both signatures and the rollback counter admit: it carries its security version (R468). -/
def imageGood (s : State) (image : List Byte) : Bool :=
  signedWell image && s.dev.rollback.toNat ≤ (Config.imageVersion image).toNat

/-- A shepherd-core image that boot has verified: its self-test runs on shepherd core 0 at level 2, from an entry in the image
whose place the spec does not give (R32, R468). [DESIGN CHOICE, log 94] -/
def startFirmware (s : State) (image : List Byte) : State :=
  startOwn s 0 2 (Config.imageEntry image) 0 0

/-- BOOT_VERIFY (R467, R468): the next stage in order; a failure halts it with the compute side held in reset. [DESIGN CHOICE, log 94] -/
def execBootVerify (stage : BootStage) (image : List Byte) (s : State) : Out :=
  .next (if s.dev.bootFailed || s.dev.booted ≠ stageIndex stage then s
    else if imageGood s image then
      (if stage = .shepherd then startFirmware s image else s).modDev fun d => { d with
        fwImages := tabPut d.fwImages (stageIndex stage) image
        booted := d.booted + 1, computeOn := decide (d.booted + 1 = 4) }
    else (s.modDev fun d => { d with bootFailed := true, computeOn := false }).send
      (.sideband 0x67 [BitVec.ofNat 8 (stageIndex stage)]))

/-- FIRMWARE_UPDATE (R468): refused below the counter; the counter rises only once the BMC has confirmed. The image's own version
counts, whatever number comes with it. -/
def execFirmwareUpdate (image : List Byte) (_version : BitVec 16) (confirmed : Bool) (s : State) : Out :=
  let v := Config.imageVersion image
  .next (if !imageGood s image then s.send (.sideband 0x68 [])
    else if confirmed then s.modDev fun d => { d with fwVersion := v, fwPending := none, rollback := v }
    else s.modDev fun d => { d with fwVersion := v, fwPending := some v })

/-! ### Baszer's answers (R469, R470) -/

/-- An answer of Baszer: the request's code and the bytes. [DESIGN CHOICE, log 93] -/
def respond (s : State) (code : Nat) (bytes : List Byte) : State :=
  s.modDev fun d => { d with responses := d.responses ++ [(code, bytes)] }

/-- SPDM_REQUEST (R469), over MCTP on the sideband. -/
def execSpdmRequest (request : List Byte) (s : State) : Out := .next (respond s 0 (spdmAnswer s request))

/-- The number of a sensor. -/
def sensorIndex : Sensor → Nat × Nat
  | .temperature u => (0, u)
  | .power => (1, 0)
  | .rail n => (2, n)

/-- SENSOR_READ (R470): the reading is a free value. -/
def execSensorRead (sensor : Sensor) (s : State) : Out :=
  let i := sensorIndex sensor
  .next (respond { s with free := s.free + 1 } 1 (bytesOfNat 4 (Config.sensor (s.free * 4 + i.1) i.2)))

/-- A record of the error log. [DESIGN CHOICE, log 93] -/
def logBytes (e : LogEntry) : List Byte :=
  bytesOfNat 8 e.time ++ bytesOfNat 4 e.agent ++ bytesOfNat 4 e.index ++ bytesOfNat 8 e.kind ++ bytesOfNat 8 e.addr

/-- ERROR_LOG (R470): the newest 4096 records. -/
def execErrorLog (s : State) : Out := .next (respond s 2 (s.dev.errors.flatMap logBytes))

/-- SPARE_STATE (R470): SPAREMAP, then the cores, slices, pseudo-channels, rods and link lanes left, and the HBM rows that have moved,
of whose spares the spec gives no number. [DESIGN CHOICE, log 93] -/
def execSpareState (s : State) : Out :=
  let d := s.dev
  let rods := (List.range 26).flatMap fun c => bytesOfNat 1 (8 - (s.core c).spareRods.length)
  let lanes := (List.range 16).flatMap fun l => bytesOfNat 1 (1 - tabGetD d.spareLanes l 0)
  .next (respond s 3 (bytesOfNat 2 d.sparemap.toNat ++ bytesOfNat 1 (2 - d.spareCores.length)
    ++ bytesOfNat 1 (8 - d.spareSlices.length) ++ bytesOfNat 1 (16 - d.spareChannels.length) ++ rods ++ lanes
    ++ bytesOfNat 4 d.spareRows.length))

/-- CONTEXT_SUMMARY (R470): number and CSTATE of each allocated context. -/
def execContextSummary (s : State) : Out :=
  .next (respond s 4 ((s.ctxs.filter fun c => c.2.st ≠ .free).flatMap fun c =>
    bytesOfNat 2 c.1 ++ bytesOfNat 1 c.2.st.code))

end Sys2Proof.Machine
end

