-- ==== Sys2Proof/Machine/Dispatch.lean ====
section
/-! DEFINITION. The dispatcher: one arm per constructor of Instr, each one call of its meaning. -/

namespace Sys2Proof.Machine

def exec (i : Instr) (s : State) : Host.Outcome State Fault Refusal :=
  match i with
  | .add g o sat => Sys2Proof.Machine.execAdd g o sat s
  | .sub g o sat => Sys2Proof.Machine.execSub g o sat s
  | .mul g o => Sys2Proof.Machine.execMul g o s
  | .mulhi g o u => Sys2Proof.Machine.execMulhi g o u s
  | .mad g o => Sys2Proof.Machine.execMad g o s
  | .div g o u => Sys2Proof.Machine.execDiv g o u s
  | .rem g o u => Sys2Proof.Machine.execRem g o u s
  | .min g o u => Sys2Proof.Machine.execMin g o u s
  | .max g o u => Sys2Proof.Machine.execMax g o u s
  | .and g o nb => Sys2Proof.Machine.execAnd g o nb s
  | .or g o nb => Sys2Proof.Machine.execOr g o nb s
  | .xor g o nb => Sys2Proof.Machine.execXor g o nb s
  | .shl g o => Sys2Proof.Machine.execShl g o s
  | .shr g o => Sys2Proof.Machine.execShr g o s
  | .sar g o => Sys2Proof.Machine.execSar g o s
  | .rot g o => Sys2Proof.Machine.execRot g o s
  | .bfx g o sgn => Sys2Proof.Machine.execBfx g o sgn s
  | .bfi g o => Sys2Proof.Machine.execBfi g o s
  | .clz g o => Sys2Proof.Machine.execClz g o s
  | .popc g o => Sys2Proof.Machine.execPopc g o s
  | .brev g o => Sys2Proof.Machine.execBrev g o s
  | .sel g d a b p => Sys2Proof.Machine.execSel g d a b p s
  | .icmp g p a b cond u comb => Sys2Proof.Machine.execIcmp g p a b cond u comb s
  | .mov g o => Sys2Proof.Machine.execMov g o s
  | .addd g o bw => Sys2Proof.Machine.execAddd g o bw s
  | .subd g o bw => Sys2Proof.Machine.execSubd g o bw s
  | .muld g o => Sys2Proof.Machine.execMuld g o s
  | .shld g o => Sys2Proof.Machine.execShld g o s
  | .shrd g o => Sys2Proof.Machine.execShrd g o s
  | .sard g o => Sys2Proof.Machine.execSard g o s
  | .icmpd g p a b cond u comb => Sys2Proof.Machine.execIcmpd g p a b cond u comb s
  | .movd g o => Sys2Proof.Machine.execMovd g o s
  | .andd g o => Sys2Proof.Machine.execAndd g o s
  | .ord g o => Sys2Proof.Machine.execOrd g o s
  | .xord g o => Sys2Proof.Machine.execXord g o s
  | .addi g o => Sys2Proof.Machine.execAddi g o s
  | .muli g o => Sys2Proof.Machine.execMuli g o s
  | .andi g o => Sys2Proof.Machine.execAndi g o s
  | .ori g o => Sys2Proof.Machine.execOri g o s
  | .xori g o => Sys2Proof.Machine.execXori g o s
  | .shli g o => Sys2Proof.Machine.execShli g o s
  | .shri g o => Sys2Proof.Machine.execShri g o s
  | .sari g o => Sys2Proof.Machine.execSari g o s
  | .icmpi g p a imm cond u comb => Sys2Proof.Machine.execIcmpi g p a imm cond u comb s
  | .adddi g o => Sys2Proof.Machine.execAdddi g o s
  | .movi g ud d imm => Sys2Proof.Machine.execMovi g ud d imm s
  | .lui g ud d imm => Sys2Proof.Machine.execLui g ud d imm s
  | .aupc g ud d imm => Sys2Proof.Machine.execAupc g ud d imm s
  | .lup g ud d imm => Sys2Proof.Machine.execLup g ud d imm s
  | .fadd g o m rm => Sys2Proof.Machine.execFadd g o m rm s
  | .fsub g o m rm => Sys2Proof.Machine.execFsub g o m rm s
  | .fmul g o m rm => Sys2Proof.Machine.execFmul g o m rm s
  | .ffma g o m rm => Sys2Proof.Machine.execFfma g o m rm s
  | .fdiv g o m rm => Sys2Proof.Machine.execFdiv g o m rm s
  | .fsqrt g o m rm => Sys2Proof.Machine.execFsqrt g o m rm s
  | .fmin g o m nan => Sys2Proof.Machine.execFmin g o m nan s
  | .fmax g o m nan => Sys2Proof.Machine.execFmax g o m nan s
  | .fcmp g p a b fmt cond sgn => Sys2Proof.Machine.execFcmp g p a b fmt cond sgn s
  | .frcp g o m => Sys2Proof.Machine.execFrcp g o m s
  | .frsq g o m => Sys2Proof.Machine.execFrsq g o m s
  | .fexp2 g o m => Sys2Proof.Machine.execFexp2 g o m s
  | .flog2 g o m => Sys2Proof.Machine.execFlog2 g o m s
  | .fabs g o m => Sys2Proof.Machine.execFabs g o m s
  | .fneg g o m => Sys2Proof.Machine.execFneg g o m s
  | .fclass g o m => Sys2Proof.Machine.execFclass g o m s
  | .cvt g d a dst src rm sat => Sys2Proof.Machine.execCvt g d a dst src rm sat s
  | .pack g d a c w j => Sys2Proof.Machine.execPack g d a c w j s
  | .unpk g d a w j sgn => Sys2Proof.Machine.execUnpk g d a w j sgn s
  | .pand g p a b na nb => Sys2Proof.Machine.execPand g p a b na nb s
  | .por g p a b na nb => Sys2Proof.Machine.execPor g p a b na nb s
  | .pxor g p a b na nb => Sys2Proof.Machine.execPxor g p a b na nb s
  | .pnot g p a => Sys2Proof.Machine.execPnot g p a s
  | .pset g p a z => Sys2Proof.Machine.execPset g p a z s
  | .part g d a pw dbl => Sys2Proof.Machine.execPart g d a pw dbl s
  | .shfl g d a b pw mode dbl => Sys2Proof.Machine.execShfl g d a b pw mode dbl s
  | .vote g d a pw mode dbl => Sys2Proof.Machine.execVote g d a pw mode dbl s
  | .redu g d a pw op dbl => Sys2Proof.Machine.execRedu g d a pw op dbl s
  | .movu g d a sel dbl => Sys2Proof.Machine.execMovu g d a sel dbl s
  | .srd g ud d n => Sys2Proof.Machine.execSrd g ud d n s
  | .swr g n a => Sys2Proof.Machine.execSwr g n a s
  | .bra g off => Sys2Proof.Machine.execBra g off s
  | .call g d off => Sys2Proof.Machine.execCall g d off s
  | .calls g d off => Sys2Proof.Machine.execCalls g d off s
  | .ret g a => Sys2Proof.Machine.execRet g a s
  | .retS g => Sys2Proof.Machine.execRetS g s
  | .brx g a b => Sys2Proof.Machine.execBrx g a b s
  | .callx g d a b => Sys2Proof.Machine.execCallx g d a b s
  | .reform g => Sys2Proof.Machine.execReform g s
  | .backoff g p => Sys2Proof.Machine.execBackoff g p s
  | .nop g => Sys2Proof.Machine.execNop g s
  | .exit g => Sys2Proof.Machine.execExit g s
  | .spawn g x d off => Sys2Proof.Machine.execSpawn g x d off s
  | .hinst g ve k off => Sys2Proof.Machine.execHinst g ve k off s
  | .hdrop g => Sys2Proof.Machine.execHdrop g s
  | .perf g d a b r => Sys2Proof.Machine.execPerf g d a b r s
  | .rsm g a b => Sys2Proof.Machine.execRsm g a b s
  | .rsmt g a b => Sys2Proof.Machine.execRsmt g a b s
  | .dropk g a => Sys2Proof.Machine.execDropk g a s
  | .ksend g d a b c => Sys2Proof.Machine.execKsend g d a b c s
  | .kinfo g d sel => Sys2Proof.Machine.execKinfo g d sel s
  | .ld g m => Sys2Proof.Machine.execLd g m s
  | .st g m => Sys2Proof.Machine.execSt g m s
  | .lds g m => Sys2Proof.Machine.execLds g m s
  | .sts g m => Sys2Proof.Machine.execSts g m s
  | .atom g m op nr => Sys2Proof.Machine.execAtom g m op nr s
  | .atomd g m op nr => Sys2Proof.Machine.execAtomd g m op nr s
  | .cas g m c => Sys2Proof.Machine.execCas g m c s
  | .casd g m c => Sys2Proof.Machine.execCasd g m c s
  | .lnset g m => Sys2Proof.Machine.execLnset g m s
  | .lnclr g m => Sys2Proof.Machine.execLnclr g m s
  | .fence g scope ord => Sys2Proof.Machine.execFence g scope ord s
  | .fenceSc g scope => Sys2Proof.Machine.execFenceSc g scope s
  | .fopen g n => Sys2Proof.Machine.execFopen g n s
  | .fseal g d n => Sys2Proof.Machine.execFseal g d n s
  | .fabort g d n => Sys2Proof.Machine.execFabort g d n s
  | .view g d stamp => Sys2Proof.Machine.execView g d stamp s
  | .baraArrive g d m => Sys2Proof.Machine.execBaraArrive g d m s
  | .baraInit g d m => Sys2Proof.Machine.execBaraInit g d m s
  | .baraLeave g d m => Sys2Proof.Machine.execBaraLeave g d m s
  | .baraKill g d m => Sys2Proof.Machine.execBaraKill g d m s
  | .barw g d m => Sys2Proof.Machine.execBarw g d m s
  | .icinv g m => Sys2Proof.Machine.execIcinv g m s
  | .isync g => Sys2Proof.Machine.execIsync g s
  | .tdef g d a b chain ready => Sys2Proof.Machine.execTdef g d a b chain ready s
  | .ttag g a b => Sys2Proof.Machine.execTtag g a b s
  | .tqry g d a sel => Sys2Proof.Machine.execTqry g d a sel s
  | .twait g a empty => Sys2Proof.Machine.execTwait g a empty s
  | .trel g a u => Sys2Proof.Machine.execTrel g a u s
  | .tld g d a b c ft => Sys2Proof.Machine.execTld g d a b c ft s
  | .tst g d a b c ft => Sys2Proof.Machine.execTst g d a b c ft s
  | .qst g d a b keep n cy ft => Sys2Proof.Machine.execQst g d a b keep n cy ft s
  | .cyrd g d cy => Sys2Proof.Machine.execCyrd g d cy s
  | .cywr g a cy => Sys2Proof.Machine.execCywr g a cy s
  | .mready g a => Sys2Proof.Machine.execMready g a s
  | .mloop g d a b c bank ft => Sys2Proof.Machine.execMloop g d a b c bank ft s
  | .mwait g bank => Sys2Proof.Machine.execMwait g bank s
  | .accrd g d a bank n => Sys2Proof.Machine.execAccrd g d a bank n s
  | .accwr g d a bank n => Sys2Proof.Machine.execAccwr g d a bank n s
  | .accz g bank => Sys2Proof.Machine.execAccz g bank s
  | .mstat g d a clr => Sys2Proof.Machine.execMstat g d a clr s
  | .tcopy g d a b tile ft => Sys2Proof.Machine.execTcopy g d a b tile ft s
  | .tcopyv g d a b c tile ft => Sys2Proof.Machine.execTcopyv g d a b c tile ft s
  | .rodld g d a b ft => Sys2Proof.Machine.execRodld g d a b ft s
  | .fork g d a b c => Sys2Proof.Machine.execFork g d a b c s
  | .rdv g a b => Sys2Proof.Machine.execRdv g a b s
  | .disp g d a b c => Sys2Proof.Machine.execDisp g d a b c s
  | .prd g ud d n => Sys2Proof.Machine.execPrd g ud d n s
  | .pwr g n a => Sys2Proof.Machine.execPwr g n a s
  | .pwrHbctl g a => Sys2Proof.Machine.execPwrHbctl g a s
  | .tlbiVa g sys a b => Sys2Proof.Machine.execTlbiVa g sys a b s
  | .tlbiCtx g sys b => Sys2Proof.Machine.execTlbiCtx g sys b s
  | .tlbiAll g sys => Sys2Proof.Machine.execTlbiAll g sys s
  | .tlbs g d a b walk => Sys2Proof.Machine.execTlbs g d a b walk s
  | .cancelfCtx g d a => Sys2Proof.Machine.execCancelfCtx g d a s
  | .cancelfPage g d a b => Sys2Proof.Machine.execCancelfPage g d a b s
  | .cancelfRec g d a b => Sys2Proof.Machine.execCancelfRec g d a b s
  | .regroup g a b hold => Sys2Proof.Machine.execRegroup g a b hold s
  | .ctxrd g ud d a n => Sys2Proof.Machine.execCtxrd g ud d a n s
  | .hbrd g ud d sub => Sys2Proof.Machine.execHbrd g ud d sub s
  | .tbrd g d n => Sys2Proof.Machine.execTbrd g d n s
  | .svc g d a b => Sys2Proof.Machine.execSvc g d a b s
  | .winrd g d a c => Sys2Proof.Machine.execWinrd g d a c s
  | .winwr g d a c => Sys2Proof.Machine.execWinwr g d a c s
  | .winwrResume shepherd window => Sys2Proof.Machine.execWinwrResume shepherd window s
  | .winwrTerminate shepherd window code => Sys2Proof.Machine.execWinwrTerminate shepherd window code s
  | .winwrClose shepherd window => Sys2Proof.Machine.execWinwrClose shepherd window s
  | .runStart core port => Sys2Proof.Machine.execRunStart core port s
  | .flockWake flock => Sys2Proof.Machine.execFlockWake flock s
  | .holdOffExpiry flock => Sys2Proof.Machine.execHoldOffExpiry flock s
  | .unchosenFlockLimit flock => Sys2Proof.Machine.execUnchosenFlockLimit flock s
  | .lagLimit flock lane => Sys2Proof.Machine.execLagLimit flock lane s
  | .penDraw core => Sys2Proof.Machine.execPenDraw core s
  | .penFibreAged fibre => Sys2Proof.Machine.execPenFibreAged fibre s
  | .flockRestore flock => Sys2Proof.Machine.execFlockRestore flock s
  | .savedFlockWaitLimit flock => Sys2Proof.Machine.execSavedFlockWaitLimit flock s
  | .storeQueueDrain fibre => Sys2Proof.Machine.execStoreQueueDrain fibre s
  | .storePerform core n => Sys2Proof.Machine.execStorePerform core n s
  | .l1MissFill cluster line => Sys2Proof.Machine.execL1MissFill cluster line s
  | .l1WriteBack cluster line => Sys2Proof.Machine.execL1WriteBack cluster line s
  | .spanInvalidate cluster line span => Sys2Proof.Machine.execSpanInvalidate cluster line span s
  | .storePending core n => Sys2Proof.Machine.execStorePending core n s
  | .foldAcknowledge fold slice => Sys2Proof.Machine.execFoldAcknowledge fold slice s
  | .foldStamp fold slice => Sys2Proof.Machine.execFoldStamp fold slice s
  | .foldConfirm fold slice => Sys2Proof.Machine.execFoldConfirm fold slice s
  | .foldSealEnd fold => Sys2Proof.Machine.execFoldSealEnd fold s
  | .homeRead cluster line view => Sys2Proof.Machine.execHomeRead cluster line view s
  | .settledStampAdvertise dev stamp => Sys2Proof.Machine.execSettledStampAdvertise dev stamp s
  | .heartbeatTick => Sys2Proof.Machine.execHeartbeatTick s
  | .matrixStep core => Sys2Proof.Machine.execMatrixStep core s
  | .matrixLoopComplete core => Sys2Proof.Machine.execMatrixLoopComplete core s
  | .accZeroComplete core bank => Sys2Proof.Machine.execAccZeroComplete core bank s
  | .tileTransferComplete core => Sys2Proof.Machine.execTileTransferComplete core s
  | .rodLoadComplete core => Sys2Proof.Machine.execRodLoadComplete core s
  | .copyPhaseRun core => Sys2Proof.Machine.execCopyPhaseRun core s
  | .copyPhaseComplete core => Sys2Proof.Machine.execCopyPhaseComplete core s
  | .engineCmdEnd core task => Sys2Proof.Machine.execEngineCmdEnd core task s
  | .engineCmdMatrixLoop core task => Sys2Proof.Machine.execEngineCmdMatrixLoop core task s
  | .engineCmdAccZero core task => Sys2Proof.Machine.execEngineCmdAccZero core task s
  | .engineCmdTileLoad core task => Sys2Proof.Machine.execEngineCmdTileLoad core task s
  | .engineCmdTileStore core task => Sys2Proof.Machine.execEngineCmdTileStore core task s
  | .engineCmdConvert core task => Sys2Proof.Machine.execEngineCmdConvert core task s
  | .engineCmdRodLoad core task => Sys2Proof.Machine.execEngineCmdRodLoad core task s
  | .engineCmdReserved core task => Sys2Proof.Machine.execEngineCmdReserved core task s
  | .taskWatchdog core task => Sys2Proof.Machine.execTaskWatchdog core task s
  | .ksendTransferReceive m => Sys2Proof.Machine.execKsendTransferReceive m s
  | .ksendComplete token status => Sys2Proof.Machine.execKsendComplete token status s
  | .parkedFibreWake fibre => Sys2Proof.Machine.execParkedFibreWake fibre s
  | .bindWake fibre => Sys2Proof.Machine.execBindWake fibre s
  | .faultRecordRewalk index => Sys2Proof.Machine.execFaultRecordRewalk index s
  | .systemEventDelivery => Sys2Proof.Machine.execSystemEventDelivery s
  | .watchdogExpiry flock => Sys2Proof.Machine.execWatchdogExpiry flock s
  | .barwWaitLimit flock => Sys2Proof.Machine.execBarwWaitLimit flock s
  | .tileStallLimit flock => Sys2Proof.Machine.execTileStallLimit flock s
  | .rdvWaitLimit flock => Sys2Proof.Machine.execRdvWaitLimit flock s
  | .doorbell dbi => Sys2Proof.Machine.execDoorbell dbi s
  | .tailInvalidate queue => Sys2Proof.Machine.execTailInvalidate queue s
  | .tailPoll drover => Sys2Proof.Machine.execTailPoll drover s
  | .queueInstall drover q => Sys2Proof.Machine.execQueueInstall drover q s
  | .packetRead queue => Sys2Proof.Machine.execPacketRead queue s
  | .serviceRequestPacket queue => Sys2Proof.Machine.execServiceRequestPacket queue s
  | .dependenceRecheck launch => Sys2Proof.Machine.execDependenceRecheck launch s
  | .launchReplicate src ctx packet => Sys2Proof.Machine.execLaunchReplicate src ctx packet s
  | .armedMessage src gen => Sys2Proof.Machine.execArmedMessage src gen s
  | .goMessage src gen => Sys2Proof.Machine.execGoMessage src gen s
  | .rejectMessage src gen => Sys2Proof.Machine.execRejectMessage src gen s
  | .abortMessage src gen => Sys2Proof.Machine.execAbortMessage src gen s
  | .armedTimeout launch => Sys2Proof.Machine.execArmedTimeout launch s
  | .startTimeRelease launch => Sys2Proof.Machine.execStartTimeRelease launch s
  | .admitTeam => Sys2Proof.Machine.execAdmitTeam s
  | .teamComplete team => Sys2Proof.Machine.execTeamComplete team s
  | .methodTableInstall launch => Sys2Proof.Machine.execMethodTableInstall launch s
  | .contextSwapOut ctx => Sys2Proof.Machine.execContextSwapOut ctx s
  | .contextSwapIn ctx => Sys2Proof.Machine.execContextSwapIn ctx s
  | .contextSuspend ctx => Sys2Proof.Machine.execContextSuspend ctx s
  | .contextTeardown ctx => Sys2Proof.Machine.execContextTeardown ctx s
  | .preempt => Sys2Proof.Machine.execPreempt s
  | .vacateCore team => Sys2Proof.Machine.execVacateCore team s
  | .teamRestore team => Sys2Proof.Machine.execTeamRestore team s
  | .chipScratchpadConvert die ctx grant => Sys2Proof.Machine.execChipScratchpadConvert die ctx grant s
  | .segmentCacheEvict core => Sys2Proof.Machine.execSegmentCacheEvict core s
  | .activeMessage queue => Sys2Proof.Machine.execActiveMessage queue s
  | .activeMessageDeliver ctx => Sys2Proof.Machine.execActiveMessageDeliver ctx s
  | .serviceLoad ctx => Sys2Proof.Machine.execServiceLoad ctx s
  | .serviceUnload ctx => Sys2Proof.Machine.execServiceUnload ctx s
  | .hostMemoryRead pa n => Sys2Proof.Machine.execHostMemoryRead pa n s
  | .hostMemoryWrite pa bytes => Sys2Proof.Machine.execHostMemoryWrite pa bytes s
  | .hostAtomic pa r => Sys2Proof.Machine.execHostAtomic pa r s
  | .hostAccessCompletion core n ok => Sys2Proof.Machine.execHostAccessCompletion core n ok s
  | .remoteAccess dev pa r => Sys2Proof.Machine.execRemoteAccess dev pa r s
  | .tlbiSysMessage src kind ctx va => Sys2Proof.Machine.execTlbiSysMessage src kind ctx va s
  | .heartbeatAgreement dev hb => Sys2Proof.Machine.execHeartbeatAgreement dev hb s
  | .linkTrain cxl width => Sys2Proof.Machine.execLinkTrain cxl width s
  | .uncorrectableError p => Sys2Proof.Machine.execUncorrectableError p s
  | .correctedError p => Sys2Proof.Machine.execCorrectedError p s
  | .agentDead kind index => Sys2Proof.Machine.execAgentDead kind index s
  | .rodSpare core rod => Sys2Proof.Machine.execRodSpare core rod s
  | .coreSpareJoin die => Sys2Proof.Machine.execCoreSpareJoin die s
  | .l2SliceSpare slice => Sys2Proof.Machine.execL2SliceSpare slice s
  | .hbmRowSpare stack row => Sys2Proof.Machine.execHbmRowSpare stack row s
  | .pseudoChannelSpare channel => Sys2Proof.Machine.execPseudoChannelSpare channel s
  | .swetexLaneSpare link => Sys2Proof.Machine.execSwetexLaneSpare link s
  | .functionLevelReset => Sys2Proof.Machine.execFunctionLevelReset s
  | .surpriseLinkLoss => Sys2Proof.Machine.execSurpriseLinkLoss s
  | .hostLinkReset => Sys2Proof.Machine.execHostLinkReset s
  | .powerOn => Sys2Proof.Machine.execPowerOn s
  | .bootVerify stage image => Sys2Proof.Machine.execBootVerify stage image s
  | .firmwareUpdate image version confirmed => Sys2Proof.Machine.execFirmwareUpdate image version confirmed s
  | .spdmRequest request => Sys2Proof.Machine.execSpdmRequest request s
  | .sensorRead st => Sys2Proof.Machine.execSensorRead st s
  | .errorLog => Sys2Proof.Machine.execErrorLog s
  | .spareState => Sys2Proof.Machine.execSpareState s
  | .contextSummary => Sys2Proof.Machine.execContextSummary s
  | .powerCycle => Sys2Proof.Machine.execPowerCycle s
  | .thermalThrottle down => Sys2Proof.Machine.execThermalThrottle down s
  | .thermalShutdown => Sys2Proof.Machine.execThermalShutdown s
  | .contextAllocation ctx => Sys2Proof.Machine.execContextAllocation ctx s
  | .contextResume ctx => Sys2Proof.Machine.execContextResume ctx s
  | .hostSnoop line => Sys2Proof.Machine.execHostSnoop line s
  | .swetexLinkTrain found => Sys2Proof.Machine.execSwetexLinkTrain found s
  | .timeBaseLock locked offset => Sys2Proof.Machine.execTimeBaseLock locked offset s

end Sys2Proof.Machine
end

