-- ==== Sys2Proof/Machine/Place.lean ====
section
/-! DEFINITION. What step needs around exec: the word checks of R89 that depend on the run, which run an issue port
serves, and how one word is placed as a running program. -/

namespace Sys2Proof.Machine

/-- The checks of DecodeInstruction after the word itself (R89): home class, clause end, uniform fields, FT and FSEL on
every active lane; then the privilege level on the lanes of GuardMask. [DEDUCED, log 20] -/
def wordFault (s : State) (r : Run) (w : Nat) (i : Instr) : Option (Mask × Eff) :=
  if !Home.permitted r.hdr.cls i.home then some (r.lanes, illegal 0x08)
  else if i.endsClause && r.idx ≠ r.hdr.count then some (r.lanes, illegal 0x09)
  else if !i.uniformInRange then some (r.lanes, illegal 0x0D)
  else if fselWithoutFt i w || ftBad i r.hdr then some (r.lanes, illegal 0x0E)
  else if (s.tm (s.flk r.flock).team).pl.toNat < i.level then some (actingMask s r i.guard, effPriv (opOf w))
  else none

/-- The first core and port that could start a run. [DESIGN CHOICE, log 1] -/
def startable (s : State) : Option (Nat × Nat) :=
  (s.flocks.find? fun p => (portChoice s p.2.core (p.2.slot.getD 0 % 4)).isSome).map fun p =>
    (p.2.core, p.2.slot.getD 0 % 4)

/-- The engine class of a clause that may hold a word (R70). -/
def classOfWord (w : Nat) : Nat :=
  match decodeWord w with
  | .ok i => i.home.code
  | .bad _ => 0

/-- One fibre of a fresh team, with a base segment where its context's frame heap has one (R108), on lane 0 of a flock of core
0, in a run whose only word is `w`: CF0 and CF1 are its SET_FLAG fields, so that a tracked instruction passes R85.
[DESIGN CHOICE, log 4] -/
def placeWord (s : State) (w : Nat) : State :=
  let t := tabFresh s.teams 0
  let f := tabFresh s.fibres 0
  let k := tabFresh s.flocks 0
  let b := baseSegment s 0 0
  let hdr : Header := ⟨classOfWord w, 1, 0, some 0, some 1, false⟩
  let fib : Fibre := { Fibre.blank with
    team := t, alloc := 64, loc := .flock k, regs := List.replicate 64 0, pc := 8, pck := .within, top := dword b.1 }
  let team : Team := { Team.blank with nbv := 1, cores := [0], roles := [⟨1, 64, false⟩], declared := 1 }
  let flock : Flock := { Flock.blank with slot := some 0, team := t, lanes := some f :: List.replicate 7 none }
  { b.2 with
    agenda := [], teams := tabPut b.2.teams t team, fibres := tabPut b.2.fibres f fib,
    flocks := tabPut b.2.flocks k flock, runs := ⟨0, k, 1, 0, hdr, [w % 2 ^ 64], 1, 0⟩ :: b.2.runs }

end Sys2Proof.Machine
end

