-- ==== Sys2Proof/Machine/Step.lean ====
section
/-! DEFINITION. One step of the machine: the turn at the head of the agenda, else the run in progress, else a run that can
start, else a heartbeat tick; and the state that has a word ready to issue. -/

namespace Sys2Proof.Machine

/-- DecodeInstruction of R89 for the next word of a run, the reads of the registers that it names, then the instruction's meaning.
[DEDUCED, log 20] -/
def issueWord (s : State) (r : Run) : Host.Outcome State Fault Refusal :=
  let w := r.words.getD (r.idx - 1) 0
  match decodeWord w with
  | .bad e => .next (raiseOn s r r.lanes false (illegal e.code))
  | .ok i =>
    match wordFault s r w i with
    | some (lanes, e) => .next (raiseOn s r lanes i.endsClause e)
    | none => match issueReads s r i with
      | none => .next (stall s r)
      | some s1 => exec i s1

/-- The turn at the head of the agenda, else the run in progress, else a run that can start, else a heartbeat tick. -/
def turn (s : State) : Host.Outcome State Fault Refusal :=
  match s.agenda with
  | .event i :: rest => exec i { s with agenda := rest }
  | .issue core port :: rest =>
    match takeRun { s with agenda := rest } core port with
    | some (r, s') => issueWord s' r
    | none => exec (.runStart core port) { s with agenda := rest }
  | [] =>
    match s.runs with
    | r :: _ => issueWord s r
    | [] => match startable s with
      | some (core, port) => exec (.runStart core port) s
      | none => exec .heartbeatTick s

/-- One step: which flocks have become eligible is noted, and then the turn is taken (R267). [DESIGN CHOICE, log 1] [DEDUCED, log 2] -/
def step (s : State) : Host.Outcome State Fault Refusal := turn (noteEligible s)

/-- The state in which the very next step issues the word `w`: a program of one clause on one fibre, placed as the log
says. [DESIGN CHOICE, log 4] -/
def State.withFetchWord (s : State) (_nbits w : Nat) : State := placeWord s w

end Sys2Proof.Machine
end

