-- ==== Sys2Proof/Safety.lean ====
section
/-! DEFINITION. What counts as a safe step and a safe run. -/

namespace Sys2Proof

/-- A step that answers a next state. -/
def Machine.State.steps (s : Machine.State) : Prop := ∃ t, Machine.step s = .next t

/-- A state from which the machine never stops within `n` steps. -/
def Machine.State.safeFor : Nat → Machine.State → Prop
  | 0, _ => True
  | n + 1, s => ∃ t, Machine.step s = .next t ∧ Machine.State.safeFor n t

end Sys2Proof
end

