-- ==== Sys2Proof/Claims.lean ====
section
/-! DEFINITION. What the statements say about an issue: which lanes act, what stays as it was, and what the acting lanes
hold afterwards. -/

namespace Sys2Proof.Machine

/-! ### What stays -/

/-- All of a fibre but its place in the code. -/
def Fibre.still (x : Fibre) : Fibre := { x with pc := 0, pck := .sequential }

/-- All of a flock but the marks that scheduling keeps: its latest run, since when it is eligible, which lanes lag, its
watchdog count. -/
def Flock.still (k : Flock) : Flock := { k with lastRun := 0, watch := 0, since := none, lag := [] }

/-- All of a core but its translations and its fetch path, which a fetch fills. -/
def Core.still (c : Core) : Core := { c with tlb := [], code := [] }

/-- All of a cluster but its translations. -/
def Cluster.still (c : Cluster) : Cluster := { c with tlb := [] }

/-- Everything of the machine outside its cores, clusters, fibres, flocks and the list of runs. -/
def State.rest (s : State) : State :=
  { s with clusters := [], cores := [], fibres := [], flocks := [], runs := [], seq := 0 }

/-- `t` is `s` but for the PCs of the fibres, the runs in progress, and what fetching the next clause fills. Every
register, every flag, every special and accumulator register and every byte of memory is the same. -/
structure Still (s t : State) : Prop where
  rest : t.rest = s.rest
  fibre : ∀ f, (tabGet t.fibres f).map Fibre.still = (tabGet s.fibres f).map Fibre.still
  flock : ∀ k, (tabGet t.flocks k).map Flock.still = (tabGet s.flocks k).map Flock.still
  core : ∀ c, (t.core c).still = (s.core c).still
  cluster : ∀ c, (t.clus c).still = (s.clus c).still

/-! ### Who acts -/

/-- The fibre of a lane of a run's flock. -/
def Run.fibre (r : Run) (s : State) (l : Nat) : Option Nat := (s.flk r.flock).fibreAt l

/-- The word at the head of the run `r` is about to issue: every active lane holds a fibre of its own, which is present, on
that lane, in this flock, and bears no cancel mark. -/
structure Issuing (s : State) (r : Run) : Prop where
  head : ∃ rest, s.runs = r :: rest
  lane : ∀ l ∈ r.lanes.lanes, ∃ f x, r.fibre s l = some f ∧ tabGet s.fibres f = some x ∧ x.home = l ∧
    x.loc = .flock r.flock ∧ x.cancel = none

/-- The fibres that GuardMask names (R22), in the order of their lanes. -/
def actors (s : State) (r : Run) (g : Guard) : List Nat := (guardMask s r g).lanes.filterMap (r.fibre s)

/-- The state with every one of some fibres replaced, from its own old contents. -/
def State.withFibres (s : State) (fs : List Nat) (new : Nat → Fibre → Fibre) : State :=
  { s with fibres := s.fibres.map fun p => if fs.contains p.1 then (p.1, new p.1 p.2) else p }

/-- The lane registers that an instruction names are the fibre's own: in its allocation, which its register list fills
(R17), the pairs even (R18), and none with a write outstanding (R19). -/
def RegsReady (i : Instr) (x : Fibre) : Prop :=
  x.regs.length = x.alloc ∧ ∀ p ∈ laneSpans i, p.1 + p.2 ≤ x.alloc ∧ (p.2 = 2 → p.1 % 2 = 0) ∧
    ∀ b ∈ x.busy, ¬ (p.1 ≤ b.1 ∧ b.1 < p.1 + p.2)

/-- The word at the head of the run `r` acts on every active lane; the fibres are `f`, of the lowest lane, and `fs`. -/
structure Whole (s : State) (r : Run) (g : Guard) (f : Nat) (fs : List Nat) : Prop extends Issuing s r where
  all : guardMask s r g = r.lanes
  acts : actors s r g = f :: fs

/-! ### Operands -/

/-- A uniform register as a fibre's flock reads it: S0 to S63 of the team, S64 to S127 of the flock (R20, R21). -/
def State.uniform (s : State) (x : Fibre) (n : BitVec 8) : DWord :=
  if n.toNat < 64 then (s.tm x.team).su.getD n.toNat 0
  else match x.loc with
    | .flock k => (s.flk k).su.getD (n.toNat - 64) 0
    | _ => 0

/-- A 32-bit source: a lane register, or bits [31:0] of a uniform one (R76). -/
def State.op32 (s : State) (x : Fibre) : Src → Word
  | .v n => x.reg n.toNat
  | .s n => (s.uniform x n).setWidth 32

/-- A 64-bit source: the pair V(n+1) : V(n), or a uniform register (R18, R76). -/
def State.op64 (s : State) (x : Fibre) : Src → DWord
  | .v n => x.reg (n.toNat + 1) ++ x.reg n.toNat
  | .s n => s.uniform x n

/-- A word given bit by bit. -/
def wordOfBits (b : Nat → Bool) : Word := (BitVec.ofBoolListLE ((List.range 32).map b)).setWidth 32

/-! ### The shapes of a completed lane instruction -/

/-- The address of the word in issue, and of the header that follows its clause. -/
def Run.here (r : Run) : DWord := r.base + BitVec.ofNat 64 (8 * r.idx)
def Run.after (r : Run) : DWord := r.base + BitVec.ofNat 64 (8 * (r.hdr.count + 1))

/-- A fibre with a PC and the kind of place it is. -/
def Fibre.at (x : Fibre) (pc : DWord) (k : Pck) : Fibre := { x with pc := pc, pck := k }

/-- The run at the next word of its clause. -/
def Run.onward (r : Run) : Run := { r with idx := r.idx + 1, issued := r.issued + 1 }

/-- Where the word is not the last of its clause, every active lane stands at the next word afterwards, and the run goes on
there (R22, R90, R92). -/
def WordDone (s : State) (r : Run) (t : State) : Prop :=
  r.idx < r.hdr.count → t.runs = r.onward :: s.runs.tail ∧
    ∀ l ∈ r.lanes.lanes, ∀ f, r.fibre s l = some f → (t.fib f).pc = r.here + 8 ∧ (t.fib f).pck = .within

/-- Wherever the word issues with its registers ready, it completes: every fibre that GuardMask names becomes `new` of
itself, every active lane goes on to the next word, and nothing else of the machine changes but PCs, runs and what a fetch
fills. -/
def Completes (i : Instr) (new : State → Fibre → Fibre) : Prop :=
  ∀ s r, Issuing s r → (∀ f ∈ actors s r i.guard, RegsReady i (s.fib f)) →
    ∃ t, exec i s = .next t ∧ Still (s.withFibres (actors s r i.guard) fun _ x => new s x) t ∧ WordDone s r t

/-- A lane instruction that writes one lane register. -/
def WritesWord (i : Instr) (d : BitVec 8) (v : State → Fibre → Word) : Prop :=
  Completes i fun s x => x.setReg d.toNat (v s x)

/-- A lane instruction that writes an even-odd pair, its low word in the even register (R18). -/
def WritesPair (i : Instr) (d : BitVec 8) (v : State → Fibre → DWord) : Prop :=
  Completes i fun s x => (x.setReg d.toNat ((v s x).setWidth 32)).setReg (d.toNat + 1) ((v s x >>> 32).setWidth 32)

/-- A lane instruction that writes one predicate; a write to P0 is discarded (R22). -/
def WritesPred (i : Instr) (p : BitVec 4) (v : State → Fibre → Bool) : Prop :=
  Completes i fun s x => x.setPred p.toNat (v s x)

/-- A uniform instruction that writes one uniform register, once, from what the fibre of the lowest acting lane sees, and
nothing where no lane acts (R77, R136): S0 to S63 are the team's, S64 to S127 the flock's (R20, R21). -/
def WritesUniform (i : Instr) (d : BitVec 8) (v : State → Fibre → DWord) : Prop :=
  ∀ s r, Issuing s r →
    (∀ f fs, actors s r i.guard = f :: fs →
      ∃ t, exec i s = .next t ∧ Still (setSreg s f d (v s (s.fib f))) t ∧ WordDone s r t) ∧
    (actors s r i.guard = [] → ∃ t, exec i s = .next t ∧ Still s t ∧ WordDone s r t)

/-- `i` computes a 32-bit value of one, two or three 32-bit sources: in its lane form into D of every acting lane, in its
uniform form, zero-extended, into the uniform register D, from bits [31:0] of uniform registers (R77, R136). -/
def Computes1 (i : Instr) (o : Un) (v : Word → Word) : Prop :=
  (o.ud = false → WritesWord i o.d fun s x => v (s.op32 x o.a)) ∧
  (o.ud = true → WritesUniform i o.d fun s x => (v ((s.uniform x o.a.num).setWidth 32)).setWidth 64)

def Computes2 (i : Instr) (o : Bin) (v : Word → Word → Word) : Prop :=
  (o.ud = false → WritesWord i o.d fun s x => v (s.op32 x o.a) (s.op32 x o.b)) ∧
  (o.ud = true → WritesUniform i o.d fun s x =>
    (v ((s.uniform x o.a.num).setWidth 32) ((s.uniform x o.b.num).setWidth 32)).setWidth 64)

def Computes3 (i : Instr) (o : Tri) (v : Word → Word → Word → Word) : Prop :=
  (o.ud = false → WritesWord i o.d fun s x => v (s.op32 x o.a) (s.op32 x o.b) (s.op32 x o.c)) ∧
  (o.ud = true → WritesUniform i o.d fun s x => (v ((s.uniform x o.a.num).setWidth 32)
    ((s.uniform x o.b.num).setWidth 32) ((s.uniform x o.c.num).setWidth 32)).setWidth 64)

/-- The same of a 32-bit source and an immediate. -/
def ComputesImm (i : Instr) (o : ImmOp) (v : Word → Word) : Prop :=
  (o.ud = false → WritesWord i o.d fun s x => v (s.op32 x o.a)) ∧
  (o.ud = true → WritesUniform i o.d fun s x => (v ((s.uniform x o.a.num).setWidth 32)).setWidth 64)

/-- `i` computes a 64-bit value of two 64-bit sources, into an even-odd pair or a uniform register. -/
def ComputesPair (i : Instr) (o : Bin) (v : DWord → DWord → DWord) : Prop :=
  (o.ud = false → WritesPair i o.d fun s x => v (s.op64 x o.a) (s.op64 x o.b)) ∧
  (o.ud = true → WritesUniform i o.d fun s x => v (s.uniform x o.a.num) (s.uniform x o.b.num))

/-- The same of a 64-bit and a 32-bit source. -/
def ComputesPairBy (i : Instr) (o : Bin) (v : DWord → Word → DWord) : Prop :=
  (o.ud = false → WritesPair i o.d fun s x => v (s.op64 x o.a) (s.op32 x o.b)) ∧
  (o.ud = true → WritesUniform i o.d fun s x => v (s.uniform x o.a.num) ((s.uniform x o.b.num).setWidth 32))

/-- A floating-point lane instruction whose conditions FPM enables on no acting lane (R29): the conditions that arose set
their sticky bits, FPM[20:16], and D takes the result. -/
def WritesFloat (i : Instr) (d : BitVec 8) (v : State → Fibre → Word × Nat) : Prop :=
  ∀ s r, Issuing s r → (∀ f ∈ actors s r i.guard, RegsReady i (s.fib f) ∧ enabledOf (s.fib f).fpm (v s (s.fib f)).2 = 0) →
    ∃ t, exec i s = .next t ∧ Still (s.withFibres (actors s r i.guard) fun _ x =>
      { x with fpm := stickyFpm x.fpm (v s x).2 }.setReg d.toNat (v s x).1) t ∧ WordDone s r t

/-! ### What the lanes of an issue see of each other -/

/-- The acting lanes with their fibres, ascending. -/
def State.acting (s : State) (r : Run) (g : Guard) : List (Nat × Nat) :=
  (guardMask s r g).lanes.filterMap fun l => (r.fibre s l).map fun f => (l, f)

/-- Lane `k` lies in the partition of lane `l`: the same fixed group, or a bit of the mask, or `l` itself (R157). -/
def inPartition (p : Part) (c : Word) (l k : Nat) : Bool :=
  match p with
  | .fixed g => k / groupSize g == l / groupSize g
  | .mask _ => c.getLsbD k || k == l

/-- The mask operand of a partition. -/
def State.maskOp (s : State) (x : Fibre) : Part → Word
  | .fixed _ => 0
  | .mask c => s.op32 x c

/-- A 32-bit or 64-bit source as 64 bits. -/
def State.opWide (s : State) (x : Fibre) (dbl : Bool) (a : Src) : DWord :=
  if dbl then s.op64 x a else (s.op32 x a).setWidth 64

/-- A 32-bit or 64-bit result in a fibre's registers. -/
def Fibre.setWide (x : Fibre) (dbl : Bool) (d : BitVec 8) (v : DWord) : Fibre :=
  if dbl then x.setPair d.toNat v else x.setReg d.toNat (v.setWidth 32)

/-- Wherever the word issues with its registers ready on every acting lane, each acting fibre becomes `new` of the acting
lanes and itself, and every active lane goes on to the next word. -/
def Crosses (i : Instr) (new : State → List (Nat × Nat) → Fibre → Fibre) : Prop :=
  ∀ s r, Issuing s r → (∀ f ∈ actors s r i.guard, RegsReady i (s.fib f)) →
    ∃ t, exec i s = .next t ∧
      Still (s.withFibres (actors s r i.guard) fun _ x => new s (s.acting r i.guard) x) t ∧ WordDone s r t

/-- The acting lanes in turn, in ascending home-lane order (R35), from `s` to `u`: each finds its registers ready and does
what `pre` says; one that goes on to the next word is advanced. `ent` and `clr` are the lanes that entered a handler and
those that resumed. -/
def LaneChain (i : Instr) (r : Run) (pre : State → Run → Nat → Adv → State → Prop) :
    List (Nat × Nat) → State → State → Mask → Mask → Prop
  | [], s, u, ent, clr => u = s ∧ ent = 0 ∧ clr = 0
  | (l, f) :: rest, s, u, ent, clr => RegsReady i (s.fib f) ∧ ∃ how v e c, pre s r f how v ∧
      LaneChain i r pre rest (if how = .next then v.modFib f (advanceFibre r) else v) u e c ∧
      ent = (if how = .enter then Mask.one l ||| e else e) ∧ clr = (if how = .resumed then Mask.one l ||| c else c)

/-- Wherever every acting lane in turn can do what `pre` says, the word completes: the lanes outside GuardMask go on (R22),
the masks follow R285 and R286, and a word that ends its clause, or is not the last of it, leaves the PCs as its lanes left
them; one that is not the last, and by which no lane enters a handler, leaves the run at the next word (R92). -/
def Lanewise (i : Instr) (pre : State → Run → Nat → Adv → State → Prop) : Prop :=
  ∀ s r u ent clr, Issuing s r →
    LaneChain i r pre (s.acting r i.guard) (advanceLanes s r (r.lanes &&& ~~~guardMask s r i.guard)) u ent clr →
    ∃ t, exec i s = .next t ∧ Still (settleMasks u r.flock ent clr) t ∧
      (i.endsClause = true ∨ r.idx < r.hdr.count → t.fibres = u.fibres) ∧
      (r.idx < r.hdr.count → ent = 0 → u.runs = s.runs → t.runs = r.onward :: s.runs.tail)

/-- A word after which every acting lane goes on to the next word. -/
def EachLane (i : Instr) (pre : State → Run → Nat → State → Prop) : Prop :=
  Lanewise i fun s r f how v => how = .next ∧ pre s r f v

/-- A word that ends its clause and leaves every acting lane where `pre` says. -/
def EachLaneEnds (i : Instr) (pre : State → Run → Nat → State → Prop) : Prop :=
  Lanewise i fun s r f how v => how = .moved ∧ pre s r f v

/-- One lane acts and is alone in its run; it enters or leaves a handler, and the flock's masks follow R285 and R286. -/
def AloneMasks (i : Instr) (entered cleared : Fibre → Mask) (pre : State → Run → Nat → State → Prop) : Prop :=
  ∀ s r f u, Whole s r i.guard f [] → RegsReady i (s.fib f) → pre s r f u →
    ∃ t, exec i s = .next t ∧ Still (settleMasks u r.flock (entered (s.fib f)) (cleared (s.fib f))) t ∧
      t.fibres = u.fibres

/-- A transfer whose targets lie in the 54-bit space: every acting fibre goes on at its target, and is otherwise `new` of
itself (R91). -/
def Transfers (i : Instr) (target : State → Run → Fibre → DWord) (ok : State → Fibre → Prop)
    (new : State → Run → Fibre → Fibre) : Prop :=
  ∀ s r, Issuing s r → (∀ f ∈ actors s r i.guard, RegsReady i (s.fib f) ∧ ok s (s.fib f) ∧
      (target s r (s.fib f)).toNat < 2 ^ 54) →
    ∃ t, exec i s = .next t ∧ Still (s.withFibres (actors s r i.guard) fun _ x => new s r x) t ∧
      ∀ f ∈ actors s r i.guard, (t.fib f).pc = target s r (s.fib f) &&& ~~~7 ∧ (t.fib f).pck = .transfer

/-- An instruction that acts once for a flock: `f` is the fibre of the lowest acting lane, and the list holds them all; the
other lanes of the run have gone on (R22, R77, R173, R207). Where no lane acts, nothing happens. Before the last word of a
clause the acting lanes stand at the next word afterwards, and so does the run (R22, R90, R92). -/
def Flockwise (i : Instr) (pre : State → Run → Nat → List Nat → State → Prop) : Prop :=
  ∀ s r, Issuing s r →
    (∀ f fs u, actors s r i.guard = f :: fs → (∀ h ∈ f :: fs, RegsReady i (s.fib h)) →
      pre (advanceLanes s r (r.lanes &&& ~~~guardMask s r i.guard)) r f (f :: fs) u →
      ∃ t, exec i s = .next t ∧ Still u t ∧ (r.idx < r.hdr.count →
        (∀ h ∈ f :: fs, (tabGet u.fibres h).isSome → (t.fib h).pc = r.here + 8 ∧ (t.fib h).pck = .within) ∧
        (u.runs = s.runs → t.runs = r.onward :: s.runs.tail))) ∧
    (actors s r i.guard = [] → ∃ t, exec i s = .next t ∧ Still s t ∧ WordDone s r t)

/-- A fibre whose view has become `v`: committed fold slots that the view covers are empty (R344). -/
def Fibre.viewed (x : Fibre) (v : Nat) : Fibre :=
  let slot := fun (o : Option FoldSlot) => match o with
    | some sl => if sl.st = .committed && sl.stamp ≤ v then none else o
    | none => none
  { x with vst := v, lineStamp := 0, fd := x.fd.map slot }

/-- The acting lanes take their effects in turn (R35), each after the search of its chain: one that a frame takes whose entry
registers its allocation holds is captured up to it and enters its handler; one that no frame takes drains at device scope and goes to the root handler from the next header; one whose team an earlier one
has ended does nothing more (R301). `ent` are the lanes that entered a handler. -/
def PerfChain (after : DWord) (d : Nat) (regs : Bool) : List (Nat × Nat × Eff) → State → State → Mask → Prop
  | [], s, u, ent => u = s ∧ ent = 0
  | (l, f, e) :: rest, s, u, ent =>
    let here := (tabGet s.fibres f).isSome ∧ (s.tm (s.fib f).team).status = none
    (¬ here ∧ PerfChain after d regs rest s u ent) ∨
    (here ∧ ∃ v m s0, searched (s.modFib f fun x => { x with scStart := none }) f e.eid = .ok s0 ∧
      let frame := handlerSearch s0 f e.eid
      ((frame ≠ 0 ∧ s0.segEnt frame + 4 < (s0.fib f).alloc ∧ ent = Mask.one l ||| m ∧ ∃ h t,
          captureSegments s0 f frame e after .sequential (some d) regs = .ok (some h, t) ∧
          enterHandler t f frame h e = v) ∨
        (frame = 0 ∧ ent = m ∧ ∃ t, drainAt s0 f .device false = .ok t ∧
          rootHandler (t.modFib f fun x => x.at after .sequential) f e = .ok v)) ∧
      PerfChain after d regs rest v u m)

end Sys2Proof.Machine
end

