-- ==== Sys2Proof/Certificates/Slice0/Obligations.lean ====
section
/-! DEFINITION. The statements for the provers. -/

open Sys2Proof Sys2Proof.Machine

/-! ### Lane and uniform arithmetic -/

/-- R137: the integer group's sums, products, comparisons, bit operations, counts, selection and move, in their lane and
uniform forms (SEL has no uniform form, R136). -/
def Obligations.IntegerArithmetic : Prop := ∀ (g : Guard) (o : Bin) (t : Tri) (v : Un) (a b : Src) (d : BitVec 8)
    (p : BitVec 4) (u nb : Bool),
  Computes2 (.add g o .wrap) o (fun a b => a + b) ∧
  Computes2 (.sub g o .wrap) o (fun a b => a - b) ∧
  Computes2 (.mul g o) o (fun a b => a * b) ∧
  Computes2 (.mulhi g o u) o (fun a b => if u then BitVec.ofNat 32 (a.toNat * b.toNat / 2 ^ 32)
    else BitVec.ofInt 32 (a.toInt * b.toInt / 2 ^ 32)) ∧
  Computes3 (.mad g t) t (fun a b c => a * b + c) ∧
  Computes2 (.min g o u) o (fun a b => if (if u then a.toNat ≤ b.toNat else a.toInt ≤ b.toInt) then a else b) ∧
  Computes2 (.max g o u) o (fun a b => if (if u then a.toNat ≤ b.toNat else a.toInt ≤ b.toInt) then b else a) ∧
  Computes2 (.and g o nb) o (fun a b => a &&& (if nb then ~~~b else b)) ∧
  Computes2 (.or g o nb) o (fun a b => a ||| (if nb then ~~~b else b)) ∧
  Computes2 (.xor g o nb) o (fun a b => a ^^^ (if nb then ~~~b else b)) ∧
  Computes1 (.clz g v) v (fun a =>
    BitVec.ofNat 32 (((List.range 32).takeWhile fun i => !a.getLsbD (31 - i)).length)) ∧
  Computes1 (.popc g v) v (fun a => BitVec.ofNat 32 (((List.range 32).countP fun i => a.getLsbD i))) ∧
  Computes1 (.brev g v) v (fun a => wordOfBits fun k => a.getLsbD (31 - k)) ∧
  WritesWord (.sel g d a b p) d (fun s x => if x.preds.getLsbD p.toNat then s.op32 x a else s.op32 x b) ∧
  Computes1 (.mov g v) v (fun a => a)

/-- R138: the saturating sums and differences clamp the exact result, signed or unsigned, set no flag and raise nothing;
MUL and MAD give the same bits for signed and for unsigned operands. -/
def Obligations.Saturation : Prop := ∀ (g : Guard) (o : Bin) (t : Tri),
  Computes2 (.add g o .ss) o (fun a b => BitVec.ofInt 32 (max (-2 ^ 31) (min (2 ^ 31 - 1) (a.toInt + b.toInt)))) ∧
  Computes2 (.add g o .us) o (fun a b => BitVec.ofNat 32 (min (2 ^ 32 - 1) (a.toNat + b.toNat))) ∧
  Computes2 (.sub g o .ss) o (fun a b => BitVec.ofInt 32 (max (-2 ^ 31) (min (2 ^ 31 - 1) (a.toInt - b.toInt)))) ∧
  Computes2 (.sub g o .us) o (fun a b => BitVec.ofNat 32 (a.toNat - b.toNat)) ∧
  Computes2 (.mul g o) o (fun a b => BitVec.ofNat 32 (a.toNat * b.toNat)) ∧
  Computes2 (.mul g o) o (fun a b => BitVec.ofInt 32 (a.toInt * b.toInt)) ∧
  Computes3 (.mad g t) t (fun a b c => BitVec.ofNat 32 (a.toNat * b.toNat + c.toNat)) ∧
  Computes3 (.mad g t) t (fun a b c => BitVec.ofInt 32 (a.toInt * b.toInt + c.toInt))

/-- R140: SHL, SHR and SAR take the whole of B as their amount, ROT takes B[4:0]. An amount of 32 or more shifts everything
out: SHL and SHR give 0, SAR gives copies of A[31]. -/
def Obligations.ShiftAmounts : Prop := ∀ (g : Guard) (o : Bin),
  Computes2 (.shl g o) o (fun a b => if 32 ≤ b.toNat then 0 else a <<< b.toNat) ∧
  Computes2 (.shr g o) o (fun a b => if 32 ≤ b.toNat then 0 else a >>> b.toNat) ∧
  Computes2 (.sar g o) o (fun a b => if 32 ≤ b.toNat then (if a.getLsbD 31 then 0xFFFFFFFF else 0)
    else a.sshiftRight b.toNat) ∧
  Computes2 (.rot g o) o (fun a b => a.rotateLeft (b.toNat % 32))

/-- R141: BFX and BFI, given bit by bit: the position is B[4:0], the width is B[13:8] but at most 32; bits above A[31] read
as zero, and field bits above bit 31 are dropped. -/
def Obligations.BitFields : Prop := ∀ (g : Guard) (o : Bin) (t : Tri) (sgn : Bool),
  Computes2 (.bfx g o sgn) o (fun a b =>
    let pos := b.toNat % 32
    let w := min (b.toNat / 2 ^ 8 % 64) 32
    wordOfBits fun k => if k < w then a.getLsbD (pos + k) else sgn && decide (0 < w) && a.getLsbD (pos + w - 1)) ∧
  Computes3 (.bfi g t) t (fun a b c =>
    let pos := b.toNat % 32
    let w := min (b.toNat / 2 ^ 8 % 64) 32
    wordOfBits fun k => if pos ≤ k ∧ k < pos + w then a.getLsbD (k - pos) else c.getLsbD k)

/-- R139: DIV and REM, which have no uniform form (R136), where no divisor is zero or FPM.EIZ (bit 9 of FPM, R29) is 0. -/
def Obligations.Division : Prop := ∀ (g : Guard) (o : Bin) (u : Bool) (s : State) (r : Run),
  Issuing s r → (∀ f ∈ actors s r g, RegsReady (.div g o u) (s.fib f) ∧
    (s.op32 (s.fib f) o.b = 0 → (s.fib f).fpm.getLsbD 9 = false)) → o.ud = false →
  (∃ t, exec (.div g o u) s = .next t ∧ Still (s.withFibres (actors s r g) fun _ x => x.setReg o.d.toNat (
    if s.op32 x o.b = 0 then 0xFFFFFFFF
    else if u then BitVec.ofNat 32 ((s.op32 x o.a).toNat / (s.op32 x o.b).toNat)
    else BitVec.ofInt 32 ((s.op32 x o.a).toInt.tdiv (s.op32 x o.b).toInt))) t) ∧
  (∃ t, exec (.rem g o u) s = .next t ∧ Still (s.withFibres (actors s r g) fun _ x => x.setReg o.d.toNat (
    if s.op32 x o.b = 0 then s.op32 x o.a
    else if u then BitVec.ofNat 32 ((s.op32 x o.a).toNat % (s.op32 x o.b).toNat)
    else BitVec.ofInt 32 ((s.op32 x o.a).toInt.tmod (s.op32 x o.b).toInt))) t)

/-- What a comparison of R142 finds. -/
def holdsCond {n : Nat} (c : Cond) (u : Bool) (a b : BitVec n) : Bool :=
  match c with
  | .eq => decide (a = b)
  | .ne => decide (a ≠ b)
  | .lt => decide (if u then a.toNat < b.toNat else a.toInt < b.toInt)
  | .le => decide (if u then a.toNat ≤ b.toNat else a.toInt ≤ b.toInt)
  | .gt => decide (if u then b.toNat < a.toNat else b.toInt < a.toInt)
  | .ge => decide (if u then b.toNat ≤ a.toNat else b.toInt ≤ a.toInt)

/-- How a comparison joins the predicate that it writes (R142). -/
def joined (m : Comb) (old new : Bool) : Bool :=
  match m with
  | .set => new
  | .and => old && new
  | .or => old || new

/-- R142, R156: the comparisons of 32-bit and 64-bit operands, and the predicate instructions. -/
def Obligations.PredicateResults : Prop := ∀ (g : Guard) (p q w : BitVec 4) (a b : Src) (imm : BitVec 12) (c : Cond)
    (u na nb z : Bool) (m : Comb),
  WritesPred (.icmp g p a b c u m) p (fun s x =>
    joined m (x.preds.getLsbD p.toNat) (holdsCond c u (s.op32 x a) (s.op32 x b))) ∧
  WritesPred (.icmpd g p a b c u m) p (fun s x =>
    joined m (x.preds.getLsbD p.toNat) (holdsCond c u (s.op64 x a) (s.op64 x b))) ∧
  WritesPred (.icmpi g p a imm c u m) p (fun s x =>
    joined m (x.preds.getLsbD p.toNat) (holdsCond c u (s.op32 x a) (imm.signExtend 32))) ∧
  WritesPred (.pand g p q w na nb) p (fun _ x =>
    (x.preds.getLsbD q.toNat).xor na && (x.preds.getLsbD w.toNat).xor nb) ∧
  WritesPred (.por g p q w na nb) p (fun _ x =>
    (x.preds.getLsbD q.toNat).xor na || (x.preds.getLsbD w.toNat).xor nb) ∧
  WritesPred (.pxor g p q w na nb) p (fun _ x =>
    ((x.preds.getLsbD q.toNat).xor na).xor ((x.preds.getLsbD w.toNat).xor nb)) ∧
  WritesPred (.pnot g p q) p (fun _ x => !x.preds.getLsbD q.toNat) ∧
  WritesPred (.pset g p a z) p (fun s x => decide (s.op32 x a ≠ 0) != z)

/-- R143: the pair group in its lane and uniform forms. -/
def Obligations.PairArithmetic : Prop := ∀ (g : Guard) (o : Bin) (u : Un),
  ComputesPair (.addd g o .pair) o (fun a b => a + b) ∧
  ComputesPairBy (.addd g o .sw) o (fun a b => a + b.signExtend 64) ∧
  ComputesPairBy (.addd g o .zw) o (fun a b => a + b.setWidth 64) ∧
  ComputesPair (.subd g o .pair) o (fun a b => a - b) ∧
  ComputesPairBy (.subd g o .sw) o (fun a b => a - b.signExtend 64) ∧
  ComputesPairBy (.subd g o .zw) o (fun a b => a - b.setWidth 64) ∧
  ComputesPair (.muld g o) o (fun a b => a * b) ∧
  ComputesPairBy (.shld g o) o (fun a b => if 64 ≤ b.toNat then 0 else a <<< b.toNat) ∧
  ComputesPairBy (.shrd g o) o (fun a b => if 64 ≤ b.toNat then 0 else a >>> b.toNat) ∧
  ComputesPairBy (.sard g o) o (fun a b =>
    if 64 ≤ b.toNat then (if a.getLsbD 63 then BitVec.allOnes 64 else 0) else a.sshiftRight b.toNat) ∧
  (u.ud = false → WritesPair (.movd g u) u.d fun s x => s.op64 x u.a) ∧
  (u.ud = true → WritesUniform (.movd g u) u.d fun s x => s.uniform x u.a.num) ∧
  ComputesPair (.andd g o) o (fun a b => a &&& b) ∧
  ComputesPair (.ord g o) o (fun a b => a ||| b) ∧
  ComputesPair (.xord g o) o (fun a b => a ^^^ b)

/-- R144: the immediate group but its comparison; a shift amount lies from 0 to 31. -/
def Obligations.ImmediateResults : Prop := ∀ (g : Guard) (o : ImmOp) (d : BitVec 8) (imm : BitVec 12),
  ComputesImm (.addi g o) o (fun a => a + o.imm.signExtend 32) ∧
  ComputesImm (.muli g o) o (fun a => a * o.imm.signExtend 32) ∧
  ComputesImm (.andi g o) o (fun a => a &&& o.imm.signExtend 32) ∧
  ComputesImm (.ori g o) o (fun a => a ||| o.imm.signExtend 32) ∧
  ComputesImm (.xori g o) o (fun a => a ^^^ o.imm.signExtend 32) ∧
  (o.imm.toNat < 32 → ComputesImm (.shli g o) o fun a => a <<< o.imm.toNat) ∧
  (o.imm.toNat < 32 → ComputesImm (.shri g o) o fun a => a >>> o.imm.toNat) ∧
  (o.imm.toNat < 32 → ComputesImm (.sari g o) o fun a => a.sshiftRight o.imm.toNat) ∧
  (o.ud = false → WritesPair (.adddi g o) o.d fun s x => s.op64 x o.a + o.imm.signExtend 64) ∧
  (o.ud = true → WritesUniform (.adddi g o) o.d fun s x => s.uniform x o.a.num + o.imm.signExtend 64) ∧
  WritesWord (.movi g false d imm) d (fun _ _ => imm.signExtend 32) ∧
  WritesUniform (.movi g true d imm) d (fun _ _ => (imm.signExtend 32).setWidth 64)

/-- R145: LUI and LUP place the immediate in the upper part of a word or pair; AUPC adds it, shifted left by 12 and
sign-extended, to the address of its own word, and writes whatever the sum is. -/
def Obligations.AddressFormation : Prop := ∀ (g : Guard) (d : BitVec 8) (up : BitVec 20),
  WritesWord (.lui g false d up) d (fun _ _ => up.setWidth 32 <<< 12) ∧
  WritesUniform (.lui g true d up) d (fun _ _ => (up.setWidth 32 <<< 12).setWidth 64) ∧
  WritesPair (.lup g false d up) d (fun _ _ => up.setWidth 64 <<< 32) ∧
  WritesUniform (.lup g true d up) d (fun _ _ => up.setWidth 64 <<< 32) ∧
  ∀ s r, Issuing s r →
    ((∀ f ∈ actors s r g, RegsReady (.aupc g false d up) (s.fib f)) →
      ∃ t, exec (.aupc g false d up) s = .next t ∧ Still (s.withFibres (actors s r g) fun _ x =>
        x.setPair d.toNat (r.base + BitVec.ofNat 64 (8 * r.idx) + (up.setWidth 32 <<< 12).signExtend 64)) t) ∧
    (∀ f fs, actors s r g = f :: fs → ∃ t, exec (.aupc g true d up) s = .next t ∧ Still (setSreg s f d
      (r.base + BitVec.ofNat 64 (8 * r.idx) + (up.setWidth 32 <<< 12).signExtend 64)) t)


/-! ### Floating point and conversions -/

/-- R57, R58, R147 to R149: the rounded operations, on one element or on both halves, complete wherever FPM enables none
of the conditions that arise. R148, R150 to R153: comparison, approximations, sign operations, classification and
conversion complete wherever FPM enables none of the conditions that arise. -/
def Obligations.FloatResults : Prop :=
  (∀ (g : Guard) (o : Bin) (t : Tri) (u : Un) (m : FMode) (rm : RmField) (nan : Bool),
    let q := m.fmt.fpar
    let mode := fun (x : Fibre) => rm.over (Rm.ofFpm x.fpm)
    let el := fpElem m
    WritesFloat (.fadd g o m rm) o.d (fun s x => fpJoin m fun j =>
      fpAdd q (mode x) (el j (s.op32 x o.a)) (el j (s.op32 x o.b))) ∧
    WritesFloat (.fsub g o m rm) o.d (fun s x => fpJoin m fun j =>
      fpSub q (mode x) (el j (s.op32 x o.a)) (el j (s.op32 x o.b))) ∧
    WritesFloat (.fmul g o m rm) o.d (fun s x => fpJoin m fun j =>
      fpMul q (mode x) (el j (s.op32 x o.a)) (el j (s.op32 x o.b))) ∧
    WritesFloat (.ffma g t m rm) t.d (fun s x => fpJoin m fun j =>
      fpFma q (mode x) (el j (s.op32 x t.a)) (el j (s.op32 x t.b)) (el j (s.op32 x t.c))) ∧
    WritesFloat (.fdiv g o m rm) o.d (fun s x => fpJoin m fun j =>
      fpDiv q (mode x) (el j (s.op32 x o.a)) (el j (s.op32 x o.b))) ∧
    WritesFloat (.fsqrt g u m rm) u.d (fun s x => fpJoin m fun j => fpSqrt q (mode x) (el j (s.op32 x u.a))) ∧
    WritesFloat (.fmin g o m nan) o.d (fun s x => fpJoin m fun j =>
      fpMinMax q false nan (el j (s.op32 x o.a)) (el j (s.op32 x o.b))) ∧
    WritesFloat (.fmax g o m nan) o.d (fun s x => fpJoin m fun j =>
      fpMinMax q true nan (el j (s.op32 x o.a)) (el j (s.op32 x o.b)))) ∧
  (∀ (g : Guard) (u : Un) (m : FMode) (rm : RmField) (p : BitVec 4) (d : BitVec 8)
      (a b : Src) (fmt : FFmt) (c : FCond) (sgn sat : Bool) (dst src : Fmt),
    let q := m.fmt.fpar
    let el := fpElem m
    WritesFloat (.frcp g u m) u.d (fun s x => fpJoin m fun j => fpRcp q (el j (s.op32 x u.a))) ∧
    WritesFloat (.frsq g u m) u.d (fun s x => fpJoin m fun j => fpRsq q (el j (s.op32 x u.a))) ∧
    WritesFloat (.fexp2 g u m) u.d (fun s x => fpJoin m fun j => fpExp2 q (el j (s.op32 x u.a))) ∧
    WritesFloat (.flog2 g u m) u.d (fun s x => fpJoin m fun j => fpLog2 q (el j (s.op32 x u.a))) ∧
    WritesFloat (.fabs g u m) u.d (fun s x => fpJoin m fun j => (fpAbs q (el j (s.op32 x u.a)), 0)) ∧
    WritesFloat (.fneg g u m) u.d (fun s x => fpJoin m fun j => (fpNeg q (el j (s.op32 x u.a)), 0)) ∧
    WritesFloat (.fclass g u m) u.d (fun s x => fpJoin m fun j => (fpClass q (el j (s.op32 x u.a)), 0)) ∧
    WritesFloat (.cvt g d a dst src rm sat) d (fun s x =>
      convert dst src (rm.over (Rm.ofFpm x.fpm)) sat (s.op32 x a)) ∧
    (∀ s r, Issuing s r → (∀ f ∈ actors s r g, RegsReady (.fcmp g p a b fmt c sgn) (s.fib f) ∧
        enabledOf (s.fib f).fpm (fpCompare fmt.fpar c sgn (fpElem ⟨fmt, false⟩ 0 (s.op32 (s.fib f) a))
          (fpElem ⟨fmt, false⟩ 0 (s.op32 (s.fib f) b))).2 = 0) →
      ∃ t, exec (.fcmp g p a b fmt c sgn) s = .next t ∧ Still (s.withFibres (actors s r g) fun _ x =>
        let v := fpCompare fmt.fpar c sgn (fpElem ⟨fmt, false⟩ 0 (s.op32 x a)) (fpElem ⟨fmt, false⟩ 0 (s.op32 x b))
        { x with fpm := stickyFpm x.fpm v.2 }.setPred p.toNat v.1) t))

/-- R43, R57, R58: a NaN operand gives the canonical NaN of the format whatever the mode, and invalid operation arises
exactly when an operand is a signalling NaN; a fused multiply-add of a zero and an infinity signals it too. -/
def Obligations.NaNResults : Prop := ∀ (q : FPar) (rm : Rm) (a b c : Nat), q ∈ [p32, p16, pb16] →
  ((q.isNaN a ∨ q.isNaN b) →
    fpAdd q rm a b = (q.nanCode, if q.isSNaN a ∨ q.isSNaN b then cIV else 0) ∧
    fpSub q rm a b = (q.nanCode, if q.isSNaN a ∨ q.isSNaN b then cIV else 0) ∧
    fpMul q rm a b = (q.nanCode, if q.isSNaN a ∨ q.isSNaN b then cIV else 0) ∧
    fpDiv q rm a b = (q.nanCode, if q.isSNaN a ∨ q.isSNaN b then cIV else 0)) ∧
  (q.isNaN a → fpSqrt q rm a = (q.nanCode, if q.isSNaN a then cIV else 0)) ∧
  (fpFma q rm q.infCode 0 c = (q.nanCode, cIV)) ∧
  (fpAdd q rm q.infCode (q.infCode + q.signBit) = (q.nanCode, cIV)) ∧
  (fpMul q rm 0 q.infCode = (q.nanCode, cIV)) ∧
  (fpSqrt q rm (q.infCode + q.signBit) = (q.nanCode, cIV)) ∧
  (fpSqrt q rm q.signBit = (q.signBit, 0))

/-- R42, R53, R57: rounding keeps what a format holds. A code that is no NaN, decoded and rounded in any mode, comes back
with no condition. -/
def Obligations.RoundingKeepsValues : Prop := ∀ (q : FPar) (rm : Rm) (a : Nat), q ∈ [p32, p16, pb16] →
  a < 2 ^ q.width → q.isNaN a = false → q.round (q.decode a) rm false = (a, 0)

/-- R155: PACK replaces slot j of C, UNPK reads it, sign- or zero-extended; both are given bit by bit. -/
def Obligations.PackUnpack : Prop := ∀ (g : Guard) (d : BitVec 8) (a c : Src) (w : SlotW) (j : BitVec 3) (sgn : Bool),
  j.toNat < (match w with | .e4 => 8 | .e6 => 4 | .e8 => 4 | .e16 => 2) →
  WritesWord (.pack g d a c w j) d (fun s x =>
    let n := slotBits w
    wordOfBits fun k => if n * j.toNat ≤ k ∧ k < n * j.toNat + n then (s.op32 x a).getLsbD (k - n * j.toNat)
      else (s.op32 x c).getLsbD k) ∧
  WritesWord (.unpk g d a w j sgn) d (fun s x =>
    let n := slotBits w
    wordOfBits fun k => (s.op32 x a).getLsbD (n * j.toNat + if k < n then k else n - 1) && (sgn || decide (k < n)))

/-! ### Cross-lane instructions and special registers -/

/-- The values of the partition of a lane, ascending (R157). -/
def partitionValues (s : State) (ls : List (Nat × Nat)) (x : Fibre) (pt : Part) (dbl : Bool) (a : Src) : List DWord :=
  (ls.filter fun e => inPartition pt (s.maskOp x pt) x.home e.1).map fun e => s.opWide (s.fib e.2) dbl a

/-- R157 to R159, R161: PART, SHFL and VOTE, from what the acting lanes hold before the instruction. R160: REDU. An
integer sum is the sum of the partition's values modulo 2^32 or 2^64; the other integer operations fold, as the FP32 ones
do, in ascending lane order, to nearest even, without a condition.
Log entry 52: choices of the model. -/
def Obligations.LaneCollectives : Prop :=
  (∀ (g : Guard) (d : BitVec 8) (p : BitVec 4) (a b : Src) (pw : Group) (pt : Part)
      (m : ShflMode) (dbl : Bool),
    let pd : BitVec 8 := p.setWidth 8
    Crosses (.part g d a pw dbl) (fun s ls x => x.setReg d.toNat (wordOfBits fun k =>
      ls.any fun e => e.1 == k && inPartition (.fixed pw) 0 x.home k
        && s.opWide (s.fib e.2) dbl a == s.opWide x dbl a)) ∧
    Crosses (.shfl g d a b pw m dbl) (fun s ls x =>
      let n := (s.op32 x b).toNat
      let z := groupSize pw
      let l := x.home
      let src := match m with
        | .idx => some (l / z * z + n % z)
        | .up => if n < z ∧ l / z * z + n ≤ l then some (l - n) else none
        | .down => if n < z ∧ l + n < l / z * z + z then some (l + n) else none
        | .xor => if n < z then some (Nat.xor l n) else none
      x.setWide dbl d (match ls.find? fun e => src == some e.1 with
        | some e => s.opWide (s.fib e.2) dbl a
        | none => s.opWide x dbl a)) ∧
    Crosses (.vote g pd a pt .any false) (fun s ls x => x.setPred p.toNat (ls.any fun e =>
      inPartition pt (s.maskOp x pt) x.home e.1 && (s.fib e.2).preds.getLsbD a.num.toNat)) ∧
    Crosses (.vote g pd a pt .all false) (fun s ls x => x.setPred p.toNat (ls.all fun e =>
      !inPartition pt (s.maskOp x pt) x.home e.1 || (s.fib e.2).preds.getLsbD a.num.toNat)) ∧
    Crosses (.vote g d a pt .ballot false) (fun s ls x => x.setReg d.toNat (wordOfBits fun k => ls.any fun e =>
      e.1 == k && inPartition pt (s.maskOp x pt) x.home k && (s.fib e.2).preds.getLsbD a.num.toNat)) ∧
    Crosses (.vote g pd a pt .eq dbl) (fun s ls x => x.setPred p.toNat (ls.all fun e =>
      !inPartition pt (s.maskOp x pt) x.home e.1 || s.opWide (s.fib e.2) dbl a == s.opWide x dbl a))) ∧
  (∀ (g : Guard) (d : BitVec 8) (a : Src) (pt : Part) (op : ReduOp) (dbl : Bool),
    Crosses (.redu g d a pt .add dbl) (fun s ls x => x.setWide dbl d (partitionValues s ls x pt dbl a).sum) ∧
    Crosses (.redu g d a pt op dbl) (fun s ls x => x.setWide dbl d (reduce op dbl (partitionValues s ls x pt dbl a))))

/-- R162: MOVU writes a uniform register once, from the lowest, the highest or a named acting lane; where the named lane
does not act, nothing. -/
def Obligations.MoveToUniform : Prop := ∀ (g : Guard) (d a : BitVec 8) (sel : MovuSel) (dbl : Bool) (s : State) (r : Run),
  Issuing s r → (∀ f ∈ actors s r g, RegsReady (.movu g d a sel dbl) (s.fib f)) →
  ∃ t, exec (.movu g d a sel dbl) s = .next t ∧ Still (
    match (match sel with
      | .lo => (s.acting r g).head?
      | .hi => (s.acting r g).getLast?
      | .lane n => (s.acting r g).find? fun e => e.1 == n.toNat) with
    | none => s
    | some e => setSreg s e.2 d (s.opWide (s.fib e.2) dbl (.v a))) t

/-- The special registers of R34 as a fibre reads them: number, 64 bits wide, value. -/
def specialTable (s : State) (x : Fibre) : List (BitVec 8 × Bool × DWord) :=
  [(0x00, false, match x.loc with
      | .flock k => (s.flk k).efm.setWidth 64
      | _ => 0),
   (0x01, true, BitVec.ofNat 64 x.vst), (0x02, true, x.hch), (0x03, false, (s.tm x.team).nbv.setWidth 64),
   (0x04, false, x.fpm.setWidth 64), (0x05, false, (s.tm x.team).pl.setWidth 64),
   (0x08, true, foldWord (x.fd.getD 0 none)), (0x09, true, foldWord (x.fd.getD 1 none)),
   (0x0A, true, foldWord (x.fd.getD 2 none)), (0x0B, true, foldWord (x.fd.getD 3 none)),
   (0x10, false, (wordOfBits fun k => decide (k < 12) && x.pending.all fun p => p.1 ≠ k).setWidth 64),
   (0x11, false, x.preds.setWidth 64), (0x20, false, BitVec.ofNat 64 x.home), (0x21, false, BitVec.ofNat 64 x.index),
   (0x22, false, BitVec.ofNat 64 (s.tm x.team).index), (0x23, false, BitVec.ofNat 64 (s.tm x.team).devIndex),
   (0x24, false, BitVec.ofNat 64 x.role), (0x25, false, BitVec.ofNat 64 x.alloc),
   (0x26, false, (s.tm x.team).gen.setWidth 64)]

/-- R34, R163: SRD reads every register of R34, into lanes or once into a uniform register; SWR writes FPM but its
reserved bits, and P1 to P15. -/
def Obligations.SpecialRegisterMoves : Prop := ∀ (g : Guard) (d : BitVec 8) (a : Src) (k : Fin 19),
  let row := fun (s : State) (x : Fibre) => (specialTable s x).getD k.val (0, false, 0)
  let n := (row State.reset Fibre.blank).1
  Completes (.srd g false d n) (fun s x => x.setWide (row s x).2.1 d (row s x).2.2) ∧
  WritesUniform (.srd g true d n) d (fun s x => (row s x).2.2) ∧
  Completes (.swr g 0x04 a) (fun s x => { x with fpm := s.op32 x a &&& 0x001F03F3 }) ∧
  Completes (.swr g 0x11 a) (fun s x => { x with preds := (s.op32 x a).setWidth 16 ||| 1 })

/-! ### Control, handlers and continuations -/

/-- R91, R105, R114 to R116: direct and indirect transfers. A branch adds its offset in words to the address of its own
word; a call leaves the header that follows the clause in its pair. R118, R119: indirect transfers through a
permitted-target table, where its loads succeed: the count lies from 1 to 4096, the index is below it, and the target is
the table's address plus eight times the entry. -/
def Obligations.ControlTransfers : Prop :=
  (∀ (g : Guard) (off : BitVec 24) (d : BitVec 8) (a : Src),
    Transfers (.bra g off) (fun _ r _ => r.here + off.signExtend 64 * 8) (fun _ _ => True) (fun _ _ x => x) ∧
    Transfers (.call g d off) (fun _ r _ => r.here + off.signExtend 64 * 8) (fun _ _ => True)
      (fun _ r x => x.setPair d.toNat r.after) ∧
    Transfers (.ret g a) (fun s _ x => s.op64 x a)
      (fun s x => a.uniform = false → (s.op64 x a).toNat / 2 ^ 55 ≠ 0x1FF) (fun _ _ x => x)) ∧
  (∀ (g : Guard) (d : BitVec 8) (a b : Src),
    let ok := fun (s : State) (f : Nat) (h e : Nat) (s1 u : State) =>
      let t := s.op64 (s.fib f) b
      let i := s.op32 (s.fib f) a
      (b.uniform = false → t.toNat / 2 ^ 55 ≠ 0x1FF) ∧ loadNum s f t 8 8 .table = .ok (h, s1) ∧ h ≤ 4096 ∧ i.toNat < h ∧
      loadNum s1 f (t + 8 + 4 * i.setWidth 64) 4 4 .table = .ok (e, u) ∧
      (t + 8 * (BitVec.ofNat 32 e).signExtend 64).toNat < 2 ^ 54
    let goes := fun (s : State) (f e : Nat) (x : Fibre) =>
      x.at ((s.op64 (s.fib f) b + 8 * (BitVec.ofNat 32 e).signExtend 64) &&& ~~~7) .transfer
    EachLaneEnds (.brx g a b) (fun s _ f v => ∃ h e s1 u, ok s f h e s1 u ∧ v = u.modFib f (goes s f e)) ∧
    EachLaneEnds (.callx g d a b) (fun s r f v => ∃ h e s1 u, ok s f h e s1 u ∧
      v = u.modFib f fun x => (goes s f e x).setPair d.toNat r.after))

/-- R116, R117: CALLS pushes a zeroed segment of KIND 0 with the old TOP and the return address in its link block, and
leaves its data address in a pair; RET.S pops it, frees it and goes on at its RPC, or at the next header where that is
0.
Log entries 5 and 30: choices of the model. -/
def Obligations.SegmentCalls : Prop := ∀ (g : Guard) (d : BitVec 8) (off : BitVec 24),
  EachLaneEnds (.calls g d off) (fun s r f v => ∃ a s1, takeSeg s (s.ctxOf f) = some (a, s1) ∧
    (r.here + off.signExtend 64 * 8).toNat < 2 ^ 54 ∧
    v = (touchSeg (s1.putLink a (s.fib f).top.toNat r.after.toNat 0 0 0 0 0) (s.fib f).core a).modFib f fun x =>
      ({ x with top := BitVec.ofNat 64 a }.setPair d.toNat (BitVec.ofNat 64 (a + 0x40))).at
        ((r.here + off.signExtend 64 * 8) &&& ~~~7) .transfer) ∧
  EachLaneEnds (.retS g) (fun s0 r f v => ∃ s, readLink s0 f = .ok s ∧
    let a := (s.fib f).top.toNat
    s.num (a + 0x10) 1 = 0 ∧ s.segRpc a < 2 ^ 54 ∧
    v = freeSeg (s.modFib f fun x => { x with top := BitVec.ofNat 64 (s.segPrev a) }.at
      (if s.segRpc a = 0 then r.after else BitVec.ofNat 64 (s.segRpc a) &&& ~~~7)
      (if s.segRpc a = 0 then .sequential else .transfer)) (s.ctxOf f) a)

/-- R122 to R124: the flock instructions. NOP and ISYNC only go on; BACKOFF counts failed polls in the flock's step, up to
7, and holds it off while the step is not 0; REFORM files the fibre in its core's pens at the next header; SPAWN creates a
fibre at the target and returns its index, or −1 where the team is full or no lane has room. R121, R350: a fibre without
outstanding operations, whose stores have drained and whose folds have ended, leaves the machine with its chain of
segments and its slice.
Log entry 16: choices of the model. -/
def Obligations.FlockInstructions : Prop :=
  (∀ (g : Guard) (p : BitVec 4) (x d : BitVec 8) (off : BitVec 24),
    Completes (.nop g) (fun _ x => x) ∧
    Completes (.isync g) (fun _ x => x) ∧
    (∀ s r, Issuing s r → ∃ t, exec (.backoff g p) s = .next t ∧ Still (s.modFlk r.flock fun k =>
      let n := if (actors s r g).any fun f => (s.fib f).preds.getLsbD p.toNat then min (k.step + 1) 7 else 0
      { k with step := n, holdoff := decide (n ≠ 0) }) t) ∧
    EachLaneEnds (.reform g) (fun s r f v => ∃ w, drained s [f] = .ok w ∧ v = scrambleSu (penFile (leaveFlock
      (w.modFib f fun x => x.at r.after .sequential) f) f) r.flock) ∧
    EachLane (.spawn g x d off) (fun s r f v => ∃ s1 idx k u,
      (r.here + off.signExtend 64 * 8).toNat < 2 ^ 54 ∧ drainAt s f .team false = .ok s1 ∧
      spawnFibre s1 f (r.here + off.signExtend 64 * 8) (s.op64 (s.fib f) (.v d)) = .ok (some (idx, k, u)) ∧
      v = u.modFib f fun y => y.setReg x.toNat (BitVec.ofNat 32 idx)) ∧
    EachLane (.spawn g x d off) (fun s r f v => ∃ s1,
      (r.here + off.signExtend 64 * 8).toNat < 2 ^ 54 ∧ drainAt s f .team false = .ok s1 ∧
      spawnFibre s1 f (r.here + off.signExtend 64 * 8) (s.op64 (s.fib f) (.v d)) = .ok none ∧
      v = s1.modFib f fun y => y.setReg x.toNat 0xFFFFFFFF)) ∧
  (∀ (g : Guard),
    EachLaneEnds (.exit g) (fun s _ f v => ∃ s1 s2, (s.fib f).pending = [] ∧ exitDrain s f = .ok s1 ∧
      exitFolds s1 f = .ok s2 ∧ v = removeFibre s2 f))

/-- R125, R127: HINST pushes a frame of KIND 1 that becomes the head of the handler chain; HDROP takes the frame at the
top away, restores the chain and goes on at its RPC, or at the next header where that is 0.
Log entries 5 and 25: choices of the model. -/
def Obligations.HandlerFrames : Prop := ∀ (g : Guard) (ve : BitVec 8) (k : Src) (off : BitVec 24),
  EachLaneEnds (.hinst g ve k off) (fun s r f v => ∃ a s1, takeSeg s (s.ctxOf f) = some (a, s1) ∧
    ve.toNat % 2 = 0 ∧ (r.here + off.signExtend 64 * 8).toNat < 2 ^ 54 ∧
    v = (touchSeg (s1.putLink a (s.fib f).top.toNat 0 1 (s.fib f).hch.toNat (s.op32 (s.fib f) k).toNat ve.toNat
      (r.here + off.signExtend 64 * 8).toNat) (s.fib f).core a).modFib f fun x =>
        { x with top := BitVec.ofNat 64 a, hch := BitVec.ofNat 64 a }.at r.after .sequential) ∧
  EachLaneEnds (.hdrop g) (fun s0 r f v => ∃ s, readLink s0 f = .ok s ∧
    let a := (s.fib f).top.toNat
    s.num (a + 0x10) 1 = 1 ∧ (s.fib f).hch = (s.fib f).top ∧
    v = freeSeg (s.modFib f fun x => { x with
      hch := BitVec.ofNat 64 (s.segHlink a), top := BitVec.ofNat 64 (s.segPrev a) }.at
      (if s.segRpc a = 0 then r.after else BitVec.ofNat 64 (s.segRpc a) &&& ~~~7) .sequential) (s.ctxOf f) a)

/-- R89, R139, R280, R284, R287, R291: taking an effect. A capture without registers leaves a live header with the
identifier, the value, the flags, the resume PC, the chain from top to frame, the handler chain and the view; entry gives
ENT the handle, the value and the identifier, takes the frame off both chains, and goes to its HPC, every other register,
predicate, carry and FPM as before; where one of those registers lies outside the allocation, ILLEGAL 0x0A is raised before anything of the entry. DIV and
REM by zero with FPM.EIZ enter so with ARITH at their own word; a privileged word below its level raises PRIV with its OP on
the lanes of GuardMask.
Log entries 5 and 104: choices of the model. -/
def Obligations.EffectEntry : Prop :=
  (∀ (s t : State) (f frame : Nat) (e : Eff) (rpc h : DWord) (k : Pck) (rvd : Option Nat),
    captureSegments s f frame e rpc k rvd false = .ok (some h, t) → ∃ a u, drainAt s f .device e.wb = .ok u ∧
      h = handleOf t a ∧
      t.num a 1 = 1 ∧
      t.num (a + 1) 1 = ((if rvd.isSome then 1 else 0) + (if e.next then 0 else 4) + k.code * 8 +
        (if (s.fib f).arrived then 32 else 0)) % 2 ^ 8 ∧
      t.num (a + 4) 2 = e.eid % 2 ^ 16 ∧ t.num (a + 8) 8 = e.val.toNat ∧
      t.num (a + 0x10) 8 = rpc.toNat ∧ t.num (a + 0x18) 8 = (s.fib f).top.toNat ∧
      t.num (a + 0x20) 8 = frame % 2 ^ 64 ∧ t.num (a + 0x28) 8 = (s.fib f).hch.toNat ∧ t.num (a + 0x30) 8 = 0 ∧
      t.num (a + 0x38) 8 = ((u.fib f).vst + rvd.getD 0 * 2 ^ 56) % 2 ^ 64) ∧
  (∀ (s : State) (f frame : Nat) (h : DWord) (e : Eff) (x : Fibre), tabGet s.fibres f = some x →
    x.regs.length = x.alloc →
    let t := enterHandler s f frame h e
    let ent := s.segEnt frame
    (ent + 5 ≤ x.alloc → ∃ y, tabGet t.fibres f = some y ∧
      y.reg (ent + 1) ++ y.reg ent = h ∧ y.reg (ent + 3) ++ y.reg (ent + 2) = e.val ∧
      y.reg (ent + 4) = BitVec.ofNat 32 e.eid ∧ (∀ n, n < ent ∨ ent + 5 ≤ n → y.reg n = x.reg n) ∧
      y.top = BitVec.ofNat 64 (s.segPrev frame) ∧ y.hch = BitVec.ofNat 64 (s.segHlink frame) ∧
      y.pc = BitVec.ofNat 64 (s.segHpc frame) &&& ~~~7 ∧ y.pck = .transfer ∧ y.preds = x.preds ∧ y.fpm = x.fpm ∧
      y.cy = x.cy ∧ y.vst = x.vst) ∧
    (∀ g, g ≠ f → tabGet t.fibres g = tabGet s.fibres g) ∧ t.mem = s.mem) ∧
  (∀ (s s1 : State) (n f : Nat) (e : Eff), searched s f e.eid = .ok s1 →
    let frame := handlerSearch s1 f e.eid
    ¬ (e.eid = 0x11 ∧ s.plOf f ≠ 0) → frame ≠ 0 → (s1.fib f).alloc < s1.segEnt frame + 5 →
    raiseFrom (n + 1) s f e = raiseFrom n s1 f (illegal 0x0A)) ∧
  (∀ (g : Guard) (o : Bin) (u : Bool),
    let traps := fun (s : State) (_ : Run) (f : Nat) (v : State) => ∃ h t,
      ∃ s0, searched (s.modFib f fun x => { x with scStart := none }) f 0x20 = .ok s0 ∧
      let frame := handlerSearch s0 f 0x20
      o.ud = false ∧ s.op32 (s.fib f) o.b = 0 ∧ (s.fib f).fpm.getLsbD 9 = true ∧ frame ≠ 0 ∧
      (s.tm (s.fib f).team).status = none ∧ s0.segEnt frame + 4 < (s0.fib f).alloc ∧
      captureSegments s0 f frame (effArith 0x20) (s0.fib f).pc (s0.fib f).pck none true = .ok (some h, t) ∧
      v = enterHandler t f frame h (effArith 0x20)
    AloneMasks (.div g o u) (fun x => Mask.one x.home) (fun _ => 0) traps ∧
    AloneMasks (.rem g o u) (fun x => Mask.one x.home) (fun _ => 0) traps) ∧
  (∀ (s : State) (r : Run) (rest : List Run) (w : Nat) (i : Instr), s.agenda = [] → s.runs = r :: rest →
    r.words.getD (r.idx - 1) 0 = w → decodeWord w = .ok i → Home.permitted r.hdr.cls i.home = true →
    (i.endsClause = true → r.idx = r.hdr.count) → i.uniformInRange = true → fselWithoutFt i w = false →
    ftBad i r.hdr = false → (s.tm (s.flk r.flock).team).pl.toNat < i.level →
    step s = .next (raiseOn (noteEligible s) r (actingMask (noteEligible s) r i.guard) i.endsClause
      { eid := 0x51, val := BitVec.ofNat 64 (w / 2 ^ 54 % 2 ^ 10) }))

/-- R128, R283, R291: PERF of named effects that frames take captures each acting fibre up to its frame and enters its
handler, in lane order. R128, R299: a PERF that no frame takes runs the root handler at the next header.
Log entries 24 and 35: choices of the model. -/
def Obligations.PerformingEffects : Prop :=
  ∀ (g : Guard) (d : BitVec 8) (a b : Src) (regs : Bool) (s : State) (r : Run) (u : State) (ent : Mask), Issuing s r →
    let i := Instr.perf g d a b regs
    let s0 := advanceLanes s r (r.lanes &&& ~~~guardMask s r g)
    let effect := fun (p : Nat × Nat) =>
      let v := s0.op64 (s0.fib p.2) b
      let e : Eff := { eid := (s0.op32 (s0.fib p.2) a).toNat, val := v }
      (p.1, p.2, { e with next := true, park := some (waitObject s0 p.2 v), perf := some (r.after, d.toNat, regs) })
    (∀ p ∈ s.acting r g, RegsReady i (s0.fib p.2) ∧ performable (s0.op32 (s0.fib p.2) a).toNat = true) →
    PerfChain r.after d.toNat regs ((s.acting r g).map effect) s0 u ent →
    ∃ t, exec i s = .next t ∧ Still (settleMasks u r.flock ent 0) t ∧ t.fibres = u.fibres

/-- R112, R130, R131, R293: RSM and RSMT resume a live continuation whose registers fit; RSM links its bottom frame to
the resumer first, RSMT needs it linked so.
Log entries 31 and 32: choices of the model. -/
def Obligations.Resumption : Prop := ∀ (g : Guard) (a b : Src),
  let ready := fun (s : State) (f p : Nat) (u : State) =>
    handleSound s (s.ctxOf f) (s.op64 (s.fib f) a) = .ok () ∧ contSound s p = .ok () ∧
    liveHeader s (s.ctxOf f) (s.op64 (s.fib f) a) = some p ∧ imageN s p ≤ (s.fib f).alloc ∧ resumeReady s f p = .ok u
  Lanewise (.rsm g a b) (fun s r f how v => ∃ p u, how = .resumed ∧ ready s f p u ∧
    let bot := s.num (p + 0x20) 8
    v = resumeContinuation (((u.putNum bot 8 (s.fib f).top.toNat).putNum (bot + 8) 8 r.after.toNat).putNum (bot + 0x18)
      8 (s.fib f).hch.toNat) f p (s.op64 (s.fib f) b)) ∧
  Lanewise (.rsmt g a b) (fun s _ f how v => ∃ p u, how = .resumed ∧ ready s f p u ∧
    let bot := s.num (p + 0x20) 8
    s.segPrev bot = (s.fib f).top.toNat ∧ s.segHlink bot = (s.fib f).hch.toNat ∧
    v = resumeContinuation u f p (s.op64 (s.fib f) b))

/-- R132 to R134, R298: DROPK frees a live continuation, where its bytes are sound. KINFO reads what its selector names off
the header of a live handle, and zero for a handle that is not live; .state gives 1 for a live handle, 2 for a continuation in
transit, and 0 otherwise; .top gives TOP plus 64. KSEND makes its release at system scope, and then answers 5 for a handle that
is not live, 1 for a device outside the launch, 6 for one that is down or contained, and for a local move what the delivery
gives; to another device it sends the continuation, its header in transit, and its register waits.
Log entry 34: choices of the model. -/
def Obligations.ContinuationMoves : Prop := ∀ (g : Guard) (d : BitVec 8) (a b c : Src),
  EachLane (.dropk g a) (fun s _ f v => ∃ p, handleSound s (s.ctxOf f) (s.op64 (s.fib f) a) = .ok () ∧
    liveHeader s (s.ctxOf f) (s.op64 (s.fib f) a) = some p ∧ contSound s p = .ok () ∧
    linksSound s (chainSegs s p) = .ok () ∧ v = dropContinuation (touchSegs s f [p]) (s.ctxOf f) p) ∧
  (∀ (sel : KSel) (dbl : Bool) (read : State → Nat → Nat),
    (sel, dbl, read) ∈ [(.eff a, false, fun s p => s.num (p + 4) 2), (.val a, true, fun s p => s.num (p + 8) 8),
      (.pc a, true, fun s p => s.num (p + 0x10) 8), (.nseg a, false, fun s p => s.num (p + 6) 2),
      (.regs a, false, fun s p => if s.num (p + 1) 1 / 2 % 2 = 1 then s.num (s.num (p + 0x30) 8 + 0x40) 4 % 512 else 0)] →
    EachLane (.kinfo g d sel) (fun s0 _ f v => ∃ n, handleSound s0 (s0.ctxOf f) (s0.op64 (s0.fib f) a) = .ok () ∧
      let s := touchSegs s0 f (headerOf s0 (s0.ctxOf f) (s0.op64 (s0.fib f) a)).toList
      n = (match liveHeader s (s.ctxOf f) (s0.op64 (s0.fib f) a) with
        | some p => read s p
        | none => 0) ∧
      v = s.modFib f fun x => x.setWide dbl d (BitVec.ofNat 64 n))) ∧
  EachLane (.kinfo g d (.state a)) (fun s0 _ f v => ∃ n, handleSound s0 (s0.ctxOf f) (s0.op64 (s0.fib f) a) = .ok () ∧
    let s := touchSegs s0 f (headerOf s0 (s0.ctxOf f) (s0.op64 (s0.fib f) a)).toList
    n = (match headerOf s (s.ctxOf f) (s0.op64 (s0.fib f) a) with
      | some p => if s.num p 1 = 1 then 1 else if s.num p 1 = 5 then 2 else 0
      | none => 0) ∧
    v = s.modFib f fun x => x.setReg d.toNat n) ∧
  EachLane (.kinfo g d .top) (fun s _ f v => v = s.modFib f fun x => x.setPair d.toNat ((s.fib f).top + 0x40)) ∧
  let sends := fun (s : State) (f : Nat) (s1 : State) => (s.op64 (s.fib f) b).toNat % 8 = 0 ∧
    drainAt s f .system false = .ok s1 ∧ handleSound s1 (s1.ctxOf f) (s.op64 (s.fib f) a) = .ok ()
  let held := fun (s : State) (f : Nat) (s1 : State) (p : Nat) => sends s f s1 ∧
    liveHeader s1 (s1.ctxOf f) (s.op64 (s.fib f) a) = some p ∧ contWhole s1 p = .ok ()
  EachLane (.ksend g d a b c) (fun s _ f v => ∃ s1, sends s f s1 ∧
    liveHeader s1 (s1.ctxOf f) (s.op64 (s.fib f) a) = none ∧ v = s1.modFib f fun x => x.setReg d.toNat 5) ∧
  EachLane (.ksend g d a b c) (fun s _ f v => ∃ p s1, held s f s1 p ∧
    (s.op32 (s.fib f) c).toNat ∉ s1.launchDevs f ∧ v = s1.modFib f fun x => x.setReg d.toNat 1) ∧
  EachLane (.ksend g d a b c) (fun s _ f v => ∃ p s1 u st, held s f s1 p ∧
    (s.op32 (s.fib f) c).toNat = s1.dev.devid ∧ s1.dev.devid ∈ s1.launchDevs f ∧
    sendLocal s1 f p (s.op64 (s.fib f) b) = .ok (st, u) ∧ v = u.modFib f fun x => x.setReg d.toNat st) ∧
  EachLane (.ksend g d a b c) (fun s _ f v => ∃ p s1, held s f s1 p ∧
    let dev := (s.op32 (s.fib f) c).toNat
    dev ≠ s1.dev.devid ∧ dev ∈ s1.launchDevs f ∧ (dev ∈ s1.dev.down ∨ (4, dev) ∈ s1.dev.contained) ∧
    v = s1.modFib f fun x => x.setReg d.toNat 6) ∧
  EachLane (.ksend g d a b c) (fun s _ f v => ∃ p s1, held s f s1 p ∧
    let dev := (s.op32 (s.fib f) c).toNat
    dev ≠ s1.dev.devid ∧ dev ∈ s1.launchDevs f ∧ dev ∉ s1.dev.down ∧ (4, dev) ∉ s1.dev.contained ∧
    v = ((s1.putNum p 1 5).send (.ksend dev p (sendMessage s1 (s1.ctxOf f) p (s.op64 (s.fib f) b)))).modFib f fun x =>
      { x with busy := x.busy ++ [(d.toNat, sendToken p)] })

/-! ### Memory -/

/-- R6: a number is stored little-endian, and the bytes beside it stay. -/
def Obligations.ByteOrder : Prop := ∀ (s : State) (a n v k : Nat),
  (s.putNum a n v).num a n = v % 2 ^ (8 * n) ∧
  (∀ i < n, ((s.putNum a n v).byte (a + i)).toNat = v / 2 ^ (8 * i) % 2 ^ 8) ∧
  (k < a ∨ a + n ≤ k → (s.putNum a n v).byte k = s.byte k) ∧
  (Memory.wf s.mem = true → Memory.wf (s.putNum a n v).mem = true)

/-- R165 to R167, R170, R173: LD and LDS of an access whose checks pass write the loaded bytes, sign-extended for `.b` and
`.h`; an acquire load then advances the view. R165, R170, R309, R311: a 32-bit load from the fibre's lane-private slice,
in range and aligned, in a line that is full, with no store on the way and no matrix loop that holds it: the register
takes the four bytes, the lowest first, and the fibre notes the carried stamp of the line.
Log entries 17 and 108: choices of the model. -/
def Obligations.Loads : Prop :=
  (∀ (g : Guard) (m : MemF),
    EachLane (.ld g m) (fun s _ f v => ∃ bytes k s1, m.ord ≠ .acq ∧ loadAccess s f m = .ok (bytes, k, s1) ∧
      v = putLoaded s1 f m.wid m.d bytes) ∧
    EachLane (.ld g m) (fun s _ f v => ∃ bytes k s1 s2, m.ord = .acq ∧ loadAccess s f m = .ok (bytes, k, s1) ∧
      acquireLoad s1 f [f] m k = .ok s2 ∧ v = putLoaded s2 f m.wid m.d bytes) ∧
    Flockwise (.lds g m) (fun s _ f fs v => ∃ bytes k s1 s2, loadAccess s f m = .ok (bytes, k, s1) ∧
      acquireLoad s1 f fs m k = .ok s2 ∧ v = setSreg s2 f m.d (extend m.wid (natOfBytes bytes)))) ∧
  (∀ (g : Guard) (m : MemF) (s : State) (r : Run) (f : Nat),
    Whole s r g f [] → RegsReady (.ld g m) (s.fib f) → m.wid = .w → m.space = .lane → m.ord = .plain →
    (s.fib f).queue = [] → (s.core (s.fib f).core).order = [] →
    let a := (s.op64 (s.fib f) m.base + m.ofs.signExtend 64).toNat
    let key := scratchKey (s.fib f).core ((s.fib f).slice + a)
    a % 4 = 0 → a + 4 ≤ (s.tm (s.fib f).team).p → (s.tm (s.fib f).team).p ≤ 2 ^ 22 →
    s.poisonIn key 4 = none →
    (s.core (scratchCore key)).contained = false → s.mute (s.coreAgent (scratchCore key)) = false →
    tabGet (s.core (scratchCore key)).emptyLines (scratchOfs key / 128) = none →
    (∀ i < 4, s.loopHolds (key + i) = false) →
    let ls := s.lineLs f (lineOf key) (s.line (lineOf key)).ls
    ∃ t, exec (.ld g m) s = .next t ∧
      Still ((s.noteLs f ls).modFib f fun x => x.setReg m.d.toNat (BitVec.ofNat 32 (s.num key 4))) t)

/-- R171, R173: ST and STS of an access whose checks pass join the fibre's store queue; with `.rel` every earlier store, for
STS of every fibre of GuardMask, is performed first at the scope, which for host memory is scope 5 (R446). Without it, and with no open fold, not a byte of memory
changes. R174, R330: a store outside folds that is performed at a scratchpad, or at its home at device or system scope,
leaves the merged bytes there, unless they lie in a free segment of its context's frame heap (R325); at any scope every
other byte of memory that no L1 holds dirty stays.
Log entries 38, 39 and 108: choices of the model. -/
def Obligations.Stores : Prop :=
  (∀ (g : Guard) (m : MemF),
    EachLane (.st g m) (fun s r f v => ∃ b va ps fold s1 s2, memBase s f m.base m.space .store = .ok b ∧
      checkStore s f m.space (b + m.ofs.signExtend 64) (Wid.bytes m.wid) (Wid.align m.wid) = .ok (va, ps, fold, s1) ∧
      (if m.ord = .rel then drainAt s1 f (actScope ps m.scope) false else .ok s1) = .ok s2 ∧
      v = let p := startTok s2 r m.ft [f]
        pushStore p.2 f va ps (storeBytes (p.2.fib f) m.wid m.d) m.scope m.line fold (p.2.fib f).k p.1) ∧
    Flockwise (.sts g m) (fun s r f fs v => ∃ b va ps fold s1 s2, memBase s f m.base m.space .store = .ok b ∧
      checkStore s f m.space (b + m.ofs.signExtend 64) (Wid.bytes m.wid) (Wid.align m.wid) = .ok (va, ps, fold, s1) ∧
      (if m.ord = .rel then releaseAll s1 fs (actScope ps m.scope) else .ok s1) = .ok s2 ∧
      v = let p := startTok s2 r m.ft fs
        pushStore p.2 f va ps (bytesOfNat (Wid.bytes m.wid) (sreg p.2 f m.d).toNat) m.scope m.line fold
          (if m.ord = .rel then greatestK s2 fs else (s2.fib f).k) p.1) ∧
    (∀ s r f b va ps s1, Whole s r g f [] → RegsReady (.st g m) (s.fib f) → m.ord ≠ .rel →
      memBase s f m.base m.space .store = .ok b →
      checkStore s f m.space (b + m.ofs.signExtend 64) (Wid.bytes m.wid) (Wid.align m.wid) = .ok (va, ps, none, s1) →
      ∃ t, exec (.st g m) s = .next t ∧ (∀ k, t.byte k = s.byte k) ∧ ∃ q, (t.fib f).queue = (s.fib f).queue ++ [q] ∧
        q.cells = cellsOf ps (storeBytes (s.fib f) m.wid m.d) ∧ q.scope = m.scope ∧ q.line = m.line)) ∧
  (∀ (s t : State) (core : Nat) (r : StoreReq) (k : Nat),
    r.fold = none → performStore s core r = some t → (∀ c ∈ s.clusters, tabGet c.2.dirty k = none) →
    ((∀ c ∈ r.cells, c.1 ≠ k) → t.byte k = s.byte k) ∧
    (∀ v m, (r.cells.map (·.1)).Nodup → (k, v, m) ∈ r.cells → levelOf k = .scratch ∨ ((r.scope = .device ∨ r.scope = .system) ∧
        ((s.ctx r.ctx).fhb.toNat + 0x80000 ≤ k → k < (s.ctx r.ctx).fhl.toNat → (s.ctx r.ctx).segTaken k = true)) →
      t.byte k = (s.byte k &&& ~~~m) ||| (v &&& m)))

/-- The value that an atomic leaves (R176), on 32 or 64 bits; the FP32 operations round to nearest even and signal
nothing. -/
def atomTable {n : Nat} (op : AtomOp) (old b : BitVec n) : BitVec n :=
  match op with
  | .add => old + b
  | .and => old &&& b
  | .or => old ||| b
  | .xor => old ^^^ b
  | .min => if old.toInt ≤ b.toInt then old else b
  | .max => if b.toInt ≤ old.toInt then old else b
  | .minu => if old.toNat ≤ b.toNat then old else b
  | .maxu => if b.toNat ≤ old.toNat then old else b
  | .xchg => b
  | .incw => if b.toNat ≤ old.toNat then 0 else old + 1
  | .fadd => BitVec.ofNat n (fpAdd p32 .rne old.toNat b.toNat).1
  | .fmin => BitVec.ofNat n (fpMinMax p32 false false old.toNat b.toNat).1
  | .fmax => BitVec.ofNat n (fpMinMax p32 true false old.toNat b.toNat).1

/-- R176, R177: an atomic whose access succeeds leaves the table's value of the old one and operand B, or, where C matches,
B for a compare and swap, which else writes nothing; D takes the old value unless `.nr` drops it.
Log entry 17: choices of the model. -/
def Obligations.Atomics : Prop := ∀ (g : Guard) (m : AtmF) (op : AtomOp) (nr : Bool) (c : BitVec 8),
  let ret := fun (nr dbl : Bool) (s : State) (f : Nat) (old : List Byte) =>
    if nr then s else s.modFib f fun x => x.setWide dbl m.d (BitVec.ofNat 64 (natOfBytes old))
  EachLane (.atom g m op nr) (fun s _ f v => ∃ old u, atomicAccess s f m 4 (op = .add || op = .xchg) (fun bs =>
      some (bytesOfNat 4 (atomTable op (BitVec.ofNat 32 (natOfBytes bs)) ((s.fib f).reg m.b.toNat)).toNat)) = .ok (old, u) ∧
    v = ret nr false u f old) ∧
  EachLane (.atomd g m op nr) (fun s _ f v => ∃ old u, atomicAccess s f m 8 (op = .add || op = .xchg) (fun bs =>
      some (bytesOfNat 8 (atomTable op (BitVec.ofNat 64 (natOfBytes bs)) (s.op64 (s.fib f) (.v m.b))).toNat)) = .ok (old, u) ∧
    v = ret nr true u f old) ∧
  EachLane (.cas g m c) (fun s _ f v => ∃ old u, atomicAccess s f m 4 true (fun bs =>
      if BitVec.ofNat 32 (natOfBytes bs) = (s.fib f).reg c.toNat then
        some (bytesOfNat 4 ((s.fib f).reg m.b.toNat).toNat) else none) = .ok (old, u) ∧ v = ret false false u f old) ∧
  EachLane (.casd g m c) (fun s _ f v => ∃ old u, atomicAccess s f m 8 true (fun bs =>
      if BitVec.ofNat 64 (natOfBytes bs) = s.op64 (s.fib f) (.v c) then
        some (bytesOfNat 8 (s.op64 (s.fib f) (.v m.b)).toNat) else none) = .ok (old, u) ∧ v = ret false true u f old)

/-- R178: an atomic at its point, bytes of a scratchpad, writes what `fn` makes of the old bytes, nothing where it makes nothing,
answers the old ones, and leaves every other byte.
Log entry 17: choices of the model. -/
def Obligations.AtomicPoint : Prop := ∀ (s t : State) (f : Nat) (va : DWord) (key n : Nat) (scope : Scope)
    (fn : List Byte → Option (List Byte)) (old : List Byte) (k : Nat),
  levelOf key = .scratch → levelOf (key + n - 1) = .scratch → 0 < n → (∀ bs, fn (s.bytes key n) = some bs → bs.length = n) →
  atomicAt s f va ⟨.scratch, key⟩ n scope fn = .ok (old, k, t) →
  old = s.bytes key n ∧ t.bytes key n = (fn (s.bytes key n)).getD old ∧ ∀ j, j < key ∨ key + n ≤ j → t.byte j = s.byte j

/-- R175, R180, R181, R194, R315: full/empty bits, fences and code invalidation on one lane. A bit is set or cleared once the
fibre's earlier stores to its core have been performed; an invalidation sends the line's dirty bytes home first, and at system scope asks the launch's other devices too.
Log entries 18, 49 and 109: choices of the model. -/
def Obligations.FencesAndBits : Prop := ∀ (g : Guard) (m : LineF) (scope : Scope) (o : Ord),
  let bit := fun (full : Bool) (s : State) (_ : Run) (f : Nat) (v : State) => ∃ b va ps s1 s2,
    let key := (firstPiece ps).place.key
    memBase s f m.base m.space .store = .ok b ∧
    resolve s f m.space (b + m.ofs.signExtend 64) 1 1 .store = .ok (va, ps, s1) ∧ (firstPiece ps).place.kind = .scratch ∧
    (if m.ord = .rel then drainAt s1 f m.scope false else .ok s1) = .ok s2 ∧
    onItsWay (reachCore s2 f key) f key = false ∧ v = setLineBit (reachCore s2 f key) key full
  EachLane (.lnset g m) (bit true) ∧ EachLane (.lnclr g m) (bit false) ∧
  EachLane (.fence g scope o) (fun s _ f v => ∃ s1,
    (if o = .rel ∨ o = .ar then drainAt s f scope false else .ok s) = .ok s1 ∧
    (if o = .acq ∨ o = .ar then advanceView s1 f scope (s1.fib f).lineStamp else .ok s1) = .ok v) ∧
  (∀ s r u, Issuing s r → (∀ f ∈ actors s r g, (s.fib f).scStart.isSome) →
    LaneChain (.fenceSc g scope) r (fun s _ f how v => how = .next ∧ ∃ t0 s1,
        drainCore s f (if scope = .system then .system else .device) = .ok s1 ∧ (s1.fib f).scStart = some t0 ∧
        t0 + (if scope = .system then 3 else 1) ≤ s1.dev.hb ∧
        v = s1.modFib f fun x => { x.viewed (max x.vst s1.dev.hb) with scStart := none })
      (s.acting r g) (advanceLanes s r (r.lanes &&& ~~~guardMask s r g)) u 0 0 →
    ∃ t, exec (.fenceSc g scope) s = .next t ∧ Still (settleMasks u r.flock 0 0) t) ∧
  EachLane (.icinv g m) (fun s _ f v => ∃ b s1, memBase s f m.base .generic .fetch = .ok b ∧
    icinvLine s f (b + m.ofs.signExtend 64) = .ok none ∧ drainAt s f m.scope false = .ok s1 ∧ v = s1) ∧
  EachLane (.icinv g m) (fun s r f v => ∃ b l s1 s2, memBase s f m.base .generic .fetch = .ok b ∧
    icinvLine s f (b + m.ofs.signExtend 64) = .ok (some l) ∧ drainAt s f m.scope false = .ok s1 ∧
    homeLine s1 (clusterOf (s1.fib f).core) l = some s2 ∧
    v = askDevices ((scopeCores s2 f m.scope).foldl (fun s c => s.modCore c fun x => { x with code := tabDel x.code l }) s2) f
      (scopeDevs s2 f m.scope) (flagOf r m.ft) fun d tok => .icinv d tok (l * 128))

/-- R183 to R188: folds and views on one lane. FOPEN opens a free slot; FSEAL starts the seal of an open fold, or hands
over how an ended one ended; FABORT answers 0 to 3 and empties the slot; VIEW answers the advanced view. R344: an acquire
raises a view to the carried stamp and the settled stamp of its scope and never lowers it; it waits while the carried
stamp leads the heartbeat.
Log entries 33, 43, 44 and 45: choices of the model. -/
def Obligations.FoldsViews : Prop :=
  (∀ (g : Guard) (d : BitVec 8) (n : BitVec 2) (a : Src),
    EachLane (.fopen g n) (fun s _ f v => slotAt s f n = none ∧ (s.fib f).openFold = none ∧
      ((s.ctx (s.ctxOf f)).folds = 0 ∨ (s.ctx (s.ctxOf f)).folds ≤ Config.foldPool (s.ctxOf f)) ∧
      let slice := sliceOf (s.fib f).core
      let tag : FoldTag := ⟨(s.tm (s.fib f).team).devIndex, slice, tabGetD s.dev.foldSeq slice 0⟩
      v = ((({ s with folds := s.folds ++ [Fold.fresh tag (s.ctxOf f) f n.toNat] }).modCtx (s.ctxOf f) fun c =>
          { c with folds := c.folds + 1 }).modDev fun d => { d with foldSeq := tabPut d.foldSeq slice (tag.seq + 1) }).modFib
        f fun x => x.setSlot n.toNat (some ⟨tag, .open, 0⟩)) ∧
    EachLane (.fseal g d n) (fun s _ f v => ∃ sl s1, slotAt s f n = some sl ∧ sl.st = .open ∧
      drainAt s f .system false = .ok s1 ∧
      v = ((s1.bump).modFold sl.tag fun r => { r with dreg := some d.toNat, tok := some s1.seq }).modFib f fun x =>
        { x.setSlot n.toNat (some { sl with st := .sealing }) with
          busy := x.busy ++ [(d.toNat, s1.seq), (d.toNat + 1, s1.seq)] }) ∧
    EachLane (.fseal g d n) (fun s _ f v => ∃ sl s1, slotAt s f n = some sl ∧ drainAt s f .system false = .ok s1 ∧
      ((sl.st = .committed ∧ v = s1.modFib f fun x => x.setPair d.toNat (BitVec.ofNat 64 sl.stamp)) ∨
       (sl.st = .aborted ∧ v = s1.modFib f fun x => x.setPair d.toNat (1 <<< 63)))) ∧
    EachLane (.fabort g d n) (fun s _ f v =>
      (slotAt s f n = none ∧ v = s.modFib f fun x => x.setReg d.toNat 3) ∨
      (∃ sl, slotAt s f n = some sl ∧
        let out := fun (s : State) (c : Word) => (s.modFib f fun x => x.setSlot n.toNat none).modFib f fun x =>
          x.setReg d.toNat c
        ((sl.st = .open ∧ v = out (discardFold s sl.tag f) 0) ∨ (sl.st = .committed ∧ v = out s 1) ∨
         (sl.st = .aborted ∧ v = out s 2)))) ∧
    EachLane (.view g d none) (fun s _ f v => ∃ u, advanceView s f .system 0 = .ok u ∧
      v = u.modFib f fun x => x.setPair d.toNat (BitVec.ofNat 64 ((u.fib f).vst % 2 ^ 56))) ∧
    EachLane (.view g d (some a)) (fun s _ f v =>
      let t := (s.op64 (s.fib f) a).toNat % 2 ^ 56
      t ≤ s.dev.hb + 2 ^ 16 ∧ t ≤ max (s.fib f).vst (s.systemSettled (s.launchDevs f)) ∧
      v = s.modFib f fun x => (x.viewed (max x.vst t)).setPair d.toNat (BitVec.ofNat 64 (max x.vst t % 2 ^ 56)))) ∧
  (∀ (s : State) (f : Nat) (x : Fibre) (scope : Scope) (k : Nat),
    tabGet s.fibres f = some x →
    (s.dev.hb < k → advanceView s f scope k = .wait) ∧
    (k ≤ s.dev.hb → ∃ t, advanceView s f scope k = .ok t ∧ x.vst ≤ (t.fib f).vst ∧ k ≤ (t.fib f).vst ∧
      (scope = .device → s.settled ≤ (t.fib f).vst) ∧ (∀ g, g ≠ f → tabGet t.fibres g = tabGet s.fibres g) ∧
      t.mem = s.mem))

/-! ### Barriers, tiles, matrix loops and tasks -/

/-- R190 to R193: the barrier instructions, on a line whose checks pass and which is free of pending versions. An arrival
answers the phase before it. R190, R191: the arrival that meets EXPECT moves the phase on, clears ARRIVED, and takes from EXPECT
one for each arrival of `.leave` in the phase, itself counted; the line stays live unless that leaves EXPECT 0, and LIVE then
is 0. Any other arrival counts one, and the line stays live with its EXPECT. Other bytes of memory stay. `.kill` clears LIVE and
leaves every other bit of memory that no L1 holds dirty.
Log entries 18, 46, 47 and 107: choices of the model. -/
def Obligations.Barriers : Prop :=
  (∀ (g : Guard) (d : BitVec 8) (m : LineF),
    let arrives := fun (leave : Bool) (s : State) (_ : Run) (f : Nat) (v : State) => ∃ va line s1 u,
      barrierLine s f m .atomic = .ok (va, line, s1) ∧ s1.barrierLive (line * 128) = true ∧ copyHolds s1 line = false ∧
      drainAt s1 f m.scope false = .ok u ∧ (u.line line).pend = none ∧
      let w := arriveAt (clearLine u line) line (u.fib f).k leave
      v = w.2.modFib f fun x => x.setReg d.toNat (BitVec.ofNat 32 w.1)
    EachLane (.baraArrive g d m) (arrives false) ∧ EachLane (.baraLeave g d m) (arrives true) ∧
    Flockwise (.baraInit g d m) (fun s _ f fs v => ∃ va line s1 w, barrierLine s f m .atomic = .ok (va, line, s1) ∧
      s1.barrierLive (line * 128) = false ∧ 0 < ((s.fib f).reg d.toNat).toNat ∧
      ((s.fib f).reg d.toNat).toNat ≤ 2 ^ 24 ∧ releaseAll s1 fs m.scope = .ok w ∧
      let u := clearLine w line
      (u.line line).pend = none ∧ lineBusy u line = false ∧
      v = putBarrier (u.modLine line fun l => { l with leaves := 0 }) line ((s.fib f).reg d.toNat).toNat 0 0 1 0
        (u.fib f).k) ∧
    Flockwise (.baraKill g d m) (fun s _ f fs v => ∃ va line s1 u, barrierLine s f m .atomic = .ok (va, line, s1) ∧
      releaseAll s1 fs m.scope = .ok u ∧ (u.line line).pend = none ∧
      v = wakeBarrier (killBarrier (u.modLine line fun l => { l with leaves := 0 }) line (u.fib f).k) line) ∧
    EachLane (.barw g d m) (fun s _ f v => ∃ va line s1 u, barrierLine s f m .load = .ok (va, line, s1) ∧
      (s1.barrierLive (line * 128) = false ∨ s1.barField line 8 4 ≠ ((s.fib f).reg d.toNat).toNat) ∧
      advanceView s1 f m.scope (s.line line).ls = .ok u ∧ v = observeLine u line)) ∧
  (∀ (s : State) (line k b : Nat) (leave : Bool),
    let expect := s.barField line 0 4
    let arrived := s.barField line 4 4
    let phase := s.barField line 8 4
    let left := (s.line line).leaves + (if leave then 1 else 0)
    let p := arriveAt s line k leave
    let u := p.2
    p.1 = phase ∧
    (b < line * 128 ∨ line * 128 + 24 ≤ b → u.byte b = s.byte b) ∧
    ((arrived + 1) % 2 ^ 32 = expect → u.barField line 4 4 = 0 ∧ u.barField line 8 4 = (phase + 1) % 2 ^ 32 ∧
      u.barField line 0 4 = expect - left ∧ u.barField line 0x0C 4 = (if expect ≤ left then 0 else 1) ∧
      u.barrierLive (line * 128) = decide (left < expect) ∧ (u.line line).leaves = 0) ∧
    ((arrived + 1) % 2 ^ 32 ≠ expect → u.barField line 4 4 = (arrived + 1) % 2 ^ 32 ∧ u.barField line 8 4 = phase ∧
      u.barField line 0 4 = expect ∧ u.barField line 0x0C 4 = 1 ∧ u.barrierLive (line * 128) = true ∧
      (u.line line).leaves = left) ∧
    u.barField line 0x10 8 = s.barField line 0x10 8) ∧
  (∀ (s : State) (line k b : Nat), (∀ c ∈ s.clusters, tabGet c.2.dirty b = none) →
    (killBarrier s line k).barrierLive (line * 128) = false ∧
    (killBarrier s line k).byte b = if b = line * 128 + 0x0C then s.byte b &&& 0xFE else s.byte b)

/-- R198, R210 to R213: TDEF defines a tile in the lowest free number, or answers −1 where none is free; TTAG retags a
READY tile in the tile's own limits; TWAIT goes on from the state it waits for; TREL empties a tile and, with `.u`, takes
it away.
Log entries 53 and 60: choices of the model. -/
def Obligations.TileDefinitions : Prop := ∀ (g : Guard) (d : BitVec 8) (a b : Src) (chain ready e : Bool) (sel : TSel),
  let named := fun (s : State) (f : Nat) (h : Word) (r : TileRef) (t : Tile) =>
    namedTile s (s.fib f).team h.toNat = some r ∧ s.tile r = some t
  let describes := fun (s : State) (f : Nat) (t : Tile) (u : State) => ∃ bytes k t0,
    loadBytes s f (s.op64 (s.fib f) a) 16 16 .table false = .ok (bytes, k, u) ∧
    descTile bytes (s.op32 (s.fib f) b) chain ready = .ok t0 ∧ tileLimits s (s.fib f).team t0 = .ok t
  Flockwise (.tdef g d a b chain ready) (fun s _ f fs v => ∃ t u, describes s f t u ∧
    0 < entriesFree s (s.fib f).core (s.fib f).team ∧
    let q := defineTile u (s.fib f).core (s.fib f).team t
    v = put32All q.2.2 fs d q.1) ∧
  Flockwise (.tdef g d a b chain ready) (fun s _ f fs v => ∃ t u, describes s f t u ∧
    entriesFree s (s.fib f).core (s.fib f).team = 0 ∧ v = put32All u fs d 0xFFFFFFFF) ∧
  Flockwise (.ttag g a b) (fun s _ f fs v => ∃ r t t1 w u, named s f (s.op32 (s.fib f) a) r t ∧
    (s.op32 (s.fib f) b).toNat < 2 ^ 16 ∧ t.st = .ready ∧ tileBusy s r = false ∧
    retag s (s.fib f).team t ((s.op32 (s.fib f) b).setWidth 16) = .ok t1 ∧
    drained s fs = .ok w ∧ findReady (performCore w (w.fib f).core) fs t = .ok u ∧ v = u.modTile r fun _ => t1) ∧
  WritesWord (.tqry g d a sel) d (fun s x => queryTile sel ((namedTile s x.team (s.op32 x a).toNat).bind s.tile)) ∧
  Flockwise (.twait g a e) (fun s _ f fs v => ∃ r t, named s f (s.op32 (s.fib f) a) r t ∧
    t.st = (if e then .empty else .ready) ∧ acquireAll s fs .team t.ls = .ok v) ∧
  Flockwise (.trel g a e) (fun s _ f fs v => ∃ r t w u, named s f (s.op32 (s.fib f) a) r t ∧ drained s fs = .ok w ∧
    ((t.st = .empty ∧ u = w) ∨ (t.st = .ready ∧ tileBusy s r = false ∧ findReady w fs t = .ok u)) ∧
    v = if e then freeTile (setTileState u r .empty) r else setTileState u r .empty)

/-- R203, R205, R214, R215: TLD fills an EMPTY tile, TST drains a READY one, RODLD takes a READY tile into EMPTY rods, and
the destination register waits for it. The tiles' states change at once, the lines that the transfer will write become
empty, all of them and no others, and the core's engine takes the transfer.
Log entry 59: choices of the model. -/
def Obligations.TileTransfers : Prop :=
  (∀ (g : Guard) (d : BitVec 8) (a b c : Src) (ft : Ft),
    let named := fun (s : State) (f : Nat) (h : Word) (r : TileRef) (t : Tile) =>
      namedTile s (s.fib f).team h.toNat = some r ∧ s.tile r = some t
    Flockwise (.tld g d a b c ft) (fun s r f fs v => ∃ k t u w, named s f (s.op32 (s.fib f) a) k t ∧ t.st = .empty ∧
      checkTransfer s f t (s.op64 (s.fib f) b) (s.op32 (s.fib f) c).toNat false = .ok u ∧ drained u fs = .ok w ∧
      let q := startOp w r ft fs (some d)
      v = beginTransfer q.2 (s.fib f).core ⟨.load, (s.fib f).team, (s.fib f).slice, none, some k, s.op64 (s.fib f) b,
        (s.op32 (s.fib f) c).toNat, t.tag, greatestK s fs, fs, some d.toNat, some q.1, none, [], 0⟩) ∧
    Flockwise (.tst g d a b c ft) (fun s r f fs v => ∃ k t u z w, named s f (s.op32 (s.fib f) a) k t ∧ t.st = .ready ∧
      checkTransfer s f t (s.op64 (s.fib f) b) (s.op32 (s.fib f) c).toNat true = .ok u ∧
      drained u fs = .ok z ∧ findReady z fs t = .ok w ∧
      let q := startOp w r ft fs (some d)
      v = beginTransfer q.2 (s.fib f).core ⟨.store, (s.fib f).team, (s.fib f).slice, some k, none, s.op64 (s.fib f) b,
        (s.op32 (s.fib f) c).toNat, t.tag, greatestK s fs, fs, some d.toNat, some q.1, none, [], 0⟩) ∧
    Flockwise (.rodld g d a b ft) (fun s r f fs v => ∃ k t j w z u t1, named s f (s.op32 (s.fib f) a) k t ∧
      named s f (s.op32 (s.fib f) b) j w ∧ checkRodLoad s (s.fib f).team t w = .ok t1 ∧ t.st = .empty ∧ w.st = .ready ∧
      loopNames s k = false ∧ loopNames s j = false ∧ drained s fs = .ok z ∧ findReady z fs w = .ok u ∧
      let q := startOp u r ft fs (some d)
      v = beginTransfer q.2 (s.fib f).core ⟨.rod, (s.fib f).team, (s.fib f).slice, some j, some k, 0, 0, rodTag w.tag,
        greatestK s fs, fs, some d.toNat, some q.1, none, [], 0⟩)) ∧
  (∀ (s : State) (core : Nat) (x : Xfer) (r : TileRef) (t : Tile), s.tile r = some t →
    let u := beginTransfer s core x
    (x.src = some r → (u.tile r).map (·.st) = some .draining) ∧
    (x.dst = some r → x.src ≠ some r → (u.tile r).map (·.st) = some .filling) ∧
    (x.src ≠ some r → x.dst ≠ some r → u.tile r = some t) ∧
    (u.core core).xfers = (s.core core).xfers ++ [{ x with lines := x.fills s }] ∧
    (∀ c n, (tabGet (u.core c).emptyLines n).isSome =
      (decide ((c, n) ∈ x.fills s) || (tabGet (s.core c).emptyLines n).isSome)) ∧
    u.mem = s.mem)

/-- R216, R217, R366, R367: QST pushes one store per element, each code and the carry from the one before; in a tile with
block scales an element's scale is the byte that its lane would read. At the end of an unchained line `.keep` pushes the
last carry too, as element of row 0 of the side tile, and the carry register becomes 0; else it holds the last carry. No
element lies in a live barrier line (R193), and what it finds READY it acquires (R348). CYRD
and CYWR move a carry register. -/
def Obligations.QuantisingStore : Prop := ∀ (g : Guard) (d : BitVec 8) (a b : Src) (keep : Option Src) (n : QstN)
    (cy : BitVec 3) (ft : Ft),
  let named := fun (s : State) (f : Nat) (h : Word) (r : TileRef) (t : Tile) =>
    namedTile s (s.fib f).team h.toNat = some r ∧ s.tile r = some t
  let sideOf := fun (s : State) (f cnt : Nat) (side : Option (TileRef × Tile)) =>
    (keep = none → side = none) ∧ ∀ c, keep = some c → ∃ w y, side = some (w, y) ∧ named s f (s.op32 (s.fib f) c) w y ∧
      y.rod = false ∧ tagFmt y.tag = some .fp32 ∧ cnt ≤ y.cols ∧ y.st = .ready
  EachLane (.qst g d a b keep n cy ft) (fun s run f v => ∃ r t m u0 u side,
    let pos := (s.op32 (s.fib f) b).toNat
    let cnt := QstN.count n
    let l := pos % 2 ^ 12
    let e := pos / 2 ^ 12 % 2 ^ 16
    let team := (s.fib f).team
    named s f (s.op32 (s.fib f) a) r t ∧ qstTarget t = .ok m ∧ sideOf s f t.lineCount side ∧
    d.toNat % min cnt 8 = 0 ∧ d.toNat + cnt ≤ (s.fib f).alloc ∧
    (∀ k ∈ (s.fib f).busy, ¬ (d.toNat ≤ k.1 ∧ k.1 < d.toNat + cnt)) ∧
    pos < 2 ^ 28 ∧ l < t.lineCount ∧ e + cnt ≤ t.lineLen ∧ t.st = .ready ∧ findReady s [f] t = .ok u0 ∧
    sideFound u0 f side = .ok u ∧
    let view := TileView.ofTag r.core team t m
    let scale := fun (e : Nat) => let k := TileView.scaleKey s view l (e / 48)
      if tagScale t.tag = 2 then (overlay (s.fib f).queue k (engineByte s r.core k)).toNat else 0x7F
    let q := qstCodes m scale ((s.fib f).cy.getD cy.toNat 0).toNat
      ((List.range cnt).map fun i => (s.fib f).reg (d.toNat + i)) e
    let ends := decide (t.lineLen = e + cnt) && !t.chain
    let kept := match side with
      | some w => if ends then [TileView.cells s ⟨w.1.core, team, { w.2 with axis := false }, .fp32, 0, 0⟩ 0 l q.2] else []
      | none => []
    let stores := ((List.range cnt).map fun i => TileView.cells s view l (e + i) (q.1.getD i 0)) ++ kept
    (∀ c ∈ stores.flatten, s.barrierLive c.1 = false) ∧
    let p := startTok u run ft [f]
    v = (pushElements p.2 f p.1 stores).modFib f fun x => { x with cy := setAt x.cy cy.toNat (if ends then 0 else BitVec.ofNat 32 q.2) }) ∧
  WritesWord (.cyrd g d cy) d (fun _ x => x.cy.getD cy.toNat 0) ∧
  Completes (.cywr g a cy) (fun s x => { x with cy := setAt x.cy cy.toNat (s.op32 x a) })

/-- R219, R220: MREADY arms a loop over two READY tiles once its fibres' stores to scratchpads are performed; MLOOP of the
armed pair, whose checks pass, joins its bank's
queue, disarms, and answers the barrier's phase. -/
def Obligations.MatrixLoops : Prop := ∀ (g : Guard) (d : BitVec 8) (a b c : Src) (bank : BitVec 2) (ft : Ft),
  let named := fun (s : State) (f : Nat) (h : BitVec 16) (r : TileRef) (t : Tile) =>
    namedTile s (s.fib f).team h.toNat = some r ∧ s.tile r = some t
  Flockwise (.mready g a) (fun s _ f fs v => ∃ ra ta rb tb z u w,
    let l := loopWord (s.op64 (s.fib f) a)
    named s f l.ah ra ta ∧ named s f l.bh rb tb ∧ ta.st = .ready ∧ tb.st = .ready ∧
    drained s fs = .ok z ∧
    let s0 := performCore z (s.fib f).core
    scratchSettled s0 (s.fib f).core fs = true ∧ findReady s0 fs ta = .ok u ∧ findReady u fs tb = .ok w ∧
    v = w.modFibs fs fun x => { x with armed := some (l.ah, l.bh) }) ∧
  Flockwise (.mloop g d a b c bank ft) (fun s r f fs v => ∃ ra ta rb tb fw ops o s1 u w,
    let l := loopWord (s.op64 (s.fib f) a)
    let core := (s.fib f).core
    let team := (s.fib f).team
    (∀ h ∈ fs, (s.fib h).armed = some (l.ah, l.bh)) ∧ bank.toNat < (s.tm team).banks ∧
    named s f l.ah ra ta ∧ named s f l.bh rb tb ∧ loopShape ta tb l = .ok () ∧ agreedFormat s c fs = .ok fw ∧
    resolveOps ta.tag tb.tag fw l = .ok ops ∧ loopExtent s team ta tb ops l = .ok () ∧
    loopBarrier s f (s.op64 (s.fib f) b) = .ok (o, s1) ∧ ta.st = .ready ∧ tb.st = .ready ∧
    bankRoom s core team bank.toNat = true ∧ findReady s1 fs ta = .ok u ∧ findReady u fs tb = .ok w ∧
    let q := startTok w r ft fs
    v = (put32All (acceptLoop q.2 core team bank.toNat ⟨ra, rb, ta, tb, ops, l⟩ o (greatestK q.2 fs) none q.1 fs) fs d
      (BitVec.ofNat 32 (match o with
        | some k => w.barField k 8 4
        | none => 0))).modFibs fs fun x => { x with armed := none })

/-- R224, R226 to R229: MWAIT goes on once its bank is idle and acquires what its loops released; ACCRD reads waited-for
accumulator elements, and undefined ones of a bank that no wait has matched, ACCWR writes them, ACCZ joins its bank's queue,
MSTAT reads the STATUS of a line and, with `.clr`, zeroes it; where the arrival that writes it is still due, both values are
undefined (R11).
Log entry 57: choices of the model. -/
def Obligations.Accumulators : Prop := ∀ (g : Guard) (d : BitVec 8) (a : Src) (bank : BitVec 2) (n : AccN) (clr : Bool),
  Flockwise (.mwait g bank) (fun s _ f fs v => ∃ u,
    let core := (s.fib f).core
    let mine := fun (w : LoopWait) => w.team = (s.fib f).team && w.bank = bank.toNat
    bank.toNat < (s.tm (s.fib f).team).banks ∧ bankBusy s core (s.fib f).team bank.toNat = false ∧
    acquireAll s fs .team (((s.core core).waits.filter mine).foldl (fun k w => max k w.k) 0) = .ok u ∧
    v = matchLoops u core mine) ∧
  EachLane (.accrd g d a bank n) (fun s _ f v => ∃ row col phys, accPlace s f d a bank.toNat (accCount n) = .ok (row, col, phys) ∧
    bankUnwaited s (s.fib f).core (s.fib f).team bank.toNat = false ∧
    v = s.modFib f fun x => (List.range (accCount n)).foldl (fun x i => x.setReg (d.toNat + i)
      (tabGetD (s.core (s.fib f).core).acc (accKey phys row (col + i)) 0)) x) ∧
  EachLane (.accrd g d a bank n) (fun s _ f v => ∃ place, accPlace s f d a bank.toNat (accCount n) = .ok place ∧
    bankUnwaited s (s.fib f).core (s.fib f).team bank.toNat = true ∧
    v = (s.drawMany (accCount n)).2.modFib f fun x => (List.range (accCount n)).foldl (fun x i => x.setReg (d.toNat + i)
      (((s.drawMany (accCount n)).1.getD i 0).setWidth 32)) x) ∧
  EachLane (.accwr g d a bank n) (fun s _ f v => ∃ row col phys, accPlace s f d a bank.toNat (accCount n) = .ok (row, col, phys) ∧
    v = s.modCore (s.fib f).core fun c => { c with acc := (List.range (accCount n)).foldl (fun t i =>
      tabPutD t (accKey phys row (col + i)) ((s.fib f).reg (d.toNat + i)) 0) c.acc }) ∧
  Flockwise (.accz g bank) (fun s _ f fs v => bank.toNat < (s.tm (s.fib f).team).banks ∧
    bankRoom s (s.fib f).core (s.fib f).team bank.toNat = true ∧
    v = acceptZero s (s.fib f).core (s.fib f).team bank.toNat (greatestK s fs) none) ∧
  let reads := fun (due : Bool) (put : Option (List Byte)) (s : State) (f : Nat) (s2 w u : State) (old : List Byte) =>
    ∃ ps s1 s3 k,
      checkAccess s f (s.op64 (s.fib f) a) 24 128 .load = .ok (ps, s1) ∧ settleStores s1 f = .ok s2 ∧
      let p := (firstPiece ps).place
      p.kind ≠ .host ∧ statusDue s2 (lineOf p.key) = due ∧
      atomicAt w f (s.op64 (s.fib f) a + 16) ⟨p.kind, p.key + 16⟩ 8 .team (fun _ => put) = .ok (old, k, s3) ∧
      advanceView s3 f .team (s2.line (lineOf p.key)).ls = .ok u
  EachLane (.mstat g d a clr) (fun s _ f v => ∃ s2 u old,
    reads false (if clr then some (List.replicate 8 0) else none) s f s2 s2 u old ∧
    v = u.modFib f fun x => x.setPair d.toNat (BitVec.ofNat 64 (natOfBytes old))) ∧
  EachLane (.mstat g d a clr) (fun s _ f v => ∃ s2 u old,
    let q := s2.drawMany 2
    reads true (if clr then some (bytesOfNat 8 (q.1.getD 1 0).toNat) else none) s f s2 q.2 u old ∧
    v = u.modFib f fun x => x.setPair d.toNat (q.1.getD 0 0))

/-- R231: TCOPY and TCOPYV of a slice whose checks and waits pass release at device scope, arrive at the copy object, join
its phase, and answer the phase number.
Log entries 18 and 61: choices of the model. -/
def Obligations.CopySlices : Prop := ∀ (g : Guard) (d : BitVec 8) (a b c : Src) (tile : Bool) (ft : Ft),
  let joins := fun (wide : Bool) (expected : DWord) (s : State) (r : Run) (f : Nat) (fs : List Nat) (v : State) =>
    ∃ bytes k u x h ps w tl obj y z,
      loadBytes s f (s.op64 (s.fib f) b) (if wide then 40 else 32) 8 .table false = .ok (bytes, k, u) ∧
      readSlice bytes tile wide expected = .ok (x, h) ∧ translateImage u f .load x.sources = .ok (ps, w) ∧
      copyDest w f h tile x = .ok tl ∧ copyObject w f (s.op64 (s.fib f) a) = .ok (obj, y) ∧
      sliceWaits y f obj tl = .ok () ∧ releaseAll y fs .device = .ok z ∧ (z.line obj).pend = none ∧
      let n := arriveSlice (clearLine z obj) obj (greatestK z fs)
      let q := startTok n.2.2 r ft fs
      let t1 := match tl with
        | some e => if e.2.st = .filling then q.2 else setTileState q.2 e.1 .filling
        | none => q.2
      v = put32All (addSlice t1 (y.fib f).core obj { x with
        tile := tl.map fun e => e.1, team := (y.fib f).team, core := (y.fib f).core, base := (y.fib f).slice, fibres := fs,
        tok := q.1, k := greatestK z fs } n.2.1) fs d (BitVec.ofNat 32 n.1)
  Flockwise (.tcopy g d a b tile ft) (joins false 0) ∧
  Flockwise (.tcopyv g d a b c tile ft) (fun s r f fs v => joins true (s.op64 (s.fib f) c) s r f fs v)

/-- R236 to R238: FORK enqueues the programs of its table as a group of tasks and answers the barrier's phase; DISP looks
its method up and enqueues it; RDV of a flock that has arrived goes on once the phase has moved; one that has not makes its
one arrival first, a release at team scope, and goes on at once where that moves the phase.
Log entry 66: choices of the model. -/
def Obligations.EngineTasks : Prop := ∀ (g : Guard) (d : BitVec 8) (a b c : Src),
  Flockwise (.fork g d a b c) (fun s _ f fs v => ∃ bytes k s1 l s2 u,
    loadBytes s f (s.op64 (s.fib f) a) 32 32 .table false = .ok (bytes, k, s1) ∧
    let e := fun (i : Nat) => natOfBytes ((bytes.drop (8 * i)).take 8)
    let need := (([e 0, e 1, e 2]).filter (· ≠ 0)).length
    0 < need ∧ e 3 = 0 ∧ e 0 % 32 = 0 ∧ e 1 % 32 = 0 ∧ e 2 % 32 = 0 ∧
    namedBarrier s1 f (s.op64 (s.fib f) c) = .ok (l, s2) ∧ (s.core (s.fib f).core).tasks.length + need ≤ 256 ∧
    releaseAll s2 fs .team = .ok u ∧
    let grp := newGroup u (u.fib f).core ⟨(u.fib f).team, l, BitVec.ofNat 64 (engineWord 3 0 0 0), greatestK u fs, []⟩
    let w := enqueuePrograms grp.2 f grp.1 [e 0, e 1, e 2] (tileList (s.op64 (s.fib f) b)) (greatestK u fs)
    v = put32All w fs d (BitVec.ofNat 32 (w.barField l 8 4))) ∧
  Flockwise (.disp g d a b c) (fun s _ f fs v => ∃ os l s1 found s2 s3 u,
    (s.op32 (s.fib f) a).toNat < 2 ^ 16 ∧ dispOperands s f (tileList (s.op64 (s.fib f) b)) = .ok os ∧
    namedBarrier s f (s.op64 (s.fib f) c) = .ok (l, s1) ∧ lookupMethod s1 f (s.op32 (s.fib f) a).toNat os = .ok (found, s2) ∧
    (s.core (s.fib f).core).tasks.length + (found.rules.length + (found.progs.filter (· ≠ 0)).length) ≤ 256 ∧
    found.rules.length ≤ entriesFree s (s.fib f).core (s.fib f).team ∧ releaseAll s2 fs .team = .ok s3 ∧
    runDispatch s3 f found (tileList (s.op64 (s.fib f) b)) (s.op64 (s.fib f) c) l (greatestK s3 fs) = .ok u ∧
    v = put32All u fs d (BitVec.ofNat 32 (s3.barField l 8 4))) ∧
  Flockwise (.rdv g a b) (fun s _ f fs v => ∃ va l s1 u, (∀ h ∈ fs, (s.fib h).arrived = true) ∧
    rdvLine s f a = .ok (va, l, s1) ∧
    (s.barrierLive (l * 128) = false ∨ s.barField l 8 4 ≠ (s.op32 (s.fib f) b).toNat) ∧
    acquireAll s1 fs .team (s.line l).ls = .ok u ∧
    v = (observeLine u l).modFibs fs fun x => { x with arrived := false }) ∧
  (∀ s r f fs va l s1 s2 vb w1 u, Whole s r g f fs → (s.fib f).arrived = false → RegsReady (.rdv g a b) (s.fib f) →
    rdvLine s f a = .ok (va, l, s1) → s1.barrierLive (l * 128) = true → copyHolds s1 l = false → (s1.line l).pend = none →
    releaseAll s1 (f :: fs) .team = .ok s2 →
    let w := (arriveAt (clearLine s2 l) l (greatestK s2 (f :: fs)) false).2.modFibs (f :: fs) fun x => { x with arrived := true }
    rdvLine w f a = .ok (vb, l, w1) →
    w.barrierLive (l * 128) = false ∨ w.barField l 8 4 ≠ (w.op32 (w.fib f) b).toNat →
    acquireAll w1 (f :: fs) .team (w.line l).ls = .ok u →
    ∃ t, exec (.rdv g a b) s = .next t ∧
      Still ((observeLine u l).modFibs (f :: fs) fun x => { x with arrived := false }) t)

/-! ### Privileged and system instructions -/

/-- The privileged registers of R241 as level 1 reads them. -/
def privilegedTable (s : State) (f : Nat) : List (BitVec 8 × DWord) :=
  let c := s.ctx s.dev.ctxsel.toNat
  [(0x00, s.dev.ctxsel.setWidth 64), (0x01, BitVec.ofNat 64 (s.ctxOf f)),
   (0x02, BitVec.ofNat 64 (s.coreId (s.fib f).core)), (0x03, BitVec.ofNat 64 s.dev.devid),
   (0x04, s.dev.sparemap.setWidth 64), (0x08, if s.dev.hbRun then 1 else 0), (0x09, s.dev.tb0),
   (0x0A, BitVec.ofNat 64 s.dev.wdt),
   (0x10, match c.st with
     | .free => 0
     | .resident => 1
     | .swapped => 2
     | .suspended => 3
     | .torn => 4),
   (0x11, c.ttb), (0x12, c.thb), (0x13, c.thl), (0x14, c.tho), (0x15, c.fhb), (0x16, c.fhl), (0x17, c.mtp),
   (0x18, if c.nbvd then 1 else 0),
   (0x19, BitVec.ofNat 64 (s.faults.filter fun r => r.2.ctx = s.dev.ctxsel.toNat).length), (0x1A, c.cprio.setWidth 64)]

/-- R241, R242: PRD reads every privileged register, the ones of a context (0x11 to 0x1A) where CTXSEL names an allocated
one; into one uniform register, or into a pair of every acting lane. R241 to R243: PWR writes a register that may be
written, with a value in its range, once the stores of its lanes have left their queues; the region registers of a context
only while it has no team; FHB and FHL of one that has a header segment take an undefined value where the write would change
them (R11). HBCTL needs level
2.
Log entry 20: choices of the model. -/
def Obligations.PrivilegedRegisters : Prop :=
  (∀ (g : Guard) (ud : Bool) (d : BitVec 8) (k : Fin 19),
    let n := ((privilegedTable State.reset 0).getD k.val (0, 0)).1
    let val := fun (s : State) (f : Nat) => ((privilegedTable s f).getD k.val (0, 0)).2
    Flockwise (.prd g ud d n) (fun s _ f fs v => (n.toNat ≤ 0x10 ∨ s.ctxBad s.dev.ctxsel.toNat = false) ∧
      v = if ud then setSreg s f d (val s f) else fs.foldl (fun u h => u.modFib h fun x => x.setPair d.toNat (val s f)) s)) ∧
  (∀ (g : Guard) (a : Src) (n : BitVec 8),
    let cx := fun (s : State) => s.dev.ctxsel.toNat
    let put := fun (n : Nat) (ok : State → DWord → Prop) (new : State → DWord → State → State) =>
      fun (s : State) (_ : Run) (f : Nat) (fs : List Nat) (v : State) => 1 ≤ s.plOf f ∧ (n < 0x10 ∨ s.ctxBad (cx s) = false) ∧
        ok s (s.op64 (s.fib f) a) ∧ ∃ u, drained s fs = .ok u ∧ v = new s (s.op64 (s.fib f) a) u
    let ctx := fun (g : Ctx → DWord → Ctx) (s : State) (x : DWord) (u : State) => u.modCtx (cx s) fun c => g c x
    let heapOk := fun (s : State) (x : DWord) => x.toNat % 2 ^ 10 = 0 ∧ s.hasTeams (cx s) = false
    Flockwise (.pwr g 0x00 a) (put 0x00 (fun _ x => x.toNat < 4096) fun _ x u =>
      u.modDev fun d => { d with ctxsel := x.setWidth 12 }) ∧
    Flockwise (.pwr g 0x0A a) (put 0x0A (fun _ x => 0 < x.toNat ∧ x.toNat ≤ 2 ^ 40) fun _ x u =>
      u.modDev fun d => { d with wdt := x.toNat }) ∧
    Flockwise (.pwr g 0x11 a) (put 0x11 (fun _ x => x.toNat % 2 ^ 15 = 0 ∧ x.toNat < 2 ^ 52) (ctx fun c x => { c with ttb := x })) ∧
    Flockwise (.pwr g 0x12 a) (put 0x12 (fun s x => x.toNat % 2 ^ 16 = 0 ∧ s.hasTeams (cx s) = false)
      (ctx fun c x => { c with thb := x })) ∧
    Flockwise (.pwr g 0x13 a) (put 0x13 (fun s x => x.toNat % 2 ^ 16 = 0 ∧ s.hasTeams (cx s) = false)
      (ctx fun c x => { c with thl := x })) ∧
    Flockwise (.pwr g 0x14 a) (put 0x14 (fun s x => x.toNat % 2 ^ 16 = 0 ∧ s.hasTeams (cx s) = false)
      (ctx fun c x => { c with tho := x })) ∧
    Flockwise (.pwr g 0x15 a) (put 0x15 (fun s x => heapOk s x ∧ ((s.ctx (cx s)).hdrSegs = [] ∨ x = (s.ctx (cx s)).fhb))
      (ctx fun c x => { c with fhb := x })) ∧
    Flockwise (.pwr g 0x16 a) (put 0x16 (fun s x => heapOk s x ∧ ((s.ctx (cx s)).hdrSegs = [] ∨ x = (s.ctx (cx s)).fhl))
      (ctx fun c x => { c with fhl := x })) ∧
    Flockwise (.pwr g 0x15 a) (put 0x15 (fun s x => heapOk s x ∧ (s.ctx (cx s)).hdrSegs ≠ [] ∧ x ≠ (s.ctx (cx s)).fhb)
      fun s _ u => u.draw.2.modCtx (cx s) fun c => { c with fhb := u.draw.1 }) ∧
    Flockwise (.pwr g 0x16 a) (put 0x16 (fun s x => heapOk s x ∧ (s.ctx (cx s)).hdrSegs ≠ [] ∧ x ≠ (s.ctx (cx s)).fhl)
      fun s _ u => u.draw.2.modCtx (cx s) fun c => { c with fhl := u.draw.1 }) ∧
    Flockwise (.pwr g 0x17 a) (put 0x17 (fun _ _ => True) (ctx fun c x => { c with mtp := x })) ∧
    Flockwise (.pwr g 0x18 a) (put 0x18 (fun _ x => x.toNat ≤ 1) (ctx fun c x => { c with nbvd := x.getLsbD 0 })) ∧
    Flockwise (.pwr g 0x1A a) (put 0x1A (fun _ x => x.toNat ≤ 7) (ctx fun c x => { c with cprio := x.setWidth 3 })) ∧
    Flockwise (.pwrHbctl g a) (fun s _ f fs v => 2 ≤ s.plOf f ∧ (s.op64 (s.fib f) a).toNat ≤ 1 ∧
      ∃ u, drained s fs = .ok u ∧ v = u.modDev fun d => { d with hbRun := (s.op64 (s.fib f) a).getLsbD 0 }) ∧
    Flockwise (.pwr g 0x08 a) (fun s _ f fs v => 2 ≤ s.plOf f ∧ (s.op64 (s.fib f) a).toNat ≤ 1 ∧
      ∃ u, drained s fs = .ok u ∧ v = u.modDev fun d => { d with hbRun := (s.op64 (s.fib f) a).getLsbD 0 }) ∧
    (¬ (n.toNat = 0 ∨ n.toNat = 8 ∨ n.toNat = 0x0A ∨ (0x11 ≤ n.toNat ∧ n.toNat ≤ 0x18) ∨ n.toNat = 0x1A) →
      privLevel n.toNat = none))

/-- R244 to R247: TLBI removes translations on this device, of an address, of a context or all, performs the stores that
were translated before and walks the fault records again; with `.sys` it first asks the other devices, and stalls until
they have answered; TLBS reports one translation; CANCELF returns the fibres of the pending records that it selects, and
counts them. R245: after a TLBI on this device no TLB of it holds a translation that it names.
Log entries 71, 72 and 109: choices of the model. -/
def Obligations.Translations : Prop :=
  (∀ (g : Guard) (walks : Bool) (d : BitVec 8) (a b : Src) (ra rb : BitVec 8),
    let removes := fun (i : Bool → Instr) (arg : State → Nat → Nat × Nat × DWord) =>
      let ok := fun (s : State) (f : Nat) => (arg s f).1 = 2 ∨ s.ctxBad (arg s f).2.1 = false
      let done := fun (s u : State) (f : Nat) (fs : List Nat) (v : State) => ∃ z w, ok s f ∧
        (s.fib f).awaitsDevices = false ∧ drained u fs = .ok z ∧ tlbiLocal z (arg s f).1 (arg s f).2.1 (arg s f).2.2 = .ok w ∧
        v = w.modFibs fs fun x => { x with scStart := none }
      let marked := fun (s : State) (fs : List Nat) => s.modFibs fs fun x => { x with scStart := some s.dev.hb }
      Flockwise (i false) (fun s _ f fs v => done s s f fs v) ∧
      Flockwise (i true) (fun s _ f fs v => (s.fib f).scStart.isSome ∧ done s s f fs v) ∧
      Flockwise (i true) (fun s _ f fs v => (s.fib f).scStart = none ∧ tlbiDevs s = [] ∧ done s (marked s fs) f fs v) ∧
      (∀ s r f fs, Whole s r g f fs → (∀ h ∈ f :: fs, RegsReady (i true) (s.fib h)) → (s.fib f).scStart = none →
        tlbiDevs s ≠ [] → ok s f →
        exec (i true) s = .next (stall ((askDevices s f (tlbiDevs s) none fun d tok =>
          .tlbi d tok (arg s f).1 (arg s f).2.1 (arg s f).2.2).modFibs (f :: fs) fun x =>
            { x with scStart := some s.dev.hb }) r))
    let cancels := fun (cx : Nat) (p : Nat × FaultRec → Bool) (s : State) (fs : List Nat) (v : State) =>
      s.ctxBad cx = false ∧
      let hit := s.faults.filter fun r => r.2.ctx = cx && !r.2.replaying && p r
      v = put32All ((hit.map fun r => r.1).foldl cancelRecord s) fs d
        (BitVec.ofNat 32 (hit.map fun r => r.2.fibres.length).sum)
    removes (fun sys => .tlbiVa g sys a b) (fun s f => (0, (s.op32 (s.fib f) b).toNat, s.op64 (s.fib f) a)) ∧
    removes (fun sys => .tlbiCtx g sys b) (fun s f => (1, (s.op32 (s.fib f) b).toNat, 0)) ∧
    removes (fun sys => .tlbiAll g sys) (fun _ _ => (2, 0, 0)) ∧
    EachLane (.tlbs g d a b walks) (fun s _ f v => ∃ w, let cx := (s.op32 (s.fib f) b).toNat
      s.ctxBad cx = false ∧ searchTlb s f cx (s.op64 (s.fib f) a).toNat walks = .ok w ∧
      v = s.modFib f fun x => x.setPair d.toNat w) ∧
    Flockwise (.cancelfCtx g d ra) (fun s _ f fs v => cancels ((s.fib f).reg ra.toNat).toNat (fun _ => true) s fs v) ∧
    Flockwise (.cancelfPage g d ra rb) (fun s _ f fs v => cancels ((s.fib f).reg ra.toNat).toNat
      (fun r => r.2.addr.toNat % 2 ^ 54 / 2 ^ 16 = (s.op64 (s.fib f) (.v rb)).toNat / 2 ^ 16) s fs v) ∧
    Flockwise (.cancelfRec g d ra rb) (fun s _ f fs v => cancels ((s.fib f).reg ra.toNat).toNat
      (fun r => r.1 = (s.op64 (s.fib f) (.v rb)).toNat % 2 ^ 13) s fs v)) ∧
  (∀ (s t : State) (kind ctx : Nat) (va : DWord) (c : Nat) (e : TlbEntry),
    tlbiLocal s kind ctx va = .ok t → kind = 1 ∨ kind = 2 → s.faults = [] →
    (∀ p ∈ s.cores, ∀ r ∈ p.2.order, False) → (∀ p ∈ s.fibres, p.2.queue = []) →
    e ∈ (t.core c).tlb ∨ e ∈ (t.clus c).tlb → kind = 1 ∧ e.ctx ≠ ctx)

/-- R248 to R252: REGROUP hands its fibres to the regroup unit, which without `.hold` forms its flocks; CTXRD reads a
context; HBRD reads the greater of heartbeat and view; TBRD reads the time base or its state. The cycle within a tick is a
free value below 216 that does not fall within a tick. R252: the time that TBRD reads, less TB0, counts 80 ns for every tick of the heartbeat, rounded down.
Log entries 12, 51 and 68: choices of the model. -/
def Obligations.RegroupTime : Prop :=
  (∀ (g : Guard) (a b : Src) (d n : BitVec 8) (hold : Bool),
    let within := fun (s : State) => { s.modDev fun v => { v with sub := s.subCycle } with free := s.free + 1 }
    Flockwise (.regroup g a b hold) (fun s r f fs v => ∃ u, (s.op32 (s.fib f) b).toNat < 0xFF ∧
      handOver s r fs a = .ok u ∧
      (if hold then .ok u else regroupBuild u (s.fib f).core (s.fib f).team ((s.op32 (s.fib f) b).setWidth 8)) = .ok v) ∧
    Flockwise (.ctxrd g true d a n) (fun s _ f _ v => ∃ w, contextRead s (s.op32 (s.fib f) a).toNat n.toNat = .ok w ∧
      v = setSreg s f d (w.setWidth 64)) ∧
    EachLane (.ctxrd g false d a n) (fun s _ f v => ∃ w, contextRead s (s.op32 (s.fib f) a).toNat n.toNat = .ok w ∧
      v = s.modFib f fun x => x.setReg d.toNat w) ∧
    Completes (.hbrd g false d false) (fun s x => x.setPair d.toNat (BitVec.ofNat 64 (max s.dev.hb x.vst % 2 ^ 56))) ∧
    WritesUniform (.hbrd g true d false) d (fun s x => BitVec.ofNat 64 (max s.dev.hb x.vst % 2 ^ 56)) ∧
    EachLane (.hbrd g false d true) (fun s _ f v => v = (within s).modFib f fun x => x.setPair d.toNat
      (BitVec.ofNat 64 (max s.dev.hb x.vst % 2 ^ 56 + s.subCycle * 2 ^ 56))) ∧
    Flockwise (.hbrd g true d true) (fun s _ f _ v => v = setSreg (within s) f d
      (BitVec.ofNat 64 (max s.dev.hb (s.fib f).vst % 2 ^ 56 + s.subCycle * 2 ^ 56))) ∧
    EachLane (.tbrd g d 0) (fun s _ f v => v = { s with free := s.free + 1 }.modFib f fun x => x.setPair d.toNat
      (s.dev.tb0 + BitVec.ofNat 64 (s.dev.hb * 80 + Config.subNs s.free % 80))) ∧
    Completes (.tbrd g d 1) (fun s x => x.setReg d.toNat (s.dev.offset.setWidth 32 <<< 1 ||| (if s.dev.locked then 1 else 0)))) ∧
  (∀ (s : State), s.dev.sub < 216 → s.dev.sub ≤ s.subCycle ∧ s.subCycle < 216) ∧
  (∀ (s : State), s.dev.hb * 80 + 80 ≤ 2 ^ 64 →
    ((s.dev.tb0 + BitVec.ofNat 64 (s.dev.hb * 80 + Config.subNs s.free % 80)) - s.dev.tb0).toNat / 80 = s.dev.hb)

/-- R253: SVC of a checked block releases at device scope, posts its record and answers 0, or answers 1 where the queue is
full.
Log entry 18: choices of the model. -/
def Obligations.ServiceTraps : Prop := ∀ (g : Guard) (d : BitVec 8) (a b : Src),
  Flockwise (.svc g d a b) (fun s _ f fs v => ∃ ps u w, (s.op32 (s.fib f) b).toNat < 2 ^ 16 ∧
    checkAccess s f (s.op64 (s.fib f) a) 64 64 .store = .ok (ps, u) ∧ releaseAll u fs .device = .ok w ∧
    let cx := w.ctxOf f
    ((w.ctx cx).svcQ.length < 1024 ∧ v = put32All (w.modCtx cx fun c => { c with svcQ := c.svcQ ++
      [⟨cx, (w.tm (w.fib f).team).index, (w.fib f).index, s.op64 (s.fib f) a, (s.op32 (s.fib f) b).toNat⟩] }) fs d 0) ∨
    (1024 ≤ (w.ctx (w.ctxOf f)).svcQ.length ∧ v = put32All w fs d 1))

/-- R254, R255: WINRD reads an item of an open window's flock, WINWR writes one; the three control actions resume it,
which ends it where its team has been terminated meanwhile (R303), terminate its team, or close the window.
Log entries 69 and 70: choices of the model. -/
def Obligations.RegisterWindows : Prop := ∀ (g : Guard) (d a c : BitVec 8),
  EachLane (.winrd g d a c) (fun s _ f v => ∃ key w sel p,
    winKnown c.toNat = true ∧ c.toNat ≠ 0x0F ∧ openedWindow s f ((s.fib f).reg a.toNat) = .ok (key, w, sel) ∧
    winPlace s w c.toNat sel = .ok p ∧
    v = s.modFib f fun x => x.setWide (winWide c.toNat) d (winItem s w c.toNat sel p)) ∧
  EachLane (.winwr g d a c) (fun s _ f v => ∃ key w sel p,
    let x := if winWide c.toNat then s.op64 (s.fib f) (.v d) else ((s.fib f).reg d.toNat).setWidth 64
    winWritable c.toNat = true ∧ openedWindow s f ((s.fib f).reg a.toNat) = .ok (key, w, sel) ∧
    winPlace s w c.toNat sel = .ok p ∧ winRange s w c.toNat x = false ∧
    ∃ u, drained s [f] = .ok u ∧ v = putItem u key w c.toNat sel p x) ∧
  (∀ (s : State) (sh k code : Nat) (w : Window), tabGet s.windows (sh * 16 + k) = some w →
    let u := { s with windows := tabDel s.windows (sh * 16 + k) }
    let team := (s.flk w.flock).team
    let free := u.modFlk w.flock fun fl => { fl with stopped := false, kept := false, asleep := false, since := some s.seq }
    ((s.tm team).status = none → exec (.winwrResume sh k) s = .next free) ∧
    (∀ st, (s.tm team).status = some st → exec (.winwrResume sh k) s = .next (endFlocks free team (·.stopped))) ∧
    exec (.winwrTerminate sh k code) s = .next (endStop (terminateTeam u team
      (statusWord 6 (code % 2 ^ 16) 0 ((w.words.getD 6 0).toNat % 2 ^ 32))) w.flock) ∧
    exec (.winwrClose sh k) s = .next (u.modFlk w.flock fun fl => { fl with kept := true }))

/-! ### Steps of the issue logic, the caches, the homes and the engines -/

/-- R92, R262, R263, R266, R267, R272: a free port starts the run of the flock that it chooses, of the selected lanes whose
clause begins where the lowest lane's does and that see its words; a port whose run has stalled ends it where another flock
of the quadrant is eligible (R269); a wake, the end of a hold-off, the limits and a fibre's
age set or clear their marks; the saved flock that has waited longest takes a free slot, or, overdue with none free, one that a save makes;
a draw forms one flock of the fibres it takes off the pens.
Log entries 5, 7, 16 and 67: choices of the model. -/
def Obligations.IssueEvents : Prop := ∀ (s : State) (core port k lane f n : Nat),
  let e := noteEligible s
  let p := endStalledRun e core port
  let placed := fun (u : State) => noteEligible (u.modFlk k fun fl =>
    { fl with slot := some n, restored := some s.dev.hb, overdue := false, could := none })
  (∀ r u, takeRun e core port = some (r, u) →
    p = if otherEligible u r.flock then dropRun u r else e) ∧
  (takeRun e core port = none → p = e) ∧
  (∀ a slot tr (here run : Mask) u h words,
    let sel := (issueSelect p k).1
    let s0 := p.modFlk k fun fl => { fl with level8 := false, lag := fl.lag.filter fun l => !here.has l }
    portChoice p core port = some k → sel.lanes.head?.bind (p.flk k).fibreAt = some f → clauseAt p f = .at a slot tr →
    (∀ l, here.has l = true ↔ l ∈ sel.lanes ∧ ∃ g tr', (p.flk k).fibreAt l = some g ∧ clauseAt p g = .at a slot tr') →
    fetchClause s0 f a tr = .ok h words u →
    (∀ l, run.has l = true ↔ here.has l = true ∧ ∃ g, (u.flk k).fibreAt l = some g ∧
      (g = f ∨ sameView u g a h words = true)) →
    flagsSet u k run h.wait = true →
    ∃ t, exec (.runStart core port) s = .next t ∧
      t.runs = ⟨(p.flk k).core, k, run, a, h, words, slot, 0⟩ :: u.runs ∧ t.rest = u.rest ∧
      t.cores = u.cores ∧ t.clusters = u.clusters ∧ t.flocks = u.flocks ∧
      ∀ g, (tabGet t.fibres g).map Fibre.still = (tabGet u.fibres g).map Fibre.still) ∧
  exec (.flockWake k) s = .next (noteEligible (s.modFlk k fun fl => { fl with asleep := false })) ∧
  exec (.holdOffExpiry k) s = .next (noteEligible (s.modFlk k fun fl => { fl with holdoff := false })) ∧
  (eligible s k = true → exec (.unchosenFlockLimit k) s = .next (s.modFlk k fun fl => { fl with level8 := true })) ∧
  ((waitsForSlot s (s.flk k).core (k, s.flk k)).isSome →
    exec (.savedFlockWaitLimit k) s = .next (s.modFlk k fun fl => { fl with overdue := true })) ∧
  ((s.flk k).fibreAt lane = some f → (s.flk k).slot.isSome → (s.flk k).opens lane = true → lane ∉ (s.flk k).lag →
    groupReady s k (s.fib f).pc = true → (∀ r ∈ s.runs, r.flock = k → r.lanes.has lane = false) →
    exec (.lagLimit k lane) s = .next (s.modFlk k fun fl => { fl with lag := fl.lag ++ [lane] })) ∧
  (∃ t, exec (.penFibreAged f) s = .next t ∧ (∀ c, c ≠ (s.fib f).core → t.core c = s.core c) ∧ t.fibres = s.fibres ∧
    t.mem = s.mem ∧ (∀ p ∈ (t.core (s.fib f).core).pens, p.fibre = f → p.aged = true)) ∧
  (∀ age, waitsForSlot e (e.flk k).core (k, e.flk k) = some age →
    oldestClaim e (e.flk k).core age = true → freeSlot e (e.flk k).core = some n →
    exec (.flockRestore k) s = .next (placed e)) ∧
  (∀ u, (waitsForSlot e (e.flk k).core (k, e.flk k)).isSome → (e.flk k).overdue = true →
    freeSlot e (e.flk k).core = none → makeSlot e (e.flk k).core = some (n, u) → exec (.flockRestore k) s = .next (placed u)) ∧
  (∀ p u, penChoice e core = some p → ((freeSlot e core).isSome → oldestClaim e core p.filed = true) →
    makeSlot e core = some (n, u) → ∃ t k' fl, exec (.penDraw core) s = .next t ∧
      tabGet u.flocks k' = none ∧ tabGet t.flocks k' = some fl ∧ fl.lanes = penDrawn u core p ∧ fl.slot = some n ∧
      fl.team = (u.fib p.fibre).team ∧ fl.role = (u.fib p.fibre).role ∧ fl.core = core ∧ t.mem = u.mem ∧
      (∀ q ∈ (t.core core).pens, some q.fibre ∉ fl.lanes) ∧
      ∀ g x, some g ∈ fl.lanes → tabGet u.fibres g = some x → tabGet t.fibres g = some { x with loc := .flock k' })

/-- R321, R322, R330, R332, R341, R343 to R345: the oldest store of a queue joins its core's order, unless one of its
fibre waits there at its home; a store of the order is performed once no earlier one keeps it back: by a common byte or
scratchpad line, as one of the same fibre to the same core's scratchpad (R315), or, where that one must wait, as one of the
same fibre, while a waiting store of another fibre never keeps a fold store back; a line is filled with the version that its home gives; a line is
written back and leaves; a span leaves its holder. R185, R342, R344, R391, R458: the phases of a seal at one home each,
and its end; a seal with a line behind a contained agent aborts (R460); settled stamps; the heartbeat, which counts only while HBCTL.RUN is 1.
Log entries 38, 39, 41, 42 and 43: choices of the model. -/
def Obligations.MemoryEvents : Prop :=
  (∀ (s : State) (core cl line n f v : Nat) (span : BitVec 32),
    (∀ r rest, (s.fib f).queue = r :: rest →
      ((∀ q ∈ (s.core (s.fib f).core).order, q.fibre = f → performStore s (s.fib f).core q ≠ none) →
        exec (.storeQueueDrain f) s = .next ((s.setFib f { s.fib f with queue := rest }).modCore (s.fib f).core fun c =>
          { c with order := c.order ++ [r] })) ∧
      (∀ q ∈ (s.core (s.fib f).core).order, q.fibre = f → performStore s (s.fib f).core q = none →
        exec (.storeQueueDrain f) s = .next s)) ∧
    (∀ r u, (s.core core).order[n]? = some r → (∀ q ∈ (s.core core).order.take n,
        (performStore s core q ≠ none ∧ q.meets r = false ∧ q.sameCore r = false) ∨
        (performStore s core q = none ∧ q.fibre ≠ r.fibre ∧ (q.meets r = false ∨ r.fold.isSome = true))) →
      performStore s core r = some u →
      exec (.storePerform core n) s = .next (u.modCore core fun c => { c with order := dropAt c.order n }) ∧
      (r.fold.isSome → exec (.storePending core n) s =
        .next (u.modCore core fun c => { c with order := dropAt c.order n }))) ∧
    (∀ ver, levelOf (line * 128) = .dev ∨ levelOf (line * 128) = .remote → s.poisonIn (line * 128) 128 = none →
      (homeRead s line v 0 = .ok ver → exec (.homeRead cl line v) s =
        .next (fractureCheck (s.fillCopy cl line (BitVec.allOnes 32) ver) cl ver.tag ver.stamp ver.digest)) ∧
      (homeRead s line s.settled 0 = .ok ver → exec (.l1MissFill cl line) s =
        .next (fractureCheck (s.fillCopy cl line (BitVec.allOnes 32) ver) cl ver.tag ver.stamp ver.digest))) ∧
    exec (.l1WriteBack cl line) s = .next (((((s.clus cl).dirty.filter fun d => lineOf d.1 = line).map (·.1)).foldl
      (fun s k => evictByte s cl k) s).modClus cl fun c => { c with copies := tabDel c.copies line }) ∧
    (∀ k, tabGet (s.clus cl).copies line = some k →
      (k.valid &&& ~~~span = 0 → exec (.spanInvalidate cl line span) s =
        .next (s.modClus cl fun c => { c with copies := tabDel c.copies line })) ∧
      (k.valid &&& ~~~span ≠ 0 → exec (.spanInvalidate cl line span) s =
        .next (s.modClus cl fun c => { c with copies := tabPut c.copies line { k with valid := k.valid &&& ~~~span } })))) ∧
  (∀ (s : State) (i slice dev stamp : Nat),
    (∀ r, s.folds[i]? = some r → foldSealing s r = true → r.aborting = false →
      (slice ∈ (s.foldSlices r) → slice ∉ r.acked → foldQuiet s r.tag = true → foldCut s r slice = true →
        exec (.foldAcknowledge i slice) s = .next (s.modFold r.tag fun q => { q with aborting := true })) ∧
      (slice ∈ (s.foldSlices r) → slice ∉ r.acked → foldQuiet s r.tag = true → foldCut s r slice = false →
        exec (.foldAcknowledge i slice) s = .next ((modPends s r slice fun p => { p with st := .acked (s.dev.hb + 1) }).modFold
          r.tag fun q => { q with
            acked := r.acked ++ [slice]
            lastAck := s.dev.hb
            t := if r.acked.length + 1 = (s.foldSlices r).length then some (sealStamp s r s.dev.hb) else none })) ∧
      (∀ x, r.t = some x → slice ∈ (s.foldSlices r) → slice ∉ r.stampedAt →
        exec (.foldStamp i slice) s = .next ((modPends ((r.lines.filter fun l => s.homeSlice (l * 128) = slice).foldl
          (fun s l => s.invalidate l (BitVec.allOnes 32) none) s) r slice
          fun p => { p with st := .stamped x, digest := r.digest }).modFold r.tag fun q =>
            { q with stampedAt := q.stampedAt ++ [slice] })) ∧
      (∀ x, r.t = some x → r.stampedAt.length = (s.foldSlices r).length → slice ∈ (s.foldSlices r) → slice ∉ r.confirmed →
        exec (.foldConfirm i slice) s = .next (((r.lines.filter fun l => s.homeSlice (l * 128) = slice).foldl
          (fun s l => promoteLine s r x l) s).modFold r.tag fun q => { q with confirmed := q.confirmed ++ [slice] })) ∧
      (r.lines = [] → foldQuiet s r.tag = true → exec (.foldSealEnd i) s =
        .next (endSeal s r .committed (sealStamp s r s.dev.hb) (BitVec.ofNat 64 (sealStamp s r s.dev.hb)))) ∧
      (∀ x, r.t = some x → r.lines ≠ [] → r.confirmed.length = (s.foldSlices r).length →
        exec (.foldSealEnd i) s = .next (endSeal s r .committed x (BitVec.ofNat 64 x)))) ∧
    (∀ r, s.folds[i]? = some r → foldSealing s r = true → r.aborting = true →
      exec (.foldSealEnd i) s = .next (endSeal (discardPend s r.tag) r .aborted 0 (1#64 <<< 63))) ∧
    exec (.settledStampAdvertise s.dev.devid stamp) s = .next (s.send (.settled s.settled)) ∧
    (dev ≠ s.dev.devid → dev ∈ s.dev.fabric → exec (.settledStampAdvertise dev stamp) s = .next (s.modDev fun d =>
      { d with settled := tabPut d.settled dev (max (tabGetD d.settled dev 0) stamp) })) ∧
    (s.dev.hbRun = false → exec .heartbeatTick s = .next s) ∧
    (s.dev.hbRun = true → ∃ t, exec .heartbeatTick s = .next t ∧ 
      t.dev = { s.dev with hb := s.dev.hb + 1, sub := 0, inReset := false } ∧
      t.outbox = s.outbox ++ (if s.dev.inReset then [.sideband 0x64 []] else []) ∧
      t.mem = s.mem ∧ t.fibres = s.fibres ∧ t.clusters = s.clusters ∧ t.ctxs = s.ctxs ∧
      ∀ k fl, tabGet s.flocks k = some fl → ∃ y, tabGet t.flocks k = some y ∧ { y with since := none, could := none } =
        { fl with watch := if !fl.stopped && fl.unfrozen ≠ 0 && !(s.tm fl.team).vacated then fl.watch + 1 else fl.watch, since := none, could := none }))

/-- R214, R215, R222, R223, R228, R231, R363: a matrix step advances the loop whose turn it is and passes the turn; a
loop whose operand byte is poisoned notes the elements it loses, and UOPD; a loop, a zeroing and a transfer end with their
tiles, flags and words; the copy engine starts its oldest phase and
completes it: its tiles become READY, or EMPTY where it was aborted, the lines that it wrote are full again, its status word of
KIND 2 is merged into STATUS, PHASE counts one more, and its flags are set. R234, R235, R352, R362, R458: a sequencer serves the next command of its oldest ready task: it begins the
command, or stops the task with the command's code; a reserved command, one of another class and a malformed one have
CODE 7. A task at its end, or one whose watch
has reached WDT, ends. A conversion ends at its second step.
Log entries 6, 55, 59, 62, 63 and 64: choices of the model. -/
def Obligations.EngineSteps : Prop :=
  (∀ (s : State) (core i p : Nat),
    (∀ o l va vb, turnBank s core = some (p, i, o) → o.ops = some l → loopViews s o l = some (va, vb) →
      (∀ a < va.t.rows, (o.rowReads s va a).any s.poisonedAt = false) → o.lost = [] →
      ∃ t, exec (.matrixStep core) s = .next t ∧ (t.core core).turn = (p + 1) % 4 ∧
        (t.core core).acc = (stepCells s o va vb core p).foldl (fun m k => tabPutD m k.1 (BitVec.ofNat 32 k.2) 0)
          (s.core core).acc ∧
        (let nan0 := if o.next = 0 then nanElems s core p va vb else o.nan0
         (t.core core).loops = setAt (s.core core).loops i { o with
          next := o.next + 1
          nan0 := nan0
          nans := if o.next + 1 = o.steps then ((nanElems t core p va vb).filter fun e => !nan0.contains e).length else 0
          errs := Nat.lor o.errs (spareErr s core vb.t.cols) }) ∧
        t.mem = s.mem ∧ t.fibres = s.fibres) ∧
    (∀ o l va vb a, turnBank s core = some (p, i, o) → o.ops = some l → loopViews s o l = some (va, vb) →
      a < va.t.rows → (o.rowReads s va a).any s.poisonedAt = true →
      ∃ t y, exec (.matrixStep core) s = .next t ∧ (t.core core).loops[i]? = some y ∧ y.next = o.next + 1 ∧
        y.errs.testBit 10 = true ∧ ∀ j < vb.t.cols, a * 256 + j ∈ y.lost) ∧
    (∀ o u, turnBank s core = some (p, i, o) → o.ops = none →
      commandDone? ((passTurn s core p).modCore core fun c => { c with
        acc := c.acc.filter fun e => e.1 / 16384 ≠ p, loops := dropAt c.loops i }) core o.task 0 0 0 = some u →
      exec (.accZeroComplete core p) s = .next u) ∧
    (∀ o u, indexOf? (fun (o : BankOp) => o.ops.isSome && !o.open) (s.core core).loops 0 = some i →
      (s.core core).loops[i]? = some o → finishLoop s core i o = some u →
      exec (.matrixLoopComplete core) s = .next u) ∧
    (∀ x r t u, servedXfer s core Xfer.isTile = some (i, x) → x.dst = some r → s.tile r = some t →
      endLoad s core i x r t = some u → exec (.tileTransferComplete core) s = .next u) ∧
    (∀ x r t u, servedXfer s core Xfer.isTile = some (i, x) → x.dst = none → x.src = some r → s.tile r = some t →
      endStore s core i x r t = some u → exec (.tileTransferComplete core) s = .next u) ∧
    (∀ x rd rs dst src u, servedXfer s core Xfer.isRod = some (i, x) → x.dst = some rd → x.src = some rs →
      s.tile rd = some dst → s.tile rs = some src → endRod s core i x rs rd src dst = some u →
      exec (.rodLoadComplete core) s = .next u) ∧
    (∀ ph, (s.core core).phases.any (fun p => p.started) = false → engineRunning s core .copy = false →
      ((s.core core).copyCmd = true ∨ nextTask s core .copy = none) →
      (s.core core).phases.find? (CopyPhase.ready s) = some ph →
      exec (.copyPhaseRun core) s = .next (startPhase s core ph)) ∧
    (∀ ph code u, (s.core core).phases.find? (fun p => p.started) = some ph →
      ((s.line ph.obj).live && (s.line ph.obj).pend.isSome) = false → finishPhase s ph = some (code, u) →
      let gone := code = 1 ∨ code = 3 ∨ code = 6
      let k := ph.slices.foldl (fun k x => max k x.k) 0
      let u1 := if gone then undefineDests u ph.slices else u
      let u2 := ph.tiles.foldl (fun s r => setTileState (s.modTile r fun t => { t with ls := max t.ls k }) r
        (if gone then .empty else .ready)) u1
      let u3 := markLines u2 ph.lines true
      let z := clearLine u3 ph.obj
      ∃ t, exec (.copyPhaseComplete core) s = .next t ∧
        (∀ q ∈ (t.core core).phases, q.started = false) ∧
        (∀ r ∈ ph.tiles, (u1.tile r).isSome → (t.tile r).map (·.st) = some (if gone then .empty else .ready)) ∧
        (∀ l ∈ ph.lines, tabGet (t.core l.1).emptyLines l.2 = none) ∧
        (∀ x ∈ ph.slices, ∀ tok, x.tok = some tok → ∀ p ∈ t.fibres, ∀ q ∈ p.2.pending, q.2 ≠ tok) ∧
        ((u3.line ph.obj).live = false → t.mem = u1.mem) ∧
        ((u3.line ph.obj).live = true → t.barField ph.obj 0 4 = z.barField ph.obj 0 4 ∧
          t.barField ph.obj 4 4 = z.barField ph.obj 4 4 ∧
          t.barField ph.obj 8 4 = (z.barField ph.obj 8 4 + 1) % 2 ^ 32 ∧ t.barrierLive (ph.obj * 128) = true ∧
          t.barField ph.obj 0x10 8 = mergeWord (z.barField ph.obj 0x10 8)
            (engineWord 2 code 0 (Nat.lor (errsOf code) ph.errs)) % 2 ^ 64))) ∧
  (∀ (s : State) (core task : Nat) (t : Task) (c : Cmd),
    let serves := fun (op : Nat → Prop) => tabGet (s.core core).tasks task = some t ∧ t.cmd = some c ∧ op c.op ∧
      sequencerFree s core t.engine = true ∧ (nextTask s core t.engine).map (·.1) = some task
    let turn := s.modCore core fun x => { x with copyCmd := x.copyCmd || decide (t.engine = .copy) }
    let runs := fun (i : Instr) (op : Nat) (r : Except Nat State) => (∀ u, serves (· = op) → commandValid t c = true →
        r = .ok u → exec i s = .next u) ∧
      (∀ code u, serves (· = op) → commandValid t c = true → r = .error code →
        commandDone turn core task code 0 (errsOf code) = some u → exec i s = .next u) ∧
      (∀ u, serves (· = op) → commandValid t c = false → commandDone turn core task 7 0 (errsOf 7) = some u →
        exec i s = .next u)
    runs (.engineCmdMatrixLoop core task) 1 (loopCommand s core task t c) ∧
    runs (.engineCmdAccZero core task) 2 (zeroCommand s core task t c) ∧
    runs (.engineCmdTileLoad core task) 3 (transferCommand s core task t c false) ∧
    runs (.engineCmdTileStore core task) 4 (transferCommand s core task t c true) ∧
    (firstXfer s core (Xfer.isConvert task) = none → runs (.engineCmdConvert core task) 5 (convertCommand s core task t c)) ∧
    (∀ i x u, firstXfer s core (Xfer.isConvert task) = some (i, x) → commandTurn s core i x = true → endConvert s core i x = some u →
      exec (.engineCmdConvert core task) s = .next u) ∧
    runs (.engineCmdRodLoad core task) 6 (rodCommand s core task t c) ∧
    (∀ u, serves (fun op => op = 0 ∨ 6 < op) → commandDone turn core task 7 0 (errsOf 7) = some u →
      exec (.engineCmdReserved core task) s = .next u) ∧
    (∀ u, tabGet (s.core core).tasks task = some t → t.running = false → t.cmds.length ≤ t.cursor →
      endTask s core task t.status.toNat = some u → exec (.engineCmdEnd core task) s = .next u) ∧
    (∀ u, tabGet (s.core core).tasks task = some t → t.running = false → t.cursor < t.cmds.length →
      s.dev.wdt ≤ t.watch → commandDone s core task 8 0 0 = some u → exec (.taskWatchdog core task) s = .next u))

/-! ### Waits that end -/

/-- R133, R192, R204, R237, R298, R299, R303, R421, R438, R458: a continuation that arrives is laid out and delivered, or
answered by its status; a send ends with its status in D; a parked fibre, a bind and a fault record take their turn again;
a waiting system event opens a window; a flock whose watch has reached WDT stops with class 3; a stalled instruction at
its limit issues again, its waiting lanes raising WAIT.
Log entries 36 and 73: choices of the model. -/
def Obligations.WaitEvents : Prop := ∀ (s : State) (f k tok idx : Nat) (st : KStatus) (m : KMsg),
  ((s.ctx m.ctx).st = .free ∨ (s.ctx m.ctx).st = .torn →
    exec (.ksendTransferReceive m) s = .next (s.send (.ksendReply m.src m.token 2))) ∧
  ((s.ctx m.ctx).st ≠ .free → (s.ctx m.ctx).st ≠ .torn → receiveContinuation s m = none →
    exec (.ksendTransferReceive m) s = .next (s.send (.ksendReply m.src m.token 3))) ∧
  (∀ h u p v w, (s.ctx m.ctx).st ≠ .free → (s.ctx m.ctx).st ≠ .torn → receiveContinuation s m = some (h, u) →
    let a := withContext u 0 m.ctx 0
    translate a.2.2 a.1 m.delivery .store false = .ok (p, v) →
    deliver (dropAgent v a.1 a.2.1) p.key (natOfBytes ((m.hdrBytes.drop 0x38).take 7)) h = some w →
    exec (.ksendTransferReceive m) s = .next (w.send (.ksendReply m.src m.token 0))) ∧
  (∀ h u, (s.ctx m.ctx).st ≠ .free → (s.ctx m.ctx).st ≠ .torn → receiveContinuation s m = some (h, u) →
    let a := withContext u 0 m.ctx 0
    let p := translate a.2.2 a.1 m.delivery .store false
    (p = .wait → exec (.ksendTransferReceive m) s = .next s) ∧
    (∀ e, p = .bad e → exec (.ksendTransferReceive m) s = .next (s.send (.ksendReply m.src m.token 4))) ∧
    (∀ c w, p = .sys c w → exec (.ksendTransferReceive m) s =
      .next (s.send (.ksendReply m.src m.token (if c = 2 then 6 else 4))))) ∧
  (∀ cx, headerCtx s tok = some cx → s.byte tok = 5 →
    let put := fun (x : Fibre) => x.busy.foldl (fun y b =>
      if b.2 = sendToken tok then y.setReg b.1 (BitVec.ofNat 32 st) else y) x
    let u := State.finishTok { s with fibres := s.fibres.map fun p => (p.1, put p.2) } (sendToken tok)
    exec (.ksendComplete tok st) s = .next (if st = 0 then (dropContinuation u cx tok).putNum tok 1 6
      else if st = 5 then u else u.putNum tok 1 1)) ∧
  (parkOver s (s.fib f) = true → exec (.parkedFibreWake f) s = .next (returnParked s f)) ∧
  (∀ ea reg, (s.fib f).loc = .parked (.bind ea reg) → exec (.bindWake f) s = .next (bindEntry s f ea reg)) ∧
  (∀ key ea reg, (s.fib f).loc = .parked (.entry key ea reg) →
    let u := serveBind s (s.ctxOf f) ea
    (∀ v w, (u.fib f).loc = .parked (.bind v w) → exec (.bindWake f) s = .next (bindEntry u f v w)) ∧
    ((∀ v w, (u.fib f).loc ≠ .parked (.bind v w)) → exec (.bindWake f) s = .next u)) ∧
  exec (.faultRecordRewalk idx) s = .next (rewalkRecord s idx) ∧
  (∀ e rest, s.events = e :: rest → (tabGet s.flocks e.flock).isSome →
    (∀ key, s.freeWindow (s.tm (s.flk e.flock).team).ctx = some key →
      let w0 := e.words.getD 0 0 ||| BitVec.ofNat 64 (key % 16 * 2 ^ 8)
      let u := startService { s with events := [], windows := tabPut s.windows key ⟨e.flock, setAt e.words 0 w0⟩ }
        (key / 16) (key % 16) e.cls
      exec .systemEventDelivery s = .next { u with events := u.events ++ rest }) ∧
    (s.freeWindow (s.tm (s.flk e.flock).team).ctx = none → exec .systemEventDelivery s = .next s)) ∧
  (∀ l, (s.flk k).stopped = false → (s.tm (s.flk k).team).vacated = false → s.dev.wdt ≤ (s.flk k).watch → (s.flk k).unfrozen.lanes.head? = some l →
    (s.flk k).fibreAt l = some f → exec (.watchdogExpiry k) s = .next (stopFlock { s with
      runs := s.runs.filter fun r => r.flock ≠ k } k 3 (s.flk k).unfrozen f 0 (BitVec.ofNat 64 (s.dev.wdt % 2 ^ 40)))) ∧
  (∀ r i v u, stalledAt s k = some (r, i, v) → issueReads v r i = some u →
    let g := actingMask u r i.guard
    let issues := fun (body : State → Nat → Res (Adv × State)) =>
      settle u r i.endsClause (foldLanes u r g.lanes (fun s f _ => body s f) (openOuts u r g))
    (isBarw i = true → exec (.barwWaitLimit k) s = .next (issues (barwLimit i r g))) ∧
    (isRdv i = true → exec (.rdvWaitLimit k) s = .next (issues (rdvLimit i r g))) ∧
    exec (.tileStallLimit k) s = .next (issues (tileLimit i r g)))

/-! ### Queues, launches, contexts and services -/

/-- R377 to R381, R383, R384, R387, R389: once the drovers' image has been verified (R467), an installed
queue counts from the HEAD in memory, and a refused one is told to Baszer; a doorbell that the host port carries, a TAIL that the host takes and a poll read TAIL; the next entry leaves its queue and is taken as a
launch or a service request; dependences are read again; a replica is taken like a packet.
Log entries 2, 74 and 94: choices of the model. -/
def Obligations.QueueEvents : Prop := ∀ (s : State) (drover key dbi launch src queue ctx : Nat) (q : QueueDesc) (b : List Byte),
  (s.dev.booted < 4 → exec (.queueInstall drover q) s = .next s) ∧
  (4 ≤ s.dev.booted → installable s drover q = false →
    exec (.queueInstall drover q) s = .next (s.send (.sideband 0x78 (bytesOfNat 8 q.base.toNat)))) ∧
  (4 ≤ s.dev.booted → installable s drover q = true → ∃ t k, exec (.queueInstall drover q) s = .next t ∧
    let n := droverNum s q.ctx q.head.toNat
    tabGet t.queues k = some ⟨drover, q, n, n, false, none⟩ ∧ t.mem = s.mem ∧ t.launches = s.launches) ∧
  (s.portUp = true → s.dev.inReset = false → exec (.doorbell dbi) s =
    .next ((s.queueKeys fun x => dbi < 768 && decide (x.desc.dbi = dbi)).foldl readTail s)) ∧
  (s.portUp = false ∨ s.dev.inReset = true → exec (.doorbell dbi) s = .next s) ∧
  (∀ w, s.dev.host = some (.cxl, w) → exec (.tailInvalidate key) s = .next (readTail s key)) ∧
  exec (.tailPoll drover) s = .next ((s.queueKeys fun x => x.drover = drover).foldl readTail s) ∧
  (∀ x l u, tabGet s.queues key = some x → x.stopped = false → s.droverAlive x.drover = true →
    droverRead s x.desc.ctx 1 noLaunch x.desc.tail.toNat 8 = .ok (l, u) →
    readTail s key = overflowStop (u.modQueue key fun _ => { x with tail := natOfBytes l }) key
      { x with tail := natOfBytes l }) ∧
  (∀ x e u n v, tabGet s.queues key = some x → x.desc.kind ≠ 2 → takeEntry s key x = some (e, u) → pkNum e 0 1 ≠ 2 →
    takePacket u x.desc.ctx e (some key) (some x.desc.kind) s.dev.devid key = some (n, v) →
    exec (.packetRead key) s = .next v) ∧
  (∀ x e u, tabGet s.queues key = some x → x.desc.kind ≠ 2 → takeEntry s key x = some (e, u) → pkNum e 0 1 = 2 →
    let k := tabFresh u.launches 0
    exec (.packetRead key) s = .next ({ u with
      launches := tabPut u.launches k (newLaunch u x.desc.ctx e (some key) s.dev.devid key), seq := u.seq + 1 }.modQueue key fun y =>
        { y with entry := some k })) ∧
  (∀ x k l, tabGet s.queues key = some x → x.entry = some k → tabGet s.launches k = some l → pkNum l.bytes 0 1 = 2 →
    let done := acceptEntry (s.delLaunch k) (some key)
    (requestReason s l.ctx k l.bytes = 0 → (s.ctx l.ctx).svcQ.length < 1024 →
      exec (.serviceRequestPacket key) s = .next (done.modCtx l.ctx fun c => { c with svcQ := c.svcQ ++
        [⟨l.ctx, 0xFFFFFFFF, 0xFFFFFFFF, BitVec.ofNat 64 (pkNum l.bytes 8 8), pkNum l.bytes 0x10 2⟩] })) ∧
    (requestReason s l.ctx k l.bytes ≠ 0 →
      exec (.serviceRequestPacket key) s = .next (done.logError 7 0 5 (pkNum l.bytes 8 8)))) ∧
  (∀ l, tabGet s.launches launch = some l → l.ph = .deps → pkNum l.bytes 0 1 = 1 →
    (metNow s launch l).length < 4 →
    exec (.dependenceRecheck launch) s = .next (s.modLaunch launch fun x => { x with metDeps := metNow s launch l })) ∧
  (∀ l, tabGet s.launches launch = some l → l.ph = .deps → pkNum l.bytes 0 1 = 1 →
    (metNow s launch l).length = 4 → l.origin = s.dev.devid → pkDevs l.bytes = [s.dev.devid] →
    exec (.dependenceRecheck launch) s = .next (s.modLaunch launch fun x =>
      { x with metDeps := metNow s launch l, ph := .admitting, waiting := localTeams s.dev.devid l.bytes, replicated := none })) ∧
  (∀ l d, tabGet s.launches launch = some l → l.ph = .deps → pkNum l.bytes 0 1 = 1 →
    (metNow s launch l).length = 4 → l.origin = s.dev.devid → d ≠ s.dev.devid → pkDevs l.bytes = [s.dev.devid, d] →
    exec (.dependenceRecheck launch) s = .next ((s.send (.packet d l.ctx l.originQueue l.bytes)).modLaunch launch fun x =>
      { x with metDeps := metNow s launch l, ph := .admitting, waiting := localTeams s.dev.devid l.bytes,
               replicated := some s.dev.hb })) ∧
  (∀ u, takePacket s ctx b none none src queue = some (0, u) →
    exec (.launchReplicate ⟨src, queue⟩ ctx b) s = .next u) ∧
  (∀ n u, takePacket s ctx b none none src queue = some (n, u) → n ≠ 0 →
    exec (.launchReplicate ⟨src, queue⟩ ctx b) s = .next (u.send (.reject src queue (BitVec.ofNat 32 (pkNum b 4 4))))) ∧
  (∀ st u v, droverWrite s ctx (pkLevel b) launch (pkNum b 0x50 8) (bytesOfNat 8 st) = .ok u →
    droverWrite u ctx (pkLevel b) launch (pkNum b 0x50 8 + 8) (bytesOfNat 8 (2 ^ 63 + pkNum b 4 4)) = .ok v → st < 2 ^ 64 →
    let w := if bitOf (pkNum b 1 1) 0 && v.portUp then (v.delLaunch launch).send (.irq key) else v.delLaunch launch
    writeCompletion s ctx launch (some key) b (BitVec.ofNat 64 st) = some ((w.launches.map (·.1)).foldl checkDeps w))

/-- R388, R390, R396, R397, R399: the first team that awaits admission is placed on a cluster that holds it; the start
barrier counts the devices that are armed, and its decision, its rejection, its timeout and its start time take effect; a
team that has ended and has no stopped flock leaves, and its launch completes with the first status that a team of it took; a method table is installed once no team of the context is left.
Log entries 5 and 76: choices of the model. -/
def Obligations.LaunchEvents : Prop := ∀ (s : State) (dev queue launch team key : Nat) (gen : Word) (l : Launch),
  (∀ w u, firstWaiting s = some w → w.team = none → tabGet s.launches w.launch = some l →
    admitFirst s w.launch l = some u → exec .admitTeam s = .next (armLaunch u w.launch)) ∧
  (launchOf s s.dev.devid queue gen (fun l => l.undecided && (pkDevs l.bytes).contains dev) = some (key, l) →
    exec (.armedMessage ⟨dev, queue⟩ gen) s = .next (tryGo (s.modLaunch key fun x =>
      { x with armed := if x.armed.contains dev then x.armed else x.armed ++ [dev] }) key) ∧
    exec (.rejectMessage ⟨dev, queue⟩ gen) s = .next (abortAll s key)) ∧
  (launchOf s dev queue gen (fun l => l.ph = .armed && dev ≠ s.dev.devid) = some (key, l) →
    let u := s.modLaunch key fun x => { x with ph := .released }
    exec (.goMessage ⟨dev, queue⟩ gen) s = .next (if startReached s l then (endLaunch (releaseTeams u key) key).getD (releaseTeams u key)
      else u)) ∧
  (launchOf s dev queue gen (fun l => l.undecided && dev ≠ s.dev.devid) = some (key, l) →
    exec (.abortMessage ⟨dev, queue⟩ gen) s = .next (abortLocal s key)) ∧
  (∀ u v, tabGet s.launches key = some l → discardHeld s key = some u →
    writeCompletion u l.ctx key l.queue l.bytes (rejectStatus 8) = some v →
    abortLocal s key = acceptEntry (v.delLaunch key) l.queue) ∧
  (∀ t0, tabGet s.launches launch = some l → l.replicated = some t0 → l.undecided = true → l.origin = s.dev.devid →
    t0 + 2 ^ 20 ≤ s.dev.hb → exec (.armedTimeout launch) s = .next (abortAll s launch)) ∧
  (tabGet s.launches launch = some l → l.ph = .released → startReached s l = true →
    exec (.startTimeRelease launch) s =
      .next ((endLaunch (releaseTeams s launch) launch).getD (releaseTeams s launch))) ∧
  (∀ tm u v, tabGet s.teams team = some tm → (∀ k ∈ s.flocks, k.2.team = team → k.2.stopped = false) →
    (tm.status.isSome ∨ (tm.held = false ∧ s.teamFibres team = [] ∧ engineBusy s team = false)) →
    removeTeam s team = some u → endLaunch u tm.launch = some v →
    exec (.teamComplete team) s = .next v) ∧
  (∀ tm st, tabGet s.teams team = some tm → tm.status = none → st ≠ 0 → tabGet s.launches tm.launch = some l →
    (tabGet (terminateTeam s team st).launches tm.launch).map (·.status) = some (if l.status = 0 then st else l.status)) ∧
  (tabGet s.launches launch = some l → l.ph = .admitting → pkNum l.bytes 0x40 8 ≠ 0 →
    BitVec.ofNat 64 (pkNum l.bytes 0x40 8) ≠ (s.ctx l.ctx).mtp → s.hasTeams l.ctx = false →
    exec (.methodTableInstall launch) s = .next (s.modCtx l.ctx fun c =>
      { c with mtp := BitVec.ofNat 64 (pkNum l.bytes 0x40 8) }))

/-- R318, R319, R325, R393 to R395, R401 to R403: a context is allocated with its registers at their reset values, swapped
out while it is idle and in again, suspended, resumed and torn down; teams of lower priority are asked to leave, leave
whole and come back; a way of chip scratchpad is granted zeroed and returned zeroed; a full segment cache evicts.
Log entries 5, 79, 81 and 115: choices of the model. -/
def Obligations.ContextEvents : Prop := ∀ (s : State) (ctx team core die : Nat),
  (∀ u, ctx < 4096 → s.dev.computeOn = true → (s.ctx ctx).st = .free → makePlace s = some u →
    let w := u.modDev fun d => { d with tornAt := d.tornAt.filter fun p => p.2 ≠ ctx }
    exec (.contextAllocation ctx) s = .next ({ w.setCtx ctx { Ctx.reset with
      st := .resident, lastResident := u.seq } with seq := u.seq + 1 })) ∧
  (∀ g u, idle s ctx = true →
    takeSegs (flushChip s ctx) ctx (((s.ctx ctx).chipBytes + 959) / 960) = some (g, u) →
    exec (.contextSwapOut ctx) s = .next ((dropTlb (saveChip u ctx g) fun e => e.ctx = ctx).modCtx ctx fun c =>
      { c with st := .swapped, swapSegs := g })) ∧
  (∀ u, (s.ctx ctx).st = .swapped → makePlace s = some u → waysHeld u 0 + (s.ctx ctx).chip.getD 0 0 ≤ 4 →
    waysHeld u 1 + (s.ctx ctx).chip.getD 1 0 ≤ 4 → exec (.contextSwapIn ctx) s = .next (loadChip (becomeResident u ctx) ctx)) ∧
  ((s.ctx ctx).st = .resident → exec (.contextSuspend ctx) s =
    .next (askToLeave (s.modCtx ctx fun c => { c with st := .suspended }) (ctxTeams s ctx))) ∧
  (∀ u, (s.ctx ctx).st = .suspended → makePlace s = some u → exec (.contextResume ctx) s =
    .next ((ctxTeams s ctx).foldl (fun s t => s.modTm t fun x => { x with leaving := false }) (becomeResident u ctx))) ∧
  ((s.ctx ctx).st ≠ .free → (s.ctx ctx).st ≠ .torn → exec (.contextTeardown ctx) s =
    .next (askToLeave (s.modCtx ctx fun c => { c with st := .torn }) (ctxTeams s ctx))) ∧
  (∀ u, (s.ctx ctx).st = .torn → (ctxTeams s ctx).all (canLeave s) = true → tearDown s ctx true = some u →
    exec (.contextTeardown ctx) s = .next u) ∧
  (∀ w, firstWaiting s = some w →
    let u := ((s.teams.filter fun t => t.2.leaving).map (·.1)).foldl without s
    let ways := [(0, 0), (0, 1), (0, 2), (1, 0), (1, 1), (1, 2)].filterMap fun d => leavingPrefix u w d.1 d.2
    ways ≠ [] → [] ∉ ways → exec .preempt s =
      .next (askToLeave (s.pick ways.length).2 (ways.getD (s.pick ways.length).1 []))) ∧
  (∀ tm u, tabGet s.teams team = some tm → tm.leaving = true → tm.vacated = false → canLeave s team = true →
    settleTeam s team = some u → exec (.vacateCore team) s = .next (vacateTeam u team)) ∧
  (∀ w v, firstWaiting s = some w → w.team = some team → (restores s team [0, 1, 2]).length ≠ 0 →
    let p := s.pick (restores s team [0, 1, 2]).length
    (restores p.2 team [0, 1, 2])[p.1]? = some v → exec (.teamRestore team) s = .next v) ∧
  (die < 2 → (s.ctx ctx).st = .resident → waysHeld s die < 4 →
    let n := (s.ctx ctx).chip.getD die 0
    exec (.chipScratchpadConvert die ctx true) s = .next ((s.zero (chipKey die ctx (n * 2 ^ 23)) (2 ^ 23)).modCtx ctx
      fun x => { x with chip := setAt x.chip die (n + 1) })) ∧
  (die < 2 → (s.ctx ctx).st = .resident → (s.ctx ctx).chip.getD die 0 ≠ 0 →
    let n := (s.ctx ctx).chip.getD die 0
    exec (.chipScratchpadConvert die ctx false) s = .next (((flushChip s ctx).zero
      (chipKey die ctx ((n - 1) * 2 ^ 23)) (2 ^ 23)).modCtx ctx fun x => { x with chip := setAt x.chip die (n - 1) })) ∧
  (512 ≤ (s.core core).segs.length → exec (.segmentCacheEvict core) s =
    .next (s.modCore core fun c => { c with segs := c.segs.dropLast }))

/-- R404 to R406, R432, R433: an active message becomes a launch of its context, is held, or is answered by its status; a
held one is delivered once the context is resident; the service takes a context's records in order, loads an image or
unloads one, and replies at its request.
Log entries 74 and 83: choices of the model. -/
def Obligations.ServiceEvents : Prop := ∀ (s : State) (key ctx : Nat),
  (∀ q b u v, tabGet s.queues key = some q → q.desc.kind = 2 → takeEntry s key q = some (b, u) →
    takeMessage u key q.desc.ctx (b.take 64) = some v → exec (.activeMessage key) s = .next v) ∧
  (∀ src b, let c := s.ctx (pkNum b 0x0C 2)
    (c.st = .torn ∨ c.st = .free → takeMessage s key src b = messageStatus s src b 3) ∧
    (c.st ≠ .torn → c.st ≠ .free → messageRole s (pkNum b 0x0C 2) b = none →
      takeMessage s key src b = messageStatus s src b 5) ∧
    (∀ role g u, c.st = .resident → c.inbound = [] → messageRole s (pkNum b 0x0C 2) b = some role →
      payloadSeg s (pkNum b 0x0C 2) b = some (g, u) →
      takeMessage s key src b = deliverMessage u (pkNum b 0x0C 2) ⟨b, g, src⟩ role (some key))) ∧
  (∀ m rest role u, (s.ctx ctx).inbound = m :: rest → (s.ctx ctx).st = .resident →
    let v := s.modCtx ctx fun c => { c with inbound := rest }
    messageRole s ctx m.bytes = some role → deliverMessage v ctx m role none = some u →
    exec (.activeMessageDeliver ctx) s = .next u) ∧
  (∀ pre r rest, (s.ctx ctx).svcQ = pre ++ r :: rest →
    let serve := fun (n : Nat) => ((List.range n).foldl (fun (o : Option State) _ => o.bind fun u => serveFirst u ctx)
      (some s)).getD s
    ((∀ q ∈ pre, q.number ≠ 0x10) → r.number = 0x10 → exec (.serviceLoad ctx) s = .next (serve (pre.length + 1))) ∧
    ((∀ q ∈ pre, q.number ≠ 0x11) → r.number = 0x11 → exec (.serviceUnload ctx) s = .next (serve (pre.length + 1)))) ∧
  (∀ r rest, (s.ctx ctx).svcQ = r :: rest →
    let late := (s.ctx ctx).announce
    let u := s.modCtx ctx fun c => { c with
      svcQ := rest ++ late.take (1024 - rest.length), announce := late.drop (1024 - rest.length) }
    (∀ blk base v w z, r.number = 0x10 → serviceRead u r r.addr.toNat 64 = some blk →
      loadImage u r.ctx (readContainer u r (pkNum blk 8 8)) (pkNum blk 0x10 8) (pkNum blk 0x18 4) = .ok (base, v) →
      serviceWrite v r (r.addr + 0x20) (bytesOfNat 8 base) = some w →
      serviceWrite w r r.addr (bytesOfNat 8 (2 ^ 63)) = some z → serveFirst s ctx = some z) ∧
    (∀ blk st d z, r.number = 0x10 → serviceRead u r r.addr.toNat 64 = some blk →
      loadImage u r.ctx (readContainer u r (pkNum blk 8 8)) (pkNum blk 0x10 8) (pkNum blk 0x18 4) = .error (st, d) →
      serviceWrite u r r.addr (bytesOfNat 8 (2 ^ 63 + st + d % 2 ^ 32 * 2 ^ 8)) = some z → serveFirst s ctx = some z) ∧
    (∀ blk z, r.number = 0x11 → serviceRead u r r.addr.toNat 64 = some blk →
      let v := unloadImage u r.ctx (pkNum blk 0x10 8)
      serviceWrite v.2 r r.addr (bytesOfNat 8 (2 ^ 63 + v.1)) = some z → serveFirst s ctx = some z))

/-! ### The host, the links, errors and management -/

/-- R244, R252, R383, R391, R392, R443 to R453, R464, R465, R469: the host reads the committed bytes at the home and writes
them there, an AtomicOp returns the old bytes; in a function-level reset reads are all ones and writes are discarded; the
completion of a host store performs it, or drops its host bytes with a record; another device reads and writes at this home,
unless the access's context is torn down; the links train, and a device that is reached no more is down; the time base locks.
Log entries 8, 13, 87, 97, 99 and 117: choices of the model. -/
def Obligations.HostEvents : Prop := ∀ (s : State) (pa n dev self core tok kind ctx line w : Nat) (va : DWord) (bs : List Byte)
    (r : MemReq) (ok cxl locked : Bool) (off : BitVec 31) (devs : List Nat),
  (s.portUp = true →
    (s.dev.inReset = true → (configBase ≤ pa → exec (.hostMemoryRead pa n) s = .next (s.send (.hostReply false [2]))) ∧
      (pa < configBase → exec (.hostMemoryRead pa n) s = .next (s.send (.hostReply true (List.replicate n 0xFF)))) ∧
      (levelOf pa ≠ .host → pa < configBase → exec (.hostMemoryWrite pa bs) s = .next s) ∧
      exec (.hostAtomic pa r) s = .next s) ∧
    (s.dev.inReset = false →
      (exec (.hostMemoryRead (configBase + pa) n) s = .next (s.send (.hostReply true (regBytes (configRead s) pa n)))) ∧
      (bar0Base + pa < configBase →
        exec (.hostMemoryRead (bar0Base + pa) n) s = .next (s.send (.hostReply true (bar0Bytes s pa n)))) ∧
      (pa < bar0Base → outsideBad s pa n = true ∨ hostRange s < pa + n →
        exec (.hostMemoryRead pa n) s = .next (s.send (.hostReply false []))) ∧
      (pa < bar0Base → outsideBad s pa n = false → pa + n ≤ hostRange s → exec (.hostMemoryRead pa n) s =
        .next ((hostHolds s pa n false).send (.hostReply true (outsideBytes s pa n)))) ∧
      (bs.length = 4 → exec (.hostMemoryWrite (bar0Base + 0x1000) bs) s = exec (.doorbell (natOfBytes bs % 1024)) s) ∧
      (bs.length = 4 → configBase + pa ≠ configBase + doeMailbox →
        exec (.hostMemoryWrite (configBase + pa) bs) s = .next (s.modDev fun d => configWrite d pa (natOfBytes bs))) ∧
      (exec (.hostMemoryWrite (configBase + doeMailbox) bs) s = .next (s.send (.hostReply true (spdmAnswer s bs)))) ∧
      (levelOf pa ≠ .host → pa < bar0Base → pa + bs.length ≤ hostRange s →
        (∀ u, writeLines s (bs.length / 128 + 2) pa bs = some u →
          exec (.hostMemoryWrite pa bs) s = .next (hostHolds u pa bs.length true)) ∧
        (∀ u, bs ≠ [] → pa / 128 = (pa + bs.length - 1) / 128 → writeLine s pa bs = some u →
          exec (.hostMemoryWrite pa bs) s = .next (hostHolds u pa bs.length true))) ∧
      (∀ old u, outsideBad s pa (reqBytes r) = false → s.barrierLive pa = false → reqAtHome s pa r = some (old, u) →
        (s.dev.host = some (.pcie, w) → atomicOpOk r pa = true →
          exec (.hostAtomic pa r) s = .next ((hostHolds u pa (reqBytes r) true).send (.hostReply true old))) ∧
        (s.dev.host = some (.cxl, w) → pa / 128 = (pa + reqBytes r - 1) / 128 →
          exec (.hostAtomic pa r) s = .next ((hostHolds u pa (reqBytes r) true).send (.hostReply true old)))) ∧
      (s.barrierLive pa = true → exec (.hostAtomic pa r) s = .next (s.send (.hostReply false []))))) ∧
  (∀ x w, s.dev.host = some (x, w) → bar0Read s 0 = (if x = .cxl then 1 else 0) + (if s.dev.hostUp then 4 else 0) +
    w % 256 * 2 ^ 8) ∧
  (levelOf pa = .host → pa < bar0Base → exec (.hostMemoryWrite pa bs) s = .next (hostOwnWrite s pa bs)) ∧
  (∀ q, (s.core core).order[n]? = some q → q.hostCells ≠ [] →
    (∀ u, (∀ p ∈ (s.core core).order.take n, keepsBack s core p q = false) → performStore s core q = some u →
      exec (.hostAccessCompletion core n true) s = .next (u.modCore core fun c => { c with order := dropAt c.order n })) ∧
    ∃ t, exec (.hostAccessCompletion core n false) s = .next t ∧ t.mem = s.mem ∧
      (t.core core).order.length ≤ (s.core core).order.length ∧
      ((∀ c ∈ q.cells, levelOf c.1 = .host) → (t.core core).order = dropAt (s.core core).order n) ∧
      (t.core core).hostErr = (s.core core).hostErr) ∧
  ((s.core core).order[n]? = none → exec (.hostAccessCompletion core n ok) s =
    .next (s.modCore core fun c => { c with hostErr := c.hostErr ++ [ok] })) ∧
  (dev ≠ s.dev.devid → dev ∈ s.dev.fabric → dev ∉ s.dev.down →
    (ctxGone s ctx = true →
      exec (.remoteAccess dev pa (.mem ctx r)) s = .next (s.send (.remoteReply dev false [2])) ∧
      exec (.remoteAccess dev pa (.load ctx n w)) s = .next (s.send (.remoteReply dev false [2]))) ∧
    (ctxGone s ctx = false →
      (outsideBad s pa (reqBytes r) = false → pa + reqBytes r ≤ Config.hbmBytes → s.barrierLive pa = false →
        (∀ old u, reqAtHome s pa r = some (old, u) → exec (.remoteAccess dev pa (.mem ctx r)) s =
          .next ((u.backInvalidate ((List.range (reqBytes r)).map (pa + ·)) false).send (.remoteReply dev true old))) ∧
        (reqAtHome s pa r = none → exec (.remoteAccess dev pa (.mem ctx r)) s = .next s)) ∧
      (outsideBad s pa (reqBytes r) = false → pa + reqBytes r ≤ Config.hbmBytes → s.barrierLive pa = true →
        (∀ m, r ≠ .read m) → exec (.remoteAccess dev pa (.mem ctx r)) s = .next (s.send (.remoteReply dev false [0x60]))) ∧
      (outsideBad s pa (reqBytes r) = true → exec (.remoteAccess dev pa (.mem ctx r)) s =
        .next (s.send (.remoteReply dev false []))) ∧
      (outsideBad s pa n = false → pa + n ≤ Config.hbmBytes →
        (∀ v, homeRead s (pa / 128) w 0 = .ok v → exec (.remoteAccess dev pa (.load ctx n w)) s =
          .next ((s.backInvalidate ((List.range n).map (pa + ·)) false).send
            (.remoteReply dev true ((v.bytes.drop (pa % 128)).take n)))) ∧
        (∀ e, homeRead s (pa / 128) w 0 = .bad e → exec (.remoteAccess dev pa (.load ctx n w)) s =
          .next (s.send (.remoteReply dev false [0x41]))) ∧
        (homeRead s (pa / 128) w 0 = .wait → exec (.remoteAccess dev pa (.load ctx n w)) s = .next s))) ∧
    (∀ f k, ctxGone s f.ctx = false → outsideBad s pa bs.length = false → pa + bs.length ≤ Config.hbmBytes →
      s.barrierLive pa = true →
      exec (.remoteAccess dev pa (.foldStore f k bs)) s = .next (s.send (.remoteReply dev false [0x60]))) ∧
    (∀ f, (∀ l ∈ foldLinesHere s (awayTag dev f), s.deadAgent .dev (l * 128) = none) →
      exec (.remoteAccess dev pa (.foldAck f)) s = .next (((foldLinesHere s (awayTag dev f)).foldl
        (modPend fun p => { p with st := .acked (s.dev.hb + 1) }) s).send (.remoteReply dev true (bytesOfNat 8 s.dev.hb)))) ∧
    (∀ f, exec (.remoteAccess dev pa (.foldDiscard f)) s = .next (((foldLinesHere s (awayTag dev f)).foldl
      (fun s l => s.modLine l fun x => { x with pend := none }) s).send (.remoteReply dev true []))) ∧
    exec (.remoteAccess dev pa .wasReset) s = .next (peerReset s dev) ∧
    exec (.remoteAccess dev pa (.icinv tok)) s =
      .next (((s.cores.map (·.1)).foldl (fun s c => dropCode s c (pa / 128)) s).send (.ack dev tok)) ∧
    exec (.remoteAccess dev pa (.ack tok)) s = .next (ackedBy s fun a => decide (a = (tok, dev)))) ∧
  (∀ u, s.linked dev = true → tlbiLocal s kind ctx va = .ok u →
    exec (.tlbiSysMessage ⟨dev, tok⟩ kind ctx va) s = .next (u.send (.ack dev tok))) ∧
  (s.linked dev = true → s.dev.locked = false ∨ (w ≤ s.dev.hb + 1 ∧ s.dev.hb ≤ w + 1) →
    exec (.heartbeatAgreement dev w) s = .next (s.modDev fun d => { d with peers := tabPut d.peers dev w })) ∧
  (s.dev.hostUp = false → (5, 0) ∉ s.dev.contained → exec (.linkTrain cxl w) s =
    .next (s.modDev fun d => { d with host := some (if cxl then .cxl else .pcie, w), hostUp := true })) ∧
  exec (.hostSnoop line) s = .next (s.modDev fun d => { d with hostLines := d.hostLines.filter fun l => l.1 ≠ line }) ∧
  (∃ t, exec (.swetexLinkTrain ⟨self, devs⟩) s = .next t ∧
    ((∀ x ∈ s.dev.fabric, x = s.dev.devid ∨ x ∈ s.dev.down ∨ (x ∈ devs ∧ x < 64)) → t.mem = s.mem ∧ t.fibres = s.fibres) ∧
    t.dev.devid = (if s.ctxs = [] ∧ self < 64 then self else s.dev.devid) ∧
    (t.dev.devid = s.dev.devid →
      (∀ x, x ∈ t.dev.fabric ↔ x ∈ s.dev.fabric ∨ x = s.dev.devid ∨ (x ∈ devs ∧ x < 64)) ∧
      ∀ x, x ∈ t.dev.down ↔ x ∈ s.dev.fabric ∧ x ≠ s.dev.devid ∧ ¬ (x ∈ devs ∧ x < 64))) ∧
  exec (.timeBaseLock locked off) s = .next (s.modDev fun d =>
    { d with locked := locked, offset := off, peers := if locked then d.peers else [] })

/-- R209, R223, R455 to R463, R466: a corrected error is logged and counted and changes no value; an uncorrectable one
stops the flock that met it with class 1, poisons the granule, or marks the loop, its elements undefined as it ends, and one of a
clean copy counts as corrected; an agent silent for 64 heartbeat ticks is contained; the spares take the place of what failed. R16, R391, R464, R465, R467 to R471: a function-level reset leaves no
context, team, fibre, flock, queue or launch and keeps the heartbeat, the time base, the links, the spares and the poison;
power returns with the heartbeat at 0 and the compute side held; boot verifies its stages in order; a firmware image below
the counter is refused; Baszer answers; the clock steps by 100 MHz.
Log entries 82, 88, 89, 90, 91, 92, 93, 94, 95 and 96: choices of the model. -/
def Obligations.ErrorsAndManagement : Prop :=
  (∀ (s : State) (p : ErrPlace) (f k n key core rod kind idx die slice : Nat),
    exec (.correctedError p) s = .next (logPlace (countCorr s p) p 1) ∧
    ((tabGet s.fibres f).isSome → (s.fib f).loc = .flock k →
      exec (.uncorrectableError (.laneReg f n)) s = .next (stopClass1 (logPlace s (.laneReg f n) 2) k 1 (s.fib f).home n) ∧
      exec (.uncorrectableError (.scratch f key)) s = .next (stopClass1 (logPlace s (.scratch f key) 2) k 3 (s.fib f).home 0) ∧
      exec (.uncorrectableError (.segment f key)) s =
        .next (stopClass1 (logPlace s (.segment f key) 2) k 4 (s.fib f).home 0)) ∧
    (∀ fl l, tabGet s.flocks k = some fl → fl.unfrozen.lanes.head? = some l →
      exec (.uncorrectableError (.uniformReg k n)) s = .next (stopClass1 (logPlace s (.uniformReg k n) 2) k 2 l n)) ∧
    exec (.uncorrectableError (.l2 key)) s = .next ((logPlace s (.l2 key) 2).markPoison key 5) ∧
    exec (.uncorrectableError (.hbm key)) s = .next ((logPlace s (.hbm key) 2).markPoison key 6) ∧
    (dirtyWord s key = true →
      exec (.uncorrectableError (.dirtyL1 key)) s = .next (loseDirty (logPlace s (.dirtyL1 key) 2) key)) ∧
    (dirtyWord s key = false → ∀ u, u = s.invalidate (key / 128) (wordSpan (key / 4 * 4) 4 false) none →
      exec (.uncorrectableError (.dirtyL1 key)) s = .next (logPlace (countCorr u (.dirtyL1 key)) (.dirtyL1 key) 1)) ∧
    exec (.uncorrectableError (.codeCache core key)) s =
      .next (logPlace (dropCode s core (key / 128)) (.codeCache core key) 1) ∧
    exec (.uncorrectableError (.rod core rod)) s = .next (loseRod (logPlace s (.rod core rod) 2) core rod) ∧
    (∀ bank row col, let u := logPlace s (.acc core bank row col) 2
      (∀ m o, bankHead u core bank = some (m, o) → o.ops.isSome = true →
        exec (.uncorrectableError (.acc core bank row col)) s = .next (setOp u core m { o with
          errs := Nat.lor o.errs 0x200, lost := (o.lost ++ [row * 256 + col]).dedup })) ∧
      ((∀ m o, bankHead u core bank = some (m, o) → o.ops.isSome = false) →
        exec (.uncorrectableError (.acc core bank row col)) s = .next (undefineElems u core bank [row * 256 + col]))) ∧
    (tabGet s.fibres f = none → exec (.uncorrectableError (.scratch f key)) s = .next (engineHit
      (logPlace s (.scratch f key) 2) key (fun o => o.lose 0x400 ((rowsWith (logPlace s (.scratch f key) 2) key o).flatMap
        (rowElems (logPlace s (.scratch f key) 2) o))) (fun x => { x with errs := Nat.lor x.errs 0x400 })
      fun x => { x with errs := Nat.lor x.errs 0x400, code := 6 })) ∧
    (∀ v, v = logPlace s (.control kind idx) 2 → agentExists s kind idx = true → (kind, idx) ∉ s.dev.contained →
      exec (.uncorrectableError (.control kind idx)) s = .next (contain v kind idx)) ∧
    (agentExists s kind idx = true → (kind, idx) ∉ s.dev.contained →
      ((∀ a ∈ s.dev.silent, a.1 = kind → a.2.1 ≠ idx) → exec (.agentDead kind idx) s =
        .next (s.modDev fun d => { d with silent := d.silent ++ [(kind, idx, d.hb)] })) ∧
      ∀ a, s.dev.silent.find? (fun a => a.1 = kind && a.2.1 = idx) = some a →
        (a.2.2 + 64 ≤ s.dev.hb → exec (.agentDead kind idx) s = .next (contain s kind idx)) ∧
        (s.dev.hb < a.2.2 + 64 → exec (.agentDead kind idx) s = .next s)) ∧
    (rod < 256 → isShepherd core = false → (s.core core).contained = false →
      worn s (fun e => e.agent = 1 && e.addr = rodKey core rod 0) = true →
      ((s.core core).spareRods.length < 8 → exec (.rodSpare core rod) s = .next ((served s fun e =>
        e.agent = 1 && e.addr = rodKey core rod 0).modCore core fun x => { x with spareRods := x.spareRods ++ [rod] })) ∧
      (8 ≤ (s.core core).spareRods.length → exec (.rodSpare core rod) s = .next (contain s 1 (s.coreId core % 32)))) ∧
    (∀ c, deadCore s die = some c → (∀ x ∈ s.dev.spareCores, coreDie x ≠ die) → die < 2 →
      (∀ t ∈ s.teams, t.2.vacated = false → ∀ x ∈ t.2.cores, clusterOf x ≠ clusterOf c) →
      exec (.coreSpareJoin die) s = .next ((((s.zero (scratchKey c 0) (2 ^ 22)).zero (rodKey c 0 0) (2 ^ 23)).setCore c
        Core.reset).modDev fun d => { d with
          spareCores := d.spareCores ++ [c], sparemap := d.sparemap ||| (1#10 <<< die) })) ∧
    (∀ used, used = (s.dev.spareSlices.filter fun x => x / 128 = slice / 128).length → slice < 256 → ((2, slice) ∈ s.dev.contained ∨
        64 ≤ recentErrors s 1 fun e => e.agent = 2 && e.index = slice) →
      (used < 4 → exec (.l2SliceSpare slice) s = .next ((served
        (if (2, slice) ∈ s.dev.contained then zeroSlice s slice else s) fun e => e.agent = 2 && e.index = slice).modDev
        fun d => { d with
          contained := d.contained.filter (· ≠ (2, slice))
          spareSlices := d.spareSlices ++ [slice]
          sparemap := d.sparemap ||| (1#10 <<< (2 + slice / 128 * 4 + used)) })) ∧
      (4 ≤ used → (2, slice) ∉ s.dev.contained → exec (.l2SliceSpare slice) s = .next (contain s 2 slice))) ∧
    (worn s (fun e => e.agent = 3 && channelOf e.addr / 64 = k && Config.rowOf (e.addr / 32) = n) = true →
      exec (.hbmRowSpare k n) s = .next ((served s fun e =>
        e.agent = 3 && channelOf e.addr / 64 = k && Config.rowOf (e.addr / 32) = n).modDev
        fun d => { d with spareRows := d.spareRows ++ [(k, n)] })) ∧
    ((3, k) ∈ s.dev.contained → (s.dev.spareChannels.filter fun c => c / 64 = k / 64).length < 2 →
      ∃ t, exec (.pseudoChannelSpare k) s = .next t ∧ (3, k) ∉ t.dev.contained ∧ k ∈ t.dev.badChannels ∧
        t.dev.spareChannels = s.dev.spareChannels ++ [k] ∧ t.fibres = s.fibres ∧ t.lines = s.lines ∧
        t.mem = s.mem.filter fun c => !(decide (c.1 < 2 ^ 60) && decide (channelOf c.1 = k))) ∧
    (k < 16 → tabGetD s.dev.spareLanes k 0 < 3 → ∀ u, u = s.modDev (fun d =>
        { d with spareLanes := tabPut d.spareLanes k (tabGetD s.dev.spareLanes k 0 + 1) }) →
      ((∀ x ∈ s.dev.fabric, x ≠ s.dev.devid → x ∉ s.dev.down → ∃ l, l < 16 ∧ Config.linkCarries l x = true ∧
        tabGetD u.dev.spareLanes l 0 < 3) → exec (.swetexLaneSpare k) s = .next u) ∧
      exec (.swetexLaneSpare k) s = .next ((cutOff u fun l => 3 ≤ tabGetD u.dev.spareLanes l 0).foldl losePath u)) ∧
    (s.dev.hostUp = true → (5, 0) ∉ s.dev.contained → exec .surpriseLinkLoss s = .next (contain s 5 0) ∧
      (5, 0) ∈ (markDead s 5 0).dev.contained ∧ (markDead s 5 0).dev.hostUp = false) ∧
    exec .hostLinkReset s = .next (s.modDev fun d => { d with
      contained := d.contained.filter (· ≠ (5, 0)), host := none, hostUp := false, hostLines := [], hostHeld := [] })) ∧
  (∀ (s : State) (stage : BootStage) (img : List Byte) (ver : BitVec 16) (c : Bool)
      (sensor : Sensor),
    (∃ t, exec .functionLevelReset s = .next t ∧ t.ctxs = [] ∧ t.teams = [] ∧ t.fibres = [] ∧ t.flocks = [] ∧
      t.queues = [] ∧ t.launches = [] ∧ t.runs = [] ∧ t.folds = [] ∧ t.faults = [] ∧ t.windows = [] ∧ t.clusters = [] ∧
      t.lines = [] ∧ t.dev = { s.dev with
        errors := t.dev.errors, poisoned := t.dev.poisoned, inReset := true, ctxsel := 0, sparemap := 0
        wdt := Device.reset.wdt, hbRun := true, hostLines := [], acks := [], tornAt := [], atomScope := [] } ∧
      ∀ c, (t.core c).spareRods = (s.core c).spareRods ∧ (t.core c).contained = (s.core c).contained) ∧
    (∃ t, exec .powerOn s = .next t ∧ t.dev.hb = 0 ∧ t.dev.hbRun = true ∧ t.dev.computeOn = false ∧ t.dev.booted = 0 ∧
      t.dev.errors = [] ∧ t.dev.responses = [] ∧ t.dev.rollback = s.dev.rollback ∧ t.dev.sparemap = 0 ∧ t.fibres = [] ∧
      t.mem = [] ∧ t.dev.spareSlices = s.dev.spareSlices ∧ t.dev.spareRows = s.dev.spareRows ∧
      t.dev.spareLanes = s.dev.spareLanes ∧ ∀ c, (t.core c).spareRods = (s.core c).spareRods) ∧
    (∃ t, exec .powerCycle s = .next t ∧ t.dev.hb = 0 ∧ t.dev.hbRun = true ∧ t.dev.computeOn = false ∧ t.dev.booted = 0 ∧
      t.dev.errors = s.dev.errors ∧ t.dev.sparemap = 0 ∧ t.dev.rollback = s.dev.rollback ∧ t.fibres = [] ∧ t.mem = [] ∧
      t.dev.spareSlices = s.dev.spareSlices ∧ t.dev.spareRows = s.dev.spareRows ∧ t.dev.spareLanes = s.dev.spareLanes ∧
      ∀ c, (t.core c).spareRods = (s.core c).spareRods) ∧
    (∃ t, exec .thermalShutdown s = .next t ∧ t.dev.computeOn = false ∧ t.dev.hbRun = false ∧ t.fibres = [] ∧
      t.outbox = s.outbox ++ [.sideband 0x71 []]) ∧
    exec (.thermalThrottle true) s = .next (s.modDev fun d => { d with clockMHz := d.clockMHz - 100 }) ∧
    exec (.thermalThrottle false) s = .next (s.modDev fun d => { d with clockMHz := min 2700 (d.clockMHz + 100) }) ∧
    (s.dev.bootFailed = false → s.dev.booted = stageIndex stage → imageGood s img = true →
      let u := if stage = .shepherd then startOwn s 0 2 (Config.imageEntry img) 0 0 else s
      exec (.bootVerify stage img) s = .next (u.modDev fun d => { d with
        fwImages := tabPut d.fwImages (stageIndex stage) img
        booted := d.booted + 1, computeOn := decide (d.booted + 1 = 4) })) ∧
    (s.dev.bootFailed = false → s.dev.booted = stageIndex stage → imageGood s img = false →
      ∃ t, exec (.bootVerify stage img) s = .next t ∧ t.dev.bootFailed = true ∧ t.dev.computeOn = false ∧
        t.dev.booted = s.dev.booted) ∧
    (imageGood s img = true → signedWell img = true ∧ s.dev.rollback.toNat ≤ (Config.imageVersion img).toNat) ∧
    (imageGood s img = false → exec (.firmwareUpdate img ver c) s = .next (s.send (.sideband 0x68 []))) ∧
    (imageGood s img = true → exec (.firmwareUpdate img ver true) s = .next (s.modDev fun d => { d with
      fwVersion := Config.imageVersion img, fwPending := none, rollback := Config.imageVersion img })) ∧
    (imageGood s img = true → exec (.firmwareUpdate img ver false) s = .next (s.modDev fun d =>
      { d with fwVersion := Config.imageVersion img, fwPending := some (Config.imageVersion img) })) ∧
    exec (.spdmRequest img) s = .next (respond s 0 (spdmAnswer s img)) ∧
    (∃ b, exec (.sensorRead sensor) s = .next (respond { s with free := s.free + 1 } 1 b)) ∧
    exec .errorLog s = .next (respond s 2 (s.dev.errors.flatMap logBytes)) ∧
    (∃ b, exec .spareState s = .next (respond s 3 (bytesOfNat 2 s.dev.sparemap.toNat ++ b))) ∧
    exec .contextSummary s = .next (respond s 4 ((s.ctxs.filter fun c => c.2.st ≠ .free).flatMap fun c =>
      bytesOfNat 2 c.1 ++ bytesOfNat 1 c.2.st.code)))

/-! ### The machine as a whole -/

/-- R16, R241, R391: after reset the heartbeat is 0 and runs, the device's and every context's privileged registers hold
the values that R241 gives, and a fibre's registers, where nothing has been created, hold the values of R16: all zero but
P0, the completion flags and FPM. -/
def Obligations.ResetValues : Prop :=
  (State.reset.dev.hb = 0 ∧ State.reset.dev.hbRun = true ∧ State.reset.dev.ctxsel = 0 ∧ State.reset.dev.sparemap = 0 ∧
    State.reset.dev.wdt = 12500000) ∧
  (∀ n, let c := State.reset.ctx n
    c.st = .free ∧ c.ttb = 0 ∧ c.thb = 0 ∧ c.thl = 0 ∧ c.tho = 0 ∧ c.fhb = 0 ∧ c.fhl = 0 ∧ c.mtp = 0 ∧ c.nbvd = true ∧
      c.cprio = 0) ∧
  (∀ f, let x := State.reset.fib f
    (∀ n, x.reg n = 0) ∧ x.preds = 1 ∧ x.fpm = 0x200 ∧ x.hch = 0 ∧ x.vst = 0 ∧ (∀ n, x.cf n = true) ∧
      ∀ n, x.cy.getD n 0 = 0) ∧
  (∀ k, (State.reset.flk k).efm = 0) ∧ (∀ c, (State.reset.core c).acc = [])

/-- R89, R92, R263, R267, R348: a step first notes which flocks have become eligible, which moves nothing else, and then takes one
turn. With nothing on the agenda, the word of the run in progress issues: a word that decodes to an instruction and meets no
word fault reads the registers that it names and runs that instruction, waits where such a register is still to be written by
a load that must, and where it meets a fault raises its effect on the lanes that the fault names. With no run, a flock that
can start does, and else the heartbeat ticks. An entry of the agenda goes first: an event runs by itself, a port's turn issues
its run or starts one.
Log entries 1, 2, 4 and 20: choices of the model. -/
def Obligations.StepRuns : Prop := ∀ (s : State) (r : Run) (rest : List Run) (todo : List Turn) (w : Nat) (i : Instr),
  let u := noteEligible s
  (u = { s with flocks := u.flocks, seq := u.seq } ∧ s.seq ≤ u.seq ∧ u.flocks.map (·.1) = s.flocks.map (·.1) ∧
    ∀ k fl, tabGet s.flocks k = some fl → ∃ a b, tabGet u.flocks k = some { fl with since := a, could := b }) ∧
  (s.agenda = [] → s.runs = r :: rest → r.words.getD (r.idx - 1) 0 = w →
    (decodeWord w = .ok i → wordFault u r w i = none →
      (∀ v, issueReads u r i = some v → step s = exec i v) ∧ (issueReads u r i = none → step s = .next (stall u r))) ∧
    (∀ lanes e, decodeWord w = .ok i → wordFault u r w i = some (lanes, e) →
      step s = .next (raiseOn u r lanes i.endsClause e)) ∧
    (∀ e, decodeWord w = .bad e → step s = .next (raiseOn u r r.lanes false (illegal e.code)))) ∧
  (s.agenda = [] → s.runs = [] →
    (∀ core port, startable u = some (core, port) → step s = exec (.runStart core port) u) ∧
    (startable u = none → step s = exec .heartbeatTick u)) ∧
  (s.agenda = .event i :: todo → step s = exec i { u with agenda := todo }) ∧
  (∀ core port, s.agenda = .issue core port :: todo → let u := { u with agenda := todo }
    (takeRun u core port = none → step s = exec (.runStart core port) u) ∧
    (∀ v z, takeRun u core port = some (r, v) → r.words.getD (r.idx - 1) 0 = w → decodeWord w = .ok i →
      wordFault v r w i = none → issueReads v r i = some z → step s = exec i z)) ∧
  (∀ nbits r' v z, v = noteEligible (s.withFetchWord nbits w) → decodeWord (w % 2 ^ 64) = .ok i →
    v.runs.head? = some r' → wordFault v r' (w % 2 ^ 64) i = none → issueReads v r' i = some z →
    step (s.withFetchWord nbits w) = exec i z)

/-- R68 to R86, R95: words that the spec writes out decode to the instructions that it writes beside them. -/
def Obligations.DecodeWords : Prop :=
  let g : Guard := ⟨0, false⟩
  decodeWord 0x1800040024800000 = .ok (.lui g false 2 0x124) ∧
  decodeWord 0x100004040001FE00 = .ok (.addi g ⟨false, 2, .v 2, 0xFF0⟩) ∧
  decodeWord 0x20000A0C0E000E00 = .ok (.fadd g ⟨false, 5, .v 6, .v 7⟩ ⟨.fp16, true⟩ .rn) ∧
  decodeWord 0x38C4121200001400 = .ok (.redu ⟨1, false⟩ 9 (.v 9) (.fixed .g4) .fadd false) ∧
  decodeWord 0x400001FFFBFC0000 = .ok (.bra g 0xFFFDFE) ∧
  decodeWord 0x40C0000000000020 = .ok (.retS g) ∧
  decodeWord 0x41C8000A00000000 = .ok (.backoff ⟨2, false⟩ 5) ∧
  decodeWord 0x42C01000007E2080 = .ok (.hinst g 8 (.s 4) 0x3F) ∧
  decodeWord 0x4340140C08000020 = .ok (.perf g 10 (.v 6) (.v 4) true) ∧
  decodeWord 0x438000181C000000 = .ok (.rsm g (.v 12) (.v 14)) ∧
  decodeWord 0x500C080480200000 = .ok (.ld ⟨3, false⟩ ⟨4, .v 2, .w, 0x10, .none, .generic, .fibre, .plain, false⟩) ∧
  decodeWord 0x50400A1080005280 = .ok (.st g ⟨5, .s 8, .w, 0, .none, .core, .team, .rel, false⟩) ∧
  decodeWord 0x5100140408000400 = .ok (.atom g ⟨10, .v 2, 4, .none, .generic, .device, .plain⟩ .add false) ∧
  decodeWord 0x5280000020000500 = .ok (.fenceSc g .system) ∧
  decodeWord 0x53C00E0800015200 = .ok (.baraArrive g 7 ⟨.s 4, 0, .f0, .core, .team, .plain⟩) ∧
  decodeWord 0x61C0300C06004340 = .ok (.qst g 24 (.s 6) (.v 3) none .n8 2 .none) ∧
  decodeWord 0x62C0281418136020 = .ok (.mloop g 20 (.s 10) (.s 12) (.v 9) 1 .f0) ∧
  decodeWord 0x64400E080C006020 = .ok (.tcopy g 7 (.s 4) (.s 6) true .none) ∧
  decodeWord 0x708000080C000000 = .ok (.tlbiVa g false (.v 4) (.v 6)) ∧
  decodeWord 0x71C0180000008000 = .ok (.hbrd g true 12 false)

/-- R75 to R86: the decoder reads back what the encoder writes: for every instruction whose fields are listed, at every
value of every operand, the word that encodes it decodes to that instruction and to no other. -/
def Obligations.RoundTrip : Prop := ∀ (i : Instr) (w : Nat),
  i.fieldsListed = true → encode i = some w → decodeWord w = .ok i ∧ w < 2 ^ 64

/-- Memory keeps its canonical form, addresses strictly rising and no entry that an unlisted address would read as, under
every step of the machine.
Log entries 9 and 10: choices of the model. -/
def Obligations.MemoryKept : Prop := ∀ (s t : State), Memory.wf s.mem = true → step s = .next t → Memory.wf t.mem = true

/-- The memory of the state after reset has the canonical form.
Log entry 10: choices of the model. -/
def Obligations.MemoryAtReset : Prop := Memory.wf State.reset.mem = true ∧ ∀ a, State.reset.byte a = 0
end

