-- ==== Sys2Proof/Laws/Table.lean ====
section
/-! SUPPORT. Laws of the finite tables: read after write, and the canonical form of the sparse ones. -/

namespace Sys2Proof.Machine

variable {α : Type}

@[simp] theorem tabGet_tabPut (t : Tab α) (k : Nat) (v : α) (j : Nat) :
    tabGet (tabPut t k v) j = if k = j then some v else tabGet t j := by
  induction t with
  | nil => simp [tabPut, tabGet]
  | cons p r ih =>
    obtain ⟨i, w⟩ := p
    simp only [tabPut]
    split
    · simp [tabGet]
    · split
      · subst_vars; simp only [tabGet]; split <;> simp_all
      · simp only [tabGet, ih]; split <;> split <;> simp_all

theorem tabGet_tabDel_ne (t : Tab α) (k j : Nat) (h : k ≠ j) : tabGet (tabDel t k) j = tabGet t j := by
  induction t with
  | nil => rfl
  | cons p r ih =>
    obtain ⟨i, w⟩ := p
    simp only [tabDel]
    split
    · subst_vars; simp [tabGet, h, ih]
    · simp only [tabGet, ih]

@[simp] theorem tabGet_tabMod (t : Tab α) (k : Nat) (f : α → α) (j : Nat) :
    tabGet (tabMod t k f) j = if k = j then (tabGet t j).map f else tabGet t j := by
  unfold tabMod
  split
  · split
    · subst_vars; simp_all
    · rfl
  · simp only [tabGet_tabPut]
    split
    · subst_vars; simp_all
    · rfl

theorem tabPut_tabPut (t : Tab α) (k : Nat) (v w : α) : tabPut (tabPut t k v) k w = tabPut t k w := by
  induction t with
  | nil => simp [tabPut]
  | cons p r ih =>
    obtain ⟨i, u⟩ := p
    simp only [tabPut]
    split
    · simp [tabPut]
    · next h =>
      split
      · simp [tabPut]
      · next h' => simp [tabPut, h, h', ih]

theorem tabMod_tabMod (t : Tab α) (k : Nat) (f g : α → α) : tabMod (tabMod t k f) k g = tabMod t k (g ∘ f) := by
  unfold tabMod
  cases h : tabGet t k <;> simp [h, tabPut_tabPut]

/-- A map over the values, by key. -/
theorem tabGet_map (t : Tab α) (g : Nat → α → α) (k : Nat) :
    tabGet (t.map fun p => (p.1, g p.1 p.2)) k = (tabGet t k).map (g k) := by
  induction t with
  | nil => rfl
  | cons p r ih =>
    obtain ⟨i, w⟩ := p
    simp only [List.map_cons, tabGet, ih]
    split
    · subst_vars; rfl
    · rfl

/-! ### Canonical form -/

theorem tabCanonical_tail [DecidableEq α] (d : α) (p : Nat × α) (t : Tab α) (h : tabCanonical d (p :: t) = true) :
    tabCanonical d t = true := by
  cases t with
  | nil => rfl
  | cons q r => obtain ⟨i, v⟩ := p; obtain ⟨j, w⟩ := q; simp [tabCanonical] at h; exact h.2

/-- Canonical form of a list with one more entry in front. -/
theorem tabCanonical_cons [DecidableEq α] (d : α) (k : Nat) (v : α) (t : Tab α) :
    tabCanonical d ((k, v) :: t) = true ↔ v ≠ d ∧ (∀ q ∈ t, k < q.1) ∧ tabCanonical d t = true := by
  induction t generalizing k v with
  | nil => simp [tabCanonical]
  | cons q r ih =>
    obtain ⟨j, w⟩ := q
    have hr := ih j w
    simp only [tabCanonical, Bool.and_eq_true, decide_eq_true_eq]
    constructor
    · rintro ⟨⟨hk, hv⟩, hc⟩
      refine ⟨hv, ?_, hc⟩
      intro q hq
      rcases List.mem_cons.1 hq with rfl | hq
      · exact hk
      · exact Nat.lt_trans hk ((hr.1 hc).2.1 q hq)
    · rintro ⟨hv, hq, hc⟩
      exact ⟨⟨hq (j, w) (by simp), hv⟩, hc⟩

theorem mem_tabPut (t : Tab α) (k : Nat) (v : α) (q : Nat × α) (h : q ∈ tabPut t k v) : q = (k, v) ∨ q ∈ t := by
  induction t with
  | nil => simp [tabPut] at h; exact .inl h
  | cons p r ih =>
    obtain ⟨i, w⟩ := p
    simp only [tabPut] at h
    split at h
    · simpa using h
    · split at h
      · rcases List.mem_cons.1 h with h | h
        · exact .inl h
        · exact .inr (by simp [h])
      · rcases List.mem_cons.1 h with h | h
        · exact .inr (by simp [h])
        · rcases ih h with h | h
          · exact .inl h
          · exact .inr (by simp [h])

theorem mem_tabDel (t : Tab α) (k : Nat) (q : Nat × α) (h : q ∈ tabDel t k) : q ∈ t := by
  induction t with
  | nil => cases h
  | cons p r ih =>
    obtain ⟨i, w⟩ := p
    simp only [tabDel] at h
    split at h
    · simp [ih h]
    · rcases List.mem_cons.1 h with h | h
      · simp [h]
      · simp [ih h]

theorem tabCanonical_tabPut [DecidableEq α] (d : α) (t : Tab α) (k : Nat) (v : α) (hv : v ≠ d)
    (h : tabCanonical d t = true) : tabCanonical d (tabPut t k v) = true := by
  induction t with
  | nil => simp [tabPut, tabCanonical, hv]
  | cons p r ih =>
    obtain ⟨i, w⟩ := p
    obtain ⟨hw, hlt, hr⟩ := (tabCanonical_cons d i w r).1 h
    simp only [tabPut]
    split
    · next hk =>
      refine (tabCanonical_cons d k v _).2 ⟨hv, ?_, h⟩
      intro q hq
      rcases List.mem_cons.1 hq with rfl | hq
      · exact hk
      · exact Nat.lt_trans hk (hlt q hq)
    · split
      · subst_vars; exact (tabCanonical_cons d _ v r).2 ⟨hv, hlt, hr⟩
      · refine (tabCanonical_cons d i w _).2 ⟨hw, ?_, ih hr⟩
        intro q hq
        rcases mem_tabPut r k v q hq with rfl | hq
        · simp only; omega
        · exact hlt q hq

theorem tabCanonical_tabDel [DecidableEq α] (d : α) (t : Tab α) (k : Nat) (h : tabCanonical d t = true) :
    tabCanonical d (tabDel t k) = true := by
  induction t with
  | nil => rfl
  | cons p r ih =>
    obtain ⟨i, w⟩ := p
    obtain ⟨hw, hlt, hr⟩ := (tabCanonical_cons d i w r).1 h
    simp only [tabDel]
    split
    · exact ih hr
    · exact (tabCanonical_cons d i w _).2 ⟨hw, fun q hq => hlt q (mem_tabDel r k q hq), ih hr⟩

theorem tabCanonical_tabPutD [DecidableEq α] (d : α) (t : Tab α) (k : Nat) (v : α) (h : tabCanonical d t = true) :
    tabCanonical d (tabPutD t k v d) = true := by
  unfold tabPutD
  split
  · exact tabCanonical_tabDel d t k h
  · next hv => exact tabCanonical_tabPut d t k v hv h

theorem tabCanonical_filter [DecidableEq α] (d : α) (t : Tab α) (p : Nat × α → Bool) (h : tabCanonical d t = true) :
    tabCanonical d (t.filter p) = true := by
  induction t with
  | nil => rfl
  | cons q r ih =>
    obtain ⟨i, w⟩ := q
    obtain ⟨hw, hlt, hr⟩ := (tabCanonical_cons d i w r).1 h
    simp only [List.filter_cons]
    split
    · exact (tabCanonical_cons d i w _).2 ⟨hw, fun q hq => hlt q (List.mem_of_mem_filter hq), ih hr⟩
    · exact ih hr

@[simp] theorem tabGet_tabDel_self (t : Tab α) (k : Nat) : tabGet (tabDel t k) k = none := by
  induction t with
  | nil => rfl
  | cons p r ih =>
    obtain ⟨i, w⟩ := p
    simp only [tabDel]
    split
    · exact ih
    · next hk => simp only [tabGet, hk, if_false, ih]

/-- Read after write in a sparse table. -/
theorem tabGetD_tabPutD [DecidableEq α] (d : α) (t : Tab α) (k : Nat) (v : α) (j : Nat) :
    tabGetD (tabPutD t k v d) j d = if k = j then v else tabGetD t j d := by
  unfold tabPutD tabGetD
  split
  · next hv =>
    split
    · next hk => subst hk; simp [hv]
    · next hk => rw [tabGet_tabDel_ne t k j hk]
  · simp only [tabGet_tabPut]; split <;> simp

/-- A key that a table lists has a value. -/
theorem tabGet_ne_none {α : Type} (t : Tab α) (k : Nat) (v : α) (h : (k, v) ∈ t) : tabGet t k ≠ none := by
  induction t with
  | nil => cases h
  | cons p r ih =>
    obtain ⟨i, w⟩ := p
    simp only [tabGet]
    split
    · simp
    · next hi =>
      cases h with
      | head => exact absurd rfl hi
      | tail _ h => exact ih h

/-- A value that a table gives stands in its list. -/
theorem mem_of_tabGet (t : Tab α) (k : Nat) (v : α) (h : tabGet t k = some v) : (k, v) ∈ t := by
  induction t with
  | nil => cases h
  | cons p r ih =>
    obtain ⟨i, w⟩ := p
    rw [tabGet] at h
    split at h
    · next e => cases h; simp [e]
    · exact List.mem_cons_of_mem _ (ih h)

end Sys2Proof.Machine
end

