-- ==== Sys2Proof/Laws/State.lean ====
section
/-! SUPPORT. One lemma for each field of State after each update. -/

namespace Sys2Proof.Machine

variable (s : State)

/-! ### setFib -/

@[simp] theorem State.setFib_dev (f : Nat) (x : Fibre) : (s.setFib f x).dev = s.dev := rfl
@[simp] theorem State.setFib_mem (f : Nat) (x : Fibre) : (s.setFib f x).mem = s.mem := rfl
@[simp] theorem State.setFib_lines (f : Nat) (x : Fibre) : (s.setFib f x).lines = s.lines := rfl
@[simp] theorem State.setFib_clusters (f : Nat) (x : Fibre) : (s.setFib f x).clusters = s.clusters := rfl
@[simp] theorem State.setFib_cores (f : Nat) (x : Fibre) : (s.setFib f x).cores = s.cores := rfl
@[simp] theorem State.setFib_ctxs (f : Nat) (x : Fibre) : (s.setFib f x).ctxs = s.ctxs := rfl
@[simp] theorem State.setFib_teams (f : Nat) (x : Fibre) : (s.setFib f x).teams = s.teams := rfl
@[simp] theorem State.setFib_fibres (f : Nat) (x : Fibre) : (s.setFib f x).fibres = tabPut s.fibres f x := rfl
@[simp] theorem State.setFib_flocks (f : Nat) (x : Fibre) : (s.setFib f x).flocks = s.flocks := rfl
@[simp] theorem State.setFib_folds (f : Nat) (x : Fibre) : (s.setFib f x).folds = s.folds := rfl
@[simp] theorem State.setFib_faults (f : Nat) (x : Fibre) : (s.setFib f x).faults = s.faults := rfl
@[simp] theorem State.setFib_windows (f : Nat) (x : Fibre) : (s.setFib f x).windows = s.windows := rfl
@[simp] theorem State.setFib_events (f : Nat) (x : Fibre) : (s.setFib f x).events = s.events := rfl
@[simp] theorem State.setFib_queues (f : Nat) (x : Fibre) : (s.setFib f x).queues = s.queues := rfl
@[simp] theorem State.setFib_launches (f : Nat) (x : Fibre) : (s.setFib f x).launches = s.launches := rfl
@[simp] theorem State.setFib_images (f : Nat) (x : Fibre) : (s.setFib f x).images = s.images := rfl
@[simp] theorem State.setFib_outbox (f : Nat) (x : Fibre) : (s.setFib f x).outbox = s.outbox := rfl
@[simp] theorem State.setFib_runs (f : Nat) (x : Fibre) : (s.setFib f x).runs = s.runs := rfl
@[simp] theorem State.setFib_agenda (f : Nat) (x : Fibre) : (s.setFib f x).agenda = s.agenda := rfl
@[simp] theorem State.setFib_picks (f : Nat) (x : Fibre) : (s.setFib f x).picks = s.picks := rfl
@[simp] theorem State.setFib_free (f : Nat) (x : Fibre) : (s.setFib f x).free = s.free := rfl
@[simp] theorem State.setFib_seq (f : Nat) (x : Fibre) : (s.setFib f x).seq = s.seq := rfl

/-! ### modFib -/

@[simp] theorem State.modFib_dev (f : Nat) (g : Fibre → Fibre) : (s.modFib f g).dev = s.dev := rfl
@[simp] theorem State.modFib_mem (f : Nat) (g : Fibre → Fibre) : (s.modFib f g).mem = s.mem := rfl
@[simp] theorem State.modFib_lines (f : Nat) (g : Fibre → Fibre) : (s.modFib f g).lines = s.lines := rfl
@[simp] theorem State.modFib_clusters (f : Nat) (g : Fibre → Fibre) : (s.modFib f g).clusters = s.clusters := rfl
@[simp] theorem State.modFib_cores (f : Nat) (g : Fibre → Fibre) : (s.modFib f g).cores = s.cores := rfl
@[simp] theorem State.modFib_ctxs (f : Nat) (g : Fibre → Fibre) : (s.modFib f g).ctxs = s.ctxs := rfl
@[simp] theorem State.modFib_teams (f : Nat) (g : Fibre → Fibre) : (s.modFib f g).teams = s.teams := rfl
@[simp] theorem State.modFib_fibres (f : Nat) (g : Fibre → Fibre) : (s.modFib f g).fibres = tabMod s.fibres f g := rfl
@[simp] theorem State.modFib_flocks (f : Nat) (g : Fibre → Fibre) : (s.modFib f g).flocks = s.flocks := rfl
@[simp] theorem State.modFib_folds (f : Nat) (g : Fibre → Fibre) : (s.modFib f g).folds = s.folds := rfl
@[simp] theorem State.modFib_faults (f : Nat) (g : Fibre → Fibre) : (s.modFib f g).faults = s.faults := rfl
@[simp] theorem State.modFib_windows (f : Nat) (g : Fibre → Fibre) : (s.modFib f g).windows = s.windows := rfl
@[simp] theorem State.modFib_events (f : Nat) (g : Fibre → Fibre) : (s.modFib f g).events = s.events := rfl
@[simp] theorem State.modFib_queues (f : Nat) (g : Fibre → Fibre) : (s.modFib f g).queues = s.queues := rfl
@[simp] theorem State.modFib_launches (f : Nat) (g : Fibre → Fibre) : (s.modFib f g).launches = s.launches := rfl
@[simp] theorem State.modFib_images (f : Nat) (g : Fibre → Fibre) : (s.modFib f g).images = s.images := rfl
@[simp] theorem State.modFib_outbox (f : Nat) (g : Fibre → Fibre) : (s.modFib f g).outbox = s.outbox := rfl
@[simp] theorem State.modFib_runs (f : Nat) (g : Fibre → Fibre) : (s.modFib f g).runs = s.runs := rfl
@[simp] theorem State.modFib_agenda (f : Nat) (g : Fibre → Fibre) : (s.modFib f g).agenda = s.agenda := rfl
@[simp] theorem State.modFib_picks (f : Nat) (g : Fibre → Fibre) : (s.modFib f g).picks = s.picks := rfl
@[simp] theorem State.modFib_free (f : Nat) (g : Fibre → Fibre) : (s.modFib f g).free = s.free := rfl
@[simp] theorem State.modFib_seq (f : Nat) (g : Fibre → Fibre) : (s.modFib f g).seq = s.seq := rfl

/-! ### delFib -/

@[simp] theorem State.delFib_dev (f : Nat) : (s.delFib f).dev = s.dev := rfl
@[simp] theorem State.delFib_mem (f : Nat) : (s.delFib f).mem = s.mem := rfl
@[simp] theorem State.delFib_lines (f : Nat) : (s.delFib f).lines = s.lines := rfl
@[simp] theorem State.delFib_clusters (f : Nat) : (s.delFib f).clusters = s.clusters := rfl
@[simp] theorem State.delFib_cores (f : Nat) : (s.delFib f).cores = s.cores := rfl
@[simp] theorem State.delFib_ctxs (f : Nat) : (s.delFib f).ctxs = s.ctxs := rfl
@[simp] theorem State.delFib_teams (f : Nat) : (s.delFib f).teams = s.teams := rfl
@[simp] theorem State.delFib_fibres (f : Nat) : (s.delFib f).fibres = tabDel s.fibres f := rfl
@[simp] theorem State.delFib_flocks (f : Nat) : (s.delFib f).flocks = s.flocks := rfl
@[simp] theorem State.delFib_folds (f : Nat) : (s.delFib f).folds = s.folds := rfl
@[simp] theorem State.delFib_faults (f : Nat) : (s.delFib f).faults = s.faults := rfl
@[simp] theorem State.delFib_windows (f : Nat) : (s.delFib f).windows = s.windows := rfl
@[simp] theorem State.delFib_events (f : Nat) : (s.delFib f).events = s.events := rfl
@[simp] theorem State.delFib_queues (f : Nat) : (s.delFib f).queues = s.queues := rfl
@[simp] theorem State.delFib_launches (f : Nat) : (s.delFib f).launches = s.launches := rfl
@[simp] theorem State.delFib_images (f : Nat) : (s.delFib f).images = s.images := rfl
@[simp] theorem State.delFib_outbox (f : Nat) : (s.delFib f).outbox = s.outbox := rfl
@[simp] theorem State.delFib_runs (f : Nat) : (s.delFib f).runs = s.runs := rfl
@[simp] theorem State.delFib_agenda (f : Nat) : (s.delFib f).agenda = s.agenda := rfl
@[simp] theorem State.delFib_picks (f : Nat) : (s.delFib f).picks = s.picks := rfl
@[simp] theorem State.delFib_free (f : Nat) : (s.delFib f).free = s.free := rfl
@[simp] theorem State.delFib_seq (f : Nat) : (s.delFib f).seq = s.seq := rfl

/-! ### setFlk -/

@[simp] theorem State.setFlk_dev (k : Nat) (x : Flock) : (s.setFlk k x).dev = s.dev := rfl
@[simp] theorem State.setFlk_mem (k : Nat) (x : Flock) : (s.setFlk k x).mem = s.mem := rfl
@[simp] theorem State.setFlk_lines (k : Nat) (x : Flock) : (s.setFlk k x).lines = s.lines := rfl
@[simp] theorem State.setFlk_clusters (k : Nat) (x : Flock) : (s.setFlk k x).clusters = s.clusters := rfl
@[simp] theorem State.setFlk_cores (k : Nat) (x : Flock) : (s.setFlk k x).cores = s.cores := rfl
@[simp] theorem State.setFlk_ctxs (k : Nat) (x : Flock) : (s.setFlk k x).ctxs = s.ctxs := rfl
@[simp] theorem State.setFlk_teams (k : Nat) (x : Flock) : (s.setFlk k x).teams = s.teams := rfl
@[simp] theorem State.setFlk_fibres (k : Nat) (x : Flock) : (s.setFlk k x).fibres = s.fibres := rfl
@[simp] theorem State.setFlk_flocks (k : Nat) (x : Flock) : (s.setFlk k x).flocks = tabPut s.flocks k x := rfl
@[simp] theorem State.setFlk_folds (k : Nat) (x : Flock) : (s.setFlk k x).folds = s.folds := rfl
@[simp] theorem State.setFlk_faults (k : Nat) (x : Flock) : (s.setFlk k x).faults = s.faults := rfl
@[simp] theorem State.setFlk_windows (k : Nat) (x : Flock) : (s.setFlk k x).windows = s.windows := rfl
@[simp] theorem State.setFlk_events (k : Nat) (x : Flock) : (s.setFlk k x).events = s.events := rfl
@[simp] theorem State.setFlk_queues (k : Nat) (x : Flock) : (s.setFlk k x).queues = s.queues := rfl
@[simp] theorem State.setFlk_launches (k : Nat) (x : Flock) : (s.setFlk k x).launches = s.launches := rfl
@[simp] theorem State.setFlk_images (k : Nat) (x : Flock) : (s.setFlk k x).images = s.images := rfl
@[simp] theorem State.setFlk_outbox (k : Nat) (x : Flock) : (s.setFlk k x).outbox = s.outbox := rfl
@[simp] theorem State.setFlk_runs (k : Nat) (x : Flock) : (s.setFlk k x).runs = s.runs := rfl
@[simp] theorem State.setFlk_agenda (k : Nat) (x : Flock) : (s.setFlk k x).agenda = s.agenda := rfl
@[simp] theorem State.setFlk_picks (k : Nat) (x : Flock) : (s.setFlk k x).picks = s.picks := rfl
@[simp] theorem State.setFlk_free (k : Nat) (x : Flock) : (s.setFlk k x).free = s.free := rfl
@[simp] theorem State.setFlk_seq (k : Nat) (x : Flock) : (s.setFlk k x).seq = s.seq := rfl

/-! ### modFlk -/

@[simp] theorem State.modFlk_dev (k : Nat) (g : Flock → Flock) : (s.modFlk k g).dev = s.dev := rfl
@[simp] theorem State.modFlk_mem (k : Nat) (g : Flock → Flock) : (s.modFlk k g).mem = s.mem := rfl
@[simp] theorem State.modFlk_lines (k : Nat) (g : Flock → Flock) : (s.modFlk k g).lines = s.lines := rfl
@[simp] theorem State.modFlk_clusters (k : Nat) (g : Flock → Flock) : (s.modFlk k g).clusters = s.clusters := rfl
@[simp] theorem State.modFlk_cores (k : Nat) (g : Flock → Flock) : (s.modFlk k g).cores = s.cores := rfl
@[simp] theorem State.modFlk_ctxs (k : Nat) (g : Flock → Flock) : (s.modFlk k g).ctxs = s.ctxs := rfl
@[simp] theorem State.modFlk_teams (k : Nat) (g : Flock → Flock) : (s.modFlk k g).teams = s.teams := rfl
@[simp] theorem State.modFlk_fibres (k : Nat) (g : Flock → Flock) : (s.modFlk k g).fibres = s.fibres := rfl
@[simp] theorem State.modFlk_flocks (k : Nat) (g : Flock → Flock) : (s.modFlk k g).flocks = tabMod s.flocks k g := rfl
@[simp] theorem State.modFlk_folds (k : Nat) (g : Flock → Flock) : (s.modFlk k g).folds = s.folds := rfl
@[simp] theorem State.modFlk_faults (k : Nat) (g : Flock → Flock) : (s.modFlk k g).faults = s.faults := rfl
@[simp] theorem State.modFlk_windows (k : Nat) (g : Flock → Flock) : (s.modFlk k g).windows = s.windows := rfl
@[simp] theorem State.modFlk_events (k : Nat) (g : Flock → Flock) : (s.modFlk k g).events = s.events := rfl
@[simp] theorem State.modFlk_queues (k : Nat) (g : Flock → Flock) : (s.modFlk k g).queues = s.queues := rfl
@[simp] theorem State.modFlk_launches (k : Nat) (g : Flock → Flock) : (s.modFlk k g).launches = s.launches := rfl
@[simp] theorem State.modFlk_images (k : Nat) (g : Flock → Flock) : (s.modFlk k g).images = s.images := rfl
@[simp] theorem State.modFlk_outbox (k : Nat) (g : Flock → Flock) : (s.modFlk k g).outbox = s.outbox := rfl
@[simp] theorem State.modFlk_runs (k : Nat) (g : Flock → Flock) : (s.modFlk k g).runs = s.runs := rfl
@[simp] theorem State.modFlk_agenda (k : Nat) (g : Flock → Flock) : (s.modFlk k g).agenda = s.agenda := rfl
@[simp] theorem State.modFlk_picks (k : Nat) (g : Flock → Flock) : (s.modFlk k g).picks = s.picks := rfl
@[simp] theorem State.modFlk_free (k : Nat) (g : Flock → Flock) : (s.modFlk k g).free = s.free := rfl
@[simp] theorem State.modFlk_seq (k : Nat) (g : Flock → Flock) : (s.modFlk k g).seq = s.seq := rfl

/-! ### delFlk -/

@[simp] theorem State.delFlk_dev (k : Nat) : (s.delFlk k).dev = s.dev := rfl
@[simp] theorem State.delFlk_mem (k : Nat) : (s.delFlk k).mem = s.mem := rfl
@[simp] theorem State.delFlk_lines (k : Nat) : (s.delFlk k).lines = s.lines := rfl
@[simp] theorem State.delFlk_clusters (k : Nat) : (s.delFlk k).clusters = s.clusters := rfl
@[simp] theorem State.delFlk_cores (k : Nat) : (s.delFlk k).cores = s.cores := rfl
@[simp] theorem State.delFlk_ctxs (k : Nat) : (s.delFlk k).ctxs = s.ctxs := rfl
@[simp] theorem State.delFlk_teams (k : Nat) : (s.delFlk k).teams = s.teams := rfl
@[simp] theorem State.delFlk_fibres (k : Nat) : (s.delFlk k).fibres = s.fibres := rfl
@[simp] theorem State.delFlk_flocks (k : Nat) : (s.delFlk k).flocks = tabDel s.flocks k := rfl
@[simp] theorem State.delFlk_folds (k : Nat) : (s.delFlk k).folds = s.folds := rfl
@[simp] theorem State.delFlk_faults (k : Nat) : (s.delFlk k).faults = s.faults := rfl
@[simp] theorem State.delFlk_windows (k : Nat) : (s.delFlk k).windows = s.windows := rfl
@[simp] theorem State.delFlk_events (k : Nat) : (s.delFlk k).events = s.events := rfl
@[simp] theorem State.delFlk_queues (k : Nat) : (s.delFlk k).queues = s.queues := rfl
@[simp] theorem State.delFlk_launches (k : Nat) : (s.delFlk k).launches = s.launches := rfl
@[simp] theorem State.delFlk_images (k : Nat) : (s.delFlk k).images = s.images := rfl
@[simp] theorem State.delFlk_outbox (k : Nat) : (s.delFlk k).outbox = s.outbox := rfl
@[simp] theorem State.delFlk_runs (k : Nat) : (s.delFlk k).runs = s.runs := rfl
@[simp] theorem State.delFlk_agenda (k : Nat) : (s.delFlk k).agenda = s.agenda := rfl
@[simp] theorem State.delFlk_picks (k : Nat) : (s.delFlk k).picks = s.picks := rfl
@[simp] theorem State.delFlk_free (k : Nat) : (s.delFlk k).free = s.free := rfl
@[simp] theorem State.delFlk_seq (k : Nat) : (s.delFlk k).seq = s.seq := rfl

/-! ### modTm -/

@[simp] theorem State.modTm_dev (t : Nat) (g : Team → Team) : (s.modTm t g).dev = s.dev := rfl
@[simp] theorem State.modTm_mem (t : Nat) (g : Team → Team) : (s.modTm t g).mem = s.mem := rfl
@[simp] theorem State.modTm_lines (t : Nat) (g : Team → Team) : (s.modTm t g).lines = s.lines := rfl
@[simp] theorem State.modTm_clusters (t : Nat) (g : Team → Team) : (s.modTm t g).clusters = s.clusters := rfl
@[simp] theorem State.modTm_cores (t : Nat) (g : Team → Team) : (s.modTm t g).cores = s.cores := rfl
@[simp] theorem State.modTm_ctxs (t : Nat) (g : Team → Team) : (s.modTm t g).ctxs = s.ctxs := rfl
@[simp] theorem State.modTm_teams (t : Nat) (g : Team → Team) : (s.modTm t g).teams = tabMod s.teams t g := rfl
@[simp] theorem State.modTm_fibres (t : Nat) (g : Team → Team) : (s.modTm t g).fibres = s.fibres := rfl
@[simp] theorem State.modTm_flocks (t : Nat) (g : Team → Team) : (s.modTm t g).flocks = s.flocks := rfl
@[simp] theorem State.modTm_folds (t : Nat) (g : Team → Team) : (s.modTm t g).folds = s.folds := rfl
@[simp] theorem State.modTm_faults (t : Nat) (g : Team → Team) : (s.modTm t g).faults = s.faults := rfl
@[simp] theorem State.modTm_windows (t : Nat) (g : Team → Team) : (s.modTm t g).windows = s.windows := rfl
@[simp] theorem State.modTm_events (t : Nat) (g : Team → Team) : (s.modTm t g).events = s.events := rfl
@[simp] theorem State.modTm_queues (t : Nat) (g : Team → Team) : (s.modTm t g).queues = s.queues := rfl
@[simp] theorem State.modTm_launches (t : Nat) (g : Team → Team) : (s.modTm t g).launches = s.launches := rfl
@[simp] theorem State.modTm_images (t : Nat) (g : Team → Team) : (s.modTm t g).images = s.images := rfl
@[simp] theorem State.modTm_outbox (t : Nat) (g : Team → Team) : (s.modTm t g).outbox = s.outbox := rfl
@[simp] theorem State.modTm_runs (t : Nat) (g : Team → Team) : (s.modTm t g).runs = s.runs := rfl
@[simp] theorem State.modTm_agenda (t : Nat) (g : Team → Team) : (s.modTm t g).agenda = s.agenda := rfl
@[simp] theorem State.modTm_picks (t : Nat) (g : Team → Team) : (s.modTm t g).picks = s.picks := rfl
@[simp] theorem State.modTm_free (t : Nat) (g : Team → Team) : (s.modTm t g).free = s.free := rfl
@[simp] theorem State.modTm_seq (t : Nat) (g : Team → Team) : (s.modTm t g).seq = s.seq := rfl

/-! ### setCore -/

@[simp] theorem State.setCore_dev (c : Nat) (x : Core) : (s.setCore c x).dev = s.dev := rfl
@[simp] theorem State.setCore_mem (c : Nat) (x : Core) : (s.setCore c x).mem = s.mem := rfl
@[simp] theorem State.setCore_lines (c : Nat) (x : Core) : (s.setCore c x).lines = s.lines := rfl
@[simp] theorem State.setCore_clusters (c : Nat) (x : Core) : (s.setCore c x).clusters = s.clusters := rfl
@[simp] theorem State.setCore_cores (c : Nat) (x : Core) : (s.setCore c x).cores = tabPut s.cores c x := rfl
@[simp] theorem State.setCore_ctxs (c : Nat) (x : Core) : (s.setCore c x).ctxs = s.ctxs := rfl
@[simp] theorem State.setCore_teams (c : Nat) (x : Core) : (s.setCore c x).teams = s.teams := rfl
@[simp] theorem State.setCore_fibres (c : Nat) (x : Core) : (s.setCore c x).fibres = s.fibres := rfl
@[simp] theorem State.setCore_flocks (c : Nat) (x : Core) : (s.setCore c x).flocks = s.flocks := rfl
@[simp] theorem State.setCore_folds (c : Nat) (x : Core) : (s.setCore c x).folds = s.folds := rfl
@[simp] theorem State.setCore_faults (c : Nat) (x : Core) : (s.setCore c x).faults = s.faults := rfl
@[simp] theorem State.setCore_windows (c : Nat) (x : Core) : (s.setCore c x).windows = s.windows := rfl
@[simp] theorem State.setCore_events (c : Nat) (x : Core) : (s.setCore c x).events = s.events := rfl
@[simp] theorem State.setCore_queues (c : Nat) (x : Core) : (s.setCore c x).queues = s.queues := rfl
@[simp] theorem State.setCore_launches (c : Nat) (x : Core) : (s.setCore c x).launches = s.launches := rfl
@[simp] theorem State.setCore_images (c : Nat) (x : Core) : (s.setCore c x).images = s.images := rfl
@[simp] theorem State.setCore_outbox (c : Nat) (x : Core) : (s.setCore c x).outbox = s.outbox := rfl
@[simp] theorem State.setCore_runs (c : Nat) (x : Core) : (s.setCore c x).runs = s.runs := rfl
@[simp] theorem State.setCore_agenda (c : Nat) (x : Core) : (s.setCore c x).agenda = s.agenda := rfl
@[simp] theorem State.setCore_picks (c : Nat) (x : Core) : (s.setCore c x).picks = s.picks := rfl
@[simp] theorem State.setCore_free (c : Nat) (x : Core) : (s.setCore c x).free = s.free := rfl
@[simp] theorem State.setCore_seq (c : Nat) (x : Core) : (s.setCore c x).seq = s.seq := rfl

/-! ### modCore -/

@[simp] theorem State.modCore_dev (c : Nat) (g : Core → Core) : (s.modCore c g).dev = s.dev := rfl
@[simp] theorem State.modCore_mem (c : Nat) (g : Core → Core) : (s.modCore c g).mem = s.mem := rfl
@[simp] theorem State.modCore_lines (c : Nat) (g : Core → Core) : (s.modCore c g).lines = s.lines := rfl
@[simp] theorem State.modCore_clusters (c : Nat) (g : Core → Core) : (s.modCore c g).clusters = s.clusters := rfl
@[simp] theorem State.modCore_cores (c : Nat) (g : Core → Core) : (s.modCore c g).cores = tabPut s.cores c (g (s.core c)) := rfl
@[simp] theorem State.modCore_ctxs (c : Nat) (g : Core → Core) : (s.modCore c g).ctxs = s.ctxs := rfl
@[simp] theorem State.modCore_teams (c : Nat) (g : Core → Core) : (s.modCore c g).teams = s.teams := rfl
@[simp] theorem State.modCore_fibres (c : Nat) (g : Core → Core) : (s.modCore c g).fibres = s.fibres := rfl
@[simp] theorem State.modCore_flocks (c : Nat) (g : Core → Core) : (s.modCore c g).flocks = s.flocks := rfl
@[simp] theorem State.modCore_folds (c : Nat) (g : Core → Core) : (s.modCore c g).folds = s.folds := rfl
@[simp] theorem State.modCore_faults (c : Nat) (g : Core → Core) : (s.modCore c g).faults = s.faults := rfl
@[simp] theorem State.modCore_windows (c : Nat) (g : Core → Core) : (s.modCore c g).windows = s.windows := rfl
@[simp] theorem State.modCore_events (c : Nat) (g : Core → Core) : (s.modCore c g).events = s.events := rfl
@[simp] theorem State.modCore_queues (c : Nat) (g : Core → Core) : (s.modCore c g).queues = s.queues := rfl
@[simp] theorem State.modCore_launches (c : Nat) (g : Core → Core) : (s.modCore c g).launches = s.launches := rfl
@[simp] theorem State.modCore_images (c : Nat) (g : Core → Core) : (s.modCore c g).images = s.images := rfl
@[simp] theorem State.modCore_outbox (c : Nat) (g : Core → Core) : (s.modCore c g).outbox = s.outbox := rfl
@[simp] theorem State.modCore_runs (c : Nat) (g : Core → Core) : (s.modCore c g).runs = s.runs := rfl
@[simp] theorem State.modCore_agenda (c : Nat) (g : Core → Core) : (s.modCore c g).agenda = s.agenda := rfl
@[simp] theorem State.modCore_picks (c : Nat) (g : Core → Core) : (s.modCore c g).picks = s.picks := rfl
@[simp] theorem State.modCore_free (c : Nat) (g : Core → Core) : (s.modCore c g).free = s.free := rfl
@[simp] theorem State.modCore_seq (c : Nat) (g : Core → Core) : (s.modCore c g).seq = s.seq := rfl

/-! ### setClus -/

@[simp] theorem State.setClus_dev (c : Nat) (x : Cluster) : (s.setClus c x).dev = s.dev := rfl
@[simp] theorem State.setClus_mem (c : Nat) (x : Cluster) : (s.setClus c x).mem = s.mem := rfl
@[simp] theorem State.setClus_lines (c : Nat) (x : Cluster) : (s.setClus c x).lines = s.lines := rfl
@[simp] theorem State.setClus_clusters (c : Nat) (x : Cluster) : (s.setClus c x).clusters = tabPut s.clusters c x := rfl
@[simp] theorem State.setClus_cores (c : Nat) (x : Cluster) : (s.setClus c x).cores = s.cores := rfl
@[simp] theorem State.setClus_ctxs (c : Nat) (x : Cluster) : (s.setClus c x).ctxs = s.ctxs := rfl
@[simp] theorem State.setClus_teams (c : Nat) (x : Cluster) : (s.setClus c x).teams = s.teams := rfl
@[simp] theorem State.setClus_fibres (c : Nat) (x : Cluster) : (s.setClus c x).fibres = s.fibres := rfl
@[simp] theorem State.setClus_flocks (c : Nat) (x : Cluster) : (s.setClus c x).flocks = s.flocks := rfl
@[simp] theorem State.setClus_folds (c : Nat) (x : Cluster) : (s.setClus c x).folds = s.folds := rfl
@[simp] theorem State.setClus_faults (c : Nat) (x : Cluster) : (s.setClus c x).faults = s.faults := rfl
@[simp] theorem State.setClus_windows (c : Nat) (x : Cluster) : (s.setClus c x).windows = s.windows := rfl
@[simp] theorem State.setClus_events (c : Nat) (x : Cluster) : (s.setClus c x).events = s.events := rfl
@[simp] theorem State.setClus_queues (c : Nat) (x : Cluster) : (s.setClus c x).queues = s.queues := rfl
@[simp] theorem State.setClus_launches (c : Nat) (x : Cluster) : (s.setClus c x).launches = s.launches := rfl
@[simp] theorem State.setClus_images (c : Nat) (x : Cluster) : (s.setClus c x).images = s.images := rfl
@[simp] theorem State.setClus_outbox (c : Nat) (x : Cluster) : (s.setClus c x).outbox = s.outbox := rfl
@[simp] theorem State.setClus_runs (c : Nat) (x : Cluster) : (s.setClus c x).runs = s.runs := rfl
@[simp] theorem State.setClus_agenda (c : Nat) (x : Cluster) : (s.setClus c x).agenda = s.agenda := rfl
@[simp] theorem State.setClus_picks (c : Nat) (x : Cluster) : (s.setClus c x).picks = s.picks := rfl
@[simp] theorem State.setClus_free (c : Nat) (x : Cluster) : (s.setClus c x).free = s.free := rfl
@[simp] theorem State.setClus_seq (c : Nat) (x : Cluster) : (s.setClus c x).seq = s.seq := rfl

/-! ### modClus -/

@[simp] theorem State.modClus_dev (c : Nat) (g : Cluster → Cluster) : (s.modClus c g).dev = s.dev := rfl
@[simp] theorem State.modClus_mem (c : Nat) (g : Cluster → Cluster) : (s.modClus c g).mem = s.mem := rfl
@[simp] theorem State.modClus_lines (c : Nat) (g : Cluster → Cluster) : (s.modClus c g).lines = s.lines := rfl
@[simp] theorem State.modClus_clusters (c : Nat) (g : Cluster → Cluster) : (s.modClus c g).clusters = tabPut s.clusters c (g (s.clus c)) := rfl
@[simp] theorem State.modClus_cores (c : Nat) (g : Cluster → Cluster) : (s.modClus c g).cores = s.cores := rfl
@[simp] theorem State.modClus_ctxs (c : Nat) (g : Cluster → Cluster) : (s.modClus c g).ctxs = s.ctxs := rfl
@[simp] theorem State.modClus_teams (c : Nat) (g : Cluster → Cluster) : (s.modClus c g).teams = s.teams := rfl
@[simp] theorem State.modClus_fibres (c : Nat) (g : Cluster → Cluster) : (s.modClus c g).fibres = s.fibres := rfl
@[simp] theorem State.modClus_flocks (c : Nat) (g : Cluster → Cluster) : (s.modClus c g).flocks = s.flocks := rfl
@[simp] theorem State.modClus_folds (c : Nat) (g : Cluster → Cluster) : (s.modClus c g).folds = s.folds := rfl
@[simp] theorem State.modClus_faults (c : Nat) (g : Cluster → Cluster) : (s.modClus c g).faults = s.faults := rfl
@[simp] theorem State.modClus_windows (c : Nat) (g : Cluster → Cluster) : (s.modClus c g).windows = s.windows := rfl
@[simp] theorem State.modClus_events (c : Nat) (g : Cluster → Cluster) : (s.modClus c g).events = s.events := rfl
@[simp] theorem State.modClus_queues (c : Nat) (g : Cluster → Cluster) : (s.modClus c g).queues = s.queues := rfl
@[simp] theorem State.modClus_launches (c : Nat) (g : Cluster → Cluster) : (s.modClus c g).launches = s.launches := rfl
@[simp] theorem State.modClus_images (c : Nat) (g : Cluster → Cluster) : (s.modClus c g).images = s.images := rfl
@[simp] theorem State.modClus_outbox (c : Nat) (g : Cluster → Cluster) : (s.modClus c g).outbox = s.outbox := rfl
@[simp] theorem State.modClus_runs (c : Nat) (g : Cluster → Cluster) : (s.modClus c g).runs = s.runs := rfl
@[simp] theorem State.modClus_agenda (c : Nat) (g : Cluster → Cluster) : (s.modClus c g).agenda = s.agenda := rfl
@[simp] theorem State.modClus_picks (c : Nat) (g : Cluster → Cluster) : (s.modClus c g).picks = s.picks := rfl
@[simp] theorem State.modClus_free (c : Nat) (g : Cluster → Cluster) : (s.modClus c g).free = s.free := rfl
@[simp] theorem State.modClus_seq (c : Nat) (g : Cluster → Cluster) : (s.modClus c g).seq = s.seq := rfl

/-! ### setCtx -/

@[simp] theorem State.setCtx_dev (c : Nat) (x : Ctx) : (s.setCtx c x).dev = s.dev := rfl
@[simp] theorem State.setCtx_mem (c : Nat) (x : Ctx) : (s.setCtx c x).mem = s.mem := rfl
@[simp] theorem State.setCtx_lines (c : Nat) (x : Ctx) : (s.setCtx c x).lines = s.lines := rfl
@[simp] theorem State.setCtx_clusters (c : Nat) (x : Ctx) : (s.setCtx c x).clusters = s.clusters := rfl
@[simp] theorem State.setCtx_cores (c : Nat) (x : Ctx) : (s.setCtx c x).cores = s.cores := rfl
@[simp] theorem State.setCtx_ctxs (c : Nat) (x : Ctx) : (s.setCtx c x).ctxs = tabPut s.ctxs c x := rfl
@[simp] theorem State.setCtx_teams (c : Nat) (x : Ctx) : (s.setCtx c x).teams = s.teams := rfl
@[simp] theorem State.setCtx_fibres (c : Nat) (x : Ctx) : (s.setCtx c x).fibres = s.fibres := rfl
@[simp] theorem State.setCtx_flocks (c : Nat) (x : Ctx) : (s.setCtx c x).flocks = s.flocks := rfl
@[simp] theorem State.setCtx_folds (c : Nat) (x : Ctx) : (s.setCtx c x).folds = s.folds := rfl
@[simp] theorem State.setCtx_faults (c : Nat) (x : Ctx) : (s.setCtx c x).faults = s.faults := rfl
@[simp] theorem State.setCtx_windows (c : Nat) (x : Ctx) : (s.setCtx c x).windows = s.windows := rfl
@[simp] theorem State.setCtx_events (c : Nat) (x : Ctx) : (s.setCtx c x).events = s.events := rfl
@[simp] theorem State.setCtx_queues (c : Nat) (x : Ctx) : (s.setCtx c x).queues = s.queues := rfl
@[simp] theorem State.setCtx_launches (c : Nat) (x : Ctx) : (s.setCtx c x).launches = s.launches := rfl
@[simp] theorem State.setCtx_images (c : Nat) (x : Ctx) : (s.setCtx c x).images = s.images := rfl
@[simp] theorem State.setCtx_outbox (c : Nat) (x : Ctx) : (s.setCtx c x).outbox = s.outbox := rfl
@[simp] theorem State.setCtx_runs (c : Nat) (x : Ctx) : (s.setCtx c x).runs = s.runs := rfl
@[simp] theorem State.setCtx_agenda (c : Nat) (x : Ctx) : (s.setCtx c x).agenda = s.agenda := rfl
@[simp] theorem State.setCtx_picks (c : Nat) (x : Ctx) : (s.setCtx c x).picks = s.picks := rfl
@[simp] theorem State.setCtx_free (c : Nat) (x : Ctx) : (s.setCtx c x).free = s.free := rfl
@[simp] theorem State.setCtx_seq (c : Nat) (x : Ctx) : (s.setCtx c x).seq = s.seq := rfl

/-! ### modCtx -/

@[simp] theorem State.modCtx_dev (c : Nat) (g : Ctx → Ctx) : (s.modCtx c g).dev = s.dev := rfl
@[simp] theorem State.modCtx_mem (c : Nat) (g : Ctx → Ctx) : (s.modCtx c g).mem = s.mem := rfl
@[simp] theorem State.modCtx_lines (c : Nat) (g : Ctx → Ctx) : (s.modCtx c g).lines = s.lines := rfl
@[simp] theorem State.modCtx_clusters (c : Nat) (g : Ctx → Ctx) : (s.modCtx c g).clusters = s.clusters := rfl
@[simp] theorem State.modCtx_cores (c : Nat) (g : Ctx → Ctx) : (s.modCtx c g).cores = s.cores := rfl
@[simp] theorem State.modCtx_ctxs (c : Nat) (g : Ctx → Ctx) : (s.modCtx c g).ctxs = tabPut s.ctxs c (g (s.ctx c)) := rfl
@[simp] theorem State.modCtx_teams (c : Nat) (g : Ctx → Ctx) : (s.modCtx c g).teams = s.teams := rfl
@[simp] theorem State.modCtx_fibres (c : Nat) (g : Ctx → Ctx) : (s.modCtx c g).fibres = s.fibres := rfl
@[simp] theorem State.modCtx_flocks (c : Nat) (g : Ctx → Ctx) : (s.modCtx c g).flocks = s.flocks := rfl
@[simp] theorem State.modCtx_folds (c : Nat) (g : Ctx → Ctx) : (s.modCtx c g).folds = s.folds := rfl
@[simp] theorem State.modCtx_faults (c : Nat) (g : Ctx → Ctx) : (s.modCtx c g).faults = s.faults := rfl
@[simp] theorem State.modCtx_windows (c : Nat) (g : Ctx → Ctx) : (s.modCtx c g).windows = s.windows := rfl
@[simp] theorem State.modCtx_events (c : Nat) (g : Ctx → Ctx) : (s.modCtx c g).events = s.events := rfl
@[simp] theorem State.modCtx_queues (c : Nat) (g : Ctx → Ctx) : (s.modCtx c g).queues = s.queues := rfl
@[simp] theorem State.modCtx_launches (c : Nat) (g : Ctx → Ctx) : (s.modCtx c g).launches = s.launches := rfl
@[simp] theorem State.modCtx_images (c : Nat) (g : Ctx → Ctx) : (s.modCtx c g).images = s.images := rfl
@[simp] theorem State.modCtx_outbox (c : Nat) (g : Ctx → Ctx) : (s.modCtx c g).outbox = s.outbox := rfl
@[simp] theorem State.modCtx_runs (c : Nat) (g : Ctx → Ctx) : (s.modCtx c g).runs = s.runs := rfl
@[simp] theorem State.modCtx_agenda (c : Nat) (g : Ctx → Ctx) : (s.modCtx c g).agenda = s.agenda := rfl
@[simp] theorem State.modCtx_picks (c : Nat) (g : Ctx → Ctx) : (s.modCtx c g).picks = s.picks := rfl
@[simp] theorem State.modCtx_free (c : Nat) (g : Ctx → Ctx) : (s.modCtx c g).free = s.free := rfl
@[simp] theorem State.modCtx_seq (c : Nat) (g : Ctx → Ctx) : (s.modCtx c g).seq = s.seq := rfl

/-! ### setLine -/

@[simp] theorem State.setLine_dev (l : Nat) (x : Line) : (s.setLine l x).dev = s.dev := rfl
@[simp] theorem State.setLine_mem (l : Nat) (x : Line) : (s.setLine l x).mem = s.mem := rfl
@[simp] theorem State.setLine_lines (l : Nat) (x : Line) : (s.setLine l x).lines = tabPutD s.lines l x Line.reset := rfl
@[simp] theorem State.setLine_clusters (l : Nat) (x : Line) : (s.setLine l x).clusters = s.clusters := rfl
@[simp] theorem State.setLine_cores (l : Nat) (x : Line) : (s.setLine l x).cores = s.cores := rfl
@[simp] theorem State.setLine_ctxs (l : Nat) (x : Line) : (s.setLine l x).ctxs = s.ctxs := rfl
@[simp] theorem State.setLine_teams (l : Nat) (x : Line) : (s.setLine l x).teams = s.teams := rfl
@[simp] theorem State.setLine_fibres (l : Nat) (x : Line) : (s.setLine l x).fibres = s.fibres := rfl
@[simp] theorem State.setLine_flocks (l : Nat) (x : Line) : (s.setLine l x).flocks = s.flocks := rfl
@[simp] theorem State.setLine_folds (l : Nat) (x : Line) : (s.setLine l x).folds = s.folds := rfl
@[simp] theorem State.setLine_faults (l : Nat) (x : Line) : (s.setLine l x).faults = s.faults := rfl
@[simp] theorem State.setLine_windows (l : Nat) (x : Line) : (s.setLine l x).windows = s.windows := rfl
@[simp] theorem State.setLine_events (l : Nat) (x : Line) : (s.setLine l x).events = s.events := rfl
@[simp] theorem State.setLine_queues (l : Nat) (x : Line) : (s.setLine l x).queues = s.queues := rfl
@[simp] theorem State.setLine_launches (l : Nat) (x : Line) : (s.setLine l x).launches = s.launches := rfl
@[simp] theorem State.setLine_images (l : Nat) (x : Line) : (s.setLine l x).images = s.images := rfl
@[simp] theorem State.setLine_outbox (l : Nat) (x : Line) : (s.setLine l x).outbox = s.outbox := rfl
@[simp] theorem State.setLine_runs (l : Nat) (x : Line) : (s.setLine l x).runs = s.runs := rfl
@[simp] theorem State.setLine_agenda (l : Nat) (x : Line) : (s.setLine l x).agenda = s.agenda := rfl
@[simp] theorem State.setLine_picks (l : Nat) (x : Line) : (s.setLine l x).picks = s.picks := rfl
@[simp] theorem State.setLine_free (l : Nat) (x : Line) : (s.setLine l x).free = s.free := rfl
@[simp] theorem State.setLine_seq (l : Nat) (x : Line) : (s.setLine l x).seq = s.seq := rfl

/-! ### modLine -/

@[simp] theorem State.modLine_dev (l : Nat) (g : Line → Line) : (s.modLine l g).dev = s.dev := rfl
@[simp] theorem State.modLine_mem (l : Nat) (g : Line → Line) : (s.modLine l g).mem = s.mem := rfl
@[simp] theorem State.modLine_lines (l : Nat) (g : Line → Line) : (s.modLine l g).lines = tabPutD s.lines l (g (s.line l)) Line.reset := rfl
@[simp] theorem State.modLine_clusters (l : Nat) (g : Line → Line) : (s.modLine l g).clusters = s.clusters := rfl
@[simp] theorem State.modLine_cores (l : Nat) (g : Line → Line) : (s.modLine l g).cores = s.cores := rfl
@[simp] theorem State.modLine_ctxs (l : Nat) (g : Line → Line) : (s.modLine l g).ctxs = s.ctxs := rfl
@[simp] theorem State.modLine_teams (l : Nat) (g : Line → Line) : (s.modLine l g).teams = s.teams := rfl
@[simp] theorem State.modLine_fibres (l : Nat) (g : Line → Line) : (s.modLine l g).fibres = s.fibres := rfl
@[simp] theorem State.modLine_flocks (l : Nat) (g : Line → Line) : (s.modLine l g).flocks = s.flocks := rfl
@[simp] theorem State.modLine_folds (l : Nat) (g : Line → Line) : (s.modLine l g).folds = s.folds := rfl
@[simp] theorem State.modLine_faults (l : Nat) (g : Line → Line) : (s.modLine l g).faults = s.faults := rfl
@[simp] theorem State.modLine_windows (l : Nat) (g : Line → Line) : (s.modLine l g).windows = s.windows := rfl
@[simp] theorem State.modLine_events (l : Nat) (g : Line → Line) : (s.modLine l g).events = s.events := rfl
@[simp] theorem State.modLine_queues (l : Nat) (g : Line → Line) : (s.modLine l g).queues = s.queues := rfl
@[simp] theorem State.modLine_launches (l : Nat) (g : Line → Line) : (s.modLine l g).launches = s.launches := rfl
@[simp] theorem State.modLine_images (l : Nat) (g : Line → Line) : (s.modLine l g).images = s.images := rfl
@[simp] theorem State.modLine_outbox (l : Nat) (g : Line → Line) : (s.modLine l g).outbox = s.outbox := rfl
@[simp] theorem State.modLine_runs (l : Nat) (g : Line → Line) : (s.modLine l g).runs = s.runs := rfl
@[simp] theorem State.modLine_agenda (l : Nat) (g : Line → Line) : (s.modLine l g).agenda = s.agenda := rfl
@[simp] theorem State.modLine_picks (l : Nat) (g : Line → Line) : (s.modLine l g).picks = s.picks := rfl
@[simp] theorem State.modLine_free (l : Nat) (g : Line → Line) : (s.modLine l g).free = s.free := rfl
@[simp] theorem State.modLine_seq (l : Nat) (g : Line → Line) : (s.modLine l g).seq = s.seq := rfl

/-! ### modDev -/

@[simp] theorem State.modDev_dev (g : Device → Device) : (s.modDev g).dev = g s.dev := rfl
@[simp] theorem State.modDev_mem (g : Device → Device) : (s.modDev g).mem = s.mem := rfl
@[simp] theorem State.modDev_lines (g : Device → Device) : (s.modDev g).lines = s.lines := rfl
@[simp] theorem State.modDev_clusters (g : Device → Device) : (s.modDev g).clusters = s.clusters := rfl
@[simp] theorem State.modDev_cores (g : Device → Device) : (s.modDev g).cores = s.cores := rfl
@[simp] theorem State.modDev_ctxs (g : Device → Device) : (s.modDev g).ctxs = s.ctxs := rfl
@[simp] theorem State.modDev_teams (g : Device → Device) : (s.modDev g).teams = s.teams := rfl
@[simp] theorem State.modDev_fibres (g : Device → Device) : (s.modDev g).fibres = s.fibres := rfl
@[simp] theorem State.modDev_flocks (g : Device → Device) : (s.modDev g).flocks = s.flocks := rfl
@[simp] theorem State.modDev_folds (g : Device → Device) : (s.modDev g).folds = s.folds := rfl
@[simp] theorem State.modDev_faults (g : Device → Device) : (s.modDev g).faults = s.faults := rfl
@[simp] theorem State.modDev_windows (g : Device → Device) : (s.modDev g).windows = s.windows := rfl
@[simp] theorem State.modDev_events (g : Device → Device) : (s.modDev g).events = s.events := rfl
@[simp] theorem State.modDev_queues (g : Device → Device) : (s.modDev g).queues = s.queues := rfl
@[simp] theorem State.modDev_launches (g : Device → Device) : (s.modDev g).launches = s.launches := rfl
@[simp] theorem State.modDev_images (g : Device → Device) : (s.modDev g).images = s.images := rfl
@[simp] theorem State.modDev_outbox (g : Device → Device) : (s.modDev g).outbox = s.outbox := rfl
@[simp] theorem State.modDev_runs (g : Device → Device) : (s.modDev g).runs = s.runs := rfl
@[simp] theorem State.modDev_agenda (g : Device → Device) : (s.modDev g).agenda = s.agenda := rfl
@[simp] theorem State.modDev_picks (g : Device → Device) : (s.modDev g).picks = s.picks := rfl
@[simp] theorem State.modDev_free (g : Device → Device) : (s.modDev g).free = s.free := rfl
@[simp] theorem State.modDev_seq (g : Device → Device) : (s.modDev g).seq = s.seq := rfl

/-! ### send -/

@[simp] theorem State.send_dev (m : OutMsg) : (s.send m).dev = s.dev := rfl
@[simp] theorem State.send_mem (m : OutMsg) : (s.send m).mem = s.mem := rfl
@[simp] theorem State.send_lines (m : OutMsg) : (s.send m).lines = s.lines := rfl
@[simp] theorem State.send_clusters (m : OutMsg) : (s.send m).clusters = s.clusters := rfl
@[simp] theorem State.send_cores (m : OutMsg) : (s.send m).cores = s.cores := rfl
@[simp] theorem State.send_ctxs (m : OutMsg) : (s.send m).ctxs = s.ctxs := rfl
@[simp] theorem State.send_teams (m : OutMsg) : (s.send m).teams = s.teams := rfl
@[simp] theorem State.send_fibres (m : OutMsg) : (s.send m).fibres = s.fibres := rfl
@[simp] theorem State.send_flocks (m : OutMsg) : (s.send m).flocks = s.flocks := rfl
@[simp] theorem State.send_folds (m : OutMsg) : (s.send m).folds = s.folds := rfl
@[simp] theorem State.send_faults (m : OutMsg) : (s.send m).faults = s.faults := rfl
@[simp] theorem State.send_windows (m : OutMsg) : (s.send m).windows = s.windows := rfl
@[simp] theorem State.send_events (m : OutMsg) : (s.send m).events = s.events := rfl
@[simp] theorem State.send_queues (m : OutMsg) : (s.send m).queues = s.queues := rfl
@[simp] theorem State.send_launches (m : OutMsg) : (s.send m).launches = s.launches := rfl
@[simp] theorem State.send_images (m : OutMsg) : (s.send m).images = s.images := rfl
@[simp] theorem State.send_outbox (m : OutMsg) : (s.send m).outbox = s.outbox ++ [m] := rfl
@[simp] theorem State.send_runs (m : OutMsg) : (s.send m).runs = s.runs := rfl
@[simp] theorem State.send_agenda (m : OutMsg) : (s.send m).agenda = s.agenda := rfl
@[simp] theorem State.send_picks (m : OutMsg) : (s.send m).picks = s.picks := rfl
@[simp] theorem State.send_free (m : OutMsg) : (s.send m).free = s.free := rfl
@[simp] theorem State.send_seq (m : OutMsg) : (s.send m).seq = s.seq := rfl

/-! ### bump -/

@[simp] theorem State.bump_dev : (s.bump).dev = s.dev := rfl
@[simp] theorem State.bump_mem : (s.bump).mem = s.mem := rfl
@[simp] theorem State.bump_lines : (s.bump).lines = s.lines := rfl
@[simp] theorem State.bump_clusters : (s.bump).clusters = s.clusters := rfl
@[simp] theorem State.bump_cores : (s.bump).cores = s.cores := rfl
@[simp] theorem State.bump_ctxs : (s.bump).ctxs = s.ctxs := rfl
@[simp] theorem State.bump_teams : (s.bump).teams = s.teams := rfl
@[simp] theorem State.bump_fibres : (s.bump).fibres = s.fibres := rfl
@[simp] theorem State.bump_flocks : (s.bump).flocks = s.flocks := rfl
@[simp] theorem State.bump_folds : (s.bump).folds = s.folds := rfl
@[simp] theorem State.bump_faults : (s.bump).faults = s.faults := rfl
@[simp] theorem State.bump_windows : (s.bump).windows = s.windows := rfl
@[simp] theorem State.bump_events : (s.bump).events = s.events := rfl
@[simp] theorem State.bump_queues : (s.bump).queues = s.queues := rfl
@[simp] theorem State.bump_launches : (s.bump).launches = s.launches := rfl
@[simp] theorem State.bump_images : (s.bump).images = s.images := rfl
@[simp] theorem State.bump_outbox : (s.bump).outbox = s.outbox := rfl
@[simp] theorem State.bump_runs : (s.bump).runs = s.runs := rfl
@[simp] theorem State.bump_agenda : (s.bump).agenda = s.agenda := rfl
@[simp] theorem State.bump_picks : (s.bump).picks = s.picks := rfl
@[simp] theorem State.bump_free : (s.bump).free = s.free := rfl
@[simp] theorem State.bump_seq : (s.bump).seq = s.seq + 1 := rfl

/-! ### modFibs -/

@[simp] theorem State.modFibs_dev (fs : List Nat) (g : Fibre → Fibre) : (s.modFibs fs g).dev = s.dev := by
  induction fs generalizing s with
  | nil => rfl
  | cons a r ih => exact ih (s.modFib a g)
@[simp] theorem State.modFibs_mem (fs : List Nat) (g : Fibre → Fibre) : (s.modFibs fs g).mem = s.mem := by
  induction fs generalizing s with
  | nil => rfl
  | cons a r ih => exact ih (s.modFib a g)
@[simp] theorem State.modFibs_lines (fs : List Nat) (g : Fibre → Fibre) : (s.modFibs fs g).lines = s.lines := by
  induction fs generalizing s with
  | nil => rfl
  | cons a r ih => exact ih (s.modFib a g)
@[simp] theorem State.modFibs_clusters (fs : List Nat) (g : Fibre → Fibre) : (s.modFibs fs g).clusters = s.clusters := by
  induction fs generalizing s with
  | nil => rfl
  | cons a r ih => exact ih (s.modFib a g)
@[simp] theorem State.modFibs_cores (fs : List Nat) (g : Fibre → Fibre) : (s.modFibs fs g).cores = s.cores := by
  induction fs generalizing s with
  | nil => rfl
  | cons a r ih => exact ih (s.modFib a g)
@[simp] theorem State.modFibs_ctxs (fs : List Nat) (g : Fibre → Fibre) : (s.modFibs fs g).ctxs = s.ctxs := by
  induction fs generalizing s with
  | nil => rfl
  | cons a r ih => exact ih (s.modFib a g)
@[simp] theorem State.modFibs_teams (fs : List Nat) (g : Fibre → Fibre) : (s.modFibs fs g).teams = s.teams := by
  induction fs generalizing s with
  | nil => rfl
  | cons a r ih => exact ih (s.modFib a g)
@[simp] theorem State.modFibs_flocks (fs : List Nat) (g : Fibre → Fibre) : (s.modFibs fs g).flocks = s.flocks := by
  induction fs generalizing s with
  | nil => rfl
  | cons a r ih => exact ih (s.modFib a g)
@[simp] theorem State.modFibs_folds (fs : List Nat) (g : Fibre → Fibre) : (s.modFibs fs g).folds = s.folds := by
  induction fs generalizing s with
  | nil => rfl
  | cons a r ih => exact ih (s.modFib a g)
@[simp] theorem State.modFibs_faults (fs : List Nat) (g : Fibre → Fibre) : (s.modFibs fs g).faults = s.faults := by
  induction fs generalizing s with
  | nil => rfl
  | cons a r ih => exact ih (s.modFib a g)
@[simp] theorem State.modFibs_windows (fs : List Nat) (g : Fibre → Fibre) : (s.modFibs fs g).windows = s.windows := by
  induction fs generalizing s with
  | nil => rfl
  | cons a r ih => exact ih (s.modFib a g)
@[simp] theorem State.modFibs_events (fs : List Nat) (g : Fibre → Fibre) : (s.modFibs fs g).events = s.events := by
  induction fs generalizing s with
  | nil => rfl
  | cons a r ih => exact ih (s.modFib a g)
@[simp] theorem State.modFibs_queues (fs : List Nat) (g : Fibre → Fibre) : (s.modFibs fs g).queues = s.queues := by
  induction fs generalizing s with
  | nil => rfl
  | cons a r ih => exact ih (s.modFib a g)
@[simp] theorem State.modFibs_launches (fs : List Nat) (g : Fibre → Fibre) : (s.modFibs fs g).launches = s.launches := by
  induction fs generalizing s with
  | nil => rfl
  | cons a r ih => exact ih (s.modFib a g)
@[simp] theorem State.modFibs_images (fs : List Nat) (g : Fibre → Fibre) : (s.modFibs fs g).images = s.images := by
  induction fs generalizing s with
  | nil => rfl
  | cons a r ih => exact ih (s.modFib a g)
@[simp] theorem State.modFibs_outbox (fs : List Nat) (g : Fibre → Fibre) : (s.modFibs fs g).outbox = s.outbox := by
  induction fs generalizing s with
  | nil => rfl
  | cons a r ih => exact ih (s.modFib a g)
@[simp] theorem State.modFibs_runs (fs : List Nat) (g : Fibre → Fibre) : (s.modFibs fs g).runs = s.runs := by
  induction fs generalizing s with
  | nil => rfl
  | cons a r ih => exact ih (s.modFib a g)
@[simp] theorem State.modFibs_agenda (fs : List Nat) (g : Fibre → Fibre) : (s.modFibs fs g).agenda = s.agenda := by
  induction fs generalizing s with
  | nil => rfl
  | cons a r ih => exact ih (s.modFib a g)
@[simp] theorem State.modFibs_picks (fs : List Nat) (g : Fibre → Fibre) : (s.modFibs fs g).picks = s.picks := by
  induction fs generalizing s with
  | nil => rfl
  | cons a r ih => exact ih (s.modFib a g)
@[simp] theorem State.modFibs_free (fs : List Nat) (g : Fibre → Fibre) : (s.modFibs fs g).free = s.free := by
  induction fs generalizing s with
  | nil => rfl
  | cons a r ih => exact ih (s.modFib a g)
@[simp] theorem State.modFibs_seq (fs : List Nat) (g : Fibre → Fibre) : (s.modFibs fs g).seq = s.seq := by
  induction fs generalizing s with
  | nil => rfl
  | cons a r ih => exact ih (s.modFib a g)

/-! ### The accessors after an update of another field -/

@[simp] theorem State.setFlk_fib (k : Nat) (x : Flock) (f' : Nat) : (s.setFlk k x).fib f' = s.fib f' := rfl
@[simp] theorem State.modFlk_fib (k : Nat) (g : Flock → Flock) (f' : Nat) : (s.modFlk k g).fib f' = s.fib f' := rfl
@[simp] theorem State.delFlk_fib (k : Nat) (f' : Nat) : (s.delFlk k).fib f' = s.fib f' := rfl
@[simp] theorem State.modTm_fib (t : Nat) (g : Team → Team) (f' : Nat) : (s.modTm t g).fib f' = s.fib f' := rfl
@[simp] theorem State.setCore_fib (c : Nat) (x : Core) (f' : Nat) : (s.setCore c x).fib f' = s.fib f' := rfl
@[simp] theorem State.modCore_fib (c : Nat) (g : Core → Core) (f' : Nat) : (s.modCore c g).fib f' = s.fib f' := rfl
@[simp] theorem State.setClus_fib (c : Nat) (x : Cluster) (f' : Nat) : (s.setClus c x).fib f' = s.fib f' := rfl
@[simp] theorem State.modClus_fib (c : Nat) (g : Cluster → Cluster) (f' : Nat) : (s.modClus c g).fib f' = s.fib f' := rfl
@[simp] theorem State.setCtx_fib (c : Nat) (x : Ctx) (f' : Nat) : (s.setCtx c x).fib f' = s.fib f' := rfl
@[simp] theorem State.modCtx_fib (c : Nat) (g : Ctx → Ctx) (f' : Nat) : (s.modCtx c g).fib f' = s.fib f' := rfl
@[simp] theorem State.setLine_fib (l : Nat) (x : Line) (f' : Nat) : (s.setLine l x).fib f' = s.fib f' := rfl
@[simp] theorem State.modLine_fib (l : Nat) (g : Line → Line) (f' : Nat) : (s.modLine l g).fib f' = s.fib f' := rfl
@[simp] theorem State.modDev_fib (g : Device → Device) (f' : Nat) : (s.modDev g).fib f' = s.fib f' := rfl
@[simp] theorem State.send_fib (m : OutMsg) (f' : Nat) : (s.send m).fib f' = s.fib f' := rfl
@[simp] theorem State.bump_fib (f' : Nat) : (s.bump).fib f' = s.fib f' := rfl
@[simp] theorem State.setFib_flk (f : Nat) (x : Fibre) (k' : Nat) : (s.setFib f x).flk k' = s.flk k' := rfl
@[simp] theorem State.modFib_flk (f : Nat) (g : Fibre → Fibre) (k' : Nat) : (s.modFib f g).flk k' = s.flk k' := rfl
@[simp] theorem State.delFib_flk (f : Nat) (k' : Nat) : (s.delFib f).flk k' = s.flk k' := rfl
@[simp] theorem State.modTm_flk (t : Nat) (g : Team → Team) (k' : Nat) : (s.modTm t g).flk k' = s.flk k' := rfl
@[simp] theorem State.setCore_flk (c : Nat) (x : Core) (k' : Nat) : (s.setCore c x).flk k' = s.flk k' := rfl
@[simp] theorem State.modCore_flk (c : Nat) (g : Core → Core) (k' : Nat) : (s.modCore c g).flk k' = s.flk k' := rfl
@[simp] theorem State.setClus_flk (c : Nat) (x : Cluster) (k' : Nat) : (s.setClus c x).flk k' = s.flk k' := rfl
@[simp] theorem State.modClus_flk (c : Nat) (g : Cluster → Cluster) (k' : Nat) : (s.modClus c g).flk k' = s.flk k' := rfl
@[simp] theorem State.setCtx_flk (c : Nat) (x : Ctx) (k' : Nat) : (s.setCtx c x).flk k' = s.flk k' := rfl
@[simp] theorem State.modCtx_flk (c : Nat) (g : Ctx → Ctx) (k' : Nat) : (s.modCtx c g).flk k' = s.flk k' := rfl
@[simp] theorem State.setLine_flk (l : Nat) (x : Line) (k' : Nat) : (s.setLine l x).flk k' = s.flk k' := rfl
@[simp] theorem State.modLine_flk (l : Nat) (g : Line → Line) (k' : Nat) : (s.modLine l g).flk k' = s.flk k' := rfl
@[simp] theorem State.modDev_flk (g : Device → Device) (k' : Nat) : (s.modDev g).flk k' = s.flk k' := rfl
@[simp] theorem State.send_flk (m : OutMsg) (k' : Nat) : (s.send m).flk k' = s.flk k' := rfl
@[simp] theorem State.bump_flk (k' : Nat) : (s.bump).flk k' = s.flk k' := rfl
@[simp] theorem State.modFibs_flk (fs : List Nat) (g : Fibre → Fibre) (k' : Nat) : (s.modFibs fs g).flk k' = s.flk k' := by
  simp [State.flk]
@[simp] theorem State.setFib_tm (f : Nat) (x : Fibre) (t' : Nat) : (s.setFib f x).tm t' = s.tm t' := rfl
@[simp] theorem State.modFib_tm (f : Nat) (g : Fibre → Fibre) (t' : Nat) : (s.modFib f g).tm t' = s.tm t' := rfl
@[simp] theorem State.delFib_tm (f : Nat) (t' : Nat) : (s.delFib f).tm t' = s.tm t' := rfl
@[simp] theorem State.setFlk_tm (k : Nat) (x : Flock) (t' : Nat) : (s.setFlk k x).tm t' = s.tm t' := rfl
@[simp] theorem State.modFlk_tm (k : Nat) (g : Flock → Flock) (t' : Nat) : (s.modFlk k g).tm t' = s.tm t' := rfl
@[simp] theorem State.delFlk_tm (k : Nat) (t' : Nat) : (s.delFlk k).tm t' = s.tm t' := rfl
@[simp] theorem State.setCore_tm (c : Nat) (x : Core) (t' : Nat) : (s.setCore c x).tm t' = s.tm t' := rfl
@[simp] theorem State.modCore_tm (c : Nat) (g : Core → Core) (t' : Nat) : (s.modCore c g).tm t' = s.tm t' := rfl
@[simp] theorem State.setClus_tm (c : Nat) (x : Cluster) (t' : Nat) : (s.setClus c x).tm t' = s.tm t' := rfl
@[simp] theorem State.modClus_tm (c : Nat) (g : Cluster → Cluster) (t' : Nat) : (s.modClus c g).tm t' = s.tm t' := rfl
@[simp] theorem State.setCtx_tm (c : Nat) (x : Ctx) (t' : Nat) : (s.setCtx c x).tm t' = s.tm t' := rfl
@[simp] theorem State.modCtx_tm (c : Nat) (g : Ctx → Ctx) (t' : Nat) : (s.modCtx c g).tm t' = s.tm t' := rfl
@[simp] theorem State.setLine_tm (l : Nat) (x : Line) (t' : Nat) : (s.setLine l x).tm t' = s.tm t' := rfl
@[simp] theorem State.modLine_tm (l : Nat) (g : Line → Line) (t' : Nat) : (s.modLine l g).tm t' = s.tm t' := rfl
@[simp] theorem State.modDev_tm (g : Device → Device) (t' : Nat) : (s.modDev g).tm t' = s.tm t' := rfl
@[simp] theorem State.send_tm (m : OutMsg) (t' : Nat) : (s.send m).tm t' = s.tm t' := rfl
@[simp] theorem State.bump_tm (t' : Nat) : (s.bump).tm t' = s.tm t' := rfl
@[simp] theorem State.modFibs_tm (fs : List Nat) (g : Fibre → Fibre) (t' : Nat) : (s.modFibs fs g).tm t' = s.tm t' := by
  simp [State.tm]
@[simp] theorem State.setFib_core (f : Nat) (x : Fibre) (c' : Nat) : (s.setFib f x).core c' = s.core c' := rfl
@[simp] theorem State.modFib_core (f : Nat) (g : Fibre → Fibre) (c' : Nat) : (s.modFib f g).core c' = s.core c' := rfl
@[simp] theorem State.delFib_core (f : Nat) (c' : Nat) : (s.delFib f).core c' = s.core c' := rfl
@[simp] theorem State.setFlk_core (k : Nat) (x : Flock) (c' : Nat) : (s.setFlk k x).core c' = s.core c' := rfl
@[simp] theorem State.modFlk_core (k : Nat) (g : Flock → Flock) (c' : Nat) : (s.modFlk k g).core c' = s.core c' := rfl
@[simp] theorem State.delFlk_core (k : Nat) (c' : Nat) : (s.delFlk k).core c' = s.core c' := rfl
@[simp] theorem State.modTm_core (t : Nat) (g : Team → Team) (c' : Nat) : (s.modTm t g).core c' = s.core c' := rfl
@[simp] theorem State.setClus_core (c : Nat) (x : Cluster) (c' : Nat) : (s.setClus c x).core c' = s.core c' := rfl
@[simp] theorem State.modClus_core (c : Nat) (g : Cluster → Cluster) (c' : Nat) : (s.modClus c g).core c' = s.core c' := rfl
@[simp] theorem State.setCtx_core (c : Nat) (x : Ctx) (c' : Nat) : (s.setCtx c x).core c' = s.core c' := rfl
@[simp] theorem State.modCtx_core (c : Nat) (g : Ctx → Ctx) (c' : Nat) : (s.modCtx c g).core c' = s.core c' := rfl
@[simp] theorem State.setLine_core (l : Nat) (x : Line) (c' : Nat) : (s.setLine l x).core c' = s.core c' := rfl
@[simp] theorem State.modLine_core (l : Nat) (g : Line → Line) (c' : Nat) : (s.modLine l g).core c' = s.core c' := rfl
@[simp] theorem State.modDev_core (g : Device → Device) (c' : Nat) : (s.modDev g).core c' = s.core c' := rfl
@[simp] theorem State.send_core (m : OutMsg) (c' : Nat) : (s.send m).core c' = s.core c' := rfl
@[simp] theorem State.bump_core (c' : Nat) : (s.bump).core c' = s.core c' := rfl
@[simp] theorem State.modFibs_core (fs : List Nat) (g : Fibre → Fibre) (c' : Nat) : (s.modFibs fs g).core c' = s.core c' := by
  simp [State.core]
@[simp] theorem State.setFib_clus (f : Nat) (x : Fibre) (c' : Nat) : (s.setFib f x).clus c' = s.clus c' := rfl
@[simp] theorem State.modFib_clus (f : Nat) (g : Fibre → Fibre) (c' : Nat) : (s.modFib f g).clus c' = s.clus c' := rfl
@[simp] theorem State.delFib_clus (f : Nat) (c' : Nat) : (s.delFib f).clus c' = s.clus c' := rfl
@[simp] theorem State.setFlk_clus (k : Nat) (x : Flock) (c' : Nat) : (s.setFlk k x).clus c' = s.clus c' := rfl
@[simp] theorem State.modFlk_clus (k : Nat) (g : Flock → Flock) (c' : Nat) : (s.modFlk k g).clus c' = s.clus c' := rfl
@[simp] theorem State.delFlk_clus (k : Nat) (c' : Nat) : (s.delFlk k).clus c' = s.clus c' := rfl
@[simp] theorem State.modTm_clus (t : Nat) (g : Team → Team) (c' : Nat) : (s.modTm t g).clus c' = s.clus c' := rfl
@[simp] theorem State.setCore_clus (c : Nat) (x : Core) (c' : Nat) : (s.setCore c x).clus c' = s.clus c' := rfl
@[simp] theorem State.modCore_clus (c : Nat) (g : Core → Core) (c' : Nat) : (s.modCore c g).clus c' = s.clus c' := rfl
@[simp] theorem State.setCtx_clus (c : Nat) (x : Ctx) (c' : Nat) : (s.setCtx c x).clus c' = s.clus c' := rfl
@[simp] theorem State.modCtx_clus (c : Nat) (g : Ctx → Ctx) (c' : Nat) : (s.modCtx c g).clus c' = s.clus c' := rfl
@[simp] theorem State.setLine_clus (l : Nat) (x : Line) (c' : Nat) : (s.setLine l x).clus c' = s.clus c' := rfl
@[simp] theorem State.modLine_clus (l : Nat) (g : Line → Line) (c' : Nat) : (s.modLine l g).clus c' = s.clus c' := rfl
@[simp] theorem State.modDev_clus (g : Device → Device) (c' : Nat) : (s.modDev g).clus c' = s.clus c' := rfl
@[simp] theorem State.send_clus (m : OutMsg) (c' : Nat) : (s.send m).clus c' = s.clus c' := rfl
@[simp] theorem State.bump_clus (c' : Nat) : (s.bump).clus c' = s.clus c' := rfl
@[simp] theorem State.modFibs_clus (fs : List Nat) (g : Fibre → Fibre) (c' : Nat) : (s.modFibs fs g).clus c' = s.clus c' := by
  simp [State.clus]
@[simp] theorem State.setFib_ctx (f : Nat) (x : Fibre) (c' : Nat) : (s.setFib f x).ctx c' = s.ctx c' := rfl
@[simp] theorem State.modFib_ctx (f : Nat) (g : Fibre → Fibre) (c' : Nat) : (s.modFib f g).ctx c' = s.ctx c' := rfl
@[simp] theorem State.delFib_ctx (f : Nat) (c' : Nat) : (s.delFib f).ctx c' = s.ctx c' := rfl
@[simp] theorem State.setFlk_ctx (k : Nat) (x : Flock) (c' : Nat) : (s.setFlk k x).ctx c' = s.ctx c' := rfl
@[simp] theorem State.modFlk_ctx (k : Nat) (g : Flock → Flock) (c' : Nat) : (s.modFlk k g).ctx c' = s.ctx c' := rfl
@[simp] theorem State.delFlk_ctx (k : Nat) (c' : Nat) : (s.delFlk k).ctx c' = s.ctx c' := rfl
@[simp] theorem State.modTm_ctx (t : Nat) (g : Team → Team) (c' : Nat) : (s.modTm t g).ctx c' = s.ctx c' := rfl
@[simp] theorem State.setCore_ctx (c : Nat) (x : Core) (c' : Nat) : (s.setCore c x).ctx c' = s.ctx c' := rfl
@[simp] theorem State.modCore_ctx (c : Nat) (g : Core → Core) (c' : Nat) : (s.modCore c g).ctx c' = s.ctx c' := rfl
@[simp] theorem State.setClus_ctx (c : Nat) (x : Cluster) (c' : Nat) : (s.setClus c x).ctx c' = s.ctx c' := rfl
@[simp] theorem State.modClus_ctx (c : Nat) (g : Cluster → Cluster) (c' : Nat) : (s.modClus c g).ctx c' = s.ctx c' := rfl
@[simp] theorem State.setLine_ctx (l : Nat) (x : Line) (c' : Nat) : (s.setLine l x).ctx c' = s.ctx c' := rfl
@[simp] theorem State.modLine_ctx (l : Nat) (g : Line → Line) (c' : Nat) : (s.modLine l g).ctx c' = s.ctx c' := rfl
@[simp] theorem State.modDev_ctx (g : Device → Device) (c' : Nat) : (s.modDev g).ctx c' = s.ctx c' := rfl
@[simp] theorem State.send_ctx (m : OutMsg) (c' : Nat) : (s.send m).ctx c' = s.ctx c' := rfl
@[simp] theorem State.bump_ctx (c' : Nat) : (s.bump).ctx c' = s.ctx c' := rfl
@[simp] theorem State.modFibs_ctx (fs : List Nat) (g : Fibre → Fibre) (c' : Nat) : (s.modFibs fs g).ctx c' = s.ctx c' := by
  simp [State.ctx]
@[simp] theorem State.setFib_line (f : Nat) (x : Fibre) (l' : Nat) : (s.setFib f x).line l' = s.line l' := rfl
@[simp] theorem State.modFib_line (f : Nat) (g : Fibre → Fibre) (l' : Nat) : (s.modFib f g).line l' = s.line l' := rfl
@[simp] theorem State.delFib_line (f : Nat) (l' : Nat) : (s.delFib f).line l' = s.line l' := rfl
@[simp] theorem State.setFlk_line (k : Nat) (x : Flock) (l' : Nat) : (s.setFlk k x).line l' = s.line l' := rfl
@[simp] theorem State.modFlk_line (k : Nat) (g : Flock → Flock) (l' : Nat) : (s.modFlk k g).line l' = s.line l' := rfl
@[simp] theorem State.delFlk_line (k : Nat) (l' : Nat) : (s.delFlk k).line l' = s.line l' := rfl
@[simp] theorem State.modTm_line (t : Nat) (g : Team → Team) (l' : Nat) : (s.modTm t g).line l' = s.line l' := rfl
@[simp] theorem State.setCore_line (c : Nat) (x : Core) (l' : Nat) : (s.setCore c x).line l' = s.line l' := rfl
@[simp] theorem State.modCore_line (c : Nat) (g : Core → Core) (l' : Nat) : (s.modCore c g).line l' = s.line l' := rfl
@[simp] theorem State.setClus_line (c : Nat) (x : Cluster) (l' : Nat) : (s.setClus c x).line l' = s.line l' := rfl
@[simp] theorem State.modClus_line (c : Nat) (g : Cluster → Cluster) (l' : Nat) : (s.modClus c g).line l' = s.line l' := rfl
@[simp] theorem State.setCtx_line (c : Nat) (x : Ctx) (l' : Nat) : (s.setCtx c x).line l' = s.line l' := rfl
@[simp] theorem State.modCtx_line (c : Nat) (g : Ctx → Ctx) (l' : Nat) : (s.modCtx c g).line l' = s.line l' := rfl
@[simp] theorem State.modDev_line (g : Device → Device) (l' : Nat) : (s.modDev g).line l' = s.line l' := rfl
@[simp] theorem State.send_line (m : OutMsg) (l' : Nat) : (s.send m).line l' = s.line l' := rfl
@[simp] theorem State.bump_line (l' : Nat) : (s.bump).line l' = s.line l' := rfl
@[simp] theorem State.modFibs_line (fs : List Nat) (g : Fibre → Fibre) (l' : Nat) : (s.modFibs fs g).line l' = s.line l' := by
  simp [State.line]

/-! ### The accessors after an update of their own field -/

theorem State.fib_eq (f : Nat) (x : Fibre) (h : tabGet s.fibres f = some x) : s.fib f = x := by
  simp [State.fib, tabGetD, h]

theorem State.setFib_fib (f f' : Nat) (x : Fibre) : (s.setFib f x).fib f' = if f = f' then x else s.fib f' := by
  simp only [State.fib, tabGetD, State.setFib_fibres, tabGet_tabPut]
  split <;> rfl

theorem State.modFib_fib (f f' : Nat) (g : Fibre → Fibre) :
    (s.modFib f g).fib f' = if f = f' then ((tabGet s.fibres f').map g).getD Fibre.blank else s.fib f' := by
  simp only [State.fib, tabGetD, State.modFib_fibres, tabGet_tabMod]
  split <;> rfl

@[simp] theorem State.setCore_core (c c' : Nat) (x : Core) : (s.setCore c x).core c' = if c = c' then x else s.core c' := by
  simp only [State.core, tabGetD, State.setCore_cores, tabGet_tabPut]
  split <;> rfl
@[simp] theorem State.modCore_core (c c' : Nat) (g : Core → Core) :
    (s.modCore c g).core c' = if c = c' then g (s.core c) else s.core c' := by
  rw [State.modCore, State.setCore_core]

@[simp] theorem State.setClus_clus (c c' : Nat) (x : Cluster) : (s.setClus c x).clus c' = if c = c' then x else s.clus c' := by
  simp only [State.clus, tabGetD, State.setClus_clusters, tabGet_tabPut]
  split <;> rfl
@[simp] theorem State.modClus_clus (c c' : Nat) (g : Cluster → Cluster) :
    (s.modClus c g).clus c' = if c = c' then g (s.clus c) else s.clus c' := by
  rw [State.modClus, State.setClus_clus]

@[simp] theorem State.setCtx_ctx (c c' : Nat) (x : Ctx) : (s.setCtx c x).ctx c' = if c = c' then x else s.ctx c' := by
  simp only [State.ctx, tabGetD, State.setCtx_ctxs, tabGet_tabPut]
  split <;> rfl
@[simp] theorem State.modCtx_ctx (c c' : Nat) (g : Ctx → Ctx) :
    (s.modCtx c g).ctx c' = if c = c' then g (s.ctx c) else s.ctx c' := by
  rw [State.modCtx, State.setCtx_ctx]

end Sys2Proof.Machine
end

