-- ==== Sys2Proof/Laws/Memory.lean ====
section
/-! SUPPORT. Memory: read after write, and that every operation on the bytes keeps the canonical form. -/

namespace Sys2Proof.Machine

/-! ### One byte -/

theorem byte_putByte (s : State) (k : Nat) (b : Byte) (j : Nat) :
    (s.putByte k b).byte j = if k = j then b else s.byte j :=
  tabGetD_tabPutD unlistedByte s.mem k b j

theorem putByte_wf (s : State) (k : Nat) (b : Byte) (h : Memory.wf s.mem = true) : Memory.wf (s.putByte k b).mem = true :=
  tabCanonical_tabPutD unlistedByte s.mem k b h

/-! ### Runs of bytes -/

theorem putBytes_wf (s : State) (k : Nat) (bs : List Byte) (h : Memory.wf s.mem = true) :
    Memory.wf (s.putBytes k bs).mem = true := by
  induction bs generalizing s k with
  | nil => exact h
  | cons b r ih => exact ih _ _ (putByte_wf s k b h)

theorem byte_putBytes (s : State) (k : Nat) (bs : List Byte) (j : Nat) :
    (s.putBytes k bs).byte j = if k ≤ j ∧ j < k + bs.length then bs.getD (j - k) 0 else s.byte j := by
  induction bs generalizing s k with
  | nil =>
    have : ¬ (k ≤ j ∧ j < k + ([] : List Byte).length) := by simp
    rw [if_neg this]
    rfl
  | cons b r ih =>
    simp only [State.putBytes, ih, byte_putByte, List.length_cons]
    by_cases h : k = j
    · subst h
      simp
    · by_cases h1 : k + 1 ≤ j ∧ j < k + 1 + r.length
      · rw [if_pos h1, if_pos (by omega), show j - k = (j - (k + 1)) + 1 by omega, List.getD_cons_succ]
      · rw [if_neg h1, if_neg h, if_neg (by omega)]

theorem putNum_wf (s : State) (k n v : Nat) (h : Memory.wf s.mem = true) : Memory.wf (s.putNum k n v).mem = true :=
  putBytes_wf s k _ h

theorem zero_wf (s : State) (k n : Nat) (h : Memory.wf s.mem = true) : Memory.wf (s.zero k n).mem = true :=
  tabCanonical_filter unlistedByte s.mem _ h

theorem tabGet_filter (t : Tab Byte) (p : Nat → Bool) (k : Nat) :
    tabGet (t.filter fun c => p c.1) k = if p k then tabGet t k else none := by
  induction t with
  | nil => simp [tabGet]
  | cons q r ih =>
    obtain ⟨i, w⟩ := q
    simp only [List.filter_cons]
    by_cases h : i = k
    · subst h
      cases hp : p i <;> simp [tabGet, ih, hp]
    · cases hp : p i <;> simp [tabGet, ih, h]

theorem byte_zero (s : State) (k n j : Nat) : (s.zero k n).byte j = if k ≤ j ∧ j < k + n then 0 else s.byte j := by
  have h := tabGet_filter s.mem (fun c => decide (c < k) || decide (k + n ≤ c)) j
  simp only [State.byte, State.zero, tabGetD, h]
  by_cases hj : k ≤ j ∧ j < k + n
  · rw [if_pos hj, if_neg (by simp; omega)]
    rfl
  · rw [if_neg hj, if_pos (by simp; omega)]

/-! ### The other operations of a store -/

/-- An operation that keeps the form, done for each element of a list, keeps it. -/
theorem foldl_wf {α : Type} (g : State → α → State) (hg : ∀ s x, Memory.wf s.mem = true → Memory.wf (g s x).mem = true)
    (l : List α) (s : State) (h : Memory.wf s.mem = true) : Memory.wf (l.foldl g s).mem = true := by
  induction l generalizing s with
  | nil => exact h
  | cons x r ih => exact ih _ (hg s x h)

/-- An operation that leaves memory alone, done for each element of a list, leaves it alone. -/
theorem foldl_mem {α : Type} (g : State → α → State) (hg : ∀ s x, (g s x).mem = s.mem) (l : List α) (s : State) :
    (l.foldl g s).mem = s.mem := by
  induction l generalizing s with
  | nil => rfl
  | cons x r ih => exact (ih _).trans (hg s x)

theorem putCells_wf (s : State) (cells : List (Nat × Byte × Byte)) (h : Memory.wf s.mem = true) :
    Memory.wf (s.putCells cells).mem = true :=
  foldl_wf _ (fun s c h => putByte_wf s c.1 _ h) cells s h

@[simp] theorem invalidate_mem (s : State) (line : Nat) (span : BitVec 32) (keep : Option Nat) :
    (s.invalidate line span keep).mem = s.mem := rfl
@[simp] theorem dropDirty_mem (s : State) (keys : List Nat) : (s.dropDirty keys).mem = s.mem := rfl
@[simp] theorem wakeWords_mem (s : State) (keys : List Nat) : (s.wakeWords keys).mem = s.mem := rfl
@[simp] theorem performL1_mem (s : State) (cl : Nat) (r : StoreReq) (cells : List ((Nat × Byte × Byte) × Nat)) :
    (s.performL1 cl r cells).mem = s.mem := rfl
@[simp] theorem backInvalidate_mem (s : State) (keys : List Nat) (write : Bool) :
    (s.backInvalidate keys write).mem = s.mem := by
  unfold State.backInvalidate
  split <;> rfl
@[simp] theorem markPoison_mem (s : State) (key code : Nat) : (s.markPoison key code).mem = s.mem := rfl
@[simp] theorem raiseLs_mem (s : State) (key k : Nat) : (s.raiseLs key k).mem = s.mem := by
  unfold State.raiseLs
  split <;> rfl
@[simp] theorem holdHost_mem (s : State) (die key : Nat) (wr : Bool) : (s.holdHost die key wr).mem = s.mem := by
  unfold State.holdHost
  split <;> rfl
@[simp] theorem clearPoison_mem (s : State) (cells : List (Nat × Byte × Byte)) : (s.clearPoison cells).mem = s.mem := by
  unfold State.clearPoison
  split
  · rfl
  · simp only []
    rw [foldl_mem]
    exact fun _ _ => rfl
@[simp] theorem markCode_mem (s : State) (fs : List Nat) (cells : List (Nat × Byte × Byte)) :
    (s.markCode fs cells).mem = s.mem := by
  unfold State.markCode
  simp only []
  split <;> rfl

/-- A property that each step over a list keeps. -/
theorem foldl_keeps {α : Type} (P : State → Prop) (g : State → α → State) (l : List α)
    (hg : ∀ s x, x ∈ l → P s → P (g s x)) (s : State) (h : P s) : P (l.foldl g s) := by
  induction l generalizing s with
  | nil => exact h
  | cons x r ih => exact ih (fun s y hy => hg s y (by simp [hy])) _ (hg s x (by simp) h)

/-- Cells written over equal memories leave equal memories. -/
theorem putCells_mem_congr (cells : List (Nat × Byte × Byte)) (s t : State) (h : s.mem = t.mem) :
    (s.putCells cells).mem = (t.putCells cells).mem := by
  induction cells generalizing s t with
  | nil => exact h
  | cons c r ih =>
    refine ih _ _ ?_
    simp [State.putByte, State.byte, h]

/-- What a dirty byte that goes home does to memory: it is merged in place. -/
theorem mergeHome_mem (s : State) (cl : Nat) (d : Nat × DirtyByte) :
    (s.mergeHome cl d).mem = (s.putCells [(d.1, d.2.val, d.2.mask)]).mem := by
  unfold State.mergeHome
  rw [wakeWords_mem, markCode_mem, raiseLs_mem]
  exact putCells_mem_congr _ _ _ rfl

theorem flushWords_wf (s : State) (hit : Nat → Bool) (h : Memory.wf s.mem = true) :
    Memory.wf (s.flushWords hit).mem = true := by
  unfold State.flushWords
  refine foldl_wf _ (fun s c h => foldl_wf _ (fun s d h => ?_) _ s h) _ s h
  split
  · rw [mergeHome_mem]
    exact putCells_wf _ _ h
  · exact h

/-- What a store at its home does to memory: the dirty bytes of its words go home, then its cells are merged in place. -/
theorem performSpan_mem (s : State) (cells : List (Nat × Byte × Byte)) (k : Nat) (whole : Bool) :
    (s.performSpan cells k whole).mem = ((s.flushWords fun a => cells.any fun c =>
      if whole then lineOf c.1 = lineOf a else c.1 / 8 = a / 8).putCells cells).mem := by
  unfold State.performSpan State.performQuiet
  simp only
  rw [wakeWords_mem, foldl_mem _ (fun s (c : Nat × Byte × Byte) => raiseLs_mem s c.1 k)]
  apply putCells_mem_congr
  rw [foldl_mem _ (fun s (c : Nat × Byte × Byte) => invalidate_mem s (lineOf c.1) _ none), dropDirty_mem,
    backInvalidate_mem]

theorem performSpan_wf (s : State) (cells : List (Nat × Byte × Byte)) (k : Nat) (whole : Bool)
    (h : Memory.wf s.mem = true) : Memory.wf (s.performSpan cells k whole).mem = true := by
  rw [performSpan_mem]
  exact putCells_wf _ _ (flushWords_wf _ _ h)

theorem performHome_wf (s : State) (cells : List (Nat × Byte × Byte)) (k : Nat) (h : Memory.wf s.mem = true) :
    Memory.wf (s.performHome cells k).mem = true := performSpan_wf s cells k false h

/-! ### Numbers, and cells -/

theorem length_bytesOfNat (n x : Nat) : (bytesOfNat n x).length = n := by
  induction n generalizing x with
  | zero => rfl
  | succ n ih => simp [bytesOfNat, ih]

theorem getD_bytesOfNat (n x i : Nat) (h : i < n) : ((bytesOfNat n x).getD i 0).toNat = x / 2 ^ (8 * i) % 2 ^ 8 := by
  induction n generalizing x i with
  | zero => omega
  | succ n ih =>
    cases i with
    | zero => simp [bytesOfNat]
    | succ i =>
      simp only [bytesOfNat, List.getD_cons_succ]
      rw [ih _ _ (by omega), Nat.div_div_eq_div_mul,
        show 2 ^ (8 * (i + 1)) = 256 * 2 ^ (8 * i) by rw [Nat.mul_add, Nat.pow_add]; omega]

theorem natOfBytes_bytesOfNat (n x : Nat) : natOfBytes (bytesOfNat n x) = x % 2 ^ (8 * n) := by
  induction n generalizing x with
  | zero => simp [bytesOfNat, natOfBytes, Nat.mod_one]
  | succ n ih =>
    simp only [bytesOfNat, natOfBytes, ih]
    rw [show 2 ^ (8 * (n + 1)) = 256 * 2 ^ (8 * n) by rw [Nat.mul_add, Nat.pow_add]; omega, Nat.mod_mul]
    simp

theorem natOfBytes_lt (bs : List Byte) : natOfBytes bs < 2 ^ (8 * bs.length) := by
  induction bs with
  | nil => simp [natOfBytes]
  | cons b r ih =>
    have := b.isLt
    simp only [natOfBytes, List.length_cons]
    rw [show 2 ^ (8 * (r.length + 1)) = 256 * 2 ^ (8 * r.length) by rw [Nat.mul_add, Nat.pow_add]; omega]
    omega

theorem num_lt (s : State) (k n : Nat) : s.num k n < 2 ^ (8 * n) := by
  have := natOfBytes_lt (s.bytes k n)
  simpa [State.num, State.bytes] using this

/-- The bytes read after a run of bytes was written are that run. -/
theorem bytes_putBytes (s : State) (k : Nat) (bs : List Byte) : (s.putBytes k bs).bytes k bs.length = bs := by
  apply List.ext_getElem
  · simp [State.bytes]
  · intro i h1 h2
    simp only [State.bytes, List.getElem_map, List.getElem_range, byte_putBytes]
    rw [if_pos (by omega)]
    simp [List.getD_eq_getElem?_getD, h2]

theorem num_putNum (s : State) (k n v : Nat) : (s.putNum k n v).num k n = v % 2 ^ (8 * n) := by
  have := bytes_putBytes s k (bytesOfNat n v)
  rw [length_bytesOfNat] at this
  rw [State.num, State.putNum, this, natOfBytes_bytesOfNat]

theorem bytes_congr {s t : State} (k n : Nat) (h : ∀ i < n, t.byte (k + i) = s.byte (k + i)) : t.bytes k n = s.bytes k n :=
  List.map_congr_left fun i hi => h i (List.mem_range.1 hi)

/-- A byte that no cell names stays. -/
theorem byte_putCells_other (s : State) (cells : List (Nat × Byte × Byte)) (k : Nat) (h : ∀ c ∈ cells, c.1 ≠ k) :
    (s.putCells cells).byte k = s.byte k := by
  induction cells generalizing s with
  | nil => rfl
  | cons c r ih =>
    have h1 := h c (by simp)
    have := ih (s.putByte c.1 (mergeByte (s.byte c.1) c.2.1 c.2.2)) fun x hx => h x (by simp [hx])
    rw [show s.putCells (c :: r) = (s.putByte c.1 (mergeByte (s.byte c.1) c.2.1 c.2.2)).putCells r from rfl, this,
      byte_putByte, if_neg h1]

theorem mergeByte_all (a b : Byte) : mergeByte a b 0xFF = b := by
  simp only [mergeByte, show (0xFF : Byte) = BitVec.allOnes 8 from rfl, BitVec.not_allOnes, BitVec.and_zero,
    BitVec.zero_or, BitVec.and_allOnes]

/-- The byte that a cell names is merged in place, where the cells name different bytes. -/
theorem byte_putCells_cell (s : State) (cells : List (Nat × Byte × Byte)) (k : Nat) (v m : Byte)
    (hn : (cells.map (·.1)).Nodup) (h : (k, v, m) ∈ cells) :
    (s.putCells cells).byte k = mergeByte (s.byte k) v m := by
  induction cells generalizing s with
  | nil => cases h
  | cons c r ih =>
    rw [List.map_cons, List.nodup_cons] at hn
    rw [show s.putCells (c :: r) = (s.putByte c.1 (mergeByte (s.byte c.1) c.2.1 c.2.2)).putCells r from rfl]
    rcases List.mem_cons.1 h with e | h
    · subst e
      rw [byte_putCells_other _ _ _ fun x hx e => hn.1 (List.mem_map.2 ⟨x, hx, e⟩), byte_putByte, if_pos rfl]
    · rw [ih _ hn.2 h, byte_putByte, if_neg]
      exact fun e => hn.1 (List.mem_map.2 ⟨_, h, e.symm⟩)

/-- Whole bytes written as cells from a key upwards. -/
theorem byte_putCells_run (s : State) (k : Nat) (bs : List Byte) (n j : Nat) :
    (s.putCells ((List.range n).map fun i => (k + i, bs.getD i 0, (0xFF : Byte)))).byte j =
      if k ≤ j ∧ j < k + n then bs.getD (j - k) 0 else s.byte j := by
  induction n with
  | zero => simp [State.putCells]
  | succ n ih =>
    rw [List.range_succ, List.map_append]
    have : ∀ l m, s.putCells (l ++ m) = (s.putCells l).putCells m := fun l m => List.foldl_append ..
    rw [this]
    simp only [State.putCells, List.map_cons, List.map_nil, List.foldl_cons, List.foldl_nil, byte_putByte, mergeByte_all]
    rw [show ∀ l, List.foldl (fun s (c : Nat × Byte × Byte) => s.putByte c.1 (mergeByte (s.byte c.1) c.2.1 c.2.2)) s l =
      s.putCells l from fun _ => rfl, ih]
    split
    · subst j; simp
    · split <;> split <;> first | rfl | omega

@[simp] theorem finishStore_mem (s : State) (r : StoreReq) : (s.finishStore r).mem = s.mem := by
  unfold State.finishStore
  split <;> rfl
@[simp] theorem untype_mem (s : State) (k : Nat) (t : Option TileRef) : (s.untype k t).mem = s.mem := by
  unfold State.untype
  split
  · rfl
  · dsimp only
    split <;> rfl
@[simp] theorem taint_mem (s : State) (k : Nat) : (s.taint k).mem = s.mem := rfl

theorem byte_of_mem {s t : State} (h : t.mem = s.mem) (k : Nat) : t.byte k = s.byte k := by simp [State.byte, h]

/-- A byte that no L1 holds dirty. -/
def State.clean (s : State) (j : Nat) : Prop := ∀ c ∈ s.clusters, tabGet c.2.dirty j = none

theorem flushWords_byte (s : State) (hit : Nat → Bool) (j : Nat) (hc : hit j = false ∨ s.clean j) :
    (s.flushWords hit).byte j = s.byte j := by
  unfold State.flushWords
  refine foldl_keeps (fun u => u.byte j = s.byte j) _ _ (fun u c hm h => ?_) s rfl
  refine foldl_keeps (fun u => u.byte j = s.byte j) _ _ (fun u d hd h => ?_) u h
  split
  · next hh =>
    rw [byte_of_mem (mergeHome_mem ..), byte_putCells_other, h]
    intro x hx e
    rw [List.mem_singleton.1 hx] at e
    rcases hc with hc | hc
    · rw [show d.1 = j from e, hc] at hh
      simp at hh
    · exact tabGet_ne_none c.2.dirty d.1 d.2 hd (e ▸ hc c hm)
  · exact h

theorem performSpan_byte (s : State) (cells : List (Nat × Byte × Byte)) (k : Nat) (whole : Bool) (j : Nat)
    (hc : s.clean j) (hj : ∀ c ∈ cells, c.1 ≠ j) : (s.performSpan cells k whole).byte j = s.byte j := by
  rw [byte_of_mem (performSpan_mem ..), byte_putCells_other _ _ _ hj, flushWords_byte _ _ _ (.inr hc)]

/-- A store at its home merges its cells in place. -/
theorem performSpan_cell (s : State) (cells : List (Nat × Byte × Byte)) (j : Nat) (v m : Byte) (k : Nat) (whole : Bool)
    (hc : s.clean j) (hn : (cells.map (·.1)).Nodup) (h : (j, v, m) ∈ cells) :
    (s.performSpan cells k whole).byte j = mergeByte (s.byte j) v m := by
  rw [byte_of_mem (performSpan_mem ..), byte_putCells_cell _ _ _ _ _ hn h, flushWords_byte _ _ _ (.inr hc)]

/-! ### What keeps a byte, and keeps it out of the L1s -/

/-- `t` has the byte of `s`, and no L1 of it holds the byte dirty. -/
structure KeepsByte (j : Nat) (s t : State) : Prop where
  clean : t.clean j
  byte : t.byte j = s.byte j

theorem KeepsByte.trans {j : Nat} {s t u : State} (h : KeepsByte j s t) (h' : KeepsByte j t u) : KeepsByte j s u :=
  ⟨h'.clean, h'.byte.trans h.byte⟩

theorem KeepsByte.foldl {α : Type} {j : Nat} (g : State → α → State) (l : List α)
    (hg : ∀ s x, x ∈ l → s.clean j → KeepsByte j s (g s x)) (s : State) (h : s.clean j) : KeepsByte j s (l.foldl g s) := by
  induction l generalizing s with
  | nil => exact ⟨h, rfl⟩
  | cons x r ih =>
    have h1 := hg s x (by simp) h
    exact h1.trans (ih (fun s y hy => hg s y (by simp [hy])) _ h1.clean)

/-- What leaves clusters and memory alone. -/
theorem KeepsByte.of_eq {j : Nat} {s t : State} (h : s.clean j) (hc : t.clusters = s.clusters) (hm : t.mem = s.mem) :
    KeepsByte j s t := ⟨by rw [State.clean, hc]; exact h, byte_of_mem hm j⟩

/-- A change of one cluster that dirties no new byte at `j`. -/
theorem modClus_clean {s : State} {j : Nat} (cl : Nat) (g : Cluster → Cluster)
    (hg : ∀ x : Cluster, tabGet x.dirty j = none → tabGet (g x).dirty j = none) (h : s.clean j) :
    (s.modClus cl g).clean j := by
  intro c hc
  rw [State.modClus_clusters] at hc
  rcases mem_tabPut _ _ _ _ hc with e | hc
  · rw [e]
    refine hg _ ?_
    show tabGet (tabGetD s.clusters cl Cluster.reset).dirty j = none
    rw [tabGetD]
    cases hx : tabGet s.clusters cl with
    | none => rfl
    | some x => exact h _ (mem_of_tabGet _ _ _ hx)
  · exact h c hc

theorem tabGet_foldl_tabDel (l : List Nat) (t : Tab DirtyByte) (j : Nat) (h : tabGet t j = none) :
    tabGet (l.foldl tabDel t) j = none := by
  induction l generalizing t with
  | nil => exact h
  | cons a r ih =>
    refine ih _ ?_
    by_cases e : a = j
    · subst e; exact tabGet_tabDel_self t a
    · rw [tabGet_tabDel_ne t a j e, h]

theorem invalidate_keeps {s : State} {j : Nat} (h : s.clean j) (line : Nat) (span : BitVec 32) (keep : Option Nat) :
    KeepsByte j s (s.invalidate line span keep) := by
  refine ⟨fun c hc => ?_, rfl⟩
  obtain ⟨d, hd, rfl⟩ := List.mem_map.1 hc
  dsimp only
  split <;> exact h d hd

theorem dropDirty_keeps {s : State} {j : Nat} (h : s.clean j) (keys : List Nat) : KeepsByte j s (s.dropDirty keys) := by
  refine ⟨fun c hc => ?_, rfl⟩
  obtain ⟨d, hd, rfl⟩ := List.mem_map.1 hc
  exact tabGet_foldl_tabDel _ _ _ (h d hd)

theorem putCells_keeps {s : State} {j : Nat} (h : s.clean j) (cells : List (Nat × Byte × Byte))
    (hj : ∀ c ∈ cells, c.1 ≠ j) : KeepsByte j s (s.putCells cells) := by
  refine ⟨?_, byte_putCells_other s cells j hj⟩
  have : (s.putCells cells).clusters = s.clusters :=
    foldl_keeps (fun u => u.clusters = s.clusters)
      (fun (s : State) (c : Nat × Byte × Byte) => s.putByte c.1 (mergeByte (s.byte c.1) c.2.1 c.2.2)) cells
      (fun _ _ _ h => h) s rfl
  rw [State.clean, this]
  exact h

theorem raiseLs_keeps {s : State} {j : Nat} (h : s.clean j) (key k : Nat) : KeepsByte j s (s.raiseLs key k) := by
  refine .of_eq h ?_ (raiseLs_mem ..)
  unfold State.raiseLs
  split <;> rfl

theorem markCode_keeps {s : State} {j : Nat} (h : s.clean j) (fs : List Nat) (cells : List (Nat × Byte × Byte)) :
    KeepsByte j s (s.markCode fs cells) := by
  refine .of_eq h ?_ (markCode_mem ..)
  unfold State.markCode
  dsimp only
  split <;> rfl

theorem backInvalidate_keeps {s : State} {j : Nat} (h : s.clean j) (keys : List Nat) (write : Bool) :
    KeepsByte j s (s.backInvalidate keys write) := by
  refine .of_eq h ?_ (backInvalidate_mem ..)
  unfold State.backInvalidate
  split <;> rfl

theorem holdHost_keeps {s : State} {j : Nat} (h : s.clean j) (die key : Nat) (wr : Bool) :
    KeepsByte j s (s.holdHost die key wr) := by
  refine .of_eq h ?_ (holdHost_mem ..)
  unfold State.holdHost
  split <;> rfl

theorem untype_keeps {s : State} {j : Nat} (h : s.clean j) (key : Nat) (keep : Option TileRef) :
    KeepsByte j s (s.untype key keep) := by
  refine .of_eq h ?_ (untype_mem ..)
  unfold State.untype
  split
  · rfl
  · dsimp only
    split <;> rfl

theorem wakeWords_keeps {s : State} {j : Nat} (h : s.clean j) (keys : List Nat) : KeepsByte j s (s.wakeWords keys) :=
  .of_eq h rfl rfl

/-- A dirty byte other than `j` that goes home. -/
theorem mergeHome_keeps {s : State} {j : Nat} (h : s.clean j) (cl : Nat) (d : Nat × DirtyByte) (hd : d.1 ≠ j) :
    KeepsByte j s (s.mergeHome cl d) := by
  have h1 : KeepsByte j s (s.modClus cl fun c => { c with dirty := tabDel c.dirty d.1 }) :=
    ⟨modClus_clean cl _ (fun x hx => by
      show tabGet (tabDel x.dirty d.1) j = none
      rw [tabGet_tabDel_ne _ _ _ hd, hx]) h, rfl⟩
  have h2 := h1.trans (invalidate_keeps h1.clean (lineOf d.1) (wordSpan d.1 1 false) none)
  have h3 := h2.trans (putCells_keeps h2.clean [(d.1, d.2.val, d.2.mask)] (by simpa using hd))
  have h4 := h3.trans (raiseLs_keeps h3.clean d.1 d.2.ls)
  have h5 := h4.trans (markCode_keeps h4.clean d.2.storers [(d.1, d.2.val, d.2.mask)])
  exact h5.trans (wakeWords_keeps h5.clean [d.1])

theorem flushWords_keeps {s : State} {j : Nat} (h : s.clean j) (hit : Nat → Bool) : KeepsByte j s (s.flushWords hit) := by
  unfold State.flushWords
  refine KeepsByte.foldl _ _ (fun u c hm h => ?_) s h
  refine KeepsByte.foldl _ _ (fun v d hd h' => ?_) u h
  split
  · exact mergeHome_keeps h' _ d fun e => tabGet_ne_none c.2.dirty d.1 d.2 hd (e ▸ (‹s.clean j› c hm))
  · exact ⟨h', rfl⟩

theorem performSpan_keeps {s : State} {j : Nat} (h : s.clean j) (cells : List (Nat × Byte × Byte)) (k : Nat) (whole : Bool)
    (hj : ∀ c ∈ cells, c.1 ≠ j) : KeepsByte j s (s.performSpan cells k whole) := by
  unfold State.performSpan State.performQuiet
  dsimp only
  have h1 := flushWords_keeps h fun a => cells.any fun c => if whole then lineOf c.1 = lineOf a else c.1 / 8 = a / 8
  have h2 := h1.trans (backInvalidate_keeps h1.clean (cells.map (·.1)) true)
  have h3 := h2.trans (dropDirty_keeps h2.clean ((cells.filter fun c => c.2.2 = 0xFF).map (·.1)))
  have h4 := h3.trans (KeepsByte.foldl _ cells (fun s c _ h => invalidate_keeps h (lineOf c.1) (wordSpan c.1 1 whole) none) _ h3.clean)
  have h5 := h4.trans (putCells_keeps h4.clean cells hj)
  have h6 := h5.trans (KeepsByte.foldl _ cells (fun s c _ h => raiseLs_keeps h c.1 k) _ h5.clean)
  exact h6.trans (wakeWords_keeps h6.clean _)

theorem performL1_keeps {s : State} {j : Nat} (h : s.clean j) (cl : Nat) (r : StoreReq)
    (cells : List ((Nat × Byte × Byte) × Nat)) (hj : ∀ c ∈ cells, c.1.1 ≠ j) : KeepsByte j s (s.performL1 cl r cells) := by
  refine ⟨modClus_clean cl _ (fun x hx => ?_) h, rfl⟩
  dsimp only
  generalize x.dirty = t at hx ⊢
  induction cells generalizing t with
  | nil => exact hx
  | cons c q ih =>
    refine ih (fun c hc => hj c (by simp [hc])) _ ?_
    rw [tabGet_tabPut, if_neg (hj c (by simp)), hx]

theorem storeFrame_keeps {s : State} {j : Nat} (h : s.clean j) (core : Nat) (r : StoreReq) (hj : ∀ c ∈ r.cells, c.1 ≠ j) :
    KeepsByte j s (s.storeFrame core r) := by
  unfold State.storeFrame
  dsimp only
  have h1 := performSpan_keeps h (r.cells.filter fun x => (s.ctx r.ctx).keeps x.1) r.k false
    fun c hc => hj c (List.mem_filter.1 hc).1
  refine h1.trans (KeepsByte.foldl _ _ (fun u x _ h => ?_) _ h1.clean)
  split
  · exact .of_eq h rfl rfl
  · exact ⟨h, rfl⟩

theorem clearPoison_keeps {s : State} {j : Nat} (h : s.clean j) (cells : List (Nat × Byte × Byte)) :
    KeepsByte j s (s.clearPoison cells) := by
  refine .of_eq h ?_ (clearPoison_mem ..)
  unfold State.clearPoison
  split
  · rfl
  · dsimp only
    exact foldl_keeps (fun u => u.clusters = s.clusters) (fun (s : State) (g : Nat) => s.modDev _) _
      (fun u _ _ h => h) s rfl

/-- The bytes of a store that take one path change no other byte. -/
theorem performPart_keeps {s : State} {j : Nat} (h : s.clean j) (core : Nat) (r : StoreReq) (p : StorePath)
    (hj : ∀ c ∈ r.cells, c.1 ≠ j) : KeepsByte j s (performPart s core r p) := by
  have hp : ∀ c ∈ r.cells.zipIdx.filter (fun c => r.path s core c.1.1 = p), c.1.1 ≠ j := by
    intro c hc
    have := List.mem_filter.1 hc
    exact hj c.1 (List.mem_of_getElem? (List.mem_zipIdx_iff_getElem?.1 this.1))
  have hq : ∀ c ∈ (r.cells.zipIdx.filter (fun c => r.path s core c.1.1 = p)).map (·.1), c.1 ≠ j := by
    intro c hc
    obtain ⟨d, hd, rfl⟩ := List.mem_map.1 hc
    exact hp d hd
  unfold performPart
  dsimp only
  split
  · exact ⟨h, rfl⟩
  · split
    · generalize (r.cells.zipIdx.filter fun c => r.path s core c.1.1 = .scratch).map (·.1) = cells at hq ⊢
      have h1 := putCells_keeps h cells hq
      have h2 : KeepsByte j s (if r.untype then cells.foldl (fun s c => s.untype c.1 none) (s.putCells cells)
          else s.putCells cells) := by
        split
        · exact h1.trans (KeepsByte.foldl _ cells (fun s c _ h => untype_keeps h c.1 none) _ h1.clean)
        · exact h1
      have h3 := h2.trans (KeepsByte.foldl (fun s c => s.taint c.1) cells (fun s c _ h => .of_eq h rfl rfl) _ h2.clean)
      have h4 := h3.trans (KeepsByte.foldl (fun s c => s.raiseLs c.1 r.k) cells (fun s c _ h => raiseLs_keeps h c.1 r.k) _
        h3.clean)
      exact h4.trans (wakeWords_keeps h4.clean _)
    · exact storeFrame_keeps h core _ hq
    · generalize (r.cells.zipIdx.filter fun c => r.path s core c.1.1 = .host).map (·.1) = cells at hq ⊢
      have h1 := performSpan_keeps h cells r.k false hq
      have h2 := h1.trans (KeepsByte.foldl (fun s c => s.holdHost (coreDie core) c.1 true) cells
        (fun s c _ h => holdHost_keeps h (coreDie core) c.1 true) _ h1.clean)
      exact h2.trans (markCode_keeps h2.clean _ _)
    · exact performL1_keeps h _ r _ hp
    · have h1 := performSpan_keeps h _ r.k r.line hq
      exact h1.trans (markCode_keeps h1.clean _ _)

/-- All that a store outside folds does to a byte of memory that its cells do not name and that no L1 holds dirty, when it is
performed: nothing. -/
theorem performStore_byte {s t : State} {core : Nat} {r : StoreReq} (hf : r.fold = none)
    (h : performStore s core r = some t) (j : Nat) (hc : s.clean j) (hj : ∀ c ∈ r.cells, c.1 ≠ j) : t.byte j = s.byte j := by
  unfold performStore at h
  rw [hf] at h
  dsimp only at h
  split at h
  · cases h
  · cases h
    have h1 := clearPoison_keeps hc r.cells
    have h2 := KeepsByte.foldl (fun s p => performPart s core r p) [.scratch, .frame, .host, .near, .home]
      (fun s p _ h => performPart_keeps h core r p hj) _ h1.clean
    rw [byte_of_mem (finishStore_mem ..)]
    exact (h1.trans h2).byte

end Sys2Proof.Machine
end

