-- ==== Sys2Proof/Laws/Barriers.lean ====
section
/-! SUPPORT. Barrier lines: what writing one changes (R190, R191). -/

namespace Sys2Proof.Machine

theorem num_congr {s t : State} (k n : Nat) (h : ∀ i < n, t.byte (k + i) = s.byte (k + i)) : t.num k n = s.num k n := by
  rw [State.num, State.num, bytes_congr k n h]

/-- The bytes of a barrier line (R190). -/
def barrierBytes (expect arrived phase flags status : Nat) : List Byte :=
  bytesOfNat 4 expect ++ bytesOfNat 4 arrived ++ bytesOfNat 4 phase ++ bytesOfNat 4 flags ++ bytesOfNat 8 status

/-- A barrier line written whole changes its first 24 bytes and no other. -/
theorem putBarrier_byte (s : State) (line expect arrived phase flags status k j : Nat) :
    (putBarrier s line expect arrived phase flags status k).byte j =
      if line * 128 ≤ j ∧ j < line * 128 + 24 then (barrierBytes expect arrived phase flags status).getD (j - line * 128) 0
      else s.byte j := by
  unfold putBarrier
  dsimp only
  show (State.performSpan s ((List.range 24).map fun i =>
    (line * 128 + i, (barrierBytes expect arrived phase flags status).getD i 0, (0xFF : Byte))) k false).byte j = _
  rw [byte_of_mem (performSpan_mem ..), byte_putCells_run]
  split
  · rfl
  · next hj =>
    refine flushWords_byte _ _ _ (.inl ?_)
    simp only [List.any_map, List.any_eq_false, List.mem_range, Function.comp, Bool.false_eq_true, if_false,
      decide_eq_true_eq]
    omega

/-- A number read where the bytes of another stand. -/
theorem num_getD (t : State) (k n v : Nat) (h : ∀ i < n, t.byte (k + i) = (bytesOfNat n v).getD i 0) :
    t.num k n = v % 2 ^ (8 * n) := by
  rw [← num_putNum t k n v]
  refine (num_congr k n fun i hi => ?_)
  rw [h i hi, State.putNum, byte_putBytes, length_bytesOfNat, if_pos (by omega), show k + i - k = i by omega]

/-- The fields of a barrier line that was written whole. -/
theorem putBarrier_fields (s : State) (line expect arrived phase flags status k : Nat) :
    let u := putBarrier s line expect arrived phase flags status k
    u.barField line 0 4 = expect % 2 ^ 32 ∧ u.barField line 4 4 = arrived % 2 ^ 32 ∧ u.barField line 8 4 = phase % 2 ^ 32 ∧
    u.barField line 0x10 8 = status % 2 ^ 64 := by
  refine ⟨num_getD _ _ 4 _ fun i hi => ?_, num_getD _ _ 4 _ fun i hi => ?_, num_getD _ _ 4 _ fun i hi => ?_,
    num_getD _ _ 8 _ fun i hi => ?_⟩
  all_goals rw [putBarrier_byte, if_pos (by omega)]
  · interval_cases i <;> simp [barrierBytes, bytesOfNat]
  · interval_cases i <;> simp [barrierBytes, bytesOfNat, Nat.add_assoc]
  · interval_cases i <;> simp [barrierBytes, bytesOfNat, Nat.add_assoc]
  · interval_cases i <;> simp [barrierBytes, bytesOfNat, Nat.add_assoc]

/-- Waking the fibres of a line changes no byte. -/
theorem wakeBarrier_mem (s : State) (l : Nat) : (wakeBarrier s l).mem = s.mem := rfl

theorem barField_of_mem {s t : State} (h : t.mem = s.mem) (l o n : Nat) : t.barField l o n = s.barField l o n :=
  num_congr _ _ fun _ _ => byte_of_mem h _

end Sys2Proof.Machine
end

