-- ==== Sys2Proof/Laws/Decode.lean ====
section
/-! SUPPORT. What a word packed in each format reads as, field by field, and when the decoder accepts a word. -/

namespace Sys2Proof

/-- The decoder accepts an encoder's word that it reads back. -/
theorem decodeWord_of {i : Instr} {w : Nat} (ha : assigned (opOf w) = true) (h0 : w % 32 = 0)
    (hr : readWord (opOf w) w = some i) (hl : i.fieldsListed = true) (he : encode i = some w)
    (hf : i.longLatency = true → bitOf w 16 = false → bitOf w 15 = false) : decodeWord w = .ok i := by
  have hb : bitOf w 0 = false := by
    unfold bitOf
    have : w / 2 ^ 0 % 2 = 0 := by omega
    rw [this]; rfl
  have hs : strictWord i w = w := by
    have hv : w / 2 ^ 5 * 2 ^ 5 = w := by omega
    unfold strictWord
    simp only [hv]
    split
    · rename_i h
      rw [Bool.and_eq_true, Bool.not_eq_true'] at h
      have h15 := hf h.1 h.2
      unfold bitOf at h15
      unfold bitsOf
      have : w / 2 ^ 15 % 2 = 0 := by
        rcases Nat.mod_two_eq_zero_or_one (w / 2 ^ 15) with h | h
        · exact h
        · rw [h] at h15; simp at h15
      omega
    · rfl
  unfold decodeWord
  simp [ha, hb, hr, hl, he, hs]

theorem natOfBool_lt (b : Bool) : natOfBool b < 2 := by cases b <;> decide

theorem natOfBool_beq (b : Bool) : (natOfBool b == 1) = b := by cases b <;> rfl

theorem srcOf_num (a : Src) : srcOf a.uniform a.num = a := by cases a <;> rfl

/-- A bit field of a bit field. -/
theorem bitsOf_sub {w lo len k n v : Nat} (h : bitsOf w lo len = v) (hk : k + n ≤ len) :
    bitsOf w (lo + k) n = bitsOf v k n := by
  unfold bitsOf at *
  subst h
  rw [show len = k + (len - k) by omega, pow_add, pow_add, ← Nat.div_div_eq_div_mul, Nat.mod_mul_right_div_self,
    Nat.mod_mod_of_dvd _ (pow_dvd_pow 2 (by omega))]

theorem bitOf_sub {w lo len k v : Nat} (h : bitsOf w lo len = v) (hk : k + 1 ≤ len) :
    bitOf w (lo + k) = bitOf v k := by
  have := bitsOf_sub (n := 1) h hk
  unfold bitsOf at this
  unfold bitOf
  rw [show (2 : Nat) ^ 1 = 2 from rfl] at this
  rw [this]

theorem bitOf_of {w lo : Nat} {b : Bool} (h : w / 2 ^ lo % 2 = natOfBool b) : bitOf w lo = b := by
  unfold bitOf; rw [h, natOfBool_beq]

theorem guardOf_of {w : Nat} {g : Guard} (hp : w / 2 ^ 50 % 16 = g.pg.toNat) (hn : w / 2 ^ 49 % 2 = natOfBool g.pn) :
    guardOf w = g := by
  unfold guardOf bitsOf
  rw [show (2 : Nat) ^ 4 = 16 from rfl, hp, bitOf_of hn]
  simp

theorem field_of {w lo : Nat} {v : BitVec 8} (h : bitsOf w lo 8 = v.toNat) : BitVec.ofNat 8 (bitsOf w lo 8) = v := by
  rw [h]; simp

/-- The reads of a REG word (R77). -/
structure RegReads (w op : Nat) (g : Guard) (d : Nat) (a b c : Src) (ud : Bool) (fn : Nat) : Prop where
  op : opOf w = op
  guard : guardOf w = g
  d : bitsOf w 41 8 = d
  fa : fieldA w = a.num
  fb : fieldB w = b.num
  fc : fieldC w = c.num
  a : regA w = a
  b : regB w = b
  c : regC w = c
  ud : bitOf w 13 = ud
  fn : bitsOf w 5 8 = fn
  low : w % 32 = 0
  lt : w < 2 ^ 64

theorem packReg_reads (op : Nat) (g : Guard) (d : Nat) (a b c : Src) (ud : Bool) (fn : Nat) (ho : op < 1024) (hd : d < 256)
    (hf : fn < 256) : RegReads (packReg op g d a b c ud fn) op g d a b c ud fn := by
  have h1 := g.pg.isLt
  have h2 := natOfBool_lt g.pn
  have h3 := a.num.isLt
  have h4 := b.num.isLt
  have h5 := c.num.isLt
  have h6 := natOfBool_lt a.uniform
  have h7 := natOfBool_lt b.uniform
  have h8 := natOfBool_lt c.uniform
  have h9 := natOfBool_lt ud
  generalize hw : packReg op g d a b c ud fn = w
  unfold packReg packHead at hw
  have fa : fieldA w = a.num := field_of (by unfold bitsOf; omega)
  have fb : fieldB w = b.num := field_of (by unfold bitsOf; omega)
  have fc : fieldC w = c.num := field_of (by unfold bitsOf; omega)
  refine ⟨?_, ?_, ?_, fa, fb, fc, ?_, ?_, ?_, ?_, ?_, ?_, ?_⟩
  · unfold opOf bitsOf; omega
  · exact guardOf_of (by omega) (by omega)
  · unfold bitsOf; omega
  · unfold regA; rw [fa, bitOf_of (b := a.uniform) (by omega), srcOf_num]
  · unfold regB; rw [fb, bitOf_of (b := b.uniform) (by omega), srcOf_num]
  · unfold regC; rw [fc, bitOf_of (b := c.uniform) (by omega), srcOf_num]
  · exact bitOf_of (by omega)
  · unfold bitsOf; omega
  · omega
  · omega

/-- The reads of an IMM word (R78). -/
structure ImmReads (w op : Nat) (g : Guard) (d : Nat) (a : Src) (ud : Bool) (fn imm : Nat) : Prop where
  op : opOf w = op
  guard : guardOf w = g
  d : bitsOf w 41 8 = d
  a : immA w = a
  ud : bitOf w 31 = ud
  fn : bitsOf w 25 6 = fn
  imm : bitsOf w 5 12 = imm
  low : w % 32 = 0
  lt : w < 2 ^ 64

theorem packImm_reads (op : Nat) (g : Guard) (d : Nat) (a : Src) (ud : Bool) (fn imm : Nat) (ho : op < 1024) (hd : d < 256)
    (hf : fn < 64) (hi : imm < 4096) : ImmReads (packImm op g d a ud fn imm) op g d a ud fn imm := by
  have h1 := g.pg.isLt
  have h2 := natOfBool_lt g.pn
  have h3 := a.num.isLt
  have h6 := natOfBool_lt a.uniform
  have h9 := natOfBool_lt ud
  generalize hw : packImm op g d a ud fn imm = w
  unfold packImm packHead at hw
  have fa : fieldA w = a.num := field_of (by unfold bitsOf; omega)
  refine ⟨?_, ?_, ?_, ?_, ?_, ?_, ?_, ?_, ?_⟩
  · unfold opOf bitsOf; omega
  · exact guardOf_of (by omega) (by omega)
  · unfold bitsOf; omega
  · unfold immA; rw [fa, bitOf_of (b := a.uniform) (by omega), srcOf_num]
  · exact bitOf_of (by omega)
  · unfold bitsOf; omega
  · unfold bitsOf; omega
  · omega
  · omega

/-- The reads of a UPI word (R79). -/
structure UpiReads (w op : Nat) (g : Guard) (d imm : Nat) (ud : Bool) : Prop where
  op : opOf w = op
  guard : guardOf w = g
  d : bitsOf w 41 8 = d
  imm : bitsOf w 21 20 = imm
  ud : bitOf w 16 = ud
  low : w % 32 = 0
  lt : w < 2 ^ 64

theorem packUpi_reads (op : Nat) (g : Guard) (d imm : Nat) (ud : Bool) (ho : op < 1024) (hd : d < 256)
    (hi : imm < 2 ^ 20) : UpiReads (packUpi op g d imm ud) op g d imm ud := by
  have h1 := g.pg.isLt
  have h2 := natOfBool_lt g.pn
  have h9 := natOfBool_lt ud
  generalize hw : packUpi op g d imm ud = w
  unfold packUpi packHead at hw
  refine ⟨?_, ?_, ?_, ?_, ?_, ?_, ?_⟩
  · unfold opOf bitsOf; omega
  · exact guardOf_of (by omega) (by omega)
  · unfold bitsOf; omega
  · unfold bitsOf; omega
  · exact bitOf_of (by omega)
  · omega
  · omega

theorem Space.code_lt (x : Space) : x.code < 8 := by cases x <;> decide
theorem Scope.code_lt (x : Scope) : x.code < 8 := by cases x <;> decide
theorem Ord.code_lt (x : Ord) : x.code < 4 := by cases x <;> decide
theorem Wid.code_lt (x : Wid) : x.code < 16 := by cases x <;> decide
theorem Space.ofCode_code (x : Space) : Space.ofCode x.code = some x := by cases x <;> rfl
theorem Scope.ofCode_code (x : Scope) : Scope.ofCode x.code = some x := by cases x <;> rfl
theorem Ord.ofCode_code (x : Ord) : Ord.ofCode x.code = some x := by cases x <;> rfl
theorem Wid.ofCode_code (x : Wid) : Wid.ofCode x.code = some x := by cases x <;> rfl
theorem Ft.ofBits_of (x : Ft) : Ft.ofBits x.ft x.fsel = x := by cases x <;> rfl
theorem Ft.fsel_of (x : Ft) (h : x.ft = false) : x.fsel = false := by cases x <;> first | rfl | cases h

/-- The reads of the tracking, base, space, scope and order bits (R80, R81). -/
structure AccReads (w : Nat) (ft : Ft) (base : Src) (sp : Space) (sc : Scope) (o : Ord) : Prop where
  base : memBase w = base
  ft : memFt w = ft
  sso : memSSO w = some (sp, sc, o)
  fsel : bitOf w 16 = false → bitOf w 15 = false

theorem AccReads.of {w : Nat} {ft : Ft} {base : Src} {sp : Space} {sc : Scope} {o : Ord} (h1 : w / 2 ^ 16 % 2 = natOfBool ft.ft)
    (h2 : w / 2 ^ 15 % 2 = natOfBool ft.fsel) (h3 : w / 2 ^ 14 % 2 = natOfBool base.uniform)
    (h4 : fieldA w = base.num) (h5 : bitsOf w 11 3 = sp.code) (h6 : bitsOf w 8 3 = sc.code) (h7 : bitsOf w 6 2 = o.code) :
    AccReads w ft base sp sc o where
  base := by unfold memBase; rw [h4, bitOf_of h3, srcOf_num]
  ft := by unfold memFt; rw [bitOf_of h1, bitOf_of h2, Ft.ofBits_of]
  sso := by unfold memSSO; rw [h5, h6, h7, Space.ofCode_code, Scope.ofCode_code, Ord.ofCode_code]; rfl
  fsel := by rw [bitOf_of h1, bitOf_of h2]; exact Ft.fsel_of ft

/-- The reads of a MEM word (R80). -/
structure MemReads (w op : Nat) (g : Guard) (d wid ofs : Nat) (ft : Ft) (base : Src) (sp : Space) (sc : Scope) (o : Ord)
    (line : Bool) : Prop where
  op : opOf w = op
  guard : guardOf w = g
  d : bitsOf w 41 8 = d
  wid : bitsOf w 29 4 = wid
  ofs : bitsOf w 17 12 = ofs
  acc : AccReads w ft base sp sc o
  line : bitOf w 5 = line
  low : w % 32 = 0
  lt : w < 2 ^ 64

theorem packMem_reads (op : Nat) (g : Guard) (d wid ofs : Nat) (ft : Ft) (base : Src) (sp : Space) (sc : Scope) (o : Ord)
    (line : Bool) (ho : op < 1024) (hd : d < 256) (hw : wid < 16) (hi : ofs < 4096) :
    MemReads (packMem op g d wid ofs ft base sp sc o line) op g d wid ofs ft base sp sc o line := by
  have h1 := g.pg.isLt
  have h2 := natOfBool_lt g.pn
  have h3 := base.num.isLt
  have h4 := natOfBool_lt base.uniform
  have h5 := natOfBool_lt ft.ft
  have h6 := natOfBool_lt ft.fsel
  have h7 := natOfBool_lt line
  have h8 := Space.code_lt sp
  have h9 := Scope.code_lt sc
  have h10 := Ord.code_lt o
  generalize hq : packMem op g d wid ofs ft base sp sc o line = w
  unfold packMem packHead packAcc at hq
  have fa : fieldA w = base.num := field_of (by unfold bitsOf; omega)
  refine ⟨?_, ?_, ?_, ?_, ?_, ?_, ?_, ?_, ?_⟩
  · unfold opOf bitsOf; omega
  · exact guardOf_of (by omega) (by omega)
  · unfold bitsOf; omega
  · unfold bitsOf; omega
  · unfold bitsOf; omega
  · exact AccReads.of (by omega) (by omega) (by omega) fa (by unfold bitsOf; omega) (by unfold bitsOf; omega)
      (by unfold bitsOf; omega)
  · exact bitOf_of (by omega)
  · omega
  · omega

/-- The reads of an ATM word (R81). -/
structure AtmReads (w op : Nat) (g : Guard) (m : AtmF) (c : Nat) : Prop where
  op : opOf w = op
  guard : guardOf w = g
  m : atmF w = some m
  c : bitsOf w 17 8 = c
  fsel : bitOf w 16 = false → bitOf w 15 = false
  low : w % 32 = 0
  lt : w < 2 ^ 64

theorem packAtm_reads (op : Nat) (g : Guard) (m : AtmF) (c : Nat) (ho : op < 1024) (hc : c < 256) :
    AtmReads (packAtm op g m c) op g m c := by
  have h1 := g.pg.isLt
  have h2 := natOfBool_lt g.pn
  have h3 := m.base.num.isLt
  have h4 := natOfBool_lt m.base.uniform
  have h5 := natOfBool_lt m.ft.ft
  have h6 := natOfBool_lt m.ft.fsel
  have h7 := m.d.isLt
  have h8 := Space.code_lt m.space
  have h9 := Scope.code_lt m.scope
  have h10 := Ord.code_lt m.ord
  have h11 := m.b.isLt
  generalize hq : packAtm op g m c = w
  unfold packAtm packHead packAcc at hq
  have fa : fieldA w = m.base.num := field_of (by unfold bitsOf; omega)
  have fb : fieldB w = m.b := field_of (by unfold bitsOf; omega)
  have fd : fieldD w = m.d := field_of (by unfold bitsOf; omega)
  have ac : AccReads w m.ft m.base m.space m.scope m.ord :=
    AccReads.of (by omega) (by omega) (by omega) fa (by unfold bitsOf; omega) (by unfold bitsOf; omega)
      (by unfold bitsOf; omega)
  refine ⟨?_, ?_, ?_, ?_, ac.fsel, ?_, ?_⟩
  · unfold opOf bitsOf; omega
  · exact guardOf_of (by omega) (by omega)
  · unfold atmF; rw [ac.sso, ac.base, ac.ft, fb, fd]; rfl
  · unfold bitsOf; omega
  · omega
  · omega

/-- The reads of a BRN word (R82). -/
structure BrnReads (w op : Nat) (g : Guard) (d off md : Nat) : Prop where
  op : opOf w = op
  guard : guardOf w = g
  d : bitsOf w 41 8 = d
  off : bitsOf w 17 24 = off
  md : bitsOf w 5 12 = md
  low : w % 32 = 0
  lt : w < 2 ^ 64

theorem packBrn_reads (op : Nat) (g : Guard) (d off md : Nat) (ho : op < 1024) (hd : d < 256) (hf : off < 2 ^ 24)
    (hm : md < 4096) : BrnReads (packBrn op g d off md) op g d off md := by
  have h1 := g.pg.isLt
  have h2 := natOfBool_lt g.pn
  generalize hw : packBrn op g d off md = w
  unfold packBrn packHead at hw
  refine ⟨?_, ?_, ?_, ?_, ?_, ?_, ?_⟩
  · unfold opOf bitsOf; omega
  · exact guardOf_of (by omega) (by omega)
  · unfold bitsOf; omega
  · unfold bitsOf; omega
  · unfold bitsOf; omega
  · omega
  · omega

/-- The reads of an ENG word (R83). -/
structure EngReads (w op : Nat) (g : Guard) (d : Nat) (a b c : Src) (ft : Ft) (ef : Nat) : Prop where
  op : opOf w = op
  guard : guardOf w = g
  d : bitsOf w 41 8 = d
  a : engA w = a
  b : engB w = b
  c : engC w = c
  ft : memFt w = ft
  ef : bitsOf w 5 7 = ef
  fsel : bitOf w 16 = false → bitOf w 15 = false
  low : w % 32 = 0
  lt : w < 2 ^ 64

theorem packEng_reads (op : Nat) (g : Guard) (d : Nat) (a b c : Src) (ft : Ft) (ef : Nat) (ho : op < 1024) (hd : d < 256)
    (hf : ef < 128) : EngReads (packEng op g d a b c ft ef) op g d a b c ft ef := by
  have h1 := g.pg.isLt
  have h2 := natOfBool_lt g.pn
  have h3 := a.num.isLt
  have h4 := b.num.isLt
  have h5 := c.num.isLt
  have h6 := natOfBool_lt a.uniform
  have h7 := natOfBool_lt b.uniform
  have h8 := natOfBool_lt c.uniform
  have h9 := natOfBool_lt ft.ft
  have h10 := natOfBool_lt ft.fsel
  generalize hw : packEng op g d a b c ft ef = w
  unfold packEng packHead at hw
  have fa : fieldA w = a.num := field_of (by unfold bitsOf; omega)
  have fb : fieldB w = b.num := field_of (by unfold bitsOf; omega)
  have fc : fieldC w = c.num := field_of (by unfold bitsOf; omega)
  have e1 : bitOf w 16 = ft.ft := bitOf_of (by omega)
  have e2 : bitOf w 15 = ft.fsel := bitOf_of (by omega)
  refine ⟨?_, ?_, ?_, ?_, ?_, ?_, ?_, ?_, ?_, ?_, ?_⟩
  · unfold opOf bitsOf; omega
  · exact guardOf_of (by omega) (by omega)
  · unfold bitsOf; omega
  · unfold engA; rw [fa, bitOf_of (b := a.uniform) (by omega), srcOf_num]
  · unfold engB; rw [fb, bitOf_of (b := b.uniform) (by omega), srcOf_num]
  · unfold engC; rw [fc, bitOf_of (b := c.uniform) (by omega), srcOf_num]
  · unfold memFt; rw [e1, e2, Ft.ofBits_of]
  · unfold bitsOf; omega
  · rw [e1, e2]; exact Ft.fsel_of ft
  · omega
  · omega

/-- The reads of an SPC word (R84). -/
structure SpcReads (w op : Nat) (g : Guard) (d : Nat) (a : Src) (srn : Nat) (ud : Bool) : Prop where
  op : opOf w = op
  guard : guardOf w = g
  d : bitsOf w 41 8 = d
  fa : fieldA w = a.num
  a : spcA w = a
  srn : bitsOf w 25 8 = srn
  ud : bitOf w 15 = ud
  low : w % 32 = 0
  lt : w < 2 ^ 64

theorem packSpc_reads (op : Nat) (g : Guard) (d : Nat) (a : Src) (srn : Nat) (ud : Bool) (ho : op < 1024) (hd : d < 256)
    (hs : srn < 256) : SpcReads (packSpc op g d a srn ud) op g d a srn ud := by
  have h1 := g.pg.isLt
  have h2 := natOfBool_lt g.pn
  have h3 := a.num.isLt
  have h6 := natOfBool_lt a.uniform
  have h9 := natOfBool_lt ud
  generalize hw : packSpc op g d a srn ud = w
  unfold packSpc packHead at hw
  have fa : fieldA w = a.num := field_of (by unfold bitsOf; omega)
  refine ⟨?_, ?_, ?_, fa, ?_, ?_, ?_, ?_, ?_⟩
  · unfold opOf bitsOf; omega
  · exact guardOf_of (by omega) (by omega)
  · unfold bitsOf; omega
  · unfold spcA; rw [fa, bitOf_of (b := a.uniform) (by omega), srcOf_num]
  · unfold bitsOf; omega
  · exact bitOf_of (by omega)
  · omega
  · omega

/-! ### Operand fields read back -/

theorem fieldD_of {w : Nat} {d : BitVec 8} (h : bitsOf w 41 8 = d.toNat) : fieldD w = d := field_of h

theorem ofNat_bitsOf {w lo n : Nat} {v : BitVec n} (h : bitsOf w lo n = v.toNat) : BitVec.ofNat n (bitsOf w lo n) = v := by
  rw [h]; simp

theorem pred_of {w lo : Nat} {p : BitVec 4} (h : bitsOf w lo 8 = p.toNat) : BitVec.ofNat 4 (bitsOf w lo 4) = p := by
  have hp := p.isLt
  apply BitVec.eq_of_toNat_eq
  unfold bitsOf at *
  simp only [BitVec.toNat_ofNat]
  omega

theorem bits_of_field {w lo : Nat} {v : BitVec 8} (h : BitVec.ofNat 8 (bitsOf w lo 8) = v) : bitsOf w lo 8 = v.toNat := by
  rw [← h]
  simp [bitsOf]

theorem predD_of {w : Nat} {p : BitVec 4} (h : bitsOf w 41 8 = p.toNat) : predD w = p := pred_of h
theorem predA_of {w : Nat} {p : BitVec 4} (h : fieldA w = p.setWidth 8) : predA w = p :=
  pred_of (by rw [bits_of_field h]; have := p.isLt; simp; omega)
theorem predB_of {w : Nat} {p : BitVec 4} (h : fieldB w = p.setWidth 8) : predB w = p :=
  pred_of (by rw [bits_of_field h]; have := p.isLt; simp; omega)
theorem predC_of {w : Nat} {p : BitVec 4} (h : fieldC w = p.setWidth 8) : predC w = p :=
  pred_of (by rw [bits_of_field h]; have := p.isLt; simp; omega)

/-- A field of fewer bits at the foot of an operand field. -/
theorem two_of {w lo : Nat} {n : BitVec 2} (h : bitsOf w lo 8 = n.toNat) : BitVec.ofNat 2 (bitsOf w lo 2) = n := by
  have hp := n.isLt
  apply BitVec.eq_of_toNat_eq
  unfold bitsOf at *
  simp only [BitVec.toNat_ofNat]
  omega

theorem MemReads.memF {w op : Nat} {g : Guard} {m : MemF} (h : MemReads w op g m.d.toNat m.wid.code m.ofs.toNat m.ft m.base
    m.space m.scope m.ord m.line) : Sys2Proof.memF w = some m := by
  unfold Sys2Proof.memF
  rw [h.acc.sso, h.wid, Wid.ofCode_code, fieldD_of h.d, h.acc.base, h.acc.ft, h.line]
  unfold memOfs
  rw [ofNat_bitsOf h.ofs]
  rfl

theorem MemReads.lineF {w op d wid : Nat} {g : Guard} {m : LineF} (h : MemReads w op g d wid m.ofs.toNat m.ft m.base
    m.space m.scope m.ord false) : Sys2Proof.lineF w = some m := by
  unfold Sys2Proof.lineF
  rw [h.acc.sso, h.acc.base, h.acc.ft]
  unfold memOfs
  rw [ofNat_bitsOf h.ofs]
  rfl

/-! ### Codes read back -/

theorem Sat.code_lt (x : Sat) : x.code < 256 := by cases x <;> decide
theorem Sat.ofCode_code (x : Sat) : Sat.ofCode x.code = some x := by cases x <;> rfl
theorem BWidth.code_lt (x : BWidth) : x.code < 256 := by cases x <;> decide
theorem BWidth.ofCode_code (x : BWidth) : BWidth.ofCode x.code = some x := by cases x <;> rfl
theorem Fmt.code_lt (x : Fmt) : x.code < 256 := by cases x <;> decide
theorem Fmt.ofCode_code (x : Fmt) : Fmt.ofCode x.code = some x := by cases x <;> rfl
theorem AtomOp.code_lt (x : AtomOp) : x.code < 16 := by cases x <;> decide
theorem AtomOp.ofCode_code (x : AtomOp) : AtomOp.ofCode x.code = some x := by cases x <;> rfl
theorem TSel.code_lt (x : TSel) : x.code < 8 := by cases x <;> decide
theorem TSel.ofCode_code (x : TSel) : TSel.ofCode x.code = some x := by cases x <;> rfl

/-- The fields of FN of a comparison (R137). -/
theorem fnCmp_lt (c : Cond) (u : Bool) (m : Comb) : fnCmp c u m < 256 := by cases c <;> cases u <;> cases m <;> decide
theorem fnCmp_reads (c : Cond) (u : Bool) (m : Comb) : Cond.ofCode (bitsOf (fnCmp c u m) 5 3) = some c ∧
    bitOf (fnCmp c u m) 4 = u ∧ Comb.ofCode (bitsOf (fnCmp c u m) 2 2) = some m := by
  cases c <;> cases u <;> cases m <;> decide

/-- The fields of FN of the floating-point group (R146). -/
theorem fnFloat_lt (m : FMode) (r o : Nat) (hr : r < 8) (ho : o < 4) : fnFloat m r o < 256 := by
  obtain ⟨f, x⟩ := m
  cases f <;> cases x <;> simp [fnFloat, FFmt.code, natOfBool] <;> omega
theorem fnFloat_mode (m : FMode) (r o : Nat) (hr : r < 8) (ho : o < 4) :
    FFmt.ofCode (bitsOf (fnFloat m r o) 6 2) = some m.fmt ∧ bitOf (fnFloat m r o) 5 = m.x2 ∧
      bitsOf (fnFloat m r o) 2 3 = r ∧ bitsOf (fnFloat m r o) 0 2 = o := by
  obtain ⟨f, x⟩ := m
  interval_cases r <;> interval_cases o <;> cases f <;> cases x <;> decide
theorem RmField.code_lt (x : RmField) : x.code < 8 := by cases x <;> decide
theorem RmField.ofCode_code (x : RmField) : RmField.ofCode x.code = some x := by cases x <;> rfl
theorem FCond.code_lt (x : FCond) : x.code < 8 := by cases x <;> decide
theorem FCond.ofCode_code (x : FCond) : FCond.ofCode x.code = some x := by cases x <;> rfl

end Sys2Proof
end

