-- ==== Sys2Proof/Laws/Errors.lean ====
section
/-! SUPPORT. The error log: a record changes the device's log and nothing else (R455, R470); what a reset and a loss of power
leave of a core (R465, R470). -/

namespace Sys2Proof.Machine

variable (s : State) (a i k w : Nat) (p : ErrPlace)

/-- A field of the device put to what the device gives. -/
theorem modDev_errors (g : Device → List LogEntry) :
    s.modDev (fun d => { d with errors := g d }) = s.modDev fun d => { d with errors := g s.dev } := rfl

/-- All that a record does: the device's log takes it. -/
theorem logError_only : ∃ es, s.logError a i k w = s.modDev fun d => { d with errors := es } :=
    ⟨_, by rw [State.logError, modDev_errors s (fun d => _)]⟩

@[simp] theorem logError_mem : (s.logError a i k w).mem = s.mem := by
  obtain ⟨es, h⟩ := logError_only s a i k w
  rw [h]
  rfl
@[simp] theorem logError_cores : (s.logError a i k w).cores = s.cores := by
  obtain ⟨es, h⟩ := logError_only s a i k w
  rw [h]
  rfl
@[simp] theorem logError_clusters : (s.logError a i k w).clusters = s.clusters := by
  obtain ⟨es, h⟩ := logError_only s a i k w
  rw [h]
  rfl
@[simp] theorem logError_fibres : (s.logError a i k w).fibres = s.fibres := by
  obtain ⟨es, h⟩ := logError_only s a i k w
  rw [h]
  rfl
@[simp] theorem logError_flocks : (s.logError a i k w).flocks = s.flocks := by
  obtain ⟨es, h⟩ := logError_only s a i k w
  rw [h]
  rfl
@[simp] theorem logError_contained : (s.logError a i k w).dev.contained = s.dev.contained := by
  obtain ⟨es, h⟩ := logError_only s a i k w
  rw [h]
  rfl

@[simp] theorem logPlace_mem : (logPlace s p k).mem = s.mem := logError_mem ..
@[simp] theorem logPlace_cores : (logPlace s p k).cores = s.cores := logError_cores ..
@[simp] theorem logPlace_clusters : (logPlace s p k).clusters = s.clusters := logError_clusters ..
@[simp] theorem logPlace_fibres : (logPlace s p k).fibres = s.fibres := logError_fibres ..
@[simp] theorem logPlace_flocks : (logPlace s p k).flocks = s.flocks := logError_flocks ..
@[simp] theorem logPlace_contained : (logPlace s p k).dev.contained = s.dev.contained := logError_contained ..

/-- The end of a tracked store changes fibres only. -/
@[simp] theorem finishStore_cores (r : StoreReq) : (s.finishStore r).cores = s.cores := by
  unfold State.finishStore
  split <;> rfl

/-- A core of a table whose cores have all been changed alike. -/
theorem core_map (t : Tab Core) (g : Core → Core) (hg : g Core.reset = Core.reset) (c : Nat) :
    tabGetD (t.map fun p => (p.1, g p.2)) c Core.reset = g (tabGetD t c Core.reset) := by
  rw [tabGetD, tabGetD, tabGet_map t (fun _ => g)]
  cases tabGet t c with
  | none => exact hg.symm
  | some x => rfl

end Sys2Proof.Machine
end

