-- ==== Sys2Proof/Laws/Fibre.lean ====
section
/-! SUPPORT. Laws of a fibre's registers: each field after each write, and read after write. -/

namespace Sys2Proof.Machine

variable (x : Fibre)

@[simp] theorem Fibre.setReg_team (n : Nat) (v : Word) : (x.setReg n v).team = x.team := rfl
@[simp] theorem Fibre.setPair_team (n : Nat) (v : DWord) : (x.setPair n v).team = x.team := rfl
@[simp] theorem Fibre.setReg_index (n : Nat) (v : Word) : (x.setReg n v).index = x.index := rfl
@[simp] theorem Fibre.setPair_index (n : Nat) (v : DWord) : (x.setPair n v).index = x.index := rfl
@[simp] theorem Fibre.setReg_role (n : Nat) (v : Word) : (x.setReg n v).role = x.role := rfl
@[simp] theorem Fibre.setPair_role (n : Nat) (v : DWord) : (x.setPair n v).role = x.role := rfl
@[simp] theorem Fibre.setReg_alloc (n : Nat) (v : Word) : (x.setReg n v).alloc = x.alloc := rfl
@[simp] theorem Fibre.setPair_alloc (n : Nat) (v : DWord) : (x.setPair n v).alloc = x.alloc := rfl
@[simp] theorem Fibre.setReg_core (n : Nat) (v : Word) : (x.setReg n v).core = x.core := rfl
@[simp] theorem Fibre.setPair_core (n : Nat) (v : DWord) : (x.setPair n v).core = x.core := rfl
@[simp] theorem Fibre.setReg_home (n : Nat) (v : Word) : (x.setReg n v).home = x.home := rfl
@[simp] theorem Fibre.setPair_home (n : Nat) (v : DWord) : (x.setPair n v).home = x.home := rfl
@[simp] theorem Fibre.setReg_loc (n : Nat) (v : Word) : (x.setReg n v).loc = x.loc := rfl
@[simp] theorem Fibre.setPair_loc (n : Nat) (v : DWord) : (x.setPair n v).loc = x.loc := rfl
@[simp] theorem Fibre.setReg_preds (n : Nat) (v : Word) : (x.setReg n v).preds = x.preds := rfl
@[simp] theorem Fibre.setPair_preds (n : Nat) (v : DWord) : (x.setPair n v).preds = x.preds := rfl
@[simp] theorem Fibre.setReg_cy (n : Nat) (v : Word) : (x.setReg n v).cy = x.cy := rfl
@[simp] theorem Fibre.setPair_cy (n : Nat) (v : DWord) : (x.setPair n v).cy = x.cy := rfl
@[simp] theorem Fibre.setReg_pc (n : Nat) (v : Word) : (x.setReg n v).pc = x.pc := rfl
@[simp] theorem Fibre.setPair_pc (n : Nat) (v : DWord) : (x.setPair n v).pc = x.pc := rfl
@[simp] theorem Fibre.setReg_pck (n : Nat) (v : Word) : (x.setReg n v).pck = x.pck := rfl
@[simp] theorem Fibre.setPair_pck (n : Nat) (v : DWord) : (x.setPair n v).pck = x.pck := rfl
@[simp] theorem Fibre.setReg_pending (n : Nat) (v : Word) : (x.setReg n v).pending = x.pending := rfl
@[simp] theorem Fibre.setPair_pending (n : Nat) (v : DWord) : (x.setPair n v).pending = x.pending := rfl
@[simp] theorem Fibre.setReg_busy (n : Nat) (v : Word) : (x.setReg n v).busy = x.busy := rfl
@[simp] theorem Fibre.setPair_busy (n : Nat) (v : DWord) : (x.setPair n v).busy = x.busy := rfl
@[simp] theorem Fibre.setReg_fd (n : Nat) (v : Word) : (x.setReg n v).fd = x.fd := rfl
@[simp] theorem Fibre.setPair_fd (n : Nat) (v : DWord) : (x.setPair n v).fd = x.fd := rfl
@[simp] theorem Fibre.setReg_vst (n : Nat) (v : Word) : (x.setReg n v).vst = x.vst := rfl
@[simp] theorem Fibre.setPair_vst (n : Nat) (v : DWord) : (x.setPair n v).vst = x.vst := rfl
@[simp] theorem Fibre.setReg_hch (n : Nat) (v : Word) : (x.setReg n v).hch = x.hch := rfl
@[simp] theorem Fibre.setPair_hch (n : Nat) (v : DWord) : (x.setPair n v).hch = x.hch := rfl
@[simp] theorem Fibre.setReg_top (n : Nat) (v : Word) : (x.setReg n v).top = x.top := rfl
@[simp] theorem Fibre.setPair_top (n : Nat) (v : DWord) : (x.setPair n v).top = x.top := rfl
@[simp] theorem Fibre.setReg_fpm (n : Nat) (v : Word) : (x.setReg n v).fpm = x.fpm := rfl
@[simp] theorem Fibre.setPair_fpm (n : Nat) (v : DWord) : (x.setPair n v).fpm = x.fpm := rfl
@[simp] theorem Fibre.setReg_armed (n : Nat) (v : Word) : (x.setReg n v).armed = x.armed := rfl
@[simp] theorem Fibre.setPair_armed (n : Nat) (v : DWord) : (x.setPair n v).armed = x.armed := rfl
@[simp] theorem Fibre.setReg_arrived (n : Nat) (v : Word) : (x.setReg n v).arrived = x.arrived := rfl
@[simp] theorem Fibre.setPair_arrived (n : Nat) (v : DWord) : (x.setPair n v).arrived = x.arrived := rfl
@[simp] theorem Fibre.setReg_cancel (n : Nat) (v : Word) : (x.setReg n v).cancel = x.cancel := rfl
@[simp] theorem Fibre.setPair_cancel (n : Nat) (v : DWord) : (x.setPair n v).cancel = x.cancel := rfl
@[simp] theorem Fibre.setReg_queue (n : Nat) (v : Word) : (x.setReg n v).queue = x.queue := rfl
@[simp] theorem Fibre.setPair_queue (n : Nat) (v : DWord) : (x.setPair n v).queue = x.queue := rfl
@[simp] theorem Fibre.setReg_lineStamp (n : Nat) (v : Word) : (x.setReg n v).lineStamp = x.lineStamp := rfl
@[simp] theorem Fibre.setPair_lineStamp (n : Nat) (v : DWord) : (x.setPair n v).lineStamp = x.lineStamp := rfl
@[simp] theorem Fibre.setReg_scStart (n : Nat) (v : Word) : (x.setReg n v).scStart = x.scStart := rfl
@[simp] theorem Fibre.setPair_scStart (n : Nat) (v : DWord) : (x.setPair n v).scStart = x.scStart := rfl
@[simp] theorem Fibre.setReg_slice (n : Nat) (v : Word) : (x.setReg n v).slice = x.slice := rfl
@[simp] theorem Fibre.setPair_slice (n : Nat) (v : DWord) : (x.setPair n v).slice = x.slice := rfl
@[simp] theorem Fibre.setReg_parkSegs (n : Nat) (v : Word) : (x.setReg n v).parkSegs = x.parkSegs := rfl
@[simp] theorem Fibre.setPair_parkSegs (n : Nat) (v : DWord) : (x.setPair n v).parkSegs = x.parkSegs := rfl
@[simp] theorem Fibre.setReg_ownCode (n : Nat) (v : Word) : (x.setReg n v).ownCode = x.ownCode := rfl
@[simp] theorem Fibre.setPair_ownCode (n : Nat) (v : DWord) : (x.setPair n v).ownCode = x.ownCode := rfl

@[simp] theorem Fibre.setPred_team (n : Nat) (b : Bool) : (x.setPred n b).team = x.team := by
  unfold Fibre.setPred; split <;> rfl
@[simp] theorem Fibre.setPred_index (n : Nat) (b : Bool) : (x.setPred n b).index = x.index := by
  unfold Fibre.setPred; split <;> rfl
@[simp] theorem Fibre.setPred_role (n : Nat) (b : Bool) : (x.setPred n b).role = x.role := by
  unfold Fibre.setPred; split <;> rfl
@[simp] theorem Fibre.setPred_alloc (n : Nat) (b : Bool) : (x.setPred n b).alloc = x.alloc := by
  unfold Fibre.setPred; split <;> rfl
@[simp] theorem Fibre.setPred_core (n : Nat) (b : Bool) : (x.setPred n b).core = x.core := by
  unfold Fibre.setPred; split <;> rfl
@[simp] theorem Fibre.setPred_home (n : Nat) (b : Bool) : (x.setPred n b).home = x.home := by
  unfold Fibre.setPred; split <;> rfl
@[simp] theorem Fibre.setPred_loc (n : Nat) (b : Bool) : (x.setPred n b).loc = x.loc := by
  unfold Fibre.setPred; split <;> rfl
@[simp] theorem Fibre.setPred_regs (n : Nat) (b : Bool) : (x.setPred n b).regs = x.regs := by
  unfold Fibre.setPred; split <;> rfl
@[simp] theorem Fibre.setPred_cy (n : Nat) (b : Bool) : (x.setPred n b).cy = x.cy := by
  unfold Fibre.setPred; split <;> rfl
@[simp] theorem Fibre.setPred_pc (n : Nat) (b : Bool) : (x.setPred n b).pc = x.pc := by
  unfold Fibre.setPred; split <;> rfl
@[simp] theorem Fibre.setPred_pck (n : Nat) (b : Bool) : (x.setPred n b).pck = x.pck := by
  unfold Fibre.setPred; split <;> rfl
@[simp] theorem Fibre.setPred_pending (n : Nat) (b : Bool) : (x.setPred n b).pending = x.pending := by
  unfold Fibre.setPred; split <;> rfl
@[simp] theorem Fibre.setPred_busy (n : Nat) (b : Bool) : (x.setPred n b).busy = x.busy := by
  unfold Fibre.setPred; split <;> rfl
@[simp] theorem Fibre.setPred_fd (n : Nat) (b : Bool) : (x.setPred n b).fd = x.fd := by
  unfold Fibre.setPred; split <;> rfl
@[simp] theorem Fibre.setPred_vst (n : Nat) (b : Bool) : (x.setPred n b).vst = x.vst := by
  unfold Fibre.setPred; split <;> rfl
@[simp] theorem Fibre.setPred_hch (n : Nat) (b : Bool) : (x.setPred n b).hch = x.hch := by
  unfold Fibre.setPred; split <;> rfl
@[simp] theorem Fibre.setPred_top (n : Nat) (b : Bool) : (x.setPred n b).top = x.top := by
  unfold Fibre.setPred; split <;> rfl
@[simp] theorem Fibre.setPred_fpm (n : Nat) (b : Bool) : (x.setPred n b).fpm = x.fpm := by
  unfold Fibre.setPred; split <;> rfl
@[simp] theorem Fibre.setPred_armed (n : Nat) (b : Bool) : (x.setPred n b).armed = x.armed := by
  unfold Fibre.setPred; split <;> rfl
@[simp] theorem Fibre.setPred_arrived (n : Nat) (b : Bool) : (x.setPred n b).arrived = x.arrived := by
  unfold Fibre.setPred; split <;> rfl
@[simp] theorem Fibre.setPred_cancel (n : Nat) (b : Bool) : (x.setPred n b).cancel = x.cancel := by
  unfold Fibre.setPred; split <;> rfl
@[simp] theorem Fibre.setPred_queue (n : Nat) (b : Bool) : (x.setPred n b).queue = x.queue := by
  unfold Fibre.setPred; split <;> rfl
@[simp] theorem Fibre.setPred_lineStamp (n : Nat) (b : Bool) : (x.setPred n b).lineStamp = x.lineStamp := by
  unfold Fibre.setPred; split <;> rfl
@[simp] theorem Fibre.setPred_scStart (n : Nat) (b : Bool) : (x.setPred n b).scStart = x.scStart := by
  unfold Fibre.setPred; split <;> rfl
@[simp] theorem Fibre.setPred_slice (n : Nat) (b : Bool) : (x.setPred n b).slice = x.slice := by
  unfold Fibre.setPred; split <;> rfl
@[simp] theorem Fibre.setPred_parkSegs (n : Nat) (b : Bool) : (x.setPred n b).parkSegs = x.parkSegs := by
  unfold Fibre.setPred; split <;> rfl
@[simp] theorem Fibre.setPred_ownCode (n : Nat) (b : Bool) : (x.setPred n b).ownCode = x.ownCode := by
  unfold Fibre.setPred; split <;> rfl

@[simp] theorem advanceFibre_team (r : Run) : (advanceFibre r x).team = x.team := by
  unfold advanceFibre; split <;> rfl
@[simp] theorem toNextHeader_team (r : Run) : (toNextHeader r x).team = x.team := rfl
@[simp] theorem advanceFibre_index (r : Run) : (advanceFibre r x).index = x.index := by
  unfold advanceFibre; split <;> rfl
@[simp] theorem toNextHeader_index (r : Run) : (toNextHeader r x).index = x.index := rfl
@[simp] theorem advanceFibre_role (r : Run) : (advanceFibre r x).role = x.role := by
  unfold advanceFibre; split <;> rfl
@[simp] theorem toNextHeader_role (r : Run) : (toNextHeader r x).role = x.role := rfl
@[simp] theorem advanceFibre_alloc (r : Run) : (advanceFibre r x).alloc = x.alloc := by
  unfold advanceFibre; split <;> rfl
@[simp] theorem toNextHeader_alloc (r : Run) : (toNextHeader r x).alloc = x.alloc := rfl
@[simp] theorem advanceFibre_core (r : Run) : (advanceFibre r x).core = x.core := by
  unfold advanceFibre; split <;> rfl
@[simp] theorem toNextHeader_core (r : Run) : (toNextHeader r x).core = x.core := rfl
@[simp] theorem advanceFibre_home (r : Run) : (advanceFibre r x).home = x.home := by
  unfold advanceFibre; split <;> rfl
@[simp] theorem toNextHeader_home (r : Run) : (toNextHeader r x).home = x.home := rfl
@[simp] theorem advanceFibre_loc (r : Run) : (advanceFibre r x).loc = x.loc := by
  unfold advanceFibre; split <;> rfl
@[simp] theorem toNextHeader_loc (r : Run) : (toNextHeader r x).loc = x.loc := rfl
@[simp] theorem advanceFibre_regs (r : Run) : (advanceFibre r x).regs = x.regs := by
  unfold advanceFibre; split <;> rfl
@[simp] theorem toNextHeader_regs (r : Run) : (toNextHeader r x).regs = x.regs := rfl
@[simp] theorem advanceFibre_preds (r : Run) : (advanceFibre r x).preds = x.preds := by
  unfold advanceFibre; split <;> rfl
@[simp] theorem toNextHeader_preds (r : Run) : (toNextHeader r x).preds = x.preds := rfl
@[simp] theorem advanceFibre_cy (r : Run) : (advanceFibre r x).cy = x.cy := by
  unfold advanceFibre; split <;> rfl
@[simp] theorem toNextHeader_cy (r : Run) : (toNextHeader r x).cy = x.cy := rfl
@[simp] theorem advanceFibre_pending (r : Run) : (advanceFibre r x).pending = x.pending := by
  unfold advanceFibre; split <;> rfl
@[simp] theorem toNextHeader_pending (r : Run) : (toNextHeader r x).pending = x.pending := rfl
@[simp] theorem advanceFibre_busy (r : Run) : (advanceFibre r x).busy = x.busy := by
  unfold advanceFibre; split <;> rfl
@[simp] theorem toNextHeader_busy (r : Run) : (toNextHeader r x).busy = x.busy := rfl
@[simp] theorem advanceFibre_fd (r : Run) : (advanceFibre r x).fd = x.fd := by
  unfold advanceFibre; split <;> rfl
@[simp] theorem toNextHeader_fd (r : Run) : (toNextHeader r x).fd = x.fd := rfl
@[simp] theorem advanceFibre_vst (r : Run) : (advanceFibre r x).vst = x.vst := by
  unfold advanceFibre; split <;> rfl
@[simp] theorem toNextHeader_vst (r : Run) : (toNextHeader r x).vst = x.vst := rfl
@[simp] theorem advanceFibre_hch (r : Run) : (advanceFibre r x).hch = x.hch := by
  unfold advanceFibre; split <;> rfl
@[simp] theorem toNextHeader_hch (r : Run) : (toNextHeader r x).hch = x.hch := rfl
@[simp] theorem advanceFibre_top (r : Run) : (advanceFibre r x).top = x.top := by
  unfold advanceFibre; split <;> rfl
@[simp] theorem toNextHeader_top (r : Run) : (toNextHeader r x).top = x.top := rfl
@[simp] theorem advanceFibre_fpm (r : Run) : (advanceFibre r x).fpm = x.fpm := by
  unfold advanceFibre; split <;> rfl
@[simp] theorem toNextHeader_fpm (r : Run) : (toNextHeader r x).fpm = x.fpm := rfl
@[simp] theorem advanceFibre_armed (r : Run) : (advanceFibre r x).armed = x.armed := by
  unfold advanceFibre; split <;> rfl
@[simp] theorem toNextHeader_armed (r : Run) : (toNextHeader r x).armed = x.armed := rfl
@[simp] theorem advanceFibre_arrived (r : Run) : (advanceFibre r x).arrived = x.arrived := by
  unfold advanceFibre; split <;> rfl
@[simp] theorem toNextHeader_arrived (r : Run) : (toNextHeader r x).arrived = x.arrived := rfl
@[simp] theorem advanceFibre_cancel (r : Run) : (advanceFibre r x).cancel = x.cancel := by
  unfold advanceFibre; split <;> rfl
@[simp] theorem toNextHeader_cancel (r : Run) : (toNextHeader r x).cancel = x.cancel := rfl
@[simp] theorem advanceFibre_queue (r : Run) : (advanceFibre r x).queue = x.queue := by
  unfold advanceFibre; split <;> rfl
@[simp] theorem toNextHeader_queue (r : Run) : (toNextHeader r x).queue = x.queue := rfl
@[simp] theorem advanceFibre_lineStamp (r : Run) : (advanceFibre r x).lineStamp = x.lineStamp := by
  unfold advanceFibre; split <;> rfl
@[simp] theorem toNextHeader_lineStamp (r : Run) : (toNextHeader r x).lineStamp = x.lineStamp := rfl
@[simp] theorem advanceFibre_scStart (r : Run) : (advanceFibre r x).scStart = x.scStart := by
  unfold advanceFibre; split <;> rfl
@[simp] theorem toNextHeader_scStart (r : Run) : (toNextHeader r x).scStart = x.scStart := rfl
@[simp] theorem advanceFibre_slice (r : Run) : (advanceFibre r x).slice = x.slice := by
  unfold advanceFibre; split <;> rfl
@[simp] theorem toNextHeader_slice (r : Run) : (toNextHeader r x).slice = x.slice := rfl
@[simp] theorem advanceFibre_parkSegs (r : Run) : (advanceFibre r x).parkSegs = x.parkSegs := by
  unfold advanceFibre; split <;> rfl
@[simp] theorem toNextHeader_parkSegs (r : Run) : (toNextHeader r x).parkSegs = x.parkSegs := rfl
@[simp] theorem advanceFibre_ownCode (r : Run) : (advanceFibre r x).ownCode = x.ownCode := by
  unfold advanceFibre; split <;> rfl
@[simp] theorem toNextHeader_ownCode (r : Run) : (toNextHeader r x).ownCode = x.ownCode := rfl

@[simp] theorem Fibre.setReg_regs (n : Nat) (v : Word) : (x.setReg n v).regs = x.regs.set n v := rfl
@[simp] theorem Fibre.setReg_length (n : Nat) (v : Word) : (x.setReg n v).regs.length = x.regs.length := by simp
@[simp] theorem Fibre.setPair_length (n : Nat) (v : DWord) : (x.setPair n v).regs.length = x.regs.length := by
  simp [Fibre.setPair]

theorem Fibre.setReg_reg (n m : Nat) (v : Word) (h : n < x.regs.length) :
    (x.setReg n v).reg m = if n = m then v else x.reg m := by
  simp only [Fibre.reg, Fibre.setReg_regs, List.getD_eq_getElem?_getD, List.getElem?_set]
  split
  · subst_vars; simp
  · rfl

theorem Fibre.setPair_reg (n m : Nat) (v : DWord) (h : n + 1 < x.regs.length) :
    (x.setPair n v).reg m = if n = m then lowWord v else if n + 1 = m then highWord v else x.reg m := by
  rw [Fibre.setPair, Fibre.setReg_reg _ _ _ _ (by simpa using h), Fibre.setReg_reg _ _ _ _ (by omega)]
  split
  · split
    · omega
    · rfl
  · rfl

theorem Fibre.setReg_pred (n : Nat) (v : Word) (p : Nat) : (x.setReg n v).pred p = x.pred p := rfl

/-- P0 discards a write, every other predicate takes it. -/
theorem Fibre.setPred_pred (n m : Nat) (b : Bool) (h : n < 16) :
    (x.setPred n b).pred m = if n = m ∧ n ≠ 0 then b else x.pred m := by
  unfold Fibre.setPred Fibre.pred
  split
  · simp_all
  · next hn =>
    by_cases hm : n = m
    · subst hm
      cases b <;> simp [hn, h]
    · cases b
      · by_cases h16 : m < 16
        · have : ¬ (m - n = 0 ∧ n ≤ m) := by omega
          simp [hm, h16]
          intro hx
          omega
        · simp [hm, BitVec.getLsbD_of_ge _ _ (by omega : 16 ≤ m)]
      · by_cases h16 : m < 16
        · simp [hm, h16]
          intro hnm hz
          omega
        · simp [hm, BitVec.getLsbD_of_ge _ _ (by omega : 16 ≤ m)]

end Sys2Proof.Machine
end

