-- ==== Sys2Proof/Laws/Mask.lean ====
section
/-! SUPPORT. Laws of lane masks. -/

namespace Sys2Proof

theorem Mask.mem_lanes (m : Mask) (l : Nat) : l ∈ m.lanes ↔ l < 8 ∧ m.getLsbD l = true := by
  simp [Mask.lanes]

theorem Mask.lanes_nodup (m : Mask) : m.lanes.Nodup := List.Nodup.filter _ List.nodup_range

theorem Mask.one_getLsbD (l k : Nat) : (Mask.one l).getLsbD k = (decide (l = k) && decide (k < 8)) := by
  unfold Mask.one
  by_cases h : k < 8
  · rw [BitVec.getLsbD_shiftLeft]
    by_cases hk : k < l
    · simp [hk]; omega
    · by_cases he : l = k
      · subst he; simp [h]
      · have : k - l ≠ 0 := by omega
        simp [h, hk, he, this, BitVec.getLsbD_one]
  · simp [h]

theorem Mask.getLsbD_foldl (ls : List Nat) (m : Mask) (k : Nat) (hk : k < 8) :
    (ls.foldl (fun m l => m ||| Mask.one l) m).getLsbD k = (m.getLsbD k || decide (k ∈ ls)) := by
  induction ls generalizing m with
  | nil => simp
  | cons a r ih =>
    rw [List.foldl_cons, ih, BitVec.getLsbD_or, Mask.one_getLsbD]
    by_cases h : a = k
    · subst h; simp [hk]
    · have : k ≠ a := fun e => h e.symm
      simp [h, this]

/-- The mask of a list has exactly the list's lanes. -/
theorem Mask.getLsbD_ofLanes (ls : List Nat) (k : Nat) (hk : k < 8) :
    (Mask.ofLanes ls).getLsbD k = decide (k ∈ ls) := by
  rw [Mask.ofLanes, Mask.getLsbD_foldl ls _ k hk]; simp

theorem Mask.mem_lanes_ofLanes (ls : List Nat) (k : Nat) : k ∈ (Mask.ofLanes ls).lanes ↔ k < 8 ∧ k ∈ ls := by
  rw [Mask.mem_lanes]
  constructor
  · rintro ⟨h, h2⟩; rw [Mask.getLsbD_ofLanes ls k h] at h2; exact ⟨h, by simpa using h2⟩
  · rintro ⟨h, h2⟩; rw [Mask.getLsbD_ofLanes ls k h]; exact ⟨h, by simpa using h2⟩

/-- The lanes of one mask that are not in another. -/
theorem Mask.mem_lanes_diff (m n : Mask) (k : Nat) : k ∈ (m &&& ~~~n).lanes ↔ k ∈ m.lanes ∧ k ∉ n.lanes := by
  simp only [Mask.mem_lanes, BitVec.getLsbD_and, BitVec.getLsbD_not, Bool.and_eq_true, decide_eq_true_eq,
    Bool.not_eq_true', not_and, Bool.not_eq_true]
  constructor
  · rintro ⟨h, a, -, b⟩; exact ⟨⟨h, a⟩, fun _ => b⟩
  · rintro ⟨⟨h, a⟩, b⟩; exact ⟨h, a, h, b h⟩

end Sys2Proof
end

