-- ==== Sys2Proof/Laws/Still.lean ====
section
/-! SUPPORT. What leaves a machine as it was but for its PCs, its runs and what a fetch fills. -/

namespace Sys2Proof.Machine

variable {s t u : State}

theorem Still.refl (s : State) : Still s s := ⟨rfl, fun _ => rfl, fun _ => rfl, fun _ => rfl, fun _ => rfl⟩

theorem Still.trans (h : Still s t) (h' : Still t u) : Still s u where
  rest := h'.rest.trans h.rest
  fibre f := (h'.fibre f).trans (h.fibre f)
  flock k := (h'.flock k).trans (h.flock k)
  core c := (h'.core c).trans (h.core c)
  cluster c := (h'.cluster c).trans (h.cluster c)

/-- A change of fibres that each keeps. -/
theorem Still.modFib (s : State) (f : Nat) (g : Fibre → Fibre) (hg : ∀ x, (g x).still = x.still) :
    Still s (s.modFib f g) where
  rest := rfl
  fibre h := by
    simp only [State.modFib_fibres, tabGet_tabMod]
    split
    · cases tabGet s.fibres h <;> simp [hg]
    · rfl
  flock _ := rfl
  core _ := rfl
  cluster _ := rfl

theorem Still.modFibs (s : State) (fs : List Nat) (g : Fibre → Fibre) (hg : ∀ x, (g x).still = x.still) :
    Still s (s.modFibs fs g) := by
  induction fs generalizing s with
  | nil => exact Still.refl s
  | cons f r ih => exact (Still.modFib s f g hg).trans (ih _)

theorem Still.modFlk (s : State) (k : Nat) (g : Flock → Flock) (hg : ∀ x, tabGet s.flocks k = some x →
    (g x).still = x.still) : Still s (s.modFlk k g) where
  rest := rfl
  fibre _ := rfl
  flock j := by
    simp only [State.modFlk_flocks, tabGet_tabMod]
    split
    · next h =>
      subst h
      cases hx : tabGet s.flocks k with
      | none => rfl
      | some x => simp [hg x hx]
    · rfl
  core _ := rfl
  cluster _ := rfl

theorem Still.modCore (s : State) (c : Nat) (g : Core → Core) (hg : (g (s.core c)).still = (s.core c).still) :
    Still s (s.modCore c g) where
  rest := rfl
  fibre _ := rfl
  flock _ := rfl
  core d := by
    rw [State.modCore_core]
    split
    · next h => rw [hg, h]
    · rfl
  cluster _ := rfl

theorem Still.modClus (s : State) (c : Nat) (g : Cluster → Cluster) (hg : (g (s.clus c)).still = (s.clus c).still) :
    Still s (s.modClus c g) where
  rest := rfl
  fibre _ := rfl
  flock _ := rfl
  core _ := rfl
  cluster d := by
    rw [State.modClus_clus]
    split
    · next h => rw [hg, h]
    · rfl

/-- A change of the runs and of the counter alone. -/
theorem Still.ofRuns (s : State) (rs : List Run) (n : Nat) : Still s { s with runs := rs, seq := n } :=
  ⟨rfl, fun _ => rfl, fun _ => rfl, fun _ => rfl, fun _ => rfl⟩

@[simp] theorem advanceFibre_still (r : Run) (x : Fibre) : (advanceFibre r x).still = x.still := by
  unfold advanceFibre; split <;> rfl
@[simp] theorem toNextHeader_still (r : Run) (x : Fibre) : (toNextHeader r x).still = x.still := rfl

theorem advanceLanes_still (s : State) (r : Run) (m : Mask) : Still s (advanceLanes s r m) :=
  Still.modFibs s _ _ (advanceFibre_still r)

theorem endRun_still (s : State) : Still s (endRun s) := by
  unfold endRun
  split
  · exact Still.refl s
  · next r rest _ =>
    have h := Still.modFlk s r.flock
      (fun k => { k with lastRun := s.seq, since := if k.holdoff then none else some s.seq }) (fun _ _ => rfl)
    exact ⟨h.rest, h.fibre, h.flock, h.core, h.cluster⟩

/-! ### Fetching -/

theorem fillTlb_still (s : State) (c : Nat) (e : TlbEntry) : Still s (s.fillTlb c e) :=
  (Still.modCore s c (fun x => { x with tlb := tlbFill 128 x.tlb e }) rfl).trans (Still.modClus _ _ _ rfl)

theorem fillCode_still (s : State) (c : Nat) (ls : List Nat) : Still s (fillCode s c ls) := by
  unfold fillCode
  simp only
  split
  · exact Still.refl s
  · have h := Still.modCore s c (fun x => { x with
        code := ls.foldl (fun t l => tabPut t l (s.seq, s.bytes (l * 128) 128)) x.code }) rfl
    exact ⟨h.rest, h.fibre, h.flock, h.core, h.cluster⟩

theorem readClause_still {f key : Nat} {rest : Nat → Option (List Nat)} (n : Nat) (s : State) :
    Still s (readClause s f key rest n).1 := by
  induction n generalizing s with
  | zero => exact Still.refl s
  | succ n ih =>
    unfold readClause
    simp only
    repeat' split
    all_goals first
      | exact Still.refl s
      | exact fillCode_still s _ _
      | exact (fillCode_still s _ _).trans (ih _)

/-- A bind that succeeds has two parts that succeed. -/
theorem Res.bind_eq_ok {α β : Type} {r : Res α} {f : α → Res β} {b : β} (h : r.bind f = .ok b) :
    ∃ a, r = .ok a ∧ f a = .ok b := by
  cases r with
  | ok a => exact ⟨a, rfl, h⟩
  | bad e => cases h
  | wait => cases h
  | sys c w => cases h

/-- A fold that succeeds keeps what each of its steps keeps. -/
theorem Res.foldM_keeps {α σ : Type} (P : σ → Prop) (f : σ → α → Res σ) (l : List α) (s t : σ) (hs : P s)
    (hf : ∀ a ∈ l, ∀ s t, P s → f s a = .ok t → P t) (h : Res.foldM f s l = .ok t) : P t := by
  induction l generalizing s with
  | nil => cases h; exact hs
  | cons a r ih =>
    obtain ⟨m, hm, h⟩ := Res.bind_eq_ok h
    exact ih m (hf a (by simp) s m hs hm) (fun b hb => hf b (by simp [hb])) h

theorem translateAny_still {f : Nat} {va : DWord} {acc : Acc} {up : Bool} {p : Place}
    (h : translateAny s f va acc up = .ok (p, t)) : Still s t := by
  obtain ⟨g, -, h⟩ := Res.bind_eq_ok h
  simp only at h
  repeat' split at h
  all_goals first
    | (cases h; done)
    | (cases h; exact Still.refl s)
    | (cases h; exact fillTlb_still s _ _)

theorem translate_still {f : Nat} {va : DWord} {acc : Acc} {up : Bool} {p : Place}
    (h : translate s f va acc up = .ok (p, t)) : Still s t := by
  obtain ⟨⟨q, u⟩, h1, h⟩ := Res.bind_eq_ok h
  simp only at h
  split at h
  · cases h
  · split at h
    · cases h
    · cases h; exact translateAny_still h1

theorem Res.onBad_ok {α : Type} {g : Eff → Eff} {r : Res α} {a : α} (h : r.onBad g = .ok a) : r = .ok a := by
  cases r with
  | ok b => exact h
  | bad e => cases h
  | wait => cases h
  | sys c w => cases h

theorem translatePieces_still {f : Nat} {acc : Acc} {ps : List (Nat × Nat)} {qs : List Piece}
    (h : translatePieces s f acc ps = .ok (qs, t)) : Still s t := by
  unfold translatePieces at h
  simp only at h
  split at h
  · cases h
  · refine Res.foldM_keeps (fun q => Still s q.2) _ _ _ _ (Still.refl s) ?_ (Res.onBad_ok h)
    rintro i - ⟨l, a⟩ ⟨m, b⟩ ha hb
    obtain ⟨⟨p, c⟩, h1, h2⟩ := Res.bind_eq_ok hb
    cases h2
    exact ha.trans (translate_still h1)

theorem checkAccess_still {f : Nat} {va : DWord} {n al : Nat} {acc : Acc} {qs : List Piece}
    (h : checkAccess s f va n al acc = .ok (qs, t)) : Still s t := by
  unfold checkAccess at h
  split at h
  · cases h
  · exact translatePieces_still h

theorem foldl_still {α : Type} (f : State → α → State) (hf : ∀ s a, Still s (f s a)) (l : List α) (s : State) :
    Still s (l.foldl f s) := by
  induction l generalizing s with
  | nil => exact Still.refl s
  | cons a r ih => exact (hf s a).trans (ih _)

theorem fillTlbs_still (s : State) (c : Nat) (es : List TlbEntry) : Still s (s.fillTlbs c es) :=
  foldl_still _ (fun s e => fillTlb_still s c e) es s

theorem fetchClause_still {f : Nat} {a : DWord} {tr : Bool} {hd : Header} {ws : List Nat}
    (h : fetchClause s f a tr = .ok hd ws t) : Still s t := by
  unfold fetchClause at h
  split at h
  · cases h
  · cases h
  · cases h
  · next p s1 h1 =>
    simp only at h
    split at h
    · cases h
    · split at h
      · cases h
      · next s2 hd2 ws2 hr =>
        have h2 := fun rest => readClause_still (f := f) (key := p.key) (rest := rest) 4
          (fillCode s1 (s1.fib f).core [lineOf p.key])
        repeat' split at h
        all_goals first
          | (cases h; done)
          | (cases h
             rw [← show _ = s2 from congrArg Prod.fst hr]
             exact (translate_still h1).trans (((fillCode_still s1 _ _).trans (h2 _)).trans (fillTlbs_still _ _ _)))

/-! ### The end of an issue -/

theorem continueRun_still (s : State) (r : Run) (ends : Bool) : Still s (continueRun s r ends) := by
  unfold continueRun
  split
  · exact endRun_still s
  · simp only
    split
    · exact endRun_still s
    · split
      · exact endRun_still s
      · exact endRun_still s
      · exact endRun_still s
      · next hf =>
        have h1 := fetchClause_still hf
        split
        · exact endRun_still s
        · split
          · exact endRun_still s
          · split
            · exact endRun_still s
            · split
              · exact h1
              · have h := fun fs (m : Flock → Nat → Bool) => (h1.trans (Still.modFlk _ r.flock
                  (fun k => { k with lag := k.lag.filter fun l => !m k l }) (fun _ _ => rfl))).trans
                  (Still.modFibs _ fs (fun x => { x with pc := r.nextHeader + 8, pck := .within }) (fun _ => rfl))
                exact ⟨(h _ _).rest, (h _ _).fibre, (h _ _).flock, (h _ _).core, (h _ _).cluster⟩

@[simp] theorem byLane_nil : byLane [] = [] := by simp [byLane]

/-- An issue in which no lane raises, enters a handler or resumes leaves what its lanes left. -/
theorem settle_still (s0 s : State) (r : Run) (ends : Bool) :
    Still s (settle s0 r ends ⟨s, [], [], 0, 0, 0, false⟩) := by
  have h0 : Still s (if r.lanes &&& ~~~(Mask.ofLanes []) = 0 then s
      else s.modFlk r.flock fun k => { k with watch := 0 }) := by
    split
    · exact Still.refl s
    · exact Still.modFlk s _ _ (fun _ _ => rfl)
  have h1 : ∀ u : State, Still u (settleMasks u r.flock 0 0) := by
    intro u
    refine Still.modFlk u _ _ (fun x _ => ?_)
    have e : x.efm &&& ~~~(0 : Mask) = x.efm := by
      rw [show ~~~(0 : Mask) = BitVec.allOnes 8 by decide, BitVec.and_allOnes]
    have z : (0 : Mask) &&& x.active = 0 := by simp
    have o : x.efm ||| (0 : Mask) = x.efm := by simp
    simp only [z, if_true]
    split
    · next h =>
      rw [e]
      simp only [h, ne_eq, not_true_eq_false, decide_false, Bool.false_and, Bool.false_eq_true, if_false, Flock.thaw]
      rw [← h]
    · next h => simp only [o, e, h, decide_false, Bool.and_false, Bool.false_eq_true, if_false, Flock.thaw]
  have h2 := h0.trans (h1 _)
  simp only [settle, byLane_nil, takeEffects, Bool.false_eq_true, if_false, List.map_nil, ne_eq, not_true_eq_false,
    decide_false, Bool.false_and, Bool.or_self, List.filter_nil, List.append_nil]
  generalize hq : settleMasks _ _ _ _ = q at h2 ⊢
  repeat' split
  all_goals first
    | exact h2
    | exact h2.trans (endRun_still _)
    | exact ⟨h2.rest, h2.fibre, h2.flock, h2.core, h2.cluster⟩
    | exact h2.trans (continueRun_still _ _ _)

/-- R285 and R286 do not touch the mark of the watchdog. -/
theorem settleMasks_watch (s : State) (k : Nat) (ent clr : Mask) :
    settleMasks (s.modFlk k fun x => { x with watch := 0 }) k ent clr
      = (settleMasks s k ent clr).modFlk k fun x => { x with watch := 0 } := by
  simp only [settleMasks, State.modFlk, tabMod_tabMod]
  congr 1
  congr 1
  funext x
  have ha : ({ x with watch := 0 } : Flock).active = x.active := rfl
  simp only [Function.comp, ha]
  by_cases h : x.efm = 0
  · by_cases h' : ent &&& x.active = 0 <;> simp only [h, h', if_true, if_false, Flock.thaw] <;> split <;> rfl
  · simp only [h, if_false, Flock.thaw]
    split <;> rfl

/-- An issue in which no lane raises, enters a handler or resumes, of a word that is not the last of its clause, leaves the run
at the next word and the fibres as its lanes left them. -/
theorem settle_onward (s0 s : State) (r q : Run) (rest : List Run) (ends : Bool) (clr : Mask) (hr : s.runs = q :: rest)
    (hc : q.core = r.core) (hk : q.flock = r.flock) (hi : r.idx < r.hdr.count) :
    (settle s0 r ends ⟨s, [], [], 0, clr, 0, false⟩).runs = r.onward :: rest := by
  have h : ∀ m : Mask, (settleMasks (if m = 0 then s
      else s.modFlk r.flock fun k => { k with watch := 0 }) r.flock 0 clr).runs = q :: rest := by
    intro m
    split <;> exact hr
  have he : (List.range 8).flatMap (fun _ : Nat => ([] : List (Nat × Nat × Nat × DWord))) = [] := by simp
  have hn : ∀ (s : State) (k : Nat) (m : Mask), stopLanes s k m [] = s := fun _ _ _ => rfl
  simp only [settle, byLane_nil, takeEffects, Bool.false_eq_true, if_false, List.map_nil, ne_eq, not_true_eq_false,
    decide_false, Bool.false_and, Bool.or_self, List.filter_nil, List.append_nil, hr, hc, hk, hi, h, he, hn,
    List.isEmpty_nil, decide_true, Bool.and_self, Bool.not_true, if_true]
  rfl

/-- An issue in which no lane raises leaves what its lanes left, with the masks of R285 and R286. -/
theorem settle_masks (s0 s : State) (r : Run) (ends : Bool) (ent clr : Mask) :
    Still (settleMasks s r.flock ent clr) (settle s0 r ends ⟨s, [], [], ent, clr, 0, false⟩) ∧
      (ends = true ∨ r.idx < r.hdr.count → (settle s0 r ends ⟨s, [], [], ent, clr, 0, false⟩).fibres = s.fibres) := by
  have h0 : ∀ m : Mask, Still (settleMasks s r.flock ent clr) (settleMasks (if m = 0 then s
      else s.modFlk r.flock fun k => { k with watch := 0 }) r.flock ent clr) := by
    intro m
    split
    · exact Still.refl _
    · rw [settleMasks_watch]
      exact Still.modFlk _ _ _ (fun _ _ => rfl)
  have hf : ∀ m : Mask, (settleMasks (if m = 0 then s
      else s.modFlk r.flock fun k => { k with watch := 0 }) r.flock ent clr).fibres = s.fibres := by
    intro m
    split <;> rfl
  have he : ∀ t : State, (endRun t).fibres = t.fibres := by
    intro t
    unfold endRun
    split <;> rfl
  have hc : ∀ (t : State) (q : Run), (continueRun t q true).fibres = t.fibres := by
    intro t q
    simp only [continueRun, Bool.or_true, if_true, he]
  have h2 := h0 (r.lanes &&& ~~~(Mask.ofLanes []))
  have f2 := hf (r.lanes &&& ~~~(Mask.ofLanes []))
  simp only [settle, byLane_nil, takeEffects, Bool.false_eq_true, if_false, List.map_nil, ne_eq, not_true_eq_false,
    decide_false, Bool.false_and, Bool.or_self, List.filter_nil, List.append_nil]
  obtain ⟨q, hq⟩ : ∃ q, q = settleMasks (if r.lanes &&& ~~~(Mask.ofLanes []) = 0 then s
      else s.modFlk r.flock fun k => { k with watch := 0 }) r.flock ent clr := ⟨_, rfl⟩
  rw [← hq] at h2 f2 ⊢
  refine ⟨?_, fun hh => ?_⟩
  · repeat' split
    all_goals first
      | exact h2
      | exact h2.trans (endRun_still _)
      | exact ⟨h2.rest, h2.fibre, h2.flock, h2.core, h2.cluster⟩
      | exact h2.trans (continueRun_still _ _ _)
  · repeat' split
    all_goals first
      | exact f2
      | exact (he _).trans f2
      | (rcases hh with rfl | hh
         · exact (hc _ _).trans f2
         · contradiction)

end Sys2Proof.Machine
end

