-- ==== Sys2Proof/Laws/Issue.lean ====
section
/-! SUPPORT. What an issue leaves in which every acting lane completes: one lemma for the lane instructions, one for those
that act once for the flock. -/

namespace Sys2Proof.Machine

variable {s : State} {r : Run}

theorem State.modFib_modFib (s : State) (f : Nat) (g h : Fibre → Fibre) :
    (s.modFib f g).modFib f h = s.modFib f (h ∘ g) := by
  simp [State.modFib, tabMod_tabMod]

/-- Outcomes without a raise, an event or a change of masks. -/
abbrev quiet (s : State) : Outs := ⟨s, [], [], 0, 0, 0, false⟩

theorem quiet_next (s : State) (r : Run) (l f : Nat) (t : State) :
    (quiet s).add r l f (.ok (.next, t)) = quiet (t.modFib f (advanceFibre r)) := rfl
theorem quiet_moved (s : State) (r : Run) (l f : Nat) (t : State) : (quiet s).add r l f (.ok (.moved, t)) = quiet t := rfl

/-! ### Who acts -/

theorem Issuing.fibre_eq (hI : Issuing s r) {l f : Nat} (hl : l ∈ r.lanes.lanes) (hf : r.fibre s l = some f) :
    ∃ x, tabGet s.fibres f = some x ∧ x.home = l ∧ x.loc = .flock r.flock ∧ x.cancel = none := by
  obtain ⟨f', x, h1, h2, h3, h4, h5⟩ := hI.lane l hl
  rw [hf] at h1
  cases h1
  exact ⟨x, h2, h3, h4, h5⟩

theorem Issuing.cancelRaises (hI : Issuing s r) : cancelRaises s r = [] := by
  rw [Machine.cancelRaises, List.filterMap_eq_nil_iff]
  intro l hl
  obtain ⟨f, x, h1, h2, -, -, h5⟩ := hI.lane l hl
  rw [show (s.flk r.flock).fibreAt l = some f from h1]
  simp [State.fib_eq s f x h2, h5]

theorem mask_ofLanes_nil (m : Mask) : m &&& ~~~(Mask.ofLanes []) = m := by
  rw [show ~~~(Mask.ofLanes []) = BitVec.allOnes 8 by decide, BitVec.and_allOnes]

theorem Issuing.actingMask (hI : Issuing s r) (g : Guard) : actingMask s r g = guardMask s r g := by
  simp only [Machine.actingMask, hI.cancelRaises, List.map_nil, mask_ofLanes_nil]

theorem Issuing.openOuts (hI : Issuing s r) (m : Mask) : openOuts s r m = quiet (advanceLanes s r (r.lanes &&& ~~~m)) := by
  simp only [Machine.openOuts, hI.cancelRaises, List.map_nil, mask_ofLanes_nil, List.isEmpty_nil, if_true]

theorem guardMask_lanes (s : State) (r : Run) (g : Guard) (l : Nat) (h : l ∈ (guardMask s r g).lanes) :
    l ∈ r.lanes.lanes := by
  rw [guardMask, Mask.mem_lanes_ofLanes] at h
  exact (List.mem_filter.1 h.2).1

/-- Two lanes of an issue hold two fibres. -/
theorem Issuing.lane_unique (hI : Issuing s r) {l l' f : Nat} (hl : l ∈ r.lanes.lanes) (hl' : l' ∈ r.lanes.lanes)
    (h : r.fibre s l = some f) (h' : r.fibre s l' = some f) : l = l' := by
  obtain ⟨x, hx, e, -⟩ := hI.fibre_eq hl h
  obtain ⟨y, hy, e', -⟩ := hI.fibre_eq hl' h'
  rw [hx] at hy
  cases hy
  exact e.symm.trans e'

theorem mem_actors {g : Guard} {f : Nat} :
    f ∈ actors s r g ↔ ∃ l ∈ (guardMask s r g).lanes, r.fibre s l = some f := by
  simp [actors, List.mem_filterMap]

/-- A change of some fibres leaves any other. -/
theorem modFibs_other (s : State) (fs : List Nat) (g : Fibre → Fibre) (f : Nat) (hf : f ∉ fs) :
    tabGet (s.modFibs fs g).fibres f = tabGet s.fibres f := by
  induction fs generalizing s with
  | nil => rfl
  | cons a q ih =>
    simp only [List.mem_cons, not_or] at hf
    refine (ih (s.modFib a g) hf.2).trans ?_
    rw [State.modFib_fibres, tabGet_tabMod, if_neg fun e => hf.1 e.symm]

theorem mem_advanceLanes (s : State) (r : Run) (m : Mask) (f : Nat) (hf : ∀ l ∈ m.lanes, r.fibre s l ≠ some f) :
    tabGet (advanceLanes s r m).fibres f = tabGet s.fibres f := by
  refine modFibs_other s _ _ f ?_
  simp only [List.mem_filterMap, not_exists, not_and]
  exact fun l hl => hf l hl

/-! ### The lanes in turn -/

/-- Lanes whose bodies change only their own fibre. -/
theorem foldLanes_quiet (body : State → Nat → Nat → Res (Adv × State)) (fin : Nat → Fibre → Fibre)
    (L : List Nat) (F0 : Tab Fibre) (hL : L.Nodup)
    (hf : ∀ l ∈ L, ∃ f x, r.fibre s l = some f ∧ tabGet s.fibres f = some x ∧ x.home = l ∧ tabGet F0 f = some x)
    (hb : ∀ l ∈ L, ∀ f x F, r.fibre s l = some f → tabGet s.fibres f = some x → tabGet F f = some x →
      (quiet { s with fibres := F }).add r l f (body { s with fibres := F } f l)
        = quiet (({ s with fibres := F } : State).modFib f (fin f))) :
    ∃ F, foldLanes s r L body (quiet { s with fibres := F0 }) = quiet { s with fibres := F } ∧
      ∀ h, tabGet F h = if h ∈ L.filterMap (r.fibre s) then (tabGet F0 h).map (fin h) else tabGet F0 h := by
  induction L generalizing F0 with
  | nil => exact ⟨F0, rfl, fun h => by simp⟩
  | cons l L ih =>
    obtain ⟨f, x, h1, h2, h3, h4⟩ := hf l (by simp)
    have hstep : foldLanes s r (l :: L) body (quiet { s with fibres := F0 })
        = foldLanes s r L body (quiet { s with fibres := tabMod F0 f (fin f) }) := by
      rw [foldLanes, List.foldl_cons, show (s.flk r.flock).fibreAt l = some f from h1]
      simp only [Bool.false_eq_true, if_false]
      rw [hb l (by simp) f x F0 h1 h2 h4]
      rfl
    have hne : ∀ l' ∈ L, ∀ f', r.fibre s l' = some f' → f' ≠ f := by
      rintro l' hl' f' hf' rfl
      obtain ⟨f'', x', e1, e2, e3, -⟩ := hf l' (by simp [hl'])
      rw [hf'] at e1
      cases e1
      rw [h2] at e2
      cases e2
      have : l = l' := h3.symm.trans e3
      subst this
      exact (List.nodup_cons.1 hL).1 hl'
    obtain ⟨F, hF, hg⟩ := ih (tabMod F0 f (fin f)) (List.nodup_cons.1 hL).2
      (by
        intro l' hl'
        obtain ⟨f', x', e1, e2, e3, e4⟩ := hf l' (by simp [hl'])
        refine ⟨f', x', e1, e2, e3, ?_⟩
        rw [tabGet_tabMod, if_neg (fun e => hne l' hl' f' e1 e.symm), e4])
      (fun l' hl' => hb l' (by simp [hl']))
    refine ⟨F, hstep.trans hF, fun h => ?_⟩
    rw [hg h, List.filterMap_cons_some h1, tabGet_tabMod]
    by_cases hh : f = h
    · subst hh
      have : f ∉ L.filterMap (r.fibre s) := by
        simp only [List.mem_filterMap, not_exists, not_and]
        exact fun l' hl' e => hne l' hl' f e rfl
      simp [this]
    · have : h ≠ f := fun e => hh e.symm
      simp [hh, this]

/-- What the lanes of an issue leave, before the run goes on: `fin` is the acting fibre afterwards. -/
theorem perLane_open (hI : Issuing s r) (g : Guard) (body : State → Nat → Nat → Res (Adv × State))
    (fin : Nat → Fibre → Fibre)
    (hb : ∀ l ∈ (guardMask s r g).lanes, ∀ f x F, r.fibre s l = some f → tabGet s.fibres f = some x →
      tabGet F f = some x → (quiet { s with fibres := F }).add r l f (body { s with fibres := F } f l)
        = quiet (({ s with fibres := F } : State).modFib f (fin f))) :
    ∃ F, foldLanes s r (Machine.actingMask s r g).lanes body (Machine.openOuts s r (Machine.actingMask s r g))
        = quiet { s with fibres := F } ∧
      ∀ h, tabGet F h = if h ∈ actors s r g then (tabGet s.fibres h).map (fin h)
        else tabGet (advanceLanes s r (r.lanes &&& ~~~(guardMask s r g))).fibres h := by
  rw [hI.actingMask, hI.openOuts]
  have hs : advanceLanes s r (r.lanes &&& ~~~(guardMask s r g))
      = { s with fibres := (advanceLanes s r (r.lanes &&& ~~~(guardMask s r g))).fibres } := by
    have h : ∀ (fs : List Nat) (s : State), s.modFibs fs (advanceFibre r)
        = { s with fibres := (s.modFibs fs (advanceFibre r)).fibres } := by
      intro fs
      induction fs with
      | nil => intro s; rfl
      | cons a q ih => intro s; exact ih (s.modFib a (advanceFibre r))
    exact h _ s
  have hfr : ∀ l ∈ (guardMask s r g).lanes, ∀ f, r.fibre s l = some f →
      tabGet (advanceLanes s r (r.lanes &&& ~~~(guardMask s r g))).fibres f = tabGet s.fibres f := by
    intro l hl f hf
    refine mem_advanceLanes s r _ f fun l' hl' hf' => ?_
    rw [Mask.mem_lanes_diff] at hl'
    have := hI.lane_unique (guardMask_lanes s r g l hl) hl'.1 hf hf'
    subst this
    exact hl'.2 hl
  obtain ⟨F, hF, hg⟩ := foldLanes_quiet (s := s) (r := r) body fin (guardMask s r g).lanes
    (advanceLanes s r (r.lanes &&& ~~~(guardMask s r g))).fibres (Mask.lanes_nodup _)
    (by
      intro l hl
      obtain ⟨f, x, h1, h2, h3, -⟩ := hI.lane l (guardMask_lanes s r g l hl)
      exact ⟨f, x, h1, h2, h3, by rw [hfr l hl f h1, h2]⟩)
    hb
  refine ⟨F, by rw [hs]; exact hF, fun h => ?_⟩
  rw [hg h]
  by_cases hh : h ∈ actors s r g
  · have : h ∈ (guardMask s r g).lanes.filterMap (r.fibre s) := hh
    obtain ⟨l, hl, hf⟩ := mem_actors.1 hh
    rw [if_pos this, if_pos hh, hfr l hl h hf]
  · have : h ∉ (guardMask s r g).lanes.filterMap (r.fibre s) := hh
    rw [if_neg this, if_neg hh]

theorem withFibres_get (s : State) (fs : List Nat) (new : Nat → Fibre → Fibre) (h : Nat) :
    tabGet (s.withFibres fs new).fibres h = (tabGet s.fibres h).map fun x => if h ∈ fs then new h x else x := by
  rw [State.withFibres]
  rw [show (fun p : Nat × Fibre => if fs.contains p.1 then (p.1, new p.1 p.2) else p)
    = fun p => (p.1, (fun k x => if k ∈ fs then new k x else x) p.1 p.2) from ?_]
  · exact tabGet_map s.fibres (fun k x => if k ∈ fs then new k x else x) h
  · funext p; simp only [List.contains_iff_mem]; split <;> rfl

theorem perLane_eq (hI : Issuing s r) (i : Instr) (body : Mask → State → Nat → Nat → Res (Adv × State)) :
    perLane i s body = .next (settle s r i.endsClause (foldLanes s r (guardMask s r i.guard).lanes
      (fun u f l => body (guardMask s r i.guard) u f l) (Machine.openOuts s r (guardMask s r i.guard)))) := by
  obtain ⟨rest, hr⟩ := hI.head
  unfold perLane
  split
  · next h => rw [hr] at h; cases h
  · next q _ h => rw [hr] at h; cases h; rw [hI.actingMask]

theorem advanceFibre_place (r : Run) (x : Fibre) (h : r.idx < r.hdr.count) :
    (advanceFibre r x).pc = r.here + 8 ∧ (advanceFibre r x).pck = .within := by
  rw [advanceFibre, if_pos h]
  exact ⟨rfl, rfl⟩

theorem advanceLanes_runs (s : State) (r : Run) (m : Mask) : (advanceLanes s r m).runs = s.runs := State.modFibs_runs _ _ _

/-- Fibres that have all gone on to the next word. -/
theorem modFibs_advance (s : State) (fs : List Nat) (f : Nat) (hf : f ∈ fs) (h : r.idx < r.hdr.count)
    (hx : (tabGet s.fibres f).isSome) :
    ((s.modFibs fs (advanceFibre r)).fib f).pc = r.here + 8 ∧ ((s.modFibs fs (advanceFibre r)).fib f).pck = .within := by
  have key : ∀ (fs : List Nat) (s : State), (tabGet s.fibres f).isSome →
      (f ∈ fs ∨ ((s.fib f).pc = r.here + 8 ∧ (s.fib f).pck = .within)) →
      ((s.modFibs fs (advanceFibre r)).fib f).pc = r.here + 8 ∧ ((s.modFibs fs (advanceFibre r)).fib f).pck = .within := by
    intro fs
    induction fs with
    | nil => intro s _ hp; exact hp.resolve_left (by simp)
    | cons a q ih =>
      intro s hx hp
      refine ih (s.modFib a (advanceFibre r)) ?_ ?_
      · rw [State.modFib_fibres, tabGet_tabMod]
        split
        · simpa using hx
        · exact hx
      · by_cases he : a = f
        · subst he
          refine .inr ?_
          obtain ⟨x, hx⟩ := Option.isSome_iff_exists.1 hx
          have : (s.modFib a (advanceFibre r)).fib a = advanceFibre r x := by
            refine State.fib_eq _ _ _ ?_
            rw [State.modFib_fibres, tabGet_tabMod, if_pos rfl, hx]
            rfl
          rw [this]
          exact advanceFibre_place r x h
        · rcases hp with hp | hp
          · exact .inl ((List.mem_cons.1 hp).resolve_left (fun e => he e.symm))
          · refine .inr ?_
            have : (s.modFib a (advanceFibre r)).fib f = s.fib f := by
              simp only [State.fib, State.modFib_fibres, tabGet_tabMod, he, if_false, tabGetD]
            rw [this]
            exact hp
  exact key fs s hx (.inl hf)

/-- The end of an issue that leaves every active lane past the word. -/
theorem settle_done (hI : Issuing s r) (u : State) (ends : Bool) (hr : u.runs = s.runs)
    (hf : ∀ l ∈ r.lanes.lanes, ∀ f, r.fibre s l = some f → r.idx < r.hdr.count →
      (u.fib f).pc = r.here + 8 ∧ (u.fib f).pck = .within) :
    WordDone s r (settle s r ends (quiet u)) := by
  intro hi
  obtain ⟨rest, hs⟩ := hI.head
  refine ⟨?_, fun l hl f hl' => ?_⟩
  · rw [settle_onward s u r r rest ends 0 (hr.trans hs) rfl rfl hi, hs]
    rfl
  · have h := (settle_masks s u r ends 0 0).2 (.inr hi)
    rw [State.fib, h]
    exact hf l hl f hl' hi

/-- The lanes outside a mask have gone on. -/
theorem advanceLanes_place (hI : Issuing s r) (m : Mask) (l f : Nat) (hl : l ∈ r.lanes.lanes)
    (hf : r.fibre s l = some f) (hg : l ∉ m.lanes) (hi : r.idx < r.hdr.count) :
    ((advanceLanes s r (r.lanes &&& ~~~m)).fib f).pc = r.here + 8 ∧
      ((advanceLanes s r (r.lanes &&& ~~~m)).fib f).pck = .within := by
  obtain ⟨x, hx, -⟩ := hI.fibre_eq hl hf
  refine modFibs_advance s _ f ?_ hi (by rw [hx]; rfl)
  rw [List.mem_filterMap]
  exact ⟨l, (Mask.mem_lanes_diff _ _ _).2 ⟨hl, hg⟩, hf⟩

/-- An instruction of lanes, all of which complete: each acting fibre becomes `new` of itself, all else stays, and every active
lane goes on. -/
theorem perLane_still (hI : Issuing s r) (i : Instr) (body : Mask → State → Nat → Nat → Res (Adv × State))
    (new : Nat → Fibre → Fibre)
    (hb : ∀ l ∈ (guardMask s r i.guard).lanes, ∀ f x F, r.fibre s l = some f → tabGet s.fibres f = some x →
      tabGet F f = some x → body (guardMask s r i.guard) { s with fibres := F } f l
        = .ok (.next, ({ s with fibres := F } : State).modFib f (new f))) :
    ∃ t, perLane i s body = .next t ∧ Still (s.withFibres (actors s r i.guard) new) t ∧ WordDone s r t := by
  obtain ⟨F, hF, hg⟩ := perLane_open hI i.guard (fun u f l => body (guardMask s r i.guard) u f l)
    (fun f x => advanceFibre r (new f x)) (by
      intro l hl f x F h1 h2 h3
      rw [hb l hl f x F h1 h2 h3, quiet_next, State.modFib_modFib]
      rfl)
  rw [hI.actingMask] at hF
  refine ⟨settle s r i.endsClause (quiet { s with fibres := F }), (perLane_eq hI i body).trans (by rw [hF]), ?_⟩
  refine ⟨Still.trans ?_ (settle_still s _ r i.endsClause), settle_done hI _ _ rfl fun l hl f hf hi => ?_⟩
  swap
  · obtain ⟨x, hx, -⟩ := hI.fibre_eq hl hf
    by_cases ha : f ∈ actors s r i.guard
    · have : (({ s with fibres := F } : State).fib f) = advanceFibre r (new f x) :=
        State.fib_eq _ _ _ (by show tabGet F f = _; rw [hg f, if_pos ha, hx]; rfl)
      rw [this]
      exact advanceFibre_place r _ hi
    · have hn : l ∉ (guardMask s r i.guard).lanes := fun h => ha (mem_actors.2 ⟨l, h, hf⟩)
      have : (({ s with fibres := F } : State).fib f)
          = (advanceLanes s r (r.lanes &&& ~~~(guardMask s r i.guard))).fib f := by
        show (tabGet F f).getD _ = (tabGet (advanceLanes s r (r.lanes &&& ~~~(guardMask s r i.guard))).fibres f).getD _
        rw [hg f, if_neg ha]
      rw [this]
      exact advanceLanes_place hI _ l f hl hf hn hi
  have hadv := advanceLanes_still s r (r.lanes &&& ~~~(guardMask s r i.guard))
  refine ⟨rfl, fun h => ?_, fun _ => rfl, fun _ => rfl, fun _ => rfl⟩
  rw [withFibres_get]
  show (tabGet F h).map Fibre.still = _
  rw [hg h]
  split
  · cases tabGet s.fibres h <;> simp
  · rw [hadv.fibre h]; cases tabGet s.fibres h <;> simp

/-! ### Instructions that act once for the flock -/

theorem perFlock_eq (hI : Issuing s r) (i : Instr) (body : State → Nat → List Nat → Res State) {f : Nat} {fs : List Nat}
    (ha : actors s r i.guard = f :: fs) (s1 : State)
    (hb : body (advanceLanes s r (r.lanes &&& ~~~(guardMask s r i.guard))) f (f :: fs) = .ok s1) :
    perFlock i s body = .next (settle s r i.endsClause (quiet (s1.modFibs (f :: fs) (advanceFibre r)))) := by
  obtain ⟨rest, hr⟩ := hI.head
  unfold perFlock
  split
  · next h => rw [hr] at h; cases h
  · next q _ h =>
    rw [hr] at h
    cases h
    simp only [hI.actingMask, hI.openOuts]
    have hg : List.filterMap (s.flk r.flock).fibreAt (guardMask s r i.guard).lanes = f :: fs := ha
    rw [hg]
    simp only [hb]

/-- No lane acts: the active lanes only advance. -/
theorem perFlock_none (hI : Issuing s r) (i : Instr) (body : State → Nat → List Nat → Res State)
    (ha : actors s r i.guard = []) : ∃ t, perFlock i s body = .next t ∧ Still s t ∧ WordDone s r t := by
  obtain ⟨rest, hr⟩ := hI.head
  unfold perFlock
  split
  · next h => rw [hr] at h; cases h
  · next q _ h =>
    rw [hr] at h
    cases h
    simp only [hI.actingMask, hI.openOuts]
    rw [show List.filterMap (s.flk r.flock).fibreAt (guardMask s r i.guard).lanes = [] from ha]
    refine ⟨_, rfl, (advanceLanes_still _ _ _).trans (settle_still _ _ _ _),
      settle_done hI _ _ (advanceLanes_runs _ _ _) fun l hl f hf hi => ?_⟩
    exact advanceLanes_place hI _ l f hl hf (by simp [Mask.mem_lanes]) hi

theorem Whole.rest_empty {g : Guard} {f : Nat} {fs : List Nat} (h : Whole s r g f fs) :
    advanceLanes s r (r.lanes &&& ~~~(guardMask s r g)) = s := by
  have : (r.lanes &&& ~~~(guardMask s r g)).lanes = [] := by
    rw [List.eq_nil_iff_forall_not_mem]
    intro l hl
    rw [h.all, Mask.mem_lanes_diff] at hl
    exact hl.2 hl.1
  rw [advanceLanes, this]
  rfl

/-- An instruction that acts once for a flock all of whose active lanes act. -/
theorem perFlock_still (i : Instr) (body : State → Nat → List Nat → Res State) {f : Nat} {fs : List Nat}
    (hW : Whole s r i.guard f fs) (s1 : State) (hb : body s f (f :: fs) = .ok s1) :
    ∃ t, perFlock i s body = .next t ∧ Still s1 t := by
  rw [← hW.rest_empty] at hb
  exact ⟨_, perFlock_eq hW.toIssuing i body hW.acts s1 (by rw [hW.rest_empty] at hb ⊢; exact hb),
    (Still.modFibs _ _ _ (advanceFibre_still r)).trans (settle_still _ _ _ _)⟩

/-- The one lane that acts, alone in its run. -/
theorem Whole.alone_lane {g : Guard} {f : Nat} (h : Whole s r g f []) :
    ∃ l x, (guardMask s r g).lanes = [l] ∧ r.fibre s l = some f ∧ tabGet s.fibres f = some x ∧ x.home = l := by
  have ha := h.acts
  have hall : ∀ l ∈ (guardMask s r g).lanes, (r.fibre s l).isSome := by
    intro l hl
    obtain ⟨f', x, h1, -⟩ := h.toIssuing.lane l (guardMask_lanes s r g l hl)
    simp [h1]
  unfold actors at ha
  cases hl : (guardMask s r g).lanes with
  | nil => rw [hl] at ha; cases ha
  | cons l q =>
    rw [hl] at ha hall
    obtain ⟨f', hf'⟩ := Option.isSome_iff_exists.1 (hall l (by simp))
    rw [List.filterMap_cons_some hf'] at ha
    obtain ⟨rfl, ha⟩ := List.cons.inj ha
    cases q with
    | nil =>
      obtain ⟨x, h2, h3, -⟩ := h.toIssuing.fibre_eq (guardMask_lanes s r g l (by simp [hl])) hf'
      exact ⟨l, x, rfl, hf', h2, h3⟩
    | cons l' q =>
      obtain ⟨f'', hf''⟩ := Option.isSome_iff_exists.1 (hall l' (by simp))
      rw [List.filterMap_cons_some hf''] at ha
      cases ha

theorem perLane_alone_eq (i : Instr) (body : Mask → State → Nat → Nat → Res (Adv × State)) {f : Nat}
    (hW : Whole s r i.guard f []) :
    perLane i s body = .next (settle s r i.endsClause
      ((quiet s).add r (s.fib f).home f (body (guardMask s r i.guard) s f (s.fib f).home))) := by
  obtain ⟨l, x, hl, hf, hx, rfl⟩ := hW.alone_lane
  rw [perLane_eq hW.toIssuing, hW.toIssuing.openOuts, hW.rest_empty, hl, State.fib_eq s f x hx]
  simp only [foldLanes, List.foldl_cons, List.foldl_nil]
  rw [show (s.flk r.flock).fibreAt x.home = some f from hf]
  rfl

/-- A lane instruction of one active lane that completes and goes on to the next word. -/
theorem perLane_alone (i : Instr) (body : Mask → State → Nat → Nat → Res (Adv × State)) {f : Nat}
    (hW : Whole s r i.guard f []) (s1 : State)
    (hb : body (guardMask s r i.guard) s f (s.fib f).home = .ok (.next, s1)) :
    ∃ t, perLane i s body = .next t ∧ Still s1 t := by
  refine ⟨_, perLane_alone_eq i body hW, ?_⟩
  rw [hb, quiet_next]
  exact (Still.modFib s1 f _ (advanceFibre_still r)).trans (settle_still _ _ _ _)

/-- The same with a PC of its own. -/
theorem perLane_alone_moved (i : Instr) (body : Mask → State → Nat → Nat → Res (Adv × State)) {f : Nat}
    (hW : Whole s r i.guard f []) (s1 : State)
    (hb : body (guardMask s r i.guard) s f (s.fib f).home = .ok (.moved, s1)) :
    ∃ t, perLane i s body = .next t ∧ Still s1 t := by
  refine ⟨_, perLane_alone_eq i body hW, ?_⟩
  rw [hb, quiet_moved]
  exact settle_still _ _ _ _

/-! ### The two shapes of the statements -/

/-- What the lanes of a chain make of the outcomes so far. -/
theorem LaneChain.fold {i : Instr} {pre : State → Run → Nat → Adv → State → Prop}
    (body : State → Nat → Nat → Res (Adv × State))
    (hb : ∀ cur l f how v, RegsReady i (cur.fib f) → pre cur r f how v → body cur f l = .ok (how, v))
    (L : List Nat) (cur u : State) (ent clr e c : Mask)
    (h : LaneChain i r pre (L.filterMap fun l => (r.fibre s l).map fun f => (l, f)) cur u ent clr) :
    foldLanes s r L body ⟨cur, [], [], e, c, 0, false⟩ = ⟨u, [], [], e ||| ent, c ||| clr, 0, false⟩ := by
  induction L generalizing cur ent clr e c with
  | nil =>
    obtain ⟨rfl, rfl, rfl⟩ := h
    simp [foldLanes]
  | cons l L ih =>
    cases hf : r.fibre s l with
    | none =>
      rw [List.filterMap_cons_none (by simp [hf])] at h
      rw [foldLanes, List.foldl_cons, show (s.flk r.flock).fibreAt l = none from hf]
      exact ih cur ent clr e c h
    | some f =>
      rw [List.filterMap_cons_some (b := (l, f)) (by simp [hf])] at h
      obtain ⟨hr, how, v, e', c', hp, hrest, rfl, rfl⟩ := h
      rw [foldLanes, List.foldl_cons, show (s.flk r.flock).fibreAt l = some f from hf]
      simp only [Bool.false_eq_true, if_false, hb cur l f how v hr hp]
      cases how with
      | next => exact ih _ _ _ e c hrest
      | moved => exact ih _ _ _ e c hrest
      | left => exact ih _ _ _ e c hrest
      | enter =>
        refine (ih _ _ _ (e ||| Mask.one l) c hrest).trans ?_
        simp [BitVec.or_assoc]
      | resumed =>
        refine (ih _ _ _ e (c ||| Mask.one l) hrest).trans ?_
        simp [BitVec.or_assoc]

/-- A lane instruction whose body answers what `pre` says completes as `Lanewise` says. -/
theorem lanewise_of (i : Instr) (body : State → Mask → State → Nat → Nat → Res (Adv × State))
    (pre : State → Run → Nat → Adv → State → Prop) (hx : ∀ s, exec i s = perLane i s (body s))
    (hb : ∀ s r g cur l f how v, s.runs.head? = some r → RegsReady i (cur.fib f) → pre cur r f how v →
      body s g cur f l = .ok (how, v)) : Lanewise i pre := by
  intro s r u ent clr hI hc
  obtain ⟨rest, hr⟩ := hI.head
  have h := LaneChain.fold (body s (guardMask s r i.guard)) (fun cur l f how v => hb s r _ cur l f how v (by simp [hr]))
    _ _ _ _ _ 0 0 hc
  have h' := settle_masks s u r i.endsClause ent clr
  refine ⟨_, (hx s).trans ((perLane_eq hI i _).trans ?_), h'.1, h'.2, fun hi he hu => ?_⟩
  swap
  · subst he
    rw [settle_onward s u r r rest _ clr (hu.trans hr) rfl rfl hi, hr]
    rfl
  simp only [hI.openOuts, quiet, h, show (0 : Mask) ||| ent = ent by simp, show (0 : Mask) ||| clr = clr by simp]

/-- An instruction for the flock whose body answers what `pre` says completes as `Flockwise` says. -/
theorem flockwise_of (i : Instr) (body : State → State → Nat → List Nat → Res State)
    (pre : State → Run → Nat → List Nat → State → Prop) (hx : ∀ s, exec i s = perFlock i s (body s))
    (hb : ∀ s r cur f fs u, s.runs.head? = some r → Issuing s r → actors s r i.guard = f :: fs →
      cur = advanceLanes s r (r.lanes &&& ~~~guardMask s r i.guard) → (∀ h ∈ f :: fs, RegsReady i (s.fib h)) →
      pre cur r f (f :: fs) u → body s cur f (f :: fs) = .ok u) : Flockwise i pre := by
  intro s r hI
  obtain ⟨rest, hr⟩ := hI.head
  refine ⟨fun f fs u ha hR hp => ?_, fun ha => hx s ▸ perFlock_none hI i _ ha⟩
  refine ⟨_, (hx s).trans (perFlock_eq hI i _ ha _ (hb s r _ f fs u (by simp [hr]) hI ha rfl hR hp)),
    (Still.modFibs _ _ _ (advanceFibre_still r)).trans (settle_still _ _ _ _), fun hi => ⟨fun h hh hs => ?_, fun hu => ?_⟩⟩
  · rw [State.fib, (settle_masks s _ r _ 0 0).2 (.inr hi)]
    exact modFibs_advance u _ h hh hi hs
  · rw [settle_onward s _ r r rest _ 0 ((State.modFibs_runs _ _ _).trans (hu.trans hr)) rfl rfl hi, hr]
    rfl

/-! ### What the look before a turn leaves (R262, R267) -/

/-- It changes flocks and the order of events, and nothing else. -/
theorem noteEligible_only (s : State) : ∃ fl n, noteEligible s = { s with flocks := fl, seq := n } := by
  simp only [noteEligible]
  split
  · exact ⟨s.flocks, s.seq, rfl⟩
  · exact ⟨_, _, rfl⟩
@[simp] theorem noteEligible_runs (s : State) : (noteEligible s).runs = s.runs := by
  obtain ⟨fl, n, h⟩ := noteEligible_only s; rw [h]
@[simp] theorem noteEligible_agenda (s : State) : (noteEligible s).agenda = s.agenda := by
  obtain ⟨fl, n, h⟩ := noteEligible_only s; rw [h]
@[simp] theorem noteEligible_mem (s : State) : (noteEligible s).mem = s.mem := by
  obtain ⟨fl, n, h⟩ := noteEligible_only s; rw [h]
@[simp] theorem noteEligible_fibres (s : State) : (noteEligible s).fibres = s.fibres := by
  obtain ⟨fl, n, h⟩ := noteEligible_only s; rw [h]
@[simp] theorem noteEligible_cores (s : State) : (noteEligible s).cores = s.cores := by
  obtain ⟨fl, n, h⟩ := noteEligible_only s; rw [h]
@[simp] theorem noteEligible_dev (s : State) : (noteEligible s).dev = s.dev := by
  obtain ⟨fl, n, h⟩ := noteEligible_only s; rw [h]

/-- A flock keeps all but the two stamps. -/
theorem noteEligible_flock (s : State) (k : Nat) (fl : Flock) (h : tabGet s.flocks k = some fl) :
    ∃ a b, tabGet (noteEligible s).flocks k = some { fl with since := a, could := b } := by
  have key : ∀ (xs : List (Nat × Flock)) (g : Nat × Flock → Nat × Flock),
      (∀ p, ∃ a b, g p = (p.1, { p.2 with since := a, could := b })) → tabGet xs k = some fl →
      ∃ a b, tabGet (xs.map g) k = some { fl with since := a, could := b } := by
    intro xs g hg
    induction xs with
    | nil => simp [tabGet]
    | cons p xs ih =>
      intro hx
      obtain ⟨a, b, hp⟩ := hg p
      rw [List.map_cons, hp]
      simp only [tabGet] at hx ⊢
      split at hx
      · cases hx; exact ⟨a, b, by simp [*]⟩
      · simp only [*]; exact ih hx
  simp only [noteEligible]
  split
  · exact ⟨fl.since, fl.could, h⟩
  · refine key _ _ (fun p => ?_) h
    split
    · exact ⟨p.2.since, _, rfl⟩
    · exact ⟨_, p.2.could, rfl⟩

end Sys2Proof.Machine
end

