-- ==== Sys2Proof/Laws/Lanes.lean ====
section
/-! SUPPORT. The shapes of lane and uniform instructions whose registers are ready. -/

namespace Sys2Proof.Machine

variable {s : State} {r : Run}

/-! ### Operands -/

theorem RegsReady.regs {i : Instr} {x : Fibre} (h : RegsReady i x) {n c : Nat} (hm : (n, c) ∈ laneSpans i) :
    needRegs x n c = .ok () := by
  obtain ⟨h1, -, h3⟩ := h.2 _ hm
  have hb : (x.busy.any fun b => decide (n ≤ b.1) && decide (b.1 < n + c)) = false := by
    rw [List.any_eq_false]
    intro b hb
    simpa using h3 b hb
  simp only [needRegs, hb, Bool.false_eq_true, if_false]
  rw [if_neg (by simpa using h1)]

theorem RegsReady.word {i : Instr} {x : Fibre} (h : RegsReady i x) {n : BitVec 8} (hm : (n.toNat, 1) ∈ laneSpans i) :
    need32 x n = .ok () := h.regs hm

theorem RegsReady.pair {i : Instr} {x : Fibre} (h : RegsReady i x) {n : BitVec 8} (hm : (n.toNat, 2) ∈ laneSpans i) :
    need64 x n = .ok () := by
  have := (h.2 _ hm).2.1 rfl
  rw [need64, if_neg (by simp only at this; omega), h.regs hm]

/-- Fibres of the same state in another table: what an operand reads depends on its own fibre only. -/
theorem sreg_eq {f : Nat} {x : Fibre} {F : Tab Fibre} (h : tabGet F f = some x) (n : BitVec 8) :
    sreg { s with fibres := F } f n = s.uniform x n := by
  have hx : ({ s with fibres := F } : State).fib f = x := State.fib_eq _ f x h
  simp only [sreg, State.uniform, hx]
  rfl

theorem src32_eq {i : Instr} {f : Nat} {x : Fibre} {F : Tab Fibre} (h : tabGet F f = some x) (hr : RegsReady i x)
    (a : Src) (hm : ∀ q ∈ srcSpan 1 a, q ∈ laneSpans i) : src32 { s with fibres := F } f a = .ok (s.op32 x a) := by
  have hx : ({ s with fibres := F } : State).fib f = x := State.fib_eq _ f x h
  cases a with
  | v n =>
    have h1 := hr.word (n := n) (hm _ (by simp [srcSpan]))
    simp [src32, hx, h1, State.op32]
  | s n => simp [src32, sreg_eq h, State.op32, lowWord]

theorem src64_eq {i : Instr} {f : Nat} {x : Fibre} {F : Tab Fibre} (h : tabGet F f = some x) (hr : RegsReady i x)
    (a : Src) (hm : ∀ q ∈ srcSpan 2 a, q ∈ laneSpans i) : src64 { s with fibres := F } f a = .ok (s.op64 x a) := by
  have hx : ({ s with fibres := F } : State).fib f = x := State.fib_eq _ f x h
  cases a with
  | v n =>
    have h1 := hr.pair (n := n) (hm _ (by simp [srcSpan]))
    simp [src64, hx, h1, State.op64, Fibre.pair, pairOf]
  | s n => simp [src64, sreg_eq h, State.op64]

/-! ### Completed lane instructions -/

/-- A lane body that succeeds on every acting fibre. -/
theorem completes_of_body (i : Instr) (body : State → Mask → State → Nat → Nat → Res (Adv × State))
    (hx : ∀ s, exec i s = perLane i s (body s)) (new : State → Fibre → Fibre)
    (hb : ∀ s r f x F, s.runs.head? = some r → RegsReady i x → tabGet F f = some x → x.loc = .flock r.flock →
      body s (guardMask s r i.guard) { s with fibres := F } f x.home
        = .ok (.next, ({ s with fibres := F } : State).modFib f (new s))) :
    Completes i new := by
  intro s r hI hR
  obtain ⟨t, ht, hs⟩ := perLane_still hI i (body s) (fun _ x => new s x) (by
    intro l hl f x F h1 h2 h3
    obtain ⟨x', e1, e2, e3, -⟩ := hI.fibre_eq (guardMask_lanes s r _ l hl) h1
    rw [h2] at e1
    cases e1
    have hr := hR f (mem_actors.2 ⟨l, hl, h1⟩)
    rw [State.fib_eq s f x h2] at hr
    obtain ⟨rest, hrest⟩ := hI.head
    have := hb s r f x F (by simp [hrest]) hr h3 e3
    rw [e2] at this
    exact this)
  exact ⟨t, (hx s).trans ht, hs⟩

/-- A change of a fibre depends on its old contents only. -/
theorem modFib_congr {F : Tab Fibre} {f : Nat} {x : Fibre} (h : tabGet F f = some x) (a b : Fibre → Fibre)
    (hab : a x = b x) : ({ s with fibres := F } : State).modFib f a = ({ s with fibres := F } : State).modFib f b := by
  simp only [State.modFib, tabMod, h, hab]

/-- A lane instruction of a 32-bit result. -/
theorem writesWord_of (i : Instr) (d : BitVec 8) (val : State → State → Nat → Res Word)
    (hx : ∀ s, exec i s = lane32 i d s (val s)) (v : State → Fibre → Word) (hd : (d.toNat, 1) ∈ laneSpans i)
    (hv : ∀ s r f x F, s.runs.head? = some r → RegsReady i x → tabGet F f = some x →
      val s { s with fibres := F } f = .ok (v s x)) : WritesWord i d v := by
  refine completes_of_body i (fun s _ u f _ => (need32 (u.fib f) d).bind fun _ => (val s u f).bind fun w =>
    .ok (.next, put32 u f d w)) hx _ ?_
  intro s r f x F h0 hr h3 _
  rw [State.fib_eq _ f x h3, hr.word hd, Res.bind_ok, hv s r f x F h0 hr h3]
  exact congrArg (fun t => Res.ok (Adv.next, t)) (modFib_congr h3 _ _ rfl)

/-- A lane instruction of a 64-bit result. -/
theorem writesPair_of (i : Instr) (d : BitVec 8) (val : State → State → Nat → Res DWord)
    (hx : ∀ s, exec i s = lane64 i d s (val s)) (v : State → Fibre → DWord) (hd : (d.toNat, 2) ∈ laneSpans i)
    (hv : ∀ s r f x F, s.runs.head? = some r → RegsReady i x → tabGet F f = some x →
      val s { s with fibres := F } f = .ok (v s x)) : WritesPair i d v := by
  refine completes_of_body i (fun s _ u f _ => (need64 (u.fib f) d).bind fun _ => (val s u f).bind fun w =>
    .ok (.next, put64 u f d w)) hx _ ?_
  intro s r f x F h0 hr h3 _
  rw [State.fib_eq _ f x h3, hr.pair hd, Res.bind_ok, hv s r f x F h0 hr h3]
  exact congrArg (fun t => Res.ok (Adv.next, t)) (modFib_congr h3 _ _ rfl)

/-- A lane instruction of a predicate result. -/
theorem writesPred_of (i : Instr) (p : BitVec 4) (val : State → State → Nat → Res Bool)
    (hx : ∀ s, exec i s = lanePred i p s (val s)) (v : State → Fibre → Bool)
    (hv : ∀ s r f x F, s.runs.head? = some r → RegsReady i x → tabGet F f = some x →
      val s { s with fibres := F } f = .ok (v s x)) : WritesPred i p v := by
  refine completes_of_body i (fun s _ u f _ => (val s u f).bind fun w => .ok (.next, putPred u f p w)) hx _ ?_
  intro s r f x F h0 hr h3 _
  rw [hv s r f x F h0 hr h3]
  exact congrArg (fun t => Res.ok (Adv.next, t)) (modFib_congr h3 _ _ rfl)

/-! ### The operand forms -/

/-- One, two and three 32-bit sources, in the lane form. -/
theorem writesWord_op1 (i : Instr) (o : Un) (fn : Word → Word) (ho : o.ud = false)
    (hx : ∀ s, exec i s = op1 i o s fn) (hs : laneSpans i = unSpans o 1) (v : State → Fibre → Word)
    (hv : ∀ s x, v s x = fn (s.op32 x o.a)) : WritesWord i o.d v := by
  have hm : laneSpans i = (o.d.toNat, 1) :: srcSpan 1 o.a := by rw [hs]; simp [unSpans, dstSpan, ho]
  refine writesWord_of i o.d (fun _ s f => (src32 s f o.a).bind fun a => .ok (fn a)) ?_ v (by simp [hm]) ?_
  · intro s; rw [hx, op1, ho]; rfl
  · intro s r f x F _ hr h3
    rw [src32_eq h3 hr o.a (by intro q hq; simp [hm, hq]), Res.bind_ok, hv]

theorem writesWord_op2 (i : Instr) (o : Bin) (fn : Word → Word → Word) (ho : o.ud = false)
    (hx : ∀ s, exec i s = op2 i o s fn) (hs : laneSpans i = binSpans o 1 1) (v : State → Fibre → Word)
    (hv : ∀ s x, v s x = fn (s.op32 x o.a) (s.op32 x o.b)) : WritesWord i o.d v := by
  have hm : laneSpans i = (o.d.toNat, 1) :: (srcSpan 1 o.a ++ srcSpan 1 o.b) := by
    rw [hs]; simp [binSpans, dstSpan, ho]
  refine writesWord_of i o.d (fun _ s f => (src32 s f o.a).bind fun a => (src32 s f o.b).bind fun b => .ok (fn a b))
    ?_ v (by simp [hm]) ?_
  · intro s; rw [hx, op2, ho]; rfl
  · intro s r f x F _ hr h3
    rw [src32_eq h3 hr o.a (by intro q hq; simp [hm, hq]), Res.bind_ok,
      src32_eq h3 hr o.b (by intro q hq; simp [hm, hq]), Res.bind_ok, hv]

theorem writesWord_op3 (i : Instr) (o : Tri) (fn : Word → Word → Word → Word) (ho : o.ud = false)
    (hx : ∀ s, exec i s = op3 i o s fn) (hs : laneSpans i = triSpans o) (v : State → Fibre → Word)
    (hv : ∀ s x, v s x = fn (s.op32 x o.a) (s.op32 x o.b) (s.op32 x o.c)) : WritesWord i o.d v := by
  have hm : laneSpans i = (o.d.toNat, 1) :: (srcSpan 1 o.a ++ srcSpan 1 o.b ++ srcSpan 1 o.c) := by
    rw [hs]; simp [triSpans, dstSpan, ho]
  refine writesWord_of i o.d (fun _ s f => (src32 s f o.a).bind fun a => (src32 s f o.b).bind fun b =>
    (src32 s f o.c).bind fun c => .ok (fn a b c)) ?_ v (by simp [hm]) ?_
  · intro s; rw [hx, op3, ho]; rfl
  · intro s r f x F _ hr h3
    rw [src32_eq h3 hr o.a (by intro q hq; simp [hm, hq]), Res.bind_ok,
      src32_eq h3 hr o.b (by intro q hq; simp [hm, hq]), Res.bind_ok,
      src32_eq h3 hr o.c (by intro q hq; simp [hm, hq]), Res.bind_ok, hv]

/-- A 32-bit source and an immediate. -/
theorem writesWord_opImm (i : Instr) (o : ImmOp) (fn : Word → Word) (ho : o.ud = false)
    (hx : ∀ s, exec i s = opImm i o s fn) (hs : laneSpans i = immSpans o 1) (v : State → Fibre → Word)
    (hv : ∀ s x, v s x = fn (s.op32 x o.a)) : WritesWord i o.d v := by
  have hm : laneSpans i = (o.d.toNat, 1) :: srcSpan 1 o.a := by rw [hs]; simp [immSpans, dstSpan, ho]
  refine writesWord_of i o.d (fun _ s f => (src32 s f o.a).bind fun a => .ok (fn a)) ?_ v (by simp [hm]) ?_
  · intro s; rw [hx, opImm, ho]; rfl
  · intro s r f x F _ hr h3
    rw [src32_eq h3 hr o.a (by intro q hq; simp [hm, hq]), Res.bind_ok, hv]

/-- Two 64-bit sources; a 64-bit and a 32-bit source. -/
theorem writesPair_pair2 (i : Instr) (o : Bin) (fn : DWord → DWord → DWord) (ho : o.ud = false)
    (hx : ∀ s, exec i s = pair2 i o s fn) (hs : laneSpans i = binSpans o 2 2) (v : State → Fibre → DWord)
    (hv : ∀ s x, v s x = fn (s.op64 x o.a) (s.op64 x o.b)) : WritesPair i o.d v := by
  have hm : laneSpans i = (o.d.toNat, 2) :: (srcSpan 2 o.a ++ srcSpan 2 o.b) := by
    rw [hs]; simp [binSpans, dstSpan, ho]
  refine writesPair_of i o.d (fun _ s f => (src64 s f o.a).bind fun a => (src64 s f o.b).bind fun b => .ok (fn a b))
    ?_ v (by simp [hm]) ?_
  · intro s; rw [hx, pair2, ho]; rfl
  · intro s r f x F _ hr h3
    rw [src64_eq h3 hr o.a (by intro q hq; simp [hm, hq]), Res.bind_ok,
      src64_eq h3 hr o.b (by intro q hq; simp [hm, hq]), Res.bind_ok, hv]

theorem writesPair_pairBy (i : Instr) (o : Bin) (fn : DWord → Word → DWord) (ho : o.ud = false)
    (hx : ∀ s, exec i s = pairBy i o s fn) (hs : laneSpans i = binSpans o 2 1) (v : State → Fibre → DWord)
    (hv : ∀ s x, v s x = fn (s.op64 x o.a) (s.op32 x o.b)) : WritesPair i o.d v := by
  have hm : laneSpans i = (o.d.toNat, 2) :: (srcSpan 2 o.a ++ srcSpan 1 o.b) := by
    rw [hs]; simp [binSpans, dstSpan, ho]
  refine writesPair_of i o.d (fun _ s f => (src64 s f o.a).bind fun a => (src32 s f o.b).bind fun b => .ok (fn a b))
    ?_ v (by simp [hm]) ?_
  · intro s; rw [hx, pairBy, ho]; rfl
  · intro s r f x F _ hr h3
    rw [src64_eq h3 hr o.a (by intro q hq; simp [hm, hq]), Res.bind_ok,
      src32_eq h3 hr o.b (by intro q hq; simp [hm, hq]), Res.bind_ok, hv]

/-! ### The uniform forms -/

/-- The lowest acting fibre stands among lanes that do not act as it stood before they advanced. -/
theorem actor_kept (hI : Issuing s r) {g : Guard} {f : Nat} (hf : f ∈ actors s r g) :
    (advanceLanes s r (r.lanes &&& ~~~(guardMask s r g))).fib f = s.fib f := by
  obtain ⟨l, hl, hlf⟩ := mem_actors.1 hf
  have : tabGet (advanceLanes s r (r.lanes &&& ~~~(guardMask s r g))).fibres f = tabGet s.fibres f := by
    refine mem_advanceLanes s r _ f fun l' hl' hf' => ?_
    rw [Mask.mem_lanes_diff] at hl'
    have := hI.lane_unique (guardMask_lanes s r g l hl) hl'.1 hlf hf'
    subst this
    exact hl'.2 hl
  simp only [State.fib, tabGetD, this]

/-- Lanes that advance change the table of fibres only. -/
theorem advanceLanes_fibres (s : State) (r : Run) (m : Mask) :
    advanceLanes s r m = { s with fibres := (advanceLanes s r m).fibres } := by
  have h : ∀ (fs : List Nat) (s : State), s.modFibs fs (advanceFibre r)
      = { s with fibres := (s.modFibs fs (advanceFibre r)).fibres } := by
    intro fs
    induction fs with
    | nil => intro s; rfl
    | cons a q ih => intro s; exact ih (s.modFib a (advanceFibre r))
  exact h _ s

/-- A uniform register is written the same whatever the fibres' table holds beside its fibre. -/
theorem setSreg_table (s : State) (F : Tab Fibre) (f : Nat) (n : BitVec 8) (v : DWord)
    (h : ({ s with fibres := F } : State).fib f = s.fib f) :
    setSreg { s with fibres := F } f n v = { setSreg s f n v with fibres := F } := by
  simp only [setSreg, h]
  split
  · rfl
  · split <;> rfl

/-- What a uniform register reads as, whatever the fibres' table holds beside its fibre. -/
theorem sreg_table (s : State) (F : Tab Fibre) (f : Nat) (n : BitVec 8)
    (h : ({ s with fibres := F } : State).fib f = s.fib f) :
    sreg { s with fibres := F } f n = s.uniform (s.fib f) n := by
  simp only [sreg, State.uniform, h]
  rfl

theorem setSreg_fibres (s : State) (f : Nat) (n : BitVec 8) (v : DWord) : (setSreg s f n v).fibres = s.fibres := by
  unfold setSreg
  split
  · rfl
  · split <;> rfl

/-- Where the acting lanes go on after a uniform write, every active lane has gone on. -/
theorem uniform_done (hI : Issuing s r) (g : Guard) {f : Nat} {fs : List Nat} (ha : actors s r g = f :: fs) (ends : Bool)
    (d : BitVec 8) (v : DWord) :
    WordDone s r (settle s r ends (quiet ((setSreg (advanceLanes s r (r.lanes &&& ~~~guardMask s r g)) f d v).modFibs
      (f :: fs) (advanceFibre r)))) := by
  have hs : ∀ (u : State), (setSreg u f d v).runs = u.runs := by
    intro u
    unfold setSreg
    split
    · rfl
    · split <;> rfl
  refine settle_done hI _ ends ?_ fun l hl h hf hi => ?_
  · rw [State.modFibs_runs, hs, advanceLanes_runs]
  obtain ⟨x, hx, -⟩ := hI.fibre_eq hl hf
  have hpres : (tabGet (advanceLanes s r (r.lanes &&& ~~~guardMask s r g)).fibres h).isSome := by
    have := (advanceLanes_still s r (r.lanes &&& ~~~guardMask s r g)).fibre h
    rw [hx] at this
    cases hg : tabGet (advanceLanes s r (r.lanes &&& ~~~guardMask s r g)).fibres h with
    | none => rw [hg] at this; cases this
    | some y => rfl
  by_cases hh : h ∈ f :: fs
  · exact modFibs_advance _ _ h hh hi (by rw [setSreg_fibres]; exact hpres)
  · have hn : l ∉ (guardMask s r g).lanes := fun e => hh (ha ▸ mem_actors.2 ⟨l, e, hf⟩)
    have e : tabGet ((setSreg (advanceLanes s r (r.lanes &&& ~~~guardMask s r g)) f d v).modFibs (f :: fs)
        (advanceFibre r)).fibres h = tabGet (advanceLanes s r (r.lanes &&& ~~~guardMask s r g)).fibres h := by
      rw [modFibs_other _ _ _ _ hh, setSreg_fibres]
    rw [State.fib, tabGetD, e]
    exact advanceLanes_place hI _ l h hl hf hn hi

/-- A uniform instruction writes its register once, whichever lanes act beside the lowest. -/
theorem writesUniform_of (i : Instr) (d : BitVec 8) (val : State → State → Nat → DWord)
    (hx : ∀ s, exec i s = uniform i d s (val s)) (v : State → Fibre → DWord)
    (hv : ∀ s r f F, s.runs.head? = some r → ({ s with fibres := F } : State).fib f = s.fib f →
      val s { s with fibres := F } f = v s (s.fib f)) :
    WritesUniform i d v := by
  intro s r hI
  refine ⟨fun f fs ha => ?_, fun ha => hx s ▸ perFlock_none hI i _ ha⟩
  obtain ⟨rest, hr⟩ := hI.head
  have hk := actor_kept hI (g := i.guard) (f := f) (by rw [ha]; simp)
  rw [advanceLanes_fibres] at hk
  refine ⟨_, (hx s).trans (perFlock_eq hI i _ ha _ rfl), ?_, uniform_done hI i.guard ha _ d _⟩
  refine Still.trans ?_ ((Still.modFibs _ _ _ (advanceFibre_still r)).trans (settle_still _ _ _ _))
  rw [advanceLanes_fibres, hv s r f _ (by simp [hr]) hk, setSreg_table _ _ _ _ _ hk]
  refine ⟨rfl, fun h => ?_, fun _ => rfl, fun _ => rfl, fun _ => rfl⟩
  rw [setSreg_fibres]
  exact (advanceLanes_still s r _).fibre h

/-- One, two and three 32-bit sources, in both forms. -/
theorem computes1_of (i : Instr) (o : Un) (fn : Word → Word) (hx : ∀ s, exec i s = op1 i o s fn)
    (hs : laneSpans i = unSpans o 1) : Computes1 i o fn := by
  refine ⟨fun ho => writesWord_op1 i o fn ho hx hs _ fun _ _ => rfl, fun ho => ?_⟩
  refine writesUniform_of i o.d (fun _ s f => (fn (uni32 s f o.a)).setWidth 64) (fun s => by rw [hx, op1, ho]; rfl) _ ?_
  intro s r f F _ h
  simp only [uni32, lowWord, sreg_table _ _ _ _ h]

theorem computes2_of (i : Instr) (o : Bin) (fn : Word → Word → Word) (hx : ∀ s, exec i s = op2 i o s fn)
    (hs : laneSpans i = binSpans o 1 1) : Computes2 i o fn := by
  refine ⟨fun ho => writesWord_op2 i o fn ho hx hs _ fun _ _ => rfl, fun ho => ?_⟩
  refine writesUniform_of i o.d (fun _ s f => (fn (uni32 s f o.a) (uni32 s f o.b)).setWidth 64)
    (fun s => by rw [hx, op2, ho]; rfl) _ ?_
  intro s r f F _ h
  simp only [uni32, lowWord, sreg_table _ _ _ _ h]

theorem computes3_of (i : Instr) (o : Tri) (fn : Word → Word → Word → Word) (hx : ∀ s, exec i s = op3 i o s fn)
    (hs : laneSpans i = triSpans o) : Computes3 i o fn := by
  refine ⟨fun ho => writesWord_op3 i o fn ho hx hs _ fun _ _ => rfl, fun ho => ?_⟩
  refine writesUniform_of i o.d (fun _ s f => (fn (uni32 s f o.a) (uni32 s f o.b) (uni32 s f o.c)).setWidth 64)
    (fun s => by rw [hx, op3, ho]; rfl) _ ?_
  intro s r f F _ h
  simp only [uni32, lowWord, sreg_table _ _ _ _ h]

theorem computesImm_of (i : Instr) (o : ImmOp) (fn : Word → Word) (hx : ∀ s, exec i s = opImm i o s fn)
    (hs : laneSpans i = immSpans o 1) : ComputesImm i o fn := by
  refine ⟨fun ho => writesWord_opImm i o fn ho hx hs _ fun _ _ => rfl, fun ho => ?_⟩
  refine writesUniform_of i o.d (fun _ s f => (fn (uni32 s f o.a)).setWidth 64) (fun s => by rw [hx, opImm, ho]; rfl) _ ?_
  intro s r f F _ h
  simp only [uni32, lowWord, sreg_table _ _ _ _ h]

theorem computesPair_of (i : Instr) (o : Bin) (fn : DWord → DWord → DWord) (hx : ∀ s, exec i s = pair2 i o s fn)
    (hs : laneSpans i = binSpans o 2 2) : ComputesPair i o fn := by
  refine ⟨fun ho => writesPair_pair2 i o fn ho hx hs _ fun _ _ => rfl, fun ho => ?_⟩
  refine writesUniform_of i o.d (fun _ s f => fn (uni64 s f o.a) (uni64 s f o.b)) (fun s => by rw [hx, pair2, ho]; rfl) _ ?_
  intro s r f F _ h
  simp only [uni64, sreg_table _ _ _ _ h]

theorem computesPairBy_of (i : Instr) (o : Bin) (fn : DWord → Word → DWord) (hx : ∀ s, exec i s = pairBy i o s fn)
    (hs : laneSpans i = binSpans o 2 1) : ComputesPairBy i o fn := by
  refine ⟨fun ho => writesPair_pairBy i o fn ho hx hs _ fun _ _ => rfl, fun ho => ?_⟩
  refine writesUniform_of i o.d (fun _ s f => fn (uni64 s f o.a) (uni32 s f o.b))
    (fun s => by rw [hx, pairBy, ho]; rfl) _ ?_
  intro s r f F _ h
  simp only [uni64, uni32, lowWord, sreg_table _ _ _ _ h]

end Sys2Proof.Machine
end

