-- ==== Sys2Proof/Laws/PerInstr.lean ====
section
/-! SUPPORT. One lemma per constructor: the decoder reads the encoder's word back as the same instruction (R75 to R86). -/

namespace Sys2Proof

theorem RegReads.bit0 {w op : Nat} {g : Guard} {d : Nat} {a b c : Src} {ud : Bool} {fn : Nat} (h : RegReads w op g d a b c ud fn) : bitOf w 5 = bitOf fn 0 := bitOf_sub (k := 0) h.fn (by decide)
theorem RegReads.bits0_2 {w op : Nat} {g : Guard} {d : Nat} {a b c : Src} {ud : Bool} {fn : Nat} (h : RegReads w op g d a b c ud fn) : bitsOf w 5 2 = bitsOf fn 0 2 := bitsOf_sub (k := 0) h.fn (by decide)
theorem RegReads.bits0_3 {w op : Nat} {g : Guard} {d : Nat} {a b c : Src} {ud : Bool} {fn : Nat} (h : RegReads w op g d a b c ud fn) : bitsOf w 5 3 = bitsOf fn 0 3 := bitsOf_sub (k := 0) h.fn (by decide)
theorem RegReads.bit1 {w op : Nat} {g : Guard} {d : Nat} {a b c : Src} {ud : Bool} {fn : Nat} (h : RegReads w op g d a b c ud fn) : bitOf w 6 = bitOf fn 1 := bitOf_sub (k := 1) h.fn (by decide)
theorem RegReads.bit2 {w op : Nat} {g : Guard} {d : Nat} {a b c : Src} {ud : Bool} {fn : Nat} (h : RegReads w op g d a b c ud fn) : bitOf w 7 = bitOf fn 2 := bitOf_sub (k := 2) h.fn (by decide)
theorem RegReads.bits2_2 {w op : Nat} {g : Guard} {d : Nat} {a b c : Src} {ud : Bool} {fn : Nat} (h : RegReads w op g d a b c ud fn) : bitsOf w 7 2 = bitsOf fn 2 2 := bitsOf_sub (k := 2) h.fn (by decide)
theorem RegReads.bits2_3 {w op : Nat} {g : Guard} {d : Nat} {a b c : Src} {ud : Bool} {fn : Nat} (h : RegReads w op g d a b c ud fn) : bitsOf w 7 3 = bitsOf fn 2 3 := bitsOf_sub (k := 2) h.fn (by decide)
theorem RegReads.bits2_4 {w op : Nat} {g : Guard} {d : Nat} {a b c : Src} {ud : Bool} {fn : Nat} (h : RegReads w op g d a b c ud fn) : bitsOf w 7 4 = bitsOf fn 2 4 := bitsOf_sub (k := 2) h.fn (by decide)
theorem RegReads.bits3_3 {w op : Nat} {g : Guard} {d : Nat} {a b c : Src} {ud : Bool} {fn : Nat} (h : RegReads w op g d a b c ud fn) : bitsOf w 8 3 = bitsOf fn 3 3 := bitsOf_sub (k := 3) h.fn (by decide)
theorem RegReads.bit4 {w op : Nat} {g : Guard} {d : Nat} {a b c : Src} {ud : Bool} {fn : Nat} (h : RegReads w op g d a b c ud fn) : bitOf w 9 = bitOf fn 4 := bitOf_sub (k := 4) h.fn (by decide)
theorem RegReads.bit5 {w op : Nat} {g : Guard} {d : Nat} {a b c : Src} {ud : Bool} {fn : Nat} (h : RegReads w op g d a b c ud fn) : bitOf w 10 = bitOf fn 5 := bitOf_sub (k := 5) h.fn (by decide)
theorem RegReads.bits5_3 {w op : Nat} {g : Guard} {d : Nat} {a b c : Src} {ud : Bool} {fn : Nat} (h : RegReads w op g d a b c ud fn) : bitsOf w 10 3 = bitsOf fn 5 3 := bitsOf_sub (k := 5) h.fn (by decide)
theorem RegReads.bits6_2 {w op : Nat} {g : Guard} {d : Nat} {a b c : Src} {ud : Bool} {fn : Nat} (h : RegReads w op g d a b c ud fn) : bitsOf w 11 2 = bitsOf fn 6 2 := bitsOf_sub (k := 6) h.fn (by decide)
theorem ImmReads.bits0_2 {w op : Nat} {g : Guard} {d : Nat} {a : Src} {ud : Bool} {fn imm : Nat} (h : ImmReads w op g d a ud fn imm) : bitsOf w 25 2 = bitsOf fn 0 2 := bitsOf_sub (k := 0) h.fn (by decide)
theorem ImmReads.bit2 {w op : Nat} {g : Guard} {d : Nat} {a : Src} {ud : Bool} {fn imm : Nat} (h : ImmReads w op g d a ud fn imm) : bitOf w 27 = bitOf fn 2 := bitOf_sub (k := 2) h.fn (by decide)
theorem ImmReads.bits3_3 {w op : Nat} {g : Guard} {d : Nat} {a : Src} {ud : Bool} {fn imm : Nat} (h : ImmReads w op g d a ud fn imm) : bitsOf w 28 3 = bitsOf fn 3 3 := bitsOf_sub (k := 3) h.fn (by decide)
theorem EngReads.bit0 {w op : Nat} {g : Guard} {d : Nat} {a b c : Src} {ft : Ft} {ef : Nat} (h : EngReads w op g d a b c ft ef) : bitOf w 5 = bitOf ef 0 := bitOf_sub (k := 0) h.ef (by decide)
theorem EngReads.bits0_2 {w op : Nat} {g : Guard} {d : Nat} {a b c : Src} {ft : Ft} {ef : Nat} (h : EngReads w op g d a b c ft ef) : bitsOf w 5 2 = bitsOf ef 0 2 := bitsOf_sub (k := 0) h.ef (by decide)
theorem EngReads.bits0_3 {w op : Nat} {g : Guard} {d : Nat} {a b c : Src} {ft : Ft} {ef : Nat} (h : EngReads w op g d a b c ft ef) : bitsOf w 5 3 = bitsOf ef 0 3 := bitsOf_sub (k := 0) h.ef (by decide)
theorem EngReads.bit1 {w op : Nat} {g : Guard} {d : Nat} {a b c : Src} {ft : Ft} {ef : Nat} (h : EngReads w op g d a b c ft ef) : bitOf w 6 = bitOf ef 1 := bitOf_sub (k := 1) h.ef (by decide)
theorem EngReads.bits2_2 {w op : Nat} {g : Guard} {d : Nat} {a b c : Src} {ft : Ft} {ef : Nat} (h : EngReads w op g d a b c ft ef) : bitsOf w 7 2 = bitsOf ef 2 2 := bitsOf_sub (k := 2) h.ef (by decide)
theorem EngReads.bits3_3 {w op : Nat} {g : Guard} {d : Nat} {a b c : Src} {ft : Ft} {ef : Nat} (h : EngReads w op g d a b c ft ef) : bitsOf w 8 3 = bitsOf ef 3 3 := bitsOf_sub (k := 3) h.ef (by decide)
theorem EngReads.bit6 {w op : Nat} {g : Guard} {d : Nat} {a b c : Src} {ft : Ft} {ef : Nat} (h : EngReads w op g d a b c ft ef) : bitOf w 11 = bitOf ef 6 := bitOf_sub (k := 6) h.ef (by decide)
theorem AtmReads.bits0_4 {w op : Nat} {g : Guard} {m : AtmF} {c : Nat} (h : AtmReads w op g m c) : bitsOf w 17 4 = bitsOf c 0 4 := bitsOf_sub (k := 0) h.c (by decide)
theorem AtmReads.bit4 {w op : Nat} {g : Guard} {m : AtmF} {c : Nat} (h : AtmReads w op g m c) : bitOf w 21 = bitOf c 4 := bitOf_sub (k := 4) h.c (by decide)
theorem BrnReads.bits0_8 {w op : Nat} {g : Guard} {d off md : Nat} (h : BrnReads w op g d off md) : bitsOf w 5 8 = bitsOf md 0 8 := bitsOf_sub (k := 0) h.md (by decide)
theorem BrnReads.bit8 {w op : Nat} {g : Guard} {d off md : Nat} (h : BrnReads w op g d off md) : bitOf w 13 = bitOf md 8 := bitOf_sub (k := 8) h.md (by decide)

end Sys2Proof

namespace Sys2Proof.Laws

/-- The decoder gives an instruction back from the word the encoder writes for it, and that word has 64 bits. -/
def RoundTrip.Statement (i : Instr) : Prop :=
  ∀ w, i.fieldsListed = true → encode i = some w → decodeWord w = .ok i ∧ w < 2 ^ 64


theorem cross_bits {p m : Nat} (d : Bool) (hp : p < 4) (hm : m < 16) : fnCross p m d < 256 ∧
    bitsOf (fnCross p m d) 6 2 = p ∧ bitsOf (fnCross p m d) 2 4 = m ∧ bitOf (fnCross p m d) 1 = d := by
  have hd := natOfBool_lt d
  unfold fnCross
  refine ⟨by omega, by unfold bitsOf; omega, by unfold bitsOf; omega, bitOf_of (by omega)⟩

theorem group_lt (p : Group) : p.code < 4 := by cases p <;> decide
theorem part_lt (p : Part) : p.code < 4 := by
  cases p with
  | fixed g => exact group_lt g
  | mask c => exact (by decide : 3 < 4)
theorem part_back (p : Part) : (if p.code = 3 then some (Part.mask p.src) else (Group.ofCode p.code).map .fixed) = some p := by
  cases p with
  | fixed g => cases g <;> rfl
  | mask c => rfl
theorem vote_back (m : VoteMode) : m.code < 16 ∧ VoteMode.ofCode m.code = some m := by cases m <;> decide
theorem redu_back (m : ReduOp) : m.code < 16 ∧ ReduOp.ofCode m.code = some m := by cases m <;> decide
theorem movu_back (m : MovuSel) : m.code < 16 ∧ MovuSel.ofCode m.code = some m := by
  rcases m with _ | _ | n
  · decide
  · decide
  · revert n; decide
theorem ksel_back (m : KSel) : m.code < 256 ∧ kselOf (bitsOf m.code 0 3) m.src = some m := by
  cases m <;> simp [KSel.code, KSel.src, bitsOf, kselOf]
theorem three_bits (n : BitVec 3) : ∀ w : SlotW, (BitVec.ofNat 3 (bitsOf (w.code * 2 ^ 6 + n.toNat * 2 ^ 3) 3 3) = n ∧
    SlotW.ofCode (bitsOf (w.code * 2 ^ 6 + n.toNat * 2 ^ 3) 6 2) = some w ∧ w.code * 2 ^ 6 + n.toNat * 2 ^ 3 < 256) ∧
    ∀ s, BitVec.ofNat 3 (bitsOf (w.code * 2 ^ 6 + n.toNat * 2 ^ 3 + natOfBool s * 2 ^ 2) 3 3) = n ∧
      SlotW.ofCode (bitsOf (w.code * 2 ^ 6 + n.toNat * 2 ^ 3 + natOfBool s * 2 ^ 2) 6 2) = some w ∧
      bitOf (w.code * 2 ^ 6 + n.toNat * 2 ^ 3 + natOfBool s * 2 ^ 2) 2 = s ∧
      w.code * 2 ^ 6 + n.toNat * 2 ^ 3 + natOfBool s * 2 ^ 2 < 256 := by
  intro w
  revert n
  cases w <;> decide
theorem qst_bits (n : QstN) (cy : BitVec 3) (k : Bool) :
    QstN.ofCode (bitsOf (natOfBool k * 2 ^ 6 + n.code * 2 ^ 3 + cy.toNat) 3 3) = some n ∧
    BitVec.ofNat 3 (bitsOf (natOfBool k * 2 ^ 6 + n.code * 2 ^ 3 + cy.toNat) 0 3) = cy ∧
    bitOf (natOfBool k * 2 ^ 6 + n.code * 2 ^ 3 + cy.toNat) 6 = k ∧
    natOfBool k * 2 ^ 6 + n.code * 2 ^ 3 + cy.toNat < 128 := by
  revert cy
  cases n <;> cases k <;> decide
theorem acc_bits (n : AccN) (b : BitVec 2) : AccN.ofCode (bitsOf (n.code * 2 ^ 2 + b.toNat) 2 2) = some n ∧
    BitVec.ofNat 2 (bitsOf (n.code * 2 ^ 2 + b.toNat) 0 2) = b ∧ n.code * 2 ^ 2 + b.toNat < 128 := by
  revert b
  cases n <;> decide
theorem bitsOf_toNat {n : Nat} (b : BitVec n) : BitVec.ofNat n (bitsOf b.toNat 0 n) = b := by
  have := b.isLt
  simp [bitsOf]
theorem pairs_of {w : Nat} {n : BitVec 2} (h : fieldA w = n.setWidth 8) : BitVec.ofNat 2 (bitsOf w 33 2) = n :=
  two_of (by rw [bits_of_field h]; have := n.isLt; simp; omega)
theorem src_bits (k : Src) : k.num.toNat + natOfBool k.uniform * 2 ^ 8 < 4096 ∧
    srcOf (bitOf (k.num.toNat + natOfBool k.uniform * 2 ^ 8) 8)
      (BitVec.ofNat 8 (bitsOf (k.num.toNat + natOfBool k.uniform * 2 ^ 8) 0 8)) = k := by
  have h1 := k.num.isLt
  have h2 := natOfBool_lt k.uniform
  refine ⟨by omega, ?_⟩
  rw [bitOf_of (b := k.uniform) (by omega), field_of (v := k.num) (by unfold bitsOf; omega), srcOf_num]

theorem RoundTrip.add (g : Guard) (o : Bin) (s : Sat) : RoundTrip.Statement (.add g o s) := by
  intro x hl he
  have hw : packReg 0x000 g o.d.toNat o.a o.b .absent o.ud s.code = x := Option.some.inj he
  have h := packReg_reads 0x000 g o.d.toNat o.a o.b .absent o.ud s.code (by decide) o.d.isLt (by cases s <;> decide)
  rw [hw] at h
  refine ⟨decodeWord_of (by rw [h.op]; rfl) h.low ?_ hl he (fun h => nomatch h), h.lt⟩
  rw [h.op]
  show ((Sat.ofCode (regFn x)).map (.add (guardOf x) (regBin x)) : Option Instr) = _
  simp only [regBin, regFn, h.guard, h.a, h.b, h.ud, fieldD_of h.d, h.fn]
  all_goals (cases s <;> rfl)

theorem RoundTrip.sub (g : Guard) (o : Bin) (s : Sat) : RoundTrip.Statement (.sub g o s) := by
  intro x hl he
  have hw : packReg 0x001 g o.d.toNat o.a o.b .absent o.ud s.code = x := Option.some.inj he
  have h := packReg_reads 0x001 g o.d.toNat o.a o.b .absent o.ud s.code (by decide) o.d.isLt (by cases s <;> decide)
  rw [hw] at h
  refine ⟨decodeWord_of (by rw [h.op]; rfl) h.low ?_ hl he (fun h => nomatch h), h.lt⟩
  rw [h.op]
  show ((Sat.ofCode (regFn x)).map (.sub (guardOf x) (regBin x)) : Option Instr) = _
  simp only [regBin, regFn, h.guard, h.a, h.b, h.ud, fieldD_of h.d, h.fn]
  all_goals (cases s <;> rfl)

theorem RoundTrip.mul (g : Guard) (o : Bin) : RoundTrip.Statement (.mul g o) := by
  intro x hl he
  have hw : packReg 0x002 g o.d.toNat o.a o.b .absent o.ud 0 = x := Option.some.inj he
  have h := packReg_reads 0x002 g o.d.toNat o.a o.b .absent o.ud 0 (by decide) o.d.isLt (by decide)
  rw [hw] at h
  refine ⟨decodeWord_of (by rw [h.op]; rfl) h.low ?_ hl he (fun h => nomatch h), h.lt⟩
  rw [h.op]
  show (some (.mul (guardOf x) (regBin x)) : Option Instr) = _
  simp only [regBin, h.guard, h.a, h.b, h.ud, fieldD_of h.d]

theorem RoundTrip.mulhi (g : Guard) (o : Bin) (u : Bool) : RoundTrip.Statement (.mulhi g o u) := by
  intro x hl he
  have hw : packReg 0x003 g o.d.toNat o.a o.b .absent o.ud (natOfBool u) = x := Option.some.inj he
  have h := packReg_reads 0x003 g o.d.toNat o.a o.b .absent o.ud (natOfBool u) (by decide) o.d.isLt (Nat.lt_trans (natOfBool_lt _) (by decide))
  rw [hw] at h
  refine ⟨decodeWord_of (by rw [h.op]; rfl) h.low ?_ hl he (fun h => nomatch h), h.lt⟩
  rw [h.op]
  show (some (.mulhi (guardOf x) (regBin x) (regFn0 x)) : Option Instr) = _
  simp only [regBin, regFn0, h.guard, h.a, h.b, h.ud, fieldD_of h.d, h.bit0]
  all_goals (cases u <;> rfl)

theorem RoundTrip.mad (g : Guard) (o : Tri) : RoundTrip.Statement (.mad g o) := by
  intro x hl he
  have hw : packReg 0x004 g o.d.toNat o.a o.b o.c o.ud 0 = x := Option.some.inj he
  have h := packReg_reads 0x004 g o.d.toNat o.a o.b o.c o.ud 0 (by decide) o.d.isLt (by decide)
  rw [hw] at h
  refine ⟨decodeWord_of (by rw [h.op]; rfl) h.low ?_ hl he (fun h => nomatch h), h.lt⟩
  rw [h.op]
  show (some (.mad (guardOf x) (regTri x)) : Option Instr) = _
  simp only [regTri, h.guard, h.a, h.b, h.c, h.ud, fieldD_of h.d]

theorem RoundTrip.div (g : Guard) (o : Bin) (u : Bool) : RoundTrip.Statement (.div g o u) := by
  intro x hl he
  have hw : packReg 0x005 g o.d.toNat o.a o.b .absent o.ud (natOfBool u) = x := Option.some.inj he
  have h := packReg_reads 0x005 g o.d.toNat o.a o.b .absent o.ud (natOfBool u) (by decide) o.d.isLt (Nat.lt_trans (natOfBool_lt _) (by decide))
  rw [hw] at h
  refine ⟨decodeWord_of (by rw [h.op]; rfl) h.low ?_ hl he (fun h => nomatch h), h.lt⟩
  rw [h.op]
  show (some (.div (guardOf x) (regBin x) (regFn0 x)) : Option Instr) = _
  simp only [regBin, regFn0, h.guard, h.a, h.b, h.ud, fieldD_of h.d, h.bit0]
  all_goals (cases u <;> rfl)

theorem RoundTrip.rem (g : Guard) (o : Bin) (u : Bool) : RoundTrip.Statement (.rem g o u) := by
  intro x hl he
  have hw : packReg 0x006 g o.d.toNat o.a o.b .absent o.ud (natOfBool u) = x := Option.some.inj he
  have h := packReg_reads 0x006 g o.d.toNat o.a o.b .absent o.ud (natOfBool u) (by decide) o.d.isLt (Nat.lt_trans (natOfBool_lt _) (by decide))
  rw [hw] at h
  refine ⟨decodeWord_of (by rw [h.op]; rfl) h.low ?_ hl he (fun h => nomatch h), h.lt⟩
  rw [h.op]
  show (some (.rem (guardOf x) (regBin x) (regFn0 x)) : Option Instr) = _
  simp only [regBin, regFn0, h.guard, h.a, h.b, h.ud, fieldD_of h.d, h.bit0]
  all_goals (cases u <;> rfl)

theorem RoundTrip.min (g : Guard) (o : Bin) (u : Bool) : RoundTrip.Statement (.min g o u) := by
  intro x hl he
  have hw : packReg 0x007 g o.d.toNat o.a o.b .absent o.ud (natOfBool u) = x := Option.some.inj he
  have h := packReg_reads 0x007 g o.d.toNat o.a o.b .absent o.ud (natOfBool u) (by decide) o.d.isLt (Nat.lt_trans (natOfBool_lt _) (by decide))
  rw [hw] at h
  refine ⟨decodeWord_of (by rw [h.op]; rfl) h.low ?_ hl he (fun h => nomatch h), h.lt⟩
  rw [h.op]
  show (some (.min (guardOf x) (regBin x) (regFn0 x)) : Option Instr) = _
  simp only [regBin, regFn0, h.guard, h.a, h.b, h.ud, fieldD_of h.d, h.bit0]
  all_goals (cases u <;> rfl)

theorem RoundTrip.max (g : Guard) (o : Bin) (u : Bool) : RoundTrip.Statement (.max g o u) := by
  intro x hl he
  have hw : packReg 0x008 g o.d.toNat o.a o.b .absent o.ud (natOfBool u) = x := Option.some.inj he
  have h := packReg_reads 0x008 g o.d.toNat o.a o.b .absent o.ud (natOfBool u) (by decide) o.d.isLt (Nat.lt_trans (natOfBool_lt _) (by decide))
  rw [hw] at h
  refine ⟨decodeWord_of (by rw [h.op]; rfl) h.low ?_ hl he (fun h => nomatch h), h.lt⟩
  rw [h.op]
  show (some (.max (guardOf x) (regBin x) (regFn0 x)) : Option Instr) = _
  simp only [regBin, regFn0, h.guard, h.a, h.b, h.ud, fieldD_of h.d, h.bit0]
  all_goals (cases u <;> rfl)

theorem RoundTrip.and (g : Guard) (o : Bin) (n : Bool) : RoundTrip.Statement (.and g o n) := by
  intro x hl he
  have hw : packReg 0x009 g o.d.toNat o.a o.b .absent o.ud (natOfBool n) = x := Option.some.inj he
  have h := packReg_reads 0x009 g o.d.toNat o.a o.b .absent o.ud (natOfBool n) (by decide) o.d.isLt (Nat.lt_trans (natOfBool_lt _) (by decide))
  rw [hw] at h
  refine ⟨decodeWord_of (by rw [h.op]; rfl) h.low ?_ hl he (fun h => nomatch h), h.lt⟩
  rw [h.op]
  show (some (.and (guardOf x) (regBin x) (regFn0 x)) : Option Instr) = _
  simp only [regBin, regFn0, h.guard, h.a, h.b, h.ud, fieldD_of h.d, h.bit0]
  all_goals (cases n <;> rfl)

theorem RoundTrip.or (g : Guard) (o : Bin) (n : Bool) : RoundTrip.Statement (.or g o n) := by
  intro x hl he
  have hw : packReg 0x00A g o.d.toNat o.a o.b .absent o.ud (natOfBool n) = x := Option.some.inj he
  have h := packReg_reads 0x00A g o.d.toNat o.a o.b .absent o.ud (natOfBool n) (by decide) o.d.isLt (Nat.lt_trans (natOfBool_lt _) (by decide))
  rw [hw] at h
  refine ⟨decodeWord_of (by rw [h.op]; rfl) h.low ?_ hl he (fun h => nomatch h), h.lt⟩
  rw [h.op]
  show (some (.or (guardOf x) (regBin x) (regFn0 x)) : Option Instr) = _
  simp only [regBin, regFn0, h.guard, h.a, h.b, h.ud, fieldD_of h.d, h.bit0]
  all_goals (cases n <;> rfl)

theorem RoundTrip.xor (g : Guard) (o : Bin) (n : Bool) : RoundTrip.Statement (.xor g o n) := by
  intro x hl he
  have hw : packReg 0x00B g o.d.toNat o.a o.b .absent o.ud (natOfBool n) = x := Option.some.inj he
  have h := packReg_reads 0x00B g o.d.toNat o.a o.b .absent o.ud (natOfBool n) (by decide) o.d.isLt (Nat.lt_trans (natOfBool_lt _) (by decide))
  rw [hw] at h
  refine ⟨decodeWord_of (by rw [h.op]; rfl) h.low ?_ hl he (fun h => nomatch h), h.lt⟩
  rw [h.op]
  show (some (.xor (guardOf x) (regBin x) (regFn0 x)) : Option Instr) = _
  simp only [regBin, regFn0, h.guard, h.a, h.b, h.ud, fieldD_of h.d, h.bit0]
  all_goals (cases n <;> rfl)

theorem RoundTrip.shl (g : Guard) (o : Bin) : RoundTrip.Statement (.shl g o) := by
  intro x hl he
  have hw : packReg 0x00C g o.d.toNat o.a o.b .absent o.ud 0 = x := Option.some.inj he
  have h := packReg_reads 0x00C g o.d.toNat o.a o.b .absent o.ud 0 (by decide) o.d.isLt (by decide)
  rw [hw] at h
  refine ⟨decodeWord_of (by rw [h.op]; rfl) h.low ?_ hl he (fun h => nomatch h), h.lt⟩
  rw [h.op]
  show (some (.shl (guardOf x) (regBin x)) : Option Instr) = _
  simp only [regBin, h.guard, h.a, h.b, h.ud, fieldD_of h.d]

theorem RoundTrip.shr (g : Guard) (o : Bin) : RoundTrip.Statement (.shr g o) := by
  intro x hl he
  have hw : packReg 0x00D g o.d.toNat o.a o.b .absent o.ud 0 = x := Option.some.inj he
  have h := packReg_reads 0x00D g o.d.toNat o.a o.b .absent o.ud 0 (by decide) o.d.isLt (by decide)
  rw [hw] at h
  refine ⟨decodeWord_of (by rw [h.op]; rfl) h.low ?_ hl he (fun h => nomatch h), h.lt⟩
  rw [h.op]
  show (some (.shr (guardOf x) (regBin x)) : Option Instr) = _
  simp only [regBin, h.guard, h.a, h.b, h.ud, fieldD_of h.d]

theorem RoundTrip.sar (g : Guard) (o : Bin) : RoundTrip.Statement (.sar g o) := by
  intro x hl he
  have hw : packReg 0x00E g o.d.toNat o.a o.b .absent o.ud 0 = x := Option.some.inj he
  have h := packReg_reads 0x00E g o.d.toNat o.a o.b .absent o.ud 0 (by decide) o.d.isLt (by decide)
  rw [hw] at h
  refine ⟨decodeWord_of (by rw [h.op]; rfl) h.low ?_ hl he (fun h => nomatch h), h.lt⟩
  rw [h.op]
  show (some (.sar (guardOf x) (regBin x)) : Option Instr) = _
  simp only [regBin, h.guard, h.a, h.b, h.ud, fieldD_of h.d]

theorem RoundTrip.rot (g : Guard) (o : Bin) : RoundTrip.Statement (.rot g o) := by
  intro x hl he
  have hw : packReg 0x00F g o.d.toNat o.a o.b .absent o.ud 0 = x := Option.some.inj he
  have h := packReg_reads 0x00F g o.d.toNat o.a o.b .absent o.ud 0 (by decide) o.d.isLt (by decide)
  rw [hw] at h
  refine ⟨decodeWord_of (by rw [h.op]; rfl) h.low ?_ hl he (fun h => nomatch h), h.lt⟩
  rw [h.op]
  show (some (.rot (guardOf x) (regBin x)) : Option Instr) = _
  simp only [regBin, h.guard, h.a, h.b, h.ud, fieldD_of h.d]

theorem RoundTrip.bfx (g : Guard) (o : Bin) (s : Bool) : RoundTrip.Statement (.bfx g o s) := by
  intro x hl he
  have hw : packReg 0x010 g o.d.toNat o.a o.b .absent o.ud (natOfBool s) = x := Option.some.inj he
  have h := packReg_reads 0x010 g o.d.toNat o.a o.b .absent o.ud (natOfBool s) (by decide) o.d.isLt (Nat.lt_trans (natOfBool_lt _) (by decide))
  rw [hw] at h
  refine ⟨decodeWord_of (by rw [h.op]; rfl) h.low ?_ hl he (fun h => nomatch h), h.lt⟩
  rw [h.op]
  show (some (.bfx (guardOf x) (regBin x) (regFn0 x)) : Option Instr) = _
  simp only [regBin, regFn0, h.guard, h.a, h.b, h.ud, fieldD_of h.d, h.bit0]
  all_goals (cases s <;> rfl)

theorem RoundTrip.bfi (g : Guard) (o : Tri) : RoundTrip.Statement (.bfi g o) := by
  intro x hl he
  have hw : packReg 0x011 g o.d.toNat o.a o.b o.c o.ud 0 = x := Option.some.inj he
  have h := packReg_reads 0x011 g o.d.toNat o.a o.b o.c o.ud 0 (by decide) o.d.isLt (by decide)
  rw [hw] at h
  refine ⟨decodeWord_of (by rw [h.op]; rfl) h.low ?_ hl he (fun h => nomatch h), h.lt⟩
  rw [h.op]
  show (some (.bfi (guardOf x) (regTri x)) : Option Instr) = _
  simp only [regTri, h.guard, h.a, h.b, h.c, h.ud, fieldD_of h.d]

theorem RoundTrip.clz (g : Guard) (o : Un) : RoundTrip.Statement (.clz g o) := by
  intro x hl he
  have hw : packReg 0x012 g o.d.toNat o.a .absent .absent o.ud 0 = x := Option.some.inj he
  have h := packReg_reads 0x012 g o.d.toNat o.a .absent .absent o.ud 0 (by decide) o.d.isLt (by decide)
  rw [hw] at h
  refine ⟨decodeWord_of (by rw [h.op]; rfl) h.low ?_ hl he (fun h => nomatch h), h.lt⟩
  rw [h.op]
  show (some (.clz (guardOf x) (regUn x)) : Option Instr) = _
  simp only [regUn, h.guard, h.a, h.ud, fieldD_of h.d]

theorem RoundTrip.popc (g : Guard) (o : Un) : RoundTrip.Statement (.popc g o) := by
  intro x hl he
  have hw : packReg 0x013 g o.d.toNat o.a .absent .absent o.ud 0 = x := Option.some.inj he
  have h := packReg_reads 0x013 g o.d.toNat o.a .absent .absent o.ud 0 (by decide) o.d.isLt (by decide)
  rw [hw] at h
  refine ⟨decodeWord_of (by rw [h.op]; rfl) h.low ?_ hl he (fun h => nomatch h), h.lt⟩
  rw [h.op]
  show (some (.popc (guardOf x) (regUn x)) : Option Instr) = _
  simp only [regUn, h.guard, h.a, h.ud, fieldD_of h.d]

theorem RoundTrip.brev (g : Guard) (o : Un) : RoundTrip.Statement (.brev g o) := by
  intro x hl he
  have hw : packReg 0x014 g o.d.toNat o.a .absent .absent o.ud 0 = x := Option.some.inj he
  have h := packReg_reads 0x014 g o.d.toNat o.a .absent .absent o.ud 0 (by decide) o.d.isLt (by decide)
  rw [hw] at h
  refine ⟨decodeWord_of (by rw [h.op]; rfl) h.low ?_ hl he (fun h => nomatch h), h.lt⟩
  rw [h.op]
  show (some (.brev (guardOf x) (regUn x)) : Option Instr) = _
  simp only [regUn, h.guard, h.a, h.ud, fieldD_of h.d]

theorem RoundTrip.sel (g : Guard) (d : BitVec 8) (a : Src) (b : Src) (p : BitVec 4) : RoundTrip.Statement (.sel g d a b p) := by
  intro x hl he
  have hw : packReg 0x015 g d.toNat a b (.v (p.setWidth 8)) false 0 = x := Option.some.inj he
  have h := packReg_reads 0x015 g d.toNat a b (.v (p.setWidth 8)) false 0 (by decide) d.isLt (by decide)
  rw [hw] at h
  refine ⟨decodeWord_of (by rw [h.op]; rfl) h.low ?_ hl he (fun h => nomatch h), h.lt⟩
  rw [h.op]
  show (some (.sel (guardOf x) (fieldD x) (regA x) (regB x) (predC x)) : Option Instr) = _
  simp only [h.guard, h.a, h.b, fieldD_of h.d, predC_of h.fc]

theorem RoundTrip.icmp (g : Guard) (p : BitVec 4) (a : Src) (b : Src) (c : Cond) (u : Bool) (m : Comb) : RoundTrip.Statement (.icmp g p a b c u m) := by
  intro x hl he
  have hw : packReg 0x016 g p.toNat a b .absent false (fnCmp c u m) = x := Option.some.inj he
  have h := packReg_reads 0x016 g p.toNat a b .absent false (fnCmp c u m) (by decide) (Nat.lt_trans p.isLt (by decide)) (fnCmp_lt _ _ _)
  rw [hw] at h
  refine ⟨decodeWord_of (by rw [h.op]; rfl) h.low ?_ hl he (fun h => nomatch h), h.lt⟩
  rw [h.op]
  show ((Cond.ofCode (bitsOf x 10 3)).bind fun c => (Comb.ofCode (bitsOf x 7 2)).map fun m => .icmp (guardOf x) (predD x) (regA x) (regB x) c (bitOf x 9) m : Option Instr) = _
  simp only [h.guard, h.a, h.b, predD_of h.d, h.bits2_2, h.bit4, h.bits5_3]
  all_goals (cases c <;> cases u <;> cases m <;> rfl)

theorem RoundTrip.mov (g : Guard) (o : Un) : RoundTrip.Statement (.mov g o) := by
  intro x hl he
  have hw : packReg 0x017 g o.d.toNat o.a .absent .absent o.ud 0 = x := Option.some.inj he
  have h := packReg_reads 0x017 g o.d.toNat o.a .absent .absent o.ud 0 (by decide) o.d.isLt (by decide)
  rw [hw] at h
  refine ⟨decodeWord_of (by rw [h.op]; rfl) h.low ?_ hl he (fun h => nomatch h), h.lt⟩
  rw [h.op]
  show (some (.mov (guardOf x) (regUn x)) : Option Instr) = _
  simp only [regUn, h.guard, h.a, h.ud, fieldD_of h.d]

theorem RoundTrip.addd (g : Guard) (o : Bin) (w : BWidth) : RoundTrip.Statement (.addd g o w) := by
  intro x hl he
  have hw : packReg 0x020 g o.d.toNat o.a o.b .absent o.ud w.code = x := Option.some.inj he
  have h := packReg_reads 0x020 g o.d.toNat o.a o.b .absent o.ud w.code (by decide) o.d.isLt (by cases w <;> decide)
  rw [hw] at h
  refine ⟨decodeWord_of (by rw [h.op]; rfl) h.low ?_ hl he (fun h => nomatch h), h.lt⟩
  rw [h.op]
  show ((BWidth.ofCode (regFn x)).map (.addd (guardOf x) (regBin x)) : Option Instr) = _
  simp only [regBin, regFn, h.guard, h.a, h.b, h.ud, fieldD_of h.d, h.fn]
  all_goals (cases w <;> rfl)

theorem RoundTrip.subd (g : Guard) (o : Bin) (w : BWidth) : RoundTrip.Statement (.subd g o w) := by
  intro x hl he
  have hw : packReg 0x021 g o.d.toNat o.a o.b .absent o.ud w.code = x := Option.some.inj he
  have h := packReg_reads 0x021 g o.d.toNat o.a o.b .absent o.ud w.code (by decide) o.d.isLt (by cases w <;> decide)
  rw [hw] at h
  refine ⟨decodeWord_of (by rw [h.op]; rfl) h.low ?_ hl he (fun h => nomatch h), h.lt⟩
  rw [h.op]
  show ((BWidth.ofCode (regFn x)).map (.subd (guardOf x) (regBin x)) : Option Instr) = _
  simp only [regBin, regFn, h.guard, h.a, h.b, h.ud, fieldD_of h.d, h.fn]
  all_goals (cases w <;> rfl)

theorem RoundTrip.muld (g : Guard) (o : Bin) : RoundTrip.Statement (.muld g o) := by
  intro x hl he
  have hw : packReg 0x022 g o.d.toNat o.a o.b .absent o.ud 0 = x := Option.some.inj he
  have h := packReg_reads 0x022 g o.d.toNat o.a o.b .absent o.ud 0 (by decide) o.d.isLt (by decide)
  rw [hw] at h
  refine ⟨decodeWord_of (by rw [h.op]; rfl) h.low ?_ hl he (fun h => nomatch h), h.lt⟩
  rw [h.op]
  show (some (.muld (guardOf x) (regBin x)) : Option Instr) = _
  simp only [regBin, h.guard, h.a, h.b, h.ud, fieldD_of h.d]

theorem RoundTrip.shld (g : Guard) (o : Bin) : RoundTrip.Statement (.shld g o) := by
  intro x hl he
  have hw : packReg 0x023 g o.d.toNat o.a o.b .absent o.ud 0 = x := Option.some.inj he
  have h := packReg_reads 0x023 g o.d.toNat o.a o.b .absent o.ud 0 (by decide) o.d.isLt (by decide)
  rw [hw] at h
  refine ⟨decodeWord_of (by rw [h.op]; rfl) h.low ?_ hl he (fun h => nomatch h), h.lt⟩
  rw [h.op]
  show (some (.shld (guardOf x) (regBin x)) : Option Instr) = _
  simp only [regBin, h.guard, h.a, h.b, h.ud, fieldD_of h.d]

theorem RoundTrip.shrd (g : Guard) (o : Bin) : RoundTrip.Statement (.shrd g o) := by
  intro x hl he
  have hw : packReg 0x024 g o.d.toNat o.a o.b .absent o.ud 0 = x := Option.some.inj he
  have h := packReg_reads 0x024 g o.d.toNat o.a o.b .absent o.ud 0 (by decide) o.d.isLt (by decide)
  rw [hw] at h
  refine ⟨decodeWord_of (by rw [h.op]; rfl) h.low ?_ hl he (fun h => nomatch h), h.lt⟩
  rw [h.op]
  show (some (.shrd (guardOf x) (regBin x)) : Option Instr) = _
  simp only [regBin, h.guard, h.a, h.b, h.ud, fieldD_of h.d]

theorem RoundTrip.sard (g : Guard) (o : Bin) : RoundTrip.Statement (.sard g o) := by
  intro x hl he
  have hw : packReg 0x025 g o.d.toNat o.a o.b .absent o.ud 0 = x := Option.some.inj he
  have h := packReg_reads 0x025 g o.d.toNat o.a o.b .absent o.ud 0 (by decide) o.d.isLt (by decide)
  rw [hw] at h
  refine ⟨decodeWord_of (by rw [h.op]; rfl) h.low ?_ hl he (fun h => nomatch h), h.lt⟩
  rw [h.op]
  show (some (.sard (guardOf x) (regBin x)) : Option Instr) = _
  simp only [regBin, h.guard, h.a, h.b, h.ud, fieldD_of h.d]

theorem RoundTrip.icmpd (g : Guard) (p : BitVec 4) (a : Src) (b : Src) (c : Cond) (u : Bool) (m : Comb) : RoundTrip.Statement (.icmpd g p a b c u m) := by
  intro x hl he
  have hw : packReg 0x026 g p.toNat a b .absent false (fnCmp c u m) = x := Option.some.inj he
  have h := packReg_reads 0x026 g p.toNat a b .absent false (fnCmp c u m) (by decide) (Nat.lt_trans p.isLt (by decide)) (fnCmp_lt _ _ _)
  rw [hw] at h
  refine ⟨decodeWord_of (by rw [h.op]; rfl) h.low ?_ hl he (fun h => nomatch h), h.lt⟩
  rw [h.op]
  show ((Cond.ofCode (bitsOf x 10 3)).bind fun c => (Comb.ofCode (bitsOf x 7 2)).map fun m => .icmpd (guardOf x) (predD x) (regA x) (regB x) c (bitOf x 9) m : Option Instr) = _
  simp only [h.guard, h.a, h.b, predD_of h.d, h.bits2_2, h.bit4, h.bits5_3]
  all_goals (cases c <;> cases u <;> cases m <;> rfl)

theorem RoundTrip.movd (g : Guard) (o : Un) : RoundTrip.Statement (.movd g o) := by
  intro x hl he
  have hw : packReg 0x027 g o.d.toNat o.a .absent .absent o.ud 0 = x := Option.some.inj he
  have h := packReg_reads 0x027 g o.d.toNat o.a .absent .absent o.ud 0 (by decide) o.d.isLt (by decide)
  rw [hw] at h
  refine ⟨decodeWord_of (by rw [h.op]; rfl) h.low ?_ hl he (fun h => nomatch h), h.lt⟩
  rw [h.op]
  show (some (.movd (guardOf x) (regUn x)) : Option Instr) = _
  simp only [regUn, h.guard, h.a, h.ud, fieldD_of h.d]

theorem RoundTrip.andd (g : Guard) (o : Bin) : RoundTrip.Statement (.andd g o) := by
  intro x hl he
  have hw : packReg 0x028 g o.d.toNat o.a o.b .absent o.ud 0 = x := Option.some.inj he
  have h := packReg_reads 0x028 g o.d.toNat o.a o.b .absent o.ud 0 (by decide) o.d.isLt (by decide)
  rw [hw] at h
  refine ⟨decodeWord_of (by rw [h.op]; rfl) h.low ?_ hl he (fun h => nomatch h), h.lt⟩
  rw [h.op]
  show (some (.andd (guardOf x) (regBin x)) : Option Instr) = _
  simp only [regBin, h.guard, h.a, h.b, h.ud, fieldD_of h.d]

theorem RoundTrip.ord (g : Guard) (o : Bin) : RoundTrip.Statement (.ord g o) := by
  intro x hl he
  have hw : packReg 0x029 g o.d.toNat o.a o.b .absent o.ud 0 = x := Option.some.inj he
  have h := packReg_reads 0x029 g o.d.toNat o.a o.b .absent o.ud 0 (by decide) o.d.isLt (by decide)
  rw [hw] at h
  refine ⟨decodeWord_of (by rw [h.op]; rfl) h.low ?_ hl he (fun h => nomatch h), h.lt⟩
  rw [h.op]
  show (some (.ord (guardOf x) (regBin x)) : Option Instr) = _
  simp only [regBin, h.guard, h.a, h.b, h.ud, fieldD_of h.d]

theorem RoundTrip.xord (g : Guard) (o : Bin) : RoundTrip.Statement (.xord g o) := by
  intro x hl he
  have hw : packReg 0x02A g o.d.toNat o.a o.b .absent o.ud 0 = x := Option.some.inj he
  have h := packReg_reads 0x02A g o.d.toNat o.a o.b .absent o.ud 0 (by decide) o.d.isLt (by decide)
  rw [hw] at h
  refine ⟨decodeWord_of (by rw [h.op]; rfl) h.low ?_ hl he (fun h => nomatch h), h.lt⟩
  rw [h.op]
  show (some (.xord (guardOf x) (regBin x)) : Option Instr) = _
  simp only [regBin, h.guard, h.a, h.b, h.ud, fieldD_of h.d]

theorem RoundTrip.addi (g : Guard) (o : ImmOp) : RoundTrip.Statement (.addi g o) := by
  intro x hl he
  have hw : packImm 0x040 g o.d.toNat o.a o.ud 0 o.imm.toNat = x := Option.some.inj he
  have h := packImm_reads 0x040 g o.d.toNat o.a o.ud 0 o.imm.toNat (by decide) o.d.isLt (by decide) o.imm.isLt
  rw [hw] at h
  refine ⟨decodeWord_of (by rw [h.op]; rfl) h.low ?_ hl he (fun h => nomatch h), h.lt⟩
  rw [h.op]
  show (some (.addi (guardOf x) (immOp x)) : Option Instr) = _
  simp only [immOp, h.guard, h.a, h.ud, ofNat_bitsOf h.imm, fieldD_of h.d]

theorem RoundTrip.muli (g : Guard) (o : ImmOp) : RoundTrip.Statement (.muli g o) := by
  intro x hl he
  have hw : packImm 0x041 g o.d.toNat o.a o.ud 0 o.imm.toNat = x := Option.some.inj he
  have h := packImm_reads 0x041 g o.d.toNat o.a o.ud 0 o.imm.toNat (by decide) o.d.isLt (by decide) o.imm.isLt
  rw [hw] at h
  refine ⟨decodeWord_of (by rw [h.op]; rfl) h.low ?_ hl he (fun h => nomatch h), h.lt⟩
  rw [h.op]
  show (some (.muli (guardOf x) (immOp x)) : Option Instr) = _
  simp only [immOp, h.guard, h.a, h.ud, ofNat_bitsOf h.imm, fieldD_of h.d]

theorem RoundTrip.andi (g : Guard) (o : ImmOp) : RoundTrip.Statement (.andi g o) := by
  intro x hl he
  have hw : packImm 0x042 g o.d.toNat o.a o.ud 0 o.imm.toNat = x := Option.some.inj he
  have h := packImm_reads 0x042 g o.d.toNat o.a o.ud 0 o.imm.toNat (by decide) o.d.isLt (by decide) o.imm.isLt
  rw [hw] at h
  refine ⟨decodeWord_of (by rw [h.op]; rfl) h.low ?_ hl he (fun h => nomatch h), h.lt⟩
  rw [h.op]
  show (some (.andi (guardOf x) (immOp x)) : Option Instr) = _
  simp only [immOp, h.guard, h.a, h.ud, ofNat_bitsOf h.imm, fieldD_of h.d]

theorem RoundTrip.ori (g : Guard) (o : ImmOp) : RoundTrip.Statement (.ori g o) := by
  intro x hl he
  have hw : packImm 0x043 g o.d.toNat o.a o.ud 0 o.imm.toNat = x := Option.some.inj he
  have h := packImm_reads 0x043 g o.d.toNat o.a o.ud 0 o.imm.toNat (by decide) o.d.isLt (by decide) o.imm.isLt
  rw [hw] at h
  refine ⟨decodeWord_of (by rw [h.op]; rfl) h.low ?_ hl he (fun h => nomatch h), h.lt⟩
  rw [h.op]
  show (some (.ori (guardOf x) (immOp x)) : Option Instr) = _
  simp only [immOp, h.guard, h.a, h.ud, ofNat_bitsOf h.imm, fieldD_of h.d]

theorem RoundTrip.xori (g : Guard) (o : ImmOp) : RoundTrip.Statement (.xori g o) := by
  intro x hl he
  have hw : packImm 0x044 g o.d.toNat o.a o.ud 0 o.imm.toNat = x := Option.some.inj he
  have h := packImm_reads 0x044 g o.d.toNat o.a o.ud 0 o.imm.toNat (by decide) o.d.isLt (by decide) o.imm.isLt
  rw [hw] at h
  refine ⟨decodeWord_of (by rw [h.op]; rfl) h.low ?_ hl he (fun h => nomatch h), h.lt⟩
  rw [h.op]
  show (some (.xori (guardOf x) (immOp x)) : Option Instr) = _
  simp only [immOp, h.guard, h.a, h.ud, ofNat_bitsOf h.imm, fieldD_of h.d]

theorem RoundTrip.shli (g : Guard) (o : ImmOp) : RoundTrip.Statement (.shli g o) := by
  intro x hl he
  have hw : packImm 0x045 g o.d.toNat o.a o.ud 0 o.imm.toNat = x := Option.some.inj he
  have h := packImm_reads 0x045 g o.d.toNat o.a o.ud 0 o.imm.toNat (by decide) o.d.isLt (by decide) o.imm.isLt
  rw [hw] at h
  refine ⟨decodeWord_of (by rw [h.op]; rfl) h.low ?_ hl he (fun h => nomatch h), h.lt⟩
  rw [h.op]
  show (some (.shli (guardOf x) (immOp x)) : Option Instr) = _
  simp only [immOp, h.guard, h.a, h.ud, ofNat_bitsOf h.imm, fieldD_of h.d]

theorem RoundTrip.shri (g : Guard) (o : ImmOp) : RoundTrip.Statement (.shri g o) := by
  intro x hl he
  have hw : packImm 0x046 g o.d.toNat o.a o.ud 0 o.imm.toNat = x := Option.some.inj he
  have h := packImm_reads 0x046 g o.d.toNat o.a o.ud 0 o.imm.toNat (by decide) o.d.isLt (by decide) o.imm.isLt
  rw [hw] at h
  refine ⟨decodeWord_of (by rw [h.op]; rfl) h.low ?_ hl he (fun h => nomatch h), h.lt⟩
  rw [h.op]
  show (some (.shri (guardOf x) (immOp x)) : Option Instr) = _
  simp only [immOp, h.guard, h.a, h.ud, ofNat_bitsOf h.imm, fieldD_of h.d]

theorem RoundTrip.sari (g : Guard) (o : ImmOp) : RoundTrip.Statement (.sari g o) := by
  intro x hl he
  have hw : packImm 0x047 g o.d.toNat o.a o.ud 0 o.imm.toNat = x := Option.some.inj he
  have h := packImm_reads 0x047 g o.d.toNat o.a o.ud 0 o.imm.toNat (by decide) o.d.isLt (by decide) o.imm.isLt
  rw [hw] at h
  refine ⟨decodeWord_of (by rw [h.op]; rfl) h.low ?_ hl he (fun h => nomatch h), h.lt⟩
  rw [h.op]
  show (some (.sari (guardOf x) (immOp x)) : Option Instr) = _
  simp only [immOp, h.guard, h.a, h.ud, ofNat_bitsOf h.imm, fieldD_of h.d]

theorem RoundTrip.icmpi (g : Guard) (p : BitVec 4) (a : Src) (imm : BitVec 12) (c : Cond) (u : Bool) (m : Comb) : RoundTrip.Statement (.icmpi g p a imm c u m) := by
  intro x hl he
  have hw : packImm 0x048 g p.toNat a false (c.code * 2 ^ 3 + natOfBool u * 2 ^ 2 + m.code) imm.toNat = x := Option.some.inj he
  have h := packImm_reads 0x048 g p.toNat a false (c.code * 2 ^ 3 + natOfBool u * 2 ^ 2 + m.code) imm.toNat (by decide) (Nat.lt_trans p.isLt (by decide)) (by cases c <;> cases u <;> cases m <;> decide) imm.isLt
  rw [hw] at h
  refine ⟨decodeWord_of (by rw [h.op]; rfl) h.low ?_ hl he (fun h => nomatch h), h.lt⟩
  rw [h.op]
  show ((Cond.ofCode (bitsOf x 28 3)).bind fun c => (Comb.ofCode (bitsOf x 25 2)).map fun m => .icmpi (guardOf x) (predD x) (immA x) (BitVec.ofNat 12 (bitsOf x 5 12)) c (bitOf x 27) m : Option Instr) = _
  simp only [h.guard, h.a, ofNat_bitsOf h.imm, predD_of h.d, h.bits0_2, h.bit2, h.bits3_3]
  all_goals (cases c <;> cases u <;> cases m <;> rfl)

theorem RoundTrip.adddi (g : Guard) (o : ImmOp) : RoundTrip.Statement (.adddi g o) := by
  intro x hl he
  have hw : packImm 0x049 g o.d.toNat o.a o.ud 0 o.imm.toNat = x := Option.some.inj he
  have h := packImm_reads 0x049 g o.d.toNat o.a o.ud 0 o.imm.toNat (by decide) o.d.isLt (by decide) o.imm.isLt
  rw [hw] at h
  refine ⟨decodeWord_of (by rw [h.op]; rfl) h.low ?_ hl he (fun h => nomatch h), h.lt⟩
  rw [h.op]
  show (some (.adddi (guardOf x) (immOp x)) : Option Instr) = _
  simp only [immOp, h.guard, h.a, h.ud, ofNat_bitsOf h.imm, fieldD_of h.d]

theorem RoundTrip.movi (g : Guard) (ud : Bool) (d : BitVec 8) (imm : BitVec 12) : RoundTrip.Statement (.movi g ud d imm) := by
  intro x hl he
  have hw : packImm 0x04A g d.toNat .absent ud 0 imm.toNat = x := Option.some.inj he
  have h := packImm_reads 0x04A g d.toNat .absent ud 0 imm.toNat (by decide) d.isLt (by decide) imm.isLt
  rw [hw] at h
  refine ⟨decodeWord_of (by rw [h.op]; rfl) h.low ?_ hl he (fun h => nomatch h), h.lt⟩
  rw [h.op]
  show (some (.movi (guardOf x) (bitOf x 31) (fieldD x) (BitVec.ofNat 12 (bitsOf x 5 12))) : Option Instr) = _
  simp only [h.guard, h.ud, ofNat_bitsOf h.imm, fieldD_of h.d]

theorem RoundTrip.lui (g : Guard) (ud : Bool) (d : BitVec 8) (imm : BitVec 20) : RoundTrip.Statement (.lui g ud d imm) := by
  intro x hl he
  have hw : packUpi 0x060 g d.toNat imm.toNat ud = x := Option.some.inj he
  have h := packUpi_reads 0x060 g d.toNat imm.toNat ud (by decide) d.isLt imm.isLt
  rw [hw] at h
  refine ⟨decodeWord_of (by rw [h.op]; rfl) h.low ?_ hl he (fun h => nomatch h), h.lt⟩
  rw [h.op]
  show (some (.lui (guardOf x) (bitOf x 16) (fieldD x) (upiImm x)) : Option Instr) = _
  simp only [upiImm, h.guard, ofNat_bitsOf h.imm, h.ud, fieldD_of h.d]

theorem RoundTrip.aupc (g : Guard) (ud : Bool) (d : BitVec 8) (imm : BitVec 20) : RoundTrip.Statement (.aupc g ud d imm) := by
  intro x hl he
  have hw : packUpi 0x061 g d.toNat imm.toNat ud = x := Option.some.inj he
  have h := packUpi_reads 0x061 g d.toNat imm.toNat ud (by decide) d.isLt imm.isLt
  rw [hw] at h
  refine ⟨decodeWord_of (by rw [h.op]; rfl) h.low ?_ hl he (fun h => nomatch h), h.lt⟩
  rw [h.op]
  show (some (.aupc (guardOf x) (bitOf x 16) (fieldD x) (upiImm x)) : Option Instr) = _
  simp only [upiImm, h.guard, ofNat_bitsOf h.imm, h.ud, fieldD_of h.d]

theorem RoundTrip.lup (g : Guard) (ud : Bool) (d : BitVec 8) (imm : BitVec 20) : RoundTrip.Statement (.lup g ud d imm) := by
  intro x hl he
  have hw : packUpi 0x062 g d.toNat imm.toNat ud = x := Option.some.inj he
  have h := packUpi_reads 0x062 g d.toNat imm.toNat ud (by decide) d.isLt imm.isLt
  rw [hw] at h
  refine ⟨decodeWord_of (by rw [h.op]; rfl) h.low ?_ hl he (fun h => nomatch h), h.lt⟩
  rw [h.op]
  show (some (.lup (guardOf x) (bitOf x 16) (fieldD x) (upiImm x)) : Option Instr) = _
  simp only [upiImm, h.guard, ofNat_bitsOf h.imm, h.ud, fieldD_of h.d]

theorem RoundTrip.fadd (g : Guard) (o : Bin) (m : FMode) (rm : RmField) : RoundTrip.Statement (.fadd g o m rm) := by
  intro x hl he
  have hw : packReg 0x080 g o.d.toNat o.a o.b .absent o.ud (fnFloat m rm.code 0) = x := Option.some.inj he
  have h := packReg_reads 0x080 g o.d.toNat o.a o.b .absent o.ud (fnFloat m rm.code 0) (by decide) o.d.isLt (fnFloat_lt _ _ _ (RmField.code_lt _) (by decide))
  rw [hw] at h
  refine ⟨decodeWord_of (by rw [h.op]; rfl) h.low ?_ hl he (fun h => nomatch h), h.lt⟩
  rw [h.op]
  show ((regFMode x).bind fun m => (regRm x).map (.fadd (guardOf x) (regBin x) m) : Option Instr) = _
  simp only [regBin, regFMode, regRm, h.guard, h.a, h.b, h.ud, fieldD_of h.d, h.bits2_3, h.bit5, h.bits6_2]
  all_goals (obtain ⟨_ | _ | _, _ | _⟩ := m <;> cases rm <;> rfl)

theorem RoundTrip.fsub (g : Guard) (o : Bin) (m : FMode) (rm : RmField) : RoundTrip.Statement (.fsub g o m rm) := by
  intro x hl he
  have hw : packReg 0x081 g o.d.toNat o.a o.b .absent o.ud (fnFloat m rm.code 0) = x := Option.some.inj he
  have h := packReg_reads 0x081 g o.d.toNat o.a o.b .absent o.ud (fnFloat m rm.code 0) (by decide) o.d.isLt (fnFloat_lt _ _ _ (RmField.code_lt _) (by decide))
  rw [hw] at h
  refine ⟨decodeWord_of (by rw [h.op]; rfl) h.low ?_ hl he (fun h => nomatch h), h.lt⟩
  rw [h.op]
  show ((regFMode x).bind fun m => (regRm x).map (.fsub (guardOf x) (regBin x) m) : Option Instr) = _
  simp only [regBin, regFMode, regRm, h.guard, h.a, h.b, h.ud, fieldD_of h.d, h.bits2_3, h.bit5, h.bits6_2]
  all_goals (obtain ⟨_ | _ | _, _ | _⟩ := m <;> cases rm <;> rfl)

theorem RoundTrip.fmul (g : Guard) (o : Bin) (m : FMode) (rm : RmField) : RoundTrip.Statement (.fmul g o m rm) := by
  intro x hl he
  have hw : packReg 0x082 g o.d.toNat o.a o.b .absent o.ud (fnFloat m rm.code 0) = x := Option.some.inj he
  have h := packReg_reads 0x082 g o.d.toNat o.a o.b .absent o.ud (fnFloat m rm.code 0) (by decide) o.d.isLt (fnFloat_lt _ _ _ (RmField.code_lt _) (by decide))
  rw [hw] at h
  refine ⟨decodeWord_of (by rw [h.op]; rfl) h.low ?_ hl he (fun h => nomatch h), h.lt⟩
  rw [h.op]
  show ((regFMode x).bind fun m => (regRm x).map (.fmul (guardOf x) (regBin x) m) : Option Instr) = _
  simp only [regBin, regFMode, regRm, h.guard, h.a, h.b, h.ud, fieldD_of h.d, h.bits2_3, h.bit5, h.bits6_2]
  all_goals (obtain ⟨_ | _ | _, _ | _⟩ := m <;> cases rm <;> rfl)

theorem RoundTrip.ffma (g : Guard) (o : Tri) (m : FMode) (rm : RmField) : RoundTrip.Statement (.ffma g o m rm) := by
  intro x hl he
  have hw : packReg 0x083 g o.d.toNat o.a o.b o.c o.ud (fnFloat m rm.code 0) = x := Option.some.inj he
  have h := packReg_reads 0x083 g o.d.toNat o.a o.b o.c o.ud (fnFloat m rm.code 0) (by decide) o.d.isLt (fnFloat_lt _ _ _ (RmField.code_lt _) (by decide))
  rw [hw] at h
  refine ⟨decodeWord_of (by rw [h.op]; rfl) h.low ?_ hl he (fun h => nomatch h), h.lt⟩
  rw [h.op]
  show ((regFMode x).bind fun m => (regRm x).map (.ffma (guardOf x) (regTri x) m) : Option Instr) = _
  simp only [regTri, regFMode, regRm, h.guard, h.a, h.b, h.c, h.ud, fieldD_of h.d, h.bits2_3, h.bit5, h.bits6_2]
  all_goals (obtain ⟨_ | _ | _, _ | _⟩ := m <;> cases rm <;> rfl)

theorem RoundTrip.fdiv (g : Guard) (o : Bin) (m : FMode) (rm : RmField) : RoundTrip.Statement (.fdiv g o m rm) := by
  intro x hl he
  have hw : packReg 0x084 g o.d.toNat o.a o.b .absent o.ud (fnFloat m rm.code 0) = x := Option.some.inj he
  have h := packReg_reads 0x084 g o.d.toNat o.a o.b .absent o.ud (fnFloat m rm.code 0) (by decide) o.d.isLt (fnFloat_lt _ _ _ (RmField.code_lt _) (by decide))
  rw [hw] at h
  refine ⟨decodeWord_of (by rw [h.op]; rfl) h.low ?_ hl he (fun h => nomatch h), h.lt⟩
  rw [h.op]
  show ((regFMode x).bind fun m => (regRm x).map (.fdiv (guardOf x) (regBin x) m) : Option Instr) = _
  simp only [regBin, regFMode, regRm, h.guard, h.a, h.b, h.ud, fieldD_of h.d, h.bits2_3, h.bit5, h.bits6_2]
  all_goals (obtain ⟨_ | _ | _, _ | _⟩ := m <;> cases rm <;> rfl)

theorem RoundTrip.fsqrt (g : Guard) (o : Un) (m : FMode) (rm : RmField) : RoundTrip.Statement (.fsqrt g o m rm) := by
  intro x hl he
  have hw : packReg 0x085 g o.d.toNat o.a .absent .absent o.ud (fnFloat m rm.code 0) = x := Option.some.inj he
  have h := packReg_reads 0x085 g o.d.toNat o.a .absent .absent o.ud (fnFloat m rm.code 0) (by decide) o.d.isLt (fnFloat_lt _ _ _ (RmField.code_lt _) (by decide))
  rw [hw] at h
  refine ⟨decodeWord_of (by rw [h.op]; rfl) h.low ?_ hl he (fun h => nomatch h), h.lt⟩
  rw [h.op]
  show ((regFMode x).bind fun m => (regRm x).map (.fsqrt (guardOf x) (regUn x) m) : Option Instr) = _
  simp only [regUn, regFMode, regRm, h.guard, h.a, h.ud, fieldD_of h.d, h.bits2_3, h.bit5, h.bits6_2]
  all_goals (obtain ⟨_ | _ | _, _ | _⟩ := m <;> cases rm <;> rfl)

theorem RoundTrip.fmin (g : Guard) (o : Bin) (m : FMode) (n : Bool) : RoundTrip.Statement (.fmin g o m n) := by
  intro x hl he
  have hw : packReg 0x086 g o.d.toNat o.a o.b .absent o.ud (fnFloat m 0 (natOfBool n)) = x := Option.some.inj he
  have h := packReg_reads 0x086 g o.d.toNat o.a o.b .absent o.ud (fnFloat m 0 (natOfBool n)) (by decide) o.d.isLt (fnFloat_lt _ _ _ (by decide) (Nat.lt_trans (natOfBool_lt _) (by decide)))
  rw [hw] at h
  refine ⟨decodeWord_of (by rw [h.op]; rfl) h.low ?_ hl he (fun h => nomatch h), h.lt⟩
  rw [h.op]
  show ((regFMode x).map fun m => .fmin (guardOf x) (regBin x) m (regFn0 x) : Option Instr) = _
  simp only [regBin, regFn0, regFMode, h.guard, h.a, h.b, h.ud, fieldD_of h.d, h.bit0, h.bit5, h.bits6_2]
  all_goals (obtain ⟨_ | _ | _, _ | _⟩ := m <;> cases n <;> rfl)

theorem RoundTrip.fmax (g : Guard) (o : Bin) (m : FMode) (n : Bool) : RoundTrip.Statement (.fmax g o m n) := by
  intro x hl he
  have hw : packReg 0x087 g o.d.toNat o.a o.b .absent o.ud (fnFloat m 0 (natOfBool n)) = x := Option.some.inj he
  have h := packReg_reads 0x087 g o.d.toNat o.a o.b .absent o.ud (fnFloat m 0 (natOfBool n)) (by decide) o.d.isLt (fnFloat_lt _ _ _ (by decide) (Nat.lt_trans (natOfBool_lt _) (by decide)))
  rw [hw] at h
  refine ⟨decodeWord_of (by rw [h.op]; rfl) h.low ?_ hl he (fun h => nomatch h), h.lt⟩
  rw [h.op]
  show ((regFMode x).map fun m => .fmax (guardOf x) (regBin x) m (regFn0 x) : Option Instr) = _
  simp only [regBin, regFn0, regFMode, h.guard, h.a, h.b, h.ud, fieldD_of h.d, h.bit0, h.bit5, h.bits6_2]
  all_goals (obtain ⟨_ | _ | _, _ | _⟩ := m <;> cases n <;> rfl)

theorem RoundTrip.fcmp (g : Guard) (p : BitVec 4) (a : Src) (b : Src) (f : FFmt) (c : FCond) (s : Bool) : RoundTrip.Statement (.fcmp g p a b f c s) := by
  intro x hl he
  have hw : packReg 0x088 g p.toNat a b .absent false (fnFloat ⟨f, false⟩ c.code (natOfBool s)) = x := Option.some.inj he
  have h := packReg_reads 0x088 g p.toNat a b .absent false (fnFloat ⟨f, false⟩ c.code (natOfBool s)) (by decide) (Nat.lt_trans p.isLt (by decide)) (fnFloat_lt _ _ _ (FCond.code_lt _) (Nat.lt_trans (natOfBool_lt _) (by decide)))
  rw [hw] at h
  refine ⟨decodeWord_of (by rw [h.op]; rfl) h.low ?_ hl he (fun h => nomatch h), h.lt⟩
  rw [h.op]
  show ((FFmt.ofCode (bitsOf x 11 2)).bind fun f => (FCond.ofCode (bitsOf x 7 3)).map fun c => .fcmp (guardOf x) (predD x) (regA x) (regB x) f c (regFn0 x) : Option Instr) = _
  simp only [regFn0, h.guard, h.a, h.b, predD_of h.d, h.bit0, h.bits2_3, h.bits6_2]
  all_goals (cases f <;> cases c <;> cases s <;> rfl)

theorem RoundTrip.frcp (g : Guard) (o : Un) (m : FMode) : RoundTrip.Statement (.frcp g o m) := by
  intro x hl he
  have hw : packReg 0x089 g o.d.toNat o.a .absent .absent o.ud (fnFloat m 0 0) = x := Option.some.inj he
  have h := packReg_reads 0x089 g o.d.toNat o.a .absent .absent o.ud (fnFloat m 0 0) (by decide) o.d.isLt (fnFloat_lt _ _ _ (by decide) (by decide))
  rw [hw] at h
  refine ⟨decodeWord_of (by rw [h.op]; rfl) h.low ?_ hl he (fun h => nomatch h), h.lt⟩
  rw [h.op]
  show ((regFMode x).map (.frcp (guardOf x) (regUn x)) : Option Instr) = _
  simp only [regUn, regFMode, h.guard, h.a, h.ud, fieldD_of h.d, h.bit5, h.bits6_2]
  all_goals (obtain ⟨_ | _ | _, _ | _⟩ := m <;> rfl)

theorem RoundTrip.frsq (g : Guard) (o : Un) (m : FMode) : RoundTrip.Statement (.frsq g o m) := by
  intro x hl he
  have hw : packReg 0x08A g o.d.toNat o.a .absent .absent o.ud (fnFloat m 0 0) = x := Option.some.inj he
  have h := packReg_reads 0x08A g o.d.toNat o.a .absent .absent o.ud (fnFloat m 0 0) (by decide) o.d.isLt (fnFloat_lt _ _ _ (by decide) (by decide))
  rw [hw] at h
  refine ⟨decodeWord_of (by rw [h.op]; rfl) h.low ?_ hl he (fun h => nomatch h), h.lt⟩
  rw [h.op]
  show ((regFMode x).map (.frsq (guardOf x) (regUn x)) : Option Instr) = _
  simp only [regUn, regFMode, h.guard, h.a, h.ud, fieldD_of h.d, h.bit5, h.bits6_2]
  all_goals (obtain ⟨_ | _ | _, _ | _⟩ := m <;> rfl)

theorem RoundTrip.fexp2 (g : Guard) (o : Un) (m : FMode) : RoundTrip.Statement (.fexp2 g o m) := by
  intro x hl he
  have hw : packReg 0x08B g o.d.toNat o.a .absent .absent o.ud (fnFloat m 0 0) = x := Option.some.inj he
  have h := packReg_reads 0x08B g o.d.toNat o.a .absent .absent o.ud (fnFloat m 0 0) (by decide) o.d.isLt (fnFloat_lt _ _ _ (by decide) (by decide))
  rw [hw] at h
  refine ⟨decodeWord_of (by rw [h.op]; rfl) h.low ?_ hl he (fun h => nomatch h), h.lt⟩
  rw [h.op]
  show ((regFMode x).map (.fexp2 (guardOf x) (regUn x)) : Option Instr) = _
  simp only [regUn, regFMode, h.guard, h.a, h.ud, fieldD_of h.d, h.bit5, h.bits6_2]
  all_goals (obtain ⟨_ | _ | _, _ | _⟩ := m <;> rfl)

theorem RoundTrip.flog2 (g : Guard) (o : Un) (m : FMode) : RoundTrip.Statement (.flog2 g o m) := by
  intro x hl he
  have hw : packReg 0x08C g o.d.toNat o.a .absent .absent o.ud (fnFloat m 0 0) = x := Option.some.inj he
  have h := packReg_reads 0x08C g o.d.toNat o.a .absent .absent o.ud (fnFloat m 0 0) (by decide) o.d.isLt (fnFloat_lt _ _ _ (by decide) (by decide))
  rw [hw] at h
  refine ⟨decodeWord_of (by rw [h.op]; rfl) h.low ?_ hl he (fun h => nomatch h), h.lt⟩
  rw [h.op]
  show ((regFMode x).map (.flog2 (guardOf x) (regUn x)) : Option Instr) = _
  simp only [regUn, regFMode, h.guard, h.a, h.ud, fieldD_of h.d, h.bit5, h.bits6_2]
  all_goals (obtain ⟨_ | _ | _, _ | _⟩ := m <;> rfl)

theorem RoundTrip.fabs (g : Guard) (o : Un) (m : FMode) : RoundTrip.Statement (.fabs g o m) := by
  intro x hl he
  have hw : packReg 0x08D g o.d.toNat o.a .absent .absent o.ud (fnFloat m 0 0) = x := Option.some.inj he
  have h := packReg_reads 0x08D g o.d.toNat o.a .absent .absent o.ud (fnFloat m 0 0) (by decide) o.d.isLt (fnFloat_lt _ _ _ (by decide) (by decide))
  rw [hw] at h
  refine ⟨decodeWord_of (by rw [h.op]; rfl) h.low ?_ hl he (fun h => nomatch h), h.lt⟩
  rw [h.op]
  show ((regFMode x).map (.fabs (guardOf x) (regUn x)) : Option Instr) = _
  simp only [regUn, regFMode, h.guard, h.a, h.ud, fieldD_of h.d, h.bit5, h.bits6_2]
  all_goals (obtain ⟨_ | _ | _, _ | _⟩ := m <;> rfl)

theorem RoundTrip.fneg (g : Guard) (o : Un) (m : FMode) : RoundTrip.Statement (.fneg g o m) := by
  intro x hl he
  have hw : packReg 0x08E g o.d.toNat o.a .absent .absent o.ud (fnFloat m 0 0) = x := Option.some.inj he
  have h := packReg_reads 0x08E g o.d.toNat o.a .absent .absent o.ud (fnFloat m 0 0) (by decide) o.d.isLt (fnFloat_lt _ _ _ (by decide) (by decide))
  rw [hw] at h
  refine ⟨decodeWord_of (by rw [h.op]; rfl) h.low ?_ hl he (fun h => nomatch h), h.lt⟩
  rw [h.op]
  show ((regFMode x).map (.fneg (guardOf x) (regUn x)) : Option Instr) = _
  simp only [regUn, regFMode, h.guard, h.a, h.ud, fieldD_of h.d, h.bit5, h.bits6_2]
  all_goals (obtain ⟨_ | _ | _, _ | _⟩ := m <;> rfl)

theorem RoundTrip.fclass (g : Guard) (o : Un) (m : FMode) : RoundTrip.Statement (.fclass g o m) := by
  intro x hl he
  have hw : packReg 0x08F g o.d.toNat o.a .absent .absent o.ud (fnFloat m 0 0) = x := Option.some.inj he
  have h := packReg_reads 0x08F g o.d.toNat o.a .absent .absent o.ud (fnFloat m 0 0) (by decide) o.d.isLt (fnFloat_lt _ _ _ (by decide) (by decide))
  rw [hw] at h
  refine ⟨decodeWord_of (by rw [h.op]; rfl) h.low ?_ hl he (fun h => nomatch h), h.lt⟩
  rw [h.op]
  show ((regFMode x).map (.fclass (guardOf x) (regUn x)) : Option Instr) = _
  simp only [regUn, regFMode, h.guard, h.a, h.ud, fieldD_of h.d, h.bit5, h.bits6_2]
  all_goals (obtain ⟨_ | _ | _, _ | _⟩ := m <;> rfl)

theorem RoundTrip.cvt (g : Guard) (d : BitVec 8) (a : Src) (dst : Fmt) (src : Fmt) (rm : RmField) (sat : Bool) : RoundTrip.Statement (.cvt g d a dst src rm sat) := by
  intro x hl he
  have hw : packReg 0x0A0 g d.toNat a (.v (BitVec.ofNat 8 dst.code)) (.v (BitVec.ofNat 8 src.code)) false (rm.code * 2 ^ 5 + natOfBool sat * 2 ^ 4) = x := Option.some.inj he
  have h := packReg_reads 0x0A0 g d.toNat a (.v (BitVec.ofNat 8 dst.code)) (.v (BitVec.ofNat 8 src.code)) false (rm.code * 2 ^ 5 + natOfBool sat * 2 ^ 4) (by decide) d.isLt (by cases rm <;> cases sat <;> decide)
  rw [hw] at h
  refine ⟨decodeWord_of (by rw [h.op]; rfl) h.low ?_ hl he (fun h => nomatch h), h.lt⟩
  rw [h.op]
  show ((Fmt.ofCode (fieldB x).toNat).bind fun dst => (Fmt.ofCode (fieldC x).toNat).bind fun src => (RmField.ofCode (bitsOf x 10 3)).map fun rm => .cvt (guardOf x) (fieldD x) (regA x) dst src rm (bitOf x 9) : Option Instr) = _
  simp only [h.guard, h.a, fieldD_of h.d, h.fb, h.fc, h.bit4, h.bits5_3]
  all_goals (cases dst <;> cases src <;> cases rm <;> cases sat <;> rfl)

theorem RoundTrip.pack (g : Guard) (d : BitVec 8) (a : Src) (c : Src) (w : SlotW) (j : BitVec 3) : RoundTrip.Statement (.pack g d a c w j) := by
  intro x hl he
  have hb := (three_bits j w).1
  have hw : packReg 0x0A1 g d.toNat a .absent c false (w.code * 2 ^ 6 + j.toNat * 2 ^ 3) = x := Option.some.inj he
  have h := packReg_reads 0x0A1 g d.toNat a .absent c false (w.code * 2 ^ 6 + j.toNat * 2 ^ 3) (by decide) d.isLt hb.2.2
  rw [hw] at h
  refine ⟨decodeWord_of (by rw [h.op]; rfl) h.low ?_ hl he (fun h => nomatch h), h.lt⟩
  rw [h.op]
  show ((SlotW.ofCode (bitsOf x 11 2)).map fun s => .pack (guardOf x) (fieldD x) (regA x) (regC x) s (BitVec.ofNat 3 (bitsOf x 8 3)) : Option Instr) = _
  simp only [h.guard, h.a, h.c, fieldD_of h.d, h.bits6_2, h.bits3_3, hb.1, hb.2.1, Option.map_some]

theorem RoundTrip.unpk (g : Guard) (d : BitVec 8) (a : Src) (w : SlotW) (j : BitVec 3) (sgn : Bool) : RoundTrip.Statement (.unpk g d a w j sgn) := by
  intro x hl he
  have hb := (three_bits j w).2 sgn
  have hw : packReg 0x0A2 g d.toNat a .absent .absent false (w.code * 2 ^ 6 + j.toNat * 2 ^ 3 + natOfBool sgn * 2 ^ 2) = x := Option.some.inj he
  have h := packReg_reads 0x0A2 g d.toNat a .absent .absent false (w.code * 2 ^ 6 + j.toNat * 2 ^ 3 + natOfBool sgn * 2 ^ 2) (by decide) d.isLt hb.2.2.2
  rw [hw] at h
  refine ⟨decodeWord_of (by rw [h.op]; rfl) h.low ?_ hl he (fun h => nomatch h), h.lt⟩
  rw [h.op]
  show ((SlotW.ofCode (bitsOf x 11 2)).map fun s => .unpk (guardOf x) (fieldD x) (regA x) s (BitVec.ofNat 3 (bitsOf x 8 3)) (bitOf x 7) : Option Instr) = _
  simp only [h.guard, h.a, fieldD_of h.d, h.bits6_2, h.bits3_3, h.bit2, hb.1, hb.2.1, hb.2.2.1, Option.map_some]

theorem RoundTrip.pand (g : Guard) (p : BitVec 4) (a : BitVec 4) (b : BitVec 4) (na : Bool) (nb : Bool) : RoundTrip.Statement (.pand g p a b na nb) := by
  intro x hl he
  have hw : packReg 0x0C0 g p.toNat (.v (a.setWidth 8)) (.v (b.setWidth 8)) .absent false (natOfBool na * 2 + natOfBool nb) = x := Option.some.inj he
  have h := packReg_reads 0x0C0 g p.toNat (.v (a.setWidth 8)) (.v (b.setWidth 8)) .absent false (natOfBool na * 2 + natOfBool nb) (by decide) (Nat.lt_trans p.isLt (by decide)) (by cases na <;> cases nb <;> decide)
  rw [hw] at h
  refine ⟨decodeWord_of (by rw [h.op]; rfl) h.low ?_ hl he (fun h => nomatch h), h.lt⟩
  rw [h.op]
  show (some (.pand (guardOf x) (predD x) (predA x) (predB x) (bitOf x 6) (bitOf x 5)) : Option Instr) = _
  simp only [h.guard, predD_of h.d, predA_of h.fa, predB_of h.fb, h.bit0, h.bit1]
  all_goals (cases na <;> cases nb <;> rfl)

theorem RoundTrip.por (g : Guard) (p : BitVec 4) (a : BitVec 4) (b : BitVec 4) (na : Bool) (nb : Bool) : RoundTrip.Statement (.por g p a b na nb) := by
  intro x hl he
  have hw : packReg 0x0C1 g p.toNat (.v (a.setWidth 8)) (.v (b.setWidth 8)) .absent false (natOfBool na * 2 + natOfBool nb) = x := Option.some.inj he
  have h := packReg_reads 0x0C1 g p.toNat (.v (a.setWidth 8)) (.v (b.setWidth 8)) .absent false (natOfBool na * 2 + natOfBool nb) (by decide) (Nat.lt_trans p.isLt (by decide)) (by cases na <;> cases nb <;> decide)
  rw [hw] at h
  refine ⟨decodeWord_of (by rw [h.op]; rfl) h.low ?_ hl he (fun h => nomatch h), h.lt⟩
  rw [h.op]
  show (some (.por (guardOf x) (predD x) (predA x) (predB x) (bitOf x 6) (bitOf x 5)) : Option Instr) = _
  simp only [h.guard, predD_of h.d, predA_of h.fa, predB_of h.fb, h.bit0, h.bit1]
  all_goals (cases na <;> cases nb <;> rfl)

theorem RoundTrip.pxor (g : Guard) (p : BitVec 4) (a : BitVec 4) (b : BitVec 4) (na : Bool) (nb : Bool) : RoundTrip.Statement (.pxor g p a b na nb) := by
  intro x hl he
  have hw : packReg 0x0C2 g p.toNat (.v (a.setWidth 8)) (.v (b.setWidth 8)) .absent false (natOfBool na * 2 + natOfBool nb) = x := Option.some.inj he
  have h := packReg_reads 0x0C2 g p.toNat (.v (a.setWidth 8)) (.v (b.setWidth 8)) .absent false (natOfBool na * 2 + natOfBool nb) (by decide) (Nat.lt_trans p.isLt (by decide)) (by cases na <;> cases nb <;> decide)
  rw [hw] at h
  refine ⟨decodeWord_of (by rw [h.op]; rfl) h.low ?_ hl he (fun h => nomatch h), h.lt⟩
  rw [h.op]
  show (some (.pxor (guardOf x) (predD x) (predA x) (predB x) (bitOf x 6) (bitOf x 5)) : Option Instr) = _
  simp only [h.guard, predD_of h.d, predA_of h.fa, predB_of h.fb, h.bit0, h.bit1]
  all_goals (cases na <;> cases nb <;> rfl)

theorem RoundTrip.pnot (g : Guard) (p : BitVec 4) (a : BitVec 4) : RoundTrip.Statement (.pnot g p a) := by
  intro x hl he
  have hw : packReg 0x0C3 g p.toNat (.v (a.setWidth 8)) .absent .absent false 0 = x := Option.some.inj he
  have h := packReg_reads 0x0C3 g p.toNat (.v (a.setWidth 8)) .absent .absent false 0 (by decide) (Nat.lt_trans p.isLt (by decide)) (by decide)
  rw [hw] at h
  refine ⟨decodeWord_of (by rw [h.op]; rfl) h.low ?_ hl he (fun h => nomatch h), h.lt⟩
  rw [h.op]
  show (some (.pnot (guardOf x) (predD x) (predA x)) : Option Instr) = _
  simp only [h.guard, predD_of h.d, predA_of h.fa]

theorem RoundTrip.pset (g : Guard) (p : BitVec 4) (a : Src) (z : Bool) : RoundTrip.Statement (.pset g p a z) := by
  intro x hl he
  have hw : packReg 0x0C4 g p.toNat a .absent .absent false (natOfBool z) = x := Option.some.inj he
  have h := packReg_reads 0x0C4 g p.toNat a .absent .absent false (natOfBool z) (by decide) (Nat.lt_trans p.isLt (by decide)) (Nat.lt_trans (natOfBool_lt _) (by decide))
  rw [hw] at h
  refine ⟨decodeWord_of (by rw [h.op]; rfl) h.low ?_ hl he (fun h => nomatch h), h.lt⟩
  rw [h.op]
  show (some (.pset (guardOf x) (predD x) (regA x) (bitOf x 5)) : Option Instr) = _
  simp only [h.guard, h.a, predD_of h.d, h.bit0]
  all_goals (cases z <;> rfl)

theorem RoundTrip.part (g : Guard) (d : BitVec 8) (a : Src) (pw : Group) (dbl : Bool) : RoundTrip.Statement (.part g d a pw dbl) := by
  intro x hl he
  have hw : packReg 0x0E0 g d.toNat a .absent .absent false (fnCross pw.code 0 dbl) = x := Option.some.inj he
  have h := packReg_reads 0x0E0 g d.toNat a .absent .absent false (fnCross pw.code 0 dbl) (by decide) d.isLt (by cases pw <;> cases dbl <;> decide)
  rw [hw] at h
  refine ⟨decodeWord_of (by rw [h.op]; rfl) h.low ?_ hl he (fun h => nomatch h), h.lt⟩
  rw [h.op]
  show ((Group.ofCode (bitsOf x 11 2)).map fun p => .part (guardOf x) (fieldD x) (regA x) p (bitOf x 6) : Option Instr) = _
  simp only [h.guard, h.a, fieldD_of h.d, h.bit1, h.bits6_2]
  all_goals (cases pw <;> cases dbl <;> rfl)

theorem RoundTrip.shfl (g : Guard) (d : BitVec 8) (a : Src) (b : Src) (pw : Group) (mode : ShflMode) (dbl : Bool) : RoundTrip.Statement (.shfl g d a b pw mode dbl) := by
  intro x hl he
  have hw : packReg 0x0E1 g d.toNat a b .absent false (fnCross pw.code mode.code dbl) = x := Option.some.inj he
  have h := packReg_reads 0x0E1 g d.toNat a b .absent false (fnCross pw.code mode.code dbl) (by decide) d.isLt (by cases pw <;> cases mode <;> cases dbl <;> decide)
  rw [hw] at h
  refine ⟨decodeWord_of (by rw [h.op]; rfl) h.low ?_ hl he (fun h => nomatch h), h.lt⟩
  rw [h.op]
  show ((Group.ofCode (bitsOf x 11 2)).bind fun p => (ShflMode.ofCode (bitsOf x 7 4)).map fun m => .shfl (guardOf x) (fieldD x) (regA x) (regB x) p m (bitOf x 6) : Option Instr) = _
  simp only [h.guard, h.a, h.b, fieldD_of h.d, h.bit1, h.bits2_4, h.bits6_2]
  all_goals (cases pw <;> cases mode <;> cases dbl <;> rfl)

theorem RoundTrip.vote (g : Guard) (d : BitVec 8) (a : Src) (pw : Part) (mode : VoteMode) (dbl : Bool) : RoundTrip.Statement (.vote g d a pw mode dbl) := by
  intro x hl he
  have hb := cross_bits dbl (part_lt pw) (vote_back mode).1
  have hw : packReg 0x0E2 g d.toNat a .absent pw.src false (fnCross pw.code mode.code dbl) = x := Option.some.inj he
  have h := packReg_reads 0x0E2 g d.toNat a .absent pw.src false (fnCross pw.code mode.code dbl) (by decide) d.isLt hb.1
  rw [hw] at h
  refine ⟨decodeWord_of (by rw [h.op]; rfl) h.low ?_ hl he (fun h => nomatch h), h.lt⟩
  rw [h.op]
  show ((regPart x).bind fun p => (VoteMode.ofCode (bitsOf x 7 4)).map fun m => .vote (guardOf x) (fieldD x) (regA x) p m (bitOf x 6) : Option Instr) = _
  simp only [regPart, h.guard, h.a, h.c, fieldD_of h.d, h.bits6_2, h.bits2_4, h.bit1, hb.2.1, hb.2.2.1, hb.2.2.2, part_back, (vote_back mode).2, Option.bind_some, Option.map_some]

theorem RoundTrip.redu (g : Guard) (d : BitVec 8) (a : Src) (pw : Part) (op : ReduOp) (dbl : Bool) : RoundTrip.Statement (.redu g d a pw op dbl) := by
  intro x hl he
  have hb := cross_bits dbl (part_lt pw) (redu_back op).1
  have hw : packReg 0x0E3 g d.toNat a .absent pw.src false (fnCross pw.code op.code dbl) = x := Option.some.inj he
  have h := packReg_reads 0x0E3 g d.toNat a .absent pw.src false (fnCross pw.code op.code dbl) (by decide) d.isLt hb.1
  rw [hw] at h
  refine ⟨decodeWord_of (by rw [h.op]; rfl) h.low ?_ hl he (fun h => nomatch h), h.lt⟩
  rw [h.op]
  show ((regPart x).bind fun p => (ReduOp.ofCode (bitsOf x 7 4)).map fun m => .redu (guardOf x) (fieldD x) (regA x) p m (bitOf x 6) : Option Instr) = _
  simp only [regPart, h.guard, h.a, h.c, fieldD_of h.d, h.bits6_2, h.bits2_4, h.bit1, hb.2.1, hb.2.2.1, hb.2.2.2, part_back, (redu_back op).2, Option.bind_some, Option.map_some]

theorem RoundTrip.movu (g : Guard) (d : BitVec 8) (a : BitVec 8) (sel : MovuSel) (dbl : Bool) : RoundTrip.Statement (.movu g d a sel dbl) := by
  intro x hl he
  have hb := cross_bits (p := 0) dbl (by decide) (movu_back sel).1
  have hw : packReg 0x0E4 g d.toNat (.v a) .absent .absent false (fnCross 0 sel.code dbl) = x := Option.some.inj he
  have h := packReg_reads 0x0E4 g d.toNat (.v a) .absent .absent false (fnCross 0 sel.code dbl) (by decide) d.isLt hb.1
  rw [hw] at h
  refine ⟨decodeWord_of (by rw [h.op]; rfl) h.low ?_ hl he (fun h => nomatch h), h.lt⟩
  rw [h.op]
  show ((MovuSel.ofCode (bitsOf x 7 4)).map fun m => .movu (guardOf x) (fieldD x) (fieldA x) m (bitOf x 6) : Option Instr) = _
  simp only [h.guard, h.fa, Src.num, fieldD_of h.d, h.bits2_4, h.bit1, hb.2.2.1, hb.2.2.2, (movu_back sel).2, Option.map_some]

theorem RoundTrip.srd (g : Guard) (ud : Bool) (d : BitVec 8) (n : BitVec 8) : RoundTrip.Statement (.srd g ud d n) := by
  intro x hl he
  have hw : packSpc 0x0F0 g d.toNat .absent n.toNat ud = x := Option.some.inj he
  have h := packSpc_reads 0x0F0 g d.toNat .absent n.toNat ud (by decide) d.isLt n.isLt
  rw [hw] at h
  have hB : fieldB x = n := field_of h.srn
  refine ⟨decodeWord_of (by rw [h.op]; rfl) h.low ?_ hl he (fun h => nomatch h), h.lt⟩
  rw [h.op]
  show (some (.srd (guardOf x) (bitOf x 15) (fieldD x) (fieldB x)) : Option Instr) = _
  simp only [h.guard, h.ud, hB, fieldD_of h.d]

theorem RoundTrip.swr (g : Guard) (n : BitVec 8) (a : Src) : RoundTrip.Statement (.swr g n a) := by
  intro x hl he
  have hw : packSpc 0x0F1 g 0 a n.toNat false = x := Option.some.inj he
  have h := packSpc_reads 0x0F1 g 0 a n.toNat false (by decide) (by decide) n.isLt
  rw [hw] at h
  have hB : fieldB x = n := field_of h.srn
  have hA : srcOf (bitOf x 16) (fieldA x) = a := h.a
  refine ⟨decodeWord_of (by rw [h.op]; rfl) h.low ?_ hl he (fun h => nomatch h), h.lt⟩
  rw [h.op]
  show (some (.swr (guardOf x) (fieldB x) (srcOf (bitOf x 16) (fieldA x))) : Option Instr) = _
  simp only [h.guard, hB, hA]

theorem RoundTrip.bra (g : Guard) (off : BitVec 24) : RoundTrip.Statement (.bra g off) := by
  intro x hl he
  have hw : packBrn 0x100 g 0 off.toNat 0 = x := Option.some.inj he
  have h := packBrn_reads 0x100 g 0 off.toNat 0 (by decide) (by decide) off.isLt (by decide)
  rw [hw] at h
  refine ⟨decodeWord_of (by rw [h.op]; rfl) h.low ?_ hl he (fun h => nomatch h), h.lt⟩
  rw [h.op]
  show (some (.bra (guardOf x) (brnOff x)) : Option Instr) = _
  simp only [brnOff, h.guard, ofNat_bitsOf h.off]

theorem RoundTrip.call (g : Guard) (d : BitVec 8) (off : BitVec 24) : RoundTrip.Statement (.call g d off) := by
  intro x hl he
  have hw : packBrn 0x101 g d.toNat off.toNat 0 = x := Option.some.inj he
  have h := packBrn_reads 0x101 g d.toNat off.toNat 0 (by decide) d.isLt off.isLt (by decide)
  rw [hw] at h
  refine ⟨decodeWord_of (by rw [h.op]; rfl) h.low ?_ hl he (fun h => nomatch h), h.lt⟩
  rw [h.op]
  show (some (.call (guardOf x) (fieldD x) (brnOff x)) : Option Instr) = _
  simp only [brnOff, h.guard, fieldD_of h.d, ofNat_bitsOf h.off]

theorem RoundTrip.calls (g : Guard) (d : BitVec 8) (off : BitVec 24) : RoundTrip.Statement (.calls g d off) := by
  intro x hl he
  have hw : packBrn 0x102 g d.toNat off.toNat 0 = x := Option.some.inj he
  have h := packBrn_reads 0x102 g d.toNat off.toNat 0 (by decide) d.isLt off.isLt (by decide)
  rw [hw] at h
  refine ⟨decodeWord_of (by rw [h.op]; rfl) h.low ?_ hl he (fun h => nomatch h), h.lt⟩
  rw [h.op]
  show (some (.calls (guardOf x) (fieldD x) (brnOff x)) : Option Instr) = _
  simp only [brnOff, h.guard, fieldD_of h.d, ofNat_bitsOf h.off]

theorem RoundTrip.ret (g : Guard) (a : Src) : RoundTrip.Statement (.ret g a) := by
  intro x hl he
  have hw : packReg 0x103 g 0 a .absent .absent false 0 = x := Option.some.inj he
  have h := packReg_reads 0x103 g 0 a .absent .absent false 0 (by decide) (by decide) (by decide)
  rw [hw] at h
  refine ⟨decodeWord_of (by rw [h.op]; rfl) h.low ?_ hl he (fun h => nomatch h), h.lt⟩
  rw [h.op]
  show (if regFn0 x then some (.retS (guardOf x)) else some (.ret (guardOf x) (regA x)) : Option Instr) = _
  simp only [regFn0, h.guard, h.a, h.bit0]
  all_goals (rfl)

theorem RoundTrip.retS (g : Guard) : RoundTrip.Statement (.retS g) := by
  intro x hl he
  have hw : packReg 0x103 g 0 .absent .absent .absent false 1 = x := Option.some.inj he
  have h := packReg_reads 0x103 g 0 .absent .absent .absent false 1 (by decide) (by decide) (by decide)
  rw [hw] at h
  refine ⟨decodeWord_of (by rw [h.op]; rfl) h.low ?_ hl he (fun h => nomatch h), h.lt⟩
  rw [h.op]
  show (if regFn0 x then some (.retS (guardOf x)) else some (.ret (guardOf x) (regA x)) : Option Instr) = _
  simp only [regFn0, h.guard, h.a, h.bit0]
  all_goals (rfl)

theorem RoundTrip.brx (g : Guard) (a : Src) (b : Src) : RoundTrip.Statement (.brx g a b) := by
  intro x hl he
  have hw : packReg 0x104 g 0 a b .absent false 0 = x := Option.some.inj he
  have h := packReg_reads 0x104 g 0 a b .absent false 0 (by decide) (by decide) (by decide)
  rw [hw] at h
  refine ⟨decodeWord_of (by rw [h.op]; rfl) h.low ?_ hl he (fun h => nomatch h), h.lt⟩
  rw [h.op]
  show (some (.brx (guardOf x) (regA x) (regB x)) : Option Instr) = _
  simp only [h.guard, h.a, h.b]

theorem RoundTrip.callx (g : Guard) (d : BitVec 8) (a : Src) (b : Src) : RoundTrip.Statement (.callx g d a b) := by
  intro x hl he
  have hw : packReg 0x105 g d.toNat a b .absent false 0 = x := Option.some.inj he
  have h := packReg_reads 0x105 g d.toNat a b .absent false 0 (by decide) d.isLt (by decide)
  rw [hw] at h
  refine ⟨decodeWord_of (by rw [h.op]; rfl) h.low ?_ hl he (fun h => nomatch h), h.lt⟩
  rw [h.op]
  show (some (.callx (guardOf x) (fieldD x) (regA x) (regB x)) : Option Instr) = _
  simp only [h.guard, h.a, h.b, fieldD_of h.d]

theorem RoundTrip.reform (g : Guard) : RoundTrip.Statement (.reform g) := by
  intro x hl he
  have hw : packReg 0x106 g 0 .absent .absent .absent false 0 = x := Option.some.inj he
  have h := packReg_reads 0x106 g 0 .absent .absent .absent false 0 (by decide) (by decide) (by decide)
  rw [hw] at h
  refine ⟨decodeWord_of (by rw [h.op]; rfl) h.low ?_ hl he (fun h => nomatch h), h.lt⟩
  rw [h.op]
  show (some (.reform (guardOf x)) : Option Instr) = _
  simp only [h.guard]

theorem RoundTrip.backoff (g : Guard) (p : BitVec 4) : RoundTrip.Statement (.backoff g p) := by
  intro x hl he
  have hw : packReg 0x107 g 0 (.v (p.setWidth 8)) .absent .absent false 0 = x := Option.some.inj he
  have h := packReg_reads 0x107 g 0 (.v (p.setWidth 8)) .absent .absent false 0 (by decide) (by decide) (by decide)
  rw [hw] at h
  refine ⟨decodeWord_of (by rw [h.op]; rfl) h.low ?_ hl he (fun h => nomatch h), h.lt⟩
  rw [h.op]
  show (some (.backoff (guardOf x) (predA x)) : Option Instr) = _
  simp only [h.guard, predA_of h.fa]

theorem RoundTrip.nop (g : Guard) : RoundTrip.Statement (.nop g) := by
  intro x hl he
  have hw : packReg 0x108 g 0 .absent .absent .absent false 0 = x := Option.some.inj he
  have h := packReg_reads 0x108 g 0 .absent .absent .absent false 0 (by decide) (by decide) (by decide)
  rw [hw] at h
  refine ⟨decodeWord_of (by rw [h.op]; rfl) h.low ?_ hl he (fun h => nomatch h), h.lt⟩
  rw [h.op]
  show (some (.nop (guardOf x)) : Option Instr) = _
  simp only [h.guard]

theorem RoundTrip.exit (g : Guard) : RoundTrip.Statement (.exit g) := by
  intro x hl he
  have hw : packReg 0x109 g 0 .absent .absent .absent false 0 = x := Option.some.inj he
  have h := packReg_reads 0x109 g 0 .absent .absent .absent false 0 (by decide) (by decide) (by decide)
  rw [hw] at h
  refine ⟨decodeWord_of (by rw [h.op]; rfl) h.low ?_ hl he (fun h => nomatch h), h.lt⟩
  rw [h.op]
  show (some (.exit (guardOf x)) : Option Instr) = _
  simp only [h.guard]

theorem RoundTrip.spawn (g : Guard) (n : BitVec 8) (d : BitVec 8) (off : BitVec 24) : RoundTrip.Statement (.spawn g n d off) := by
  intro x hl he
  have hw : packBrn 0x10A g d.toNat off.toNat n.toNat = x := Option.some.inj he
  have h := packBrn_reads 0x10A g d.toNat off.toNat n.toNat (by decide) d.isLt off.isLt (Nat.lt_trans n.isLt (by decide))
  rw [hw] at h
  refine ⟨decodeWord_of (by rw [h.op]; rfl) h.low ?_ hl he (fun h => nomatch h), h.lt⟩
  rw [h.op]
  show (some (.spawn (guardOf x) (BitVec.ofNat 8 (bitsOf x 5 8)) (fieldD x) (brnOff x)) : Option Instr) = _
  simp only [h.guard, fieldD_of h.d, brnOff, ofNat_bitsOf h.off, h.bits0_8, bitsOf_toNat]

theorem RoundTrip.hinst (g : Guard) (ve : BitVec 8) (k : Src) (off : BitVec 24) : RoundTrip.Statement (.hinst g ve k off) := by
  intro x hl he
  have hw : packBrn 0x10B g ve.toNat off.toNat (k.num.toNat + natOfBool k.uniform * 2 ^ 8) = x := Option.some.inj he
  have h := packBrn_reads 0x10B g ve.toNat off.toNat (k.num.toNat + natOfBool k.uniform * 2 ^ 8) (by decide) ve.isLt off.isLt (src_bits k).1
  rw [hw] at h
  refine ⟨decodeWord_of (by rw [h.op]; rfl) h.low ?_ hl he (fun h => nomatch h), h.lt⟩
  rw [h.op]
  show (some (.hinst (guardOf x) (fieldD x) (srcOf (bitOf x 13) (BitVec.ofNat 8 (bitsOf x 5 8))) (brnOff x)) : Option Instr) = _
  simp only [h.guard, fieldD_of h.d, brnOff, ofNat_bitsOf h.off, h.bits0_8, h.bit8, (src_bits k).2]

theorem RoundTrip.hdrop (g : Guard) : RoundTrip.Statement (.hdrop g) := by
  intro x hl he
  have hw : packReg 0x10C g 0 .absent .absent .absent false 0 = x := Option.some.inj he
  have h := packReg_reads 0x10C g 0 .absent .absent .absent false 0 (by decide) (by decide) (by decide)
  rw [hw] at h
  refine ⟨decodeWord_of (by rw [h.op]; rfl) h.low ?_ hl he (fun h => nomatch h), h.lt⟩
  rw [h.op]
  show (some (.hdrop (guardOf x)) : Option Instr) = _
  simp only [h.guard]

theorem RoundTrip.perf (g : Guard) (d : BitVec 8) (a : Src) (b : Src) (r : Bool) : RoundTrip.Statement (.perf g d a b r) := by
  intro x hl he
  have hw : packReg 0x10D g d.toNat a b .absent false (natOfBool r) = x := Option.some.inj he
  have h := packReg_reads 0x10D g d.toNat a b .absent false (natOfBool r) (by decide) d.isLt (Nat.lt_trans (natOfBool_lt _) (by decide))
  rw [hw] at h
  refine ⟨decodeWord_of (by rw [h.op]; rfl) h.low ?_ hl he (fun h => nomatch h), h.lt⟩
  rw [h.op]
  show (some (.perf (guardOf x) (fieldD x) (regA x) (regB x) (regFn0 x)) : Option Instr) = _
  simp only [regFn0, h.guard, h.a, h.b, fieldD_of h.d, h.bit0]
  all_goals (cases r <;> rfl)

theorem RoundTrip.rsm (g : Guard) (a : Src) (b : Src) : RoundTrip.Statement (.rsm g a b) := by
  intro x hl he
  have hw : packReg 0x10E g 0 a b .absent false 0 = x := Option.some.inj he
  have h := packReg_reads 0x10E g 0 a b .absent false 0 (by decide) (by decide) (by decide)
  rw [hw] at h
  refine ⟨decodeWord_of (by rw [h.op]; rfl) h.low ?_ hl he (fun h => nomatch h), h.lt⟩
  rw [h.op]
  show (some (.rsm (guardOf x) (regA x) (regB x)) : Option Instr) = _
  simp only [h.guard, h.a, h.b]

theorem RoundTrip.rsmt (g : Guard) (a : Src) (b : Src) : RoundTrip.Statement (.rsmt g a b) := by
  intro x hl he
  have hw : packReg 0x10F g 0 a b .absent false 0 = x := Option.some.inj he
  have h := packReg_reads 0x10F g 0 a b .absent false 0 (by decide) (by decide) (by decide)
  rw [hw] at h
  refine ⟨decodeWord_of (by rw [h.op]; rfl) h.low ?_ hl he (fun h => nomatch h), h.lt⟩
  rw [h.op]
  show (some (.rsmt (guardOf x) (regA x) (regB x)) : Option Instr) = _
  simp only [h.guard, h.a, h.b]

theorem RoundTrip.dropk (g : Guard) (a : Src) : RoundTrip.Statement (.dropk g a) := by
  intro x hl he
  have hw : packReg 0x110 g 0 a .absent .absent false 0 = x := Option.some.inj he
  have h := packReg_reads 0x110 g 0 a .absent .absent false 0 (by decide) (by decide) (by decide)
  rw [hw] at h
  refine ⟨decodeWord_of (by rw [h.op]; rfl) h.low ?_ hl he (fun h => nomatch h), h.lt⟩
  rw [h.op]
  show (some (.dropk (guardOf x) (regA x)) : Option Instr) = _
  simp only [h.guard, h.a]

theorem RoundTrip.ksend (g : Guard) (d : BitVec 8) (a : Src) (b : Src) (c : Src) : RoundTrip.Statement (.ksend g d a b c) := by
  intro x hl he
  have hw : packReg 0x111 g d.toNat a b c false 0 = x := Option.some.inj he
  have h := packReg_reads 0x111 g d.toNat a b c false 0 (by decide) d.isLt (by decide)
  rw [hw] at h
  refine ⟨decodeWord_of (by rw [h.op]; rfl) h.low ?_ hl he (fun h => nomatch h), h.lt⟩
  rw [h.op]
  show (some (.ksend (guardOf x) (fieldD x) (regA x) (regB x) (regC x)) : Option Instr) = _
  simp only [h.guard, h.a, h.b, h.c, fieldD_of h.d]

theorem RoundTrip.kinfo (g : Guard) (d : BitVec 8) (sel : KSel) : RoundTrip.Statement (.kinfo g d sel) := by
  intro x hl he
  have hw : packReg 0x112 g d.toNat sel.src .absent .absent false sel.code = x := Option.some.inj he
  have h := packReg_reads 0x112 g d.toNat sel.src .absent .absent false sel.code (by decide) d.isLt (ksel_back sel).1
  rw [hw] at h
  refine ⟨decodeWord_of (by rw [h.op]; rfl) h.low ?_ hl he (fun h => nomatch h), h.lt⟩
  rw [h.op]
  show ((kselOf (bitsOf x 5 3) (regA x)).map (.kinfo (guardOf x) (fieldD x)) : Option Instr) = _
  simp only [h.guard, h.a, fieldD_of h.d, h.bits0_3, (ksel_back sel).2, Option.map_some]

theorem RoundTrip.ld (g : Guard) (m : MemF) : RoundTrip.Statement (.ld g m) := by
  intro x hl he
  have hw : packMem 0x140 g m.d.toNat m.wid.code m.ofs.toNat m.ft m.base m.space m.scope m.ord m.line = x := Option.some.inj he
  have h := packMem_reads 0x140 g m.d.toNat m.wid.code m.ofs.toNat m.ft m.base m.space m.scope m.ord m.line (by decide) m.d.isLt (Wid.code_lt _) m.ofs.isLt
  rw [hw] at h
  refine ⟨decodeWord_of (by rw [h.op]; rfl) h.low ?_ hl he (fun h => nomatch h), h.lt⟩
  rw [h.op]
  show ((memF x).map (.ld (guardOf x)) : Option Instr) = _
  simp only [h.guard, h.memF]
  all_goals (rfl)

theorem RoundTrip.st (g : Guard) (m : MemF) : RoundTrip.Statement (.st g m) := by
  intro x hl he
  have hw : packMem 0x141 g m.d.toNat m.wid.code m.ofs.toNat m.ft m.base m.space m.scope m.ord m.line = x := Option.some.inj he
  have h := packMem_reads 0x141 g m.d.toNat m.wid.code m.ofs.toNat m.ft m.base m.space m.scope m.ord m.line (by decide) m.d.isLt (Wid.code_lt _) m.ofs.isLt
  rw [hw] at h
  refine ⟨decodeWord_of (by rw [h.op]; rfl) h.low ?_ hl he (fun _ => h.acc.fsel), h.lt⟩
  rw [h.op]
  show ((memF x).map (.st (guardOf x)) : Option Instr) = _
  simp only [h.guard, h.memF]
  all_goals (rfl)

theorem RoundTrip.lds (g : Guard) (m : MemF) : RoundTrip.Statement (.lds g m) := by
  intro x hl he
  have hw : packMem 0x142 g m.d.toNat m.wid.code m.ofs.toNat m.ft m.base m.space m.scope m.ord m.line = x := Option.some.inj he
  have h := packMem_reads 0x142 g m.d.toNat m.wid.code m.ofs.toNat m.ft m.base m.space m.scope m.ord m.line (by decide) m.d.isLt (Wid.code_lt _) m.ofs.isLt
  rw [hw] at h
  refine ⟨decodeWord_of (by rw [h.op]; rfl) h.low ?_ hl he (fun h => nomatch h), h.lt⟩
  rw [h.op]
  show ((memF x).map (.lds (guardOf x)) : Option Instr) = _
  simp only [h.guard, h.memF]
  all_goals (rfl)

theorem RoundTrip.sts (g : Guard) (m : MemF) : RoundTrip.Statement (.sts g m) := by
  intro x hl he
  have hw : packMem 0x143 g m.d.toNat m.wid.code m.ofs.toNat m.ft m.base m.space m.scope m.ord m.line = x := Option.some.inj he
  have h := packMem_reads 0x143 g m.d.toNat m.wid.code m.ofs.toNat m.ft m.base m.space m.scope m.ord m.line (by decide) m.d.isLt (Wid.code_lt _) m.ofs.isLt
  rw [hw] at h
  refine ⟨decodeWord_of (by rw [h.op]; rfl) h.low ?_ hl he (fun _ => h.acc.fsel), h.lt⟩
  rw [h.op]
  show ((memF x).map (.sts (guardOf x)) : Option Instr) = _
  simp only [h.guard, h.memF]
  all_goals (rfl)

theorem RoundTrip.atom (g : Guard) (m : AtmF) (op : AtomOp) (nr : Bool) : RoundTrip.Statement (.atom g m op nr) := by
  intro x hl he
  have hw : packAtm 0x144 g m (natOfBool nr * 2 ^ 4 + op.code) = x := Option.some.inj he
  have h := packAtm_reads 0x144 g m (natOfBool nr * 2 ^ 4 + op.code) (by decide) (by cases op <;> cases nr <;> decide)
  rw [hw] at h
  refine ⟨decodeWord_of (by rw [h.op]; rfl) h.low ?_ hl he (fun _ => h.fsel), h.lt⟩
  rw [h.op]
  show ((atmF x).bind fun m => (AtomOp.ofCode (bitsOf x 17 4)).map fun o => .atom (guardOf x) m o (bitOf x 21) : Option Instr) = _
  simp only [h.guard, h.m, h.bits0_4, h.bit4]
  all_goals (cases op <;> cases nr <;> rfl)

theorem RoundTrip.atomd (g : Guard) (m : AtmF) (op : AtomOp) (nr : Bool) : RoundTrip.Statement (.atomd g m op nr) := by
  intro x hl he
  have hw : packAtm 0x145 g m (natOfBool nr * 2 ^ 4 + op.code) = x := Option.some.inj he
  have h := packAtm_reads 0x145 g m (natOfBool nr * 2 ^ 4 + op.code) (by decide) (by cases op <;> cases nr <;> decide)
  rw [hw] at h
  refine ⟨decodeWord_of (by rw [h.op]; rfl) h.low ?_ hl he (fun _ => h.fsel), h.lt⟩
  rw [h.op]
  show ((atmF x).bind fun m => (AtomOp.ofCode (bitsOf x 17 4)).map fun o => .atomd (guardOf x) m o (bitOf x 21) : Option Instr) = _
  simp only [h.guard, h.m, h.bits0_4, h.bit4]
  all_goals (cases op <;> cases nr <;> rfl)

theorem RoundTrip.cas (g : Guard) (m : AtmF) (c : BitVec 8) : RoundTrip.Statement (.cas g m c) := by
  intro x hl he
  have hw : packAtm 0x146 g m c.toNat = x := Option.some.inj he
  have h := packAtm_reads 0x146 g m c.toNat (by decide) c.isLt
  rw [hw] at h
  have hc : fieldC x = c := field_of h.c
  refine ⟨decodeWord_of (by rw [h.op]; rfl) h.low ?_ hl he (fun _ => h.fsel), h.lt⟩
  rw [h.op]
  show ((atmF x).map fun m => .cas (guardOf x) m (fieldC x) : Option Instr) = _
  simp only [h.guard, h.m, hc, Option.map_some]

theorem RoundTrip.casd (g : Guard) (m : AtmF) (c : BitVec 8) : RoundTrip.Statement (.casd g m c) := by
  intro x hl he
  have hw : packAtm 0x147 g m c.toNat = x := Option.some.inj he
  have h := packAtm_reads 0x147 g m c.toNat (by decide) c.isLt
  rw [hw] at h
  have hc : fieldC x = c := field_of h.c
  refine ⟨decodeWord_of (by rw [h.op]; rfl) h.low ?_ hl he (fun _ => h.fsel), h.lt⟩
  rw [h.op]
  show ((atmF x).map fun m => .casd (guardOf x) m (fieldC x) : Option Instr) = _
  simp only [h.guard, h.m, hc, Option.map_some]

theorem RoundTrip.lnset (g : Guard) (m : LineF) : RoundTrip.Statement (.lnset g m) := by
  intro x hl he
  have hw : packMem 0x148 g 0 0 m.ofs.toNat m.ft m.base m.space m.scope m.ord false = x := Option.some.inj he
  have h := packMem_reads 0x148 g 0 0 m.ofs.toNat m.ft m.base m.space m.scope m.ord false (by decide) (by decide) (by decide) m.ofs.isLt
  rw [hw] at h
  refine ⟨decodeWord_of (by rw [h.op]; rfl) h.low ?_ hl he (fun _ => h.acc.fsel), h.lt⟩
  rw [h.op]
  show ((lineF x).map (.lnset (guardOf x)) : Option Instr) = _
  simp only [h.guard, h.lineF]
  all_goals (rfl)

theorem RoundTrip.lnclr (g : Guard) (m : LineF) : RoundTrip.Statement (.lnclr g m) := by
  intro x hl he
  have hw : packMem 0x149 g 0 0 m.ofs.toNat m.ft m.base m.space m.scope m.ord false = x := Option.some.inj he
  have h := packMem_reads 0x149 g 0 0 m.ofs.toNat m.ft m.base m.space m.scope m.ord false (by decide) (by decide) (by decide) m.ofs.isLt
  rw [hw] at h
  refine ⟨decodeWord_of (by rw [h.op]; rfl) h.low ?_ hl he (fun _ => h.acc.fsel), h.lt⟩
  rw [h.op]
  show ((lineF x).map (.lnclr (guardOf x)) : Option Instr) = _
  simp only [h.guard, h.lineF]
  all_goals (rfl)

theorem RoundTrip.fence (g : Guard) (scope : Scope) (o : Ord) : RoundTrip.Statement (.fence g scope o) := by
  intro x hl he
  have hw : packMem 0x14A g 0 0 0 .none .absent .generic scope o false = x := Option.some.inj he
  have h := packMem_reads 0x14A g 0 0 0 .none .absent .generic scope o false (by decide) (by decide) (by decide) (by decide)
  rw [hw] at h
  refine ⟨decodeWord_of (by rw [h.op]; rfl) h.low ?_ hl he (fun h => nomatch h), h.lt⟩
  rw [h.op]
  show (readFence x : Option Instr) = _
  simp only [readFence, h.guard, h.acc.sso, h.wid]
  all_goals (rfl)

theorem RoundTrip.fenceSc (g : Guard) (scope : Scope) : RoundTrip.Statement (.fenceSc g scope) := by
  intro x hl he
  have hw : packMem 0x14A g 0 1 0 .none .absent .generic scope .plain false = x := Option.some.inj he
  have h := packMem_reads 0x14A g 0 1 0 .none .absent .generic scope .plain false (by decide) (by decide) (by decide) (by decide)
  rw [hw] at h
  refine ⟨decodeWord_of (by rw [h.op]; rfl) h.low ?_ hl he (fun h => nomatch h), h.lt⟩
  rw [h.op]
  show (readFence x : Option Instr) = _
  simp only [readFence, h.guard, h.acc.sso, h.wid]
  all_goals (rfl)

theorem RoundTrip.fopen (g : Guard) (n : BitVec 2) : RoundTrip.Statement (.fopen g n) := by
  intro x hl he
  have hw : packReg 0x14B g n.toNat .absent .absent .absent false 0 = x := Option.some.inj he
  have h := packReg_reads 0x14B g n.toNat .absent .absent .absent false 0 (by decide) (Nat.lt_trans n.isLt (by decide)) (by decide)
  rw [hw] at h
  refine ⟨decodeWord_of (by rw [h.op]; rfl) h.low ?_ hl he (fun h => nomatch h), h.lt⟩
  rw [h.op]
  show (some (.fopen (guardOf x) (BitVec.ofNat 2 (bitsOf x 41 2))) : Option Instr) = _
  simp only [h.guard, two_of h.d]

theorem RoundTrip.fseal (g : Guard) (d : BitVec 8) (n : BitVec 2) : RoundTrip.Statement (.fseal g d n) := by
  intro x hl he
  have hw : packReg 0x14C g d.toNat (.v (n.setWidth 8)) .absent .absent false 0 = x := Option.some.inj he
  have h := packReg_reads 0x14C g d.toNat (.v (n.setWidth 8)) .absent .absent false 0 (by decide) d.isLt (by decide)
  rw [hw] at h
  refine ⟨decodeWord_of (by rw [h.op]; rfl) h.low ?_ hl he (fun h => nomatch h), h.lt⟩
  rw [h.op]
  show (some (.fseal (guardOf x) (fieldD x) (BitVec.ofNat 2 (bitsOf x 33 2))) : Option Instr) = _
  simp only [h.guard, fieldD_of h.d, pairs_of h.fa]

theorem RoundTrip.fabort (g : Guard) (d : BitVec 8) (n : BitVec 2) : RoundTrip.Statement (.fabort g d n) := by
  intro x hl he
  have hw : packReg 0x14D g d.toNat (.v (n.setWidth 8)) .absent .absent false 0 = x := Option.some.inj he
  have h := packReg_reads 0x14D g d.toNat (.v (n.setWidth 8)) .absent .absent false 0 (by decide) d.isLt (by decide)
  rw [hw] at h
  refine ⟨decodeWord_of (by rw [h.op]; rfl) h.low ?_ hl he (fun h => nomatch h), h.lt⟩
  rw [h.op]
  show (some (.fabort (guardOf x) (fieldD x) (BitVec.ofNat 2 (bitsOf x 33 2))) : Option Instr) = _
  simp only [h.guard, fieldD_of h.d, pairs_of h.fa]

theorem RoundTrip.view (g : Guard) (d : BitVec 8) (stamp : Option Src) : RoundTrip.Statement (.view g d stamp) := by
  cases stamp with
  | none =>
    intro x hl he
    have hw : packReg 0x14E g d.toNat .absent .absent .absent false 0 = x := Option.some.inj he
    have h := packReg_reads 0x14E g d.toNat .absent .absent .absent false 0 (by decide) d.isLt (by decide)
    rw [hw] at h
    refine ⟨decodeWord_of (by rw [h.op]; rfl) h.low ?_ hl he (fun h => nomatch h), h.lt⟩
    rw [h.op]
    show (some (.view (guardOf x) (fieldD x) (if regFn0 x then some (regA x) else none)) : Option Instr) = _
    simp only [h.guard, fieldD_of h.d, regFn0, h.bit0]
    rfl
  | some a =>
    intro x hl he
    have hw : packReg 0x14E g d.toNat a .absent .absent false 1 = x := Option.some.inj he
    have h := packReg_reads 0x14E g d.toNat a .absent .absent false 1 (by decide) d.isLt (by decide)
    rw [hw] at h
    refine ⟨decodeWord_of (by rw [h.op]; rfl) h.low ?_ hl he (fun h => nomatch h), h.lt⟩
    rw [h.op]
    show (some (.view (guardOf x) (fieldD x) (if regFn0 x then some (regA x) else none)) : Option Instr) = _
    simp only [h.guard, h.a, fieldD_of h.d, regFn0, h.bit0]
    rfl

theorem RoundTrip.baraArrive (g : Guard) (d : BitVec 8) (m : LineF) : RoundTrip.Statement (.baraArrive g d m) := by
  intro x hl he
  have hw : packMem 0x14F g d.toNat 0 m.ofs.toNat m.ft m.base m.space m.scope m.ord false = x := Option.some.inj he
  have h := packMem_reads 0x14F g d.toNat 0 m.ofs.toNat m.ft m.base m.space m.scope m.ord false (by decide) d.isLt (by decide) m.ofs.isLt
  rw [hw] at h
  refine ⟨decodeWord_of (by rw [h.op]; rfl) h.low ?_ hl he (fun _ => h.acc.fsel), h.lt⟩
  rw [h.op]
  show (readBara x : Option Instr) = _
  simp only [readBara, h.guard, fieldD_of h.d, h.lineF, h.wid]
  all_goals (rfl)

theorem RoundTrip.baraInit (g : Guard) (d : BitVec 8) (m : LineF) : RoundTrip.Statement (.baraInit g d m) := by
  intro x hl he
  have hw : packMem 0x14F g d.toNat 1 m.ofs.toNat m.ft m.base m.space m.scope m.ord false = x := Option.some.inj he
  have h := packMem_reads 0x14F g d.toNat 1 m.ofs.toNat m.ft m.base m.space m.scope m.ord false (by decide) d.isLt (by decide) m.ofs.isLt
  rw [hw] at h
  refine ⟨decodeWord_of (by rw [h.op]; rfl) h.low ?_ hl he (fun _ => h.acc.fsel), h.lt⟩
  rw [h.op]
  show (readBara x : Option Instr) = _
  simp only [readBara, h.guard, fieldD_of h.d, h.lineF, h.wid]
  all_goals (rfl)

theorem RoundTrip.baraLeave (g : Guard) (d : BitVec 8) (m : LineF) : RoundTrip.Statement (.baraLeave g d m) := by
  intro x hl he
  have hw : packMem 0x14F g d.toNat 2 m.ofs.toNat m.ft m.base m.space m.scope m.ord false = x := Option.some.inj he
  have h := packMem_reads 0x14F g d.toNat 2 m.ofs.toNat m.ft m.base m.space m.scope m.ord false (by decide) d.isLt (by decide) m.ofs.isLt
  rw [hw] at h
  refine ⟨decodeWord_of (by rw [h.op]; rfl) h.low ?_ hl he (fun _ => h.acc.fsel), h.lt⟩
  rw [h.op]
  show (readBara x : Option Instr) = _
  simp only [readBara, h.guard, fieldD_of h.d, h.lineF, h.wid]
  all_goals (rfl)

theorem RoundTrip.baraKill (g : Guard) (d : BitVec 8) (m : LineF) : RoundTrip.Statement (.baraKill g d m) := by
  intro x hl he
  have hw : packMem 0x14F g d.toNat 3 m.ofs.toNat m.ft m.base m.space m.scope m.ord false = x := Option.some.inj he
  have h := packMem_reads 0x14F g d.toNat 3 m.ofs.toNat m.ft m.base m.space m.scope m.ord false (by decide) d.isLt (by decide) m.ofs.isLt
  rw [hw] at h
  refine ⟨decodeWord_of (by rw [h.op]; rfl) h.low ?_ hl he (fun _ => h.acc.fsel), h.lt⟩
  rw [h.op]
  show (readBara x : Option Instr) = _
  simp only [readBara, h.guard, fieldD_of h.d, h.lineF, h.wid]
  all_goals (rfl)

theorem RoundTrip.barw (g : Guard) (d : BitVec 8) (m : LineF) : RoundTrip.Statement (.barw g d m) := by
  intro x hl he
  have hw : packMem 0x150 g d.toNat 0 m.ofs.toNat m.ft m.base m.space m.scope m.ord false = x := Option.some.inj he
  have h := packMem_reads 0x150 g d.toNat 0 m.ofs.toNat m.ft m.base m.space m.scope m.ord false (by decide) d.isLt (by decide) m.ofs.isLt
  rw [hw] at h
  refine ⟨decodeWord_of (by rw [h.op]; rfl) h.low ?_ hl he (fun h => nomatch h), h.lt⟩
  rw [h.op]
  show ((lineF x).map (.barw (guardOf x) (fieldD x)) : Option Instr) = _
  simp only [h.guard, fieldD_of h.d, h.lineF]
  all_goals (rfl)

theorem RoundTrip.icinv (g : Guard) (m : LineF) : RoundTrip.Statement (.icinv g m) := by
  intro x hl he
  have hw : packMem 0x151 g 0 0 m.ofs.toNat m.ft m.base m.space m.scope m.ord false = x := Option.some.inj he
  have h := packMem_reads 0x151 g 0 0 m.ofs.toNat m.ft m.base m.space m.scope m.ord false (by decide) (by decide) (by decide) m.ofs.isLt
  rw [hw] at h
  refine ⟨decodeWord_of (by rw [h.op]; rfl) h.low ?_ hl he (fun _ => h.acc.fsel), h.lt⟩
  rw [h.op]
  show ((lineF x).map (.icinv (guardOf x)) : Option Instr) = _
  simp only [h.guard, h.lineF]
  all_goals (rfl)

theorem RoundTrip.isync (g : Guard) : RoundTrip.Statement (.isync g) := by
  intro x hl he
  have hw : packReg 0x152 g 0 .absent .absent .absent false 0 = x := Option.some.inj he
  have h := packReg_reads 0x152 g 0 .absent .absent .absent false 0 (by decide) (by decide) (by decide)
  rw [hw] at h
  refine ⟨decodeWord_of (by rw [h.op]; rfl) h.low ?_ hl he (fun h => nomatch h), h.lt⟩
  rw [h.op]
  show (some (.isync (guardOf x)) : Option Instr) = _
  simp only [h.guard]

theorem RoundTrip.tdef (g : Guard) (d : BitVec 8) (a : Src) (b : Src) (chain : Bool) (ready : Bool) : RoundTrip.Statement (.tdef g d a b chain ready) := by
  intro x hl he
  have hw : packEng 0x180 g d.toNat a b .absent .none (natOfBool chain * 2 + natOfBool ready) = x := Option.some.inj he
  have h := packEng_reads 0x180 g d.toNat a b .absent .none (natOfBool chain * 2 + natOfBool ready) (by decide) d.isLt (by cases chain <;> cases ready <;> decide)
  rw [hw] at h
  refine ⟨decodeWord_of (by rw [h.op]; rfl) h.low ?_ hl he (fun h => nomatch h), h.lt⟩
  rw [h.op]
  show (some (.tdef (guardOf x) (fieldD x) (engA x) (engB x) (bitOf x 6) (bitOf x 5)) : Option Instr) = _
  simp only [h.guard, h.a, h.b, fieldD_of h.d, h.bit0, h.bit1]
  all_goals (cases chain <;> cases ready <;> rfl)

theorem RoundTrip.ttag (g : Guard) (a : Src) (b : Src) : RoundTrip.Statement (.ttag g a b) := by
  intro x hl he
  have hw : packEng 0x181 g 0 a b .absent .none 0 = x := Option.some.inj he
  have h := packEng_reads 0x181 g 0 a b .absent .none 0 (by decide) (by decide) (by decide)
  rw [hw] at h
  refine ⟨decodeWord_of (by rw [h.op]; rfl) h.low ?_ hl he (fun h => nomatch h), h.lt⟩
  rw [h.op]
  show (some (.ttag (guardOf x) (engA x) (engB x)) : Option Instr) = _
  simp only [h.guard, h.a, h.b]

theorem RoundTrip.tqry (g : Guard) (d : BitVec 8) (a : Src) (sel : TSel) : RoundTrip.Statement (.tqry g d a sel) := by
  intro x hl he
  have hw : packEng 0x182 g d.toNat a .absent .absent .none sel.code = x := Option.some.inj he
  have h := packEng_reads 0x182 g d.toNat a .absent .absent .none sel.code (by decide) d.isLt (by cases sel <;> decide)
  rw [hw] at h
  refine ⟨decodeWord_of (by rw [h.op]; rfl) h.low ?_ hl he (fun h => nomatch h), h.lt⟩
  rw [h.op]
  show ((TSel.ofCode (bitsOf x 5 3)).map (.tqry (guardOf x) (fieldD x) (engA x)) : Option Instr) = _
  simp only [h.guard, h.a, fieldD_of h.d, h.bits0_3]
  all_goals (cases sel <;> rfl)

theorem RoundTrip.twait (g : Guard) (a : Src) (e : Bool) : RoundTrip.Statement (.twait g a e) := by
  intro x hl he
  have hw : packEng 0x183 g 0 a .absent .absent .none (natOfBool e) = x := Option.some.inj he
  have h := packEng_reads 0x183 g 0 a .absent .absent .none (natOfBool e) (by decide) (by decide) (Nat.lt_trans (natOfBool_lt _) (by decide))
  rw [hw] at h
  refine ⟨decodeWord_of (by rw [h.op]; rfl) h.low ?_ hl he (fun h => nomatch h), h.lt⟩
  rw [h.op]
  show (some (.twait (guardOf x) (engA x) (bitOf x 5)) : Option Instr) = _
  simp only [h.guard, h.a, h.bit0]
  all_goals (cases e <;> rfl)

theorem RoundTrip.trel (g : Guard) (a : Src) (u : Bool) : RoundTrip.Statement (.trel g a u) := by
  intro x hl he
  have hw : packEng 0x184 g 0 a .absent .absent .none (natOfBool u) = x := Option.some.inj he
  have h := packEng_reads 0x184 g 0 a .absent .absent .none (natOfBool u) (by decide) (by decide) (Nat.lt_trans (natOfBool_lt _) (by decide))
  rw [hw] at h
  refine ⟨decodeWord_of (by rw [h.op]; rfl) h.low ?_ hl he (fun h => nomatch h), h.lt⟩
  rw [h.op]
  show (some (.trel (guardOf x) (engA x) (bitOf x 5)) : Option Instr) = _
  simp only [h.guard, h.a, h.bit0]
  all_goals (cases u <;> rfl)

theorem RoundTrip.tld (g : Guard) (d : BitVec 8) (a : Src) (b : Src) (c : Src) (ft : Ft) : RoundTrip.Statement (.tld g d a b c ft) := by
  intro x hl he
  have hw : packEng 0x185 g d.toNat a b c ft 0 = x := Option.some.inj he
  have h := packEng_reads 0x185 g d.toNat a b c ft 0 (by decide) d.isLt (by decide)
  rw [hw] at h
  refine ⟨decodeWord_of (by rw [h.op]; rfl) h.low ?_ hl he (fun _ => h.fsel), h.lt⟩
  rw [h.op]
  show (some (.tld (guardOf x) (fieldD x) (engA x) (engB x) (engC x) (memFt x)) : Option Instr) = _
  simp only [h.guard, h.a, h.b, h.c, h.ft, fieldD_of h.d]

theorem RoundTrip.tst (g : Guard) (d : BitVec 8) (a : Src) (b : Src) (c : Src) (ft : Ft) : RoundTrip.Statement (.tst g d a b c ft) := by
  intro x hl he
  have hw : packEng 0x186 g d.toNat a b c ft 0 = x := Option.some.inj he
  have h := packEng_reads 0x186 g d.toNat a b c ft 0 (by decide) d.isLt (by decide)
  rw [hw] at h
  refine ⟨decodeWord_of (by rw [h.op]; rfl) h.low ?_ hl he (fun _ => h.fsel), h.lt⟩
  rw [h.op]
  show (some (.tst (guardOf x) (fieldD x) (engA x) (engB x) (engC x) (memFt x)) : Option Instr) = _
  simp only [h.guard, h.a, h.b, h.c, h.ft, fieldD_of h.d]

theorem RoundTrip.qst (g : Guard) (d : BitVec 8) (a : Src) (b : Src) (keep : Option Src) (n : QstN) (cy : BitVec 3) (ft : Ft) : RoundTrip.Statement (.qst g d a b keep n cy ft) := by
  cases keep with
  | none =>
    intro x hl he
    have hb := qst_bits n cy false
    simp only [natOfBool, Bool.false_eq_true, if_false, Nat.zero_mul, Nat.zero_add] at hb
    have hw : packEng 0x187 g d.toNat a b .absent ft (n.code * 2 ^ 3 + cy.toNat) = x := Option.some.inj he
    have h := packEng_reads 0x187 g d.toNat a b .absent ft (n.code * 2 ^ 3 + cy.toNat) (by decide) d.isLt (by omega)
    rw [hw] at h
    refine ⟨decodeWord_of (by rw [h.op]; rfl) h.low ?_ hl he (fun _ => h.fsel), h.lt⟩
    rw [h.op]
    show ((QstN.ofCode (bitsOf x 8 3)).map fun n => .qst (guardOf x) (fieldD x) (engA x) (engB x) (if bitOf x 11 then some (engC x) else none) n (engCy x) (memFt x) : Option Instr) = _
    simp only [h.guard, h.a, h.b, h.ft, fieldD_of h.d, engCy, h.bits3_3, h.bits0_3, h.bit6, hb.1, hb.2.1, hb.2.2.1, Option.map_some]
    rfl
  | some c =>
    intro x hl he
    have hb := qst_bits n cy true
    simp only [natOfBool, if_true, Nat.one_mul] at hb
    have hw : packEng 0x187 g d.toNat a b c ft (2 ^ 6 + n.code * 2 ^ 3 + cy.toNat) = x := Option.some.inj he
    have h := packEng_reads 0x187 g d.toNat a b c ft (2 ^ 6 + n.code * 2 ^ 3 + cy.toNat) (by decide) d.isLt (by omega)
    rw [hw] at h
    refine ⟨decodeWord_of (by rw [h.op]; rfl) h.low ?_ hl he (fun _ => h.fsel), h.lt⟩
    rw [h.op]
    show ((QstN.ofCode (bitsOf x 8 3)).map fun n => .qst (guardOf x) (fieldD x) (engA x) (engB x) (if bitOf x 11 then some (engC x) else none) n (engCy x) (memFt x) : Option Instr) = _
    simp only [h.guard, h.a, h.b, h.ft, fieldD_of h.d, engCy, h.bits3_3, h.bits0_3, h.bit6, hb.1, hb.2.1, hb.2.2.1, h.c, Option.map_some]
    rfl

theorem RoundTrip.cyrd (g : Guard) (d : BitVec 8) (cy : BitVec 3) : RoundTrip.Statement (.cyrd g d cy) := by
  intro x hl he
  have hw : packEng 0x188 g d.toNat .absent .absent .absent .none cy.toNat = x := Option.some.inj he
  have h := packEng_reads 0x188 g d.toNat .absent .absent .absent .none cy.toNat (by decide) d.isLt (Nat.lt_trans cy.isLt (by decide))
  rw [hw] at h
  refine ⟨decodeWord_of (by rw [h.op]; rfl) h.low ?_ hl he (fun h => nomatch h), h.lt⟩
  rw [h.op]
  show (some (.cyrd (guardOf x) (fieldD x) (engCy x)) : Option Instr) = _
  simp only [engCy, h.guard, fieldD_of h.d, h.bits0_3, bitsOf_toNat]

theorem RoundTrip.cywr (g : Guard) (a : Src) (cy : BitVec 3) : RoundTrip.Statement (.cywr g a cy) := by
  intro x hl he
  have hw : packEng 0x189 g 0 a .absent .absent .none cy.toNat = x := Option.some.inj he
  have h := packEng_reads 0x189 g 0 a .absent .absent .none cy.toNat (by decide) (by decide) (Nat.lt_trans cy.isLt (by decide))
  rw [hw] at h
  refine ⟨decodeWord_of (by rw [h.op]; rfl) h.low ?_ hl he (fun h => nomatch h), h.lt⟩
  rw [h.op]
  show (some (.cywr (guardOf x) (engA x) (engCy x)) : Option Instr) = _
  simp only [engCy, h.guard, h.a, h.bits0_3, bitsOf_toNat]

theorem RoundTrip.mready (g : Guard) (a : Src) : RoundTrip.Statement (.mready g a) := by
  intro x hl he
  have hw : packEng 0x18A g 0 a .absent .absent .none 0 = x := Option.some.inj he
  have h := packEng_reads 0x18A g 0 a .absent .absent .none 0 (by decide) (by decide) (by decide)
  rw [hw] at h
  refine ⟨decodeWord_of (by rw [h.op]; rfl) h.low ?_ hl he (fun h => nomatch h), h.lt⟩
  rw [h.op]
  show (some (.mready (guardOf x) (engA x)) : Option Instr) = _
  simp only [h.guard, h.a]

theorem RoundTrip.mloop (g : Guard) (d : BitVec 8) (a : Src) (b : Src) (c : Src) (bank : BitVec 2) (ft : Ft) : RoundTrip.Statement (.mloop g d a b c bank ft) := by
  intro x hl he
  have hw : packEng 0x18B g d.toNat a b c ft bank.toNat = x := Option.some.inj he
  have h := packEng_reads 0x18B g d.toNat a b c ft bank.toNat (by decide) d.isLt (Nat.lt_trans bank.isLt (by decide))
  rw [hw] at h
  refine ⟨decodeWord_of (by rw [h.op]; rfl) h.low ?_ hl he (fun _ => h.fsel), h.lt⟩
  rw [h.op]
  show (some (.mloop (guardOf x) (fieldD x) (engA x) (engB x) (engC x) (engBank x) (memFt x)) : Option Instr) = _
  simp only [engBank, h.guard, h.a, h.b, h.c, h.ft, fieldD_of h.d, h.bits0_2, bitsOf_toNat]

theorem RoundTrip.mwait (g : Guard) (bank : BitVec 2) : RoundTrip.Statement (.mwait g bank) := by
  intro x hl he
  have hw : packEng 0x18C g 0 .absent .absent .absent .none bank.toNat = x := Option.some.inj he
  have h := packEng_reads 0x18C g 0 .absent .absent .absent .none bank.toNat (by decide) (by decide) (Nat.lt_trans bank.isLt (by decide))
  rw [hw] at h
  refine ⟨decodeWord_of (by rw [h.op]; rfl) h.low ?_ hl he (fun h => nomatch h), h.lt⟩
  rw [h.op]
  show (some (.mwait (guardOf x) (engBank x)) : Option Instr) = _
  simp only [engBank, h.guard, h.bits0_2, bitsOf_toNat]

theorem RoundTrip.accrd (g : Guard) (d : BitVec 8) (a : Src) (bank : BitVec 2) (n : AccN) : RoundTrip.Statement (.accrd g d a bank n) := by
  intro x hl he
  have hb := acc_bits n bank
  have hw : packEng 0x18D g d.toNat a .absent .absent .none (n.code * 2 ^ 2 + bank.toNat) = x := Option.some.inj he
  have h := packEng_reads 0x18D g d.toNat a .absent .absent .none (n.code * 2 ^ 2 + bank.toNat) (by decide) d.isLt hb.2.2
  rw [hw] at h
  refine ⟨decodeWord_of (by rw [h.op]; rfl) h.low ?_ hl he (fun h => nomatch h), h.lt⟩
  rw [h.op]
  show ((AccN.ofCode (bitsOf x 7 2)).map (.accrd (guardOf x) (fieldD x) (engA x) (engBank x)) : Option Instr) = _
  simp only [h.guard, h.a, fieldD_of h.d, engBank, h.bits2_2, h.bits0_2, hb.1, hb.2.1, Option.map_some]

theorem RoundTrip.accwr (g : Guard) (d : BitVec 8) (a : Src) (bank : BitVec 2) (n : AccN) : RoundTrip.Statement (.accwr g d a bank n) := by
  intro x hl he
  have hb := acc_bits n bank
  have hw : packEng 0x18E g d.toNat a .absent .absent .none (n.code * 2 ^ 2 + bank.toNat) = x := Option.some.inj he
  have h := packEng_reads 0x18E g d.toNat a .absent .absent .none (n.code * 2 ^ 2 + bank.toNat) (by decide) d.isLt hb.2.2
  rw [hw] at h
  refine ⟨decodeWord_of (by rw [h.op]; rfl) h.low ?_ hl he (fun h => nomatch h), h.lt⟩
  rw [h.op]
  show ((AccN.ofCode (bitsOf x 7 2)).map (.accwr (guardOf x) (fieldD x) (engA x) (engBank x)) : Option Instr) = _
  simp only [h.guard, h.a, fieldD_of h.d, engBank, h.bits2_2, h.bits0_2, hb.1, hb.2.1, Option.map_some]

theorem RoundTrip.accz (g : Guard) (bank : BitVec 2) : RoundTrip.Statement (.accz g bank) := by
  intro x hl he
  have hw : packEng 0x18F g 0 .absent .absent .absent .none bank.toNat = x := Option.some.inj he
  have h := packEng_reads 0x18F g 0 .absent .absent .absent .none bank.toNat (by decide) (by decide) (Nat.lt_trans bank.isLt (by decide))
  rw [hw] at h
  refine ⟨decodeWord_of (by rw [h.op]; rfl) h.low ?_ hl he (fun h => nomatch h), h.lt⟩
  rw [h.op]
  show (some (.accz (guardOf x) (engBank x)) : Option Instr) = _
  simp only [engBank, h.guard, h.bits0_2, bitsOf_toNat]

theorem RoundTrip.mstat (g : Guard) (d : BitVec 8) (a : Src) (clr : Bool) : RoundTrip.Statement (.mstat g d a clr) := by
  intro x hl he
  have hw : packEng 0x190 g d.toNat a .absent .absent .none (natOfBool clr) = x := Option.some.inj he
  have h := packEng_reads 0x190 g d.toNat a .absent .absent .none (natOfBool clr) (by decide) d.isLt (Nat.lt_trans (natOfBool_lt _) (by decide))
  rw [hw] at h
  refine ⟨decodeWord_of (by rw [h.op]; rfl) h.low ?_ hl he (fun h => nomatch h), h.lt⟩
  rw [h.op]
  show (some (.mstat (guardOf x) (fieldD x) (engA x) (bitOf x 5)) : Option Instr) = _
  simp only [h.guard, h.a, fieldD_of h.d, h.bit0]
  all_goals (cases clr <;> rfl)

theorem RoundTrip.tcopy (g : Guard) (d : BitVec 8) (a : Src) (b : Src) (t : Bool) (ft : Ft) : RoundTrip.Statement (.tcopy g d a b t ft) := by
  intro x hl he
  have hw : packEng 0x191 g d.toNat a b .absent ft (natOfBool t) = x := Option.some.inj he
  have h := packEng_reads 0x191 g d.toNat a b .absent ft (natOfBool t) (by decide) d.isLt (Nat.lt_trans (natOfBool_lt _) (by decide))
  rw [hw] at h
  refine ⟨decodeWord_of (by rw [h.op]; rfl) h.low ?_ hl he (fun _ => h.fsel), h.lt⟩
  rw [h.op]
  show (some (.tcopy (guardOf x) (fieldD x) (engA x) (engB x) (bitOf x 5) (memFt x)) : Option Instr) = _
  simp only [h.guard, h.a, h.b, h.ft, fieldD_of h.d, h.bit0]
  all_goals (cases t <;> rfl)

theorem RoundTrip.tcopyv (g : Guard) (d : BitVec 8) (a : Src) (b : Src) (c : Src) (t : Bool) (ft : Ft) : RoundTrip.Statement (.tcopyv g d a b c t ft) := by
  intro x hl he
  have hw : packEng 0x192 g d.toNat a b c ft (natOfBool t) = x := Option.some.inj he
  have h := packEng_reads 0x192 g d.toNat a b c ft (natOfBool t) (by decide) d.isLt (Nat.lt_trans (natOfBool_lt _) (by decide))
  rw [hw] at h
  refine ⟨decodeWord_of (by rw [h.op]; rfl) h.low ?_ hl he (fun _ => h.fsel), h.lt⟩
  rw [h.op]
  show (some (.tcopyv (guardOf x) (fieldD x) (engA x) (engB x) (engC x) (bitOf x 5) (memFt x)) : Option Instr) = _
  simp only [h.guard, h.a, h.b, h.c, h.ft, fieldD_of h.d, h.bit0]
  all_goals (cases t <;> rfl)

theorem RoundTrip.rodld (g : Guard) (d : BitVec 8) (a : Src) (b : Src) (ft : Ft) : RoundTrip.Statement (.rodld g d a b ft) := by
  intro x hl he
  have hw : packEng 0x193 g d.toNat a b .absent ft 0 = x := Option.some.inj he
  have h := packEng_reads 0x193 g d.toNat a b .absent ft 0 (by decide) d.isLt (by decide)
  rw [hw] at h
  refine ⟨decodeWord_of (by rw [h.op]; rfl) h.low ?_ hl he (fun _ => h.fsel), h.lt⟩
  rw [h.op]
  show (some (.rodld (guardOf x) (fieldD x) (engA x) (engB x) (memFt x)) : Option Instr) = _
  simp only [h.guard, h.a, h.b, h.ft, fieldD_of h.d]

theorem RoundTrip.fork (g : Guard) (d : BitVec 8) (a : Src) (b : Src) (c : Src) : RoundTrip.Statement (.fork g d a b c) := by
  intro x hl he
  have hw : packEng 0x194 g d.toNat a b c .none 0 = x := Option.some.inj he
  have h := packEng_reads 0x194 g d.toNat a b c .none 0 (by decide) d.isLt (by decide)
  rw [hw] at h
  refine ⟨decodeWord_of (by rw [h.op]; rfl) h.low ?_ hl he (fun h => nomatch h), h.lt⟩
  rw [h.op]
  show (some (.fork (guardOf x) (fieldD x) (engA x) (engB x) (engC x)) : Option Instr) = _
  simp only [h.guard, h.a, h.b, h.c, fieldD_of h.d]

theorem RoundTrip.rdv (g : Guard) (a : Src) (b : Src) : RoundTrip.Statement (.rdv g a b) := by
  intro x hl he
  have hw : packEng 0x195 g 0 a b .absent .none 0 = x := Option.some.inj he
  have h := packEng_reads 0x195 g 0 a b .absent .none 0 (by decide) (by decide) (by decide)
  rw [hw] at h
  refine ⟨decodeWord_of (by rw [h.op]; rfl) h.low ?_ hl he (fun h => nomatch h), h.lt⟩
  rw [h.op]
  show (some (.rdv (guardOf x) (engA x) (engB x)) : Option Instr) = _
  simp only [h.guard, h.a, h.b]

theorem RoundTrip.disp (g : Guard) (d : BitVec 8) (a : Src) (b : Src) (c : Src) : RoundTrip.Statement (.disp g d a b c) := by
  intro x hl he
  have hw : packEng 0x196 g d.toNat a b c .none 0 = x := Option.some.inj he
  have h := packEng_reads 0x196 g d.toNat a b c .none 0 (by decide) d.isLt (by decide)
  rw [hw] at h
  refine ⟨decodeWord_of (by rw [h.op]; rfl) h.low ?_ hl he (fun h => nomatch h), h.lt⟩
  rw [h.op]
  show (some (.disp (guardOf x) (fieldD x) (engA x) (engB x) (engC x)) : Option Instr) = _
  simp only [h.guard, h.a, h.b, h.c, fieldD_of h.d]

theorem RoundTrip.prd (g : Guard) (ud : Bool) (d : BitVec 8) (n : BitVec 8) : RoundTrip.Statement (.prd g ud d n) := by
  intro x hl he
  have hw : packSpc 0x1C0 g d.toNat .absent n.toNat ud = x := Option.some.inj he
  have h := packSpc_reads 0x1C0 g d.toNat .absent n.toNat ud (by decide) d.isLt n.isLt
  rw [hw] at h
  have hB : fieldB x = n := field_of h.srn
  refine ⟨decodeWord_of (by rw [h.op]; rfl) h.low ?_ hl he (fun h => nomatch h), h.lt⟩
  rw [h.op]
  show (some (.prd (guardOf x) (bitOf x 15) (fieldD x) (fieldB x)) : Option Instr) = _
  simp only [h.guard, h.ud, hB, fieldD_of h.d]

theorem RoundTrip.pwr (g : Guard) (n : BitVec 8) (a : Src) : RoundTrip.Statement (.pwr g n a) := by
  intro x hl he
  have hw : packSpc 0x1C1 g 0 a n.toNat false = x := Option.some.inj he
  have h := packSpc_reads 0x1C1 g 0 a n.toNat false (by decide) (by decide) n.isLt
  rw [hw] at h
  have hB : fieldB x = n := field_of h.srn
  have hn : ¬ n = 0x08 := of_decide_eq_true (p := n ≠ 0x08) hl
  refine ⟨decodeWord_of (by rw [h.op]; rfl) h.low ?_ hl he (fun h => nomatch h), h.lt⟩
  rw [h.op]
  show (readPwr x : Option Instr) = _
  simp only [readPwr, h.guard, hB, h.a, if_neg hn]

theorem RoundTrip.pwrHbctl (g : Guard) (a : Src) : RoundTrip.Statement (.pwrHbctl g a) := by
  intro x hl he
  have hw : packSpc 0x1C1 g 0 a 0x08 false = x := Option.some.inj he
  have h := packSpc_reads 0x1C1 g 0 a 0x08 false (by decide) (by decide) (by decide)
  rw [hw] at h
  have hB : fieldB x = 0x08 := congrArg (BitVec.ofNat 8) h.srn
  refine ⟨decodeWord_of (by rw [h.op]; rfl) h.low ?_ hl he (fun h => nomatch h), h.lt⟩
  rw [h.op]
  show (readPwr x : Option Instr) = _
  simp only [readPwr, h.guard, hB, h.a, if_true]

theorem RoundTrip.tlbiVa (g : Guard) (sys : Bool) (a : Src) (b : Src) : RoundTrip.Statement (.tlbiVa g sys a b) := by
  intro x hl he
  have hw : packReg 0x1C2 g 0 a b .absent false (natOfBool sys * 2 ^ 2) = x := Option.some.inj he
  have h := packReg_reads 0x1C2 g 0 a b .absent false (natOfBool sys * 2 ^ 2) (by decide) (by decide) (by cases sys <;> decide)
  rw [hw] at h
  refine ⟨decodeWord_of (by rw [h.op]; rfl) h.low ?_ hl he (fun h => nomatch h), h.lt⟩
  rw [h.op]
  show (readTlbi x : Option Instr) = _
  simp only [readTlbi, h.guard, h.a, h.b, h.bits0_2, h.bit2]
  all_goals (cases sys <;> rfl)

theorem RoundTrip.tlbiCtx (g : Guard) (sys : Bool) (b : Src) : RoundTrip.Statement (.tlbiCtx g sys b) := by
  intro x hl he
  have hw : packReg 0x1C2 g 0 .absent b .absent false (natOfBool sys * 2 ^ 2 + 1) = x := Option.some.inj he
  have h := packReg_reads 0x1C2 g 0 .absent b .absent false (natOfBool sys * 2 ^ 2 + 1) (by decide) (by decide) (by cases sys <;> decide)
  rw [hw] at h
  refine ⟨decodeWord_of (by rw [h.op]; rfl) h.low ?_ hl he (fun h => nomatch h), h.lt⟩
  rw [h.op]
  show (readTlbi x : Option Instr) = _
  simp only [readTlbi, h.guard, h.a, h.b, h.bits0_2, h.bit2]
  all_goals (cases sys <;> rfl)

theorem RoundTrip.tlbiAll (g : Guard) (sys : Bool) : RoundTrip.Statement (.tlbiAll g sys) := by
  intro x hl he
  have hw : packReg 0x1C2 g 0 .absent .absent .absent false (natOfBool sys * 2 ^ 2 + 2) = x := Option.some.inj he
  have h := packReg_reads 0x1C2 g 0 .absent .absent .absent false (natOfBool sys * 2 ^ 2 + 2) (by decide) (by decide) (by cases sys <;> decide)
  rw [hw] at h
  refine ⟨decodeWord_of (by rw [h.op]; rfl) h.low ?_ hl he (fun h => nomatch h), h.lt⟩
  rw [h.op]
  show (readTlbi x : Option Instr) = _
  simp only [readTlbi, h.guard, h.a, h.b, h.bits0_2, h.bit2]
  all_goals (cases sys <;> rfl)

theorem RoundTrip.tlbs (g : Guard) (d : BitVec 8) (a : Src) (b : Src) (walk : Bool) : RoundTrip.Statement (.tlbs g d a b walk) := by
  intro x hl he
  have hw : packReg 0x1C3 g d.toNat a b .absent false (natOfBool walk) = x := Option.some.inj he
  have h := packReg_reads 0x1C3 g d.toNat a b .absent false (natOfBool walk) (by decide) d.isLt (Nat.lt_trans (natOfBool_lt _) (by decide))
  rw [hw] at h
  refine ⟨decodeWord_of (by rw [h.op]; rfl) h.low ?_ hl he (fun h => nomatch h), h.lt⟩
  rw [h.op]
  show (some (.tlbs (guardOf x) (fieldD x) (regA x) (regB x) (regFn0 x)) : Option Instr) = _
  simp only [regFn0, h.guard, h.a, h.b, fieldD_of h.d, h.bit0]
  all_goals (cases walk <;> rfl)

theorem RoundTrip.cancelfCtx (g : Guard) (d : BitVec 8) (a : BitVec 8) : RoundTrip.Statement (.cancelfCtx g d a) := by
  intro x hl he
  have hw : packReg 0x1C4 g d.toNat (.v a) .absent .absent false 0 = x := Option.some.inj he
  have h := packReg_reads 0x1C4 g d.toNat (.v a) .absent .absent false 0 (by decide) d.isLt (by decide)
  rw [hw] at h
  refine ⟨decodeWord_of (by rw [h.op]; rfl) h.low ?_ hl he (fun h => nomatch h), h.lt⟩
  rw [h.op]
  show (readCancelf x : Option Instr) = _
  simp only [readCancelf, h.guard, fieldD_of h.d, h.fa, h.bits0_2]
  all_goals (rfl)

theorem RoundTrip.cancelfPage (g : Guard) (d : BitVec 8) (a : BitVec 8) (b : BitVec 8) : RoundTrip.Statement (.cancelfPage g d a b) := by
  intro x hl he
  have hw : packReg 0x1C4 g d.toNat (.v a) (.v b) .absent false 1 = x := Option.some.inj he
  have h := packReg_reads 0x1C4 g d.toNat (.v a) (.v b) .absent false 1 (by decide) d.isLt (by decide)
  rw [hw] at h
  refine ⟨decodeWord_of (by rw [h.op]; rfl) h.low ?_ hl he (fun h => nomatch h), h.lt⟩
  rw [h.op]
  show (readCancelf x : Option Instr) = _
  simp only [readCancelf, h.guard, fieldD_of h.d, h.fa, h.fb, h.bits0_2]
  all_goals (rfl)

theorem RoundTrip.cancelfRec (g : Guard) (d : BitVec 8) (a : BitVec 8) (b : BitVec 8) : RoundTrip.Statement (.cancelfRec g d a b) := by
  intro x hl he
  have hw : packReg 0x1C4 g d.toNat (.v a) (.v b) .absent false 2 = x := Option.some.inj he
  have h := packReg_reads 0x1C4 g d.toNat (.v a) (.v b) .absent false 2 (by decide) d.isLt (by decide)
  rw [hw] at h
  refine ⟨decodeWord_of (by rw [h.op]; rfl) h.low ?_ hl he (fun h => nomatch h), h.lt⟩
  rw [h.op]
  show (readCancelf x : Option Instr) = _
  simp only [readCancelf, h.guard, fieldD_of h.d, h.fa, h.fb, h.bits0_2]
  all_goals (rfl)

theorem RoundTrip.regroup (g : Guard) (a : Src) (b : Src) (hold : Bool) : RoundTrip.Statement (.regroup g a b hold) := by
  intro x hl he
  have hw : packReg 0x1C5 g 0 a b .absent false (natOfBool hold) = x := Option.some.inj he
  have h := packReg_reads 0x1C5 g 0 a b .absent false (natOfBool hold) (by decide) (by decide) (Nat.lt_trans (natOfBool_lt _) (by decide))
  rw [hw] at h
  refine ⟨decodeWord_of (by rw [h.op]; rfl) h.low ?_ hl he (fun h => nomatch h), h.lt⟩
  rw [h.op]
  show (some (.regroup (guardOf x) (regA x) (regB x) (regFn0 x)) : Option Instr) = _
  simp only [regFn0, h.guard, h.a, h.b, h.bit0]
  all_goals (cases hold <;> rfl)

theorem RoundTrip.ctxrd (g : Guard) (ud : Bool) (d : BitVec 8) (a : Src) (n : BitVec 8) : RoundTrip.Statement (.ctxrd g ud d a n) := by
  intro x hl he
  have hw : packSpc 0x1C6 g d.toNat a n.toNat ud = x := Option.some.inj he
  have h := packSpc_reads 0x1C6 g d.toNat a n.toNat ud (by decide) d.isLt n.isLt
  rw [hw] at h
  have hB : fieldB x = n := field_of h.srn
  refine ⟨decodeWord_of (by rw [h.op]; rfl) h.low ?_ hl he (fun h => nomatch h), h.lt⟩
  rw [h.op]
  show (some (.ctxrd (guardOf x) (bitOf x 15) (fieldD x) (spcA x) (fieldB x)) : Option Instr) = _
  simp only [h.guard, h.ud, hB, h.a, fieldD_of h.d]

theorem RoundTrip.hbrd (g : Guard) (ud : Bool) (d : BitVec 8) (sub : Bool) : RoundTrip.Statement (.hbrd g ud d sub) := by
  intro x hl he
  have hw : packSpc 0x1C7 g d.toNat .absent (natOfBool sub) ud = x := Option.some.inj he
  have h := packSpc_reads 0x1C7 g d.toNat .absent (natOfBool sub) ud (by decide) d.isLt (Nat.lt_trans (natOfBool_lt _) (by decide))
  rw [hw] at h
  have hB : fieldB x = BitVec.ofNat 8 ((natOfBool sub)) := (congrArg (BitVec.ofNat 8) h.srn)
  refine ⟨decodeWord_of (by rw [h.op]; rfl) h.low ?_ hl he (fun h => nomatch h), h.lt⟩
  rw [h.op]
  show (if fieldB x = 0 then some (.hbrd (guardOf x) (bitOf x 15) (fieldD x) false) else if fieldB x = 1 then some (.hbrd (guardOf x) (bitOf x 15) (fieldD x) true) else none : Option Instr) = _
  simp only [h.guard, h.ud, hB, fieldD_of h.d]
  all_goals (cases sub <;> rfl)

theorem RoundTrip.tbrd (g : Guard) (d : BitVec 8) (n : BitVec 8) : RoundTrip.Statement (.tbrd g d n) := by
  intro x hl he
  have hw : packSpc 0x1C8 g d.toNat .absent n.toNat false = x := Option.some.inj he
  have h := packSpc_reads 0x1C8 g d.toNat .absent n.toNat false (by decide) d.isLt n.isLt
  rw [hw] at h
  have hB : fieldB x = n := field_of h.srn
  refine ⟨decodeWord_of (by rw [h.op]; rfl) h.low ?_ hl he (fun h => nomatch h), h.lt⟩
  rw [h.op]
  show (some (.tbrd (guardOf x) (fieldD x) (fieldB x)) : Option Instr) = _
  simp only [h.guard, hB, fieldD_of h.d]

theorem RoundTrip.svc (g : Guard) (d : BitVec 8) (a : Src) (b : Src) : RoundTrip.Statement (.svc g d a b) := by
  intro x hl he
  have hw : packReg 0x1C9 g d.toNat a b .absent false 0 = x := Option.some.inj he
  have h := packReg_reads 0x1C9 g d.toNat a b .absent false 0 (by decide) d.isLt (by decide)
  rw [hw] at h
  refine ⟨decodeWord_of (by rw [h.op]; rfl) h.low ?_ hl he (fun h => nomatch h), h.lt⟩
  rw [h.op]
  show (some (.svc (guardOf x) (fieldD x) (regA x) (regB x)) : Option Instr) = _
  simp only [h.guard, h.a, h.b, fieldD_of h.d]

theorem RoundTrip.winrd (g : Guard) (d : BitVec 8) (a : BitVec 8) (c : BitVec 8) : RoundTrip.Statement (.winrd g d a c) := by
  intro x hl he
  have hw : packSpc 0x1CA g d.toNat (.v a) c.toNat false = x := Option.some.inj he
  have h := packSpc_reads 0x1CA g d.toNat (.v a) c.toNat false (by decide) d.isLt c.isLt
  rw [hw] at h
  have hB : fieldB x = c := field_of h.srn
  refine ⟨decodeWord_of (by rw [h.op]; rfl) h.low ?_ hl he (fun h => nomatch h), h.lt⟩
  rw [h.op]
  show (some (.winrd (guardOf x) (fieldD x) (fieldA x) (fieldB x)) : Option Instr) = _
  simp only [h.guard, hB, (h.fa : fieldA x = _), fieldD_of h.d]
  all_goals (rfl)

theorem RoundTrip.winwr (g : Guard) (d : BitVec 8) (a : BitVec 8) (c : BitVec 8) : RoundTrip.Statement (.winwr g d a c) := by
  intro x hl he
  have hw : packSpc 0x1CB g d.toNat (.v a) c.toNat false = x := Option.some.inj he
  have h := packSpc_reads 0x1CB g d.toNat (.v a) c.toNat false (by decide) d.isLt c.isLt
  rw [hw] at h
  have hB : fieldB x = c := field_of h.srn
  refine ⟨decodeWord_of (by rw [h.op]; rfl) h.low ?_ hl he (fun h => nomatch h), h.lt⟩
  rw [h.op]
  show (some (.winwr (guardOf x) (fieldD x) (fieldA x) (fieldB x)) : Option Instr) = _
  simp only [h.guard, hB, (h.fa : fieldA x = _), fieldD_of h.d]
  all_goals (rfl)

theorem RoundTrip.winwrResume (shepherd : Nat) (window : Nat) : RoundTrip.Statement (.winwrResume shepherd window) := by
  intro w _ he
  cases he

theorem RoundTrip.winwrTerminate (shepherd : Nat) (window : Nat) (code : Nat) : RoundTrip.Statement (.winwrTerminate shepherd window code) := by
  intro w _ he
  cases he

theorem RoundTrip.winwrClose (shepherd : Nat) (window : Nat) : RoundTrip.Statement (.winwrClose shepherd window) := by
  intro w _ he
  cases he

theorem RoundTrip.runStart (core : Nat) (port : Nat) : RoundTrip.Statement (.runStart core port) := by
  intro w _ he
  cases he

theorem RoundTrip.flockWake (flock : Nat) : RoundTrip.Statement (.flockWake flock) := by
  intro w _ he
  cases he

theorem RoundTrip.holdOffExpiry (flock : Nat) : RoundTrip.Statement (.holdOffExpiry flock) := by
  intro w _ he
  cases he

theorem RoundTrip.unchosenFlockLimit (flock : Nat) : RoundTrip.Statement (.unchosenFlockLimit flock) := by
  intro w _ he
  cases he

theorem RoundTrip.lagLimit (flock : Nat) (lane : Nat) : RoundTrip.Statement (.lagLimit flock lane) := by
  intro w _ he
  cases he

theorem RoundTrip.penDraw (core : Nat) : RoundTrip.Statement (.penDraw core) := by
  intro w _ he
  cases he

theorem RoundTrip.penFibreAged (fibre : Nat) : RoundTrip.Statement (.penFibreAged fibre) := by
  intro w _ he
  cases he

theorem RoundTrip.flockRestore (flock : Nat) : RoundTrip.Statement (.flockRestore flock) := by
  intro w _ he
  cases he

theorem RoundTrip.savedFlockWaitLimit (flock : Nat) : RoundTrip.Statement (.savedFlockWaitLimit flock) := by
  intro w _ he
  cases he

theorem RoundTrip.storeQueueDrain (fibre : Nat) : RoundTrip.Statement (.storeQueueDrain fibre) := by
  intro w _ he
  cases he

theorem RoundTrip.storePerform (core : Nat) (n : Nat) : RoundTrip.Statement (.storePerform core n) := by
  intro w _ he
  cases he

theorem RoundTrip.l1MissFill (cluster : Nat) (line : Nat) : RoundTrip.Statement (.l1MissFill cluster line) := by
  intro w _ he
  cases he

theorem RoundTrip.l1WriteBack (cluster : Nat) (line : Nat) : RoundTrip.Statement (.l1WriteBack cluster line) := by
  intro w _ he
  cases he

theorem RoundTrip.spanInvalidate (cluster : Nat) (line : Nat) (span : BitVec 32) : RoundTrip.Statement (.spanInvalidate cluster line span) := by
  intro w _ he
  cases he

theorem RoundTrip.storePending (core : Nat) (n : Nat) : RoundTrip.Statement (.storePending core n) := by
  intro w _ he
  cases he

theorem RoundTrip.foldAcknowledge (fold : Nat) (slice : Nat) : RoundTrip.Statement (.foldAcknowledge fold slice) := by
  intro w _ he
  cases he

theorem RoundTrip.foldStamp (fold : Nat) (slice : Nat) : RoundTrip.Statement (.foldStamp fold slice) := by
  intro w _ he
  cases he

theorem RoundTrip.foldConfirm (fold : Nat) (slice : Nat) : RoundTrip.Statement (.foldConfirm fold slice) := by
  intro w _ he
  cases he

theorem RoundTrip.foldSealEnd (fold : Nat) : RoundTrip.Statement (.foldSealEnd fold) := by
  intro w _ he
  cases he

theorem RoundTrip.homeRead (cluster : Nat) (line : Nat) (view : Nat) : RoundTrip.Statement (.homeRead cluster line view) := by
  intro w _ he
  cases he

theorem RoundTrip.settledStampAdvertise (dev : Nat) (stamp : Nat) : RoundTrip.Statement (.settledStampAdvertise dev stamp) := by
  intro w _ he
  cases he

theorem RoundTrip.heartbeatTick : RoundTrip.Statement (.heartbeatTick) := by
  intro w _ he
  cases he

theorem RoundTrip.matrixStep (core : Nat) : RoundTrip.Statement (.matrixStep core) := by
  intro w _ he
  cases he

theorem RoundTrip.matrixLoopComplete (core : Nat) : RoundTrip.Statement (.matrixLoopComplete core) := by
  intro w _ he
  cases he

theorem RoundTrip.accZeroComplete (core : Nat) (bank : Nat) : RoundTrip.Statement (.accZeroComplete core bank) := by
  intro w _ he
  cases he

theorem RoundTrip.tileTransferComplete (core : Nat) : RoundTrip.Statement (.tileTransferComplete core) := by
  intro w _ he
  cases he

theorem RoundTrip.rodLoadComplete (core : Nat) : RoundTrip.Statement (.rodLoadComplete core) := by
  intro w _ he
  cases he

theorem RoundTrip.copyPhaseRun (core : Nat) : RoundTrip.Statement (.copyPhaseRun core) := by
  intro w _ he
  cases he

theorem RoundTrip.copyPhaseComplete (core : Nat) : RoundTrip.Statement (.copyPhaseComplete core) := by
  intro w _ he
  cases he

theorem RoundTrip.engineCmdEnd (core : Nat) (task : Nat) : RoundTrip.Statement (.engineCmdEnd core task) := by
  intro w _ he
  cases he

theorem RoundTrip.engineCmdMatrixLoop (core : Nat) (task : Nat) : RoundTrip.Statement (.engineCmdMatrixLoop core task) := by
  intro w _ he
  cases he

theorem RoundTrip.engineCmdAccZero (core : Nat) (task : Nat) : RoundTrip.Statement (.engineCmdAccZero core task) := by
  intro w _ he
  cases he

theorem RoundTrip.engineCmdTileLoad (core : Nat) (task : Nat) : RoundTrip.Statement (.engineCmdTileLoad core task) := by
  intro w _ he
  cases he

theorem RoundTrip.engineCmdTileStore (core : Nat) (task : Nat) : RoundTrip.Statement (.engineCmdTileStore core task) := by
  intro w _ he
  cases he

theorem RoundTrip.engineCmdConvert (core : Nat) (task : Nat) : RoundTrip.Statement (.engineCmdConvert core task) := by
  intro w _ he
  cases he

theorem RoundTrip.engineCmdRodLoad (core : Nat) (task : Nat) : RoundTrip.Statement (.engineCmdRodLoad core task) := by
  intro w _ he
  cases he

theorem RoundTrip.engineCmdReserved (core : Nat) (task : Nat) : RoundTrip.Statement (.engineCmdReserved core task) := by
  intro w _ he
  cases he

theorem RoundTrip.taskWatchdog (core : Nat) (task : Nat) : RoundTrip.Statement (.taskWatchdog core task) := by
  intro w _ he
  cases he

theorem RoundTrip.ksendTransferReceive (m : KMsg) : RoundTrip.Statement (.ksendTransferReceive m) := by
  intro w _ he
  cases he

theorem RoundTrip.ksendComplete (token : Nat) (status : KStatus) : RoundTrip.Statement (.ksendComplete token status) := by
  intro w _ he
  cases he

theorem RoundTrip.parkedFibreWake (fibre : Nat) : RoundTrip.Statement (.parkedFibreWake fibre) := by
  intro w _ he
  cases he

theorem RoundTrip.bindWake (fibre : Nat) : RoundTrip.Statement (.bindWake fibre) := by
  intro w _ he
  cases he

theorem RoundTrip.faultRecordRewalk (index : Nat) : RoundTrip.Statement (.faultRecordRewalk index) := by
  intro w _ he
  cases he

theorem RoundTrip.systemEventDelivery : RoundTrip.Statement (.systemEventDelivery) := by
  intro w _ he
  cases he

theorem RoundTrip.watchdogExpiry (flock : Nat) : RoundTrip.Statement (.watchdogExpiry flock) := by
  intro w _ he
  cases he

theorem RoundTrip.barwWaitLimit (flock : Nat) : RoundTrip.Statement (.barwWaitLimit flock) := by
  intro w _ he
  cases he

theorem RoundTrip.tileStallLimit (flock : Nat) : RoundTrip.Statement (.tileStallLimit flock) := by
  intro w _ he
  cases he

theorem RoundTrip.rdvWaitLimit (flock : Nat) : RoundTrip.Statement (.rdvWaitLimit flock) := by
  intro w _ he
  cases he

theorem RoundTrip.doorbell (dbi : Nat) : RoundTrip.Statement (.doorbell dbi) := by
  intro w _ he
  cases he

theorem RoundTrip.tailInvalidate (queue : Nat) : RoundTrip.Statement (.tailInvalidate queue) := by
  intro w _ he
  cases he

theorem RoundTrip.tailPoll (drover : Nat) : RoundTrip.Statement (.tailPoll drover) := by
  intro w _ he
  cases he

theorem RoundTrip.queueInstall (drover : Nat) (q : QueueDesc) : RoundTrip.Statement (.queueInstall drover q) := by
  intro w _ he
  cases he

theorem RoundTrip.packetRead (queue : Nat) : RoundTrip.Statement (.packetRead queue) := by
  intro w _ he
  cases he

theorem RoundTrip.serviceRequestPacket (queue : Nat) : RoundTrip.Statement (.serviceRequestPacket queue) := by
  intro w _ he
  cases he

theorem RoundTrip.dependenceRecheck (launch : Nat) : RoundTrip.Statement (.dependenceRecheck launch) := by
  intro w _ he
  cases he

theorem RoundTrip.launchReplicate (src : LaunchFrom) (ctx : Nat) (packet : List Byte) :
    RoundTrip.Statement (.launchReplicate src ctx packet) := by
  intro w _ he
  cases he

theorem RoundTrip.armedMessage (src : LaunchFrom) (gen : Word) : RoundTrip.Statement (.armedMessage src gen) := by
  intro w _ he
  cases he

theorem RoundTrip.goMessage (src : LaunchFrom) (gen : Word) : RoundTrip.Statement (.goMessage src gen) := by
  intro w _ he
  cases he

theorem RoundTrip.rejectMessage (src : LaunchFrom) (gen : Word) : RoundTrip.Statement (.rejectMessage src gen) := by
  intro w _ he
  cases he

theorem RoundTrip.abortMessage (src : LaunchFrom) (gen : Word) : RoundTrip.Statement (.abortMessage src gen) := by
  intro w _ he
  cases he

theorem RoundTrip.armedTimeout (launch : Nat) : RoundTrip.Statement (.armedTimeout launch) := by
  intro w _ he
  cases he

theorem RoundTrip.startTimeRelease (launch : Nat) : RoundTrip.Statement (.startTimeRelease launch) := by
  intro w _ he
  cases he

theorem RoundTrip.admitTeam : RoundTrip.Statement (.admitTeam) := by
  intro w _ he
  cases he

theorem RoundTrip.teamComplete (team : Nat) : RoundTrip.Statement (.teamComplete team) := by
  intro w _ he
  cases he

theorem RoundTrip.methodTableInstall (launch : Nat) : RoundTrip.Statement (.methodTableInstall launch) := by
  intro w _ he
  cases he

theorem RoundTrip.contextSwapOut (ctx : Nat) : RoundTrip.Statement (.contextSwapOut ctx) := by
  intro w _ he
  cases he

theorem RoundTrip.contextSwapIn (ctx : Nat) : RoundTrip.Statement (.contextSwapIn ctx) := by
  intro w _ he
  cases he

theorem RoundTrip.contextSuspend (ctx : Nat) : RoundTrip.Statement (.contextSuspend ctx) := by
  intro w _ he
  cases he

theorem RoundTrip.contextTeardown (ctx : Nat) : RoundTrip.Statement (.contextTeardown ctx) := by
  intro w _ he
  cases he

theorem RoundTrip.preempt : RoundTrip.Statement (.preempt) := by
  intro w _ he
  cases he

theorem RoundTrip.vacateCore (team : Nat) : RoundTrip.Statement (.vacateCore team) := by
  intro w _ he
  cases he

theorem RoundTrip.teamRestore (team : Nat) : RoundTrip.Statement (.teamRestore team) := by
  intro w _ he
  cases he

theorem RoundTrip.chipScratchpadConvert (die : Nat) (ctx : Nat) (grant : Bool) : RoundTrip.Statement (.chipScratchpadConvert die ctx grant) := by
  intro w _ he
  cases he

theorem RoundTrip.segmentCacheEvict (core : Nat) : RoundTrip.Statement (.segmentCacheEvict core) := by
  intro w _ he
  cases he

theorem RoundTrip.activeMessage (queue : Nat) : RoundTrip.Statement (.activeMessage queue) := by
  intro w _ he
  cases he

theorem RoundTrip.activeMessageDeliver (ctx : Nat) : RoundTrip.Statement (.activeMessageDeliver ctx) := by
  intro w _ he
  cases he

theorem RoundTrip.serviceLoad (ctx : Nat) : RoundTrip.Statement (.serviceLoad ctx) := by
  intro w _ he
  cases he

theorem RoundTrip.serviceUnload (ctx : Nat) : RoundTrip.Statement (.serviceUnload ctx) := by
  intro w _ he
  cases he

theorem RoundTrip.hostMemoryRead (pa : Nat) (n : Nat) : RoundTrip.Statement (.hostMemoryRead pa n) := by
  intro w _ he
  cases he

theorem RoundTrip.hostMemoryWrite (pa : Nat) (bytes : List Byte) : RoundTrip.Statement (.hostMemoryWrite pa bytes) := by
  intro w _ he
  cases he

theorem RoundTrip.hostAtomic (pa : Nat) (r : MemReq) : RoundTrip.Statement (.hostAtomic pa r) := by
  intro w _ he
  cases he

theorem RoundTrip.hostAccessCompletion (core : Nat) (n : Nat) (ok : Bool) : RoundTrip.Statement (.hostAccessCompletion core n ok) := by
  intro w _ he
  cases he

theorem RoundTrip.remoteAccess (dev : Nat) (pa : Nat) (r : RemoteReq) : RoundTrip.Statement (.remoteAccess dev pa r) := by
  intro w _ he
  cases he

theorem RoundTrip.tlbiSysMessage (src : Asker) (kind ctx : Nat) (va : DWord) :
    RoundTrip.Statement (.tlbiSysMessage src kind ctx va) := by
  intro w _ he
  cases he

theorem RoundTrip.heartbeatAgreement (dev : Nat) (hb : Nat) : RoundTrip.Statement (.heartbeatAgreement dev hb) := by
  intro w _ he
  cases he

theorem RoundTrip.linkTrain (cxl : Bool) (width : Nat) : RoundTrip.Statement (.linkTrain cxl width) := by
  intro w _ he
  cases he

theorem RoundTrip.uncorrectableError (p : ErrPlace) : RoundTrip.Statement (.uncorrectableError p) := by
  intro w _ he
  cases he

theorem RoundTrip.correctedError (p : ErrPlace) : RoundTrip.Statement (.correctedError p) := by
  intro w _ he
  cases he

theorem RoundTrip.agentDead (kind : Nat) (index : Nat) : RoundTrip.Statement (.agentDead kind index) := by
  intro w _ he
  cases he

theorem RoundTrip.rodSpare (core : Nat) (rod : Nat) : RoundTrip.Statement (.rodSpare core rod) := by
  intro w _ he
  cases he

theorem RoundTrip.coreSpareJoin (die : Nat) : RoundTrip.Statement (.coreSpareJoin die) := by
  intro w _ he
  cases he

theorem RoundTrip.l2SliceSpare (slice : Nat) : RoundTrip.Statement (.l2SliceSpare slice) := by
  intro w _ he
  cases he

theorem RoundTrip.hbmRowSpare (stack : Nat) (row : Nat) : RoundTrip.Statement (.hbmRowSpare stack row) := by
  intro w _ he
  cases he

theorem RoundTrip.pseudoChannelSpare (channel : Nat) : RoundTrip.Statement (.pseudoChannelSpare channel) := by
  intro w _ he
  cases he

theorem RoundTrip.swetexLaneSpare (link : Nat) : RoundTrip.Statement (.swetexLaneSpare link) := by
  intro w _ he
  cases he

theorem RoundTrip.functionLevelReset : RoundTrip.Statement (.functionLevelReset) := by
  intro w _ he
  cases he

theorem RoundTrip.surpriseLinkLoss : RoundTrip.Statement (.surpriseLinkLoss) := by
  intro w _ he
  cases he

theorem RoundTrip.hostLinkReset : RoundTrip.Statement (.hostLinkReset) := by
  intro w _ he
  cases he

theorem RoundTrip.powerOn : RoundTrip.Statement (.powerOn) := by
  intro w _ he
  cases he

theorem RoundTrip.bootVerify (stage : BootStage) (image : List Byte) : RoundTrip.Statement (.bootVerify stage image) := by
  intro w _ he
  cases he

theorem RoundTrip.firmwareUpdate (image : List Byte) (version : BitVec 16) (confirmed : Bool) : RoundTrip.Statement (.firmwareUpdate image version confirmed) := by
  intro w _ he
  cases he

theorem RoundTrip.spdmRequest (request : List Byte) : RoundTrip.Statement (.spdmRequest request) := by
  intro w _ he
  cases he

theorem RoundTrip.sensorRead (s : Sensor) : RoundTrip.Statement (.sensorRead s) := by
  intro w _ he
  cases he

theorem RoundTrip.errorLog : RoundTrip.Statement (.errorLog) := by
  intro w _ he
  cases he

theorem RoundTrip.spareState : RoundTrip.Statement (.spareState) := by
  intro w _ he
  cases he

theorem RoundTrip.contextSummary : RoundTrip.Statement (.contextSummary) := by
  intro w _ he
  cases he

theorem RoundTrip.powerCycle : RoundTrip.Statement (.powerCycle) := by
  intro w _ he
  cases he

theorem RoundTrip.thermalThrottle (down : Bool) : RoundTrip.Statement (.thermalThrottle down) := by
  intro w _ he
  cases he

theorem RoundTrip.thermalShutdown : RoundTrip.Statement (.thermalShutdown) := by
  intro w _ he
  cases he

theorem RoundTrip.contextAllocation (ctx : Nat) : RoundTrip.Statement (.contextAllocation ctx) := by
  intro w _ he
  cases he

theorem RoundTrip.contextResume (ctx : Nat) : RoundTrip.Statement (.contextResume ctx) := by
  intro w _ he
  cases he

theorem RoundTrip.hostSnoop (line : Nat) : RoundTrip.Statement (.hostSnoop line) := by
  intro w _ he
  cases he

theorem RoundTrip.swetexLinkTrain (found : Training) : RoundTrip.Statement (.swetexLinkTrain found) := by
  intro w _ he
  cases he

theorem RoundTrip.timeBaseLock (locked : Bool) (offset : BitVec 31) : RoundTrip.Statement (.timeBaseLock locked offset) := by
  intro w _ he
  cases he

end Sys2Proof.Laws
end

