-- ==== Sys2Proof/Laws/Segments.lean ====
section
/-! SUPPORT. Segments, images, banks and moves of teams keep the canonical form of memory. -/

namespace Sys2Proof.Machine

theorem putLink_wf (s : State) (a prev rpc kind hlink eid ent hpc : Nat) (h : Memory.wf s.mem = true) :
    Memory.wf (s.putLink a prev rpc kind hlink eid ent hpc).mem = true := by
  unfold State.putLink
  repeat' apply putNum_wf
  exact h

theorem writeImage_wf (s : State) (segs : List Nat) (bs : List Byte) (h : Memory.wf s.mem = true) :
    Memory.wf (writeImage s segs bs).mem = true := by
  induction segs generalizing s bs with
  | nil => exact h
  | cons a rest ih => exact ih _ _ (putBytes_wf _ _ _ (putNum_wf _ _ _ _ (putNum_wf _ _ _ _ h)))

theorem freeSeg_wf (s : State) (cx a : Nat) (h : Memory.wf s.mem = true) : Memory.wf (freeSeg s cx a).mem = true := by
  refine zero_wf _ a 1024 ?_
  rw [foldl_mem _ (fun s r => finishStore_mem s r)]
  exact h

theorem freeSegs_wf (s : State) (cx : Nat) (segs : List Nat) (h : Memory.wf s.mem = true) :
    Memory.wf (freeSegs s cx segs).mem = true :=
  foldl_wf _ (fun s a h => freeSeg_wf s cx a h) segs s h

@[simp] theorem pick_mem (s : State) (n : Nat) : (s.pick n).2.mem = s.mem := by
  unfold State.pick
  split <;> rfl

theorem takeSeg_wf (s t : State) (cx a : Nat) (ht : takeSeg s cx = some (a, t)) (h : Memory.wf s.mem = true) :
    Memory.wf t.mem = true := by
  unfold takeSeg at ht
  simp only [] at ht
  split at ht
  · cases ht
  · obtain ⟨b, _, hb⟩ := Option.map_eq_some_iff.1 ht
    obtain ⟨rfl, rfl⟩ := Prod.mk.inj hb
    exact zero_wf _ _ _ (by rwa [pick_mem])

theorem takeSegs_wf (n : Nat) (s t : State) (cx : Nat) (as : List Nat) (ht : takeSegs s cx n = some (as, t))
    (h : Memory.wf s.mem = true) : Memory.wf t.mem = true := by
  induction n generalizing s as with
  | zero =>
    obtain ⟨rfl, rfl⟩ := Prod.mk.inj (Option.some.inj ht)
    exact h
  | succ n ih =>
    obtain ⟨r, hr, hq⟩ := Option.bind_eq_some_iff.1 ht
    obtain ⟨q, hq1, hq2⟩ := Option.map_eq_some_iff.1 hq
    obtain ⟨_, rfl⟩ := Prod.mk.inj hq2
    exact ih r.2 q.1 hq1 (takeSeg_wf s r.2 cx r.1 hr h)

@[simp] theorem touchSeg_mem (s : State) (core a : Nat) : (touchSeg s core a).mem = s.mem := rfl
@[simp] theorem touchSegs_mem (s : State) (f : Nat) (as : List Nat) : (touchSegs s f as).mem = s.mem := by
  unfold touchSegs
  refine foldl_mem _ (fun s a => ?_) as s
  split <;> rfl

/-- All that the search for an effect's frame does: it touches the segments that it reads, where each is sound. -/
theorem searched_ok (s t : State) (f e : Nat) (h : searched s f e = .ok t) :
    linksSound s (searchPath s e s.chainFuel (s.fib f).hch.toNat) = .ok () ∧
      t = touchSegs s f (searchPath s e s.chainFuel (s.fib f).hch.toNat) ∧ t.mem = s.mem := by
  unfold searched at h
  dsimp only at h
  cases hl : linksSound s (searchPath s e s.chainFuel (s.fib f).hch.toNat) with
  | ok u => rw [hl] at h; cases h; cases u; exact ⟨rfl, rfl, touchSegs_mem ..⟩
  | bad e => rw [hl] at h; cases h
  | wait => rw [hl] at h; cases h
  | sys c w => rw [hl] at h; cases h

/-- All that the drain before a change of the PC or the privilege does: the stores of the fibres leave their queues, and none
is left there (R112). -/
theorem drained_ok (s t : State) (fs : List Nat) (h : drained s fs = .ok t) :
    t = drainAll s fs ∧ (∀ f ∈ fs, (t.fib f).queue = []) ∧ t.mem = s.mem := by
  unfold drained at h
  split at h
  · cases h
  · next hq =>
    cases h
    refine ⟨rfl, fun f hf => ?_, ?_⟩
    · simp only [List.any_eq_true, Bool.not_eq_true', List.isEmpty_eq_false_iff, not_exists, not_and, not_not] at hq
      exact hq f hf
    · refine foldl_mem _ (fun s f => ?_) fs s
      refine foldl_mem _ (fun s _ => ?_) _ s
      unfold drainOne
      dsimp only
      split
      · rfl
      · split <;> rfl

theorem zeroBank_wf (s : State) (core phys : Nat) (h : Memory.wf s.mem = true) :
    Memory.wf (zeroBank s core phys).mem = true :=
  tabCanonical_filter unlistedByte s.mem _ h

theorem moveApply_wf (m : Move) (s : State) (h : Memory.wf s.mem = true) : Memory.wf (m.apply s).mem = true := by
  unfold Move.apply
  simp only []
  rw [foldl_mem (fun s (l : Nat × Line) => s.setLine (m.line l.1) l.2) (fun _ _ => rfl)]
  exact foldl_wf _ (fun s c h => putByte_wf s _ _ h) _ _ (tabCanonical_filter unlistedByte s.mem _ h)

end Sys2Proof.Machine
end

