-- ==== Sys2Proof/Tests/Slice0.lean ====
section
/-! SUPPORT. The author's own tests: ill-formed terms, words of the spec's encodings, one step of each instruction on a
small state, and a witness for the hypotheses of every statement. Expected values come from the spec's entries. -/

namespace Sys2Proof.Tests

set_option Elab.async false

open Sys2Proof Sys2Proof.Machine

/-! ### A small state -/

def g0 : Guard := {}

/-- The fibres of lanes `ls`: fibre 10 + l on lane l, 64 registers, register n holding 100 l + n. -/
def labFibre (l : Nat) : Fibre :=
  { Fibre.blank with
    team := 5, index := l, alloc := 64, home := l, loc := .flock 3
    regs := (List.range 64).map (fun n => BitVec.ofNat 32 (100 * l + n)), pc := 0x3F0000000008#64, pck := .within }

def labFlock (ls : List Nat) : Flock :=
  { Flock.blank with
    slot := some 0, team := 5
    lanes := (List.range 8).map (fun l => if ls.contains l then some (l + 10) else none)
    su := (List.range 64).map (fun n => BitVec.ofNat 64 (1000 + n)) }

def labTeam : Team :=
  { Team.blank with
    ctx := 1, cores := [0], roles := [⟨8, 64, false⟩], declared := 8, p := 1024, q := 65536, banks := 2
    su := (List.range 64).map (fun n => BitVec.ofNat 64 (2000 + n)) }

def labCtx : Ctx :=
  { Ctx.reset with st := .resident, fhb := 0x100000, fhl := 0x1C0000, thb := 0x200000, thl := 0x400000 }

def labRun (ls : List Nat) : Run :=
  ⟨0, 3, Mask.ofLanes ls, 0x3F0000000000#64, ⟨0, 3, 0, some 0, some 1, false⟩, [0, 0, 0], 1, 0⟩

/-- One team on core 0 with a flock of some lanes in a run; its core area is 64 KiB at 0x8000, its slices at 0x4000. -/
def lab (ls : List Nat) : State :=
  { State.reset with
    ctxs := [(1, labCtx)], teams := [(5, labTeam)]
    fibres := ls.map (fun l => (l + 10, { labFibre l with slice := 0x4000 + 1024 * l }))
    flocks := [(3, labFlock ls)], runs := [labRun ls]
    cores := [(0, { Core.reset with areas := [(5, 0, 0x8000, 65536)], banks := [some ⟨5, 0⟩, some ⟨5, 1⟩, none, none] })] }

/-! ### Conditions as computations -/

def okay {α : Type} : Res α → Bool
  | .ok _ => true
  | _ => false
@[irreducible] def out {α : Type} : (r : Res α) → okay r = true → α
  | .ok a, _ => a
theorem ok_of {α : Type} {r : Res α} (h : okay r = true) : r = .ok (out r h) := by
  cases r with
  | ok a => simp [out]
  | _ => cases h
@[irreducible] def got {α : Type} : (r : Option α) → r.isSome = true → α
  | some a, _ => a
theorem some_of {α : Type} {r : Option α} (h : r.isSome = true) : r = some (got r h) := by
  cases r with
  | some a => simp [got]
  | none => cases h

/-- Issuing, as a computation. -/
def issuingB (s : State) (r : Run) : Bool :=
  s.runs.head? == some r &&
    r.lanes.lanes.all fun l => ((r.fibre s l).bind fun f => (tabGet s.fibres f).map fun x =>
      x.home == l && x.loc == .flock r.flock && x.cancel == none).getD false
theorem issuing_of {s : State} {r : Run} (h : issuingB s r = true) : Issuing s r := by
  simp only [issuingB, Bool.and_eq_true, beq_iff_eq, List.all_eq_true] at h
  obtain ⟨h1, h4⟩ := h
  refine ⟨List.head?_eq_some_iff.mp h1, fun l hl => ?_⟩
  have h5 := h4 l hl
  cases hf : r.fibre s l with
  | none => simp [hf] at h5
  | some f =>
    cases hx : tabGet s.fibres f with
    | none => simp [hf, hx] at h5
    | some x =>
      simp [hf, hx] at h5
      exact ⟨f, x, rfl, hx, h5.1.1, h5.1.2, h5.2⟩

/-- RegsReady, as a computation. -/
def readyB (i : Instr) (x : Fibre) : Bool :=
  x.regs.length == x.alloc && (laneSpans i).all fun p => decide (p.1 + p.2 ≤ x.alloc) && (p.2 != 2 || p.1 % 2 == 0) &&
    x.busy.all fun b => !(decide (p.1 ≤ b.1) && decide (b.1 < p.1 + p.2))
theorem ready_of {i : Instr} {x : Fibre} (h : readyB i x = true) : RegsReady i x := by
  simp only [readyB, Bool.and_eq_true, beq_iff_eq, List.all_eq_true, Bool.or_eq_true, Bool.not_eq_true',
    decide_eq_true_eq, bne_iff_ne, ne_eq] at h
  refine ⟨h.1, fun p hp => ⟨(h.2 p hp).1.1, fun h2 => (h.2 p hp).1.2.resolve_left fun h3 => h3 h2, fun b hb hc => ?_⟩⟩
  have := (h.2 p hp).2 b hb
  simp [hc.1, hc.2] at this

/-- Some state and run meet the hypotheses of Lanewise with a condition, and some lane acts; likewise of the other
shapes. -/
def MeetsLanewise (i : Instr) (pre : State → Run → Nat → Adv → State → Prop) : Prop :=
  ∃ s r u ent clr, Issuing s r ∧ s.acting r i.guard ≠ [] ∧
    LaneChain i r pre (s.acting r i.guard) (advanceLanes s r (r.lanes &&& ~~~guardMask s r i.guard)) u ent clr
def MeetsEach (i : Instr) (pre : State → Run → Nat → State → Prop) : Prop :=
  MeetsLanewise i fun s r f how v => how = .next ∧ pre s r f v
def MeetsEnds (i : Instr) (pre : State → Run → Nat → State → Prop) : Prop :=
  MeetsLanewise i fun s r f how v => how = .moved ∧ pre s r f v
def MeetsFlockwise (i : Instr) (pre : State → Run → Nat → List Nat → State → Prop) : Prop :=
  ∃ s r f fs u, Issuing s r ∧ actors s r i.guard = f :: fs ∧ (∀ h ∈ f :: fs, RegsReady i (s.fib h)) ∧
    pre (advanceLanes s r (r.lanes &&& ~~~guardMask s r i.guard)) r f (f :: fs) u

/-- One lane suffices: the run has no other. -/
theorem lanewise {i : Instr} {pre : State → Run → Nat → Adv → State → Prop} {r : Run} {how : Adv} (s : State) (f : Nat)
    {v : State} (hI : Issuing s r) (ha : s.acting r i.guard = [(2, f)])
    (ho : advanceLanes s r (r.lanes &&& ~~~guardMask s r i.guard) = s) (hr : RegsReady i (s.fib f))
    (hp : pre s r f how v) : MeetsLanewise i pre :=
  ⟨s, r, _, _, _, hI, by simp [ha], by
    rw [ha, ho]
    exact ⟨hr, how, v, 0, 0, hp, ⟨rfl, rfl, rfl⟩, rfl, rfl⟩⟩
theorem each {i : Instr} {pre : State → Run → Nat → State → Prop} {r : Run} (s : State) (f : Nat)
    {v : State} (hI : Issuing s r) (ha : s.acting r i.guard = [(2, f)])
    (ho : advanceLanes s r (r.lanes &&& ~~~guardMask s r i.guard) = s) (hr : RegsReady i (s.fib f))
    (hp : pre s r f v) : MeetsEach i pre := lanewise s f hI ha ho hr ⟨rfl, hp⟩
theorem ends {i : Instr} {pre : State → Run → Nat → State → Prop} {r : Run} (s : State) (f : Nat)
    {v : State} (hI : Issuing s r) (ha : s.acting r i.guard = [(2, f)])
    (ho : advanceLanes s r (r.lanes &&& ~~~guardMask s r i.guard) = s) (hr : RegsReady i (s.fib f))
    (hp : pre s r f v) : MeetsEnds i pre := lanewise s f hI ha ho hr ⟨rfl, hp⟩
theorem flockwise {i : Instr} {pre : State → Run → Nat → List Nat → State → Prop} {r : Run} (s : State) (f : Nat)
    (fs : List Nat) {v : State} (hI : Issuing s r) (ha : actors s r i.guard = f :: fs)
    (ho : advanceLanes s r (r.lanes &&& ~~~guardMask s r i.guard) = s)
    (hr : (f :: fs).all (fun h => readyB i (s.fib h)) = true) (hp : pre s r f (f :: fs) v) : MeetsFlockwise i pre :=
  ⟨s, r, f, fs, v, hI, ha, fun h hh => ready_of (List.all_eq_true.1 hr h hh), by rw [ho]; exact hp⟩
/-- One lane acts and is the whole run. -/
def MeetsAlone (i : Instr) (pre : State → Run → Nat → State → Prop) : Prop :=
  ∃ s r f u, Whole s r i.guard f [] ∧ RegsReady i (s.fib f) ∧ pre s r f u
def wholeB (s : State) (r : Run) (g : Guard) (f : Nat) (fs : List Nat) : Bool :=
  issuingB s r && guardMask s r g == r.lanes && actors s r g == f :: fs
theorem whole_of {s : State} {r : Run} {g : Guard} {f : Nat} {fs : List Nat} (h : wholeB s r g f fs = true) :
    Whole s r g f fs := by
  simp only [wholeB, Bool.and_eq_true, beq_iff_eq] at h
  exact ⟨issuing_of h.1.1, h.1.2, h.2⟩
theorem alone {i : Instr} {pre : State → Run → Nat → State → Prop} {r : Run} (s : State) (f : Nat) {v : State}
    (hI : Whole s r i.guard f []) (hr : RegsReady i (s.fib f)) (hp : pre s r f v) : MeetsAlone i pre :=
  ⟨s, r, f, v, hI, hr, hp⟩

/-- What a computation that answers with a value, or with no value, answers. -/
def isNone {α : Type} : Res (Option α) → Bool
  | .ok none => true
  | _ => false
theorem none_of {α : Type} {r : Res (Option α)} (h : isNone r = true) : r = .ok none := by
  cases r with
  | ok a => cases a with
    | none => rfl
    | some a => cases h
  | _ => cases h
def isSome {α : Type} : Res (Option α) → Bool
  | .ok (some _) => true
  | _ => false
@[irreducible] def theSome {α : Type} : (r : Res (Option α)) → isSome r = true → α
  | .ok (some a), _ => a
theorem line_of {α : Type} {r : Res (Option α)} (h : isSome r = true) : r = .ok (some (theSome r h)) := by
  cases r with
  | ok a => cases a with
    | none => cases h
    | some a => simp [theSome]
  | _ => cases h
def isPair {α β : Type} : Res (Option α × β) → Bool
  | .ok (some _, _) => true
  | _ => false
@[irreducible] def pairOf {α β : Type} : (r : Res (Option α × β)) → isPair r = true → α × β
  | .ok (some a, b), _ => (a, b)
theorem captured {α β : Type} {r : Res (Option α × β)} (h : isPair r = true) :
    r = .ok (some (pairOf r h).1, (pairOf r h).2) := by
  cases r with
  | ok a => obtain ⟨x, u⟩ := a; cases x with
    | none => cases h
    | some x => simp [pairOf]
  | _ => cases h

/-! ### The small states of the witnesses: lane 2 alone, or the whole flock -/

def withV (s : State) (n : Nat) (v : Word) : State := s.modFib 12 fun x => x.setReg n v
def withP (s : State) (n : Nat) (v : DWord) : State := s.modFib 12 fun x => x.setPair n v
def withS (s : State) (n : Nat) (v : DWord) : State := s.modTm 5 fun t => { t with su := setAt t.su n v }
def one : State := lab [2]
def oneRun : Run := labRun [2]
def all8 : State := lab [0, 1, 2, 3, 4, 5, 6, 7]
def all8Run : Run := labRun [0, 1, 2, 3, 4, 5, 6, 7]
def rest8 : List Nat := [11, 12, 13, 14, 15, 16, 17]
/-- An offset in the core area of the team, as a key and as a generic address. -/
def areaKeyOf (o : Nat) : Nat := scratchKey 0 (0x8000 + o)
def areaAddr (o : Nat) : DWord := BitVec.ofNat 64 (0x3F200000000000 + o)

/-- Lane 2 with a base segment. -/
def oneTop : State :=
  match takeSeg one 1 with
  | some (a, s) => (s.putLink a 0 0 2 0 0 0 0).modFib 12 fun x => { x with top := BitVec.ofNat 64 a }
  | none => one
/-- The same below a segment of KIND 0 that a call left. -/
def oneCall : State :=
  match takeSeg oneTop 1 with
  | some (a, s) => (s.putLink a (oneTop.fib 12).top.toNat 0x3F0000000040 0 0 0 0 0).modFib 12 fun x =>
      { x with top := BitVec.ofNat 64 a }
  | none => one
/-- The same below a handler of every effect, entered with V8 at 0x3F0000001000. -/
def oneHandler : State :=
  match takeSeg oneTop 1 with
  | some (a, s) => (s.putLink a (oneTop.fib 12).top.toNat 0 1 0 0xFFFF0000 8 0x3F0000001000).modFib 12 fun x =>
      { x with top := BitVec.ofNat 64 a, hch := BitVec.ofNat 64 a }
  | none => one
/-- That handler entered by PERF of effect 0x101: its pair V8 holds the handle. -/
def oneHandle : State :=
  match exec (.perf g0 14 (.v 3) (.v 6) true)
      ((withV oneHandler 3 0x101).modFib 12 fun x => { x with alloc := 16, regs := x.regs.take 16 }) with
  | .next t => { t with runs := [oneRun] }
  | _ => oneHandler
/-- A generic address in the team heap in pair V8. -/
def oneHeap : State := withP one 8 0x250000
/-- A lane-private address in the window of the slice. -/
def oneSlice : State := withP one 8 0x100
/-- Later: the heartbeat is 9; the fibre waits in FENCE.SC since 2 and has a committed fold in slot 1. -/
def oneLater : State :=
  (oneSlice.modFib 12 fun x => { x with scStart := some 2, fd := setAt x.fd 1 (some ⟨⟨0, 3, 4⟩, .committed, 3⟩) }).modDev
    fun d => { d with hb := 9 }
/-- An open fold in slot 1. -/
def oneFold : State :=
  let tag : FoldTag := ⟨0, 5, 7⟩
  ({ oneSlice with folds := [Fold.fresh tag 1 12 1] }).modFib 12 fun x => x.setSlot 1 (some ⟨tag, .open, 0⟩)
/-- A live barrier at area offset 0x7000, whose address is in S10: EXPECT 2, ARRIVED 1, PHASE 5. -/
def withBarrier (s : State) : State :=
  withS ((putBarrier s (lineOf (areaKeyOf 0x7000)) 2 1 5 1 0x99 3).modDev fun d => { d with hb := 9 }) 10 (areaAddr 0x7000)

/-- The same line, at which a loop has arrived in phase 5. -/
def oneDue : State := (withBarrier one).modCore 0 fun c =>
  { c with waits := [⟨5, 1, some (lineOf (areaKeyOf 0x7000)), none, none, 0, 0, 64, 16, 16, 3, some 5, true, false⟩] }

/-- The whole flock with a tile descriptor at area offset 0x1000 (FP16, 16 by 16), its address in S10, BASE 0x2000 in S12. -/
def flockTile : State :=
  withS (withS (((((all8.putNum (areaKeyOf 0x1000) 2 2).putNum (areaKeyOf 0x1002) 2 16).putNum (areaKeyOf 0x1004) 4
    16).putNum (areaKeyOf 0x1008) 4 0).putNum (areaKeyOf 0x100C) 4 0) 10 (areaAddr 0x1000)) 12 0x2000
def tileOfTag (st : TileSt) (tag rows cols base : Nat) : Tile :=
  ⟨st, BitVec.ofNat 16 tag, false, base, rows, cols, 64, false, false, 0, 0⟩
/-- A rod tile of FP16. -/
def rodOf (st : TileSt) (rows cols : Nat) : Tile := ⟨st, BitVec.ofNat 16 0x202, true, 0, rows, cols, 0, false, false, 0, 0⟩
/-- Tile 0 EMPTY, tile 1 READY, tile 2 READY in INT8, tile 3 EMPTY rods, tile 4 READY for them, tile 5 READY in FP32;
tiles 6 and 7 are the operands of a loop of one step. -/
def withTiles (s : State) : State :=
  s.modCore 0 fun c => { c with tiles := [(5 * 2048, tileOfTag .empty 2 16 16 0x2000),
    (5 * 2048 + 1, tileOfTag .ready 2 16 16 0x3000), (5 * 2048 + 2, tileOfTag .ready 8 16 32 0x4000),
    (5 * 2048 + 3, rodOf .empty 16 4), (5 * 2048 + 4, tileOfTag .ready 0x102 4 16 0x5000),
    (5 * 2048 + 5, tileOfTag .ready 1 16 16 0x6000),
    (5 * 2048 + 6, { tileOfTag .ready 2 2 192 0x2000 with pitch := 384 }), (5 * 2048 + 7, rodOf .ready 192 4)] }
def flockTiles (handle : DWord) : State := withS (withTiles flockTile) 10 handle
/-- The loop word of tiles 6 and 7, one step, in S10; no barrier; no format word. -/
def flockLoop : State := withS (withS (withS (withTiles flockTile) 10 0x100070006) 12 0) 14 0
def flockArmed : State := flockLoop.modFibs (10 :: rest8) fun x => { x with armed := some (6, 7) }
/-- Lane 2 with the tiles; S6 names tile 2, S8 tile 5, V3 a position: line 2, element 24. -/
def oneQst : State := withS (withS (withV (withTiles one) 3 0x18002) 6 2) 8 5
/-- Lane 2 with accumulator element (3, 4) of bank 1 in its physical bank, and that position in V6. -/
def oneAcc : State := withV (one.modCore 0 fun c => { c with acc := [(accKey 1 3 4, 77)] }) 6 0x304
/-- The flock with a copy object at area offset 0x7000 (S10), a slice descriptor at 0x1100 (S12) of three rows of 64
bytes, and a version word at 0x250000 that holds what S14 expects, 0. -/
def flockCopy : State :=
  let d := fun (s : State) (o n v : Nat) => s.putNum (areaKeyOf (0x1100 + o)) n v
  withS (withS (withS (putBarrier (d (d (d (d (d (d (d all8 0 8 (areaAddr 0x3000).toNat) 8 8 (areaAddr 0x3400).toNat) 0x10 4
    64) 0x14 2 3) 0x18 4 64) 0x1C 4 128) 0x20 8 0x250000) (lineOf (areaKeyOf 0x7000)) 2 0 5 1 0 0) 10 (areaAddr 0x7000)) 12
    (areaAddr 0x1100)) 14 0
/-- A fork block at area offset 0x1200 (S10) of one program at 0x1400, an empty tile list (S12), the barrier (S14). -/
def flockFork : State :=
  withS (withS (withS ((flockCopy.putNum (areaKeyOf 0x1200) 8 (areaAddr 0x1400).toNat).putNum (areaKeyOf 0x1400) 1 7) 10
    (areaAddr 0x1200)) 12 0xFFFFFFFFFFFFFFFF) 14 (areaAddr 0x7000)
/-- A method table at area offset 0x1800 with one method of operator 9 (S10) for an FP16 tile: tile 1 (S12). -/
def flockDisp : State :=
  let d := fun (s : State) (o n v : Nat) => s.putNum (areaKeyOf (0x1800 + o)) n v
  let s := d (d (d (d (d (d (d flockCopy 0 4 1) 16 2 9) 18 2 2) 20 2 0xFFFF) 22 2 0xFFFE) 24 2 0xFFFE) 0x28 8
    (areaAddr 0x1400).toNat
  (withS (withS (withS (withTiles s) 10 9) 12 0xFFFFFFFFFFFF0001) 14 (areaAddr 0x7000)).modCtx 1 fun c =>
    { c with mtp := areaAddr 0x1800 }
/-- The flock has arrived at the barrier in S10; its token, 4, in S12, is of the phase before. -/
def flockMet : State := (withS flockCopy 12 4).modFibs (10 :: rest8) fun x => { x with arrived := true }
/-- The flock at level 1, with context 1 selected, or context 2, which has no team; a value in S10. -/
def flockPriv (cx : Nat) (v : DWord) : State :=
  withS (((all8.modTm 5 fun t => { t with pl := 1 }).setCtx 2 { Ctx.reset with st := .resident }).modDev fun d =>
    { d with ctxsel := BitVec.ofNat 12 cx }) 10 v
def flockDrover (v : DWord) : State := (flockPriv 1 v).modTm 5 fun t => { t with pl := 2 }
/-- An address in S10 and context 1 in S12, in V12 and for lane 2 alone. -/
def flockTlb : State := withS (flockPriv 1 0x250000) 12 1
def onePriv : State :=
  withS (withS ((one.modTm 5 fun t => { t with pl := 1 }).modDev fun d => { d with ctxsel := 1, hb := 1000 }) 10 0x250000) 12 1
/-- A pending fault record with one parked fibre; context 1 in V6, the page's address in V8. -/
def oneFault : State :=
  let x : Fibre := { Fibre.blank with team := 5, index := 3, alloc := 16, regs := List.replicate 16 0, loc := .parked (.page 4), home := 3 }
  withP (withV { onePriv with fibres := onePriv.fibres ++ [(30, x)], faults := [(4, ⟨0x250008, 1, 1, false, [30], 5⟩)] } 6 1) 8
    0x250000
/-- Lane 2 on a shepherd, with window 2 on the stopped flock 9 of team 6; the selector of register 2, lane 1 in V6. -/
def oneWindow : State :=
  let s := (onePriv.modFib 12 fun x => { x with core := 26 }).modTm 5 fun t => { t with cores := [26], declared := 1 }
  let t : Team := { Team.blank with ctx := 1, cores := [0], roles := [⟨1, 8, false⟩], declared := 1 }
  let x : Fibre := { Fibre.blank with team := 6, alloc := 8, regs := List.replicate 8 5, home := 1, loc := .flock 9 }
  let k : Flock := { Flock.blank with slot := some 1, team := 6, stopped := true, lanes := [none, some 40, none, none, none, none, none, none] }
  withV { s.modFlk 3 (fun k => { k with core := 26 }) with
    teams := s.teams ++ [(6, t)]
    fibres := s.fibres ++ [(40, x)]
    flocks := (s.flocks.map fun p => (p.1, { p.2 with core := 26 })) ++ [(9, k)]
    runs := [{ oneRun with core := 26 }]
    windows := [(2, ⟨9, [1, 2, 3, 4, 5, 6, 7, 8]⟩)] } 6 0x20102
/-- A launch over this device and device 1. -/
def twoDevices : Launch :=
  { ctx := 1, bytes := List.replicate 24 0 ++ [3, 0, 0, 0, 0, 0, 0, 0], queue := none, origin := 0, originQueue := 0, sup := false, prio := 0
    age := 0, ph := .released, metDeps := [], waiting := [], armed := [], replicated := none, status := 0, message := none }
/-- Context 1 with a leaf of 2^29 bytes at address 0 of every permission, at physical address 0. -/
def paged (s : State) : State :=
  ((s.modCtx 1 fun c => { c with ttb := 0x90000 }).putNum 0x90000 8 0xA0003).putNum 0xA0000 8 0x3D

/-! ### Ill-formed terms, one for each check (R75 to R77 and the entries' own lists) -/

theorem test_refuses_lane_sources_of_uniform_forms :
    (Instr.add g0 ⟨true, 2, .v 1, .s 2⟩ .wrap).wellFormed = false ∧ (Instr.mad g0 ⟨true, 2, .s 1, .s 2, .v 3⟩).wellFormed = false ∧
    (Instr.mov g0 ⟨true, 2, .v 1⟩).wellFormed = false ∧ (Instr.addi g0 ⟨true, 2, .v 1, 5⟩).wellFormed = false ∧
    (Instr.ctxrd g0 true 2 (.v 1) 0).wellFormed = false ∧
    (Instr.lds g0 ⟨4, .v 2, .w, 0, .none, .core, .team, .plain, false⟩).wellFormed = false ∧
    (Instr.sts g0 ⟨4, .v 2, .w, 0, .none, .core, .team, .plain, false⟩).wellFormed = false := by decide

theorem test_refuses_uniform_numbers_above_127 :
    (Instr.add g0 ⟨false, 2, .s 128, .v 3⟩ .wrap).wellFormed = false ∧ (Instr.add g0 ⟨true, 128, .s 1, .s 2⟩ .wrap).wellFormed = false ∧
    (Instr.movi g0 true 128 5).wellFormed = false ∧ (Instr.movu g0 128 2 .lo false).wellFormed = false ∧
    (Instr.lds g0 ⟨128, .s 2, .w, 0, .none, .core, .team, .plain, false⟩).wellFormed = false ∧
    (Instr.kinfo g0 2 (.eff (.s 200))).wellFormed = false ∧ (Instr.vote g0 2 (.v 1) (.mask (.s 128)) .any false).wellFormed = false ∧
    (Instr.qst g0 24 (.s 1) (.v 2) (some (.s 128)) .n1 0 .none).wellFormed = false := by decide

theorem test_refuses_uniform_forms_that_do_not_exist :
    (Instr.div g0 ⟨true, 2, .s 1, .s 2⟩ false).wellFormed = false ∧ (Instr.fadd g0 ⟨true, 2, .s 1, .s 2⟩ ⟨.fp32, false⟩ .rn).wellFormed = false ∧
    (Instr.fsqrt g0 ⟨true, 2, .s 1⟩ ⟨.fp32, false⟩ .rn).wellFormed = false := by decide

theorem test_refuses_two_elements_of_fp32 :
    (Instr.fadd g0 ⟨false, 2, .v 1, .v 2⟩ ⟨.fp32, true⟩ .rn).wellFormed = false ∧
    (Instr.fadd g0 ⟨false, 2, .v 1, .v 2⟩ ⟨.bf16, true⟩ .rn).wellFormed = true := by decide

theorem test_refuses_a_shift_immediate_of_32 :
    (Instr.shli g0 ⟨false, 2, .v 1, 32⟩).wellFormed = false ∧ (Instr.shli g0 ⟨false, 2, .v 1, 31⟩).wellFormed = true ∧
    (Instr.sari g0 ⟨false, 2, .v 1, 0xFFF⟩).wellFormed = false := by decide

theorem test_refuses_a_slot_beyond_the_width :
    (Instr.pack g0 2 (.v 1) (.v 3) .e16 2).wellFormed = false ∧ (Instr.pack g0 2 (.v 1) (.v 3) .e16 1).wellFormed = true ∧
    (Instr.unpk g0 2 (.v 1) .e8 4 false).wellFormed = false ∧ (Instr.unpk g0 2 (.v 1) .e4 7 false).wellFormed = true := by decide

theorem test_refuses_votes_that_name_no_predicate :
    (Instr.vote g0 16 (.v 1) (.fixed .g8) .any false).wellFormed = false ∧ (Instr.vote g0 2 (.v 16) (.fixed .g8) .all false).wellFormed = false ∧
    (Instr.vote g0 2 (.v 1) (.fixed .g8) .ballot true).wellFormed = false ∧ (Instr.vote g0 16 (.v 1) (.fixed .g8) .eq true).wellFormed = false ∧
    (Instr.redu g0 2 (.v 4) (.fixed .g8) .fadd true).wellFormed = false := by decide

theorem test_refuses_flags_orders_and_widths_of_accesses :
    (Instr.ld g0 ⟨4, .v 2, .w, 0, .f0, .core, .team, .plain, false⟩).wellFormed = false ∧
    (Instr.ld g0 ⟨4, .v 2, .w, 0, .none, .core, .team, .rel, false⟩).wellFormed = false ∧
    (Instr.st g0 ⟨4, .v 2, .bz, 0, .none, .core, .team, .plain, false⟩).wellFormed = false ∧
    (Instr.st g0 ⟨4, .v 2, .w, 0, .none, .core, .team, .acq, false⟩).wellFormed = false ∧
    (Instr.lds g0 ⟨4, .s 2, .q, 0, .none, .core, .team, .plain, false⟩).wellFormed = false ∧
    (Instr.sts g0 ⟨4, .s 2, .q, 0, .none, .core, .team, .plain, false⟩).wellFormed = false ∧
    (Instr.atom g0 ⟨4, .v 2, 6, .none, .core, .team, .plain⟩ .add true).wellFormed = false ∧
    (Instr.atomd g0 ⟨4, .v 2, 6, .none, .core, .team, .plain⟩ .fadd false).wellFormed = false := by decide

theorem test_refuses_lines_and_fences :
    (Instr.lnset g0 ⟨.v 2, 0, .none, .chip, .team, .plain⟩).wellFormed = false ∧
    (Instr.lnclr g0 ⟨.v 2, 0, .none, .core, .team, .rel⟩).wellFormed = false ∧
    (Instr.fence g0 .team .plain).wellFormed = false ∧
    (Instr.baraInit g0 4 ⟨.v 2, 0, .none, .core, .team, .acq⟩).wellFormed = false ∧
    (Instr.barw g0 4 ⟨.v 2, 0, .f1, .core, .team, .plain⟩).wellFormed = false ∧
    (Instr.icinv g0 ⟨.v 2, 0, .none, .core, .team, .plain⟩).wellFormed = false ∧
    (Instr.icinv g0 ⟨.v 2, 0, .none, .generic, .flock, .plain⟩).wellFormed = false ∧
    (Instr.pwr g0 0x08 (.s 2)).wellFormed = false := by decide

/-! ### Words put together by hand from the field tables of R75 to R84 and the Encoding line of each entry -/

/-- The words of a list decode to the instructions beside them, and to no others. -/
def readsAs (l : List (Nat × Instr)) : Bool :=
  l.all fun p => match decodeWord p.1 with
    | .ok i => decide (i = p.2)
    | .bad _ => false

theorem test_decode_integer : readsAs [
    (0x0000020406000020, .add ⟨0, false⟩ ⟨false, 1, .v 2, .v 3⟩ .ss),
    (0x004F91FE80008040, .sub ⟨3, true⟩ ⟨false, 200, .v 255, .s 64⟩ .us),
    (0x00800A0C0E01A000, .mul ⟨0, false⟩ ⟨true, 5, .s 6, .s 7⟩),
    (0x00C00A0C0E000020, .mulhi ⟨0, false⟩ ⟨false, 5, .v 6, .v 7⟩ true),
    (0x01000A0C0E104000, .mad ⟨0, false⟩ ⟨false, 5, .v 6, .v 7, .s 8⟩),
    (0x01400A0C0E000020, .div ⟨0, false⟩ ⟨false, 5, .v 6, .v 7⟩ true),
    (0x01800A0C0E000000, .rem ⟨0, false⟩ ⟨false, 5, .v 6, .v 7⟩ false),
    (0x01C00A0C0E000020, .min ⟨0, false⟩ ⟨false, 5, .v 6, .v 7⟩ true),
    (0x02000A0C0E000000, .max ⟨0, false⟩ ⟨false, 5, .v 6, .v 7⟩ false),
    (0x02400A0C0E000020, .and ⟨0, false⟩ ⟨false, 5, .v 6, .v 7⟩ true),
    (0x02800A0C0E010000, .or ⟨0, false⟩ ⟨false, 5, .s 6, .v 7⟩ false),
    (0x02C00A0C0E000020, .xor ⟨0, false⟩ ⟨false, 5, .v 6, .v 7⟩ true),
    (0x03000A0C0E000000, .shl ⟨0, false⟩ ⟨false, 5, .v 6, .v 7⟩),
    (0x03400A0C0E000000, .shr ⟨0, false⟩ ⟨false, 5, .v 6, .v 7⟩),
    (0x03800A0C0E000000, .sar ⟨0, false⟩ ⟨false, 5, .v 6, .v 7⟩),
    (0x03C00A0C0E000000, .rot ⟨0, false⟩ ⟨false, 5, .v 6, .v 7⟩),
    (0x04000A0C0E000020, .bfx ⟨0, false⟩ ⟨false, 5, .v 6, .v 7⟩ true),
    (0x04400A0C0E100000, .bfi ⟨0, false⟩ ⟨false, 5, .v 6, .v 7, .v 8⟩),
    (0x04800A0C00000000, .clz ⟨0, false⟩ ⟨false, 5, .v 6⟩),
    (0x04C00A0C00012000, .popc ⟨0, false⟩ ⟨true, 5, .s 6⟩),
    (0x05000A0C00000000, .brev ⟨0, false⟩ ⟨false, 5, .v 6⟩),
    (0x05400A0C0E1E0000, .sel ⟨0, false⟩ 5 (.v 6) (.v 7) 15),
    (0x05800A0C0E000F00, .icmp ⟨0, false⟩ 5 (.v 6) (.v 7) .le true .or),
    (0x05C00A0C00010000, .mov ⟨0, false⟩ ⟨false, 5, .s 6⟩)] = true := by decide +kernel

theorem test_decode_pair : readsAs [
    (0x0800080C0E000020, .addd ⟨0, false⟩ ⟨false, 4, .v 6, .v 7⟩ .sw),
    (0x0840080C0E000040, .subd ⟨0, false⟩ ⟨false, 4, .v 6, .v 7⟩ .zw),
    (0x0880080C10000000, .muld ⟨0, false⟩ ⟨false, 4, .v 6, .v 8⟩),
    (0x08C0080C0E008000, .shld ⟨0, false⟩ ⟨false, 4, .v 6, .s 7⟩),
    (0x0900080C0E000000, .shrd ⟨0, false⟩ ⟨false, 4, .v 6, .v 7⟩),
    (0x0940080C0E000000, .sard ⟨0, false⟩ ⟨false, 4, .v 6, .v 7⟩),
    (0x0980080C10001480, .icmpd ⟨0, false⟩ 4 (.v 6) (.v 8) .ge false .and),
    (0x09C0080C00012000, .movd ⟨0, false⟩ ⟨true, 4, .s 6⟩),
    (0x0A00080C10000000, .andd ⟨0, false⟩ ⟨false, 4, .v 6, .v 8⟩),
    (0x0A40080C10000000, .ord ⟨0, false⟩ ⟨false, 4, .v 6, .v 8⟩),
    (0x0A80080C10000000, .xord ⟨0, false⟩ ⟨false, 4, .v 6, .v 8⟩)] = true := by decide +kernel

theorem test_decode_immediate : readsAs [
    (0x100004040001FE00, .addi ⟨0, false⟩ ⟨false, 2, .v 2, 0xFF0⟩),
    (0x10400407800000E0, .muli ⟨0, false⟩ ⟨true, 2, .s 3, 7⟩),
    (0x108004060000FFE0, .andi ⟨0, false⟩ ⟨false, 2, .v 3, 0x7FF⟩),
    (0x10C0040700000020, .ori ⟨0, false⟩ ⟨false, 2, .s 3, 1⟩),
    (0x110004060001FFE0, .xori ⟨0, false⟩ ⟨false, 2, .v 3, 0xFFF⟩),
    (0x11400406000003E0, .shli ⟨0, false⟩ ⟨false, 2, .v 3, 31⟩),
    (0x1180040600000020, .shri ⟨0, false⟩ ⟨false, 2, .v 3, 1⟩),
    (0x11C00406000000A0, .sari ⟨0, false⟩ ⟨false, 2, .v 3, 5⟩),
    (0x120004061C010000, .icmpi ⟨0, false⟩ 2 (.v 3) 0x800 .ne true .or),
    (0x1240040800000060, .adddi ⟨0, false⟩ ⟨false, 2, .v 4, 3⟩),
    (0x1280120000002000, .movi ⟨0, false⟩ false 9 0x100),
    (0x1800040024800000, .lui ⟨0, false⟩ false 2 0x124),
    (0x184005FFFFE10000, .aupc ⟨0, false⟩ true 2 0xFFFFF),
    (0x1884040000200000, .lup ⟨1, false⟩ false 2 1)] = true := by decide +kernel

theorem test_decode_floating : readsAs [
    (0x20000A0C0E000E00, .fadd ⟨0, false⟩ ⟨false, 5, .v 6, .v 7⟩ ⟨.fp16, true⟩ .rn),
    (0x20400A0C0E001680, .fsub ⟨0, false⟩ ⟨false, 5, .v 6, .v 7⟩ ⟨.bf16, true⟩ .rz),
    (0x20800A0C0E008300, .fmul ⟨0, false⟩ ⟨false, 5, .v 6, .s 7⟩ ⟨.fp32, false⟩ .rd),
    (0x20C00A0C0E100380, .ffma ⟨0, false⟩ ⟨false, 5, .v 6, .v 7, .v 8⟩ ⟨.fp32, false⟩ .ru),
    (0x21000A0C0E000000, .fdiv ⟨0, false⟩ ⟨false, 5, .v 6, .v 7⟩ ⟨.fp32, false⟩ .dyn),
    (0x21400A0C00000800, .fsqrt ⟨0, false⟩ ⟨false, 5, .v 6⟩ ⟨.fp16, false⟩ .dyn),
    (0x21800A0C0E000020, .fmin ⟨0, false⟩ ⟨false, 5, .v 6, .v 7⟩ ⟨.fp32, false⟩ true),
    (0x21C00A0C0E000000, .fmax ⟨0, false⟩ ⟨false, 5, .v 6, .v 7⟩ ⟨.fp32, false⟩ false),
    (0x22000A0C0E000B20, .fcmp ⟨0, false⟩ 5 (.v 6) (.v 7) .fp16 .un true),
    (0x22400A0C00001400, .frcp ⟨0, false⟩ ⟨false, 5, .v 6⟩ ⟨.bf16, true⟩),
    (0x22800A0C00001400, .frsq ⟨0, false⟩ ⟨false, 5, .v 6⟩ ⟨.bf16, true⟩),
    (0x22C00A0C00001400, .fexp2 ⟨0, false⟩ ⟨false, 5, .v 6⟩ ⟨.bf16, true⟩),
    (0x23000A0C00001400, .flog2 ⟨0, false⟩ ⟨false, 5, .v 6⟩ ⟨.bf16, true⟩),
    (0x23400A0C00001400, .fabs ⟨0, false⟩ ⟨false, 5, .v 6⟩ ⟨.bf16, true⟩),
    (0x23800A0C00001400, .fneg ⟨0, false⟩ ⟨false, 5, .v 6⟩ ⟨.bf16, true⟩),
    (0x23C00A0C00001400, .fclass ⟨0, false⟩ ⟨false, 5, .v 6⟩ ⟨.bf16, true⟩)] = true := by decide +kernel

theorem test_decode_conversion : readsAs [
    (0x2800060420021200, .cvt ⟨0, false⟩ 3 (.v 2) .bead8 .fp32 .rn true),
    (0x2800060482120000, .cvt ⟨0, false⟩ 3 (.v 2) .uint32 .int4 .dyn false),
    (0x2840060400080B00, .pack ⟨0, false⟩ 3 (.v 2) (.v 4) .e6 3),
    (0x2880060400001980, .unpk ⟨0, false⟩ 3 (.v 2) .e16 1 true)] = true := by decide +kernel

theorem test_decode_predicate : readsAs [
    (0x300006041E000040, .pand ⟨0, false⟩ 3 2 15 true false),
    (0x3040060402000020, .por ⟨0, false⟩ 3 2 1 false true),
    (0x3080060402000060, .pxor ⟨0, false⟩ 3 2 1 true true),
    (0x30C0060400000000, .pnot ⟨0, false⟩ 3 2),
    (0x3100068C00010020, .pset ⟨0, false⟩ 3 (.s 70) true)] = true := by decide +kernel

theorem test_decode_lanes : readsAs [
    (0x3800060400001040, .part ⟨0, false⟩ 3 (.v 2) .g4 true),
    (0x3840060412000980, .shfl ⟨0, false⟩ 3 (.v 2) (.v 9) .g2 .xor false),
    (0x3880060400125900, .vote ⟨0, false⟩ 3 (.v 2) (.mask (.s 9)) .ballot false),
    (0x38C4121200001400, .redu ⟨1, false⟩ 9 (.v 9) (.fixed .g4) .fadd false),
    (0x39001208000006C0, .movu ⟨0, false⟩ 9 4 (.lane 5) true),
    (0x3C00120040008000, .srd ⟨0, false⟩ true 9 0x20),
    (0x3C40001208010000, .swr ⟨0, false⟩ 0x04 (.s 9))] = true := by decide +kernel

theorem test_decode_control : readsAs [
    (0x400001FFFBFC0000, .bra ⟨0, false⟩ 0xFFFDFE),
    (0x40400800000E0000, .call ⟨0, false⟩ 4 7),
    (0x40800800000E0000, .calls ⟨0, false⟩ 4 7),
    (0x40C0000800000000, .ret ⟨0, false⟩ (.v 4)),
    (0x40C0000000000020, .retS ⟨0, false⟩),
    (0x4100000608008000, .brx ⟨0, false⟩ (.v 3) (.s 4)),
    (0x41400C0608000000, .callx ⟨0, false⟩ 6 (.v 3) (.v 4)),
    (0x4180000000000000, .reform ⟨0, false⟩),
    (0x41C8000A00000000, .backoff ⟨2, false⟩ 5),
    (0x4200000000000000, .nop ⟨0, false⟩),
    (0x4240000000000000, .exit ⟨0, false⟩),
    (0x42800C0000120180, .spawn ⟨0, false⟩ 12 6 9),
    (0x42C01000007E2080, .hinst ⟨0, false⟩ 8 (.s 4) 0x3F),
    (0x4300000000000000, .hdrop ⟨0, false⟩),
    (0x4340140C08000020, .perf ⟨0, false⟩ 10 (.v 6) (.v 4) true),
    (0x438000181C000000, .rsm ⟨0, false⟩ (.v 12) (.v 14)),
    (0x43C000181C008000, .rsmt ⟨0, false⟩ (.v 12) (.s 14)),
    (0x4400001800000000, .dropk ⟨0, false⟩ (.v 12)),
    (0x444006181C0A4000, .ksend ⟨0, false⟩ 3 (.v 12) (.v 14) (.s 5)),
    (0x4480061800000080, .kinfo ⟨0, false⟩ 3 (.nseg (.v 12))),
    (0x44800800000000C0, .kinfo ⟨0, false⟩ 4 .top)] = true := by decide +kernel

theorem test_decode_memory : readsAs [
    (0x500C080480200000, .ld ⟨3, false⟩ ⟨4, .v 2, .w, 0x10, .none, .generic, .fibre, .plain, false⟩),
    (0x50400A1080005280, .st ⟨0, false⟩ ⟨5, .s 8, .w, 0, .none, .core, .team, .rel, false⟩),
    (0x5040100CFFC1A520, .st ⟨0, false⟩ ⟨8, .v 6, .o, 0xFE0, .f1, .chip, .system, .plain, true⟩),
    (0x50808C10A0004940, .lds ⟨0, false⟩ ⟨70, .s 8, .d, 0, .none, .lane, .flock, .acq, false⟩),
    (0x50C08C1040015B00, .sts ⟨0, false⟩ ⟨70, .s 8, .h, 0, .f0, .cluster, .cluster, .plain, false⟩),
    (0x5100140408000400, .atom ⟨0, false⟩ ⟨10, .v 2, 4, .none, .generic, .device, .plain⟩ .add false),
    (0x51400004083212C0, .atomd ⟨0, false⟩ ⟨0, .v 2, 4, .none, .core, .team, .ar⟩ .incw true),
    (0x51801404080C0440, .cas ⟨0, false⟩ ⟨10, .v 2, 4, .none, .generic, .device, .acq⟩ 6),
    (0x51C01404080D4400, .casd ⟨0, false⟩ ⟨10, .s 2, 4, .f0, .generic, .device, .plain⟩ 6),
    (0x5200000401001280, .lnset ⟨0, false⟩ ⟨.v 2, 128, .none, .core, .team, .rel⟩),
    (0x5240000400000800, .lnclr ⟨0, false⟩ ⟨.v 2, 0, .none, .lane, .fibre, .plain⟩),
    (0x52800000000004C0, .fence ⟨0, false⟩ .device .ar),
    (0x5280000020000500, .fenceSc ⟨0, false⟩ .system),
    (0x52C0060000000000, .fopen ⟨0, false⟩ 3),
    (0x53000C0400000000, .fseal ⟨0, false⟩ 6 2),
    (0x53400C0200000000, .fabort ⟨0, false⟩ 6 1),
    (0x53800C0000000000, .view ⟨0, false⟩ 6 none),
    (0x53800C1000010020, .view ⟨0, false⟩ 6 (some (.s 8))),
    (0x53C00E0800015200, .baraArrive ⟨0, false⟩ 7 ⟨.s 4, 0, .f0, .core, .team, .plain⟩),
    (0x53C00E0820000200, .baraInit ⟨0, false⟩ 7 ⟨.v 4, 0, .none, .generic, .team, .plain⟩),
    (0x53C00E0840000200, .baraLeave ⟨0, false⟩ 7 ⟨.v 4, 0, .none, .generic, .team, .plain⟩),
    (0x53C0000860000200, .baraKill ⟨0, false⟩ 0 ⟨.v 4, 0, .none, .generic, .team, .plain⟩),
    (0x54000E0800001B00, .barw ⟨0, false⟩ 7 ⟨.v 4, 0, .none, .cluster, .cluster, .plain⟩),
    (0x5440000800100400, .icinv ⟨0, false⟩ ⟨.v 4, 8, .none, .generic, .device, .plain⟩),
    (0x5480000000000000, .isync ⟨0, false⟩)] = true := by decide +kernel

theorem test_decode_engine : readsAs [
    (0x60000E1418004060, .tdef ⟨0, false⟩ 7 (.s 10) (.v 12) true true),
    (0x6040001418002000, .ttag ⟨0, false⟩ (.v 10) (.s 12)),
    (0x60800E14000000A0, .tqry ⟨0, false⟩ 7 (.v 10) .pitch),
    (0x60C0001400000020, .twait ⟨0, false⟩ (.v 10) true),
    (0x6100001400000020, .trel ⟨0, false⟩ (.v 10) true),
    (0x61400E14181D1000, .tld ⟨0, false⟩ 7 (.v 10) (.v 12) (.s 14) .f0),
    (0x61800E14181D8000, .tst ⟨0, false⟩ 7 (.v 10) (.v 12) (.v 14) .f1),
    (0x61C0300C06004340, .qst ⟨0, false⟩ 24 (.s 6) (.v 3) none .n8 2 .none),
    (0x61C0400C06120DE0, .qst ⟨0, false⟩ 32 (.v 6) (.v 3) (some (.v 9)) .n32 7 .none),
    (0x6200300000000060, .cyrd ⟨0, false⟩ 24 3),
    (0x6240003000000060, .cywr ⟨0, false⟩ (.v 24) 3),
    (0x6280003000004000, .mready ⟨0, false⟩ (.s 24)),
    (0x62C0281418136020, .mloop ⟨0, false⟩ 20 (.s 10) (.s 12) (.v 9) 1 .f0),
    (0x6300000000000040, .mwait ⟨0, false⟩ 2),
    (0x6340300C00000120, .accrd ⟨0, false⟩ 24 (.v 6) 1 .n8),
    (0x6380300C000000E0, .accwr ⟨0, false⟩ 24 (.v 6) 3 .n4),
    (0x63C0000000000060, .accz ⟨0, false⟩ 3),
    (0x6400300C00000020, .mstat ⟨0, false⟩ 24 (.v 6) true),
    (0x64400E080C006020, .tcopy ⟨0, false⟩ 7 (.s 4) (.s 6) true .none),
    (0x64800E080C110000, .tcopyv ⟨0, false⟩ 7 (.v 4) (.v 6) (.v 8) false .f0),
    (0x64C00E080C000000, .rodld ⟨0, false⟩ 7 (.v 4) (.v 6) .none),
    (0x65000E080C107000, .fork ⟨0, false⟩ 7 (.s 4) (.s 6) (.s 8)),
    (0x654000080C000000, .rdv ⟨0, false⟩ (.v 4) (.v 6)),
    (0x65800E080C101000, .disp ⟨0, false⟩ 7 (.v 4) (.v 6) (.s 8))] = true := by decide +kernel

theorem test_decode_system : readsAs [
    (0x7000100008008000, .prd ⟨0, false⟩ true 8 0x04),
    (0x7040001022000000, .pwr ⟨0, false⟩ 0x11 (.v 8)),
    (0x7040001010010000, .pwrHbctl ⟨0, false⟩ (.s 8)),
    (0x708000080C000080, .tlbiVa ⟨0, false⟩ true (.v 4) (.v 6)),
    (0x708000000C008020, .tlbiCtx ⟨0, false⟩ false (.s 6)),
    (0x70800000000000C0, .tlbiAll ⟨0, false⟩ true),
    (0x70C028080C000020, .tlbs ⟨0, false⟩ 20 (.v 4) (.v 6) true),
    (0x7100280800000000, .cancelfCtx ⟨0, false⟩ 20 4),
    (0x710028080C000020, .cancelfPage ⟨0, false⟩ 20 4 6),
    (0x710028080C000040, .cancelfRec ⟨0, false⟩ 20 4 6),
    (0x714000080C008020, .regroup ⟨0, false⟩ (.v 4) (.s 6) true),
    (0x7180280804018000, .ctxrd ⟨0, false⟩ true 20 (.s 4) 2),
    (0x71C0180000008000, .hbrd ⟨0, false⟩ true 12 false),
    (0x71C0180002000000, .hbrd ⟨0, false⟩ false 12 true),
    (0x7200180002000000, .tbrd ⟨0, false⟩ 12 1),
    (0x7240281418018000, .svc ⟨0, false⟩ 20 (.s 10) (.s 12)),
    (0x7280280C06000000, .winrd ⟨0, false⟩ 20 6 3),
    (0x72C0280C08000000, .winwr ⟨0, false⟩ 20 6 4)] = true := by decide +kernel

/-- Words that the spec refuses: bit 0 set, an opcode outside R86, the header signature, a reserved FN code, a field that
must be zero, a width that LDS excludes, a format code that CVT does not list. -/
theorem test_decode_refuses :
    [0x0000000000000001, 0x0600000000000000, 0xF800000000000000, 0x0000000000000060, 0x4240020000000000,
      0x50808C10C0004000, 0x2800060426020000, 0x05400A0C0E200000].all (fun w => match decodeWord w with
        | .ok _ => false
        | .bad _ => true) = true := by decide +kernel

/-! ### Instructions whose statements ask only that the word issues with its registers ready -/

def issuesB (s : State) (r : Run) (i : Instr) : Bool :=
  issuingB s r && !(actors s r i.guard).isEmpty && (actors s r i.guard).all fun f => readyB i (s.fib f)
theorem issues_of {s : State} {r : Run} {l : List Instr} (h : l.all (issuesB s r) = true) :
    ∀ i ∈ l, Issuing s r ∧ actors s r i.guard ≠ [] ∧ ∀ f ∈ actors s r i.guard, RegsReady i (s.fib f) := by
  intro i hi
  have h1 := List.all_eq_true.1 h i hi
  simp only [issuesB, Bool.and_eq_true, Bool.not_eq_true', List.all_eq_true] at h1
  refine ⟨issuing_of h1.1.1, ?_, fun f hf => ready_of (h1.2 f hf)⟩
  intro h0
  simp [h0] at h1

/-- IntegerArithmetic. -/
theorem witness_integer : ∀ i ∈ ([
    .add g0 ⟨false, 5, .v 6, .v 7⟩ .wrap,
    .sub ⟨0, false⟩ ⟨true, 5, .s 6, .s 7⟩ .wrap,
    .mul g0 ⟨false, 63, .v 6, .s 7⟩,
    .mulhi g0 ⟨false, 5, .v 6, .v 7⟩ true,
    .mad g0 ⟨false, 5, .v 6, .v 7, .s 8⟩,
    .min g0 ⟨false, 5, .v 6, .v 7⟩ true,
    .max g0 ⟨true, 64, .s 6, .s 127⟩ false,
    .and g0 ⟨false, 5, .v 6, .v 7⟩ true,
    .or g0 ⟨false, 5, .s 6, .v 7⟩ false,
    .xor g0 ⟨false, 5, .v 6, .v 7⟩ true,
    .clz g0 ⟨false, 0, .v 63⟩,
    .popc g0 ⟨true, 5, .s 6⟩,
    .brev g0 ⟨false, 5, .v 6⟩,
    .sel g0 5 (.v 6) (.v 7) 15,
    .mov g0 ⟨false, 5, .s 6⟩] : List Instr),
    Issuing all8 all8Run ∧ actors all8 all8Run i.guard ≠ [] ∧ ∀ f ∈ actors all8 all8Run i.guard, RegsReady i (all8.fib f) :=
  issues_of (by decide +kernel)

/-- Saturation. -/
theorem witness_saturation : ∀ i ∈ ([
    .add g0 ⟨false, 5, .v 6, .v 7⟩ .ss,
    .add g0 ⟨true, 5, .s 6, .s 7⟩ .us,
    .sub g0 ⟨false, 5, .v 6, .v 7⟩ .ss,
    .sub g0 ⟨false, 5, .v 6, .v 7⟩ .us] : List Instr),
    Issuing all8 all8Run ∧ actors all8 all8Run i.guard ≠ [] ∧ ∀ f ∈ actors all8 all8Run i.guard, RegsReady i (all8.fib f) :=
  issues_of (by decide +kernel)

/-- ShiftAmounts and BitFields. -/
theorem witness_shifts : ∀ i ∈ ([
    .shl g0 ⟨false, 5, .v 6, .v 7⟩,
    .shr g0 ⟨true, 5, .s 6, .s 7⟩,
    .sar g0 ⟨false, 5, .v 6, .v 7⟩,
    .rot g0 ⟨false, 5, .v 6, .v 7⟩,
    .bfx g0 ⟨false, 5, .v 6, .v 7⟩ true,
    .bfi g0 ⟨false, 5, .v 6, .v 7, .v 8⟩] : List Instr),
    Issuing all8 all8Run ∧ actors all8 all8Run i.guard ≠ [] ∧ ∀ f ∈ actors all8 all8Run i.guard, RegsReady i (all8.fib f) :=
  issues_of (by decide +kernel)

/-- PredicateResults. -/
theorem witness_predicates : ∀ i ∈ ([
    .icmp g0 5 (.v 6) (.v 7) .le true .or,
    .icmpd g0 0 (.v 6) (.v 8) .ge false .and,
    .icmpi g0 15 (.v 6) 0x800 .ne true .set,
    .pand g0 3 2 15 true false,
    .por g0 3 2 1 false true,
    .pxor g0 3 2 1 true true,
    .pnot g0 3 2,
    .pset g0 3 (.s 70) true] : List Instr),
    Issuing all8 all8Run ∧ actors all8 all8Run i.guard ≠ [] ∧ ∀ f ∈ actors all8 all8Run i.guard, RegsReady i (all8.fib f) :=
  issues_of (by decide +kernel)

/-- PairArithmetic. -/
theorem witness_pairs : ∀ i ∈ ([
    .addd g0 ⟨false, 4, .v 6, .v 8⟩ .pair,
    .addd g0 ⟨false, 4, .v 6, .v 7⟩ .sw,
    .subd g0 ⟨true, 4, .s 6, .s 7⟩ .zw,
    .muld g0 ⟨false, 62, .v 6, .v 8⟩,
    .shld g0 ⟨false, 4, .v 6, .s 7⟩,
    .shrd g0 ⟨false, 4, .v 6, .v 7⟩,
    .sard g0 ⟨false, 4, .v 6, .v 7⟩,
    .movd g0 ⟨true, 4, .s 6⟩,
    .movd g0 ⟨false, 4, .v 6⟩,
    .andd g0 ⟨false, 4, .v 6, .v 8⟩,
    .ord g0 ⟨false, 4, .v 6, .v 8⟩,
    .xord g0 ⟨false, 4, .v 6, .v 8⟩] : List Instr),
    Issuing all8 all8Run ∧ actors all8 all8Run i.guard ≠ [] ∧ ∀ f ∈ actors all8 all8Run i.guard, RegsReady i (all8.fib f) :=
  issues_of (by decide +kernel)

/-- ImmediateResults and AddressFormation. -/
theorem witness_immediates : ∀ i ∈ ([
    .addi g0 ⟨false, 2, .v 2, 0xFF0⟩,
    .muli g0 ⟨true, 2, .s 3, 7⟩,
    .andi g0 ⟨false, 2, .v 3, 0x7FF⟩,
    .ori g0 ⟨false, 2, .s 3, 1⟩,
    .xori g0 ⟨false, 2, .v 3, 0xFFF⟩,
    .shli g0 ⟨false, 2, .v 3, 31⟩,
    .shri g0 ⟨false, 2, .v 3, 0⟩,
    .sari g0 ⟨false, 2, .v 3, 5⟩,
    .adddi g0 ⟨false, 2, .v 4, 3⟩,
    .movi g0 false 9 0x100,
    .lui g0 false 2 0x124,
    .lup g0 false 2 1,
    .aupc g0 false 2 0xFFFFF] : List Instr),
    Issuing all8 all8Run ∧ actors all8 all8Run i.guard ≠ [] ∧ ∀ f ∈ actors all8 all8Run i.guard, RegsReady i (all8.fib f) :=
  issues_of (by decide +kernel)

/-- PackUnpack. -/
theorem witness_packing : ∀ i ∈ ([
    .pack g0 3 (.v 2) (.v 4) .e6 3,
    .unpk g0 3 (.v 2) .e16 1 true] : List Instr),
    Issuing all8 all8Run ∧ actors all8 all8Run i.guard ≠ [] ∧ ∀ f ∈ actors all8 all8Run i.guard, RegsReady i (all8.fib f) :=
  issues_of (by decide +kernel)

/-- LaneCollectives. -/
theorem witness_collectives : ∀ i ∈ ([
    .part g0 3 (.v 2) .g4 false,
    .part g0 3 (.v 2) .g8 true,
    .shfl g0 3 (.v 2) (.v 9) .g2 .xor false,
    .shfl g0 4 (.v 2) (.s 9) .g8 .down true,
    .vote g0 3 (.v 2) (.mask (.s 9)) .any false,
    .vote g0 3 (.v 2) (.fixed .g4) .all false,
    .vote g0 3 (.v 2) (.mask (.v 9)) .ballot false,
    .vote g0 3 (.v 2) (.fixed .g8) .eq true,
    .redu g0 9 (.v 9) (.fixed .g4) .fadd false,
    .redu g0 8 (.v 10) (.mask (.s 3)) .add true,
    .movu g0 9 4 (.lane 5) true,
    .movu g0 9 4 .hi false] : List Instr),
    Issuing all8 all8Run ∧ actors all8 all8Run i.guard ≠ [] ∧ ∀ f ∈ actors all8 all8Run i.guard, RegsReady i (all8.fib f) :=
  issues_of (by decide +kernel)

/-- SpecialRegisterMoves. -/
theorem witness_special_registers : ∀ i ∈ ([
    .srd g0 false 4 0x01,
    .srd g0 false 5 0x20,
    .srd g0 true 9 0x05,
    .swr g0 0x04 (.s 9),
    .swr g0 0x11 (.v 9)] : List Instr),
    Issuing all8 all8Run ∧ actors all8 all8Run i.guard ≠ [] ∧ ∀ f ∈ actors all8 all8Run i.guard, RegsReady i (all8.fib f) :=
  issues_of (by decide +kernel)

/-- FlockInstructions, TileDefinitions, QuantisingStore and RegroupTime. -/
theorem witness_flock : ∀ i ∈ ([
    .nop g0,
    .isync g0,
    .backoff g0 3,
    .tqry g0 7 (.v 10) .pitch,
    .cyrd g0 24 3,
    .cywr g0 (.v 24) 7,
    .hbrd g0 false 8 false,
    .tbrd g0 8 1] : List Instr),
    Issuing all8 all8Run ∧ actors all8 all8Run i.guard ≠ [] ∧ ∀ f ∈ actors all8 all8Run i.guard, RegsReady i (all8.fib f) :=
  issues_of (by decide +kernel)

/-- Division: with FPM.EIZ at its reset value and divisors that are not zero. -/
theorem witness_division : Issuing all8 all8Run ∧ actors all8 all8Run g0 ≠ [] ∧ ∀ f ∈ actors all8 all8Run g0,
    RegsReady (.div g0 ⟨false, 5, .v 6, .v 7⟩ true) (all8.fib f) ∧
      (all8.op32 (all8.fib f) (.v 7) = 0 → (all8.fib f).fpm.getLsbD 9 = false) := by
  have h := issues_of (s := all8) (r := all8Run) (l := [.div g0 ⟨false, 5, .v 6, .v 7⟩ true]) (by decide +kernel) _ (List.mem_singleton.2 rfl)
  have h' : ∀ f ∈ actors all8 all8Run g0, (all8.op32 (all8.fib f) (.v 7) = 0 → (all8.fib f).fpm.getLsbD 9 = false) := by
    decide +kernel
  exact ⟨h.1, h.2.1, fun f hf => ⟨h.2.2 f hf, h' f hf⟩⟩
/-- Division by zero with FPM.EIZ = 0. -/
theorem witness_division_by_zero : let s := { all8 with fibres := all8.fibres.map fun p => (p.1, { p.2 with fpm := 0 }.setReg 7 0) }
    ∀ f ∈ actors s all8Run g0, s.op32 (s.fib f) (.v 7) = 0 ∧ (s.fib f).fpm.getLsbD 9 = false := by decide +kernel

/-- FloatResults: at the reset value of FPM none of the five conditions is enabled. -/
theorem witness_float : (∀ i ∈ ([
    .fadd g0 ⟨false, 5, .v 6, .v 7⟩ ⟨.fp16, true⟩ .rn,
    .fsub g0 ⟨false, 5, .v 6, .v 7⟩ ⟨.bf16, true⟩ .rz,
    .fmul g0 ⟨false, 5, .v 6, .s 7⟩ ⟨.fp32, false⟩ .rd,
    .ffma g0 ⟨false, 5, .v 6, .v 7, .v 8⟩ ⟨.fp32, false⟩ .ru,
    .fdiv g0 ⟨false, 5, .v 6, .v 7⟩ ⟨.fp32, false⟩ .dyn,
    .fsqrt g0 ⟨false, 5, .v 6⟩ ⟨.fp16, false⟩ .dyn,
    .fmin g0 ⟨false, 5, .v 6, .v 7⟩ ⟨.fp32, false⟩ true,
    .fmax g0 ⟨false, 5, .v 6, .v 7⟩ ⟨.fp32, false⟩ false,
    .fcmp g0 5 (.v 6) (.v 7) .fp16 .un true,
    .frcp g0 ⟨false, 5, .v 6⟩ ⟨.bf16, true⟩, .frsq g0 ⟨false, 5, .v 6⟩ ⟨.fp32, false⟩,
    .fexp2 g0 ⟨false, 5, .v 6⟩ ⟨.bf16, true⟩, .flog2 g0 ⟨false, 5, .v 6⟩ ⟨.fp32, false⟩,
    .fabs g0 ⟨false, 5, .v 6⟩ ⟨.bf16, true⟩, .fneg g0 ⟨false, 5, .v 6⟩ ⟨.bf16, true⟩,
    .fclass g0 ⟨false, 5, .v 6⟩ ⟨.fp16, true⟩, .cvt g0 3 (.v 2) .bead8 .fp32 .rn true] : List Instr),
    Issuing all8 all8Run ∧ actors all8 all8Run i.guard ≠ [] ∧ ∀ f ∈ actors all8 all8Run i.guard, RegsReady i (all8.fib f)) ∧
    ∀ f ∈ actors all8 all8Run g0, ∀ c ∈ List.range 32, enabledOf (all8.fib f).fpm c = 0 :=
  ⟨issues_of (by decide +kernel), by decide +kernel⟩

/-- NaNResults, RoundingKeepsValues: a signalling and a quiet NaN, and a number, of each format. -/
theorem witness_nan : (p32.isNaN 0x7F800001 && p32.isSNaN 0x7F800001 && p32.isNaN 0x7FC00000 && !p32.isSNaN 0x7FC00000
    && p16.isNaN 0x7C01 && pb16.isNaN 0x7FC0 && !p32.isNaN 0x7F800000 && !p16.isNaN 0x7C00 && !pb16.isNaN 0) = true := by
  decide +kernel

/-- ControlTransfers: transfers whose targets lie in the 54-bit space. -/
theorem witness_transfers : (∀ i ∈ ([.bra g0 0xFFFFFF, .call g0 4 7, .ret g0 (.v 4)] : List Instr),
    Issuing all8 all8Run ∧ actors all8 all8Run i.guard ≠ [] ∧ ∀ f ∈ actors all8 all8Run i.guard, RegsReady i (all8.fib f)) ∧
    (all8Run.here + (0xFFFFFF : BitVec 24).signExtend 64 * 8).toNat < 2 ^ 54 ∧
    ∀ f ∈ actors all8 all8Run g0, (all8.op64 (all8.fib f) (.v 4)).toNat / 2 ^ 55 ≠ 0x1FF ∧
      (all8.op64 (all8.fib f) (.v 4)).toNat < 2 ^ 54 :=
  ⟨issues_of (by decide +kernel), by decide +kernel, by decide +kernel⟩

/-! ### A witness for each clause of the statements over acting lanes: the conditions are the clause's own -/

theorem witness_control_transfers_4 :
    let g : Guard := g0
    let a : Src := .v 3
    let b : Src := .v 8
    let ok := fun (s : State) (f : Nat) (h e : Nat) (s1 u : State) =>
      let t := s.op64 (s.fib f) b
      let i := s.op32 (s.fib f) a
      (b.uniform = false → t.toNat / 2 ^ 55 ≠ 0x1FF) ∧ loadNum s f t 8 8 .table = .ok (h, s1) ∧ h ≤ 4096 ∧ i.toNat < h ∧
      loadNum s1 f (t + 8 + 4 * i.setWidth 64) 4 4 .table = .ok (e, u) ∧
      (t + 8 * (BitVec.ofNat 32 e).signExtend 64).toNat < 2 ^ 54
    let goes := fun (s : State) (f e : Nat) (x : Fibre) =>
      x.at ((s.op64 (s.fib f) b + 8 * (BitVec.ofNat 32 e).signExtend 64) &&& ~~~7) .transfer
    MeetsEnds (.brx g a b) (fun s _ f v => ∃ h e s1 u, ok s f h e s1 u ∧ v = u.modFib f (goes s f e)) :=
  ends (r := oneRun) (((withP (withV one 3 1) 8 0x250000).putNum 0x50000 8 2).putNum 0x5000C 4 0x40) 12 (issuing_of (by decide +kernel)) (by decide +kernel) (by decide +kernel) (ready_of (by decide +kernel))
    ⟨_, _, _, _, ⟨by decide +kernel, ok_of (by decide +kernel), by decide +kernel, by decide +kernel, ok_of (by decide +kernel), by decide +kernel⟩, rfl⟩

theorem witness_control_transfers_5 :
    let g : Guard := g0
    let d : BitVec 8 := 10
    let a : Src := .v 3
    let b : Src := .v 8
    let ok := fun (s : State) (f : Nat) (h e : Nat) (s1 u : State) =>
      let t := s.op64 (s.fib f) b
      let i := s.op32 (s.fib f) a
      (b.uniform = false → t.toNat / 2 ^ 55 ≠ 0x1FF) ∧ loadNum s f t 8 8 .table = .ok (h, s1) ∧ h ≤ 4096 ∧ i.toNat < h ∧
      loadNum s1 f (t + 8 + 4 * i.setWidth 64) 4 4 .table = .ok (e, u) ∧
      (t + 8 * (BitVec.ofNat 32 e).signExtend 64).toNat < 2 ^ 54
    let goes := fun (s : State) (f e : Nat) (x : Fibre) =>
      x.at ((s.op64 (s.fib f) b + 8 * (BitVec.ofNat 32 e).signExtend 64) &&& ~~~7) .transfer
    MeetsEnds (.callx g d a b) (fun s r f v => ∃ h e s1 u, ok s f h e s1 u ∧
      v = u.modFib f fun x => (goes s f e x).setPair d.toNat r.after) :=
  ends (r := oneRun) (((withP (withV one 3 1) 8 0x250000).putNum 0x50000 8 2).putNum 0x5000C 4 0x40) 12 (issuing_of (by decide +kernel)) (by decide +kernel) (by decide +kernel) (ready_of (by decide +kernel))
    ⟨_, _, _, _, ⟨by decide +kernel, ok_of (by decide +kernel), by decide +kernel, by decide +kernel, ok_of (by decide +kernel), by decide +kernel⟩, rfl⟩

theorem witness_segment_calls_1 :
    let g : Guard := g0
    let d : BitVec 8 := 10
    let off : BitVec 24 := 0x100
    MeetsEnds (.calls g d off) (fun s r f v => ∃ a s1, takeSeg s (s.ctxOf f) = some (a, s1) ∧
    (r.here + off.signExtend 64 * 8).toNat < 2 ^ 54 ∧
    v = (touchSeg (s1.putLink a (s.fib f).top.toNat r.after.toNat 0 0 0 0 0) (s.fib f).core a).modFib f fun x =>
      ({ x with top := BitVec.ofNat 64 a }.setPair d.toNat (BitVec.ofNat 64 (a + 0x40))).at
        ((r.here + off.signExtend 64 * 8) &&& ~~~7) .transfer) :=
  ends (r := oneRun) oneTop 12 (issuing_of (by decide +kernel)) (by decide +kernel) (by decide +kernel) (ready_of (by decide +kernel))
    ⟨_, _, some_of (by decide +kernel), by decide +kernel, rfl⟩

theorem witness_segment_calls_2 :
    let g : Guard := g0
    MeetsEnds (.retS g) (fun s0 r f v => ∃ s, readLink s0 f = .ok s ∧
    let a := (s.fib f).top.toNat
    s.num (a + 0x10) 1 = 0 ∧ s.segRpc a < 2 ^ 54 ∧
    v = freeSeg (s.modFib f fun x => { x with top := BitVec.ofNat 64 (s.segPrev a) }.at
      (if s.segRpc a = 0 then r.after else BitVec.ofNat 64 (s.segRpc a) &&& ~~~7)
      (if s.segRpc a = 0 then .sequential else .transfer)) (s.ctxOf f) a) :=
  ends (r := oneRun) oneCall 12 (issuing_of (by decide +kernel)) (by decide +kernel) (by decide +kernel) (ready_of (by decide +kernel))
    ⟨_, ok_of (by decide +kernel), by decide +kernel, by decide +kernel, rfl⟩

theorem witness_flock_instructions_1 :
    let g : Guard := g0
    MeetsEnds (.reform g) (fun s r f v => ∃ w, drained s [f] = .ok w ∧ v = scrambleSu (penFile (leaveFlock
      (w.modFib f fun x => x.at r.after .sequential) f) f) r.flock) :=
  ends (r := oneRun) oneTop 12 (issuing_of (by decide +kernel)) (by decide +kernel) (by decide +kernel) (ready_of (by decide +kernel))
    ⟨_, ok_of (by decide +kernel), rfl⟩

theorem witness_flock_instructions_2 :
    let g : Guard := g0
    let x : BitVec 8 := 20
    let d : BitVec 8 := 4
    let off : BitVec 24 := 0x100
    MeetsEach (.spawn g x d off) (fun s r f v => ∃ s1 idx k u,
      (r.here + off.signExtend 64 * 8).toNat < 2 ^ 54 ∧ drainAt s f .team false = .ok s1 ∧
      spawnFibre s1 f (r.here + off.signExtend 64 * 8) (s.op64 (s.fib f) (.v d)) = .ok (some (idx, k, u)) ∧
      v = u.modFib f fun y => y.setReg x.toNat (BitVec.ofNat 32 idx)) :=
  each (r := oneRun) oneTop 12 (issuing_of (by decide +kernel)) (by decide +kernel) (by decide +kernel) (ready_of (by decide +kernel))
    ⟨_, _, _, _, by decide +kernel, ok_of (by decide +kernel), line_of (by decide +kernel), rfl⟩

theorem witness_flock_instructions_3 :
    let g : Guard := g0
    let x : BitVec 8 := 20
    let d : BitVec 8 := 4
    let off : BitVec 24 := 0x100
    MeetsEach (.spawn g x d off) (fun s r f v => ∃ s1,
      (r.here + off.signExtend 64 * 8).toNat < 2 ^ 54 ∧ drainAt s f .team false = .ok s1 ∧
      spawnFibre s1 f (r.here + off.signExtend 64 * 8) (s.op64 (s.fib f) (.v d)) = .ok none ∧
      v = s1.modFib f fun y => y.setReg x.toNat 0xFFFFFFFF) :=
  each (r := oneRun) (oneTop.modTm 5 fun t => { t with declared := 1 }) 12 (issuing_of (by decide +kernel)) (by decide +kernel) (by decide +kernel) (ready_of (by decide +kernel))
    ⟨_, by decide +kernel, ok_of (by decide +kernel), none_of (by decide +kernel), rfl⟩

theorem witness_flock_instructions_4 :
    let g : Guard := g0
    MeetsEnds (.exit g) (fun s _ f v => ∃ s1 s2, (s.fib f).pending = [] ∧ exitDrain s f = .ok s1 ∧
      exitFolds s1 f = .ok s2 ∧ v = removeFibre s2 f) :=
  ends (r := oneRun) oneTop 12 (issuing_of (by decide +kernel)) (by decide +kernel) (by decide +kernel) (ready_of (by decide +kernel))
    ⟨_, _, by decide +kernel, ok_of (by decide +kernel), ok_of (by decide +kernel), rfl⟩

theorem witness_handler_frames_1 :
    let g : Guard := g0
    let ve : BitVec 8 := 32
    let k : Src := .v 3
    let off : BitVec 24 := 0x100
    MeetsEnds (.hinst g ve k off) (fun s r f v => ∃ a s1, takeSeg s (s.ctxOf f) = some (a, s1) ∧
    ve.toNat % 2 = 0 ∧ (r.here + off.signExtend 64 * 8).toNat < 2 ^ 54 ∧
    v = (touchSeg (s1.putLink a (s.fib f).top.toNat 0 1 (s.fib f).hch.toNat (s.op32 (s.fib f) k).toNat ve.toNat
      (r.here + off.signExtend 64 * 8).toNat) (s.fib f).core a).modFib f fun x =>
        { x with top := BitVec.ofNat 64 a, hch := BitVec.ofNat 64 a }.at r.after .sequential) :=
  ends (r := oneRun) oneTop 12 (issuing_of (by decide +kernel)) (by decide +kernel) (by decide +kernel) (ready_of (by decide +kernel))
    ⟨_, _, some_of (by decide +kernel), by decide +kernel, by decide +kernel, rfl⟩

theorem witness_handler_frames_2 :
    let g : Guard := g0
    MeetsEnds (.hdrop g) (fun s0 r f v => ∃ s, readLink s0 f = .ok s ∧
    let a := (s.fib f).top.toNat
    s.num (a + 0x10) 1 = 1 ∧ (s.fib f).hch = (s.fib f).top ∧
    v = freeSeg (s.modFib f fun x => { x with
      hch := BitVec.ofNat 64 (s.segHlink a), top := BitVec.ofNat 64 (s.segPrev a) }.at
      (if s.segRpc a = 0 then r.after else BitVec.ofNat 64 (s.segRpc a) &&& ~~~7) .sequential) (s.ctxOf f) a) :=
  ends (r := oneRun) oneHandler 12 (issuing_of (by decide +kernel)) (by decide +kernel) (by decide +kernel) (ready_of (by decide +kernel))
    ⟨_, ok_of (by decide +kernel), by decide +kernel, by decide +kernel, rfl⟩

theorem witness_effect_entry_1 :
    let g : Guard := g0
    let o : Bin := ⟨false, 20, .v 6, .v 7⟩
    let u : Bool := true
    MeetsAlone (.div g o u) (fun (s : State) (_ : Run) (f : Nat) (v : State) => ∃ h t,
      ∃ s0, searched (s.modFib f fun x => { x with scStart := none }) f 0x20 = .ok s0 ∧
      let frame := handlerSearch s0 f 0x20
      o.ud = false ∧ s.op32 (s.fib f) o.b = 0 ∧ (s.fib f).fpm.getLsbD 9 = true ∧ frame ≠ 0 ∧
      (s.tm (s.fib f).team).status = none ∧ s0.segEnt frame + 4 < (s0.fib f).alloc ∧
      captureSegments s0 f frame (effArith 0x20) (s0.fib f).pc (s0.fib f).pck none true = .ok (some h, t) ∧
      v = enterHandler t f frame h (effArith 0x20)) :=
  alone (r := oneRun) (withV oneHandler 7 0) 12 (whole_of (by decide +kernel)) (ready_of (by decide +kernel))
    ⟨_, _, _, ok_of (by decide +kernel), by decide +kernel, by decide +kernel, by decide +kernel, by decide +kernel, by decide +kernel, by decide +kernel, captured (by decide +kernel), rfl⟩

theorem witness_effect_entry_2 :
    let g : Guard := g0
    let o : Bin := ⟨false, 20, .v 6, .v 7⟩
    let u : Bool := false
    MeetsAlone (.rem g o u) (fun (s : State) (_ : Run) (f : Nat) (v : State) => ∃ h t,
      ∃ s0, searched (s.modFib f fun x => { x with scStart := none }) f 0x20 = .ok s0 ∧
      let frame := handlerSearch s0 f 0x20
      o.ud = false ∧ s.op32 (s.fib f) o.b = 0 ∧ (s.fib f).fpm.getLsbD 9 = true ∧ frame ≠ 0 ∧
      (s.tm (s.fib f).team).status = none ∧ s0.segEnt frame + 4 < (s0.fib f).alloc ∧
      captureSegments s0 f frame (effArith 0x20) (s0.fib f).pc (s0.fib f).pck none true = .ok (some h, t) ∧
      v = enterHandler t f frame h (effArith 0x20)) :=
  alone (r := oneRun) (withV oneHandler 7 0) 12 (whole_of (by decide +kernel)) (ready_of (by decide +kernel))
    ⟨_, _, _, ok_of (by decide +kernel), by decide +kernel, by decide +kernel, by decide +kernel, by decide +kernel, by decide +kernel, by decide +kernel, captured (by decide +kernel), rfl⟩

theorem witness_resumption_1 :
    let g : Guard := g0
    let a : Src := .v 8
    let b : Src := .v 10
    let ready := fun (s : State) (f p : Nat) (u : State) =>
      handleSound s (s.ctxOf f) (s.op64 (s.fib f) a) = .ok () ∧ contSound s p = .ok () ∧
      liveHeader s (s.ctxOf f) (s.op64 (s.fib f) a) = some p ∧ imageN s p ≤ (s.fib f).alloc ∧ resumeReady s f p = .ok u
    MeetsLanewise (.rsm g a b) (fun s r f how v => ∃ p u, how = .resumed ∧ ready s f p u ∧
    let bot := s.num (p + 0x20) 8
    v = resumeContinuation (((u.putNum bot 8 (s.fib f).top.toNat).putNum (bot + 8) 8 r.after.toNat).putNum (bot + 0x18)
      8 (s.fib f).hch.toNat) f p (s.op64 (s.fib f) b)) :=
  lanewise (r := oneRun) oneHandle 12 (issuing_of (by decide +kernel)) (by decide +kernel) (by decide +kernel) (ready_of (by decide +kernel))
    ⟨1574976, _, rfl, ⟨ok_of (by decide +kernel), ok_of (by decide +kernel), by decide +kernel, by decide +kernel, ok_of (by decide +kernel)⟩, rfl⟩

theorem witness_resumption_2 :
    let g : Guard := g0
    let a : Src := .v 8
    let b : Src := .v 10
    let ready := fun (s : State) (f p : Nat) (u : State) =>
      handleSound s (s.ctxOf f) (s.op64 (s.fib f) a) = .ok () ∧ contSound s p = .ok () ∧
      liveHeader s (s.ctxOf f) (s.op64 (s.fib f) a) = some p ∧ imageN s p ≤ (s.fib f).alloc ∧ resumeReady s f p = .ok u
    MeetsLanewise (.rsmt g a b) (fun s _ f how v => ∃ p u, how = .resumed ∧ ready s f p u ∧
    let bot := s.num (p + 0x20) 8
    s.segPrev bot = (s.fib f).top.toNat ∧ s.segHlink bot = (s.fib f).hch.toNat ∧
    v = resumeContinuation u f p (s.op64 (s.fib f) b)) :=
  lanewise (r := oneRun) oneHandle 12 (issuing_of (by decide +kernel)) (by decide +kernel) (by decide +kernel) (ready_of (by decide +kernel))
    ⟨1574976, _, rfl, ⟨ok_of (by decide +kernel), ok_of (by decide +kernel), by decide +kernel, by decide +kernel, ok_of (by decide +kernel)⟩, by decide +kernel, by decide +kernel, rfl⟩

theorem witness_continuation_moves_1 :
    let g : Guard := g0
    let a : Src := .v 8
    MeetsEach (.dropk g a) (fun s _ f v => ∃ p, handleSound s (s.ctxOf f) (s.op64 (s.fib f) a) = .ok () ∧
    liveHeader s (s.ctxOf f) (s.op64 (s.fib f) a) = some p ∧ contSound s p = .ok () ∧
    linksSound s (chainSegs s p) = .ok () ∧ v = dropContinuation (touchSegs s f [p]) (s.ctxOf f) p) :=
  each (r := oneRun) oneHandle 12 (issuing_of (by decide +kernel)) (by decide +kernel) (by decide +kernel) (ready_of (by decide +kernel))
    ⟨_, ok_of (by decide +kernel), some_of (by decide +kernel), ok_of (by decide +kernel), ok_of (by decide +kernel), rfl⟩

theorem witness_continuation_moves_2_value :
    let g : Guard := g0
    let d : BitVec 8 := 14
    let a : Src := .v 8
    let sel : KSel := .val (.v 8)
    let dbl : Bool := true
    let read : State → Nat → Nat := fun s p => s.num (p + 8) 8
    MeetsEach (.kinfo g d sel) (fun s0 _ f v => ∃ n, handleSound s0 (s0.ctxOf f) (s0.op64 (s0.fib f) a) = .ok () ∧
      let s := touchSegs s0 f (headerOf s0 (s0.ctxOf f) (s0.op64 (s0.fib f) a)).toList
      n = (match liveHeader s (s.ctxOf f) (s0.op64 (s0.fib f) a) with
        | some p => read s p
        | none => 0) ∧
      v = s.modFib f fun x => x.setWide dbl d (BitVec.ofNat 64 n)) :=
  each (r := oneRun) oneHandle 12 (issuing_of (by decide +kernel)) (by decide +kernel) (by decide +kernel) (ready_of (by decide +kernel))
    ⟨_, ok_of (by decide +kernel), rfl, rfl⟩

theorem witness_continuation_moves_2_registers :
    let g : Guard := g0
    let d : BitVec 8 := 14
    let a : Src := .v 8
    let sel : KSel := .regs (.v 8)
    let dbl : Bool := false
    let read : State → Nat → Nat := fun s p => if s.num (p + 1) 1 / 2 % 2 = 1 then s.num (s.num (p + 0x30) 8 + 0x40) 4 % 512 else 0
    MeetsEach (.kinfo g d sel) (fun s0 _ f v => ∃ n, handleSound s0 (s0.ctxOf f) (s0.op64 (s0.fib f) a) = .ok () ∧
      let s := touchSegs s0 f (headerOf s0 (s0.ctxOf f) (s0.op64 (s0.fib f) a)).toList
      n = (match liveHeader s (s.ctxOf f) (s0.op64 (s0.fib f) a) with
        | some p => read s p
        | none => 0) ∧
      v = s.modFib f fun x => x.setWide dbl d (BitVec.ofNat 64 n)) :=
  each (r := oneRun) oneHandle 12 (issuing_of (by decide +kernel)) (by decide +kernel) (by decide +kernel) (ready_of (by decide +kernel))
    ⟨_, ok_of (by decide +kernel), rfl, rfl⟩

theorem witness_continuation_moves_3 :
    let g : Guard := g0
    let d : BitVec 8 := 14
    let a : Src := .v 8
    MeetsEach (.kinfo g d (.state a)) (fun s0 _ f v => ∃ n, handleSound s0 (s0.ctxOf f) (s0.op64 (s0.fib f) a) = .ok () ∧
    let s := touchSegs s0 f (headerOf s0 (s0.ctxOf f) (s0.op64 (s0.fib f) a)).toList
    n = (match headerOf s (s.ctxOf f) (s0.op64 (s0.fib f) a) with
      | some p => if s.num p 1 = 1 then 1 else if s.num p 1 = 5 then 2 else 0
      | none => 0) ∧
    v = s.modFib f fun x => x.setReg d.toNat n) :=
  each (r := oneRun) oneHandle 12 (issuing_of (by decide +kernel)) (by decide +kernel) (by decide +kernel) (ready_of (by decide +kernel))
    ⟨_, ok_of (by decide +kernel), rfl, rfl⟩

theorem witness_continuation_moves_4 :
    let g : Guard := g0
    let d : BitVec 8 := 14
    MeetsEach (.kinfo g d .top) (fun s _ f v => v = s.modFib f fun x => x.setPair d.toNat ((s.fib f).top + 0x40)) :=
  each (r := oneRun) oneHandle 12 (issuing_of (by decide +kernel)) (by decide +kernel) (by decide +kernel) (ready_of (by decide +kernel))
    rfl

theorem witness_continuation_moves_5 :
    let g : Guard := g0
    let d : BitVec 8 := 14
    let a : Src := .v 12
    let b : Src := .v 4
    let c : Src := .v 3
    let sends := fun (s : State) (f : Nat) (s1 : State) => (s.op64 (s.fib f) b).toNat % 8 = 0 ∧
      drainAt s f .system false = .ok s1 ∧ handleSound s1 (s1.ctxOf f) (s.op64 (s.fib f) a) = .ok ()
    MeetsEach (.ksend g d a b c) (fun s _ f v => ∃ s1, sends s f s1 ∧
    liveHeader s1 (s1.ctxOf f) (s.op64 (s.fib f) a) = none ∧ v = s1.modFib f fun x => x.setReg d.toNat 5) :=
  each (r := oneRun) (withV (withP oneHandle 4 0x250000) 3 0) 12 (issuing_of (by decide +kernel)) (by decide +kernel) (by decide +kernel) (ready_of (by decide +kernel))
    ⟨_, ⟨by decide +kernel, ok_of (by decide +kernel), ok_of (by decide +kernel)⟩, by decide +kernel, rfl⟩

theorem witness_continuation_moves_6 :
    let g : Guard := g0
    let d : BitVec 8 := 14
    let a : Src := .v 8
    let b : Src := .v 4
    let c : Src := .v 3
    let sends := fun (s : State) (f : Nat) (s1 : State) => (s.op64 (s.fib f) b).toNat % 8 = 0 ∧
      drainAt s f .system false = .ok s1 ∧ handleSound s1 (s1.ctxOf f) (s.op64 (s.fib f) a) = .ok ()
    let held := fun (s : State) (f : Nat) (s1 : State) (p : Nat) => sends s f s1 ∧
      liveHeader s1 (s1.ctxOf f) (s.op64 (s.fib f) a) = some p ∧ contWhole s1 p = .ok ()
    MeetsEach (.ksend g d a b c) (fun s _ f v => ∃ p s1, held s f s1 p ∧
    (s.op32 (s.fib f) c).toNat ∉ s1.launchDevs f ∧ v = s1.modFib f fun x => x.setReg d.toNat 1) :=
  each (r := oneRun) (withV (withP oneHandle 4 0x250000) 3 77) 12 (issuing_of (by decide +kernel)) (by decide +kernel) (by decide +kernel) (ready_of (by decide +kernel))
    ⟨_, _, ⟨⟨by decide +kernel, ok_of (by decide +kernel), ok_of (by decide +kernel)⟩, some_of (by decide +kernel), ok_of (by decide +kernel)⟩, by decide +kernel, rfl⟩

theorem witness_continuation_moves_7 :
    let g : Guard := g0
    let d : BitVec 8 := 14
    let a : Src := .v 8
    let b : Src := .v 4
    let c : Src := .v 3
    let sends := fun (s : State) (f : Nat) (s1 : State) => (s.op64 (s.fib f) b).toNat % 8 = 0 ∧
      drainAt s f .system false = .ok s1 ∧ handleSound s1 (s1.ctxOf f) (s.op64 (s.fib f) a) = .ok ()
    let held := fun (s : State) (f : Nat) (s1 : State) (p : Nat) => sends s f s1 ∧
      liveHeader s1 (s1.ctxOf f) (s.op64 (s.fib f) a) = some p ∧ contWhole s1 p = .ok ()
    MeetsEach (.ksend g d a b c) (fun s _ f v => ∃ p s1 u st, held s f s1 p ∧
    (s.op32 (s.fib f) c).toNat = s1.dev.devid ∧ s1.dev.devid ∈ s1.launchDevs f ∧
    sendLocal s1 f p (s.op64 (s.fib f) b) = .ok (st, u) ∧ v = u.modFib f fun x => x.setReg d.toNat st) :=
  each (r := oneRun) (withV (withP oneHandle 4 0x250000) 3 0) 12 (issuing_of (by decide +kernel)) (by decide +kernel) (by decide +kernel) (ready_of (by decide +kernel))
    ⟨_, _, _, _, ⟨⟨by decide +kernel, ok_of (by decide +kernel), ok_of (by decide +kernel)⟩, some_of (by decide +kernel), ok_of (by decide +kernel)⟩, by decide +kernel, by decide +kernel, ok_of (by decide +kernel), rfl⟩

theorem witness_continuation_moves_8 :
    let g : Guard := g0
    let d : BitVec 8 := 14
    let a : Src := .v 8
    let b : Src := .v 4
    let c : Src := .v 3
    let sends := fun (s : State) (f : Nat) (s1 : State) => (s.op64 (s.fib f) b).toNat % 8 = 0 ∧
      drainAt s f .system false = .ok s1 ∧ handleSound s1 (s1.ctxOf f) (s.op64 (s.fib f) a) = .ok ()
    let held := fun (s : State) (f : Nat) (s1 : State) (p : Nat) => sends s f s1 ∧
      liveHeader s1 (s1.ctxOf f) (s.op64 (s.fib f) a) = some p ∧ contWhole s1 p = .ok ()
    MeetsEach (.ksend g d a b c) (fun s _ f v => ∃ p s1, held s f s1 p ∧
    let dev := (s.op32 (s.fib f) c).toNat
    dev ≠ s1.dev.devid ∧ dev ∈ s1.launchDevs f ∧ (dev ∈ s1.dev.down ∨ (4, dev) ∈ s1.dev.contained) ∧
    v = s1.modFib f fun x => x.setReg d.toNat 6) :=
  each (r := oneRun) ({ ((withV (withP oneHandle 4 0x250000) 3 1).modTm 5 fun t => { t with launch := 0 }) with launches := [(0, twoDevices)] }.modDev fun d => { d with down := [1] }) 12 (issuing_of (by decide +kernel)) (by decide +kernel) (by decide +kernel) (ready_of (by decide +kernel))
    ⟨_, _, ⟨⟨by decide +kernel, ok_of (by decide +kernel), ok_of (by decide +kernel)⟩, some_of (by decide +kernel), ok_of (by decide +kernel)⟩, by decide +kernel, by decide +kernel, by decide +kernel, rfl⟩

theorem witness_continuation_moves_9 :
    let g : Guard := g0
    let d : BitVec 8 := 14
    let a : Src := .v 8
    let b : Src := .v 4
    let c : Src := .v 3
    let sends := fun (s : State) (f : Nat) (s1 : State) => (s.op64 (s.fib f) b).toNat % 8 = 0 ∧
      drainAt s f .system false = .ok s1 ∧ handleSound s1 (s1.ctxOf f) (s.op64 (s.fib f) a) = .ok ()
    let held := fun (s : State) (f : Nat) (s1 : State) (p : Nat) => sends s f s1 ∧
      liveHeader s1 (s1.ctxOf f) (s.op64 (s.fib f) a) = some p ∧ contWhole s1 p = .ok ()
    MeetsEach (.ksend g d a b c) (fun s _ f v => ∃ p s1, held s f s1 p ∧
    let dev := (s.op32 (s.fib f) c).toNat
    dev ≠ s1.dev.devid ∧ dev ∈ s1.launchDevs f ∧ dev ∉ s1.dev.down ∧ (4, dev) ∉ s1.dev.contained ∧
    v = ((s1.putNum p 1 5).send (.ksend dev p (sendMessage s1 (s1.ctxOf f) p (s.op64 (s.fib f) b)))).modFib f fun x =>
      { x with busy := x.busy ++ [(d.toNat, sendToken p)] }) :=
  each (r := oneRun) { ((withV (withP oneHandle 4 0x250000) 3 1).modTm 5 fun t => { t with launch := 0 }) with launches := [(0, twoDevices)] } 12 (issuing_of (by decide +kernel)) (by decide +kernel) (by decide +kernel) (ready_of (by decide +kernel))
    ⟨_, _, ⟨⟨by decide +kernel, ok_of (by decide +kernel), ok_of (by decide +kernel)⟩, some_of (by decide +kernel), ok_of (by decide +kernel)⟩, by decide +kernel, by decide +kernel, by decide +kernel, by decide +kernel, rfl⟩

theorem witness_loads_1_core :
    let g : Guard := g0
    let m : MemF := ⟨20, .s 10, .w, 8, .none, .core, .team, .plain, false⟩
    MeetsEach (.ld g m) (fun s _ f v => ∃ bytes k s1, m.ord ≠ .acq ∧ loadAccess s f m = .ok (bytes, k, s1) ∧
      v = putLoaded s1 f m.wid m.d bytes) :=
  each (r := oneRun) (withS one 10 0x100) 12 (issuing_of (by decide +kernel)) (by decide +kernel) (by decide +kernel) (ready_of (by decide +kernel))
    ⟨_, _, _, by decide +kernel, ok_of (by decide +kernel), rfl⟩

theorem witness_loads_1_lane :
    let g : Guard := g0
    let m : MemF := ⟨24, .v 8, .o, 32, .none, .lane, .team, .plain, false⟩
    MeetsEach (.ld g m) (fun s _ f v => ∃ bytes k s1, m.ord ≠ .acq ∧ loadAccess s f m = .ok (bytes, k, s1) ∧
      v = putLoaded s1 f m.wid m.d bytes) :=
  each (r := oneRun) oneSlice 12 (issuing_of (by decide +kernel)) (by decide +kernel) (by decide +kernel) (ready_of (by decide +kernel))
    ⟨_, _, _, by decide +kernel, ok_of (by decide +kernel), rfl⟩

theorem witness_loads_1_heap :
    let g : Guard := g0
    let m : MemF := ⟨20, .v 8, .w, 0xFF8, .none, .generic, .team, .plain, false⟩
    MeetsEach (.ld g m) (fun s _ f v => ∃ bytes k s1, m.ord ≠ .acq ∧ loadAccess s f m = .ok (bytes, k, s1) ∧
      v = putLoaded s1 f m.wid m.d bytes) :=
  each (r := oneRun) oneHeap 12 (issuing_of (by decide +kernel)) (by decide +kernel) (by decide +kernel) (ready_of (by decide +kernel))
    ⟨_, _, _, by decide +kernel, ok_of (by decide +kernel), rfl⟩

theorem witness_loads_2 :
    let g : Guard := g0
    let m : MemF := ⟨20, .v 8, .w, 8, .none, .lane, .team, .acq, false⟩
    MeetsEach (.ld g m) (fun s _ f v => ∃ bytes k s1 s2, m.ord = .acq ∧ loadAccess s f m = .ok (bytes, k, s1) ∧
      acquireLoad s1 f [f] m k = .ok s2 ∧ v = putLoaded s2 f m.wid m.d bytes) :=
  each (r := oneRun) oneSlice 12 (issuing_of (by decide +kernel)) (by decide +kernel) (by decide +kernel) (ready_of (by decide +kernel))
    ⟨_, _, _, _, by decide +kernel, ok_of (by decide +kernel), ok_of (by decide +kernel), rfl⟩

theorem witness_loads_3 :
    let g : Guard := g0
    let m : MemF := ⟨70, .s 10, .w, 8, .none, .core, .team, .acq, false⟩
    MeetsFlockwise (.lds g m) (fun s _ f fs v => ∃ bytes k s1 s2, loadAccess s f m = .ok (bytes, k, s1) ∧
      acquireLoad s1 f fs m k = .ok s2 ∧ v = setSreg s2 f m.d (extend m.wid (natOfBytes bytes))) :=
  flockwise (r := all8Run) (withS all8 10 0x100) 10 rest8 (issuing_of (by decide +kernel)) (by decide +kernel) (by decide +kernel) (by decide +kernel)
    ⟨_, _, _, _, ok_of (by decide +kernel), ok_of (by decide +kernel), rfl⟩

theorem witness_stores_1_plain :
    let g : Guard := g0
    let m : MemF := ⟨20, .s 10, .w, 8, .f0, .core, .team, .plain, false⟩
    MeetsEach (.st g m) (fun s r f v => ∃ b va ps fold s1 s2, Machine.memBase s f m.base m.space .store = .ok b ∧
      checkStore s f m.space (b + m.ofs.signExtend 64) (Wid.bytes m.wid) (Wid.align m.wid) = .ok (va, ps, fold, s1) ∧
      (if m.ord = .rel then drainAt s1 f (actScope ps m.scope) false else .ok s1) = .ok s2 ∧
      v = let p := startTok s2 r m.ft [f]
        pushStore p.2 f va ps (storeBytes (p.2.fib f) m.wid m.d) m.scope m.line fold (p.2.fib f).k p.1) :=
  each (r := oneRun) (withS one 10 0x100) 12 (issuing_of (by decide +kernel)) (by decide +kernel) (by decide +kernel) (ready_of (by decide +kernel))
    ⟨_, _, _, _, _, _, ok_of (by decide +kernel), ok_of (by decide +kernel), ok_of (by decide +kernel), rfl⟩

theorem witness_stores_1_release :
    let g : Guard := g0
    let m : MemF := ⟨24, .v 8, .o, 32, .none, .generic, .team, .rel, false⟩
    MeetsEach (.st g m) (fun s r f v => ∃ b va ps fold s1 s2, Machine.memBase s f m.base m.space .store = .ok b ∧
      checkStore s f m.space (b + m.ofs.signExtend 64) (Wid.bytes m.wid) (Wid.align m.wid) = .ok (va, ps, fold, s1) ∧
      (if m.ord = .rel then drainAt s1 f (actScope ps m.scope) false else .ok s1) = .ok s2 ∧
      v = let p := startTok s2 r m.ft [f]
        pushStore p.2 f va ps (storeBytes (p.2.fib f) m.wid m.d) m.scope m.line fold (p.2.fib f).k p.1) :=
  each (r := oneRun) oneHeap 12 (issuing_of (by decide +kernel)) (by decide +kernel) (by decide +kernel) (ready_of (by decide +kernel))
    ⟨_, _, _, _, _, _, ok_of (by decide +kernel), ok_of (by decide +kernel), ok_of (by decide +kernel), rfl⟩

theorem witness_stores_2_plain :
    let g : Guard := g0
    let m : MemF := ⟨70, .s 10, .w, 8, .none, .core, .team, .plain, false⟩
    MeetsFlockwise (.sts g m) (fun s r f fs v => ∃ b va ps fold s1 s2, Machine.memBase s f m.base m.space .store = .ok b ∧
      checkStore s f m.space (b + m.ofs.signExtend 64) (Wid.bytes m.wid) (Wid.align m.wid) = .ok (va, ps, fold, s1) ∧
      (if m.ord = .rel then releaseAll s1 fs (actScope ps m.scope) else .ok s1) = .ok s2 ∧
      v = let p := startTok s2 r m.ft fs
        pushStore p.2 f va ps (bytesOfNat (Wid.bytes m.wid) (sreg p.2 f m.d).toNat) m.scope m.line fold
          (if m.ord = .rel then greatestK s2 fs else (s2.fib f).k) p.1) :=
  flockwise (r := all8Run) (withS all8 10 0x100) 10 rest8 (issuing_of (by decide +kernel)) (by decide +kernel) (by decide +kernel) (by decide +kernel)
    ⟨_, _, _, _, _, _, ok_of (by decide +kernel), ok_of (by decide +kernel), ok_of (by decide +kernel), rfl⟩

theorem witness_stores_2_release :
    let g : Guard := g0
    let m : MemF := ⟨70, .s 10, .w, 8, .none, .core, .team, .rel, false⟩
    MeetsFlockwise (.sts g m) (fun s r f fs v => ∃ b va ps fold s1 s2, Machine.memBase s f m.base m.space .store = .ok b ∧
      checkStore s f m.space (b + m.ofs.signExtend 64) (Wid.bytes m.wid) (Wid.align m.wid) = .ok (va, ps, fold, s1) ∧
      (if m.ord = .rel then releaseAll s1 fs (actScope ps m.scope) else .ok s1) = .ok s2 ∧
      v = let p := startTok s2 r m.ft fs
        pushStore p.2 f va ps (bytesOfNat (Wid.bytes m.wid) (sreg p.2 f m.d).toNat) m.scope m.line fold
          (if m.ord = .rel then greatestK s2 fs else (s2.fib f).k) p.1) :=
  flockwise (r := all8Run) (withS all8 10 0x100) 10 rest8 (issuing_of (by decide +kernel)) (by decide +kernel) (by decide +kernel) (by decide +kernel)
    ⟨_, _, _, _, _, _, ok_of (by decide +kernel), ok_of (by decide +kernel), ok_of (by decide +kernel), rfl⟩

theorem witness_atomics_1 :
    let g : Guard := g0
    let m : AtmF := ⟨20, .v 8, 6, .none, .lane, .team, .ar⟩
    let op : AtomOp := .minu
    let nr : Bool := false
    let ret := fun (nr dbl : Bool) (s : State) (f : Nat) (old : List Byte) =>
      if nr then s else s.modFib f fun x => x.setWide dbl m.d (BitVec.ofNat 64 (natOfBytes old))
    MeetsEach (.atom g m op nr) (fun s _ f v => ∃ old u, atomicAccess s f m 4 (op = .add || op = .xchg) (fun bs =>
      some (bytesOfNat 4 (atomTable op (BitVec.ofNat 32 (natOfBytes bs)) ((s.fib f).reg m.b.toNat)).toNat)) = .ok (old, u) ∧
    v = ret nr false u f old) :=
  each (r := oneRun) oneSlice 12 (issuing_of (by decide +kernel)) (by decide +kernel) (by decide +kernel) (ready_of (by decide +kernel))
    ⟨_, _, ok_of (by decide +kernel), rfl⟩

theorem witness_atomics_2 :
    let g : Guard := g0
    let m : AtmF := ⟨20, .v 8, 6, .none, .lane, .team, .ar⟩
    let op : AtomOp := .minu
    let nr : Bool := false
    let ret := fun (nr dbl : Bool) (s : State) (f : Nat) (old : List Byte) =>
      if nr then s else s.modFib f fun x => x.setWide dbl m.d (BitVec.ofNat 64 (natOfBytes old))
    MeetsEach (.atomd g m op nr) (fun s _ f v => ∃ old u, atomicAccess s f m 8 (op = .add || op = .xchg) (fun bs =>
      some (bytesOfNat 8 (atomTable op (BitVec.ofNat 64 (natOfBytes bs)) (s.op64 (s.fib f) (.v m.b))).toNat)) = .ok (old, u) ∧
    v = ret nr true u f old) :=
  each (r := oneRun) oneSlice 12 (issuing_of (by decide +kernel)) (by decide +kernel) (by decide +kernel) (ready_of (by decide +kernel))
    ⟨_, _, ok_of (by decide +kernel), rfl⟩

theorem witness_atomics_3_equal :
    let g : Guard := g0
    let m : AtmF := ⟨20, .v 8, 6, .none, .lane, .team, .ar⟩
    let c : BitVec 8 := 30
    let ret := fun (nr dbl : Bool) (s : State) (f : Nat) (old : List Byte) =>
      if nr then s else s.modFib f fun x => x.setWide dbl m.d (BitVec.ofNat 64 (natOfBytes old))
    MeetsEach (.cas g m c) (fun s _ f v => ∃ old u, atomicAccess s f m 4 true (fun bs =>
      if BitVec.ofNat 32 (natOfBytes bs) = (s.fib f).reg c.toNat then
        some (bytesOfNat 4 ((s.fib f).reg m.b.toNat).toNat) else none) = .ok (old, u) ∧ v = ret false false u f old) :=
  each (r := oneRun) (withV oneSlice 30 0) 12 (issuing_of (by decide +kernel)) (by decide +kernel) (by decide +kernel) (ready_of (by decide +kernel))
    ⟨_, _, ok_of (by decide +kernel), rfl⟩

theorem witness_atomics_3_different :
    let g : Guard := g0
    let m : AtmF := ⟨20, .v 8, 6, .none, .lane, .team, .ar⟩
    let c : BitVec 8 := 30
    let ret := fun (nr dbl : Bool) (s : State) (f : Nat) (old : List Byte) =>
      if nr then s else s.modFib f fun x => x.setWide dbl m.d (BitVec.ofNat 64 (natOfBytes old))
    MeetsEach (.cas g m c) (fun s _ f v => ∃ old u, atomicAccess s f m 4 true (fun bs =>
      if BitVec.ofNat 32 (natOfBytes bs) = (s.fib f).reg c.toNat then
        some (bytesOfNat 4 ((s.fib f).reg m.b.toNat).toNat) else none) = .ok (old, u) ∧ v = ret false false u f old) :=
  each (r := oneRun) oneSlice 12 (issuing_of (by decide +kernel)) (by decide +kernel) (by decide +kernel) (ready_of (by decide +kernel))
    ⟨_, _, ok_of (by decide +kernel), rfl⟩

theorem witness_atomics_4 :
    let g : Guard := g0
    let m : AtmF := ⟨20, .v 8, 6, .none, .lane, .team, .ar⟩
    let c : BitVec 8 := 30
    let ret := fun (nr dbl : Bool) (s : State) (f : Nat) (old : List Byte) =>
      if nr then s else s.modFib f fun x => x.setWide dbl m.d (BitVec.ofNat 64 (natOfBytes old))
    MeetsEach (.casd g m c) (fun s _ f v => ∃ old u, atomicAccess s f m 8 true (fun bs =>
      if BitVec.ofNat 64 (natOfBytes bs) = s.op64 (s.fib f) (.v c) then
        some (bytesOfNat 8 (s.op64 (s.fib f) (.v m.b)).toNat) else none) = .ok (old, u) ∧ v = ret false true u f old) :=
  each (r := oneRun) oneSlice 12 (issuing_of (by decide +kernel)) (by decide +kernel) (by decide +kernel) (ready_of (by decide +kernel))
    ⟨_, _, ok_of (by decide +kernel), rfl⟩

theorem witness_fences_and_bits_1 :
    let g : Guard := g0
    let m : LineF := ⟨.v 8, 8, .none, .lane, .team, .rel⟩
    let bit := fun (full : Bool) (s : State) (_ : Run) (f : Nat) (v : State) => ∃ b va ps s1 s2,
      let key := (firstPiece ps).place.key
      Machine.memBase s f m.base m.space .store = .ok b ∧
      resolve s f m.space (b + m.ofs.signExtend 64) 1 1 .store = .ok (va, ps, s1) ∧ (firstPiece ps).place.kind = .scratch ∧
      (if m.ord = .rel then drainAt s1 f m.scope false else .ok s1) = .ok s2 ∧
      onItsWay (reachCore s2 f key) f key = false ∧ v = setLineBit (reachCore s2 f key) key full
    MeetsEach (.lnset g m) (bit true) :=
  each (r := oneRun) oneSlice 12 (issuing_of (by decide +kernel)) (by decide +kernel) (by decide +kernel) (ready_of (by decide +kernel))
    ⟨_, _, _, _, _, ok_of (by decide +kernel), ok_of (by decide +kernel), by decide +kernel, ok_of (by decide +kernel), by decide +kernel, rfl⟩

theorem witness_fences_and_bits_2 :
    let g : Guard := g0
    let m : LineF := ⟨.v 8, 8, .none, .lane, .team, .rel⟩
    let bit := fun (full : Bool) (s : State) (_ : Run) (f : Nat) (v : State) => ∃ b va ps s1 s2,
      let key := (firstPiece ps).place.key
      Machine.memBase s f m.base m.space .store = .ok b ∧
      resolve s f m.space (b + m.ofs.signExtend 64) 1 1 .store = .ok (va, ps, s1) ∧ (firstPiece ps).place.kind = .scratch ∧
      (if m.ord = .rel then drainAt s1 f m.scope false else .ok s1) = .ok s2 ∧
      onItsWay (reachCore s2 f key) f key = false ∧ v = setLineBit (reachCore s2 f key) key full
    MeetsEach (.lnclr g m) (bit false) :=
  each (r := oneRun) oneSlice 12 (issuing_of (by decide +kernel)) (by decide +kernel) (by decide +kernel) (ready_of (by decide +kernel))
    ⟨_, _, _, _, _, ok_of (by decide +kernel), ok_of (by decide +kernel), by decide +kernel, ok_of (by decide +kernel), by decide +kernel, rfl⟩

theorem witness_fences_and_bits_3 :
    let g : Guard := g0
    let scope : Scope := .device
    let o : Ord := .ar
    MeetsEach (.fence g scope o) (fun s _ f v => ∃ s1,
    (if o = .rel ∨ o = .ar then drainAt s f scope false else .ok s) = .ok s1 ∧
    (if o = .acq ∨ o = .ar then advanceView s1 f scope (s1.fib f).lineStamp else .ok s1) = .ok v) :=
  each (r := oneRun) oneSlice 12 (issuing_of (by decide +kernel)) (by decide +kernel) (by decide +kernel) (ready_of (by decide +kernel))
    ⟨_, ok_of (by decide +kernel), ok_of (by decide +kernel)⟩

theorem witness_fences_and_bits_4 :
    let g : Guard := g0
    let m : LineF := ⟨.v 8, 8, .none, .generic, .device, .plain⟩
    MeetsEach (.icinv g m) (fun s _ f v => ∃ b s1, Machine.memBase s f m.base .generic .fetch = .ok b ∧
    icinvLine s f (b + m.ofs.signExtend 64) = .ok none ∧ drainAt s f m.scope false = .ok s1 ∧ v = s1) :=
  each (r := oneRun) (withP one 8 0x3F100000000108) 12 (issuing_of (by decide +kernel)) (by decide +kernel) (by decide +kernel) (ready_of (by decide +kernel))
    ⟨_, _, ok_of (by decide +kernel), none_of (by decide +kernel), ok_of (by decide +kernel), rfl⟩

theorem witness_fences_and_bits_5 :
    let g : Guard := g0
    let m : LineF := ⟨.v 8, 8, .none, .generic, .device, .plain⟩
    MeetsEach (.icinv g m) (fun s r f v => ∃ b l s1 s2, Machine.memBase s f m.base .generic .fetch = .ok b ∧
    icinvLine s f (b + m.ofs.signExtend 64) = .ok (some l) ∧ drainAt s f m.scope false = .ok s1 ∧
    homeLine s1 (clusterOf (s1.fib f).core) l = some s2 ∧
    v = askDevices ((scopeCores s2 f m.scope).foldl (fun s c => s.modCore c fun x => { x with code := tabDel x.code l }) s2) f
      (scopeDevs s2 f m.scope) (flagOf r m.ft) fun d tok => .icinv d tok (l * 128)) :=
  each (r := oneRun) (paged (withP one 8 0x800100)) 12 (issuing_of (by decide +kernel)) (by decide +kernel) (by decide +kernel) (ready_of (by decide +kernel))
    ⟨_, _, _, _, ok_of (by decide +kernel), line_of (by decide +kernel), ok_of (by decide +kernel), some_of (by decide +kernel), rfl⟩

theorem witness_folds_views_1 :
    let g : Guard := g0
    let d : BitVec 8 := 20
    let n : BitVec 2 := 1
    MeetsEach (.fopen g n) (fun s _ f v => slotAt s f n = none ∧ (s.fib f).openFold = none ∧
      ((s.ctx (s.ctxOf f)).folds = 0 ∨ (s.ctx (s.ctxOf f)).folds ≤ Config.foldPool (s.ctxOf f)) ∧
      let slice := sliceOf (s.fib f).core
      let tag : FoldTag := ⟨(s.tm (s.fib f).team).devIndex, slice, tabGetD s.dev.foldSeq slice 0⟩
      v = ((({ s with folds := s.folds ++ [Fold.fresh tag (s.ctxOf f) f n.toNat] }).modCtx (s.ctxOf f) fun c =>
          { c with folds := c.folds + 1 }).modDev fun d => { d with foldSeq := tabPut d.foldSeq slice (tag.seq + 1) }).modFib
        f fun x => x.setSlot n.toNat (some ⟨tag, .open, 0⟩)) :=
  each (r := oneRun) oneSlice 12 (issuing_of (by decide +kernel)) (by decide +kernel) (by decide +kernel) (ready_of (by decide +kernel))
    ⟨by decide +kernel, by decide +kernel, by decide +kernel, rfl⟩

theorem witness_folds_views_2 :
    let g : Guard := g0
    let d : BitVec 8 := 20
    let n : BitVec 2 := 1
    MeetsEach (.fseal g d n) (fun s _ f v => ∃ sl s1, slotAt s f n = some sl ∧ sl.st = .open ∧
      drainAt s f .system false = .ok s1 ∧
      v = ((s1.bump).modFold sl.tag fun r => { r with dreg := some d.toNat, tok := some s1.seq }).modFib f fun x =>
        { x.setSlot n.toNat (some { sl with st := .sealing }) with
          busy := x.busy ++ [(d.toNat, s1.seq), (d.toNat + 1, s1.seq)] }) :=
  each (r := oneRun) oneFold 12 (issuing_of (by decide +kernel)) (by decide +kernel) (by decide +kernel) (ready_of (by decide +kernel))
    ⟨_, _, some_of (by decide +kernel), by decide +kernel, ok_of (by decide +kernel), rfl⟩

theorem witness_folds_views_3_committed :
    let g : Guard := g0
    let d : BitVec 8 := 20
    let n : BitVec 2 := 1
    MeetsEach (.fseal g d n) (fun s _ f v => ∃ sl s1, slotAt s f n = some sl ∧ drainAt s f .system false = .ok s1 ∧
      ((sl.st = .committed ∧ v = s1.modFib f fun x => x.setPair d.toNat (BitVec.ofNat 64 sl.stamp)) ∨
       (sl.st = .aborted ∧ v = s1.modFib f fun x => x.setPair d.toNat (1 <<< 63)))) :=
  each (r := oneRun) oneLater 12 (issuing_of (by decide +kernel)) (by decide +kernel) (by decide +kernel) (ready_of (by decide +kernel))
    ⟨_, _, some_of (by decide +kernel), ok_of (by decide +kernel), .inl ⟨by decide +kernel, rfl⟩⟩

theorem witness_folds_views_3_aborted :
    let g : Guard := g0
    let d : BitVec 8 := 20
    let n : BitVec 2 := 1
    MeetsEach (.fseal g d n) (fun s _ f v => ∃ sl s1, slotAt s f n = some sl ∧ drainAt s f .system false = .ok s1 ∧
      ((sl.st = .committed ∧ v = s1.modFib f fun x => x.setPair d.toNat (BitVec.ofNat 64 sl.stamp)) ∨
       (sl.st = .aborted ∧ v = s1.modFib f fun x => x.setPair d.toNat (1 <<< 63)))) :=
  each (r := oneRun) (oneLater.modFib 12 fun x => x.setSlot 1 (some ⟨⟨0, 3, 4⟩, .aborted, 3⟩)) 12 (issuing_of (by decide +kernel)) (by decide +kernel) (by decide +kernel) (ready_of (by decide +kernel))
    ⟨_, _, some_of (by decide +kernel), ok_of (by decide +kernel), .inr ⟨by decide +kernel, rfl⟩⟩

theorem witness_folds_views_4_empty :
    let g : Guard := g0
    let d : BitVec 8 := 20
    let n : BitVec 2 := 1
    MeetsEach (.fabort g d n) (fun s _ f v =>
      (slotAt s f n = none ∧ v = s.modFib f fun x => x.setReg d.toNat 3) ∨
      (∃ sl, slotAt s f n = some sl ∧
        let out := fun (s : State) (c : Word) => (s.modFib f fun x => x.setSlot n.toNat none).modFib f fun x =>
          x.setReg d.toNat c
        ((sl.st = .open ∧ v = out (discardFold s sl.tag f) 0) ∨ (sl.st = .committed ∧ v = out s 1) ∨
         (sl.st = .aborted ∧ v = out s 2)))) :=
  each (r := oneRun) oneSlice 12 (issuing_of (by decide +kernel)) (by decide +kernel) (by decide +kernel) (ready_of (by decide +kernel))
    (.inl ⟨by decide +kernel, rfl⟩)

theorem witness_folds_views_4_open :
    let g : Guard := g0
    let d : BitVec 8 := 20
    let n : BitVec 2 := 1
    MeetsEach (.fabort g d n) (fun s _ f v =>
      (slotAt s f n = none ∧ v = s.modFib f fun x => x.setReg d.toNat 3) ∨
      (∃ sl, slotAt s f n = some sl ∧
        let out := fun (s : State) (c : Word) => (s.modFib f fun x => x.setSlot n.toNat none).modFib f fun x =>
          x.setReg d.toNat c
        ((sl.st = .open ∧ v = out (discardFold s sl.tag f) 0) ∨ (sl.st = .committed ∧ v = out s 1) ∨
         (sl.st = .aborted ∧ v = out s 2)))) :=
  each (r := oneRun) oneFold 12 (issuing_of (by decide +kernel)) (by decide +kernel) (by decide +kernel) (ready_of (by decide +kernel))
    (.inr ⟨_, some_of (by decide +kernel), .inl ⟨by decide +kernel, rfl⟩⟩)

theorem witness_folds_views_4_committed :
    let g : Guard := g0
    let d : BitVec 8 := 20
    let n : BitVec 2 := 1
    MeetsEach (.fabort g d n) (fun s _ f v =>
      (slotAt s f n = none ∧ v = s.modFib f fun x => x.setReg d.toNat 3) ∨
      (∃ sl, slotAt s f n = some sl ∧
        let out := fun (s : State) (c : Word) => (s.modFib f fun x => x.setSlot n.toNat none).modFib f fun x =>
          x.setReg d.toNat c
        ((sl.st = .open ∧ v = out (discardFold s sl.tag f) 0) ∨ (sl.st = .committed ∧ v = out s 1) ∨
         (sl.st = .aborted ∧ v = out s 2)))) :=
  each (r := oneRun) oneLater 12 (issuing_of (by decide +kernel)) (by decide +kernel) (by decide +kernel) (ready_of (by decide +kernel))
    (.inr ⟨_, some_of (by decide +kernel), .inr (.inl ⟨by decide +kernel, rfl⟩)⟩)

theorem witness_folds_views_4_aborted :
    let g : Guard := g0
    let d : BitVec 8 := 20
    let n : BitVec 2 := 1
    MeetsEach (.fabort g d n) (fun s _ f v =>
      (slotAt s f n = none ∧ v = s.modFib f fun x => x.setReg d.toNat 3) ∨
      (∃ sl, slotAt s f n = some sl ∧
        let out := fun (s : State) (c : Word) => (s.modFib f fun x => x.setSlot n.toNat none).modFib f fun x =>
          x.setReg d.toNat c
        ((sl.st = .open ∧ v = out (discardFold s sl.tag f) 0) ∨ (sl.st = .committed ∧ v = out s 1) ∨
         (sl.st = .aborted ∧ v = out s 2)))) :=
  each (r := oneRun) (oneLater.modFib 12 fun x => x.setSlot 1 (some ⟨⟨0, 3, 4⟩, .aborted, 3⟩)) 12 (issuing_of (by decide +kernel)) (by decide +kernel) (by decide +kernel) (ready_of (by decide +kernel))
    (.inr ⟨_, some_of (by decide +kernel), .inr (.inr ⟨by decide +kernel, rfl⟩)⟩)

theorem witness_folds_views_5 :
    let g : Guard := g0
    let d : BitVec 8 := 20
    MeetsEach (.view g d none) (fun s _ f v => ∃ u, advanceView s f .system 0 = .ok u ∧
      v = u.modFib f fun x => x.setPair d.toNat (BitVec.ofNat 64 ((u.fib f).vst % 2 ^ 56))) :=
  each (r := oneRun) oneLater 12 (issuing_of (by decide +kernel)) (by decide +kernel) (by decide +kernel) (ready_of (by decide +kernel))
    ⟨_, ok_of (by decide +kernel), rfl⟩

theorem witness_folds_views_6 :
    let g : Guard := g0
    let d : BitVec 8 := 20
    let a : Src := .s 12
    MeetsEach (.view g d (some a)) (fun s _ f v =>
      let t := (s.op64 (s.fib f) a).toNat % 2 ^ 56
      t ≤ s.dev.hb + 2 ^ 16 ∧ t ≤ max (s.fib f).vst (s.systemSettled (s.launchDevs f)) ∧
      v = s.modFib f fun x => (x.viewed (max x.vst t)).setPair d.toNat (BitVec.ofNat 64 (max x.vst t % 2 ^ 56))) :=
  each (r := oneRun) (withS oneLater 12 0) 12 (issuing_of (by decide +kernel)) (by decide +kernel) (by decide +kernel) (ready_of (by decide +kernel))
    ⟨by decide +kernel, by decide +kernel, rfl⟩

theorem witness_barriers_1 :
    let g : Guard := g0
    let d : BitVec 8 := 24
    let m : LineF := ⟨.s 10, 0, .none, .generic, .team, .plain⟩
    let arrives := fun (leave : Bool) (s : State) (_ : Run) (f : Nat) (v : State) => ∃ va line s1 u,
      barrierLine s f m .atomic = .ok (va, line, s1) ∧ s1.barrierLive (line * 128) = true ∧ copyHolds s1 line = false ∧
      drainAt s1 f m.scope false = .ok u ∧ (u.line line).pend = none ∧
      let w := arriveAt (clearLine u line) line (u.fib f).k leave
      v = w.2.modFib f fun x => x.setReg d.toNat (BitVec.ofNat 32 w.1)
    MeetsEach (.baraArrive g d m) (arrives false) :=
  each (r := oneRun) (withBarrier one) 12 (issuing_of (by decide +kernel)) (by decide +kernel) (by decide +kernel) (ready_of (by decide +kernel))
    ⟨_, _, _, _, ok_of (by decide +kernel), by decide +kernel, by decide +kernel, ok_of (by decide +kernel), by decide +kernel, rfl⟩

theorem witness_barriers_2 :
    let g : Guard := g0
    let d : BitVec 8 := 24
    let m : LineF := ⟨.s 10, 0, .none, .generic, .team, .plain⟩
    let arrives := fun (leave : Bool) (s : State) (_ : Run) (f : Nat) (v : State) => ∃ va line s1 u,
      barrierLine s f m .atomic = .ok (va, line, s1) ∧ s1.barrierLive (line * 128) = true ∧ copyHolds s1 line = false ∧
      drainAt s1 f m.scope false = .ok u ∧ (u.line line).pend = none ∧
      let w := arriveAt (clearLine u line) line (u.fib f).k leave
      v = w.2.modFib f fun x => x.setReg d.toNat (BitVec.ofNat 32 w.1)
    MeetsEach (.baraLeave g d m) (arrives true) :=
  each (r := oneRun) (withBarrier one) 12 (issuing_of (by decide +kernel)) (by decide +kernel) (by decide +kernel) (ready_of (by decide +kernel))
    ⟨_, _, _, _, ok_of (by decide +kernel), by decide +kernel, by decide +kernel, ok_of (by decide +kernel), by decide +kernel, rfl⟩

theorem witness_barriers_3 :
    let g : Guard := g0
    let d : BitVec 8 := 24
    let m : LineF := ⟨.s 10, 0, .none, .generic, .team, .plain⟩
    MeetsFlockwise (.baraInit g d m) (fun s _ f fs v => ∃ va line s1 w, barrierLine s f m .atomic = .ok (va, line, s1) ∧
      s1.barrierLive (line * 128) = false ∧ 0 < ((s.fib f).reg d.toNat).toNat ∧
      ((s.fib f).reg d.toNat).toNat ≤ 2 ^ 24 ∧ releaseAll s1 fs m.scope = .ok w ∧
      let u := clearLine w line
      (u.line line).pend = none ∧ lineBusy u line = false ∧
      v = putBarrier (u.modLine line fun l => { l with leaves := 0 }) line ((s.fib f).reg d.toNat).toNat 0 0 1 0
        (u.fib f).k) :=
  flockwise (r := all8Run) (withS all8 10 (areaAddr 0x7000)) 10 rest8 (issuing_of (by decide +kernel)) (by decide +kernel) (by decide +kernel) (by decide +kernel)
    ⟨_, _, _, _, ok_of (by decide +kernel), by decide +kernel, by decide +kernel, by decide +kernel, ok_of (by decide +kernel), by decide +kernel, by decide +kernel, rfl⟩

theorem witness_barriers_4 :
    let g : Guard := g0
    let d : BitVec 8 := 24
    let m : LineF := ⟨.s 10, 0, .none, .generic, .team, .plain⟩
    MeetsFlockwise (.baraKill g d m) (fun s _ f fs v => ∃ va line s1 u, barrierLine s f m .atomic = .ok (va, line, s1) ∧
      releaseAll s1 fs m.scope = .ok u ∧ (u.line line).pend = none ∧
      v = wakeBarrier (killBarrier (u.modLine line fun l => { l with leaves := 0 }) line (u.fib f).k) line) :=
  flockwise (r := all8Run) (withBarrier all8) 10 rest8 (issuing_of (by decide +kernel)) (by decide +kernel) (by decide +kernel) (by decide +kernel)
    ⟨_, _, _, _, ok_of (by decide +kernel), ok_of (by decide +kernel), by decide +kernel, rfl⟩

theorem witness_barriers_5 :
    let g : Guard := g0
    let d : BitVec 8 := 24
    let m : LineF := ⟨.s 10, 0, .none, .generic, .team, .plain⟩
    MeetsEach (.barw g d m) (fun s _ f v => ∃ va line s1 u, barrierLine s f m .load = .ok (va, line, s1) ∧
      (s1.barrierLive (line * 128) = false ∨ s1.barField line 8 4 ≠ ((s.fib f).reg d.toNat).toNat) ∧
      advanceView s1 f m.scope (s.line line).ls = .ok u ∧ v = observeLine u line) :=
  each (r := oneRun) (withBarrier one) 12 (issuing_of (by decide +kernel)) (by decide +kernel) (by decide +kernel) (ready_of (by decide +kernel))
    ⟨_, _, _, _, ok_of (by decide +kernel), by decide +kernel, ok_of (by decide +kernel), rfl⟩

theorem witness_tile_definitions_1 :
    let g : Guard := g0
    let d : BitVec 8 := 7
    let a : Src := .s 10
    let b : Src := .s 12
    let chain : Bool := false
    let ready : Bool := false
    let describes := fun (s : State) (f : Nat) (t : Tile) (u : State) => ∃ bytes k t0,
      loadBytes s f (s.op64 (s.fib f) a) 16 16 .table false = .ok (bytes, k, u) ∧
      descTile bytes (s.op32 (s.fib f) b) chain ready = .ok t0 ∧ tileLimits s (s.fib f).team t0 = .ok t
    MeetsFlockwise (.tdef g d a b chain ready) (fun s _ f fs v => ∃ t u, describes s f t u ∧
    0 < entriesFree s (s.fib f).core (s.fib f).team ∧
    let q := defineTile u (s.fib f).core (s.fib f).team t
    v = put32All q.2.2 fs d q.1) :=
  flockwise (r := all8Run) flockTile 10 rest8 (issuing_of (by decide +kernel)) (by decide +kernel) (by decide +kernel) (by decide +kernel)
    ⟨_, _, ⟨_, _, _, ok_of (by decide +kernel), ok_of (by decide +kernel), ok_of (by decide +kernel)⟩, by decide +kernel, rfl⟩

theorem witness_tile_definitions_2 :
    let g : Guard := g0
    let d : BitVec 8 := 7
    let a : Src := .s 10
    let b : Src := .s 12
    let chain : Bool := false
    let ready : Bool := false
    let describes := fun (s : State) (f : Nat) (t : Tile) (u : State) => ∃ bytes k t0,
      loadBytes s f (s.op64 (s.fib f) a) 16 16 .table false = .ok (bytes, k, u) ∧
      descTile bytes (s.op32 (s.fib f) b) chain ready = .ok t0 ∧ tileLimits s (s.fib f).team t0 = .ok t
    MeetsFlockwise (.tdef g d a b chain ready) (fun s _ f fs v => ∃ t u, describes s f t u ∧
    entriesFree s (s.fib f).core (s.fib f).team = 0 ∧ v = put32All u fs d 0xFFFFFFFF) :=
  flockwise (r := all8Run) (flockTile.modCore 0 fun c => { c with tiles := (List.range 2048).map fun i => (5 * 2048 + i, tileOfTag .empty 2 1 1 0) }) 10 rest8 (issuing_of (by decide +kernel)) (by decide +kernel) (by decide +kernel) (by decide +kernel)
    ⟨_, _, ⟨_, _, _, ok_of (by decide +kernel), ok_of (by decide +kernel), ok_of (by decide +kernel)⟩, by decide +kernel, rfl⟩

theorem witness_tile_definitions_3 :
    let g : Guard := g0
    let a : Src := .s 10
    let b : Src := .s 12
    let named := fun (s : State) (f : Nat) (h : Word) (r : TileRef) (t : Tile) =>
      namedTile s (s.fib f).team h.toNat = some r ∧ s.tile r = some t
    MeetsFlockwise (.ttag g a b) (fun s _ f fs v => ∃ r t t1 w u, named s f (s.op32 (s.fib f) a) r t ∧
    (s.op32 (s.fib f) b).toNat < 2 ^ 16 ∧ t.st = .ready ∧ tileBusy s r = false ∧
    retag s (s.fib f).team t ((s.op32 (s.fib f) b).setWidth 16) = .ok t1 ∧
    drained s fs = .ok w ∧ findReady (performCore w (w.fib f).core) fs t = .ok u ∧ v = u.modTile r fun _ => t1) :=
  flockwise (r := all8Run) (withS (flockTiles 1) 12 3) 10 rest8 (issuing_of (by decide +kernel)) (by decide +kernel) (by decide +kernel) (by decide +kernel)
    ⟨_, _, _, _, _, ⟨some_of (by decide +kernel), some_of (by decide +kernel)⟩, by decide +kernel, by decide +kernel, by decide +kernel, ok_of (by decide +kernel), ok_of (by decide +kernel), ok_of (by decide +kernel), rfl⟩

theorem witness_tile_definitions_4 :
    let g : Guard := g0
    let a : Src := .s 10
    let e : Bool := false
    let named := fun (s : State) (f : Nat) (h : Word) (r : TileRef) (t : Tile) =>
      namedTile s (s.fib f).team h.toNat = some r ∧ s.tile r = some t
    MeetsFlockwise (.twait g a e) (fun s _ f fs v => ∃ r t, named s f (s.op32 (s.fib f) a) r t ∧
    t.st = (if e then .empty else .ready) ∧ acquireAll s fs .team t.ls = .ok v) :=
  flockwise (r := all8Run) (flockTiles 1) 10 rest8 (issuing_of (by decide +kernel)) (by decide +kernel) (by decide +kernel) (by decide +kernel)
    ⟨_, _, ⟨some_of (by decide +kernel), some_of (by decide +kernel)⟩, by decide +kernel, ok_of (by decide +kernel)⟩

theorem witness_tile_definitions_5_empty :
    let g : Guard := g0
    let a : Src := .s 10
    let e : Bool := true
    let named := fun (s : State) (f : Nat) (h : Word) (r : TileRef) (t : Tile) =>
      namedTile s (s.fib f).team h.toNat = some r ∧ s.tile r = some t
    MeetsFlockwise (.trel g a e) (fun s _ f fs v => ∃ r t w u, named s f (s.op32 (s.fib f) a) r t ∧ drained s fs = .ok w ∧
    ((t.st = .empty ∧ u = w) ∨ (t.st = .ready ∧ tileBusy s r = false ∧ findReady w fs t = .ok u)) ∧
    v = if e then freeTile (setTileState u r .empty) r else setTileState u r .empty) :=
  flockwise (r := all8Run) (flockTiles 0) 10 rest8 (issuing_of (by decide +kernel)) (by decide +kernel) (by decide +kernel) (by decide +kernel)
    ⟨_, _, _, _, ⟨some_of (by decide +kernel), some_of (by decide +kernel)⟩, ok_of (by decide +kernel), .inl ⟨by decide +kernel, rfl⟩, rfl⟩

theorem witness_tile_definitions_5_ready :
    let g : Guard := g0
    let a : Src := .s 10
    let e : Bool := false
    let named := fun (s : State) (f : Nat) (h : Word) (r : TileRef) (t : Tile) =>
      namedTile s (s.fib f).team h.toNat = some r ∧ s.tile r = some t
    MeetsFlockwise (.trel g a e) (fun s _ f fs v => ∃ r t w u, named s f (s.op32 (s.fib f) a) r t ∧ drained s fs = .ok w ∧
    ((t.st = .empty ∧ u = w) ∨ (t.st = .ready ∧ tileBusy s r = false ∧ findReady w fs t = .ok u)) ∧
    v = if e then freeTile (setTileState u r .empty) r else setTileState u r .empty) :=
  flockwise (r := all8Run) (flockTiles 1) 10 rest8 (issuing_of (by decide +kernel)) (by decide +kernel) (by decide +kernel) (by decide +kernel)
    ⟨_, _, _, _, ⟨some_of (by decide +kernel), some_of (by decide +kernel)⟩, ok_of (by decide +kernel), .inr ⟨by decide +kernel, by decide +kernel, ok_of (by decide +kernel)⟩, rfl⟩

theorem witness_tile_transfers_1 :
    let g : Guard := g0
    let d : BitVec 8 := 20
    let a : Src := .s 10
    let b : Src := .s 12
    let c : Src := .s 14
    let ft : Ft := .f0
    let named := fun (s : State) (f : Nat) (h : Word) (r : TileRef) (t : Tile) =>
      namedTile s (s.fib f).team h.toNat = some r ∧ s.tile r = some t
    MeetsFlockwise (.tld g d a b c ft) (fun s r f fs v => ∃ k t u w, named s f (s.op32 (s.fib f) a) k t ∧ t.st = .empty ∧
      checkTransfer s f t (s.op64 (s.fib f) b) (s.op32 (s.fib f) c).toNat false = .ok u ∧ drained u fs = .ok w ∧
      let q := startOp w r ft fs (some d)
      v = beginTransfer q.2 (s.fib f).core ⟨.load, (s.fib f).team, (s.fib f).slice, none, some k, s.op64 (s.fib f) b,
        (s.op32 (s.fib f) c).toNat, t.tag, greatestK s fs, fs, some d.toNat, some q.1, none, [], 0⟩) :=
  flockwise (r := all8Run) (withS (withS (flockTiles 0) 12 0x250000) 14 64) 10 rest8 (issuing_of (by decide +kernel)) (by decide +kernel) (by decide +kernel) (by decide +kernel)
    ⟨_, _, _, _, ⟨some_of (by decide +kernel), some_of (by decide +kernel)⟩, by decide +kernel, ok_of (by decide +kernel), ok_of (by decide +kernel), rfl⟩

theorem witness_tile_transfers_2 :
    let g : Guard := g0
    let d : BitVec 8 := 20
    let a : Src := .s 10
    let b : Src := .s 12
    let c : Src := .s 14
    let ft : Ft := .f0
    let named := fun (s : State) (f : Nat) (h : Word) (r : TileRef) (t : Tile) =>
      namedTile s (s.fib f).team h.toNat = some r ∧ s.tile r = some t
    MeetsFlockwise (.tst g d a b c ft) (fun s r f fs v => ∃ k t u z w, named s f (s.op32 (s.fib f) a) k t ∧ t.st = .ready ∧
      checkTransfer s f t (s.op64 (s.fib f) b) (s.op32 (s.fib f) c).toNat true = .ok u ∧
      drained u fs = .ok z ∧ findReady z fs t = .ok w ∧
      let q := startOp w r ft fs (some d)
      v = beginTransfer q.2 (s.fib f).core ⟨.store, (s.fib f).team, (s.fib f).slice, some k, none, s.op64 (s.fib f) b,
        (s.op32 (s.fib f) c).toNat, t.tag, greatestK s fs, fs, some d.toNat, some q.1, none, [], 0⟩) :=
  flockwise (r := all8Run) (withS (withS (flockTiles 1) 12 0x250000) 14 64) 10 rest8 (issuing_of (by decide +kernel)) (by decide +kernel) (by decide +kernel) (by decide +kernel)
    ⟨_, _, _, _, _, ⟨some_of (by decide +kernel), some_of (by decide +kernel)⟩, by decide +kernel, ok_of (by decide +kernel), ok_of (by decide +kernel), ok_of (by decide +kernel), rfl⟩

theorem witness_tile_transfers_3 :
    let g : Guard := g0
    let d : BitVec 8 := 20
    let a : Src := .s 10
    let b : Src := .s 12
    let ft : Ft := .f0
    let named := fun (s : State) (f : Nat) (h : Word) (r : TileRef) (t : Tile) =>
      namedTile s (s.fib f).team h.toNat = some r ∧ s.tile r = some t
    MeetsFlockwise (.rodld g d a b ft) (fun s r f fs v => ∃ k t j w z u t1, named s f (s.op32 (s.fib f) a) k t ∧
      named s f (s.op32 (s.fib f) b) j w ∧ checkRodLoad s (s.fib f).team t w = .ok t1 ∧ t.st = .empty ∧ w.st = .ready ∧
      loopNames s k = false ∧ loopNames s j = false ∧ drained s fs = .ok z ∧ findReady z fs w = .ok u ∧
      let q := startOp u r ft fs (some d)
      v = beginTransfer q.2 (s.fib f).core ⟨.rod, (s.fib f).team, (s.fib f).slice, some j, some k, 0, 0, rodTag w.tag,
        greatestK s fs, fs, some d.toNat, some q.1, none, [], 0⟩) :=
  flockwise (r := all8Run) (withS (flockTiles 3) 12 4) 10 rest8 (issuing_of (by decide +kernel)) (by decide +kernel) (by decide +kernel) (by decide +kernel)
    ⟨_, _, _, _, _, _, _, ⟨some_of (by decide +kernel), some_of (by decide +kernel)⟩, ⟨some_of (by decide +kernel), some_of (by decide +kernel)⟩, ok_of (by decide +kernel), by decide +kernel, by decide +kernel, by decide +kernel, by decide +kernel, ok_of (by decide +kernel), ok_of (by decide +kernel), rfl⟩

theorem witness_quantising_store_1 :
    let g : Guard := g0
    let d : BitVec 8 := 24
    let a : Src := .s 6
    let b : Src := .v 3
    let keep : Option Src := none
    let n : QstN := .n8
    let cy : BitVec 3 := 2
    let ft : Ft := .f0
    let named := fun (s : State) (f : Nat) (h : Word) (r : TileRef) (t : Tile) =>
      namedTile s (s.fib f).team h.toNat = some r ∧ s.tile r = some t
    let sideOf := fun (s : State) (f cnt : Nat) (side : Option (TileRef × Tile)) =>
      (keep = none → side = none) ∧ ∀ c, keep = some c → ∃ w y, side = some (w, y) ∧ named s f (s.op32 (s.fib f) c) w y ∧
        y.rod = false ∧ tagFmt y.tag = some .fp32 ∧ cnt ≤ y.cols ∧ y.st = .ready
    MeetsEach (.qst g d a b keep n cy ft) (fun s run f v => ∃ r t m u0 u side,
    let pos := (s.op32 (s.fib f) b).toNat
    let cnt := QstN.count n
    let l := pos % 2 ^ 12
    let e := pos / 2 ^ 12 % 2 ^ 16
    let team := (s.fib f).team
    named s f (s.op32 (s.fib f) a) r t ∧ qstTarget t = .ok m ∧ sideOf s f t.lineCount side ∧
    d.toNat % min cnt 8 = 0 ∧ d.toNat + cnt ≤ (s.fib f).alloc ∧
    (∀ k ∈ (s.fib f).busy, ¬ (d.toNat ≤ k.1 ∧ k.1 < d.toNat + cnt)) ∧
    pos < 2 ^ 28 ∧ l < t.lineCount ∧ e + cnt ≤ t.lineLen ∧ t.st = .ready ∧ findReady s [f] t = .ok u0 ∧
    sideFound u0 f side = .ok u ∧
    let view := TileView.ofTag r.core team t m
    let scale := fun (e : Nat) => let k := TileView.scaleKey s view l (e / 48)
      if tagScale t.tag = 2 then (overlay (s.fib f).queue k (engineByte s r.core k)).toNat else 0x7F
    let q := qstCodes m scale ((s.fib f).cy.getD cy.toNat 0).toNat
      ((List.range cnt).map fun i => (s.fib f).reg (d.toNat + i)) e
    let ends := decide (t.lineLen = e + cnt) && !t.chain
    let kept := match side with
      | some w => if ends then [TileView.cells s ⟨w.1.core, team, { w.2 with axis := false }, .fp32, 0, 0⟩ 0 l q.2] else []
      | none => []
    let stores := ((List.range cnt).map fun i => TileView.cells s view l (e + i) (q.1.getD i 0)) ++ kept
    (∀ c ∈ stores.flatten, s.barrierLive c.1 = false) ∧
    let p := startTok u run ft [f]
    v = (pushElements p.2 f p.1 stores).modFib f fun x => { x with cy := setAt x.cy cy.toNat (if ends then 0 else BitVec.ofNat 32 q.2) }) :=
  each (r := oneRun) oneQst 12 (issuing_of (by decide +kernel)) (by decide +kernel) (by decide +kernel) (ready_of (by decide +kernel))
    ⟨_, _, _, _, _, _, ⟨some_of (by decide +kernel), some_of (by decide +kernel)⟩, ok_of (by decide +kernel), ⟨(fun _ => rfl), (fun _ h => nomatch h)⟩, by decide +kernel, by decide +kernel, by decide +kernel, by decide +kernel, by decide +kernel, by decide +kernel, by decide +kernel, ok_of (by decide +kernel), ok_of (by decide +kernel), by decide +kernel, rfl⟩

theorem witness_quantising_store_1_keep :
    let g : Guard := g0
    let d : BitVec 8 := 24
    let a : Src := .s 6
    let b : Src := .v 3
    let keep : Option Src := some (.s 8)
    let n : QstN := .n8
    let cy : BitVec 3 := 2
    let ft : Ft := .f0
    let named := fun (s : State) (f : Nat) (h : Word) (r : TileRef) (t : Tile) =>
      namedTile s (s.fib f).team h.toNat = some r ∧ s.tile r = some t
    let sideOf := fun (s : State) (f cnt : Nat) (side : Option (TileRef × Tile)) =>
      (keep = none → side = none) ∧ ∀ c, keep = some c → ∃ w y, side = some (w, y) ∧ named s f (s.op32 (s.fib f) c) w y ∧
        y.rod = false ∧ tagFmt y.tag = some .fp32 ∧ cnt ≤ y.cols ∧ y.st = .ready
    MeetsEach (.qst g d a b keep n cy ft) (fun s run f v => ∃ r t m u0 u side,
    let pos := (s.op32 (s.fib f) b).toNat
    let cnt := QstN.count n
    let l := pos % 2 ^ 12
    let e := pos / 2 ^ 12 % 2 ^ 16
    let team := (s.fib f).team
    named s f (s.op32 (s.fib f) a) r t ∧ qstTarget t = .ok m ∧ sideOf s f t.lineCount side ∧
    d.toNat % min cnt 8 = 0 ∧ d.toNat + cnt ≤ (s.fib f).alloc ∧
    (∀ k ∈ (s.fib f).busy, ¬ (d.toNat ≤ k.1 ∧ k.1 < d.toNat + cnt)) ∧
    pos < 2 ^ 28 ∧ l < t.lineCount ∧ e + cnt ≤ t.lineLen ∧ t.st = .ready ∧ findReady s [f] t = .ok u0 ∧
    sideFound u0 f side = .ok u ∧
    let view := TileView.ofTag r.core team t m
    let scale := fun (e : Nat) => let k := TileView.scaleKey s view l (e / 48)
      if tagScale t.tag = 2 then (overlay (s.fib f).queue k (engineByte s r.core k)).toNat else 0x7F
    let q := qstCodes m scale ((s.fib f).cy.getD cy.toNat 0).toNat
      ((List.range cnt).map fun i => (s.fib f).reg (d.toNat + i)) e
    let ends := decide (t.lineLen = e + cnt) && !t.chain
    let kept := match side with
      | some w => if ends then [TileView.cells s ⟨w.1.core, team, { w.2 with axis := false }, .fp32, 0, 0⟩ 0 l q.2] else []
      | none => []
    let stores := ((List.range cnt).map fun i => TileView.cells s view l (e + i) (q.1.getD i 0)) ++ kept
    (∀ c ∈ stores.flatten, s.barrierLive c.1 = false) ∧
    let p := startTok u run ft [f]
    v = (pushElements p.2 f p.1 stores).modFib f fun x => { x with cy := setAt x.cy cy.toNat (if ends then 0 else BitVec.ofNat 32 q.2) }) :=
  each (r := oneRun) oneQst 12 (issuing_of (by decide +kernel)) (by decide +kernel) (by decide +kernel) (ready_of (by decide +kernel))
    ⟨_, _, _, _, _, (some (⟨0, 5 * 2048 + 5⟩, tileOfTag .ready 1 16 16 0x6000)), ⟨some_of (by decide +kernel), some_of (by decide +kernel)⟩, ok_of (by decide +kernel), ⟨(fun h => nomatch h), (fun c h => by obtain rfl := Option.some.inj h; exact ⟨_, _, rfl, ⟨by decide +kernel, by decide +kernel⟩, by decide +kernel, by decide +kernel, by decide +kernel⟩)⟩, by decide +kernel, by decide +kernel, by decide +kernel, by decide +kernel, by decide +kernel, by decide +kernel, by decide +kernel, ok_of (by decide +kernel), ok_of (by decide +kernel), by decide +kernel, rfl⟩

theorem witness_matrix_loops_1 :
    let g : Guard := g0
    let a : Src := .s 10
    let named := fun (s : State) (f : Nat) (h : BitVec 16) (r : TileRef) (t : Tile) =>
      namedTile s (s.fib f).team h.toNat = some r ∧ s.tile r = some t
    MeetsFlockwise (.mready g a) (fun s _ f fs v => ∃ ra ta rb tb z u w,
    let l := loopWord (s.op64 (s.fib f) a)
    named s f l.ah ra ta ∧ named s f l.bh rb tb ∧ ta.st = .ready ∧ tb.st = .ready ∧
    drained s fs = .ok z ∧
    let s0 := performCore z (s.fib f).core
    scratchSettled s0 (s.fib f).core fs = true ∧ findReady s0 fs ta = .ok u ∧ findReady u fs tb = .ok w ∧
    v = w.modFibs fs fun x => { x with armed := some (l.ah, l.bh) }) :=
  flockwise (r := all8Run) flockLoop 10 rest8 (issuing_of (by decide +kernel)) (by decide +kernel) (by decide +kernel) (by decide +kernel)
    ⟨_, _, _, _, _, _, _, ⟨some_of (by decide +kernel), some_of (by decide +kernel)⟩, ⟨some_of (by decide +kernel), some_of (by decide +kernel)⟩, by decide +kernel, by decide +kernel, ok_of (by decide +kernel), by decide +kernel, ok_of (by decide +kernel), ok_of (by decide +kernel), rfl⟩

theorem witness_matrix_loops_2 :
    let g : Guard := g0
    let d : BitVec 8 := 20
    let a : Src := .s 10
    let b : Src := .s 12
    let c : Src := .s 14
    let bank : BitVec 2 := 1
    let ft : Ft := .f0
    let named := fun (s : State) (f : Nat) (h : BitVec 16) (r : TileRef) (t : Tile) =>
      namedTile s (s.fib f).team h.toNat = some r ∧ s.tile r = some t
    MeetsFlockwise (.mloop g d a b c bank ft) (fun s r f fs v => ∃ ra ta rb tb fw ops o s1 u w,
    let l := loopWord (s.op64 (s.fib f) a)
    let core := (s.fib f).core
    let team := (s.fib f).team
    (∀ h ∈ fs, (s.fib h).armed = some (l.ah, l.bh)) ∧ bank.toNat < (s.tm team).banks ∧
    named s f l.ah ra ta ∧ named s f l.bh rb tb ∧ loopShape ta tb l = .ok () ∧ agreedFormat s c fs = .ok fw ∧
    resolveOps ta.tag tb.tag fw l = .ok ops ∧ loopExtent s team ta tb ops l = .ok () ∧
    loopBarrier s f (s.op64 (s.fib f) b) = .ok (o, s1) ∧ ta.st = .ready ∧ tb.st = .ready ∧
    bankRoom s core team bank.toNat = true ∧ findReady s1 fs ta = .ok u ∧ findReady u fs tb = .ok w ∧
    let q := startTok w r ft fs
    v = (put32All (acceptLoop q.2 core team bank.toNat ⟨ra, rb, ta, tb, ops, l⟩ o (greatestK q.2 fs) none q.1 fs) fs d
      (BitVec.ofNat 32 (match o with
        | some k => w.barField k 8 4
        | none => 0))).modFibs fs fun x => { x with armed := none }) :=
  flockwise (r := all8Run) flockArmed 10 rest8 (issuing_of (by decide +kernel)) (by decide +kernel) (by decide +kernel) (by decide +kernel)
    ⟨_, _, _, _, _, _, _, _, _, _, by decide +kernel, by decide +kernel, ⟨some_of (by decide +kernel), some_of (by decide +kernel)⟩, ⟨some_of (by decide +kernel), some_of (by decide +kernel)⟩, ok_of (by decide +kernel), ok_of (by decide +kernel), ok_of (by decide +kernel), ok_of (by decide +kernel), ok_of (by decide +kernel), by decide +kernel, by decide +kernel, by decide +kernel, ok_of (by decide +kernel), ok_of (by decide +kernel), rfl⟩

theorem witness_accumulators_1 :
    let g : Guard := g0
    let bank : BitVec 2 := 1
    MeetsFlockwise (.mwait g bank) (fun s _ f fs v => ∃ u,
    let core := (s.fib f).core
    let mine := fun (w : LoopWait) => w.team = (s.fib f).team && w.bank = bank.toNat
    bank.toNat < (s.tm (s.fib f).team).banks ∧ bankBusy s core (s.fib f).team bank.toNat = false ∧
    acquireAll s fs .team (((s.core core).waits.filter mine).foldl (fun k w => max k w.k) 0) = .ok u ∧
    v = matchLoops u core mine) :=
  flockwise (r := all8Run) all8 10 rest8 (issuing_of (by decide +kernel)) (by decide +kernel) (by decide +kernel) (by decide +kernel)
    ⟨_, by decide +kernel, by decide +kernel, ok_of (by decide +kernel), rfl⟩

theorem witness_accumulators_2 :
    let g : Guard := g0
    let d : BitVec 8 := 24
    let a : Src := .v 6
    let bank : BitVec 2 := 1
    let n : AccN := .n8
    MeetsEach (.accrd g d a bank n) (fun s _ f v => ∃ row col phys, accPlace s f d a bank.toNat (accCount n) = .ok (row, col, phys) ∧
    bankUnwaited s (s.fib f).core (s.fib f).team bank.toNat = false ∧
    v = s.modFib f fun x => (List.range (accCount n)).foldl (fun x i => x.setReg (d.toNat + i)
      (tabGetD (s.core (s.fib f).core).acc (accKey phys row (col + i)) 0)) x) :=
  each (r := oneRun) oneAcc 12 (issuing_of (by decide +kernel)) (by decide +kernel) (by decide +kernel) (ready_of (by decide +kernel))
    ⟨_, _, _, ok_of (by decide +kernel), by decide +kernel, rfl⟩

theorem witness_accumulators_3 :
    let g : Guard := g0
    let d : BitVec 8 := 24
    let a : Src := .v 6
    let bank : BitVec 2 := 1
    let n : AccN := .n8
    MeetsEach (.accrd g d a bank n) (fun s _ f v => ∃ place, accPlace s f d a bank.toNat (accCount n) = .ok place ∧
    bankUnwaited s (s.fib f).core (s.fib f).team bank.toNat = true ∧
    v = (s.drawMany (accCount n)).2.modFib f fun x => (List.range (accCount n)).foldl (fun x i => x.setReg (d.toNat + i)
      (((s.drawMany (accCount n)).1.getD i 0).setWidth 32)) x) :=
  each (r := oneRun) (oneAcc.modCore 0 fun c => { c with waits := [⟨5, 1, none, none, none, 0, 0, 64, 16, 16, 3, none, true, false⟩] }) 12 (issuing_of (by decide +kernel)) (by decide +kernel) (by decide +kernel) (ready_of (by decide +kernel))
    ⟨_, ok_of (by decide +kernel), by decide +kernel, rfl⟩

theorem witness_accumulators_4 :
    let g : Guard := g0
    let d : BitVec 8 := 24
    let a : Src := .v 6
    let bank : BitVec 2 := 1
    let n : AccN := .n8
    MeetsEach (.accwr g d a bank n) (fun s _ f v => ∃ row col phys, accPlace s f d a bank.toNat (accCount n) = .ok (row, col, phys) ∧
    v = s.modCore (s.fib f).core fun c => { c with acc := (List.range (accCount n)).foldl (fun t i =>
      tabPutD t (accKey phys row (col + i)) ((s.fib f).reg (d.toNat + i)) 0) c.acc }) :=
  each (r := oneRun) oneAcc 12 (issuing_of (by decide +kernel)) (by decide +kernel) (by decide +kernel) (ready_of (by decide +kernel))
    ⟨_, _, _, ok_of (by decide +kernel), rfl⟩

theorem witness_accumulators_5 :
    let g : Guard := g0
    let bank : BitVec 2 := 1
    MeetsFlockwise (.accz g bank) (fun s _ f fs v => bank.toNat < (s.tm (s.fib f).team).banks ∧
    bankRoom s (s.fib f).core (s.fib f).team bank.toNat = true ∧
    v = acceptZero s (s.fib f).core (s.fib f).team bank.toNat (greatestK s fs) none) :=
  flockwise (r := all8Run) all8 10 rest8 (issuing_of (by decide +kernel)) (by decide +kernel) (by decide +kernel) (by decide +kernel)
    ⟨by decide +kernel, by decide +kernel, rfl⟩

theorem witness_accumulators_6_clear :
    let g : Guard := g0
    let d : BitVec 8 := 24
    let a : Src := .s 10
    let clr : Bool := true
    let reads := fun (due : Bool) (put : Option (List Byte)) (s : State) (f : Nat) (s2 w u : State) (old : List Byte) =>
      ∃ ps s1 s3 k,
        checkAccess s f (s.op64 (s.fib f) a) 24 128 .load = .ok (ps, s1) ∧ settleStores s1 f = .ok s2 ∧
        let p := (firstPiece ps).place
        p.kind ≠ .host ∧ statusDue s2 (lineOf p.key) = due ∧
        atomicAt w f (s.op64 (s.fib f) a + 16) ⟨p.kind, p.key + 16⟩ 8 .team (fun _ => put) = .ok (old, k, s3) ∧
        advanceView s3 f .team (s2.line (lineOf p.key)).ls = .ok u
    MeetsEach (.mstat g d a clr) (fun s _ f v => ∃ s2 u old,
    reads false (if clr then some (List.replicate 8 0) else none) s f s2 s2 u old ∧
    v = u.modFib f fun x => x.setPair d.toNat (BitVec.ofNat 64 (natOfBytes old))) :=
  each (r := oneRun) (withS one 10 (areaAddr 0x7000)) 12 (issuing_of (by decide +kernel)) (by decide +kernel) (by decide +kernel) (ready_of (by decide +kernel))
    ⟨_, _, _, ⟨_, _, _, _, ok_of (by decide +kernel), ok_of (by decide +kernel), by decide +kernel, by decide +kernel, ok_of (by decide +kernel), ok_of (by decide +kernel)⟩, rfl⟩

theorem witness_accumulators_6_read :
    let g : Guard := g0
    let d : BitVec 8 := 24
    let a : Src := .s 10
    let clr : Bool := false
    let reads := fun (due : Bool) (put : Option (List Byte)) (s : State) (f : Nat) (s2 w u : State) (old : List Byte) =>
      ∃ ps s1 s3 k,
        checkAccess s f (s.op64 (s.fib f) a) 24 128 .load = .ok (ps, s1) ∧ settleStores s1 f = .ok s2 ∧
        let p := (firstPiece ps).place
        p.kind ≠ .host ∧ statusDue s2 (lineOf p.key) = due ∧
        atomicAt w f (s.op64 (s.fib f) a + 16) ⟨p.kind, p.key + 16⟩ 8 .team (fun _ => put) = .ok (old, k, s3) ∧
        advanceView s3 f .team (s2.line (lineOf p.key)).ls = .ok u
    MeetsEach (.mstat g d a clr) (fun s _ f v => ∃ s2 u old,
    reads false (if clr then some (List.replicate 8 0) else none) s f s2 s2 u old ∧
    v = u.modFib f fun x => x.setPair d.toNat (BitVec.ofNat 64 (natOfBytes old))) :=
  each (r := oneRun) (withBarrier one) 12 (issuing_of (by decide +kernel)) (by decide +kernel) (by decide +kernel) (ready_of (by decide +kernel))
    ⟨_, _, _, ⟨_, _, _, _, ok_of (by decide +kernel), ok_of (by decide +kernel), by decide +kernel, by decide +kernel, ok_of (by decide +kernel), ok_of (by decide +kernel)⟩, rfl⟩

theorem witness_accumulators_7 :
    let g : Guard := g0
    let d : BitVec 8 := 24
    let a : Src := .s 10
    let clr : Bool := true
    let reads := fun (due : Bool) (put : Option (List Byte)) (s : State) (f : Nat) (s2 w u : State) (old : List Byte) =>
      ∃ ps s1 s3 k,
        checkAccess s f (s.op64 (s.fib f) a) 24 128 .load = .ok (ps, s1) ∧ settleStores s1 f = .ok s2 ∧
        let p := (firstPiece ps).place
        p.kind ≠ .host ∧ statusDue s2 (lineOf p.key) = due ∧
        atomicAt w f (s.op64 (s.fib f) a + 16) ⟨p.kind, p.key + 16⟩ 8 .team (fun _ => put) = .ok (old, k, s3) ∧
        advanceView s3 f .team (s2.line (lineOf p.key)).ls = .ok u
    MeetsEach (.mstat g d a clr) (fun s _ f v => ∃ s2 u old,
    let q := s2.drawMany 2
    reads true (if clr then some (bytesOfNat 8 (q.1.getD 1 0).toNat) else none) s f s2 q.2 u old ∧
    v = u.modFib f fun x => x.setPair d.toNat (q.1.getD 0 0)) :=
  each (r := oneRun) oneDue 12 (issuing_of (by decide +kernel)) (by decide +kernel) (by decide +kernel) (ready_of (by decide +kernel))
    ⟨_, _, _, ⟨_, _, _, _, ok_of (by decide +kernel), ok_of (by decide +kernel), by decide +kernel, by decide +kernel, ok_of (by decide +kernel), ok_of (by decide +kernel)⟩, rfl⟩

theorem witness_copy_slices_1 :
    let g : Guard := g0
    let d : BitVec 8 := 20
    let a : Src := .s 10
    let b : Src := .s 12
    let tile : Bool := false
    let ft : Ft := .f0
    let joins := fun (wide : Bool) (expected : DWord) (s : State) (r : Run) (f : Nat) (fs : List Nat) (v : State) =>
      ∃ bytes k u x h ps w tl obj y z,
        loadBytes s f (s.op64 (s.fib f) b) (if wide then 40 else 32) 8 .table false = .ok (bytes, k, u) ∧
        readSlice bytes tile wide expected = .ok (x, h) ∧ translateImage u f .load x.sources = .ok (ps, w) ∧
        copyDest w f h tile x = .ok tl ∧ copyObject w f (s.op64 (s.fib f) a) = .ok (obj, y) ∧
        sliceWaits y f obj tl = .ok () ∧ releaseAll y fs .device = .ok z ∧ (z.line obj).pend = none ∧
        let n := arriveSlice (clearLine z obj) obj (greatestK z fs)
        let q := startTok n.2.2 r ft fs
        let t1 := match tl with
          | some e => if e.2.st = .filling then q.2 else setTileState q.2 e.1 .filling
          | none => q.2
        v = put32All (addSlice t1 (y.fib f).core obj { x with
          tile := tl.map fun e => e.1, team := (y.fib f).team, core := (y.fib f).core, base := (y.fib f).slice, fibres := fs,
          tok := q.1, k := greatestK z fs } n.2.1) fs d (BitVec.ofNat 32 n.1)
    MeetsFlockwise (.tcopy g d a b tile ft) (joins false 0) :=
  flockwise (r := all8Run) flockCopy 10 rest8 (issuing_of (by decide +kernel)) (by decide +kernel) (by decide +kernel) (by decide +kernel)
    ⟨_, _, _, _, _, _, _, _, _, _, _, ok_of (by decide +kernel), ok_of (by decide +kernel), ok_of (by decide +kernel), ok_of (by decide +kernel), ok_of (by decide +kernel), ok_of (by decide +kernel), ok_of (by decide +kernel), by decide +kernel, rfl⟩

theorem witness_copy_slices_2 :
    let g : Guard := g0
    let d : BitVec 8 := 20
    let a : Src := .s 10
    let b : Src := .s 12
    let c : Src := .s 14
    let tile : Bool := false
    let ft : Ft := .f0
    let joins := fun (wide : Bool) (expected : DWord) (s : State) (r : Run) (f : Nat) (fs : List Nat) (v : State) =>
      ∃ bytes k u x h ps w tl obj y z,
        loadBytes s f (s.op64 (s.fib f) b) (if wide then 40 else 32) 8 .table false = .ok (bytes, k, u) ∧
        readSlice bytes tile wide expected = .ok (x, h) ∧ translateImage u f .load x.sources = .ok (ps, w) ∧
        copyDest w f h tile x = .ok tl ∧ copyObject w f (s.op64 (s.fib f) a) = .ok (obj, y) ∧
        sliceWaits y f obj tl = .ok () ∧ releaseAll y fs .device = .ok z ∧ (z.line obj).pend = none ∧
        let n := arriveSlice (clearLine z obj) obj (greatestK z fs)
        let q := startTok n.2.2 r ft fs
        let t1 := match tl with
          | some e => if e.2.st = .filling then q.2 else setTileState q.2 e.1 .filling
          | none => q.2
        v = put32All (addSlice t1 (y.fib f).core obj { x with
          tile := tl.map fun e => e.1, team := (y.fib f).team, core := (y.fib f).core, base := (y.fib f).slice, fibres := fs,
          tok := q.1, k := greatestK z fs } n.2.1) fs d (BitVec.ofNat 32 n.1)
    MeetsFlockwise (.tcopyv g d a b c tile ft) (fun s r f fs v => joins true (s.op64 (s.fib f) c) s r f fs v) :=
  flockwise (r := all8Run) flockCopy 10 rest8 (issuing_of (by decide +kernel)) (by decide +kernel) (by decide +kernel) (by decide +kernel)
    ⟨_, _, _, _, _, _, _, _, _, _, _, ok_of (by decide +kernel), ok_of (by decide +kernel), ok_of (by decide +kernel), ok_of (by decide +kernel), ok_of (by decide +kernel), ok_of (by decide +kernel), ok_of (by decide +kernel), by decide +kernel, rfl⟩

theorem witness_engine_tasks_1 :
    let g : Guard := g0
    let d : BitVec 8 := 20
    let a : Src := .s 10
    let b : Src := .s 12
    let c : Src := .s 14
    MeetsFlockwise (.fork g d a b c) (fun s _ f fs v => ∃ bytes k s1 l s2 u,
    loadBytes s f (s.op64 (s.fib f) a) 32 32 .table false = .ok (bytes, k, s1) ∧
    let e := fun (i : Nat) => natOfBytes ((bytes.drop (8 * i)).take 8)
    let need := (([e 0, e 1, e 2]).filter (· ≠ 0)).length
    0 < need ∧ e 3 = 0 ∧ e 0 % 32 = 0 ∧ e 1 % 32 = 0 ∧ e 2 % 32 = 0 ∧
    namedBarrier s1 f (s.op64 (s.fib f) c) = .ok (l, s2) ∧ (s.core (s.fib f).core).tasks.length + need ≤ 256 ∧
    releaseAll s2 fs .team = .ok u ∧
    let grp := newGroup u (u.fib f).core ⟨(u.fib f).team, l, BitVec.ofNat 64 (engineWord 3 0 0 0), greatestK u fs, []⟩
    let w := enqueuePrograms grp.2 f grp.1 [e 0, e 1, e 2] (tileList (s.op64 (s.fib f) b)) (greatestK u fs)
    v = put32All w fs d (BitVec.ofNat 32 (w.barField l 8 4))) :=
  flockwise (r := all8Run) flockFork 10 rest8 (issuing_of (by decide +kernel)) (by decide +kernel) (by decide +kernel) (by decide +kernel)
    ⟨_, _, _, _, _, _, ok_of (by decide +kernel), by decide +kernel, by decide +kernel, by decide +kernel, by decide +kernel, by decide +kernel, ok_of (by decide +kernel), by decide +kernel, ok_of (by decide +kernel), rfl⟩

theorem witness_engine_tasks_2 :
    let g : Guard := g0
    let d : BitVec 8 := 20
    let a : Src := .s 10
    let b : Src := .s 12
    let c : Src := .s 14
    MeetsFlockwise (.disp g d a b c) (fun s _ f fs v => ∃ os l s1 found s2 s3 u,
    (s.op32 (s.fib f) a).toNat < 2 ^ 16 ∧ dispOperands s f (tileList (s.op64 (s.fib f) b)) = .ok os ∧
    namedBarrier s f (s.op64 (s.fib f) c) = .ok (l, s1) ∧ lookupMethod s1 f (s.op32 (s.fib f) a).toNat os = .ok (found, s2) ∧
    (s.core (s.fib f).core).tasks.length + (found.rules.length + (found.progs.filter (· ≠ 0)).length) ≤ 256 ∧
    found.rules.length ≤ entriesFree s (s.fib f).core (s.fib f).team ∧ releaseAll s2 fs .team = .ok s3 ∧
    runDispatch s3 f found (tileList (s.op64 (s.fib f) b)) (s.op64 (s.fib f) c) l (greatestK s3 fs) = .ok u ∧
    v = put32All u fs d (BitVec.ofNat 32 (s3.barField l 8 4))) :=
  flockwise (r := all8Run) flockDisp 10 rest8 (issuing_of (by decide +kernel)) (by decide +kernel) (by decide +kernel) (by decide +kernel)
    ⟨_, _, _, _, _, _, _, by decide +kernel, ok_of (by decide +kernel), ok_of (by decide +kernel), ok_of (by decide +kernel), by decide +kernel, by decide +kernel, ok_of (by decide +kernel), ok_of (by decide +kernel), rfl⟩

theorem witness_engine_tasks_3 :
    let g : Guard := g0
    let a : Src := .s 10
    let b : Src := .s 12
    MeetsFlockwise (.rdv g a b) (fun s _ f fs v => ∃ va l s1 u, (∀ h ∈ fs, (s.fib h).arrived = true) ∧
    rdvLine s f a = .ok (va, l, s1) ∧
    (s.barrierLive (l * 128) = false ∨ s.barField l 8 4 ≠ (s.op32 (s.fib f) b).toNat) ∧
    acquireAll s1 fs .team (s.line l).ls = .ok u ∧
    v = (observeLine u l).modFibs fs fun x => { x with arrived := false }) :=
  flockwise (r := all8Run) flockMet 10 rest8 (issuing_of (by decide +kernel)) (by decide +kernel) (by decide +kernel) (by decide +kernel)
    ⟨_, _, _, _, by decide +kernel, ok_of (by decide +kernel), by decide +kernel, ok_of (by decide +kernel), rfl⟩

theorem witness_privileged_registers_1_uniform :
    let g : Guard := g0
    let ud : Bool := true
    let d : BitVec 8 := 8
    let k : Fin 19 := 18
    let n := ((privilegedTable State.reset 0).getD k.val (0, 0)).1
    let val := fun (s : State) (f : Nat) => ((privilegedTable s f).getD k.val (0, 0)).2
    MeetsFlockwise (.prd g ud d n) (fun s _ f fs v => (n.toNat ≤ 0x10 ∨ s.ctxBad s.dev.ctxsel.toNat = false) ∧
      v = if ud then setSreg s f d (val s f) else fs.foldl (fun u h => u.modFib h fun x => x.setPair d.toNat (val s f)) s) :=
  flockwise (r := all8Run) (flockPriv 1 0) 10 rest8 (issuing_of (by decide +kernel)) (by decide +kernel) (by decide +kernel) (by decide +kernel)
    ⟨by decide +kernel, rfl⟩

theorem witness_privileged_registers_1_lanes :
    let g : Guard := g0
    let ud : Bool := false
    let d : BitVec 8 := 8
    let k : Fin 19 := 0
    let n := ((privilegedTable State.reset 0).getD k.val (0, 0)).1
    let val := fun (s : State) (f : Nat) => ((privilegedTable s f).getD k.val (0, 0)).2
    MeetsFlockwise (.prd g ud d n) (fun s _ f fs v => (n.toNat ≤ 0x10 ∨ s.ctxBad s.dev.ctxsel.toNat = false) ∧
      v = if ud then setSreg s f d (val s f) else fs.foldl (fun u h => u.modFib h fun x => x.setPair d.toNat (val s f)) s) :=
  flockwise (r := all8Run) (flockPriv 1 0) 10 rest8 (issuing_of (by decide +kernel)) (by decide +kernel) (by decide +kernel) (by decide +kernel)
    ⟨by decide +kernel, rfl⟩

theorem witness_privileged_registers_2 :
    let g : Guard := g0
    let a : Src := .s 10
    let cx := fun (s : State) => s.dev.ctxsel.toNat
    let put := fun (n : Nat) (ok : State → DWord → Prop) (new : State → DWord → State → State) =>
      fun (s : State) (_ : Run) (f : Nat) (fs : List Nat) (v : State) => 1 ≤ s.plOf f ∧ (n < 0x10 ∨ s.ctxBad (cx s) = false) ∧
        ok s (s.op64 (s.fib f) a) ∧ ∃ u, drained s fs = .ok u ∧ v = new s (s.op64 (s.fib f) a) u
    MeetsFlockwise (.pwr g 0x00 a) (put 0x00 (fun _ x => x.toNat < 4096) fun _ x u =>
      u.modDev fun d => { d with ctxsel := x.setWidth 12 }) :=
  flockwise (r := all8Run) (flockPriv 1 4095) 10 rest8 (issuing_of (by decide +kernel)) (by decide +kernel) (by decide +kernel) (by decide +kernel)
    ⟨by decide +kernel, by decide +kernel, by decide +kernel, _, ok_of (by decide +kernel), rfl⟩

theorem witness_privileged_registers_3 :
    let g : Guard := g0
    let a : Src := .s 10
    let cx := fun (s : State) => s.dev.ctxsel.toNat
    let put := fun (n : Nat) (ok : State → DWord → Prop) (new : State → DWord → State → State) =>
      fun (s : State) (_ : Run) (f : Nat) (fs : List Nat) (v : State) => 1 ≤ s.plOf f ∧ (n < 0x10 ∨ s.ctxBad (cx s) = false) ∧
        ok s (s.op64 (s.fib f) a) ∧ ∃ u, drained s fs = .ok u ∧ v = new s (s.op64 (s.fib f) a) u
    MeetsFlockwise (.pwr g 0x0A a) (put 0x0A (fun _ x => 0 < x.toNat ∧ x.toNat ≤ 2 ^ 40) fun _ x u =>
      u.modDev fun d => { d with wdt := x.toNat }) :=
  flockwise (r := all8Run) (flockPriv 1 0x10000000000) 10 rest8 (issuing_of (by decide +kernel)) (by decide +kernel) (by decide +kernel) (by decide +kernel)
    ⟨by decide +kernel, by decide +kernel, by decide +kernel, _, ok_of (by decide +kernel), rfl⟩

theorem witness_privileged_registers_4 :
    let g : Guard := g0
    let a : Src := .s 10
    let cx := fun (s : State) => s.dev.ctxsel.toNat
    let put := fun (n : Nat) (ok : State → DWord → Prop) (new : State → DWord → State → State) =>
      fun (s : State) (_ : Run) (f : Nat) (fs : List Nat) (v : State) => 1 ≤ s.plOf f ∧ (n < 0x10 ∨ s.ctxBad (cx s) = false) ∧
        ok s (s.op64 (s.fib f) a) ∧ ∃ u, drained s fs = .ok u ∧ v = new s (s.op64 (s.fib f) a) u
    let ctx := fun (g : Ctx → DWord → Ctx) (s : State) (x : DWord) (u : State) => u.modCtx (cx s) fun c => g c x
    MeetsFlockwise (.pwr g 0x11 a) (put 0x11 (fun _ x => x.toNat % 2 ^ 15 = 0 ∧ x.toNat < 2 ^ 52) (ctx fun c x => { c with ttb := x })) :=
  flockwise (r := all8Run) (flockPriv 1 0x8000) 10 rest8 (issuing_of (by decide +kernel)) (by decide +kernel) (by decide +kernel) (by decide +kernel)
    ⟨by decide +kernel, by decide +kernel, by decide +kernel, _, ok_of (by decide +kernel), rfl⟩

theorem witness_privileged_registers_5 :
    let g : Guard := g0
    let a : Src := .s 10
    let cx := fun (s : State) => s.dev.ctxsel.toNat
    let put := fun (n : Nat) (ok : State → DWord → Prop) (new : State → DWord → State → State) =>
      fun (s : State) (_ : Run) (f : Nat) (fs : List Nat) (v : State) => 1 ≤ s.plOf f ∧ (n < 0x10 ∨ s.ctxBad (cx s) = false) ∧
        ok s (s.op64 (s.fib f) a) ∧ ∃ u, drained s fs = .ok u ∧ v = new s (s.op64 (s.fib f) a) u
    let ctx := fun (g : Ctx → DWord → Ctx) (s : State) (x : DWord) (u : State) => u.modCtx (cx s) fun c => g c x
    MeetsFlockwise (.pwr g 0x12 a) (put 0x12 (fun s x => x.toNat % 2 ^ 16 = 0 ∧ s.hasTeams (cx s) = false)
      (ctx fun c x => { c with thb := x })) :=
  flockwise (r := all8Run) (flockPriv 2 0x30000) 10 rest8 (issuing_of (by decide +kernel)) (by decide +kernel) (by decide +kernel) (by decide +kernel)
    ⟨by decide +kernel, by decide +kernel, by decide +kernel, _, ok_of (by decide +kernel), rfl⟩

theorem witness_privileged_registers_6 :
    let g : Guard := g0
    let a : Src := .s 10
    let cx := fun (s : State) => s.dev.ctxsel.toNat
    let put := fun (n : Nat) (ok : State → DWord → Prop) (new : State → DWord → State → State) =>
      fun (s : State) (_ : Run) (f : Nat) (fs : List Nat) (v : State) => 1 ≤ s.plOf f ∧ (n < 0x10 ∨ s.ctxBad (cx s) = false) ∧
        ok s (s.op64 (s.fib f) a) ∧ ∃ u, drained s fs = .ok u ∧ v = new s (s.op64 (s.fib f) a) u
    let ctx := fun (g : Ctx → DWord → Ctx) (s : State) (x : DWord) (u : State) => u.modCtx (cx s) fun c => g c x
    MeetsFlockwise (.pwr g 0x13 a) (put 0x13 (fun s x => x.toNat % 2 ^ 16 = 0 ∧ s.hasTeams (cx s) = false)
      (ctx fun c x => { c with thl := x })) :=
  flockwise (r := all8Run) (flockPriv 2 0x30000) 10 rest8 (issuing_of (by decide +kernel)) (by decide +kernel) (by decide +kernel) (by decide +kernel)
    ⟨by decide +kernel, by decide +kernel, by decide +kernel, _, ok_of (by decide +kernel), rfl⟩

theorem witness_privileged_registers_7 :
    let g : Guard := g0
    let a : Src := .s 10
    let cx := fun (s : State) => s.dev.ctxsel.toNat
    let put := fun (n : Nat) (ok : State → DWord → Prop) (new : State → DWord → State → State) =>
      fun (s : State) (_ : Run) (f : Nat) (fs : List Nat) (v : State) => 1 ≤ s.plOf f ∧ (n < 0x10 ∨ s.ctxBad (cx s) = false) ∧
        ok s (s.op64 (s.fib f) a) ∧ ∃ u, drained s fs = .ok u ∧ v = new s (s.op64 (s.fib f) a) u
    let ctx := fun (g : Ctx → DWord → Ctx) (s : State) (x : DWord) (u : State) => u.modCtx (cx s) fun c => g c x
    MeetsFlockwise (.pwr g 0x14 a) (put 0x14 (fun s x => x.toNat % 2 ^ 16 = 0 ∧ s.hasTeams (cx s) = false)
      (ctx fun c x => { c with tho := x })) :=
  flockwise (r := all8Run) (flockPriv 2 0x30000) 10 rest8 (issuing_of (by decide +kernel)) (by decide +kernel) (by decide +kernel) (by decide +kernel)
    ⟨by decide +kernel, by decide +kernel, by decide +kernel, _, ok_of (by decide +kernel), rfl⟩

theorem witness_privileged_registers_8 :
    let g : Guard := g0
    let a : Src := .s 10
    let cx := fun (s : State) => s.dev.ctxsel.toNat
    let put := fun (n : Nat) (ok : State → DWord → Prop) (new : State → DWord → State → State) =>
      fun (s : State) (_ : Run) (f : Nat) (fs : List Nat) (v : State) => 1 ≤ s.plOf f ∧ (n < 0x10 ∨ s.ctxBad (cx s) = false) ∧
        ok s (s.op64 (s.fib f) a) ∧ ∃ u, drained s fs = .ok u ∧ v = new s (s.op64 (s.fib f) a) u
    let ctx := fun (g : Ctx → DWord → Ctx) (s : State) (x : DWord) (u : State) => u.modCtx (cx s) fun c => g c x
    let heapOk := fun (s : State) (x : DWord) => x.toNat % 2 ^ 10 = 0 ∧ s.hasTeams (cx s) = false
    MeetsFlockwise (.pwr g 0x15 a) (put 0x15 (fun s x => heapOk s x ∧ ((s.ctx (cx s)).hdrSegs = [] ∨ x = (s.ctx (cx s)).fhb))
      (ctx fun c x => { c with fhb := x })) :=
  flockwise (r := all8Run) (flockPriv 2 0x400) 10 rest8 (issuing_of (by decide +kernel)) (by decide +kernel) (by decide +kernel) (by decide +kernel)
    ⟨by decide +kernel, by decide +kernel, by decide +kernel, _, ok_of (by decide +kernel), rfl⟩

theorem witness_privileged_registers_9 :
    let g : Guard := g0
    let a : Src := .s 10
    let cx := fun (s : State) => s.dev.ctxsel.toNat
    let put := fun (n : Nat) (ok : State → DWord → Prop) (new : State → DWord → State → State) =>
      fun (s : State) (_ : Run) (f : Nat) (fs : List Nat) (v : State) => 1 ≤ s.plOf f ∧ (n < 0x10 ∨ s.ctxBad (cx s) = false) ∧
        ok s (s.op64 (s.fib f) a) ∧ ∃ u, drained s fs = .ok u ∧ v = new s (s.op64 (s.fib f) a) u
    let ctx := fun (g : Ctx → DWord → Ctx) (s : State) (x : DWord) (u : State) => u.modCtx (cx s) fun c => g c x
    let heapOk := fun (s : State) (x : DWord) => x.toNat % 2 ^ 10 = 0 ∧ s.hasTeams (cx s) = false
    MeetsFlockwise (.pwr g 0x16 a) (put 0x16 (fun s x => heapOk s x ∧ ((s.ctx (cx s)).hdrSegs = [] ∨ x = (s.ctx (cx s)).fhl))
      (ctx fun c x => { c with fhl := x })) :=
  flockwise (r := all8Run) (flockPriv 2 0x400) 10 rest8 (issuing_of (by decide +kernel)) (by decide +kernel) (by decide +kernel) (by decide +kernel)
    ⟨by decide +kernel, by decide +kernel, by decide +kernel, _, ok_of (by decide +kernel), rfl⟩

theorem witness_privileged_registers_10 :
    let g : Guard := g0
    let a : Src := .s 10
    let cx := fun (s : State) => s.dev.ctxsel.toNat
    let put := fun (n : Nat) (ok : State → DWord → Prop) (new : State → DWord → State → State) =>
      fun (s : State) (_ : Run) (f : Nat) (fs : List Nat) (v : State) => 1 ≤ s.plOf f ∧ (n < 0x10 ∨ s.ctxBad (cx s) = false) ∧
        ok s (s.op64 (s.fib f) a) ∧ ∃ u, drained s fs = .ok u ∧ v = new s (s.op64 (s.fib f) a) u
    let ctx := fun (g : Ctx → DWord → Ctx) (s : State) (x : DWord) (u : State) => u.modCtx (cx s) fun c => g c x
    let heapOk := fun (s : State) (x : DWord) => x.toNat % 2 ^ 10 = 0 ∧ s.hasTeams (cx s) = false
    MeetsFlockwise (.pwr g 0x15 a) (put 0x15 (fun s x => heapOk s x ∧ (s.ctx (cx s)).hdrSegs ≠ [] ∧ x ≠ (s.ctx (cx s)).fhb)
      fun s _ u => u.draw.2.modCtx (cx s) fun c => { c with fhb := u.draw.1 }) :=
  flockwise (r := all8Run) ((flockPriv 2 0x400).modCtx 2 fun c => { c with hdrSegs := [0x100000] }) 10 rest8 (issuing_of (by decide +kernel)) (by decide +kernel) (by decide +kernel) (by decide +kernel)
    ⟨by decide +kernel, by decide +kernel, by decide +kernel, _, ok_of (by decide +kernel), rfl⟩

theorem witness_privileged_registers_11 :
    let g : Guard := g0
    let a : Src := .s 10
    let cx := fun (s : State) => s.dev.ctxsel.toNat
    let put := fun (n : Nat) (ok : State → DWord → Prop) (new : State → DWord → State → State) =>
      fun (s : State) (_ : Run) (f : Nat) (fs : List Nat) (v : State) => 1 ≤ s.plOf f ∧ (n < 0x10 ∨ s.ctxBad (cx s) = false) ∧
        ok s (s.op64 (s.fib f) a) ∧ ∃ u, drained s fs = .ok u ∧ v = new s (s.op64 (s.fib f) a) u
    let ctx := fun (g : Ctx → DWord → Ctx) (s : State) (x : DWord) (u : State) => u.modCtx (cx s) fun c => g c x
    let heapOk := fun (s : State) (x : DWord) => x.toNat % 2 ^ 10 = 0 ∧ s.hasTeams (cx s) = false
    MeetsFlockwise (.pwr g 0x16 a) (put 0x16 (fun s x => heapOk s x ∧ (s.ctx (cx s)).hdrSegs ≠ [] ∧ x ≠ (s.ctx (cx s)).fhl)
      fun s _ u => u.draw.2.modCtx (cx s) fun c => { c with fhl := u.draw.1 }) :=
  flockwise (r := all8Run) ((flockPriv 2 0x400).modCtx 2 fun c => { c with hdrSegs := [0x100000] }) 10 rest8 (issuing_of (by decide +kernel)) (by decide +kernel) (by decide +kernel) (by decide +kernel)
    ⟨by decide +kernel, by decide +kernel, by decide +kernel, _, ok_of (by decide +kernel), rfl⟩

theorem witness_privileged_registers_12 :
    let g : Guard := g0
    let a : Src := .s 10
    let cx := fun (s : State) => s.dev.ctxsel.toNat
    let put := fun (n : Nat) (ok : State → DWord → Prop) (new : State → DWord → State → State) =>
      fun (s : State) (_ : Run) (f : Nat) (fs : List Nat) (v : State) => 1 ≤ s.plOf f ∧ (n < 0x10 ∨ s.ctxBad (cx s) = false) ∧
        ok s (s.op64 (s.fib f) a) ∧ ∃ u, drained s fs = .ok u ∧ v = new s (s.op64 (s.fib f) a) u
    let ctx := fun (g : Ctx → DWord → Ctx) (s : State) (x : DWord) (u : State) => u.modCtx (cx s) fun c => g c x
    MeetsFlockwise (.pwr g 0x17 a) (put 0x17 (fun _ _ => True) (ctx fun c x => { c with mtp := x })) :=
  flockwise (r := all8Run) (flockPriv 2 0x4001) 10 rest8 (issuing_of (by decide +kernel)) (by decide +kernel) (by decide +kernel) (by decide +kernel)
    ⟨by decide +kernel, by decide +kernel, trivial, _, ok_of (by decide +kernel), rfl⟩

theorem witness_privileged_registers_13 :
    let g : Guard := g0
    let a : Src := .s 10
    let cx := fun (s : State) => s.dev.ctxsel.toNat
    let put := fun (n : Nat) (ok : State → DWord → Prop) (new : State → DWord → State → State) =>
      fun (s : State) (_ : Run) (f : Nat) (fs : List Nat) (v : State) => 1 ≤ s.plOf f ∧ (n < 0x10 ∨ s.ctxBad (cx s) = false) ∧
        ok s (s.op64 (s.fib f) a) ∧ ∃ u, drained s fs = .ok u ∧ v = new s (s.op64 (s.fib f) a) u
    let ctx := fun (g : Ctx → DWord → Ctx) (s : State) (x : DWord) (u : State) => u.modCtx (cx s) fun c => g c x
    MeetsFlockwise (.pwr g 0x18 a) (put 0x18 (fun _ x => x.toNat ≤ 1) (ctx fun c x => { c with nbvd := x.getLsbD 0 })) :=
  flockwise (r := all8Run) (flockPriv 2 1) 10 rest8 (issuing_of (by decide +kernel)) (by decide +kernel) (by decide +kernel) (by decide +kernel)
    ⟨by decide +kernel, by decide +kernel, by decide +kernel, _, ok_of (by decide +kernel), rfl⟩

theorem witness_privileged_registers_14 :
    let g : Guard := g0
    let a : Src := .s 10
    let cx := fun (s : State) => s.dev.ctxsel.toNat
    let put := fun (n : Nat) (ok : State → DWord → Prop) (new : State → DWord → State → State) =>
      fun (s : State) (_ : Run) (f : Nat) (fs : List Nat) (v : State) => 1 ≤ s.plOf f ∧ (n < 0x10 ∨ s.ctxBad (cx s) = false) ∧
        ok s (s.op64 (s.fib f) a) ∧ ∃ u, drained s fs = .ok u ∧ v = new s (s.op64 (s.fib f) a) u
    let ctx := fun (g : Ctx → DWord → Ctx) (s : State) (x : DWord) (u : State) => u.modCtx (cx s) fun c => g c x
    MeetsFlockwise (.pwr g 0x1A a) (put 0x1A (fun _ x => x.toNat ≤ 7) (ctx fun c x => { c with cprio := x.setWidth 3 })) :=
  flockwise (r := all8Run) (flockPriv 2 7) 10 rest8 (issuing_of (by decide +kernel)) (by decide +kernel) (by decide +kernel) (by decide +kernel)
    ⟨by decide +kernel, by decide +kernel, by decide +kernel, _, ok_of (by decide +kernel), rfl⟩

theorem witness_privileged_registers_15 :
    let g : Guard := g0
    let a : Src := .s 10
    MeetsFlockwise (.pwrHbctl g a) (fun s _ f fs v => 2 ≤ s.plOf f ∧ (s.op64 (s.fib f) a).toNat ≤ 1 ∧
      ∃ u, drained s fs = .ok u ∧ v = u.modDev fun d => { d with hbRun := (s.op64 (s.fib f) a).getLsbD 0 }) :=
  flockwise (r := all8Run) (flockDrover 0) 10 rest8 (issuing_of (by decide +kernel)) (by decide +kernel) (by decide +kernel) (by decide +kernel)
    ⟨by decide +kernel, by decide +kernel, _, ok_of (by decide +kernel), rfl⟩

theorem witness_privileged_registers_16 :
    let g : Guard := g0
    let a : Src := .s 10
    MeetsFlockwise (.pwr g 0x08 a) (fun s _ f fs v => 2 ≤ s.plOf f ∧ (s.op64 (s.fib f) a).toNat ≤ 1 ∧
      ∃ u, drained s fs = .ok u ∧ v = u.modDev fun d => { d with hbRun := (s.op64 (s.fib f) a).getLsbD 0 }) :=
  flockwise (r := all8Run) (flockDrover 1) 10 rest8 (issuing_of (by decide +kernel)) (by decide +kernel) (by decide +kernel) (by decide +kernel)
    ⟨by decide +kernel, by decide +kernel, _, ok_of (by decide +kernel), rfl⟩

theorem witness_translations_4 :
    let g : Guard := g0
    let d : BitVec 8 := 20
    let a : Src := .s 10
    let b : Src := .s 12
    let walks : Bool := true
    MeetsEach (.tlbs g d a b walks) (fun s _ f v => ∃ w, let cx := (s.op32 (s.fib f) b).toNat
      s.ctxBad cx = false ∧ searchTlb s f cx (s.op64 (s.fib f) a).toNat walks = .ok w ∧
      v = s.modFib f fun x => x.setPair d.toNat w) :=
  each (r := oneRun) onePriv 12 (issuing_of (by decide +kernel)) (by decide +kernel) (by decide +kernel) (ready_of (by decide +kernel))
    ⟨_, by decide +kernel, ok_of (by decide +kernel), rfl⟩

theorem witness_translations_5 :
    let g : Guard := g0
    let d : BitVec 8 := 20
    let ra : BitVec 8 := 6
    let cancels := fun (cx : Nat) (p : Nat × FaultRec → Bool) (s : State) (fs : List Nat) (v : State) =>
      s.ctxBad cx = false ∧
      let hit := s.faults.filter fun r => r.2.ctx = cx && !r.2.replaying && p r
      v = put32All ((hit.map fun r => r.1).foldl cancelRecord s) fs d
        (BitVec.ofNat 32 (hit.map fun r => r.2.fibres.length).sum)
    MeetsFlockwise (.cancelfCtx g d ra) (fun s _ f fs v => cancels ((s.fib f).reg ra.toNat).toNat (fun _ => true) s fs v) :=
  flockwise (r := oneRun) oneFault 12 [] (issuing_of (by decide +kernel)) (by decide +kernel) (by decide +kernel) (by decide +kernel)
    ⟨by decide +kernel, rfl⟩

theorem witness_translations_6 :
    let g : Guard := g0
    let d : BitVec 8 := 20
    let ra : BitVec 8 := 6
    let rb : BitVec 8 := 8
    let cancels := fun (cx : Nat) (p : Nat × FaultRec → Bool) (s : State) (fs : List Nat) (v : State) =>
      s.ctxBad cx = false ∧
      let hit := s.faults.filter fun r => r.2.ctx = cx && !r.2.replaying && p r
      v = put32All ((hit.map fun r => r.1).foldl cancelRecord s) fs d
        (BitVec.ofNat 32 (hit.map fun r => r.2.fibres.length).sum)
    MeetsFlockwise (.cancelfPage g d ra rb) (fun s _ f fs v => cancels ((s.fib f).reg ra.toNat).toNat
      (fun r => r.2.addr.toNat % 2 ^ 54 / 2 ^ 16 = (s.op64 (s.fib f) (.v rb)).toNat / 2 ^ 16) s fs v) :=
  flockwise (r := oneRun) oneFault 12 [] (issuing_of (by decide +kernel)) (by decide +kernel) (by decide +kernel) (by decide +kernel)
    ⟨by decide +kernel, rfl⟩

theorem witness_translations_7 :
    let g : Guard := g0
    let d : BitVec 8 := 20
    let ra : BitVec 8 := 6
    let rb : BitVec 8 := 8
    let cancels := fun (cx : Nat) (p : Nat × FaultRec → Bool) (s : State) (fs : List Nat) (v : State) =>
      s.ctxBad cx = false ∧
      let hit := s.faults.filter fun r => r.2.ctx = cx && !r.2.replaying && p r
      v = put32All ((hit.map fun r => r.1).foldl cancelRecord s) fs d
        (BitVec.ofNat 32 (hit.map fun r => r.2.fibres.length).sum)
    MeetsFlockwise (.cancelfRec g d ra rb) (fun s _ f fs v => cancels ((s.fib f).reg ra.toNat).toNat
      (fun r => r.1 = (s.op64 (s.fib f) (.v rb)).toNat % 2 ^ 13) s fs v) :=
  flockwise (r := oneRun) oneFault 12 [] (issuing_of (by decide +kernel)) (by decide +kernel) (by decide +kernel) (by decide +kernel)
    ⟨by decide +kernel, rfl⟩

theorem witness_regroup_time_1_hold :
    let g : Guard := g0
    let a : Src := .v 6
    let b : Src := .s 12
    let hold : Bool := true
    MeetsFlockwise (.regroup g a b hold) (fun s r f fs v => ∃ u, (s.op32 (s.fib f) b).toNat < 0xFF ∧
      handOver s r fs a = .ok u ∧
      (if hold then .ok u else regroupBuild u (s.fib f).core (s.fib f).team ((s.op32 (s.fib f) b).setWidth 8)) = .ok v) :=
  flockwise (r := all8Run) (withS (flockPriv 1 0) 12 0) 10 rest8 (issuing_of (by decide +kernel)) (by decide +kernel) (by decide +kernel) (by decide +kernel)
    ⟨_, by decide +kernel, ok_of (by decide +kernel), rfl⟩

theorem witness_regroup_time_1_build :
    let g : Guard := g0
    let a : Src := .v 6
    let b : Src := .s 12
    let hold : Bool := false
    MeetsFlockwise (.regroup g a b hold) (fun s r f fs v => ∃ u, (s.op32 (s.fib f) b).toNat < 0xFF ∧
      handOver s r fs a = .ok u ∧
      (if hold then .ok u else regroupBuild u (s.fib f).core (s.fib f).team ((s.op32 (s.fib f) b).setWidth 8)) = .ok v) :=
  flockwise (r := all8Run) (withS (flockPriv 1 0) 12 0) 10 rest8 (issuing_of (by decide +kernel)) (by decide +kernel) (by decide +kernel) (by decide +kernel)
    ⟨_, by decide +kernel, ok_of (by decide +kernel), ok_of (by decide +kernel)⟩

theorem witness_regroup_time_2 :
    let g : Guard := g0
    let d : BitVec 8 := 70
    let a : Src := .s 12
    let n : BitVec 8 := 4
    MeetsFlockwise (.ctxrd g true d a n) (fun s _ f _ v => ∃ w, contextRead s (s.op32 (s.fib f) a).toNat n.toNat = .ok w ∧
      v = setSreg s f d (w.setWidth 64)) :=
  flockwise (r := all8Run) flockTlb 10 rest8 (issuing_of (by decide +kernel)) (by decide +kernel) (by decide +kernel) (by decide +kernel)
    ⟨_, ok_of (by decide +kernel), rfl⟩

theorem witness_regroup_time_3 :
    let g : Guard := g0
    let d : BitVec 8 := 20
    let a : Src := .s 12
    let n : BitVec 8 := 0
    MeetsEach (.ctxrd g false d a n) (fun s _ f v => ∃ w, contextRead s (s.op32 (s.fib f) a).toNat n.toNat = .ok w ∧
      v = s.modFib f fun x => x.setReg d.toNat w) :=
  each (r := oneRun) onePriv 12 (issuing_of (by decide +kernel)) (by decide +kernel) (by decide +kernel) (ready_of (by decide +kernel))
    ⟨_, ok_of (by decide +kernel), rfl⟩

theorem witness_regroup_time_4 :
    let g : Guard := g0
    let d : BitVec 8 := 20
    let within := fun (s : State) => { s.modDev fun v => { v with sub := s.subCycle } with free := s.free + 1 }
    MeetsEach (.hbrd g false d true) (fun s _ f v => v = (within s).modFib f fun x => x.setPair d.toNat
      (BitVec.ofNat 64 (max s.dev.hb x.vst % 2 ^ 56 + s.subCycle * 2 ^ 56))) :=
  each (r := oneRun) onePriv 12 (issuing_of (by decide +kernel)) (by decide +kernel) (by decide +kernel) (ready_of (by decide +kernel))
    rfl

theorem witness_regroup_time_5 :
    let g : Guard := g0
    let d : BitVec 8 := 70
    let within := fun (s : State) => { s.modDev fun v => { v with sub := s.subCycle } with free := s.free + 1 }
    MeetsFlockwise (.hbrd g true d true) (fun s _ f _ v => v = setSreg (within s) f d
      (BitVec.ofNat 64 (max s.dev.hb (s.fib f).vst % 2 ^ 56 + s.subCycle * 2 ^ 56))) :=
  flockwise (r := all8Run) flockTlb 10 rest8 (issuing_of (by decide +kernel)) (by decide +kernel) (by decide +kernel) (by decide +kernel)
    rfl

theorem witness_regroup_time_6 :
    let g : Guard := g0
    let d : BitVec 8 := 20
    MeetsEach (.tbrd g d 0) (fun s _ f v => v = { s with free := s.free + 1 }.modFib f fun x => x.setPair d.toNat
      (s.dev.tb0 + BitVec.ofNat 64 (s.dev.hb * 80 + Config.subNs s.free % 80))) :=
  each (r := oneRun) onePriv 12 (issuing_of (by decide +kernel)) (by decide +kernel) (by decide +kernel) (ready_of (by decide +kernel))
    rfl

theorem witness_service_traps_1_room :
    let g : Guard := g0
    let d : BitVec 8 := 20
    let a : Src := .s 10
    let b : Src := .s 12
    MeetsFlockwise (.svc g d a b) (fun s _ f fs v => ∃ ps u w, (s.op32 (s.fib f) b).toNat < 2 ^ 16 ∧
    checkAccess s f (s.op64 (s.fib f) a) 64 64 .store = .ok (ps, u) ∧ releaseAll u fs .device = .ok w ∧
    let cx := w.ctxOf f
    ((w.ctx cx).svcQ.length < 1024 ∧ v = put32All (w.modCtx cx fun c => { c with svcQ := c.svcQ ++
      [⟨cx, (w.tm (w.fib f).team).index, (w.fib f).index, s.op64 (s.fib f) a, (s.op32 (s.fib f) b).toNat⟩] }) fs d 0) ∨
    (1024 ≤ (w.ctx (w.ctxOf f)).svcQ.length ∧ v = put32All w fs d 1)) :=
  flockwise (r := all8Run) flockTlb 10 rest8 (issuing_of (by decide +kernel)) (by decide +kernel) (by decide +kernel) (by decide +kernel)
    ⟨_, _, _, by decide +kernel, ok_of (by decide +kernel), ok_of (by decide +kernel), .inl ⟨by decide +kernel, rfl⟩⟩

theorem witness_service_traps_1_full :
    let g : Guard := g0
    let d : BitVec 8 := 20
    let a : Src := .s 10
    let b : Src := .s 12
    MeetsFlockwise (.svc g d a b) (fun s _ f fs v => ∃ ps u w, (s.op32 (s.fib f) b).toNat < 2 ^ 16 ∧
    checkAccess s f (s.op64 (s.fib f) a) 64 64 .store = .ok (ps, u) ∧ releaseAll u fs .device = .ok w ∧
    let cx := w.ctxOf f
    ((w.ctx cx).svcQ.length < 1024 ∧ v = put32All (w.modCtx cx fun c => { c with svcQ := c.svcQ ++
      [⟨cx, (w.tm (w.fib f).team).index, (w.fib f).index, s.op64 (s.fib f) a, (s.op32 (s.fib f) b).toNat⟩] }) fs d 0) ∨
    (1024 ≤ (w.ctx (w.ctxOf f)).svcQ.length ∧ v = put32All w fs d 1)) :=
  flockwise (r := all8Run) (flockTlb.modCtx 1 fun c => { c with svcQ := List.replicate 1024 ⟨1, 0, 0, 0, 0⟩ }) 10 rest8 (issuing_of (by decide +kernel)) (by decide +kernel) (by decide +kernel) (by decide +kernel)
    ⟨_, _, _, by decide +kernel, ok_of (by decide +kernel), ok_of (by decide +kernel), .inr ⟨by decide +kernel, rfl⟩⟩

theorem witness_register_windows_1 :
    let g : Guard := g0
    let d : BitVec 8 := 20
    let a : BitVec 8 := 6
    let c : BitVec 8 := 0
    MeetsEach (.winrd g d a c) (fun s _ f v => ∃ key w sel p,
    winKnown c.toNat = true ∧ c.toNat ≠ 0x0F ∧ openedWindow s f ((s.fib f).reg a.toNat) = .ok (key, w, sel) ∧
    winPlace s w c.toNat sel = .ok p ∧
    v = s.modFib f fun x => x.setWide (winWide c.toNat) d (winItem s w c.toNat sel p)) :=
  each (r := { oneRun with core := 26 }) oneWindow 12 (issuing_of (by decide +kernel)) (by decide +kernel) (by decide +kernel) (ready_of (by decide +kernel))
    ⟨_, _, _, _, by decide +kernel, by decide +kernel, ok_of (by decide +kernel), ok_of (by decide +kernel), rfl⟩

theorem witness_register_windows_2 :
    let g : Guard := g0
    let d : BitVec 8 := 20
    let a : BitVec 8 := 6
    let c : BitVec 8 := 0
    MeetsEach (.winwr g d a c) (fun s _ f v => ∃ key w sel p,
    let x := if winWide c.toNat then s.op64 (s.fib f) (.v d) else ((s.fib f).reg d.toNat).setWidth 64
    winWritable c.toNat = true ∧ openedWindow s f ((s.fib f).reg a.toNat) = .ok (key, w, sel) ∧
    winPlace s w c.toNat sel = .ok p ∧ winRange s w c.toNat x = false ∧
    ∃ u, drained s [f] = .ok u ∧ v = putItem u key w c.toNat sel p x) :=
  each (r := { oneRun with core := 26 }) oneWindow 12 (issuing_of (by decide +kernel)) (by decide +kernel) (by decide +kernel) (ready_of (by decide +kernel))
    ⟨_, _, _, _, by decide +kernel, ok_of (by decide +kernel), ok_of (by decide +kernel), by decide +kernel, _, ok_of (by decide +kernel), rfl⟩

/-! ### Witnesses for the statements about events: each clause's conditions on a small state -/

/-- No run; lane 2 at a clause of one word at 0x1000000, which a translation maps to 0x60000. -/
def oneReady : State :=
  let s := { one with runs := [] }
  let t := (s.putNum 0x60000 8 (encodeHeader ⟨0, 1, 0, none, none, false⟩)).modFib 12 fun x =>
    { x with pc := 0x1000000, pck := .sequential }
  t.modCore 0 fun c => { c with tlb := [⟨1, 0x100, 16, true, true, true, true, 0, 0, 0x60000⟩] }
/-- The same flock saved. -/
def oneSaved : State := oneReady.modFlk 3 fun k => { k with slot := none }
/-- The saved flock has waited 1024 cycles, and every slot is taken. -/
def slotsFull : State :=
  { oneSaved.modFlk 3 (fun k => { k with overdue := true, could := some 0 }) with
    flocks := (oneSaved.modFlk 3 (fun k => { k with overdue := true, could := some 0 })).flocks ++
      (List.range 512).map fun n => (10 + n, { labFlock [] with slot := some n }) }
/-- Lane 2's fibre in its core's array, aged. -/
def onePen : State :=
  { one with runs := [], flocks := [] }.modFib 12 (fun x => { x with loc := .pen }) |>.modCore 0 fun c =>
    { c with pens := [⟨12, false, true, 0⟩] }
def fetched (s : State) (f : Nat) (a : DWord) (tr : Bool) : Option (Header × List Nat × State) :=
  match fetchClause s f a tr with
  | .ok h w u => some (h, w, u)
  | _ => none
theorem fetched_of {s : State} {f : Nat} {a : DWord} {tr : Bool} {v : Header × List Nat × State}
    (h : fetched s f a tr = some v) : fetchClause s f a tr = .ok v.1 v.2.1 v.2.2 := by
  unfold fetched at h
  split at h
  · next e => cases h; exact e
  · cases h

theorem has_two (l : Nat) : (Mask.one 2).has l = true ↔ l = 2 := by
  by_cases h : l < 8
  · interval_cases l <;> decide
  · exact ⟨fun hl => absurd hl (by rw [Mask.has, BitVec.getLsbD_of_ge _ _ (by omega)]; simp), fun hl => by omega⟩
theorem lanes_of_two (P : Nat → Prop) (h : P 2) : ∀ l, (Mask.one 2).has l = true ↔ l ∈ [2] ∧ P l := by
  intro l
  rw [has_two, List.mem_singleton]
  exact ⟨fun hl => ⟨hl, hl ▸ h⟩, fun hl => hl.1⟩
theorem witness_run_start : ∃ a slot tr u h words,
    let p := endStalledRun (noteEligible oneReady) 0 0
    let sel := (issueSelect p 3).1
    let here := Mask.one 2
    let s0 := p.modFlk 3 fun fl => { fl with level8 := false, lag := fl.lag.filter fun l => !here.has l }
    portChoice p 0 0 = some 3 ∧ sel.lanes.head?.bind (p.flk 3).fibreAt = some 12 ∧ clauseAt p 12 = .at a slot tr ∧
    (∀ l, here.has l = true ↔ l ∈ sel.lanes ∧ ∃ g tr', (p.flk 3).fibreAt l = some g ∧ clauseAt p g = .at a slot tr') ∧
    fetchClause s0 12 a tr = .ok h words u ∧
    (∀ l, (Mask.one 2).has l = true ↔ here.has l = true ∧ ∃ g, (u.flk 3).fibreAt l = some g ∧
      (g = 12 ∨ sameView u g a h words = true)) ∧
    flagsSet u 3 (Mask.one 2) h.wait = true := by
  have hs : (issueSelect (endStalledRun (noteEligible oneReady) 0 0) 3).1.lanes = [2] := by decide +kernel
  have hc : clauseAt (endStalledRun (noteEligible oneReady) 0 0) 12 = .at 0x1000000 1 false := by decide +kernel
  refine ⟨_, _, _, _, _, _, by decide +kernel, by decide +kernel, hc, ?_, fetched_of (some_of (by decide +kernel)), ?_,
    by decide +kernel⟩
  · rw [hs]
    exact lanes_of_two _ ⟨12, false, by decide +kernel, hc⟩
  · intro l
    refine ⟨fun hl => ⟨hl, ?_⟩, fun h => h.1⟩
    obtain rfl := (has_two l).1 hl
    exact ⟨12, by decide +kernel, .inl rfl⟩
/-- The port's run is another flock's, beside an eligible one of the quadrant, and none. -/
theorem witness_stalled_run :
    (let s := { oneReady with flocks := oneReady.flocks ++ [(4, { labFlock [] with slot := some 4 })],
                              runs := [{ oneRun with flock := 4, lanes := 0 }] };
      (takeRun (noteEligible s) 0 0).any (fun q => otherEligible q.2 q.1.flock) = true) ∧
    (takeRun (noteEligible one) 0 0).any (fun q => !otherEligible q.2 q.1.flock) = true ∧
    takeRun (noteEligible oneReady) 0 0 = none := by decide +kernel
theorem witness_flock_limits : eligible oneReady 3 = true ∧
    (waitsForSlot (noteEligible oneSaved) 0 (3, (noteEligible oneSaved).flk 3)).isSome := by decide +kernel
theorem witness_lag_limit : let s := oneReady
    (s.flk 3).fibreAt 2 = some 12 ∧ (s.flk 3).slot.isSome ∧ (s.flk 3).opens 2 = true ∧ 2 ∉ (s.flk 3).lag ∧
    groupReady s 3 (s.fib 12).pc = true ∧ ∀ r ∈ s.runs, r.flock = 3 → r.lanes.has 2 = false := by decide +kernel
theorem witness_flock_restore :
    (let e := noteEligible oneSaved;
      waitsForSlot e (e.flk 3).core (3, e.flk 3) = some 0 ∧ (e.flk 3).overdue = false ∧
      oldestClaim e (e.flk 3).core 0 = true ∧ freeSlot e (e.flk 3).core = some 0) ∧
    (let e := noteEligible slotsFull;
      (waitsForSlot e (e.flk 3).core (3, e.flk 3)).isSome ∧ (e.flk 3).overdue = true ∧
      freeSlot e (e.flk 3).core = none ∧ (makeSlot e (e.flk 3).core).isSome) := by
  decide +kernel
theorem witness_pen_draw : let e := noteEligible onePen
    penChoice e 0 = some ⟨12, false, true, 0⟩ ∧ oldestClaim e 0 0 = true ∧ (makeSlot e 0).isSome := by decide +kernel

/-- A word store of lane 2's fibre to key 0x50000, at team scope, outside folds or in one. -/
def aStore (fold : Option FoldTag) : StoreReq :=
  ⟨(List.range 4).map fun i => (0x50000 + i, 7, 0xFF), 0x250000, .team, false, fold, 12, 1, 0, false, none⟩
def aTag : FoldTag := ⟨0, 5, 7⟩
/-- A fold of slot 1 of lane 2's fibre with some lines, which is sealing. -/
def sealingOf (lines : List Nat) (t : Option Nat) (stamped confirmed : List Nat) (ab : Bool) : Fold :=
  { Fold.fresh aTag 1 12 1 with
    lines := lines
    t := t
    stampedAt := stamped
    confirmed := confirmed
    aborting := ab }
def sealing : Option Nat → List Nat → List Nat → Bool → Fold := sealingOf [0xA00]
def oneSealing (r : Fold) : State :=
  { one with folds := [r] }.modFib 12 fun x => x.setSlot 1 (some ⟨aTag, .sealing, 0⟩)
/-- The line 0xA00 has a pending version of the fold; a store of another fibre waits behind it. -/
def onePending : State :=
  let v := one.bytes 0x50000 128
  (oneFold.setLine 0xA00 { Line.reset with pend := some ⟨v, aTag, .open, 0⟩ }).modCore 0 fun c =>
    { c with order := [{ aStore none with fibre := 13 }, aStore (some aTag)] }

theorem witness_store_steps :
    (let s := one.modFib 12 fun x => { x with queue := [aStore none] };
      (s.fib 12).queue = [aStore none] ∧ ∀ q ∈ (s.core (s.fib 12).core).order, q.fibre = 12 →
        performStore s (s.fib 12).core q ≠ none) ∧
    (let q := { aStore none with fibre := 12 }
     let s := (onePending.modFib 12 fun x => { x with queue := [aStore none] }).modCore 0 fun c => { c with order := [q] };
      (s.fib 12).queue = [aStore none] ∧ q ∈ (s.core (s.fib 12).core).order ∧ q.fibre = 12 ∧
        performStore s (s.fib 12).core q = none) ∧
    (let q := { aStore none with cells := [(0x60000, 7, 0xFF)] }
     let s := one.modCore 0 fun c => { c with order := [q, aStore none] };
      (s.core 0).order[1]? = some (aStore none) ∧ (s.core 0).order.take 1 = [q] ∧ (performStore s 0 q).isSome ∧
        q.meets (aStore none) = false ∧ q.sameCore (aStore none) = false ∧ (performStore s 0 (aStore none)).isSome) ∧
    (let s := one.modCore 0 fun c => { c with order := [aStore none] };
      (s.core 0).order[0]? = some (aStore none) ∧ (s.core 0).order.take 0 = [] ∧ (performStore s 0 (aStore none)).isSome) ∧
    (let q := { aStore none with fibre := 13 };
      (onePending.core 0).order[1]? = some (aStore (some aTag)) ∧ (onePending.core 0).order.take 1 = [q] ∧
      performStore onePending 0 q = none ∧ q.fibre ≠ (aStore (some aTag)).fibre ∧ (aStore (some aTag)).fold.isSome ∧
      (performStore onePending 0 (aStore (some aTag))).isSome) :=
  ⟨by decide +kernel, by decide +kernel, by decide +kernel, by decide +kernel, by decide +kernel⟩
theorem witness_home_reads :
    (levelOf (0xA00 * 128) = .dev ∧ one.poisonIn (0xA00 * 128) 128 = none ∧ okay (homeRead one 0xA00 0 0) = true ∧
      okay (homeRead one 0xA00 one.settled 0) = true) ∧ levelOf (remoteKey 3 0) = .remote := by decide +kernel
theorem witness_span_invalidate :
    let k : Copy := ⟨3, List.replicate 128 0, 0, 0, 0, none, 0, 0⟩
    let s := one.modClus 0 fun c => { c with copies := [(0xA00, k)] };
    tabGet (s.clus 0).copies 0xA00 = some k ∧ k.valid &&& ~~~3 = 0 ∧ k.valid &&& ~~~1 ≠ 0 := by decide +kernel
theorem witness_seal_steps : let slice := one.homeSlice (0xA00 * 128)
    let ok := fun (r : Fold) => (oneSealing r).folds[0]? = some r ∧ foldSealing (oneSealing r) r = true
    (let r := sealing none [] [] false;
      ok r ∧ r.aborting = false ∧ slice ∈ (oneSealing r).foldSlices r ∧ slice ∉ r.acked ∧
      foldQuiet (oneSealing r) r.tag = true ∧ slice ∉ r.stampedAt ∧ foldCut (oneSealing r) r slice = false ∧
      foldCut ((oneSealing r).modDev fun d => { d with contained := [(2, logicalSlice 0x50000)] }) r slice = true) ∧
    (let r := sealing (some 4) [] [] false;
      ok r ∧ r.t = some 4 ∧ slice ∈ (oneSealing r).foldSlices r ∧ slice ∉ r.stampedAt) ∧
    (let r := sealing (some 4) [slice] [] false;
      ok r ∧ r.t = some 4 ∧ r.stampedAt.length = ((oneSealing r).foldSlices r).length ∧
      slice ∈ (oneSealing r).foldSlices r ∧ slice ∉ r.confirmed) ∧
    (let r := sealing (some 4) [slice] [slice] false;
      ok r ∧ r.t = some 4 ∧ r.lines ≠ [] ∧ r.confirmed.length = ((oneSealing r).foldSlices r).length) ∧
    (let r := sealingOf [] none [] [] false;
      ok r ∧ r.aborting = false ∧ r.lines = [] ∧ foldQuiet (oneSealing r) r.tag = true) ∧
    (let r := sealing none [] [] true; ok r ∧ r.aborting = true) := by
  decide +kernel
theorem witness_heartbeat : (let s := one.modDev fun d => { d with fabric := [0, 3] };
    3 ≠ s.dev.devid ∧ 3 ∈ s.dev.fabric) ∧ (one.modDev fun d => { d with hbRun := false }).dev.hbRun = false ∧
    one.dev.hbRun = true := by decide +kernel

def tref (n : Nat) : TileRef := ⟨0, 5 * 2048 + n⟩
def oneWork : State := withTiles one
/-- A loop of tiles 6 and 7 on bank 1, of one step; a zeroing of bank 1. -/
def oneLoop : State :=
  acceptLoop oneWork 0 5 1 ⟨tref 6, tref 7, { tileOfTag .ready 2 2 192 0x2000 with pitch := 384 }, rodOf .ready 192 4,
    ⟨.fp16, .fp16, 0, 0, 0⟩, loopWord 0x100070006⟩ none 0 none none []
def oneZero : State := acceptZero oneWork 0 5 1 0 none
/-- A tile of four FP16 elements. -/
def tiny (st : TileSt) : Tile := { tileOfTag st 2 1 4 0x2000 with pitch := 8 }
/-- One transfer in progress: of a tile load or store of tile 8, or a rod load of tile 9 from tile 8. -/
def oneXfer (k : XferKind) (src dst : Option TileRef) : State :=
  oneWork.modCore 0 fun c => { c with
    tiles := c.tiles ++ [(5 * 2048 + 8, tiny .filling), (5 * 2048 + 9, rodOf .filling 4 1)]
    xfers := [⟨k, 5, 0x4800, src, dst, 0x250000, 64, 2, 0, [], none, none, none, [], 0⟩] }
/-- A copy object's phase with one slice of 8 bytes, at area offset 0x7000. -/
def aPhase (started : Bool) : CopyPhase :=
  { obj := lineOf (areaKeyOf 0x7000), tiles := []
    slices := [⟨areaAddr 0x3000, areaAddr 0x3400, none, 8, 1, 8, 8, none, 0, 5, 0, 0x4800, [12], none, 0⟩]
    queued := true, started := started, staged := if started then [List.replicate 8 0] else [], code := 0, lines := [], errs := 0 }
def onePhase (started : Bool) : State :=
  (putBarrier oneWork (lineOf (areaKeyOf 0x7000)) 1 0 5 1 0 0).modCore 0 fun c => { c with phases := [aPhase started] }
/-- A task of one command; a task at its end. -/
def aTask (e : Engine) (c : Cmd) (cursor : Nat) : Task :=
  { team := 5, engine := e, prog := 0, cmds := [c], cursor := cursor, list := [], inputs := [], outputs := [], group := 0
    slice := 0x4800, k := 0, status := 0, running := false, watch := 0 }
def oneTask (e : Engine) (c : Cmd) : State := oneWork.modCore 0 fun k => { k with tasks := [(0, aTask e c 0)] }
/-- The state after the turn that a copy command takes. -/
def turned (s : State) (e : Engine) : State := s.modCore 0 fun x => { x with copyCmd := x.copyCmd || decide (e = .copy) }
def served (s : State) (e : Engine) (c : Cmd) (op : Nat) : Bool :=
  decide (tabGet (s.core 0).tasks 0 = some (aTask e c 0)) && decide ((aTask e c 0).cmd = some c) && c.op == op &&
    sequencerFree s 0 e && (nextTask s 0 e).map (·.1) == some 0
def begins (r : Except Nat State) : Bool :=
  match r with
  | .ok _ => true
  | .error _ => false
def stops (s : State) (e : Engine) (r : Except Nat State) : Bool :=
  match r with
  | .ok _ => false
  | .error code => (commandDone (turned s e) 0 0 code 0 (errsOf code)).isSome
def cmdOf (op ef : Nat) (w : Word) (x y : DWord) : Cmd := ⟨op, ef, w, x, y, false⟩
/-- The command is served: one begins, another ends with a code, a third has a byte that must be zero. -/
def threeWays (e : Engine) (good bad : Cmd) (run : State → Nat → Nat → Task → Cmd → Except Nat State) : Bool :=
  let odd := { good with zero := true }
  served (oneTask e good) e good good.op && commandValid (aTask e good 0) good &&
    begins (run (oneTask e good) 0 0 (aTask e good 0) good) && served (oneTask e bad) e bad good.op &&
    commandValid (aTask e bad 0) bad && stops (oneTask e bad) e (run (oneTask e bad) 0 0 (aTask e bad 0) bad) &&
    served (oneTask e odd) e odd good.op && !commandValid (aTask e odd 0) odd &&
    (commandDone (turned (oneTask e odd) e) 0 0 7 0 (errsOf 7)).isSome

def theOps : LoopOps := ⟨.fp16, .fp16, 0, 0, 0⟩
def theLoop : BankOp :=
  { team := 5, bank := 1, ops := some theOps, ta := tref 6, tb := tref 7, steps := 1, ainc := 0, binc := 0, next := 0
    nbv := (oneWork.tm 5).nbv, obj := none, k := 0, nan0 := [], nans := 0, errs := 0, lost := [], task := none, tok := none, fibres := [] }
theorem witness_matrix_step : turnBank oneLoop 0 = some (1, 0, theLoop) ∧ theLoop.ops = some theOps ∧ theLoop.lost = [] ∧
    (∃ va vb, loopViews oneLoop theLoop theOps = some (va, vb) ∧
      ∀ a < va.t.rows, (theLoop.rowReads oneLoop va a).any oneLoop.poisonedAt = false) ∧
    (let s := oneLoop.markPoison (areaKeyOf 0x2000) 5;
      turnBank s 0 = some (1, 0, theLoop) ∧
      ∃ va vb, loopViews s theLoop theOps = some (va, vb) ∧ 0 < va.t.rows ∧
        (theLoop.rowReads s va 0).any s.poisonedAt = true) :=
  ⟨by decide +kernel, by decide +kernel, rfl, ⟨_, _, some_of (by decide +kernel), by decide +kernel⟩, by decide +kernel, _, _,
    some_of (by decide +kernel), by decide +kernel, by decide +kernel⟩
theorem witness_acc_zero : (turnBank oneZero 0).map (fun x => (x.1, x.2.1, x.2.2.ops, x.2.2.task)) = some (1, 0, none, none) := by
  decide +kernel
theorem witness_loop_ends :
    let s := oneLoop.modCore 0 fun c => { c with loops := c.loops.map fun o => { o with next := 1 } };
    indexOf? (fun (o : BankOp) => o.ops.isSome && !o.open) (s.core 0).loops 0 = some 0 ∧
      (((s.core 0).loops[0]?).bind (finishLoop s 0 0)).isSome := by decide +kernel
theorem witness_transfers_end :
    (let s := oneXfer .load none (some (tref 8));
      ((servedXfer s 0 Xfer.isTile).map fun x => (x.1, x.2.dst)) = some (0, some (tref 8)) ∧ s.tile (tref 8) = some (tiny .filling) ∧
        ((servedXfer s 0 Xfer.isTile).bind fun x => endLoad s 0 0 x.2 (tref 8) (tiny .filling)).isSome) ∧
    (let s := oneXfer .store (some (tref 8)) none;
      ((servedXfer s 0 Xfer.isTile).map fun x => (x.1, x.2.dst, x.2.src)) = some (0, none, some (tref 8)) ∧
        ((servedXfer s 0 Xfer.isTile).bind fun x => endStore s 0 0 x.2 (tref 8) (tiny .filling)).isSome) ∧
    (let s := oneXfer .rod (some (tref 8)) (some (tref 9));
      ((servedXfer s 0 Xfer.isRod).map fun x => (x.1, x.2.dst, x.2.src)) = some (0, some (tref 9), some (tref 8)) ∧
        s.tile (tref 9) = some (rodOf .filling 4 1) ∧
        ((servedXfer s 0 Xfer.isRod).bind fun x => endRod s 0 0 x.2 (tref 8) (tref 9) (tiny .filling) (rodOf .filling 4 1)).isSome) := by
  decide +kernel
theorem witness_copy_phases :
    (let s := onePhase false;
      (s.core 0).phases.any (fun p => p.started) = false ∧ engineRunning s 0 .copy = false ∧ nextTask s 0 .copy = none ∧
        (s.core 0).phases.find? (CopyPhase.ready s) = some (aPhase false)) ∧
    (let s := onePhase true;
      (s.core 0).phases.find? (fun p => p.started) = some (aPhase true) ∧
        ((s.line (aPhase true).obj).live && (s.line (aPhase true).obj).pend.isSome) = false ∧
        (finishPhase s (aPhase true)).isSome) := by decide +kernel
theorem witness_commands :
    threeWays .matrix (cmdOf 1 1 0 0x100070006 0) (cmdOf 1 1 0 0x70006 0) loopCommand ∧
    threeWays .matrix (cmdOf 2 1 0 0 0) (cmdOf 2 3 0 0 0) zeroCommand ∧
    threeWays .copy (cmdOf 3 0 64 0 0x250000) (cmdOf 3 0 63 0 0x250000) (fun s k n t c => transferCommand s k n t c false) ∧
    threeWays .copy (cmdOf 4 0 64 1 0x250000) (cmdOf 4 0 64 1 0x900000) (fun s k n t c => transferCommand s k n t c true) ∧
    threeWays .convert (cmdOf 5 0 8 1 0) (cmdOf 5 0 0 1 0) convertCommand ∧
    threeWays .copy (cmdOf 6 0 0 0x40003 0) (cmdOf 6 0 0 0x10003 0) rodCommand := by decide +kernel
theorem witness_task_ends :
    (let c := cmdOf 7 0 0 0 0
     let s := oneTask .matrix c;
      tabGet (s.core 0).tasks 0 = some (aTask .matrix c 0) ∧ 6 < c.op ∧ sequencerFree s 0 .matrix = true ∧
        (nextTask s 0 .matrix).map (·.1) = some 0 ∧ (commandDone (turned s .matrix) 0 0 7 0 (errsOf 7)).isSome) ∧
    (let t := aTask .matrix (cmdOf 2 1 0 0 0) 1
     let s := oneWork.modCore 0 fun k => { k with tasks := [(0, t)] };
      tabGet (s.core 0).tasks 0 = some t ∧ t.running = false ∧ t.cmds.length ≤ t.cursor ∧
        (endTask s 0 0 t.status.toNat).isSome) ∧
    (let t := { aTask .matrix (cmdOf 2 1 0 0 0) 0 with watch := 12500000 }
     let s := oneWork.modCore 0 fun k => { k with tasks := [(0, t)] };
      tabGet (s.core 0).tasks 0 = some t ∧ t.cursor < t.cmds.length ∧ s.dev.wdt ≤ t.watch ∧
        (commandDone s 0 0 8 0 0).isSome) ∧
    (let x : Xfer := ⟨.convert, 5, 0x4800, some (tref 8), some (tref 9), 0, 0, 8, 0, [], none, none, some 0, [], 0⟩
     let s := oneWork.modCore 0 fun c => { c with
        tiles := c.tiles ++ [(5 * 2048 + 8, { tiny .draining with cols := 2 }), (5 * 2048 + 9, { tileOfTag .filling 8 1 2 0x3000 with pitch := 8 })]
        xfers := [x] };
      firstXfer s 0 (Xfer.isConvert 0) = some (0, x) ∧ commandTurn s 0 0 x = true ∧ (endConvert s 0 0 x).isSome ∧
        firstXfer (oneTask .convert (cmdOf 5 0 8 1 0)) 0 (Xfer.isConvert 0) = none) := by decide +kernel

def aMsg : KMsg :=
  { src := 3, token := 9, ctx := 1, delivery := 0x250000, hdrBytes := List.replicate 64 0, segAddrs := []
    segs := [List.replicate 8 7], image := [] }
/-- The ready flock asleep before an instruction. -/
def oneAsleep (i : Instr) : State :=
  (oneReady.putNum 0x60008 8 ((encode i).getD 0)).modFlk 3 fun k => { k with asleep := true }

theorem witness_transfer_receive :
    ((State.reset.ctx aMsg.ctx).st = .free) ∧
    (let s := State.reset.setCtx 1 { Ctx.reset with st := .resident };
      (s.ctx 1).st ≠ .free ∧ (s.ctx 1).st ≠ .torn ∧ receiveContinuation s aMsg = none) ∧
    ∃ h u p v w, (one.ctx aMsg.ctx).st ≠ .free ∧ (one.ctx aMsg.ctx).st ≠ .torn ∧ receiveContinuation one aMsg = some (h, u) ∧
      translate (withContext u 0 aMsg.ctx 0).2.2 (withContext u 0 aMsg.ctx 0).1 aMsg.delivery .store false = .ok (p, v) ∧
      deliver (dropAgent v (withContext u 0 aMsg.ctx 0).1 (withContext u 0 aMsg.ctx 0).2.1) p.key
        (natOfBytes ((aMsg.hdrBytes.drop 0x38).take 7)) h = some w :=
  ⟨by decide +kernel, by decide +kernel, _, _, _, _, _, by decide +kernel, by decide +kernel, some_of (by decide +kernel),
    ok_of (by decide +kernel), some_of (by decide +kernel)⟩
/-- What the translation of a message's delivery word ends in, where the message has been laid out. -/
def deliveryEnds (s : State) (m : KMsg) (ends : Res (Place × State) → Bool) : Bool :=
  (s.ctx 1).st != .free && (s.ctx 1).st != .torn && (receiveContinuation s m).any fun q =>
    ends (translate (withContext q.2 0 1 0).2.2 (withContext q.2 0 1 0).1 m.delivery .store false)
/-- A message whose delivery word lies in no page; at a home that is silent; at one that is contained. -/
theorem witness_transfer_fails :
    deliveryEnds one { aMsg with delivery := 0x900000 } (fun r => match r with
      | .bad _ => true
      | _ => false) = true ∧
    deliveryEnds (one.modDev fun d => { d with silent := [(2, logicalSlice 0x50000, 0)] }) aMsg (fun r => match r with
      | .wait => true
      | _ => false) = true ∧
    deliveryEnds (one.modDev fun d => { d with contained := [(2, logicalSlice 0x50000)] }) aMsg (fun r => match r with
      | .sys c _ => c = 2
      | _ => false) = true := by decide +kernel
/-- A sent header of context 1 at the start of its frame heap. -/
theorem witness_send_completes :
    let s := (one.modCtx 1 fun c => { c with hdrSegs := [0x100000] }).putNum 0x100000 1 5;
    headerCtx s 0x100000 = some 1 ∧ s.byte 0x100000 = 5 := by decide +kernel
theorem witness_parked :
    parkOver (one.modFib 12 fun x => { x with loc := .parked .room }) ((one.modFib 12 fun x => { x with loc := .parked .room }).fib 12) = true ∧
    ((one.modFib 12 fun x => { x with loc := .parked (.bind 0x250000 8) }).fib 12).loc = .parked (.bind 0x250000 8) := by
  decide +kernel
/-- A fibre parked on a BIND entry, whose record the service has in its queue, and has not. -/
def oneBound (q : List SvcRec) : State :=
  (one.modFib 12 fun x => { x with loc := .parked (.entry 0x50000 0x250000 8) }).modCtx 1 fun c => { c with svcQ := q }
theorem witness_bind :
    (let s := oneBound [⟨1, 5, 2, 0x250000, 0xFFF1⟩];
      (s.fib 12).loc = .parked (.entry 0x50000 0x250000 8) ∧
        ((serveBind s (s.ctxOf 12) 0x250000).fib 12).loc = .parked (.bind 0x250000 8)) ∧
    (let s := oneBound [];
      (s.fib 12).loc = .parked (.entry 0x50000 0x250000 8) ∧
        ((serveBind s (s.ctxOf 12) 0x250000).fib 12).loc = .parked (.entry 0x50000 0x250000 8)) := by decide +kernel
theorem witness_system_event :
    let s := { one with events := [⟨3, 1, [0, 0, 0, 0, 0, 0, 0, 0]⟩] };
    (tabGet s.flocks 3).isSome ∧ (s.freeWindow (s.tm (s.flk 3).team).ctx).isSome ∧
      ({ s with windows := (List.range 128).map fun k => (k, ⟨3, []⟩) } : State).freeWindow (s.tm (s.flk 3).team).ctx = none := by
  decide +kernel
theorem witness_watchdog :
    let s := one.modFlk 3 fun k => { k with watch := 12500000 };
    (s.flk 3).stopped = false ∧ (s.tm (s.flk 3).team).vacated = false ∧ s.dev.wdt ≤ (s.flk 3).watch ∧ (s.flk 3).unfrozen.lanes.head? = some 2 ∧
      (s.flk 3).fibreAt 2 = some 12 := by decide +kernel
theorem witness_stalled :
    (stalledAt (oneAsleep (.barw g0 20 ⟨.s 10, 0, .none, .generic, .team, .plain⟩)) 3).map (fun x => isBarw x.2.1) = some true ∧
    (stalledAt (oneAsleep (.rdv g0 (.s 10) (.s 12))) 3).map (fun x => isRdv x.2.1) = some true ∧
    (stalledAt (oneAsleep (.twait g0 (.s 10) false)) 3).any (fun x => (issueReads x.2.2 x.1 x.2.1).isSome) = true ∧
    (stalledAt (oneAsleep (.barw g0 20 ⟨.s 10, 0, .none, .generic, .team, .plain⟩)) 3).any
      (fun x => (issueReads x.2.2 x.1 x.2.1).isSome) = true ∧
    (stalledAt (oneAsleep (.rdv g0 (.s 10) (.s 12))) 3).any (fun x => (issueReads x.2.2 x.1 x.2.1).isSome) = true := by
  decide +kernel

/-- A device with one resident context that holds a loaded kernel of one fibre with 8 registers. -/
def onDevice : State :=
  { State.reset with ctxs := [(1, { labCtx with images := [⟨0x1000000, 65536, [⟨0x1000040, 1, 0, [⟨1, 8, false⟩]⟩], [], []⟩] })] }
/-- A launch packet at key 0x60000 of one team on this device (and on device 3), with its completion word at 0x280000. -/
def withPacket (s : State) (devs : Nat) : State :=
  let p := fun (s : State) (o n v : Nat) => s.putNum (0x60000 + o) n v
  p (p (p (p (p (p (p (p (p s 0 1 1) 8 8 0x1000000) 0x14 4 (if devs = 1 then 1 else 2)) 0x18 8 devs) 0x20 2 1) 0x24 4 128) 0x28 4 4096) 0x30 4 0x10001)
    0x50 8 0x280000
def aPacket (devs : Nat) : List Byte := (withPacket State.reset devs).bytes 0x60000 256
def aDesc (kind : Nat) : QueueDesc := ⟨0x260000, 4, 1, kind, 0x270000, 0x270080, 3⟩
/-- A queue of a kind whose TAIL is one past its HEAD, with an entry in its first slot. -/
def withQueue (s : State) (kind : Nat) : State :=
  { s.putNum 0x70000 8 1 with queues := [(0, ⟨0, aDesc kind, 0, 1, false, none⟩)] }
def packetQueue : State := withQueue (withPacket onDevice 1) 0
def serviceQueue (n : Nat) : State :=
  withQueue (((onDevice.putNum 0x60000 1 2).putNum 0x60008 8 n).putNum 0x60010 2 7) 0
def messageQueue : State := withQueue (((onDevice.putNum 0x60000 8 0x1000000).putNum 0x6000C 2 1)) 2
def aLaunch (b : List Byte) (ph : LaunchPh) : Launch := { newLaunch onDevice 1 b (some 0) 0 0 with ph := ph }
def withLaunch (l : Launch) : State := { withQueue onDevice 0 with launches := [(0, l)] }

theorem witness_queue_install :
    installable onDevice 0 { aDesc 0 with slots := 3 } = false ∧ installable onDevice 0 (aDesc 0) = true := by
  decide +kernel
theorem witness_boot_port : let booted := onDevice.modDev fun d => { d with booted := 4, host := some (.pcie, 16), hostUp := true }
    (onDevice.modDev fun d => { d with booted := 3 }).dev.booted < 4 ∧ 4 ≤ booted.dev.booted ∧
      installable booted 0 { aDesc 0 with slots := 3 } = false ∧ installable booted 0 (aDesc 0) = true ∧
      booted.portUp = true ∧ booted.dev.inReset = false ∧ State.reset.portUp = false := by decide +kernel
theorem witness_tail : let x : Queue := ⟨0, aDesc 0, 0, 1, false, none⟩;
    tabGet packetQueue.queues 0 = some x ∧ packetQueue.droverAlive 0 = true ∧
      okay (droverRead packetQueue 1 1 noLaunch (aDesc 0).tail.toNat 8) = true ∧
      (packetQueue.modDev fun d => { d with host := some (.cxl, 16) }).dev.host = some (.cxl, 16) := by decide +kernel
theorem witness_packet_read :
    (∃ e u n v, takeEntry packetQueue 0 ⟨0, aDesc 0, 0, 1, false, none⟩ = some (e, u) ∧ pkNum e 0 1 ≠ 2 ∧
      takePacket u 1 e (some 0) (some 0) u.dev.devid 0 = some (n, v)) ∧
    (∃ e u, takeEntry (serviceQueue 0x250000) 0 ⟨0, aDesc 0, 0, 1, false, none⟩ = some (e, u) ∧ pkNum e 0 1 = 2) :=
  ⟨⟨_, _, _, _, some_of (by decide +kernel), by decide +kernel, some_of (by decide +kernel)⟩,
    _, _, some_of (by decide +kernel), by decide +kernel⟩
/-- The entry's launch, after PACKET_READ, of a service request with a good and a bad block address. -/
def requested (n : Nat) : State :=
  { serviceQueue n with
    launches := [(0, aLaunch ((serviceQueue n).bytes 0x60000 256) .deps)]
    queues := [(0, ⟨0, aDesc 0, 1, 1, false, some 0⟩)] }
theorem witness_service_request :
    (let l := aLaunch ((serviceQueue 0x250000).bytes 0x60000 256) .deps;
      tabGet (requested 0x250000).launches 0 = some l ∧ pkNum l.bytes 0 1 = 2 ∧
        requestReason (requested 0x250000) l.ctx 0 l.bytes = 0 ∧ ((requested 0x250000).ctx l.ctx).svcQ.length < 1024) ∧
    (let l := aLaunch ((serviceQueue 0x250001).bytes 0x60000 256) .deps;
      requestReason (requested 0x250001) l.ctx 0 l.bytes ≠ 0) := by decide +kernel
theorem witness_dependences :
    (let l := aLaunch ((onDevice.putNum 0x60000 1 1 |>.putNum 0x60060 8 0x250000 |>.putNum 0x60068 8 1).bytes 0x60000 256) .deps;
      l.ph = .deps ∧ pkNum l.bytes 0 1 = 1 ∧ (metNow (withLaunch l) 0 l).length < 4) ∧
    (let l := aLaunch (aPacket 1) .deps;
      l.ph = .deps ∧ pkNum l.bytes 0 1 = 1 ∧ (metNow (withLaunch l) 0 l).length = 4 ∧ l.origin = 0 ∧
        pkDevs l.bytes = [0]) ∧
    (let l := aLaunch (aPacket 9) .deps;
      l.ph = .deps ∧ pkNum l.bytes 0 1 = 1 ∧ (metNow (withLaunch l) 0 l).length = 4 ∧ l.origin = 0 ∧ pkDevs l.bytes = [0, 3]) := by decide +kernel
theorem witness_replicate :
    let s := onDevice.modDev fun d => { d with fabric := [0, 3] };
    (∃ u, takePacket s 1 (aPacket 9) none none 3 0 = some (0, u)) ∧
    ∃ n u, takePacket s 1 ((aPacket 9).set 2 0xFF) none none 3 0 = some (n, u) ∧ n ≠ 0 := by
  have h : ∀ b, (takePacket (onDevice.modDev fun d => { d with fabric := [0, 3] }) 1 b none none 3 0).isSome = true →
      ∀ k, (takePacket (onDevice.modDev fun d => { d with fabric := [0, 3] }) 1 b none none 3 0).map (·.1) = some k →
      ∃ u, takePacket (onDevice.modDev fun d => { d with fabric := [0, 3] }) 1 b none none 3 0 = some (k, u) := by
    intro b _ k hk
    cases hx : takePacket (onDevice.modDev fun d => { d with fabric := [0, 3] }) 1 b none none 3 0 with
    | none => simp [hx] at hk
    | some p => obtain ⟨a, u⟩ := p; simp [hx] at hk; exact ⟨u, by rw [hk]⟩
  refine ⟨h _ (by decide +kernel) 0 (by decide +kernel), 1, ?_⟩
  obtain ⟨u, hu⟩ := h ((aPacket 9).set 2 0xFF) (by decide +kernel) 1 (by decide +kernel)
  exact ⟨u, hu, by decide⟩

theorem witness_completion : ∃ u v,
    let b := (aPacket 1).set 1 1
    droverWrite onDevice 1 (pkLevel b) 0 (pkNum b 0x50 8) (bytesOfNat 8 5) = .ok u ∧
    droverWrite u 1 (pkLevel b) 0 (pkNum b 0x50 8 + 8) (bytesOfNat 8 (2 ^ 63 + pkNum b 4 4)) = .ok v ∧
    bitOf (pkNum b 1 1) 0 = true :=
  ⟨_, _, ok_of (by decide +kernel), ok_of (by decide +kernel), by decide +kernel⟩

theorem witness_admit :
    let l := { aLaunch (aPacket 1) .admitting with waiting := [0] };
    (firstWaiting (withLaunch l)).map (fun w => (w.launch, w.team)) = some (0, none) ∧
      tabGet (withLaunch l).launches 0 = some l ∧ (admitFirst (withLaunch l) 0 l).isSome := by decide +kernel
theorem witness_start_barrier :
    (let l := aLaunch (aPacket 9) .armed;
      launchOf (withLaunch l) 0 0 0 (fun l => l.undecided && (pkDevs l.bytes).contains 3) = some (0, l)) ∧
    (let l := { aLaunch (aPacket 9) .armed with origin := 3 };
      launchOf (withLaunch l) 3 0 0 (fun l => l.ph = .armed && 3 ≠ 0) = some (0, l) ∧
      launchOf (withLaunch l) 3 0 0 (fun l => l.undecided && 3 ≠ 0) = some (0, l)) := by decide +kernel
theorem witness_abort : ∃ u v,
    let l := aLaunch (aPacket 9) .armed
    tabGet (withLaunch l).launches 0 = some l ∧ discardHeld (withLaunch l) 0 = some u ∧
      writeCompletion u l.ctx 0 l.queue l.bytes (rejectStatus 8) = some v :=
  ⟨_, _, by decide +kernel, some_of (by decide +kernel), some_of (by decide +kernel)⟩
theorem witness_timeouts :
    (let l := { aLaunch (aPacket 9) .admitting with replicated := some 0 }
     let s := (withLaunch l).modDev fun d => { d with hb := 2 ^ 20 };
      tabGet s.launches 0 = some l ∧ l.replicated = some 0 ∧ l.undecided = true ∧ l.origin = 0 ∧
        0 + 2 ^ 20 ≤ s.dev.hb) ∧
    (let l := aLaunch (aPacket 1) .released;
      tabGet (withLaunch l).launches 0 = some l ∧ l.ph = .released ∧ startReached (withLaunch l) l = true) := by
  decide +kernel
/-- A team of the launch with no fibre left, and one that a system event terminated. -/
def ended (status : Option DWord) : State :=
  { withLaunch (aLaunch (aPacket 1) .released) with teams := [(5, { labTeam with launch := 0, status := status, held := false })] }
theorem witness_team_ends : ∀ status ∈ [none, some 0x06000000], ∃ tm u v, tabGet (ended status).teams 5 = some tm ∧
    (tm.status.isSome ∨ (tm.held = false ∧ (ended status).teamFibres 5 = [] ∧ engineBusy (ended status) 5 = false)) ∧
    (∀ k ∈ (ended status).flocks, k.2.team = 5 → k.2.stopped = false) ∧ removeTeam (ended status) 5 = some u ∧ endLaunch u tm.launch = some v := by
  intro status h
  simp only [List.mem_cons, List.mem_nil_iff, or_false] at h
  obtain rfl | rfl := h
  · exact ⟨{ labTeam with launch := 0, status := none, held := false }, _, _, by decide +kernel,
      .inr (by decide +kernel), by decide +kernel, some_of (by decide +kernel), some_of (by decide +kernel)⟩
  · exact ⟨{ labTeam with launch := 0, status := some 0x06000000, held := false }, _, _, by decide +kernel,
      .inl (by decide +kernel), by decide +kernel, some_of (by decide +kernel), some_of (by decide +kernel)⟩
theorem witness_first_status :
    tabGet (ended none).teams 5 = some { labTeam with launch := 0, status := none, held := false } ∧
      (∃ l, tabGet (ended none).launches 0 = some l ∧ l.status = 0) := ⟨by decide +kernel, _, rfl, by decide +kernel⟩
theorem witness_method_table :
    let l := aLaunch ((onDevice.putNum 0x60040 8 0x250000).bytes 0x60000 256) .admitting;
    l.ph = .admitting ∧ pkNum l.bytes 0x40 8 ≠ 0 ∧ BitVec.ofNat 64 (pkNum l.bytes 0x40 8) ≠ ((withLaunch l).ctx l.ctx).mtp ∧
      (withLaunch l).hasTeams l.ctx = false := by decide +kernel

/-! ### Active messages and services -/

theorem witness_messages :
    (∃ b u v, tabGet messageQueue.queues 0 = some ⟨0, aDesc 2, 0, 1, false, none⟩ ∧ (aDesc 2).kind = 2 ∧
      takeEntry messageQueue 0 ⟨0, aDesc 2, 0, 1, false, none⟩ = some (b, u) ∧
      takeMessage u 0 (aDesc 2).ctx (b.take 64) = some v) ∧
    (let b := messageQueue.bytes 0x60000 64;
      (State.reset.ctx (pkNum b 0x0C 2)).st = .free ∧
        messageRole messageQueue (pkNum b 0x0C 2) (b.set 8 7) = none ∧
        (messageQueue.ctx (pkNum b 0x0C 2)).st = .resident ∧ (messageQueue.ctx (pkNum b 0x0C 2)).inbound = [] ∧
        messageRole messageQueue (pkNum b 0x0C 2) b = some ⟨1, 8, false⟩ ∧
        (payloadSeg messageQueue (pkNum b 0x0C 2) b).isSome) :=
  ⟨⟨_, _, _, by decide +kernel, by decide +kernel, some_of (by decide +kernel), some_of (by decide +kernel)⟩,
    by decide +kernel⟩
theorem witness_message_delivery :
    let m : InMsg := ⟨messageQueue.bytes 0x60000 64, 0x180000, 1⟩
    let s := onDevice.modCtx 1 fun c => { c with inbound := [m] }
    let v := s.modCtx 1 fun c => { c with inbound := [] };
    (s.ctx 1).inbound = [m] ∧ (s.ctx 1).st = .resident ∧ messageRole v 1 m.bytes = some ⟨1, 8, false⟩ ∧
      (deliverMessage v 1 m ⟨1, 8, false⟩ none).isSome := by decide +kernel

/-! ### Contexts -/

/-- A team of one fibre with its flock on core 0, without a run. -/
def resident : State :=
  { oneReady with launches := [(0, { aLaunch (aPacket 1) .released with prio := 1 })]
                  teams := [(5, { labTeam with launch := 0, banks := 0 })] }
theorem witness_context_states :
    (1 < 4096 ∧ State.reset.dev.computeOn = true ∧ (State.reset.ctx 1).st = .free ∧ (makePlace State.reset).isSome) ∧
    (idle onDevice 1 = true ∧ (takeSegs (flushChip onDevice 1) 1 (((onDevice.ctx 1).chipBytes + 959) / 960)).isSome) ∧
    (let s := onDevice.modCtx 1 fun c => { c with chip := [1, 0], fhl := 0x1100000 };
      idle s 1 = true ∧ (s.ctx 1).chipBytes = 2 ^ 23) ∧
    (let s := onDevice.modCtx 1 fun c => { c with st := .swapped };
      (s.ctx 1).st = .swapped ∧ (makePlace s).isSome ∧
        (makePlace s).all (fun u => waysHeld u 0 + (s.ctx 1).chip.getD 0 0 ≤ 4 ∧ waysHeld u 1 + (s.ctx 1).chip.getD 1 0 ≤ 4)) ∧
    ((onDevice.ctx 1).st = .resident ∧ (onDevice.ctx 1).st ≠ .free ∧ (onDevice.ctx 1).st ≠ .torn) ∧
    (let s := onDevice.modCtx 1 fun c => { c with st := .suspended };
      (s.ctx 1).st = .suspended ∧ (makePlace s).isSome) ∧
    (let s := onDevice.modCtx 1 fun c => { c with st := .torn };
      (s.ctx 1).st = .torn ∧ (ctxTeams s 1).all (canLeave s) = true ∧ (tearDown s 1 true).isSome) ∧
    (0 < 2 ∧ waysHeld onDevice 0 < 4 ∧ ((onDevice.modCtx 1 fun c => { c with chip := [1, 0] }).ctx 1).chip.getD 0 0 ≠ 0) ∧
    512 ≤ ((onDevice.modCore 0 fun c => { c with segs := List.replicate 512 0 }).core 0).segs.length := by decide +kernel
/-- Only core 0 serves, and a team of lower priority holds all of its scratchpad; a launch waits. -/
def crowded : State :=
  let l := { aLaunch (aPacket 1) .admitting with waiting := [0], prio := 9 }
  { withLaunch l with
    launches := [(0, l), (1, { aLaunch (aPacket 1) .released with prio := 1 })]
    teams := [(5, { labTeam with launch := 1, banks := 0 })]
    cores := (0, { Core.reset with areas := [(5, 0, 0, scratchBytes)] }) :: (List.range 25).map fun i =>
      (i + 1, { Core.reset with contained := true }) }
theorem witness_preempt : ∃ w, firstWaiting crowded = some w ∧
    let u := ((crowded.teams.filter fun t => t.2.leaving).map (·.1)).foldl without crowded
    let ways := [(0, 0), (0, 1), (0, 2), (1, 0), (1, 1), (1, 2)].filterMap fun d => leavingPrefix u w d.1 d.2
    ways ≠ [] ∧ [] ∉ ways := ⟨_, some_of (by decide +kernel), by decide +kernel⟩
theorem witness_vacate :
    let tm := { labTeam with launch := 0, banks := 0, leaving := true }
    let s := { resident with teams := [(5, tm)] };
    tabGet s.teams 5 = some tm ∧ tm.leaving = true ∧ tm.vacated = false ∧ canLeave s 5 = true ∧
      (settleTeam s 5).isSome := by decide +kernel
theorem witness_restore :
    let s := vacateTeam resident 5
    let p := s.pick (restores s 5 [0, 1, 2]).length;
    (firstWaiting s).map (·.team) = some (some 5) ∧ (restores s 5 [0, 1, 2]).length ≠ 0 ∧
      ((restores p.2 5 [0, 1, 2])[p.1]?).isSome := by decide +kernel

/-! ### Services -/

/-- Context 1 with an empty root table, a request block at 0x270000 and its record of a service number. -/
def serving (n : Nat) : State :=
  let s := onDevice.modCtx 1 fun c => { c with ttb := 0x90000, svcQ := [⟨1, 0, 0, 0x270000, n⟩] }
  s.putNum 0x70008 8 0x280000
/-- A container at 0x280000 of one image: a kernel of one fibre, one note, one clause. -/
def withContainer (s : State) : State :=
  let p := fun (s : State) (o n v : Nat) => s.putNum (0x80000 + o) n v
  let q := fun (s : State) (o n v : Nat) => s.putNum (0x80060 + o) n v
  let c := p (p (p (p (p (p s 0 4 0x014F434B) 4 2 1) 6 2 1) 8 8 0x160) 0x40 8 0x60) 0x48 8 0x100
  let h := q (q (q (q (q (q (q (q (q (q (q c 0 8 0x2000000) 8 4 16) 0xC 4 64) 0x18 4 64) 0x1C 4 1) 0x20 8 0xC0) 0x28 8 0xA0)
    0x3C 4 1) 0x40 8 0x90) 0x48 8 0x80) 0x50 4 1
  q (q (q (q (q (q h 0x80 2 1) 0x88 8 0x100) 0xA8 2 1) 0xAC 4 0x101) 0xC0 8
    (encodeHeader ⟨0, 1, 0, none, none, false⟩)) 0xC8 8 ((encode (.nop g0)).getD 0)
/-- The state without its first record, and what the service's answer to it comes to. -/
def taken (s : State) : State := s.modCtx 1 fun c => { c with svcQ := [], announce := [] }
def loaded (s : State) (r : SvcRec) : Bool :=
  match serviceRead (taken s) r r.addr.toNat 64 with
  | none => false
  | some blk => match loadImage (taken s) 1 (readContainer (taken s) r (pkNum blk 8 8)) (pkNum blk 0x10 8) (pkNum blk 0x18 4) with
    | .ok (base, v) => ((serviceWrite v r (r.addr + 0x20) (bytesOfNat 8 base)).bind fun w =>
        serviceWrite w r r.addr (bytesOfNat 8 (2 ^ 63))).isSome
    | .error _ => false
def refused (s : State) (r : SvcRec) : Bool :=
  match serviceRead (taken s) r r.addr.toNat 64 with
  | none => false
  | some blk => match loadImage (taken s) 1 (readContainer (taken s) r (pkNum blk 8 8)) (pkNum blk 0x10 8) (pkNum blk 0x18 4) with
    | .ok _ => false
    | .error (st, d) => (serviceWrite (taken s) r r.addr (bytesOfNat 8 (2 ^ 63 + st + d % 2 ^ 32 * 2 ^ 8))).isSome
def unloaded (s : State) (r : SvcRec) : Bool :=
  match serviceRead (taken s) r r.addr.toNat 64 with
  | none => false
  | some blk => (serviceWrite (unloadImage (taken s) 1 (pkNum blk 0x10 8)).2 r r.addr
      (bytesOfNat 8 (2 ^ 63 + (unloadImage (taken s) 1 (pkNum blk 0x10 8)).1))).isSome
def aRecord (n : Nat) : SvcRec := ⟨1, 0, 0, 0x270000, n⟩
theorem witness_services : ((withContainer (serving 0x10)).ctx 1).svcQ = [] ++ aRecord 0x10 :: [] ∧
    ((serving 0x11).ctx 1).svcQ = [] ++ aRecord 0x11 :: [] ∧ loaded (withContainer (serving 0x10)) (aRecord 0x10) = true ∧
    refused (serving 0x10) (aRecord 0x10) = true ∧ unloaded (serving 0x11) (aRecord 0x11) = true := by decide +kernel

/-! ### Witnesses for the statements about the host, the links, errors and management -/

def linkedTo (k : HostKind) : State := State.reset.modDev fun d => { d with host := some (k, 16), hostUp := true }
def aHostStore : StoreReq := ⟨[(2 ^ 61 + 64, 7, 0xFF)], 0, .system, false, none, 12, 1, 0, false, none⟩
theorem witness_host_reset : let s := (linkedTo .pcie).modDev fun d => { d with inReset := true }
    s.portUp = true ∧ s.dev.inReset = true ∧ configBase ≤ configBase + 0x10 ∧ 0x1000 < configBase ∧ levelOf 0x1000 ≠ .host := by
  decide +kernel
theorem witness_host_accesses :
    (let s := linkedTo .pcie;
      s.portUp = true ∧ s.dev.inReset = false ∧ bar0Base + 4 < configBase ∧ 0x1000 < bar0Base ∧
        outsideBad s 0x1000 4 = false ∧ 0x1000 + 4 ≤ hostRange s ∧ hostRange s < 2 ^ 39 - 3 + 4 ∧
        outsideBad (s.markPoison 0x1000 6) 0x1000 4 = true ∧ levelOf 0x1000 ≠ .host ∧
        configBase + 0x10 ≠ configBase + doeMailbox ∧
        (writeLines s ([1, 2, 3, 4].length / 128 + 2) 0x1000 [1, 2, 3, 4]).isSome ∧
        0x1000 / 128 = (0x1000 + [(1 : Byte), 2, 3, 4].length - 1) / 128 ∧ (writeLine s 0x1000 [1, 2, 3, 4]).isSome ∧
        levelOf (2 ^ 61 + 64) = .host ∧ 2 ^ 61 + 64 < bar0Base) ∧
    (let r : MemReq := .add [1, 0, 0, 0];
      atomicOpOk r 0x1000 = true ∧ outsideBad (linkedTo .pcie) 0x1000 (reqBytes r) = false ∧
        (linkedTo .pcie).barrierLive 0x1000 = false ∧ ((linkedTo .pcie).setLine 0x20 { Line.reset with live := true }).barrierLive 0x1000 = true ∧
        (linkedTo .pcie).dev.host = some (.pcie, 16) ∧ (linkedTo .cxl).dev.host = some (.cxl, 16) ∧
        (reqAtHome (linkedTo .pcie) 0x1000 r).isSome ∧ (reqAtHome (linkedTo .cxl) 0x1000 r).isSome ∧
        0x1000 / 128 = (0x1000 + reqBytes r - 1) / 128) := by decide +kernel
theorem witness_host_completion :
    let s := one.modCore 0 fun c => { c with order := [aHostStore] };
    (s.core 0).order[0]? = some aHostStore ∧ aHostStore.hostCells ≠ [] ∧ (∀ c ∈ aHostStore.cells, levelOf c.1 = .host) ∧
      (∀ p ∈ (s.core 0).order.take 0, keepsBack s 0 p aHostStore = false) ∧ (performStore s 0 aHostStore).isSome ∧
      (one.core 0).order[0]? = none := by decide +kernel
/-- The device with device 3 up; a fold has superseded line 0 at stamp 5, its prior version being of stamp 3. -/
def withPeer : State :=
  (onDevice.modDev fun d => { d with fabric := [0, 3] }).setLine 0 { Line.reset with
    tc := 5, pri := some ⟨List.replicate 128 9, 3, 1⟩ }
theorem witness_links :
    let s := withPeer;
    3 ≠ s.dev.devid ∧ 3 ∈ s.dev.fabric ∧ 3 ∉ s.dev.down ∧ ctxGone s 1 = false ∧ ctxGone s 2 = true ∧
      (outsideBad s 0x100 (reqBytes (.read 4)) = false ∧ 0x100 + reqBytes (.read 4) ≤ Config.hbmBytes ∧
        s.barrierLive 0x100 = false ∧ (reqAtHome s 0x100 (.read 4)).isSome) ∧
      (let v := s.setLine 2 { Line.reset with pend := some ⟨List.replicate 128 0, ⟨0, 5, 7⟩, .open, 0⟩ };
        outsideBad v 0x100 (reqBytes (.write [1])) = false ∧ v.barrierLive 0x100 = false ∧
          reqAtHome v 0x100 (.write [1]) = none) ∧
      (let v := s.setLine 2 { Line.reset with live := true };
        v.barrierLive 0x100 = true ∧ outsideBad v 0x100 (reqBytes (.write [1])) = false ∧
          outsideBad v 0x100 [(1 : Byte)].length = false) ∧
      outsideBad (s.markPoison 0x100 6) 0x100 (reqBytes (.read 4)) = true ∧
      (outsideBad s 0 4 = false ∧ 0 + 4 ≤ Config.hbmBytes ∧ okay (homeRead s 0 4 0) = true ∧
        (match homeRead s 0 2 0 with
          | .bad _ => true
          | _ => false) = true ∧
        (match homeRead (s.setLine 0 { Line.reset with
            pend := some ⟨List.replicate 128 0, ⟨0, 5, 7⟩, .stamped 4, 0⟩ }) 0 4 0 with
          | .wait => true
          | _ => false) = true) ∧
      (let v := s.setLine 2 { Line.reset with pend := some ⟨List.replicate 128 0, ⟨3, 5, 7⟩, .open, 0⟩ };
        foldLinesHere v (awayTag 3 ⟨1, 5, 7⟩) = [2] ∧
          ∀ l ∈ foldLinesHere v (awayTag 3 ⟨1, 5, 7⟩), v.deadAgent .dev (l * 128) = none) ∧
      s.linked 3 = true ∧ okay (tlbiLocal s 1 1 0) = true ∧ (s.dev.locked = false ∨ (1 ≤ s.dev.hb + 1 ∧ s.dev.hb ≤ 1 + 1)) ∧
      State.reset.dev.hostUp = false ∧ (5, 0) ∉ State.reset.dev.contained := by decide +kernel

theorem witness_acc_errors : (bankHead oneLoop 0 1).map (fun h => (h.1, h.2.ops.isSome)) = some (0, true) ∧
    bankHead oneLoop 0 0 = none := by decide +kernel
theorem witness_errors :
    ((tabGet one.fibres 12).isSome ∧ (one.fib 12).loc = .flock 3 ∧ tabGet one.fibres 13 = none) ∧
    (tabGet one.flocks 3 = some (labFlock [2]) ∧ (labFlock [2]).unfrozen.lanes.head? = some 2) ∧
    (dirtyWord (one.modClus 0 fun c => { c with dirty := [(0x1000, ⟨7, 0xFF, [12], 1, 0, 0⟩)] }) 0x1001 = true ∧
      dirtyWord one 0x1001 = false) := by decide +kernel
theorem witness_agent_dead :
    (agentExists State.reset 4 3 = true ∧ (4, 3) ∉ State.reset.dev.contained ∧
      (∀ a ∈ State.reset.dev.silent, a.1 = 4 → a.2.1 ≠ 3) ∧
      (let s := State.reset.modDev fun d => { d with silent := [(4, 3, 0)], hb := 64 };
        s.dev.silent.find? (fun a => a.1 = 4 && a.2.1 = 3) = some (4, 3, 0) ∧ 0 + 64 ≤ s.dev.hb) ∧
      (let s := State.reset.modDev fun d => { d with silent := [(4, 3, 0)], hb := 63 };
        s.dev.silent.find? (fun a => a.1 = 4 && a.2.1 = 3) = some (4, 3, 0) ∧ s.dev.hb < 0 + 64)) := by decide +kernel
theorem witness_rod_spare :
    (let s := State.reset.modDev fun d => { d with errors := [⟨0, 1, 0, 2, rodKey 0 255 0, false⟩] };
      255 < 256 ∧ isShepherd 0 = false ∧ (s.core 0).contained = false ∧
        worn s (fun e => e.agent = 1 && e.addr = rodKey 0 255 0) = true ∧ (s.core 0).spareRods.length < 8 ∧
        8 ≤ ((s.modCore 0 fun c => { c with spareRods := List.range 8 }).core 0).spareRods.length) := by decide +kernel
theorem witness_spares :
    (let s := State.reset.modCore 13 fun c => { c with contained := true };
      deadCore s 1 = some 13 ∧ (∀ x ∈ s.dev.spareCores, coreDie x ≠ 1) ∧ 1 < 2 ∧
        ∀ t ∈ s.teams, t.2.vacated = false → ∀ x ∈ t.2.cores, clusterOf x ≠ clusterOf 13) ∧
    (let s := State.reset.modDev fun d => { d with contained := [(2, 255), (3, 511)] };
      (s.dev.spareSlices.filter fun x => x / 128 = 255 / 128).length = 0 ∧ 255 < 256 ∧ (2, 255) ∈ s.dev.contained ∧ 0 < 4 ∧
        (3, 511) ∈ s.dev.contained ∧ (s.dev.spareChannels.filter fun c => c / 64 = 511 / 64).length < 2) ∧
    (let s := State.reset.modDev fun d => { d with
        spareSlices := [128, 129, 130, 131], errors := List.replicate 64 ⟨0, 2, 255, 1, 0, false⟩ };
      64 ≤ (recentErrors s 1 fun e => e.agent = 2 && e.index = 255) ∧
        4 ≤ (s.dev.spareSlices.filter fun x => x / 128 = 255 / 128).length ∧ (2, 255) ∉ s.dev.contained) ∧
    (15 < 16 ∧ tabGetD State.reset.dev.spareLanes 15 0 < 3 ∧ ∀ x ∈ State.reset.dev.fabric, x = State.reset.dev.devid) ∧
    (let s := linkedTo .cxl; s.dev.hostUp = true ∧ (5, 0) ∉ s.dev.contained) := by decide +kernel
/-- A row of a stack with one uncorrectable error: which stack and row an address lies in, the spec leaves open. -/
theorem witness_row_spare :
    let s := State.reset.modDev fun d => { d with errors := [⟨0, 3, 0, 2, 64, false⟩] }
    worn s (fun e => e.agent = 3 && channelOf e.addr / 64 = channelOf 64 / 64 && Config.rowOf (e.addr / 32) = Config.rowOf (64 / 32)) =
      true := by
  simp [worn, recentErrors, State.modDev, State.reset, Device.reset]
/-- Whether a signature verifies and which version an image carries are free values: each case is that of the images so signed. -/
theorem witness_boot : (∀ img, signedWell img = true → imageGood State.reset img = true) ∧
    (∀ img, signedWell img = false → imageGood State.reset img = false) ∧
    (let s := State.reset.modDev fun d => { d with booted := 0 };
      s.dev.bootFailed = false ∧ s.dev.booted = stageIndex .baszer) ∧
    ∀ img, (Config.imageVersion img).toNat < 0xFFFF →
      imageGood (State.reset.modDev fun d => { d with rollback := 0xFFFF }) img = false := by
  refine ⟨fun img h => ?_, fun img h => ?_, by decide +kernel, fun img h => ?_⟩
  · simp [imageGood, h, State.reset, Device.reset]
  · simp [imageGood, h]
  · simp [imageGood, State.modDev]; omega

/-! ### Witnesses for the statements about operations and about the whole machine -/

theorem witness_capture : ∃ h t, captureSegments oneHandler 12 (handlerSearch oneHandler 12 0x20) (effArith 0x20)
    (oneHandler.fib 12).pc (oneHandler.fib 12).pck none false = .ok (some h, t) := ⟨_, _, captured (by decide +kernel)⟩
theorem witness_enter : let frame := handlerSearch oneHandler 12 0x20
    let x := oneHandler.fib 12
    tabGet oneHandler.fibres 12 = some x ∧ x.regs.length = x.alloc ∧ oneHandler.segEnt frame + 5 ≤ x.alloc := by
  decide +kernel
theorem witness_no_room : let s := oneHandler.modFib 12 fun x => { x with alloc := 8, regs := x.regs.take 8 };
    ∃ s1, searched s 12 0x20 = .ok s1 ∧ handlerSearch s1 12 0x20 ≠ 0 ∧
      (s1.fib 12).alloc < s1.segEnt (handlerSearch s1 12 0x20) + 5 :=
  ⟨_, ok_of (by decide +kernel), by decide +kernel, by decide +kernel⟩
/-- PERF of one lane that a frame takes, that none takes, and a wait; of two lanes where the first ends the team. -/
def performs (e : Nat) (v : DWord) : Eff :=
  { eid := e, val := v, next := true, park := some (waitObject one 12 v), perf := some (0x3F0000000010, 40, true) }
theorem witness_performs :
    let i : Instr := .perf g0 40 (.v 3) (.v 6) true
    (∃ u, Issuing (withV oneHandler 3 0x101) oneRun ∧ (withV oneHandler 3 0x101).acting oneRun g0 = [(2, 12)] ∧
      RegsReady i ((withV oneHandler 3 0x101).fib 12) ∧ performable 0x101 = true ∧
      PerfChain 0x3F0000000010 40 true [(2, 12, performs 0x101 0)] (withV oneHandler 3 0x101) u (Mask.one 2 ||| 0)) ∧
    (∃ u, PerfChain 0x3F0000000010 40 true [(2, 12, performs 0x777 0)] oneTop u 0) ∧
    (∃ u, PerfChain 0x3F0000000010 40 true [(2, 12, performs 2 0)] oneTop u 0) ∧
    ∃ u, PerfChain 0x3F0000000010 40 true [(2, 12, performs 0x777 0), (3, 13, performs 0x777 0)] (lab [2, 3]) u 0 :=
  ⟨⟨_, issuing_of (by decide +kernel), by decide +kernel, ready_of (by decide +kernel), by decide +kernel,
      .inr ⟨by decide +kernel, _, 0, _, ok_of (by decide +kernel), .inl ⟨by decide +kernel, by decide +kernel, rfl, _, _,
        captured (by decide +kernel), rfl⟩, rfl, rfl⟩⟩,
    ⟨_, .inr ⟨by decide +kernel, _, 0, _, ok_of (by decide +kernel), .inr ⟨by decide +kernel, rfl, _, ok_of (by decide +kernel),
      ok_of (by decide +kernel)⟩, rfl, rfl⟩⟩,
    ⟨_, .inr ⟨by decide +kernel, _, 0, _, ok_of (by decide +kernel), .inr ⟨by decide +kernel, rfl, _, ok_of (by decide +kernel),
      ok_of (by decide +kernel)⟩, rfl, rfl⟩⟩,
    _, .inr ⟨by decide +kernel, _, 0, _, ok_of (by decide +kernel), .inr ⟨by decide +kernel, rfl, _, ok_of (by decide +kernel),
      ok_of (by decide +kernel)⟩, .inl ⟨by decide +kernel, rfl, rfl⟩⟩⟩
/-- FENCE.SC of a fibre that has waited since tick 2, at tick 9. -/
theorem witness_fence_sc : ∃ u, Issuing oneLater oneRun ∧ (∀ f ∈ actors oneLater oneRun g0, (oneLater.fib f).scStart.isSome) ∧
    oneLater.acting oneRun g0 = [(2, 12)] ∧
    LaneChain (.fenceSc g0 .system) oneRun (fun s _ f how v => how = .next ∧ ∃ t0 s1,
        drainCore s f (if Scope.system = .system then .system else .device) = .ok s1 ∧ (s1.fib f).scStart = some t0 ∧
        t0 + (if Scope.system = .system then 3 else 1) ≤ s1.dev.hb ∧
        v = s1.modFib f fun x => { x.viewed (max x.vst s1.dev.hb) with scStart := none }) [(2, 12)] oneLater u 0 0 :=
  ⟨_, issuing_of (by decide +kernel), by decide +kernel, by decide +kernel, ready_of (by decide +kernel), .next, _, 0, 0,
    ⟨rfl, _, _, ok_of (by decide +kernel), some_of (by decide +kernel), by decide +kernel, rfl⟩, ⟨rfl, rfl, rfl⟩, rfl, rfl⟩
/-- What TLBI of one kind asks: nothing, or an answer already had; the devices, where one is up and has not been asked. -/
def removesB (i : Instr) (k cx : Nat) (va : DWord) : Bool :=
  let s := flockTlb
  let marked := fun (s : State) => s.modFibs (10 :: rest8) fun x => { x with scStart := some s.dev.hb }
  let away := s.modDev fun d => { d with fabric := [0, 3] }
  let ready := fun (s : State) => actors s all8Run g0 == 10 :: rest8 && issuingB s all8Run &&
    (10 :: rest8).all fun f => readyB i (s.fib f)
  let done := fun (u : State) => !(u.fib 10).awaitsDevices && okay (tlbiLocal (drainAll u (10 :: rest8)) k cx va)
  (k == 2 || !s.ctxBad cx) && ready s && done s && ready (marked s) && ((marked s).fib 10).scStart.isSome && done (marked s) &&
    (s.fib 10).scStart == none && (tlbiDevs s).isEmpty && ready away && (away.fib 10).scStart == none && !(tlbiDevs away).isEmpty
theorem witness_tlbi_asks : (∀ sys, removesB (.tlbiVa g0 sys (.s 10) (.s 12)) 0 1 0x250000 = true) ∧
    (∀ sys, removesB (.tlbiCtx g0 sys (.s 12)) 1 1 0 = true) ∧ ∀ sys, removesB (.tlbiAll g0 sys) 2 0 0 = true := by
  decide +kernel
/-- The word of HBCTL := S10, a level-2 word, in a run of one word on a team of level 0. -/
theorem witness_privileged :
    let i : Instr := .pwrHbctl g0 (.s 10)
    let w := (encode i).getD 0
    let r : Run := { oneRun with hdr := { oneRun.hdr with cls := 4, count := 1 }, words := [w] }
    let s := { one with runs := [r] }
    s.agenda = [] ∧ s.runs = [r] ∧ r.words.getD (r.idx - 1) 0 = w ∧ decodeWord w = .ok i ∧
      Home.permitted r.hdr.cls i.home = true ∧ (i.endsClause = true → r.idx = r.hdr.count) ∧ i.uniformInRange = true ∧
      fselWithoutFt i w = false ∧ ftBad i r.hdr = false ∧ (s.tm (s.flk r.flock).team).pl.toNat < i.level := by
  decide +kernel
theorem witness_slots : (7 : BitVec 3).toNat < 8 ∧ (3 : BitVec 3).toNat < 4 ∧ (1 : BitVec 3).toNat < 2 := by decide
theorem witness_lane_load :
    let m : MemF := ⟨20, .v 8, .w, 0x2FC, .none, .lane, .team, .plain, false⟩
    let s := oneSlice
    let a := (s.op64 (s.fib 12) m.base + m.ofs.signExtend 64).toNat
    let key := scratchKey (s.fib 12).core ((s.fib 12).slice + a)
    Whole s oneRun g0 12 [] ∧ RegsReady (.ld g0 m) (s.fib 12) ∧ (s.fib 12).queue = [] ∧ (s.core (s.fib 12).core).order = [] ∧
    a % 4 = 0 ∧ a + 4 = (s.tm (s.fib 12).team).p ∧ (s.tm (s.fib 12).team).p ≤ 2 ^ 22 ∧ s.poisonIn key 4 = none ∧
    (s.core (scratchCore key)).contained = false ∧ s.mute (s.coreAgent (scratchCore key)) = false ∧
    tabGet (s.core (scratchCore key)).emptyLines (scratchOfs key / 128) = none ∧ (∀ i < 4, s.loopHolds (key + i) = false) :=
  ⟨whole_of (by decide +kernel), ready_of (by decide +kernel), by decide +kernel, by decide +kernel, by decide +kernel,
    by decide +kernel, by decide +kernel, by decide +kernel, by decide +kernel, by decide +kernel, by decide +kernel⟩
theorem witness_store_queue :
    let m : MemF := ⟨20, .v 8, .w, 8, .none, .lane, .team, .plain, false⟩
    ∃ b r, Whole oneSlice oneRun g0 12 [] ∧ RegsReady (.st g0 m) (oneSlice.fib 12) ∧ m.ord ≠ .rel ∧
      Machine.memBase oneSlice 12 m.base m.space .store = .ok b ∧
      checkStore oneSlice 12 m.space (b + m.ofs.signExtend 64) (Wid.bytes m.wid) (Wid.align m.wid) = .ok r ∧ r.2.2.1 = none :=
  ⟨_, _, whole_of (by decide +kernel), ready_of (by decide +kernel), by decide +kernel, ok_of (by decide +kernel),
    ok_of (by decide +kernel), by decide +kernel⟩
theorem witness_perform_store :
    (let r : StoreReq := ⟨[(areaKeyOf 0, 7, 0x0F), (areaKeyOf 1, 8, 0xFF)], 0, .team, false, none, 12, 1, 0, false, none⟩;
      r.fold = none ∧ (performStore one 0 r).isSome ∧ (r.cells.map (·.1)).Nodup ∧ (areaKeyOf 1, 8, 0xFF) ∈ r.cells ∧
        levelOf (areaKeyOf 1) = .scratch) ∧
    (let r : StoreReq := ⟨[(0x50000, 7, 0x0F), (0x50001, 8, 0xFF)], 0x250000, .device, false, none, 12, 1, 0, false, none⟩;
      r.scope = .device ∧ (performStore one 0 r).isSome ∧ (r.cells.map (·.1)).Nodup ∧ (0x50001, 8, 0xFF) ∈ r.cells ∧
        ¬ (one.ctx r.ctx).fhb.toNat + 0x80000 ≤ 0x50001) := by decide +kernel
theorem witness_atomic_point :
    let fn := fun bs : List Byte => some (bytesOfNat 4 (natOfBytes bs + 1))
    levelOf (areaKeyOf 0) = .scratch ∧ levelOf (areaKeyOf 0 + 4 - 1) = .scratch ∧ (fn (one.bytes (areaKeyOf 0) 4)).map List.length = some 4 ∧
      okay (atomicAt one 12 (areaAddr 0) ⟨.scratch, areaKeyOf 0⟩ 4 .team fn) = true := by decide +kernel
theorem witness_views : tabGet oneLater.fibres 12 = some (oneLater.fib 12) ∧ oneLater.dev.hb < 10 ∧ 9 ≤ oneLater.dev.hb := by
  decide +kernel
theorem witness_barrier_arrival :
    let s := withBarrier one
    let line := lineOf (areaKeyOf 0x7000)
    (s.barField line 4 4 + 1) % 2 ^ 32 = s.barField line 0 4 ∧
      (let t := s.putNum (line * 128) 4 3;
        (t.barField line 4 4 + 1) % 2 ^ 32 ≠ t.barField line 0 4) := by decide +kernel
theorem witness_kill : ∀ c ∈ (withBarrier one).clusters, tabGet c.2.dirty (areaKeyOf 0x7000) = none := by decide +kernel
theorem witness_tlbi : let e : TlbEntry := ⟨2, 0x100, 16, true, true, true, true, 0, 0, 0x60000⟩
    let s := one.modCore 0 fun c => { c with tlb := [e, { e with ctx := 1 }] }
    ∃ t, tlbiLocal s 1 1 0 = .ok t ∧ s.faults = [] ∧ (∀ p ∈ s.cores, p.2.order = []) ∧
      (∀ p ∈ s.fibres, p.2.queue = []) ∧ e ∈ (t.core 0).tlb :=
  ⟨_, ok_of (by decide +kernel), by decide +kernel, by decide +kernel, by decide +kernel, by decide +kernel⟩
theorem witness_time : State.reset.dev.hb * 80 + 80 ≤ 2 ^ 64 := by decide +kernel
theorem witness_window_control : let s := { oneWindow with windows := [(7 * 16 + 15, ⟨3, []⟩)] };
    tabGet s.windows (7 * 16 + 15) = some ⟨3, []⟩ ∧ (s.tm (s.flk 3).team).status = none ∧
      ((s.modTm (s.flk 3).team fun t => { t with status := some 6 }).tm (s.flk 3).team).status = some 6 := by decide +kernel

/-- Words in issue: one without a fault, one of another engine class, one that decodes to nothing. -/
def issuesWord (w : Nat) : State := { one with runs := [{ oneRun with hdr := { oneRun.hdr with count := 1 }, words := [w] }] }
def theWord (w : Nat) : Run := { oneRun with hdr := { oneRun.hdr with count := 1 }, words := [w] }
theorem witness_step_word :
    (let w := (encode (.nop g0)).getD 0;
      (issuesWord w).agenda = [] ∧ (issuesWord w).runs = [theWord w] ∧ decodeWord w = .ok (.nop g0) ∧
        wordFault (noteEligible (issuesWord w)) (theWord w) w (.nop g0) = none ∧
        (issueReads (noteEligible (issuesWord w)) (theWord w) (.nop g0)).isSome) ∧
    (let i : Instr := .pwrHbctl g0 (.s 10)
     let w := (encode i).getD 0;
      decodeWord w = .ok i ∧ (wordFault (noteEligible (issuesWord w)) (theWord w) w i).isSome) ∧
    ∃ e, decodeWord 0xFFFFFFFFFFFFFFFF = .bad e :=
  ⟨by decide +kernel, by decide +kernel, by
    cases h : decodeWord 0xFFFFFFFFFFFFFFFF with
    | bad e => exact ⟨e, rfl⟩
    | ok i =>
      have h1 : (match decodeWord 0xFFFFFFFFFFFFFFFF with
        | .ok _ => false
        | .bad _ => true) = true := by decide +kernel
      rw [h] at h1
      cases h1⟩
theorem witness_step_turns :
    (oneReady.agenda = [] ∧ oneReady.runs = [] ∧ startable (noteEligible oneReady) = some (0, 0)) ∧
    (State.reset.agenda = [] ∧ State.reset.runs = [] ∧ startable (noteEligible State.reset) = none) ∧
    (takeRun { noteEligible oneReady with agenda := [] } 0 0 = none) := by decide +kernel
theorem witness_step_turns_words : let w := (encode (.nop g0)).getD 0
    let v := noteEligible (State.reset.withFetchWord 64 w)
    (takeRun (noteEligible (issuesWord w)) 0 0).any (fun q => q.1 = theWord w && wordFault q.2 q.1 w (.nop g0) = none &&
      (issueReads q.2 q.1 (.nop g0)).isSome) = true ∧
    decodeWord (w % 2 ^ 64) = .ok (.nop g0) ∧ v.runs.head?.any (fun r =>
      decide (wordFault v r (w % 2 ^ 64) (.nop g0) = none) && (issueReads v r (.nop g0)).isSome) = true := by decide +kernel
/-- A load of stamp 99 that has landed in V3 at heartbeat 0: the word that reads V3 waits. -/
theorem witness_step_waits : let i : Instr := .add g0 ⟨false, 20, .v 3, .v 6⟩ .wrap
    let w := (encode i).getD 0
    let s := (issuesWord w).modFib 12 fun x => { x with acq := [(3, 99)] }
    s.agenda = [] ∧ s.runs = [theWord w] ∧ decodeWord w = .ok i ∧ wordFault (noteEligible s) (theWord w) w i = none ∧
      issueReads (noteEligible s) (theWord w) i = none := by decide +kernel
theorem witness_round_trip : (Instr.add g0 ⟨false, 255, .v 255, .v 255⟩ .us).fieldsListed = true ∧
    (encode (Instr.add g0 ⟨false, 255, .v 255, .v 255⟩ .us)).isSome := by decide +kernel
theorem witness_memory_kept : ∃ t, Memory.wf State.reset.mem = true ∧ step State.reset = .next t := by
  have h : (match step State.reset with
    | .next _ => true
    | _ => false) = true := by decide +kernel
  cases hs : step State.reset with
  | next t => exact ⟨t, by decide +kernel, rfl⟩
  | fault e => rw [hs] at h; cases h
  | refused e => rw [hs] at h; cases h
/-- The second clause of RDV: the arrival of lane 2's fibre moves the phase past its token. -/
def rdvMoves (s : State) : Bool :=
  match rdvLine s 12 (.s 10) with
  | .ok (_, l, s1) => s1.barrierLive (l * 128) && !copyHolds s1 l && (s1.line l).pend.isNone &&
    (match releaseAll s1 [12] .team with
      | .ok s2 =>
        let w := (arriveAt (clearLine s2 l) l (greatestK s2 [12]) false).2.modFibs [12] fun x => { x with arrived := true }
        (match rdvLine w 12 (.s 10) with
          | .ok (_, l2, w1) => l2 == l && w.barField l 8 4 != (w.op32 (w.fib 12) (.s 12)).toNat &&
            okay (acquireAll w1 [12] .team (w.line l).ls)
          | _ => false)
      | _ => false)
  | _ => false
theorem witness_rdv_arrives : let s := withS (withBarrier one) 12 5
    Whole s oneRun g0 12 [] ∧ (s.fib 12).arrived = false ∧ RegsReady (.rdv g0 (.s 10) (.s 12)) (s.fib 12) ∧
      rdvMoves s = true :=
  ⟨whole_of (by decide +kernel), by decide +kernel, ready_of (by decide +kernel), by decide +kernel⟩

/-! ### One step of an instruction; the expected values follow the entries of the spec by hand -/

/-- Register n of lane 2's fibre after one instruction. -/
def after (i : Instr) (s : State) (n : Nat) : Option Word :=
  match exec i s with
  | .next t => some ((t.fib 12).reg n)
  | _ => none
def two (a b : Word) : State := withV (withV one 6 a) 7 b
def bin : Bin := ⟨false, 20, .v 6, .v 7⟩

/-- R137, R138. -/
theorem test_add : after (.add g0 bin .wrap) (two 0xFFFFFFFF 2) 20 = some 1 ∧
    after (.add g0 bin .ss) (two 0x7FFFFFFF 1) 20 = some 0x7FFFFFFF := by decide +kernel
theorem test_sub : after (.sub g0 bin .us) (two 1 2) 20 = some 0 ∧
    after (.sub g0 bin .ss) (two 0x80000000 1) 20 = some 0x80000000 := by decide +kernel
/-- R139. -/
theorem test_div : after (.div g0 bin false) (two 0x80000000 0xFFFFFFFF) 20 = some 0x80000000 ∧
    after (.div g0 bin false) ((two 0xFFFFFFF9 2)) 20 = some 0xFFFFFFFD := by decide +kernel
theorem test_rem : after (.rem g0 bin false) (two 0xFFFFFFF9 2) 20 = some 0xFFFFFFFF ∧
    after (.rem g0 bin true) ((two 7 0).modFib 12 fun x => { x with fpm := 0 }) 20 = some 7 := by decide +kernel
/-- R140, R141. -/
theorem test_shifts : after (.shl g0 bin) (two 1 32) 20 = some 0 ∧ after (.sar g0 bin) (two 0x80000000 0x100) 20 = some 0xFFFFFFFF ∧
    after (.rot g0 bin) (two 0x80000001 33) 20 = some 3 := by decide +kernel
theorem test_bit_fields : after (.bfx g0 bin true) (two 0xF0 0x404) 20 = some 0xFFFFFFFF ∧
    after (.bfi g0 ⟨false, 20, .v 6, .v 7, .v 8⟩) (withV (two 0xFF 0x81C) 8 0x12345678) 20 = some 0xF2345678 := by decide +kernel
/-- R97, R98: `addi` of a sign-extended 12-bit immediate. -/
theorem test_addi : after (.addi g0 ⟨false, 20, .v 6, 0xFFF⟩) (two 0 0) 20 = some 0xFFFFFFFF := by decide +kernel
/-- R57, R147: 1 + 2^-24 lies halfway and goes to the even 1, upwards under RU; 1 / 0 is infinite. -/
theorem test_float : after (.fadd g0 bin ⟨.fp32, false⟩ .rn) (two 0x3F800000 0x33800000) 20 = some 0x3F800000 ∧
    after (.fadd g0 bin ⟨.fp32, false⟩ .ru) (two 0x3F800000 0x33800000) 20 = some 0x3F800001 := by decide +kernel
theorem test_float_special : after (.fdiv g0 bin ⟨.fp32, false⟩ .rn) (two 0x3F800000 0) 20 = some 0x7F800000 ∧
    after (.fsqrt g0 ⟨false, 20, .v 6⟩ ⟨.fp32, false⟩ .rn) (two 0x40800000 0) 20 = some 0x40000000 := by decide +kernel
/-- R155: slot 3 of six bits; the top byte stays. -/
theorem test_pack : after (.pack g0 20 (.v 6) (.v 7) .e6 3) (two 0x2A 0xFF000000) 20 = some 0xFFA80000 ∧
    after (.unpk g0 20 (.v 6) .e6 3 true) (two 0xA80000 0) 20 = some 0xFFFFFFEA := by decide +kernel
/-- R170, R171: a byte is stored and loaded back sign-extended, from the store queue. -/
theorem test_store_load :
    (match exec (.st g0 ⟨6, .v 8, .b, 0, .none, .lane, .team, .plain, false⟩) (withV oneSlice 6 0x1FE) with
      | .next t => after (.ld g0 ⟨20, .v 8, .b, 0, .none, .lane, .team, .plain, false⟩) t 20
      | _ => none) = some 0xFFFFFFFE := by decide +kernel
/-- R176: an atomic returns the old word; add wraps. -/
theorem test_atomic : let m : AtmF := ⟨20, .v 8, 6, .none, .lane, .team, .ar⟩
    after (.atom g0 m .add false) (withV (oneSlice.putNum (scratchKey 0 (0x4000 + 1024 * 2 + 0x100)) 4 0xFFFFFFFF) 6 2) 20 =
      some 0xFFFFFFFF := by decide +kernel
/-- R160: an integer REDU of the whole flock: lanes 0 to 7 hold 100 l + 6. -/
theorem test_redu : (match exec (.redu g0 20 (.v 6) (.fixed .g8) .add false) all8 with
    | .next t => some ((t.fib 17).reg 20)
    | _ => none) = some 2848 := by decide +kernel
/-- R105, R114: a branch back by one word from the word in slot 1. -/
theorem test_branch : (match exec (.bra g0 0xFFFFFF) one with
    | .next t => some (t.fib 12).pc
    | _ => none) = some 0x3F0000000000 := by decide +kernel
/-- R391: the heartbeat ticks when nothing else can happen. -/
theorem test_tick : (match step State.reset with
    | .next t => some t.dev.hb
    | _ => none) = some 1 := by decide +kernel

end Sys2Proof.Tests
end

section
/-! PROOFS. The bytes of a stored number: those it covers, and those beside it. -/

namespace Sys2Proof.Machine

/-- R6: the byte at offset `i` of a stored number is its base-256 digit of weight `256 ^ i`. -/
theorem toNat_byte_putNum (s : State) (a n v i : Nat) (h : i < n) :
    ((s.putNum a n v).byte (a + i)).toNat = v / 2 ^ (8 * i) % 2 ^ 8 := by
  have inside : a ≤ a + i ∧ a + i < a + (bytesOfNat n v).length := by
    rw [length_bytesOfNat]
    omega
  rw [State.putNum, byte_putBytes, if_pos inside, Nat.add_sub_cancel_left, getD_bytesOfNat n v i h]

/-- A stored number leaves every byte outside its own. -/
theorem byte_putNum_outside (s : State) (a n v k : Nat) (h : k < a ∨ a + n ≤ k) :
    (s.putNum a n v).byte k = s.byte k := by
  have outside : ¬ (a ≤ k ∧ k < a + (bytesOfNat n v).length) := by
    rw [length_bytesOfNat]
    omega
  rw [State.putNum, byte_putBytes, if_neg outside]

/-- Settles O25: what is read back, each byte, the bytes beside, and the canonical form, each by its rule of a store. -/
theorem byteOrder : Obligations.ByteOrder := fun s a n v k =>
  ⟨num_putNum s a n v, toNat_byte_putNum s a n v, byte_putNum_outside s a n v k, putNum_wf s a n v⟩

end Sys2Proof.Machine
end

section
/-! PROOFS. The machine after reset: its registers and its memory. -/

namespace Sys2Proof.Machine

/-- R241: a context that nothing has allocated holds the reset values. -/
theorem ctx_reset (n : Nat) : State.reset.ctx n = Ctx.reset := rfl

/-- R16: where nothing has been created, a fibre is read as the blank one. -/
theorem fib_reset (f : Nat) : State.reset.fib f = Fibre.blank := rfl

/-- R16: every register of the blank fibre is zero. -/
theorem reg_blank (n : Nat) : Fibre.blank.reg n = 0 := rfl

/-- R16, R25: no operation is pending on a completion flag of the blank fibre. -/
theorem cf_blank (n : Nat) : Fibre.blank.cf n = true := rfl

/-- R16: the eight carry registers of the blank fibre are zero, and there are no others. -/
theorem cy_blank (n : Nat) : Fibre.blank.cy.getD n 0 = 0 := by
  rw [List.getD_eq_getElem?_getD, Fibre.blank, List.getElem?_replicate]
  split <;> rfl

/-- Settles O55: the device's registers are those of its reset record, and no table of the state after reset lists an
entry, so that a context, a fibre, a flock and a core are read as their defaults. -/
theorem resetValues : Obligations.ResetValues := by
  have device : State.reset.dev.hb = 0 ∧ State.reset.dev.hbRun = true ∧ State.reset.dev.ctxsel = 0 ∧
      State.reset.dev.sparemap = 0 ∧ State.reset.dev.wdt = 12500000 := ⟨rfl, rfl, rfl, rfl, rfl⟩
  refine ⟨device, fun n => ?_, fun f => ?_, fun _ => rfl, fun _ => rfl⟩
  · rw [ctx_reset]
    exact ⟨rfl, rfl, rfl, rfl, rfl, rfl, rfl, rfl, rfl, rfl⟩
  · rw [fib_reset]
    exact ⟨reg_blank, rfl, rfl, rfl, rfl, cf_blank, cy_blank⟩

/-- Settles O60: the byte table after reset is empty, so it is canonical and every byte reads as an unlisted one. -/
theorem memoryAtReset : Obligations.MemoryAtReset := ⟨rfl, fun _ => rfl⟩

end Sys2Proof.Machine
end

section
/-! PROOFS. The integer group: the values that its functions compute, and the instructions that compute them. -/

namespace Sys2Proof.Machine

/-! ### The values of R137 -/

/-- R142: the comparison `le` is the order of the operands, signed or unsigned. -/
theorem compareInt_le {n : Nat} (u : Bool) (a b : BitVec n) :
    compareInt .le u a b = decide (if u then a.toNat ≤ b.toNat else a.toInt ≤ b.toInt) := by
  rw [Bool.eq_iff_iff]
  cases u with
  | true => simp [compareInt, Nat.le_iff_lt_or_eq, BitVec.toNat_inj]
  | false => simp [compareInt, Int.le_iff_lt_or_eq, BitVec.toInt_inj]

/-- R142: the comparison `ge` is `le` of the operands in the other order. -/
theorem compareInt_ge {n : Nat} (u : Bool) (a b : BitVec n) : compareInt .ge u a b = compareInt .le u b a := by
  rw [compareInt_le, Bool.eq_iff_iff]
  cases u <;> simp [compareInt]

theorem minWord_eq (u : Bool) (a b : Word) :
    minWord u a b = if (if u then a.toNat ≤ b.toNat else a.toInt ≤ b.toInt) then a else b := by
  simp only [minWord, compareInt_le, decide_eq_true_eq]

/-- Of two operands that the order does not tell apart, either is the larger: an injective key into a linear order tells
equal operands only. -/
theorem larger_eq {α β : Type} [LinearOrder β] (key : α → β) (inj : key.Injective) (a b : α) :
    (if key b ≤ key a then a else b) = if key a ≤ key b then b else a := by
  rcases lt_trichotomy (key a) (key b) with h | h | h
  · rw [if_neg h.not_ge, if_pos h.le]
  · rw [inj h]
  · rw [if_pos h.le, if_neg h.not_ge]

theorem maxWord_eq (u : Bool) (a b : Word) :
    maxWord u a b = if (if u then a.toNat ≤ b.toNat else a.toInt ≤ b.toInt) then b else a := by
  simp only [maxWord, compareInt_ge, compareInt_le, decide_eq_true_eq]
  cases u with
  | true => exact larger_eq BitVec.toNat (fun _ _ => BitVec.eq_of_toNat_eq) a b
  | false => exact larger_eq BitVec.toInt (fun _ _ => BitVec.eq_of_toInt_eq) a b

/-- The index that a search answers, or the end of the list, is the number of elements before the first hit. -/
theorem indexOf?_getD {α : Type} (p : α → Bool) (l : List α) (n : Nat) :
    (indexOf? p l n).getD (n + l.length) = n + (l.takeWhile fun x => !p x).length := by
  induction l generalizing n with
  | nil => rfl
  | cons x r ih =>
    rw [indexOf?, List.takeWhile_cons]
    cases hx : p x with
    | true => simp
    | false =>
      have := ih (n + 1)
      simp only [List.length_cons, Bool.not_false, if_true, Bool.false_eq_true, if_false]
      rw [show n + (r.length + 1) = n + 1 + r.length by omega, this]
      omega

theorem clzWord_eq (a : Word) :
    clzWord a = BitVec.ofNat 32 (((List.range 32).takeWhile fun i => !a.getLsbD (31 - i)).length) := by
  have h := indexOf?_getD (fun i => a.getLsbD (31 - i)) (List.range 32) 0
  rw [Nat.zero_add, Nat.zero_add, List.length_range] at h
  rw [clzWord, h, word]

theorem popcWord_eq (a : Word) :
    popcWord a = BitVec.ofNat 32 ((List.range 32).countP fun i => a.getLsbD i) := by
  rw [popcWord, word, List.countP_eq_length_filter]

theorem brevWord_eq (a : Word) : brevWord a = wordOfBits fun k => a.getLsbD (31 - k) := rfl

/-! ### The selection, which reads a predicate beside its two sources -/

theorem writesWord_sel (g : Guard) (d : BitVec 8) (a b : Src) (p : BitVec 4) :
    WritesWord (.sel g d a b p) d fun s x => if x.preds.getLsbD p.toNat then s.op32 x a else s.op32 x b := by
  have hm : laneSpans (.sel g d a b p) = (d.toNat, 1) :: (srcSpan 1 a ++ srcSpan 1 b) := rfl
  refine writesWord_of _ d (fun _ u f => (src32 u f a).bind fun v => (src32 u f b).bind fun w =>
    .ok (if (u.fib f).pred p.toNat then v else w)) (fun _ => rfl) _ (by simp [hm]) ?_
  intro s r f x F _ hr hx
  rw [src32_eq hx hr a (by intro q hq; simp [hm, hq]), Res.bind_ok, src32_eq hx hr b (by intro q hq; simp [hm, hq]),
    Res.bind_ok, State.fib_eq _ f x hx]
  rfl

/-- Settles O1: each instruction applies one function to its operands, in both forms, and the function's value is that of
R137. -/
theorem integerArithmetic : Obligations.IntegerArithmetic := by
  intro g o t v a b d p u nb
  refine ⟨computes2_of _ o _ (fun _ => rfl) rfl, computes2_of _ o _ (fun _ => rfl) rfl,
    computes2_of _ o _ (fun _ => rfl) rfl, computes2_of _ o _ (fun _ => rfl) rfl, computes3_of _ t _ (fun _ => rfl) rfl,
    ?min, ?max, computes2_of _ o _ (fun _ => rfl) rfl, computes2_of _ o _ (fun _ => rfl) rfl,
    computes2_of _ o _ (fun _ => rfl) rfl, ?clz, ?popc, computes1_of _ v _ (fun _ => rfl) rfl,
    writesWord_sel g d a b p, computes1_of _ v _ (fun _ => rfl) rfl⟩
  case min => simpa only [← minWord_eq] using computes2_of (.min g o u) o (minWord u) (fun _ => rfl) rfl
  case max => simpa only [← maxWord_eq] using computes2_of (.max g o u) o (maxWord u) (fun _ => rfl) rfl
  case clz => simpa only [← clzWord_eq] using computes1_of (.clz g v) v clzWord (fun _ => rfl) rfl
  case popc => simpa only [← popcWord_eq] using computes1_of (.popc g v) v popcWord (fun _ => rfl) rfl

end Sys2Proof.Machine
end

section
/-! PROOFS. The special registers: what each reads as, and the moves from and to them. -/

namespace Sys2Proof.Machine

/-! ### The completion flags as a mask (R25, R34) -/

/-- The powers of two below `2 ^ n` that `c` chooses, added up. -/
def sumOfBits (c : Nat → Bool) (n : Nat) : Nat := (List.range n).foldl (fun m i => if c i then m + 2 ^ i else m) 0

theorem sumOfBits_succ (c : Nat → Bool) (n : Nat) :
    sumOfBits c (n + 1) = if c n then sumOfBits c n + 2 ^ n else sumOfBits c n := by
  rw [sumOfBits, List.range_succ, List.foldl_append]
  rfl

theorem sumOfBits_lt (c : Nat → Bool) (n : Nat) : sumOfBits c n < 2 ^ n := by
  induction n with
  | zero => exact Nat.one_pos
  | succ n ih =>
    rw [sumOfBits_succ, Nat.pow_succ]
    split <;> omega

/-- Its binary digits are the choices. -/
theorem testBit_sumOfBits (c : Nat → Bool) (n k : Nat) : (sumOfBits c n).testBit k = (decide (k < n) && c k) := by
  induction n with
  | zero => simp [sumOfBits]
  | succ n ih =>
    have low := sumOfBits_lt c n
    rw [sumOfBits_succ]
    rcases Nat.lt_trichotomy k n with h | rfl | h
    · have hk : k < n + 1 := by omega
      cases hc : c n with
      | false => simp [ih, h, hk]
      | true => simp [Nat.add_comm _ (2 ^ n), Nat.testBit_two_pow_add_gt h, ih, h, hk]
    · cases hc : c k with
      | false => simp [ih]
      | true => simp [Nat.add_comm _ (2 ^ k), Nat.testBit_two_pow_add_eq, ih]
    · have below : sumOfBits c (n + 1) < 2 ^ k :=
        Nat.lt_of_lt_of_le (sumOfBits_lt c (n + 1)) (Nat.pow_le_pow_right Nat.two_pos h)
      rw [← sumOfBits_succ, Nat.testBit_lt_two_pow below]
      simp [show ¬ k < n + 1 by omega]

/-- A bit of a word given bit by bit. -/
theorem getLsbD_wordOfBits (b : Nat → Bool) (k : Nat) : (wordOfBits b).getLsbD k = (decide (k < 32) && b k) := by
  simp only [wordOfBits, BitVec.getLsbD_setWidth, BitVec.getLsbD_ofBoolListLE]
  by_cases h : k < 32 <;> simp [h]

theorem cfMask_eq_sum (x : Fibre) : x.cfMask = sumOfBits x.cf 12 := rfl

/-- R34: the mask of the completion flags, bit by bit. -/
theorem cfMask_bits (x : Fibre) :
    dword x.cfMask = (wordOfBits fun k => decide (k < 12) && x.pending.all fun p => p.1 ≠ k).setWidth 64 := by
  refine BitVec.eq_of_getLsbD_eq fun k hk => ?_
  rw [dword, BitVec.getLsbD_ofNat, cfMask_eq_sum, testBit_sumOfBits, BitVec.getLsbD_setWidth, getLsbD_wordOfBits]
  by_cases h : k < 12
  · simp [h, hk, show k < 32 by omega, Fibre.cf]
  · simp [h]

/-! ### The rows of R34 -/

/-- Every row of the table is what the register of its number reads as. -/
theorem specialReg_of_mem (s : State) (f : Nat) :
    ∀ p ∈ specialTable s (s.fib f), specialReg s f p.1.toNat = some p.2 := by
  simp only [specialTable, List.forall_mem_cons]
  exact ⟨rfl, rfl, rfl, rfl, rfl, rfl, rfl, rfl, rfl, rfl, by rw [← cfMask_bits]; rfl, rfl, rfl, rfl, rfl, rfl, rfl, rfl, rfl,
    List.forall_mem_nil _⟩

/-- The 64-bit registers of the table are those whose lane form names a pair. -/
theorem specialCount_of_mem (s : State) (x : Fibre) :
    ∀ p ∈ specialTable s x, specialCount p.1.toNat = wideCount p.2.1 := by
  simp only [specialTable, List.forall_mem_cons]
  exact ⟨rfl, rfl, rfl, rfl, rfl, rfl, rfl, rfl, rfl, rfl, rfl, rfl, rfl, rfl, rfl, rfl, rfl, rfl, rfl, List.forall_mem_nil _⟩

/-- A row of R34 as a fibre reads it. -/
def specialRow (s : State) (x : Fibre) (k : Fin 19) : BitVec 8 × Bool × DWord :=
  (specialTable s x).getD k.val (0, false, 0)

/-- The number of a row, which no state and no fibre changes. -/
def specialNum (k : Fin 19) : BitVec 8 := (specialRow State.reset Fibre.blank k).1

theorem specialRow_mem (s : State) (x : Fibre) (k : Fin 19) : specialRow s x k ∈ specialTable s x := by
  rw [specialRow, List.getD_eq_getElem _ _ (show k.val < (specialTable s x).length from k.isLt)]
  exact List.getElem_mem _

theorem specialRow_num (s : State) (x : Fibre) (k : Fin 19) : (specialRow s x k).1 = specialNum k := by
  have h : (specialTable s x).map Prod.fst = (specialTable State.reset Fibre.blank).map Prod.fst := rfl
  rw [specialNum, specialRow, specialRow, ← List.getD_map (f := Prod.fst), ← List.getD_map (f := Prod.fst), h]

theorem specialReg_num (s : State) (f : Nat) (k : Fin 19) :
    specialReg s f (specialNum k).toNat = some (specialRow s (s.fib f) k).2 := by
  rw [← specialRow_num s (s.fib f) k]
  exact specialReg_of_mem s f _ (specialRow_mem s _ k)

/-! ### Reading them: SRD -/

theorem laneSpans_srd (g : Guard) (d : BitVec 8) (s : State) (x : Fibre) (k : Fin 19) :
    laneSpans (.srd g false d (specialNum k)) = [(d.toNat, wideCount (specialRow s x k).2.1)] := by
  rw [← specialRow_num s x k, ← specialCount_of_mem s x _ (specialRow_mem s x k)]
  rfl

/-- The destination of a result of one or two registers passes its checks where its span is ready. -/
theorem RegsReady.wide {i : Instr} {x : Fibre} (h : RegsReady i x) {dbl : Bool} {d : BitVec 8}
    (hm : (d.toNat, wideCount dbl) ∈ laneSpans i) : needWide x dbl d = .ok () := by
  cases dbl with
  | true => exact h.pair hm
  | false => exact h.word hm

/-- A write of one or two registers is a change of the fibre. -/
theorem putWide_eq (s : State) (f : Nat) (dbl : Bool) (d : BitVec 8) (v : DWord) :
    putWide s f dbl d v = s.modFib f fun x => x.setWide dbl d v := by
  cases dbl <;> rfl

theorem srd_completes (g : Guard) (d : BitVec 8) (k : Fin 19) :
    Completes (.srd g false d (specialNum k)) fun s x => x.setWide (specialRow s x k).2.1 d (specialRow s x k).2.2 := by
  refine completes_of_body _ (fun _ _ u f _ => match specialReg u f (specialNum k).toNat with
    | none => .bad (illegal 0x0F)
    | some (wide, v) => (needWide (u.fib f) wide d).bind fun _ => .ok (.next, putWide u f wide d v)) (fun _ => rfl) _ ?_
  intro s r f x F _ hr hx _
  have own : ({ s with fibres := F } : State).fib f = x := State.fib_eq _ f x hx
  have row : specialReg { s with fibres := F } f (specialNum k).toNat = some (specialRow s x k).2 := by
    rw [specialReg_num, own]
    rfl
  have ready := hr.wide (d := d) (dbl := (specialRow s x k).2.1) (by simp [laneSpans_srd g d s x k])
  simp only [row, own, ready, Res.bind_ok, putWide_eq]
  exact congrArg (fun t => Res.ok (Adv.next, t)) (modFib_congr hx _ _ rfl)

theorem srd_writesUniform (g : Guard) (d : BitVec 8) (k : Fin 19) :
    WritesUniform (.srd g true d (specialNum k)) d fun s x => (specialRow s x k).2.2 := by
  refine writesUniform_of _ d (fun _ u f => (specialRow u (u.fib f) k).2.2) (fun s => ?_) _ ?_
  · show perFlock _ s (fun u f _ => match specialReg u f (specialNum k).toNat with
      | none => .bad (illegal 0x0F)
      | some (_, v) => .ok (setSreg u f d v)) = _
    simp only [specialReg_num]
    rfl
  · intro s r f F _ hf
    rw [hf]
    rfl

/-! ### Writing them: SWR -/

/-- A write of a special register from a 32-bit source. -/
theorem swr_completes (g : Guard) (n : BitVec 8) (a : Src) (put : Word → Fibre → Fibre)
    (hx : ∀ s, exec (.swr g n a) s = perLane (.swr g n a) s fun _ u f _ =>
      (src32 u f a).bind fun v => .ok (.next, u.modFib f (put v))) :
    Completes (.swr g n a) fun s x => put (s.op32 x a) x := by
  refine completes_of_body _ (fun _ _ u f _ => (src32 u f a).bind fun v => .ok (.next, u.modFib f (put v))) hx _ ?_
  intro s r f x F _ hr h _
  rw [src32_eq h hr a (fun q hq => hq), Res.bind_ok]
  exact congrArg (fun t => Res.ok (Adv.next, t)) (modFib_congr h _ _ rfl)

/-- Settles O16: every row of R34 is read by SRD in both forms, and SWR writes FPM and the predicates. -/
theorem specialRegisterMoves : Obligations.SpecialRegisterMoves := fun g d a k =>
  ⟨srd_completes g d k, srd_writesUniform g d k,
    swr_completes g 0x04 a (fun v x => { x with fpm := writeFpm v }) fun _ => rfl,
    swr_completes g 0x11 a (fun v x => { x with preds := v.setWidth 16 ||| 1#16 }) fun _ => rfl⟩

end Sys2Proof.Machine
end

section
/-! PROOFS. The values of the floating-point formats: the codes that are no numbers, and rounding what a format holds. -/

namespace Sys2Proof.Machine

variable {q : FPar}

/-! ### Invalid operations and NaN operands (R57, R58) -/

theorem ieee_of_nan_operand {rm : Rm} {ops : List Nat} {x : XNum} {cond : Nat} (h : ops.any q.isNaN = true) :
    ieee q rm ops x cond = (q.nanCode, if ops.any q.isSNaN then cIV else cond) := by
  rw [ieee, if_pos h]

/-- A result that is no number signals, unless the operands were none already. -/
theorem ieee_of_nan_result {rm : Rm} {ops : List Nat} {cond : Nat} (h : ops.any q.isNaN = false ∨ cond = cIV) :
    ieee q rm ops .nan cond = (q.nanCode, cIV) := by
  rcases hn : ops.any q.isNaN with _ | _
  · simp [ieee, hn, XNum.isNaN]
  · obtain rfl : cond = cIV := h.resolve_left (by simp [hn])
    rw [ieee_of_nan_operand hn, ite_self]

theorem ieee_two_of_nan {rm : Rm} {a b : Nat} {x : XNum} (h : q.isNaN a ∨ q.isNaN b) :
    ieee q rm [a, b] x 0 = (q.nanCode, if q.isSNaN a ∨ q.isSNaN b then cIV else 0) := by
  rw [ieee_of_nan_operand (by simpa using h)]
  simp

/-- R42, R43: the codes of the zeros and the infinities are numbers, and these are their values. -/
theorem decode_special (hq : q ∈ [p32, p16, pb16]) :
    (q.isNaN 0 = false ∧ q.decode 0 = .fin false 0 q.e0) ∧
    (q.isNaN q.signBit = false ∧ q.decode q.signBit = .fin true 0 q.e0) ∧
    (q.isNaN q.infCode = false ∧ q.decode q.infCode = .inf false) ∧
    (q.isNaN (q.infCode + q.signBit) = false ∧ q.decode (q.infCode + q.signBit) = .inf true) := by
  revert q
  decide

/-- Settles O11: a NaN operand decides the result before the value does, and the other cases are the values of R43's codes
under the exact operation. -/
theorem nanResults : Obligations.NaNResults := by
  intro q rm a b c hq
  obtain ⟨⟨zero_num, zero⟩, ⟨mzero_num, mzero⟩, ⟨inf_num, inf⟩, ⟨minf_num, minf⟩⟩ := decode_special hq
  refine ⟨fun h => ⟨ieee_two_of_nan h, ieee_two_of_nan h, ieee_two_of_nan h, ?div⟩, fun h => ?root, ?fma, ?sum, ?product,
    ?rootOfInf, ?rootOfZero⟩
  case div =>
    have anyNaN : (q.isNaN a || q.isNaN b) = true := by simpa using h
    rw [fpDiv, anyNaN]
    exact ieee_two_of_nan h
  case root =>
    rw [fpSqrt, ieee_of_nan_operand (by simpa using h)]
    simp
  case fma =>
    rw [fpFma, inf, zero]
    refine ieee_of_nan_result (.inr ?_)
    simp [XNum.mul, XNum.isNaN, inf_num, zero_num]
  case sum =>
    rw [fpAdd, inf, minf]
    exact ieee_of_nan_result (.inl (by simp [inf_num, minf_num]))
  case product =>
    rw [fpMul, inf, zero]
    exact ieee_of_nan_result (.inl (by simp [inf_num, zero_num]))
  case rootOfInf =>
    rw [fpSqrt, minf]
    exact ieee_of_nan_result (.inl (by simp [minf_num]))
  case rootOfZero =>
    simp [fpSqrt, mzero, squareRoot, ieee, mzero_num, XNum.isNaN, FPar.round, FPar.withSign]

/-! ### Rounding a value that the format holds (R42, R53) -/

theorem roundInt_self (neg : Bool) (m : Nat) (e : Int) (rm : Rm) : roundInt neg m e e rm = (m, false) := by
  simp [roundInt]

/-- A code is its sign and its magnitude. -/
theorem withSign_magOf {x : Nat} (hw : 0 < q.width) (hx : x < 2 ^ q.width) : q.withSign (q.negOf x) (q.magOf x) = x := by
  have double : 2 ^ q.width = q.signBit * 2 := (Nat.two_pow_pred_mul_two hw).symm
  have top : x / q.signBit < 2 := Nat.div_lt_of_lt_mul (double ▸ hx)
  have parts : q.signBit * (x / q.signBit) + q.magOf x = x := Nat.div_add_mod x q.signBit
  have sign : q.negOf x = (x / q.signBit % 2 == 1) := rfl
  rcases Nat.le_one_iff_eq_zero_or_eq_one.1 (Nat.le_of_lt_succ top) with h | h
  · rw [h] at parts sign
    simpa [FPar.withSign, sign] using parts
  · rw [h] at parts sign
    simpa [FPar.withSign, sign, Nat.add_comm] using parts

/-- A significand of at most `p` bits, of exactly `p` above the lowest exponent, is rounded to the code that holds it: `k`
steps of the exponent above the lowest. -/
theorem round_held {n : Bool} {m k : Nat} {rm : Rm} {sat : Bool} (hm : 0 < m) (hp : m < 2 ^ q.p)
    (hk : k = 0 ∨ 2 ^ (q.p - 1) ≤ m) (hf : k * 2 ^ (q.p - 1) + m < q.infCode) :
    q.round (.fin n m (q.e0 + k)) rm sat = (q.withSign n (k * 2 ^ (q.p - 1) + m), 0) := by
  have bits : m.log2 < q.p := (Nat.log2_lt hm.ne').2 hp
  have lsb : max (q.e0 + k + m.log2 + 1 - q.p) q.e0 = q.e0 + k := by
    rcases hk with rfl | hk
    · omega
    · have := (Nat.le_log2 hm.ne').2 hk
      omega
  have steps : (q.e0 + k - q.e0).toNat = k := by omega
  simp only [FPar.round, lsb, roundInt_self, steps]
  simp [hm.ne', hf]

/-- A number whose exponent field is 0 is its fraction at the lowest exponent. -/
theorem decode_subnormal {x : Nat} (h : q.magOf x < q.infCode) (hc : q.magOf x < 2 ^ (q.p - 1)) :
    q.decode x = .fin (q.negOf x) (q.magOf x) q.e0 := by
  have num : q.isNaN x = false := decide_eq_false h.le.not_gt
  simp [FPar.decode, num, h.ne, Nat.div_eq_of_lt hc, Nat.mod_eq_of_lt hc]

/-- Any other number has a leading one above its fraction, and an exponent field that counts from 1. -/
theorem decode_normal {x : Nat} (h : q.magOf x < q.infCode) (hc : 2 ^ (q.p - 1) ≤ q.magOf x) :
    ∃ m k : Nat, q.decode x = .fin (q.negOf x) m (q.e0 + k) ∧ 2 ^ (q.p - 1) ≤ m ∧ m < 2 ^ (q.p - 1) * 2 ∧
      k * 2 ^ (q.p - 1) + m = q.magOf x := by
  have num : q.isNaN x = false := decide_eq_false h.le.not_gt
  obtain ⟨k, hk⟩ : ∃ k, q.magOf x / 2 ^ (q.p - 1) = k + 1 :=
    Nat.exists_eq_add_one.2 (Nat.div_pos hc (Nat.two_pow_pos _))
  have frac := Nat.mod_lt (q.magOf x) (Nat.two_pow_pos (q.p - 1))
  refine ⟨q.magOf x % 2 ^ (q.p - 1) + 2 ^ (q.p - 1), k, ?_, by omega, by omega, ?_⟩
  · have exponent : q.e0 + ((k + 1 : Nat) : Int) - 1 = q.e0 + k := by omega
    simp only [FPar.decode, num, h.ne, hk, exponent, Bool.false_eq_true, if_false, Nat.add_one_ne_zero]
  · have parts := Nat.mod_add_div (q.magOf x) (2 ^ (q.p - 1))
    rw [hk, Nat.mul_succ] at parts
    rw [Nat.mul_comm k]
    omega

/-- R42, R53: what a code that is no NaN stands for is rounded to that code, in every mode. -/
theorem round_decode {x : Nat} (rm : Rm) (hp : 0 < q.p) (hx : x < 2 ^ q.width) (hn : q.isNaN x = false) :
    q.round (q.decode x) rm false = (x, 0) := by
  have back : q.withSign (q.negOf x) (q.magOf x) = x := withSign_magOf (Nat.lt_of_lt_of_le hp (Nat.le_add_right _ _)) hx
  have double : 2 ^ (q.p - 1) * 2 = 2 ^ q.p := Nat.two_pow_pred_mul_two hp
  rcases (Nat.not_lt.1 (of_decide_eq_false hn)).eq_or_lt with inf | lt
  · rw [inf] at back
    simp [FPar.decode, hn, inf, FPar.round, back]
  rcases Nat.lt_or_ge (q.magOf x) (2 ^ (q.p - 1)) with sub | normal
  · rw [decode_subnormal lt sub]
    rcases Nat.eq_zero_or_pos (q.magOf x) with zero | pos
    · rw [zero] at back ⊢
      simp [FPar.round, back]
    · have := round_held (q := q) (n := q.negOf x) (k := 0) (rm := rm) (sat := false) pos (by omega) (.inl rfl) (by omega)
      simpa [back] using this
  · obtain ⟨m, k, value, low, high, code⟩ := decode_normal lt normal
    rw [value, round_held (by have := Nat.two_pow_pos (q.p - 1); omega) (by omega) (.inr low) (by omega), code, back]

/-- Settles O12: the three formats hold a significand of at least one bit, which is all that rounding a held value asks. -/
theorem roundingKeepsValues : Obligations.RoundingKeepsValues := by
  intro q rm a hq ha hn
  have precision : ∀ q ∈ [p32, p16, pb16], 0 < q.p := by decide
  exact round_decode rm (precision q hq) ha hn

end Sys2Proof.Machine
end

section
/-! PROOFS. The floating-point group: its lane forms complete where FPM enables no condition that arises; its instructions with
UD set, which R136 does not permit and the decoder refuses, need not. -/

namespace Sys2Proof.Machine

/-! ### Results with their conditions (R29, R147) -/

/-- No condition of the kinds with a sticky bit sets none. -/
theorem stickyFpm_none (fpm : Word) {cond : Nat} (h : cond % 32 = 0) : stickyFpm fpm cond = fpm := by
  rw [stickyFpm, h, Nat.zero_mul]
  exact BitVec.or_zero

/-- R29: conditions that FPM does not enable set their sticky bits, and the fibre's write goes ahead. -/
theorem withConds_quiet {s : State} {F : Tab Fibre} {f cond : Nat} {x : Fibre} (h : tabGet F f = some x)
    (he : enabledOf x.fpm cond = 0) (g : Fibre → Fibre) :
    withConds { s with fibres := F } f cond (fun u => u.modFib f g)
      = .ok (.next, ({ s with fibres := F } : State).modFib f fun y => g { y with fpm := stickyFpm y.fpm cond }) := by
  have own : ({ s with fibres := F } : State).fib f = x := State.fib_eq _ f x h
  rw [withConds, own, if_neg (not_not.2 he)]
  split
  · next none => rw [modFib_congr h g (fun y => g { y with fpm := stickyFpm y.fpm cond }) (by rw [stickyFpm_none _ none])]
  · rw [State.modFib_modFib]
    rfl

/-- A lane instruction whose body ends in `withConds`, issued where FPM enables none of the conditions `cond` names, completes:
every acting fibre takes its sticky bits and its write. -/
theorem withConds_completes (i : Instr) (body : State → Nat → Res (Adv × State))
    (hx : ∀ s, exec i s = perLane i s fun _ u f _ => body u f) (cond : State → Fibre → Nat)
    (write : State → Fibre → Fibre → Fibre)
    (hb : ∀ s r f x F, s.runs.head? = some r → RegsReady i x → tabGet F f = some x →
      body { s with fibres := F } f = withConds { s with fibres := F } f (cond s x) fun u => u.modFib f (write s x))
    (s : State) (r : Run) (hI : Issuing s r)
    (hR : ∀ f ∈ actors s r i.guard, RegsReady i (s.fib f) ∧ enabledOf (s.fib f).fpm (cond s (s.fib f)) = 0) :
    ∃ t, exec i s = .next t ∧ Still (s.withFibres (actors s r i.guard) fun _ x =>
      write s x { x with fpm := stickyFpm x.fpm (cond s x) }) t ∧ WordDone s r t := by
  obtain ⟨rest, hr⟩ := hI.head
  rw [hx]
  refine perLane_still hI i _ (fun _ x => write s x { x with fpm := stickyFpm x.fpm (cond s x) }) fun l hl f x F h1 h2 h3 => ?_
  obtain ⟨ready, quiet⟩ := hR f (mem_actors.2 ⟨l, hl, h1⟩)
  rw [State.fib_eq s f x h2] at ready quiet
  rw [hb s r f x F (by simp [hr]) ready h3, withConds_quiet h3 quiet]
  exact congrArg (fun t => Res.ok (Adv.next, t)) (modFib_congr h3 _ _ rfl)

/-- A lane instruction of a floating-point result. -/
theorem writesFloat_of (i : Instr) (d : BitVec 8) (val : State → Nat → Res (Word × Nat))
    (hx : ∀ s, exec i s = fpLane i d s val) (v : State → Fibre → Word × Nat) (hd : (d.toNat, 1) ∈ laneSpans i)
    (hv : ∀ s r f x F, s.runs.head? = some r → RegsReady i x → tabGet F f = some x →
      val { s with fibres := F } f = .ok (v s x)) : WritesFloat i d v := by
  refine withConds_completes i (fun u f => (need32 (u.fib f) d).bind fun _ => (val u f).bind fun r =>
    withConds u f r.2 fun u => put32 u f d r.1) hx (fun s x => (v s x).2) (fun s x y => y.setReg d.toNat (v s x).1) ?_
  intro s r f x F h0 hr h3
  rw [State.fib_eq _ f x h3, hr.word hd, Res.bind_ok, hv s r f x F h0 hr h3]
  rfl

/-- One and two sources, taken element by element. -/
theorem writesFloat_fp1 (i : Instr) (o : Un) (m : FMode) (fn : Rm → Nat → Nat × Nat) (ho : o.ud = false)
    (hx : ∀ s, exec i s = fp1 i o m s fn) (hs : laneSpans i = unSpans o 1) :
    WritesFloat i o.d fun s x => fpJoin m fun j => fn (Rm.ofFpm x.fpm) (fpElem m j (s.op32 x o.a)) := by
  have hm : laneSpans i = (o.d.toNat, 1) :: srcSpan 1 o.a := by rw [hs]; simp [unSpans, dstSpan, ho]
  refine writesFloat_of i o.d _ hx _ (by simp [hm]) ?_
  intro s r f x F _ hr h3
  rw [src32_eq h3 hr o.a (by intro q hq; simp [hm, hq]), Res.bind_ok, State.fib_eq _ f x h3]

theorem writesFloat_fp2 (i : Instr) (o : Bin) (m : FMode) (fn : Rm → Nat → Nat → Nat × Nat) (ho : o.ud = false)
    (hx : ∀ s, exec i s = fp2 i o m s fn) (hs : laneSpans i = binSpans o 1 1) :
    WritesFloat i o.d fun s x => fpJoin m fun j =>
      fn (Rm.ofFpm x.fpm) (fpElem m j (s.op32 x o.a)) (fpElem m j (s.op32 x o.b)) := by
  have hm : laneSpans i = (o.d.toNat, 1) :: (srcSpan 1 o.a ++ srcSpan 1 o.b) := by
    rw [hs]; simp [binSpans, dstSpan, ho]
  refine writesFloat_of i o.d _ hx _ (by simp [hm]) ?_
  intro s r f x F _ hr h3
  rw [src32_eq h3 hr o.a (by intro q hq; simp [hm, hq]), Res.bind_ok,
    src32_eq h3 hr o.b (by intro q hq; simp [hm, hq]), Res.bind_ok, State.fib_eq _ f x h3]

theorem writesFloat_ffma (g : Guard) (t : Tri) (m : FMode) (rm : RmField) (ht : t.ud = false) :
    WritesFloat (.ffma g t m rm) t.d fun s x => fpJoin m fun j => fpFma m.fmt.fpar (rm.over (Rm.ofFpm x.fpm))
      (fpElem m j (s.op32 x t.a)) (fpElem m j (s.op32 x t.b)) (fpElem m j (s.op32 x t.c)) := by
  have hm : laneSpans (.ffma g t m rm) = (t.d.toNat, 1) :: (srcSpan 1 t.a ++ srcSpan 1 t.b ++ srcSpan 1 t.c) := by
    show triSpans t = _
    simp [triSpans, dstSpan, ht]
  refine writesFloat_of _ t.d _ (fun _ => rfl) _ (by simp [hm]) ?_
  intro s r f x F _ hr h3
  rw [src32_eq h3 hr t.a (by intro q hq; simp [hm, hq]), Res.bind_ok,
    src32_eq h3 hr t.b (by intro q hq; simp [hm, hq]), Res.bind_ok,
    src32_eq h3 hr t.c (by intro q hq; simp [hm, hq]), Res.bind_ok, State.fib_eq _ f x h3]

theorem writesFloat_cvt (g : Guard) (d : BitVec 8) (a : Src) (dst src : Fmt) (rm : RmField) (sat : Bool) :
    WritesFloat (.cvt g d a dst src rm sat) d fun s x => convert dst src (rm.over (Rm.ofFpm x.fpm)) sat (s.op32 x a) := by
  have hm : laneSpans (.cvt g d a dst src rm sat) = (d.toNat, 1) :: srcSpan 1 a := rfl
  refine writesFloat_of _ d _ (fun _ => rfl) _ (by simp [hm]) ?_
  intro s r f x F _ hr h3
  rw [src32_eq h3 hr a (by intro q hq; simp [hm, hq]), Res.bind_ok, State.fib_eq _ f x h3]

/-- What FCMP compares of a fibre's sources, with the conditions that arise (R150). -/
def fcmpOf (a b : Src) (fmt : FFmt) (c : FCond) (sgn : Bool) (s : State) (x : Fibre) : Bool × Nat :=
  fpCompare fmt.fpar c sgn (fpElem ⟨fmt, false⟩ 0 (s.op32 x a)) (fpElem ⟨fmt, false⟩ 0 (s.op32 x b))

/-- The comparison, whose result is a predicate. -/
theorem fcmp_completes (g : Guard) (p : BitVec 4) (a b : Src) (fmt : FFmt) (c : FCond) (sgn : Bool) (s : State) (r : Run)
    (hI : Issuing s r) (hR : ∀ f ∈ actors s r g, RegsReady (.fcmp g p a b fmt c sgn) (s.fib f) ∧
      enabledOf (s.fib f).fpm (fcmpOf a b fmt c sgn s (s.fib f)).2 = 0) :
    ∃ t, exec (.fcmp g p a b fmt c sgn) s = .next t ∧ Still (s.withFibres (actors s r g) fun _ x =>
      { x with fpm := stickyFpm x.fpm (fcmpOf a b fmt c sgn s x).2 }.setPred p.toNat (fcmpOf a b fmt c sgn s x).1) t ∧
      WordDone s r t := by
  have hm : laneSpans (.fcmp g p a b fmt c sgn) = srcSpan 1 a ++ srcSpan 1 b := rfl
  refine withConds_completes (.fcmp g p a b fmt c sgn) _ (fun _ => rfl) (fun s x => (fcmpOf a b fmt c sgn s x).2)
    (fun s x y => y.setPred p.toNat (fcmpOf a b fmt c sgn s x).1) ?_ s r hI hR
  intro s r f x F _ hr h3
  rw [src32_eq h3 hr a (by intro q hq; simp [hm, hq]), Res.bind_ok,
    src32_eq h3 hr b (by intro q hq; simp [hm, hq]), Res.bind_ok]
  rfl

/-! ### The lane forms of the group (R147 to R153) -/

/-- R57, R58, R149: the rounded operations, the smaller and the larger, with UD = 0. -/
theorem roundedOps_complete (g : Guard) (o : Bin) (t : Tri) (u : Un) (m : FMode) (rm : RmField) (nan : Bool)
    (ho : o.ud = false) (ht : t.ud = false) (hu : u.ud = false) :
    let q := m.fmt.fpar
    let mode := fun (x : Fibre) => rm.over (Rm.ofFpm x.fpm)
    let two := fun (fn : Fibre → Nat → Nat → Nat × Nat) (s : State) (x : Fibre) =>
      fpJoin m fun j => fn x (fpElem m j (s.op32 x o.a)) (fpElem m j (s.op32 x o.b))
    WritesFloat (.fadd g o m rm) o.d (two fun x => fpAdd q (mode x)) ∧
    WritesFloat (.fsub g o m rm) o.d (two fun x => fpSub q (mode x)) ∧
    WritesFloat (.fmul g o m rm) o.d (two fun x => fpMul q (mode x)) ∧
    WritesFloat (.fdiv g o m rm) o.d (two fun x => fpDiv q (mode x)) ∧
    WritesFloat (.fmin g o m nan) o.d (two fun _ => fpMinMax q false nan) ∧
    WritesFloat (.fmax g o m nan) o.d (two fun _ => fpMinMax q true nan) ∧
    WritesFloat (.fsqrt g u m rm) u.d (fun s x => fpJoin m fun j => fpSqrt q (mode x) (fpElem m j (s.op32 x u.a))) ∧
    WritesFloat (.ffma g t m rm) t.d (fun s x => fpJoin m fun j =>
      fpFma q (mode x) (fpElem m j (s.op32 x t.a)) (fpElem m j (s.op32 x t.b)) (fpElem m j (s.op32 x t.c))) :=
  ⟨writesFloat_fp2 _ o m (fun r => fpAdd m.fmt.fpar (rm.over r)) ho (fun _ => rfl) rfl,
    writesFloat_fp2 _ o m (fun r => fpSub m.fmt.fpar (rm.over r)) ho (fun _ => rfl) rfl,
    writesFloat_fp2 _ o m (fun r => fpMul m.fmt.fpar (rm.over r)) ho (fun _ => rfl) rfl,
    writesFloat_fp2 _ o m (fun r => fpDiv m.fmt.fpar (rm.over r)) ho (fun _ => rfl) rfl,
    writesFloat_fp2 _ o m (fun _ => fpMinMax m.fmt.fpar false nan) ho (fun _ => rfl) rfl,
    writesFloat_fp2 _ o m (fun _ => fpMinMax m.fmt.fpar true nan) ho (fun _ => rfl) rfl,
    writesFloat_fp1 _ u m (fun r => fpSqrt m.fmt.fpar (rm.over r)) hu (fun _ => rfl) rfl, writesFloat_ffma g t m rm ht⟩

/-- R148, R151, R152: the approximations, the sign operations and the classification, with UD = 0. -/
theorem unaryOps_complete (g : Guard) (u : Un) (m : FMode) (hu : u.ud = false) :
    let q := m.fmt.fpar
    let one := fun (fn : Nat → Nat × Nat) (s : State) (x : Fibre) => fpJoin m fun j => fn (fpElem m j (s.op32 x u.a))
    WritesFloat (.frcp g u m) u.d (one (fpRcp q)) ∧ WritesFloat (.frsq g u m) u.d (one (fpRsq q)) ∧
    WritesFloat (.fexp2 g u m) u.d (one (fpExp2 q)) ∧ WritesFloat (.flog2 g u m) u.d (one (fpLog2 q)) ∧
    WritesFloat (.fabs g u m) u.d (one fun a => (fpAbs q a, 0)) ∧
    WritesFloat (.fneg g u m) u.d (one fun a => (fpNeg q a, 0)) ∧
    WritesFloat (.fclass g u m) u.d (one fun a => (fpClass q a, 0)) :=
  ⟨writesFloat_fp1 _ u m (fun _ => fpRcp m.fmt.fpar) hu (fun _ => rfl) rfl,
    writesFloat_fp1 _ u m (fun _ => fpRsq m.fmt.fpar) hu (fun _ => rfl) rfl,
    writesFloat_fp1 _ u m (fun _ => fpExp2 m.fmt.fpar) hu (fun _ => rfl) rfl,
    writesFloat_fp1 _ u m (fun _ => fpLog2 m.fmt.fpar) hu (fun _ => rfl) rfl,
    writesFloat_fp1 _ u m (fun _ a => (fpAbs m.fmt.fpar a, 0)) hu (fun _ => rfl) rfl,
    writesFloat_fp1 _ u m (fun _ a => (fpNeg m.fmt.fpar a, 0)) hu (fun _ => rfl) rfl,
    writesFloat_fp1 _ u m (fun _ a => (fpClass m.fmt.fpar a, 0)) hu (fun _ => rfl) rfl⟩

/-! ### The form with UD = 1, which R136 does not list -/

/-- A fibre of one register, V0, with a write to it outstanding. -/
def udFibre : Fibre := { Fibre.blank with alloc := 1, regs := [0], loc := .flock 0, busy := [(0, 0)] }

/-- A run of the first of two words, by lane 0 of a flock of one lane. -/
def udRun : Run := ⟨0, 0, 1, 0, ⟨0, 2, 0, none, none, false⟩, [], 1, 0⟩

def udState : State :=
  { State.reset with fibres := [(0, udFibre)], flocks := [(0, { Flock.blank with lanes := [some 0] })], runs := [udRun] }

theorem udState_issuing : Issuing udState udRun := by
  refine ⟨⟨[], rfl⟩, fun l hl => ?_⟩
  have lanes : udRun.lanes.lanes = [0] := by decide
  obtain rfl : l = 0 := by simpa [lanes] using hl
  exact ⟨0, udFibre, rfl, rfl, rfl, rfl, rfl⟩

/-- FADD of S0 and S0 to D = 0 with UD = 1. -/
def udAdd : Instr := .fadd ⟨0, false⟩ ⟨true, 0, .s 0, .s 0⟩ ⟨.fp32, false⟩ .rn

/-- Its D is no lane register (R77), and its sources are uniform: it names no lane register. -/
theorem udAdd_ready (x : Fibre) (h : x.regs.length = x.alloc) : RegsReady udAdd x :=
  ⟨h, List.forall_mem_nil _⟩

/-- Given to `exec` all the same, it waits for V0, and the run ends. -/
theorem udAdd_waits {t : State} (h : exec udAdd udState = .next t) : t.runs = [] := by
  have waits : exec udAdd udState = .next (retract udState udRun) := rfl
  rw [waits] at h
  cases h
  rfl

/-- Refutes O10: the statement takes in every operand form, also UD = 1, which R136 does not list for this group and the
decoder refuses. D is then no lane register to RegsReady, yet the lane form that `exec` gives the word writes V(D): with a write
to V0 outstanding the word waits, and its run does not go on. With UD = 0 the statement's clauses hold: `roundedOps_complete`,
`unaryOps_complete`, `writesFloat_cvt`, `fcmp_completes`. -/
theorem not_floatResults : ¬ Obligations.FloatResults := by
  unfold Obligations.FloatResults
  rintro ⟨rounded, -⟩
  obtain ⟨fadd, -⟩ := rounded ⟨0, false⟩ ⟨true, 0, .s 0, .s 0⟩ ⟨true, 0, .s 0, .s 0, .s 0⟩ ⟨true, 0, .s 0⟩ ⟨.fp32, false⟩ .rn
    false
  have acting : actors udState udRun udAdd.guard = [0] := by decide
  obtain ⟨t, ht, -, done⟩ := fadd udState udRun udState_issuing fun f hf => by
    obtain rfl := List.mem_singleton.1 (acting ▸ hf : f ∈ [0])
    exact ⟨udAdd_ready _ rfl, by decide⟩
  have onward := (done (by decide)).1
  rw [udAdd_waits ht] at onward
  cases onward

end Sys2Proof.Machine
end

section
/-! PROOFS. The decoder reads back what the encoder writes, for every instruction of the opcode table. -/

namespace Sys2Proof

open Laws in
/-- R75 to R86: each row of the opcode table has its own round trip, by the reads of its word's format; the steps of the other
agents, rows 166 to 279 and the three control actions of a window, have no word. -/
theorem decode_encode (i : Instr) : RoundTrip.Statement i := by
  cases i with
  | add g o sat => exact RoundTrip.add g o sat
  | sub g o sat => exact RoundTrip.sub g o sat
  | mul g o => exact RoundTrip.mul g o
  | mulhi g o u => exact RoundTrip.mulhi g o u
  | mad g o => exact RoundTrip.mad g o
  | div g o u => exact RoundTrip.div g o u
  | rem g o u => exact RoundTrip.rem g o u
  | min g o u => exact RoundTrip.min g o u
  | max g o u => exact RoundTrip.max g o u
  | and g o nb => exact RoundTrip.and g o nb
  | or g o nb => exact RoundTrip.or g o nb
  | xor g o nb => exact RoundTrip.xor g o nb
  | shl g o => exact RoundTrip.shl g o
  | shr g o => exact RoundTrip.shr g o
  | sar g o => exact RoundTrip.sar g o
  | rot g o => exact RoundTrip.rot g o
  | bfx g o sgn => exact RoundTrip.bfx g o sgn
  | bfi g o => exact RoundTrip.bfi g o
  | clz g o => exact RoundTrip.clz g o
  | popc g o => exact RoundTrip.popc g o
  | brev g o => exact RoundTrip.brev g o
  | sel g d a b p => exact RoundTrip.sel g d a b p
  | icmp g p a b cond u comb => exact RoundTrip.icmp g p a b cond u comb
  | mov g o => exact RoundTrip.mov g o
  | addd g o bw => exact RoundTrip.addd g o bw
  | subd g o bw => exact RoundTrip.subd g o bw
  | muld g o => exact RoundTrip.muld g o
  | shld g o => exact RoundTrip.shld g o
  | shrd g o => exact RoundTrip.shrd g o
  | sard g o => exact RoundTrip.sard g o
  | icmpd g p a b cond u comb => exact RoundTrip.icmpd g p a b cond u comb
  | movd g o => exact RoundTrip.movd g o
  | andd g o => exact RoundTrip.andd g o
  | ord g o => exact RoundTrip.ord g o
  | xord g o => exact RoundTrip.xord g o
  | addi g o => exact RoundTrip.addi g o
  | muli g o => exact RoundTrip.muli g o
  | andi g o => exact RoundTrip.andi g o
  | ori g o => exact RoundTrip.ori g o
  | xori g o => exact RoundTrip.xori g o
  | shli g o => exact RoundTrip.shli g o
  | shri g o => exact RoundTrip.shri g o
  | sari g o => exact RoundTrip.sari g o
  | icmpi g p a imm cond u comb => exact RoundTrip.icmpi g p a imm cond u comb
  | adddi g o => exact RoundTrip.adddi g o
  | movi g ud d imm => exact RoundTrip.movi g ud d imm
  | lui g ud d imm => exact RoundTrip.lui g ud d imm
  | aupc g ud d imm => exact RoundTrip.aupc g ud d imm
  | lup g ud d imm => exact RoundTrip.lup g ud d imm
  | fadd g o m rm => exact RoundTrip.fadd g o m rm
  | fsub g o m rm => exact RoundTrip.fsub g o m rm
  | fmul g o m rm => exact RoundTrip.fmul g o m rm
  | ffma g o m rm => exact RoundTrip.ffma g o m rm
  | fdiv g o m rm => exact RoundTrip.fdiv g o m rm
  | fsqrt g o m rm => exact RoundTrip.fsqrt g o m rm
  | fmin g o m nan => exact RoundTrip.fmin g o m nan
  | fmax g o m nan => exact RoundTrip.fmax g o m nan
  | fcmp g p a b fmt cond sgn => exact RoundTrip.fcmp g p a b fmt cond sgn
  | frcp g o m => exact RoundTrip.frcp g o m
  | frsq g o m => exact RoundTrip.frsq g o m
  | fexp2 g o m => exact RoundTrip.fexp2 g o m
  | flog2 g o m => exact RoundTrip.flog2 g o m
  | fabs g o m => exact RoundTrip.fabs g o m
  | fneg g o m => exact RoundTrip.fneg g o m
  | fclass g o m => exact RoundTrip.fclass g o m
  | cvt g d a dst src rm sat => exact RoundTrip.cvt g d a dst src rm sat
  | pack g d a c w j => exact RoundTrip.pack g d a c w j
  | unpk g d a w j sgn => exact RoundTrip.unpk g d a w j sgn
  | pand g p a b na nb => exact RoundTrip.pand g p a b na nb
  | por g p a b na nb => exact RoundTrip.por g p a b na nb
  | pxor g p a b na nb => exact RoundTrip.pxor g p a b na nb
  | pnot g p a => exact RoundTrip.pnot g p a
  | pset g p a z => exact RoundTrip.pset g p a z
  | part g d a pw dbl => exact RoundTrip.part g d a pw dbl
  | shfl g d a b pw mode dbl => exact RoundTrip.shfl g d a b pw mode dbl
  | vote g d a pw mode dbl => exact RoundTrip.vote g d a pw mode dbl
  | redu g d a pw op dbl => exact RoundTrip.redu g d a pw op dbl
  | movu g d a sel dbl => exact RoundTrip.movu g d a sel dbl
  | srd g ud d n => exact RoundTrip.srd g ud d n
  | swr g n a => exact RoundTrip.swr g n a
  | bra g off => exact RoundTrip.bra g off
  | call g d off => exact RoundTrip.call g d off
  | calls g d off => exact RoundTrip.calls g d off
  | ret g a => exact RoundTrip.ret g a
  | retS g => exact RoundTrip.retS g
  | brx g a b => exact RoundTrip.brx g a b
  | callx g d a b => exact RoundTrip.callx g d a b
  | reform g => exact RoundTrip.reform g
  | backoff g p => exact RoundTrip.backoff g p
  | nop g => exact RoundTrip.nop g
  | exit g => exact RoundTrip.exit g
  | spawn g x d off => exact RoundTrip.spawn g x d off
  | hinst g ve k off => exact RoundTrip.hinst g ve k off
  | hdrop g => exact RoundTrip.hdrop g
  | perf g d a b r => exact RoundTrip.perf g d a b r
  | rsm g a b => exact RoundTrip.rsm g a b
  | rsmt g a b => exact RoundTrip.rsmt g a b
  | dropk g a => exact RoundTrip.dropk g a
  | ksend g d a b c => exact RoundTrip.ksend g d a b c
  | kinfo g d sel => exact RoundTrip.kinfo g d sel
  | ld g m => exact RoundTrip.ld g m
  | st g m => exact RoundTrip.st g m
  | lds g m => exact RoundTrip.lds g m
  | sts g m => exact RoundTrip.sts g m
  | atom g m op nr => exact RoundTrip.atom g m op nr
  | atomd g m op nr => exact RoundTrip.atomd g m op nr
  | cas g m c => exact RoundTrip.cas g m c
  | casd g m c => exact RoundTrip.casd g m c
  | lnset g m => exact RoundTrip.lnset g m
  | lnclr g m => exact RoundTrip.lnclr g m
  | fence g scope ord => exact RoundTrip.fence g scope ord
  | fenceSc g scope => exact RoundTrip.fenceSc g scope
  | fopen g n => exact RoundTrip.fopen g n
  | fseal g d n => exact RoundTrip.fseal g d n
  | fabort g d n => exact RoundTrip.fabort g d n
  | view g d stamp => exact RoundTrip.view g d stamp
  | baraArrive g d m => exact RoundTrip.baraArrive g d m
  | baraInit g d m => exact RoundTrip.baraInit g d m
  | baraLeave g d m => exact RoundTrip.baraLeave g d m
  | baraKill g d m => exact RoundTrip.baraKill g d m
  | barw g d m => exact RoundTrip.barw g d m
  | icinv g m => exact RoundTrip.icinv g m
  | isync g => exact RoundTrip.isync g
  | tdef g d a b chain ready => exact RoundTrip.tdef g d a b chain ready
  | ttag g a b => exact RoundTrip.ttag g a b
  | tqry g d a sel => exact RoundTrip.tqry g d a sel
  | twait g a empty => exact RoundTrip.twait g a empty
  | trel g a u => exact RoundTrip.trel g a u
  | tld g d a b c ft => exact RoundTrip.tld g d a b c ft
  | tst g d a b c ft => exact RoundTrip.tst g d a b c ft
  | qst g d a b keep n cy ft => exact RoundTrip.qst g d a b keep n cy ft
  | cyrd g d cy => exact RoundTrip.cyrd g d cy
  | cywr g a cy => exact RoundTrip.cywr g a cy
  | mready g a => exact RoundTrip.mready g a
  | mloop g d a b c bank ft => exact RoundTrip.mloop g d a b c bank ft
  | mwait g bank => exact RoundTrip.mwait g bank
  | accrd g d a bank n => exact RoundTrip.accrd g d a bank n
  | accwr g d a bank n => exact RoundTrip.accwr g d a bank n
  | accz g bank => exact RoundTrip.accz g bank
  | mstat g d a clr => exact RoundTrip.mstat g d a clr
  | tcopy g d a b tile ft => exact RoundTrip.tcopy g d a b tile ft
  | tcopyv g d a b c tile ft => exact RoundTrip.tcopyv g d a b c tile ft
  | rodld g d a b ft => exact RoundTrip.rodld g d a b ft
  | fork g d a b c => exact RoundTrip.fork g d a b c
  | rdv g a b => exact RoundTrip.rdv g a b
  | disp g d a b c => exact RoundTrip.disp g d a b c
  | prd g ud d n => exact RoundTrip.prd g ud d n
  | pwr g n a => exact RoundTrip.pwr g n a
  | pwrHbctl g a => exact RoundTrip.pwrHbctl g a
  | tlbiVa g sys a b => exact RoundTrip.tlbiVa g sys a b
  | tlbiCtx g sys b => exact RoundTrip.tlbiCtx g sys b
  | tlbiAll g sys => exact RoundTrip.tlbiAll g sys
  | tlbs g d a b walk => exact RoundTrip.tlbs g d a b walk
  | cancelfCtx g d a => exact RoundTrip.cancelfCtx g d a
  | cancelfPage g d a b => exact RoundTrip.cancelfPage g d a b
  | cancelfRec g d a b => exact RoundTrip.cancelfRec g d a b
  | regroup g a b hold => exact RoundTrip.regroup g a b hold
  | ctxrd g ud d a n => exact RoundTrip.ctxrd g ud d a n
  | hbrd g ud d sub => exact RoundTrip.hbrd g ud d sub
  | tbrd g d n => exact RoundTrip.tbrd g d n
  | svc g d a b => exact RoundTrip.svc g d a b
  | winrd g d a c => exact RoundTrip.winrd g d a c
  | winwr g d a c => exact RoundTrip.winwr g d a c
  | _ => exact fun _ _ he => nomatch he

/-- Settles O58: the round trip of the instruction in hand. -/
theorem roundTrip : Obligations.RoundTrip := fun i w hl he => decode_encode i w hl he

/-- Settles O57: each of the spec's words is the encoding of the instruction beside it, which the round trip gives back. -/
theorem decodeWords : Obligations.DecodeWords := by
  have reads {i : Instr} {w : Nat} (hl : i.fieldsListed = true) (he : encode i = some w) : decodeWord w = .ok i :=
    (roundTrip i w hl he).1
  exact ⟨reads rfl rfl, reads rfl rfl, reads rfl rfl, reads rfl rfl, reads rfl rfl, reads rfl rfl, reads rfl rfl,
    reads rfl rfl, reads rfl rfl, reads rfl rfl, reads rfl rfl, reads rfl rfl, reads rfl rfl, reads rfl rfl,
    reads rfl rfl, reads rfl rfl, reads rfl rfl, reads rfl rfl, reads rfl rfl, reads rfl rfl⟩

end Sys2Proof
end

section
/-! PROOFS. One step: the look that it begins with, and the turn that it takes. -/

namespace Sys2Proof.Machine

variable {s : State} {r : Run} {i : Instr}

/-! ### The look before a turn (R262, R267) -/

theorem noteEligible_seq (s : State) : s.seq ≤ (noteEligible s).seq := by
  simp only [noteEligible]
  split
  · exact Nat.le_refl _
  · exact Nat.le_succ _

theorem noteEligible_keys (s : State) : (noteEligible s).flocks.map (·.1) = s.flocks.map (·.1) := by
  simp only [noteEligible]
  split
  · rfl
  · rw [List.map_map]
    refine List.map_congr_left fun p _ => ?_
    simp only [Function.comp]
    split <;> rfl

/-- It moves nothing but the flocks and the order of events. -/
theorem noteEligible_eta (s : State) :
    noteEligible s = { s with flocks := (noteEligible s).flocks, seq := (noteEligible s).seq } := by
  obtain ⟨fl, n, h⟩ := noteEligible_only s
  rw [h]

/-! ### The word in issue (R89) -/

theorem issueWord_ok {v : State} (hd : decodeWord (r.words.getD (r.idx - 1) 0) = .ok i)
    (hf : wordFault s r (r.words.getD (r.idx - 1) 0) i = none) (hv : issueReads s r i = some v) :
    issueWord s r = exec i v := by
  unfold issueWord
  simp only [hd, hf, hv]

theorem issueWord_waits (hd : decodeWord (r.words.getD (r.idx - 1) 0) = .ok i)
    (hf : wordFault s r (r.words.getD (r.idx - 1) 0) i = none) (hv : issueReads s r i = none) :
    issueWord s r = .next (stall s r) := by
  unfold issueWord
  simp only [hd, hf, hv]

theorem issueWord_fault {lanes : Mask} {e : Eff} (hd : decodeWord (r.words.getD (r.idx - 1) 0) = .ok i)
    (hf : wordFault s r (r.words.getD (r.idx - 1) 0) i = some (lanes, e)) :
    issueWord s r = .next (raiseOn s r lanes i.endsClause e) := by
  unfold issueWord
  simp only [hd, hf]

theorem issueWord_bad {e : DecodeError} (hd : decodeWord (r.words.getD (r.idx - 1) 0) = .bad e) :
    issueWord s r = .next (raiseOn s r r.lanes false (illegal e.code)) := by
  unfold issueWord
  simp only [hd]

/-! ### The turns of a step (R263, R267) -/

theorem step_issues {rest : List Run} (ha : s.agenda = []) (hr : s.runs = r :: rest) :
    step s = issueWord (noteEligible s) r := by
  simp only [step, turn, noteEligible_agenda, noteEligible_runs, ha, hr]

theorem step_starts {core port : Nat} (ha : s.agenda = []) (hr : s.runs = [])
    (hs : startable (noteEligible s) = some (core, port)) : step s = exec (.runStart core port) (noteEligible s) := by
  simp only [step, turn, noteEligible_agenda, noteEligible_runs, ha, hr, hs]

theorem step_ticks (ha : s.agenda = []) (hr : s.runs = []) (hs : startable (noteEligible s) = none) :
    step s = exec .heartbeatTick (noteEligible s) := by
  simp only [step, turn, noteEligible_agenda, noteEligible_runs, ha, hr, hs]

theorem step_event {todo : List Turn} (ha : s.agenda = .event i :: todo) :
    step s = exec i { noteEligible s with agenda := todo } := by
  simp only [step, turn, noteEligible_agenda, ha]

theorem step_port_issues {todo : List Turn} {core port : Nat} {v : State} (ha : s.agenda = .issue core port :: todo)
    (ht : takeRun { noteEligible s with agenda := todo } core port = some (r, v)) : step s = issueWord v r := by
  simp only [step, turn, noteEligible_agenda, ha, ht]

theorem step_port_starts {todo : List Turn} {core port : Nat} (ha : s.agenda = .issue core port :: todo)
    (ht : takeRun { noteEligible s with agenda := todo } core port = none) :
    step s = exec (.runStart core port) { noteEligible s with agenda := todo } := by
  simp only [step, turn, noteEligible_agenda, ha, ht]

/-- A placed word stands at the head of the runs as the word in issue, and nothing on the agenda goes before it. -/
theorem withFetchWord_head (s : State) (nbits w : Nat) : (s.withFetchWord nbits w).agenda = [] ∧
    ∃ q rest, (s.withFetchWord nbits w).runs = q :: rest ∧ q.words.getD (q.idx - 1) 0 = w % 2 ^ 64 :=
  ⟨rfl, _, _, rfl, rfl⟩

/-- Settles O56: the turn that a step takes is told by the agenda and the runs, and the fate of a word by its decoding, its
faults and the reads of its registers. -/
theorem stepRuns : Obligations.StepRuns := by
  intro s r rest todo w i
  refine ⟨⟨noteEligible_eta s, noteEligible_seq s, noteEligible_keys s, noteEligible_flock s⟩, ?word, ?idle, step_event,
    ?port, ?placed⟩
  case word =>
    rintro ha hr rfl
    rw [step_issues ha hr]
    exact ⟨fun hd hf => ⟨fun _ => issueWord_ok hd hf, issueWord_waits hd hf⟩, fun _ _ => issueWord_fault,
      fun _ => issueWord_bad⟩
  case idle => exact fun ha hr => ⟨fun _ _ => step_starts ha hr, step_ticks ha hr⟩
  case port =>
    refine fun core port ha => ⟨step_port_starts ha, ?_⟩
    rintro v z ht rfl hd hf hv
    rw [step_port_issues ha ht, issueWord_ok hd hf hv]
  case placed =>
    rintro nbits r' v z rfl hd hh hf hv
    obtain ⟨ha, q, rest, hr, hw⟩ := withFetchWord_head s nbits w
    rw [noteEligible_runs, hr] at hh
    obtain rfl : q = r' := Option.some.inj hh
    rw [← hw] at hd hf
    rw [step_issues ha hr, issueWord_ok hd hf hv]

end Sys2Proof.Machine
end

section
/-! PROOFS. Transfers of control: direct, indirect, and through a table of permitted targets. -/

namespace Sys2Proof.Machine

variable {s : State} {r : Run} {i : Instr} {f : Nat}

theorem State.run_eq (h : s.runs.head? = some r) : s.run = r := by
  rw [State.run, List.headD_eq_head?_getD, h]
  rfl

/-! ### Sources of a fibre whose registers are ready -/

theorem src32_ready (hr : RegsReady i (s.fib f)) (a : Src) (hm : ∀ q ∈ srcSpan 1 a, q ∈ laneSpans i) :
    src32 s f a = .ok (s.op32 (s.fib f) a) := by
  cases a with
  | v n => rw [src32, hr.word (hm _ (List.mem_singleton_self _)), Res.bind_ok, State.op32]
  | s n => rfl

theorem src64_ready (hr : RegsReady i (s.fib f)) (a : Src) (hm : ∀ q ∈ srcSpan 2 a, q ∈ laneSpans i) :
    src64 s f a = .ok (s.op64 (s.fib f) a) := by
  cases a with
  | v n =>
    rw [src64, hr.pair (hm _ (List.mem_singleton_self _)), Res.bind_ok]
    rfl
  | s n => rfl

/-- R437: a source that is no marker raises no BIND; a uniform register is never one. -/
theorem srcBind_of {a : Src} {v : DWord} (h : src64 s f a = .ok v) (acc : Acc)
    (hn : a.uniform = false → v.toNat / 2 ^ 55 ≠ 0x1FF) : srcBind s f a acc = .ok v := by
  rw [srcBind, h, Res.bind_ok]
  cases a with
  | v n => simp only [bindCheck, if_neg (hn rfl), Res.bind_ok]
  | s n => rfl

/-! ### Transfers (R91) -/

theorem brnTarget_eq (r : Run) (off : BitVec 24) : brnTarget r off = r.here + off.signExtend 64 * 8 := rfl

theorem transfer_ok {t : DWord} (h : t.toNat < 2 ^ 54) :
    transfer s f t = .ok (.moved, s.modFib f fun x => x.at (t &&& ~~~7) .transfer) := by
  rw [transfer, needTarget, Res.guard, if_pos (decide_eq_true (Nat.div_eq_of_lt h))]
  rfl

/-- A word that ends its clause and takes every acting lane to a target of its own. -/
theorem transfers_of (i : Instr) (body : State → State → Nat → Res (Adv × State))
    {target : State → Run → Fibre → DWord}
    {ok : State → Fibre → Prop} {new : State → Run → Fibre → Fibre}
    (hx : ∀ s, exec i s = perLane i s fun _ u f _ => body s u f) (he : i.endsClause = true)
    (hb : ∀ s r f x F, s.runs.head? = some r → tabGet F f = some x → RegsReady i x → ok s x →
      (target s r x).toNat < 2 ^ 54 → body s { s with fibres := F } f = .ok (.moved,
        ({ s with fibres := F } : State).modFib f fun y => (new s r y).at (target s r x &&& ~~~7) .transfer)) :
    Transfers i target ok new := by
  intro s r hI hR
  obtain ⟨rest, hr⟩ := hI.head
  obtain ⟨F, hF, hg⟩ := perLane_open hI i.guard (fun u f _ => body s u f)
    (fun f y => (new s r y).at (target s r (s.fib f) &&& ~~~7) .transfer) (by
      intro l hl f x F h1 h2 h3
      obtain ⟨ready, fine, near⟩ := hR f (mem_actors.2 ⟨l, hl, h1⟩)
      rw [State.fib_eq s f x h2] at ready fine near ⊢
      rw [hb s r f x F (by rw [hr]; rfl) h3 ready fine near, quiet_moved])
  rw [hI.actingMask] at hF
  obtain ⟨still, fibres⟩ := settle_masks s { s with fibres := F } r i.endsClause 0 0
  refine ⟨_, (hx s).trans ((perLane_eq hI i _).trans (by rw [hF])), Still.trans ?_ (settle_still s _ r i.endsClause), ?_⟩
  · refine ⟨rfl, fun h => ?_, fun _ => rfl, fun _ => rfl, fun _ => rfl⟩
    rw [withFibres_get]
    show (tabGet F h).map Fibre.still = _
    rw [hg h]
    split
    · cases tabGet s.fibres h <;> rfl
    · rw [(advanceLanes_still s r _).fibre h]
      cases tabGet s.fibres h <;> rfl
  · intro f hf
    obtain ⟨l, hl, h1⟩ := mem_actors.1 hf
    obtain ⟨x, hx, -⟩ := hI.fibre_eq (guardMask_lanes s r _ l hl) h1
    rw [State.fib, tabGetD, fibres (.inl he)]
    show ((tabGet F f).getD _).pc = _ ∧ ((tabGet F f).getD _).pck = _
    rw [hg f, if_pos hf, hx]
    exact ⟨rfl, rfl⟩

theorem bra_transfers (g : Guard) (off : BitVec 24) :
    Transfers (.bra g off) (fun _ r _ => r.here + off.signExtend 64 * 8) (fun _ _ => True) (fun _ _ x => x) := by
  refine transfers_of _ (fun s u f => transfer u f (brnTarget s.run off)) (fun _ => rfl) rfl ?_
  intro s r f x F h0 _ _ _ near
  rw [State.run_eq h0, brnTarget_eq, transfer_ok near]

theorem call_transfers (g : Guard) (d : BitVec 8) (off : BitVec 24) :
    Transfers (.call g d off) (fun _ r _ => r.here + off.signExtend 64 * 8) (fun _ _ => True)
      (fun _ r x => x.setPair d.toNat r.after) := by
  refine transfers_of _ (fun s u f => (need64 (u.fib f) d).bind fun _ =>
    (transfer u f (brnTarget s.run off)).map fun (q : Adv × State) => (q.1, put64 q.2 f d s.run.nextHeader))
    (fun _ => rfl) rfl ?_
  intro s r f x F h0 h3 ready _ near
  rw [State.fib_eq _ f x h3, ready.pair (List.mem_singleton_self _), Res.bind_ok, State.run_eq h0, brnTarget_eq,
    transfer_ok near, Res.map, Res.bind_ok, put64, State.modFib_modFib]
  rfl

theorem ret_transfers (g : Guard) (a : Src) :
    Transfers (.ret g a) (fun s _ x => s.op64 x a)
      (fun s x => a.uniform = false → (s.op64 x a).toNat / 2 ^ 55 ≠ 0x1FF) (fun _ _ x => x) := by
  refine transfers_of _ (fun _ u f => (srcBind u f a .fetch).bind fun t => transfer u f t) (fun _ => rfl) rfl ?_
  intro s r f x F _ h3 ready plain near
  have spans : laneSpans (.ret g a) = srcSpan 2 a := rfl
  rw [srcBind_of (src64_eq h3 ready a (by simp [spans])) .fetch plain, Res.bind_ok, transfer_ok near]

/-! ### Permitted-target tables (R118, R119) -/

theorem tableTarget_ok {j : Word} {t : DWord} {h e : Nat} {s1 u : State} (hh : loadNum s f t 8 8 .table = .ok (h, s1))
    (hm : h ≤ 4096) (hj : j.toNat < h) (he : loadNum s1 f (t + 8 + 4 * j.setWidth 64) 4 4 .table = .ok (e, u)) :
    tableTarget s f j t = .ok (t + 8 * (BitVec.ofNat 32 e).signExtend 64, u) := by
  have count : h % 2 ^ 32 = h := Nat.mod_eq_of_lt (by omega)
  have fits : h / 2 ^ 32 = 0 := Nat.div_eq_of_lt (by omega)
  have full : h ≠ 0 := by omega
  simp only [tableTarget, hh, Res.bind_ok, count, fits, he]
  simp [full, hm.not_gt, hj.not_ge]

/-- Settles O17: the direct transfers and RET take each lane to its target, and the two indirect ones take it where the
table's entry leads. -/
theorem controlTransfers : Obligations.ControlTransfers := by
  refine ⟨fun g off d a => ⟨bra_transfers g off, call_transfers g d off, ret_transfers g a⟩, fun g d a b => ?_⟩
  intro ok goes
  constructor
  · refine lanewise_of _ (fun _ _ u f _ => (src32 u f a).bind fun j => (srcBind u f b .table).bind fun t =>
      (tableTarget u f j t).bind fun q => transfer q.2 f q.1) _ (fun _ => rfl) ?_
    rintro s r _ u l f how v - ready ⟨rfl, h, e, s1, w, ⟨plain, hh, hm, hj, he, near⟩, rfl⟩
    have spans : laneSpans (.brx g a b) = srcSpan 1 a ++ srcSpan 2 b := rfl
    rw [src32_ready ready a (by simp +contextual [spans]), Res.bind_ok,
      srcBind_of (src64_ready ready b (by simp +contextual [spans])) .table plain, Res.bind_ok, tableTarget_ok hh hm hj he,
      Res.bind_ok, transfer_ok near]
  · refine lanewise_of _ (fun s _ u f _ => (need64 (u.fib f) d).bind fun _ => (src32 u f a).bind fun j =>
      (srcBind u f b .table).bind fun t => (tableTarget u f j t).bind fun q =>
        (transfer q.2 f q.1).map fun (p : Adv × State) => (p.1, put64 p.2 f d s.run.nextHeader)) _ (fun _ => rfl) ?_
    rintro s r _ u l f how v h0 ready ⟨rfl, h, e, s1, w, ⟨plain, hh, hm, hj, he, near⟩, rfl⟩
    have spans : laneSpans (.callx g d a b) = [(d.toNat, 2)] ++ srcSpan 1 a ++ srcSpan 2 b := rfl
    rw [ready.pair (by simp [spans]), Res.bind_ok, src32_ready ready a (by simp +contextual [spans]), Res.bind_ok,
      srcBind_of (src64_ready ready b (by simp +contextual [spans])) .table plain, Res.bind_ok, tableTarget_ok hh hm hj he,
      Res.bind_ok, transfer_ok near, Res.map, Res.bind_ok, put64, State.modFib_modFib, State.run_eq h0]
    rfl

end Sys2Proof.Machine
end

section
/-! PROOFS. The events of the issue logic: run starts, wakes, limits, and who takes a free slot. -/

namespace Sys2Proof

/-- A mask is given by its lanes. -/
theorem Mask.ofLanes_eq {m : Mask} {ls : List Nat} (h : ∀ l, m.has l = true ↔ l ∈ ls) : Mask.ofLanes ls = m := by
  refine BitVec.eq_of_getLsbD_eq fun k hk => ?_
  rw [Mask.getLsbD_ofLanes ls k hk, Bool.eq_iff_iff, decide_eq_true_eq]
  exact (h k).symm

theorem Mask.mem_lanes_iff_has (m : Mask) (l : Nat) : l ∈ m.lanes ↔ m.has l = true := by
  rw [Mask.mem_lanes, Mask.has, and_iff_right_iff_imp]
  exact fun h => BitVec.lt_of_getLsbD h

namespace Machine

variable {s u : State} {core port k f n : Nat}

/-! ### The end of a stalled run (R269) -/

theorem endStalledRun_of_run {r : Run} (h : takeRun s core port = some (r, u)) :
    endStalledRun s core port = if otherEligible u r.flock then dropRun u r else s := by
  unfold endStalledRun
  simp only [h]

theorem endStalledRun_of_none (h : takeRun s core port = none) : endStalledRun s core port = s := by
  unfold endStalledRun
  simp only [h]

/-! ### The start of a run (R92, R93, R195) -/

/-- A flock starts the run of its selected lanes whose clause begins where that of the lowest one does, as far as they see the
words fetched, and their PCs go to the first word to issue. -/
theorem startRun_fetched {a : DWord} {slot : Nat} {tr : Bool} {here run : Mask} {h : Header} {words : List Nat}
    (hf : (issueSelect s k).1.lanes.head?.bind (s.flk k).fibreAt = some f) (hc : clauseAt s f = .at a slot tr)
    (hhere : ∀ l, here.has l = true ↔ l ∈ (issueSelect s k).1.lanes ∧
      ∃ g tr', (s.flk k).fibreAt l = some g ∧ clauseAt s g = .at a slot tr')
    (hfetch : fetchClause (s.modFlk k fun fl => { fl with level8 := false, lag := fl.lag.filter fun l => !here.has l }) f a tr
      = .ok h words u)
    (hrun : ∀ l, run.has l = true ↔ here.has l = true ∧ ∃ g, (u.flk k).fibreAt l = some g ∧
      (g = f ∨ sameView u g a h words = true)) (hw : flagsSet u k run h.wait = true) :
    let r : Run := ⟨(s.flk k).core, k, run, a, h, words, slot, 0⟩
    startRun s k = { u.modFibs (run.lanes.filterMap (u.flk k).fibreAt) (fun x => x.at r.here .within) with
      runs := r :: u.runs } := by
  unfold startRun
  simp only [hf, hc]
  rw [Mask.ofLanes_eq (m := here), hfetch]
  · dsimp only
    rw [Mask.ofLanes_eq (m := run), hw]
    · rfl
    · intro l
      rw [hrun, List.mem_filter, Mask.mem_lanes_iff_has, and_congr_right_iff]
      intro _
      cases (u.flk k).fibreAt l <;> simp
  · intro l
    rw [hhere, List.mem_filter, and_congr_right_iff]
    intro _
    cases (s.flk k).fibreAt l with
    | none => simp
    | some g =>
      rcases hg : clauseAt s g with ⟨b, j, tr'⟩ | b
      · constructor
        · rintro ⟨g', t, e, he⟩
          cases e
          rw [hg] at he
          cases he
          simp [hg]
        · intro he
          obtain ⟨rfl, rfl⟩ : a = b ∧ slot = j := by simpa [hg] using he
          exact ⟨g, tr', rfl, hg⟩
      · simp [hg]

/-! ### Pens and free slots (R262, R272) -/

theorem le_tabFresh {α : Type} (t : Tab α) (n : Nat) : n ≤ tabFresh t n ∧ ∀ p ∈ t, p.1 < tabFresh t n := by
  induction t generalizing n with
  | nil => exact ⟨Nat.le_refl n, List.forall_mem_nil _⟩
  | cons q t ih =>
    have step : tabFresh (q :: t) n = tabFresh t (if n ≤ q.1 then q.1 + 1 else n) := rfl
    obtain ⟨low, above⟩ := ih (if n ≤ q.1 then q.1 + 1 else n)
    rw [step, List.forall_mem_cons]
    by_cases hq : n ≤ q.1
    · rw [if_pos hq] at low above ⊢
      exact ⟨by omega, by omega, above⟩
    · rw [if_neg hq] at low above ⊢
      exact ⟨low, by omega, above⟩

/-- A table does not hold the key that it gives for a new entry. -/
theorem tabGet_tabFresh {α : Type} (t : Tab α) (n : Nat) : tabGet t (tabFresh t n) = none := by
  refine Option.eq_none_iff_forall_ne_some.2 fun v h => ?_
  exact Nat.lt_irrefl _ ((le_tabFresh t n).2 _ (mem_of_tabGet t _ v h))

/-- Fibres that all move to one place. -/
theorem modFibs_loc (s : State) (fs : List Nat) (p : Loc) (g : Nat) (x : Fibre) (h : tabGet s.fibres g = some x)
    (hg : g ∈ fs) : tabGet (s.modFibs fs fun y => { y with loc := p }).fibres g = some { x with loc := p } := by
  have key : ∀ (fs : List Nat) (s : State) (x : Fibre), tabGet s.fibres g = some x → (g ∈ fs ∨ x.loc = p) →
      tabGet (s.modFibs fs fun y => { y with loc := p }).fibres g = some { x with loc := p } := by
    intro fs
    induction fs with
    | nil =>
      rintro s x h hp
      obtain rfl := hp.resolve_left (List.not_mem_nil)
      exact h
    | cons f fs ih =>
      intro s x h hp
      have get : tabGet (s.modFib f fun y => { y with loc := p }).fibres g
          = if f = g then some { x with loc := p } else some x := by
        rw [State.modFib_fibres, tabGet_tabMod, h]
        rfl
      by_cases hf : f = g
      · rw [if_pos hf] at get
        exact ih _ { x with loc := p } get (.inr rfl)
      · rw [if_neg hf] at get
        exact ih _ x get (hp.imp_left fun hm => (List.mem_cons.1 hm).resolve_left (Ne.symm hf))
  exact key fs s x h (.inl hg)

section FormFlock
variable (s : State) (core team role : Nat) (lanes : List (Option Nat)) (slot : Option Nat) (su : List DWord)

theorem formFlock_flock : tabGet (formFlock s core team role lanes slot su).2.flocks (tabFresh s.flocks 0)
    = some { Flock.blank with core := core, slot := slot, team := team, role := role, lanes := lanes, su := su } := by
  simp only [formFlock, State.modFibs_flocks, tabGet_tabPut, if_pos]

theorem formFlock_mem : (formFlock s core team role lanes slot su).2.mem = s.mem := by simp only [formFlock, State.modFibs_mem]

theorem formFlock_core (c : Nat) : (formFlock s core team role lanes slot su).2.core c = s.core c := by
  simp only [formFlock, State.modFibs_core]
  rfl

variable {s core team role lanes slot su}

/-- A fibre on a lane of the new flock is placed in it. -/
theorem formFlock_fibre {g : Nat} {x : Fibre} (hx : tabGet s.fibres g = some x) (hg : some g ∈ lanes) :
    tabGet (formFlock s core team role lanes slot su).2.fibres g = some { x with loc := .flock (tabFresh s.flocks 0) } :=
  modFibs_loc _ _ _ g x hx (List.mem_filterMap.2 ⟨some g, hg, rfl⟩)

end FormFlock

theorem undefinedSu_core (c : Nat) : (undefinedSu s).2.core c = s.core c := rfl

/-- The flock that a draw forms of the pens' fibres, with its slot. -/
theorem penDraw_forms {p : PenEntry} (hp : penChoice (noteEligible s) core = some p)
    (hold : (freeSlot (noteEligible s) core).isSome → oldestClaim (noteEligible s) core p.filed = true)
    (hs : makeSlot (noteEligible s) core = some (n, u)) :
    let drawn := penDrawn u core p
    let taken := u.modCore core fun c => { c with pens := c.pens.filter fun q => !drawn.contains (some q.fibre) }
    exec (.penDraw core) s = .next (formFlock (undefinedSu taken).2 core (u.fib p.fibre).team (u.fib p.fibre).role drawn
      (some n) (undefinedSu taken).1).2 := by
  have free : ((freeSlot (noteEligible s) core).isSome && !oldestClaim (noteEligible s) core p.filed) = false := by
    cases hf : (freeSlot (noteEligible s) core).isSome with
    | false => rfl
    | true => simp [hold hf]
  show execPenDraw core s = _
  unfold execPenDraw
  simp only [hp, free, hs, Bool.false_eq_true, if_false]

/-- Settles O45: each event is the change that its operation makes, where the test before it holds. -/
theorem issueEvents : Obligations.IssueEvents := by
  intro s core port k lane f n e p placed
  refine ⟨fun r u => endStalledRun_of_run, endStalledRun_of_none, ?start, rfl, rfl, ?unchosen, ?saved, ?lag, ?aged, ?restore,
    ?overdue, ?draw⟩
  case start =>
    intro a slot tr here run u h words sel s0 hk hf hc hhere hfetch hrun hw
    have started := startRun_fetched hf hc hhere hfetch hrun hw
    have kept := Still.modFibs u (run.lanes.filterMap (u.flk k).fibreAt)
      (fun x => x.at (Run.here ⟨(p.flk k).core, k, run, a, h, words, slot, 0⟩) .within) fun _ => rfl
    refine ⟨startRun p k, ?_, ?_⟩
    · show execRunStart core port s = _
      unfold execRunStart
      simp only [show portChoice (endStalledRun (noteEligible s) core port) core port = some k from hk]
      rfl
    · rw [started]
      refine ⟨rfl, kept.rest, ?_, ?_, ?_, kept.fibre⟩ <;> simp
  case unchosen => exact fun h => congrArg Host.Outcome.next (if_pos h)
  case saved => exact fun h => congrArg Host.Outcome.next (if_pos h)
  case lag =>
    intro hl hs ho hn hg hr
    show execLagLimit k lane s = _
    unfold execLagLimit
    simp only [hl]
    have idle : (s.runs.any fun r => r.flock = k && r.lanes.has lane) = false := by
      rw [List.any_eq_false]
      intro r hm
      by_cases hk : r.flock = k
      · simp [hr r hm hk]
      · simp [hk]
    rw [if_neg (by simp [idle, Option.isSome_iff_ne_none.1 hs, ho, hn, hg])]
  case aged =>
    refine ⟨_, rfl, fun c hc => ?_, rfl, rfl, ?_⟩
    · rw [State.modCore_core, if_neg (Ne.symm hc)]
    · rw [State.modCore_core, if_pos rfl]
      intro q hq hf
      obtain ⟨q', -, rfl⟩ := List.mem_map.1 hq
      by_cases h : q'.fibre = f
      · exact congrArg PenEntry.aged (if_pos h)
      · exact absurd (congrArg PenEntry.fibre (if_neg h) ▸ hf) h
  case restore =>
    intro age ha ho hn
    show execFlockRestore k s = _
    unfold execFlockRestore
    simp only [e] at ha ho hn
    simp only [ha, ho, hn, Option.isSome_some, if_true, Option.map_some]
    rfl
  case overdue =>
    intro u ha ho hf hm
    obtain ⟨age, ha⟩ := Option.isSome_iff_exists.1 ha
    show execFlockRestore k s = _
    unfold execFlockRestore
    simp only [e] at ha ho hf hm
    simp only [ha, ho, hf, hm, Option.isSome_none, Bool.false_eq_true, if_false, if_true]
    rfl
  case draw =>
    intro p u hp hold hm
    refine ⟨_, tabFresh u.flocks 0, _, penDraw_forms hp hold hm, tabGet_tabFresh _ _, formFlock_flock .., rfl, rfl, rfl, rfl,
      rfl, formFlock_mem .., fun q hq => ?_, fun g x hg hx => formFlock_fibre (lanes := penDrawn u core p) hx hg⟩
    rw [formFlock_core, undefinedSu_core, State.modCore_core, if_pos rfl] at hq
    simpa using (List.mem_filter.1 hq).2

end Machine
end Sys2Proof
end

section
/-! PROOFS. Taking an effect: what its capture leaves in the header, what its entry leaves in the fibre, and the words that
raise one. -/

namespace Sys2Proof.Machine

variable {s t u v : State} {r : Run} {i : Instr} {f frame : Nat} {e : Eff}

/-! ### Numbers in memory -/

/-- A number read apart from one that was written. -/
theorem num_putNum_apart {k n a m x : Nat} (h : k + n ≤ a ∨ a + m ≤ k) : (s.putNum a m x).num k n = s.num k n :=
  num_congr k n fun _ _ => byte_putNum_outside s a m x _ (by omega)

theorem num_modFib (g : Fibre → Fibre) (k n : Nat) : (s.modFib f g).num k n = s.num k n :=
  num_congr k n fun _ _ => rfl

theorem num_touchSeg (c a k n : Nat) : (touchSeg s c a).num k n = s.num k n :=
  num_congr k n fun _ _ => rfl

/-! ### The capture (R287, R291) -/

theorem acquireRegs_none : acquireRegs s f (fun _ => false) = .ok s := by
  simp only [acquireRegs, List.filter_false, List.isEmpty_nil, if_true]

/-- A capture without registers, once it has drained the fibre's stores, leaves its header at the slot that it takes. -/
theorem captureSegments_header {rpc h : DWord} {k : Pck} {rvd : Option Nat}
    (hc : captureSegments s f frame e rpc k rvd false = .ok (some h, t)) :
    ∃ a u, drainAt s f .device e.wb = .ok u ∧ h = handleOf t a ∧
      t.num a 1 = 1 ∧
      t.num (a + 1) 1 = ((if rvd.isSome then 1 else 0) + (if e.next then 0 else 4) + k.code * 8 +
        (if (s.fib f).arrived then 32 else 0)) % 2 ^ 8 ∧
      t.num (a + 4) 2 = e.eid % 2 ^ 16 ∧ t.num (a + 8) 8 = e.val.toNat ∧
      t.num (a + 0x10) 8 = rpc.toNat ∧ t.num (a + 0x18) 8 = (s.fib f).top.toNat ∧
      t.num (a + 0x20) 8 = frame % 2 ^ 64 ∧ t.num (a + 0x28) 8 = (s.fib f).hch.toNat ∧ t.num (a + 0x30) 8 = 0 ∧
      t.num (a + 0x38) 8 = ((u.fib f).vst + rvd.getD 0 * 2 ^ 56) % 2 ^ 64 := by
  unfold captureSegments at hc
  simp only [Bool.false_eq_true, if_false] at hc
  split at hc
  · cases hc
  obtain ⟨u, hd, hc⟩ := Res.bind_eq_ok hc
  rw [acquireRegs_none, Res.bind_ok] at hc
  cases ht : takeHeader u (s.ctxOf f) with
  | none =>
    rw [ht] at hc
    cases hc
  | some q =>
    obtain ⟨a, v⟩ := q
    simp only [ht, Res.ok.injEq, Prod.mk.injEq, Option.some.injEq] at hc
    obtain ⟨rfl, rfl⟩ := hc
    refine ⟨a, u, hd, rfl, ?_⟩
    simp (disch := omega) only [writeImage, List.foldl_cons, List.foldl_nil, num_putNum_apart, num_putNum, num_modFib,
      num_touchSeg, List.headD_nil, Nat.add_zero]
    exact ⟨rfl, trivial, trivial, Nat.mod_eq_of_lt e.val.isLt, Nat.mod_eq_of_lt rpc.isLt, Nat.mod_eq_of_lt (BitVec.isLt _),
      trivial, Nat.mod_eq_of_lt (BitVec.isLt _), rfl, trivial⟩

/-! ### The entry (R284) -/

theorem highWord_append_lowWord (v : DWord) : highWord v ++ lowWord v = v := by
  refine BitVec.eq_of_getLsbD_eq fun k hk => ?_
  rw [BitVec.getLsbD_append]
  split
  · next h => rw [lowWord, BitVec.getLsbD_setWidth, decide_eq_true h, Bool.true_and]
  · next h => rw [highWord, BitVec.getLsbD_setWidth, BitVec.getLsbD_ushiftRight, decide_eq_true (by omega), Bool.true_and,
      Nat.add_sub_cancel' (by omega)]

/-- The registers of a fibre that a handler's entry has written: the handle, the value and the identifier. -/
theorem entry_reg {x : Fibre} {ent : Nat} (h v : DWord) (w : Word) (room : ent + 5 ≤ x.regs.length) (m : Nat) :
    (((x.setPair ent h).setPair (ent + 2) v).setReg (ent + 4) w).reg m =
      if ent + 4 = m then w else if ent + 2 = m then lowWord v else if ent + 3 = m then highWord v
      else if ent = m then lowWord h else if ent + 1 = m then highWord h else x.reg m := by
  rw [Fibre.setReg_reg _ _ _ _ (by simp; omega), Fibre.setPair_reg _ _ _ _ (by simp; omega),
    Fibre.setPair_reg _ _ _ _ (by omega)]

/-- The fibre that enters a handler whose registers lie in its allocation. -/
theorem enterHandler_fibre (h : DWord) {x : Fibre} (hx : tabGet s.fibres f = some x) (hl : x.regs.length = x.alloc)
    (room : s.segEnt frame + 5 ≤ x.alloc) : ∃ y, tabGet (enterHandler s f frame h e).fibres f = some y ∧
      y.reg (s.segEnt frame + 1) ++ y.reg (s.segEnt frame) = h ∧
      y.reg (s.segEnt frame + 3) ++ y.reg (s.segEnt frame + 2) = e.val ∧
      y.reg (s.segEnt frame + 4) = BitVec.ofNat 32 e.eid ∧
      (∀ n, n < s.segEnt frame ∨ s.segEnt frame + 5 ≤ n → y.reg n = x.reg n) ∧
      y.top = BitVec.ofNat 64 (s.segPrev frame) ∧ y.hch = BitVec.ofNat 64 (s.segHlink frame) ∧
      y.pc = BitVec.ofNat 64 (s.segHpc frame) &&& ~~~7 ∧ y.pck = .transfer ∧ y.preds = x.preds ∧ y.fpm = x.fpm ∧
      y.cy = x.cy ∧ y.vst = x.vst := by
  have reg := entry_reg h e.val (word e.eid) (hl ▸ room)
  rw [enterHandler, State.modFib_fibres, tabGet_tabMod, if_pos rfl, hx, Option.map_some]
  refine ⟨_, rfl, ?_, ?_, ?_, fun n hn => ?_, rfl, rfl, rfl, rfl, rfl, rfl, rfl, rfl⟩
  · refine Eq.trans ?_ (highWord_append_lowWord h)
    exact congrArg₂ _ ((reg _).trans (by simp)) ((reg _).trans (by simp))
  · refine Eq.trans ?_ (highWord_append_lowWord e.val)
    exact congrArg₂ _ ((reg _).trans (by simp)) ((reg _).trans (by simp))
  · exact (reg _).trans (if_pos rfl)
  · refine (reg n).trans ?_
    rw [if_neg (by omega), if_neg (by omega), if_neg (by omega), if_neg (by omega), if_neg (by omega)]

theorem enterHandler_other (h : DWord) {g : Nat} (hg : g ≠ f) :
    tabGet (enterHandler s f frame h e).fibres g = tabGet s.fibres g := by
  rw [enterHandler, State.modFib_fibres, tabGet_tabMod, if_neg hg.symm]

/-! ### Raising an effect (R284) -/

section RaiseFrom
variable {n : Nat} (hp : ¬ (e.eid = 0x11 ∧ s.plOf f ≠ 0)) (hs : searched s f e.eid = .ok u)
  (hf : handlerSearch u f e.eid ≠ 0)
include hp hs hf

/-- Where an entry register lies outside the allocation, ILLEGAL 0x0A takes the effect's place. -/
theorem raiseFrom_noRoom (room : (u.fib f).alloc < u.segEnt (handlerSearch u f e.eid) + 5) :
    raiseFrom (n + 1) s f e = raiseFrom n u f (illegal 0x0A) := by
  rw [raiseFrom, if_neg (by simpa using hp), hs, Res.bind_ok]
  simp only [if_neg hf]
  exact if_pos (Nat.lt_succ_iff.1 room)

/-- A captured effect enters the handler of its frame. -/
theorem raiseFrom_enters {h : DWord} (room : u.segEnt (handlerSearch u f e.eid) + 4 < (u.fib f).alloc)
    (hc : captureFor u f (handlerSearch u f e.eid) e = .ok (some h, t)) :
    raiseFrom (n + 1) s f e = .ok (.entered, enterHandler t f (handlerSearch u f e.eid) h e) := by
  rw [raiseFrom, if_neg (by simpa using hp), hs, Res.bind_ok]
  simp only [if_neg hf, if_neg (Nat.not_le_of_lt room), hc]

end RaiseFrom

/-! ### An issue of which a lane raises -/

theorem byLane_one {l : Nat} (hl : l < 8) : byLane [(l, f, e)] = [(l, f, e)] := by
  interval_cases l <;> rfl

theorem endRun_fibres (s : State) : (endRun s).fibres = s.fibres := by
  unfold endRun
  split <;> rfl

theorem endRun_alive (s : State) (alive : Bool) :
    let t := if (!alive) = true then s else endRun s
    Still s t ∧ t.fibres = s.fibres := by
  cases alive
  · exact ⟨Still.refl s, rfl⟩
  · exact ⟨endRun_still s, endRun_fibres s⟩

/-- The masks of R285 after a watch that may have restarted. -/
theorem settleMasks_rewatched (u : State) (k : Nat) (ent clr : Mask) (p : Prop) [Decidable p] :
    let t := settleMasks (if p then u else u.modFlk k fun fl => { fl with watch := 0 }) k ent clr
    Still (settleMasks u k ent clr) t ∧ t.fibres = u.fibres := by
  split
  · exact ⟨Still.refl _, rfl⟩
  · rw [settleMasks_watch]
    exact ⟨Still.modFlk _ _ _ fun _ _ => rfl, rfl⟩

/-- An issue whose raises have entered their handlers leaves the masks of R285, and its run ends. -/
theorem settle_entered (s0 : State) (ends : Bool) {o : Outs} {q : List (Nat × Nat × Eff)} {ent : Mask}
    (hs : o.stalled = false) (hr : o.raises.isEmpty = false)
    (ht : takeEffects o (byLane o.raises) = ⟨u, q, [], ent, 0, 0, false⟩) :
    Still (settleMasks u r.flock ent 0) (settle s0 r ends o) ∧ (settle s0 r ends o).fibres = u.fibres := by
  have noEvent : (List.range 8).flatMap (fun _ => ([] : List (Nat × Nat × Nat × DWord))) = [] := by simp
  have noStop : ∀ (s : State) (k : Nat) (m : Mask), stopLanes s k m [] = s := fun _ _ _ => rfl
  unfold settle
  simp only [hs, ht, hr, Bool.false_eq_true, if_false, Bool.false_or, Bool.false_and, List.filter_nil, noEvent, noStop, ne_eq,
    not_true_eq_false, decide_false, Bool.not_false, if_true]
  obtain ⟨still, fibres⟩ := settleMasks_rewatched u r.flock ent 0 (r.lanes &&& ~~~Mask.ofLanes
    ((o.raises.filter fun x => x.2.2.perf.isNone).map (·.1) ++ ([] : List (Nat × Nat × Nat × DWord)).map (·.1)) = 0)
  obtain ⟨ended, same⟩ := endRun_alive (settleMasks _ r.flock ent 0) _
  exact ⟨still.trans ended, same.trans fibres⟩

theorem quiet_bad (l : Nat) (hp : e.eid ≠ 0x11) (hf : e.fills = []) (hh : e.host = false) :
    (quiet s).add r l f (.bad e) = ⟨s, [(l, f, e)], [], 0, 0, 0, false⟩ := by
  have same : s.afterFailure f e = s := by
    simp only [State.afterFailure, hf, hh, Bool.false_eq_true, if_false]
    rfl
  simp only [Outs.add, same, hp, decide_false, Bool.false_and, Bool.false_eq_true, if_false, List.nil_append]

/-- The one lane of an issue whose word raises a hardware effect, of a team that has not ended, enters the handler. -/
theorem perLane_alone_enters (body : Mask → State → Nat → Nat → Res (Adv × State)) (hW : Whole s r i.guard f [])
    (hb : body (guardMask s r i.guard) s f (s.fib f).home = .bad e) (hp : e.eid ≠ 0x11) (hf : e.fills = [])
    (hh : e.host = false) (hs : (s.tm (s.fib f).team).status = none)
    (ht : takeEffect (s.modFib f fun x => { x with scStart := none }) f e = .ok (.entered, u)) :
    ∃ t, perLane i s body = .next t ∧ Still (settleMasks u r.flock (Mask.one (s.fib f).home) 0) t ∧
      t.fibres = u.fibres := by
  refine ⟨_, perLane_alone_eq i body hW, ?_⟩
  rw [hb, quiet_bad _ hp hf hh]
  obtain ⟨l, x, hl, -, hx, hhome⟩ := hW.alone_lane
  have lane : (s.fib f).home < 8 := by
    rw [State.fib_eq s f x hx, hhome]
    exact ((Mask.mem_lanes _ _).1 (hl ▸ List.mem_singleton_self l)).1
  refine settle_entered s i.endsClause rfl rfl (q := [((s.fib f).home, f, e)]) ?_
  simp only [byLane_one lane, takeEffects, hx, hs, ht, Option.isNone_some, Option.isSome_none, Bool.or_self,
    Bool.false_eq_true, if_false]
  rw [show (0 : Mask) ||| Mask.one (s.fib f).home = _ from BitVec.zero_or]

/-! ### Division by zero (R139) -/

theorem enabledOf_iz {w : Word} (h : w.getLsbD 9 = true) : enabledOf w cIZ ≠ 0 := by
  intro h0
  have bit : (enabledOf w cIZ).testBit 5 = w.toNat.testBit 9 := by
    rw [enabledOf]
    show (cIZ &&& bitsOf w.toNat 4 6).testBit 5 = _
    rw [Nat.testBit_and, bitsOf, Nat.testBit_mod_two_pow, Nat.testBit_div_two_pow]
    rfl
  rw [h0, Nat.zero_testBit] at bit
  exact Bool.false_ne_true (bit.trans h)

/-- A lane that divides by zero with FPM.EIZ set raises ARITH. -/
theorem divLane_bad {o : Bin} {n : Word → Word → Word} {z : Word → Word} (hr : RegsReady i (s.fib f))
    (hd : (o.d.toNat, 1) ∈ laneSpans i) (ha : ∀ q ∈ srcSpan 1 o.a, q ∈ laneSpans i)
    (hb : ∀ q ∈ srcSpan 1 o.b, q ∈ laneSpans i)
    (h0 : s.op32 (s.fib f) o.b = 0) (he : (s.fib f).fpm.getLsbD 9 = true) :
    ((need32 (s.fib f) o.d).bind fun _ => (src32 s f o.a).bind fun a => (src32 s f o.b).bind fun b =>
      if b = 0 then withConds s f cIZ fun s => put32 s f o.d (z a) else .ok (.next, put32 s f o.d (n a b)))
    = .bad (effArith 0x20) := by
  rw [hr.word hd, Res.bind_ok, src32_ready hr o.a ha, Res.bind_ok, src32_ready hr o.b hb, Res.bind_ok, if_pos h0, withConds,
    if_pos (enabledOf_iz he)]
  rfl

/-- A division by zero of a lane alone in its run, where a frame takes the effect. -/
theorem divLane_enters {o : Bin} {n : Word → Word → Word} {z : Word → Word} {s0 : State} {h : DWord}
    (hx : exec i s = divLane i o s n z) (spans : laneSpans i = binSpans o 1 1) (hW : Whole s r i.guard f [])
    (hr : RegsReady i (s.fib f)) (ud : o.ud = false) (h0 : s.op32 (s.fib f) o.b = 0)
    (he : (s.fib f).fpm.getLsbD 9 = true) (status : (s.tm (s.fib f).team).status = none)
    (hs : searched (s.modFib f fun x => { x with scStart := none }) f 0x20 = .ok s0) (hf : handlerSearch s0 f 0x20 ≠ 0)
    (room : s0.segEnt (handlerSearch s0 f 0x20) + 4 < (s0.fib f).alloc)
    (hc : captureSegments s0 f (handlerSearch s0 f 0x20) (effArith 0x20) (s0.fib f).pc (s0.fib f).pck none true
      = .ok (some h, t)) :
    let v := enterHandler t f (handlerSearch s0 f 0x20) h (effArith 0x20)
    ∃ t, exec i s = .next t ∧ Still (settleMasks v r.flock (Mask.one (s.fib f).home) 0) t ∧ t.fibres = v.fibres := by
  have entered := raiseFrom_enters (e := effArith 0x20) (n := (s.modFib f fun x => { x with scStart := none }).chainFuel + 3)
    (fun p => absurd p.1 (by decide)) hs hf room hc
  rw [hx]
  exact perLane_alone_enters _ hW (divLane_bad hr (by simp [spans, binSpans, dstSpan, ud])
    (by simp +contextual [spans, binSpans]) (by simp +contextual [spans, binSpans]) h0 he) (by decide) rfl rfl status entered

/-! ### Words below their level (R280) -/

theorem noteEligible_absent {k : Nat} (h : tabGet s.flocks k = none) : tabGet (noteEligible s).flocks k = none := by
  refine Option.eq_none_iff_forall_ne_some.2 fun fl hk => ?_
  have key := List.mem_map_of_mem (f := Prod.fst) (mem_of_tabGet _ _ _ hk)
  rw [noteEligible_keys, List.mem_map] at key
  obtain ⟨⟨_, fl'⟩, hm, rfl⟩ := key
  exact tabGet_ne_none _ _ fl' hm h

/-- The look before a turn leaves every flock in its team. -/
theorem noteEligible_team (s : State) (k : Nat) : ((noteEligible s).flk k).team = (s.flk k).team := by
  simp only [State.flk, tabGetD]
  cases h : tabGet s.flocks k with
  | none => rw [noteEligible_absent h]
  | some fl =>
    obtain ⟨a, b, h'⟩ := noteEligible_flock s k fl h
    rw [h']
    rfl

theorem noteEligible_tm (s : State) (n : Nat) : (noteEligible s).tm n = s.tm n := by
  rw [noteEligible_eta]
  rfl

theorem wordFault_level {w : Nat} (hc : Home.permitted r.hdr.cls i.home = true)
    (he : i.endsClause = true → r.idx = r.hdr.count) (hu : i.uniformInRange = true) (hs : fselWithoutFt i w = false)
    (hf : ftBad i r.hdr = false) (hp : (s.tm (s.flk r.flock).team).pl.toNat < i.level) :
    wordFault s r w i = some (actingMask s r i.guard, effPriv (opOf w)) := by
  rw [wordFault, hc, hu, hs, hf]
  simp only [Bool.not_true, Bool.false_eq_true, if_false, Bool.or_self, if_pos hp]
  rw [if_neg]
  simpa using he

/-- Settles O21: the capture, the entry and the replacement of an effect each act on one fibre, and the words that raise one
do so in an issue of their own. -/
theorem effectEntry : Obligations.EffectEntry := by
  refine ⟨fun s t f frame e rpc h k rvd hc => captureSegments_header hc, ?enter, ?noRoom, ?divide, ?level⟩
  case enter =>
    exact fun s f frame h e x hx hl => ⟨enterHandler_fibre h hx hl, fun g hg => enterHandler_other h hg, rfl⟩
  case noRoom => exact fun s s1 n f e hs hp hf room => raiseFrom_noRoom hp hs hf room
  case divide =>
    intro g o u
    constructor
    · rintro s r f v hW hr ⟨h, t, s0, hs, ud, h0, he, hf, status, room, hc, rfl⟩
      exact divLane_enters rfl rfl hW hr ud h0 he status hs hf room hc
    · rintro s r f v hW hr ⟨h, t, s0, hs, ud, h0, he, hf, status, room, hc, rfl⟩
      exact divLane_enters rfl rfl hW hr ud h0 he status hs hf room hc
  case level =>
    intro s r rest w i ha hr hw hd hc he hu hsel hf hp
    subst hw
    rw [step_issues ha hr]
    refine issueWord_fault hd ?_
    refine wordFault_level hc he hu hsel hf ?_
    rwa [noteEligible_tm, noteEligible_team]

end Sys2Proof.Machine
end

section
/-! PROOFS. Segments and frames: what CALLS and HINST push, and what RET.S and HDROP take away. -/

namespace Sys2Proof.Machine

variable {s s1 u v : State} {r : Run} {f a n : Nat} {t : DWord}

theorem needTarget_ok (h : t.toNat < 2 ^ 54) : needTarget t = .ok () := by
  rw [needTarget, Res.guard, if_pos (decide_eq_true (Nat.div_eq_of_lt h))]

theorem needTarget_dword (h : n < 2 ^ 54) : needTarget (dword n) = .ok () := by
  refine needTarget_ok ?_
  rwa [dword, BitVec.toNat_ofNat, Nat.mod_eq_of_lt (by omega)]

/-- A push that finds a segment links it above the fibre's top. (The constant is unfolded before its arguments, so that the
kernel need not evaluate the heap's size to tell the two sides equal.) -/
theorem pushSegment_ok {rpc kind hlink eid ent hpc : Nat} (h : takeSeg s (s.ctxOf f) = some (a, s1)) :
    pushSegment s f rpc kind hlink eid ent hpc =
      .ok (a, (touchSeg (s1.putLink a (s.fib f).top.toNat rpc kind hlink eid ent hpc) (s.fib f).core a).modFib f
        fun x => { x with top := dword a }) := by
  have unfolded : pushSegment = pushSegment := rfl
  conv_rhs at unfolded => delta pushSegment
  rw [unfolded]
  beta_reduce
  rw [h]

/-- A stored RPC leads to its target, and 0 to the header that follows the clause (R106). -/
theorem leaveTo_eq (s : State) (f n : Nat) (r : Run) : leaveTo s f n r = s.modFib f fun x =>
    x.at (if n = 0 then r.after else BitVec.ofNat 64 n &&& ~~~7) (if n = 0 then .sequential else .transfer) := by
  by_cases h : n = 0
  · simp only [leaveTo, if_pos h]
    rfl
  · simp only [leaveTo, if_neg h, setTarget, dword]
    rfl

/-- Settles O18: CALLS pushes one segment and goes to its target, RET.S leaves its segment by the stored RPC and frees it. -/
theorem segmentCalls : Obligations.SegmentCalls := by
  intro g d off
  constructor
  · refine lanewise_of _ _ _ (fun s => @rfl _ (execCalls g d off s)) ?_
    rintro s r _ u l f how v h0 ready ⟨rfl, a, s1, taken, near, rfl⟩
    rw [ready.pair (by simp [laneSpans]), Res.bind_ok, State.run_eq h0, brnTarget_eq, needTarget_ok near, Res.bind_ok,
      pushSegment_ok taken, Res.bind_ok, put64, State.modFib_modFib, setTarget, State.modFib_modFib]
    rfl
  · refine lanewise_of _ _ _ (fun s => @rfl _ (execRetS g s)) ?_
    rintro s r _ u l f how v h0 - ⟨rfl, w, read, kind, near, rfl⟩
    simp only [read, Res.bind_ok, kind, needTarget_dword near, leaveTo_eq, State.modFib_modFib, State.run_eq h0]
    rfl

/-- Settles O20: HINST pushes a frame that heads both chains, HDROP restores both and frees the frame. -/
theorem handlerFrames : Obligations.HandlerFrames := by
  intro g ve k off
  constructor
  · refine lanewise_of _ _ _ (fun s => @rfl _ (execHinst g ve k off s)) ?_
    rintro s r _ u l f how v h0 ready ⟨rfl, a, s1, taken, even, near, rfl⟩
    obtain ⟨room, -, -⟩ := ready.2 (ve.toNat, 5) (by simp [laneSpans])
    simp only [even, if_neg (show ¬ (u.fib f).alloc ≤ ve.toNat + 4 by omega), State.run_eq h0, brnTarget_eq,
      needTarget_ok near, src32_ready ready k (by simp +contextual [laneSpans]), pushSegment_ok taken, Res.bind_ok,
      State.modFib_modFib]
    rfl
  · refine lanewise_of _ _ _ (fun s => @rfl _ (execHdrop g s)) ?_
    rintro s r _ u l f how v h0 - ⟨rfl, w, read, kind, head, rfl⟩
    simp only [read, Res.bind_ok, kind, head, State.run_eq h0, ne_eq, not_true_eq_false, decide_false, Bool.or_self,
      Bool.false_eq_true, if_false]
    by_cases zero : w.segRpc (w.fib f).top.toNat = 0
    · simp only [zero, if_true]
      rfl
    · simp only [zero, if_false]
      rfl

end Sys2Proof.Machine
end

section
/-! PROOFS. The flock instructions: those that only go on, BACKOFF, those that take a fibre out of its flock, and SPAWN. -/

namespace Sys2Proof.Machine

variable {s s1 u v : State} {r : Run} {f n : Nat}

/-! ### Words that only go on -/

/-- A lane that only goes on changes its fibre to itself first. -/
theorem perLane_stays (i : Instr) (s : State) : (perLane i s fun _ u _ _ => .ok (.next, u)) =
    perLane i s fun _ u f _ => .ok (.next, u.modFib f fun x => x) := by
  have same : ∀ (r : Run) (o : Outs) (l f : Nat), o.add r l f (.ok (.next, o.s)) =
      o.add r l f (.ok (.next, o.s.modFib f fun x => x)) := by
    intro r o l f
    simp only [Outs.add, State.modFib_modFib]
    rfl
  unfold perLane
  simp only [foldLanes, same]

theorem completes_stays (i : Instr) (hx : ∀ s, exec i s = perLane i s fun _ u _ _ => .ok (.next, u)) :
    Completes i fun _ x => x :=
  completes_of_body i (fun _ _ u f _ => .ok (.next, u.modFib f fun x => x)) (fun s => (hx s).trans (perLane_stays i s)) _
    fun _ _ _ _ _ _ _ _ _ => rfl

/-! ### BACKOFF (R123) -/

/-- The flock's step after a poll: one more up to 7 where a lane has failed, else 0; it holds the flock off while not 0. -/
def Flock.polled (k : Flock) (failed : Bool) : Flock :=
  let n := if failed then min (k.step + 1) 7 else 0
  { k with step := n, holdoff := decide (n ≠ 0) }

theorem backoff_eq (hI : Issuing s r) (g : Guard) (p : BitVec 4) : exec (.backoff g p) s =
    .next (settle s r true (quiet ((advanceLanes s r (r.lanes &&& ~~~0)).modFlk r.flock fun k =>
      k.polled ((actors s r g).any fun f => (s.fib f).preds.getLsbD p.toNat)))) := by
  obtain ⟨rest, hr⟩ := hI.head
  show execBackoff g p s = _
  unfold execBackoff
  split
  · next h => rw [hr] at h; cases h
  · next q _ h =>
    obtain rfl : r = q := (List.cons.inj (hr.symm.trans h)).1
    rw [hI.actingMask, hI.openOuts]
    rfl

/-- A change of a flock beside lanes that advance. -/
theorem advanceLanes_modFlk_still (s : State) (r : Run) (m : Mask) (k : Nat) (h : Flock → Flock) :
    Still (s.modFlk k h) ((advanceLanes s r m).modFlk k h) := by
  have fibre := (advanceLanes_still s r m).fibre
  rw [advanceLanes_fibres] at fibre ⊢
  exact ⟨rfl, fibre, fun _ => rfl, fun _ => rfl, fun _ => rfl⟩

/-! ### Words by which a fibre leaves its flock (R121, R122) -/

/-- A lane that leaves counts neither as entered nor as resumed, and is not advanced, as one that has moved. -/
theorem LaneChain.left {i : Instr} {pre : State → Run → Nat → State → Prop} {L : List (Nat × Nat)} {ent clr : Mask}
    (h : LaneChain i r (fun s r f how v => how = .moved ∧ pre s r f v) L s u ent clr) :
    LaneChain i r (fun s r f how v => how = .left ∧ pre s r f v) L s u ent clr := by
  induction L generalizing s ent clr with
  | nil => exact h
  | cons p L ih =>
    obtain ⟨ready, how, v, e, c, ⟨rfl, done⟩, rest, he, hc⟩ := h
    exact ⟨ready, .left, v, e, c, ⟨rfl, done⟩, ih rest, he, hc⟩

theorem eachLaneEnds_of_left {i : Instr} {pre : State → Run → Nat → State → Prop}
    (h : Lanewise i fun s r f how v => how = .left ∧ pre s r f v) : EachLaneEnds i pre :=
  fun s r u ent clr hI chain => h s r u ent clr hI chain.left

theorem reform_leaves (g : Guard) : EachLaneEnds (.reform g) fun s r f v => ∃ w, drained s [f] = .ok w ∧
    v = scrambleSu (penFile (leaveFlock (w.modFib f fun x => x.at r.after .sequential) f) f) r.flock := by
  refine eachLaneEnds_of_left (lanewise_of _ _ _ (fun s => @rfl _ (execReform g s)) ?_)
  rintro s r _ u l f how v h0 - ⟨rfl, w, drain, rfl⟩
  rw [drain, Res.bind_ok, State.run_eq h0]
  rfl

theorem exit_leaves (g : Guard) : EachLaneEnds (.exit g) fun s _ f v => ∃ s1 s2, (s.fib f).pending = [] ∧
    exitDrain s f = .ok s1 ∧ exitFolds s1 f = .ok s2 ∧ v = removeFibre s2 f := by
  refine eachLaneEnds_of_left (lanewise_of _ _ _ (fun s => @rfl _ (execExit g s)) ?_)
  rintro s r _ u l f how v - - ⟨rfl, s1, s2, idle, drain, folds, rfl⟩
  simp only [idle, drain, folds, Res.bind_ok]
  rfl

/-! ### SPAWN (R124) -/

/-- SPAWN answers the index of the fibre that it creates, or −1 where it creates none. -/
theorem spawn_answers (g : Guard) (x d : BitVec 8) (off : BitVec 24) :
    EachLane (.spawn g x d off) fun s r f v => ∃ s1 q, (r.here + off.signExtend 64 * 8).toNat < 2 ^ 54 ∧
      drainAt s f .team false = .ok s1 ∧
      spawnOne s1 f (r.here + off.signExtend 64 * 8) (s.op64 (s.fib f) (.v d)) = .ok q ∧
      v = q.2.modFib f fun y => y.setReg x.toNat q.1 := by
  refine lanewise_of _ _ _ (fun s => @rfl _ (execSpawn g x d off s)) ?_
  rintro s r _ u l f how v h0 ready ⟨rfl, s1, q, near, drain, spawn, rfl⟩
  rw [ready.word (by simp [laneSpans]), Res.bind_ok, src64_ready ready _ (by simp [laneSpans, srcSpan]), Res.bind_ok,
    State.run_eq h0, brnTarget_eq, needTarget_ok near, Res.bind_ok, drain, Res.bind_ok, spawn, Res.bind_ok]
  rfl

theorem spawnOne_some {target arg : DWord} {idx k : Nat} (h : spawnFibre s f target arg = .ok (some (idx, k, u))) :
    spawnOne s f target arg = .ok (BitVec.ofNat 32 idx, u) := by
  rw [spawnOne, h]
  rfl

theorem spawnOne_none {target arg : DWord} (h : spawnFibre s f target arg = .ok none) :
    spawnOne s f target arg = .ok (0xFFFFFFFF, s) := by
  rw [spawnOne, h]
  rfl

/-- A chain whose lanes do what a weaker condition says too. -/
theorem LaneChain.mono {i : Instr} {pre pre' : State → Run → Nat → Adv → State → Prop} {L : List (Nat × Nat)}
    {ent clr : Mask} (hp : ∀ s f how v, pre s r f how v → pre' s r f how v) (h : LaneChain i r pre L s u ent clr) :
    LaneChain i r pre' L s u ent clr := by
  induction L generalizing s ent clr with
  | nil => exact h
  | cons p L ih =>
    obtain ⟨ready, how, v, e, c, done, rest, he, hc⟩ := h
    exact ⟨ready, how, v, e, c, hp _ _ _ _ done, ih rest, he, hc⟩

theorem EachLane.mono {i : Instr} {pre pre' : State → Run → Nat → State → Prop} (h : EachLane i pre')
    (hp : ∀ s r f v, pre s r f v → pre' s r f v) : EachLane i pre :=
  fun s r u ent clr hI chain => h s r u ent clr hI (chain.mono fun _ _ _ _ ⟨how, done⟩ => ⟨how, hp _ _ _ _ done⟩)

/-- Settles O19: NOP and ISYNC change nothing, BACKOFF its flock's step, REFORM and EXIT take the fibre out, and SPAWN answers
as its creation does. -/
theorem flockInstructions : Obligations.FlockInstructions := by
  refine ⟨fun g p x d off => ⟨completes_stays _ fun s => @rfl _ (execNop g s),
    completes_stays _ fun s => @rfl _ (execIsync g s), fun s r hI => ?backoff, reform_leaves g, (spawn_answers g x d off).mono ?some, (spawn_answers g x d off).mono ?none⟩,
    exit_leaves⟩
  case backoff =>
    exact ⟨_, backoff_eq hI g p, (advanceLanes_modFlk_still s r _ _ _).trans (settle_still _ _ _ _)⟩
  case some =>
    rintro s r f v ⟨s1, idx, k, u, near, drain, spawn, rfl⟩
    exact ⟨s1, _, near, drain, spawnOne_some spawn, rfl⟩
  case none =>
    rintro s r f v ⟨s1, near, drain, spawn, rfl⟩
    exact ⟨s1, _, near, drain, spawnOne_none spawn, rfl⟩

end Sys2Proof.Machine
end

section
/-! PROOFS. PERF: its lanes raise their effects together, and then take them in turn. -/

namespace Sys2Proof.Machine

variable {s s0 t u v : State} {r : Run} {f n : Nat} {e : Eff}

/-! ### The lanes in order (R35) -/

/-- In a list whose keys rise, the entries below a key stand before those at it. -/
theorem filter_lt_append_filter_eq {β : Type} (n : Nat) {xs : List (Nat × β)} (rising : xs.Pairwise fun x y => x.1 < y.1) :
    xs.filter (fun x => x.1 < n) ++ xs.filter (fun x => x.1 = n) = xs.filter fun x => x.1 < n + 1 := by
  induction xs with
  | nil => rfl
  | cons x xs ih =>
    obtain ⟨above, rising'⟩ := List.pairwise_cons.1 rising
    by_cases hx : x.1 < n
    · simp [hx, hx.ne, hx.le, ih rising']
    · have least : ∀ y ∈ x :: xs, n ≤ y.1 := by
        intro y hy
        rcases List.mem_cons.1 hy with rfl | hy
        · omega
        · have := above y hy
          omega
      rw [List.filter_eq_nil_iff.2 fun y hy => by simpa using least y hy, List.nil_append]
      refine List.filter_congr fun y hy => decide_eq_decide.2 ?_
      have := least y hy
      omega

theorem byLane_rising {raises : List (Nat × Nat × Eff)} (rising : raises.Pairwise fun x y => x.1 < y.1)
    (lanes : ∀ x ∈ raises, x.1 < 8) : byLane raises = raises := by
  have below : ∀ n, (List.range n).flatMap (fun l => raises.filter fun x => x.1 = l) = raises.filter fun x => x.1 < n := by
    intro n
    induction n with
    | zero => simp
    | succ n ih => rw [List.range_succ, List.flatMap_append, ih, List.flatMap_singleton, filter_lt_append_filter_eq n rising]
  rw [byLane, below 8, List.filter_eq_self]
  exact fun x hx => decide_eq_true (lanes x hx)

theorem acting_rising (s : State) (r : Run) (g : Guard) : (s.acting r g).Pairwise fun x y => x.1 < y.1 := by
  refine List.Pairwise.filterMap _ ?_ (List.pairwise_lt_range.filter _)
  intro l l' h x hx y hy
  obtain ⟨f, -, rfl⟩ := Option.map_eq_some_iff.1 hx
  obtain ⟨f', -, rfl⟩ := Option.map_eq_some_iff.1 hy
  exact h

theorem acting_lane {g : Guard} {p : Nat × Nat} (h : p ∈ s.acting r g) : p.1 < 8 := by
  obtain ⟨l, hl, hp⟩ := List.mem_filterMap.1 h
  obtain ⟨f, -, rfl⟩ := Option.map_eq_some_iff.1 hp
  exact ((Mask.mem_lanes _ _).1 hl).1

/-! ### The lanes raise -/

/-- Lanes that all raise leave the state as it is, and their effects behind them. -/
theorem foldLanes_bad (body : State → Nat → Nat → Res (Adv × State)) (eff : Nat → Eff) (L : List Nat)
    (raises : List (Nat × Nat × Eff)) (hb : ∀ l ∈ L, ∀ f, r.fibre s l = some f → body u f l = .bad (eff f) ∧
      (eff f).eid ≠ 0x11 ∧ (eff f).fills = [] ∧ (eff f).host = false) :
    foldLanes s r L body ⟨u, raises, [], 0, 0, 0, false⟩ = ⟨u, raises ++ (L.filterMap fun l => (r.fibre s l).map fun f =>
      (l, f)).map (fun p => (p.1, p.2, eff p.2)), [], 0, 0, 0, false⟩ := by
  induction L generalizing raises with
  | nil => simp [foldLanes]
  | cons l L ih =>
    have rest := ih (hb := fun l' hl' => hb l' (List.mem_cons_of_mem _ hl'))
    rw [foldLanes, List.foldl_cons]
    cases hf : r.fibre s l with
    | none =>
      rw [show (s.flk r.flock).fibreAt l = none from hf, List.filterMap_cons_none (by rw [hf]; rfl)]
      exact rest raises
    | some f =>
      obtain ⟨raised, prot, fills, host⟩ := hb l List.mem_cons_self f hf
      have same : u.afterFailure f (eff f) = u := by
        simp only [State.afterFailure, fills, host, Bool.false_eq_true, if_false]
        rfl
      rw [show (s.flk r.flock).fibreAt l = some f from hf, List.filterMap_cons_some (b := (l, f)) (by rw [hf]; rfl)]
      simp only [Bool.false_eq_true, if_false, raised, Outs.add, same, prot, decide_false, Bool.false_and, List.map_cons]
      refine (rest (raises ++ [(l, f, eff f)])).trans ?_
      rw [List.append_assoc, List.singleton_append]

/-- The effect of a PERF as its lane raises it (R128). -/
def perfEffect (s : State) (r : Run) (d : BitVec 8) (a b : Src) (regs : Bool) (f : Nat) : Eff :=
  let v := s.op64 (s.fib f) b
  { eid := (s.op32 (s.fib f) a).toNat, val := v, next := true, park := some (waitObject s f v),
    perf := some (r.after, d.toNat, regs) }

theorem performable_ne_prot {n : Nat} (h : performable n = true) : n ≠ 0x11 := by
  rintro rfl
  exact absurd h (by decide)

/-- An issue of PERF in which every acting lane names an effect that it may: each raises its own. -/
theorem perf_raises (hI : Issuing s r) (g : Guard) (d : BitVec 8) (a b : Src) (regs : Bool)
    (hs : s0 = advanceLanes s r (r.lanes &&& ~~~guardMask s r g))
    (ready : ∀ p ∈ s.acting r g, RegsReady (.perf g d a b regs) (s0.fib p.2) ∧
      performable (s0.op32 (s0.fib p.2) a).toNat = true) :
    exec (.perf g d a b regs) s = .next (settle s r true
      ⟨s0, (s.acting r g).map fun p => (p.1, p.2, perfEffect s0 r d a b regs p.2), [], 0, 0, 0, false⟩) := by
  show execPerf g d a b regs s = _
  rw [execPerf, perLane_eq hI, hI.openOuts, show (Instr.perf g d a b regs).guard = g from rfl, ← hs]
  refine congrArg (fun o => Host.Outcome.next (settle s r true o))
    ((foldLanes_bad _ (perfEffect s0 r d a b regs) _ [] ?_).trans rfl)
  intro l hl f hf
  obtain ⟨regsReady, named⟩ := ready (l, f) (List.mem_filterMap.2 ⟨l, hl, by rw [hf]; rfl⟩)
  obtain ⟨rest, hr⟩ := hI.head
  refine ⟨?_, performable_ne_prot named, rfl, rfl⟩
  rw [regsReady.pair (by simp [laneSpans]), Res.bind_ok, src32_ready regsReady a (by simp +contextual [laneSpans]),
    Res.bind_ok, src64_ready regsReady b (by simp +contextual [laneSpans]), Res.bind_ok, named,
    State.run_eq (by rw [hr]; rfl)]
  rfl

/-! ### The lanes take their effects (R284, R291, R299) -/

/-- An effect that no frame takes goes to the root handler. -/
theorem raiseFrom_root (hp : ¬ (e.eid = 0x11 ∧ s.plOf f ≠ 0)) (hs : searched s f e.eid = .ok u)
    (hf : handlerSearch u f e.eid = 0) (hr : rootRaise u f e = .ok v) : raiseFrom (n + 1) s f e = .ok (.left, v) := by
  rw [raiseFrom, if_neg (by simpa using hp), hs, Res.bind_ok]
  simp only [if_pos hf, hr]

section Performed
variable {after : DWord} {d : Nat} {regs : Bool} (hp : e.perf = some (after, d, regs)) (hn : e.eid ≠ 0x11)
include hp hn

/-- R128: a performed effect is captured with the next header, the resume-value pair and the R bit, up to the frame that
takes it. -/
theorem takeEffect_perf_enters {h : DWord} (hs : searched s f e.eid = .ok u) (hf : handlerSearch u f e.eid ≠ 0)
    (room : u.segEnt (handlerSearch u f e.eid) + 4 < (u.fib f).alloc)
    (hc : captureSegments u f (handlerSearch u f e.eid) e after .sequential (some d) regs = .ok (some h, t)) :
    takeEffect s f e = .ok (.entered, enterHandler t f (handlerSearch u f e.eid) h e) := by
  refine raiseFrom_enters (fun h => hn h.1) hs hf room ?_
  simp only [captureFor, hp]
  exact hc

/-- R128, R299: one that no frame takes drains its fibre and runs the root handler from the next header. -/
theorem takeEffect_perf_root (hs : searched s f e.eid = .ok u) (hf : handlerSearch u f e.eid = 0)
    (hd : drainAt u f .device false = .ok t)
    (hr : rootHandler (t.modFib f fun x => x.at after .sequential) f e = .ok v) : takeEffect s f e = .ok (.left, v) := by
  refine raiseFrom_root (fun h => hn h.1) hs hf ?_
  simp only [rootRaise, hp, hd, Res.bind_ok]
  exact hr

end Performed

/-- A raising lane is passed over where its fibre has gone or its team has ended. -/
theorem passedOver_iff : ((tabGet s.fibres f).isNone || (s.tm (s.fib f).team).status.isSome) = true ↔
    ¬ ((tabGet s.fibres f).isSome ∧ (s.tm (s.fib f).team).status = none) := by
  cases tabGet s.fibres f <;> cases (s.tm (s.fib f).team).status <;> simp

theorem takeEffects_perfChain {after : DWord} {d : Nat} {regs : Bool} {L q : List (Nat × Nat × Eff)} {ent m : Mask}
    (hL : ∀ x ∈ L, x.2.2.perf = some (after, d, regs) ∧ x.2.2.eid ≠ 0x11) (chain : PerfChain after d regs L s u ent) :
    takeEffects ⟨s, q, [], m, 0, 0, false⟩ L = ⟨u, q, [], m ||| ent, 0, 0, false⟩ := by
  induction L generalizing s ent m with
  | nil =>
    obtain ⟨rfl, rfl⟩ := chain
    simp [takeEffects]
  | cons x L ih =>
    obtain ⟨l, f, e⟩ := x
    obtain ⟨hp, hn⟩ := hL _ List.mem_cons_self
    have performed := fun x hx => hL x (List.mem_cons_of_mem _ hx)
    rcases chain with ⟨gone, chain⟩ | ⟨here, v, k, s0, hs, taken, chain⟩
    · rw [takeEffects, if_pos (passedOver_iff.2 gone)]
      exact ih performed chain
    · rw [takeEffects, if_neg (fun h => passedOver_iff.1 h here)]
      rcases taken with ⟨hf, room, rfl, h, t, hc, rfl⟩ | ⟨hf, rfl, t, hd, hr⟩
      · simp only [takeEffect_perf_enters hp hn hs hf room hc]
        rw [ih performed chain, BitVec.or_assoc]
      · simp only [takeEffect_perf_root hp hn hs hf hd hr]
        exact ih performed chain

/-- An issue whose lanes have raised effects that are then taken without an event or a wait leaves the masks of R285. -/
theorem settle_raised (s0 : State) {raises : List (Nat × Nat × Eff)} {ent : Mask}
    (none : raises = [] → u = s ∧ ent = 0)
    (taken : takeEffects ⟨s, raises, [], 0, 0, 0, false⟩ (byLane raises) = ⟨u, raises, [], ent, 0, 0, false⟩) :
    let t := settle s0 r true ⟨s, raises, [], 0, 0, 0, false⟩
    Still (settleMasks u r.flock ent 0) t ∧ t.fibres = u.fibres := by
  cases raises with
  | nil =>
    obtain ⟨rfl, rfl⟩ := none rfl
    obtain ⟨still, fibres⟩ := settle_masks s0 u r true 0 0
    exact ⟨still, fibres (.inl rfl)⟩
  | cons x raises => exact settle_entered s0 true rfl rfl taken

/-- Settles O22: every acting lane raises its own effect, in lane order, and each is taken as the chain says. -/
theorem performingEffects : Obligations.PerformingEffects := by
  intro g d a b regs s r u ent hI i s0 effect ready chain
  have order : byLane ((s.acting r g).map effect) = (s.acting r g).map effect := by
    refine byLane_rising (List.pairwise_map.2 (acting_rising s r g)) fun x hx => ?_
    obtain ⟨p, hp, rfl⟩ := List.mem_map.1 hx
    exact acting_lane hp
  have taken := takeEffects_perfChain (q := (s.acting r g).map effect) (m := 0) (fun x hx => by
    obtain ⟨p, hp, rfl⟩ := List.mem_map.1 hx
    exact ⟨rfl, performable_ne_prot (ready p hp).2⟩) chain
  rw [show (0 : Mask) ||| ent = ent from BitVec.zero_or] at taken
  refine ⟨_, perf_raises hI g d a b regs rfl ready, settle_raised s (fun none => ?_) ((congrArg _ order).trans taken)⟩
  rw [show (s.acting r g).map effect = [] from none] at chain
  exact chain

end Sys2Proof.Machine
end

section
/-! PROOFS. Instructions on continuations: those that resume one, drop one, read one, and send one. -/

namespace Sys2Proof.Machine

variable {s s1 u v : State} {r : Run} {f p cx : Nat} {h w : DWord}

/-! ### RSM and RSMT (R130, R131) -/

/-- A live, sound continuation whose registers fit is resumed, its links its own where `tail` keeps them. -/
theorem resumeLane_ok {tail : Bool} {xv : DWord} (hs : handleSound s (s.ctxOf f) h = .ok ()) (hc : contSound s p = .ok ())
    (hl : liveHeader s (s.ctxOf f) h = some p) (hn : imageN s p ≤ (s.fib f).alloc)
    (links : tail = true → s.segPrev (s.num (p + 0x20) 8) = (s.fib f).top.toNat ∧
      s.segHlink (s.num (p + 0x20) 8) = (s.fib f).hch.toNat) (hr : resumeReady s f p = .ok u) :
    resumeLane s r f tail h xv = .ok (.resumed, resumeContinuation (if tail then u else
      ((u.putNum (s.num (p + 0x20) 8) 8 (s.fib f).top.toNat).putNum (s.num (p + 0x20) 8 + 8) 8 r.after.toNat).putNum
        (s.num (p + 0x20) 8 + 0x18) 8 (s.fib f).hch.toNat) f p xv) := by
  have linked : (tail && (s.segPrev (s.num (p + 0x20) 8) ≠ (s.fib f).top.toNat ||
      s.segHlink (s.num (p + 0x20) 8) ≠ (s.fib f).hch.toNat)) = false := by
    cases tail with
    | false => rfl
    | true => simp [links rfl]
  simp only [resumeLane, hs, hl, hc, Res.bind_ok, if_neg hn.not_gt, linked, Bool.false_eq_true, if_false, hr]
  rfl

/-- Settles O23: both resume what their handle designates; RSM writes the links of the bottom frame, RSMT finds them. -/
theorem resumption : Obligations.Resumption := by
  intro g a b ready
  constructor
  · refine lanewise_of _ _ _ (fun s => @rfl _ (execRsm g a b s)) ?_
    rintro s r _ u l f how v h0 regs ⟨p, w, rfl, ⟨sound, whole, live, fits, done⟩, rfl⟩
    rw [src64_ready regs a (by simp +contextual [laneSpans]), Res.bind_ok,
      src64_ready regs b (by simp +contextual [laneSpans]), Res.bind_ok, State.run_eq h0]
    exact resumeLane_ok sound whole live fits (fun tail => absurd tail Bool.false_ne_true) done
  · refine lanewise_of _ _ _ (fun s => @rfl _ (execRsmt g a b s)) ?_
    rintro s r _ u l f how v h0 regs ⟨p, w, rfl, ⟨sound, whole, live, fits, done⟩, prev, hlink, rfl⟩
    rw [src64_ready regs a (by simp +contextual [laneSpans]), Res.bind_ok,
      src64_ready regs b (by simp +contextual [laneSpans]), Res.bind_ok, State.run_eq h0]
    exact resumeLane_ok sound whole live fits (fun _ => ⟨prev, hlink⟩) done

/-! ### DROPK (R132) -/

theorem dropk_drops (g : Guard) (a : Src) : EachLane (.dropk g a) fun s _ f v => ∃ p,
    handleSound s (s.ctxOf f) (s.op64 (s.fib f) a) = .ok () ∧
    liveHeader s (s.ctxOf f) (s.op64 (s.fib f) a) = some p ∧ contSound s p = .ok () ∧
    linksSound s (chainSegs s p) = .ok () ∧ v = dropContinuation (touchSegs s f [p]) (s.ctxOf f) p := by
  refine lanewise_of _ _ _ (fun s => @rfl _ (execDropk g a s)) ?_
  rintro s r _ u l f how v - ready ⟨rfl, p, sound, live, whole, links, rfl⟩
  simp only [src64_ready ready a (by simp +contextual [laneSpans]), sound, live, whole, links, Res.bind_ok]

/-! ### KINFO (R134) -/

/-- KINFO writes the value of its selector, of the width of its selector. -/
theorem kinfo_writes (g : Guard) (d : BitVec 8) (sel : KSel) (dbl : Bool) (src : State → Nat → DWord)
    (wide : ∀ s f h, (kinfoValue s f sel h).1 = dbl) (span : (d.toNat, wideCount dbl) ∈ laneSpans (.kinfo g d sel))
    (read : ∀ s f, RegsReady (.kinfo g d sel) (s.fib f) → kselSrc s f sel = .ok (src s f)) :
    EachLane (.kinfo g d sel) fun s0 _ f v => handleSound s0 (s0.ctxOf f) (src s0 f) = .ok () ∧
      let s := touchSegs s0 f (headerOf s0 (s0.ctxOf f) (src s0 f)).toList
      v = s.modFib f fun x => x.setWide dbl d (kinfoValue s f sel (src s0 f)).2 := by
  refine lanewise_of _ _ _ (fun s => @rfl _ (execKinfo g d sel s)) ?_
  rintro s r _ u l f how v - ready ⟨rfl, sound, rfl⟩
  simp only [wide, read u f ready, Res.bind_ok, sound]
  cases dbl with
  | false =>
    rw [show needWide (u.fib f) false d = .ok () from ready.word span, Res.bind_ok]
    rfl
  | true =>
    rw [show needWide (u.fib f) true d = .ok () from ready.pair span, Res.bind_ok]
    rfl

/-- A null handle names no header slot. -/
theorem headerOf_zero (s : State) (cx : Nat) : headerOf s cx 0 = none := by
  simp [headerOf]

theorem handleSound_zero (s : State) (cx : Nat) : handleSound s cx 0 = .ok () := by
  simp [handleSound]

theorem imageN_eq (s : State) (p : Nat) :
    imageN s p = if s.num (p + 1) 1 / 2 % 2 = 1 then s.num (s.num (p + 0x30) 8 + 0x40) 4 % 512 else 0 := by
  simp only [imageN, bitOf, beq_iff_eq, Nat.pow_one]

/-- A selector that reads the header of a live handle, and zero for one that is not live. -/
theorem kinfo_reads (g : Guard) (d : BitVec 8) (a : Src) {sel : KSel} {dbl : Bool} {read : State → Nat → Nat}
    (spans : laneSpans (.kinfo g d sel) = [(d.toNat, wideCount dbl)] ++ srcSpan 2 a)
    (src : ∀ s f, kselSrc s f sel = src64 s f a)
    (value : ∀ s f h, kinfoValue s f sel h = (dbl, dword ((liveHeader s (s.ctxOf f) h).elim 0 (read s)))) :
    EachLane (.kinfo g d sel) fun s0 _ f v => handleSound s0 (s0.ctxOf f) (s0.op64 (s0.fib f) a) = .ok () ∧
      let s := touchSegs s0 f (headerOf s0 (s0.ctxOf f) (s0.op64 (s0.fib f) a)).toList
      v = s.modFib f fun x => x.setWide dbl d
        (BitVec.ofNat 64 ((liveHeader s (s.ctxOf f) (s0.op64 (s0.fib f) a)).elim 0 (read s))) := by
  refine (kinfo_writes g d sel dbl (fun s f => s.op64 (s.fib f) a) (fun s f h => by rw [value]) (by simp [spans])
    fun s f ready => (src s f).trans (src64_ready ready a (by simp +contextual [spans]))).mono ?_
  rintro s - f v ⟨sound, rfl⟩
  simp only [sound, value, true_and]
  rfl

/-- KINFO of .state: 1 for a live header, 2 for one in transit, else 0. -/
theorem kinfoValue_state (s : State) (f : Nat) (a : Src) (h : DWord) : (kinfoValue s f (.state a) h).2 =
    ((headerOf s (s.ctxOf f) h).elim 0 fun p => if s.num p 1 = 1 then 1 else if s.num p 1 = 5 then 2 else 0 : Word).setWidth
      64 := by
  unfold kinfoValue
  cases headerOf s (s.ctxOf f) h with
  | none => rfl
  | some p =>
    simp only [Option.elim_some]
    repeat' split
    all_goals rfl

/-- KINFO of .top: the data address of the fibre's own top segment. -/
theorem kinfo_top (g : Guard) (d : BitVec 8) : EachLane (.kinfo g d .top) fun s _ f v =>
    v = s.modFib f fun x => x.setPair d.toNat ((s.fib f).top + 0x40) := by
  refine (kinfo_writes g d .top true (fun _ _ => 0) (fun _ _ _ => rfl) (by simp [laneSpans, wideCount])
    fun _ _ _ => rfl).mono ?_
  rintro s - f v rfl
  refine ⟨handleSound_zero _ _, ?_⟩
  simp only [headerOf_zero]
  rfl

/-! ### KSEND (R133, R298) -/

/-- KSEND of an aligned delivery word puts its status into D, or marks D as outstanding. -/
theorem ksend_answers (g : Guard) (d : BitVec 8) (a b c : Src) : EachLane (.ksend g d a b c) fun s _ f v => ∃ q,
    (s.op64 (s.fib f) b).toNat % 8 = 0 ∧
    sendOne s f (s.op64 (s.fib f) a) (s.op64 (s.fib f) b) (s.op32 (s.fib f) c).toNat = .ok q ∧
    v = q.1.elim (fun st => q.2.modFib f fun x => x.setReg d.toNat st)
      fun tok => q.2.modFib f fun x => { x with busy := x.busy ++ [(d.toNat, tok)] } := by
  refine lanewise_of _ _ _ (fun s => @rfl _ (execKsend g d a b c s)) ?_
  rintro s r _ u l f how v - ready ⟨rfl, ⟨answer, w⟩, aligned, sent, rfl⟩
  simp only [ready.word (n := d) (by simp [laneSpans]), src64_ready ready a (by simp +contextual [laneSpans]),
    src64_ready ready b (by simp +contextual [laneSpans]), src32_ready ready c (by simp +contextual [laneSpans]), Res.bind_ok,
    aligned, ne_eq, not_true_eq_false, if_false, sent]
  cases answer <;> rfl

section Sent
variable {dev : Nat} (drain : drainAt s f .system false = .ok s1) (sound : handleSound s1 (s1.ctxOf f) h = .ok ())
include drain sound

theorem sendOne_dead (dead : liveHeader s1 (s1.ctxOf f) h = none) : sendOne s f h w dev = .ok (.inl 5, s1) := by
  simp only [sendOne, drain, sound, dead, Res.bind_ok]

variable (live : liveHeader s1 (s1.ctxOf f) h = some p) (whole : contWhole s1 p = .ok ())
include live whole

theorem sendOne_outside (out : dev ∉ s1.launchDevs f) : sendOne s f h w dev = .ok (.inl 1, s1) := by
  simp [sendOne, drain, sound, live, whole, out]

theorem sendOne_local {st : Word} (here : dev = s1.dev.devid) (within : dev ∈ s1.launchDevs f)
    (move : sendLocal s1 f p w = .ok (st, u)) : sendOne s f h w dev = .ok (.inl st, u) := by
  subst here
  simp [sendOne, drain, sound, live, whole, within, move, Res.map]

theorem sendOne_down (away : dev ≠ s1.dev.devid) (within : dev ∈ s1.launchDevs f)
    (down : dev ∈ s1.dev.down ∨ (4, dev) ∈ s1.dev.contained) : sendOne s f h w dev = .ok (.inl 6, s1) := by
  simp [sendOne, drain, sound, live, whole, within, away, down]

theorem sendOne_away (away : dev ≠ s1.dev.devid) (within : dev ∈ s1.launchDevs f) (up : dev ∉ s1.dev.down)
    (free : (4, dev) ∉ s1.dev.contained) : sendOne s f h w dev = .ok (.inr (sendToken p),
      (s1.putNum p 1 5).send (.ksend dev p (sendMessage s1 (s1.ctxOf f) p w))) := by
  simp [sendOne, drain, sound, live, whole, within, away, up, free]

end Sent

/-- Settles O24: DROPK frees, KINFO reads by its selector, and KSEND answers as its one move does in each of its cases. -/
theorem continuationMoves : Obligations.ContinuationMoves := by
  intro g d a b c
  refine ⟨dropk_drops g a, ?fields, ?state, kinfo_top g d, ?_⟩
  case fields =>
    intro sel dbl read listed
    have field : laneSpans (.kinfo g d sel) = [(d.toNat, wideCount dbl)] ++ srcSpan 2 a ∧
        (∀ s f, kselSrc s f sel = src64 s f a) ∧
        ∀ s f h, kinfoValue s f sel h = (dbl, dword ((liveHeader s (s.ctxOf f) h).elim 0 (read s))) := by
      simp only [List.mem_cons, Prod.mk.injEq, List.not_mem_nil, or_false, ← imageN_eq] at listed
      rcases listed with ⟨rfl, rfl, rfl⟩ | ⟨rfl, rfl, rfl⟩ | ⟨rfl, rfl, rfl⟩ | ⟨rfl, rfl, rfl⟩ | ⟨rfl, rfl, rfl⟩
      all_goals
        refine ⟨rfl, fun _ _ => rfl, fun s f h => ?_⟩
        unfold kinfoValue
        cases liveHeader s (s.ctxOf f) h <;> rfl
    obtain ⟨spans, src, value⟩ := field
    refine (kinfo_reads g d a spans src value).mono ?_
    rintro s - f v ⟨n, sound, rfl, rfl⟩
    refine ⟨sound, ?_⟩
    dsimp only
    cases liveHeader _ _ _ <;> rfl
  case state =>
    refine (kinfo_writes g d (.state a) false (fun s f => s.op64 (s.fib f) a) (fun _ _ _ => rfl)
      (by simp [laneSpans, wideCount]) fun s f ready => src64_ready ready a (by simp +contextual [laneSpans])).mono ?_
    rintro s - f v ⟨n, sound, rfl, rfl⟩
    refine ⟨sound, ?_⟩
    generalize touchSegs _ _ _ = t
    simp only [kinfoValue_state, Fibre.setWide, Bool.false_eq_true, if_false,
      BitVec.setWidth_setWidth_of_le _ (show 32 ≤ 64 by decide), BitVec.setWidth_eq]
    cases headerOf t (t.ctxOf f) (s.op64 (s.fib f) a) <;> rfl
  intro sends held
  refine ⟨(ksend_answers g d a b c).mono ?dead, (ksend_answers g d a b c).mono ?outside, (ksend_answers g d a b c).mono ?here,
    (ksend_answers g d a b c).mono ?down, (ksend_answers g d a b c).mono ?away⟩
  case dead =>
    rintro s - f v ⟨s1, ⟨aligned, drain, sound⟩, dead, rfl⟩
    exact ⟨_, aligned, sendOne_dead drain sound dead, rfl⟩
  case outside =>
    rintro s - f v ⟨p, s1, ⟨⟨aligned, drain, sound⟩, live, whole⟩, out, rfl⟩
    exact ⟨_, aligned, sendOne_outside drain sound live whole out, rfl⟩
  case here =>
    rintro s - f v ⟨p, s1, u, st, ⟨⟨aligned, drain, sound⟩, live, whole⟩, here, within, move, rfl⟩
    exact ⟨_, aligned, sendOne_local drain sound live whole here (here ▸ within) move, rfl⟩
  case down =>
    rintro s - f v ⟨p, s1, ⟨⟨aligned, drain, sound⟩, live, whole⟩, away, within, down, rfl⟩
    exact ⟨_, aligned, sendOne_down drain sound live whole away within down, rfl⟩
  case away =>
    rintro s - f v ⟨p, s1, ⟨⟨aligned, drain, sound⟩, live, whole⟩, away, within, up, free, rfl⟩
    exact ⟨_, aligned, sendOne_away drain sound live whole away within up free, rfl⟩

end Sys2Proof.Machine
end

section
/-! PROOFS. The events that end or bound a wait: continuations that arrive or have been sent, parked fibres, fault records,
waiting system events, the watchdog and the limits of stalled instructions. -/

namespace Sys2Proof.Machine

variable {s u v w : State} {f k tok cx : Nat} {m : KMsg} {h : DWord} {st : KStatus}

/-! ### A continuation that arrives (R133, R298) -/

theorem receive_gone (gone : (s.ctx m.ctx).st = .free ∨ (s.ctx m.ctx).st = .torn) :
    exec (.ksendTransferReceive m) s = .next (s.send (.ksendReply m.src m.token 2)) := by
  refine congrArg Host.Outcome.next (if_pos ?_)
  simpa using gone

section Here
variable (free : (s.ctx m.ctx).st ≠ .free) (torn : (s.ctx m.ctx).st ≠ .torn)
include free torn

theorem context_present : (decide ((s.ctx m.ctx).st = .free) || decide ((s.ctx m.ctx).st = .torn)) = false := by
  simp [free, torn]

theorem receive_noRoom (full : receiveContinuation s m = none) :
    exec (.ksendTransferReceive m) s = .next (s.send (.ksendReply m.src m.token 3)) := by
  refine congrArg Host.Outcome.next ?_
  simp only [context_present free torn, full, Bool.false_eq_true, if_false]

variable (laid : receiveContinuation s m = some (h, u))
include laid

theorem receive_delivered {p : Place} (place : translate (withContext u 0 m.ctx 0).2.2 (withContext u 0 m.ctx 0).1 m.delivery
      .store false = .ok (p, v))
    (written : deliver (dropAgent v (withContext u 0 m.ctx 0).1 (withContext u 0 m.ctx 0).2.1) p.key
      (natOfBytes ((m.hdrBytes.drop 0x38).take 7)) h = some w) :
    exec (.ksendTransferReceive m) s = .next (w.send (.ksendReply m.src m.token 0)) := by
  refine congrArg Host.Outcome.next ?_
  simp only [context_present free torn, laid, place, written, Bool.false_eq_true, if_false]

theorem receive_waits (place : translate (withContext u 0 m.ctx 0).2.2 (withContext u 0 m.ctx 0).1 m.delivery .store false
      = .wait) : exec (.ksendTransferReceive m) s = .next s := by
  refine congrArg Host.Outcome.next ?_
  simp only [context_present free torn, laid, place, Bool.false_eq_true, if_false]

theorem receive_badWord {e : Eff} (place : translate (withContext u 0 m.ctx 0).2.2 (withContext u 0 m.ctx 0).1 m.delivery
      .store false = .bad e) : exec (.ksendTransferReceive m) s = .next (s.send (.ksendReply m.src m.token 4)) := by
  refine congrArg Host.Outcome.next ?_
  simp only [context_present free torn, laid, place, Bool.false_eq_true, if_false]

theorem receive_event {c : Nat} {x : DWord} (place : translate (withContext u 0 m.ctx 0).2.2 (withContext u 0 m.ctx 0).1
      m.delivery .store false = .sys c x) : exec (.ksendTransferReceive m) s =
    .next (s.send (.ksendReply m.src m.token (if c = 2 then 6 else 4))) := by
  have status : (deliveryStatus c).toNat = if c = 2 then 6 else 4 := by
    unfold deliveryStatus
    split <;> rfl
  refine congrArg Host.Outcome.next ?_
  simp only [context_present free torn, laid, place, status, Bool.false_eq_true, if_false]

end Here

/-! ### A send that ends (R133) -/

/-- A fibre whose send has ended holds the status in every register that it marks as outstanding. -/
def Fibre.answered (x : Fibre) (tok : Nat) (st : KStatus) : Fibre :=
  x.busy.foldl (fun y b => if b.2 = tok then y.setReg b.1 (BitVec.ofNat 32 st) else y) x

theorem ksendComplete_transit (here : headerCtx s tok = some cx) (transit : s.byte tok = 5) :
    let u := State.finishTok { s with fibres := s.fibres.map fun p => (p.1, p.2.answered (sendToken tok) st) } (sendToken tok)
    exec (.ksendComplete tok st) s = .next (if st = 0 then (dropContinuation u cx tok).putNum tok 1 6
      else if st = 5 then u else u.putNum tok 1 1) := by
  refine congrArg Host.Outcome.next ?_
  unfold completeSend
  simp only [here, transit, ne_eq, not_true_eq_false, if_false]
  rfl

/-! ### Fibres parked on an entry (R438) -/

theorem bindDue_bind {ea : DWord} {reg : Nat} (due : (s.fib f).loc = .parked (.bind ea reg)) :
    bindDue s f = bindEntry s f ea reg := by
  unfold bindDue
  rw [due]

theorem bindDue_other (none : ∀ ea reg, (s.fib f).loc ≠ .parked (.bind ea reg)) : bindDue s f = s := by
  unfold bindDue
  split
  · next h => exact absurd h (none _ _)
  · rfl

theorem bindWake_bind {ea : DWord} {reg : Nat} (due : (s.fib f).loc = .parked (.bind ea reg)) :
    exec (.bindWake f) s = .next (bindEntry s f ea reg) := by
  rw [← bindDue_bind due]
  refine congrArg Host.Outcome.next ?_
  rw [due]

theorem bindWake_entry {key reg : Nat} {ea : DWord} (parked : (s.fib f).loc = .parked (.entry key ea reg)) :
    exec (.bindWake f) s = .next (bindDue (serveBind s (s.ctxOf f) ea) f) := by
  refine congrArg Host.Outcome.next ?_
  rw [parked]

/-! ### Waiting events and the watchdog (R303, R458) -/

section Delivery
variable {e : SysEvent} {rest : List SysEvent} (waits : s.events = e :: rest) (flock : (tabGet s.flocks e.flock).isSome)
include waits flock

theorem systemEventDelivery_opens {key : Nat} (free : s.freeWindow (s.tm (s.flk e.flock).team).ctx = some key) :
    let w0 := e.words.getD 0 0 ||| BitVec.ofNat 64 (key % 16 * 2 ^ 8)
    let u := startService { s with events := [], windows := tabPut s.windows key ⟨e.flock, setAt e.words 0 w0⟩ }
      (key / 16) (key % 16) e.cls
    exec .systemEventDelivery s = .next { u with events := u.events ++ rest } := by
  have window : State.freeWindow { s with events := [] } (State.tm { s with events := [] }
      (State.flk { s with events := [] } e.flock).team).ctx = some key := free
  have found : (tabGet s.flocks e.flock).isNone = false := by
    rw [Option.isNone_eq_false_iff]
    exact flock
  show execSystemEventDelivery s = _
  unfold execSystemEventDelivery
  simp only [waits, found, free, Option.isNone_some, Bool.false_eq_true, if_false, openWindow, List.isEmpty_nil, if_true,
    window]
  rfl

theorem systemEventDelivery_waits (full : s.freeWindow (s.tm (s.flk e.flock).team).ctx = none) :
    exec .systemEventDelivery s = .next s := by
  have found : (tabGet s.flocks e.flock).isNone = false := by
    rw [Option.isNone_eq_false_iff]
    exact flock
  show execSystemEventDelivery s = _
  unfold execSystemEventDelivery
  simp only [waits, found, full, Option.isNone_none, Bool.false_eq_true, if_false, if_true]

end Delivery

theorem ne_zero_of_lowest {m : Mask} {l : Nat} (h : m.lanes.head? = some l) : m ≠ 0 := by
  rintro rfl
  exact absurd h (by decide +revert)

theorem watchdogExpiry_stops {l : Nat} (runs : (s.flk k).stopped = false) (here : (s.tm (s.flk k).team).vacated = false)
    (reached : s.dev.wdt ≤ (s.flk k).watch) (low : (s.flk k).unfrozen.lanes.head? = some l)
    (fibre : (s.flk k).fibreAt l = some f) : exec (.watchdogExpiry k) s = .next (stopFlock { s with
      runs := s.runs.filter fun r => r.flock ≠ k } k 3 (s.flk k).unfrozen f 0 (BitVec.ofNat 64 (s.dev.wdt % 2 ^ 40))) := by
  have unfrozen : (s.flk k).unfrozen ≠ 0#8 := ne_zero_of_lowest low
  have watched : (s.flk k).watched s = true := by simp [Flock.watched, runs, here, unfrozen]
  refine congrArg Host.Outcome.next ?_
  simp only [watched, reached.not_gt, low, fibre, Option.bind_some, Option.getD_some, Bool.not_true, Bool.false_or, decide_false,
    Bool.false_eq_true, if_false]
  rfl

/-! ### The limits of stalled instructions (R192, R204, R237) -/

theorem limitRun_issues {body : Instr → Run → Mask → State → Nat → Res (Adv × State)} {sel : Instr → Bool} {r : Run}
    {i : Instr} (stalled : stalledAt s k = some (r, i, v)) (reads : issueReads v r i = some u) (hit : sel i = true) :
    limitRun s k body sel = settle u r i.endsClause (foldLanes u r (actingMask u r i.guard).lanes
      (fun s f _ => body i r (actingMask u r i.guard) s f) (openOuts u r (actingMask u r i.guard))) := by
  unfold limitRun
  simp only [stalled, hit, reads, Bool.not_true, Bool.false_eq_true, if_false]

/-- Settles O48: each event is the change that its operation makes, where what it waits for has come. -/
theorem waitEvents : Obligations.WaitEvents := by
  intro s f k tok idx st m
  refine ⟨receive_gone, receive_noRoom, fun h u p v w free torn laid => receive_delivered free torn laid,
    fun h u free torn laid => ⟨receive_waits free torn laid, fun e => receive_badWord free torn laid,
      fun c x => receive_event free torn laid⟩, fun cx => ksendComplete_transit, ?parked, fun ea reg => bindWake_bind, ?entry,
    rfl, ?event, fun l => watchdogExpiry_stops, ?limits⟩
  case parked => exact fun due => congrArg Host.Outcome.next (if_pos due)
  case entry =>
    intro key ea reg parked u
    rw [bindWake_entry parked]
    exact ⟨fun v w due => congrArg _ (bindDue_bind due), fun none => congrArg _ (bindDue_other none)⟩
  case event =>
    exact fun e rest waits flock => ⟨fun key => systemEventDelivery_opens waits flock, systemEventDelivery_waits waits flock⟩
  case limits =>
    intro r i v u stalled reads g issues
    exact ⟨fun hit => congrArg _ (limitRun_issues stalled reads hit),
      fun hit => congrArg _ (limitRun_issues stalled reads hit), congrArg _ (limitRun_issues stalled reads rfl)⟩

end Sys2Proof.Machine
end

section
/-! PROOFS. Saturating sums and differences, products, and shifts by any amount. -/

namespace Sys2Proof.Machine

/-! ### Saturation and products (R138) -/

/-- The unsigned clamp of a value that is not negative only bounds it above. -/
theorem clampUnsigned_natCast (n : Nat) : clampUnsigned n = BitVec.ofNat 32 (min (2 ^ 32 - 1) n) := by
  have h : max 0 (min 4294967295 (n : Int)) = (min (2 ^ 32 - 1) n : Nat) := by omega
  rw [clampUnsigned, h, BitVec.ofInt_natCast]

/-- A difference of two operands is below the unsigned maximum, so the clamp only bounds it below. -/
theorem clampUnsigned_sub (a b : Word) :
    clampUnsigned ((a.toNat : Int) - (b.toNat : Int)) = BitVec.ofNat 32 (a.toNat - b.toNat) := by
  have h : max 0 (min 4294967295 ((a.toNat : Int) - (b.toNat : Int))) = (a.toNat - b.toNat : Nat) := by
    have := a.isLt
    omega
  rw [clampUnsigned, h, BitVec.ofInt_natCast]

/-- R138: the low bits of a product do not depend on how the operands' signs are read. -/
theorem mul_eq_ofNat (a b : Word) : a * b = BitVec.ofNat 32 (a.toNat * b.toNat) := by
  rw [BitVec.ofNat_mul, BitVec.ofNat_toNat, BitVec.ofNat_toNat, BitVec.setWidth_eq, BitVec.setWidth_eq]

theorem mul_eq_ofInt (a b : Word) : a * b = BitVec.ofInt 32 (a.toInt * b.toInt) := by
  rw [BitVec.ofInt_mul, BitVec.ofInt_toInt, BitVec.ofInt_toInt]

theorem mad_eq_ofNat (a b c : Word) : a * b + c = BitVec.ofNat 32 (a.toNat * b.toNat + c.toNat) := by
  rw [BitVec.ofNat_add, ← mul_eq_ofNat, BitVec.ofNat_toNat, BitVec.setWidth_eq]

theorem mad_eq_ofInt (a b c : Word) : a * b + c = BitVec.ofInt 32 (a.toInt * b.toInt + c.toInt) := by
  rw [BitVec.ofInt_add, ← mul_eq_ofInt, BitVec.ofInt_toInt]

/-- Settles O2: the clamps of the exact sum and difference are those of R138, and the ring operations of a word are those of
the exact values modulo 2^32, whichever way the operands are read. -/
theorem saturation : Obligations.Saturation := by
  intro g o t
  have mul := computes2_of (.mul g o) o (· * ·) (fun _ => rfl) rfl
  have mad := computes3_of (.mad g t) t (fun a b c => a * b + c) (fun _ => rfl) rfl
  refine ⟨computes2_of _ o _ (fun _ => rfl) rfl, ?addUs, computes2_of _ o _ (fun _ => rfl) rfl, ?subUs,
    by simpa only [mul_eq_ofNat] using mul, by simpa only [mul_eq_ofInt] using mul,
    by simpa only [mad_eq_ofNat] using mad, by simpa only [mad_eq_ofInt] using mad⟩
  case addUs =>
    simp only [← clampUnsigned_natCast, Nat.cast_add]
    exact computes2_of _ o _ (fun _ => rfl) rfl
  case subUs =>
    simp only [← clampUnsigned_sub]
    exact computes2_of _ o _ (fun _ => rfl) rfl

/-! ### Shifts by any amount (R140, R143) -/

/-- A shift by the width or more leaves copies of the sign. -/
theorem sarBits_eq {n : Nat} (a : BitVec n) (k : Nat) :
    sarBits a k = if n ≤ k then (if a.getLsbD (n - 1) then BitVec.allOnes n else 0) else a.sshiftRight k := by
  rw [sarBits, ← BitVec.msb_eq_getLsbD_last]
  split
  · next h =>
    rw [show k.min n = n from Nat.min_eq_right h]
    refine BitVec.eq_of_getLsbD_eq fun i hi => ?_
    rw [BitVec.getLsbD_sshiftRight, if_neg (by omega)]
    split <;> simp_all
  · next h => rw [show k.min n = k from Nat.min_eq_left (Nat.le_of_not_le h)]

/-- Settles O3: the model's shifts test the amount against the width as R140 does. -/
theorem shiftAmounts : Obligations.ShiftAmounts := by
  intro g o
  refine ⟨computes2_of _ o _ (fun _ => rfl) rfl, computes2_of _ o _ (fun _ => rfl) rfl, ?sar,
    computes2_of _ o _ (fun _ => rfl) rfl⟩
  case sar =>
    have sar := computes2_of (.sar g o) o (fun a b => sarBits a b.toNat) (fun _ => rfl) rfl
    simp only [sarBits_eq] at sar
    exact sar

end Sys2Proof.Machine
end

section
/-! PROOFS. Fields of bits: BFX and BFI, and the slots of PACK and UNPK. -/

namespace Sys2Proof.Machine

/-! ### Fields of bits (R141, R155) -/

/-- A field of `w` ones from bit `p` on. -/
theorem getLsbD_fieldMask (n w p k : Nat) : (BitVec.ofNat n ((2 ^ w - 1) * 2 ^ p)).getLsbD k =
    (decide (k < n) && decide (p ≤ k ∧ k < p + w)) := by
  rw [BitVec.getLsbD_ofNat, Nat.testBit_mul_two_pow, Nat.testBit_two_pow_sub_one, ← Bool.decide_and]
  congr 2
  rw [eq_iff_iff]
  omega

/-- The field of `w` bits of a word from bit `p` on, as a word: sign- or zero-extended. -/
def fieldOf (a : Word) (p w : Nat) (sgn : Bool) : Word :=
  if sgn then (a.extractLsb' p w).signExtend 32 else (a.extractLsb' p w).setWidth 32

/-- Bit by bit: bits above bit 31 of the word read as zero, and an empty field has no sign. -/
theorem fieldOf_bits (a : Word) (p w : Nat) (sgn : Bool) : fieldOf a p w sgn =
    wordOfBits fun k => if k < w then a.getLsbD (p + k) else sgn && decide (0 < w) && a.getLsbD (p + w - 1) := by
  refine BitVec.eq_of_getLsbD_eq fun k hk => ?_
  rw [getLsbD_wordOfBits]
  cases sgn with
  | false => by_cases h : k < w <;> simp [fieldOf, hk, h]
  | true =>
    rw [fieldOf, if_pos rfl, BitVec.getLsbD_signExtend, BitVec.msb_eq_getLsbD_last]
    simp only [BitVec.getLsbD_extractLsb', Bool.true_and]
    by_cases h : k < w
    · simp [h]
    · rcases Nat.eq_zero_or_pos w with rfl | pos
      · simp
      · simp [h, pos, Nat.add_sub_assoc pos]

theorem fieldOf_false (a : Word) (p w : Nat) : fieldOf a p w false = BitVec.ofNat 32 (bitsOf a.toNat p w) := by
  refine BitVec.eq_of_toNat_eq ?_
  simp [fieldOf, bitsOf, Nat.shiftRight_eq_div_pow]

/-- The sign of a field is its top bit. -/
theorem fieldOf_true (a : Word) (p w : Nat) : fieldOf a p w true =
    if 2 ^ (w - 1) ≤ bitsOf a.toNat p w then BitVec.ofInt 32 ((bitsOf a.toNat p w : Nat) - 2 ^ w)
    else BitVec.ofNat 32 (bitsOf a.toNat p w) := by
  have value : (a.extractLsb' p w).toNat = bitsOf a.toNat p w := by
    rw [BitVec.extractLsb'_toNat, Nat.shiftRight_eq_div_pow, bitsOf]
  rw [fieldOf, if_pos rfl, BitVec.signExtend, BitVec.toInt_eq_msb_cond, BitVec.msb_eq_decide, value, ← BitVec.ofInt_natCast]
  simp only [decide_eq_true_eq]
  split
  · norm_cast
  · rfl

theorem bfxWord_eq (sgn : Bool) (a b : Word) : bfxWord sgn a b = fieldOf a (fieldPos b) (fieldWidth b) sgn := by
  cases sgn with
  | false => rw [fieldOf_false]; rfl
  | true =>
    rw [fieldOf_true]
    by_cases top : 2 ^ (fieldWidth b - 1) ≤ a.toNat / 2 ^ fieldPos b % 2 ^ fieldWidth b
    · have pos : 0 < fieldWidth b := by
        by_contra h0
        simp [Nat.eq_zero_of_not_pos h0, Nat.mod_one] at top
      simp only [bfxWord, bitsOf, top, pos, decide_true, Bool.true_and, if_true]
    · simp only [bfxWord, bitsOf, top, decide_false, Bool.and_false, Bool.false_eq_true, if_false]

theorem fieldPos_eq (b : Word) : fieldPos b = b.toNat % 32 := by
  rw [fieldPos, bitsOf, Nat.pow_zero, Nat.div_one]
  rfl

/-- Bits of one word, or of another inside a field. -/
theorem bfiWord_bits (a b c : Word) : bfiWord a b c = wordOfBits fun k =>
    if fieldPos b ≤ k ∧ k < fieldPos b + fieldWidth b then a.getLsbD (k - fieldPos b) else c.getLsbD k := by
  refine BitVec.eq_of_getLsbD_eq fun k hk => ?_
  have wide : k < 64 := by omega
  simp only [getLsbD_wordOfBits, bfiWord, lowWord, dword, BitVec.getLsbD_setWidth, BitVec.getLsbD_or, BitVec.getLsbD_and,
    BitVec.getLsbD_not, BitVec.getLsbD_shiftLeft, getLsbD_fieldMask, hk, wide, decide_true, Bool.true_and]
  by_cases h : fieldPos b ≤ k ∧ k < fieldPos b + fieldWidth b
  · simp [h, show k - fieldPos b < 64 by omega]
  · simp [h]

/-- Settles O4: BFX takes a field of its operand, BFI puts one in place of the bits of another word. -/
theorem bitFields : Obligations.BitFields := by
  intro g o t sgn
  constructor
  · have bfx := computes2_of (.bfx g o sgn) o (fun a b => bfxWord sgn a b) (fun _ => rfl) rfl
    simp only [bfxWord_eq, fieldOf_bits, fieldPos_eq] at bfx
    exact bfx
  · have bfi := computes3_of (.bfi g t) t (fun a b c => bfiWord a b c) (fun _ => rfl) rfl
    simp only [bfiWord_bits, fieldPos_eq] at bfi
    exact bfi

/-! ### Slots (R155) -/

/-- The slots that R155 admits lie within a word. -/
theorem slot_inside {w : SlotW} {j : BitVec 3} (h : j.toNat < (match w with | .e4 => 8 | .e6 => 4 | .e8 => 4 | .e16 => 2)) :
    0 < slotBits w ∧ slotBits w * j.toNat + slotBits w ≤ 32 := by
  cases w <;> simp only [slotBits] at h ⊢ <;> omega

theorem packWord_bits (w : SlotW) (j : Nat) (a c : Word) (h : slotBits w * j < 32) : packWord w j a c =
    wordOfBits fun k => if slotBits w * j ≤ k ∧ k < slotBits w * j + slotBits w then a.getLsbD (k - slotBits w * j)
      else c.getLsbD k := by
  refine BitVec.eq_of_getLsbD_eq fun k hk => ?_
  simp only [getLsbD_wordOfBits, packWord, word, shlBits, if_neg h.not_ge, BitVec.getLsbD_or, BitVec.getLsbD_and,
    BitVec.getLsbD_not, BitVec.getLsbD_shiftLeft, getLsbD_fieldMask, hk, decide_true, Bool.true_and]
  by_cases h : slotBits w * j ≤ k ∧ k < slotBits w * j + slotBits w
  · simp [h]
  · simp [h]

/-- The top bit of a field, as arithmetic. -/
theorem bitOf_top {v n : Nat} (hn : 0 < n) (hv : v < 2 ^ n) : bitOf v (n - 1) = decide (2 ^ (n - 1) ≤ v) := by
  have half : 2 ^ (n - 1) * 2 = 2 ^ n := Nat.two_pow_pred_mul_two hn
  have low : v / 2 ^ (n - 1) < 2 := Nat.div_lt_of_lt_mul (by omega)
  have top : 1 ≤ v / 2 ^ (n - 1) ↔ 2 ^ (n - 1) ≤ v := by
    rw [Nat.le_div_iff_mul_le (Nat.two_pow_pos _), Nat.one_mul]
  rw [bitOf, Nat.mod_eq_of_lt low, Bool.eq_iff_iff, beq_iff_eq, decide_eq_true_eq, ← top]
  omega

theorem unpackWord_eq (w : SlotW) (j : Nat) (sgn : Bool) (a : Word) (hw : 0 < slotBits w) :
    unpackWord w j sgn a = fieldOf a (slotBits w * j) (slotBits w) sgn := by
  cases sgn with
  | false => rw [fieldOf_false]; rfl
  | true =>
    have small : bitsOf a.toNat (slotBits w * j) (slotBits w) < 2 ^ slotBits w := Nat.mod_lt _ (Nat.two_pow_pos _)
    simp only [fieldOf_true, unpackWord, signedOf, if_true, Nat.mod_eq_of_lt small, bitOf_top hw small, hw.ne', ne_eq,
      not_false_eq_true, decide_true, Bool.true_and, decide_eq_true_eq]
    split
    · rfl
    · exact BitVec.ofInt_natCast 32 _

theorem unpackWord_bits (w : SlotW) (j : Nat) (sgn : Bool) (a : Word) (hw : 0 < slotBits w) : unpackWord w j sgn a =
    wordOfBits fun k => a.getLsbD (slotBits w * j + if k < slotBits w then k else slotBits w - 1)
      && (sgn || decide (k < slotBits w)) := by
  rw [unpackWord_eq w j sgn a hw, fieldOf_bits]
  congr 1
  funext k
  by_cases h : k < slotBits w
  · simp [h]
  · simp [h, hw, Nat.add_sub_assoc hw, Bool.and_comm]

theorem writesWord_pack (g : Guard) (d : BitVec 8) (a c : Src) (w : SlotW) (j : BitVec 3) :
    WritesWord (.pack g d a c w j) d fun s x => packWord w j.toNat (s.op32 x a) (s.op32 x c) := by
  have hm : laneSpans (.pack g d a c w j) = (d.toNat, 1) :: (srcSpan 1 a ++ srcSpan 1 c) := rfl
  refine writesWord_of _ d (fun _ s f => (src32 s f a).bind fun x => (src32 s f c).bind fun y =>
    .ok (packWord w j.toNat x y)) (fun _ => rfl) _ (by simp [hm]) ?_
  intro s r f x F _ hr h
  rw [src32_eq h hr a (by intro q hq; simp [hm, hq]), Res.bind_ok, src32_eq h hr c (by intro q hq; simp [hm, hq]),
    Res.bind_ok]

theorem writesWord_unpk (g : Guard) (d : BitVec 8) (a : Src) (w : SlotW) (j : BitVec 3) (sgn : Bool) :
    WritesWord (.unpk g d a w j sgn) d fun s x => unpackWord w j.toNat sgn (s.op32 x a) := by
  have hm : laneSpans (.unpk g d a w j sgn) = (d.toNat, 1) :: srcSpan 1 a := rfl
  refine writesWord_of _ d (fun _ s f => (src32 s f a).bind fun x => .ok (unpackWord w j.toNat sgn x)) (fun _ => rfl) _
    (by simp [hm]) ?_
  intro s r f x F _ hr h
  rw [src32_eq h hr a (by intro q hq; simp [hm, hq]), Res.bind_ok]

/-- Settles O13: PACK puts a field in the place of a slot, UNPK takes one; the slots that R155 admits lie within a word. -/
theorem packUnpack : Obligations.PackUnpack := by
  intro g d a c w j sgn admitted
  obtain ⟨pos, inside⟩ := slot_inside admitted
  constructor
  · have pack := writesWord_pack g d a c w j
    simp only [packWord_bits w j.toNat _ _ (by omega : slotBits w * j.toNat < 32)] at pack
    exact pack
  · have unpk := writesWord_unpk g d a w j sgn
    simp only [unpackWord_bits w j.toNat sgn _ pos] at unpk
    exact unpk

end Sys2Proof.Machine
end

section
/-! PROOFS. Division: its values, and its one condition. -/

namespace Sys2Proof.Machine

/-! ### Division (R139) -/

theorem divWord_eq (u : Bool) (a b : Word) : divWord u a b =
    if u then BitVec.ofNat 32 (a.toNat / b.toNat) else BitVec.ofInt 32 (a.toInt.tdiv b.toInt) := by
  rw [divWord, ← BitVec.toNat_udiv, BitVec.ofNat_toNat, BitVec.setWidth_eq]

theorem remWord_eq (u : Bool) (a b : Word) : remWord u a b =
    if u then BitVec.ofNat 32 (a.toNat % b.toNat) else BitVec.ofInt 32 (a.toInt.tmod b.toInt) := by
  rw [remWord, ← BitVec.toNat_umod, BitVec.ofNat_toNat, BitVec.setWidth_eq]

/-- The condition that a division raises: integer divide by zero, which has no sticky bit (R29). -/
def divCond (b : Word) : Nat := if b = 0 then cIZ else 0

theorem divCond_sticky (fpm b : Word) : stickyFpm fpm (divCond b) = fpm :=
  stickyFpm_none fpm (by unfold divCond; split <;> rfl)

/-- R29: FPM.EIZ is bit 9. -/
theorem enabledOf_divCond {fpm b : Word} (h : b = 0 → fpm.getLsbD 9 = false) : enabledOf fpm (divCond b) = 0 := by
  by_cases hb : b = 0
  · have eiz : (bitsOf fpm.toNat 4 6).testBit 5 = fpm.getLsbD 9 := by
      rw [bitsOf, Nat.testBit_mod_two_pow, Nat.testBit_div_two_pow]
      rfl
    rw [divCond, if_pos hb]
    calc Nat.land (2 ^ 5) (bitsOf fpm.toNat 4 6) = 2 ^ 5 * ((bitsOf fpm.toNat 4 6).testBit 5).toNat := Nat.two_pow_and _ 5
      _ = 0 := by rw [eiz, h hb]; rfl
  · rw [divCond, if_neg hb]
    exact Nat.zero_and _

/-- A result without a condition is only written. -/
theorem withConds_zero (s : State) (f : Nat) (write : State → State) : withConds s f 0 write = .ok (.next, write s) := by
  have none : enabledOf (s.fib f).fpm 0 = 0 := Nat.zero_and _
  simp only [withConds, none, ne_eq, not_true_eq_false, if_false, Nat.zero_mod, if_true]

/-- A division whose zero divisor raises nothing writes the table's value on every acting lane. -/
theorem divLane_completes (i : Instr) (o : Bin) (fn : Word → Word → Word) (zero : Word → Word)
    (hx : ∀ s, exec i s = divLane i o s fn zero) (hs : laneSpans i = binSpans o 1 1) (ho : o.ud = false) (s : State) (r : Run)
    (hI : Issuing s r) (hR : ∀ f ∈ actors s r i.guard, RegsReady i (s.fib f) ∧
      (s.op32 (s.fib f) o.b = 0 → (s.fib f).fpm.getLsbD 9 = false)) :
    ∃ t, exec i s = .next t ∧ Still (s.withFibres (actors s r i.guard) fun _ x => x.setReg o.d.toNat
      (if s.op32 x o.b = 0 then zero (s.op32 x o.a) else fn (s.op32 x o.a) (s.op32 x o.b))) t := by
  have hm : laneSpans i = (o.d.toNat, 1) :: (srcSpan 1 o.a ++ srcSpan 1 o.b) := by rw [hs]; simp [binSpans, dstSpan, ho]
  obtain ⟨t, ht, still, -⟩ := withConds_completes i _ hx (fun s x => divCond (s.op32 x o.b))
    (fun s x y => y.setReg o.d.toNat
      (if s.op32 x o.b = 0 then zero (s.op32 x o.a) else fn (s.op32 x o.a) (s.op32 x o.b)))
    (fun s r f x F _ hr h3 => by
      rw [State.fib_eq _ f x h3, hr.word (by simp [hm]), Res.bind_ok, src32_eq h3 hr o.a (by intro q hq; simp [hm, hq]),
        Res.bind_ok, src32_eq h3 hr o.b (by intro q hq; simp [hm, hq]), Res.bind_ok]
      by_cases hb : s.op32 x o.b = 0
      · simp only [hb, divCond, if_true]
        rfl
      · simp only [hb, divCond, if_false, withConds_zero]
        rfl)
    s r hI fun f hf => ⟨(hR f hf).1, enabledOf_divCond (hR f hf).2⟩
  simp only [divCond_sticky] at still
  exact ⟨t, ht, still⟩

/-- Settles O5: both divisions are the same lane instruction, with the quotient and the remainder of R139. -/
theorem division : Obligations.Division := by
  intro g o u s r hI hR ho
  have div := divLane_completes (.div g o u) o (fun a b => divWord u a b) (fun _ => 0xFFFFFFFF) (fun _ => rfl) rfl ho s r hI hR
  have rem := divLane_completes (.rem g o u) o (fun a b => remWord u a b) (fun a => a) (fun _ => rfl) rfl ho s r hI hR
  simp only [divWord_eq] at div
  simp only [remWord_eq] at rem
  exact ⟨div, rem⟩

end Sys2Proof.Machine
end

section
/-! PROOFS. Comparisons and the predicate instructions. -/

namespace Sys2Proof.Machine

/-! ### Comparisons and predicates (R142, R156) -/

/-- A comparison is the order of the operands, signed or unsigned. -/
theorem compareInt_eq_holds {n : Nat} (c : Cond) (u : Bool) (a b : BitVec n) : compareInt c u a b = holdsCond c u a b := by
  have le := compareInt_le u a b
  have ge := (compareInt_ge u a b).trans (compareInt_le u b a)
  cases c with
  | eq => rfl
  | ne => exact (decide_not (p := a = b)).symm
  | lt => cases u <;> rfl
  | le => exact le
  | gt =>
    have gt : compareInt .gt u a b = !compareInt .le u a b := rfl
    rw [gt, le, Bool.eq_iff_iff]
    cases u <;> simp [holdsCond]
  | ge => exact ge

/-- A comparison of two 32-bit or two 64-bit sources, and of a source and the immediate. -/
theorem writesPred_icmp (g : Guard) (p : BitVec 4) (a b : Src) (c : Cond) (u : Bool) (m : Comb) :
    WritesPred (.icmp g p a b c u m) p fun s x =>
      joined m (x.preds.getLsbD p.toNat) (holdsCond c u (s.op32 x a) (s.op32 x b)) := by
  have hm : laneSpans (.icmp g p a b c u m) = srcSpan 1 a ++ srcSpan 1 b := rfl
  refine writesPred_of _ p _ (fun _ => rfl) _ ?_
  intro s r f x F _ hr hx
  rw [src32_eq hx hr a (by intro q hq; simp [hm, hq]), Res.bind_ok, src32_eq hx hr b (by intro q hq; simp [hm, hq]),
    Res.bind_ok, State.fib_eq _ f x hx, compareInt_eq_holds]
  rfl

theorem writesPred_icmpd (g : Guard) (p : BitVec 4) (a b : Src) (c : Cond) (u : Bool) (m : Comb) :
    WritesPred (.icmpd g p a b c u m) p fun s x =>
      joined m (x.preds.getLsbD p.toNat) (holdsCond c u (s.op64 x a) (s.op64 x b)) := by
  have hm : laneSpans (.icmpd g p a b c u m) = srcSpan 2 a ++ srcSpan 2 b := rfl
  refine writesPred_of _ p _ (fun _ => rfl) _ ?_
  intro s r f x F _ hr hx
  rw [src64_eq hx hr a (by intro q hq; simp [hm, hq]), Res.bind_ok, src64_eq hx hr b (by intro q hq; simp [hm, hq]),
    Res.bind_ok, State.fib_eq _ f x hx, compareInt_eq_holds]
  rfl

/-- A predicate of one 32-bit source. -/
theorem writesPred_src32 (i : Instr) (p : BitVec 4) (a : Src) (fn : Fibre → Word → Bool)
    (hx : ∀ s, exec i s = lanePred i p s fun s f => (src32 s f a).bind fun v => .ok (fn (s.fib f) v))
    (hs : laneSpans i = srcSpan 1 a) : WritesPred i p fun s x => fn x (s.op32 x a) := by
  refine writesPred_of i p _ hx _ ?_
  intro s r f x F _ hr h
  rw [src32_eq h hr a (by intro q hq; simp [hs, hq]), Res.bind_ok, State.fib_eq _ f x h]

/-- A predicate of the fibre's predicates. -/
theorem writesPred_preds (i : Instr) (p : BitVec 4) (fn : Fibre → Bool)
    (hx : ∀ s, exec i s = lanePred i p s fun s f => .ok (fn (s.fib f))) : WritesPred i p fun _ x => fn x := by
  refine writesPred_of i p _ hx _ ?_
  intro s r f x F _ _ h
  rw [State.fib_eq _ f x h]

theorem psetTest_eq (z : Bool) (v : Word) : (if z then v == 0 else v != 0) = (decide (v ≠ 0) != z) := by
  rw [Bool.eq_iff_iff]
  cases z <;> simp

/-- Settles O6: the comparisons find what R142 orders, and each predicate instruction reads its own fibre only. -/
theorem predicateResults : Obligations.PredicateResults := by
  intro g p q w a b imm c u na nb z m
  refine ⟨writesPred_icmp g p a b c u m, writesPred_icmpd g p a b c u m, ?icmpi,
    writesPred_preds _ p _ fun _ => rfl, writesPred_preds _ p _ fun _ => rfl, writesPred_preds _ p _ fun _ => rfl,
    writesPred_preds _ p _ fun _ => rfl, ?pset⟩
  case icmpi =>
    have icmpi := writesPred_src32 (.icmpi g p a imm c u m) p a (fun x v =>
      combine m (x.pred p.toNat) (compareInt c u v (imm32 imm))) (fun _ => rfl) rfl
    simp only [compareInt_eq_holds] at icmpi
    exact icmpi
  case pset =>
    have pset := writesPred_src32 (.pset g p a z) p a (fun _ v => if z then v == 0 else v != 0) (fun _ => rfl) rfl
    simp only [psetTest_eq] at pset
    exact pset

end Sys2Proof.Machine
end

section
/-! PROOFS. The pair group, the immediate group and address formation. -/

namespace Sys2Proof.Machine

/-! ### The pair group (R143) -/

theorem writesPair_movd (g : Guard) (u : Un) (hu : u.ud = false) :
    WritesPair (.movd g u) u.d fun s x => s.op64 x u.a := by
  have hm : laneSpans (.movd g u) = (u.d.toNat, 2) :: srcSpan 2 u.a := by
    show unSpans u 2 = _
    simp [unSpans, dstSpan, hu]
  refine writesPair_of _ u.d (fun _ s f => src64 s f u.a) (fun s => ?_) _ (by simp [hm]) ?_
  · show execMovd g u s = _
    rw [execMovd, hu]
    rfl
  · intro s r f x F _ hr h
    rw [src64_eq h hr u.a (by intro q hq; simp [hm, hq])]

theorem writesUniform_movd (g : Guard) (u : Un) (hu : u.ud = true) :
    WritesUniform (.movd g u) u.d fun s x => s.uniform x u.a.num := by
  refine writesUniform_of _ u.d (fun _ s f => uni64 s f u.a) (fun s => ?_) _ fun s r f F _ h => sreg_table s F f _ h
  show execMovd g u s = _
  rw [execMovd, hu]
  rfl

/-- Settles O7: each instruction applies one 64-bit function to its operands, in both forms. -/
theorem pairArithmetic : Obligations.PairArithmetic := by
  intro g o u
  refine ⟨computesPair_of _ o _ (fun _ => rfl) rfl, computesPairBy_of _ o _ (fun _ => rfl) rfl,
    computesPairBy_of _ o _ (fun _ => rfl) rfl, computesPair_of _ o _ (fun _ => rfl) rfl,
    computesPairBy_of _ o _ (fun _ => rfl) rfl, computesPairBy_of _ o _ (fun _ => rfl) rfl,
    computesPair_of _ o _ (fun _ => rfl) rfl, computesPairBy_of _ o _ (fun _ => rfl) rfl,
    computesPairBy_of _ o _ (fun _ => rfl) rfl, ?sard, writesPair_movd g u, writesUniform_movd g u,
    computesPair_of _ o _ (fun _ => rfl) rfl, computesPair_of _ o _ (fun _ => rfl) rfl,
    computesPair_of _ o _ (fun _ => rfl) rfl⟩
  case sard =>
    have sard := computesPairBy_of (.sard g o) o (fun a b => sarBits a b.toNat) (fun _ => rfl) rfl
    simp only [sarBits_eq] at sard
    exact sard

/-! ### The immediate group (R144) -/

theorem writesPair_adddi (g : Guard) (o : ImmOp) (ho : o.ud = false) :
    WritesPair (.adddi g o) o.d fun s x => s.op64 x o.a + o.imm.signExtend 64 := by
  have hm : laneSpans (.adddi g o) = (o.d.toNat, 2) :: srcSpan 2 o.a := by
    show immSpans o 2 = _
    simp [immSpans, dstSpan, ho]
  refine writesPair_of _ o.d (fun _ s f => (src64 s f o.a).bind fun a => .ok (a + imm64 o.imm)) (fun s => ?_) _
    (by simp [hm]) ?_
  · show execAdddi g o s = _
    rw [execAdddi, ho]
    rfl
  · intro s r f x F _ hr h
    rw [src64_eq h hr o.a (by intro q hq; simp [hm, hq])]
    rfl

theorem writesUniform_adddi (g : Guard) (o : ImmOp) (ho : o.ud = true) :
    WritesUniform (.adddi g o) o.d fun s x => s.uniform x o.a.num + o.imm.signExtend 64 := by
  refine writesUniform_of _ o.d (fun _ s f => uni64 s f o.a + imm64 o.imm) (fun s => ?_) _ fun s r f F _ h =>
    congrArg (· + _) (sreg_table s F f _ h)
  show execAdddi g o s = _
  rw [execAdddi, ho]
  rfl

/-- A lane instruction that writes a word, or a pair, which no operand changes. -/
theorem writesWord_const (i : Instr) (d : BitVec 8) (v : Word) (hx : ∀ s, exec i s = lane32 i d s fun _ _ => .ok v)
    (hd : laneSpans i = [(d.toNat, 1)]) : WritesWord i d fun _ _ => v :=
  writesWord_of i d (fun _ _ _ => .ok v) hx _ (by simp [hd]) fun _ _ _ _ _ _ _ _ => rfl

theorem writesPair_const (i : Instr) (d : BitVec 8) (v : State → DWord)
    (hx : ∀ s, exec i s = lane64 i d s fun _ _ => .ok (v s)) (hd : laneSpans i = [(d.toNat, 2)]) : WritesPair i d fun s _ => v s :=
  writesPair_of i d (fun s _ _ => .ok (v s)) hx _ (by simp [hd]) fun _ _ _ _ _ _ _ _ => rfl

/-- The same of a uniform instruction. -/
theorem writesUniform_const (i : Instr) (d : BitVec 8) (v : State → DWord)
    (hx : ∀ s, exec i s = uniform i d s fun _ _ => v s) : WritesUniform i d fun s _ => v s :=
  writesUniform_of i d (fun s _ _ => v s) hx _ fun _ _ _ _ _ _ => rfl

/-- Settles O8: each instruction applies one function of its immediate to its operand; an amount below 32 is no more than the
width. -/
theorem immediateResults : Obligations.ImmediateResults := by
  intro g o d imm
  refine ⟨computesImm_of _ o _ (fun _ => rfl) rfl, computesImm_of _ o _ (fun _ => rfl) rfl,
    computesImm_of _ o _ (fun _ => rfl) rfl, computesImm_of _ o _ (fun _ => rfl) rfl,
    computesImm_of _ o _ (fun _ => rfl) rfl, fun small => ?shli, fun small => ?shri, fun small => ?sari,
    writesPair_adddi g o, writesUniform_adddi g o, writesWord_const _ d _ (fun _ => rfl) rfl,
    writesUniform_const _ d (fun _ => _) fun _ => rfl⟩
  case shli =>
    have shli := computesImm_of (.shli g o) o (fun a => shlBits a o.imm.toNat) (fun _ => rfl) rfl
    simpa only [shlBits, if_neg small.not_ge] using shli
  case shri =>
    have shri := computesImm_of (.shri g o) o (fun a => shrBits a o.imm.toNat) (fun _ => rfl) rfl
    simpa only [shrBits, if_neg small.not_ge] using shri
  case sari =>
    have sari := computesImm_of (.sari g o) o (fun a => sarBits a o.imm.toNat) (fun _ => rfl) rfl
    simpa only [sarBits_eq, if_neg small.not_ge] using sari

/-! ### Address formation (R145) -/

/-- Zeros below the immediate are a shift by their number. -/
theorem upper32_eq (up : BitVec 20) : upper32 up = up.setWidth 32 <<< 12 := by
  refine BitVec.eq_of_getLsbD_eq fun k hk => ?_
  rw [upper32, BitVec.getLsbD_append]
  by_cases h : k < 12 <;> simp [h, hk]

theorem pairOf_upper (up : BitVec 20) : pairOf (up.setWidth 32) 0 = up.setWidth 64 <<< 32 := by
  refine BitVec.eq_of_getLsbD_eq fun k hk => ?_
  rw [pairOf, BitVec.getLsbD_append]
  by_cases h : k < 32 <;> simp [h, hk, show k - 32 < 32 by omega]

/-- What AUPC writes: the sum of the address of the word in issue and the upper immediate. -/
theorem aupc_sum {s : State} {r : Run} (hI : Issuing s r) (up : BitVec 20) :
    s.wordAddr + (upper32 up).signExtend 64
      = r.base + BitVec.ofNat 64 (8 * r.idx) + (up.setWidth 32 <<< 12).signExtend 64 := by
  obtain ⟨rest, head⟩ := hI.head
  rw [State.wordAddr, head, upper32_eq]
  rfl

/-- Settles O9: each instruction writes a value that its immediate and, for AUPC, the run give. -/
theorem addressFormation : Obligations.AddressFormation := by
  intro g d up
  rw [← upper32_eq, ← pairOf_upper]
  refine ⟨writesWord_const _ d _ (fun _ => rfl) rfl, writesUniform_const _ d (fun _ => _) fun _ => rfl,
    writesPair_const _ d (fun _ => _) (fun _ => rfl) rfl, writesUniform_const _ d (fun _ => _) fun _ => rfl, fun s r hI => ?_⟩
  rw [upper32_eq, ← aupc_sum hI]
  constructor
  · intro ready
    obtain ⟨t, ht, still, -⟩ := writesPair_const (.aupc g false d up) d (fun s => s.wordAddr + (upper32 up).signExtend 64)
      (fun _ => rfl) rfl s r hI ready
    exact ⟨t, ht, still⟩
  · intro f fs acting
    obtain ⟨t, ht, still, -⟩ := (writesUniform_const (.aupc g true d up) d
      (fun s => s.wordAddr + (upper32 up).signExtend 64) (fun _ => rfl) s r hI).1 f fs acting
    exact ⟨t, ht, still⟩

end Sys2Proof.Machine
end

section
/-! PROOFS. The cross-lane instructions: what the acting lanes supply, how a lane's partition is formed, and what each
instruction makes of it. -/

namespace Sys2Proof.Machine

variable {s u : State} {r : Run}

/-! ### What the acting lanes supply (R157) -/

/-- Where every acting lane's checks pass, the lanes that take part are the acting lanes. -/
theorem takingPart_supplied {α : Type} (hI : Issuing s r) (g : Guard) (val : Nat → Nat → Res α) (v : Nat → α)
    (h : ∀ f ∈ actors s r g, ∀ l, val f l = .ok (v f)) :
    takingPart (supplied s (guardMask s r g) val) = (s.acting r g).map fun e => (e.1, v e.2) := by
  obtain ⟨rest, head⟩ := hI.head
  simp only [supplied, head, takingPart, State.acting, List.filterMap_filterMap, List.map_filterMap]
  refine List.filterMap_congr fun l hl => ?_
  show ((r.fibre s l).map _).bind _ = ((r.fibre s l).map _).map _
  cases hf : r.fibre s l with
  | none => rfl
  | some f => simp [h f (mem_actors.2 ⟨l, hl, hf⟩) l]

theorem acting_lane_lt {g : Guard} {e : Nat × Nat} (he : e ∈ s.acting r g) : e.1 < 8 := by
  obtain ⟨l, hl, h⟩ := List.mem_filterMap.1 he
  obtain ⟨f, -, rfl⟩ := Option.map_eq_some_iff.1 h
  exact ((Mask.mem_lanes _ l).1 hl).1

/-- No two entries are of one lane. -/
theorem acting_nodup (s : State) (r : Run) (g : Guard) : ((s.acting r g).map Prod.fst).Nodup := by
  refine List.Nodup.sublist ?_ (Mask.lanes_nodup (guardMask s r g))
  rw [State.acting]
  induction (guardMask s r g).lanes with
  | nil => exact List.Sublist.slnil
  | cons l L ih =>
    cases hf : r.fibre s l with
    | none => rw [List.filterMap_cons_none (by simp [hf])]; exact ih.cons l
    | some f => rw [List.filterMap_cons_some (b := (l, f)) (by simp [hf])]; exact ih.cons_cons l

/-- A 32-bit or 64-bit source whose registers are ready. -/
theorem srcWide_eq {i : Instr} {f : Nat} {x : Fibre} (h : tabGet s.fibres f = some x) (hr : RegsReady i x) (dbl : Bool)
    (a : Src) (hm : ∀ q ∈ srcSpan (wideCount dbl) a, q ∈ laneSpans i) : srcWide s f dbl a = .ok (s.opWide x dbl a) := by
  cases dbl with
  | true => exact src64_eq h hr a hm
  | false => exact congrArg (fun v : Res Word => v.map fun x => x.setWidth 64) (src32_eq h hr a hm)

/-- The mask operand of a partition whose register is ready. -/
theorem partSrc_eq {i : Instr} {f : Nat} {x : Fibre} (h : tabGet s.fibres f = some x) (hr : RegsReady i x) (pt : Part)
    (hm : ∀ c, pt = .mask c → ∀ q ∈ srcSpan 1 c, q ∈ laneSpans i) : partSrc s f pt = .ok (s.maskOp x pt) := by
  cases pt with
  | fixed g => rfl
  | mask c => exact src32_eq h hr c (hm c rfl)

/-- What a fibre with ready registers supplies, every acting fibre supplies. -/
theorem actors_supply {α : Type} {i : Instr} (hI : Issuing s r) (hR : ∀ f ∈ actors s r i.guard, RegsReady i (s.fib f))
    (val : Nat → Res α) (v : Fibre → α)
    (hv : ∀ f x, tabGet s.fibres f = some x → RegsReady i x → val f = .ok (v x)) :
    ∀ f ∈ actors s r i.guard, val f = .ok (v (s.fib f)) := by
  intro f hf
  obtain ⟨l, hl, hlf⟩ := mem_actors.1 hf
  obtain ⟨x, hx, -⟩ := hI.fibre_eq (guardMask_lanes s r _ l hl) hlf
  rw [State.fib_eq s f x hx]
  exact hv f x hx (State.fib_eq s f x hx ▸ hR f hf)

/-- A cross-lane instruction whose lanes supply `v` of themselves and write `write` of their home lane, what they supply and
what all acting lanes supply. -/
theorem crosses_of {α : Type} (i : Instr) (val : State → Nat → Res α)
    (fin : State → Nat → Nat → α → List (Nat × α) → State)
    (hx : ∀ s, exec i s = crossLane i s val fin) (v : State → Fibre → α)
    (hv : ∀ s f x, tabGet s.fibres f = some x → RegsReady i x → val s f = .ok (v s x))
    (write : Nat → α → List (Nat × α) → Fibre → Fibre)
    (hfin : ∀ u f l a vs, fin u f l a vs = u.modFib f (write l a vs)) (new : State → List (Nat × Nat) → Fibre → Fibre)
    (hnew : ∀ s ls x, (∀ e ∈ ls, e.1 < 8) → x.home < 8 →
      write x.home (v s x) (ls.map fun e => (e.1, v s (s.fib e.2))) x = new s ls x) : Crosses i new := by
  intro s r hI hR
  have supplies := actors_supply hI hR (val s) (v s) (hv s)
  rw [hx]
  refine perLane_still hI i _ (fun _ x => new s (s.acting r i.guard) x) fun l hl f x F h1 h2 h3 => ?_
  obtain ⟨y, hy, home, -⟩ := hI.fibre_eq (guardMask_lanes s r _ l hl) h1
  obtain rfl : x = y := Option.some.inj (h2.symm.trans hy)
  have own := supplies f (mem_actors.2 ⟨l, hl, h1⟩)
  rw [State.fib_eq s f x h2] at own
  have all := takingPart_supplied hI i.guard (fun f' _ => val s f') (fun f => v s (s.fib f)) fun f hf _ => supplies f hf
  simp only [own, Res.bind_ok, all, hfin]
  refine congrArg (fun t => Res.ok (Adv.next, t)) (modFib_congr h3 _ _ ?_)
  rw [← home]
  exact hnew s _ x (fun e he => acting_lane_lt he) (home ▸ ((Mask.mem_lanes _ l).1 hl).1)

/-! ### Partitions (R157) -/

/-- The lanes of a fixed group. -/
theorem groupMask_has (g : Group) (l k : Nat) (hl : l < 8) (hk : k < 8) :
    (groupMask g l).has k = (k / groupSize g == l / groupSize g) := by
  have all : ∀ l < 8, ∀ k < 8, (groupMask g l).has k = (k / groupSize g == l / groupSize g) := by cases g <;> decide
  exact all l hl k hk

/-- The lanes that a partition's mask names among the home lanes. -/
theorem partOf_has (pt : Part) (l k : Nat) (c : Word) (hl : l < 8) (hk : k < 8) :
    (partOf pt l c).has k = inPartition pt c l k := by
  cases pt with
  | fixed g => exact groupMask_has g l k hl hk
  | mask _ =>
    simp only [partOf, Mask.has, BitVec.getLsbD_or, BitVec.getLsbD_setWidth, Mask.one_getLsbD, inPartition, hk, decide_true,
      Bool.true_and, Bool.and_true]
    exact congrArg _ (decide_eq_decide.2 eq_comm)

/-- What the lanes of a partition supply. -/
theorem inPart_map {α : Type} (pt : Part) (l : Nat) (c : Word) (ls : List (Nat × Nat)) (v : Nat × Nat → α) (hl : l < 8)
    (h : ∀ e ∈ ls, e.1 < 8) : inPart pt l c (ls.map fun e => (e.1, v e))
      = (ls.filter fun e => inPartition pt c l e.1).map fun e => (e.1, v e) := by
  rw [inPart, List.filter_map]
  exact congrArg _ (List.filter_congr fun e he => partOf_has pt l e.1 c hl (h e he))

/-- A mask of lanes as a word. -/
theorem ofLanes_word (ls : List Nat) (h : ∀ l ∈ ls, l < 8) :
    (Mask.ofLanes ls).setWidth 32 = wordOfBits fun k => decide (k ∈ ls) := by
  refine BitVec.eq_of_getLsbD_eq fun k hk => ?_
  rw [getLsbD_wordOfBits, BitVec.getLsbD_setWidth]
  by_cases h8 : k < 8
  · rw [Mask.getLsbD_ofLanes ls k h8]
  · rw [BitVec.getLsbD_of_ge _ _ (Nat.le_of_not_lt h8), decide_eq_false fun hm => h8 (h k hm)]

/-- The mask of the lanes of a list that a test picks, bit by bit. -/
theorem ofLanes_filter_word (ls : List (Nat × Nat)) (p : Nat × Nat → Bool) (h : ∀ e ∈ ls, e.1 < 8) :
    (Mask.ofLanes ((ls.filter p).map Prod.fst)).setWidth 32 = wordOfBits fun k => ls.any fun e => e.1 == k && p e := by
  rw [ofLanes_word _ (by simpa using fun l f he _ => h (l, f) he)]
  congr 1
  funext k
  rw [Bool.eq_iff_iff]
  simp only [decide_eq_true_eq, List.mem_map, List.mem_filter, List.any_eq_true, Bool.and_eq_true, beq_iff_eq]
  exact ⟨fun ⟨e, ⟨he, hp⟩, hk⟩ => ⟨e, he, hk, hp⟩, fun ⟨e, he, hk, hp⟩ => ⟨e, ⟨he, hp⟩, hk⟩⟩

/-- The mask of the lanes of a partition whose values a test picks, bit by bit. -/
theorem inPart_mask_word {α : Type} (pt : Part) (l : Nat) (c : Word) (ls : List (Nat × Nat)) (v : Nat × Nat → α)
    (t : Nat × α → Bool) (hl : l < 8) (h : ∀ e ∈ ls, e.1 < 8) :
    (Mask.ofLanes (((inPart pt l c (ls.map fun e => (e.1, v e))).filter t).map (·.1))).setWidth 32
      = wordOfBits fun k => ls.any fun e => e.1 == k && inPartition pt c l k && t (e.1, v e) := by
  rw [inPart_map pt l c ls v hl h, List.filter_map, List.map_map, List.filter_filter]
  refine (ofLanes_filter_word ls _ h).trans ?_
  congr 1
  funext k
  congr 1
  funext e
  by_cases same : e.1 = k
  · subst same
    simp [Bool.and_comm]
  · simp only [beq_eq_false_iff_ne.2 same, Bool.false_and]

/-! ### PART and SHFL (R158, R161) -/

/-- R161: each lane receives the mask of the lanes of its group that hold its value. -/
theorem part_crosses (g : Guard) (d : BitVec 8) (a : Src) (pw : Group) (dbl : Bool) :
    Crosses (.part g d a pw dbl) fun s ls x => x.setReg d.toNat (wordOfBits fun k =>
      ls.any fun e => e.1 == k && inPartition (.fixed pw) 0 x.home k
        && s.opWide (s.fib e.2) dbl a == s.opWide x dbl a) := by
  have hm : laneSpans (.part g d a pw dbl) = (d.toNat, 1) :: srcSpan (wideCount dbl) a := rfl
  have hx : ∀ s, exec (.part g d a pw dbl) s = crossLane _ s _ _ :=
    fun s => (rfl : execPart g d a pw dbl s = _)
  refine crosses_of _ _ _ hx (fun s x => s.opWide x dbl a) (fun s f x h hr => ?_)
    (fun l v vs x => x.setReg d.toNat
      ((Mask.ofLanes (((inPart (.fixed pw) l 0 vs).filter fun w => w.2 = v).map (·.1))).setWidth 32))
    (fun _ _ _ _ _ => rfl) _ fun s ls x hls hl => ?_
  · rw [State.fib_eq s f x h, hr.word (by simp [hm]), Res.bind_ok, srcWide_eq h hr dbl a (by intro q hq; simp [hm, hq])]
  · simp only [inPart_mask_word _ _ _ ls _ _ hl hls, beq_eq_decide]

/-- The source lane of SHFL. -/
theorem shflSource_eq (m : ShflMode) (p : Group) (l n : Nat) : shflSource m p l n = match m with
    | .idx => some (l / groupSize p * groupSize p + n % groupSize p)
    | .up => if n < groupSize p ∧ l / groupSize p * groupSize p + n ≤ l then some (l - n) else none
    | .down => if n < groupSize p ∧ l + n < l / groupSize p * groupSize p + groupSize p then some (l + n) else none
    | .xor => if n < groupSize p then some (Nat.xor l n) else none := by
  cases m <;> simp [shflSource]

/-- What a lane of a list supplies is found by its number. -/
theorem tabGet_map_lane {α : Type} (ls : List (Nat × Nat)) (v : Nat × Nat → α) (k : Nat) :
    tabGet (ls.map fun e => (e.1, v e)) k = (ls.find? fun e => some k == some e.1).map v := by
  induction ls with
  | nil => rfl
  | cons e ls ih =>
    rw [List.map_cons, tabGet, ih, List.find?_cons]
    by_cases h : e.1 = k
    · simp [h]
    · rw [if_neg h, show (some k == some e.1) = false by simpa using Ne.symm h]

theorem shfl_crosses (g : Guard) (d : BitVec 8) (a b : Src) (pw : Group) (m : ShflMode) (dbl : Bool) :
    Crosses (.shfl g d a b pw m dbl) fun s ls x =>
      x.setWide dbl d (match ls.find? fun e => shflSource m pw x.home (s.op32 x b).toNat == some e.1 with
        | some e => s.opWide (s.fib e.2) dbl a
        | none => s.opWide x dbl a) := by
  have hm : laneSpans (.shfl g d a b pw m dbl)
      = (d.toNat, wideCount dbl) :: (srcSpan (wideCount dbl) a ++ srcSpan 1 b) := rfl
  have hx : ∀ s, exec (.shfl g d a b pw m dbl) s = crossLane _ s _ _ :=
    fun s => (rfl : execShfl g d a b pw m dbl s = _)
  refine crosses_of _ _ _ hx (fun s x => (s.opWide x dbl a, s.op32 x b)) (fun s f x h hr => ?_)
    (fun l v vs x => x.setWide dbl d (((shflSource m pw l v.2.toNat).bind fun k => tabGet vs k).getD v).1)
    (fun _ _ _ _ _ => by rw [putWide_eq]) _ fun s ls x _ _ => ?_
  · rw [State.fib_eq s f x h, hr.wide (by simp [hm]), Res.bind_ok,
      srcWide_eq h hr dbl a (by intro q hq; simp [hm, hq]), Res.bind_ok,
      src32_eq h hr b (by intro q hq; simp [hm, hq]), Res.bind_ok]
  · refine congrArg _ ?_
    cases shflSource m pw x.home (s.op32 x b).toNat with
    | none => rw [List.find?_eq_none.2 fun _ _ => by simp]; rfl
    | some k =>
      rw [Option.bind_some, tabGet_map_lane]
      cases ls.find? fun e => some k == some e.1 <;> rfl

/-! ### VOTE (R159) -/

/-- A predicate as the value that a lane supplies. -/
def predBit (x : Fibre) (a : Src) : DWord := if x.preds.getLsbD a.num.toNat then 1 else 0

theorem predBit_ne_zero (x : Fibre) (a : Src) : decide (predBit x a ≠ 0) = x.preds.getLsbD a.num.toNat := by
  unfold predBit
  cases x.preds.getLsbD a.num.toNat <;> decide

/-- The span of a partition's mask operand. -/
def maskSpan : Part → List (Nat × Nat)
  | .fixed _ => []
  | .mask c => srcSpan 1 c

/-- A value with the mask operand, which a vote and a reduction supply. -/
theorem withMask_eq {i : Instr} {f : Nat} {x : Fibre} (h : tabGet s.fibres f = some x) (hr : RegsReady i x) (pt : Part)
    (hm : ∀ q ∈ maskSpan pt, q ∈ laneSpans i) (v : DWord) :
    ((partSrc s f pt).bind fun c => Res.ok (v, c)) = .ok (v, s.maskOp x pt) := by
  rw [partSrc_eq h hr pt (by rintro c rfl; exact hm), Res.bind_ok]

theorem predSrc_bit {f : Nat} {x : Fibre} (h : tabGet s.fibres f = some x) (a : Src) :
    (if predSrc s f a then 1 else 0 : DWord) = predBit x a := by
  rw [predSrc, State.fib_eq s f x h]
  rfl

/-- A predicate's number is read back from an eight-bit field. -/
theorem toNat_setWidth_pred (p : BitVec 4) : ((p.setWidth 8).setWidth 4).toNat = p.toNat := by
  simp only [BitVec.toNat_setWidth]
  omega

/-- A vote on predicates that writes a predicate: `test` of the values of the lane's partition. -/
theorem vote_crosses_pred (g : Guard) (p : BitVec 4) (a : Src) (pt : Part) (mode : VoteMode)
    (test : List (Nat × DWord × Word) → Bool) (supply : State → Nat → Res (DWord × Word))
    (hx : ∀ s, exec (.vote g (p.setWidth 8) a pt mode false) s = crossLane (.vote g (p.setWidth 8) a pt mode false) s supply
      fun s f l v vs => putPred s f ((p.setWidth 8).setWidth 4) (test (inPart pt l v.2 vs)))
    (hm : laneSpans (.vote g (p.setWidth 8) a pt mode false) = maskSpan pt)
    (hs : ∀ s f, supply s f = (partSrc s f pt).bind fun c => .ok (if predSrc s f a then 1 else 0, c)) :
    Crosses (.vote g (p.setWidth 8) a pt mode false) fun s ls x => x.setPred p.toNat (test
      ((ls.filter fun e => inPartition pt (s.maskOp x pt) x.home e.1).map fun e =>
        (e.1, predBit (s.fib e.2) a, s.maskOp (s.fib e.2) pt))) := by
  refine crosses_of _ _ _ hx (fun s x => (predBit x a, s.maskOp x pt)) (fun s f x h hr => ?_)
    (fun l v vs x => x.setPred ((p.setWidth 8).setWidth 4).toNat (test (inPart pt l v.2 vs))) (fun _ _ _ _ _ => rfl) _
    fun s ls x hls hl => ?_
  · rw [hs, predSrc_bit h, withMask_eq h hr pt (by simp [hm])]
  · rw [toNat_setWidth_pred, inPart_map _ _ _ ls _ hl hls]

theorem vote_any_crosses (g : Guard) (p : BitVec 4) (a : Src) (pt : Part) :
    Crosses (.vote g (p.setWidth 8) a pt .any false) fun s ls x => x.setPred p.toNat (ls.any fun e =>
      inPartition pt (s.maskOp x pt) x.home e.1 && (s.fib e.2).preds.getLsbD a.num.toNat) := by
  have h := vote_crosses_pred g p a pt .any (fun ws => ws.any fun w => w.2.1 ≠ 0) _ (fun _ => rfl) (by cases pt <;> rfl)
    fun _ _ => rfl
  simpa only [List.any_map, List.any_filter, Function.comp_def, predBit_ne_zero] using h

theorem vote_all_crosses (g : Guard) (p : BitVec 4) (a : Src) (pt : Part) :
    Crosses (.vote g (p.setWidth 8) a pt .all false) fun s ls x => x.setPred p.toNat (ls.all fun e =>
      !inPartition pt (s.maskOp x pt) x.home e.1 || (s.fib e.2).preds.getLsbD a.num.toNat) := by
  have h := vote_crosses_pred g p a pt .all (fun ws => ws.all fun w => w.2.1 ≠ 0) _ (fun _ => rfl) (by cases pt <;> rfl)
    fun _ _ => rfl
  simpa only [List.all_map, List.all_filter, Function.comp_def, predBit_ne_zero] using h

theorem vote_ballot_crosses (g : Guard) (d : BitVec 8) (a : Src) (pt : Part) :
    Crosses (.vote g d a pt .ballot false) fun s ls x => x.setReg d.toNat (wordOfBits fun k => ls.any fun e =>
      e.1 == k && inPartition pt (s.maskOp x pt) x.home k && (s.fib e.2).preds.getLsbD a.num.toNat) := by
  have hx : ∀ s, exec (.vote g d a pt .ballot false) s = crossLane _ s _ _ :=
    fun s => (rfl : execVote g d a pt .ballot false s = _)
  have hm : laneSpans (.vote g d a pt .ballot false) = (d.toNat, 1) :: maskSpan pt := by cases pt <;> rfl
  refine crosses_of _ _ _ hx (fun s x => (predBit x a, s.maskOp x pt)) (fun s f x h hr => ?_)
    (fun l v vs x => x.setReg d.toNat
      ((Mask.ofLanes (((inPart pt l v.2 vs).filter fun w => w.2.1 ≠ 0).map (·.1))).setWidth 32))
    (fun _ _ _ _ _ => rfl) _ fun s ls x hls hl => ?_
  · show (need32 (s.fib f) d).bind (fun _ => (partSrc s f pt).bind fun c => .ok (if predSrc s f a then 1 else 0, c)) = _
    rw [predSrc_bit h, withMask_eq h hr pt (by intro q hq; simp [hm, hq]), State.fib_eq s f x h, hr.word (by simp [hm]),
      Res.bind_ok]
  · simp only [inPart_mask_word _ _ _ ls _ _ hl hls, predBit_ne_zero]

theorem vote_eq_crosses (g : Guard) (p : BitVec 4) (a : Src) (pt : Part) (dbl : Bool) :
    Crosses (.vote g (p.setWidth 8) a pt .eq dbl) fun s ls x => x.setPred p.toNat (ls.all fun e =>
      !inPartition pt (s.maskOp x pt) x.home e.1 || s.opWide (s.fib e.2) dbl a == s.opWide x dbl a) := by
  have hx : ∀ s, exec (.vote g (p.setWidth 8) a pt .eq dbl) s = crossLane _ s _ _ :=
    fun s => (rfl : execVote g (p.setWidth 8) a pt .eq dbl s = _)
  have hm : laneSpans (.vote g (p.setWidth 8) a pt .eq dbl) = srcSpan (wideCount dbl) a ++ maskSpan pt := by
    cases pt <;> rfl
  refine crosses_of _ _ _ hx (fun s x => (s.opWide x dbl a, s.maskOp x pt)) (fun s f x h hr => ?_)
    (fun l v vs x => x.setPred ((p.setWidth 8).setWidth 4).toNat ((inPart pt l v.2 vs).all fun w => w.2.1 = v.1))
    (fun _ _ _ _ _ => rfl) _ fun s ls x hls hl => ?_
  · show (srcWide s f dbl a).bind (fun v => (partSrc s f pt).bind fun c => .ok (v, c)) = _
    rw [srcWide_eq h hr dbl a (by intro q hq; simp [hm, hq]), Res.bind_ok,
      withMask_eq h hr pt (by intro q hq; simp [hm, hq])]
  · rw [toNat_setWidth_pred, inPart_map _ _ _ ls _ hl hls]
    simp only [List.all_map, List.all_filter, Function.comp_def, beq_eq_decide]

/-! ### REDU (R160) -/

/-- A reduction takes the values of the lane's partition. -/
theorem redu_crosses (g : Guard) (d : BitVec 8) (a : Src) (pt : Part) (op : ReduOp) (dbl : Bool) :
    Crosses (.redu g d a pt op dbl) fun s ls x => x.setWide dbl d (reduce op dbl (partitionValues s ls x pt dbl a)) := by
  have hx : ∀ s, exec (.redu g d a pt op dbl) s = crossLane _ s _ _ :=
    fun s => (rfl : execRedu g d a pt op dbl s = _)
  have hm : laneSpans (.redu g d a pt op dbl)
      = (d.toNat, wideCount dbl) :: (srcSpan (wideCount dbl) a ++ maskSpan pt) := by cases pt <;> rfl
  refine crosses_of _ _ _ hx (fun s x => (s.opWide x dbl a, s.maskOp x pt)) (fun s f x h hr => ?_)
    (fun l v vs x => x.setWide dbl d (reduce op dbl ((inPart pt l v.2 vs).map fun w => w.2.1)))
    (fun _ _ _ _ _ => by rw [putWide_eq]) _ fun s ls x hls hl => ?_
  · rw [State.fib_eq s f x h, hr.wide (by simp [hm]), Res.bind_ok, srcWide_eq h hr dbl a (by intro q hq; simp [hm, hq]),
      Res.bind_ok, withMask_eq h hr pt (by intro q hq; simp [hm, hq])]
  · rw [inPart_map _ _ _ ls _ hl hls, List.map_map]
    rfl

/-- A sum of pairs is the sum of the values. -/
theorem reduce_add_pair (vs : List DWord) : reduce .add true vs = vs.sum := by
  cases vs with
  | nil => rfl
  | cons v vs =>
    show vs.foldl (· + ·) v = _
    rw [List.sum_eq_foldl, List.foldl_cons, zero_add]

/-- A sum of words agrees with the sum of their 64-bit values modulo 2^32. -/
theorem lowWord_foldl_add (vs : List DWord) (v : DWord) :
    lowWord (vs.foldl (reduStep .add false) v) = lowWord (v + vs.sum) := by
  induction vs generalizing v with
  | nil => simp
  | cons w vs ih =>
    have step : reduStep .add false v w = (lowWord v + lowWord w).setWidth 64 := rfl
    rw [List.foldl_cons, ih, step, List.sum_cons]
    simp [lowWord, BitVec.setWidth_add _ _ (by decide : 32 ≤ 64), BitVec.add_assoc]

theorem lowWord_reduce_add (vs : List DWord) : lowWord (reduce .add false vs) = lowWord vs.sum := by
  cases vs with
  | nil => rfl
  | cons v vs => exact lowWord_foldl_add vs v

/-- What an integer sum writes is the sum modulo 2^32 or 2^64. -/
theorem setWide_reduce_add (x : Fibre) (dbl : Bool) (d : BitVec 8) (vs : List DWord) :
    x.setWide dbl d (reduce .add dbl vs) = x.setWide dbl d vs.sum := by
  cases dbl with
  | true => rw [reduce_add_pair]
  | false => exact congrArg (x.setReg d.toNat) (lowWord_reduce_add vs)

/-- Settles O14: each instruction's value is the one that its lanes supply, taken over the lane's partition. -/
theorem laneCollectives : Obligations.LaneCollectives := by
  refine ⟨fun g d p a b pw pt m dbl => ⟨part_crosses g d a pw dbl, ?shfl, vote_any_crosses g p a pt,
    vote_all_crosses g p a pt, vote_ballot_crosses g d a pt, vote_eq_crosses g p a pt dbl⟩,
    fun g d a pt op dbl => ⟨?sum, redu_crosses g d a pt op dbl⟩⟩
  case shfl =>
    have shfl := shfl_crosses g d a b pw m dbl
    simp only [shflSource_eq] at shfl
    exact shfl
  case sum =>
    have sum := redu_crosses g d a pt .add dbl
    simp only [setWide_reduce_add] at sum
    exact sum

end Sys2Proof.Machine
end

section
/-! PROOFS. MOVU: the write of a uniform register by the one lane that is selected. -/

namespace Sys2Proof.Machine

variable {s u : State} {r : Run}

/-! ### A uniform write and the lanes that go on -/

/-- The same change of a team on both sides. -/
theorem Still.modTm_both (h : Still s u) (t : Nat) (g : Team → Team) : Still (s.modTm t g) (u.modTm t g) where
  rest := by
    show u.rest.modTm t g = s.rest.modTm t g
    rw [h.rest]
  fibre := h.fibre
  flock := h.flock
  core := h.core
  cluster := h.cluster

/-- The same change of a flock on both sides, which does not look at what scheduling keeps. -/
theorem Still.modFlk_both (h : Still s u) (k : Nat) (g g' : Flock → Flock) (hg : ∀ x, (g x).still = g' x.still) :
    Still (s.modFlk k g) (u.modFlk k g) where
  rest := h.rest
  fibre := h.fibre
  flock j := by
    have change : ∀ o : Option Flock, (o.map g).map Flock.still = (o.map Flock.still).map g' := by
      intro o
      cases o with
      | none => rfl
      | some x => exact congrArg some (hg x)
    simp only [State.modFlk_flocks, tabGet_tabMod]
    split
    · rw [change, change, h.flock j]
    · exact h.flock j
  core := h.core
  cluster := h.cluster

/-- The fibres' own contents are the same. -/
theorem Still.fib (h : Still s u) (f : Nat) : (u.fib f).still = (s.fib f).still := by
  have := h.fibre f
  simp only [State.fib, tabGetD]
  cases hs : tabGet s.fibres f <;> cases hu : tabGet u.fibres f <;> simp_all

/-- A uniform write looks at its fibre's team and flock only, which stay as the lanes go on. -/
theorem setSreg_still (h : Still s u) (f : Nat) (n : BitVec 8) (v : DWord) : Still (setSreg s f n v) (setSreg u f n v) := by
  have team : (u.fib f).team = (s.fib f).team := by
    show (u.fib f).still.team = (s.fib f).still.team
    rw [h.fib f]
  have loc : (u.fib f).loc = (s.fib f).loc := by
    show (u.fib f).still.loc = (s.fib f).still.loc
    rw [h.fib f]
  simp only [setSreg, team, loc]
  split
  · exact h.modTm_both _ _
  · split
    · exact h.modFlk_both _ _ (fun x => { x with su := setAt x.su (n.toNat - 64) v }) fun _ => rfl
    · exact h

/-- Lanes that each do `put` and go on to the next word. -/
theorem foldLanes_next (body : State → Nat → Nat → Res (Adv × State)) (put : State → Nat × Nat → State) (L : List Nat)
    (h : ∀ l ∈ L, ∀ f u, r.fibre s l = some f → body u f l = .ok (.next, put u (l, f))) (u : State) :
    foldLanes s r L body (quiet u) = quiet ((L.filterMap fun l => (r.fibre s l).map fun f => (l, f)).foldl
      (fun u e => (put u e).modFib e.2 (advanceFibre r)) u) := by
  induction L generalizing u with
  | nil => rfl
  | cons l L ih =>
    have rest := ih fun k hk => h k (List.mem_cons_of_mem l hk)
    rw [foldLanes, List.foldl_cons]
    cases hf : r.fibre s l with
    | none =>
      rw [List.filterMap_cons_none (by simp [hf]), ← rest, show (s.flk r.flock).fibreAt l = none from hf]
      rfl
    | some f =>
      rw [List.filterMap_cons_some (b := (l, f)) (by simp [hf]), List.foldl_cons, ← rest,
        show (s.flk r.flock).fibreAt l = some f from hf]
      simp only [Bool.false_eq_true, if_false, h l List.mem_cons_self f u hf]
      rfl

/-- Going on between the lanes' changes, where these do not look at it, leaves what the changes leave. -/
theorem foldl_advance_still (put : State → Nat × Nat → State) (h : ∀ s u e, Still s u → Still (put s e) (put u e))
    (es : List (Nat × Nat)) (hs : Still s u) :
    Still (es.foldl put s) (es.foldl (fun u e => (put u e).modFib e.2 (advanceFibre r)) u) := by
  induction es generalizing s u with
  | nil => exact hs
  | cons e es ih => exact ih ((h s u e hs).trans (Still.modFib _ _ _ (advanceFibre_still r)))

/-- Of changes that at most one element makes, the one that is made. -/
theorem foldl_ite_eq_find? {α β : Type} (p : α → Bool) (put : β → α → β) (l : List α)
    (once : l.Pairwise fun a b => ¬ (p a = true ∧ p b = true)) (b : β) :
    l.foldl (fun b a => if p a then put b a else b) b = (l.find? p).elim b (put b) := by
  induction l generalizing b with
  | nil => rfl
  | cons a l ih =>
    obtain ⟨head, tail⟩ := List.pairwise_cons.1 once
    rw [List.foldl_cons, List.find?_cons, ih tail]
    cases ha : p a with
    | true =>
      have none : l.find? p = none := List.find?_eq_none.2 fun c hc hp => head c hc ⟨ha, hp⟩
      simp [none]
    | false => simp

/-! ### The selected lane (R162) -/

/-- The lane that MOVU looks for among the acting lanes, by number. -/
def movuLane {α : Type} (sel : MovuSel) (ls : List (Nat × α)) : Option Nat :=
  match sel with
  | .lo => ls.head?.map (·.1)
  | .hi => ls.getLast?.map (·.1)
  | .lane n => some n.toNat

/-- It looks at the lanes only, not at what they supply. -/
theorem movuLane_map {α β : Type} (sel : MovuSel) (ls : List (Nat × α)) (v : Nat × α → β) :
    movuLane sel (ls.map fun e => (e.1, v e)) = movuLane sel ls := by
  cases sel with
  | lo => simp [movuLane, Function.comp_def]
  | hi => simp [movuLane, Function.comp_def]
  | lane n => rfl

/-- The acting lane that it finds. -/
def movuPick (sel : MovuSel) (ls : List (Nat × Nat)) : Option (Nat × Nat) :=
  match sel with
  | .lo => ls.head?
  | .hi => ls.getLast?
  | .lane n => ls.find? fun e => e.1 == n.toNat

/-- An entry of a list of distinct lanes is found by its lane. -/
theorem find?_lane {ls : List (Nat × Nat)} (distinct : (ls.map Prod.fst).Nodup) {e : Nat × Nat} (he : e ∈ ls) :
    ls.find? (fun a => decide (some e.1 = some a.1)) = some e := by
  cases hf : ls.find? (fun a => decide (some e.1 = some a.1)) with
  | none => exact absurd (List.find?_eq_none.1 hf e he) (by simp)
  | some a =>
    have same : e.1 = a.1 := by simpa using List.find?_some hf
    rw [List.inj_on_of_nodup_map distinct (List.mem_of_find?_eq_some hf) he same.symm]

/-- It finds the acting lane of the number that it looks for. -/
theorem movuPick_eq (sel : MovuSel) {ls : List (Nat × Nat)} (distinct : (ls.map Prod.fst).Nodup) :
    ls.find? (fun e => decide (movuLane sel ls = some e.1)) = movuPick sel ls := by
  cases sel with
  | lo =>
    cases h : ls.head? with
    | none => rw [List.head?_eq_none_iff.1 h]; rfl
    | some e => simp only [movuLane, movuPick, h, Option.map_some, find?_lane distinct (List.mem_of_head? h)]
  | hi =>
    cases h : ls.getLast? with
    | none => rw [List.getLast?_eq_none_iff.1 h]; rfl
    | some e => simp only [movuLane, movuPick, h, Option.map_some, find?_lane distinct (List.mem_of_getLast? h)]
  | lane n =>
    refine congrArg (fun p => ls.find? p) (funext fun e => ?_)
    rw [movuLane, beq_eq_decide]
    exact decide_eq_decide.2 (Option.some_inj.trans eq_comm)

/-- What one lane of MOVU does. -/
def movuPut (s : State) (ls : List (Nat × Nat)) (d a : BitVec 8) (sel : MovuSel) (dbl : Bool) (u : State) (e : Nat × Nat) :
    State :=
  if decide (movuLane sel ls = some e.1) then setSreg u e.2 d (s.opWide (s.fib e.2) dbl (.v a)) else u

theorem movuPut_still (s : State) (ls : List (Nat × Nat)) (d a : BitVec 8) (sel : MovuSel) (dbl : Bool) (t u : State)
    (e : Nat × Nat) (h : Still t u) : Still (movuPut s ls d a sel dbl t e) (movuPut s ls d a sel dbl u e) := by
  unfold movuPut
  split
  · exact setSreg_still h _ _ _
  · exact h

/-- What its lanes do together: the selected lane's write, if any. -/
theorem foldl_movuPut (s : State) {ls : List (Nat × Nat)} (d a : BitVec 8) (sel : MovuSel) (dbl : Bool)
    (distinct : (ls.map Prod.fst).Nodup) (u : State) : ls.foldl (movuPut s ls d a sel dbl) u
      = (movuPick sel ls).elim u fun e => setSreg u e.2 d (s.opWide (s.fib e.2) dbl (.v a)) := by
  have once : ls.Pairwise fun e e' =>
      ¬ (decide (movuLane sel ls = some e.1) = true ∧ decide (movuLane sel ls = some e'.1) = true) := by
    refine (List.pairwise_map.1 distinct).imp fun ne h => ne ?_
    simp only [decide_eq_true_eq] at h
    exact Option.some.inj (h.1.symm.trans h.2)
  rw [← movuPick_eq sel distinct]
  exact foldl_ite_eq_find? _ (fun u e => setSreg u e.2 d (s.opWide (s.fib e.2) dbl (.v a))) ls once u

/-- Settles O15: every acting lane supplies its value, and the one that is selected writes it. -/
theorem moveToUniform : Obligations.MoveToUniform := by
  intro g d a sel dbl s r hI hR
  have hm : laneSpans (.movu g d a sel dbl) = srcSpan (wideCount dbl) (.v a) := rfl
  have supplies := actors_supply (i := .movu g d a sel dbl) hI hR (fun f => srcWide s f dbl (.v a))
    (fun x => s.opWide x dbl (.v a))
    fun f x hx ready => srcWide_eq hx ready dbl (.v a) fun q hq => hm ▸ hq
  have all := takingPart_supplied hI g (fun f _ => srcWide s f dbl (.v a)) (fun f => s.opWide (s.fib f) dbl (.v a))
    fun f hf _ => supplies f hf
  show ∃ t, execMovu g d a sel dbl s = .next t ∧ _
  rw [execMovu, perLane_eq hI]
  refine ⟨_, rfl, ?_⟩
  rw [hI.openOuts, foldLanes_next _ (movuPut s (s.acting r g) d a sel dbl) _ fun l hl f u hf => ?lane]
  case lane =>
    simp only [supplies f (mem_actors.2 ⟨l, hl, hf⟩), Res.bind_ok]
    show Res.ok (Adv.next, if movuLane sel (takingPart (supplied s (guardMask s r g) _)) = some l then _ else _) = _
    rw [all, movuLane_map]
    simp only [movuPut, decide_eq_true_eq]
  have go := foldl_advance_still (r := r) _ (fun t u e => movuPut_still s (s.acting r g) d a sel dbl t u e) (s.acting r g)
    (advanceLanes_still s r (r.lanes &&& ~~~guardMask s r g))
  rw [foldl_movuPut s d a sel dbl (acting_nodup s r g)] at go
  show Still (match movuPick sel (s.acting r g) with
    | none => s
    | some e => setSreg s e.2 d (s.opWide (s.fib e.2) dbl (.v a))) _
  cases hp : movuPick sel (s.acting r g) <;> rw [hp] at go <;> exact go.trans (settle_still _ _ _ _)

end Sys2Proof.Machine
end

section
/-! PROOFS. A store performed at a scratchpad, and the atomic that is one: the bytes that they write, and no other. -/

namespace Sys2Proof.Machine

variable {s t : State} {core : Nat} {r : StoreReq}

/-! ### The paths of a store (R174, R315) -/

/-- The cells of a store that take one path, in the store's order. -/
def StoreReq.onPath (r : StoreReq) (s : State) (core : Nat) (p : StorePath) : List (Nat × Byte × Byte) :=
  r.cells.filter fun c => r.path s core c.1 = p

theorem mem_onPath {p : StorePath} {c : Nat × Byte × Byte} :
    c ∈ r.onPath s core p ↔ c ∈ r.cells ∧ r.path s core c.1 = p := by
  simp [StoreReq.onPath]

/-- What `performPart` selects with each cell's place in the store are the cells of the path. -/
theorem onPath_eq_zipIdx (s : State) (core : Nat) (r : StoreReq) (p : StorePath) :
    (r.cells.zipIdx.filter fun c => r.path s core c.1.1 = p).map (·.1) = r.onPath s core p := by
  have cells : r.cells.zipIdx.map Prod.fst = r.cells := List.zipIdx_map_fst 0 r.cells
  conv_rhs => rw [StoreReq.onPath, ← cells, List.filter_map]
  rfl

theorem zipIdx_eq_nil_of_onPath {p : StorePath} (h : r.onPath s core p = []) :
    (r.cells.zipIdx.filter fun c => r.path s core c.1.1 = p) = [] := by
  rw [← onPath_eq_zipIdx] at h
  exact List.map_eq_nil_iff.1 h

/-- A path that no cell takes performs nothing. -/
theorem performPart_nil {p : StorePath} (h : r.onPath s core p = []) : performPart s core r p = s := by
  simp only [performPart, zipIdx_eq_nil_of_onPath h, List.isEmpty_nil, if_true]

theorem path_of_scratch {key : Nat} (h : levelOf key = .scratch) : r.path s core key = .scratch := by
  simp only [StoreReq.path, h]

/-- At scratchpads the cells are merged in place; tags, taints, stamps and parked fibres are no memory. -/
theorem performPart_scratch_mem (s : State) (core : Nat) (r : StoreReq) :
    (performPart s core r .scratch).mem = (s.putCells (r.onPath s core .scratch)).mem := by
  by_cases empty : r.onPath s core .scratch = []
  · rw [performPart_nil empty, empty]
    rfl
  · have taken : (r.cells.zipIdx.filter fun c => r.path s core c.1.1 = .scratch).isEmpty = false := by
      rw [← onPath_eq_zipIdx, List.map_eq_nil_iff] at empty
      simpa using empty
    simp only [performPart, taken, Bool.false_eq_true, if_false, onPath_eq_zipIdx, wakeWords_mem,
      foldl_mem _ fun u (c : Nat × Byte × Byte) => raiseLs_mem u c.1 r.k,
      foldl_mem _ fun u (c : Nat × Byte × Byte) => taint_mem u c.1]
    split
    · exact foldl_mem _ (fun u (c : Nat × Byte × Byte) => untype_mem u c.1 none) _ _
    · rfl

/-- R315: a store outside folds all of whose bytes lie in scratchpads changes memory by its cells alone. -/
theorem performStore_scratch_mem (hf : r.fold = none) (scratch : ∀ c ∈ r.cells, levelOf c.1 = .scratch)
    (h : performStore s core r = some t) : t.mem = (s.putCells r.cells).mem := by
  have all : ∀ u : State, r.onPath u core .scratch = r.cells := fun u =>
    List.filter_eq_self.2 fun c hc => by simp [path_of_scratch (scratch c hc)]
  have skip : ∀ (u : State) (p : StorePath), p ≠ .scratch → performPart u core r p = u := fun u p hp =>
    performPart_nil (List.filter_eq_nil_iff.2 fun c hc => by simpa [path_of_scratch (scratch c hc)] using hp.symm)
  unfold performStore at h
  simp only [hf] at h
  split at h
  · cases h
  · cases h
    simp only [List.foldl_cons, List.foldl_nil, skip _ .frame nofun, skip _ .host nofun, skip _ .near nofun,
      skip _ .home nofun, finishStore_mem, performPart_scratch_mem, all]
    exact putCells_mem_congr _ _ _ (clearPoison_mem ..)

/-! ### The atomic at its point (R178) -/

/-- The levels are ranges of keys: what lies between two scratchpad bytes is scratchpad. -/
theorem levelOf_scratch_between {a b k : Nat} (ha : levelOf a = .scratch) (hb : levelOf b = .scratch) (h : a ≤ k)
    (h' : k ≤ b) : levelOf k = .scratch := by
  have range : ∀ j, levelOf j = .scratch ↔ 2 ^ 62 ≤ j ∧ j < 2 ^ 62 + 2 ^ 40 := by
    intro j
    unfold levelOf
    split_ifs <;> simp <;> omega
  rw [range] at *
  omega

@[simp] theorem noteLs_mem (s : State) (f k : Nat) : (s.noteLs f k).mem = s.mem := rfl

/-- The store that an atomic makes of `n` new bytes. -/
def atomicReq (s : State) (f : Nat) (va : DWord) (key n : Nat) (scope : Scope) (bs : List Byte) : StoreReq :=
  ⟨(List.range n).map fun i => (key + i, bs.getD i 0, 0xFF), va, scope, false, none, f, s.ctxOf f, (s.fib f).k, true, none⟩

/-- What an atomic at a scratchpad that answers has done: nothing where `fn` makes nothing, else one store. -/
theorem atomicAt_scratch_cases {f : Nat} {va : DWord} {key n : Nat} {scope : Scope} {fn : List Byte → Option (List Byte)}
    {old : List Byte} {k : Nat} (h : atomicAt s f va ⟨.scratch, key⟩ n scope fn = .ok (old, k, t)) :
    old = s.bytes key n ∧ ((fn old = none ∧ t.mem = s.mem) ∨ ∃ bs u, fn old = some bs ∧
      performStore s (s.fib f).core (atomicReq s f va key n scope bs) = some u ∧ t.mem = u.mem) := by
  obtain ⟨-, -, h⟩ := Res.bind_eq_ok h
  have bytes : List.map s.byte (List.map (fun x => key + x) (List.range n)) = s.bytes key n := List.map_map ..
  simp only [bytes] at h
  split at h
  · cases h
  cases hf : fn (s.bytes key n) with
  | none =>
    simp only [hf] at h
    cases h
    exact ⟨rfl, .inl ⟨hf, rfl⟩⟩
  | some bs =>
    simp only [hf] at h
    split at h
    · cases h
    · next u hu =>
      cases h
      exact ⟨rfl, .inr ⟨bs, u, hf, hu, rfl⟩⟩

/-- Settles O29: the one store of the atomic changes memory by its cells alone, which are the new bytes from `key` on. -/
theorem atomicPoint : Obligations.AtomicPoint := by
  intro s t f va key n scope fn old k low high pos len h
  obtain ⟨rfl, ⟨idle, same⟩ | ⟨bs, u, makes, store, same⟩⟩ := atomicAt_scratch_cases h
  · refine ⟨rfl, ?_, fun j _ => byte_of_mem same j⟩
    rw [idle]
    exact bytes_congr key n fun i _ => byte_of_mem same _
  · have scratch : ∀ c ∈ (atomicReq s f va key n scope bs).cells, levelOf c.1 = .scratch := by
      intro c hc
      obtain ⟨i, hi, rfl⟩ := List.mem_map.1 hc
      have := List.mem_range.1 hi
      exact levelOf_scratch_between low high (by simp) (by simp; omega)
    have byte : ∀ j, t.byte j = if key ≤ j ∧ j < key + n then bs.getD (j - key) 0 else s.byte j := by
      intro j
      rw [byte_of_mem (same.trans (performStore_scratch_mem rfl scratch store))]
      exact byte_putCells_run s key bs n j
    refine ⟨rfl, ?_, fun j hj => ?_⟩
    · rw [makes, Option.getD_some]
      refine List.ext_getElem (by simp [State.bytes, len bs makes]) fun i hi hi' => ?_
      have inside : key ≤ key + i ∧ key + i < key + n := by
        have := len bs makes
        omega
      simp only [State.bytes, List.getElem_map, List.getElem_range, byte, if_pos inside, Nat.add_sub_cancel_left]
      rw [List.getD_eq_getElem _ _ hi']
    · rw [byte, if_neg (by omega)]

end Sys2Proof.Machine
end

section
/-! PROOFS. Atomics: the values of the table, and the four instructions. -/

namespace Sys2Proof.Machine

variable {n : Nat}

/-! ### The values of R176 -/

theorem minWord_toNat (a b : BitVec n) : minWord true a b = if a.toNat ≤ b.toNat then a else b := by
  simp only [minWord, compareInt_le, decide_eq_true_eq, if_true]

theorem minWord_toInt (a b : BitVec n) : minWord false a b = if a.toInt ≤ b.toInt then a else b := by
  simp only [minWord, compareInt_le, decide_eq_true_eq, Bool.false_eq_true, if_false]

theorem maxWord_toNat (a b : BitVec n) : maxWord true a b = if b.toNat ≤ a.toNat then a else b := by
  simp only [maxWord, compareInt_ge, compareInt_le, decide_eq_true_eq, if_true]

theorem maxWord_toInt (a b : BitVec n) : maxWord false a b = if b.toInt ≤ a.toInt then a else b := by
  simp only [maxWord, compareInt_ge, compareInt_le, decide_eq_true_eq, Bool.false_eq_true, if_false]

/-- The value that the model leaves is that of the table. -/
theorem atomValue_eq_table (op : AtomOp) (old b : BitVec n) : atomValue op old b = atomTable op old b := by
  cases op with
  | min => exact minWord_toInt old b
  | max => exact maxWord_toInt old b
  | minu => exact minWord_toNat old b
  | maxu => exact maxWord_toNat old b
  | _ => rfl

theorem atomMapped_eq (op : AtomOp) : atomMapped op = (decide (op = .add) || decide (op = .xchg)) := by
  cases op <;> rfl

/-! ### One lane (R176, R177) -/

/-- R176: D takes the old value unless `.nr` drops it. -/
def atomReturned (nr dbl : Bool) (m : AtmF) (s : State) (f : Nat) (old : List Byte) : State :=
  if nr then s else s.modFib f fun x => x.setWide dbl m.d (BitVec.ofNat 64 (natOfBytes old))

/-- A lane whose access succeeds answers the old value. -/
theorem atomLane_ok {s u : State} {f : Nat} {m : AtmF} {dbl nr mapped : Bool} {fn : DWord → Option DWord}
    {new : List Byte → Option (List Byte)} {old : List Byte}
    (ready : nr = false → needWide (s.fib f) dbl m.d = .ok ())
    (same : ∀ bs, ((fn (dword (natOfBytes bs))).map fun v => bytesOfNat (if dbl then 8 else 4) v.toNat) = new bs)
    (h : atomicAccess s f m (if dbl then 8 else 4) mapped new = .ok (old, u)) :
    atomLane s f m dbl (!nr) mapped fn = .ok (.next, atomReturned nr dbl m u f old) := by
  have fits : (if (!nr) = true then needWide (s.fib f) dbl m.d else .ok ()) = .ok () := by
    cases nr with
    | true => rfl
    | false => exact ready rfl
  simp only [atomLane, fits, Res.bind_ok, funext same, h, putWide_eq]
  cases nr <;> rfl

variable {i : Instr} {s : State} {f : Nat}

theorem src32_reg {b : BitVec 8} (ready : RegsReady i (s.fib f)) (hb : (b.toNat, 1) ∈ laneSpans i) :
    src32 s f (.v b) = .ok ((s.fib f).reg b.toNat) :=
  src32_ready ready (.v b) (by simpa [srcSpan] using hb)

theorem lowWord_dword (k : Nat) : lowWord (dword k) = BitVec.ofNat 32 k := by
  simp [lowWord, dword, BitVec.setWidth_ofNat_of_le]

/-- Settles O28: each instruction is one access with the function that its table entry gives. -/
theorem atomics : Obligations.Atomics := by
  intro g m op nr c ret
  refine ⟨?atom, ?atomd, ?cas, ?casd⟩
  case atom =>
    refine lanewise_of _ _ _ (fun s => @rfl _ (execAtom g m op nr s)) ?_
    rintro s r _ u l f how v - ready ⟨rfl, old, w, access, rfl⟩
    rw [src32_reg ready (by simp [laneSpans, atmSpans]), Res.bind_ok, atomMapped_eq]
    refine atomLane_ok (dbl := false) (fun hn => ready.word (by simp [laneSpans, atmSpans, hn])) (fun bs => ?_) access
    simp only [Option.map_some, lowWord_dword, atomValue_eq_table, BitVec.toNat_setWidth_of_le (show 32 ≤ 64 by decide)]
    rfl
  case atomd =>
    refine lanewise_of _ _ _ (fun s => @rfl _ (execAtomd g m op nr s)) ?_
    rintro s r _ u l f how v - ready ⟨rfl, old, w, access, rfl⟩
    rw [src64_ready ready (.v m.b) (by simp [laneSpans, atmSpans, srcSpan]), Res.bind_ok, atomMapped_eq]
    refine atomLane_ok (dbl := true) (fun hn => ready.pair (by simp [laneSpans, atmSpans, hn])) (fun bs => ?_) access
    simp [dword, atomValue_eq_table]
  case cas =>
    refine lanewise_of _ _ _ (fun s => @rfl _ (execCas g m c s)) ?_
    rintro s r _ u l f how v - ready ⟨rfl, old, w, access, rfl⟩
    rw [src32_reg ready (by simp [laneSpans, atmSpans]), Res.bind_ok, src32_reg ready (by simp [laneSpans]), Res.bind_ok]
    refine atomLane_ok (dbl := false) (nr := false) (fun _ => ready.word (by simp [laneSpans, atmSpans])) (fun bs => ?_) access
    rw [lowWord_dword, apply_ite (Option.map _), Option.map_some, BitVec.toNat_setWidth_of_le (show 32 ≤ 64 by decide)]
    rfl
  case casd =>
    refine lanewise_of _ _ _ (fun s => @rfl _ (execCasd g m c s)) ?_
    rintro s r _ u l f how v - ready ⟨rfl, old, w, access, rfl⟩
    rw [src64_ready ready (.v m.b) (by simp [laneSpans, atmSpans, srcSpan]), Res.bind_ok,
      src64_ready ready (.v c) (by simp [laneSpans, srcSpan]), Res.bind_ok]
    refine atomLane_ok (dbl := true) (nr := false) (fun _ => ready.pair (by simp [laneSpans, atmSpans])) (fun bs => ?_) access
    rw [apply_ite (Option.map _), Option.map_some]
    rfl

end Sys2Proof.Machine
end

section
/-! PROOFS. Folds and views: the instructions on one lane, and what an acquire does to a view. -/

namespace Sys2Proof.Machine

variable {s u : State} {f k : Nat} {x : Fibre}

/-! ### Folds (R184, R185, R187) -/

theorem fopen_opens (g : Guard) (n : BitVec 2) : EachLane (.fopen g n) fun s _ f v =>
    slotAt s f n = none ∧ (s.fib f).openFold = none ∧
      ((s.ctx (s.ctxOf f)).folds = 0 ∨ (s.ctx (s.ctxOf f)).folds ≤ Config.foldPool (s.ctxOf f)) ∧
      let slice := sliceOf (s.fib f).core
      let tag : FoldTag := ⟨(s.tm (s.fib f).team).devIndex, slice, tabGetD s.dev.foldSeq slice 0⟩
      v = ((({ s with folds := s.folds ++ [Fold.fresh tag (s.ctxOf f) f n.toNat] }).modCtx (s.ctxOf f) fun c =>
          { c with folds := c.folds + 1 }).modDev fun d => { d with foldSeq := tabPut d.foldSeq slice (tag.seq + 1) }).modFib
        f fun x => x.setSlot n.toNat (some ⟨tag, .open, 0⟩) := by
  refine lanewise_of _ _ _ (fun s => @rfl _ (execFopen g n s)) ?_
  rintro s r _ u l f how v - - ⟨rfl, empty, closed, room, rfl⟩
  have pool : (decide ((u.ctx (u.ctxOf f)).folds = 0)
      || decide ((u.ctx (u.ctxOf f)).folds ≤ Config.foldPool (u.ctxOf f))) = true := by
    simpa using room
  simp only [openLane, empty, closed, pool, Option.isSome_none, Bool.false_eq_true, if_false, if_true]
  rfl

/-- R185: an open fold starts its seal. -/
theorem fseal_starts (g : Guard) (d : BitVec 8) (n : BitVec 2) : EachLane (.fseal g d n) fun s _ f v =>
    ∃ sl s1, slotAt s f n = some sl ∧ sl.st = .open ∧ drainAt s f .system false = .ok s1 ∧
      v = ((s1.bump).modFold sl.tag fun r => { r with dreg := some d.toNat, tok := some s1.seq }).modFib f fun x =>
        { x.setSlot n.toNat (some { sl with st := .sealing }) with
          busy := x.busy ++ [(d.toNat, s1.seq), (d.toNat + 1, s1.seq)] } := by
  refine lanewise_of _ _ _ (fun s => @rfl _ (execFseal g d n s)) ?_
  rintro s r _ u l f how v - ready ⟨rfl, sl, s1, slot, isOpen, drain, rfl⟩
  simp only [sealLane, ready.pair (n := d) (by simp [laneSpans]), Res.bind_ok, slot, isOpen, drain]
  rfl

/-- R185: an ended fold hands over how it ended. -/
theorem fseal_answers (g : Guard) (d : BitVec 8) (n : BitVec 2) : EachLane (.fseal g d n) fun s _ f v =>
    ∃ sl s1, slotAt s f n = some sl ∧ drainAt s f .system false = .ok s1 ∧
      ((sl.st = .committed ∧ v = s1.modFib f fun x => x.setPair d.toNat (BitVec.ofNat 64 sl.stamp)) ∨
       (sl.st = .aborted ∧ v = s1.modFib f fun x => x.setPair d.toNat (1 <<< 63))) := by
  refine lanewise_of _ _ _ (fun s => @rfl _ (execFseal g d n s)) ?_
  rintro s r _ u l f how v - ready ⟨rfl, sl, s1, slot, drain, ⟨ended, rfl⟩ | ⟨ended, rfl⟩⟩
  · simp only [sealLane, ready.pair (n := d) (by simp [laneSpans]), Res.bind_ok, slot, ended, drain, sealResult, if_true]
    rfl
  · simp only [sealLane, ready.pair (n := d) (by simp [laneSpans]), Res.bind_ok, slot, ended, drain, sealResult, reduceCtorEq,
      if_false]
    rfl

theorem fabort_answers (g : Guard) (d : BitVec 8) (n : BitVec 2) : EachLane (.fabort g d n) fun s _ f v =>
    (slotAt s f n = none ∧ v = s.modFib f fun x => x.setReg d.toNat 3) ∨
    (∃ sl, slotAt s f n = some sl ∧
      let out := fun (s : State) (c : Word) => (s.modFib f fun x => x.setSlot n.toNat none).modFib f fun x =>
        x.setReg d.toNat c
      ((sl.st = .open ∧ v = out (discardFold s sl.tag f) 0) ∨ (sl.st = .committed ∧ v = out s 1) ∨
       (sl.st = .aborted ∧ v = out s 2))) := by
  refine lanewise_of _ _ _ (fun s => @rfl _ (execFabort g d n s)) ?_
  rintro s r _ u l f how v - ready ⟨rfl, ⟨slot, rfl⟩ | ⟨sl, slot, ended⟩⟩
  · simp only [ready.word (n := d) (by simp [laneSpans]), Res.bind_ok, abortLane, slot]
    rfl
  · rcases ended with ⟨st, rfl⟩ | ⟨st, rfl⟩ | ⟨st, rfl⟩ <;>
    · simp only [ready.word (n := d) (by simp [laneSpans]), Res.bind_ok, abortLane, slot, st]
      rfl

/-! ### Views (R188, R344) -/

theorem view_reads (g : Guard) (d : BitVec 8) : EachLane (.view g d none) fun s _ f v =>
    ∃ u, advanceView s f .system 0 = .ok u ∧
      v = u.modFib f fun x => x.setPair d.toNat (BitVec.ofNat 64 ((u.fib f).vst % 2 ^ 56)) := by
  refine lanewise_of _ _ _ (fun s => @rfl _ (execView g d none s)) ?_
  rintro s r _ u l f how v - ready ⟨rfl, w, advance, rfl⟩
  simp only [ready.pair (n := d) (by simp [laneSpans]), Res.bind_ok, viewLane, advance]
  rfl

/-- A fibre that advances its view, and then writes what it reads of it. -/
theorem modFib_viewed_setPair (s : State) (f t : Nat) (d : BitVec 8) :
    let u := s.modFib f fun x => x.viewed (max x.vst t)
    put64 u f d (dword ((u.fib f).vst % 2 ^ 56)) = s.modFib f fun x =>
      (x.viewed (max x.vst t)).setPair d.toNat (BitVec.ofNat 64 (max x.vst t % 2 ^ 56)) := by
  intro u
  rw [put64, State.modFib_modFib]
  cases hx : tabGet s.fibres f with
  | none => simp only [State.modFib, tabMod, hx]
  | some x =>
    have own : u.fib f = x.viewed (max x.vst t) := State.fib_eq u f _ (by simp [u, hx])
    rw [own]
    exact modFib_congr (s := s) (F := s.fibres) hx _ _ rfl

theorem view_advances (g : Guard) (d : BitVec 8) (a : Src) : EachLane (.view g d (some a)) fun s _ f v =>
    let t := (s.op64 (s.fib f) a).toNat % 2 ^ 56
    t ≤ s.dev.hb + 2 ^ 16 ∧ t ≤ max (s.fib f).vst (s.systemSettled (s.launchDevs f)) ∧
    v = s.modFib f fun x => (x.viewed (max x.vst t)).setPair d.toNat (BitVec.ofNat 64 (max x.vst t % 2 ^ 56)) := by
  refine lanewise_of _ _ _ (fun s => @rfl _ (execView g d (some a) s)) ?_
  rintro s r _ u l f how v - ready ⟨rfl, near, settled, rfl⟩
  have early : ¬ Nat.max (u.fib f).vst (u.systemSettled (u.launchDevs f)) < (u.op64 (u.fib f) a).toNat % 2 ^ 56 :=
    Nat.not_lt.2 settled
  simp only [ready.pair (n := d) (by simp [laneSpans]), Res.bind_ok, src64_ready ready a (by simp +contextual [laneSpans]), Res.map,
    viewLane, if_neg near.not_gt, if_neg early]
  exact congrArg (fun v => Res.ok (Adv.next, v)) (modFib_viewed_setPair u f _ d)

/-- R344: an acquire waits while the carried stamp leads the heartbeat. -/
theorem advanceView_waits {scope : Scope} (leads : s.dev.hb < k) : advanceView s f scope k = .wait := if_pos leads

/-- R344: an acquire raises the view to the carried stamp and the settled stamp of its scope, and never lowers it. -/
theorem advanceView_raises {scope : Scope} (hx : tabGet s.fibres f = some x) (reached : k ≤ s.dev.hb) :
    ∃ t, advanceView s f scope k = .ok t ∧ x.vst ≤ (t.fib f).vst ∧ k ≤ (t.fib f).vst ∧
      (scope = .device → s.settled ≤ (t.fib f).vst) ∧ (∀ g, g ≠ f → tabGet t.fibres g = tabGet s.fibres g) ∧
      t.mem = s.mem := by
  refine ⟨s.modFib f fun y => y.viewed (max y.vst (max k
      (if scope.code ≤ 4 then s.settled else s.systemSettled (s.launchDevs f)))), if_neg reached.not_gt, ?_⟩
  have own : (s.modFib f fun y => y.viewed (max y.vst (max k
      (if scope.code ≤ 4 then s.settled else s.systemSettled (s.launchDevs f))))).fib f = x.viewed (max x.vst (max k
      (if scope.code ≤ 4 then s.settled else s.systemSettled (s.launchDevs f)))) := State.fib_eq _ _ _ (by simp [hx])
  rw [own]
  refine ⟨le_max_left .., (le_max_left ..).trans (le_max_right ..), ?_, fun g hg => ?_, rfl⟩
  · rintro rfl
    exact (le_max_right ..).trans (le_max_right ..)
  · simp [tabGet_tabMod, hg.symm]

/-- Settles O31: each instruction is its own step on its fibre's slot or view, and an acquire takes the greatest of the view,
the carried stamp and the settled stamp. -/
theorem foldsViews : Obligations.FoldsViews :=
  ⟨fun g d n a => ⟨fopen_opens g n, fseal_starts g d n, fseal_answers g d n, fabort_answers g d n, view_reads g d,
    view_advances g d a⟩, fun _ _ _ _ _ hx => ⟨advanceView_waits, advanceView_raises hx⟩⟩

end Sys2Proof.Machine
end

section
/-! PROOFS. Barrier lines: the instructions, and what an arrival and a `.kill` leave of the line and of memory. -/

namespace Sys2Proof.Machine

variable {s u : State} {line k : Nat}

/-! ### What an operation at a home leaves of the counts of `.leave` (R191) -/

/-- The arrivals of `.leave` that every line counts are as they were. -/
def SameLeaves (s t : State) : Prop := ∀ l, (t.line l).leaves = (s.line l).leaves

theorem SameLeaves.of_lines {t : State} (h : t.lines = s.lines) : SameLeaves s t := fun l => by rw [State.line, h]; rfl

theorem SameLeaves.trans {t u : State} (h : SameLeaves s t) (h' : SameLeaves t u) : SameLeaves s u :=
  fun l => (h' l).trans (h l)

theorem SameLeaves.foldl {α : Type} (g : State → α → State) (hg : ∀ s x, SameLeaves s (g s x)) (l : List α) (s : State) :
    SameLeaves s (l.foldl g s) :=
  foldl_keeps (SameLeaves s) g l (fun u x _ h => h.trans (hg u x)) s fun _ => rfl

theorem modLine_line (s : State) (l : Nat) (g : Line → Line) (j : Nat) :
    (s.modLine l g).line j = if l = j then g (s.line l) else s.line j :=
  tabGetD_tabPutD Line.reset s.lines l (g (s.line l)) j

theorem raiseLs_sameLeaves (s : State) (key k : Nat) : SameLeaves s (s.raiseLs key k) := by
  intro l
  unfold State.raiseLs
  split
  · rfl
  · rw [modLine_line]
    split
    · next h => rw [h]
    · rfl

theorem putCells_lines (s : State) (cells : List (Nat × Byte × Byte)) : (s.putCells cells).lines = s.lines :=
  foldl_keeps (fun u => u.lines = s.lines)
    (fun (s : State) (c : Nat × Byte × Byte) => s.putByte c.1 (mergeByte (s.byte c.1) c.2.1 c.2.2)) cells (fun _ _ _ h => h) s rfl

theorem markCode_lines (s : State) (fs : List Nat) (cells : List (Nat × Byte × Byte)) :
    (s.markCode fs cells).lines = s.lines := by
  unfold State.markCode
  dsimp only
  split <;> rfl

theorem backInvalidate_lines (s : State) (keys : List Nat) (write : Bool) :
    (s.backInvalidate keys write).lines = s.lines := by
  unfold State.backInvalidate
  split <;> rfl

theorem mergeHome_sameLeaves (s : State) (cl : Nat) (d : Nat × DirtyByte) : SameLeaves s (s.mergeHome cl d) := by
  unfold State.mergeHome
  have gone : SameLeaves s ((s.modClus cl fun c => { c with dirty := tabDel c.dirty d.1 }).invalidate (lineOf d.1)
      (wordSpan d.1 1 false) none) := SameLeaves.of_lines rfl
  have merged := gone.trans (SameLeaves.of_lines (putCells_lines _ [(d.1, d.2.val, d.2.mask)]))
  have raised := merged.trans (raiseLs_sameLeaves _ d.1 d.2.ls)
  exact raised.trans (SameLeaves.of_lines (markCode_lines _ d.2.storers [(d.1, d.2.val, d.2.mask)]))

theorem flushWords_sameLeaves (s : State) (hit : Nat → Bool) : SameLeaves s (s.flushWords hit) := by
  unfold State.flushWords
  refine SameLeaves.foldl _ (fun u c => SameLeaves.foldl _ (fun v d => ?_) _ u) _ s
  split
  · exact mergeHome_sameLeaves v _ d
  · exact fun _ => rfl

theorem dropDirty_sameLeaves (s : State) (keys : List Nat) : SameLeaves s (s.dropDirty keys) := SameLeaves.of_lines rfl
theorem wakeWords_sameLeaves (s : State) (keys : List Nat) : SameLeaves s (s.wakeWords keys) := SameLeaves.of_lines rfl

theorem performSpan_sameLeaves (s : State) (cells : List (Nat × Byte × Byte)) (k : Nat) (whole : Bool) :
    SameLeaves s (s.performSpan cells k whole) := by
  unfold State.performSpan State.performQuiet
  dsimp only
  have flushed := flushWords_sameLeaves s fun a => cells.any fun c =>
    if whole then lineOf c.1 = lineOf a else c.1 / 8 = a / 8
  have taken := flushed.trans (SameLeaves.of_lines (backInvalidate_lines _ (cells.map (·.1)) true))
  have dropped := taken.trans (dropDirty_sameLeaves _ ((cells.filter fun c => c.2.2 = 0xFF).map (·.1)))
  have invalid := dropped.trans (SameLeaves.foldl (fun u c => u.invalidate (lineOf c.1) (wordSpan c.1 1 whole) none)
    (fun u c => SameLeaves.of_lines rfl) cells _)
  have merged := invalid.trans (SameLeaves.of_lines (putCells_lines _ cells))
  have raised := merged.trans (SameLeaves.foldl (fun u c => u.raiseLs c.1 k) (fun u c => raiseLs_sameLeaves u c.1 k) cells _)
  exact raised.trans (wakeWords_sameLeaves _ (cells.map (·.1)))

/-! ### Writing a line (R190) -/

theorem lineOf_key (line : Nat) : lineOf (line * 128) = line := Nat.mul_div_cancel line (by decide)

theorem putBarrier_live (s : State) (line expect arrived phase flags status k : Nat) :
    (putBarrier s line expect arrived phase flags status k).barrierLive (line * 128) = decide (flags = 1) := by
  rw [State.barrierLive, lineOf_key, putBarrier, modLine_line, if_pos rfl]

theorem putBarrier_leaves (s : State) (line expect arrived phase flags status k : Nat) :
    ((putBarrier s line expect arrived phase flags status k).line line).leaves = (s.line line).leaves := by
  rw [putBarrier, modLine_line, if_pos rfl]
  exact performSpan_sameLeaves _ _ _ _ line

theorem putBarrier_flags (s : State) (line expect arrived phase flags status k : Nat) :
    (putBarrier s line expect arrived phase flags status k).barField line 0x0C 4 = flags % 2 ^ 32 := by
  refine num_getD _ _ 4 _ fun i hi => ?_
  rw [putBarrier_byte, if_pos (by omega)]
  interval_cases i <;> simp [barrierBytes, bytesOfNat, Nat.add_assoc]

theorem barField_lt (s : State) (line ofs n : Nat) : s.barField line ofs n < 2 ^ (8 * n) := num_lt _ _ _

/-- The fields of a line that an arrival writes, all of them within their widths. -/
theorem putBarrier_reads {e a p fl st : Nat} (he : e < 2 ^ 32) (ha : a < 2 ^ 32) (hp : p < 2 ^ 32) (hf : fl < 2 ^ 32)
    (hs : st < 2 ^ 64) :
    let u := putBarrier s line e a p fl st k
    u.barField line 0 4 = e ∧ u.barField line 4 4 = a ∧ u.barField line 8 4 = p ∧ u.barField line 0x0C 4 = fl ∧
      u.barField line 0x10 8 = st := by
  obtain ⟨expect, arrived, phase, status⟩ := putBarrier_fields s line e a p fl st k
  refine ⟨expect.trans (Nat.mod_eq_of_lt he), arrived.trans (Nat.mod_eq_of_lt ha), phase.trans (Nat.mod_eq_of_lt hp),
    (putBarrier_flags ..).trans (Nat.mod_eq_of_lt hf), status.trans (Nat.mod_eq_of_lt hs)⟩

/-! ### An arrival (R190, R191) -/

theorem wakeBarrier_line (s : State) (line l : Nat) : (wakeBarrier s line).line l = s.line l := rfl
theorem wakeBarrier_live (s : State) (line key : Nat) : (wakeBarrier s line).barrierLive key = s.barrierLive key := rfl

theorem arriveAt_phase (s : State) (line k : Nat) (leave : Bool) : (arriveAt s line k leave).1 = s.barField line 8 4 := by
  unfold arriveAt
  dsimp only
  split <;> rfl

/-- The arrivals of `.leave` of the phase, this one counted. -/
def leftAfter (s : State) (line : Nat) (leave : Bool) : Nat := (s.line line).leaves + (if leave then 1 else 0)

theorem arriveAt_last {leave : Bool} (h : (s.barField line 4 4 + 1) % 2 ^ 32 = s.barField line 0 4) :
    (arriveAt s line k leave).2 = wakeBarrier (putBarrier (s.modLine line fun l => { l with leaves := 0 }) line
      (s.barField line 0 4 - leftAfter s line leave) 0 ((s.barField line 8 4 + 1) % 2 ^ 32)
      (if s.barField line 0 4 - leftAfter s line leave = 0 then 0 else 1) (s.barField line 0x10 8) k) line := by
  unfold arriveAt
  exact congrArg Prod.snd (if_pos h)

theorem arriveAt_other {leave : Bool} (h : (s.barField line 4 4 + 1) % 2 ^ 32 ≠ s.barField line 0 4) :
    (arriveAt s line k leave).2 = putBarrier (s.modLine line fun l => { l with leaves := leftAfter s line leave }) line
      (s.barField line 0 4) ((s.barField line 4 4 + 1) % 2 ^ 32) (s.barField line 8 4) 1 (s.barField line 0x10 8) k := by
  unfold arriveAt
  exact congrArg Prod.snd (if_neg h)

theorem arriveAt_byte (leave : Bool) {b : Nat} (hb : b < line * 128 ∨ line * 128 + 24 ≤ b) :
    (arriveAt s line k leave).2.byte b = s.byte b := by
  have outside : ¬ (line * 128 ≤ b ∧ b < line * 128 + 24) := by omega
  by_cases h : (s.barField line 4 4 + 1) % 2 ^ 32 = s.barField line 0 4
  · rw [arriveAt_last h, byte_of_mem (wakeBarrier_mem ..), putBarrier_byte, if_neg outside, byte_of_mem (State.modLine_mem ..)]
  · rw [arriveAt_other h, putBarrier_byte, if_neg outside, byte_of_mem (State.modLine_mem ..)]

/-- R191: the arrival that meets EXPECT moves the phase on. -/
theorem arriveAt_last_fields (leave : Bool) (h : (s.barField line 4 4 + 1) % 2 ^ 32 = s.barField line 0 4) :
    let u := (arriveAt s line k leave).2
    let expect := s.barField line 0 4
    let left := leftAfter s line leave
    u.barField line 4 4 = 0 ∧ u.barField line 8 4 = (s.barField line 8 4 + 1) % 2 ^ 32 ∧
      u.barField line 0 4 = expect - left ∧ u.barField line 0x0C 4 = (if expect ≤ left then 0 else 1) ∧
      u.barrierLive (line * 128) = decide (left < expect) ∧ (u.line line).leaves = 0 ∧
      u.barField line 0x10 8 = s.barField line 0x10 8 := by
  intro u expect left
  have ended : expect - left = 0 ↔ expect ≤ left := Nat.sub_eq_zero_iff_le
  have small : expect - left < 2 ^ 32 := Nat.lt_of_le_of_lt (Nat.sub_le _ _) (barField_lt s line 0 4)
  have flag : (if expect - left = 0 then 0 else 1) < 2 ^ 32 := by split <;> decide
  obtain ⟨he, ha, hp, hf, hs⟩ := putBarrier_reads (s := s.modLine line fun l => { l with leaves := 0 }) (line := line)
    (k := k) (a := 0) (p := (s.barField line 8 4 + 1) % 2 ^ 32) small (by decide) (Nat.mod_lt _ (by decide)) flag
    (barField_lt s line 0x10 8)
  simp only [u, arriveAt_last h, barField_of_mem (wakeBarrier_mem ..), wakeBarrier_line, wakeBarrier_live, putBarrier_live,
    putBarrier_leaves, modLine_line, if_true]
  refine ⟨ha, hp, he, hf.trans (if_congr ended rfl rfl), decide_eq_decide.2 ?_, trivial, hs⟩
  show (if expect - left = 0 then 0 else 1) = 1 ↔ left < expect
  split <;> omega

/-- R191: any other arrival counts one. -/
theorem arriveAt_other_fields (leave : Bool) (h : (s.barField line 4 4 + 1) % 2 ^ 32 ≠ s.barField line 0 4) :
    let u := (arriveAt s line k leave).2
    u.barField line 4 4 = (s.barField line 4 4 + 1) % 2 ^ 32 ∧ u.barField line 8 4 = s.barField line 8 4 ∧
      u.barField line 0 4 = s.barField line 0 4 ∧ u.barField line 0x0C 4 = 1 ∧ u.barrierLive (line * 128) = true ∧
      (u.line line).leaves = leftAfter s line leave ∧ u.barField line 0x10 8 = s.barField line 0x10 8 := by
  intro u
  obtain ⟨he, ha, hp, hf, hs⟩ := putBarrier_reads (k := k) (line := line)
    (s := s.modLine line fun l => { l with leaves := leftAfter s line leave })
    (barField_lt s line 0 4) (Nat.mod_lt (s.barField line 4 4 + 1) (by decide)) (barField_lt s line 8 4)
    (show 1 < 2 ^ 32 by decide) (barField_lt s line 0x10 8)
  simp only [u, arriveAt_other h, putBarrier_live, putBarrier_leaves, modLine_line, if_true]
  exact ⟨ha, hp, he, hf, rfl, trivial, hs⟩

theorem mergeByte_clear (x : Byte) : mergeByte x 0 1 = x &&& 0xFE := by
  simp [mergeByte]

/-- R191: `.kill` clears LIVE, and with it bit 0 of the flags; no other bit that no L1 holds dirty changes. -/
theorem killBarrier_byte {b : Nat} (clean : s.clean b) :
    (killBarrier s line k).byte b = if b = line * 128 + 0x0C then s.byte b &&& 0xFE else s.byte b := by
  unfold killBarrier
  rw [byte_of_mem (State.modLine_mem ..)]
  split
  · next h =>
    subst h
    have merged := performSpan_cell s [(line * 128 + 0x0C, 0, 1)] (line * 128 + 0x0C) 0 1 k false clean
      (List.nodup_singleton _) (List.mem_singleton_self _)
    rw [mergeByte_clear] at merged
    exact merged
  · next h => exact performSpan_byte s _ k false b clean fun c hc e => h (by rw [← e, List.mem_singleton.1 hc])

theorem killBarrier_live (s : State) (line k : Nat) : (killBarrier s line k).barrierLive (line * 128) = false := by
  rw [State.barrierLive, lineOf_key, killBarrier, modLine_line, if_pos rfl]

/-! ### The instructions (R190 to R193) -/

/-- What a lane that arrives does. -/
def arrives (d : BitVec 8) (m : LineF) (leave : Bool) (s : State) (_ : Run) (f : Nat) (v : State) : Prop :=
  ∃ va line s1 u, barrierLine s f m .atomic = .ok (va, line, s1) ∧ s1.barrierLive (line * 128) = true ∧
    copyHolds s1 line = false ∧ drainAt s1 f m.scope false = .ok u ∧ (u.line line).pend = none ∧
    let w := arriveAt (clearLine u line) line (u.fib f).k leave
    v = w.2.modFib f fun x => x.setReg d.toNat (BitVec.ofNat 32 w.1)

theorem arriveLane_ok {d : BitVec 8} {m : LineF} {leave : Bool} {r : Run} {f : Nat} {v : State}
    (ready : need32 (s.fib f) d = .ok ()) (h : arrives d m leave s r f v) : arriveLane s f d m leave = .ok (.next, v) := by
  obtain ⟨va, line, s1, u, place, live, free, drain, pend, rfl⟩ := h
  simp only [arriveLane, ready, Res.bind_ok, place, live, free, drain, lineOpen, pend, Bool.not_true, Bool.or_self,
    Bool.false_eq_true, if_false]
  rfl

theorem baraArrive_arrives (g : Guard) (d : BitVec 8) (m : LineF) : EachLane (.baraArrive g d m) (arrives d m false) := by
  refine lanewise_of _ _ _ (fun s => @rfl _ (execBaraArrive g d m s)) ?_
  rintro s r _ u l f how v - ready ⟨rfl, h⟩
  exact arriveLane_ok (ready.word (by simp [laneSpans])) h

theorem baraLeave_arrives (g : Guard) (d : BitVec 8) (m : LineF) : EachLane (.baraLeave g d m) (arrives d m true) := by
  refine lanewise_of _ _ _ (fun s => @rfl _ (execBaraLeave g d m s)) ?_
  rintro s r _ u l f how v - ready ⟨rfl, h⟩
  exact arriveLane_ok (ready.word (by simp [laneSpans])) h

theorem baraInit_writes (g : Guard) (d : BitVec 8) (m : LineF) : Flockwise (.baraInit g d m) fun s _ f fs v =>
    ∃ va line s1 w, barrierLine s f m .atomic = .ok (va, line, s1) ∧
      s1.barrierLive (line * 128) = false ∧ 0 < ((s.fib f).reg d.toNat).toNat ∧
      ((s.fib f).reg d.toNat).toNat ≤ 2 ^ 24 ∧ releaseAll s1 fs m.scope = .ok w ∧
      let u := clearLine w line
      (u.line line).pend = none ∧ lineBusy u line = false ∧
      v = putBarrier (u.modLine line fun l => { l with leaves := 0 }) line ((s.fib f).reg d.toNat).toNat 0 0 1 0
        (u.fib f).k := by
  refine flockwise_of _ _ _ (fun s => @rfl _ (execBaraInit g d m s)) ?_
  rintro s r cur f fs v - hI acts rfl ready ⟨va, line, s1, w, place, dead, pos, fits, release, pend, idle, rfl⟩
  have fit : need32 ((advanceLanes s r (r.lanes &&& ~~~guardMask s r (Instr.baraInit g d m).guard)).fib f) d = .ok () := by
    rw [actor_kept hI (acts ▸ List.mem_cons_self)]
    exact (ready f List.mem_cons_self).word (by simp [laneSpans])
  have range : ∀ n, 0 < n → n ≤ 2 ^ 24 → (decide (n = 0) || decide (2 ^ 24 < n)) = false := by
    intro n h h'
    simp; omega
  have all : Res.foldM (fun s h => drainAt s h m.scope false) s1 (f :: fs) = .ok w := release
  simp only [fit, Res.bind_ok, place, dead, range _ pos fits, all, lineOpen, pend, idle, Bool.false_eq_true, if_false]
  rfl

theorem baraKill_kills (g : Guard) (d : BitVec 8) (m : LineF) : Flockwise (.baraKill g d m) fun s _ f fs v =>
    ∃ va line s1 u, barrierLine s f m .atomic = .ok (va, line, s1) ∧
      releaseAll s1 fs m.scope = .ok u ∧ (u.line line).pend = none ∧
      v = wakeBarrier (killBarrier (u.modLine line fun l => { l with leaves := 0 }) line (u.fib f).k) line := by
  refine flockwise_of _ _ _ (fun s => @rfl _ (execBaraKill g d m s)) ?_
  rintro s r cur f fs v - - - - - ⟨va, line, s1, u, place, release, pend, rfl⟩
  have all : Res.foldM (fun s h => drainAt s h m.scope false) s1 (f :: fs) = .ok u := release
  simp only [place, Res.bind_ok, all, lineOpen, pend]
  rfl

theorem barw_passes (g : Guard) (d : BitVec 8) (m : LineF) : EachLane (.barw g d m) fun s _ f v =>
    ∃ va line s1 u, barrierLine s f m .load = .ok (va, line, s1) ∧
      (s1.barrierLive (line * 128) = false ∨ s1.barField line 8 4 ≠ ((s.fib f).reg d.toNat).toNat) ∧
      advanceView s1 f m.scope (s.line line).ls = .ok u ∧ v = observeLine u line := by
  refine lanewise_of _ _ _ (fun s => @rfl _ (execBarw g d m s)) ?_
  rintro s r _ u l f how v - ready ⟨rfl, va, line, s1, w, place, past, advance, rfl⟩
  have moved : barrierMoved s1 line ((u.fib f).reg d.toNat) = true := by
    simpa [barrierMoved] using past
  simp only [barwLane, ready.word (n := d) (by simp [laneSpans]), Res.bind_ok, place, moved, if_true, advance]
  rfl

/-- Settles O32: the instructions by their checks; an arrival by whether it meets EXPECT. -/
theorem barriers : Obligations.Barriers := by
  refine ⟨fun g d m => ⟨baraArrive_arrives g d m, baraLeave_arrives g d m, baraInit_writes g d m, baraKill_kills g d m,
    barw_passes g d m⟩, fun s line k b leave => ⟨arriveAt_phase s line k leave, arriveAt_byte leave, fun h => ?last,
    fun h => ?other, ?status⟩, fun s line k b clean => ⟨killBarrier_live s line k, killBarrier_byte clean⟩⟩
  case last =>
    obtain ⟨arrived, phase, expect, flags, live, leaves, -⟩ := arriveAt_last_fields (k := k) leave h
    exact ⟨arrived, phase, expect, flags, live, leaves⟩
  case other =>
    obtain ⟨arrived, phase, expect, flags, live, leaves, -⟩ := arriveAt_other_fields (k := k) leave h
    exact ⟨arrived, phase, expect, flags, live, leaves⟩
  case status =>
    by_cases h : (s.barField line 4 4 + 1) % 2 ^ 32 = s.barField line 0 4
    · obtain ⟨-, -, -, -, -, -, status⟩ := arriveAt_last_fields (k := k) leave h
      exact status
    · obtain ⟨-, -, -, -, -, -, status⟩ := arriveAt_other_fields (k := k) leave h
      exact status

end Sys2Proof.Machine
end

section
/-! PROOFS. The events of the store queues, the caches, the homes, the folds and the heartbeat. -/

namespace Sys2Proof.Machine

variable {s u : State} {core cl line n f i slice : Nat} {r : StoreReq} {q : Fold}

/-! ### Stores on their way (R330, R332, R341) -/

theorem storeQueueDrain_joins {rest : List StoreReq} (queue : (s.fib f).queue = r :: rest)
    (free : ∀ q ∈ (s.core (s.fib f).core).order, q.fibre = f → performStore s (s.fib f).core q ≠ none) :
    exec (.storeQueueDrain f) s = .next ((s.setFib f { s.fib f with queue := rest }).modCore (s.fib f).core fun c =>
      { c with order := c.order ++ [r] }) := by
  have idle : waitsAtHome s f (s.fib f).core = false := by
    simpa [waitsAtHome, List.any_eq_false] using free
  refine congrArg Host.Outcome.next ?_
  simp only [drainOne, queue, idle, Bool.false_eq_true, if_false]

theorem storeQueueDrain_waits {q : StoreReq} (here : q ∈ (s.core (s.fib f).core).order) (own : q.fibre = f)
    (held : performStore s (s.fib f).core q = none) : exec (.storeQueueDrain f) s = .next s := by
  have waits : waitsAtHome s f (s.fib f).core = true := by
    refine List.any_eq_true.2 ⟨q, here, ?_⟩
    simp [own, held]
  refine congrArg Host.Outcome.next ?_
  unfold drainOne
  simp only [waits, if_true]
  split <;> rfl

/-- R315, R333, R341: what does not keep a later store back. -/
theorem keepsBack_eq_false {q : StoreReq}
    (h : (performStore s core q ≠ none ∧ q.meets r = false ∧ q.sameCore r = false) ∨
      (performStore s core q = none ∧ q.fibre ≠ r.fibre ∧ (q.meets r = false ∨ r.fold.isSome = true))) :
    keepsBack s core q r = false := by
  unfold keepsBack
  rcases h with ⟨free, apart, elsewhere⟩ | ⟨held, other, passes⟩
  · simp [free, apart, elsewhere]
  · have fold : (r.fold.isNone && q.meets r) = false := by
      rcases passes with apart | fold
      · simp [apart]
      · simp [Option.isNone_eq_false_iff.2 fold]
    simp [held, StoreReq.holdsBack, other, fold]

/-- A store of the order is performed once no earlier one keeps it back. -/
theorem performNth_some (here : (s.core core).order[n]? = some r)
    (free : ∀ q ∈ (s.core core).order.take n, keepsBack s core q r = false) (done : performStore s core r = some u) :
    performNth s core n = u.modCore core fun c => { c with order := dropAt c.order n } := by
  have first : ((s.core core).order.take n).any (fun q => keepsBack s core q r) = false :=
    List.any_eq_false.2 fun q hq => by simp [free q hq]
  simp only [performNth, here, first, done, Bool.false_eq_true, if_false]

theorem storePending_eq (here : (s.core core).order[n]? = some r) (fold : r.fold.isSome) :
    exec (.storePending core n) s = .next (performNth s core n) := by
  refine congrArg Host.Outcome.next ?_
  simp only [here, fold, if_true]

/-! ### Caches (R321, R322, R343) -/

theorem fillAt_ok {v : Nat} {ver : Version} (level : levelOf (line * 128) = .dev ∨ levelOf (line * 128) = .remote)
    (sound : s.poisonIn (line * 128) 128 = none) (read : homeRead s line v 0 = .ok ver) :
    fillAt s cl line v = fractureCheck (s.fillCopy cl line (BitVec.allOnes 32) ver) cl ver.tag ver.stamp ver.digest := by
  have passes : (decide (levelOf (line * 128) ≠ .dev) && decide (levelOf (line * 128) ≠ .remote)
      || (s.poisonIn (line * 128) 128).isSome) = false := by
    rcases level with h | h <;> simp [h, sound]
  simp only [fillAt, passes, read, Bool.false_eq_true, if_false]

/-- R322: only the words of the span leave the holder, and the copy with its last word. -/
theorem spanInvalidate_eq {k : Copy} {span : BitVec 32} (held : tabGet (s.clus cl).copies line = some k) :
    exec (.spanInvalidate cl line span) s = .next (s.modClus cl fun c => { c with
      copies := if k.valid &&& ~~~span = 0 then tabDel c.copies line
        else tabPut c.copies line { k with valid := k.valid &&& ~~~span } }) := by
  refine congrArg Host.Outcome.next (congrArg (s.setClus cl) ?_)
  simp only [held]

/-! ### Seals at the homes (R185, R342) -/

section Sealing
variable (here : s.folds[i]? = some q) (sealing : foldSealing s q = true)
include here sealing

theorem endFold_aborts (aborting : q.aborting = true) :
    endFold s i = endSeal (discardPend s q.tag) q .aborted 0 (1#64 <<< 63) := by
  simp only [endFold, here, sealing, aborting, Bool.not_true, Bool.false_eq_true, if_false, if_true]

variable (going : q.aborting = false)
include going

/-- A step of a seal that goes on is made where its own test holds. -/
theorem onFold_eq {ok : Fold → Bool} {g : Fold → State} (h : ok q = true) : onFold s i ok g = g q := by
  simp only [onFold, here, sealing, going, h, Bool.not_false, Bool.and_self, if_true]

section Acknowledge
variable (home : slice ∈ s.foldSlices q) (fresh : slice ∉ q.acked) (quiet : foldQuiet s q.tag = true)
include home fresh quiet

theorem ackFold_cut (cut : foldCut s q slice = true) :
    ackFold s i slice = s.modFold q.tag fun q => { q with aborting := true } := by
  rw [ackFold, onFold_eq here sealing going (by simp [home, fresh, quiet]), if_pos cut]

theorem ackFold_marks (cut : foldCut s q slice = false) :
    ackFold s i slice = (modPends s q slice fun p => { p with st := .acked (s.dev.hb + 1) }).modFold q.tag fun p => { p with
      acked := q.acked ++ [slice]
      lastAck := s.dev.hb
      t := if q.acked.length + 1 = (s.foldSlices q).length then some (sealStamp s q s.dev.hb) else none } := by
  rw [ackFold, onFold_eq here sealing going (by simp [home, fresh, quiet]), if_neg (by simp [cut])]
  simp only [List.length_append, List.length_singleton]

end Acknowledge

theorem stampFold_stamps {x : Nat} (stamp : q.t = some x) (home : slice ∈ s.foldSlices q) (fresh : slice ∉ q.stampedAt) :
    stampFold s i slice = (modPends ((q.lines.filter fun l => s.homeSlice (l * 128) = slice).foldl
      (fun s l => s.invalidate l (BitVec.allOnes 32) none) s) q slice
        fun p => { p with st := .stamped x, digest := q.digest }).modFold q.tag fun p =>
          { p with stampedAt := p.stampedAt ++ [slice] } := by
  rw [stampFold, onFold_eq here sealing going (by simp [stamp, home, fresh])]
  simp only [stamp, Option.getD_some]

theorem confirmFold_promotes {x : Nat} (stamp : q.t = some x) (all : q.stampedAt.length = (s.foldSlices q).length)
    (home : slice ∈ s.foldSlices q) (fresh : slice ∉ q.confirmed) :
    confirmFold s i slice = ((q.lines.filter fun l => s.homeSlice (l * 128) = slice).foldl
      (fun s l => promoteLine s q x l) s).modFold q.tag fun p => { p with confirmed := p.confirmed ++ [slice] } := by
  rw [confirmFold, onFold_eq here sealing going (by simp [stamp, all, home, fresh])]
  simp only [stamp, Option.getD_some]

theorem endFold_empty (empty : q.lines = []) (quiet : foldQuiet s q.tag = true) : endFold s i =
    endSeal s q .committed (sealStamp s q s.dev.hb) (BitVec.ofNat 64 (sealStamp s q s.dev.hb)) := by
  simp only [endFold, here, sealing, going, empty, quiet, Bool.not_true, Bool.false_eq_true, if_false, List.isEmpty_nil,
    if_true]
  rfl

theorem endFold_commits {x : Nat} (stamp : q.t = some x) (lines : q.lines ≠ [])
    (all : q.confirmed.length = (s.foldSlices q).length) :
    endFold s i = endSeal s q .committed x (BitVec.ofNat 64 x) := by
  simp only [endFold, here, sealing, going, List.isEmpty_eq_false_iff.2 lines, all, stamp, Bool.not_true, Bool.false_eq_true,
    if_false, if_true, Option.getD_some]
  rfl

end Sealing

/-! ### Settled stamps and the heartbeat (R344, R391, R458) -/

theorem settledStampAdvertise_own (stamp : Nat) :
    exec (.settledStampAdvertise s.dev.devid stamp) s = .next (s.send (.settled s.settled)) :=
  congrArg Host.Outcome.next (if_pos rfl)

theorem settledStampAdvertise_other {dev stamp : Nat} (other : dev ≠ s.dev.devid) (known : dev ∈ s.dev.fabric) :
    exec (.settledStampAdvertise dev stamp) s = .next (s.modDev fun d =>
      { d with settled := tabPut d.settled dev (max (tabGetD d.settled dev 0) stamp) }) := by
  refine congrArg Host.Outcome.next ?_
  rw [if_neg other, if_neg (by simp [known])]

/-- The end of a function-level reset changes the device's mark and tells Baszer, and nothing else. -/
theorem endReset_eq (s : State) : endReset s = { s with
    dev := { s.dev with inReset := false }
    outbox := s.outbox ++ (if s.dev.inReset then [.sideband 0x64 []] else []) } := by
  unfold endReset
  split
  · rfl
  · next h =>
    have off : s.dev.inReset = false := by simpa using h
    simp only [List.append_nil, ← off]

/-- A flock's watch after a tick: one more where R458 counts it. -/
def Flock.ticked (k : Flock) (s : State) : Flock := if k.watched s then { k with watch := k.watch + 1 } else k

/-- R391, R458: what a tick leaves of the machine. -/
theorem tick_keeps (s : State) : (tick s).dev = { s.dev with hb := s.dev.hb + 1, sub := 0 } ∧
    (tick s).outbox = s.outbox ∧ (tick s).mem = s.mem ∧ (tick s).fibres = s.fibres ∧ (tick s).clusters = s.clusters ∧
    (tick s).ctxs = s.ctxs := by
  unfold tick
  dsimp only
  generalize hu : ({ s with dev := _, flocks := _, cores := _, lines := _ } : State) = u
  obtain ⟨fl, n, h⟩ := noteEligible_only u
  rw [h, ← hu]
  exact ⟨rfl, rfl, rfl, rfl, rfl, rfl⟩

theorem tick_flock (s : State) (k : Nat) (fl : Flock) (h : tabGet s.flocks k = some fl) :
    ∃ a b, tabGet (tick s).flocks k = some { fl.ticked s with since := a, could := b } := by
  refine noteEligible_flock _ k (fl.ticked s) ?_
  refine (tabGet_map s.flocks (fun _ x => x.ticked s) k).trans ?_
  rw [h, Option.map_some]

/-- One tick of the heartbeat, which also ends a function-level reset (R464). -/
theorem heartbeatTick_ticks (run : s.dev.hbRun = true) : ∃ t, exec .heartbeatTick s = .next t ∧
    t.dev = { s.dev with hb := s.dev.hb + 1, sub := 0, inReset := false } ∧
    t.outbox = s.outbox ++ (if s.dev.inReset then [.sideband 0x64 []] else []) ∧
    t.mem = s.mem ∧ t.fibres = s.fibres ∧ t.clusters = s.clusters ∧ t.ctxs = s.ctxs ∧
    ∀ k fl, tabGet s.flocks k = some fl → ∃ y, tabGet t.flocks k = some y ∧ { y with since := none, could := none } =
      { fl with
        watch := if !fl.stopped && fl.unfrozen ≠ 0 && !(s.tm fl.team).vacated then fl.watch + 1 else fl.watch
        since := none, could := none } := by
  have ended := endReset_eq s
  obtain ⟨dev, outbox, mem, fibres, clusters, ctxs⟩ := tick_keeps (endReset s)
  refine ⟨tick (endReset s), congrArg Host.Outcome.next (if_pos run), ?_, ?_, ?_, ?_, ?_, ?_, fun k fl hk => ?_⟩
  · rw [dev, ended]
  · rw [outbox, ended]
  · rw [mem, ended]
  · rw [fibres, ended]
  · rw [clusters, ended]
  · rw [ctxs, ended]
  · obtain ⟨a, b, h⟩ := tick_flock (endReset s) k fl (by rw [ended]; exact hk)
    refine ⟨_, h, ?_⟩
    have watched : fl.watched (endReset s) = (!fl.stopped && fl.unfrozen ≠ 0 && !(s.tm fl.team).vacated) := by
      rw [ended]
      rfl
    rw [Flock.ticked, watched]
    split <;> rfl

/-- Settles O46: each event is the change that its operation makes, where the test before it holds. -/
theorem memoryEvents : Obligations.MemoryEvents := by
  refine ⟨fun s core cl line n f v span => ⟨fun r rest queue => ⟨storeQueueDrain_joins queue, fun q here own held =>
      storeQueueDrain_waits here own held⟩, ?perform, ?fill, rfl, ?span⟩,
    fun s i slice dev stamp => ⟨?sealing, ?abort, settledStampAdvertise_own stamp, settledStampAdvertise_other,
      fun stopped => congrArg Host.Outcome.next (if_neg (by simp [stopped])), heartbeatTick_ticks⟩⟩
  case perform =>
    intro r u here free done
    have nth := performNth_some here (fun q hq => keepsBack_eq_false (free q hq)) done
    exact ⟨congrArg _ nth, fun fold => (storePending_eq here fold).trans (congrArg _ nth)⟩
  case fill => exact fun ver level sound => ⟨fun read => congrArg _ (fillAt_ok level sound read),
    fun read => congrArg _ (fillAt_ok level sound read)⟩
  case span =>
    intro k held
    rw [spanInvalidate_eq held]
    exact ⟨fun none => by simp only [none, if_true], fun left => by simp only [left, if_false]⟩
  case sealing =>
    intro r here sealing going
    exact ⟨fun home fresh quiet cut => congrArg _ (ackFold_cut here sealing going home fresh quiet cut),
      fun home fresh quiet cut => congrArg _ (ackFold_marks here sealing going home fresh quiet cut),
      fun x stamp home fresh => congrArg _ (stampFold_stamps here sealing going stamp home fresh),
      fun x stamp all home fresh => congrArg _ (confirmFold_promotes here sealing going stamp all home fresh),
      fun empty quiet => congrArg _ (endFold_empty here sealing going empty quiet),
      fun x stamp lines all => congrArg _ (endFold_commits here sealing going stamp lines all)⟩
  case abort => exact fun r here sealing aborting => congrArg _ (endFold_aborts here sealing aborting)

end Sys2Proof.Machine
end

section
/-! PROOFS. The events of the host port, of other devices, of the links and of the time base. -/

namespace Sys2Proof.Machine

variable {s u : State} {pa n dev core w : Nat} {bs : List Byte} {r : MemReq}

/-! ### The port in a function-level reset (R464) -/

/-- No host memory lies among the addresses of BAR0 and of the configuration registers. -/
theorem levelOf_bar0 (h : bar0Base ≤ pa) : levelOf pa ≠ .host := by
  unfold bar0Base at h
  unfold levelOf
  rw [if_neg (by omega), if_neg (by omega), if_neg (by omega)]
  split <;> decide

/-- A write to anything but the host's own memory, at a port that answers. -/
theorem hostMemoryWrite_device (level : levelOf pa ≠ .host) : exec (.hostMemoryWrite pa bs) s =
    if !s.portUp || s.dev.inReset then .next (if s.portUp && configBase ≤ pa then s.send (.hostReply false [2]) else s)
    else if configBase ≤ pa then .next (hostConfigWrite s (pa - configBase) bs)
    else if bar0Base ≤ pa then
      (if pa = bar0Base + 0x1000 && bs.length = 4 then execDoorbell (natOfBytes bs % 1024) s else .next s)
    else .next (if hostRange s < pa + bs.length then s
      else ((writeLines s (bs.length / 128 + 2) pa bs).map fun s1 => hostHolds s1 pa bs.length true).getD s) :=
  if_neg (by simp [level])

section Reset
variable (up : s.portUp = true) (reset : s.dev.inReset = true)
include up reset

theorem hostMemoryRead_config_reset (h : configBase ≤ pa) :
    exec (.hostMemoryRead pa n) s = .next (s.send (.hostReply false [2])) := by
  refine congrArg Host.Outcome.next ?_
  simp only [up, reset, h, Bool.not_true, Bool.false_eq_true, if_false, if_true]

theorem hostMemoryRead_reset (h : pa < configBase) :
    exec (.hostMemoryRead pa n) s = .next (s.send (.hostReply true (List.replicate n 0xFF))) := by
  refine congrArg Host.Outcome.next ?_
  simp only [up, reset, h.not_ge, Bool.not_true, Bool.false_eq_true, if_false, if_true]

theorem hostMemoryWrite_reset (level : levelOf pa ≠ .host) (h : pa < configBase) :
    exec (.hostMemoryWrite pa bs) s = .next s := by
  rw [hostMemoryWrite_device level]
  simp only [up, reset, h.not_ge, Bool.or_true, if_true, decide_false, Bool.and_false, Bool.false_eq_true, if_false]

omit up in
theorem hostAtomic_reset : exec (.hostAtomic pa r) s = .next s := by
  refine congrArg Host.Outcome.next (if_pos ?_)
  simp [reset]

end Reset

/-! ### The port at work (R444, R445, R449, R451, R469) -/

section Port
variable (up : s.portUp = true) (live : s.dev.inReset = false)
include up live

/-- A read of device memory or of a register bank. -/
theorem hostMemoryRead_live : exec (.hostMemoryRead pa n) s = .next (
    if configBase ≤ pa then s.send (.hostReply true (regBytes (configRead s) (pa - configBase) n))
    else if bar0Base ≤ pa then s.send (.hostReply true (bar0Bytes s (pa - bar0Base) n))
    else if outsideBad s pa n || hostRange s < pa + n then s.send (.hostReply false [])
    else (hostHolds s pa n false).send (.hostReply true (outsideBytes s pa n))) := by
  refine congrArg Host.Outcome.next ?_
  simp only [up, live, Bool.not_true, Bool.false_eq_true, if_false]

theorem hostMemoryRead_config :
    exec (.hostMemoryRead (configBase + pa) n) s = .next (s.send (.hostReply true (regBytes (configRead s) pa n))) := by
  rw [hostMemoryRead_live up live, if_pos (Nat.le_add_right _ _), Nat.add_sub_cancel_left]

theorem hostMemoryRead_bar0 (h : bar0Base + pa < configBase) :
    exec (.hostMemoryRead (bar0Base + pa) n) s = .next (s.send (.hostReply true (bar0Bytes s pa n))) := by
  rw [hostMemoryRead_live up live, if_neg h.not_ge, if_pos (Nat.le_add_right _ _), Nat.add_sub_cancel_left]

omit up live in
theorem not_config_of_memory (h : pa < bar0Base) : ¬ configBase ≤ pa := by
  unfold bar0Base at h
  unfold configBase
  omega

theorem hostMemoryRead_refused (h : pa < bar0Base) (bad : outsideBad s pa n = true ∨ hostRange s < pa + n) :
    exec (.hostMemoryRead pa n) s = .next (s.send (.hostReply false [])) := by
  rw [hostMemoryRead_live up live, if_neg (not_config_of_memory h), if_neg h.not_ge, if_pos (by simpa using bad)]

theorem hostMemoryRead_memory (h : pa < bar0Base) (sound : outsideBad s pa n = false) (fits : pa + n ≤ hostRange s) :
    exec (.hostMemoryRead pa n) s = .next ((hostHolds s pa n false).send (.hostReply true (outsideBytes s pa n))) := by
  rw [hostMemoryRead_live up live, if_neg (not_config_of_memory h), if_neg h.not_ge,
    if_neg (by simp [sound, fits.not_gt])]

/-- A write to device memory or to a register bank. -/
theorem hostMemoryWrite_live (level : levelOf pa ≠ .host) : exec (.hostMemoryWrite pa bs) s =
    if configBase ≤ pa then .next (hostConfigWrite s (pa - configBase) bs)
    else if bar0Base ≤ pa then
      (if pa = bar0Base + 0x1000 && bs.length = 4 then execDoorbell (natOfBytes bs % 1024) s else .next s)
    else .next (if hostRange s < pa + bs.length then s
      else ((writeLines s (bs.length / 128 + 2) pa bs).map fun s1 => hostHolds s1 pa bs.length true).getD s) := by
  rw [hostMemoryWrite_device level, if_neg (by simp [up, live])]

theorem hostMemoryWrite_doorbell (len : bs.length = 4) :
    exec (.hostMemoryWrite (bar0Base + 0x1000) bs) s = exec (.doorbell (natOfBytes bs % 1024)) s := by
  rw [hostMemoryWrite_live up live (levelOf_bar0 (Nat.le_add_right _ _)), if_neg (by decide), if_pos (Nat.le_add_right _ _),
    if_pos (by simp [len])]
  rfl

theorem hostMemoryWrite_config : exec (.hostMemoryWrite (configBase + pa) bs) s = .next (hostConfigWrite s pa bs) := by
  have above : bar0Base ≤ configBase + pa := by
    unfold bar0Base configBase
    omega
  rw [hostMemoryWrite_live up live (levelOf_bar0 above), if_pos (Nat.le_add_right _ _), Nat.add_sub_cancel_left]

theorem hostMemoryWrite_register (len : bs.length = 4) (other : configBase + pa ≠ configBase + doeMailbox) :
    exec (.hostMemoryWrite (configBase + pa) bs) s = .next (s.modDev fun d => configWrite d pa (natOfBytes bs)) := by
  rw [hostMemoryWrite_config up live, hostConfigWrite, if_neg fun e => other (by rw [e]), if_pos len]

theorem hostMemoryWrite_mailbox :
    exec (.hostMemoryWrite (configBase + doeMailbox) bs) s = .next (s.send (.hostReply true (spdmAnswer s bs))) := by
  rw [hostMemoryWrite_config up live, hostConfigWrite, if_pos rfl]

/-- R449: a write to memory is performed line by line. -/
theorem hostMemoryWrite_memory (level : levelOf pa ≠ .host) (h : pa < bar0Base) (fits : pa + bs.length ≤ hostRange s)
    (done : writeLines s (bs.length / 128 + 2) pa bs = some u) :
    exec (.hostMemoryWrite pa bs) s = .next (hostHolds u pa bs.length true) := by
  rw [hostMemoryWrite_live up live level, if_neg (not_config_of_memory h), if_neg h.not_ge, if_neg fits.not_gt, done]
  rfl

omit up live in
/-- A write within one line is one step. -/
theorem writeLines_one (some : bs ≠ []) (one : pa / 128 = (pa + bs.length - 1) / 128) :
    writeLines s (bs.length / 128 + 2) pa bs = writeLine s pa bs := by
  have pos : 0 < bs.length := List.length_pos_iff.2 some
  have within : bs.length ≤ 128 - pa % 128 := by omega
  simp only [writeLines, List.isEmpty_eq_false_iff.2 some, List.take_of_length_le within, List.drop_of_length_le within,
    List.isEmpty_nil, Bool.false_eq_true, if_false, if_true]
  cases writeLine s pa bs <;> rfl

section Atomic
variable {old : List Byte} (sound : outsideBad s pa (reqBytes r) = false) (free : s.barrierLive pa = false)
  (done : reqAtHome s pa r = some (old, u))
include sound free done

/-- R451: an AtomicOp that the home completes returns the old bytes. -/
theorem hostAtomic_pcie (host : s.dev.host = some (.pcie, w)) (ok : atomicOpOk r pa = true) :
    exec (.hostAtomic pa r) s = .next ((hostHolds u pa (reqBytes r) true).send (.hostReply true old)) := by
  refine congrArg Host.Outcome.next ?_
  simp only [up, live, host, ok, sound, free, done, Bool.not_true, Bool.or_self, Bool.false_eq_true, if_false]

theorem hostAtomic_cxl (host : s.dev.host = some (.cxl, w)) (one : pa / 128 = (pa + reqBytes r - 1) / 128) :
    exec (.hostAtomic pa r) s = .next ((hostHolds u pa (reqBytes r) true).send (.hostReply true old)) := by
  have line : decide (lineOf pa ≠ lineOf (pa + reqBytes r - 1)) = false := decide_eq_false (not_not.2 one)
  refine congrArg Host.Outcome.next ?_
  simp only [up, live, host, line, sound, free, done, Bool.not_true, Bool.or_self, Bool.false_eq_true, if_false]

end Atomic

theorem hostAtomic_barrier (barrier : s.barrierLive pa = true) :
    exec (.hostAtomic pa r) s = .next (s.send (.hostReply false [])) := by
  refine congrArg Host.Outcome.next ((if_neg (by simp [up, live])).trans (if_pos ?_))
  rw [barrier, Bool.or_true]

end Port

/-! ### Registers of BAR0, and the host's own memory (R445, R446) -/

theorem bar0Read_status {x : HostKind} (host : s.dev.host = some (x, w)) :
    bar0Read s 0 = (if x = .cxl then 1 else 0) + (if s.dev.hostUp then 4 else 0) + w % 256 * 2 ^ 8 := by
  simp only [bar0Read, host, if_true]

theorem hostMemoryWrite_own (level : levelOf pa = .host) (h : pa < bar0Base) :
    exec (.hostMemoryWrite pa bs) s = .next (hostOwnWrite s pa bs) := if_pos (by simp [level, h])

/-! ### Completions of accesses to host memory (R446, R448) -/

theorem hostAccessCompletion_performs {q : StoreReq} (here : (s.core core).order[n]? = some q) (host : q.hostCells ≠ [])
    (free : ∀ p ∈ (s.core core).order.take n, keepsBack s core p q = false) (done : performStore s core q = some u) :
    exec (.hostAccessCompletion core n true) s = .next (u.modCore core fun c => { c with order := dropAt c.order n }) := by
  refine congrArg Host.Outcome.next ?_
  simp only [here, List.isEmpty_eq_false_iff.2 host, Bool.false_eq_true, if_false, if_true]
  exact performNth_some here free done

theorem hostAccessCompletion_rejects {q : StoreReq} (here : (s.core core).order[n]? = some q) (host : q.hostCells ≠ []) :
    exec (.hostAccessCompletion core n false) s = .next (rejectStore s core n q) := by
  refine congrArg Host.Outcome.next ?_
  simp only [here, List.isEmpty_eq_false_iff.2 host, Bool.false_eq_true, if_false]

theorem hostAccessCompletion_later {ok : Bool} (none : (s.core core).order[n]? = none) :
    exec (.hostAccessCompletion core n ok) s = .next (s.modCore core fun c => { c with hostErr := c.hostErr ++ [ok] }) := by
  refine congrArg Host.Outcome.next ?_
  rw [none]

theorem length_dropAt_le {α : Type} (l : List α) (n : Nat) : (dropAt l n).length ≤ l.length := by
  simp only [dropAt, List.length_append, List.length_take, List.length_drop]
  omega

theorem logError_core (s : State) (a i k w c : Nat) : (s.logError a i k w).core c = s.core c := by
  rw [State.core, logError_cores]
  rfl

theorem finishStore_core (s : State) (q : StoreReq) (c : Nat) : (s.finishStore q).core c = s.core c := by
  rw [State.core, finishStore_cores]
  rfl

section Rejected
variable {q : StoreReq}

/-- A rejected store without other bytes leaves the order. -/
theorem rejectStore_whole (alone : q.cells.filter (fun c => levelOf c.1 ≠ .host) = []) : ∃ lost, rejectStore s core n q =
    ((s.logError 5 0 6 lost).modCore core fun c => { c with order := dropAt c.order n }).finishStore q := by
  unfold rejectStore
  dsimp only
  rw [alone]
  exact ⟨_, rfl⟩

/-- A rejected store with other bytes keeps its place with them. -/
theorem rejectStore_part (others : q.cells.filter (fun c => levelOf c.1 ≠ .host) ≠ []) : ∃ lost, rejectStore s core n q =
    (s.logError 5 0 6 lost).modCore core fun c => { c with
      order := setAt c.order n { q with cells := q.cells.filter (fun c => levelOf c.1 ≠ .host) } } := by
  unfold rejectStore
  dsimp only
  rw [if_neg (by simpa using others)]
  exact ⟨_, rfl⟩

/-- R448: a rejected store loses its host bytes, and with them its place where it has no others; memory stays. -/
theorem rejectStore_keeps (s : State) (core n : Nat) (q : StoreReq) : (rejectStore s core n q).mem = s.mem ∧
    ((rejectStore s core n q).core core).order.length ≤ (s.core core).order.length ∧
    ((∀ c ∈ q.cells, levelOf c.1 = .host) →
      ((rejectStore s core n q).core core).order = dropAt (s.core core).order n) ∧
    ((rejectStore s core n q).core core).hostErr = (s.core core).hostErr := by
  by_cases alone : q.cells.filter (fun c => levelOf c.1 ≠ .host) = []
  · obtain ⟨lost, h⟩ := rejectStore_whole (s := s) (core := core) (n := n) alone
    rw [h, finishStore_mem, State.modCore_mem, logError_mem, finishStore_core, State.modCore_core, if_pos rfl, logError_core]
    exact ⟨rfl, length_dropAt_le _ _, fun _ => rfl, rfl⟩
  · obtain ⟨lost, h⟩ := rejectStore_part (s := s) (core := core) (n := n) alone
    rw [h, State.modCore_mem, logError_mem, State.modCore_core, if_pos rfl, logError_core]
    refine ⟨rfl, (List.length_set ..).le, fun all => absurd ?_ alone, rfl⟩
    exact List.filter_eq_nil_iff.2 fun c hc => by simp [all c hc]

end Rejected

/-! ### Accesses of other devices (R342, R343, R453, R465) -/

section Remote
variable (other : dev ≠ s.dev.devid) (known : dev ∈ s.dev.fabric) (up : dev ∉ s.dev.down)
include other known up

theorem remote_reached : ¬ (decide (dev = s.dev.devid) || !s.dev.fabric.contains dev || s.dev.down.contains dev) = true := by
  simp [other, known, up]

theorem remoteAccess_mem (cx : Nat) : exec (.remoteAccess dev pa (.mem cx r)) s =
    .next (remoteAt s dev cx pa (reqBytes r) (remoteMem s dev pa r)) :=
  congrArg Host.Outcome.next (if_neg (remote_reached other known up))

theorem remoteAccess_load (cx view : Nat) : exec (.remoteAccess dev pa (.load cx n view)) s =
    .next (remoteAt s dev cx pa n (viewReply s dev pa n view)) :=
  congrArg Host.Outcome.next (if_neg (remote_reached other known up))

theorem remoteAccess_icinv (tok : Nat) : exec (.remoteAccess dev pa (.icinv tok)) s =
    .next (((s.cores.map (·.1)).foldl (fun s c => dropCode s c (pa / 128)) s).send (.ack dev tok)) :=
  congrArg Host.Outcome.next (if_neg (remote_reached other known up))

theorem remoteAccess_ack (tok : Nat) : exec (.remoteAccess dev pa (.ack tok)) s =
    .next (ackedBy s fun a => decide (a = (tok, dev))) :=
  congrArg Host.Outcome.next (if_neg (remote_reached other known up))

theorem remoteAccess_foldStore (f : AwayFold) (k : Nat) : exec (.remoteAccess dev pa (.foldStore f k bs)) s =
    .next (remoteAt s dev f.ctx pa bs.length (awayStore s dev f k pa bs)) :=
  congrArg Host.Outcome.next (if_neg (remote_reached other known up))

theorem remoteAccess_foldAck (f : AwayFold) : exec (.remoteAccess dev pa (.foldAck f)) s =
    .next (awayAck s dev (awayTag dev f)) :=
  congrArg Host.Outcome.next (if_neg (remote_reached other known up))

theorem remoteAccess_foldDiscard (f : AwayFold) : exec (.remoteAccess dev pa (.foldDiscard f)) s =
    .next (((foldLinesHere s (awayTag dev f)).foldl
      (fun s l => s.modLine l fun x => { x with pend := none }) s).send (.remoteReply dev true [])) :=
  congrArg Host.Outcome.next (if_neg (remote_reached other known up))

theorem remoteAccess_wasReset : exec (.remoteAccess dev pa .wasReset) s = .next (peerReset s dev) :=
  congrArg Host.Outcome.next (if_neg (remote_reached other known up))

end Remote

theorem remoteAt_gone {cx : Nat} (gone : ctxGone s cx = true) : remoteAt s dev cx pa n u = s.send (.remoteReply dev false [2]) :=
  if_pos gone

theorem remoteAt_here {cx : Nat} (here : ctxGone s cx = false) (sound : outsideBad s pa n = false)
    (fits : pa + n ≤ Config.hbmBytes) : remoteAt s dev cx pa n u = u := by
  rw [remoteAt, if_neg (by simp [here]), if_neg (by simp [sound, fits.not_gt])]

theorem remoteAt_bad {cx : Nat} (here : ctxGone s cx = false) (bad : outsideBad s pa n = true) :
    remoteAt s dev cx pa n u = s.send (.remoteReply dev false []) := by
  rw [remoteAt, if_neg (by simp [here]), if_pos (by simp [bad])]

/-- Away from live barrier lines a load, a store or an atomic is one request at the home. -/
theorem remoteMem_done {old : List Byte} (free : s.barrierLive pa = false) (done : reqAtHome s pa r = some (old, u)) :
    remoteMem s dev pa r =
      (u.backInvalidate ((List.range (reqBytes r)).map (pa + ·)) false).send (.remoteReply dev true old) := by
  unfold remoteMem
  cases r <;> simp only [free, done, Bool.false_eq_true, if_false]

theorem remoteMem_waits (free : s.barrierLive pa = false) (held : reqAtHome s pa r = none) : remoteMem s dev pa r = s := by
  unfold remoteMem
  cases r <;> simp only [free, held, Bool.false_eq_true, if_false]

theorem remoteMem_barrier (barrier : s.barrierLive pa = true) (write : ∀ m, r ≠ .read m) :
    remoteMem s dev pa r = s.send (.remoteReply dev false [0x60]) := by
  unfold remoteMem
  cases r with
  | read m => exact absurd rfl (write m)
  | _ => exact if_pos barrier

theorem viewReply_ok {v : Version} (read : homeRead s (pa / 128) w 0 = .ok v) : viewReply s dev pa n w =
    (s.backInvalidate ((List.range n).map (pa + ·)) false).send (.remoteReply dev true ((v.bytes.drop (pa % 128)).take n)) := by
  simp only [viewReply, lineOf, read]

theorem viewReply_lost {e : Eff} (read : homeRead s (pa / 128) w 0 = .bad e) :
    viewReply s dev pa n w = s.send (.remoteReply dev false [0x41]) := by
  simp only [viewReply, lineOf, read]

theorem viewReply_waits (read : homeRead s (pa / 128) w 0 = .wait) : viewReply s dev pa n w = s := by
  simp only [viewReply, lineOf, read]

theorem awayAck_marks {t : FoldTag} (sound : ∀ l ∈ foldLinesHere s t, s.deadAgent .dev (l * 128) = none) :
    awayAck s dev t = ((foldLinesHere s t).foldl (modPend fun p => { p with st := .acked (s.dev.hb + 1) }) s).send
      (.remoteReply dev true (bytesOfNat 8 s.dev.hb)) := by
  have alive : ((foldLinesHere s t).any fun l => (s.deadAgent .dev (l * 128)).isSome) = false :=
    List.any_eq_false.2 fun l hl => by simp [sound l hl]
  simp only [awayAck, alive, Bool.false_eq_true, if_false]
  rfl

/-! ### Messages of other devices, the links and the time base (R244, R252, R383, R392, R443) -/

theorem tlbiSysMessage_acks {tok kind cx : Nat} {va : DWord} (linked : s.linked dev = true)
    (done : tlbiLocal s kind cx va = .ok u) :
    exec (.tlbiSysMessage ⟨dev, tok⟩ kind cx va) s = .next (u.send (.ack dev tok)) := by
  refine congrArg Host.Outcome.next ?_
  simp only [linked, done, Bool.not_true, Bool.false_eq_true, if_false]

theorem heartbeatAgreement_notes (linked : s.linked dev = true)
    (agrees : s.dev.locked = false ∨ (w ≤ s.dev.hb + 1 ∧ s.dev.hb ≤ w + 1)) :
    exec (.heartbeatAgreement dev w) s = .next (s.modDev fun d => { d with peers := tabPut d.peers dev w }) := by
  have near : (s.dev.locked && (decide (s.dev.hb + 1 < w) || decide (w + 1 < s.dev.hb))) = false := by
    rcases agrees with unlocked | ⟨high, low⟩
    · simp [unlocked]
    · simp [high.not_gt, low.not_gt]
  refine congrArg Host.Outcome.next ?_
  simp only [linked, near, Bool.not_true, Bool.false_eq_true, if_false]

theorem linkTrain_trains {cxl : Bool} (down : s.dev.hostUp = false) (whole : (5, 0) ∉ s.dev.contained) :
    exec (.linkTrain cxl w) s =
      .next (s.modDev fun d => { d with host := some (if cxl then .cxl else .pcie, w), hostUp := true }) :=
  congrArg Host.Outcome.next (if_neg (by simp [down, whole]))

theorem hostSnoop_takes (line : Nat) : exec (.hostSnoop line) s =
    .next (s.modDev fun d => { d with hostLines := d.hostLines.filter fun l => l.1 ≠ line }) := rfl

section Training
variable (s : State) (self : Nat) (devs : List Nat)

/-- The device's index after a training of the links. -/
def trainedId : Nat := if s.ctxs.isEmpty && self < 64 then self else s.dev.devid

/-- The devices that a training reaches. -/
def trainedReach : List Nat := (trainedId s self :: devs.filter (· < 64)).dedup

/-- The devices that the fabric holds after it. -/
def trainedFabric : List Nat :=
  ((if trainedId s self = s.dev.devid then s.dev.fabric else s.dev.fabric.filter (· ≠ s.dev.devid)) ++
    trainedReach s self devs).dedup

/-- The devices whose path it finds lost. -/
def trainedLost : List Nat :=
  (trainedFabric s self devs).filter fun x => !(trainedReach s self devs).contains x && !s.dev.down.contains x

theorem swetexLinkTrain_eq : exec (.swetexLinkTrain ⟨self, devs⟩) s =
    .next (((trainedLost s self devs).foldl losePath s).modDev fun d => { d with
      devid := trainedId s self, fabric := trainedFabric s self devs
      down := (trainedFabric s self devs).filter fun x => !(trainedReach s self devs).contains x
      peers := d.peers.filter fun p => (trainedReach s self devs).contains p.1 }) := rfl

variable {s self devs}

theorem trainedId_eq : trainedId s self = if s.ctxs = [] ∧ self < 64 then self else s.dev.devid := by
  simp [trainedId]

theorem mem_trainedReach {x : Nat} : x ∈ trainedReach s self devs ↔ x = trainedId s self ∨ (x ∈ devs ∧ x < 64) := by
  simp [trainedReach]

theorem mem_trainedFabric {x : Nat} : x ∈ trainedFabric s self devs ↔
    (x ∈ s.dev.fabric ∧ (x = s.dev.devid → trainedId s self = s.dev.devid)) ∨ x ∈ trainedReach s self devs := by
  by_cases same : trainedId s self = s.dev.devid <;> simp [trainedFabric, same]

/-- Where every device of the fabric is this one, is down already or is reached, no path is lost. -/
theorem trainedLost_nil (kept : ∀ x ∈ s.dev.fabric, x = s.dev.devid ∨ x ∈ s.dev.down ∨ (x ∈ devs ∧ x < 64)) :
    trainedLost s self devs = [] := by
  refine List.filter_eq_nil_iff.2 fun x hx => ?_
  simp only [Bool.and_eq_true, Bool.not_eq_true', List.contains_eq_mem, decide_eq_false_iff_not, not_and, not_not]
  intro unreached
  obtain ⟨known, own⟩ := (mem_trainedFabric.1 hx).resolve_right unreached
  rw [mem_trainedReach, not_or] at unreached
  rcases kept x known with self | down | reached
  · exact absurd (self.trans (own self).symm) unreached.1
  · exact down
  · exact absurd reached unreached.2

end Training

/-- R383, R453: what a training of the links leaves. -/
theorem swetexLinkTrain_trains (s : State) (self : Nat) (devs : List Nat) :
    ∃ t, exec (.swetexLinkTrain ⟨self, devs⟩) s = .next t ∧
    ((∀ x ∈ s.dev.fabric, x = s.dev.devid ∨ x ∈ s.dev.down ∨ (x ∈ devs ∧ x < 64)) → t.mem = s.mem ∧ t.fibres = s.fibres) ∧
    t.dev.devid = (if s.ctxs = [] ∧ self < 64 then self else s.dev.devid) ∧
    (t.dev.devid = s.dev.devid →
      (∀ x, x ∈ t.dev.fabric ↔ x ∈ s.dev.fabric ∨ x = s.dev.devid ∨ (x ∈ devs ∧ x < 64)) ∧
      ∀ x, x ∈ t.dev.down ↔ x ∈ s.dev.fabric ∧ x ≠ s.dev.devid ∧ ¬ (x ∈ devs ∧ x < 64)) := by
  refine ⟨_, swetexLinkTrain_eq s self devs, fun kept => ?_, trainedId_eq, fun same => ?_⟩
  · rw [trainedLost_nil kept]
    exact ⟨rfl, rfl⟩
  · have same : trainedId s self = s.dev.devid := same
    have fabric : ∀ x, x ∈ trainedFabric s self devs ↔ x ∈ s.dev.fabric ∨ x = s.dev.devid ∨ (x ∈ devs ∧ x < 64) := by
      simp [mem_trainedFabric, mem_trainedReach, same]
    refine ⟨fabric, fun x => List.mem_filter.trans ?_⟩
    rw [fabric, Bool.not_eq_true', List.contains_eq_mem, decide_eq_false_iff_not, mem_trainedReach, same]
    tauto

/-- Settles O53: each event is the change that its operation makes, where the tests before it let it. -/
theorem hostEvents : Obligations.HostEvents := by
  intro s pa n dev self core tok kind ctx line w va bs r ok cxl locked off devs
  refine ⟨fun up => ⟨fun reset => ?reset, fun live => ?live⟩, fun x w => bar0Read_status, hostMemoryWrite_own,
    fun q here host => ⟨fun u => hostAccessCompletion_performs here host, _, hostAccessCompletion_rejects here host,
      rejectStore_keeps s core n q⟩, hostAccessCompletion_later, fun other known reach => ?remote,
    fun u => tlbiSysMessage_acks, heartbeatAgreement_notes, linkTrain_trains, hostSnoop_takes line,
    swetexLinkTrain_trains s self devs, rfl⟩
  case reset => exact ⟨hostMemoryRead_config_reset up reset, hostMemoryRead_reset up reset, hostMemoryWrite_reset up reset,
      hostAtomic_reset reset⟩
  case live =>
    exact ⟨hostMemoryRead_config up live, hostMemoryRead_bar0 up live, hostMemoryRead_refused up live,
      hostMemoryRead_memory up live, hostMemoryWrite_doorbell up live, hostMemoryWrite_register up live,
      hostMemoryWrite_mailbox up live, fun level memory fits => ⟨fun u => hostMemoryWrite_memory up live level memory fits,
        fun u some one done => hostMemoryWrite_memory up live level memory fits ((writeLines_one some one).trans done)⟩,
      fun old u sound free done => ⟨hostAtomic_pcie up live sound free done, hostAtomic_cxl up live sound free done⟩,
      hostAtomic_barrier up live⟩
  case remote =>
    refine ⟨fun gone => ⟨?_, ?_⟩, fun here => ⟨fun sound fits free => ⟨fun old u done => ?_, fun held => ?_⟩,
      fun sound fits barrier write => ?_, fun bad => ?_, fun sound fits => ⟨fun v read => ?_, fun e read => ?_, fun read => ?_⟩⟩,
      fun f k here sound fits barrier => ?_, fun f sound => ?_, remoteAccess_foldDiscard other known reach,
      remoteAccess_wasReset other known reach, remoteAccess_icinv other known reach tok, remoteAccess_ack other known reach tok⟩
    · rw [remoteAccess_mem other known reach, remoteAt_gone gone]
    · rw [remoteAccess_load other known reach, remoteAt_gone gone]
    · rw [remoteAccess_mem other known reach, remoteAt_here here sound fits, remoteMem_done free done]
    · rw [remoteAccess_mem other known reach, remoteAt_here here sound fits, remoteMem_waits free held]
    · rw [remoteAccess_mem other known reach, remoteAt_here here sound fits, remoteMem_barrier barrier write]
    · rw [remoteAccess_mem other known reach, remoteAt_bad here bad]
    · rw [remoteAccess_load other known reach, remoteAt_here here sound fits, viewReply_ok read]
    · rw [remoteAccess_load other known reach, remoteAt_here here sound fits, viewReply_lost read]
    · rw [remoteAccess_load other known reach, remoteAt_here here sound fits, viewReply_waits read]
    · rw [remoteAccess_foldStore other known reach, remoteAt_here here sound fits, awayStore, if_pos barrier]
    · rw [remoteAccess_foldAck other known reach, awayAck_marks sound]

end Sys2Proof.Machine
end

section
/-! PROOFS. Loads and stores of a group of registers (R166) that does not start at a multiple of its size. -/

namespace Sys2Proof.Machine

/-! ### With the group at a multiple of its size, the registers that RegsReady names are those a word needs -/

theorem needWid_ready {i : Instr} {x : Fibre} (ready : RegsReady i x) {wd : Wid} {d : BitVec 8}
    (spans : (d.toNat, widRegs wd) ∈ laneSpans i) (whole : d.toNat % widRegs wd = 0) : needWid x wd d = .ok () := by
  cases wd with
  | d => exact ready.pair spans
  | q | o => simp only [needWid, whole, ne_eq, not_true_eq_false, if_false, ready.regs spans]
  | _ => exact ready.word spans

theorem group_mem_memSpans (m : MemF) : (m.d.toNat, widRegs m.wid) ∈ memSpans m :=
  List.mem_append_right _ List.mem_cons_self

theorem ld_loads (g : Guard) (m : MemF) (whole : m.d.toNat % widRegs m.wid = 0) :
    EachLane (.ld g m) fun s _ f v => ∃ bytes k s1 s2, loadAccess s f m = .ok (bytes, k, s1) ∧
      acquireLoad s1 f [f] m k = .ok s2 ∧ v = putLoaded s2 f m.wid m.d bytes := by
  refine lanewise_of _ _ _ (fun s => @rfl _ (execLd g m s)) ?_
  rintro s r _ u l f how v - ready ⟨rfl, bytes, k, s1, s2, access, acquire, rfl⟩
  simp only [needWid_ready ready (group_mem_memSpans m) whole, access, acquire, Res.bind_ok]

theorem lds_loads (g : Guard) (m : MemF) :
    Flockwise (.lds g m) fun s _ f fs v => ∃ bytes k s1 s2, loadAccess s f m = .ok (bytes, k, s1) ∧
      acquireLoad s1 f fs m k = .ok s2 ∧ v = setSreg s2 f m.d (extend m.wid (natOfBytes bytes)) := by
  refine flockwise_of _ _ _ (fun s => @rfl _ (execLds g m s)) ?_
  rintro s r _ f fs u - - - - - ⟨bytes, k, s1, s2, access, acquire, rfl⟩
  simp only [access, acquire, Res.bind_ok]

/-! ### A state in which the access of a word passes its checks, and the group starts elsewhere -/

/-- A fibre of eight registers on lane 0 of flock 0. -/
def groupFibre : Fibre := { Fibre.blank with alloc := 8, regs := List.replicate 8 0, loc := .flock 0 }

/-- It is alone in its flock, at the first of two words; its team has a lane-private slice of 16 bytes. -/
def groupState : State :=
  { State.reset with
    teams := [(0, { Team.blank with p := 16 })]
    fibres := [(0, groupFibre)], flocks := [(0, { Flock.blank with lanes := [some 0] })], runs := [udRun] }

/-- Sixteen bytes at offset 0 of the slice, to or from the group that starts at V1. -/
def groupMem : MemF := ⟨1, .s 0, .q, 0, .none, .lane, .fibre, .plain, false⟩

theorem groupState_issuing : Issuing groupState udRun := by
  refine ⟨⟨[], rfl⟩, fun l hl => ?_⟩
  have lanes : udRun.lanes.lanes = [0] := by decide
  obtain rfl : l = 0 := by simpa [lanes] using hl
  exact ⟨0, groupFibre, rfl, rfl, rfl, rfl, rfl⟩

theorem groupState_acting : groupState.acting udRun ⟨0, false⟩ = [(0, 0)] := by decide

theorem groupState_advanced : advanceLanes groupState udRun (udRun.lanes &&& ~~~guardMask groupState udRun ⟨0, false⟩) =
    groupState := by
  have none : (udRun.lanes &&& ~~~guardMask groupState udRun ⟨0, false⟩).lanes = [] := by decide
  rw [advanceLanes, none]
  rfl

/-- V1 to V4 are the fibre's own registers with no write outstanding, which is all that RegsReady asks of a group of four. -/
theorem groupMem_ready {i : Instr} (h : laneSpans i = [(1, 4)]) : RegsReady i groupFibre := by
  refine ⟨rfl, fun p hp => ?_⟩
  rw [h] at hp
  obtain rfl := List.mem_singleton.1 hp
  decide

/-- A word by which the lane goes on, as a statement says, leaves the run at the next word. -/
theorem groupState_onward {i : Instr} {pre : State → Run → Nat → State → Prop} (h : EachLane i pre)
    (guard : i.guard = ⟨0, false⟩) (spans : laneSpans i = [(1, 4)]) {v : State} (done : pre groupState udRun 0 v)
    (runs : v.runs = groupState.runs) : ∃ t, exec i groupState = .next t ∧ t.runs = [udRun.onward] := by
  have chain : LaneChain i udRun (fun s r f how v => how = .next ∧ pre s r f v) (groupState.acting udRun i.guard)
      (advanceLanes groupState udRun (udRun.lanes &&& ~~~guardMask groupState udRun i.guard))
      (v.modFib 0 (advanceFibre udRun)) 0 0 := by
    rw [guard, groupState_acting, groupState_advanced]
    exact ⟨groupMem_ready spans, .next, v, 0, 0, ⟨rfl, done⟩, ⟨rfl, rfl, rfl⟩, rfl, rfl⟩
  obtain ⟨t, ht, -, -, onward⟩ := h groupState udRun _ 0 0 groupState_issuing chain
  exact ⟨t, ht, onward (by decide) rfl runs⟩

/-- The load passes every check of its address. -/
theorem groupLoad_passes : ∃ bytes k s1, loadAccess groupState 0 groupMem = .ok (bytes, k, s1) ∧ s1.runs = groupState.runs := by
  have passes : (match loadAccess groupState 0 groupMem with
      | .ok q => decide (q.2.2.runs = groupState.runs)
      | _ => false) = true := by decide +kernel
  split at passes
  · next q h => exact ⟨q.1, q.2.1, q.2.2, h, of_decide_eq_true passes⟩
  · cases passes

/-- R166: the word raises ILLEGAL 0x36 all the same, which no frame takes, and the run ends. -/
theorem groupLoad_raises {t : State} (h : exec (.ld ⟨0, false⟩ groupMem) groupState = .next t) : t.runs = [] := by
  have ends : (match exec (.ld ⟨0, false⟩ groupMem) groupState with
      | .next t => t.runs.isEmpty
      | _ => true) = true := by decide +kernel
  rw [h] at ends
  exact List.isEmpty_iff.1 ends

/-- Refutes O26: LD.q to V1, whose registers are ready as RegsReady says and whose access passes its checks, but which
raises, since its group does not start at a multiple of 4. `ld_loads` is the clause for a group that does, `lds_loads` the
one of LDS. -/
theorem not_loads : ¬ Obligations.Loads := by
  unfold Obligations.Loads
  rintro ⟨loads, -⟩
  obtain ⟨ld, -⟩ := loads ⟨0, false⟩ groupMem
  obtain ⟨bytes, k, s1, access, runs⟩ := groupLoad_passes
  obtain ⟨t, ht, onward⟩ := groupState_onward ld rfl rfl ⟨bytes, k, s1, by decide, access, rfl⟩ runs
  rw [groupLoad_raises ht] at onward
  cases onward

end Sys2Proof.Machine
end

section
/-! PROOFS. Stores (R171), from the same group of registers. -/

namespace Sys2Proof.Machine

theorem st_queues (g : Guard) (m : MemF) (whole : m.d.toNat % widRegs m.wid = 0) :
    EachLane (.st g m) fun s r f v => ∃ b va ps fold s1 s2, memBase s f m.base m.space .store = .ok b ∧
      checkStore s f m.space (b + m.ofs.signExtend 64) (Wid.bytes m.wid) (Wid.align m.wid) = .ok (va, ps, fold, s1) ∧
      (if m.ord = .rel then drainAt s1 f (actScope ps m.scope) false else .ok s1) = .ok s2 ∧
      v = let p := startTok s2 r m.ft [f]
        pushStore p.2 f va ps (storeBytes (p.2.fib f) m.wid m.d) m.scope m.line fold (p.2.fib f).k p.1 := by
  refine lanewise_of _ _ _ (fun s => @rfl _ (execSt g m s)) ?_
  rintro s r _ u l f how v head ready ⟨rfl, b, va, ps, fold, s1, s2, base, checks, drain, rfl⟩
  simp only [needWid_ready ready (group_mem_memSpans m) whole, base, checks, drain, Res.bind_ok, State.run_eq head]

theorem sts_queues (g : Guard) (m : MemF) :
    Flockwise (.sts g m) fun s r f fs v => ∃ b va ps fold s1 s2, memBase s f m.base m.space .store = .ok b ∧
      checkStore s f m.space (b + m.ofs.signExtend 64) (Wid.bytes m.wid) (Wid.align m.wid) = .ok (va, ps, fold, s1) ∧
      (if m.ord = .rel then releaseAll s1 fs (actScope ps m.scope) else .ok s1) = .ok s2 ∧
      v = let p := startTok s2 r m.ft fs
        pushStore p.2 f va ps (bytesOfNat (Wid.bytes m.wid) (sreg p.2 f m.d).toNat) m.scope m.line fold
          (if m.ord = .rel then greatestK s2 fs else (s2.fib f).k) p.1 := by
  refine flockwise_of _ _ _ (fun s => @rfl _ (execSts g m s)) ?_
  rintro s r _ f fs u head - - - - ⟨b, va, ps, fold, s1, s2, base, checks, drain, rfl⟩
  unfold releaseAll at drain
  simp only [base, checks, drain, Res.bind_ok, State.run_eq head, greatestK]

/-! ### The word from a group that starts elsewhere -/

theorem groupState_whole : Whole groupState udRun ⟨0, false⟩ 0 [] :=
  { toIssuing := groupState_issuing, all := by decide, acts := by decide }

/-- The store passes every check of its address, with no fold open. -/
theorem groupStore_passes : ∃ b va ps s1, memBase groupState 0 groupMem.base groupMem.space .store = .ok b ∧
    checkStore groupState 0 groupMem.space (b + groupMem.ofs.signExtend 64) (Wid.bytes groupMem.wid)
      (Wid.align groupMem.wid) = .ok (va, ps, none, s1) := by
  have base : memBase groupState 0 groupMem.base groupMem.space .store = .ok 0 := rfl
  have passes : (match checkStore groupState 0 groupMem.space (0 + groupMem.ofs.signExtend 64) (Wid.bytes groupMem.wid)
      (Wid.align groupMem.wid) with
      | .ok q => q.2.2.1.isNone
      | _ => false) = true := by decide +kernel
  split at passes
  · next q h =>
    obtain ⟨va, ps, fold, s1⟩ := q
    obtain rfl := Option.isNone_iff_eq_none.1 passes
    exact ⟨0, va, ps, s1, base, h⟩
  · cases passes

/-- R166: the word raises ILLEGAL 0x36 all the same, and no store joins the queue. -/
theorem groupStore_raises {t : State} (h : exec (.st ⟨0, false⟩ groupMem) groupState = .next t) :
    (t.fib 0).queue = [] := by
  have ends : (match exec (.st ⟨0, false⟩ groupMem) groupState with
      | .next t => (t.fib 0).queue.isEmpty
      | _ => true) = true := by decide +kernel
  rw [h] at ends
  exact List.isEmpty_iff.1 ends

/-- Refutes O27: ST.q from V1, whose registers are ready as RegsReady says and whose access passes its checks, but which
joins no queue, since its group does not start at a multiple of 4. `st_queues` is the clause for a group that does,
`sts_queues` the one of STS. -/
theorem not_stores : ¬ Obligations.Stores := by
  unfold Obligations.Stores
  rintro ⟨stores, -⟩
  obtain ⟨-, -, joins⟩ := stores ⟨0, false⟩ groupMem
  obtain ⟨b, va, ps, s1, base, checks⟩ := groupStore_passes
  obtain ⟨t, ht, -, q, queue, -⟩ :=
    joins groupState udRun 0 b va ps s1 groupState_whole (groupMem_ready rfl) (by decide) base checks
  rw [groupStore_raises ht] at queue
  exact List.append_ne_nil_of_right_ne_nil _ (List.cons_ne_nil q []) queue.symm

end Sys2Proof.Machine
end

section
/-! PROOFS. Full and empty bits, fences, and code invalidation. -/

namespace Sys2Proof.Machine

variable {s u : State} {r : Run}

/-! ### Full and empty bits (R175, R315) -/

/-- What a lane that sets or clears the bit of a line does. -/
def setsBit (m : LineF) (full : Bool) (s : State) (_ : Run) (f : Nat) (v : State) : Prop := ∃ b va ps s1 s2,
  let key := (firstPiece ps).place.key
  memBase s f m.base m.space .store = .ok b ∧
  resolve s f m.space (b + m.ofs.signExtend 64) 1 1 .store = .ok (va, ps, s1) ∧ (firstPiece ps).place.kind = .scratch ∧
  (if m.ord = .rel then drainAt s1 f m.scope false else .ok s1) = .ok s2 ∧
  onItsWay (reachCore s2 f key) f key = false ∧ v = setLineBit (reachCore s2 f key) key full

theorem lineBit_ok {m : LineF} {full : Bool} {f : Nat} {v : State} (h : setsBit m full s r f v) :
    lineBit s f m full = .ok (.next, v) := by
  obtain ⟨b, va, ps, s1, s2, base, place, scratch, drain, arrived, rfl⟩ := h
  simp only [lineBit, base, place, scratch, drain, arrived, Res.bind_ok, ne_eq, not_true_eq_false, if_false]
  rfl

theorem lnset_sets (g : Guard) (m : LineF) : EachLane (.lnset g m) (setsBit m true) := by
  refine lanewise_of _ _ _ (fun s => @rfl _ (execLnset g m s)) ?_
  rintro s r _ u l f how v - - ⟨rfl, h⟩
  exact lineBit_ok h

theorem lnclr_clears (g : Guard) (m : LineF) : EachLane (.lnclr g m) (setsBit m false) := by
  refine lanewise_of _ _ _ (fun s => @rfl _ (execLnclr g m s)) ?_
  rintro s r _ u l f how v - - ⟨rfl, h⟩
  exact lineBit_ok h

/-! ### Fences (R180, R181) -/

theorem fence_orders (g : Guard) (scope : Scope) (o : Ord) : EachLane (.fence g scope o) fun s _ f v => ∃ s1,
    (if o = .rel ∨ o = .ar then drainAt s f scope false else .ok s) = .ok s1 ∧
    (if o = .acq ∨ o = .ar then advanceView s1 f scope (s1.fib f).lineStamp else .ok s1) = .ok v := by
  refine lanewise_of _ _ _ (fun s => @rfl _ (execFence g scope o s)) ?_
  rintro s r _ u l f how v - - ⟨rfl, s1, drain, advance⟩
  simp only [Bool.or_eq_true, decide_eq_true_eq, drain, Res.bind_ok, advance]

/-- A change that leaves the value at a key of a table with rising keys leaves the table. -/
theorem tabPut_self {α : Type} {t : Tab α} {k : Nat} {v : α} (rising : (t.map (·.1)).Pairwise (· < ·))
    (h : tabGet t k = some v) : tabPut t k v = t := by
  induction t with
  | nil => cases h
  | cons p t ih =>
    obtain ⟨j, w⟩ := p
    rw [List.map_cons, List.pairwise_cons] at rising
    rw [tabGet] at h
    split at h
    · next same =>
      cases h
      simp [tabPut, same]
    · next other =>
      have above : j < k := rising.1 k (List.mem_map.2 ⟨_, mem_of_tabGet t k v h, rfl⟩)
      rw [tabPut, if_neg above.not_gt, if_neg above.ne', ih rising.2 h]

theorem modFibs_self {fs : List Nat} {g : Fibre → Fibre} (rising : (s.fibres.map (·.1)).Pairwise (· < ·))
    (h : ∀ f ∈ fs, ∀ x, tabGet s.fibres f = some x → g x = x) : s.modFibs fs g = s := by
  induction fs with
  | nil => rfl
  | cons f fs ih =>
    have first : s.modFib f g = s := by
      cases hx : tabGet s.fibres f with
      | none => simp only [State.modFib, tabMod, hx]
      | some x => simp only [State.modFib, tabMod, hx, h f List.mem_cons_self x hx, tabPut_self rising hx]
    rw [State.modFibs, List.foldl_cons, first]
    exact ih fun f hf => h f (List.mem_cons_of_mem _ hf)

/-- R181: where every acting fibre has its T0, recording it again changes nothing. -/
theorem recordT0_recorded {g : Guard} (hI : Issuing s r) (rising : (s.fibres.map (·.1)).Pairwise (· < ·))
    (recorded : ∀ f ∈ actors s r g, (s.fib f).scStart.isSome) : recordT0 s g = s := by
  obtain ⟨rest, hr⟩ := hI.head
  have fibres : (Machine.actingMask s r g).lanes.filterMap (s.flk r.flock).fibreAt = actors s r g := by
    rw [hI.actingMask]
    rfl
  unfold recordT0
  rw [hr]
  dsimp only
  rw [fibres]
  refine modFibs_self rising fun f hf x hx => ?_
  have some := recorded f hf
  rw [State.fib_eq s f x hx] at some
  obtain ⟨t0, ht⟩ := Option.isSome_iff_exists.1 some
  rw [ht, Option.getD_some, ← ht]

/-- What FENCE.SC does on a lane whose T0 is recorded. -/
def fencesSc (scope : Scope) (s : State) (_ : Run) (f : Nat) (how : Adv) (v : State) : Prop := how = .next ∧ ∃ t0 s1,
  drainCore s f (if scope = .system then .system else .device) = .ok s1 ∧ (s1.fib f).scStart = some t0 ∧
  t0 + (if scope = .system then 3 else 1) ≤ s1.dev.hb ∧
  v = s1.modFib f fun x => { x.viewed (max x.vst s1.dev.hb) with scStart := none }

theorem fenceLane_ok {scope : Scope} {f : Nat} {how : Adv} {v : State} (h : fencesSc scope s r f how v) :
    fenceLane s f scope = .ok (how, v) := by
  obtain ⟨rfl, t0, s1, drain, start, ticks, rfl⟩ := h
  simp only [fenceLane, drain, Res.bind_ok, start, Option.getD_some, fenceTicks, if_neg ticks.not_gt]
  rfl

/-- R181: FENCE.SC completes at once where the fibres have their T0 and the table of fibres has rising keys. -/
theorem fenceSc_completes (g : Guard) (scope : Scope) (hI : Issuing s r) (rising : (s.fibres.map (·.1)).Pairwise (· < ·))
    (recorded : ∀ f ∈ actors s r g, (s.fib f).scStart.isSome)
    (chain : LaneChain (.fenceSc g scope) r (fencesSc scope) (s.acting r g)
      (advanceLanes s r (r.lanes &&& ~~~guardMask s r g)) u 0 0) :
    ∃ t, exec (.fenceSc g scope) s = .next t ∧ Still (settleMasks u r.flock 0 0) t := by
  have lanes := LaneChain.fold (fun s f _ => fenceLane s f scope) (fun cur l f how v _ h => fenceLane_ok h)
    (guardMask s r g).lanes _ _ 0 0 0 0 chain
  refine ⟨_, ?_, (settle_masks s u r false 0 0).1⟩
  show perLane (.fenceSc g scope) (recordT0 s g) (fun _ s f _ => fenceLane s f scope) = _
  rw [recordT0_recorded hI rising recorded, perLane_eq hI, hI.openOuts, quiet]
  exact congrArg (fun o => Host.Outcome.next (settle s r false o)) lanes

/-! ### Code invalidation (R194) -/

theorem icinv_scratch (g : Guard) (m : LineF) : EachLane (.icinv g m) fun s _ f v => ∃ b s1,
    memBase s f m.base .generic .fetch = .ok b ∧ icinvLine s f (b + m.ofs.signExtend 64) = .ok none ∧
    drainAt s f m.scope false = .ok s1 ∧ v = s1 := by
  refine lanewise_of _ _ _ (fun s => @rfl _ (execIcinv g m s)) ?_
  rintro s r _ u l f how v - - ⟨rfl, b, s1, base, line, drain, rfl⟩
  simp only [base, line, drain, Res.bind_ok]

theorem icinv_invalidates (g : Guard) (m : LineF) : EachLane (.icinv g m) fun s r f v => ∃ b l s1 s2,
    memBase s f m.base .generic .fetch = .ok b ∧
    icinvLine s f (b + m.ofs.signExtend 64) = .ok (some l) ∧ drainAt s f m.scope false = .ok s1 ∧
    homeLine s1 (clusterOf (s1.fib f).core) l = some s2 ∧
    v = askDevices ((scopeCores s2 f m.scope).foldl (fun s c => s.modCore c fun x => { x with code := tabDel x.code l }) s2) f
      (scopeDevs s2 f m.scope) (flagOf r m.ft) fun d tok => .icinv d tok (l * 128) := by
  refine lanewise_of _ _ _ (fun s => @rfl _ (execIcinv g m s)) ?_
  rintro s r _ u l f how v head - ⟨rfl, b, line, s1, s2, base, named, drain, home, rfl⟩
  simp only [base, named, drain, home, Res.bind_ok, State.run_eq head]
  rfl

/-! ### FENCE.SC over a table of fibres whose keys do not rise -/

/-- A fibre of flock 0 whose T0 is recorded, with one byte on its way to the first place of core 0's scratchpad. -/
def fencedFibre (f : Nat) (v : Byte) : Fibre :=
  { Fibre.blank with
    loc := .flock 0, scStart := some 0
    queue := [⟨[(scratchKey 0 0, v, 0xFF)], 0, .fibre, false, none, f, 0, 0, false, none⟩] }

/-- Two fibres of core 0, the second of which stands first in the table; it is on lane 0, and no other lane is active. -/
def fencedState : State :=
  { State.reset with
    dev := { State.reset.dev with hb := 1 }
    fibres := [(1, fencedFibre 1 1), (0, fencedFibre 0 2)]
    flocks := [(0, { Flock.blank with lanes := [some 0] })], runs := [udRun] }

theorem fencedState_issuing : Issuing fencedState udRun := by
  refine ⟨⟨[], rfl⟩, fun l hl => ?_⟩
  have lanes : udRun.lanes.lanes = [0] := by decide
  obtain rfl : l = 0 := by simpa [lanes] using hl
  exact ⟨0, fencedFibre 0 2, rfl, rfl, rfl, rfl, rfl⟩

theorem fencedState_acting : fencedState.acting udRun ⟨0, false⟩ = [(0, 0)] := by decide

theorem fencedState_advanced :
    advanceLanes fencedState udRun (udRun.lanes &&& ~~~guardMask fencedState udRun ⟨0, false⟩) = fencedState := by
  have idle : (udRun.lanes &&& ~~~guardMask fencedState udRun ⟨0, false⟩).lanes = [] := by decide
  rw [advanceLanes, idle]
  rfl

/-- From the table as it stands, the byte of fibre 0 is performed last. -/
theorem fencedState_drains : ∃ s1, drainCore fencedState 0 .device = .ok s1 ∧ (s1.fib 0).scStart = some 0 ∧
    s1.dev.hb = 1 ∧ s1.byte (scratchKey 0 0) = 2 := by
  have drains : (match drainCore fencedState 0 .device with
      | .ok s1 => decide ((s1.fib 0).scStart = some 0 ∧ s1.dev.hb = 1 ∧ s1.byte (scratchKey 0 0) = 2)
      | _ => false) = true := by decide +kernel
  split at drains
  · next s1 h => exact ⟨s1, h, of_decide_eq_true drains⟩
  · cases drains

/-- The instruction records T0 anew, which puts fibre 0 before fibre 1, and so performs the byte of fibre 1 last. -/
theorem fencedState_fences {t : State} (h : exec (.fenceSc ⟨0, false⟩ .device) fencedState = .next t) :
    t.byte (scratchKey 0 0) = 1 := by
  have fences : (match exec (.fenceSc ⟨0, false⟩ .device) fencedState with
      | .next t => decide (t.byte (scratchKey 0 0) = 1)
      | _ => true) = true := by decide +kernel
  rw [h] at fences
  exact of_decide_eq_true fences

/-- Refutes O30: FENCE.SC in a state whose table of fibres does not have rising keys, where recording T0 again changes
the order in which the drain takes the fibres. `fenceSc_completes` is the clause for rising keys; the other clauses hold
as they stand (`lnset_sets`, `lnclr_clears`, `fence_orders`, `icinv_scratch`, `icinv_invalidates`). -/
theorem not_fencesAndBits : ¬ Obligations.FencesAndBits := by
  unfold Obligations.FencesAndBits
  intro h
  obtain ⟨-, -, -, fenceSc, -⟩ := h ⟨0, false⟩ ⟨.s 0, 0, .none, .lane, .fibre, .plain⟩ .device .plain
  obtain ⟨s1, drain, start, hb, byte⟩ := fencedState_drains
  obtain ⟨t, ht, still⟩ := fenceSc fencedState udRun _ fencedState_issuing (by decide) (by
    rw [fencedState_acting, fencedState_advanced]
    exact ⟨⟨rfl, by decide⟩, .next, _, 0, 0, ⟨rfl, 0, s1, drain, start, by rw [hb]; decide, rfl⟩,
      ⟨rfl, rfl, rfl⟩, rfl, rfl⟩)
  have same : t.byte (scratchKey 0 0) = s1.byte (scratchKey 0 0) := congrArg (fun u => u.byte (scratchKey 0 0)) still.rest
  rw [fencedState_fences ht, byte] at same
  cases same

end Sys2Proof.Machine
end

section
/-! PROOFS. What the engine instructions of a flock share (R207): registers that are ready on every acting fibre, waits that
are over, and the tile that a handle names. -/

namespace Sys2Proof.Machine

variable {s : State} {i : Instr} {f : Nat} {fs : List Nat} {t : Tile}

/-- An instruction for the flock, from a state in which the registers of every acting fibre are ready (R17, R22). -/
theorem flockwise_ready (i : Instr) (body : State → State → Nat → List Nat → Res State)
    (pre : State → Run → Nat → List Nat → State → Prop) (hx : ∀ s, exec i s = perFlock i s (body s))
    (hb : ∀ s cur f fs u, (∀ h ∈ f :: fs, RegsReady i (cur.fib h)) → pre cur s.run f (f :: fs) u →
      body s cur f (f :: fs) = .ok u) : Flockwise i pre := by
  refine flockwise_of i body pre hx ?_
  rintro s r cur f fs u head hI acts rfl ready h
  obtain rfl := State.run_eq head
  refine hb s _ f fs u (fun g hg => ?_) h
  rw [actor_kept hI (acts ▸ hg)]
  exact ready g hg

/-- Where a stronger condition holds of what an instruction of the flock does, a weaker one does. -/
theorem Flockwise.mono {pre pre' : State → Run → Nat → List Nat → State → Prop} (h : Flockwise i pre')
    (hp : ∀ s r f fs v, pre s r f fs v → pre' s r f fs v) : Flockwise i pre := by
  intro s r hI
  obtain ⟨acts, none⟩ := h s r hI
  exact ⟨fun f fs u act ready done => acts f fs u act ready (hp _ _ _ _ _ done), none⟩

/-- A check that every fibre passes, all pass. -/
theorem needAll_ok {chk : Fibre → Res Unit} (h : ∀ g ∈ fs, chk (s.fib g) = .ok ()) : needAll s fs chk = .ok () := by
  induction fs with
  | nil => rfl
  | cons g gs ih =>
    rw [needAll, Res.foldM, h g List.mem_cons_self]
    exact ih fun g' hg => h g' (List.mem_cons_of_mem _ hg)

/-- R17: the destination register is ready on every acting fibre. -/
theorem needAll_word {d : BitVec 8} (ready : ∀ h ∈ fs, RegsReady i (s.fib h)) (hd : (d.toNat, 1) ∈ laneSpans i) :
    needAll s fs (fun x => need32 x d) = .ok () :=
  needAll_ok fun g hg => (ready g hg).word hd

/-- R197: a handle names an entry of the fibre's team, which holds a tile. -/
def namesTile (s : State) (f h : Nat) (k : TileRef) (t : Tile) : Prop :=
  namedTile s (s.fib f).team h = some k ∧ s.tile k = some t

theorem tileOf_named {h : Word} {k : TileRef} (named : namesTile s f h.toNat k t) : tileOf s f h = .ok (k, t) := by
  obtain ⟨entry, tile⟩ := named
  simp only [tileOf, entry, tile]

/-- R204: a tile that is READY is waited for no longer. -/
theorem needReady_ok (h : t.st = .ready) : needReady t = .ok () := by
  rw [needReady, Res.await, if_pos (decide_eq_true h)]

theorem await_ok {b : Bool} (h : b = true) : Res.await b = .ok () := if_pos h

end Sys2Proof.Machine
end

section
/-! PROOFS. Tile definitions: TDEF, TTAG, TQRY, TWAIT and TREL (R210 to R213). -/

namespace Sys2Proof.Machine

variable {s : State} {f : Nat} {fs : List Nat} {t : Tile}

/-! ### Definitions (R200, R210) -/

/-- The tile that the descriptor at A describes, within its limits, and the state after the descriptor is read. -/
def describesTile (a b : Src) (chain ready : Bool) (s : State) (f : Nat) (t : Tile) (u : State) : Prop := ∃ bytes k t0,
  loadBytes s f (s.op64 (s.fib f) a) 16 16 .table false = .ok (bytes, k, u) ∧
  descTile bytes (s.op32 (s.fib f) b) chain ready = .ok t0 ∧ tileLimits s (s.fib f).team t0 = .ok t

/-- TDEF reads a descriptor, then takes the lowest free entry, or answers −1 where there is none. -/
theorem tdef_answers (g : Guard) (d : BitVec 8) (a b : Src) (chain ready : Bool) :
    Flockwise (.tdef g d a b chain ready) fun s _ f fs v => ∃ t u, describesTile a b chain ready s f t u ∧
      v = if entriesFree s (s.fib f).core (s.fib f).team = 0 then put32All u fs d 0xFFFFFFFF
        else
          let q := defineTile u (s.fib f).core (s.fib f).team t
          put32All q.2.2 fs d q.1 := by
  refine flockwise_ready _ _ _ (fun s => @rfl _ (execTdef g d a b chain ready s)) ?_
  rintro s cur f fs v regs ⟨t, u, ⟨bytes, k, t0, load, desc, limits⟩, rfl⟩
  have lowest := regs f List.mem_cons_self
  simp only [needAll_word regs (d := d) (by simp [laneSpans]), src64_ready lowest a (fun q hq => by simp [laneSpans, hq]),
    src32_ready lowest b (fun q hq => by simp [laneSpans, hq]), load, desc, limits, Res.bind_ok]
  split <;> rfl

/-! ### Tiles that a handle names (R197, R211 to R213) -/

/-- TTAG: the stores of the fibres are performed, so that none of them meets the tile, and the tile takes its tag. -/
theorem ttag_retags (g : Guard) (a b : Src) : Flockwise (.ttag g a b) fun s _ f fs v => ∃ r t t1 w u,
    namesTile s f (s.op32 (s.fib f) a).toNat r t ∧ (s.op32 (s.fib f) b).toNat < 2 ^ 16 ∧ t.st = .ready ∧
    tileBusy s r = false ∧ retag s (s.fib f).team t ((s.op32 (s.fib f) b).setWidth 16) = .ok t1 ∧
    drained s fs = .ok w ∧ findReady (performCore w (w.fib f).core) fs t = .ok u ∧ v = u.modTile r fun _ => t1 := by
  refine flockwise_ready _ _ _ (fun s => @rfl _ (execTtag g a b s)) ?_
  rintro s cur f fs v regs ⟨r, t, t1, w, u, named, short, st, idle, tag, drain, found, rfl⟩
  have lowest := regs f List.mem_cons_self
  simp only [src32_ready lowest a (fun q hq => by simp [laneSpans, hq]), src32_ready lowest b (fun q hq => by simp [laneSpans, hq]), tileOf_named named,
    Nat.div_eq_of_lt short, needReady_ok st, idle, await_ok, Bool.not_false, tag, drain, found, Res.bind_ok, ne_eq,
    not_true_eq_false, if_false]

/-- TQRY reads a field of the tile, or the answer of a handle that names none. -/
theorem tqry_reads (g : Guard) (d : BitVec 8) (a : Src) (sel : TSel) : WritesWord (.tqry g d a sel) d fun s x =>
    queryTile sel ((namedTile s x.team (s.op32 x a).toNat).bind s.tile) := by
  refine writesWord_of (.tqry g d a sel) d _ (fun s => @rfl _ (execTqry g d a sel s)) _ (by simp [laneSpans]) ?_
  intro s r f x F _ ready here
  rw [src32_eq here ready a (fun q hq => by simp [laneSpans, hq]), Res.bind_ok, State.fib_eq _ f x here]
  rfl

/-- TWAIT goes on from the state that it waits for, and acquires the release that made it so. -/
theorem twait_passes (g : Guard) (a : Src) (e : Bool) : Flockwise (.twait g a e) fun s _ f fs v => ∃ r t,
    namesTile s f (s.op32 (s.fib f) a).toNat r t ∧ t.st = (if e then .empty else .ready) ∧
    acquireAll s fs .team t.ls = .ok v := by
  refine flockwise_ready _ _ _ (fun s => @rfl _ (execTwait g a e s)) ?_
  rintro s cur f fs v regs ⟨r, t, named, st, acquire⟩
  simp only [src32_ready (regs f List.mem_cons_self) a (fun q hq => by simp [laneSpans, hq]), tileOf_named named, Res.bind_ok,
    await_ok (decide_eq_true st), acquire]

/-- TREL: a READY tile that no pending operation names, or an EMPTY one, is EMPTY afterwards; `.u` frees its entry. -/
theorem trel_empties (g : Guard) (a : Src) (e : Bool) : Flockwise (.trel g a e) fun s _ f fs v => ∃ r t w u,
    namesTile s f (s.op32 (s.fib f) a).toNat r t ∧ drained s fs = .ok w ∧
    ((t.st = .empty ∧ u = w) ∨ (t.st = .ready ∧ tileBusy s r = false ∧ findReady w fs t = .ok u)) ∧
    v = if e then freeTile (setTileState u r .empty) r else setTileState u r .empty := by
  refine flockwise_ready _ _ _ (fun s => @rfl _ (execTrel g a e s)) ?_
  rintro s cur f fs v regs ⟨r, t, w, u, named, drain, found, rfl⟩
  simp only [src32_ready (regs f List.mem_cons_self) a (fun q hq => by simp [laneSpans, hq]), tileOf_named named, Res.bind_ok, drain]
  rcases found with ⟨st, rfl⟩ | ⟨st, idle, found⟩
  · simp [st, await_ok]
  · simp [st, idle, found, await_ok]

/-- Settles O33: TDEF by whether an entry is free, the others by their checks. -/
theorem tileDefinitions : Obligations.TileDefinitions := by
  intro g d a b chain ready e sel
  refine ⟨(tdef_answers g d a b chain ready).mono ?some, (tdef_answers g d a b chain ready).mono ?none, ttag_retags g a b,
    tqry_reads g d a sel, twait_passes g a e, trel_empties g a e⟩
  case some =>
    rintro s r f fs v ⟨t, u, desc, free, rfl⟩
    exact ⟨t, u, desc, (if_neg free.ne').symm⟩
  case none =>
    rintro s r f fs v ⟨t, u, desc, full, rfl⟩
    exact ⟨t, u, desc, (if_pos full).symm⟩

end Sys2Proof.Machine
end

section
/-! PROOFS. Tile transfers: TLD, TST and RODLD, and what a transfer that begins leaves of the tiles and lines (R203, R205). -/

namespace Sys2Proof.Machine

variable {s : State} {f : Nat} {fs : List Nat} {t : Tile} {k r q : TileRef}

/-! ### The tiles of a core (R203) -/

/-- A change of one tile's entry. -/
theorem modTile_tile (s : State) (r q : TileRef) (g : Tile → Tile) :
    (s.modTile r g).tile q = if r = q then (s.tile r).map g else s.tile q := by
  obtain ⟨rc, rk⟩ := r
  obtain ⟨qc, qk⟩ := q
  simp only [State.tile, State.modTile, State.modCore_core, TileRef.mk.injEq]
  by_cases core : rc = qc
  · subst core
    by_cases key : rk = qk
    · subst key; simp
    · simp [key]
  · simp [core]

theorem modTile_core (s : State) (r : TileRef) (g : Tile → Tile) (c : Nat) : (s.modTile r g).core c =
    { s.core c with tiles := if r.core = c then tabMod (s.core c).tiles r.key g else (s.core c).tiles } := by
  rw [State.modTile, State.modCore_core]
  split
  · next h => rw [h]
  · rfl

theorem modCore_tile {g : Core → Core} (h : ∀ x, (g x).tiles = x.tiles) (s : State) (c : Nat) (q : TileRef) :
    (s.modCore c g).tile q = s.tile q := by
  rw [State.tile, State.modCore_core]
  split
  · next same => rw [h, same]; rfl
  · rfl

/-- Moving a tile to a state changes its entry, and wakes fibres. -/
theorem setTileState_core (s : State) (r : TileRef) (st : TileSt) (c : Nat) :
    (setTileState s r st).core c = (s.modTile r fun x => { x with st := st }).core c := by
  unfold setTileState
  split
  · next none =>
    have same : tabMod (s.core r.core).tiles r.key (fun x => { x with st := st }) = (s.core r.core).tiles := by
      rw [State.tile] at none
      simp only [tabMod, none]
    rw [modTile_core]
    split
    · next h => rw [← h, same]
    · rfl
  · dsimp only
    split <;> rfl

theorem setTileState_tile (s : State) (r q : TileRef) (st : TileSt) : (setTileState s r st).tile q =
    if r = q then (s.tile r).map fun x => { x with st := st } else s.tile q := by
  rw [← modTile_tile, State.tile, setTileState_core]
  rfl

theorem setTileState_emptyLines (s : State) (r : TileRef) (st : TileSt) (c : Nat) :
    ((setTileState s r st).core c).emptyLines = (s.core c).emptyLines := by
  rw [setTileState_core, modTile_core]

theorem setTileState_xfers (s : State) (r : TileRef) (st : TileSt) (c : Nat) :
    ((setTileState s r st).core c).xfers = (s.core c).xfers := by
  rw [setTileState_core, modTile_core]

@[simp] theorem setTileState_mem (s : State) (r : TileRef) (st : TileSt) : (setTileState s r st).mem = s.mem := by
  unfold setTileState
  split
  · rfl
  · dsimp only
    split <;> rfl

/-! ### The lines of a core (R205) -/

/-- Marking lines changes which lines are empty, and nothing else of a core. -/
theorem markLines_core (s : State) (ls : List (Nat × Nat)) (full : Bool) (c : Nat) :
    (markLines s ls full).core c = { s.core c with emptyLines := ((markLines s ls full).core c).emptyLines } := by
  induction ls generalizing s with
  | nil => rfl
  | cons l ls ih =>
    rw [markLines, List.foldl_cons]
    refine (ih _).trans ?_
    rw [State.modCore_core]
    split
    · next h => rw [h]; rfl
    · rfl

theorem markLines_tile (s : State) (ls : List (Nat × Nat)) (full : Bool) (q : TileRef) :
    (markLines s ls full).tile q = s.tile q := by
  rw [State.tile, markLines_core]
  rfl

theorem markLines_xfers (s : State) (ls : List (Nat × Nat)) (full : Bool) (c : Nat) :
    ((markLines s ls full).core c).xfers = (s.core c).xfers := by
  rw [markLines_core]

@[simp] theorem markLines_mem (s : State) (ls : List (Nat × Nat)) (full : Bool) : (markLines s ls full).mem = s.mem := by
  refine foldl_mem _ ?_ ls s
  intro s l
  rfl

/-- Lines marked empty are empty, and those that were. -/
theorem markLines_empty (s : State) (ls : List (Nat × Nat)) (c n : Nat) :
    (tabGet ((markLines s ls false).core c).emptyLines n).isSome =
      (decide ((c, n) ∈ ls) || (tabGet (s.core c).emptyLines n).isSome) := by
  induction ls generalizing s with
  | nil => simp [markLines]
  | cons l ls ih =>
    obtain ⟨lc, ln⟩ := l
    rw [markLines, List.foldl_cons]
    refine (ih _).trans ?_
    simp only [State.modCore_core, List.mem_cons, Prod.mk.injEq, Bool.false_eq_true, if_false]
    by_cases core : lc = c
    · subst core
      by_cases line : ln = n
      · subst line; simp
      · simp [line, Ne.symm line]
    · simp [core, Ne.symm core]

/-- Lines marked full are empty no more. -/
theorem markLines_full (s : State) {ls : List (Nat × Nat)} {l : Nat × Nat}
    (h : l ∈ ls ∨ tabGet (s.core l.1).emptyLines l.2 = none) : tabGet ((markLines s ls true).core l.1).emptyLines l.2 = none := by
  induction ls generalizing s with
  | nil => exact h.resolve_left List.not_mem_nil
  | cons j ls ih =>
    rw [markLines, List.foldl_cons]
    refine ih _ ?_
    by_cases same : j = l
    · subst same
      right
      simp
    · refine h.imp (fun h => (List.mem_cons.1 h).resolve_left (Ne.symm same)) fun h => ?_
      rw [State.modCore_core]
      split
      · next core =>
        have line : j.2 ≠ l.2 := fun line => same (Prod.ext core line)
        rw [if_pos rfl, tabGet_tabDel_ne _ _ _ line, core, h]
      · exact h

/-! ### A transfer that begins (R203, R205, R214) -/

/-- The tiles of the state that a transfer begins from, its destination filling and its source draining. -/
def xferTiles (s : State) (x : Xfer) : State :=
  let s1 := match x.dst with
    | some r => setTileState s r .filling
    | none => s
  match x.src with
    | some r => setTileState s1 r .draining
    | none => s1

theorem beginTransfer_eq (s : State) (core : Nat) (x : Xfer) : beginTransfer s core x =
    (markLines (xferTiles s x) (x.fills s) false).modCore core fun c => { c with xfers := c.xfers ++ [{ x with lines := x.fills s }] } :=
  rfl

theorem xferTiles_emptyLines (s : State) (x : Xfer) (c : Nat) : ((xferTiles s x).core c).emptyLines = (s.core c).emptyLines := by
  unfold xferTiles
  cases x.dst <;> cases x.src <;> simp only [setTileState_emptyLines]

theorem xferTiles_xfers (s : State) (x : Xfer) (c : Nat) : ((xferTiles s x).core c).xfers = (s.core c).xfers := by
  unfold xferTiles
  cases x.dst <;> cases x.src <;> simp only [setTileState_xfers]

theorem xferTiles_mem (s : State) (x : Xfer) : (xferTiles s x).mem = s.mem := by
  unfold xferTiles
  cases x.dst <;> cases x.src <;> simp only [setTileState_mem]

theorem beginTransfer_tile (s : State) (core : Nat) (x : Xfer) (q : TileRef) :
    (beginTransfer s core x).tile q = (xferTiles s x).tile q := by
  rw [beginTransfer_eq, modCore_tile, markLines_tile]
  intro c
  rfl

/-- The source of a transfer drains. -/
theorem beginTransfer_src {x : Xfer} (core : Nat) (src : x.src = some r) (h : s.tile r = some t) :
    ((beginTransfer s core x).tile r).map (·.st) = some .draining := by
  rw [beginTransfer_tile, xferTiles, src]
  cases x.dst with
  | none => simp [setTileState_tile, h]
  | some q =>
    by_cases same : q = r
    · simp [setTileState_tile, same, h]
    · simp [setTileState_tile, same, h]

/-- The destination of a transfer fills. -/
theorem beginTransfer_dst {x : Xfer} (core : Nat) (dst : x.dst = some r) (src : x.src ≠ some r) (h : s.tile r = some t) :
    ((beginTransfer s core x).tile r).map (·.st) = some .filling := by
  rw [beginTransfer_tile, xferTiles, dst]
  cases hx : x.src with
  | none => simp [setTileState_tile, h]
  | some q =>
    have other : q ≠ r := fun e => src (e ▸ hx)
    simp [setTileState_tile, h, other]

/-- Any other tile stays. -/
theorem beginTransfer_other {x : Xfer} (core : Nat) (src : x.src ≠ some r) (dst : x.dst ≠ some r) :
    (beginTransfer s core x).tile r = s.tile r := by
  rw [beginTransfer_tile, xferTiles]
  cases hs : x.src <;> cases hd : x.dst <;> simp_all [setTileState_tile]

theorem beginTransfer_xfers (s : State) (core : Nat) (x : Xfer) :
    ((beginTransfer s core x).core core).xfers = (s.core core).xfers ++ [{ x with lines := x.fills s }] := by
  rw [beginTransfer_eq, State.modCore_core, if_pos rfl, markLines_xfers, xferTiles_xfers]

/-- The lines that the transfer will write are empty, and those that were. -/
theorem beginTransfer_empty (s : State) (core : Nat) (x : Xfer) (c n : Nat) :
    (tabGet ((beginTransfer s core x).core c).emptyLines n).isSome =
      (decide ((c, n) ∈ x.fills s) || (tabGet (s.core c).emptyLines n).isSome) := by
  have lines : ((beginTransfer s core x).core c).emptyLines = ((markLines (xferTiles s x) (x.fills s) false).core c).emptyLines := by
    rw [beginTransfer_eq, State.modCore_core]
    split
    · next h => rw [h]
    · rfl
  rw [lines, markLines_empty, xferTiles_emptyLines]

theorem beginTransfer_mem (s : State) (core : Nat) (x : Xfer) : (beginTransfer s core x).mem = s.mem := by
  rw [beginTransfer_eq, State.modCore_mem, markLines_mem, xferTiles_mem]

/-! ### The instructions (R214, R215) -/

section Transfer
variable {i : Instr} {run : Run} {d : BitVec 8} {a b c : Src} {ft : Ft} {store : Bool} {v : State}

/-- What TLD and TST hand to the engine. -/
def handsTransfer (store : Bool) (d : BitVec 8) (a b c : Src) (ft : Ft) (s : State) (run : Run) (f : Nat) (fs : List Nat)
    (v : State) : Prop := ∃ k t u z w,
  namesTile s f (s.op32 (s.fib f) a).toNat k t ∧ t.st = (if store then .ready else .empty) ∧
  checkTransfer s f t (s.op64 (s.fib f) b) (s.op32 (s.fib f) c).toNat store = .ok u ∧ drained u fs = .ok z ∧
  (if store then findReady z fs t else .ok z) = .ok w ∧
  let q := startOp w run ft fs (some d)
  v = beginTransfer q.2 (s.fib f).core ⟨if store then .store else .load, (s.fib f).team, (s.fib f).slice,
    if store then some k else none, if store then none else some k, s.op64 (s.fib f) b, (s.op32 (s.fib f) c).toNat, t.tag,
    greatestK s fs, fs, some d.toNat, some q.1, none, [], 0⟩

theorem transferTile_ok (regs : ∀ h ∈ f :: fs, RegsReady i (s.fib h))
    (spans : laneSpans i = [(d.toNat, 1)] ++ srcSpan 1 a ++ srcSpan 2 b ++ srcSpan 1 c)
    (h : handsTransfer store d a b c ft s run f (f :: fs) v) : transferTile s run f (f :: fs) d a b c ft store = .ok v := by
  obtain ⟨k, t, u, z, w, named, st, check, drain, found, rfl⟩ := h
  have lowest := regs f List.mem_cons_self
  simp only [transferTile, needAll_word regs (d := d) (by simp [spans]),
    src32_ready lowest a (fun q hq => by simp [spans, hq]), src64_ready lowest b (fun q hq => by simp [spans, hq]),
    src32_ready lowest c (fun q hq => by simp [spans, hq]), tileOf_named named, check, await_ok (decide_eq_true st), drain,
    found, Res.bind_ok]

end Transfer

theorem tld_fills (g : Guard) (d : BitVec 8) (a b c : Src) (ft : Ft) :
    Flockwise (.tld g d a b c ft) (handsTransfer false d a b c ft) := by
  refine flockwise_ready _ _ _ (fun s => @rfl _ (execTld g d a b c ft s)) ?_
  rintro s cur f fs v regs h
  exact transferTile_ok regs rfl h

theorem tst_drains (g : Guard) (d : BitVec 8) (a b c : Src) (ft : Ft) :
    Flockwise (.tst g d a b c ft) (handsTransfer true d a b c ft) := by
  refine flockwise_ready _ _ _ (fun s => @rfl _ (execTst g d a b c ft s)) ?_
  rintro s cur f fs v regs h
  exact transferTile_ok regs rfl h

/-- RODLD takes a READY scratchpad tile that no pending loop names into EMPTY rods. -/
theorem rodld_copies (g : Guard) (d : BitVec 8) (a b : Src) (ft : Ft) :
    Flockwise (.rodld g d a b ft) fun s r f fs v => ∃ k t j w z u t1, namesTile s f (s.op32 (s.fib f) a).toNat k t ∧
      namesTile s f (s.op32 (s.fib f) b).toNat j w ∧ checkRodLoad s (s.fib f).team t w = .ok t1 ∧ t.st = .empty ∧
      w.st = .ready ∧ loopNames s k = false ∧ loopNames s j = false ∧ drained s fs = .ok z ∧ findReady z fs w = .ok u ∧
      let q := startOp u r ft fs (some d)
      v = beginTransfer q.2 (s.fib f).core ⟨.rod, (s.fib f).team, (s.fib f).slice, some j, some k, 0, 0, rodTag w.tag,
        greatestK s fs, fs, some d.toNat, some q.1, none, [], 0⟩ := by
  refine flockwise_ready _ _ _ (fun s => @rfl _ (execRodld g d a b ft s)) ?_
  rintro s cur f fs v regs ⟨k, t, j, w, z, u, t1, dst, src, check, empty, ready, free, free', drain, found, rfl⟩
  have lowest := regs f List.mem_cons_self
  simp only [needAll_word regs (d := d) (by simp [laneSpans]), src32_ready lowest a (fun q hq => by simp [laneSpans, hq]),
    src32_ready lowest b (fun q hq => by simp [laneSpans, hq]), tileOf_named dst, tileOf_named src, check,
    await_ok (decide_eq_true empty), needReady_ok ready, free, free', await_ok, Bool.not_false, Bool.and_self, drain, found,
    Res.bind_ok]

/-- Settles O34: the three instructions by their checks, and the transfer that they begin by its tiles and lines. -/
theorem tileTransfers : Obligations.TileTransfers := by
  refine ⟨fun g d a b c ft => ⟨(tld_fills g d a b c ft).mono ?load, (tst_drains g d a b c ft).mono ?store,
    rodld_copies g d a b ft⟩, fun s core x r t here => ⟨fun src => beginTransfer_src core src here,
    fun dst src => beginTransfer_dst core dst src here, fun src dst => (beginTransfer_other core src dst).trans here,
    beginTransfer_xfers s core x, beginTransfer_empty s core x, beginTransfer_mem s core x⟩⟩
  case load =>
    rintro s r f fs v ⟨k, t, u, w, named, st, check, drain, rfl⟩
    exact ⟨k, t, u, w, w, named, st, check, drain, rfl, rfl⟩
  case store =>
    rintro s r f fs v ⟨k, t, u, z, w, named, st, check, drain, found, rfl⟩
    exact ⟨k, t, u, z, w, named, st, check, drain, found, rfl⟩

end Sys2Proof.Machine
end

section
/-! PROOFS. The quantising store (R216, R366, R367), and the moves of carry registers (R217). -/

namespace Sys2Proof.Machine

variable {s : State} {f : Nat}

/-! ### The checks of QST -/

/-- R204, R216: the side tile of `.keep`, where there is one: READY, FP32, and a column for each line. -/
def sideTile (keep : Option Src) (s : State) (f cnt : Nat) (side : Option (TileRef × Tile)) : Prop :=
  (keep = none → side = none) ∧ ∀ c, keep = some c → ∃ w y, side = some (w, y) ∧
    namesTile s f (s.op32 (s.fib f) c).toNat w y ∧ y.rod = false ∧ tagFmt y.tag = some .fp32 ∧ cnt ≤ y.cols ∧ y.st = .ready

theorem qstSide_ok {i : Instr} {keep : Option Src} {cnt : Nat} {side : Option (TileRef × Tile)}
    (ready : RegsReady i (s.fib f)) (spans : ∀ c, keep = some c → ∀ q ∈ srcSpan 1 c, q ∈ laneSpans i)
    (h : sideTile keep s f cnt side) : qstSide s f keep cnt = .ok side ∧ sideReady side = .ok () := by
  obtain ⟨none, some⟩ := h
  cases keep with
  | none =>
    rw [none rfl]
    exact ⟨rfl, rfl⟩
  | some c =>
    obtain ⟨w, y, rfl, named, rod, fmt, wide, st⟩ := some c rfl
    refine ⟨?_, needReady_ok st⟩
    simp [qstSide, src32_ready ready c (spans c rfl), tileOf_named named, rod, fmt, wide.not_gt]

/-- R17: a group of registers within the allocation, none of them with a write outstanding. -/
theorem needRegs_ok {x : Fibre} {n c : Nat} (fits : n + c ≤ x.alloc) (free : ∀ b ∈ x.busy, ¬ (n ≤ b.1 ∧ b.1 < n + c)) :
    needRegs x n c = .ok () := by
  have quiet : (x.busy.any fun b => decide (n ≤ b.1) && decide (b.1 < n + c)) = false := by
    rw [List.any_eq_false]
    intro b hb
    simpa using free b hb
  simp only [needRegs, if_neg fits.not_gt, quiet, Bool.false_eq_true, if_false]

/-- R193: element stores of which none lies in a live barrier line pass. -/
theorem elementClobber_ok {team : Nat} {cells : List (Nat × Byte × Byte)} (h : ∀ c ∈ cells, s.barrierLive c.1 = false) :
    elementClobber s team cells = .ok () := by
  have clear : cells.find? (fun c => s.barrierLive c.1) = none := List.find?_eq_none.2 fun c hc => by simp [h c hc]
  simp only [elementClobber, clear]

/-! ### What QST pushes -/

section Quantise
variable (s : State) (run : Run) (f : Nat) (d : BitVec 8) (n : QstN) (cy : BitVec 3) (ft : Ft)
  (r : TileRef) (t : Tile) (m : Fmt) (side : Option (TileRef × Tile)) (pos : Nat)

/-- The scale code of an element: with block scales the byte that its lane would read, else that of 1. -/
def qstScale (e : Nat) : Nat :=
  let k := TileView.scaleKey s (TileView.ofTag r.core (s.fib f).team t m) (pos % 2 ^ 12) (e / 48)
  if tagScale t.tag = 2 then (overlay (s.fib f).queue k (engineByte s r.core k)).toNat else 0x7F

/-- The codes of the elements and the carry after them. -/
def qstCodesOf : List Nat × Nat :=
  qstCodes m (qstScale s f r t m pos) ((s.fib f).cy.getD cy.toNat 0).toNat
    ((List.range (QstN.count n)).map fun i => (s.fib f).reg (d.toNat + i)) (pos / 2 ^ 12 % 2 ^ 16)

/-- The elements end an unchained line. -/
def qstEnds : Bool := decide (t.lineLen = pos / 2 ^ 12 % 2 ^ 16 + QstN.count n) && !t.chain

/-- The store of the last carry in the side tile. -/
def qstKept : List (List (Nat × Byte × Byte)) :=
  match side with
  | some w => if qstEnds n t pos then
      [TileView.cells s ⟨w.1.core, (s.fib f).team, { w.2 with axis := false }, .fp32, 0, 0⟩ 0 (pos % 2 ^ 12)
        (qstCodesOf s f d n cy r t m pos).2] else []
  | none => []

/-- The element stores, and the one in the side tile. -/
def qstStores : List (List (Nat × Byte × Byte)) :=
  ((List.range (QstN.count n)).map fun i => TileView.cells s (TileView.ofTag r.core (s.fib f).team t m) (pos % 2 ^ 12)
    (pos / 2 ^ 12 % 2 ^ 16 + i) ((qstCodesOf s f d n cy r t m pos).1.getD i 0)) ++ qstKept s f d n cy r t m side pos

end Quantise

/-- What a QST whose checks pass does on a lane: its stores join the queue, and its carry register takes the carry. -/
def quantises (d : BitVec 8) (a b : Src) (keep : Option Src) (n : QstN) (cy : BitVec 3) (ft : Ft) (s : State) (run : Run)
    (f : Nat) (v : State) : Prop := ∃ r t m u0 u side,
  let pos := (s.op32 (s.fib f) b).toNat
  let cnt := QstN.count n
  namesTile s f (s.op32 (s.fib f) a).toNat r t ∧ qstTarget t = .ok m ∧ sideTile keep s f t.lineCount side ∧
  d.toNat % min cnt 8 = 0 ∧ d.toNat + cnt ≤ (s.fib f).alloc ∧
  (∀ k ∈ (s.fib f).busy, ¬ (d.toNat ≤ k.1 ∧ k.1 < d.toNat + cnt)) ∧
  pos < 2 ^ 28 ∧ pos % 2 ^ 12 < t.lineCount ∧ pos / 2 ^ 12 % 2 ^ 16 + cnt ≤ t.lineLen ∧ t.st = .ready ∧
  findReady s [f] t = .ok u0 ∧ sideFound u0 f side = .ok u ∧
  (∀ c ∈ (qstStores s f d n cy r t m side pos).flatten, s.barrierLive c.1 = false) ∧
  let p := startTok u run ft [f]
  v = (pushElements p.2 f p.1 (qstStores s f d n cy r t m side pos)).modFib f fun x => { x with
    cy := setAt x.cy cy.toNat (if qstEnds n t pos then 0 else BitVec.ofNat 32 (qstCodesOf s f d n cy r t m pos).2) }

theorem qstLane_ok {i : Instr} {run : Run} {d : BitVec 8} {a b : Src} {keep : Option Src} {n : QstN} {cy : BitVec 3} {ft : Ft}
    {v : State} (ready : RegsReady i (s.fib f)) (spanA : ∀ q ∈ srcSpan 1 a, q ∈ laneSpans i)
    (spanB : ∀ q ∈ srcSpan 1 b, q ∈ laneSpans i) (spanC : ∀ c, keep = some c → ∀ q ∈ srcSpan 1 c, q ∈ laneSpans i)
    (h : quantises d a b keep n cy ft s run f v) :
    qstLane s run f d a b keep (QstN.count n) cy.toNat ft = .ok v := by
  obtain ⟨r, t, m, u0, u, side, named, target, keeps, group, fits, free, short, line, elems, st, found, found', apart, rfl⟩ := h
  have inside : ¬ ((decide ((s.op32 (s.fib f) b).toNat / 2 ^ 28 ≠ 0) || decide (t.lineCount ≤ (s.op32 (s.fib f) b).toNat % 2 ^ 12) ||
      decide (t.lineLen < bitsOf (s.op32 (s.fib f) b).toNat 12 16 + QstN.count n)) = true) := by
    simp only [Nat.div_eq_of_lt short, bitsOf, ne_eq, not_true_eq_false, decide_false, Bool.false_or, Bool.or_eq_true,
      decide_eq_true_eq, not_or, not_le]
    exact ⟨line, fun past => elems.not_gt (of_decide_eq_true past)⟩
  obtain ⟨sideOk, sideSt⟩ := qstSide_ok ready spanC keeps
  simp only [qstLane, src32_ready ready a spanA, tileOf_named named, target, sideOk, needRegs_ok fits free,
    src32_ready ready b spanB, needReady_ok st, sideSt, found, found', Res.bind_ok]
  rw [if_neg (not_not.2 group), if_neg inside]
  show ((elementClobber s (s.fib f).team (qstStores s f d n cy r t m side (s.op32 (s.fib f) b).toNat).flatten).bind
    fun _ => _) = _
  rw [elementClobber_ok apart]
  rfl

theorem qst_quantises (g : Guard) (d : BitVec 8) (a b : Src) (keep : Option Src) (n : QstN) (cy : BitVec 3) (ft : Ft) :
    EachLane (.qst g d a b keep n cy ft) (quantises d a b keep n cy ft) := by
  refine lanewise_of _ _ _ (fun s => @rfl _ (execQst g d a b keep n cy ft s)) ?_
  rintro s r _ cur l f how v head ready ⟨rfl, h⟩
  obtain rfl := State.run_eq head
  simp only [qstLane_ok ready (fun q hq => by simp [laneSpans, hq]) (fun q hq => by simp [laneSpans, hq])
    (fun c hc q hq => by simp [laneSpans, hc, hq]) h]
  rfl

/-! ### Carry registers (R217) -/

theorem cyrd_reads (g : Guard) (d : BitVec 8) (cy : BitVec 3) :
    WritesWord (.cyrd g d cy) d fun _ x => x.cy.getD cy.toNat 0 := by
  refine writesWord_of (.cyrd g d cy) d _ (fun s => @rfl _ (execCyrd g d cy s)) _ (by simp [laneSpans]) ?_
  intro s r f x F _ _ here
  rw [State.fib_eq _ f x here]
  rfl

theorem cywr_writes (g : Guard) (a : Src) (cy : BitVec 3) :
    Completes (.cywr g a cy) fun s x => { x with cy := setAt x.cy cy.toNat (s.op32 x a) } := by
  refine completes_of_body (.cywr g a cy) _ (fun s => @rfl _ (execCywr g a cy s)) _ ?_
  intro s r f x F _ ready here _
  rw [src32_eq here ready a (fun q hq => by simp [laneSpans, hq]), Res.bind_ok]
  exact congrArg (fun t => Res.ok (Adv.next, t)) (modFib_congr here _ _ rfl)

/-- Settles O35: the lane of QST by its checks and its stores, CYRD and CYWR by the one register that they move. -/
theorem quantisingStore : Obligations.QuantisingStore := fun g d a b keep n cy ft =>
  ⟨qst_quantises g d a b keep n cy ft, cyrd_reads g d cy, cywr_writes g a cy⟩

end Sys2Proof.Machine
end

section
/-! PROOFS. Matrix loops: MREADY arms one, and MLOOP of the armed pair joins the queue of its bank (R219, R220). -/

namespace Sys2Proof.Machine

variable {s : State} {f : Nat} {fs : List Nat}

/-- R24: a bank that the team holds. -/
theorem needBank_ok {bank : Nat} (held : bank < (s.tm (s.fib f).team).banks) : needBank s f bank = .ok () := if_pos held

/-- R17: a 32-bit source that is ready on every acting fibre. -/
theorem src32_all {i : Instr} {c : Src} (ready : ∀ h ∈ fs, RegsReady i (s.fib h)) (spans : ∀ q ∈ srcSpan 1 c, q ∈ laneSpans i) :
    Res.foldM (fun _ h => (src32 s h c).map fun _ => ()) () fs = .ok () := by
  induction fs with
  | nil => rfl
  | cons g gs ih =>
    rw [Res.foldM, src32_ready (ready g List.mem_cons_self) c spans]
    exact ih fun h hh => ready h (List.mem_cons_of_mem _ hh)

/-- The handle of a loop word as a 32-bit source gives it. -/
theorem toNat_setWidth_handle (h : BitVec 16) : (h.setWidth 32).toNat = h.toNat := by
  rw [BitVec.toNat_setWidth, Nat.mod_eq_of_lt]
  omega

theorem tileOf_handle {t : Tile} {h : BitVec 16} {k : TileRef} (named : namesTile s f h.toNat k t) :
    tileOf s f (h.setWidth 32) = .ok (k, t) :=
  tileOf_named (by rwa [toNat_setWidth_handle])

/-- MREADY arms a loop over two READY tiles, once the stores of its fibres to scratchpads are performed. -/
theorem mready_arms (g : Guard) (a : Src) : Flockwise (.mready g a) fun s _ f fs v => ∃ ra ta rb tb z u w,
    let l := loopWord (s.op64 (s.fib f) a)
    namesTile s f l.ah.toNat ra ta ∧ namesTile s f l.bh.toNat rb tb ∧ ta.st = .ready ∧ tb.st = .ready ∧
    drained s fs = .ok z ∧
    let s0 := performCore z (s.fib f).core
    scratchSettled s0 (s.fib f).core fs = true ∧ findReady s0 fs ta = .ok u ∧ findReady u fs tb = .ok w ∧
    v = w.modFibs fs fun x => { x with armed := some (l.ah, l.bh) } := by
  refine flockwise_ready _ _ _ (fun s => @rfl _ (execMready g a s)) ?_
  rintro s cur f fs v regs ⟨ra, ta, rb, tb, z, u, w, namedA, namedB, stA, stB, drain, settled, foundA, foundB, rfl⟩
  simp only [src64_ready (regs f List.mem_cons_self) a (fun q hq => by simp [laneSpans, hq]), tileOf_handle namedA,
    tileOf_handle namedB, needReady_ok stA, needReady_ok stB, drain, await_ok settled, foundA, foundB, Res.bind_ok]

/-- The phase of a loop's barrier; 0 of a loop that names none. -/
def loopPhase (s : State) (o : Option Nat) : Nat :=
  match o with
  | some k => s.barField k 8 4
  | none => 0

/-- MLOOP of the armed pair joins its bank's queue and disarms. -/
theorem mloop_joins (g : Guard) (d : BitVec 8) (a b c : Src) (bank : BitVec 2) (ft : Ft) :
    Flockwise (.mloop g d a b c bank ft) fun s r f fs v => ∃ ra ta rb tb fw ops o s1 u w,
      let l := loopWord (s.op64 (s.fib f) a)
      let core := (s.fib f).core
      let team := (s.fib f).team
      (∀ h ∈ fs, (s.fib h).armed = some (l.ah, l.bh)) ∧ bank.toNat < (s.tm team).banks ∧
      namesTile s f l.ah.toNat ra ta ∧ namesTile s f l.bh.toNat rb tb ∧ loopShape ta tb l = .ok () ∧
      agreedFormat s c fs = .ok fw ∧ resolveOps ta.tag tb.tag fw l = .ok ops ∧ loopExtent s team ta tb ops l = .ok () ∧
      loopBarrier s f (s.op64 (s.fib f) b) = .ok (o, s1) ∧ ta.st = .ready ∧ tb.st = .ready ∧
      bankRoom s core team bank.toNat = true ∧ findReady s1 fs ta = .ok u ∧ findReady u fs tb = .ok w ∧
      let q := startTok w r ft fs
      v = (put32All (acceptLoop q.2 core team bank.toNat ⟨ra, rb, ta, tb, ops, l⟩ o (greatestK q.2 fs) none q.1 fs) fs d
        (BitVec.ofNat 32 (loopPhase w o))).modFibs fs fun x => { x with armed := none } := by
  refine flockwise_ready _ _ _ (fun s => @rfl _ (execMloop g d a b c bank ft s)) ?_
  rintro s cur f fs v regs ⟨ra, ta, rb, tb, fw, ops, o, s1, u, w, armed, held, namedA, namedB, shape, format, resolve, extent,
    barrier, stA, stB, room, foundA, foundB, rfl⟩
  have lowest := regs f List.mem_cons_self
  have agree : ((f :: fs).any fun h => decide ((cur.fib h).armed ≠
      some ((loopWord (cur.op64 (cur.fib f) a)).ah, (loopWord (cur.op64 (cur.fib f) a)).bh))) = false :=
    List.any_eq_false.2 fun h hh => by simp [armed h hh]
  simp only [needAll_word regs (d := d) (by simp [laneSpans]), src32_all regs (c := c) (fun q hq => by simp [laneSpans, hq]),
    src64_ready lowest a (fun q hq => by simp [laneSpans, hq]), src64_ready lowest b (fun q hq => by simp [laneSpans, hq]),
    agree, Bool.false_eq_true, if_false, needBank_ok held, tileOf_handle namedA, tileOf_handle namedB, shape, format, resolve,
    extent, barrier, needReady_ok stA, needReady_ok stB, await_ok room, foundA, foundB, Res.bind_ok]
  cases o <;> rfl

/-- Settles O36: both instructions by their checks; the barrier's phase is that of the line that the loop names. -/
theorem matrixLoops : Obligations.MatrixLoops := fun g d a b c bank ft =>
  ⟨mready_arms g a, mloop_joins g d a b c bank ft⟩

end Sys2Proof.Machine
end

section
/-! PROOFS. Accumulators and status words: MWAIT, ACCRD, ACCWR, ACCZ and MSTAT (R226 to R229). -/

namespace Sys2Proof.Machine

variable {s : State} {f : Nat} {fs : List Nat}

/-- MWAIT matches the loops of its bank, once it is idle. -/
theorem mwait_matches (g : Guard) (bank : BitVec 2) : Flockwise (.mwait g bank) fun s _ f fs v => ∃ u,
    let core := (s.fib f).core
    let mine := fun (w : LoopWait) => w.team = (s.fib f).team && w.bank = bank.toNat
    bank.toNat < (s.tm (s.fib f).team).banks ∧ bankBusy s core (s.fib f).team bank.toNat = false ∧
    acquireAll s fs .team (((s.core core).waits.filter mine).foldl (fun k w => max k w.k) 0) = .ok u ∧
    v = matchLoops u core mine := by
  refine flockwise_ready _ _ _ (fun s => @rfl _ (execMwait g bank s)) ?_
  rintro s cur f fs v - ⟨u, held, idle, acquire, rfl⟩
  simp only [needBank_ok held, idle, Bool.not_false, await_ok, Res.bind_ok]
  exact congrArg (fun r => Res.map _ r) acquire

/-- ACCRD: elements of a bank whose loops have all been waited for, and undefined ones of another bank. -/
theorem accrd_reads (g : Guard) (d : BitVec 8) (a : Src) (bank : BitVec 2) (n : AccN) :
    EachLane (.accrd g d a bank n) fun s _ f v => ∃ row col phys,
      accPlace s f d a bank.toNat (accCount n) = .ok (row, col, phys) ∧
      let vs := s.drawMany (accCount n)
      v = if bankUnwaited s (s.fib f).core (s.fib f).team bank.toNat then
          vs.2.modFib f fun x => (List.range (accCount n)).foldl (fun x i => x.setReg (d.toNat + i) ((vs.1.getD i 0).setWidth 32)) x
        else s.modFib f fun x => (List.range (accCount n)).foldl (fun x i => x.setReg (d.toNat + i)
          (tabGetD (s.core (s.fib f).core).acc (accKey phys row (col + i)) 0)) x := by
  refine lanewise_of _ _ _ (fun s => @rfl _ (execAccrd g d a bank n s)) ?_
  rintro s r _ cur l f how v - - ⟨rfl, row, col, phys, place, rfl⟩
  simp only [accRead, place, Res.bind_ok]
  split <;> rfl

theorem accwr_writes (g : Guard) (d : BitVec 8) (a : Src) (bank : BitVec 2) (n : AccN) :
    EachLane (.accwr g d a bank n) fun s _ f v => ∃ row col phys,
      accPlace s f d a bank.toNat (accCount n) = .ok (row, col, phys) ∧
      v = s.modCore (s.fib f).core fun c => { c with acc := (List.range (accCount n)).foldl (fun t i =>
        tabPutD t (accKey phys row (col + i)) ((s.fib f).reg (d.toNat + i)) 0) c.acc } := by
  refine lanewise_of _ _ _ (fun s => @rfl _ (execAccwr g d a bank n s)) ?_
  rintro s r _ cur l f how v - - ⟨rfl, row, col, phys, place, rfl⟩
  simp only [place, Res.bind_ok]

theorem accz_joins (g : Guard) (bank : BitVec 2) : Flockwise (.accz g bank) fun s _ f fs v =>
    bank.toNat < (s.tm (s.fib f).team).banks ∧ bankRoom s (s.fib f).core (s.fib f).team bank.toNat = true ∧
    v = acceptZero s (s.fib f).core (s.fib f).team bank.toNat (greatestK s fs) none := by
  refine flockwise_ready _ _ _ (fun s => @rfl _ (execAccz g bank s)) ?_
  rintro s cur f fs v - ⟨held, room, rfl⟩
  simp only [needBank_ok held, await_ok room, Res.bind_ok]

/-! ### Status words (R229) -/

/-- What MSTAT does with STATUS of the line at A: an access at team scope that leaves `put`, and an acquire. `due` says that
the arrival that writes it is still due. -/
def readsStatus (a : Src) (due : Bool) (put : Option (List Byte)) (s : State) (f : Nat) (s2 w u : State) (old : List Byte) :
    Prop := ∃ ps s1 s3 k,
  checkAccess s f (s.op64 (s.fib f) a) 24 128 .load = .ok (ps, s1) ∧ settleStores s1 f = .ok s2 ∧
  let p := (firstPiece ps).place
  p.kind ≠ .host ∧ statusDue s2 (lineOf p.key) = due ∧
  atomicAt w f (s.op64 (s.fib f) a + 16) ⟨p.kind, p.key + 16⟩ 8 .team (fun _ => put) = .ok (old, k, s3) ∧
  advanceView s3 f .team (s2.line (lineOf p.key)).ls = .ok u

theorem mstat_reads (g : Guard) (d : BitVec 8) (a : Src) (clr : Bool) : EachLane (.mstat g d a clr) fun s _ f v =>
    ∃ s2 u old, readsStatus a false (if clr then some (List.replicate 8 0) else none) s f s2 s2 u old ∧
      v = u.modFib f fun x => x.setPair d.toNat (BitVec.ofNat 64 (natOfBytes old)) := by
  refine lanewise_of _ _ _ (fun s => @rfl _ (execMstat g d a clr s)) ?_
  rintro s r _ cur l f how v - ready ⟨rfl, s2, u, old, ⟨ps, s1, s3, k, access, settle, device, quiet, atomic, advance⟩, rfl⟩
  simp only [ready.pair (n := d) (by simp [laneSpans]), src64_ready ready a (fun q hq => by simp [laneSpans, hq]), access,
    settle, if_neg device, quiet, Bool.false_eq_true, if_false, atomic, advance, Res.bind_ok]
  rfl

theorem mstat_undefined (g : Guard) (d : BitVec 8) (a : Src) (clr : Bool) : EachLane (.mstat g d a clr) fun s _ f v =>
    ∃ s2 u old, let q := s2.drawMany 2
      readsStatus a true (if clr then some (bytesOfNat 8 (q.1.getD 1 0).toNat) else none) s f s2 q.2 u old ∧
      v = u.modFib f fun x => x.setPair d.toNat (q.1.getD 0 0) := by
  refine lanewise_of _ _ _ (fun s => @rfl _ (execMstat g d a clr s)) ?_
  rintro s r _ cur l f how v - ready ⟨rfl, s2, u, old, ⟨ps, s1, s3, k, access, settle, device, due, atomic, advance⟩, rfl⟩
  simp only [ready.pair (n := d) (by simp [laneSpans]), src64_ready ready a (fun q hq => by simp [laneSpans, hq]), access,
    settle, if_neg device, due, if_true, atomic, advance, Res.bind_ok]
  rfl

/-- Settles O37: ACCRD by whether the loops of its bank have been waited for, MSTAT by whether the arrival at its line is
due. -/
theorem accumulators : Obligations.Accumulators := by
  intro g d a bank n clr
  refine ⟨mwait_matches g bank, (accrd_reads g d a bank n).mono ?defined, (accrd_reads g d a bank n).mono ?undefined,
    accwr_writes g d a bank n, accz_joins g bank, mstat_reads g d a clr, mstat_undefined g d a clr⟩
  case defined =>
    rintro s r f v ⟨row, col, phys, place, waited, rfl⟩
    exact ⟨row, col, phys, place, (if_neg (Bool.eq_false_iff.1 waited)).symm⟩
  case undefined =>
    rintro s r f v ⟨⟨row, col, phys⟩, place, unwaited, rfl⟩
    exact ⟨row, col, phys, place, (if_pos unwaited).symm⟩

end Sys2Proof.Machine
end

section
/-! PROOFS. Slices of copies: TCOPY and TCOPYV (R231). -/

namespace Sys2Proof.Machine

variable {s : State} {f : Nat} {fs : List Nat}

/-- What a slice whose checks and waits pass does: a release at device scope, its arrival, and the slice in its phase. `wide`
and `expected` are those of TCOPYV. -/
def joinsPhase (d : BitVec 8) (a b : Src) (tile : Bool) (ft : Ft) (wide : Bool) (expected : DWord) (s : State) (r : Run)
    (f : Nat) (fs : List Nat) (v : State) : Prop := ∃ bytes k u x h ps w tl obj y z,
  loadBytes s f (s.op64 (s.fib f) b) (if wide then 40 else 32) 8 .table false = .ok (bytes, k, u) ∧
  readSlice bytes tile wide expected = .ok (x, h) ∧ translateImage u f .load x.sources = .ok (ps, w) ∧
  copyDest w f h tile x = .ok tl ∧ copyObject w f (s.op64 (s.fib f) a) = .ok (obj, y) ∧
  sliceWaits y f obj tl = .ok () ∧ releaseAll y fs .device = .ok z ∧ (z.line obj).pend = none ∧
  let n := arriveSlice (clearLine z obj) obj (greatestK z fs)
  let q := startTok n.2.2 r ft fs
  let t1 := match tl with
    | some e => if e.2.st = .filling then q.2 else setTileState q.2 e.1 .filling
    | none => q.2
  v = put32All (addSlice t1 (y.fib f).core obj { x with
    tile := tl.map fun e => e.1, team := (y.fib f).team, core := (y.fib f).core, base := (y.fib f).slice, fibres := fs,
    tok := q.1, k := greatestK z fs } n.2.1) fs d (BitVec.ofNat 32 n.1)

/-- The slice of TCOPY, and of TCOPYV with the expected version word at C. -/
theorem copySlice_ok {i : Instr} {r : Run} {d : BitVec 8} {a b : Src} {c : Option Src} {tile : Bool} {ft : Ft} {v : State}
    (regs : ∀ h ∈ f :: fs, RegsReady i (s.fib h)) (spanD : (d.toNat, 1) ∈ laneSpans i)
    (spanA : ∀ q ∈ srcSpan 2 a, q ∈ laneSpans i) (spanB : ∀ q ∈ srcSpan 2 b, q ∈ laneSpans i)
    (spanC : ∀ e, c = some e → ∀ q ∈ srcSpan 2 e, q ∈ laneSpans i)
    (h : joinsPhase d a b tile ft c.isSome (c.elim 0 (s.op64 (s.fib f))) s r f (f :: fs) v) :
    copySlice s r f (f :: fs) d a b c tile ft = .ok v := by
  obtain ⟨bytes, k, u, x, e, ps, w, tl, obj, y, z, load, slice, sources, dests, object, waits, release, pend, rfl⟩ := h
  have lowest := regs f List.mem_cons_self
  have expected : ∀ e, c = some e → src64 s f e = .ok (s.op64 (s.fib f) e) := fun e he => src64_ready lowest e (spanC e he)
  cases c
  all_goals
    rw [Option.elim] at slice
    simp only [copySlice, needAll_word regs spanD, src64_ready lowest a spanA, src64_ready lowest b spanB, expected, load,
      slice, sources, dests, object, waits, joinPhase, release, pend, Option.isNone_none, await_ok, Res.bind_ok]
    cases tl <;> rfl

/-- Settles O38: both instructions are one slice, which joins its phase. -/
theorem copySlices : Obligations.CopySlices := by
  intro g d a b c tile ft
  refine ⟨flockwise_ready _ _ _ (fun s => @rfl _ (execTcopy g d a b tile ft s)) ?plain,
    flockwise_ready _ _ _ (fun s => @rfl _ (execTcopyv g d a b c tile ft s)) ?versioned⟩
  case plain =>
    rintro s cur f fs v regs h
    exact copySlice_ok regs (by simp [laneSpans]) (fun q hq => by simp [laneSpans, hq]) (fun q hq => by simp [laneSpans, hq])
      (fun e he => by cases he) h
  case versioned =>
    rintro s cur f fs v regs h
    exact copySlice_ok regs (by simp [laneSpans]) (fun q hq => by simp [laneSpans, hq]) (fun q hq => by simp [laneSpans, hq])
      (fun e he q hq => by cases he; simp [laneSpans, hq]) h

end Sys2Proof.Machine
end

section
/-! PROOFS. What the homes and the store queues leave alone: the runs, the flocks, and of a fibre in a flock all that a word in
issue looks at (R22, R35); operations at a home leave the cores alone too. -/

namespace Sys2Proof.Machine

/-- What stays of a fibre: its place, its marks, its predicates and registers; operations that end only free registers. -/
structure Fibre.Steady (x y : Fibre) : Prop where
  home : y.home = x.home
  loc : y.loc = x.loc
  cancel : y.cancel = x.cancel
  preds : y.preds = x.preds
  regs : y.regs = x.regs
  alloc : y.alloc = x.alloc
  busy : ∀ b ∈ y.busy, b ∈ x.busy

theorem Fibre.Steady.refl (x : Fibre) : x.Steady x := ⟨rfl, rfl, rfl, rfl, rfl, rfl, fun _ h => h⟩

theorem Fibre.Steady.trans {x y z : Fibre} (h : x.Steady y) (h' : y.Steady z) : x.Steady z :=
  ⟨h'.home.trans h.home, h'.loc.trans h.loc, h'.cancel.trans h.cancel, h'.preds.trans h.preds, h'.regs.trans h.regs, h'.alloc.trans h.alloc,
    fun b hb => h.busy b (h'.busy b hb)⟩

/-- The runs and flocks stay, and the fibres in flocks. -/
structure Steady (s t : State) : Prop where
  runs : t.runs = s.runs
  flocks : t.flocks = s.flocks
  fibre : ∀ g x k, tabGet s.fibres g = some x → x.loc = .flock k → ∃ y, tabGet t.fibres g = some y ∧ x.Steady y

/-- The cores stay too. -/
structure AtHome (s t : State) : Prop extends Steady s t where
  cores : t.cores = s.cores

variable {s t u : State}

theorem Steady.refl (s : State) : Steady s s := ⟨rfl, rfl, fun _ x _ h _ => ⟨x, h, .refl x⟩⟩

theorem Steady.trans (h : Steady s t) (h' : Steady t u) : Steady s u where
  runs := h'.runs.trans h.runs
  flocks := h'.flocks.trans h.flocks
  fibre := fun g x k hx hl => by
    obtain ⟨y, hy, xy⟩ := h.fibre g x k hx hl
    obtain ⟨z, hz, yz⟩ := h'.fibre g y k hy (xy.loc.trans hl)
    exact ⟨z, hz, xy.trans yz⟩

theorem Steady.same (h : (t.runs, t.flocks, t.fibres) = (s.runs, s.flocks, s.fibres)) : Steady s t := by
  simp only [Prod.mk.injEq] at h
  obtain ⟨runs, flocks, fibres⟩ := h
  exact ⟨runs, flocks, fun g x _ hx _ => ⟨x, fibres ▸ hx, .refl x⟩⟩

theorem AtHome.refl (s : State) : AtHome s s := ⟨.refl s, rfl⟩

theorem AtHome.trans (h : AtHome s t) (h' : AtHome t u) : AtHome s u :=
  ⟨h.toSteady.trans h'.toSteady, h'.cores.trans h.cores⟩

theorem AtHome.same (h : (t.runs, t.flocks, t.fibres, t.cores) = (s.runs, s.flocks, s.fibres, s.cores)) : AtHome s t := by
  simp only [Prod.mk.injEq] at h
  obtain ⟨runs, flocks, fibres, cores⟩ := h
  exact ⟨.same (by rw [runs, flocks, fibres]), cores⟩

theorem Steady.foldl {α : Type} {g : State → α → State} (l : List α) (hg : ∀ s, ∀ x ∈ l, Steady s (g s x)) (s : State) :
    Steady s (l.foldl g s) :=
  foldl_keeps (Steady s) g l (fun u x hx h => h.trans (hg u x hx)) s (.refl s)

theorem AtHome.foldl {α : Type} {g : State → α → State} (l : List α) (hg : ∀ s, ∀ x ∈ l, AtHome s (g s x)) (s : State) :
    AtHome s (l.foldl g s) :=
  foldl_keeps (AtHome s) g l (fun u x hx h => h.trans (hg u x hx)) s (.refl s)

/-- An operation on every fibre that leaves those in flocks steady. -/
theorem AtHome.mapped {m : Nat × Fibre → Nat × Fibre} (s : State) (key : ∀ p : Nat × Fibre, (m p).1 = p.1)
    (h : ∀ (p : Nat × Fibre) (k : Nat), p.2.loc = .flock k → p.2.Steady (m p).2) : AtHome s { s with fibres := s.fibres.map m } := by
  refine ⟨⟨rfl, rfl, fun g x k hx hl => ⟨(m (g, x)).2, ?_, h (g, x) k hl⟩⟩, rfl⟩
  have shape : m = fun p => (p.1, (m (p.1, p.2)).2) := funext fun p => Prod.ext (key p) rfl
  show tabGet (s.fibres.map m) g = _
  rw [shape, tabGet_map s.fibres fun k v => (m (k, v)).2, hx]
  rfl

/-! ### At a home (R174, R322, R330) -/

theorem raiseLs_home (s : State) (key k : Nat) : AtHome s (s.raiseLs key k) := by
  unfold State.raiseLs
  split
  · exact .refl s
  · exact .same rfl

theorem putCells_home (s : State) (cells : List (Nat × Byte × Byte)) : AtHome s (s.putCells cells) := by
  refine AtHome.foldl cells ?_ s
  intro u c _
  exact .same rfl

theorem backInvalidate_home (s : State) (keys : List Nat) (write : Bool) : AtHome s (s.backInvalidate keys write) := by
  unfold State.backInvalidate
  split
  · exact .refl s
  · exact .same rfl

theorem holdHost_home (s : State) (die key : Nat) (wr : Bool) : AtHome s (s.holdHost die key wr) := by
  unfold State.holdHost
  split
  · exact .same rfl
  · exact .refl s

theorem markCode_home (s : State) (fs : List Nat) (cells : List (Nat × Byte × Byte)) : AtHome s (s.markCode fs cells) := by
  unfold State.markCode
  dsimp only
  split
  · exact .refl s
  · refine .mapped s (fun p => ?_) fun p k _ => ?_
    · split <;> rfl
    · split
      · exact ⟨rfl, rfl, rfl, rfl, rfl, rfl, fun _ h => h⟩
      · exact .refl _

theorem wakeWords_home (s : State) (keys : List Nat) : AtHome s (s.wakeWords keys) := by
  refine .mapped s (fun p => ?_) fun p k here => ?_
  · repeat' split
    all_goals rfl
  · simp only [here]
    exact .refl _

theorem wakeBarrier_home (s : State) (line : Nat) : AtHome s (wakeBarrier s line) := by
  refine .mapped s (fun p => ?_) fun p k here => ?_
  · repeat' split
    all_goals rfl
  · simp only [here]
    exact .refl _

theorem finishTok_home (s : State) (tok : Nat) : AtHome s (s.finishTok tok) := by
  refine .mapped s (fun p => ?_) fun p k _ => ?_
  · split <;> rfl
  · split
    · exact ⟨rfl, rfl, rfl, rfl, rfl, rfl, fun _ h => List.mem_of_mem_filter h⟩
    · exact .refl _

theorem mergeHome_home (s : State) (cl : Nat) (d : Nat × DirtyByte) : AtHome s (s.mergeHome cl d) := by
  unfold State.mergeHome
  have gone : AtHome s ((s.modClus cl fun c => { c with dirty := tabDel c.dirty d.1 }).invalidate (lineOf d.1)
      (wordSpan d.1 1 false) none) := .same rfl
  have merged := (gone.trans (putCells_home _ [(d.1, d.2.val, d.2.mask)])).trans (raiseLs_home _ d.1 d.2.ls)
  exact (merged.trans (markCode_home _ d.2.storers [(d.1, d.2.val, d.2.mask)])).trans (wakeWords_home _ [d.1])

theorem flushWords_home (s : State) (hit : Nat → Bool) : AtHome s (s.flushWords hit) := by
  refine AtHome.foldl _ (fun u c _ => AtHome.foldl _ (fun v d _ => ?_) u) s
  split
  · exact mergeHome_home v _ d
  · exact .refl v

theorem performSpan_home (s : State) (cells : List (Nat × Byte × Byte)) (k : Nat) (whole : Bool) :
    AtHome s (s.performSpan cells k whole) := by
  unfold State.performSpan State.performQuiet
  dsimp only
  have flushed := flushWords_home s fun a => cells.any fun c => if whole then lineOf c.1 = lineOf a else c.1 / 8 = a / 8
  have taken := flushed.trans (backInvalidate_home _ (cells.map (·.1)) true)
  have dropped := taken.trans (t := _) (u := State.dropDirty _ ((cells.filter fun c => c.2.2 = 0xFF).map (·.1))) (.same rfl)
  have invalid := dropped.trans (AtHome.foldl (g := fun u c => u.invalidate (lineOf c.1) (wordSpan c.1 1 whole) none) cells
    (fun _ _ _ => .same rfl) _)
  have raised := (invalid.trans (putCells_home _ cells)).trans (AtHome.foldl (g := fun u c => u.raiseLs c.1 k) cells
    (fun u c _ => raiseLs_home u c.1 k) _)
  exact raised.trans (wakeWords_home _ (cells.map (·.1)))

/-! ### Barrier lines (R190, R191) -/

theorem putBarrier_home (s : State) (line expect arrived phase flags status k : Nat) :
    AtHome s (putBarrier s line expect arrived phase flags status k) :=
  (performSpan_home s _ k false).trans (.same rfl)

theorem clearLine_home (s : State) (line : Nat) : AtHome s (clearLine s line) := flushWords_home s _

theorem arriveAt_home (s : State) (line k : Nat) (leave : Bool) : AtHome s (arriveAt s line k leave).2 := by
  have counted : ∀ n, AtHome s (s.modLine line fun l => { l with leaves := n }) := fun n => .same rfl
  unfold arriveAt
  dsimp only
  split
  · exact ((counted 0).trans (putBarrier_home ..)).trans (wakeBarrier_home _ line)
  · exact (counted _).trans (putBarrier_home ..)

end Sys2Proof.Machine
end

section
/-! PROOFS. Performing the stores of a core, and an access to memory, leave the runs, the flocks and the fibres in flocks
steady (R22, R171, R332). -/

namespace Sys2Proof.Machine

variable {s t : State}

/-! ### Translations (R245, R320) -/

theorem translateAny_steady {f : Nat} {va : DWord} {acc : Acc} {up : Bool} {p : Place}
    (h : translateAny s f va acc up = .ok (p, t)) : Steady s t := by
  obtain ⟨g, -, h⟩ := Res.bind_eq_ok h
  simp only at h
  repeat' split at h
  all_goals cases h
  all_goals exact .same rfl

theorem translate_steady {f : Nat} {va : DWord} {acc : Acc} {up : Bool} {p : Place}
    (h : translate s f va acc up = .ok (p, t)) : Steady s t := by
  obtain ⟨⟨q, u⟩, found, h⟩ := Res.bind_eq_ok h
  simp only at h
  repeat' split at h
  all_goals cases h
  exact translateAny_steady found

theorem checkAccess_steady {f : Nat} {va : DWord} {n al : Nat} {acc : Acc} {qs : List Piece}
    (h : checkAccess s f va n al acc = .ok (qs, t)) : Steady s t := by
  unfold checkAccess translatePieces at h
  simp only at h
  split at h
  · cases h
  · split at h
    · cases h
    · refine Res.foldM_keeps (fun q => Steady s q.2) _ _ _ _ (.refl s) ?_ (Res.onBad_ok h)
      rintro i - ⟨l, a⟩ ⟨m, b⟩ ha hb
      obtain ⟨⟨p, c⟩, found, done⟩ := Res.bind_eq_ok hb
      cases done
      exact ha.trans (translate_steady found)

/-! ### One store (R171, R174) -/

theorem finishStore_home (s : State) (r : StoreReq) : AtHome s (s.finishStore r) := by
  unfold State.finishStore
  split
  · exact .refl s
  · exact finishTok_home s _

theorem markCodes_home (ds : List (Nat × DirtyByte)) (s : State) :
    AtHome s (ds.foldl (fun s d => s.markCode d.2.storers [(d.1, d.2.val, d.2.mask)]) s) :=
  AtHome.foldl ds (fun u d _ => markCode_home u d.2.storers _) s

theorem writeBackGroup_home {cl key : Nat} (h : writeBackGroup s cl key = some t) : AtHome s t := by
  unfold writeBackGroup at h
  simp only at h
  split at h
  · cases h; exact .refl s
  split at h
  · cases h
  cases h
  have gone := AtHome.same (s := s) (t := s.modClus cl fun c => { c with
    dirty := ((s.clus cl).dirty.filter fun d => d.1 / 8 = key / 8).foldl (fun t d => tabDel t d.1) c.dirty }) rfl
  exact (gone.trans (performSpan_home _ _ _ false)).trans (markCodes_home _ _)

theorem foldWriteBack_home (s : State) (core : Nat) (r : StoreReq) : AtHome s (foldWriteBack s core r) := by
  refine AtHome.foldl _ (fun u d _ => ?_) s
  split
  · cases h : writeBackGroup u (clusterOf core) d.1 with
    | none => exact .refl u
    | some v => exact writeBackGroup_home h
  · exact .refl u

theorem storePendingLine_home {fold : FoldTag} {k line : Nat} {cells : List (Nat × Byte × Byte)}
    (h : storePendingLine s fold k line cells = some t) : AtHome s t := by
  unfold storePendingLine at h
  simp only at h
  split at h
  · split at h
    · cases h
    · cases h; exact .same rfl
  · obtain ⟨u, room, rfl⟩ := Option.map_eq_some_iff.1 h
    have taken : AtHome s u := by
      split at room
      · cases room; exact .refl s
      · obtain ⟨v, -, rfl⟩ := Option.map_eq_some_iff.1 room
        exact .same rfl
    exact taken.trans (.same rfl)

theorem pendingFold_none (fold : FoldTag) (r : StoreReq) (ls : List Nat) :
    ls.foldl (fun (o : Option State) l => o.bind fun s => storePendingLine s fold r.k l r.cells) none = none := by
  induction ls with
  | nil => rfl
  | cons l ls ih => exact ih

theorem storePendingLines_home {fold : FoldTag} {r : StoreReq} (ls : List Nat) (s : State)
    (h : ls.foldl (fun (o : Option State) l => o.bind fun s => storePendingLine s fold r.k l r.cells) (some s) = some t) :
    AtHome s t := by
  induction ls generalizing s with
  | nil => cases h; exact .refl _
  | cons l ls ih =>
    rw [List.foldl_cons, Option.bind_some] at h
    cases first : storePendingLine s fold r.k l r.cells with
    | none => rw [first, pendingFold_none] at h; cases h
    | some u => rw [first] at h; exact (storePendingLine_home first).trans (ih u h)

theorem storePendingAll_home {fold : FoldTag} {r : StoreReq} (h : storePendingAll s fold r = some t) : AtHome s t := by
  unfold storePendingAll at h
  simp only at h
  split at h
  · cases h
  · exact storePendingLines_home _ s h

theorem touchSeg_steady (s : State) (core a : Nat) : Steady s (touchSeg s core a) := .same rfl

theorem storeFrame_steady (s : State) (core : Nat) (r : StoreReq) : Steady s (s.storeFrame core r) := by
  unfold State.storeFrame
  refine (performSpan_home s _ r.k false).toSteady.trans (Steady.foldl _ (fun u x _ => ?_) _)
  split
  · exact touchSeg_steady u core x.1
  · exact .refl u

theorem untype_steady (s : State) (key : Nat) (keep : Option TileRef) : Steady s (s.untype key keep) := by
  unfold State.untype
  dsimp only
  repeat' split
  all_goals exact .same rfl

theorem scratchStore_steady (s : State) (cells : List (Nat × Byte × Byte)) (untype : Bool) (k : Nat) :
    let u := s.putCells cells
    let v := if untype then cells.foldl (fun s c => s.untype c.1 none) u else u
    Steady s ((cells.foldl (fun s c => s.raiseLs c.1 k) (cells.foldl (fun s c => s.taint c.1) v)).wakeWords
      (cells.map (·.1))) := by
  intro u v
  have untyped : Steady u v := by
    unfold v
    split
    · exact Steady.foldl cells (fun w c _ => untype_steady w c.1 none) u
    · exact .refl u
  have tainted : Steady v (cells.foldl (fun s c => s.taint c.1) v) := by
    refine Steady.foldl cells ?_ v
    intro w c _
    exact .same rfl
  have raised := AtHome.foldl (g := fun s c => s.raiseLs c.1 k) cells (fun w c _ => raiseLs_home w c.1 k)
    (cells.foldl (fun s c => s.taint c.1) v)
  exact (((putCells_home s cells).toSteady.trans untyped).trans tainted).trans
    (raised.trans (wakeWords_home _ (cells.map (·.1)))).toSteady

theorem holdHosts_home (s : State) (die : Nat) (cells : List (Nat × Byte × Byte)) :
    AtHome s (cells.foldl (fun s c => s.holdHost die c.1 true) s) :=
  AtHome.foldl cells (fun u c _ => holdHost_home u die c.1 true) s

theorem performPart_steady (s : State) (core : Nat) (r : StoreReq) (p : StorePath) : Steady s (performPart s core r p) := by
  unfold performPart
  dsimp only
  split
  · exact .refl s
  cases p with
  | scratch => exact scratchStore_steady s _ r.untype r.k
  | frame => exact storeFrame_steady s core _
  | host => exact (((performSpan_home s _ r.k false).trans (holdHosts_home _ _ _)).trans (markCode_home _ _ _)).toSteady
  | near => exact .same rfl
  | home => exact ((performSpan_home s _ r.k r.line).trans (markCode_home _ _ _)).toSteady

theorem clearPoison_steady (s : State) (cells : List (Nat × Byte × Byte)) : Steady s (s.clearPoison cells) := by
  unfold State.clearPoison
  dsimp only
  split
  · exact .refl s
  · refine Steady.foldl _ ?_ s
    intro u g _
    exact .same rfl

theorem performStore_steady {core : Nat} {r : StoreReq} (h : performStore s core r = some t) : Steady s t := by
  unfold performStore at h
  split at h
  · obtain ⟨u, pended, rfl⟩ := Option.map_eq_some_iff.1 h
    exact (((foldWriteBack_home s core r).trans (storePendingAll_home pended)).trans (finishStore_home u r)).toSteady
  · split at h
    · cases h
    · cases h
      have parts := Steady.foldl [StorePath.scratch, .frame, .host, .near, .home]
        (fun u p _ => performPart_steady u core r p) (s.clearPoison r.cells)
      exact ((clearPoison_steady s r.cells).trans parts).trans (finishStore_home _ r).toSteady

/-! ### The stores of a fibre (R332, R341) -/

theorem performFrom_steady (core : Nat) (rs kept : List StoreReq) (s : State) : Steady s (performFrom s core rs kept).2 := by
  induction rs generalizing kept s with
  | nil => exact .refl s
  | cons r rest ih =>
    unfold performFrom
    split
    · exact ih _ s
    · split
      · exact ih _ s
      · next done => exact (performStore_steady done).trans (ih _ _)

theorem performCore_steady (s : State) (core : Nat) : Steady s (performCore s core) :=
  (performFrom_steady core _ [] s).trans (.same rfl)

/-- A change of one fibre that leaves it steady. -/
theorem Steady.setFib (f : Nat) {y : Fibre} (h : (s.fib f).Steady y) : Steady s (s.setFib f y) := by
  refine ⟨rfl, rfl, fun g x k hx _ => ?_⟩
  show ∃ z, tabGet (tabPut s.fibres f y) g = some z ∧ _
  by_cases e : f = g
  · subst e
    rw [State.fib_eq s f x hx] at h
    exact ⟨y, by rw [tabGet_tabPut, if_pos rfl], h⟩
  · exact ⟨x, by rw [tabGet_tabPut, if_neg e, hx], .refl x⟩

theorem drainOne_steady (s : State) (f : Nat) : Steady s (drainOne s f) := by
  unfold drainOne
  dsimp only
  split
  · exact .refl s
  · split
    · exact .refl s
    · next rest _ _ =>
      have left : Steady s (s.setFib f { s.fib f with queue := rest }) := .setFib f ⟨rfl, rfl, rfl, rfl, rfl, rfl, fun _ h => h⟩
      exact left.trans (.same rfl)

theorem drainQueue_steady (s : State) (f : Nat) : Steady s (drainQueue s f) :=
  Steady.foldl (s.fib f).queue (fun u _ _ => drainOne_steady u f) s

/-- R173: a release at team scope. -/
theorem releaseAll_team_steady {fs : List Nat} (h : releaseAll s fs .team = .ok t) : Steady s t := by
  refine Res.foldM_keeps (Steady s) _ fs s t (.refl s) (fun f _ u v keeps done => keeps.trans ?_) h
  unfold drainAt at done
  split at done
  · cases done
  · obtain ⟨w, settled, last⟩ := Res.bind_eq_ok done
    rw [if_pos (show Scope.team.code ≤ 3 by decide)] at last
    cases last
    unfold settleStores at settled
    dsimp only at settled
    split at settled
    · cases settled
    · cases settled
      exact (drainQueue_steady u f).trans (performCore_steady _ _)

end Sys2Proof.Machine
end

section
/-! PROOFS. Tasks and rendezvous: FORK, DISP and RDV (R236 to R238). -/

namespace Sys2Proof.Machine

variable {s t : State} {r : Run} {f : Nat} {fs : List Nat}

/-! ### A word in issue survives what leaves runs, flocks and fibres in flocks steady (R22, R35) -/

theorem Steady.fibre_of (h : Steady s t) (hI : Issuing s r) {l g : Nat} (lane : l ∈ r.lanes.lanes) (at_ : r.fibre s l = some g) :
    (s.fib g).Steady (t.fib g) ∧ ∃ y, tabGet t.fibres g = some y := by
  obtain ⟨x, hx, -, loc, -⟩ := hI.fibre_eq lane at_
  obtain ⟨y, hy, steady⟩ := h.fibre g x _ hx loc
  rw [State.fib_eq s g x hx, State.fib_eq t g y hy]
  exact ⟨steady, y, hy⟩

theorem Steady.run_fibre (h : Steady s t) (r : Run) (l : Nat) : r.fibre t l = r.fibre s l := by
  rw [Run.fibre, State.flk, h.flocks]
  rfl

theorem Steady.issuing (h : Steady s t) (hI : Issuing s r) : Issuing t r where
  head := h.runs ▸ hI.head
  lane := fun l hl => by
    obtain ⟨g, x, at_, hx, home, loc, cancel⟩ := hI.lane l hl
    obtain ⟨y, hy, steady⟩ := h.fibre g x _ hx loc
    exact ⟨g, y, (h.run_fibre r l).trans at_, hy, steady.home.trans home, steady.loc.trans loc, steady.cancel.trans cancel⟩

theorem Steady.guardMask (h : Steady s t) (hI : Issuing s r) (g : Guard) : Machine.guardMask t r g = Machine.guardMask s r g := by
  unfold Machine.guardMask
  refine congrArg Mask.ofLanes (List.filter_congr fun l hl => ?_)
  obtain ⟨f, x, at_, -⟩ := hI.lane l hl
  rw [show (t.flk r.flock).fibreAt l = some f from (h.run_fibre r l).trans at_, show (s.flk r.flock).fibreAt l = some f from at_]
  dsimp only
  rw [Fibre.pred, Fibre.pred, (h.fibre_of hI hl at_).1.preds]

theorem Steady.actors (h : Steady s t) (hI : Issuing s r) (g : Guard) : Machine.actors t r g = Machine.actors s r g := by
  rw [Machine.actors, h.guardMask hI, show r.fibre t = r.fibre s from funext (h.run_fibre r)]
  rfl

theorem Steady.whole {g : Guard} (h : Steady s t) (hW : Whole s r g f fs) : Whole t r g f fs where
  toIssuing := h.issuing hW.toIssuing
  all := (h.guardMask hW.toIssuing g).trans hW.all
  acts := (h.actors hW.toIssuing g).trans hW.acts

theorem Fibre.Steady.ready {x y : Fibre} {i : Instr} (h : x.Steady y) (ready : RegsReady i x) : RegsReady i y := by
  obtain ⟨len, spans⟩ := ready
  refine ⟨by rw [h.regs, h.alloc, len], fun p hp => ?_⟩
  obtain ⟨within, even, free⟩ := spans p hp
  exact ⟨h.alloc ▸ within, even, fun b hb => free b (h.busy b hb)⟩

theorem actor_lane {g : Guard} (h : f ∈ actors s r g) : ∃ l ∈ r.lanes.lanes, r.fibre s l = some f := by
  obtain ⟨l, hl, at_⟩ := mem_actors.1 h
  exact ⟨l, guardMask_lanes s r g l hl, at_⟩

/-- A mark on fibres that changes nothing else of them. -/
theorem Steady.modFibs (s : State) (fs : List Nat) {g : Fibre → Fibre} (hg : ∀ x : Fibre, x.Steady (g x)) :
    Steady s (s.modFibs fs g) := by
  refine Steady.foldl fs ?_ s
  intro u f _
  refine ⟨rfl, rfl, fun j x k hx _ => ?_⟩
  rw [State.modFib_fibres, tabGet_tabMod, hx]
  split
  · exact ⟨g x, rfl, hg x⟩
  · exact ⟨x, rfl, .refl x⟩

/-- `flockwise_ready` for an instruction that is its body wherever the condition can hold or no lane acts. -/
theorem flockwise_where (i : Instr) (body : State → State → Nat → List Nat → Res State)
    (pre : State → Run → Nat → List Nat → State → Prop)
    (hx : ∀ s r, Issuing s r → (∀ f fs, actors s r i.guard = f :: fs →
      ∃ u, pre (advanceLanes s r (r.lanes &&& ~~~guardMask s r i.guard)) r f (f :: fs) u) → exec i s = perFlock i s (body s))
    (hb : ∀ s r cur f fs u, (∀ h ∈ f :: fs, RegsReady i (cur.fib h)) → pre cur r f (f :: fs) u →
      body s cur f (f :: fs) = .ok u) : Flockwise i pre := by
  intro s r hI
  obtain ⟨rest, hr⟩ := hI.head
  refine ⟨fun f fs u ha ready hp => ?_, fun ha => hx s r hI (fun f fs h => by rw [ha] at h; cases h) ▸ perFlock_none hI i _ ha⟩
  have acting : ∀ g gs, actors s r i.guard = g :: gs →
      ∃ u, pre (advanceLanes s r (r.lanes &&& ~~~Machine.guardMask s r i.guard)) r g (g :: gs) u := by
    intro g gs h
    obtain ⟨rfl, rfl⟩ := List.cons.inj (ha.symm.trans h)
    exact ⟨u, hp⟩
  have done := hb s r _ f fs u (fun h hh => (actor_kept hI (ha ▸ hh)).symm ▸ ready h hh) hp
  refine ⟨_, (hx s r hI acting).trans (perFlock_eq hI i _ ha _ done),
    (Still.modFibs _ _ _ (advanceFibre_still r)).trans (settle_still _ _ _ _), fun hi => ⟨fun h hh hs => ?_, fun hu => ?_⟩⟩
  · rw [State.fib, (settle_masks s _ r _ 0 0).2 (.inr hi)]
    exact modFibs_advance u _ h hh hi hs
  · rw [settle_onward s _ r r rest _ 0 ((State.modFibs_runs _ _ _).trans (hu.trans hr)) rfl rfl hi, hr]
    rfl

/-! ### FORK and DISP (R236, R238) -/

theorem fork_enqueues (g : Guard) (d : BitVec 8) (a b c : Src) :
    Flockwise (.fork g d a b c) fun s _ f fs v => ∃ bytes k s1 l s2 u,
      loadBytes s f (s.op64 (s.fib f) a) 32 32 .table false = .ok (bytes, k, s1) ∧
      let e := fun (i : Nat) => natOfBytes ((bytes.drop (8 * i)).take 8)
      let need := (([e 0, e 1, e 2]).filter (· ≠ 0)).length
      0 < need ∧ e 3 = 0 ∧ e 0 % 32 = 0 ∧ e 1 % 32 = 0 ∧ e 2 % 32 = 0 ∧
      namedBarrier s1 f (s.op64 (s.fib f) c) = .ok (l, s2) ∧ (s.core (s.fib f).core).tasks.length + need ≤ 256 ∧
      releaseAll s2 fs .team = .ok u ∧
      let grp := newGroup u (u.fib f).core ⟨(u.fib f).team, l, BitVec.ofNat 64 (engineWord 3 0 0 0), greatestK u fs, []⟩
      let w := enqueuePrograms grp.2 f grp.1 [e 0, e 1, e 2] (tileList (s.op64 (s.fib f) b)) (greatestK u fs)
      v = put32All w fs d (BitVec.ofNat 32 (w.barField l 8 4)) := by
  refine flockwise_ready _ _ _ (fun s => @rfl _ (execFork g d a b c s)) ?_
  rintro s cur f fs v regs ⟨bytes, k, s1, l, s2, u, table, asked, last, e0, e1, e2, barrier, room, release, done⟩
  have lowest := regs f List.mem_cons_self
  have entries : ∀ h : Nat → Nat, (List.range 4).map h = [h 0, h 1, h 2, h 3] := fun h => rfl
  simp only [needAll_word regs (d := d) (by simp [laneSpans]), src64_ready lowest a (fun q hq => by simp [laneSpans, hq]),
    src64_ready lowest b (fun q hq => by simp [laneSpans, hq]), src64_ready lowest c (fun q hq => by simp [laneSpans, hq]),
    table, Res.bind_ok]
  generalize (fun i => natOfBytes (List.take 8 (List.drop (8 * i) bytes))) = e at *
  have three : [e 0, e 1, e 2, e 3].take 3 = [e 0, e 1, e 2] := rfl
  have sound : ¬ (((decide (([e 0, e 1, e 2].filter (· ≠ 0)).length = 0)) || decide ([e 0, e 1, e 2, e 3].getD 3 0 ≠ 0)
      || [e 0, e 1, e 2, e 3].any fun e => decide (e % 32 ≠ 0)) = true) := by
    rw [decide_eq_false (Nat.ne_of_gt asked)]
    simp [last, e0, e1, e2]
  simp only [entries, three, if_neg sound, barrier, taskRoom, await_ok (decide_eq_true room), release, Res.bind_ok]
  exact congrArg Res.ok done.symm

theorem disp_enqueues (g : Guard) (d : BitVec 8) (a b c : Src) :
    Flockwise (.disp g d a b c) fun s _ f fs v => ∃ os l s1 found s2 s3 u,
      (s.op32 (s.fib f) a).toNat < 2 ^ 16 ∧ dispOperands s f (tileList (s.op64 (s.fib f) b)) = .ok os ∧
      namedBarrier s f (s.op64 (s.fib f) c) = .ok (l, s1) ∧ lookupMethod s1 f (s.op32 (s.fib f) a).toNat os = .ok (found, s2) ∧
      (s.core (s.fib f).core).tasks.length + (found.rules.length + (found.progs.filter (· ≠ 0)).length) ≤ 256 ∧
      found.rules.length ≤ entriesFree s (s.fib f).core (s.fib f).team ∧ releaseAll s2 fs .team = .ok s3 ∧
      runDispatch s3 f found (tileList (s.op64 (s.fib f) b)) (s.op64 (s.fib f) c) l (greatestK s3 fs) = .ok u ∧
      v = put32All u fs d (BitVec.ofNat 32 (s3.barField l 8 4)) := by
  refine flockwise_ready _ _ _ (fun s => @rfl _ (execDisp g d a b c s)) ?_
  rintro s cur f fs v regs ⟨os, l, s1, found, s2, s3, u, op, operands, barrier, method, room, entries, release, run, rfl⟩
  have lowest := regs f List.mem_cons_self
  have code : ¬ (cur.op32 (cur.fib f) a).toNat / 2 ^ 16 ≠ 0 := by omega
  have waits : Res.await (taskRoom cur (cur.fib f).core (found.rules.length + (found.progs.filter (· ≠ 0)).length) &&
      found.rules.length ≤ entriesFree cur (cur.fib f).core (cur.fib f).team) = .ok () :=
    await_ok (Bool.and_eq_true_iff.2 ⟨decide_eq_true room, decide_eq_true entries⟩)
  simp only [needAll_word regs (d := d) (by simp [laneSpans]), src32_ready lowest a (fun q hq => by simp [laneSpans, hq]),
    src64_ready lowest b (fun q hq => by simp [laneSpans, hq]), src64_ready lowest c (fun q hq => by simp [laneSpans, hq]),
    if_neg code, operands, barrier, method, waits, release, run, Res.bind_ok]
  rfl

/-! ### RDV (R237) -/

theorem modFibs_arrived (fs : List Nat) (s : State) (here : (tabGet s.fibres f).isSome)
    (h : f ∈ fs ∨ (s.fib f).arrived = true) : ((s.modFibs fs fun x => { x with arrived := true }).fib f).arrived = true := by
  induction fs generalizing s with
  | nil => exact h.resolve_left List.not_mem_nil
  | cons a q ih =>
    obtain ⟨x, hx⟩ := Option.isSome_iff_exists.1 here
    have after : tabGet (s.modFib a fun x => { x with arrived := true }).fibres f =
        some (if a = f then { x with arrived := true } else x) := by
      rw [State.modFib_fibres, tabGet_tabMod, hx]
      split <;> rfl
    refine ih (s.modFib a fun x => { x with arrived := true }) (by rw [after]; rfl) ?_
    rw [State.fib_eq _ f _ after]
    rw [State.fib_eq s f x hx] at h
    by_cases e : a = f
    · rw [if_pos e]; exact .inr rfl
    · rw [if_neg e]
      exact h.imp_left fun m => (List.mem_cons.1 m).resolve_left fun e' => e e'.symm

theorem barrierMoved_of {line : Nat} {tok : Word}
    (h : s.barrierLive (line * 128) = false ∨ s.barField line 8 4 ≠ tok.toNat) : barrierMoved s line tok = true := by
  rcases h with h | h <;> simp [barrierMoved, h]

/-- The wait of a flock that has arrived, once the phase has moved. -/
theorem rdvWait_done {g : Guard} {a b : Src} {va : DWord} {l : Nat} {s1 u : State} (regs : RegsReady (.rdv g a b) (s.fib f))
    (arrived : (s.fib f).arrived = true) (line : rdvLine s f a = .ok (va, l, s1))
    (moved : s.barrierLive (l * 128) = false ∨ s.barField l 8 4 ≠ (s.op32 (s.fib f) b).toNat)
    (acquire : acquireAll s1 fs .team (s.line l).ls = .ok u) :
    rdvWait s f fs a b = .ok ((observeLine u l).modFibs fs fun x => { x with arrived := false }) := by
  simp only [rdvWait, src64_ready regs a (fun q hq => by simp [laneSpans, hq]),
    src32_ready regs b (fun q hq => by simp [laneSpans, hq]), line, arrived, barrierMoved_of moved, acquire, Res.bind_ok,
    Bool.not_true, Bool.false_eq_true, if_false, if_true]
  rfl

/-- RDV of a flock that has arrived changes nothing before its wait. -/
theorem rdvArrive_arrived {g : Guard} {a b : Src} (hI : Issuing s r)
    (arrived : ∀ h ∈ actors s r g, (s.fib h).arrived = true) : rdvArrive s g a b = s := by
  obtain ⟨rest, head⟩ := hI.head
  have acts : (actingMask s r g).lanes.filterMap (s.flk r.flock).fibreAt = actors s r g := by rw [hI.actingMask]; rfl
  unfold rdvArrive
  simp only [head, acts]
  split
  · rfl
  · next f fs list =>
    rw [list] at arrived
    have unmarked : (f :: fs).filter (fun h => !(s.fib h).arrived) = [] :=
      List.filter_eq_nil_iff.2 fun h hh => by simp [arrived h hh]
    rw [if_pos (arrived f List.mem_cons_self), unmarked]
    rfl

/-- The same where the flock's one arrival is due: a release at team scope, the arrival, the mark. -/
theorem rdvArrive_first {g : Guard} {a b : Src} {va : DWord} {l : Nat} {s1 s2 : State} (hI : Issuing s r)
    (acts : actors s r g = f :: fs) (first : (s.fib f).arrived = false) (regs : RegsReady (.rdv g a b) (s.fib f))
    (line : rdvLine s f a = .ok (va, l, s1)) (live : s1.barrierLive (l * 128) = true) (own : copyHolds s1 l = false)
    (whole : (s1.line l).pend = none) (release : releaseAll s1 (f :: fs) .team = .ok s2) :
    rdvArrive s g a b = (arriveAt (clearLine s2 l) l (greatestK s2 (f :: fs)) false).2.modFibs (f :: fs)
      fun x => { x with arrived := true } := by
  obtain ⟨rest, head⟩ := hI.head
  rw [State.barrierLive, lineOf_key] at live
  have list : (actingMask s r g).lanes.filterMap (s.flk r.flock).fibreAt = f :: fs := by rw [hI.actingMask]; exact acts
  simp [rdvArrive, head, list, first, line, src32_ready regs b (fun q hq => by simp [laneSpans, hq]), live, own, whole, release]

theorem rdvLine_steady {a : Src} {va : DWord} {l : Nat} (h : rdvLine s f a = .ok (va, l, t)) : Steady s t := by
  obtain ⟨v, -, h⟩ := Res.bind_eq_ok h
  obtain ⟨q, access, h⟩ := Res.bind_eq_ok h
  simp only at h
  split at h
  · cases h
  · obtain ⟨-, -, h⟩ := Res.bind_eq_ok h
    cases h
    exact checkAccess_steady access

/-- RDV of a flock that has arrived: the arrival changes nothing, so what remains is its wait. -/
theorem rdv_waits (g : Guard) (a b : Src) : Flockwise (.rdv g a b) fun s _ f fs v => ∃ va l s1 u,
    (∀ h ∈ fs, (s.fib h).arrived = true) ∧ rdvLine s f a = .ok (va, l, s1) ∧
    (s.barrierLive (l * 128) = false ∨ s.barField l 8 4 ≠ (s.op32 (s.fib f) b).toNat) ∧
    acquireAll s1 fs .team (s.line l).ls = .ok u ∧
    v = (observeLine u l).modFibs fs fun x => { x with arrived := false } := by
  refine flockwise_where (.rdv g a b) (fun _ s f fs => rdvWait s f fs a b) _ ?_ ?_
  · rintro s r hI acting
    refine congrArg (fun q => perFlock (.rdv g a b) q fun s f fs => rdvWait s f fs a b) (rdvArrive_arrived hI ?_)
    cases list : actors s r g with
    | nil => simp
    | cons f fs =>
      obtain ⟨u, va, l, s1, w, arrived, -⟩ := acting f fs list
      intro h hh
      rw [← actor_kept hI (list ▸ hh)]
      exact arrived h hh
  · rintro s r cur f fs u regs ⟨va, l, s1, w, arrived, line, moved, acquire, rfl⟩
    exact rdvWait_done (regs f List.mem_cons_self) (arrived f List.mem_cons_self) line moved acquire

/-- RDV that makes the flock's one arrival, and goes on at once where that moves the phase. -/
theorem rdv_arrives {g : Guard} {a b : Src} {va vb : DWord} {l : Nat} {s1 s2 w1 u : State} (hW : Whole s r g f fs)
    (first : (s.fib f).arrived = false) (regs : RegsReady (.rdv g a b) (s.fib f)) (line : rdvLine s f a = .ok (va, l, s1))
    (live : s1.barrierLive (l * 128) = true) (own : copyHolds s1 l = false) (whole : (s1.line l).pend = none)
    (release : releaseAll s1 (f :: fs) .team = .ok s2) :
    let w := (arriveAt (clearLine s2 l) l (greatestK s2 (f :: fs)) false).2.modFibs (f :: fs) fun x => { x with arrived := true }
    rdvLine w f a = .ok (vb, l, w1) →
    w.barrierLive (l * 128) = false ∨ w.barField l 8 4 ≠ (w.op32 (w.fib f) b).toNat →
    acquireAll w1 (f :: fs) .team (w.line l).ls = .ok u →
    ∃ t, exec (.rdv g a b) s = .next t ∧
      Still ((observeLine u l).modFibs (f :: fs) fun x => { x with arrived := false }) t := by
  intro w again moved acquire
  have arrival : Steady s2 (arriveAt (clearLine s2 l) l (greatestK s2 (f :: fs)) false).2 :=
    ((clearLine_home s2 l).trans (arriveAt_home ..)).toSteady
  have steady : Steady s w := (((rdvLine_steady line).trans (releaseAll_team_steady release)).trans arrival).trans
    (Steady.modFibs _ _ fun x => ⟨rfl, rfl, rfl, rfl, rfl, rfl, fun _ h => h⟩)
  obtain ⟨lane, active, at_⟩ := actor_lane (g := g) (hW.acts ▸ List.mem_cons_self : f ∈ actors s r g)
  obtain ⟨fibre, -⟩ := steady.fibre_of hW.toIssuing active at_
  have there := (((rdvLine_steady line).trans (releaseAll_team_steady release)).trans arrival).fibre_of hW.toIssuing active at_
  obtain ⟨-, y, hy⟩ := there
  have arrived : (w.fib f).arrived = true := modFibs_arrived _ _ (by rw [hy]; rfl) (.inl List.mem_cons_self)
  have waits := rdvWait_done (fibre.ready regs) arrived again moved acquire
  obtain ⟨t, run, still⟩ := perFlock_still (.rdv g a b) (fun s f fs => rdvWait s f fs a b) (steady.whole hW) _ waits
  refine ⟨t, ?_, still⟩
  rw [← run, show w = rdvArrive s g a b from (rdvArrive_first hW.toIssuing hW.acts first regs line live own whole release).symm]
  rfl

/-- Settles O39: FORK and DISP enqueue, RDV waits, with and without the arrival before. -/
theorem engineTasks : Obligations.EngineTasks := fun g d a b c =>
  ⟨fork_enqueues g d a b c, disp_enqueues g d a b c, rdv_waits g a b,
    fun _ _ _ _ _ _ _ _ _ _ _ hW first regs line live own whole release again moved acquire =>
      rdv_arrives hW first regs line live own whole release again moved acquire⟩

end Sys2Proof.Machine
end

section
/-! PROOFS. Steps of the matrix sequencer, and the ends of loops, zeroings and transfers (R214, R215, R222, R223, R228). -/

namespace Sys2Proof.Machine

variable {s t : State} {core i p : Nat} {o : BankOp} {l : LoopOps} {va vb : TileView}

/-! ### Elements that a step leaves undefined (R223) -/

theorem undefineElems_nil_core (s : State) (core phys c : Nat) : (undefineElems s core phys []).core c = s.core c := by
  rw [undefineElems, State.modCore_core]
  split
  · next h => subst h; rfl
  · rfl

theorem undefineElems_loops (s : State) (core phys : Nat) (es : List Nat) :
    ((undefineElems s core phys es).core core).loops = (s.core core).loops := by
  rw [undefineElems, State.modCore_core, if_pos rfl]
  rfl

/-- The rows of A that a step meets a poisoned byte in (R223, R457). -/
def hurtRows (s : State) (o : BankOp) (va : TileView) : List Nat :=
  (List.range va.t.rows).filter fun a => (o.rowReads s va a).any s.poisonedAt

/-- The elements that a loop has lost after its next step. -/
def lostAfter (s : State) (o : BankOp) (va vb : TileView) : List Nat :=
  (o.lost ++ (hurtRows s o va).flatMap fun a => (List.range vb.t.cols).map fun j => a * 256 + j).dedup

/-- The elements after a step: the new cells, and at the last step what is lost undefined. -/
def steppedState (s : State) (core p : Nat) (o : BankOp) (va vb : TileView) : State :=
  let s1 := s.modCore core fun c => { c with
    acc := (stepCells s o va vb core p).foldl (fun m k => tabPutD m k.1 (BitVec.ofNat 32 k.2) 0) c.acc }
  if o.next + 1 = o.steps then undefineElems s1 core p (lostAfter s o va vb) else s1

/-- A loop after its next step. -/
def loopAfter (s : State) (core p : Nat) (o : BankOp) (va vb : TileView) : BankOp :=
  let nan0 := if o.next = 0 then nanElems s core p va vb else o.nan0
  { o with
    next := o.next + 1
    nan0 := nan0
    nans := if o.next + 1 = o.steps then
      ((nanElems (steppedState s core p o va vb) core p va vb).filter fun e => !nan0.contains e).length else 0
    lost := lostAfter s o va vb
    errs := Nat.lor (Nat.lor o.errs (if (hurtRows s o va).isEmpty then 0 else 0x400)) (spareErr s core vb.t.cols) }

theorem runStep_eq (views : loopViews s o l = some (va, vb)) :
    runStep s core p i o l = setOp (steppedState s core p o va vb) core i (loopAfter s core p o va vb) := by
  simp only [runStep, views]
  rfl

theorem matrixStep_eq (turn : turnBank s core = some (p, i, o)) (ops : o.ops = some l)
    (views : loopViews s o l = some (va, vb)) : exec (.matrixStep core) s =
      .next (passTurn (setOp (steppedState s core p o va vb) core i (loopAfter s core p o va vb)) core p) := by
  show execMatrixStep core s = _
  simp only [execMatrixStep, turn, ops, runStep_eq views]

theorem steppedState_loops (s : State) (core p : Nat) (o : BankOp) (va vb : TileView) :
    ((steppedState s core p o va vb).core core).loops = (s.core core).loops := by
  unfold steppedState
  split
  · rw [undefineElems_loops, State.modCore_core, if_pos rfl]
  · rw [State.modCore_core, if_pos rfl]

theorem bankHead_at {phys : Nat} (h : bankHead s core phys = some (i, o)) : (s.core core).loops[i]? = some o := by
  obtain ⟨j, -, found⟩ := Option.bind_eq_some_iff.1 h
  obtain ⟨q, at_, same⟩ := Option.map_eq_some_iff.1 found
  cases same
  exact at_

theorem turnBank_at (h : turnBank s core = some (p, i, o)) : (s.core core).loops[i]? = some o := by
  obtain ⟨q, -, found⟩ := List.exists_of_findSome?_eq_some h
  obtain ⟨⟨j, w⟩, head, same⟩ := Option.map_eq_some_iff.1 found
  cases same
  exact bankHead_at head

/-- R222, R363: a step of a loop that nothing has hurt. -/
theorem matrixStep_advances (turn : turnBank s core = some (p, i, o)) (ops : o.ops = some l)
    (views : loopViews s o l = some (va, vb)) (sound : ∀ a < va.t.rows, (o.rowReads s va a).any s.poisonedAt = false)
    (kept : o.lost = []) : ∃ t, exec (.matrixStep core) s = .next t ∧ (t.core core).turn = (p + 1) % 4 ∧
      (t.core core).acc = (stepCells s o va vb core p).foldl (fun m k => tabPutD m k.1 (BitVec.ofNat 32 k.2) 0)
        (s.core core).acc ∧
      (let nan0 := if o.next = 0 then nanElems s core p va vb else o.nan0
       (t.core core).loops = setAt (s.core core).loops i { o with
        next := o.next + 1
        nan0 := nan0
        nans := if o.next + 1 = o.steps then ((nanElems t core p va vb).filter fun e => !nan0.contains e).length else 0
        errs := Nat.lor o.errs (spareErr s core vb.t.cols) }) ∧
      t.mem = s.mem ∧ t.fibres = s.fibres := by
  have unhurt : hurtRows s o va = [] := List.filter_eq_nil_iff.2 fun a ha => by simp [sound a (List.mem_range.1 ha)]
  have unlost : lostAfter s o va vb = [] := by rw [lostAfter, kept, unhurt]; rfl
  have acc : ((steppedState s core p o va vb).core core).acc =
      (stepCells s o va vb core p).foldl (fun m k => tabPutD m k.1 (BitVec.ofNat 32 k.2) 0) (s.core core).acc := by
    unfold steppedState
    rw [unlost]
    split
    · rw [undefineElems_nil_core, State.modCore_core, if_pos rfl]
    · rw [State.modCore_core, if_pos rfl]
  have loops := steppedState_loops s core p o va vb
  have frame : (steppedState s core p o va vb).mem = s.mem ∧ (steppedState s core p o va vb).fibres = s.fibres := by
    unfold steppedState
    split <;> exact ⟨rfl, rfl⟩
  refine ⟨_, matrixStep_eq turn ops views, ?_, ?_, ?_, frame.1, frame.2⟩
  · simp [passTurn]
  · simp [passTurn, setOp, acc]
  · simp only [passTurn, setOp, State.modCore_core, if_true, loops, loopAfter, unlost, unhurt, List.isEmpty_nil, nanElems,
      kept, show Nat.lor o.errs 0 = o.errs from Nat.or_zero o.errs]

/-- R223, R457: a step that meets a poisoned byte notes UOPD and the elements of its row. -/
theorem matrixStep_hurt {a : Nat} (turn : turnBank s core = some (p, i, o)) (ops : o.ops = some l)
    (views : loopViews s o l = some (va, vb)) (row : a < va.t.rows) (hurt : (o.rowReads s va a).any s.poisonedAt = true) :
    ∃ t y, exec (.matrixStep core) s = .next t ∧ (t.core core).loops[i]? = some y ∧ y.next = o.next + 1 ∧
      y.errs.testBit 10 = true ∧ ∀ j < vb.t.cols, a * 256 + j ∈ y.lost := by
  have mem : a ∈ hurtRows s o va := List.mem_filter.2 ⟨List.mem_range.2 row, hurt⟩
  obtain ⟨within, -⟩ := List.getElem?_eq_some_iff.1 (turnBank_at turn)
  refine ⟨_, loopAfter s core p o va vb, matrixStep_eq turn ops views, ?_, rfl, ?_, fun j hj => ?_⟩
  · simp only [passTurn, setOp, State.modCore_core, if_true, steppedState_loops, setAt]
    exact List.getElem?_set_self within
  · have met : (hurtRows s o va).isEmpty = false := List.isEmpty_eq_false_iff.2 (List.ne_nil_of_mem mem)
    show (((o.errs ||| if (hurtRows s o va).isEmpty then 0 else 0x400) ||| spareErr s core vb.t.cols).testBit 10) = true
    rw [met, Nat.testBit_or, Nat.testBit_or, if_neg Bool.false_ne_true, show Nat.testBit 0x400 10 = true by decide,
      Bool.or_true, Bool.true_or]
  · exact List.mem_dedup.2 (List.mem_append_right _ (List.mem_flatMap.2
      ⟨a, mem, List.mem_map.2 ⟨j, List.mem_range.2 hj, rfl⟩⟩))

/-! ### Ends (R214, R215, R223, R228) -/

theorem accZero_ends {u : State} (turn : turnBank s core = some (p, i, o)) (ops : o.ops = none)
    (done : commandDone? ((passTurn s core p).modCore core fun c => { c with
      acc := c.acc.filter fun e => e.1 / 16384 ≠ p, loops := dropAt c.loops i }) core o.task 0 0 0 = some u) :
    exec (.accZeroComplete core p) s = .next u := by
  show execAccZeroComplete core p s = _
  simp only [execAccZeroComplete, turn, ops, Option.isSome_none, ne_eq, not_true, decide_false, Bool.or_self,
    Bool.false_eq_true, if_false, done, Option.getD_some]

theorem matrixLoop_ends {u : State}
    (first : indexOf? (fun (o : BankOp) => o.ops.isSome && !o.open) (s.core core).loops 0 = some i)
    (at_ : (s.core core).loops[i]? = some o) (done : finishLoop s core i o = some u) :
    exec (.matrixLoopComplete core) s = .next u := by
  show execMatrixLoopComplete core s = _
  simp only [execMatrixLoopComplete, first, at_, done, Option.getD_some]

section Transfers
variable {x : Xfer} {r rd rs : TileRef} {tile src dst : Tile} {u : State}

theorem load_ends (served : servedXfer s core Xfer.isTile = some (i, x)) (dest : x.dst = some r) (entry : s.tile r = some tile)
    (done : endLoad s core i x r tile = some u) : exec (.tileTransferComplete core) s = .next u := by
  show execTileTransferComplete core s = _
  simp only [execTileTransferComplete, served, dest, entry, Option.bind_some, done, Option.getD_some]

theorem store_ends (served : servedXfer s core Xfer.isTile = some (i, x)) (dest : x.dst = none) (source : x.src = some r)
    (entry : s.tile r = some tile) (done : endStore s core i x r tile = some u) :
    exec (.tileTransferComplete core) s = .next u := by
  show execTileTransferComplete core s = _
  simp only [execTileTransferComplete, served, dest, source, entry, Option.bind_some, done, Option.getD_some]

theorem rodLoad_ends (served : servedXfer s core Xfer.isRod = some (i, x)) (dest : x.dst = some rd) (source : x.src = some rs)
    (into : s.tile rd = some dst) (out : s.tile rs = some src) (done : endRod s core i x rs rd src dst = some u) :
    exec (.rodLoadComplete core) s = .next u := by
  show execRodLoadComplete core s = _
  simp only [execRodLoadComplete, served, dest, source, into, out, Option.bind_some, done, Option.getD_some]

end Transfers

end Sys2Proof.Machine
end

section
/-! PROOFS. The commands of tile tasks, as the sequencers serve them (R234, R235, R352, R362, R458). -/

namespace Sys2Proof.Machine

variable {s u : State} {core task : Nat} {t : Task} {c : Cmd}

/-- A sequencer serves the next command of its oldest ready task, of an operation that `op` selects (R352, R355). -/
def servesNow (s : State) (core task : Nat) (t : Task) (c : Cmd) (op : Nat → Prop) : Prop :=
  tabGet (s.core core).tasks task = some t ∧ t.cmd = some c ∧ op c.op ∧
    sequencerFree s core t.engine = true ∧ (nextTask s core t.engine).map (·.1) = some task

/-- The turn at the copy engine is taken where the task is its (R355). -/
def turnTaken (s : State) (core : Nat) (t : Task) : State :=
  s.modCore core fun x => { x with copyCmd := x.copyCmd || decide (t.engine = .copy) }

section Serve
variable {op : Nat → Prop} {sel : Nat → Bool} {run : State → Nat → Nat → Task → Cmd → Except Nat State}

/-- What a served command does is its run's answer, or CODE 7 where it is of another class or malformed. -/
theorem serveCommand_eq (h : servesNow s core task t c op) (hop : ∀ n, op n → sel n = true) :
    serveCommand s core task sel run = match (if commandValid t c then run s core task t c else .error 7) with
      | .ok s1 => s1
      | .error code => (commandDone (turnTaken s core t) core task code 0 (errsOf code)).getD s := by
  obtain ⟨entry, cmd, sort, free, next⟩ := h
  simp only [serveCommand, entry, cmd, hop _ sort, free, next, ne_eq, not_true, decide_false, Bool.not_true, Bool.or_self,
    Bool.false_eq_true, if_false]
  cases (if commandValid t c then run s core task t c else .error 7) <;> rfl

theorem serveCommand_begins (h : servesNow s core task t c op) (hop : ∀ n, op n → sel n = true)
    (valid : commandValid t c = true) (begins : run s core task t c = .ok u) : serveCommand s core task sel run = u := by
  rw [serveCommand_eq h hop, if_pos valid, begins]

theorem serveCommand_stops {code : Nat} (h : servesNow s core task t c op) (hop : ∀ n, op n → sel n = true)
    (valid : commandValid t c = true) (fails : run s core task t c = .error code)
    (done : commandDone (turnTaken s core t) core task code 0 (errsOf code) = some u) :
    serveCommand s core task sel run = u := by
  rw [serveCommand_eq h hop, if_pos valid, fails]
  simp only [done, Option.getD_some]

theorem serveCommand_malformed (h : servesNow s core task t c op) (hop : ∀ n, op n → sel n = true)
    (invalid : commandValid t c = false) (done : commandDone (turnTaken s core t) core task 7 0 (errsOf 7) = some u) :
    serveCommand s core task sel run = u := by
  rw [serveCommand_eq h hop, if_neg (by simp [invalid])]
  simp only [done, Option.getD_some]

end Serve

/-- What R234 says of the commands of one operation: the run's answer, the run's code, or CODE 7. -/
def runsCommand (s : State) (core task : Nat) (t : Task) (c : Cmd) (i : Instr) (op : Nat) (r : Except Nat State) : Prop :=
  (∀ u, servesNow s core task t c (· = op) → commandValid t c = true → r = .ok u → exec i s = .next u) ∧
  (∀ code u, servesNow s core task t c (· = op) → commandValid t c = true → r = .error code →
    commandDone (turnTaken s core t) core task code 0 (errsOf code) = some u → exec i s = .next u) ∧
  (∀ u, servesNow s core task t c (· = op) → commandValid t c = false →
    commandDone (turnTaken s core t) core task 7 0 (errsOf 7) = some u → exec i s = .next u)

/-- An event that serves the commands of one operation. -/
theorem runsCommand_of {i : Instr} {op : Nat} {run : State → Nat → Nat → Task → Cmd → Except Nat State}
    (h : exec i s = .next (serveCommand s core task (· == op) run)) :
    runsCommand s core task t c i op (run s core task t c) := by
  have selects : ∀ n, n = op → (n == op) = true := fun n e => beq_iff_eq.2 e
  refine ⟨fun u serves valid begins => ?_, fun code u serves valid fails done => ?_, fun u serves invalid done => ?_⟩
  · rw [h, serveCommand_begins serves selects valid begins]
  · rw [h, serveCommand_stops serves selects valid fails done]
  · rw [h, serveCommand_malformed serves selects invalid done]

/-- The start of a conversion (R235). -/
theorem convert_runs (first : firstXfer s core (Xfer.isConvert task) = none) :
    runsCommand s core task t c (.engineCmdConvert core task) 5 (convertCommand s core task t c) := by
  refine runsCommand_of ?_
  show execEngineCmdConvert core task s = _
  simp only [execEngineCmdConvert, first]

/-- Its second step. -/
theorem convert_ends {i : Nat} {x : Xfer} (first : firstXfer s core (Xfer.isConvert task) = some (i, x))
    (turn : commandTurn s core i x = true) (done : endConvert s core i x = some u) :
    exec (.engineCmdConvert core task) s = .next u := by
  show execEngineCmdConvert core task s = _
  simp only [execEngineCmdConvert, first, turn, if_true, done, Option.getD_some]

theorem reserved_stops (serves : servesNow s core task t c fun op => op = 0 ∨ 6 < op)
    (done : commandDone (turnTaken s core t) core task 7 0 (errsOf 7) = some u) :
    exec (.engineCmdReserved core task) s = .next u := by
  show Host.Outcome.next (serveCommand s core task (fun n => n = 0 || 6 < n) fun _ _ _ _ _ => .error 7) = .next u
  have selects : ∀ n, (n = 0 ∨ 6 < n) → (decide (n = 0) || decide (6 < n)) = true := fun n h => by simpa using h
  by_cases valid : commandValid t c = true
  · rw [serveCommand_stops serves selects valid rfl done]
  · rw [serveCommand_malformed serves selects (Bool.eq_false_iff.2 valid) done]

/-- R352: a task at its END. -/
theorem task_ends (entry : tabGet (s.core core).tasks task = some t) (idle : t.running = false)
    (last : t.cmds.length ≤ t.cursor) (done : endTask s core task t.status.toNat = some u) :
    exec (.engineCmdEnd core task) s = .next u := by
  show execEngineCmdEnd core task s = _
  simp only [execEngineCmdEnd, entry, idle, Nat.not_lt.2 last, decide_false, Bool.or_self, Bool.false_eq_true, if_false, done,
    Option.getD_some]

/-- R458: a task whose watch has reached WDT. -/
theorem task_watched (entry : tabGet (s.core core).tasks task = some t) (idle : t.running = false)
    (due : t.cursor < t.cmds.length) (watch : s.dev.wdt ≤ t.watch) (done : commandDone s core task 8 0 0 = some u) :
    exec (.taskWatchdog core task) s = .next u := by
  show execTaskWatchdog core task s = _
  simp only [execTaskWatchdog, entry, idle, Nat.not_le.2 due, Nat.not_lt.2 watch, decide_false, Bool.or_self,
    Bool.false_eq_true, if_false, done, Option.getD_some]

end Sys2Proof.Machine
end

section
/-! PROOFS. Copy phases: the oldest one starts, and ends with its tiles, lines, status word, phase count and flags
(R231, R362), and the steps of the engines together. -/

namespace Sys2Proof.Machine

variable {s t u : State} {core : Nat} {ph : CopyPhase}

/-! ### Operations on fibres alone (R19, R204) -/

/-- Nothing but fibres differs. -/
def FibresOnly (s t : State) : Prop := ∃ fibres, t = { s with fibres := fibres }

theorem FibresOnly.trans (h : FibresOnly s t) (h' : FibresOnly t u) : FibresOnly s u := by
  obtain ⟨x, rfl⟩ := h
  obtain ⟨y, rfl⟩ := h'
  exact ⟨y, rfl⟩

theorem FibresOnly.foldl {α : Type} {g : State → α → State} (hg : ∀ s x, FibresOnly s (g s x)) (l : List α) (s : State) :
    FibresOnly s (l.foldl g s) :=
  foldl_keeps (FibresOnly s) g l (fun u x _ h => h.trans (hg u x)) s ⟨s.fibres, rfl⟩

theorem finishToks_only (toks : List Nat) (s : State) : FibresOnly s (toks.foldl (fun s t => s.finishTok t) s) :=
  FibresOnly.foldl (fun _ _ => ⟨_, rfl⟩) toks s

theorem wakeTiles_only (rs : List TileRef) (s : State) : FibresOnly s (rs.foldl (fun s r => wakeTile s r false) s) :=
  FibresOnly.foldl (fun _ _ => ⟨_, rfl⟩) rs s

/-- No fibre awaits an operation. -/
def TokenDone (s : State) (tok : Nat) : Prop := ∀ p ∈ s.fibres, ∀ q ∈ p.2.pending, q.2 ≠ tok

/-- A change of every fibre that adds no pending operation. -/
theorem TokenDone.mapped {tok : Nat} {g : Nat × Fibre → Nat × Fibre} (h : TokenDone s tok)
    (fewer : ∀ p, ∀ q ∈ (g p).2.pending, q ∈ p.2.pending) : TokenDone { s with fibres := s.fibres.map g } tok := by
  intro p hp q hq
  obtain ⟨x, hx, rfl⟩ := List.mem_map.1 hp
  exact h x hx q (fewer x q hq)

theorem TokenDone.wakeTile {tok : Nat} (h : TokenDone s tok) (r : TileRef) (changed : Bool) :
    TokenDone (wakeTile s r changed) tok := by
  refine h.mapped fun p q hq => ?_
  revert hq
  repeat' split
  all_goals exact id

theorem TokenDone.finishTok {tok : Nat} (h : TokenDone s tok) (t : Nat) : TokenDone (s.finishTok t) tok := by
  refine h.mapped fun p q hq => ?_
  revert hq
  split
  · exact List.mem_of_mem_filter
  · exact id

theorem finishTok_done (s : State) (tok : Nat) : TokenDone (s.finishTok tok) tok := by
  intro p hp q hq same
  obtain ⟨x, -, rfl⟩ := List.mem_map.1 hp
  by_cases awaits : ((x.2.pending ++ x.2.busy).any fun q => q.2 = tok) = true
  · rw [if_pos awaits] at hq
    simpa [same] using (List.mem_filter.1 hq).2
  · rw [if_neg awaits] at hq
    exact awaits (List.any_eq_true.2 ⟨q, List.mem_append_left _ hq, decide_eq_true same⟩)

theorem finishToks_done {toks : List Nat} {tok : Nat} (s : State) (h : tok ∈ toks ∨ TokenDone s tok) :
    TokenDone (toks.foldl (fun s t => s.finishTok t) s) tok := by
  induction toks generalizing s with
  | nil => exact h.resolve_left List.not_mem_nil
  | cons a q ih =>
    refine ih _ ?_
    rcases h with h | h
    · exact (List.mem_cons.1 h).elim (fun e => .inr (e ▸ finishTok_done s tok)) .inl
    · exact .inr (h.finishTok a)

/-! ### What a phase leaves (R231) -/

/-- Tiles of a phase that ends, under its carried stamp. -/
def landTiles (s : State) (rs : List TileRef) (k : Nat) (st : TileSt) : State :=
  rs.foldl (fun s r => setTileState (s.modTile r fun t => { t with ls := max t.ls k }) r st) s

theorem landTiles_tile {rs : List TileRef} {r : TileRef} {k : Nat} {st : TileSt} (s : State)
    (h : r ∈ rs ∧ (s.tile r).isSome ∨ (s.tile r).map (·.st) = some st) :
    ((landTiles s rs k st).tile r).map (·.st) = some st := by
  induction rs generalizing s with
  | nil => exact h.resolve_left fun h => List.not_mem_nil h.1
  | cons a rs ih =>
    refine ih _ ?_
    have entry : ((setTileState (s.modTile a fun t => { t with ls := max t.ls k }) a st).tile r) =
        if a = r then (s.tile a).map fun x => { x with ls := max x.ls k, st := st } else s.tile r := by
      rw [setTileState_tile, modTile_tile, modTile_tile, if_pos rfl]
      split
      · rw [Option.map_map]; rfl
      · rfl
    rw [entry]
    by_cases same : a = r
    · subst same
      rw [if_pos rfl]
      right
      have present : (s.tile a).isSome := h.elim (fun h => h.2) fun h => by cases e : s.tile a <;> simp_all
      obtain ⟨x, hx⟩ := Option.isSome_iff_exists.1 present
      rw [hx]
      rfl
    · rw [if_neg same]
      exact h.imp_left fun h => ⟨(List.mem_cons.1 h.1).resolve_left (Ne.symm same), h.2⟩

theorem landTiles_mem (s : State) (rs : List TileRef) (k : Nat) (st : TileSt) : (landTiles s rs k st).mem = s.mem := by
  refine foldl_mem _ ?_ rs s
  intro s r
  exact setTileState_mem _ r st

/-- The status word and the count of a phase at its object; discarded where the line is not live. -/
def countPhase (s : State) (obj w k : Nat) : State :=
  if !(s.line obj).live then s
  else
    let t := mergeStatus (clearLine s obj) obj w k
    wakeBarrier (putBarrier t obj (t.barField obj 0 4) (t.barField obj 4 4) ((t.barField obj 8 4 + 1) % 2 ^ 32) 1
      (t.barField obj 0x10 8) k) obj

theorem countPhase_home (s : State) (obj w k : Nat) : AtHome s (countPhase s obj w k) := by
  unfold countPhase
  split
  · exact .refl s
  · exact (((clearLine_home s obj).trans (putBarrier_home ..)).trans (putBarrier_home ..)).trans (wakeBarrier_home _ obj)

theorem countPhase_dead {obj : Nat} (dead : (s.line obj).live = false) (w k : Nat) : countPhase s obj w k = s := by
  rw [countPhase, dead]
  rfl

/-- R362: a merged status word; the counts stay. -/
theorem mergeStatus_fields (z : State) (obj w k : Nat) :
    let u := mergeStatus z obj w k
    u.barField obj 0 4 = z.barField obj 0 4 ∧ u.barField obj 4 4 = z.barField obj 4 4 ∧
      u.barField obj 8 4 = z.barField obj 8 4 ∧
      u.barField obj 0x10 8 = mergeWord (z.barField obj 0x10 8) w % 2 ^ 64 := by
  obtain ⟨expect, arrived, phase, status⟩ := putBarrier_fields z obj (z.barField obj 0 4) (z.barField obj 4 4)
    (z.barField obj 8 4) 1 (mergeWord (z.barField obj 0x10 8) w) k
  exact ⟨expect.trans (Nat.mod_eq_of_lt (barField_lt z obj 0 4)), arrived.trans (Nat.mod_eq_of_lt (barField_lt z obj 4 4)),
    phase.trans (Nat.mod_eq_of_lt (barField_lt z obj 8 4)), status⟩

/-- R223, R231: the fields of the object after a phase. -/
theorem countPhase_fields {obj : Nat} (live : (s.line obj).live = true) (w k : Nat) :
    let z := clearLine s obj
    let u := countPhase s obj w k
    u.barField obj 0 4 = z.barField obj 0 4 ∧ u.barField obj 4 4 = z.barField obj 4 4 ∧
      u.barField obj 8 4 = (z.barField obj 8 4 + 1) % 2 ^ 32 ∧ u.barrierLive (obj * 128) = true ∧
      u.barField obj 0x10 8 = mergeWord (z.barField obj 0x10 8) w % 2 ^ 64 := by
  intro z u
  obtain ⟨expect, arrived, phase, status⟩ := mergeStatus_fields z obj w k
  have small : ∀ o n, (mergeStatus z obj w k).barField obj o n < 2 ^ (8 * n) := barField_lt _ obj
  obtain ⟨expect', arrived', phase', -, status'⟩ := putBarrier_reads (s := mergeStatus z obj w k) (line := obj) (k := k)
    (small 0 4) (small 4 4) (Nat.mod_lt ((mergeStatus z obj w k).barField obj 8 4 + 1) (by decide))
    (show 1 < 2 ^ 32 by decide) (small 0x10 8)
  have shape : u = wakeBarrier (putBarrier (mergeStatus z obj w k) obj ((mergeStatus z obj w k).barField obj 0 4)
      ((mergeStatus z obj w k).barField obj 4 4) (((mergeStatus z obj w k).barField obj 8 4 + 1) % 2 ^ 32) 1
      ((mergeStatus z obj w k).barField obj 0x10 8) k) obj := by
    simp only [u, countPhase, live, Bool.not_true, Bool.false_eq_true, if_false]
    rfl
  simp only [shape, barField_of_mem (wakeBarrier_mem ..), wakeBarrier_live, putBarrier_live]
  exact ⟨expect'.trans expect, arrived'.trans arrived, phase'.trans (congrArg (fun n => (n + 1) % 2 ^ 32) phase), rfl,
    status'.trans status⟩

/-- COPY_PHASE_COMPLETE once the writes of its phase have ended with a code. -/
theorem completePhase_eq {code : Nat} (free : ((s.line ph.obj).live && (s.line ph.obj).pend.isSome) = false)
    (done : finishPhase s ph = some (code, u)) :
    let gone := code = 1 ∨ code = 3 ∨ code = 6
    let k := ph.slices.foldl (fun k x => max k x.k) 0
    let u1 := if gone then undefineDests u ph.slices else u
    let u3 := markLines (landTiles u1 ph.tiles k (if gone then .empty else .ready)) ph.lines true
    let u5 := countPhase u3 ph.obj (engineWord 2 code 0 (Nat.lor (errsOf code) ph.errs)) k
    let u7 := ((ph.slices.filterMap (·.tok)).foldl (fun s t => s.finishTok t) u5).modCore core fun c =>
      { c with phases := c.phases.filter fun q => !q.started }
    completePhase s core ph = ph.tiles.foldl (fun s r => wakeTile s r false) u7 := by
  intro gone k u1 u3 u5 u7
  have aborted : (decide (code = 1) || decide (code = 3) || decide (code = 6)) = decide gone := by
    simp [gone, Bool.or_assoc]
  simp only [completePhase, free, Bool.false_eq_true, if_false, done, aborted, decide_eq_true_eq]
  rfl

/-- R231, R362: what the end of a phase leaves. -/
theorem completePhase_leaves {code : Nat} (free : ((s.line ph.obj).live && (s.line ph.obj).pend.isSome) = false)
    (done : finishPhase s ph = some (code, u)) :
    let gone := code = 1 ∨ code = 3 ∨ code = 6
    let k := ph.slices.foldl (fun k x => max k x.k) 0
    let u1 := if gone then undefineDests u ph.slices else u
    let u3 := markLines (landTiles u1 ph.tiles k (if gone then .empty else .ready)) ph.lines true
    let z := clearLine u3 ph.obj
    let t := completePhase s core ph
    (∀ q ∈ (t.core core).phases, q.started = false) ∧
      (∀ r ∈ ph.tiles, (u1.tile r).isSome → (t.tile r).map (·.st) = some (if gone then .empty else .ready)) ∧
      (∀ l ∈ ph.lines, tabGet (t.core l.1).emptyLines l.2 = none) ∧
      (∀ x ∈ ph.slices, ∀ tok, x.tok = some tok → TokenDone t tok) ∧
      ((u3.line ph.obj).live = false → t.mem = u1.mem) ∧
      ((u3.line ph.obj).live = true → t.barField ph.obj 0 4 = z.barField ph.obj 0 4 ∧
        t.barField ph.obj 4 4 = z.barField ph.obj 4 4 ∧
        t.barField ph.obj 8 4 = (z.barField ph.obj 8 4 + 1) % 2 ^ 32 ∧ t.barrierLive (ph.obj * 128) = true ∧
        t.barField ph.obj 0x10 8 = mergeWord (z.barField ph.obj 0x10 8)
          (engineWord 2 code 0 (Nat.lor (errsOf code) ph.errs)) % 2 ^ 64) := by
  intro gone k u1 u3 z t
  have shape := completePhase_eq (core := core) free done
  dsimp only at shape
  let u5 := countPhase u3 ph.obj (engineWord 2 code 0 (Nat.lor (errsOf code) ph.errs)) k
  let u6 := (ph.slices.filterMap (·.tok)).foldl (fun s t => s.finishTok t) u5
  let u7 := u6.modCore core fun c => { c with phases := c.phases.filter fun q => !q.started }
  have counted : u5.cores = u3.cores := (countPhase_home u3 ph.obj _ k).cores
  obtain ⟨x6, h6⟩ : FibresOnly u5 u6 := finishToks_only _ u5
  obtain ⟨x8, h8⟩ : FibresOnly u7 t := by
    rw [show t = _ from shape]
    exact wakeTiles_only ph.tiles u7
  have cores6 : ∀ c, u6.core c = u3.core c := fun c => by
    rw [h6]
    exact congrArg (fun m => tabGetD m c Core.reset) counted
  have cores : ∀ c, t.core c = u7.core c := fun c => by rw [h8]; rfl
  have tiles : ∀ r, t.tile r = u3.tile r := fun r => by
    have same : u7.tile r = u6.tile r := by rw [modCore_tile]; intro c; rfl
    rw [State.tile, cores]
    refine same.trans ?_
    rw [State.tile, cores6]
    rfl
  have empties : ∀ c, (t.core c).emptyLines = (u3.core c).emptyLines := fun c => by
    rw [cores, State.modCore_core]
    split
    · next h => subst h; show (u6.core core).emptyLines = _; rw [cores6]
    · rw [cores6]
  have mem : t.mem = u5.mem := by rw [h8]; exact (show u6.mem = u5.mem by rw [h6])
  have lines : t.lines = u5.lines := by rw [h8]; exact (show u6.lines = u5.lines by rw [h6])
  refine ⟨fun q hq => ?_, fun r hr present => ?_, fun l hl => ?_, fun x hx tok named => ?_, fun dead => ?_, fun live => ?_⟩
  · rw [cores, State.modCore_core, if_pos rfl] at hq
    simpa using (List.mem_filter.1 hq).2
  · rw [tiles, markLines_tile]
    exact landTiles_tile u1 (.inl ⟨hr, present⟩)
  · rw [empties]
    exact markLines_full _ (.inl hl)
  · have finished : TokenDone u6 tok := finishToks_done u5 (.inl (List.mem_filterMap.2 ⟨x, hx, named⟩))
    rw [show t = _ from shape]
    exact foldl_keeps (TokenDone · tok) _ ph.tiles (fun v r _ h => h.wakeTile r false) u7 finished
  · rw [mem]
    exact (congrArg State.mem (countPhase_dead dead _ k)).trans ((markLines_mem ..).trans (landTiles_mem ..))
  · obtain ⟨expect, arrived, phase, alive, status⟩ :=
      countPhase_fields live (engineWord 2 code 0 (Nat.lor (errsOf code) ph.errs)) k
    have same : t.barrierLive (ph.obj * 128) = u5.barrierLive (ph.obj * 128) := by
      rw [State.barrierLive, State.line, lines]
      rfl
    simp only [barField_of_mem mem, same]
    exact ⟨expect, arrived, phase, alive, status⟩

theorem copyPhase_completes (first : (s.core core).phases.find? (fun p => p.started) = some ph) :
    exec (.copyPhaseComplete core) s = .next (completePhase s core ph) := by
  show execCopyPhaseComplete core s = _
  simp only [execCopyPhaseComplete, first]

/-- R355, R365: the oldest ready phase starts. -/
theorem copyPhase_starts (idle : (s.core core).phases.any (fun p => p.started) = false)
    (free : engineRunning s core .copy = false) (turn : (s.core core).copyCmd = true ∨ nextTask s core .copy = none)
    (first : (s.core core).phases.find? (CopyPhase.ready s) = some ph) :
    exec (.copyPhaseRun core) s = .next (startPhase s core ph) := by
  have mine : (!(s.core core).copyCmd && (nextTask s core .copy).isSome) = false := by
    rcases turn with turn | turn <;> simp [turn]
  show execCopyPhaseRun core s = _
  simp only [execCopyPhaseRun, idle, free, mine, first, Bool.or_self, Bool.false_eq_true, if_false]

/-- Settles O47: each step by the equation of its event; the end of a copy phase by what its parts leave. -/
theorem engineSteps : Obligations.EngineSteps := by
  refine ⟨fun s core i p => ⟨fun o l va vb => matrixStep_advances, fun o l va vb a => matrixStep_hurt,
    fun o u => accZero_ends, fun o u => matrixLoop_ends, fun x r t u => load_ends, fun x r t u => store_ends,
    fun x rd rs dst src u => rodLoad_ends, fun ph => copyPhase_starts, fun ph code u first free done =>
      ⟨_, copyPhase_completes first, completePhase_leaves free done⟩⟩, fun s core task t c => ?_⟩
  exact ⟨runsCommand_of (run := loopCommand) rfl, runsCommand_of (run := zeroCommand) rfl,
    runsCommand_of (run := fun s core key t c => transferCommand s core key t c false) rfl,
    runsCommand_of (run := fun s core key t c => transferCommand s core key t c true) rfl, convert_runs,
    fun i x u => convert_ends, runsCommand_of (run := rodCommand) rfl, fun u => reserved_stops, fun u => task_ends,
    fun u => task_watched⟩

end Sys2Proof.Machine
end

section
/-! PROOFS. Errors, containment and repair (R209, R455 to R463, R466). -/

namespace Sys2Proof.Machine

variable {s u : State} {p : ErrPlace} {f k n key core rod kind idx die slice : Nat}

/-! ### Uncorrectable errors (R455 to R457) -/

theorem uncorrectable_eq (lasts : refetched s p = none) :
    exec (.uncorrectableError p) s = .next (uncorrected (logPlace s p 2) p) := by
  show execUncorrectableError p s = _
  rw [execUncorrectableError, lasts]

theorem uncorrectable_refetched (fresh : refetched s p = some u) :
    exec (.uncorrectableError p) s = .next (logPlace (countCorr u p) p 1) := by
  show execUncorrectableError p s = _
  rw [execUncorrectableError, fresh]

theorem stopFibre_flock {code : Nat} (here : (tabGet s.fibres f).isSome) (loc : (s.fib f).loc = .flock k) :
    stopFibre s f code n = some (stopClass1 s k code (s.fib f).home n) := by
  obtain ⟨x, hx⟩ := Option.isSome_iff_exists.1 here
  rw [State.fib_eq s f x hx] at loc ⊢
  simp only [stopFibre, hx, Option.bind_some, loc]

/-- R455, R456: an error that a fibre's access meets stops its flock. -/
theorem fibreError_stops {code : Nat} (rest : State → State) (lasts : refetched s p = none)
    (stops : ∀ s, uncorrected s p = (stopFibre s f code n).getD (rest s))
    (here : (tabGet s.fibres f).isSome) (loc : (s.fib f).loc = .flock k) :
    exec (.uncorrectableError p) s = .next (stopClass1 (logPlace s p 2) k code (s.fib f).home n) := by
  have same : (logPlace s p 2).fib f = s.fib f := by rw [State.fib, logPlace_fibres]; rfl
  have found := stopFibre_flock (s := logPlace s p 2) (code := code) (n := n) (by rw [logPlace_fibres]; exact here)
    (same.symm ▸ loc)
  rw [uncorrectable_eq lasts, stops, found, Option.getD_some, same]

theorem uniformError_stops {fl : Flock} {l : Nat} (flock : tabGet s.flocks k = some fl)
    (low : fl.unfrozen.lanes.head? = some l) : exec (.uncorrectableError (.uniformReg k n)) s =
      .next (stopClass1 (logPlace s (.uniformReg k n) 2) k 2 l n) := by
  rw [uncorrectable_eq rfl, uncorrected, stopAtLow, logPlace_flocks, flock, Option.bind_some, low]

theorem dirtyError_loses (dirty : dirtyWord s key = true) :
    exec (.uncorrectableError (.dirtyL1 key)) s = .next (loseDirty (logPlace s (.dirtyL1 key) 2) key) :=
  uncorrectable_eq (if_pos dirty)

theorem cleanError_refetches (clean : dirtyWord s key = false) : exec (.uncorrectableError (.dirtyL1 key)) s =
    .next (logPlace (countCorr (s.invalidate (key / 128) (wordSpan (key / 4 * 4) 4 false) none) (.dirtyL1 key))
      (.dirtyL1 key) 1) :=
  uncorrectable_refetched (if_neg (by simp [clean]))

/-- R223: an element that fails under a loop is undefined as the loop ends. -/
theorem accError_loop {bank row col m : Nat} {o : BankOp}
    (head : bankHead (logPlace s (.acc core bank row col) 2) core bank = some (m, o)) (loop : o.ops.isSome = true) :
    exec (.uncorrectableError (.acc core bank row col)) s = .next (setOp (logPlace s (.acc core bank row col) 2) core m
      { o with errs := Nat.lor o.errs 0x200, lost := (o.lost ++ [row * 256 + col]).dedup }) := by
  rw [uncorrectable_eq rfl]
  simp only [uncorrected, loseElem, head, loop, if_true]
  rfl

/-- With no loop it is undefined at once. -/
theorem accError_idle {bank row col : Nat}
    (idle : ∀ m o, bankHead (logPlace s (.acc core bank row col) 2) core bank = some (m, o) → o.ops.isSome = false) :
    exec (.uncorrectableError (.acc core bank row col)) s =
      .next (undefineElems (logPlace s (.acc core bank row col) 2) core bank [row * 256 + col]) := by
  rw [uncorrectable_eq rfl, uncorrected, loseElem]
  cases head : bankHead (logPlace s (.acc core bank row col) 2) core bank with
  | none => rfl
  | some q =>
    obtain ⟨m, o⟩ := q
    simp only [idle m o head, Bool.false_eq_true, if_false]

/-- R209: a scratchpad byte that engine work reads. -/
theorem scratchError_engines (absent : tabGet s.fibres f = none) : exec (.uncorrectableError (.scratch f key)) s =
    .next (loseScratch (logPlace s (.scratch f key) 2) key) := by
  rw [uncorrectable_eq rfl, uncorrected, stopFibre, logPlace_fibres, absent]
  rfl

/-! ### Containment (R459, R460) -/

theorem agentAlive_of (named : agentExists s kind idx = true) (free : (kind, idx) ∉ s.dev.contained) :
    agentAlive s kind idx = true := by
  simp [agentAlive, named, free]

theorem logPlace_agentExists (c : Nat) : agentExists (logPlace s p c) kind idx = agentExists s kind idx := by
  obtain ⟨es, h⟩ := logError_only s (errAgent s p).1 (errAgent s p).2.1 c (errAgent s p).2.2
  rw [logPlace, h]
  rfl

theorem controlError_contains (named : agentExists s kind idx = true) (free : (kind, idx) ∉ s.dev.contained) :
    exec (.uncorrectableError (.control kind idx)) s = .next (contain (logPlace s (.control kind idx) 2) kind idx) := by
  rw [uncorrectable_eq rfl, uncorrected,
    if_pos (agentAlive_of ((logPlace_agentExists 2).trans named) (by rw [logPlace_contained]; exact free))]

/-- An agent that falls silent is noted. -/
theorem agentDead_notes (alive : agentAlive s kind idx = true) (heard : ∀ a ∈ s.dev.silent, a.1 = kind → a.2.1 ≠ idx) :
    exec (.agentDead kind idx) s = .next (s.modDev fun d => { d with silent := d.silent ++ [(kind, idx, d.hb)] }) := by
  have unnoted : s.dev.silent.find? (fun a => decide (a.1 = kind) && decide (a.2.1 = idx)) = none :=
    List.find?_eq_none.2 fun a ha => by simpa using heard a ha
  show execAgentDead kind idx s = _
  simp only [execAgentDead, alive, Bool.not_true, Bool.false_eq_true, if_false, unnoted]

/-- One that has been silent is contained at 64 ticks, and not before. -/
theorem agentDead_waits {a : Nat × Nat × Nat} (alive : agentAlive s kind idx = true)
    (silent : s.dev.silent.find? (fun a => a.1 = kind && a.2.1 = idx) = some a) :
    exec (.agentDead kind idx) s = .next (if a.2.2 + 64 ≤ s.dev.hb then contain s kind idx else s) := by
  show execAgentDead kind idx s = _
  simp only [execAgentDead, alive, Bool.not_true, Bool.false_eq_true, if_false, silent]

/-- R466: the host port dead. -/
theorem markDead_host (s : State) : (5, 0) ∈ (markDead s 5 0).dev.contained ∧ (markDead s 5 0).dev.hostUp = false := by
  refine ⟨List.mem_append_right _ (List.mem_singleton_self _), ?_⟩
  show (_ && decide (5 ≠ 5)) = false
  exact Bool.and_false _

/-! ### Repair (R462) -/

theorem rodSpare_eq (small : rod < 256) (drover : isShepherd core = false) (alive : (s.core core).contained = false)
    (due : worn s (fun e => e.agent = 1 && e.addr = rodKey core rod 0) = true) : exec (.rodSpare core rod) s =
      .next (if (s.core core).spareRods.length < 8 then (served s fun e => e.agent = 1 && e.addr = rodKey core rod 0).modCore
        core fun x => { x with spareRods := x.spareRods ++ [rod] } else contain s 1 (s.coreId core % 32)) := by
  show execRodSpare core rod s = _
  simp only [execRodSpare, Nat.not_le.2 small, drover, alive, due, decide_false, Bool.not_true, Bool.or_self,
    Bool.false_eq_true, if_false]

theorem coreSpareJoin_eq {c : Nat} (dead : deadCore s die = some c) (spare : ∀ x ∈ s.dev.spareCores, coreDie x ≠ die)
    (small : die < 2) (quiet : ∀ t ∈ s.teams, t.2.vacated = false → ∀ x ∈ t.2.cores, clusterOf x ≠ clusterOf c) :
    exec (.coreSpareJoin die) s = .next ((((s.zero (scratchKey c 0) (2 ^ 22)).zero (rodKey c 0 0) (2 ^ 23)).setCore c
      Core.reset).modDev fun d => { d with
        spareCores := d.spareCores ++ [c], sparemap := d.sparemap ||| (1#10 <<< die) }) := by
  have unused : (s.dev.spareCores.any fun x => decide (coreDie x = die)) = false := by simpa using spare
  have resident : (s.teams.any fun t => !t.2.vacated && t.2.cores.any fun x => decide (clusterOf x = clusterOf c)) = false := by
    simpa [List.any_eq_false] using quiet
  show execCoreSpareJoin die s = _
  simp only [execCoreSpareJoin, dead, unused, resident, Nat.not_le.2 small, decide_false, Bool.or_self, Bool.false_eq_true,
    if_false]

theorem l2SliceSpare_eq (small : slice < 256) (due : (2, slice) ∈ s.dev.contained ∨
      64 ≤ recentErrors s 1 fun e => e.agent = 2 && e.index = slice) : exec (.l2SliceSpare slice) s =
    .next (if 4 ≤ (s.dev.spareSlices.filter fun x => x / 128 = slice / 128).length then
        (if (2, slice) ∈ s.dev.contained then s else contain s 2 slice)
      else (served (if (2, slice) ∈ s.dev.contained then zeroSlice s slice else s) fun e =>
        e.agent = 2 && e.index = slice).modDev fun d => { d with
          contained := d.contained.filter (· ≠ (2, slice))
          spareSlices := d.spareSlices ++ [slice]
          sparemap := d.sparemap ||| (1#10 <<<
            (2 + slice / 128 * 4 + (s.dev.spareSlices.filter fun x => x / 128 = slice / 128).length)) }) := by
  have acts : (s.dev.contained.contains (2, slice) ||
      decide (64 ≤ recentErrors s 1 fun e => e.agent = 2 && e.index = slice)) = true := by simpa using due
  show execL2SliceSpare slice s = _
  simp only [execL2SliceSpare, Nat.not_le.2 small, acts, decide_false, Bool.not_true, Bool.or_self, Bool.false_eq_true,
    if_false, List.contains_iff_mem]

theorem hbmRowSpare_eq (due : worn s (fun e =>
      e.agent = 3 && channelOf e.addr / 64 = k && Config.rowOf (e.addr / 32) = n) = true) :
    exec (.hbmRowSpare k n) s = .next ((served s fun e =>
      e.agent = 3 && channelOf e.addr / 64 = k && Config.rowOf (e.addr / 32) = n).modDev
      fun d => { d with spareRows := d.spareRows ++ [(k, n)] }) := by
  show execHbmRowSpare k n s = _
  simp only [execHbmRowSpare, due, Bool.not_true, Bool.false_eq_true, if_false]

theorem pseudoChannelSpare_moves (dead : (3, k) ∈ s.dev.contained)
    (spare : (s.dev.spareChannels.filter fun c => c / 64 = k / 64).length < 2) :
    ∃ t, exec (.pseudoChannelSpare k) s = .next t ∧ (3, k) ∉ t.dev.contained ∧ k ∈ t.dev.badChannels ∧
      t.dev.spareChannels = s.dev.spareChannels ++ [k] ∧ t.fibres = s.fibres ∧ t.lines = s.lines ∧
      t.mem = s.mem.filter fun c => !(decide (c.1 < 2 ^ 60) && decide (channelOf c.1 = k)) := by
  have acts : (!s.dev.contained.contains (3, k) ||
      decide (2 ≤ (s.dev.spareChannels.filter fun c => c / 64 = k / 64).length)) = false := by
    simpa [dead] using spare
  refine ⟨_, congrArg Host.Outcome.next (if_neg (by rw [acts]; exact Bool.false_ne_true)), ?_, ?_, rfl, rfl, rfl, rfl⟩
  · simp
  · simp

/-- R453: where every device that is up has a link that is up, none is cut off. -/
theorem cutOff_none {down : Nat → Bool} (h : ∀ x ∈ s.dev.fabric, x ≠ s.dev.devid → x ∉ s.dev.down →
    ∃ l, l < 16 ∧ Config.linkCarries l x = true ∧ down l = false) : cutOff s down = [] := by
  refine List.filter_eq_nil_iff.2 fun x hx cut => ?_
  simp only [Bool.and_eq_true, decide_eq_true_eq, Bool.not_eq_true', List.contains_eq_mem, decide_eq_false_iff_not,
    List.all_eq_true] at cut
  obtain ⟨⟨⟨other, up⟩, -⟩, all⟩ := cut
  obtain ⟨l, small, carries, alive⟩ := h x hx other up
  have := all l (List.mem_filter.2 ⟨List.mem_range.2 small, carries⟩)
  rw [alive] at this
  cases this

/-- A link that has taken its next spare. -/
def laneSpared (s : State) (k : Nat) : State :=
  s.modDev fun d => { d with spareLanes := tabPut d.spareLanes k (tabGetD s.dev.spareLanes k 0 + 1) }

theorem laneSpare_eq (small : k < 16) (left : tabGetD s.dev.spareLanes k 0 < 3) : exec (.swetexLaneSpare k) s =
    .next ((cutOff (laneSpared s k) fun l => 3 ≤ tabGetD (laneSpared s k).dev.spareLanes l 0).foldl losePath
      (laneSpared s k)) := by
  show execSwetexLaneSpare k s = _
  simp only [execSwetexLaneSpare, Nat.not_le.2 small, Nat.not_le.2 left, decide_false, Bool.or_self, Bool.false_eq_true, if_false]
  rfl

theorem laneSpare_reached (small : k < 16) (left : tabGetD s.dev.spareLanes k 0 < 3)
    (reached : ∀ x ∈ s.dev.fabric, x ≠ s.dev.devid → x ∉ s.dev.down →
      ∃ l, l < 16 ∧ Config.linkCarries l x = true ∧ tabGetD (laneSpared s k).dev.spareLanes l 0 < 3) :
    exec (.swetexLaneSpare k) s = .next (laneSpared s k) := by
  have uncut : cutOff (laneSpared s k) (fun l => 3 ≤ tabGetD (laneSpared s k).dev.spareLanes l 0) = [] :=
    cutOff_none fun x hx other up => by
      obtain ⟨l, small, carries, alive⟩ := reached x hx other up
      exact ⟨l, small, carries, decide_eq_false (Nat.not_le.2 alive)⟩
  rw [laneSpare_eq small left, uncut]
  rfl

end Sys2Proof.Machine
end

section
/-! PROOFS. Reset, power, boot and firmware (R16, R391, R464, R465, R467 to R471), and the errors and the management of the
device together. -/

namespace Sys2Proof.Machine

variable {s : State} {stage : BootStage} {img : List Byte}

/-! ### Reset and power -/

/-- R464, R465: what a function-level reset leaves. -/
theorem functionLevelReset_leaves (s : State) : ∃ t, exec .functionLevelReset s = .next t ∧ t.ctxs = [] ∧ t.teams = [] ∧
    t.fibres = [] ∧ t.flocks = [] ∧ t.queues = [] ∧ t.launches = [] ∧ t.runs = [] ∧ t.folds = [] ∧ t.faults = [] ∧
    t.windows = [] ∧ t.clusters = [] ∧ t.lines = [] ∧ t.dev = { s.dev with
      errors := t.dev.errors, poisoned := t.dev.poisoned, inReset := true, ctxsel := 0, sparemap := 0
      wdt := Device.reset.wdt, hbRun := true, hostLines := [], acks := [], tornAt := [], atomScope := [] } ∧
    ∀ c, (t.core c).spareRods = (s.core c).spareRods ∧ (t.core c).contained = (s.core c).contained := by
  refine ⟨_, rfl, rfl, rfl, rfl, rfl, rfl, rfl, rfl, rfl, rfl, rfl, rfl, rfl, rfl, fun c => ?_⟩
  rw [State.core, core_map s.cores bareCore rfl c]
  exact ⟨rfl, rfl⟩

/-- R469: the fuses keep the rods that a core has spared. -/
theorem powerLost_spareRods (s : State) (c : Nat) :
    (tabGetD (powerLost s).cores c Core.reset).spareRods = (s.core c).spareRods := by
  rw [powerLost, core_map s.cores (fun x => { Core.reset with spareRods := x.spareRods }) rfl c]
  rfl

theorem powerOn_leaves (s : State) : ∃ t, exec .powerOn s = .next t ∧ t.dev.hb = 0 ∧ t.dev.hbRun = true ∧
    t.dev.computeOn = false ∧ t.dev.booted = 0 ∧ t.dev.errors = [] ∧ t.dev.responses = [] ∧
    t.dev.rollback = s.dev.rollback ∧ t.dev.sparemap = 0 ∧ t.fibres = [] ∧ t.mem = [] ∧
    t.dev.spareSlices = s.dev.spareSlices ∧ t.dev.spareRows = s.dev.spareRows ∧ t.dev.spareLanes = s.dev.spareLanes ∧
    ∀ c, (t.core c).spareRods = (s.core c).spareRods :=
  ⟨_, rfl, rfl, rfl, rfl, rfl, rfl, rfl, rfl, rfl, rfl, rfl, rfl, rfl, rfl, powerLost_spareRods s⟩

theorem powerCycle_leaves (s : State) : ∃ t, exec .powerCycle s = .next t ∧ t.dev.hb = 0 ∧ t.dev.hbRun = true ∧
    t.dev.computeOn = false ∧ t.dev.booted = 0 ∧ t.dev.errors = s.dev.errors ∧ t.dev.sparemap = 0 ∧
    t.dev.rollback = s.dev.rollback ∧ t.fibres = [] ∧ t.mem = [] ∧ t.dev.spareSlices = s.dev.spareSlices ∧
    t.dev.spareRows = s.dev.spareRows ∧ t.dev.spareLanes = s.dev.spareLanes ∧
    ∀ c, (t.core c).spareRods = (s.core c).spareRods :=
  ⟨_, rfl, rfl, rfl, rfl, rfl, rfl, rfl, rfl, rfl, rfl, rfl, rfl, rfl, powerLost_spareRods s⟩

/-! ### Boot and firmware (R467, R468) -/

/-- The next stage in order, verified. -/
theorem bootVerify_good (going : s.dev.bootFailed = false) (next : s.dev.booted = stageIndex stage)
    (good : imageGood s img = true) : exec (.bootVerify stage img) s =
      .next ((if stage = .shepherd then startOwn s 0 2 (Config.imageEntry img) 0 0 else s).modDev fun d => { d with
        fwImages := tabPut d.fwImages (stageIndex stage) img
        booted := d.booted + 1, computeOn := decide (d.booted + 1 = 4) }) := by
  show execBootVerify stage img s = _
  simp only [execBootVerify, going, next, good, ne_eq, not_true, decide_false, Bool.or_self, Bool.false_eq_true, if_false,
    if_true]
  rfl

/-- A stage that fails halts the boot. -/
theorem bootVerify_bad (going : s.dev.bootFailed = false) (next : s.dev.booted = stageIndex stage)
    (bad : imageGood s img = false) : ∃ t, exec (.bootVerify stage img) s = .next t ∧ t.dev.bootFailed = true ∧
      t.dev.computeOn = false ∧ t.dev.booted = s.dev.booted := by
  refine ⟨(s.modDev fun d => { d with bootFailed := true, computeOn := false }).send
    (.sideband 0x67 [BitVec.ofNat 8 (stageIndex stage)]), ?_, rfl, rfl, rfl⟩
  show execBootVerify stage img s = _
  simp only [execBootVerify, going, next, bad, ne_eq, not_true, decide_false, Bool.or_self, Bool.false_eq_true, if_false]

theorem imageGood_iff : imageGood s img = true ↔
    signedWell img = true ∧ s.dev.rollback.toNat ≤ (Config.imageVersion img).toNat := by
  simp [imageGood]

/-- R468: an image below the counter, or not signed, is refused. -/
theorem firmwareUpdate_refused (ver : BitVec 16) (c : Bool) (bad : imageGood s img = false) :
    exec (.firmwareUpdate img ver c) s = .next (s.send (.sideband 0x68 [])) := by
  show execFirmwareUpdate img ver c s = _
  simp only [execFirmwareUpdate, bad, Bool.not_false, if_true]

/-- The counter rises once the BMC has confirmed. -/
theorem firmwareUpdate_taken (ver : BitVec 16) (c : Bool) (good : imageGood s img = true) :
    exec (.firmwareUpdate img ver c) s = .next (if c then s.modDev fun d => { d with
      fwVersion := Config.imageVersion img, fwPending := none, rollback := Config.imageVersion img }
      else s.modDev fun d =>
        { d with fwVersion := Config.imageVersion img, fwPending := some (Config.imageVersion img) }) := by
  show execFirmwareUpdate img ver c s = _
  simp only [execFirmwareUpdate, good, Bool.not_true, Bool.false_eq_true, if_false]

/-- What SPARE_STATE tells after SPAREMAP (R470). -/
def sparesLeft (s : State) : List Byte :=
  let d := s.dev
  bytesOfNat 1 (2 - d.spareCores.length) ++ (bytesOfNat 1 (8 - d.spareSlices.length) ++
    (bytesOfNat 1 (16 - d.spareChannels.length) ++
      (((List.range 26).flatMap fun c => bytesOfNat 1 (8 - (s.core c).spareRods.length)) ++
        (((List.range 16).flatMap fun l => bytesOfNat 1 (1 - tabGetD d.spareLanes l 0)) ++
          bytesOfNat 4 d.spareRows.length))))

theorem spareState_answers (s : State) :
    exec .spareState s = .next (respond s 3 (bytesOfNat 2 s.dev.sparemap.toNat ++ sparesLeft s)) := by
  show execSpareState s = _
  simp only [execSpareState, List.append_assoc, sparesLeft]

/-- Settles O54: each event by the equation of its arm. -/
theorem errorsAndManagement : Obligations.ErrorsAndManagement := by
  refine ⟨fun s p f k n key core rod kind idx die slice => ?errors, fun s stage img ver c sensor => ?manage⟩
  case errors =>
    refine ⟨rfl, fun here loc => ⟨?lane, ?scratch, ?segment⟩, fun fl l => uniformError_stops, uncorrectable_eq rfl,
      uncorrectable_eq rfl, dirtyError_loses, ?clean, uncorrectable_refetched rfl, uncorrectable_eq rfl, ?acc,
      scratchError_engines, ?control, ?dead, ?rods, fun c => coreSpareJoin_eq, ?slices, hbmRowSpare_eq,
      pseudoChannelSpare_moves, ?lanes, ?link, rfl⟩
    case lane => exact fibreError_stops (fun s => s) rfl (fun _ => rfl) here loc
    case scratch => exact fibreError_stops (fun s => loseScratch s key) rfl (fun _ => rfl) here loc
    case segment => exact fibreError_stops (fun s => s) rfl (fun _ => rfl) here loc
    case clean =>
      rintro clean u rfl
      exact cleanError_refetches clean
    case acc => exact fun bank row col => ⟨fun m o => accError_loop, accError_idle⟩
    case control =>
      rintro v rfl named free
      exact controlError_contains named free
    case dead =>
      refine fun named free => ⟨agentDead_notes (agentAlive_of named free), fun a silent => ⟨fun due => ?_, fun early => ?_⟩⟩
      · rw [agentDead_waits (agentAlive_of named free) silent, if_pos due]
      · rw [agentDead_waits (agentAlive_of named free) silent, if_neg (Nat.not_le.2 early)]
    case rods =>
      refine fun small drover alive due => ⟨fun left => ?_, fun full => ?_⟩
      · rw [rodSpare_eq small drover alive due, if_pos left]
      · rw [rodSpare_eq small drover alive due, if_neg (Nat.not_lt.2 full)]
    case slices =>
      rintro used rfl small due
      refine ⟨fun left => ?_, fun full alive => ?_⟩
      · rw [l2SliceSpare_eq small due, if_neg (Nat.not_le.2 left)]
      · rw [l2SliceSpare_eq small due, if_pos full, if_neg alive]
    case lanes =>
      rintro small left u rfl
      exact ⟨laneSpare_reached small left, laneSpare_eq small left⟩
    case link =>
      refine fun up free => ⟨?_, markDead_host s⟩
      show execSurpriseLinkLoss s = _
      simp [execSurpriseLinkLoss, up, free]
  case manage =>
    exact ⟨functionLevelReset_leaves s, powerOn_leaves s, powerCycle_leaves s, ⟨_, rfl, rfl, rfl, rfl, rfl⟩, rfl, rfl,
      bootVerify_good, bootVerify_bad, imageGood_iff.1, firmwareUpdate_refused ver c, firmwareUpdate_taken ver true,
      firmwareUpdate_taken ver false, rfl, ⟨_, rfl⟩, rfl, ⟨_, spareState_answers s⟩, rfl⟩

end Sys2Proof.Machine
end

section
/-! PROOFS. Privileged registers: PRD reads the table of R241, PWR checks and writes it. -/

namespace Sys2Proof.Machine

variable {s t u : State} {f n l : Nat} {fs : List Nat} {x : DWord}

/-! ### Reading (R241, R242) -/

/-- The table of R241 as the model reads it, row by row. -/
theorem privValue_table (s : State) (f : Nat) (k : Fin 19) :
    privValue s f ((privilegedTable State.reset 0).getD k.val (0, 0)).1.toNat =
      some ((privilegedTable s f).getD k.val (0, 0)).2 := by
  fin_cases k
  -- CSTATE, the ninth row, is the code of the context's state
  on_goal 9 =>
    show some (dword (s.ctx s.dev.ctxsel.toNat).st.code) = some (match (s.ctx s.dev.ctxsel.toNat).st with
      | .free => 0
      | .resident => 1
      | .swapped => 2
      | .suspended => 3
      | .torn => 4)
    cases (s.ctx s.dev.ctxsel.toNat).st <;> rfl
  all_goals rfl

/-- R242: below 0x10 no context is named, and from there CTXSEL names an allocated one. -/
theorem contextNamed (named : n < 0x10 ∨ s.ctxBad s.dev.ctxsel.toNat = false) :
    (ctxNumber n && s.ctxBad s.dev.ctxsel.toNat) = false := by
  rcases named with low | good
  · have outside : ctxNumber n = false := by simp [ctxNumber, low]
    rw [outside, Bool.false_and]
  · rw [good, Bool.and_false]

theorem readPriv_ok (value : privValue s f n = some x) (named : n ≤ 0x10 ∨ s.ctxBad s.dev.ctxsel.toNat = false) :
    readPriv s f n = .ok x := by
  simp only [readPriv, value]
  refine if_neg ?_
  by_cases state : n = 0x10
  · simp [state]
  · have context := contextNamed (named.imp_left fun low => Nat.lt_of_le_of_ne low state)
    simpa [state] using context

/-- R17: the pair that PRD writes is ready on every acting fibre, and a uniform destination asks for none. -/
theorem needDest64_ok {i : Instr} {ud : Bool} {d : BitVec 8} (ready : ∀ h ∈ fs, RegsReady i (s.fib h))
    (spans : ud = false → (d.toNat, 2) ∈ laneSpans i) : needDest64 s fs ud d = .ok () := by
  cases ud
  · exact needAll_ok (chk := fun x => need64 x d) fun h hh => (ready h hh).pair (spans rfl)
  · rfl

theorem prd_reads (g : Guard) (ud : Bool) (d n : BitVec 8) : Flockwise (.prd g ud d n) fun s _ f fs v => ∃ x,
    privValue s f n.toNat = some x ∧ (n.toNat ≤ 0x10 ∨ s.ctxBad s.dev.ctxsel.toNat = false) ∧
    v = putDest64 s f fs ud d x := by
  refine flockwise_ready _ _ _ (fun s => @rfl _ (execPrd g ud d n s)) ?_
  rintro s cur f fs v regs ⟨x, value, named, rfl⟩
  simp only [needDest64_ok regs (ud := ud) (d := d) (fun h => by simp [laneSpans, dstSpan, h]), readPriv_ok value named,
    Res.bind_ok]
  rfl

/-! ### What a drain leaves alone (R112) -/

/-- A store that joins its core's order changes its fibre and its core only. -/
theorem drainOne_keeps (s : State) (f : Nat) : (drainOne s f).ctxs = s.ctxs ∧ (drainOne s f).dev = s.dev := by
  unfold drainOne
  dsimp only
  split
  · exact ⟨rfl, rfl⟩
  · split <;> exact ⟨rfl, rfl⟩

theorem drained_keeps (h : drained s fs = .ok t) : t.ctxs = s.ctxs ∧ t.dev = s.dev := by
  obtain ⟨rfl, -⟩ := drained_ok s t fs h
  have kept : ∀ u f, (u.ctxs = s.ctxs ∧ u.dev = s.dev) → (drainOne u f).ctxs = s.ctxs ∧ (drainOne u f).dev = s.dev := by
    rintro u f ⟨ctxs, dev⟩
    exact ⟨(drainOne_keeps u f).1.trans ctxs, (drainOne_keeps u f).2.trans dev⟩
  exact foldl_keeps (fun u => u.ctxs = s.ctxs ∧ u.dev = s.dev) drainQueue fs
    (fun u f _ h => foldl_keeps (fun u => u.ctxs = s.ctxs ∧ u.dev = s.dev) _ (u.fib f).queue (fun v _ _ => kept v f) u h) s
    ⟨rfl, rfl⟩

/-! ### Writing (R241 to R243) -/

/-- The checks of PWR that R242 lists, all passed; `l` is the register's level. -/
structure MayWrite (s : State) (f n l : Nat) (x : DWord) : Prop where
  writable : privLevel n = some l
  level : l ≤ s.plOf f
  named : n < 0x10 ∨ s.ctxBad s.dev.ctxsel.toNat = false
  range : privRange n x = false
  region : (0x12 ≤ n && n ≤ 0x16) = true → s.hasTeams s.dev.ctxsel.toNat = false

/-- What PWR leaves once its stores have drained. -/
def privWritten (u : State) (n : Nat) (x : DWord) : State := putPriv (privGiven u n x).2 n (privGiven u n x).1

theorem writePriv_ok (may : MayWrite s f n l x) (drain : drained s fs = .ok u) :
    writePriv s f fs n x = .ok (privWritten u n x) := by
  obtain ⟨writable, level, named, range, region⟩ := may
  have free : ¬ ((0x12 ≤ n && n ≤ 0x16) && s.hasTeams s.dev.ctxsel.toNat) = true := by
    rw [Bool.and_eq_true]
    exact fun h => absurd h.2 (by simp [region h.1])
  simp only [writePriv, writable, if_neg (Nat.not_lt.2 level), contextNamed named, range, Bool.false_eq_true, if_false,
    if_neg free, drain]
  rfl

theorem pwr_writes (g : Guard) (n : BitVec 8) (a : Src) : Flockwise (.pwr g n a) fun s _ f fs v => ∃ l u,
    MayWrite s f n.toNat l (s.op64 (s.fib f) a) ∧ drained s fs = .ok u ∧ v = privWritten u n.toNat (s.op64 (s.fib f) a) := by
  refine flockwise_ready _ _ _ (fun s => @rfl _ (execPwr g n a s)) ?_
  rintro s cur f fs v regs ⟨l, u, may, drain, rfl⟩
  simp only [src64_ready (regs f List.mem_cons_self) a (fun q hq => hq), Res.bind_ok, writePriv_ok may drain]

theorem pwrHbctl_writes (g : Guard) (a : Src) : Flockwise (.pwrHbctl g a) fun s _ f fs v => ∃ l u,
    MayWrite s f 0x08 l (s.op64 (s.fib f) a) ∧ drained s fs = .ok u ∧ v = privWritten u 0x08 (s.op64 (s.fib f) a) := by
  refine flockwise_ready _ _ _ (fun s => @rfl _ (execPwrHbctl g a s)) ?_
  rintro s cur f fs v regs ⟨l, u, may, drain, rfl⟩
  simp only [src64_ready (regs f List.mem_cons_self) a (fun q hq => hq), Res.bind_ok, writePriv_ok may drain]

/-- HBCTL (R243). -/
theorem mayWrite_hbctl (level : 2 ≤ s.plOf f) (small : x.toNat ≤ 1) : MayWrite s f 0x08 2 x :=
  ⟨rfl, level, .inl (by decide), by simpa [privRange] using small, fun h => by cases h⟩

/-- A register that is neither FHB nor FHL takes the value given. -/
theorem privWritten_plain (hb : n ≠ 0x15) (hl : n ≠ 0x16) : privWritten u n x = putPriv u n x := by
  simp [privWritten, privGiven, hb, hl]

/-- FHB and FHL too, of a context without a header segment or where nothing would change (R242). -/
theorem privGiven_same (h : n = 0x15 ∧ ((u.ctx u.dev.ctxsel.toNat).hdrSegs = [] ∨ x = (u.ctx u.dev.ctxsel.toNat).fhb) ∨
    n = 0x16 ∧ ((u.ctx u.dev.ctxsel.toNat).hdrSegs = [] ∨ x = (u.ctx u.dev.ctxsel.toNat).fhl)) :
    privGiven u n x = (x, u) := by
  rcases h with ⟨rfl, none | same⟩ | ⟨rfl, none | same⟩
  · simp [privGiven, none]
  · simp [privGiven, same]
  · simp [privGiven, none]
  · simp [privGiven, same]

/-- R11: an undefined value instead, where the write would change them and there is a header segment. -/
theorem privGiven_drawn (h : n = 0x15 ∧ x ≠ (u.ctx u.dev.ctxsel.toNat).fhb ∨ n = 0x16 ∧ x ≠ (u.ctx u.dev.ctxsel.toNat).fhl)
    (segs : (u.ctx u.dev.ctxsel.toNat).hdrSegs ≠ []) : privGiven u n x = u.draw := by
  have listed : (u.ctx u.dev.ctxsel.toNat).hdrSegs.isEmpty = false := List.isEmpty_eq_false_iff.2 segs
  rcases h with ⟨rfl, ne⟩ | ⟨rfl, ne⟩ <;> simp [privGiven, listed, ne]

/-- The registers of R241 that may be written, and no other. -/
theorem privLevel_none (h : ¬ (n = 0 ∨ n = 8 ∨ n = 0x0A ∨ (0x11 ≤ n ∧ n ≤ 0x18) ∨ n = 0x1A)) : privLevel n = none := by
  simp only [not_or] at h
  obtain ⟨ctxsel, hbctl, wdt, context, prio⟩ := h
  have closed : ¬ (n = 0x00 || n = 0x0A || (0x11 ≤ n && n ≤ 0x18) || n = 0x1A) = true := by
    simpa [ctxsel, wdt, prio] using context
  rw [privLevel, if_neg hbctl, if_neg closed]

/-- The context that CTXSEL names, where it has not changed. -/
theorem State.ctx_same (ctxs : u.ctxs = s.ctxs) (dev : u.dev = s.dev) :
    u.ctx u.dev.ctxsel.toNat = s.ctx s.dev.ctxsel.toNat := by
  rw [State.ctx, ctxs, dev]
  rfl

/-- Settles O40: PRD by the table's rows; PWR by its checks, FHB and FHL by what the context has. -/
theorem privilegedRegisters : Obligations.PrivilegedRegisters := by
  refine ⟨fun g ud d k => (prd_reads g ud d _).mono ?read, fun g a n => ⟨(pwr_writes g _ a).mono ?ctxsel,
    (pwr_writes g _ a).mono ?wdt, (pwr_writes g _ a).mono ?ttb, (pwr_writes g _ a).mono ?thb, (pwr_writes g _ a).mono ?thl,
    (pwr_writes g _ a).mono ?tho, (pwr_writes g _ a).mono ?fhb, (pwr_writes g _ a).mono ?fhl,
    (pwr_writes g _ a).mono ?fhbDrawn, (pwr_writes g _ a).mono ?fhlDrawn, (pwr_writes g _ a).mono ?mtp,
    (pwr_writes g _ a).mono ?nbvd, (pwr_writes g _ a).mono ?cprio, (pwrHbctl_writes g a).mono ?hbctl,
    (pwr_writes g _ a).mono ?hbctlNumber, privLevel_none⟩⟩
  case read =>
    rintro s r f fs v ⟨named, rfl⟩
    exact ⟨_, privValue_table s f k, named, rfl⟩
  case ctxsel | wdt =>
    rintro s r f fs v ⟨level, named, range, u, drain, rfl⟩
    exact ⟨1, u, ⟨rfl, level, named, by simpa [privRange, Nat.pos_iff_ne_zero] using range, nofun⟩, drain, rfl⟩
  case mtp =>
    rintro s r f fs v ⟨level, named, -, u, drain, rfl⟩
    refine ⟨1, u, ⟨rfl, level, named, rfl, nofun⟩, drain, ?_⟩
    beta_reduce
    rw [privWritten_plain (by decide) (by decide), ← (drained_keeps drain).2]
    rfl
  case ttb | nbvd | cprio =>
    rintro s r f fs v ⟨level, named, range, u, drain, rfl⟩
    refine ⟨1, u, ⟨rfl, level, named, by simpa [privRange] using range, nofun⟩, drain, ?_⟩
    beta_reduce
    rw [privWritten_plain (by decide) (by decide), ← (drained_keeps drain).2]
    rfl
  case thb | thl | tho =>
    rintro s r f fs v ⟨level, named, ⟨range, free⟩, u, drain, rfl⟩
    refine ⟨1, u, ⟨rfl, level, named, by simpa [privRange] using range, fun _ => free⟩, drain, ?_⟩
    beta_reduce
    rw [privWritten_plain (by decide) (by decide), ← (drained_keeps drain).2]
    rfl
  case fhb | fhl =>
    rintro s r f fs v ⟨level, named, ⟨⟨range, free⟩, same⟩, u, drain, rfl⟩
    obtain ⟨ctxs, dev⟩ := drained_keeps drain
    refine ⟨1, u, ⟨rfl, level, named, by simpa [privRange] using range, fun _ => free⟩, drain, ?_⟩
    beta_reduce
    rw [privWritten, privGiven_same (by simpa [State.ctx_same ctxs dev] using same), ← dev]
    rfl
  case fhbDrawn | fhlDrawn =>
    rintro s r f fs v ⟨level, named, ⟨⟨range, free⟩, segs, ne⟩, u, drain, rfl⟩
    obtain ⟨ctxs, dev⟩ := drained_keeps drain
    rw [← State.ctx_same ctxs dev] at segs ne
    refine ⟨1, u, ⟨rfl, level, named, by simpa [privRange] using range, fun _ => free⟩, drain, ?_⟩
    beta_reduce
    rw [privWritten, privGiven_drawn (by simpa using ne) segs, ← dev]
    rfl
  case hbctl =>
    rintro s r f fs v ⟨level, small, u, drain, rfl⟩
    exact ⟨2, u, mayWrite_hbctl level small, drain, rfl⟩
  case hbctlNumber =>
    rintro s r f fs v ⟨level, small, u, drain, rfl⟩
    exact ⟨2, u, mayWrite_hbctl level small, drain, rfl⟩

end Sys2Proof.Machine
end

section
/-! PROOFS. Regrouping, reads of contexts, of the heartbeat and of the time base, and service traps (R248 to R253). -/

namespace Sys2Proof.Machine

variable {s t u : State} {f : Nat} {fs : List Nat}

/-! ### Regrouping (R248, R249) -/

theorem regroup_forms (g : Guard) (a b : Src) (hold : Bool) : Flockwise (.regroup g a b hold) fun s r f fs v => ∃ u,
    (s.op32 (s.fib f) b).toNat < 0xFF ∧ handOver s r fs a = .ok u ∧
    (if hold then .ok u else regroupBuild u (s.fib f).core (s.fib f).team ((s.op32 (s.fib f) b).setWidth 8)) = .ok v := by
  refine flockwise_ready _ _ _ (fun s => @rfl _ (execRegroup g a b hold s)) ?_
  rintro s cur f fs v regs ⟨u, room, handed, formed⟩
  have mask : ¬ (cur.op32 (cur.fib f) b).toNat / 2 ^ 8 ≠ 0 := by omega
  simp only [src32_all regs (c := a) (fun q hq => by simp [laneSpans, hq]),
    src32_ready (regs f List.mem_cons_self) b (fun q hq => by simp [laneSpans, hq]), if_neg mask, if_neg room.ne, handed,
    Res.bind_ok]
  exact formed

/-! ### Reads of a context (R250) -/

theorem ctxrd_uniform (g : Guard) (d : BitVec 8) (a : Src) (n : BitVec 8) : Flockwise (.ctxrd g true d a n) fun s _ f _ v =>
    ∃ w, contextRead s (s.op32 (s.fib f) a).toNat n.toNat = .ok w ∧ v = setSreg s f d (w.setWidth 64) := by
  refine flockwise_ready _ (fun _ s f _ => (src32 s f a).bind fun cx => (contextRead s cx.toNat n.toNat).map fun (w : Word) =>
    setSreg s f d (w.setWidth 64)) _ (fun s => @rfl _ (execCtxrd g true d a n s)) ?_
  rintro s cur f fs v regs ⟨w, read, rfl⟩
  simp only [src32_ready (regs f List.mem_cons_self) a (fun q hq => by simp [laneSpans, hq]), read, Res.bind_ok]
  rfl

theorem ctxrd_lane (g : Guard) (d : BitVec 8) (a : Src) (n : BitVec 8) : EachLane (.ctxrd g false d a n) fun s _ f v =>
    ∃ w, contextRead s (s.op32 (s.fib f) a).toNat n.toNat = .ok w ∧ v = s.modFib f fun x => x.setReg d.toNat w := by
  refine lanewise_of _ (fun _ _ s f _ => (need32 (s.fib f) d).bind fun _ => ((src32 s f a).bind fun cx =>
    contextRead s cx.toNat n.toNat).bind fun w => .ok (.next, put32 s f d w)) _ (fun s => @rfl _ (execCtxrd g false d a n s)) ?_
  rintro s r _ cur l f how v - ready ⟨rfl, w, read, rfl⟩
  simp only [ready.word (n := d) (by simp [laneSpans, dstSpan]), src32_ready ready a (fun q hq => by simp [laneSpans, hq]), read,
    Res.bind_ok]
  rfl

/-! ### Heartbeat and time (R251, R252) -/

theorem hbrd_lane (g : Guard) (d : BitVec 8) : Completes (.hbrd g false d false) fun s x =>
    x.setPair d.toNat (BitVec.ofNat 64 (max s.dev.hb x.vst % 2 ^ 56)) := by
  refine completes_of_body (.hbrd g false d false) (fun _ _ s f _ => (need64 (s.fib f) d).map fun _ =>
    (.next, put64 s f d (heartbeatRead s f false))) (fun s => @rfl _ (execHbrd g false d false s)) _ ?_
  intro s r f x F _ ready here _
  rw [State.fib_eq _ f x here, ready.pair (by simp [laneSpans, dstSpan])]
  refine congrArg (fun t => Res.ok (Adv.next, t)) (modFib_congr here _ _ ?_)
  rw [heartbeatRead, State.fib_eq _ f x here]
  rfl

theorem hbrd_uniform (g : Guard) (d : BitVec 8) : WritesUniform (.hbrd g true d false) d fun s x =>
    BitVec.ofNat 64 (max s.dev.hb x.vst % 2 ^ 56) := by
  refine writesUniform_of (.hbrd g true d false) d (fun _ u f => heartbeatRead u f false)
    (fun s => @rfl _ (execHbrd g true d false s)) _ ?_
  intro s r f F _ here
  rw [heartbeatRead, here]
  rfl

/-- The state in which the cycle within the tick has been read (R251). -/
def State.cycleRead (s : State) : State := { s.modDev fun v => { v with sub := s.subCycle } with free := s.free + 1 }

/-- A change of a fibre depends on what the fibre holds. -/
theorem State.modFib_congr (s : State) (f : Nat) (a b : Fibre → Fibre) (same : a (s.fib f) = b (s.fib f)) :
    s.modFib f a = s.modFib f b := by
  cases here : tabGet s.fibres f with
  | none => simp only [State.modFib, tabMod, here]
  | some x =>
    rw [State.fib_eq s f x here] at same
    exact Machine.modFib_congr (s := s) here a b same

theorem hbrdSub_lane (g : Guard) (d : BitVec 8) : EachLane (.hbrd g false d true) fun s _ f v =>
    v = s.cycleRead.modFib f fun x => x.setPair d.toNat
      (BitVec.ofNat 64 (max s.dev.hb x.vst % 2 ^ 56 + s.subCycle * 2 ^ 56)) := by
  refine lanewise_of _ (fun _ _ s f _ => (need64 (s.fib f) d).map fun _ =>
    (.next, put64 s.cycleRead f d (heartbeatRead s f true))) _ (fun s => @rfl _ (execHbrd g false d true s)) ?_
  rintro s r _ cur l f how v - ready ⟨rfl, rfl⟩
  rw [ready.pair (n := d) (by simp [laneSpans, dstSpan])]
  exact congrArg (fun t => Res.ok (Adv.next, t)) (cur.cycleRead.modFib_congr f _ _ rfl)

theorem hbrdSub_uniform (g : Guard) (d : BitVec 8) : Flockwise (.hbrd g true d true) fun s _ f _ v =>
    v = setSreg s.cycleRead f d (BitVec.ofNat 64 (max s.dev.hb (s.fib f).vst % 2 ^ 56 + s.subCycle * 2 ^ 56)) := by
  refine flockwise_ready _ (fun _ s f _ => .ok (setSreg s.cycleRead f d (heartbeatRead s f true))) _
    (fun s => @rfl _ (execHbrd g true d true s)) ?_
  rintro s cur f fs v - rfl
  rfl

theorem tbrd_time (g : Guard) (d : BitVec 8) : EachLane (.tbrd g d 0) fun s _ f v =>
    v = { s with free := s.free + 1 }.modFib f fun x => x.setPair d.toNat (timeBase s) := by
  refine lanewise_of _ _ _ (fun s => @rfl _ (execTbrd g d 0 s)) ?_
  rintro s r _ cur l f how v - ready ⟨rfl, rfl⟩
  simp only [ready.pair (n := d) (by simp [laneSpans]), if_true]
  rfl

theorem tbrd_state (g : Guard) (d : BitVec 8) : Completes (.tbrd g d 1) fun s x =>
    x.setReg d.toNat (s.dev.offset.setWidth 32 <<< 1 ||| (if s.dev.locked then 1 else 0)) := by
  refine completes_of_body (.tbrd g d 1) (fun _ _ s f _ => (need32 (s.fib f) d).map fun _ =>
    (.next, put32 s f d (s.dev.offset.setWidth 32 <<< 1 ||| (if s.dev.locked then 1 else 0))))
    (fun s => @rfl _ (execTbrd g d 1 s)) _ ?_
  intro s r f x F _ ready here _
  rw [State.fib_eq _ f x here, ready.word (by simp [laneSpans])]
  exact congrArg (fun t => Res.ok (Adv.next, t)) (modFib_congr here _ _ rfl)

/-- R251: a free value that does not fall within a tick, below the 216 cycles of one. -/
theorem State.subCycle_within (h : s.dev.sub < 216) : s.dev.sub ≤ s.subCycle ∧ s.subCycle < 216 := by
  have rest := Nat.mod_lt (Config.subTick s.free) (Nat.sub_pos_of_lt h)
  rw [State.subCycle]
  omega

/-- R252: 80 ns for every tick. -/
theorem timeBase_ticks (h : s.dev.hb * 80 + 80 ≤ 2 ^ 64) : (timeBase s - s.dev.tb0).toNat / 80 = s.dev.hb := by
  have part := Nat.mod_lt (Config.subNs s.free) (show 0 < 80 by decide)
  have since : timeBase s - s.dev.tb0 = dword (s.dev.hb * 80 + Config.subNs s.free % 80) := by
    rw [timeBase, BitVec.add_comm, BitVec.add_sub_cancel]
  rw [since, dword, BitVec.toNat_ofNat, Nat.mod_eq_of_lt (by omega)]
  omega

/-- Settles O42: each instruction by its reads; the cycle and the time by what their free parts are bounded by. -/
theorem regroupTime : Obligations.RegroupTime :=
  ⟨fun g a b d n hold => ⟨regroup_forms g a b hold, ctxrd_uniform g d a n, ctxrd_lane g d a n, hbrd_lane g d, hbrd_uniform g d,
    hbrdSub_lane g d, hbrdSub_uniform g d, tbrd_time g d, tbrd_state g d⟩, fun _ => State.subCycle_within, fun _ => timeBase_ticks⟩

/-! ### Service traps (R253) -/

/-- Settles O43: the checks and the release of SVC, then its record, where the queue has room. -/
theorem serviceTraps : Obligations.ServiceTraps := by
  intro g d a b
  refine flockwise_ready _ _ _ (fun s => @rfl _ (execSvc g d a b s)) ?_
  rintro s cur f fs v regs ⟨ps, u, w, short, access, release, posted⟩
  have lowest := regs f List.mem_cons_self
  have number : ¬ (cur.op32 (cur.fib f) b).toNat / 2 ^ 16 ≠ 0 := by omega
  simp only [needAll_word regs (d := d) (by simp [laneSpans]), src64_ready lowest a (fun q hq => by simp [laneSpans, hq]),
    src32_ready lowest b (fun q hq => by simp [laneSpans, hq]), postService, if_neg number, access, release, Res.bind_ok,
    Res.map]
  rcases posted with ⟨room, rfl⟩ | ⟨full, rfl⟩
  · rw [if_pos room]
  · rw [if_neg (Nat.not_lt.2 full)]

end Sys2Proof.Machine
end

section
/-! PROOFS. Instructions that ask other devices first (R194, R244): marks on the fibres that act, stalls, and messages. -/

namespace Sys2Proof.Machine

variable {s t u : State} {r : Run} {f : Nat} {fs gs : List Nat}

/-! ### Changes of different fibres -/

section Tables

variable {α : Type}

theorem tabPut_comm_of_lt (t : Tab α) {k j : Nat} (lt : k < j) (v w : α) :
    tabPut (tabPut t k v) j w = tabPut (tabPut t j w) k v := by
  induction t with
  | nil => simp [tabPut, lt, lt.ne', lt.not_gt]
  | cons p r ih =>
    obtain ⟨i, x⟩ := p
    rcases Nat.lt_trichotomy k i with before | rfl | after
    · rw [tabPut, if_pos before, tabPut, if_neg lt.not_gt, if_neg lt.ne']
      simp only [tabPut]
      split
      · rw [tabPut, if_pos lt]
      · split
        · rw [tabPut, if_pos lt]
        · rw [tabPut, if_pos before]
    · simp [tabPut, lt.ne', lt.not_gt]
    · simp [tabPut, ih, after.not_gt, after.ne', (after.trans lt).not_gt, (after.trans lt).ne']

theorem tabPut_comm (t : Tab α) {k j : Nat} (ne : k ≠ j) (v w : α) :
    tabPut (tabPut t k v) j w = tabPut (tabPut t j w) k v := by
  rcases Nat.lt_or_gt_of_ne ne with lt | gt
  · exact tabPut_comm_of_lt t lt v w
  · exact (tabPut_comm_of_lt t gt w v).symm

theorem tabMod_comm (t : Tab α) {k j : Nat} (ne : k ≠ j) (g h : α → α) :
    tabMod (tabMod t k g) j h = tabMod (tabMod t j h) k g := by
  have getJ : tabGet (tabMod t k g) j = tabGet t j := by rw [tabGet_tabMod, if_neg ne]
  have getK : tabGet (tabMod t j h) k = tabGet t k := by rw [tabGet_tabMod, if_neg ne.symm]
  rw [tabMod, getJ, tabMod.eq_def (tabMod t j h), getK]
  cases hk : tabGet t k <;> cases hj : tabGet t j <;> simp [tabMod, hk, hj, tabPut_comm t ne]

end Tables

theorem State.modFib_modFibs (s : State) (gs : List Nat) (away : f ∉ gs) (g h : Fibre → Fibre) :
    (s.modFib f g).modFibs gs h = (s.modFibs gs h).modFib f g := by
  induction gs generalizing s with
  | nil => rfl
  | cons a q ih =>
    obtain ⟨ne, rest⟩ := not_or.1 fun e => away (List.mem_cons.2 e)
    have swap : (s.modFib f g).modFib a h = (s.modFib a h).modFib f g :=
      congrArg (fun F => { s with fibres := F }) (tabMod_comm s.fibres ne g h)
    show ((s.modFib f g).modFib a h).modFibs q h = _
    rw [swap]
    exact ih _ rest

/-- Changes of one set of fibres and of another, in either order. -/
theorem State.modFibs_modFibs (s : State) (fs gs : List Nat) (apart : ∀ f ∈ fs, f ∉ gs) (g h : Fibre → Fibre) :
    (s.modFibs fs g).modFibs gs h = (s.modFibs gs h).modFibs fs g := by
  induction fs generalizing s with
  | nil => rfl
  | cons a q ih =>
    show ((s.modFib a g).modFibs q g).modFibs gs h = ((s.modFibs gs h).modFib a g).modFibs q g
    rw [ih _ fun f hf => apart f (List.mem_cons_of_mem _ hf), s.modFib_modFibs gs (apart a List.mem_cons_self)]

/-- What a change keeps of every fibre, it keeps of each. -/
theorem State.modFibs_keeps {β : Type} (p : Fibre → β) {g : Fibre → Fibre} (keeps : ∀ x, p (g x) = p x) (s : State)
    (fs : List Nat) (f : Nat) : p ((s.modFibs fs g).fib f) = p (s.fib f) := by
  refine foldl_keeps (fun u => p (u.fib f) = p (s.fib f)) (fun u h => u.modFib h g) fs (fun u h _ same => ?_) s rfl
  rw [← same, State.modFib_fib, State.fib, tabGetD]
  split
  · cases tabGet u.fibres f with
    | none => rfl
    | some x => exact keeps x
  · rfl

/-! ### Issues of the flock that complete, and issues that stall (R22, R168) -/

/-- A change of acting fibres, where the other active lanes go on (R22). -/
theorem advanceLanes_modFibs (hI : Issuing s r) (g : Guard) {h : Fibre → Fibre} (acts : actors s r g = fs) :
    advanceLanes (s.modFibs fs h) r (r.lanes &&& ~~~guardMask s r g) =
      (advanceLanes s r (r.lanes &&& ~~~guardMask s r g)).modFibs fs h := by
  rw [advanceLanes, advanceLanes, State.modFibs_flk]
  refine s.modFibs_modFibs _ _ (fun f hf hg => ?_) _ _
  obtain ⟨l, hl, at_⟩ := mem_actors.1 (acts ▸ hf)
  obtain ⟨l', hl', at'⟩ := List.mem_filterMap.1 hg
  rw [Mask.mem_lanes_diff] at hl'
  obtain rfl := hI.lane_unique (guardMask_lanes s r g l hl) hl'.1 at_ at'
  exact hl'.2 hl

/-- An issue of the flock whose body succeeds, as `Flockwise` says it. -/
theorem perFlock_completes (hI : Issuing s r) (i : Instr) (body : State → Nat → List Nat → Res State)
    (acts : actors s r i.guard = f :: fs)
    (done : body (advanceLanes s r (r.lanes &&& ~~~guardMask s r i.guard)) f (f :: fs) = .ok u) :
    ∃ t, perFlock i s body = .next t ∧ Still u t ∧ (r.idx < r.hdr.count →
      (∀ h ∈ f :: fs, (tabGet u.fibres h).isSome → (t.fib h).pc = r.here + 8 ∧ (t.fib h).pck = .within) ∧
      (u.runs = s.runs → t.runs = r.onward :: s.runs.tail)) := by
  obtain ⟨rest, head⟩ := hI.head
  refine ⟨_, perFlock_eq hI i _ acts _ done, (Still.modFibs _ _ _ (advanceFibre_still r)).trans (settle_still _ _ _ _),
    fun more => ⟨fun h hh here => ?_, fun runs => ?_⟩⟩
  · rw [State.fib, (settle_masks s _ r _ 0 0).2 (.inr more)]
    exact modFibs_advance u _ h hh more here
  · rw [settle_onward s _ r r rest _ 0 ((State.modFibs_runs _ _ _).trans (runs.trans head)) rfl rfl more, head]
    rfl

/-- A lane that must wait stalls the issue. -/
theorem foldLanes_wait (s : State) (r : Run) (L : List Nat) (o : Outs)
    (acting : o.stalled = true ∨ ∃ l ∈ L, (r.fibre s l).isSome) : (foldLanes s r L (fun _ _ _ => .wait) o).stalled = true := by
  induction L generalizing o with
  | nil => exact acting.resolve_right fun ⟨_, h, _⟩ => nomatch h
  | cons l L ih =>
    rw [foldLanes, List.foldl_cons]
    refine ih _ ?_
    cases at_ : r.fibre s l with
    | none =>
      rw [show (s.flk r.flock).fibreAt l = none from at_]
      refine acting.imp_right ?_
      rintro ⟨l', hl', here⟩
      rcases List.mem_cons.1 hl' with rfl | hl'
      · rw [at_] at here; cases here
      · exact ⟨l', hl', here⟩
    | some f =>
      rw [show (s.flk r.flock).fibreAt l = some f from at_]
      refine .inl ?_
      dsimp only
      split
      · assumption
      · rfl

theorem settle_stalled (s : State) (r : Run) (ends : Bool) {o : Outs} (h : o.stalled = true) :
    settle s r ends o = stall s r := by
  simp only [settle, h, if_true, Bool.true_or]

/-- R168: an issue of the flock whose body must wait is retracted. -/
theorem perFlock_stalls (hI : Issuing s r) (i : Instr) (body : State → Nat → List Nat → Res State)
    (acts : actors s r i.guard = f :: fs)
    (waits : body (advanceLanes s r (r.lanes &&& ~~~guardMask s r i.guard)) f (f :: fs) = .wait) :
    perFlock i s body = .next (stall s r) := by
  obtain ⟨rest, head⟩ := hI.head
  have list : List.filterMap (s.flk r.flock).fibreAt (guardMask s r i.guard).lanes = f :: fs := acts
  obtain ⟨l, hl, at_⟩ := mem_actors.1 (acts ▸ List.mem_cons_self : f ∈ actors s r i.guard)
  simp only [perFlock, head, hI.actingMask, list, hI.openOuts, quiet, waits]
  refine congrArg _ (settle_stalled s r _ (foldLanes_wait s r _ _ (.inr ⟨l, hl, ?_⟩)))
  rw [at_]
  rfl

/-! ### Messages to other devices (R194, R244) -/

/-- Asking some device leaves a wait on the fibre, and messages. -/
theorem askDevices_eq (s : State) (f : Nat) {devs : List Nat} (asked : devs ≠ []) (msg : Nat → Nat → OutMsg) :
    ∃ dev out, askDevices s f devs none msg =
      { s.modFib f (fun x => { x with pending := x.pending ++ [(12, s.seq)] }) with
        dev := dev, outbox := out, seq := s.seq + 1 } := by
  have listed : devs.isEmpty = false := List.isEmpty_eq_false_iff.2 asked
  simp only [askDevices, listed, Bool.false_eq_true, if_false]
  exact foldl_keeps (fun u => ∃ dev out, u = { s.modFib f (fun x => { x with pending := x.pending ++ [(12, s.seq)] }) with
    dev := dev, outbox := out, seq := s.seq + 1 }) _ devs (by rintro u d - ⟨dev, out, rfl⟩; exact ⟨_, _, rfl⟩) _ ⟨_, _, rfl⟩

end Sys2Proof.Machine
end

section
/-! PROOFS. Translation maintenance: TLBI, TLBS and CANCELF, and what a TLBI leaves in the TLBs (R244 to R247). -/

namespace Sys2Proof.Machine

variable {s t u : State} {r : Run} {f : Nat} {fs : List Nat} {i : Bool → Instr}
  {arg : State → Nat → Res (Nat × Nat × DWord)} {val : State → Nat → Nat × Nat × DWord}

/-! ### A source that is a pair of lane registers (R18) -/

theorem src64_reg {j : Instr} {b : BitVec 8} (ready : RegsReady j (s.fib f)) (spans : (b.toNat, 2) ∈ laneSpans j) :
    src64 s f (.v b) = .ok (s.op64 (s.fib f) (.v b)) :=
  src64_ready ready (.v b) fun _ hq => List.mem_singleton.1 hq ▸ spans

/-! ### Operands over a change that leaves them alone -/

/-- What the operands of a fibre and the checks of a context read is the same. -/
structure SameReads (s t : State) (f : Nat) : Prop where
  teams : t.teams = s.teams
  flocks : t.flocks = s.flocks
  ctxs : t.ctxs = s.ctxs
  fibre : ((t.fib f).regs, (t.fib f).team, (t.fib f).loc) = ((s.fib f).regs, (s.fib f).team, (s.fib f).loc)

theorem SameReads.uniform (h : SameReads s t f) (n : BitVec 8) : t.uniform (t.fib f) n = s.uniform (s.fib f) n := by
  obtain ⟨teams, flocks, -, fibre⟩ := h
  simp only [Prod.mk.injEq] at fibre
  obtain ⟨-, team, loc⟩ := fibre
  rw [State.uniform, State.uniform, team, loc]
  simp only [State.tm, State.flk, teams, flocks]

theorem SameReads.reg (h : SameReads s t f) (n : Nat) : (t.fib f).reg n = (s.fib f).reg n := by
  rw [Fibre.reg, Fibre.reg, (Prod.mk.inj h.fibre).1]

theorem SameReads.op32 (h : SameReads s t f) (a : Src) : t.op32 (t.fib f) a = s.op32 (s.fib f) a := by
  cases a with
  | v n => exact h.reg _
  | s n => rw [State.op32, State.op32, h.uniform n]

theorem SameReads.op64 (h : SameReads s t f) (a : Src) : t.op64 (t.fib f) a = s.op64 (s.fib f) a := by
  cases a with
  | v n => rw [State.op64, State.op64, h.reg, h.reg]
  | s n => exact h.uniform n

theorem SameReads.ctxBad (h : SameReads s t f) (cx : Nat) : t.ctxBad cx = s.ctxBad cx := by
  have same : t.ctx cx = s.ctx cx := by rw [State.ctx, State.ctx, h.ctxs]
  rw [State.ctxBad, State.ctxBad, same]

/-- A change of fibres that keeps registers, team and place. -/
theorem SameReads.modFibs (s : State) (fs : List Nat) {g : Fibre → Fibre} (f : Nat)
    (keeps : ∀ x : Fibre, ((g x).regs, (g x).team, (g x).loc) = (x.regs, x.team, x.loc)) : SameReads s (s.modFibs fs g) f :=
  ⟨State.modFibs_teams .., State.modFibs_flocks .., State.modFibs_ctxs ..,
    State.modFibs_keeps (fun x => (x.regs, x.team, x.loc)) keeps s fs f⟩

/-! ### TLBI (R244, R245) -/

/-- The mark of a TLBI .sys that has asked, which its fibres hold over retractions. -/
def Fibre.asked (hb : Nat) (x : Fibre) : Fibre := { x with scStart := some hb }

/-- One kind of TLBI: `i` without and with `.sys`; `arg` reads KIND, context and address, which are `val`. -/
structure TlbiKind (i : Bool → Instr) (arg : State → Nat → Res (Nat × Nat × DWord)) (val : State → Nat → Nat × Nat × DWord) :
    Prop where
  exec_eq : ∀ sys s, exec (i sys) s = perFlock (i sys) (tlbiAsk s (i sys).guard sys arg) fun s1 f fs =>
    (arg s1 f).bind (tlbiAt s1 f fs)
  read : ∀ sys s f, RegsReady (i sys) (s.fib f) → arg s f = .ok (val s f)
  same : ∀ s t f, SameReads s t f → val t f = val s f

/-- R240: a TLBI of all contexts, or of one that is allocated. -/
def NamesContext (q : Nat × Nat × DWord) (s : State) : Prop := q.1 = 2 ∨ s.ctxBad q.2.1 = false

theorem tlbiOk_of {q : Nat × Nat × DWord} (h : NamesContext q s) : tlbiOk s q.1 q.2.1 = true := by
  rcases h with all | named
  · simp [tlbiOk, all]
  · simp [tlbiOk, named]

/-- The drain and the removal on this device, from `u`; the mark goes. -/
def RemovesHere (val : State → Nat → Nat × Nat × DWord) (s u : State) (f : Nat) (fs : List Nat) (v : State) : Prop :=
  ∃ z w, NamesContext (val s f) s ∧ (s.fib f).awaitsDevices = false ∧ drained u fs = .ok z ∧
    tlbiLocal z (val s f).1 (val s f).2.1 (val s f).2.2 = .ok w ∧ v = w.modFibs fs fun x => { x with scStart := none }

/-- The removal reads the same of a state whose fibre awaits and reads the same. -/
theorem TlbiKind.removes_of_same (K : TlbiKind i arg val) {v : State} (h : RemovesHere val s u f fs v) (reads : SameReads s t f)
    (awaits : (t.fib f).awaitsDevices = (s.fib f).awaitsDevices) : RemovesHere val t u f fs v := by
  obtain ⟨z, w, named, answered, drain, removal, done⟩ := h
  rw [← K.same s t f reads] at named removal
  exact ⟨z, w, named.imp_right (reads.ctxBad _).trans, awaits.trans answered, drain, removal, done⟩

theorem TlbiKind.removes_ok (K : TlbiKind i arg val) {sys : Bool} {v : State} (ready : RegsReady (i sys) (s.fib f))
    (h : RemovesHere val s s f fs v) : (arg s f).bind (tlbiAt s f fs) = .ok v := by
  obtain ⟨z, w, named, answered, drain, removal, rfl⟩ := h
  simp only [K.read sys s f ready, tlbiAt, tlbiOk_of named, answered, drain, removal, Res.bind_ok, Bool.not_true,
    Bool.false_eq_true, if_false]
  rfl

/-- The same of a state whose fibres bear the mark. -/
theorem TlbiKind.marked_ok (K : TlbiKind i arg val) {sys : Bool} {v : State} {hb : Nat} (ready : RegsReady (i sys) (s.fib f))
    (h : RemovesHere val s (s.modFibs fs (Fibre.asked hb)) f fs v) :
    (arg (s.modFibs fs (Fibre.asked hb)) f).bind (tlbiAt (s.modFibs fs (Fibre.asked hb)) f fs) = .ok v := by
  refine K.removes_ok (sys := sys) ?_ (K.removes_of_same h (SameReads.modFibs s fs f fun _ => rfl) ?_)
  · rwa [State.modFibs_keeps (RegsReady (i sys)) (g := Fibre.asked hb) fun _ => rfl]
  · exact State.modFibs_keeps Fibre.awaitsDevices (g := Fibre.asked hb) (fun _ => rfl) s fs f

/-- Without `.sys`, once asked, or where no lane acts, nobody is asked. -/
theorem tlbiAsk_silent (hI : Issuing s r) (g : Guard) {sys : Bool}
    (silent : ∀ f fs, actors s r g = f :: fs → sys = false ∨ (s.fib f).scStart.isSome) : tlbiAsk s g sys arg = s := by
  obtain ⟨rest, head⟩ := hI.head
  have acts : (actingMask s r g).lanes.filterMap (s.flk r.flock).fibreAt = actors s r g := by rw [hI.actingMask]; rfl
  unfold tlbiAsk
  simp only [head, acts]
  split
  · rfl
  · next f fs list =>
    rcases silent f fs list with rfl | asked
    · rfl
    · rw [if_pos (by simp [asked])]

/-- The first issue with `.sys` asks every device that it reaches, and marks its fibres. -/
theorem tlbiAsk_first (hI : Issuing s r) {g : Guard} {q : Nat × Nat × DWord} (acts : actors s r g = f :: fs)
    (first : (s.fib f).scStart = none) (read : arg s f = .ok q) (named : NamesContext q s) :
    tlbiAsk s g true arg = (askDevices s f (tlbiDevs s) none fun d tok => .tlbi d tok q.1 q.2.1 q.2.2).modFibs (f :: fs)
      (Fibre.asked s.dev.hb) := by
  obtain ⟨rest, head⟩ := hI.head
  have list : (actingMask s r g).lanes.filterMap (s.flk r.flock).fibreAt = f :: fs := by rw [hI.actingMask]; exact acts
  obtain ⟨kind, ctx, va⟩ := q
  have ok : tlbiOk s kind ctx = true := tlbiOk_of named
  simp only [tlbiAsk, head, list, first, read, ok, Bool.not_true, Option.isSome_none, Bool.or_false, Bool.false_eq_true, if_false]
  rfl

/-- The mark leaves what a word in issue looks at. -/
theorem Fibre.asked_steady (hb : Nat) (x : Fibre) : x.Steady (x.asked hb) := ⟨rfl, rfl, rfl, rfl, rfl, rfl, fun _ h => h⟩

theorem TlbiKind.plain (K : TlbiKind i arg val) : Flockwise (i false) fun s _ f fs v => RemovesHere val s s f fs v := by
  refine flockwise_where (i false) (fun _ s f fs => (arg s f).bind (tlbiAt s f fs)) _ (fun s r hI _ => ?_)
    fun s r cur f fs u regs done => K.removes_ok (regs f List.mem_cons_self) done
  rw [K.exec_eq, tlbiAsk_silent hI _ fun _ _ _ => .inl rfl]

theorem TlbiKind.again (K : TlbiKind i arg val) :
    Flockwise (i true) fun s _ f fs v => (s.fib f).scStart.isSome ∧ RemovesHere val s s f fs v := by
  refine flockwise_where (i true) (fun _ s f fs => (arg s f).bind (tlbiAt s f fs)) _ (fun s r hI acting => ?_)
    fun s r cur f fs u regs done => K.removes_ok (regs f List.mem_cons_self) done.2
  rw [K.exec_eq, tlbiAsk_silent hI _ fun f fs list => .inr ?_]
  obtain ⟨u, asked, -⟩ := acting f fs list
  rwa [actor_kept hI (list ▸ List.mem_cons_self)] at asked

/-- Lanes that go on leave what an acting fibre's operands read. -/
theorem advanceLanes_reads (hI : Issuing s r) {g : Guard} (acts : f ∈ actors s r g) :
    SameReads s (advanceLanes s r (r.lanes &&& ~~~guardMask s r g)) f := by
  have only := advanceLanes_fibres s r (r.lanes &&& ~~~guardMask s r g)
  exact ⟨by rw [only], by rw [only], by rw [only], by rw [actor_kept hI acts]⟩

/-- With no other device to ask, the first issue marks its fibres and removes at once. -/
theorem TlbiKind.alone (K : TlbiKind i arg val) : Flockwise (i true) fun s _ f fs v =>
    (s.fib f).scStart = none ∧ tlbiDevs s = [] ∧ RemovesHere val s (s.modFibs fs (Fibre.asked s.dev.hb)) f fs v := by
  intro s r hI
  refine ⟨fun f fs v acts regs done => ?acting, fun idle => ?idle⟩
  case idle =>
    rw [K.exec_eq, tlbiAsk_silent hI _ fun f fs list => by rw [idle] at list; cases list]
    exact perFlock_none hI _ _ idle
  case acting =>
    have lowest : f ∈ actors s r (i true).guard := acts ▸ List.mem_cons_self
    have dev : (advanceLanes s r (r.lanes &&& ~~~guardMask s r (i true).guard)).dev = s.dev := by rw [advanceLanes_fibres]
    have reads := advanceLanes_reads hI lowest
    have marked := advanceLanes_modFibs hI (i true).guard (h := Fibre.asked s.dev.hb) acts
    have steady := Steady.modFibs s (f :: fs) (Fibre.asked_steady s.dev.hb)
    obtain ⟨first, nobody, removes⟩ := done
    have named : NamesContext (val s f) s := by
      obtain ⟨_, _, named, -⟩ := removes
      rw [K.same s _ f reads] at named
      exact named.imp_right (reads.ctxBad _).symm.trans
    rw [actor_kept hI lowest] at first
    rw [tlbiDevs, dev] at nobody
    rw [dev] at removes
    have asks := tlbiAsk_first hI acts first (K.read true s f (regs f List.mem_cons_self)) named
    rw [show tlbiDevs s = [] from nobody] at asks
    have body := K.marked_ok (sys := true) (by rw [actor_kept hI lowest]; exact regs f List.mem_cons_self) removes
    rw [← marked, ← steady.guardMask hI] at body
    rw [K.exec_eq, asks]
    exact steady.runs ▸ perFlock_completes (steady.issuing hI) (i true) (fun s f fs => (arg s f).bind (tlbiAt s f fs))
      ((steady.actors hI _).trans acts) body

/-- What is left after a message to each device: marks and waits on the fibres. -/
theorem asked_steady (s : State) (f : Nat) (fs : List Nat) {devs : List Nat} (reached : devs ≠ []) (msg : Nat → Nat → OutMsg) :
    Steady s ((askDevices s f devs none msg).modFibs fs (Fibre.asked s.dev.hb)) := by
  obtain ⟨dev, out, eq⟩ := askDevices_eq s f reached msg
  have waits : Steady s (s.modFibs [f] fun x => { x with pending := x.pending ++ [(12, s.seq)] }) :=
    Steady.modFibs s [f] fun _ => ⟨rfl, rfl, rfl, rfl, rfl, rfl, fun _ h => h⟩
  have asks : Steady s (askDevices s f devs none msg) := eq ▸ waits.trans (.same rfl)
  exact asks.trans (Steady.modFibs _ fs (Fibre.asked_steady s.dev.hb))

theorem asked_reads (s : State) (f : Nat) (fs : List Nat) {devs : List Nat} (reached : devs ≠ []) (msg : Nat → Nat → OutMsg) :
    SameReads s ((askDevices s f devs none msg).modFibs fs (Fibre.asked s.dev.hb)) f := by
  obtain ⟨dev, out, eq⟩ := askDevices_eq s f reached msg
  have waits := SameReads.modFibs s [f] (g := fun x => { x with pending := x.pending ++ [(12, s.seq)] }) f fun _ => rfl
  have marks := SameReads.modFibs (askDevices s f devs none msg) fs (g := Fibre.asked s.dev.hb) f fun _ => rfl
  rw [eq] at marks ⊢
  exact ⟨marks.teams, marks.flocks, marks.ctxs, marks.fibre.trans waits.fibre⟩

theorem asked_awaits (fs : List Nat) {x : Fibre} (here : tabGet s.fibres f = some x) {devs : List Nat} (reached : devs ≠ [])
    (msg : Nat → Nat → OutMsg) :
    (((askDevices s f devs none msg).modFibs fs (Fibre.asked s.dev.hb)).fib f).awaitsDevices = true := by
  obtain ⟨dev, out, eq⟩ := askDevices_eq s f reached msg
  rw [State.modFibs_keeps Fibre.awaitsDevices (g := Fibre.asked s.dev.hb) (fun _ => rfl), eq,
    State.fib_eq _ f { x with pending := x.pending ++ [(12, s.seq)] }]
  · simp [Fibre.awaitsDevices]
  · show tabGet (tabMod s.fibres f _) f = _
    rw [tabGet_tabMod, if_pos rfl, here]
    rfl

/-- The first issue of a TLBI .sys asks the other devices and stalls. -/
theorem TlbiKind.asks (K : TlbiKind i arg val) (hW : Whole s r (i true).guard f fs) (ready : RegsReady (i true) (s.fib f))
    (first : (s.fib f).scStart = none) (reached : tlbiDevs s ≠ []) (named : NamesContext (val s f) s) :
    exec (i true) s = .next (stall ((askDevices s f (tlbiDevs s) none fun d tok =>
      .tlbi d tok (val s f).1 (val s f).2.1 (val s f).2.2).modFibs (f :: fs) (Fibre.asked s.dev.hb)) r) := by
  have steady := asked_steady s f (f :: fs) reached fun d tok => .tlbi d tok (val s f).1 (val s f).2.1 (val s f).2.2
  have reads := asked_reads s f (f :: fs) reached fun d tok => .tlbi d tok (val s f).1 (val s f).2.1 (val s f).2.2
  obtain ⟨l, hl, at_⟩ := actor_lane (hW.acts ▸ List.mem_cons_self : f ∈ actors s r (i true).guard)
  obtain ⟨x, here, -⟩ := hW.toIssuing.fibre_eq hl at_
  have awaits := asked_awaits (f :: fs) here reached fun d tok => .tlbi d tok (val s f).1 (val s f).2.1 (val s f).2.2
  have regs := (steady.fibre_of hW.toIssuing hl at_).1.ready ready
  have whole := steady.whole hW
  rw [K.exec_eq, tlbiAsk_first hW.toIssuing hW.acts first (K.read true s f ready) named]
  refine perFlock_stalls whole.toIssuing (i true) _ whole.acts ?_
  rw [whole.rest_empty, K.read true _ f regs, K.same s _ f reads]
  have ok := tlbiOk_of (named.imp_right (reads.ctxBad _).trans)
  simp only [Res.bind_ok, tlbiAt, ok, awaits, Bool.not_true, Bool.false_eq_true, if_false, if_true]

/-- The four ways of an issue: without `.sys`; with it, once asked, with nobody to ask, and asking. -/
theorem TlbiKind.removes (K : TlbiKind i arg val) :
    Flockwise (i false) (fun s _ f fs v => RemovesHere val s s f fs v) ∧
    Flockwise (i true) (fun s _ f fs v => (s.fib f).scStart.isSome ∧ RemovesHere val s s f fs v) ∧
    Flockwise (i true) (fun s _ f fs v => (s.fib f).scStart = none ∧ tlbiDevs s = [] ∧
      RemovesHere val s (s.modFibs fs (Fibre.asked s.dev.hb)) f fs v) ∧
    ∀ s r f fs, Whole s r (i true).guard f fs → (∀ h ∈ f :: fs, RegsReady (i true) (s.fib h)) → (s.fib f).scStart = none →
      tlbiDevs s ≠ [] → NamesContext (val s f) s →
      exec (i true) s = .next (stall ((askDevices s f (tlbiDevs s) none fun d tok =>
        .tlbi d tok (val s f).1 (val s f).2.1 (val s f).2.2).modFibs (f :: fs) (Fibre.asked s.dev.hb)) r) :=
  ⟨K.plain, K.again, K.alone, fun _ _ f _ hW ready => K.asks hW (ready f List.mem_cons_self)⟩

/-! ### The three kinds (R244) -/

theorem tlbiVa_kind (g : Guard) (a b : Src) : TlbiKind (fun sys => .tlbiVa g sys a b) (tlbiVaArg a b)
    (fun s f => (0, (s.op32 (s.fib f) b).toNat, s.op64 (s.fib f) a)) where
  exec_eq _ _ := rfl
  read sys s f ready := by
    rw [tlbiVaArg, src64_ready ready a (fun q hq => by simp [laneSpans, hq]), Res.bind_ok,
      src32_ready ready b (fun q hq => by simp [laneSpans, hq])]
    rfl
  same s t f reads := by rw [reads.op32, reads.op64]

theorem tlbiCtx_kind (g : Guard) (b : Src) : TlbiKind (fun sys => .tlbiCtx g sys b) (tlbiCtxArg b)
    (fun s f => (1, (s.op32 (s.fib f) b).toNat, 0)) where
  exec_eq _ _ := rfl
  read sys s f ready := by
    rw [tlbiCtxArg, src32_ready ready b (fun q hq => hq)]
    rfl
  same s t f reads := by rw [reads.op32]

theorem tlbiAll_kind (g : Guard) : TlbiKind (fun sys => .tlbiAll g sys) (fun _ _ => .ok (2, 0, 0)) (fun _ _ => (2, 0, 0)) where
  exec_eq _ _ := rfl
  read _ _ _ _ := rfl
  same _ _ _ _ := rfl

/-! ### TLBS (R246) -/

theorem tlbs_reports (g : Guard) (d : BitVec 8) (a b : Src) (walks : Bool) : EachLane (.tlbs g d a b walks) fun s _ f v =>
    ∃ w, s.ctxBad (s.op32 (s.fib f) b).toNat = false ∧
      searchTlb s f (s.op32 (s.fib f) b).toNat (s.op64 (s.fib f) a).toNat walks = .ok w ∧
      v = s.modFib f fun x => x.setPair d.toNat w := by
  refine lanewise_of _ (fun _ _ s f _ => (need64 (s.fib f) d).bind fun _ => ((src64 s f a).bind fun va => (src32 s f b).bind
    fun cx => if s.ctxBad cx.toNat then .bad (illegal 0x50) else searchTlb s f cx.toNat va.toNat walks).bind fun w =>
      .ok (.next, put64 s f d w)) _ (fun s => @rfl _ (execTlbs g d a b walks s)) ?_
  rintro s r _ cur l f how v - ready ⟨rfl, w, named, search, rfl⟩
  simp only [ready.pair (n := d) (by simp [laneSpans]), src64_ready ready a (fun q hq => by simp [laneSpans, hq]),
    src32_ready ready b (fun q hq => by simp [laneSpans, hq]), named, Bool.false_eq_true, if_false, search, Res.bind_ok]
  rfl

/-! ### CANCELF (R247) -/

/-- The pending records of a context that a test selects are cancelled, and D counts their fibres. -/
def Cancels (d : BitVec 8) (cx : Nat) (p : Nat → FaultRec → Bool) (s : State) (fs : List Nat) (v : State) : Prop :=
  s.ctxBad cx = false ∧
    let hit := s.faults.filter fun r => r.2.ctx = cx && !r.2.replaying && p r.1 r.2
    v = put32All ((hit.map fun r => r.1).foldl cancelRecord s) fs d (BitVec.ofNat 32 (hit.map fun r => r.2.fibres.length).sum)

theorem cancelFaults_ok {d : BitVec 8} {cx : Nat} {p : Nat → FaultRec → Bool} {v : State} (h : Cancels d cx p s fs v) :
    cancelFaults s fs d cx p = .ok v := by
  obtain ⟨named, rfl⟩ := h
  rw [cancelFaults, named]
  rfl

theorem cancelfCtx_cancels (g : Guard) (d a : BitVec 8) : Flockwise (.cancelfCtx g d a) fun s _ f fs v =>
    Cancels d ((s.fib f).reg a.toNat).toNat (fun _ _ => true) s fs v := by
  refine flockwise_ready _ _ _ (fun s => @rfl _ (execCancelfCtx g d a s)) ?_
  rintro s cur f fs v regs cancels
  simp only [needAll_word regs (d := d) (by simp [laneSpans]),
    src32_reg (regs f List.mem_cons_self) (b := a) (by simp [laneSpans]), Res.bind_ok]
  exact cancelFaults_ok cancels

theorem cancelfPage_cancels (g : Guard) (d a b : BitVec 8) : Flockwise (.cancelfPage g d a b) fun s _ f fs v =>
    Cancels d ((s.fib f).reg a.toNat).toNat (fun _ r => r.addr.toNat % 2 ^ 54 / 2 ^ 16 =
      (s.op64 (s.fib f) (.v b)).toNat / 2 ^ 16) s fs v := by
  refine flockwise_ready _ _ _ (fun s => @rfl _ (execCancelfPage g d a b s)) ?_
  rintro s cur f fs v regs cancels
  have lowest := regs f List.mem_cons_self
  simp only [needAll_word regs (d := d) (by simp [laneSpans]), src32_reg lowest (b := a) (by simp [laneSpans]),
    src64_reg lowest (b := b) (by simp [laneSpans]), Res.bind_ok]
  exact cancelFaults_ok cancels

theorem cancelfRec_cancels (g : Guard) (d a b : BitVec 8) : Flockwise (.cancelfRec g d a b) fun s _ f fs v =>
    Cancels d ((s.fib f).reg a.toNat).toNat (fun i _ => i = (s.op64 (s.fib f) (.v b)).toNat % 2 ^ 13) s fs v := by
  refine flockwise_ready _ _ _ (fun s => @rfl _ (execCancelfRec g d a b s)) ?_
  rintro s cur f fs v regs cancels
  have lowest := regs f List.mem_cons_self
  simp only [needAll_word regs (d := d) (by simp [laneSpans]), src32_reg lowest (b := a) (by simp [laneSpans]),
    src64_reg lowest (b := b) (by simp [laneSpans]), Res.bind_ok]
  exact cancelFaults_ok cancels

/-! ### What the TLBs hold afterwards (R245) -/

theorem dropTlb_core {p : TlbEntry → Bool} {c : Nat} :
    ((dropTlb s p).core c).tlb = (s.core c).tlb.filter (!p ·) ∧ ((dropTlb s p).core c).order = (s.core c).order := by
  have map := tabGet_map s.cores (fun _ x => { x with tlb := x.tlb.filter fun e => !p e }) c
  rw [State.core, State.core, tabGetD, tabGetD, show tabGet (dropTlb s p).cores c = _ from map]
  cases tabGet s.cores c <;> exact ⟨rfl, rfl⟩

theorem dropTlb_clus {p : TlbEntry → Bool} {c : Nat} : ((dropTlb s p).clus c).tlb = (s.clus c).tlb.filter (!p ·) := by
  have map := tabGet_map s.clusters (fun _ x => { x with tlb := x.tlb.filter fun e => !p e }) c
  rw [State.clus, State.clus, tabGetD, tabGetD, show tabGet (dropTlb s p).clusters c = _ from map]
  cases tabGet s.clusters c <;> rfl

/-- Nothing waits in a core order. -/
def NoOrder (s : State) : Prop := ∀ c, (s.core c).order = []

theorem noOrder_of (h : ∀ p ∈ s.cores, ∀ r ∈ p.2.order, False) : NoOrder s := by
  intro c
  rw [State.core, tabGetD]
  cases here : tabGet s.cores c with
  | none => rfl
  | some x => exact List.eq_nil_iff_forall_not_mem.2 fun r hr => h _ (mem_of_tabGet _ _ _ here) r hr

/-- The TLBs and the fault records are the same, and no store waits in a core order. -/
def SameTlbs (s t : State) : Prop :=
  NoOrder t ∧ (∀ c, (t.core c).tlb = (s.core c).tlb) ∧ t.clusters = s.clusters ∧ t.faults = s.faults

/-- A core without stores on their way has nothing to perform. -/
theorem performCore_idle (idle : NoOrder t) (core : Nat) : SameTlbs t (performCore t core) := by
  have done : performCore t core = t.modCore core fun c => { c with order := [] } := by
    rw [performCore, idle core]
    rfl
  rw [done]
  refine ⟨fun c => ?_, fun c => ?_, rfl, rfl⟩
  · rw [State.modCore_core]
    split
    · rfl
    · exact idle c
  · rw [State.modCore_core]
    split
    · next same => rw [same]
    · rfl

theorem SameTlbs.trans (h : SameTlbs s t) (h' : SameTlbs t u) : SameTlbs s u := by
  obtain ⟨-, cores, clusters, faults⟩ := h
  obtain ⟨idle, cores', clusters', faults'⟩ := h'
  exact ⟨idle, fun c => (cores' c).trans (cores c), clusters'.trans clusters, faults'.trans faults⟩

/-- Where no store waits, settling a context leaves the TLBs. -/
theorem settleContext_idle {p : Nat → Bool} (queues : ∀ q ∈ s.fibres, q.2.queue = []) (idle : NoOrder s)
    (h : settleContext s p = .ok t) : SameTlbs s t := by
  have empty : (s.fibres.filter fun x => p (s.tm x.2.team).ctx && !x.2.queue.isEmpty) = [] :=
    List.filter_eq_nil_iff.2 fun q hq => by simp [queues q hq]
  obtain ⟨u, settled, done⟩ := Res.bind_eq_ok h
  cases done
  simp only [empty]
  exact foldl_keeps (SameTlbs s) performCore _ (fun u c _ same => same.trans (performCore_idle same.1 c)) s
    ⟨idle, fun _ => rfl, rfl, rfl⟩

/-- No entry that a TLBI names stays, where no store and no fault record waits. -/
theorem tlbiLocal_drops {kind ctx c : Nat} {va : DWord} {e : TlbEntry} (h : tlbiLocal s kind ctx va = .ok t)
    (faults : s.faults = []) (orders : ∀ p ∈ s.cores, ∀ r ∈ p.2.order, False) (queues : ∀ p ∈ s.fibres, p.2.queue = [])
    (held : e ∈ (t.core c).tlb ∨ e ∈ (t.clus c).tlb) : tlbiHits kind ctx va.toNat e = false := by
  obtain ⟨u, settled, done⟩ := Res.bind_eq_ok h
  have idle : NoOrder (dropTlb s (tlbiHits kind ctx va.toNat)) := fun c => dropTlb_core.2.trans (noOrder_of orders c)
  obtain ⟨-, cores, clusters, records⟩ := settleContext_idle (s := dropTlb s _) queues idle settled
  have quiet : rewalkAll u (tlbiRecord kind ctx va.toNat) = u := by
    rw [rewalkAll, records.trans faults]
    rfl
  obtain rfl : u = t := quiet.symm.trans (Res.ok.inj done)
  rcases held with held | held
  · rw [cores, dropTlb_core.1] at held
    simpa using (List.mem_filter.1 held).2
  · rw [State.clus, clusters] at held
    rw [← State.clus, dropTlb_clus] at held
    simpa using (List.mem_filter.1 held).2

/-- Settles O41: TLBI of the three kinds by the one argument for a kind; TLBS and CANCELF by their checks; what stays in the
TLBs is what the removal keeps. -/
theorem translations : Obligations.Translations := by
  refine ⟨fun g walks d a b ra rb => ⟨(tlbiVa_kind g a b).removes, (tlbiCtx_kind g b).removes, (tlbiAll_kind g).removes,
    tlbs_reports g d a b walks, cancelfCtx_cancels g d ra, cancelfPage_cancels g d ra rb, cancelfRec_cancels g d ra rb⟩, ?stays⟩
  case stays =>
    intro s t kind ctx va c e removal kinds faults orders queues held
    have kept := tlbiLocal_drops removal faults orders queues held
    rcases kinds with rfl | rfl
    · exact ⟨rfl, by simpa [tlbiHits] using kept⟩
    · simp [tlbiHits] at kept

end Sys2Proof.Machine
end

section
/-! PROOFS. Register windows: WINRD and WINWR, and the three control actions (R254, R255). -/

namespace Sys2Proof.Machine

variable {s : State}

/-! ### Items (R254) -/

theorem winrd_reads (g : Guard) (d a c : BitVec 8) : EachLane (.winrd g d a c) fun s _ f v => ∃ key w sel p,
    winKnown c.toNat = true ∧ c.toNat ≠ 0x0F ∧ openedWindow s f ((s.fib f).reg a.toNat) = .ok (key, w, sel) ∧
    winPlace s w c.toNat sel = .ok p ∧
    v = s.modFib f fun x => x.setWide (winWide c.toNat) d (winItem s w c.toNat sel p) := by
  refine lanewise_of _ _ _ (fun s => @rfl _ (execWinrd g d a c s)) ?_
  rintro s r _ cur l f how v - ready ⟨rfl, key, w, sel, p, known, control, opened, place, rfl⟩
  have selector := src32_reg ready (b := a) (by simp [laneSpans])
  have item : ¬ (!winKnown c.toNat || c.toNat = 0x0F) = true := by simp [known, control]
  rw [if_neg item]
  cases wide : winWide c.toNat with
  | true =>
    simp only [ready.pair (n := d) (by simp [laneSpans, wideCount, wide]), selector, opened, place, Res.bind_ok, if_true]
    rfl
  | false =>
    simp only [ready.word (n := d) (by simp [laneSpans, wideCount, wide]), selector, opened, place, Res.bind_ok,
      Bool.false_eq_true, if_false]
    rfl

/-- The value that WINWR takes from the register or pair that D names. -/
def winValue (s : State) (f : Nat) (d c : BitVec 8) : DWord :=
  if winWide c.toNat then s.op64 (s.fib f) (.v d) else ((s.fib f).reg d.toNat).setWidth 64

theorem winValue_ready {g : Guard} {d a c : BitVec 8} {f : Nat} (ready : RegsReady (.winwr g d a c) (s.fib f)) :
    (if winWide c.toNat then src64 s f (.v d) else (src32 s f (.v d)).map fun v => v.setWidth 64) =
      .ok (winValue s f d c) := by
  cases wide : winWide c.toNat with
  | true =>
    rw [if_pos rfl, winValue, if_pos wide]
    exact src64_reg ready (by simp [laneSpans, wideCount, wide])
  | false =>
    rw [if_neg (by decide), winValue, if_neg (by simp [wide]), src32_reg ready (by simp [laneSpans, wideCount, wide])]
    rfl

/-- Item classes that may be written are listed. -/
theorem winKnown_of_writable {c : Nat} (h : winWritable c = true) : winKnown c = true := by
  simp only [winWritable, List.contains_cons, List.contains_nil, Bool.or_false, Bool.or_eq_true, beq_iff_eq] at h
  simp only [winKnown, Bool.or_eq_true, decide_eq_true_eq]
  omega

theorem winwr_writes (g : Guard) (d a c : BitVec 8) : EachLane (.winwr g d a c) fun s _ f v => ∃ key w sel p,
    winWritable c.toNat = true ∧ openedWindow s f ((s.fib f).reg a.toNat) = .ok (key, w, sel) ∧
    winPlace s w c.toNat sel = .ok p ∧ winRange s w c.toNat (winValue s f d c) = false ∧
    ∃ u, drained s [f] = .ok u ∧ v = putItem u key w c.toNat sel p (winValue s f d c) := by
  refine lanewise_of _ _ _ (fun s => @rfl _ (execWinwr g d a c s)) ?_
  rintro s r _ cur l f how v - ready ⟨rfl, key, w, sel, p, writable, opened, place, range, u, drain, rfl⟩
  have selector := src32_reg ready (b := a) (by simp [laneSpans])
  simp only [winKnown_of_writable writable, winValue_ready ready, selector, opened, place, writable, range, drain, Res.bind_ok,
    Bool.not_true, Bool.false_eq_true, if_false]
  rfl

/-! ### Control actions (R255) -/

/-- A flock keeps its team over a change that keeps it. -/
theorem State.modFlk_team (s : State) (k : Nat) {g : Flock → Flock} (keeps : ∀ fl, (g fl).team = fl.team) :
    ((s.modFlk k g).flk k).team = (s.flk k).team := by
  cases here : tabGet s.flocks k with
  | none => simp only [State.modFlk, tabMod, here]
  | some fl => simp [State.modFlk, State.flk, tabGetD, here, keeps]

/-- The flock of a window that closes, and issues again. -/
def freedFlock (s : State) (k : Nat) : State :=
  s.modFlk k fun fl => { fl with stopped := false, kept := false, asleep := false, since := some s.seq }

/-- R303: a flock ends with its stop where its team has been terminated meanwhile. -/
theorem endStop_eq (s : State) (k : Nat) : endStop s k = if (s.tm (s.flk k).team).status.isSome then
    endFlocks (freedFlock s k) (s.flk k).team (·.stopped) else freedFlock s k := by
  have team : ((freedFlock s k).flk k).team = (s.flk k).team := s.modFlk_team k fun _ => rfl
  rw [← team]
  rfl

/-- Settles O44: reads and writes of an item by their checks, and the control actions by the window that they close. -/
theorem registerWindows : Obligations.RegisterWindows := by
  refine fun g d a c => ⟨winrd_reads g d a c, winwr_writes g d a c, fun s sh k code w opened => ?actions⟩
  have resumes : exec (.winwrResume sh k) s = .next (endStop (closeWindow s (sh * 16 + k)) w.flock) := by
    show Host.Outcome.next (resumeWindow s (sh * 16 + k)) = _
    rw [resumeWindow, opened]
  have status : ((closeWindow s (sh * 16 + k)).tm ((closeWindow s (sh * 16 + k)).flk w.flock).team).status =
    (s.tm (s.flk w.flock).team).status := rfl
  refine ⟨fun running => ?_, fun st ended => ?_, ?_, ?_⟩
  · rw [resumes, endStop_eq, status, running]
    rfl
  · rw [resumes, endStop_eq, status, ended]
    rfl
  · show Host.Outcome.next (terminateWindow s (sh * 16 + k) code) = _
    rw [terminateWindow, opened]
    rfl
  · show Host.Outcome.next (keepWindow s (sh * 16 + k)) = _
    rw [keepWindow, opened]
    rfl

end Sys2Proof.Machine
end

section
/-! PROOFS. The life of a context (R393 to R395), its grants of chip scratchpad (R318, R319), pre-emption (R401 to R403) and the
segment cache (R325). -/

namespace Sys2Proof.Machine

variable {s u v : State} {ctx team core die : Nat} {tm : Team} {w : Waiting}

/-! ### Residence (R393, R394) -/

/-- R393: an identifier that starts resident is set once, its registers at their reset values. -/
theorem becomeResident_setCtx (s : State) (ctx : Nat) (x : Ctx) (g : Device → Device) :
    becomeResident ((s.setCtx ctx x).modDev g) ctx =
      { (s.modDev g).setCtx ctx { x with st := .resident, lastResident := s.seq } with seq := s.seq + 1 } := by
  simp [becomeResident, State.modCtx, State.setCtx, State.modDev, State.ctx, tabGetD, tabPut_tabPut]

theorem contextAllocation_allocates (inRange : ctx < 4096) (on : s.dev.computeOn = true) (free : (s.ctx ctx).st = .free)
    (place : makePlace s = some u) : exec (.contextAllocation ctx) s = .next
      { (u.modDev fun d => { d with tornAt := d.tornAt.filter fun p => p.2 ≠ ctx }).setCtx ctx
          { Ctx.reset with st := .resident, lastResident := u.seq } with seq := u.seq + 1 } := by
  show Host.Outcome.next (if _ then s else _) = _
  rw [if_neg (by simp [inRange, on, free]), place]
  exact congrArg Host.Outcome.next (becomeResident_setCtx u ctx Ctx.reset _)

theorem contextSwapOut_swaps {g : List Nat} (quiet : idle s ctx = true)
    (room : takeSegs (flushChip s ctx) ctx (((s.ctx ctx).chipBytes + 959) / 960) = some (g, u)) :
    exec (.contextSwapOut ctx) s = .next ((dropTlb (saveChip u ctx g) fun e => e.ctx = ctx).modCtx ctx fun c =>
      { c with st := .swapped, swapSegs := g }) := by
  show Host.Outcome.next (if _ then _ else s) = _
  rw [if_pos quiet, swapOut, ceilDiv, Nat.add_sub_assoc (by omega), room]
  rfl

theorem contextSwapIn_returns (swapped : (s.ctx ctx).st = .swapped) (place : makePlace s = some u)
    (first : waysHeld u 0 + (s.ctx ctx).chip.getD 0 0 ≤ 4) (second : waysHeld u 1 + (s.ctx ctx).chip.getD 1 0 ≤ 4) :
    exec (.contextSwapIn ctx) s = .next (loadChip (becomeResident u ctx) ctx) := by
  show Host.Outcome.next (if _ then s else _) = _
  rw [if_neg (by simp [swapped]), place]
  exact congrArg Host.Outcome.next (if_pos (by simpa using ⟨first, second⟩))

theorem contextSuspend_asks (resident : (s.ctx ctx).st = .resident) : exec (.contextSuspend ctx) s =
    .next (askToLeave (s.modCtx ctx fun c => { c with st := .suspended }) (ctxTeams s ctx)) :=
  congrArg Host.Outcome.next (if_neg (by simp [resident]))

theorem contextResume_keeps (suspended : (s.ctx ctx).st = .suspended) (place : makePlace s = some u) :
    exec (.contextResume ctx) s = .next ((ctxTeams s ctx).foldl (fun s t => s.modTm t fun x => { x with leaving := false })
      (becomeResident u ctx)) := by
  show Host.Outcome.next (if _ then s else _) = _
  rw [if_neg (by simp [suspended]), place]

/-! ### Teardown (R395) -/

theorem contextTeardown_starts (held : (s.ctx ctx).st ≠ .free) (whole : (s.ctx ctx).st ≠ .torn) :
    exec (.contextTeardown ctx) s =
      .next (askToLeave (s.modCtx ctx fun c => { c with st := .torn }) (ctxTeams s ctx)) := by
  show Host.Outcome.next (if _ then s else if _ then _ else _) = _
  rw [if_neg held, if_pos whole]

theorem contextTeardown_ends (torn : (s.ctx ctx).st = .torn) (ready : (ctxTeams s ctx).all (canLeave s) = true)
    (done : tearDown s ctx true = some u) : exec (.contextTeardown ctx) s = .next u := by
  show Host.Outcome.next (if _ then s else if _ then _ else if _ then _ else s) = _
  rw [if_neg (by simp [torn]), if_neg (by simp [torn]), if_pos ready, done]
  rfl

/-! ### Pre-emption (R401 to R403) -/

/-- R401: the teams that would have to leave each cluster for a waiting entry to fit there, once those already asked have left. -/
def leavingWays (s : State) (w : Waiting) : List (List Nat) :=
  [(0, 0), (0, 1), (0, 2), (1, 0), (1, 1), (1, 2)].filterMap fun d =>
    leavingPrefix (((s.teams.filter fun t => t.2.leaving).map (·.1)).foldl without s) w d.1 d.2

/-- R401: one way is drawn where a cluster can be made free and none comes free by itself. -/
theorem preempt_asks (first : firstWaiting s = some w) (possible : leavingWays s w ≠ []) (needed : [] ∉ leavingWays s w) :
    exec .preempt s = .next (askToLeave (s.pick (leavingWays s w).length).2
      ((leavingWays s w).getD (s.pick (leavingWays s w).length).1 [])) := by
  have asks : ¬ ((leavingWays s w).isEmpty || (leavingWays s w).any List.isEmpty) = true := by
    simp [possible, needed]
  show execPreempt s = _
  rw [execPreempt, first]
  exact congrArg Host.Outcome.next (if_neg asks)

theorem vacateCore_leaves (entry : tabGet s.teams team = some tm) (asked : tm.leaving = true) (onCores : tm.vacated = false)
    (ready : canLeave s team = true) (settled : settleTeam s team = some u) :
    exec (.vacateCore team) s = .next (vacateTeam u team) := by
  show execVacateCore team s = _
  simp [execVacateCore, entry, asked, onCores, ready, settled]

theorem teamRestore_restores (first : firstWaiting s = some w) (turn : w.team = some team)
    (way : (restores s team [0, 1, 2]).length ≠ 0)
    (chosen : (restores (s.pick (restores s team [0, 1, 2]).length).2 team [0, 1, 2])[(s.pick
      (restores s team [0, 1, 2]).length).1]? = some v) : exec (.teamRestore team) s = .next v := by
  show execTeamRestore team s = _
  simp [execTeamRestore, first, turn, way, chosen]

/-! ### Chip scratchpad (R318, R319) -/

theorem chipScratchpadConvert_grants (onDie : die < 2) (resident : (s.ctx ctx).st = .resident) (room : waysHeld s die < 4) :
    exec (.chipScratchpadConvert die ctx true) s =
      .next ((s.zero (chipKey die ctx ((s.ctx ctx).chip.getD die 0 * wayBytes)) wayBytes).modCtx ctx
        fun x => { x with chip := setAt x.chip die ((s.ctx ctx).chip.getD die 0 + 1) }) := by
  show Host.Outcome.next (if _ then s else if true then if _ then s else _ else _) = _
  rw [if_neg (by simp [onDie, resident]), if_pos rfl, if_neg (by omega)]

theorem chipScratchpadConvert_returns (onDie : die < 2) (resident : (s.ctx ctx).st = .resident)
    (held : (s.ctx ctx).chip.getD die 0 ≠ 0) : exec (.chipScratchpadConvert die ctx false) s =
      .next (((flushChip s ctx).zero (chipKey die ctx (((s.ctx ctx).chip.getD die 0 - 1) * wayBytes)) wayBytes).modCtx ctx
        fun x => { x with chip := setAt x.chip die ((s.ctx ctx).chip.getD die 0 - 1) }) := by
  show Host.Outcome.next (if _ then s else if false then _ else if _ then s else _) = _
  rw [if_neg (by simp [onDie, resident]), if_neg (by simp), if_neg held]

/-! ### The segment cache (R325) -/

theorem segmentCacheEvict_evicts (full : 512 ≤ (s.core core).segs.length) : exec (.segmentCacheEvict core) s =
    .next (s.modCore core fun c => { c with segs := c.segs.dropLast }) :=
  congrArg Host.Outcome.next (if_neg (by omega))

/-- Settles O51: each step by the lemma that says what it does once its conditions hold. -/
theorem contextEvents : Obligations.ContextEvents := by
  intro s ctx team core die
  exact ⟨fun _ => contextAllocation_allocates, fun _ _ => contextSwapOut_swaps, fun _ => contextSwapIn_returns,
    contextSuspend_asks, fun _ => contextResume_keeps, contextTeardown_starts, fun _ => contextTeardown_ends,
    fun _ => preempt_asks, fun _ _ => vacateCore_leaves, fun _ _ => teamRestore_restores, chipScratchpadConvert_grants,
    chipScratchpadConvert_returns, segmentCacheEvict_evicts⟩

end Sys2Proof.Machine
end

section
/-! PROOFS. Queues (R377 to R380), the entries that leave them as launches or service requests (R381, R383, R384), dependences
(R387), copies of a packet (R389) and completion words (R397). -/

namespace Sys2Proof.Machine

variable {s u v : State} {drover key dbi launch src queue ctx k n : Nat} {q : QueueDesc} {x : Queue} {e b : List Byte} {l : Launch}

/-! ### Queues (R377 to R380) -/

theorem queueInstall_waits (early : s.dev.booted < 4) : exec (.queueInstall drover q) s = .next s :=
  congrArg Host.Outcome.next (if_pos early)

theorem queueInstall_refuses (booted : 4 ≤ s.dev.booted) (bad : installable s drover q = false) :
    exec (.queueInstall drover q) s = .next (s.send (.sideband 0x78 (bytesOfNat 8 q.base.toNat))) := by
  show Host.Outcome.next (if _ then s else if _ then _ else _) = _
  rw [if_neg (by omega), if_pos (by simp [bad])]

/-- R377: what is installed takes the place of a queue of the same context and base. -/
theorem queueInstall_installs (booted : 4 ≤ s.dev.booted) (good : installable s drover q = true) :
    let rest := s.queues.filter fun p => !(p.2.desc.ctx = q.ctx && p.2.desc.base = q.base)
    let n := droverNum s q.ctx q.head.toNat
    exec (.queueInstall drover q) s =
      .next { s with queues := tabPut rest (tabFresh rest 0) ⟨drover, q, n, n, false, none⟩ } := by
  show Host.Outcome.next (if _ then s else if _ then _ else _) = _
  rw [if_neg (by omega), if_neg (by simp [good])]

theorem doorbell_reads (up : s.portUp = true) (running : s.dev.inReset = false) : exec (.doorbell dbi) s =
    .next ((s.queueKeys fun x => dbi < 768 && decide (x.desc.dbi = dbi)).foldl readTail s) :=
  congrArg Host.Outcome.next (if_neg (by simp [up, running]))

theorem doorbell_ignored (quiet : s.portUp = false ∨ s.dev.inReset = true) : exec (.doorbell dbi) s = .next s :=
  congrArg Host.Outcome.next (if_pos (by simpa using quiet))

theorem tailInvalidate_reads {w : Nat} (cxl : s.dev.host = some (.cxl, w)) :
    exec (.tailInvalidate key) s = .next (readTail s key) := by
  show execTailInvalidate key s = _
  rw [execTailInvalidate, cxl]

/-- R379, R380: a queue that runs takes the TAIL that its drover reads, and stops where it lies too far ahead. -/
theorem readTail_of_read {bytes : List Byte} (installed : tabGet s.queues key = some x) (runs : x.stopped = false)
    (alive : s.droverAlive x.drover = true)
    (read : droverRead s x.desc.ctx 1 noLaunch x.desc.tail.toNat 8 = .ok (bytes, u)) :
    readTail s key = overflowStop (u.modQueue key fun _ => { x with tail := natOfBytes bytes }) key
      { x with tail := natOfBytes bytes } := by
  simp [readTail, installed, runs, alive, read]

/-! ### Entries (R381, R383, R384) -/

theorem packetRead_takes (installed : tabGet s.queues key = some x) (kind : x.desc.kind ≠ 2)
    (taken : takeEntry s key x = some (e, u)) (type : pkNum e 0 1 ≠ 2)
    (packet : takePacket u x.desc.ctx e (some key) (some x.desc.kind) s.dev.devid key = some (n, v)) :
    exec (.packetRead key) s = .next v := by
  show execPacketRead key s = _
  simp [execPacketRead, installed, kind, taken, type, packet]

/-- R346: a service request spans no devices. -/
theorem addLaunch_request (request : pkNum l.bytes 0 1 = 2) :
    s.addLaunch k l = { s with launches := tabPut s.launches k l, seq := s.seq + 1 } :=
  if_neg (by simp [request])

theorem packetRead_keepsRequest (installed : tabGet s.queues key = some x) (kind : x.desc.kind ≠ 2)
    (taken : takeEntry s key x = some (e, u)) (request : pkNum e 0 1 = 2) :
    let k := tabFresh u.launches 0
    exec (.packetRead key) s = .next ({ u with
      launches := tabPut u.launches k (newLaunch u x.desc.ctx e (some key) s.dev.devid key), seq := u.seq + 1 }.modQueue key
        fun y => { y with entry := some k }) := by
  show execPacketRead key s = _
  simp [execPacketRead, installed, kind, taken, request, addLaunch_request (l := newLaunch _ _ e _ _ _) request]

section Requests

variable (installed : tabGet s.queues key = some x) (waiting : x.entry = some k) (kept : tabGet s.launches k = some l)
  (request : pkNum l.bytes 0 1 = 2)

include installed waiting kept request

theorem serviceRequestPacket_posts (sound : requestReason s l.ctx k l.bytes = 0) (room : (s.ctx l.ctx).svcQ.length < 1024) :
    exec (.serviceRequestPacket key) s = .next ((acceptEntry (s.delLaunch k) (some key)).modCtx l.ctx fun c => { c with
      svcQ := c.svcQ ++ [⟨l.ctx, 0xFFFFFFFF, 0xFFFFFFFF, BitVec.ofNat 64 (pkNum l.bytes 8 8), pkNum l.bytes 0x10 2⟩] }) := by
  show execServiceRequestPacket key s = _
  simp [execServiceRequestPacket, installed, waiting, kept, request, sound, room, dword]

theorem serviceRequestPacket_refuses (bad : requestReason s l.ctx k l.bytes ≠ 0) :
    exec (.serviceRequestPacket key) s =
      .next ((acceptEntry (s.delLaunch k) (some key)).logError 7 0 5 (pkNum l.bytes 8 8)) := by
  show execServiceRequestPacket key s = _
  simp [execServiceRequestPacket, installed, waiting, kept, request, bad]

end Requests

/-! ### Dependences (R387, R389) -/

section Dependences

variable (entry : tabGet s.launches launch = some l) (waits : l.ph = .deps) (packet : pkNum l.bytes 0 1 = 1)

include entry waits packet

theorem checkDeps_unmet (short : (metNow s launch l).length < 4) :
    checkDeps s launch = s.modLaunch launch fun x => { x with metDeps := metNow s launch l } := by
  simp [checkDeps, entry, waits, packet, short]

/-- R389: the origin sends copies to the other devices, and notes when, once every dependence is met. -/
theorem checkDeps_met {others : List Nat} (met : (metNow s launch l).length = 4) (home : l.origin = s.dev.devid)
    (named : ((pkDevs l.bytes).filter fun d => d ≠ s.dev.devid) = others) :
    checkDeps s launch = (others.foldl (fun s d => s.send (.packet d l.ctx l.originQueue l.bytes)) s).modLaunch launch
      fun x => { x with metDeps := metNow s launch l, ph := .admitting, waiting := localTeams s.dev.devid l.bytes,
                        replicated := if others.isEmpty then none else some s.dev.hb } := by
  subst named
  simp [checkDeps, entry, waits, packet, met, home]

end Dependences

/-! ### Copies of a packet (R389) and completion words (R397) -/

theorem launchReplicate_takes (taken : takePacket s ctx b none none src queue = some (0, u)) :
    exec (.launchReplicate ⟨src, queue⟩ ctx b) s = .next u := by
  show execLaunchReplicate ⟨src, queue⟩ ctx b s = _
  simp [execLaunchReplicate, taken]

theorem launchReplicate_rejects (taken : takePacket s ctx b none none src queue = some (n, u)) (rejected : n ≠ 0) :
    exec (.launchReplicate ⟨src, queue⟩ ctx b) s = .next (u.send (.reject src queue (BitVec.ofNat 32 (pkNum b 4 4)))) := by
  obtain ⟨reason, rfl⟩ := Nat.exists_eq_succ_of_ne_zero rejected
  show execLaunchReplicate ⟨src, queue⟩ ctx b s = _
  simp [execLaunchReplicate, taken, word]

/-- R397: word 0 is the status and word 1 carries the packet's generation; what waits for either is read again. -/
theorem writeCompletion_writes {st : Nat}
    (status : droverWrite s ctx (pkLevel b) launch (pkNum b 0x50 8) (bytesOfNat 8 st) = .ok u)
    (done : droverWrite u ctx (pkLevel b) launch (pkNum b 0x50 8 + 8) (bytesOfNat 8 (2 ^ 63 + pkNum b 4 4)) = .ok v)
    (fits : st < 2 ^ 64) :
    writeCompletion s ctx launch (some key) b (BitVec.ofNat 64 st) = some (afterCompletion v launch (some key) b) := by
  rw [writeCompletion, BitVec.toNat_ofNat, Nat.mod_eq_of_lt fits, status, Res.bind_ok, done, Res.orKeep]

/-- Settles O49: each step by the lemma that says what it does once its conditions hold. -/
theorem queueEvents : Obligations.QueueEvents := by
  intro s drover key dbi launch src queue ctx q b
  refine ⟨queueInstall_waits, queueInstall_refuses, fun booted good => ?installed, doorbell_reads, doorbell_ignored,
    fun _ => tailInvalidate_reads, rfl, fun _ _ _ => readTail_of_read, fun _ _ _ _ _ => packetRead_takes,
    fun _ _ _ => packetRead_keepsRequest,
    fun _ _ _ installed waiting kept request => ⟨serviceRequestPacket_posts installed waiting kept request,
      serviceRequestPacket_refuses installed waiting kept request⟩,
    fun _ entry waits packet short => congrArg Host.Outcome.next (checkDeps_unmet entry waits packet short),
    fun l entry waits packet met home devs => ?alone, fun l d entry waits packet met home other devs => ?copied,
    fun _ => launchReplicate_takes, fun _ _ => launchReplicate_rejects, fun _ _ _ => writeCompletion_writes⟩
  case installed => exact ⟨_, _, queueInstall_installs booted good, (tabGet_tabPut _ _ _ _).trans (if_pos rfl), rfl, rfl⟩
  case alone =>
    have named : ((pkDevs l.bytes).filter fun d => d ≠ s.dev.devid) = [] := by simp [devs]
    exact congrArg Host.Outcome.next (checkDeps_met entry waits packet met home named)
  case copied =>
    have named : ((pkDevs l.bytes).filter fun d => d ≠ s.dev.devid) = [d] := by simp [devs, other]
    exact congrArg Host.Outcome.next (checkDeps_met entry waits packet met home named)

end Sys2Proof.Machine
end

section
/-! PROOFS. Admission (R388, R396), the start barrier (R390), the end of teams and of launches (R397), and method tables (R399). -/

namespace Sys2Proof.Machine

variable {s u v : State} {dev queue launch team key : Nat} {gen : Word} {l : Launch} {w : Waiting} {tm : Team} {st : DWord}

/-! ### Admission (R388, R396) -/

theorem admitTeam_admits (first : firstWaiting s = some w) (fresh : w.team = none)
    (entry : tabGet s.launches w.launch = some l) (placed : admitFirst s w.launch l = some u) :
    exec .admitTeam s = .next (armLaunch u w.launch) := by
  show execAdmitTeam s = _
  simp [execAdmitTeam, first, fresh, entry, placed]

/-! ### The start barrier (R390) -/

section Origin

variable (named : launchOf s s.dev.devid queue gen (fun l => l.undecided && (pkDevs l.bytes).contains dev) = some (key, l))

include named

theorem armedMessage_counts : exec (.armedMessage ⟨dev, queue⟩ gen) s = .next (tryGo (s.modLaunch key fun x =>
    { x with armed := if x.armed.contains dev then x.armed else x.armed ++ [dev] }) key) := by
  show execArmedMessage ⟨dev, queue⟩ gen s = _
  rw [execArmedMessage, named]

theorem rejectMessage_aborts : exec (.rejectMessage ⟨dev, queue⟩ gen) s = .next (abortAll s key) := by
  show execRejectMessage ⟨dev, queue⟩ gen s = _
  rw [execRejectMessage, named]

end Origin

theorem goMessage_goes (named : launchOf s dev queue gen (fun l => l.ph = .armed && dev ≠ s.dev.devid) = some (key, l)) :
    exec (.goMessage ⟨dev, queue⟩ gen) s = .next (goLocal s key l) := by
  show execGoMessage ⟨dev, queue⟩ gen s = _
  rw [execGoMessage, named]

theorem abortMessage_aborts (named : launchOf s dev queue gen (fun l => l.undecided && dev ≠ s.dev.devid) = some (key, l)) :
    exec (.abortMessage ⟨dev, queue⟩ gen) s = .next (abortLocal s key) := by
  show execAbortMessage ⟨dev, queue⟩ gen s = _
  rw [execAbortMessage, named]

theorem abortLocal_completes (entry : tabGet s.launches key = some l) (discarded : discardHeld s key = some u)
    (written : writeCompletion u l.ctx key l.queue l.bytes (rejectStatus 8) = some v) :
    abortLocal s key = acceptEntry (v.delLaunch key) l.queue := by
  simp [abortLocal, entry, discarded, written]

theorem armedTimeout_aborts {t0 : Nat} (entry : tabGet s.launches launch = some l) (sent : l.replicated = some t0)
    (undecided : l.undecided = true) (home : l.origin = s.dev.devid) (late : t0 + 2 ^ 20 ≤ s.dev.hb) :
    exec (.armedTimeout launch) s = .next (abortAll s launch) := by
  show execArmedTimeout launch s = _
  rw [execArmedTimeout, entry]
  simp only [sent]
  rw [if_pos (by simpa [undecided, home] using late)]

theorem startTimeRelease_starts (entry : tabGet s.launches launch = some l) (released : l.ph = .released)
    (reached : startReached s l = true) : exec (.startTimeRelease launch) s = .next (startTeams s launch) := by
  show execStartTimeRelease launch s = _
  simp [execStartTimeRelease, entry, released, reached]

/-! ### The end of teams and of launches (R303, R397) -/

theorem teamStopped_eq_false (running : ∀ k ∈ s.flocks, k.2.team = team → k.2.stopped = false) :
    teamStopped s team = false := by
  simpa [teamStopped] using running

theorem teamComplete_removes (entry : tabGet s.teams team = some tm)
    (running : ∀ k ∈ s.flocks, k.2.team = team → k.2.stopped = false)
    (ended : tm.status.isSome ∨ (tm.held = false ∧ s.teamFibres team = [] ∧ engineBusy s team = false))
    (removed : removeTeam s team = some u) (completed : endLaunch u tm.launch = some v) :
    exec (.teamComplete team) s = .next v := by
  have leaves : ¬ (teamStopped s team ||
      (tm.status.isNone && (tm.held || !(s.teamFibres team).isEmpty || engineBusy s team))) = true := by
    rw [teamStopped_eq_false running]
    rcases ended with status | ⟨held, fibres, engine⟩
    · simp [Option.isNone_eq_false_iff.mpr status]
    · simp [held, fibres, engine]
  show execTeamComplete team s = _
  rw [execTeamComplete, entry]
  simp only [if_neg leaves, removed, Option.bind_some, completed, Option.getD_some]

/-- R397: a launch keeps the first status that a team of it took. -/
theorem terminateTeam_launches (entry : tabGet s.teams team = some tm) (running : tm.status = none) :
    (terminateTeam s team st).launches = tabMod s.launches tm.launch fun l =>
      { l with status := if l.status = 0 then st else l.status } := by
  have looked : s.tm team = tm := by simp [State.tm, tabGetD, entry]
  rw [terminateTeam, looked, running]
  rfl

/-! ### Method tables (R399) -/

theorem methodTableInstall_installs (entry : tabGet s.launches launch = some l) (waiting : l.ph = .admitting)
    (given : pkNum l.bytes 0x40 8 ≠ 0) (other : BitVec.ofNat 64 (pkNum l.bytes 0x40 8) ≠ (s.ctx l.ctx).mtp)
    (empty : s.hasTeams l.ctx = false) : exec (.methodTableInstall launch) s =
      .next (s.modCtx l.ctx fun c => { c with mtp := BitVec.ofNat 64 (pkNum l.bytes 0x40 8) }) := by
  show execMethodTableInstall launch s = _
  simp [execMethodTableInstall, entry, waiting, given, dword, other, empty]

/-- Settles O50: each step by the lemma that says what it does once its conditions hold. -/
theorem launchEvents : Obligations.LaunchEvents := by
  intro s dev queue launch team key gen l
  refine ⟨fun _ _ => admitTeam_admits, fun named => ⟨armedMessage_counts named, rejectMessage_aborts named⟩, goMessage_goes,
    abortMessage_aborts, fun _ _ => abortLocal_completes, fun _ => armedTimeout_aborts, startTimeRelease_starts,
    fun _ _ _ => teamComplete_removes, fun tm st entry running _ launched => ?firstStatus, methodTableInstall_installs⟩
  case firstStatus => simp [terminateTeam_launches entry running, launched]

end Sys2Proof.Machine
end

section
/-! PROOFS. Active messages (R405, R406), the queue of a context's service records (R404), and the loader's replies (R432, R433). -/

namespace Sys2Proof.Machine

variable {s u v w z : State} {key src ctx : Nat} {q : Queue} {b blk : List Byte} {role : Role} {r : SvcRec} {pre rest : List SvcRec}

/-! ### Active messages (R405, R406) -/

theorem activeMessage_takes (installed : tabGet s.queues key = some q) (kind : q.desc.kind = 2)
    (taken : takeEntry s key q = some (b, u)) (answered : takeMessage u key q.desc.ctx (b.take 64) = some v) :
    exec (.activeMessage key) s = .next v := by
  show execActiveMessage key s = _
  simp [execActiveMessage, installed, kind, taken, answered]

theorem takeMessage_of_gone (gone : (s.ctx (pkNum b 0x0C 2)).st = .torn ∨ (s.ctx (pkNum b 0x0C 2)).st = .free) :
    takeMessage s key src b = messageStatus s src b 3 :=
  if_pos (by simpa using gone)

theorem takeMessage_of_no_role (whole : (s.ctx (pkNum b 0x0C 2)).st ≠ .torn) (held : (s.ctx (pkNum b 0x0C 2)).st ≠ .free)
    (unnamed : messageRole s (pkNum b 0x0C 2) b = none) : takeMessage s key src b = messageStatus s src b 5 := by
  simp [takeMessage, whole, held, unnamed]

theorem takeMessage_of_resident {g : Nat} (resident : (s.ctx (pkNum b 0x0C 2)).st = .resident)
    (first : (s.ctx (pkNum b 0x0C 2)).inbound = []) (named : messageRole s (pkNum b 0x0C 2) b = some role)
    (payload : payloadSeg s (pkNum b 0x0C 2) b = some (g, u)) :
    takeMessage s key src b = deliverMessage u (pkNum b 0x0C 2) ⟨b, g, src⟩ role (some key) := by
  simp [takeMessage, resident, first, named, payload]

theorem activeMessageDeliver_delivers {m : InMsg} {later : List InMsg} (oldest : (s.ctx ctx).inbound = m :: later)
    (resident : (s.ctx ctx).st = .resident) (named : messageRole s ctx m.bytes = some role)
    (delivered : deliverMessage (s.modCtx ctx fun c => { c with inbound := later }) ctx m role none = some u) :
    exec (.activeMessageDeliver ctx) s = .next u := by
  show execActiveMessageDeliver ctx s = _
  simp [execActiveMessageDeliver, oldest, resident, named, delivered]

/-! ### The queue of records (R404) -/

theorem indexOf?_append_cons {α : Type} {p : α → Bool} {before after : List α} {x : α} (skipped : ∀ y ∈ before, p y = false)
    (selected : p x = true) (n : Nat) : indexOf? p (before ++ x :: after) n = some (n + before.length) := by
  induction before generalizing n with
  | nil => simp [indexOf?, selected]
  | cons y before ih =>
    have tail := ih (fun z mem => skipped z (List.mem_cons_of_mem y mem)) (n + 1)
    simp [indexOf?, skipped y List.mem_cons_self, tail, Nat.add_comm, Nat.add_left_comm]

/-- R404: the records up to the first of a number are answered in order. -/
theorem serveThrough_number {number : Nat} (queued : (s.ctx ctx).svcQ = pre ++ r :: rest)
    (skipped : ∀ q ∈ pre, q.number ≠ number) (selected : r.number = number) :
    serveThrough s ctx (fun r => r.number = number) = ((List.range (pre.length + 1)).foldl
      (fun (o : Option State) _ => o.bind fun u => serveFirst u ctx) (some s)).getD s := by
  have index : indexOf? (fun r : SvcRec => decide (r.number = number)) (s.ctx ctx).svcQ 0 = some pre.length := by
    simp [queued, indexOf?_append_cons (fun q mem => decide_eq_false (skipped q mem)) (decide_eq_true selected)]
  rw [serveThrough, index]

/-- R404: the queue of a context once its first record has left it: announcements that have waited for room move up. -/
def afterRecord (s : State) (ctx : Nat) (rest : List SvcRec) : State :=
  s.modCtx ctx fun c => { c with
    svcQ := rest ++ (s.ctx ctx).announce.take (1024 - rest.length),
    announce := (s.ctx ctx).announce.drop (1024 - rest.length) }

theorem serveFirst_cons (queued : (s.ctx ctx).svcQ = r :: rest) :
    serveFirst s ctx = serveRecord (afterRecord s ctx rest) r := by
  rw [serveFirst, queued]
  rfl

theorem serveRecord_load (load : r.number = 0x10) : serveRecord s r = serveLoad s r := if_pos load

theorem serveRecord_unload (unload : r.number = 0x11) : serveRecord s r = serveUnload s r := by
  simp [serveRecord, unload]

/-! ### Replies (R432, R433) -/

theorem loadReply_zero (status : Nat) : loadReply status 0 = 2 ^ 63 + status := by simp [loadReply]

theorem serveLoad_of_ok {base : Nat} (block : serviceRead s r r.addr.toNat 64 = some blk)
    (loaded : loadImage s r.ctx (readContainer s r (pkNum blk 8 8)) (pkNum blk 0x10 8) (pkNum blk 0x18 4) = .ok (base, v))
    (based : serviceWrite v r (r.addr + 0x20) (bytesOfNat 8 base) = some w)
    (replied : serviceWrite w r r.addr (bytesOfNat 8 (2 ^ 63)) = some z) : serveLoad s r = some z := by
  simp only [serveLoad, block, loaded, based, Option.bind_some]
  exact replied

theorem serveLoad_of_error {st d : Nat} (block : serviceRead s r r.addr.toNat 64 = some blk)
    (failed : loadImage s r.ctx (readContainer s r (pkNum blk 8 8)) (pkNum blk 0x10 8) (pkNum blk 0x18 4) = .error (st, d)) :
    serveLoad s r = serviceWrite s r r.addr (bytesOfNat 8 (2 ^ 63 + st + d % 2 ^ 32 * 2 ^ 8)) := by
  simp only [serveLoad, block, failed]
  rfl

theorem serveUnload_of_read (block : serviceRead s r r.addr.toNat 64 = some blk) :
    serveUnload s r = serviceWrite (unloadImage s r.ctx (pkNum blk 0x10 8)).2 r r.addr
      (bytesOfNat 8 (2 ^ 63 + (unloadImage s r.ctx (pkNum blk 0x10 8)).1)) := by
  simp only [serveUnload, block, loadReply_zero]

/-- Settles O52: each step, and each answer to a record, by the lemma that says what it does once its conditions hold. -/
theorem serviceEvents : Obligations.ServiceEvents := by
  intro s key ctx
  refine ⟨fun _ _ _ _ => activeMessage_takes,
    fun _ _ => ⟨takeMessage_of_gone, takeMessage_of_no_role, fun _ _ _ => takeMessage_of_resident⟩,
    fun _ _ _ _ oldest resident => activeMessageDeliver_delivers oldest resident,
    fun _ _ _ queued =>
      ⟨fun skipped selected => congrArg Host.Outcome.next (serveThrough_number queued skipped selected),
        fun skipped selected => congrArg Host.Outcome.next (serveThrough_number queued skipped selected)⟩,
    fun r rest queued => ⟨fun blk base v w z load block loaded based replied => ?loads,
      fun blk st d z load block failed replied => ?fails, fun blk z unload block replied => ?unloads⟩⟩
  case loads =>
    rw [serveFirst_cons queued, serveRecord_load load]
    exact serveLoad_of_ok block loaded based replied
  case fails =>
    rw [serveFirst_cons queued, serveRecord_load load]
    exact (serveLoad_of_error block failed).trans replied
  case unloads =>
    rw [serveFirst_cons queued, serveRecord_unload unload]
    exact (serveUnload_of_read block).trans replied

end Sys2Proof.Machine
end

section
/-! PROOFS. The canonical form of memory, and what it means for a computation to keep it. -/

namespace Sys2Proof.Machine

variable {α β σ : Type} {P : α → Prop} {Q : β → Prop} {s t : State}

/-- The memory of a state has its canonical form. -/
def State.Wf (s : State) : Prop := Memory.wf s.mem = true

theorem State.Wf.of_mem (hs : s.Wf) (h : t.mem = s.mem) : t.Wf :=
  show Memory.wf t.mem = true from (congrArg Memory.wf h).trans hs

theorem State.Wf.via (h : t.mem = s.mem) (hs : s.Wf) : t.Wf := hs.of_mem h

theorem Still.mem (h : Still s t) : t.mem = s.mem := show t.rest.mem = s.rest.mem from congrArg State.mem h.rest

theorem State.Wf.of_still (hs : s.Wf) (h : Still s t) : t.Wf := hs.of_mem h.mem

theorem State.Wf.filter (hs : s.Wf) (p : Host.Cell → Bool) (h : t.mem = s.mem.filter p) : t.Wf :=
  show Memory.wf t.mem = true from (congrArg Memory.wf h).trans (tabCanonical_filter unlistedByte s.mem p hs)

/-- A state that is written out has the memory that is written there. -/
theorem State.Wf.mk {dev mem lines clusters cores ctxs teams fibres flocks folds faults windows events queues launches
    images outbox runs agenda picks free seq} (h : Memory.wf mem = true) :
    State.Wf ⟨dev, mem, lines, clusters, cores, ctxs, teams, fibres, flocks, folds, faults, windows, events, queues,
      launches, images, outbox, runs, agenda, picks, free, seq⟩ := h

theorem State.Wf.ite {c : Prop} {d : Decidable c} (ht : s.Wf) (he : t.Wf) : State.Wf (@ite _ c d s t) := by
  split
  · exact ht
  · exact he

/-- The state that comes with a value has a memory in canonical form. -/
def SndWf (q : α × State) : Prop := q.2.Wf

theorem SndWf.mk {a : α} (hs : s.Wf) : SndWf (a, s) := hs

/-- The state that comes with two values has a memory in canonical form. -/
def TrdWf (q : α × β × State) : Prop := q.2.2.Wf

theorem TrdWf.mk {a : α} {b : β} (hs : s.Wf) : TrdWf (a, b, s) := hs

/-! ### Computations that may fail -/

/-- What a computation answers, if it answers a value, has a property. -/
def OnOk (P : α → Prop) : Res α → Prop
  | .ok a => P a
  | _ => True

theorem OnOk.ok {a : α} (h : P a) : OnOk P (.ok a) := h

theorem OnOk.bind {r : Res α} {k : α → Res β} (h : OnOk P r) (hk : ∀ a, P a → OnOk Q (k a)) : OnOk Q (r.bind k) := by
  cases r with
  | ok a => exact hk a h
  | bad | wait | sys => trivial

/-- A computation whose value is no state: what follows it need only hold for every value. -/
theorem OnOk.skip {r : Res α} {k : α → Res β} (hk : ∀ a, OnOk Q (k a)) : OnOk Q (r.bind k) :=
  OnOk.bind (P := fun _ => True) (by cases r <;> trivial) fun a _ => hk a

theorem OnOk.map {r : Res α} {g : α → β} (h : OnOk P r) (hg : ∀ a, P a → Q (g a)) : OnOk Q (r.map g) := h.bind hg

theorem OnOk.onBad {r : Res α} {g : Eff → Eff} (h : OnOk P r) : OnOk P (r.onBad g) := by
  cases r <;> exact h

theorem OnOk.of_forall {r : Res α} (h : ∀ a, r = .ok a → P a) : OnOk P r := by
  cases r with
  | ok a => exact h a rfl
  | bad | wait | sys => trivial

theorem OnOk.apply {r : Res α} {a : α} (h : OnOk P r) (ha : r = .ok a) : P a := by
  subst ha
  exact h

theorem OnOk.foldM {I : σ → Prop} {g : σ → α → Res σ} {a : σ} (l : List α) (ha : I a)
    (hg : ∀ a x, I a → OnOk I (g a x)) : OnOk I (Res.foldM g a l) := by
  induction l generalizing a with
  | nil => exact ha
  | cons x l ih => exact (hg a x ha).bind fun b hb => ih hb

/-- What an optional value is, if there is one, has a property. -/
def OnSome (P : α → Prop) : Option α → Prop
  | some a => P a
  | none => True

theorem OnSome.mk {a : α} (h : P a) : OnSome P (some a) := h

theorem OnSome.bind {o : Option α} {k : α → Option β} (h : OnSome P o) (hk : ∀ a, P a → OnSome Q (k a)) :
    OnSome Q (o.bind k) := by
  cases o with
  | some a => exact hk a h
  | none => trivial

theorem OnSome.skip {o : Option α} {k : α → Option β} (hk : ∀ a, OnSome Q (k a)) : OnSome Q (o.bind k) :=
  OnSome.bind (P := fun _ => True) (by cases o <;> trivial) fun a _ => hk a

theorem OnSome.map {o : Option α} {g : α → β} (h : OnSome P o) (hg : ∀ a, P a → Q (g a)) : OnSome Q (o.map g) := by
  cases o with
  | some a => exact hg a h
  | none => trivial

theorem OnSome.map_skip {o : Option α} {g : α → β} (hg : ∀ a, Q (g a)) : OnSome Q (o.map g) :=
  OnSome.map (P := fun _ => True) (by cases o <;> trivial) fun a _ => hg a

theorem OnSome.of_forall {o : Option α} (h : ∀ a, o = some a → P a) : OnSome P o := by
  cases o with
  | some a => exact h a rfl
  | none => trivial

theorem OnSome.apply {o : Option α} {a : α} (h : OnSome P o) (ha : o = some a) : P a := by
  subst ha
  exact h

/-- (The decision is an implicit argument, so that it is taken as it stands and never evaluated.) -/
theorem OnSome.ite {c : Prop} {d : Decidable c} {o p : Option α} (ho : OnSome P o) (hp : OnSome P p) :
    OnSome P (@ite _ c d o p) := by
  split
  · exact ho
  · exact hp

theorem OnSome.getD {o : Option α} {a : α} (h : OnSome P o) (ha : P a) : P (o.getD a) := by
  cases o with
  | some b => exact h
  | none => exact ha

theorem OnSome.foldl {I : σ → Prop} {g : σ → α → Option σ} {o : Option σ} (l : List α) (ho : OnSome I o)
    (hg : ∀ a x, I a → OnSome I (g a x)) : OnSome I (l.foldl (fun o x => o.bind fun a => g a x) o) := by
  induction l generalizing o with
  | nil => exact ho
  | cons x l ih => exact ih (ho.bind fun a ha => hg a x ha)

/-- What a computation of the firmware or of an engine answers, if it succeeds, has a property. -/
def OnDone {ε : Type} (P : α → Prop) : Except ε α → Prop
  | .ok a => P a
  | .error _ => True

theorem OnDone.apply {ε : Type} {r : Except ε α} {a : α} (h : OnDone P r) (ha : r = .ok a) : P a := by
  subst ha
  exact h

theorem OnDone.bind {ε : Type} {r : Except ε α} {k : α → Except ε β} (h : OnDone P r) (hk : ∀ a, P a → OnDone Q (k a)) :
    OnDone Q (r.bind k) := by
  cases r with
  | ok a => exact hk a h
  | error e => trivial

theorem OnDone.skip {ε : Type} {r : Except ε α} {k : α → Except ε β} (hk : ∀ a, OnDone Q (k a)) : OnDone Q (r.bind k) :=
  OnDone.bind (P := fun _ => True) (by cases r <;> trivial) fun a _ => hk a

theorem OnDone.map {ε : Type} {r : Except ε α} {g : α → β} (h : OnDone P r) (hg : ∀ a, P a → Q (g a)) :
    OnDone Q (r.map g) := by
  cases r with
  | ok a => exact hg a h
  | error e => trivial

theorem OnDone.map_skip {ε : Type} {r : Except ε α} {g : α → β} (hg : ∀ a, Q (g a)) : OnDone Q (r.map g) :=
  OnDone.map (P := fun _ => True) (by cases r <;> trivial) fun a _ => hg a

/-- The state that a step of the machine leaves, if it leaves one, has a property. -/
def OnNext {φ ρ : Type} (P : State → Prop) : Host.Outcome State φ ρ → Prop
  | .next s => P s
  | _ => True

theorem foldl_inv {I : σ → Prop} {g : σ → α → σ} {a : σ} (l : List α) (ha : I a) (hg : ∀ a x, I a → I (g a x)) :
    I (l.foldl g a) := by
  induction l generalizing a with
  | nil => exact ha
  | cons x l ih => exact ih (hg a x ha)

end Sys2Proof.Machine
end

section
/-! PROOFS. Stores on their way to memory, and loads, keep its canonical form. -/

namespace Sys2Proof.Machine

variable {s t : State}

/-! ### Translation, and what a store does beside its bytes -/

@[simp] theorem readBy_mem {die keys} : (s.readBy die keys).mem = s.mem :=
  (foldl_mem _ (fun _ _ => holdHost_mem ..) _ _).trans (backInvalidate_mem ..)

@[simp] theorem modFold_mem {tag g} : (s.modFold tag g).mem = s.mem := rfl
@[simp] theorem finishTok_mem {tok} : (s.finishTok tok).mem = s.mem := rfl
@[simp] theorem drawMany_mem {n} : (s.drawMany n).2.mem = s.mem := rfl

theorem translate_wf {f va acc upper} (hs : s.Wf) : OnOk SndWf (translate s f va acc upper) :=
  .of_forall fun _ h => hs.of_still (translate_still h)

theorem checkAccess_wf {f va n align acc} (hs : s.Wf) : OnOk SndWf (checkAccess s f va n align acc) :=
  .of_forall fun _ h => hs.of_still (checkAccess_still h)

theorem storePendingLine_wf {tag k line cells} (hs : s.Wf) : OnSome State.Wf (storePendingLine s tag k line cells) := by
  unfold storePendingLine
  dsimp only
  split
  · split
    · trivial
    · exact hs
  · refine OnSome.map (P := State.Wf) ?_ fun t ht => ht
    split
    · exact hs
    · exact .map_skip fun _ => hs

theorem storePendingAll_wf {tag r} (hs : s.Wf) : OnSome State.Wf (storePendingAll s tag r) := by
  unfold storePendingAll
  dsimp only
  split
  · trivial
  · exact .foldl _ hs fun _ _ => storePendingLine_wf

/-! ### A store at its coherence point -/

theorem markCodes_mem {ds : List (Nat × DirtyByte)} :
    (ds.foldl (fun s d => s.markCode d.2.storers [(d.1, d.2.val, d.2.mask)]) s).mem = s.mem :=
  foldl_mem _ (fun _ _ => markCode_mem ..) _ _

theorem writeBackGroup_wf {cl key} (hs : s.Wf) : OnSome State.Wf (writeBackGroup s cl key) := by
  unfold writeBackGroup
  dsimp only
  split
  · exact hs
  · split
    · trivial
    · refine State.Wf.of_mem (performHome_wf _ _ _ ?_) markCodes_mem
      exact hs

theorem foldWriteBack_wf {core r} (hs : s.Wf) : (foldWriteBack s core r).Wf := by
  refine foldl_inv _ hs fun t d ht => ?_
  split
  · exact (writeBackGroup_wf ht).getD ht
  · exact ht

theorem storeFrame_wf {core r} (hs : s.Wf) : (s.storeFrame core r).Wf := by
  refine foldl_inv _ (performHome_wf _ _ _ hs) fun t x ht => ?_
  split <;> exact ht

theorem performPart_wf {core r p} (hs : s.Wf) : (performPart s core r p).Wf := by
  unfold performPart
  extract_lets part cells
  split
  · exact hs
  · cases p with
    | scratch =>
      refine State.Wf.of_mem (foldl_inv (I := State.Wf) _ (foldl_inv (I := State.Wf) _ ?_ fun u _ hu => ?_)
        fun u _ hu => ?_) (wakeWords_mem ..)
      · show State.Wf (if r.untype then _ else _)
        split
        · exact foldl_inv _ (putCells_wf _ _ hs) fun u _ hu => hu.of_mem (untype_mem ..)
        · exact putCells_wf _ _ hs
      · exact hu.of_mem (taint_mem ..)
      · exact hu.of_mem (raiseLs_mem ..)
    | frame => exact storeFrame_wf hs
    | host =>
      refine State.Wf.of_mem (foldl_inv _ (performHome_wf _ _ _ hs) fun u _ hu => ?_) (markCode_mem ..)
      exact hu.of_mem (holdHost_mem ..)
    | near => exact hs
    | home => exact State.Wf.of_mem (performSpan_wf _ _ _ _ hs) (markCode_mem ..)

theorem performStore_wf {core r} (hs : s.Wf) : OnSome State.Wf (performStore s core r) := by
  unfold performStore
  split
  · exact (storePendingAll_wf (foldWriteBack_wf hs)).map fun t ht => ht.of_mem (finishStore_mem ..)
  · split
    · trivial
    · refine State.Wf.of_mem (foldl_inv _ ?_ fun t p ht => performPart_wf ht) (finishStore_mem ..)
      exact hs.of_mem (clearPoison_mem ..)

/-! ### From a fibre's queue through its core's order -/

@[simp] theorem drainOne_mem {f} : (drainOne s f).mem = s.mem := by
  unfold drainOne
  dsimp only
  split
  · rfl
  · split <;> rfl

@[simp] theorem drainQueue_mem {f} : (drainQueue s f).mem = s.mem := foldl_mem _ (fun _ _ => drainOne_mem) _ _

theorem drained_wf {fs} (hs : s.Wf) : OnOk State.Wf (drained s fs) :=
  .of_forall fun _ h => hs.of_mem (drained_ok _ _ _ h).2.2

theorem performFrom_wf {core rs kept} (hs : s.Wf) : (performFrom s core rs kept).2.Wf := by
  induction rs generalizing s kept with
  | nil => exact hs
  | cons r rest ih =>
    unfold performFrom
    split
    · exact ih hs
    · split
      · exact ih hs
      · next h => exact ih ((performStore_wf hs).apply h)

theorem performCore_wf {core} (hs : s.Wf) : (performCore s core).Wf := performFrom_wf hs

theorem writeBackWhere_wf {f pass} (hs : s.Wf) : OnOk State.Wf (writeBackWhere s f pass) := by
  refine .foldM _ hs fun t d ht => ?_
  dsimp only
  split
  · exact ht
  · refine .skip fun _ => ?_
    split
    · trivial
    · next h => exact (writeBackGroup_wf ht).apply h

theorem settleStores_wf {f} (hs : s.Wf) : OnOk State.Wf (settleStores s f) := by
  unfold settleStores
  dsimp only
  split
  · trivial
  · exact performCore_wf (hs.of_mem drainQueue_mem)

theorem drainAt_wf {f scope skip} (hs : s.Wf) : OnOk State.Wf (drainAt s f scope skip) := by
  unfold drainAt
  split
  · trivial
  · refine (settleStores_wf hs).bind fun t ht => ?_
    split
    · exact ht
    · exact writeBackWhere_wf ht

theorem exitDrain_wf {f} (hs : s.Wf) : OnOk State.Wf (exitDrain s f) :=
  (drainAt_wf hs).bind fun _ ht => writeBackWhere_wf ht

@[simp] theorem askDevices_mem {f devs flag msg} : (askDevices s f devs flag msg).mem = s.mem := by
  unfold askDevices
  dsimp only
  split
  · rfl
  · refine (foldl_mem _ (fun u d => ?_) _ _).trans rfl
    rfl

@[simp] theorem ackedBy_mem {gone} : (ackedBy s gone).mem = s.mem :=
  (foldl_mem _ (fun _ _ => finishTok_mem) _ _).trans rfl

@[simp] theorem enqueueStore_mem {f r} : (enqueueStore s f r).mem = s.mem := by
  unfold enqueueStore
  exact foldl_mem _ (fun _ _ => drainQueue_mem) _ _

/-! ### Loads -/

@[simp] theorem fillCopy_mem {cl line span v} : (s.fillCopy cl line span v).mem = s.mem := by
  unfold State.fillCopy
  split <;> rfl

@[simp] theorem fractureCheck_mem {cl tag stamp digest} : (fractureCheck s cl tag stamp digest).mem = s.mem := by
  unfold fractureCheck
  split <;> rfl

theorem reachCore_wf {f key} (hs : s.Wf) : (reachCore s f key).Wf := by
  unfold reachCore
  dsimp only
  split
  · exact performCore_wf (hs.of_mem drainQueue_mem)
  · exact hs

theorem loadScratch_wf {f p n} (hs : s.Wf) : OnOk TrdWf (loadScratch s f p n) := by
  unfold loadScratch
  dsimp only
  repeat' split
  · trivial
  · trivial
  · exact reachCore_wf hs
  · exact reachCore_wf hs

theorem hostAnswer_wf {core w} (hs : s.Wf) : OnOk State.Wf (s.hostAnswer core w) := by
  unfold State.hostAnswer
  split
  · exact hs
  · exact hs
  · trivial

theorem loadPiece_wf {f p n whole w} (hs : s.Wf) : OnOk TrdWf (loadPiece s f p n whole w) := by
  unfold loadPiece
  refine .skip fun _ => ?_
  extract_lets x cl line l keys ls dirty
  have home : ∀ span v, OnOk TrdWf ((homeRead s line v w).bind fun ver =>
      .ok (keys.map fun k => if ver.current then dirty k (ver.bytes.getD (k % 128) 0)
        else s.fwdOver f k (ver.bytes.getD (k % 128) 0), ls,
        ((fractureCheck (s.fillCopy cl line span ver) cl ver.tag ver.stamp ver.digest).backInvalidate keys false).noteLs
          f ls)) := fun span v => .skip fun ver => hs.of_mem (by simp)
  split
  · exact loadScratch_wf hs
  · refine hs.of_mem (t := State.noteLs _ _ _) ?_
    split <;> rfl
  · exact (hostAnswer_wf hs).bind fun t ht => ht.of_mem (holdHost_mem ..)
  · exact hs
  all_goals
    split
    · exact hs
    · dsimp only
      split
      · exact home _ _
      · split
        · exact hs.of_mem (t := State.noteLs _ _ _) fractureCheck_mem
        · exact home _ _

theorem loadBytes_wf {f va n align acc whole} (hs : s.Wf) :
    OnOk TrdWf (loadBytes s f va n align acc whole) := by
  refine (checkAccess_wf hs).bind fun q hq => ?_
  refine .foldM _ hq fun u p hu => ?_
  exact (loadPiece_wf hu).bind fun v hv => hv

theorem loadNum_wf {f va n align acc} (hs : s.Wf) : OnOk SndWf (loadNum s f va n align acc) :=
  OnOk.bind (loadBytes_wf hs) fun _ ht => ht

theorem advanceView_wf {f scope k} (hs : s.Wf) : OnOk State.Wf (advanceView s f scope k) := by
  unfold advanceView
  split
  · trivial
  · exact hs

/-! ### Fetching -/

@[simp] theorem fillTlbs_mem {core es} : (s.fillTlbs core es).mem = s.mem := (fillTlbs_still s core es).mem
end Sys2Proof.Machine
end

section
/-! PROOFS. Segments, continuations and effects keep the canonical form of memory. -/

namespace Sys2Proof.Machine

variable {s t : State}

/-! ### Segments and headers (R107, R289, R290) -/

theorem takeSeg_onSome {cx} (hs : s.Wf) : OnSome SndWf (takeSeg s cx) :=
  .of_forall fun _ h => takeSeg_wf _ _ _ _ h hs

theorem takeSegs_onSome {cx n} (hs : s.Wf) : OnSome SndWf (takeSegs s cx n) :=
  .of_forall fun _ h => takeSegs_wf _ _ _ _ _ h hs

theorem touchAll_mem {core} {as : List Nat} : (as.foldl (fun s a => touchSeg s core a) s).mem = s.mem :=
  foldl_mem _ (fun _ _ => touchSeg_mem ..) _ _

theorem searched_wf {f e} (hs : s.Wf) : OnOk State.Wf (searched s f e) :=
  .of_forall fun _ h => hs.of_mem (searched_ok _ _ _ _ h).2.2

theorem takeHeader_wf {cx} (hs : s.Wf) : OnSome SndWf (takeHeader s cx) := by
  unfold takeHeader
  dsimp only
  split
  · exact hs.of_mem (pick_mem ..)
  · exact (takeSeg_onSome hs).map fun q hq => putNum_wf _ _ _ _ hq

theorem acquireRegs_wf {f hit} (hs : s.Wf) : OnOk State.Wf (acquireRegs s f hit) := by
  unfold acquireRegs
  dsimp only
  split
  · exact hs
  · exact (advanceView_wf hs).map fun t ht => ht

/-- What a capture writes into the header and the image, once it has its segments (R291). -/
theorem captureSegments_wf {f frame e rpc pck rvd r} (hs : s.Wf) :
    OnOk SndWf (captureSegments s f frame e rpc pck rvd r) := by
  unfold captureSegments
  dsimp only
  split
  · trivial
  · refine (drainAt_wf hs).bind fun u hu => (acquireRegs_wf hu).bind fun v hv => ?_
    split
    · exact hv
    · next a s1 taken =>
      have h1 : s1.Wf := (takeHeader_wf hv).apply taken
      split
      · exact hv
      · next img s2 segments =>
        have h2 : s2.Wf := by
          split at segments
          · exact (takeSegs_onSome h1).apply segments
          · cases segments; exact h1
        refine putNum_wf _ _ _ _ (writeImage_wf _ _ _ (State.Wf.of_mem ?_ touchAll_mem))
        repeat apply putNum_wf
        exact h2

@[simp] theorem enterHandler_mem {f frame h e} : (enterHandler s f frame h e).mem = s.mem := rfl

/-! ### Parking and the fault record (R256, R271, R300, R415) -/

@[simp] theorem leaveFlock_mem {f} : (leaveFlock s f).mem = s.mem := by
  unfold leaveFlock
  dsimp only
  split
  · split <;> rfl
  · rfl

@[simp] theorem penFile_mem {f} : (penFile s f).mem = s.mem := rfl

theorem returnParked_wf {f} (hs : s.Wf) : (returnParked s f).Wf := by
  unfold returnParked
  dsimp only
  split
  · exact hs
  · exact foldl_wf (fun s a => freeSeg s (s.ctxOf f) a) (fun u a hu => freeSeg_wf u _ a hu) _ _ hs

@[simp] theorem dropEngine_mem {team} : (dropEngine s team).mem = s.mem := rfl
@[simp] theorem endFlocks_mem {team keep} : (endFlocks s team keep).mem = s.mem := rfl

@[simp] theorem terminateTeam_mem {team status} : (terminateTeam s team status).mem = s.mem := by
  unfold terminateTeam
  dsimp only
  split <;> rfl

theorem saveRecord_wf {f} (hs : s.Wf) : OnSome SndWf (saveRecord s f) :=
  (takeSegs_onSome hs).map fun _ hq => writeImage_wf _ _ _ (hq.of_mem touchAll_mem)

theorem parkFibre_wf {f o e} (hs : s.Wf) : OnOk State.Wf (parkFibre s f o e) := by
  unfold parkFibre
  extract_lets x
  split
  · trivial
  · refine (drained_wf hs).bind fun u hu => ?_
    split
    · exact hu.of_mem terminateTeam_mem
    · next img v saved => exact .via ((State.modFib_mem ..).trans leaveFlock_mem) ((saveRecord_wf hu).apply saved)

theorem logRecord_wf {idx} (hs : s.Wf) : (logRecord s idx).Wf := by
  unfold logRecord
  dsimp only
  split
  · exact hs
  · repeat apply putNum_wf
    exact zero_wf _ _ _ hs

theorem freeRecord_wf {idx} (hs : s.Wf) : (freeRecord s idx).Wf := by
  unfold freeRecord
  split
  · exact hs
  · exact zero_wf _ _ _ hs

@[simp] theorem postAnnounce_mem {cx r} : (postAnnounce s cx r).mem = s.mem := rfl

theorem parkFault_wf {f e} (hs : s.Wf) : OnOk State.Wf (parkFault s f e) := by
  unfold parkFault
  dsimp only
  split
  · refine (parkFibre_wf hs).bind fun u hu => ?_
    split
    · exact hu
    · exact logRecord_wf hu
  · split
    · trivial
    · trivial
    · refine (parkFibre_wf hs).bind fun u hu => ?_
      split
      · exact hu
      · exact returnParked_wf hu
    · trivial
    · split
      · trivial
      · refine (parkFibre_wf hs).bind fun u hu => ?_
        split
        · exact hu
        · exact .via postAnnounce_mem (logRecord_wf hu)

theorem performQuiet_wf {cells k whole} (hs : s.Wf) : (s.performQuiet cells k whole).Wf :=
  performSpan_wf s cells k whole hs

theorem bindEntry_wf {f ea reg} (hs : s.Wf) : (bindEntry s f ea reg).Wf := by
  unfold bindEntry
  split
  · exact returnParked_wf hs
  · exact hs
  · next p u found =>
    have hu : u.Wf := (translate_wf hs).apply found
    dsimp only
    split
    · exact returnParked_wf hu
    · split
      · exact hu
      · split
        · split
          · exact State.Wf.of_mem (performQuiet_wf hu) postAnnounce_mem
          · exact hu
        · split
          · next v view => exact returnParked_wf (.via (State.modFib_mem ..) ((advanceView_wf hu).apply view))
          · exact hu
  · exact hs.of_mem terminateTeam_mem

/-! ### Raising an effect (R284) -/

theorem rootHandler_wf {f e} (hs : s.Wf) : OnOk State.Wf (rootHandler s f e) := by
  unfold rootHandler
  split
  · exact parkFault_wf hs
  · split
    · refine (parkFibre_wf hs).bind fun u hu => ?_
      split
      · exact returnParked_wf hu
      · exact hu
    · refine .skip fun _ => (parkFibre_wf hs).bind fun u hu => ?_
      split
      · exact hu
      · exact bindEntry_wf hu
    · exact hs.of_mem terminateTeam_mem

theorem rootRaise_wf {f e} (hs : s.Wf) : OnOk State.Wf (rootRaise s f e) := by
  unfold rootRaise
  split
  · exact rootHandler_wf hs
  · refine (drainAt_wf hs).bind fun u hu => rootHandler_wf hu

theorem captureFor_wf {f frame e} (hs : s.Wf) : OnOk SndWf (captureFor s f frame e) := by
  unfold captureFor
  split <;> exact captureSegments_wf hs

theorem raiseFrom_wf {n f e} (hs : s.Wf) : OnOk SndWf (raiseFrom n s f e) := by
  induction n generalizing s e with
  | zero => exact hs.of_mem terminateTeam_mem
  | succ n ih =>
    unfold raiseFrom
    split
    · trivial
    · refine (searched_wf hs).bind fun u hu => ?_
      dsimp only
      split
      · split
        · next v raised => exact (rootRaise_wf hu).apply raised
        · exact ih hu
        · trivial
        · trivial
      · split
        · exact ih hu
        · split
          · next h v captured => exact State.Wf.of_mem ((captureFor_wf hu).apply captured) enterHandler_mem
          · next v failed =>
            split
            · exact ih hu
            · exact State.Wf.of_mem ((captureFor_wf hu).apply failed) terminateTeam_mem
          · exact ih hu
          · trivial
          · trivial

theorem takeEffect_wf {f e} (hs : s.Wf) : OnOk SndWf (takeEffect s f e) := raiseFrom_wf hs

theorem resumeContinuation_wf {f a xv} (hs : s.Wf) : (resumeContinuation s f a xv).Wf := by
  have resumed : ∀ g, State.Wf ((touchSegs s f [a, s.num (a + 0x20) 8]).modFib f g) := fun g =>
    hs.of_mem (touchSegs_mem ..)
  unfold resumeContinuation
  dsimp only
  refine putNum_wf _ _ _ _ ?_
  split
  · exact freeSegs_wf _ _ _ (resumed _)
  · exact resumed _

theorem dropContinuation_wf {cx a} (hs : s.Wf) : (dropContinuation s cx a).Wf :=
  putNum_wf _ _ _ _ (freeSegs_wf _ _ _ hs)

/-! ### Events of a flock (R302 to R304) -/

theorem baseSegment_wf {cx core} (hs : s.Wf) : SndWf (baseSegment s cx core) := by
  have unfolded : @baseSegment = @baseSegment := rfl
  conv_rhs at unfolded => delta baseSegment
  rw [unfolded]
  beta_reduce
  split
  · exact hs
  · next r taken =>
    exact .mk (.via (touchSeg_mem ..) (putLink_wf _ _ _ _ _ _ _ _ _ ((takeSeg_onSome hs).apply taken)))

theorem startOwn_wf {sh level entry v0 v1} (hs : s.Wf) : (startOwn s sh level entry v0 v1).Wf := by
  have unfolded : @startOwn = @startOwn := rfl
  conv_rhs at unfolded => delta startOwn
  rw [unfolded]
  beta_reduce
  extract_lets team fibre core b
  have hb : SndWf b := baseSegment_wf hs
  clear_value b
  exact .via (formFlock_mem ..) (.mk hb)

theorem openWindow_wf {k cls words} (hs : s.Wf) : (openWindow s k cls words).Wf := by
  unfold openWindow
  split
  · exact hs
  · exact startOwn_wf hs

theorem stopFlock_wf {k cls lanes low w detail} (hs : s.Wf) : (stopFlock s k cls lanes low w detail).Wf := by
  unfold stopFlock
  dsimp only
  split
  · exact hs
  · split
    · exact hs
    · exact openWindow_wf hs

theorem stopLanes_wf {k lanes evs} (hs : s.Wf) : (stopLanes s k lanes evs).Wf := by
  refine foldl_inv (I := SndWf) evs hs fun q ev hq => ?_
  dsimp only
  split
  · exact hq
  · exact stopFlock_wf hq

/-! ### The end of an issue (R35, R92, R285) -/

@[simp] theorem endRun_mem : (endRun s).mem = s.mem := (endRun_still s).mem

@[simp] theorem dropRun_mem {r} : (dropRun s r).mem = s.mem := by
  unfold dropRun
  dsimp only
  split <;> simp

@[simp] theorem retract_mem {r} : (retract s r).mem = s.mem := dropRun_mem

@[simp] theorem stall_mem {r} : (stall s r).mem = s.mem := by
  unfold stall
  split
  · exact retract_mem
  · split
    · exact dropRun_mem
    · split <;> rfl

@[simp] theorem afterFailure_mem {f e} : (s.afterFailure f e).mem = s.mem := by
  unfold State.afterFailure
  dsimp only
  split <;> exact fillTlbs_mem

@[simp] theorem settleMasks_mem {k entered cleared} : (settleMasks s k entered cleared).mem = s.mem := rfl

theorem add_wf {o : Outs} {r lane f x} (ho : o.s.Wf) (hx : OnOk SndWf x) : (o.add r lane f x).s.Wf := by
  unfold Outs.add
  split
  · exact ho
  · dsimp only
    split <;> exact ho.of_mem afterFailure_mem
  · exact ho
  all_goals exact hx

theorem foldLanes_wf {r lanes body o} (ho : o.s.Wf)
    (hb : ∀ u f l, u.Wf → OnOk SndWf (body u f l)) : (foldLanes s r lanes body o).s.Wf := by
  refine foldl_inv (I := fun o : Outs => o.s.Wf) lanes ho fun o l ho => ?_
  split
  · exact ho
  · split
    · exact ho
    · exact add_wf ho (hb _ _ _ ho)

theorem openOuts_wf {r acting} (hs : s.Wf) : (openOuts s r acting).s.Wf := by
  unfold openOuts
  dsimp only
  refine hs.of_mem ((State.modFibs_mem ..).trans ?_)
  split
  · rfl
  · exact State.modFibs_mem ..

theorem takeEffects_wf {o : Outs} {raises} (ho : o.s.Wf) : (takeEffects o raises).s.Wf := by
  induction raises generalizing o with
  | nil => exact ho
  | cons x rest ih =>
    obtain ⟨lane, f, e⟩ := x
    have taken : OnOk SndWf (takeEffect (o.s.modFib f fun x => { x with scStart := none }) f e) :=
      takeEffect_wf ho
    unfold takeEffects
    split
    · exact ih ho
    · split
      · next u entered => exact ih (taken.apply entered)
      · next u left => exact ih (taken.apply left)
      · exact ih ho
      · exact ho
      · split
        · exact ih ho
        · exact ho

theorem settle_wf {s0 r ends} {o : Outs} (hs : s0.Wf) (ho : o.s.Wf) : (settle s0 r ends o).Wf := by
  have effects : State.Wf (if o.stalled then o else takeEffects o (byLane o.raises)).s := by
    split
    · exact ho
    · exact takeEffects_wf ho
  unfold settle
  extract_lets o1 quiet alive failed u s1 evs s2
  have h2 : s2.Wf := by
    refine stopLanes_wf (State.Wf.of_mem effects (t := s1) (settleMasks_mem.trans ?_))
    show State.mem (if _ then _ else _) = _
    split <;> rfl
  split
  · exact hs.of_mem stall_mem
  · split
    · exact h2
    · split
      · exact h2.of_mem endRun_mem
      · split
        · split <;> exact h2
        · exact h2.of_still (continueRun_still ..)

/-- An instruction that acts per lane keeps the form when each lane's part does. -/
theorem perLane_wf {i body} (hs : s.Wf) (hb : ∀ m u f l, u.Wf → OnOk SndWf (body m u f l)) :
    OnNext State.Wf (perLane i s body) := by
  unfold perLane
  split
  · trivial
  · exact settle_wf hs (foldLanes_wf (openOuts_wf hs) (hb _))

/-- An instruction that acts once for its flock keeps the form when its body does. -/
theorem perFlock_wf {i body} (hs : s.Wf) (hb : ∀ u f fs, u.Wf → OnOk State.Wf (body u f fs)) :
    OnNext State.Wf (perFlock i s body) := by
  unfold perFlock
  split
  · trivial
  · dsimp only
    split
    · exact settle_wf hs (openOuts_wf hs)
    · refine settle_wf hs ?_
      split
      · next u done => exact State.Wf.of_mem ((hb _ _ _ (openOuts_wf hs)).apply done) (State.modFibs_mem ..)
      all_goals exact foldLanes_wf (openOuts_wf hs) fun _ _ _ _ => trivial

theorem raiseOn_wf {r lanes ends e} (hs : s.Wf) : (raiseOn s r lanes ends e).Wf :=
  settle_wf hs (foldLanes_wf (openOuts_wf hs) fun _ _ _ _ => trivial)

/-! ### Operand forms (R76, R77, R136) -/

@[simp] theorem setSreg_mem {f n v} : (setSreg s f n v).mem = s.mem := by
  unfold setSreg
  split
  · rfl
  · split <;> rfl

@[simp] theorem put32_mem {f d v} : (put32 s f d v).mem = s.mem := rfl
@[simp] theorem put64_mem {f d v} : (put64 s f d v).mem = s.mem := rfl
@[simp] theorem putPred_mem {f p b} : (putPred s f p b).mem = s.mem := rfl

@[simp] theorem putWide_mem {f dbl d v} : (putWide s f dbl d v).mem = s.mem := by
  unfold putWide
  split <;> rfl

theorem lane32_wf {i d val} (hs : s.Wf) : OnNext State.Wf (lane32 i d s val) :=
  perLane_wf hs fun _ _ _ _ hu => .skip fun _ => .skip fun _ => hu

theorem lane64_wf {i d val} (hs : s.Wf) : OnNext State.Wf (lane64 i d s val) :=
  perLane_wf hs fun _ _ _ _ hu => .skip fun _ => .skip fun _ => hu

theorem lanePred_wf {i p val} (hs : s.Wf) : OnNext State.Wf (lanePred i p s val) :=
  perLane_wf hs fun _ _ _ _ hu => .skip fun _ => hu

theorem uniform_wf {i d val} (hs : s.Wf) : OnNext State.Wf (uniform i d s val) :=
  perFlock_wf hs fun _ _ _ hu => hu.of_mem setSreg_mem

theorem op1_wf {i o fn} (hs : s.Wf) : OnNext State.Wf (op1 i o s fn) := by
  unfold op1
  split
  · exact uniform_wf hs
  · exact lane32_wf hs

theorem op2_wf {i o fn} (hs : s.Wf) : OnNext State.Wf (op2 i o s fn) := by
  unfold op2
  split
  · exact uniform_wf hs
  · exact lane32_wf hs

theorem op3_wf {i o fn} (hs : s.Wf) : OnNext State.Wf (op3 i o s fn) := by
  unfold op3
  split
  · exact uniform_wf hs
  · exact lane32_wf hs

theorem pair2_wf {i o fn} (hs : s.Wf) : OnNext State.Wf (pair2 i o s fn) := by
  unfold pair2
  split
  · exact uniform_wf hs
  · exact lane64_wf hs

theorem pairBy_wf {i o fn} (hs : s.Wf) : OnNext State.Wf (pairBy i o s fn) := by
  unfold pairBy
  split
  · exact uniform_wf hs
  · exact lane64_wf hs

theorem opImm_wf {i o fn} (hs : s.Wf) : OnNext State.Wf (opImm i o s fn) := by
  unfold opImm
  split
  · exact uniform_wf hs
  · exact lane32_wf hs

theorem withConds_wf {f cond write} (hs : s.Wf) (hw : ∀ u, u.Wf → (write u).Wf) :
    OnOk SndWf (withConds s f cond write) := by
  unfold withConds
  dsimp only
  split
  · trivial
  · refine hw _ ?_
    split <;> exact hs

/-! ### Folds, areas and tiles that are given up -/

@[simp] theorem dropFoldStores_mem {tag f} : (dropFoldStores s tag f).mem = s.mem :=
  (foldl_mem _ (fun _ _ => finishTok_mem) _ _).trans rfl

@[simp] theorem discardPend_mem {tag} : (discardPend s tag).mem = s.mem := by
  unfold discardPend
  split
  · rfl
  · exact foldl_mem _ (fun _ _ => State.modLine_mem ..) _ _

@[simp] theorem dropFoldRec_mem {tag} : (dropFoldRec s tag).mem = s.mem := by
  unfold dropFoldRec
  split <;> rfl

@[simp] theorem discardFold_mem {tag f} : (discardFold s tag f).mem = s.mem := by simp [discardFold]

theorem grantArea_wf {core team kind n} (hs : s.Wf) : OnSome SndWf (grantArea s core team kind n) :=
  .map_skip fun _ => zero_wf _ _ _ hs

@[simp] theorem freeArea_mem {core team kind base} : (freeArea s core team kind base).mem = s.mem := rfl
@[simp] theorem modTile_mem {r g} : (s.modTile r g).mem = s.mem := rfl

/-! ### Control flow, fibres and their segments (R91, R116, R124) -/

@[simp] theorem setTarget_mem {f a} : (setTarget s f a).mem = s.mem := rfl

theorem transfer_wf {f a} (hs : s.Wf) : OnOk SndWf (transfer s f a) := .skip fun _ => hs

theorem pushSegment_wf {f rpc kind hlink eid ent hpc} (hs : s.Wf) :
    OnOk SndWf (pushSegment s f rpc kind hlink eid ent hpc) := by
  have unfolded : @pushSegment = @pushSegment := rfl
  conv_rhs at unfolded => delta pushSegment
  rw [unfolded]
  beta_reduce
  split
  · trivial
  · next a u taken =>
    refine .ok (.mk (.via (State.modFib_mem ..) (.via (touchSeg_mem ..) ?_)))
    exact putLink_wf _ _ _ _ _ _ _ _ _ ((takeSeg_onSome hs).apply taken)

@[simp] theorem leaveTo_mem {f rpc r} : (leaveTo s f rpc r).mem = s.mem := by
  unfold leaveTo
  split <;> rfl

theorem readLink_wf {f} (hs : s.Wf) : OnOk State.Wf (readLink s f) := .skip fun _ => hs.of_mem (touchSegs_mem ..)

theorem tableTarget_wf {f i a} (hs : s.Wf) : OnOk SndWf (tableTarget s f i a) := by
  refine (loadNum_wf hs).bind fun q hq => ?_
  extract_lets n
  split
  · trivial
  · split
    · trivial
    · exact (loadNum_wf hq).bind fun _ he => he

@[simp] theorem scrambleSu_mem {k} : (scrambleSu s k).mem = s.mem := rfl

theorem exitFolds_wf {f} (hs : s.Wf) : OnOk State.Wf (exitFolds s f) := by
  refine .foldM _ hs fun u n hu => ?_
  split
  · exact hu
  · split
    · trivial
    · exact hu.of_mem (t := State.modFib _ _ _) discardFold_mem
    · exact hu

theorem removeFibre_wf {f} (hs : s.Wf) : (removeFibre s f).Wf := by
  unfold removeFibre
  extract_lets x s1 s2
  have h1 : s1.Wf := foldl_inv _ hs fun u a hu => freeSeg_wf _ _ _ hu
  exact .via (t := s2.delFib f) ((State.delFib_mem ..).trans (freeArea_mem.trans leaveFlock_mem)) h1

theorem createFibre_wf {team role n idx core lane pc vst} (hs : s.Wf) :
    OnSome SndWf (createFibre s team role n idx core lane pc vst) := by
  refine (takeSeg_onSome hs).bind fun q hq => ?_
  refine (grantArea_wf hq).map fun a ha => ?_
  exact .mk (.mk (State.Wf.via (touchSeg_mem ..) (putLink_wf _ _ _ _ _ _ _ _ _ ha)))

/-- What SPAWN makes, if it makes a fibre. (The constant is unfolded before its arguments, and the search for a place and the
creation stand for themselves, so that the kernel need not evaluate them to tell two sides equal.) -/
theorem spawnFibre_wf {f target arg} (hs : s.Wf) : OnOk (OnSome TrdWf) (spawnFibre s f target arg) := by
  obtain ⟨place, placed⟩ : ∃ g, g = spawnPlace := ⟨_, rfl⟩
  obtain ⟨create, created, made⟩ : ∃ g, g = createFibre ∧
      ∀ team role n idx core lane vst, OnSome SndWf (g s team role n idx core lane target vst) :=
    ⟨_, rfl, fun _ _ _ _ _ _ _ => createFibre_wf hs⟩
  have unfolded : @spawnFibre = @spawnFibre := rfl
  conv_rhs at unfolded => delta spawnFibre
  rw [unfolded, ← placed, ← created]
  beta_reduce
  extract_lets x team n
  split
  · trivial
  · split
    · trivial
    · split
      · trivial
      · next c l k u created =>
        have hu : SndWf (k, u) := (made ..).apply created
        exact .via (penFile_mem.trans (State.modFib_mem ..)) hu

theorem spawnOne_wf {f target arg} (hs : s.Wf) : OnOk SndWf (spawnOne s f target arg) := by
  refine (spawnFibre_wf hs).map fun o ho => ?_
  cases o with
  | none => exact hs
  | some q => exact ho

end Sys2Proof.Machine
end

section
/-! PROOFS. Continuations, atomics, folds, barriers, tiles and the engines' accesses keep the canonical form of memory. -/

namespace Sys2Proof.Machine

variable {s t : State}

/-! ### Continuations that are resumed and sent (R130, R133) -/

theorem resumeReady_wf {f a} (hs : s.Wf) : OnOk State.Wf (resumeReady s f a) := by
  unfold resumeReady
  split
  · trivial
  · exact (drained_wf hs).bind fun _ hu => advanceView_wf hu

theorem resumeLane_wf {run f tail h xv} (hs : s.Wf) : OnOk SndWf (resumeLane s run f tail h xv) := by
  refine .skip fun _ => ?_
  split
  · trivial
  · refine .skip fun _ => ?_
    extract_lets x bot
    split
    · trivial
    · split
      · trivial
      · refine (resumeReady_wf hs).bind fun u hu => .ok (.mk (resumeContinuation_wf ?_))
        split
        · exact hu
        · exact putNum_wf _ _ _ _ (putNum_wf _ _ _ _ (putNum_wf _ _ _ _ hu))

theorem rehead_wf {cx a} (hs : s.Wf) : OnSome SndWf (rehead s cx a) :=
  (takeHeader_wf hs).map fun _ hq => .mk (putNum_wf _ _ _ _ (putNum_wf _ _ _ _ (putBytes_wf _ _ _ hq)))

theorem deliver_wf {key k h} (hs : s.Wf) : OnSome State.Wf (deliver s key k h) := by
  unfold deliver
  extract_lets cells
  split
  · trivial
  · exact performHome_wf _ _ _ hs

/-- A send within the device. (The constant is unfolded before its arguments, and the new header stands for itself, so that the
kernel need not evaluate it to tell two sides equal.) -/
theorem sendLocal_wf {f a delivery} (hs : s.Wf) : OnOk SndWf (sendLocal s f a delivery) := by
  obtain ⟨reheaded, same, hr⟩ : ∃ r, r = rehead s (s.ctxOf f) a ∧ OnSome SndWf r := ⟨_, rfl, rehead_wf hs⟩
  have unfolded : @sendLocal = @sendLocal := rfl
  conv_rhs at unfolded => delta sendLocal
  rw [unfolded]
  beta_reduce
  rw [← same]
  split
  · exact hs
  · split
    · exact hs
    · next b u =>
      have hu : u.Wf := hr
      split
      · next p v reached =>
        have hv : v.Wf := (translate_wf hu).apply reached
        split
        · trivial
        · next w delivered => exact (deliver_wf (putNum_wf _ _ _ _ hv)).apply delivered
      · trivial
      · exact hs
      · exact hs

theorem sendOne_wf {f h delivery dev} (hs : s.Wf) : OnOk SndWf (sendOne s f h delivery dev) := by
  refine (drainAt_wf hs).bind fun u hu => .skip fun _ => ?_
  split
  · exact hu
  · refine .skip fun _ => ?_
    split
    · exact hu
    · split
      · exact (sendLocal_wf hu).map fun _ hq => hq
      · split
        · exact hu
        · exact .ok (.mk (.via (State.send_mem ..) (putNum_wf _ _ _ _ hu)))

/-! ### Accesses (R163 to R178) -/

theorem resolve_wf {f space a n align acc} (hs : s.Wf) : OnOk TrdWf (resolve s f space a n align acc) := by
  unfold resolve
  split
  · exact (checkAccess_wf hs).map fun _ hq => hq
  · extract_lets va
    split
    · trivial
    · split
      · trivial
      · exact (checkAccess_wf hs).map fun _ hq => hq

@[simp] theorem startTok_mem {r ft fs} : (startTok s r ft fs).2.mem = s.mem := by
  unfold startTok
  split
  · rfl
  · exact State.modFibs_mem ..

@[simp] theorem putLoaded_mem {f wd d bytes} : (putLoaded s f wd d bytes).mem = s.mem := by
  unfold putLoaded
  split <;> rfl

theorem foldCheck_wf {f space ps} (hs : s.Wf) : OnOk SndWf (foldCheck s f space ps) := by
  unfold foldCheck
  split
  · exact hs
  · split
    · exact hs
    · split
      · trivial
      · split
        · exact hs
        · extract_lets old new
          split
          · trivial
          · exact hs

@[simp] theorem pushStore_mem {f va ps bytes scope line fold k tok} :
    (pushStore s f va ps bytes scope line fold k tok).mem = s.mem := enqueueStore_mem

theorem checkStore_wf {f space a n align} (hs : s.Wf) :
    OnOk (fun q => q.2.2.2.Wf) (checkStore s f space a n align) :=
  (resolve_wf hs).bind fun _ hq => .skip fun _ => (foldCheck_wf hq).bind fun _ hr => hr

theorem flushKeys_wf {keys keep} (hs : s.Wf) : OnSome State.Wf (flushKeys s keys keep) := by
  unfold flushKeys
  extract_lets words
  refine foldl_inv (I := OnSome State.Wf) _ hs fun o c ho => ?_
  split
  · exact ho
  · refine foldl_inv _ ho fun o w ho => ?_
    exact .foldl _ ho fun u i hu => writeBackGroup_wf hu

theorem atomicAt_wf {f va p n scope fn} (hs : s.Wf) : OnOk TrdWf (atomicAt s f va p n scope fn) := by
  unfold atomicAt
  extract_lets keys blank cl req ls done
  have hd : ∀ old k u, State.Wf u → OnOk TrdWf (done old k u) := fun _ _ _ hu => hu
  refine .skip fun _ => ?_
  split
  · trivial
  · split
    · split
      · exact hd _ _ _ hs
      · split
        · trivial
        · next u stored => exact hd _ _ _ ((performStore_wf hs).apply stored)
    · refine hd _ _ _ ?_
      split
      · exact hs
      · exact storeFrame_wf hs
    · refine (hostAnswer_wf hs).bind fun u hu => hd _ _ _ (.via (holdHost_mem ..) ?_)
      split
      · exact hu
      · exact .via (markCode_mem ..) (performHome_wf _ _ _ hu)
    · split
      · trivial
      · next u flushed =>
        have hu : u.Wf := (flushKeys_wf (hs.of_mem (backInvalidate_mem ..))).apply flushed
        refine hd _ _ _ ?_
        split
        · exact hu
        · split
          · exact hu
          · exact .via (markCode_mem ..) (performHome_wf _ _ _ hu)

@[simp] theorem noteScope_mem {key n scope} : (s.noteScope key n scope).mem = s.mem := rfl

theorem atomicMixed_wf {f va p n scope} (hs : s.Wf) : OnOk TrdWf (atomicMixed s f va p n scope) :=
  OnOk.map (atomicAt_wf (hs.of_mem drawMany_mem)) fun _ hq => hq

theorem atomicAccess_wf {f m n mapped fn} (hs : s.Wf) : OnOk SndWf (atomicAccess s f m n mapped fn) := by
  refine .skip fun b => (resolve_wf hs).bind fun r hr => ?_
  extract_lets p
  refine .skip fun _ => ?_
  split
  · trivial
  · refine (settleStores_wf hr).bind fun u hu => ?_
    split
    · trivial
    · extract_lets mixed act
      have ha : ∀ v : State, v.Wf → OnOk TrdWf (act v) := by
        intro v hv
        show OnOk TrdWf (if mixed then _ else _)
        split
        · exact atomicMixed_wf hv
        · exact atomicAt_wf hv
      refine (ha u hu).bind fun seen hseen => OnOk.bind (P := TrdWf) ?_ fun q hq => ?_
      · split
        · exact (drainAt_wf hu).bind ha
        · exact hseen
      · refine OnOk.map (P := State.Wf) ?_ fun v hv => hv
        split
        · exact advanceView_wf hq
        · exact hq

/-! ### Loops that wait, and barriers (R190, R191, R229) -/

@[simp] theorem undefineBank_mem {core w} : (undefineBank s core w).mem = s.mem := by
  unfold undefineBank
  split
  · rfl
  · refine foldl_mem _ (fun u k => ?_) _ _
    rfl

@[simp] theorem matchLoops_mem {core done} : (matchLoops s core done).mem = s.mem := by
  unfold matchLoops
  extract_lets hit s1
  exact foldl_mem _ (fun _ _ => undefineBank_mem) _ _

@[simp] theorem observeLine_mem {line} : (observeLine s line).mem = s.mem :=
  foldl_mem _ (fun _ _ => matchLoops_mem) _ _

theorem putBarrier_wf {line expect arrived phase flags status k} (hs : s.Wf) :
    (putBarrier s line expect arrived phase flags status k).Wf :=
  .via (State.modLine_mem ..) (performHome_wf _ _ _ hs)

theorem clearLine_wf {line} (hs : s.Wf) : (clearLine s line).Wf := flushWords_wf _ _ hs

theorem arriveAt_wf {line k leave} (hs : s.Wf) : SndWf (arriveAt s line k leave) := by
  unfold arriveAt
  extract_lets phase expect arrived leaves
  split
  · exact .mk (.via (wakeBarrier_mem ..) (putBarrier_wf (hs.of_mem (State.modLine_mem ..))))
  · exact .mk (putBarrier_wf (hs.of_mem (State.modLine_mem ..)))

theorem killBarrier_wf {line k} (hs : s.Wf) : (killBarrier s line k).Wf :=
  .via (State.modLine_mem ..) (performHome_wf _ _ _ hs)

/-! ### Memory instructions of one lane (R163 to R182) -/

theorem loadAccess_wf {f m} (hs : s.Wf) : OnOk TrdWf (loadAccess s f m) :=
  .skip fun _ => .skip fun _ => loadBytes_wf hs

theorem acquireLoad_wf {f fs m k} (hs : s.Wf) : OnOk State.Wf (acquireLoad s f fs m k) := by
  unfold acquireLoad
  split
  · refine OnOk.map (.foldM _ hs fun _ _ hu => advanceView_wf hu) fun u hu => ?_
    split
    · exact hu
    · exact hu.of_mem (foldl_mem _ (fun _ _ => observeLine_mem) _ _)
  · exact hs

theorem atomLane_wf {f m wide ret mapped fn} (hs : s.Wf) : OnOk SndWf (atomLane s f m wide ret mapped fn) := by
  refine .skip fun _ => (atomicAccess_wf hs).bind fun r hr => .ok (.mk ?_)
  split
  · exact .via putWide_mem hr
  · exact hr

@[simp] theorem setLineBit_mem {key full} : (setLineBit s key full).mem = s.mem := rfl

theorem lineBit_wf {f m full} (hs : s.Wf) : OnOk SndWf (lineBit s f m full) := by
  refine .skip fun b => (resolve_wf hs).bind fun r hr => ?_
  extract_lets p
  split
  · trivial
  · refine OnOk.bind (P := State.Wf) ?_ fun u hu => .skip fun _ => .ok (.mk (.via setLineBit_mem (reachCore_wf hu)))
    split
    · exact drainAt_wf hr
    · exact hr

theorem drainCore_wf {f scope} (hs : s.Wf) : OnOk State.Wf (drainCore s f scope) :=
  .foldM _ hs fun _ _ hu => drainAt_wf hu

theorem fenceLane_wf {f scope} (hs : s.Wf) : OnOk SndWf (fenceLane s f scope) := by
  refine (drainCore_wf hs).bind fun u hu => ?_
  split
  · trivial
  · exact hu

@[simp] theorem recordT0_mem {g} : (recordT0 s g).mem = s.mem := by
  unfold recordT0
  split
  · rfl
  · exact State.modFibs_mem ..

theorem homeLine_wf {cl line} (hs : s.Wf) : OnSome State.Wf (homeLine s cl line) :=
  .foldl _ hs fun _ _ hu => writeBackGroup_wf hu

@[simp] theorem dropCode_mem {c line} : (dropCode s c line).mem = s.mem := rfl

/-! ### Folds and barriers of one lane (R183 to R192) -/

theorem openLane_wf {f n} (hs : s.Wf) : OnOk State.Wf (openLane s f n) := by
  unfold openLane
  extract_lets x c slice seq tag
  repeat' split
  · trivial
  · trivial
  · exact hs
  · trivial

theorem sealLane_wf {f d n} (hs : s.Wf) : OnOk State.Wf (sealLane s f d n) := by
  refine .skip fun _ => ?_
  split
  · trivial
  · split
    · trivial
    · exact (drainAt_wf hs).bind fun u hu => hu
    · exact (drainAt_wf hs).map fun u hu => hu

theorem abortLane_wf {f n} (hs : s.Wf) : OnOk SndWf (abortLane s f n) := by
  unfold abortLane
  split
  · exact hs
  · extract_lets empty
    split
    · exact .ok (.mk (.via ((State.modFib_mem ..).trans discardFold_mem) hs))
    · trivial
    · exact hs
    · exact hs

theorem viewLane_wf {f stamp} (hs : s.Wf) : OnOk State.Wf (viewLane s f stamp) := by
  unfold viewLane
  split
  · exact advanceView_wf hs
  · extract_lets t
    split
    · trivial
    · split
      · trivial
      · exact hs

theorem barrierLine_wf {f m acc} (hs : s.Wf) : OnOk TrdWf (barrierLine s f m acc) := by
  refine .skip fun b => (resolve_wf hs).bind fun r hr => ?_
  extract_lets p
  split
  · trivial
  · exact .skip fun _ => hr

theorem arriveLane_wf {f d m leave} (hs : s.Wf) : OnOk SndWf (arriveLane s f d m leave) := by
  refine .skip fun _ => (barrierLine_wf hs).bind fun r hr => ?_
  split
  · trivial
  · refine (drainAt_wf hr).bind fun u hu => .skip fun _ => ?_
    extract_lets a
    have ha : SndWf a := arriveAt_wf (clearLine_wf hu)
    exact .ok (.mk (.via put32_mem ha))

theorem barwLane_wf {f d m} (hs : s.Wf) : OnOk SndWf (barwLane s f d m) := by
  refine .skip fun _ => (barrierLine_wf hs).bind fun r hr => ?_
  split
  · exact (advanceView_wf hr).map fun u hu => .mk (.via observeLine_mem hu)
  · trivial

/-! ### Tiles (R203 to R217) -/

@[simp] theorem defineTile_mem {core team tile} : (defineTile s core team tile).2.2.mem = s.mem := rfl
@[simp] theorem wakeTile_mem {r changed} : (wakeTile s r changed).mem = s.mem := rfl

@[simp] theorem freeTile_mem {r} : (freeTile s r).mem = s.mem := by
  unfold freeTile
  split <;> rfl

@[simp] theorem withAgent_mem {core team slice} : (withAgent s core team slice).2.mem = s.mem := rfl

theorem releaseAll_wf {fs scope} (hs : s.Wf) : OnOk State.Wf (releaseAll s fs scope) :=
  .foldM _ hs fun _ _ hu => drainAt_wf hu

theorem acquireAll_wf {fs scope k} (hs : s.Wf) : OnOk State.Wf (acquireAll s fs scope k) :=
  .foldM _ hs fun _ _ hu => advanceView_wf hu

@[simp] theorem put32All_mem {fs d v} : (put32All s fs d v).mem = s.mem := foldl_mem _ (fun _ _ => put32_mem) _ _

@[simp] theorem startOp_mem {r ft fs d} : (startOp s r ft fs d).2.mem = s.mem := by
  unfold startOp
  exact State.modFibs_mem ..

@[simp] theorem landReg_mem {fs tok d v k} : (landReg s fs tok d v k).mem = s.mem := by simp [landReg]

theorem findReady_wf {fs tile} (hs : s.Wf) : OnOk State.Wf (findReady s fs tile) := acquireAll_wf hs

theorem translateImage_wf {f acc segs} (hs : s.Wf) : OnOk SndWf (translateImage s f acc segs) := by
  unfold translateImage
  extract_lets ps
  split
  · trivial
  · refine .foldM _ hs fun q p hq => ?_
    exact (translate_wf hq).bind fun _ hr => hr

theorem engineImage_wf {core team slice acc segs} (hs : s.Wf) :
    OnOk SndWf (engineImage s core team slice acc segs) := by
  unfold engineImage
  extract_lets a
  have ha : SndWf a := hs.of_mem withAgent_mem
  refine (translateImage_wf ha).map fun r hr => .mk ?_
  split
  · exact .via (readBy_mem.trans (State.delFib_mem ..)) hr
  · exact .via (State.delFib_mem ..) hr

theorem engineScratch_wf {core cells k} (hs : s.Wf) : (engineScratch s core cells k).Wf := by
  refine .via (wakeWords_mem ..) (.via (foldl_mem _ (fun u c => ?_) _ _) (putCells_wf _ _ (performCore_wf hs)))
  exact (raiseLs_mem ..).trans (taint_mem ..)

@[simp] theorem untypeKeys_mem {u keys} : (untypeKeys s u keys).mem = s.mem := by
  unfold untypeKeys
  split
  · rfl
  · exact foldl_mem _ (fun _ _ => untype_mem ..) _ _

theorem engineWrite_wf {core ctx k u p bytes} (hs : s.Wf) : OnSome State.Wf (engineWrite s core ctx k u p bytes) := by
  unfold engineWrite
  extract_lets cells
  split
  · exact .mk (.via untypeKeys_mem (engineScratch_wf hs))
  · exact performStore_wf hs

theorem engineWrites_wf {core ctx k u ps bytes} (hs : s.Wf) : OnSome State.Wf (engineWrites s core ctx k u ps bytes) := by
  induction ps generalizing s bytes with
  | nil => exact hs
  | cons p r ih => exact (engineWrite_wf hs).bind fun _ hu => ih hu

@[simp] theorem undefinedBytes_mem {n} : (undefinedBytes s n).2.mem = s.mem := rfl

theorem checkTransfer_wf {f tile va pitch store} (hs : s.Wf) :
    OnOk State.Wf (checkTransfer s f tile va pitch store) := by
  unfold checkTransfer
  extract_lets acc
  repeat' split
  · trivial
  · trivial
  · trivial
  · exact (translateImage_wf hs).map fun _ hq => hq

theorem transferTile_wf {run f fs d a b c ft store} (hs : s.Wf) :
    OnOk State.Wf (transferTile s run f fs d a b c ft store) := by
  refine .skip fun _ => .skip fun _ => .skip fun _ => .skip fun _ => .skip fun r => ?_
  refine (checkTransfer_wf hs).bind fun u hu => .skip fun _ => (drained_wf hu).bind fun v hv => ?_
  refine OnOk.bind (P := State.Wf) ?_ fun w hw => ?_
  · split
    · exact findReady_wf hv
    · exact hv
  · exact .ok (.via ((beginTransfer_mem ..).trans startOp_mem) hw)

theorem sideFound_wf {f side} (hs : s.Wf) : OnOk State.Wf (sideFound s f side) := by
  unfold sideFound
  split
  · exact hs
  · exact findReady_wf hs

@[simp] theorem elementStore_mem {f cells tok} : (elementStore s f cells tok).mem = s.mem := enqueueStore_mem

@[simp] theorem pushElements_mem {f tok cs} : (pushElements s f tok cs).mem = s.mem := by
  induction cs generalizing s with
  | nil => rfl
  | cons c r ih =>
    cases r with
    | nil => exact elementStore_mem
    | cons d r => exact ih.trans elementStore_mem

theorem qstLane_wf {run f d a b keep n cy ft} (hs : s.Wf) : OnOk State.Wf (qstLane s run f d a b keep n cy ft) := by
  refine .skip fun _ => .skip fun r => ?_
  extract_lets t team
  refine .skip fun m => .skip fun side => ?_
  split
  · trivial
  · refine .skip fun _ => .skip fun pos => ?_
    extract_lets l e
    split
    · trivial
    · refine .skip fun _ => .skip fun _ => (findReady_wf hs).bind fun u hu => (sideFound_wf hu).bind fun v hv => ?_
      extract_lets
      refine .skip fun _ => ?_
      exact .ok (.via ((State.modFib_mem ..).trans (pushElements_mem.trans startTok_mem)) hv)

/-! ### The matrix engine's acceptance (R219 to R229) -/

theorem namedBarrier_wf {f ba} (hs : s.Wf) : OnOk SndWf (namedBarrier s f ba) := by
  refine (checkAccess_wf hs).bind fun r hr => ?_
  extract_lets p
  split
  · trivial
  · split
    · trivial
    · exact .skip fun _ => hr

theorem loopBarrier_wf {f ba} (hs : s.Wf) : OnOk SndWf (loopBarrier s f ba) := by
  unfold loopBarrier
  split
  · exact hs
  · exact (namedBarrier_wf hs).map fun _ hq => hq

theorem acceptLoop_wf {core team bank p obj k task tok fs} (hs : s.Wf) :
    (acceptLoop s core team bank p obj k task tok fs).Wf := .via (State.modCore_mem ..) (performCore_wf hs)

@[simp] theorem acceptZero_mem {core team bank k task} : (acceptZero s core team bank k task).mem = s.mem := rfl

theorem accRead_wf {f d a bank n} (hs : s.Wf) : OnOk State.Wf (accRead s f d a bank n) := by
  refine .skip fun p => ?_
  extract_lets core
  split
  · exact hs
  · exact hs

end Sys2Proof.Machine
end

section
/-! PROOFS. The copy engine and the tasks of a core keep the canonical form of memory. -/

namespace Sys2Proof.Machine

variable {s t : State}

/-! ### The slices of a copy (R231) -/

theorem mergeStatus_wf {line w k} (hs : s.Wf) : (mergeStatus s line w k).Wf := putBarrier_wf hs

theorem engineArrive_wf {line w k} (hs : s.Wf) : OnSome State.Wf (engineArrive s line w k) := by
  unfold engineArrive
  split
  · exact hs
  · split
    · trivial
    · have arrived := arriveAt_wf (line := line) (k := k) (leave := false)
        (mergeStatus_wf (line := line) (w := w) (k := k) (clearLine_wf (line := line) hs))
      exact .mk arrived

@[simp] theorem addSlice_mem {core obj x last} : (addSlice s core obj x last).mem = s.mem := rfl

theorem copyObject_wf {f a} (hs : s.Wf) : OnOk SndWf (copyObject s f a) := by
  refine (namedBarrier_wf hs).bind fun r hr => ?_
  extract_lets held
  split
  · trivial
  · split
    · trivial
    · exact hr

theorem arriveSlice_wf {obj k} (hs : s.Wf) : TrdWf (arriveSlice s obj k) := .mk (putBarrier_wf hs)

theorem joinPhase_wf {run f fs d ft obj tl x} (hs : s.Wf) : OnOk State.Wf (joinPhase s run f fs d ft obj tl x) := by
  unfold joinPhase
  extract_lets x0
  refine (releaseAll_wf hs).bind fun u hu => .skip fun _ => ?_
  extract_lets k ar
  have har : TrdWf ar := arriveSlice_wf (clearLine_wf hu)
  refine .ok (.via (put32All_mem.trans addSlice_mem) (State.Wf.of_mem (s := ar.2.2) har ?_))
  show State.mem (match tl with | some r => _ | none => _) = _
  split
  · split
    · exact startTok_mem
    · exact (setTileState_mem ..).trans startTok_mem
  · exact startTok_mem

theorem copySlice_wf {run f fs d a b c tile ft} (hs : s.Wf) :
    OnOk State.Wf (copySlice s run f fs d a b c tile ft) := by
  refine .skip fun _ => .skip fun obj => .skip fun va => .skip fun expected => ?_
  refine (loadBytes_wf hs).bind fun q hq => .skip fun xs => (translateImage_wf hq).bind fun r hr => ?_
  refine .skip fun tl => (copyObject_wf hr).bind fun o ho => .skip fun _ => joinPhase_wf ho

theorem sliceDests_wf {x} (hs : s.Wf) : OnOk SndWf (sliceDests s x) := by
  unfold sliceDests
  split
  · exact engineImage_wf hs
  · split
    · trivial
    · exact hs

theorem sliceSource_wf {x} (hs : s.Wf) : OnDone SndWf (sliceSource s x) := by
  unfold sliceSource
  split
  · next r found =>
    have hr : SndWf r := (engineImage_wf hs).apply found
    extract_lets keys
    split
    · trivial
    · exact hr
  · trivial
  · trivial

theorem stageSlices_wf {xs} (hs : s.Wf) : TrdWf (stageSlices s xs) := by
  induction xs generalizing s with
  | nil => exact hs
  | cons x r ih =>
    unfold stageSlices
    split
    · exact hs
    · next b staged =>
      have hb : SndWf b := (sliceSource_wf hs).apply staged
      exact ih hb

@[simp] theorem modPhase_mem {core sel g} : (modPhase s core sel g).mem = s.mem := by
  unfold modPhase
  split <;> rfl

theorem startPhase_wf {core p} (hs : s.Wf) : (startPhase s core p).Wf := by
  unfold startPhase
  extract_lets bad q ls s1
  have hq : TrdWf q := by
    show TrdWf (if bad = 0 then _ else _)
    split
    · exact stageSlices_wf hs
    · exact hs
  exact .via (modPhase_mem.trans ((State.modCore_mem ..).trans (markLines_mem ..))) hq

theorem phasePieces_wf {xs} (hs : s.Wf) : OnOk SndWf (phasePieces s xs) := by
  induction xs generalizing s with
  | nil => exact hs
  | cons x r ih => exact (sliceDests_wf hs).bind fun d hd => (ih hd).map fun q hq => hq

/-- An engine's write of undefined bytes, which is left out where the place cannot take it. -/
theorem engineWrite_undefined_wf {core ctx k u p n} (hs : s.Wf) :
    State.Wf ((engineWrite (undefinedBytes s n).2 core ctx k u p (undefinedBytes s n).1).getD (undefinedBytes s n).2) :=
  (engineWrite_wf (hs.of_mem undefinedBytes_mem)).getD (hs.of_mem undefinedBytes_mem)

theorem undefineDests_wf {xs} (hs : s.Wf) : (undefineDests s xs).Wf := by
  refine foldl_inv xs hs fun u x hu => ?_
  split
  · next d found =>
    have hd : SndWf d := (sliceDests_wf hu).apply found
    exact foldl_inv (I := State.Wf) _ hd fun v p hv => engineWrite_undefined_wf hv
  · exact hu

theorem writeSlices_wf {xs ps bs} (hs : s.Wf) : OnSome State.Wf (writeSlices s xs ps bs) := by
  induction xs generalizing s ps bs with
  | nil => exact hs
  | cons x xs ih =>
    cases ps with
    | nil => exact hs
    | cons p ps =>
      cases bs with
      | nil => exact hs
      | cons b bs => exact (engineWrites_wf hs).bind fun u hu => ih hu

theorem undefineKeys_wf {ctx core keys} (hs : s.Wf) : (undefineKeys s ctx core keys).Wf :=
  foldl_inv (I := State.Wf) keys hs fun _ _ hu => engineWrite_undefined_wf hu

theorem writePhase_wf {p x} (hs : s.Wf) : OnSome SndWf (writePhase p x s) := by
  unfold writePhase
  split
  · next ps u found =>
    have hu : u.Wf := (phasePieces_wf hs).apply found
    split
    · exact hu
    · exact (writeSlices_wf hu).map fun v hv => .mk (undefineKeys_wf hv)
  · exact hs
  · exact hs
  · trivial

/-- The end of a commit: where the version is another, code 2; else the write, after which the version is stored. -/
theorem writeVersion_wf {other : Prop} {d : Decidable other} {o cells k} (hs : s.Wf) (ho : OnSome SndWf o) :
    OnSome SndWf (@ite _ other d (some (2, s)) (o.map fun q : Nat × State =>
      if q.1 ≠ 0 then q else (0, q.2.performHome cells k))) := by
  refine .ite hs (ho.map fun q hq => ?_)
  split
  · exact hq
  · exact .mk (performHome_wf _ _ _ hq)

/-- The decision is an argument, as in `writeVersion_wf`, so that it is taken as it stands and never evaluated. -/
theorem commitTail_wf {o : Option State} {other : State → Prop} {d : ∀ u, Decidable (other u)}
    {write : State → Option (Nat × State)} {cells k} (ho : OnSome State.Wf o)
    (hw : ∀ u : State, u.Wf → OnSome SndWf (write u)) :
    OnSome SndWf (o.bind fun u => @ite _ (other u) (d u) (some (2, u)) ((write u).map fun q : Nat × State =>
      if q.1 ≠ 0 then q else (0, q.2.performHome cells k))) :=
  ho.bind fun u hu => writeVersion_wf hu (hw u hu)

theorem commitVersion_wf {x va expected write} (hs : s.Wf) (hw : ∀ u : State, u.Wf → OnSome SndWf (write u)) :
    OnSome SndWf (commitVersion s x va expected write) := by
  unfold commitVersion
  extract_lets a
  split
  · exact hs
  · exact hs
  · trivial
  · extract_lets key keys
    split
    · exact hs
    · split
      · exact hs
      · split
        · trivial
        · exact commitTail_wf (flushKeys_wf hs) hw

theorem finishPhase_wf {p} (hs : s.Wf) : OnSome SndWf (finishPhase s p) := by
  unfold finishPhase
  split
  · exact hs
  · split
    · exact hs
    · split
      · exact commitVersion_wf hs fun _ => writePhase_wf
      · exact writePhase_wf hs

theorem finishToks_mem {toks : List Nat} : (toks.foldl (fun s t => s.finishTok t) s).mem = s.mem :=
  foldl_mem _ (fun _ _ => finishTok_mem) _ _

theorem wakeTiles_mem {rs : List TileRef} {changed} :
    (rs.foldl (fun s r => wakeTile s r changed) s).mem = s.mem :=
  foldl_mem _ (fun _ _ => wakeTile_mem) _ _

theorem completePhase_wf {core p} (hs : s.Wf) : (completePhase s core p).Wf := by
  unfold completePhase
  split
  · exact hs
  · split
    · exact hs
    · next code u finished =>
      have hu : u.Wf := (finishPhase_wf hs).apply finished
      extract_lets aborted s2 k s3 s4 t s5 s6 s7
      have h2 : s2.Wf := by
        show State.Wf (if aborted then _ else _)
        split
        · exact undefineDests_wf hu
        · exact hu
      have h4 : s4.Wf := .via ((markLines_mem ..).trans (landTiles_mem ..)) h2
      have h5 : s5.Wf := by
        show State.Wf (if !(s4.line p.obj).live then _ else _)
        split
        · exact h4
        · exact .via (wakeBarrier_mem ..) (putBarrier_wf (mergeStatus_wf (clearLine_wf h4)))
      exact .via (wakeTiles_mem.trans ((State.modCore_mem ..).trans finishToks_mem)) h5

/-! ### Tasks, rendezvous and dispatch (R236 to R238) -/

@[simp] theorem newGroup_mem {core g} : (newGroup s core g).2.mem = s.mem := rfl
@[simp] theorem enqueueTask_mem {f group e addr prog list k} : (enqueueTask s f group e addr prog list k).mem = s.mem := rfl

@[simp] theorem enqueuePrograms_mem {f group progs list k} : (enqueuePrograms s f group progs list k).mem = s.mem := by
  refine foldl_mem _ (fun u e => ?_) _ _
  dsimp only
  split
  · rfl
  · exact enqueueTask_mem

theorem rdvLine_wf {f a} (hs : s.Wf) : OnOk TrdWf (rdvLine s f a) := by
  refine .skip fun va => (checkAccess_wf hs).bind fun r hr => ?_
  extract_lets p
  split
  · trivial
  · exact .skip fun _ => hr

theorem rdvArrive_wf {g a b} (hs : s.Wf) : (rdvArrive s g a b).Wf := by
  unfold rdvArrive
  split
  · exact hs
  · split
    · exact hs
    · extract_lets mark
      split
      · exact .via (State.modFibs_mem ..) hs
      · split
        · next u _ found _ =>
          have hu : u.Wf := (rdvLine_wf hs).apply found
          split
          · exact hs
          · split
            · next w released =>
              have hw : w.Wf := (releaseAll_wf hu).apply released
              exact .via (State.modFibs_mem ..) (arriveAt_wf (clearLine_wf hw))
            · exact hs
        · exact hs

theorem rdvWait_wf {f fs a b} (hs : s.Wf) : OnOk State.Wf (rdvWait s f fs a b) := by
  refine .skip fun _ => .skip fun tok => (rdvLine_wf hs).bind fun r hr => ?_
  split
  · split <;> trivial
  · split
    · exact (acquireAll_wf hr).map fun u hu => .via ((State.modFibs_mem ..).trans observeLine_mem) hu
    · trivial

theorem findRecord_wf {f mtp op os n i seen} (hs : s.Wf) : OnOk TrdWf (findRecord s f mtp op os n i seen) := by
  induction n generalizing s i seen with
  | zero => exact hs
  | succ n ih =>
    refine (loadBytes_wf hs).bind fun r hr => ?_
    split
    · exact hr
    · exact ih hr

theorem dispatchLookup_wf {f mtp op count n os rules} (hs : s.Wf) :
    OnOk SndWf (dispatchLookup s f mtp op count n os rules) := by
  induction n generalizing os rules with
  | zero => trivial
  | succ n ih =>
    refine (findRecord_wf hs).bind fun q hq => ?_
    split
    · trivial
    · split
      · trivial
      · split
        · exact hq
        · extract_lets i u
          split
          · trivial
          · split
            · trivial
            · split
              · trivial
              · split
                · trivial
                · exact ih

theorem lookupMethod_wf {f op os} (hs : s.Wf) : OnOk SndWf (lookupMethod s f op os) := by
  unfold lookupMethod
  extract_lets mtp
  split
  · trivial
  · refine (loadBytes_wf hs).bind fun r hr => ?_
    extract_lets n
    split
    · trivial
    · exact dispatchLookup_wf hr

theorem defineTemps_wf {f cs hl} (hs : s.Wf) : OnOk SndWf (defineTemps s f cs hl) := by
  induction cs generalizing s with
  | nil => exact hs
  | cons c rest ih =>
    refine .skip fun src => ?_
    extract_lets t
    refine .skip fun t1 => ?_
    extract_lets q
    exact (ih (State.Wf.of_mem hs defineTile_mem)).map fun r hr => hr

@[simp] theorem enqueueDispatch_mem {f grp found hs temps k} :
    (enqueueDispatch s f grp found hs temps k).mem = s.mem :=
  enqueuePrograms_mem.trans (foldl_mem _ (fun _ _ => enqueueTask_mem) _ _)

theorem routineFibre_wf {f found hl obj} (hs : s.Wf) :
    OnOk (OnSome State.Wf) (routineFibre s f found hl obj) := by
  unfold routineFibre
  extract_lets arg
  split
  · exact hs
  · exact .skip fun _ => (spawnFibre_wf hs).map fun o ho => ho.map fun q hq => hq

theorem dispatchEnds_wf {line code k} (hs : s.Wf) : OnOk State.Wf (dispatchEnds s line code k) := by
  unfold dispatchEnds
  split
  · trivial
  · next u arrived => exact (engineArrive_wf hs).apply arrived

theorem runDispatch_wf {f found hl obj line k} (hs : s.Wf) : OnOk State.Wf (runDispatch s f found hl obj line k) := by
  unfold runDispatch
  extract_lets core tasks
  split
  · exact dispatchEnds_wf hs
  · refine (defineTemps_wf hs).bind fun td htd => ?_
    extract_lets hs2 g s2
    have h2 : s2.Wf := by
      show State.Wf (if tasks = 0 then _ else _)
      split
      · exact htd
      · exact .via (enqueueDispatch_mem.trans newGroup_mem) htd
    refine (routineFibre_wf h2).bind fun o ho => ?_
    split
    · exact dispatchEnds_wf (ho.getD h2)
    · exact ho.getD h2

end Sys2Proof.Machine
end

section
/-! PROOFS. The engines of a core, and the start of a run, keep the canonical form of memory. -/

namespace Sys2Proof.Machine

variable {s t : State}

/-! ### Tasks and their commands (R234, R352, R362) -/

theorem freeTiles_mem {rs : List TileRef} : (rs.foldl freeTile s).mem = s.mem := foldl_mem _ (fun _ _ => freeTile_mem) _ _

theorem endGroup_wf {core grp g} (hs : s.Wf) : OnSome State.Wf (endGroup s core grp g) :=
  (engineArrive_wf hs).map fun _ hu => .via ((State.modCore_mem ..).trans freeTiles_mem) hu

theorem endTask_wf {core key w} (hs : s.Wf) : OnSome State.Wf (endTask s core key w) := by
  unfold endTask
  split
  · exact hs
  · split
    · exact .via (State.modCore_mem ..) hs
    · extract_lets g1 s1 s2
      have h2 : s2.Wf := .via wakeTiles_mem (State.Wf.via (State.modCore_mem ..) hs)
      split
      · exact h2
      · exact endGroup_wf h2

theorem commandDone_wf {core key code nans errs} (hs : s.Wf) :
    OnSome State.Wf (commandDone s core key code nans errs) := by
  unfold commandDone
  split
  · exact hs
  · extract_lets w u
    split
    · exact endTask_wf hs
    · exact .via (State.modCore_mem ..) hs

theorem commandEnds_wf {core key code nans errs} (hs : s.Wf) :
    OnSome State.Wf (commandDone? s core key code nans errs) := by
  cases key with
  | none => exact hs
  | some k => exact commandDone_wf hs

/-! ### The matrix sequencer (R223) -/

@[simp] theorem undefineElems_mem {core phys es} : (undefineElems s core phys es).mem = s.mem :=
  (State.modCore_mem ..).trans drawMany_mem

@[simp] theorem runStep_mem {core phys i o l} : (runStep s core phys i o l).mem = s.mem := by
  unfold runStep
  split
  · rfl
  · extract_lets cells nan0 hurt lost last s1 s2 nans
    refine (State.modCore_mem ..).trans ?_
    show State.mem (if last then _ else _) = _
    split
    · exact undefineElems_mem
    · rfl

theorem finishLoop_wf {core i o} (hs : s.Wf) : OnSome State.Wf (finishLoop s core i o) := by
  unfold finishLoop
  extract_lets code w
  refine OnSome.bind (P := State.Wf) ?_ fun u hu => ?_
  · split
    · exact hs
    · exact engineArrive_wf hs
  · extract_lets s2 s3
    refine commandEnds_wf (State.Wf.via (wakeTile_mem.trans wakeTile_mem) ?_)
    show State.Wf (match o.tok with | none => s2 | some t => s2.finishTok t)
    split
    · exact hu
    · exact .via finishTok_mem hu

/-! ### The copy engine (R203, R205, R214, R235) -/

theorem finishXfer_wf {core i x code aborted} (hs : s.Wf) :
    OnSome State.Wf (finishXfer s core i x code aborted) := by
  unfold finishXfer
  extract_lets raise s1 s2 s3 s4
  have raise_mem (u : State) (r : TileRef) : (raise u r).mem = u.mem := modTile_mem
  have h1 : s1.Wf := by
    show State.Wf (match x.dst with | some r => _ | none => _)
    split
    · exact .via ((setTileState_mem ..).trans (raise_mem _ _)) hs
    · exact hs
  have h2 : s2.Wf := by
    show State.Wf (match x.src with | some r => _ | none => _)
    split
    · exact .via ((setTileState_mem ..).trans (raise_mem _ _)) h1
    · exact h1
  have h3 : s3.Wf := .via ((State.modCore_mem ..).trans (markLines_mem ..)) h2
  refine commandEnds_wf ?_
  show State.Wf (match x.reg, x.tok with | some d, some t => _ | _, _ => _)
  split
  · exact .via landReg_mem h3
  · exact h3

theorem undefineTile_wf {keys} (hs : s.Wf) : (undefineTile s keys).Wf := putCells_wf _ _ hs

theorem undefinePieces_wf {core ctx k keep ps} (hs : s.Wf) : (undefinePieces s core ctx k keep ps).Wf := by
  refine foldl_inv (I := State.Wf) _ hs fun u p hu => ?_
  extract_lets b
  have hb : b.2.Wf := .via undefinedBytes_mem hu
  exact (engineWrite_wf hb).getD hb

theorem endLoad_wf {core i x r tile} (hs : s.Wf) : OnSome State.Wf (endLoad s core i x r tile) := by
  unfold endLoad
  extract_lets keys abort
  have hab (u : State) (c : Nat) (hu : u.Wf) : OnSome State.Wf (abort u c) := finishXfer_wf (undefineTile_wf hu)
  split
  · next p image =>
    have hp : SndWf p := (engineImage_wf hs).apply image
    extract_lets src
    split
    · exact hab _ _ hp
    · exact finishXfer_wf (engineScratch_wf hp)
  · exact hab _ _ hs
  · exact hab _ _ hs

theorem endStore_wf {core i x r tile} (hs : s.Wf) : OnSome State.Wf (endStore s core i x r tile) := by
  unfold endStore
  extract_lets ctx segs abort keys
  have hab (c : Nat) : OnSome State.Wf (abort c) := finishXfer_wf (undefinePieces_wf hs)
  split
  · next p image =>
    have hp : SndWf p := (engineImage_wf hs).apply image
    split
    · exact hab _
    · split
      · exact hab _
      · exact (engineWrites_wf hp).bind fun u hu => finishXfer_wf hu
  · exact hab _
  · exact hab _

theorem endRod_wf {core i x rs rd src dst} (hs : s.Wf) : OnSome State.Wf (endRod s core i x rs rd src dst) := by
  unfold endRod
  extract_lets ps s1
  split
  · exact finishXfer_wf (undefineTile_wf hs)
  · exact finishXfer_wf (.via modTile_mem (putCells_wf _ _ hs))

theorem convertWrite_wf {core k dst cells} (hs : s.Wf) : (convertWrite s core k dst cells).Wf := by
  unfold convertWrite
  split
  · exact putCells_wf _ _ hs
  · exact engineScratch_wf hs

theorem endConvert_wf {core i x} (hs : s.Wf) : OnSome State.Wf (endConvert s core i x) := by
  unfold endConvert
  split
  · refine .skip fun src => .skip fun dst => ?_
    split
    · extract_lets vs vd bs keys cells s0
      have h0 : s0.Wf := hs
      split
      · exact finishXfer_wf (undefineTile_wf h0)
      · exact (finishXfer_wf (convertWrite_wf h0)).bind fun u hu => commandEnds_wf hu
    · trivial
  · trivial

/-! ### Commands that start (R220, R228, R234, R235, R355) -/

theorem resCode_onDone {α : Type} {P : α → Prop} {b} {r : Res α} (h : OnOk P r) : OnDone P (resCode b r) := by
  cases r with
  | ok a => exact h
  | bad e | wait | sys c w => trivial

@[simp] theorem startRunning_mem {core key e} : (startRunning s core key e).mem = s.mem := rfl

theorem loopCommand_wf {core key x c} (hs : s.Wf) : OnDone State.Wf (loopCommand s core key x c) := by
  unfold loopCommand
  extract_lets a w0 w
  refine .skip fun _ => .skip fun ta => .skip fun tb => .skip fun _ => .skip fun ops => .skip fun _ => ?_
  exact OnDone.bind (P := SndWf) (resCode_onDone (loopBarrier_wf (State.Wf.via withAgent_mem hs))) fun br hbr =>
    acceptLoop_wf (State.Wf.via (startRunning_mem.trans (State.delFib_mem ..)) hbr)

theorem zeroCommand_wf {core key x c} (hs : s.Wf) : OnDone State.Wf (zeroCommand s core key x c) :=
  .map_skip fun _ => State.Wf.via (acceptZero_mem.trans startRunning_mem) hs

theorem transferCommand_wf {core key x c store} (hs : s.Wf) :
    OnDone State.Wf (transferCommand s core key x c store) :=
  .skip fun _ => OnDone.map (P := State.Wf) (resCode_onDone (checkTransfer_wf (State.Wf.via withAgent_mem hs))) fun _ hu =>
    .via ((beginTransfer_mem ..).trans (startRunning_mem.trans (State.delFib_mem ..))) hu

theorem rodCommand_wf {core key x c} (hs : s.Wf) : OnDone State.Wf (rodCommand s core key x c) :=
  .skip fun _ => .skip fun _ => .map_skip fun _ => .via ((beginTransfer_mem ..).trans startRunning_mem) hs

theorem convertCommand_wf {core key x c} (hs : s.Wf) : OnDone State.Wf (convertCommand s core key x c) :=
  .skip fun _ => .skip fun _ => .map_skip fun _ =>
    .via ((beginTransfer_mem ..).trans (modTile_mem.trans startRunning_mem)) hs

theorem serveCommand_wf {core task op} {run : State → Nat → Nat → Task → Cmd → Except Nat State} (hs : s.Wf)
    (hr : ∀ u core task x c, State.Wf u → OnDone State.Wf (run u core task x c)) :
    (serveCommand s core task op run).Wf := by
  unfold serveCommand
  split
  · exact hs
  · split
    · exact hs
    · next x _ _ c _ =>
      split
      · exact hs
      · have done : OnDone State.Wf (if commandValid x c then run s core task x c else .error 7) := by
          split
          · exact hr _ _ _ _ _ hs
          · trivial
        split
        · next u found => exact done.apply found
        · exact (commandDone_wf (State.Wf.via (State.modCore_mem ..) hs)).getD hs

end Sys2Proof.Machine
end

section
/-! PROOFS. The start of a run and the operations of the system group keep the canonical form of memory. -/

namespace Sys2Proof.Machine

variable {s t : State}

/-! ### The start of a run (R72, R93, R195) -/

theorem failRun_wf {r} (hs : s.Wf) : (failRun s r).Wf := by
  unfold failRun
  extract_lets hit r s0 s1 o
  have h0 : s0.Wf := hs
  have h1 : s1.Wf := foldl_inv (I := State.Wf) _ h0 fun u x hu => .via (State.modFib_mem ..) hu
  have ho : o.s.Wf := openOuts_wf h1
  exact settle_wf h0 (foldl_inv (I := State.Wf) hit ho fun u x hu => .via afterFailure_mem hu)

theorem startRun_wf {k} (hs : s.Wf) : (startRun s k).Wf := by
  unfold startRun
  extract_lets sel
  split
  · exact hs
  · next f _ =>
    extract_lets c here blank s0 s1 stop
    have h0 : s0.Wf := hs
    have h1 : s1.Wf := h0
    have hstop (x : Nat) (w : DWord) : (stop x w).Wf :=
      settle_wf h1 (foldLanes_wf (openOuts_wf h1) fun _ _ _ _ => trivial)
    clear_value stop s1 blank s0 here c
    split
    · split
      · exact hstop _ _
      · exact failRun_wf h0
    · split
      · exact failRun_wf h0
      · exact .via (State.modFlk_mem ..) h0
      · exact hstop _ _
      · next h words u fetched =>
        have hu : u.Wf := h0.of_still (fetchClause_still fetched)
        extract_lets same run
        split
        · exact hu
        · exact .mk (State.Wf.via (State.modFibs_mem ..) hu)

/-! ### Privileged registers (R242) -/

@[simp] theorem putPriv_mem {n v} : (putPriv s n v).mem = s.mem := by
  unfold putPriv
  extract_lets cx
  split <;> rfl

@[simp] theorem privGiven_mem {n v} : (privGiven s n v).2.mem = s.mem := by
  unfold privGiven
  extract_lets c
  split <;> rfl

theorem writePriv_wf {f fs n v} (hs : s.Wf) : OnOk State.Wf (writePriv s f fs n v) := by
  unfold writePriv
  split
  · trivial
  · split
    · trivial
    · split
      · trivial
      · split
        · trivial
        · split
          · trivial
          · exact (drained_wf hs).map fun u hu => .via (putPriv_mem.trans privGiven_mem) hu

@[simp] theorem putDest64_mem {f fs ud d v} : (putDest64 s f fs ud d v).mem = s.mem := by
  unfold putDest64
  split
  · exact setSreg_mem
  · exact foldl_mem _ (fun _ _ => put64_mem) _ _

/-! ### Fault records and translations (R244, R245, R247, R421) -/

theorem returnAll_wf {fs : List Nat} (hs : s.Wf) : (fs.foldl returnParked s).Wf :=
  foldl_inv fs hs fun _ _ hu => returnParked_wf hu

theorem replayFault_wf {idx} (hs : s.Wf) : (replayFault s idx).Wf := by
  unfold replayFault
  split
  · exact hs
  · extract_lets s1
    exact freeRecord_wf (returnAll_wf (logRecord_wf (.mk hs)))

theorem rewalkRecord_wf {idx} (hs : s.Wf) : (rewalkRecord s idx).Wf := by
  unfold rewalkRecord
  split
  · exact hs
  · split
    · split
      · exact hs
      · exact replayFault_wf hs
    · exact hs

theorem rewalkAll_wf {p} (hs : s.Wf) : (rewalkAll s p).Wf := foldl_inv _ hs fun _ _ hu => rewalkRecord_wf hu

theorem cancelRecord_wf {idx} (hs : s.Wf) : (cancelRecord s idx).Wf := by
  unfold cancelRecord
  split
  · exact hs
  · extract_lets s1
    exact freeRecord_wf (returnAll_wf (.via (foldl_mem _ (fun _ _ => State.modFib_mem ..) _ _) hs))

@[simp] theorem dropTlb_mem {p} : (dropTlb s p).mem = s.mem := rfl

theorem settleContext_wf {p} (hs : s.Wf) : OnOk State.Wf (settleContext s p) := by
  unfold settleContext
  extract_lets fs s1 s2
  have h1 : s1.Wf := .via (foldl_mem _ (fun _ _ => drainQueue_mem) _ _) hs
  have h2 : s2.Wf := foldl_inv _ h1 fun _ _ hu => performCore_wf hu
  exact .skip fun _ => h2

theorem tlbiLocal_wf {kind ctx va} (hs : s.Wf) : OnOk State.Wf (tlbiLocal s kind ctx va) :=
  (settleContext_wf (.via dropTlb_mem hs)).map fun _ hu => rewalkAll_wf hu

@[simp] theorem tlbiAsk_mem {g sys arg} : (tlbiAsk s g sys arg).mem = s.mem := by
  unfold tlbiAsk
  split
  · rfl
  · split
    · rfl
    · split
      · rfl
      · split
        · split
          · rfl
          · exact (State.modFibs_mem ..).trans askDevices_mem
        · rfl

theorem tlbiAt_wf {f fs q} (hs : s.Wf) : OnOk State.Wf (tlbiAt s f fs q) := by
  unfold tlbiAt
  split
  · trivial
  · split
    · trivial
    · exact (drained_wf hs).bind fun u hu => (tlbiLocal_wf hu).map fun v hv => .via (State.modFibs_mem ..) hv

theorem cancelFaults_wf {fs d cx p} (hs : s.Wf) : OnOk State.Wf (cancelFaults s fs d cx p) := by
  unfold cancelFaults
  split
  · trivial
  · extract_lets hit n
    exact State.Wf.via put32All_mem (foldl_inv _ hs fun _ _ hu => cancelRecord_wf hu)

/-! ### Regrouping and services (R248, R249, R253) -/

theorem regroupForm_wf {core team lanes fs} (hs : s.Wf) : OnSome State.Wf (regroupForm s core team lanes fs) := by
  refine .map_skip fun slot => ?_
  extract_lets at_ s1 u
  have h1 : s1.Wf := .via (foldl_mem _ (fun _ _ => State.modFib_mem ..) _ _) hs
  exact .via ((formFlock_mem ..).trans drawMany_mem) h1

theorem regroupBuild_wf {core team forbidden} (hs : s.Wf) : OnOk State.Wf (regroupBuild s core team forbidden) := by
  unfold regroupBuild
  extract_lets held lanes flocks
  split
  · trivial
  · next u formed =>
    have built : OnSome State.Wf (flocks.foldl
        (fun (o : Option State) fs => o.bind fun s => regroupForm s core team lanes fs) (some s)) :=
      OnSome.foldl flocks hs fun _ _ hu => regroupForm_wf hu
    split
    · exact built.apply formed
    · trivial

theorem handOver_wf {r fs a} (hs : s.Wf) : OnOk State.Wf (handOver s r fs a) :=
  .skip fun _ => (drained_wf hs).map fun _ hu =>
    .via (scrambleSu_mem.trans (foldl_mem _ (fun _ _ => (State.modFib_mem ..).trans leaveFlock_mem) _ _)) hu

theorem postService_wf {f fs d va num} (hs : s.Wf) : OnOk State.Wf (postService s f fs d va num) := by
  unfold postService
  split
  · trivial
  · refine (checkAccess_wf hs).bind fun r hr => (releaseAll_wf hr).map fun u hu => ?_
    extract_lets cx rec_
    split
    · exact .via (put32All_mem.trans (State.modCtx_mem ..)) hu
    · exact .via put32All_mem hu

end Sys2Proof.Machine
end

section
/-! PROOFS. Windows, homes, folds and waits keep the canonical form of memory. -/

namespace Sys2Proof.Machine

variable {s t : State}

/-! ### Windows (R254, R255, R303) -/

@[simp] theorem endStop_mem {k} : (endStop s k).mem = s.mem := by
  unfold endStop
  extract_lets s1 t
  split
  · exact endFlocks_mem
  · rfl

@[simp] theorem resumeWindow_mem {key} : (resumeWindow s key).mem = s.mem := by
  unfold resumeWindow
  split
  · rfl
  · exact endStop_mem

@[simp] theorem terminateWindow_mem {key code} : (terminateWindow s key code).mem = s.mem := by
  unfold terminateWindow
  split
  · rfl
  · exact endStop_mem.trans terminateTeam_mem

@[simp] theorem keepWindow_mem {key} : (keepWindow s key).mem = s.mem := by
  unfold keepWindow
  split <;> rfl

@[simp] theorem putItem_mem {key w c sel f v} : (putItem s key w c sel f v).mem = s.mem := by
  unfold putItem
  extract_lets k lane act
  have lane_mem (g : Fibre → Fibre) : (lane g).mem = s.mem := by
    show State.mem (match f with | some f => s.modFib f g | none => s) = _
    split <;> rfl
  split
  · exact lane_mem _
  · split <;> rfl
  · exact lane_mem _
  · exact lane_mem _
  · rfl
  · exact lane_mem _
  · exact lane_mem _
  · split
    · exact resumeWindow_mem
    · split
      · exact terminateWindow_mem
      · exact keepWindow_mem

/-! ### Issue (R93, R262, R269) -/

theorem takeRun_mem {core port r} (h : takeRun s core port = some (r, t)) : t.mem = s.mem := by
  unfold takeRun at h
  extract_lets mine at h
  split at h
  · cases h
  · cases h
    rfl

@[simp] theorem endStalledRun_mem {core port} : (endStalledRun s core port).mem = s.mem := by
  unfold endStalledRun
  split
  · rfl
  · next r u taken =>
    split
    · exact dropRun_mem.trans (takeRun_mem taken)
    · rfl

theorem saveFlock_wf {core} (hs : s.Wf) : OnSome State.Wf (saveFlock s core) := .map_skip fun _ => hs

theorem makeSlot_wf {core} (hs : s.Wf) : OnSome SndWf (makeSlot s core) := by
  unfold makeSlot
  split
  · exact hs
  · exact (saveFlock_wf hs).bind fun u hu => .map_skip fun _ => hu

theorem issueReads_wf {r i} (hs : s.Wf) : OnSome State.Wf (issueReads s r i) := by
  unfold issueReads
  extract_lets hit
  split
  · next u acquired =>
    exact (OnOk.foldM (I := State.Wf) _ hs fun _ _ hv => acquireRegs_wf hv).apply acquired
  · trivial

/-! ### Homes (R322, R342, R343, R351) -/

theorem performNth_wf {core n} (hs : s.Wf) : (performNth s core n).Wf := by
  unfold performNth
  extract_lets order
  split
  · exact hs
  · split
    · exact hs
    · split
      · exact hs
      · next u performed => exact State.Wf.via (State.modCore_mem ..) ((performStore_wf hs).apply performed)

@[simp] theorem fillAt_mem {cluster line v} : (fillAt s cluster line v).mem = s.mem := by
  unfold fillAt
  split
  · rfl
  · split
    · exact fractureCheck_mem.trans fillCopy_mem
    · rfl

@[simp] theorem withContext_mem {core ctx pl} : (withContext s core ctx pl).2.2.mem = s.mem := rfl
@[simp] theorem dropAgent_mem {f t} : (dropAgent s f t).mem = s.mem := rfl

theorem evictByte_wf {cl key} (hs : s.Wf) : (evictByte s cl key).Wf := by
  unfold evictByte
  split
  · exact hs
  · extract_lets a home
    have hh : home.Wf := (writeBackGroup_wf hs).getD hs
    split
    · exact hh
    · split
      · exact hh
      · exact hs

@[simp] theorem modPends_mem {r slice g} : (modPends s r slice g).mem = s.mem := foldl_mem _ (fun _ _ => State.modLine_mem ..) _ _

@[simp] theorem abortSeals_mem {hit} : (abortSeals s hit).mem = s.mem :=
  foldl_mem _ (fun _ _ => modFold_mem.trans discardPend_mem) _ _

theorem onFold_wf {fold ok} {g : Fold → State} (hs : s.Wf) (hg : ∀ r, (g r).Wf) : (onFold s fold ok g).Wf := by
  unfold onFold
  split
  · exact hs
  · split
    · exact hg _
    · exact hs

theorem ackFold_wf {fold slice} (hs : s.Wf) : (ackFold s fold slice).Wf := by
  refine onFold_wf hs fun r => ?_
  split
  · exact .via modFold_mem hs
  · extract_lets acked t
    exact .via (modFold_mem.trans modPends_mem) hs

theorem stampFold_wf {fold slice} (hs : s.Wf) : (stampFold s fold slice).Wf := by
  refine onFold_wf hs fun r => ?_
  extract_lets mine s1
  have h1 : s1.Wf := .via (foldl_mem _ (fun _ _ => invalidate_mem ..) _ _) hs
  exact .via (modFold_mem.trans modPends_mem) h1

@[simp] theorem dropOlder_mem {line tc} : (dropOlder s line tc).mem = s.mem := rfl

theorem promoteWith_wf {tag ctx digest fibres stamp line} (hs : s.Wf) :
    (promoteWith s tag ctx digest fibres stamp line).Wf := by
  unfold promoteWith
  extract_lets l old keys
  split
  · exact hs
  · split
    · exact hs
    · extract_lets s1 s2
      have h1 : s1.Wf := putBytes_wf _ _ _ (State.Wf.via ((backInvalidate_mem ..).trans dropOlder_mem) hs)
      exact .via ((wakeWords_mem ..).trans ((markCode_mem ..).trans (State.setLine_mem ..))) h1

theorem promoteLine_wf {r stamp line} (hs : s.Wf) : (promoteLine s r stamp line).Wf := promoteWith_wf hs

theorem confirmFold_wf {fold slice} (hs : s.Wf) : (confirmFold s fold slice).Wf :=
  onFold_wf hs fun _ => .via modFold_mem (foldl_inv (I := State.Wf) _ hs fun _ _ hu => promoteLine_wf hu)

@[simp] theorem endSeal_mem {r st k v} : (endSeal s r st k v).mem = s.mem := by
  unfold endSeal
  extract_lets s1 s2
  refine dropFoldRec_mem.trans ?_
  show State.mem (match r.tok with | some k => _ | none => _) = _
  split
  · exact finishTok_mem
  · rfl

@[simp] theorem endFold_mem {fold} : (endFold s fold).mem = s.mem := by
  unfold endFold
  split
  · rfl
  · split
    · rfl
    · split
      · exact endSeal_mem.trans discardPend_mem
      · split
        · extract_lets k
          split
          · exact endSeal_mem
          · rfl
        · split
          · exact endSeal_mem
          · rfl

theorem sealThrough_wf {tag} (hs : s.Wf) : (sealThrough s tag).Wf := by
  unfold sealThrough
  split
  · exact hs
  · extract_lets homes s1 s2
    have h1 : s1.Wf := foldl_inv _ hs fun _ _ hu => ackFold_wf hu
    have h2 : s2.Wf := foldl_inv _ h1 fun _ _ hu => stampFold_wf hu
    exact .via endFold_mem (foldl_inv (I := State.Wf) homes h2 fun _ _ hu => confirmFold_wf hu)

end Sys2Proof.Machine
end

section
/-! PROOFS. Queues, launches and the placing of teams keep the canonical form of memory. -/

namespace Sys2Proof.Machine

variable {s t : State} {α : Type}

/-! ### Access in the name of a context (R347) -/

theorem asContext_wf {ctx lvl launch} {body : State → Nat → Res (α × State)} (hs : s.Wf)
    (hb : ∀ u f, State.Wf u → OnOk SndWf (body u f)) : OnOk SndWf (asContext s ctx lvl launch body) := by
  unfold asContext
  extract_lets t tm a
  exact (hb _ _ (State.Wf.via withAgent_mem (.mk hs))).map fun _ hr => .via dropAgent_mem hr

theorem droverRead_wf {ctx lvl launch va n} (hs : s.Wf) : OnOk SndWf (droverRead s ctx lvl launch va n) := by
  refine asContext_wf hs fun u f hu => (translateImage_wf hu).bind fun r hr => ?_
  split
  · trivial
  · exact State.Wf.via readBy_mem hr

theorem droverWrite_wf {ctx lvl launch va bytes} (hs : s.Wf) :
    OnOk State.Wf (droverWrite s ctx lvl launch va bytes) := by
  refine OnOk.map (P := SndWf) (asContext_wf hs fun u f hu => (translateImage_wf hu).bind fun r hr => ?_) fun _ hr => hr
  extract_lets cells s1
  split
  · trivial
  · split
    · trivial
    · have h1 : s1.Wf := performHome_wf _ _ _ (State.Wf.via (clearPoison_mem ..) hr)
      refine SndWf.mk (foldl_inv (I := State.Wf) _ h1 fun v c hv => ?_)
      split
      · exact .via (holdHost_mem ..) hv
      · exact hv

theorem orKeep_wf {r : Res State} {done : State → State} (hr : OnOk State.Wf r) (hs : s.Wf)
    (hd : ∀ u : State, u.Wf → (done u).Wf) : OnSome State.Wf (r.orKeep s done) := by
  cases r with
  | ok u => exact hd u hr
  | wait => trivial
  | bad | sys => exact hs

/-! ### Queues (R379 to R381) -/

@[simp] theorem modQueue_mem {key g} : (s.modQueue key g).mem = s.mem := rfl

@[simp] theorem overflowStop_mem {key q} : (overflowStop s key q).mem = s.mem := by
  unfold overflowStop
  split
  · exact (logError_mem ..).trans modQueue_mem
  · rfl

theorem readTail_wf {key} (hs : s.Wf) : (readTail s key).Wf := by
  unfold readTail
  split
  · exact hs
  · split
    · exact hs
    · split
      · next r found =>
        extract_lets q1
        exact State.Wf.via (overflowStop_mem.trans modQueue_mem) ((droverRead_wf hs).apply found)
      · exact hs

theorem takeEntry_wf {key q} (hs : s.Wf) : OnSome SndWf (takeEntry s key q) := by
  unfold takeEntry
  split
  · trivial
  · split
    · next r found =>
      have hr : SndWf r := (droverRead_wf hs).apply found
      split
      · next u written => exact State.Wf.via modQueue_mem ((droverWrite_wf hr).apply written)
      · trivial
    · trivial

/-! ### Launches (R381, R387, R397) -/

@[simp] theorem addLaunch_mem {key l} : (s.addLaunch key l).mem = s.mem := by
  unfold State.addLaunch
  extract_lets s1
  split <;> rfl

@[simp] theorem modLaunch_mem {key g} : (s.modLaunch key g).mem = s.mem := rfl
@[simp] theorem delLaunch_mem {key} : (s.delLaunch key).mem = s.mem := rfl

@[simp] theorem acceptEntry_mem {queue} : (acceptEntry s queue).mem = s.mem := by
  cases queue <;> rfl

theorem sendAll_mem {ds : List α} {m : α → OutMsg} : (ds.foldl (fun s d => s.send (m d)) s).mem = s.mem :=
  foldl_mem _ (fun _ _ => State.send_mem ..) _ _

@[simp] theorem checkDeps_mem {key} : (checkDeps s key).mem = s.mem := by
  unfold checkDeps
  split
  · rfl
  · split
    · rfl
    · extract_lets met others s1
      split
      · rfl
      · exact modLaunch_mem.trans (sendAll_mem (m := fun d => _))

@[simp] theorem afterCompletion_mem {launch queue b} : (afterCompletion s launch queue b).mem = s.mem := by
  unfold afterCompletion
  extract_lets s0 s1
  refine (foldl_mem _ (fun _ _ => checkDeps_mem) _ _).trans ?_
  show State.mem (match queue with | some q => _ | none => _) = _
  split
  · split <;> rfl
  · rfl

theorem writeCompletion_wf {ctx launch queue b status} (hs : s.Wf) :
    OnSome State.Wf (writeCompletion s ctx launch queue b status) :=
  orKeep_wf ((droverWrite_wf hs).bind fun _ hu => droverWrite_wf hu) (.via (logError_mem ..) hs)
    fun _ hu => .via afterCompletion_mem hu

theorem takePacket_wf {ctx b queue kind origin originQueue} (hs : s.Wf) :
    OnSome SndWf (takePacket s ctx b queue kind origin originQueue) := by
  unfold takePacket
  extract_lets key s1
  have h1 : s1.Wf := .via addLaunch_mem hs
  split
  · exact State.Wf.via ((logError_mem ..).trans delLaunch_mem) h1
  · split
    · refine SndWf.mk (State.Wf.via checkDeps_mem ?_)
      split
      · exact .via modQueue_mem h1
      · exact h1
    · exact (writeCompletion_wf h1).map fun u hu => State.Wf.via delLaunch_mem hu

/-! ### The placing of a team (R257, R276, R278, R396) -/

theorem grantBanks_wf {core team n} (hs : s.Wf) : OnSome State.Wf (grantBanks s core team n) :=
  .foldl _ hs fun _ _ hu => .map_skip fun _ => .via (State.modCore_mem ..) (zeroBank_wf _ _ _ hu)

theorem grantAll_wf {team kind n cores} (hs : s.Wf) : OnSome State.Wf (grantAll s team kind n cores) :=
  .foldl _ hs fun _ _ hu => (grantArea_wf hu).map fun _ hq => hq

theorem createRank_wf {team core roles pc is} (hs : s.Wf) : OnSome State.Wf (createRank s team core roles pc is) :=
  .foldl _ hs fun _ _ hu => (createFibre_wf hu).map fun _ hq => hq

@[simp] theorem formRank_mem {team core roles is consumer} :
    (formRank s team core roles is consumer).mem = s.mem := by
  refine foldl_mem _ (fun u q => ?_) _ _
  extract_lets keyOf lanes
  exact formFlock_mem ..

theorem formRanks_mem {team roles consumer} {core : Nat → Nat} {rank : Nat → List Nat} {rs : List Nat} :
    (rs.foldl (fun s r => formRank s team (core r) roles (rank r) consumer) s).mem = s.mem :=
  foldl_mem _ (fun _ _ => formRank_mem) _ _

theorem placeTeam_wf {l key index die cl k cores} (hs : s.Wf) :
    OnSome State.Wf (placeTeam s l key index die cl k cores) := by
  unfold placeTeam
  extract_lets t tm roles rank s0 ranks
  have h0 : s0.Wf := hs
  refine (grantAll_wf h0).bind fun s1 h1 => (grantAll_wf h1).bind fun s2 h2 => ?_
  refine (OnSome.foldl (I := State.Wf) cores (.mk h2) fun _ _ hu => grantBanks_wf hu).bind fun s3 h3 => ?_
  refine (OnSome.foldl (I := State.Wf) ranks (.mk h3) fun _ _ hu => createRank_wf hu).bind fun s4 h4 => ?_
  refine .ite trivial ?_
  exact State.Wf.via (formRanks_mem.trans formRanks_mem) h4

theorem placements_wf {l key index k} (hs : s.Wf) : ∀ u ∈ placements s l key index k, u.Wf := by
  intro u hu
  obtain ⟨d, _, placed⟩ := List.mem_filterMap.1 hu
  obtain ⟨cores, _, placed⟩ := Option.bind_eq_some_iff.1 placed
  exact (placeTeam_wf hs).apply placed

theorem admitFirst_wf {key l} (hs : s.Wf) : OnSome State.Wf (admitFirst s key l) := by
  unfold admitFirst
  split
  · extract_lets n p
    refine .ite trivial (OnSome.map (P := State.Wf) (.of_forall fun u found => ?_) fun u hu => .via modLaunch_mem hu)
    exact placements_wf (State.Wf.via (pick_mem ..) hs) u (List.mem_of_getElem? found)
  · trivial

end Sys2Proof.Machine
end

section
/-! PROOFS. The end of a launch, of a team and of a message keeps the canonical form of memory. -/

namespace Sys2Proof.Machine

variable {s t : State}

/-! ### Launches that end or start (R397) -/

@[simp] theorem releaseTeams_mem {key} : (releaseTeams s key).mem = s.mem := foldl_mem _ (fun _ _ => State.modTm_mem ..) _ _

theorem endLaunch_wf {key} (hs : s.Wf) : OnSome State.Wf (endLaunch s key) := by
  unfold endLaunch
  split
  · exact hs
  · split
    · exact hs
    · split
      · exact State.Wf.via delLaunch_mem hs
      · exact (writeCompletion_wf hs).map fun _ hu => .via delLaunch_mem hu

theorem startTeams_wf {key} (hs : s.Wf) : (startTeams s key).Wf :=
  have hr : (releaseTeams s key).Wf := .via releaseTeams_mem hs
  (endLaunch_wf hr).getD hr

theorem goLocal_wf {key l} (hs : s.Wf) : (goLocal s key l).Wf := by
  unfold goLocal
  extract_lets s1
  have h1 : s1.Wf := hs
  split
  · exact startTeams_wf h1
  · exact h1

theorem tryGo_wf {key} (hs : s.Wf) : (tryGo s key).Wf := by
  unfold tryGo
  split
  · exact hs
  · extract_lets devs gen s1
    split
    · exact hs
    · exact goLocal_wf (State.Wf.via (acceptEntry_mem.trans sendAll_mem) hs)

theorem armLaunch_wf {key} (hs : s.Wf) : (armLaunch s key).Wf := by
  unfold armLaunch
  split
  · exact hs
  · split
    · exact hs
    · split
      · exact tryGo_wf (.via modLaunch_mem hs)
      · exact hs

/-! ### The end of a team (R198, R311, R390) -/

@[simp] theorem freeTeam_mem {t} : (freeTeam s t).mem = s.mem := rfl

theorem endFibre_wf {f} (hs : s.Wf) : OnSome State.Wf (endFibre s f) := by
  unfold endFibre
  extract_lets x cx
  split
  · next s1 settled =>
    have h1 : s1.Wf := (settleStores_wf hs).apply settled
    extract_lets s2 s3 parked s4
    have h2 : s2.Wf := by
      refine foldl_inv (I := State.Wf) _ h1 fun u sl hu => ?_
      split
      · exact .via discardFold_mem hu
      · split
        · exact sealThrough_wf hu
        · exact hu
    have h3 : s3.Wf := foldl_inv (I := State.Wf) _ h2 fun _ _ hu => freeSeg_wf _ _ _ hu
    have h4 : s4.Wf := h3
    exact removeFibre_wf (foldl_inv _ h4 fun _ _ hu => logRecord_wf hu)
  · trivial

@[simp] theorem landFibres_mem {t} : (landFibres s t).mem = s.mem := by
  unfold landFibres
  extract_lets tm
  split <;> rfl

theorem endFibres_wf {t} (hs : s.Wf) : OnSome State.Wf (endFibres s t) :=
  .foldl _ (.mk (State.Wf.via landFibres_mem hs)) fun _ _ hu => endFibre_wf hu

@[simp] theorem dropWindows_mem : (dropWindows s).mem = s.mem := rfl

theorem removeTeam_wf {t} (hs : s.Wf) : OnSome State.Wf (removeTeam s t) := by
  unfold removeTeam
  extract_lets tm
  refine (endFibres_wf hs).map fun s1 h1 => ?_
  extract_lets s2 s3
  have h2 : s2.Wf := .via (freeTeam_mem.trans dropEngine_mem) h1
  refine State.Wf.via dropWindows_mem ?_
  show State.Wf s3
  show State.Wf (match tm.payload with | some a => _ | none => _)
  split
  · exact freeSeg_wf _ _ _ h2
  · exact h2

theorem discardHeld_wf {key} (hs : s.Wf) : OnSome State.Wf (discardHeld s key) :=
  .foldl _ hs fun _ _ hu => removeTeam_wf hu

theorem abortLocal_wf {key} (hs : s.Wf) : (abortLocal s key).Wf := by
  unfold abortLocal
  split
  · exact hs
  · exact (((discardHeld_wf hs).bind fun _ hu => writeCompletion_wf hu).map fun _ hu =>
      State.Wf.via (acceptEntry_mem.trans delLaunch_mem) hu).getD hs

theorem abortAll_wf {key} (hs : s.Wf) : (abortAll s key).Wf := by
  unfold abortAll
  split
  · exact hs
  · extract_lets s1
    split
    · exact hs
    · exact .via sendAll_mem (abortLocal_wf hs)

/-! ### Active messages (R405, R406) -/

theorem messageStatus_wf {src b status} (hs : s.Wf) : OnSome State.Wf (messageStatus s src b status) := by
  unfold messageStatus
  extract_lets a
  split
  · exact hs
  · exact orKeep_wf (droverWrite_wf hs) hs fun _ hu => hu

theorem deliverMessage_wf {ctx m role queue} (hs : s.Wf) : OnSome State.Wf (deliverMessage s ctx m role queue) := by
  refine (messageStatus_wf hs).map fun s1 h1 => ?_
  extract_lets key source l s2
  have h2 : s2.Wf := .via addLaunch_mem h1
  split
  · exact .via modQueue_mem h2
  · exact h2

theorem payloadSeg_wf {ctx b} (hs : s.Wf) : OnSome SndWf (payloadSeg s ctx b) :=
  (takeSeg_onSome hs).map fun _ hr => putBytes_wf _ _ _ (putLink_wf _ _ _ _ _ _ _ _ _ hr)

theorem takeMessage_wf {queue src b} (hs : s.Wf) : OnSome State.Wf (takeMessage s queue src b) := by
  unfold takeMessage
  extract_lets ctx c
  split
  · exact messageStatus_wf hs
  · split
    · exact messageStatus_wf hs
    · split
      · split
        · trivial
        · exact (payloadSeg_wf hs).bind fun _ hr => deliverMessage_wf hr
      · split
        · exact messageStatus_wf hs
        · split
          · exact messageStatus_wf hs
          · next r placed =>
            exact messageStatus_wf (State.Wf.via (State.modCtx_mem ..) ((payloadSeg_wf hs).apply placed))

end Sys2Proof.Machine
end

section
/-! PROOFS. The vacating and restoring of teams and the states of contexts keep the canonical form of memory. -/

namespace Sys2Proof.Machine

variable {s t : State}

/-! ### Vacating a team (R270, R402, R403) -/

@[simp] theorem joinPens_mem {core ps} : (joinPens s core ps).mem = s.mem := by
  refine foldl_mem _ (fun u p => ?_) _ _
  extract_lets c keys spill
  exact State.setCore_mem ..

theorem settleTeam_wf {t} (hs : s.Wf) : OnSome State.Wf (settleTeam s t) := by
  refine .foldl _ hs fun u f hu => ?_
  split
  · next v settled => exact (drainAt_wf hu).apply settled
  · trivial

/-- (The record that the save writes stands for itself, so that the search for its segments is not evaluated.) -/
theorem imageFibre_wf {t f} (hs : s.Wf) : (imageFibre s t f).Wf := by
  unfold imageFibre
  extract_lets x n
  split
  · exact hs
  · obtain ⟨o, same, ho⟩ : ∃ o, o = saveRecord (s.modTm t fun m => { m with reserve := m.reserve - n }) f ∧
        OnSome SndWf o := ⟨_, rfl, saveRecord_wf (State.Wf.via (State.modTm_mem ..) hs)⟩
    rw [← same]
    split
    · exact hs
    · exact State.Wf.via (State.modFib_mem ..) ho

theorem freeImage_wf {t f} (hs : s.Wf) : (freeImage s t f).Wf := by
  unfold freeImage
  extract_lets x
  split
  · exact hs
  · exact .via ((State.modFib_mem ..).trans (State.modTm_mem ..)) (freeSegs_wf _ _ _ hs)

theorem vacateTeam_wf {t} (hs : s.Wf) : (vacateTeam s t).Wf := by
  unfold vacateTeam
  extract_lets m mine s0 s1 saved
  have h0 : s0.Wf := moveApply_wf _ _ (foldl_inv (I := State.Wf) _ hs fun _ _ hu => imageFibre_wf hu)
  have h1 : s1.Wf := foldl_inv (I := State.Wf) _ h0 fun u p hu => by
    extract_lets c idx
    exact .mk hu
  exact .mk h1

/-! ### Restoring a team -/

@[simp] theorem takeLanes_mem {ls} : (takeLanes s ls).mem = s.mem := by
  refine foldl_mem _ (fun u m => ?_) _ _
  extract_lets x s1
  split
  · rfl
  · split <;> rfl

theorem restoreAreas_wf {t v c areas} (hs : s.Wf) : OnSome SndWf (restoreAreas s t v c areas) :=
  .foldl _ hs fun _ _ hq => (grantArea_wf hq).map fun _ hg => hg

theorem restoreBanks_wf {v c banks} (hs : s.Wf) : OnSome SndWf (restoreBanks s v c banks) := by
  refine .foldl _ hs fun q b hq => ?_
  split
  · exact hq
  · exact .map_skip fun p => State.Wf.via (State.modCore_mem ..) (zeroBank_wf _ _ _ hq)

@[simp] theorem rehomePhases_mem {t} : (rehomePhases s t).mem = s.mem := by
  unfold rehomePhases
  extract_lets mine ps s1
  exact foldl_mem _ (fun _ _ => State.modCore_mem ..) _ _

theorem restoreOn_wf {t tm cl cores} (hs : s.Wf) : OnSome State.Wf (restoreOn s t tm cl cores) := by
  unfold restoreOn
  extract_lets old pairs exports img own exp lanes clear
  have planned : OnSome SndWf (exports.foldl exp (pairs.foldl own (some (⟨t, [], [], []⟩, s)))) := by
    refine .foldl _ (.foldl _ hs fun q p hq => ?_) fun q p hq => ?_
    · exact (restoreAreas_wf hq).bind fun a ha => (restoreBanks_wf ha).map fun b hb => hb
    · exact (restoreAreas_wf hq).map fun a ha => ha
  refine planned.map fun q hq => ?_
  extract_lets m s1 take clears s2 awake s3
  have h1 : s1.Wf := .via (rehomePhases_mem.trans takeLanes_mem) (moveApply_wf _ _ hq)
  have h2 : s2.Wf := .via ((foldl_mem _ (fun _ _ => State.modCore_mem ..) _ _).trans
    (foldl_mem _ (fun _ _ => joinPens_mem.trans (State.modCore_mem ..)) _ _)) h1
  have h3 : s3.Wf := foldl_inv (I := State.Wf) _ h2 fun _ _ hu => freeImage_wf hu
  exact .mk h3

theorem restores_wf {t clusters} (hs : s.Wf) : ∀ u ∈ restores s t clusters, u.Wf := by
  intro u hu
  obtain ⟨cl, _, restored⟩ := List.mem_filterMap.1 hu
  obtain ⟨cores, _, restored⟩ := Option.bind_eq_some_iff.1 restored
  exact (restoreOn_wf hs).apply restored

@[simp] theorem askToLeave_mem {ts} : (askToLeave s ts).mem = s.mem := foldl_mem _ (fun _ _ => State.modTm_mem ..) _ _

/-! ### The states of a context (R384, R394, R395) -/

theorem flushChip_wf {ctx} (hs : s.Wf) : (flushChip s ctx).Wf :=
  foldl_inv (I := State.Wf) _ hs fun _ _ hu => foldl_inv (I := State.Wf) _ hu fun _ _ hv =>
    .via (State.modClus_mem ..) (putByte_wf _ _ _ hv)

theorem saveChip_wf {ctx segs} (hs : s.Wf) : (saveChip s ctx segs).Wf := by
  unfold saveChip
  extract_lets c mine s1
  have h1 : s1.Wf := hs.filter _ rfl
  exact foldl_inv (I := State.Wf) _ (writeImage_wf _ _ _ h1) fun _ _ hu => putByte_wf _ _ _ hu

theorem loadChip_wf {ctx} (hs : s.Wf) : (loadChip s ctx).Wf := by
  unfold loadChip
  extract_lets c back s1
  have h1 : s1.Wf := freeSegs_wf _ _ _ hs
  exact .via (State.modCtx_mem ..) (foldl_inv (I := State.Wf) _ h1 fun _ _ hu => putByte_wf _ _ _ hu)

theorem swapOut_wf {ctx} (hs : s.Wf) : OnSome State.Wf (swapOut s ctx) :=
  (takeSegs_onSome (flushChip_wf hs)).map fun _ hr => .via ((State.modCtx_mem ..).trans dropTlb_mem) (saveChip_wf hr)

theorem makePlace_wf (hs : s.Wf) : OnSome State.Wf (makePlace s) := by
  unfold makePlace
  split
  · exact hs
  · exact .skip fun _ => swapOut_wf hs

@[simp] theorem becomeResident_mem {ctx} : (becomeResident s ctx).mem = s.mem := rfl

theorem settleDirty_wf {ctx} (hs : s.Wf) : (settleDirty s ctx).Wf := by
  unfold settleDirty
  extract_lets s1
  have h1 : s1.Wf := foldl_inv (I := State.Wf) _ hs fun _ _ hu => foldl_inv (I := State.Wf) _ hu fun _ _ hv => evictByte_wf hv
  exact .mk h1

theorem dropFaults_wf {ctx} (hs : s.Wf) : (dropFaults s ctx).Wf := foldl_inv _ hs fun _ _ hu => freeRecord_wf hu

theorem dropSegments_wf {ctx} (hs : s.Wf) : (dropSegments s ctx).Wf := by
  unfold dropSegments
  extract_lets c
  exact .via (State.modCtx_mem ..) (foldl_inv (I := State.Wf) _ hs fun _ _ hu => freeSeg_wf _ _ _ hu)

theorem dropGrants_wf {ctx} (hs : s.Wf) : (dropGrants s ctx).Wf :=
  .via (State.modCtx_mem ..) (foldl_inv (I := State.Wf) _ (flushChip_wf hs) fun _ _ hu => zero_wf _ _ _ hu)

theorem tearLaunch_wf {key writes} (hs : s.Wf) : OnSome State.Wf (tearLaunch s key writes) := by
  unfold tearLaunch
  split
  · exact hs
  · next l _ =>
    extract_lets gen status s1
    have h1 : s1.Wf := by
      show State.Wf (if l.undecided && pkNum l.bytes 0 1 = 1 then _ else _)
      split
      · split
        · exact hs
        · split
          · exact hs
          · exact .via sendAll_mem hs
      · exact hs
    refine OnSome.map (P := State.Wf) ?_ fun u hu => .via (acceptEntry_mem.trans delLaunch_mem) hu
    split
    · exact writeCompletion_wf h1
    · refine .mk (P := State.Wf) ?_
      split
      · exact .via (logError_mem ..) h1
      · exact h1

theorem tearInbound_wf {ctx} (hs : s.Wf) : OnSome State.Wf (tearInbound s ctx) :=
  .foldl _ hs fun _ _ hu => messageStatus_wf hu

theorem dropTeams_wf {ctx} (hs : s.Wf) : OnSome State.Wf (dropTeams s ctx) :=
  .foldl _ hs fun _ _ hu => removeTeam_wf hu

theorem tearDown_wf {ctx writes} (hs : s.Wf) : OnSome State.Wf (tearDown s ctx writes) := by
  refine (dropTeams_wf (settleDirty_wf hs)).bind fun s1 h1 => ?_
  extract_lets s2 keys
  have h2 : s2.Wf := dropGrants_wf (dropSegments_wf (dropFaults_wf h1))
  refine OnSome.bind (P := State.Wf) (.foldl keys (.mk h2) fun _ _ hu => tearLaunch_wf hu) fun s3 h3 => ?_
  refine OnSome.map (P := State.Wf) ?_ fun s4 h4 => .mk (State.Wf.via dropTlb_mem (settleDirty_wf h4))
  split
  · exact tearInbound_wf h3
  · exact h3

end Sys2Proof.Machine
end

section
/-! PROOFS. Ticks, messages between devices and waits keep the canonical form of memory. -/

namespace Sys2Proof.Machine

variable {s t : State}

/-! ### The heartbeat (R391, R464) -/

@[simp] theorem endReset_mem : (endReset s).mem = s.mem := by
  unfold endReset
  split <;> rfl

@[simp] theorem tick_mem : (tick s).mem = s.mem := by
  unfold tick
  extract_lets flocks count cores lines
  exact noteEligible_mem _

/-! ### Continuations that arrive (R133, R298) -/

theorem layoutSegs_wf {old new segs} (hs : s.Wf) : (layoutSegs s old new segs).Wf := by
  refine foldl_inv (I := State.Wf) _ hs fun u i hu => ?_
  extract_lets a s1
  exact putNum_wf _ _ _ _ (putNum_wf _ _ _ _ (putBytes_wf _ _ _ hu))

theorem layoutImage_wf {new segs} (hs : s.Wf) : (layoutImage s new segs).Wf :=
  foldl_inv (I := State.Wf) _ hs fun _ _ hu => putNum_wf _ _ _ _ (putBytes_wf _ _ _ hu)

theorem layoutHeader_wf {a m new img} (hs : s.Wf) : (layoutHeader s a m new img).Wf := by
  unfold layoutHeader
  extract_lets gen num mv
  repeat apply putNum_wf
  exact putBytes_wf _ _ _ hs

theorem receiveContinuation_wf {m} (hs : s.Wf) : OnSome SndWf (receiveContinuation s m) :=
  (takeHeader_wf hs).bind fun _ hh => (takeSegs_onSome hh).bind fun _ hg => (takeSegs_onSome hg).map fun _ him =>
    layoutHeader_wf (layoutImage_wf (layoutSegs_wf him))

theorem completeSend_wf {token status} (hs : s.Wf) : (completeSend s token status).Wf := by
  unfold completeSend
  extract_lets tok put s1 s2
  have h2 : s2.Wf := .via finishTok_mem (State.Wf.mk hs)
  split
  · exact hs
  · split
    · exact hs
    · split
      · exact putNum_wf _ _ _ _ (dropContinuation_wf h2)
      · split
        · exact h2
        · exact putNum_wf _ _ _ _ h2

theorem abortSends_wf {dev status} (hs : s.Wf) : (abortSends s dev status).Wf := by
  refine foldl_inv (I := State.Wf) _ hs fun u p hu => ?_
  split
  · exact completeSend_wf hu
  · exact hu

/-! ### Stores that are lost (R133, R302, R460) -/

theorem loseStores_wf {hit w} (hs : s.Wf) : (loseStores s hit w).Wf := by
  unfold loseStores
  extract_lets gone s1
  have h1 : s1.Wf := hs
  refine foldl_inv (I := State.Wf) _ (.via (foldl_mem _ (fun _ _ => finishStore_mem ..) _ _) h1) fun u f hu => ?_
  split
  · exact stopFlock_wf (.mk hu)
  · exact hu

theorem losePath_wf {dev} (hs : s.Wf) : (losePath s dev).Wf := by
  unfold losePath
  extract_lets s1
  have h1 : s1.Wf := loseStores_wf (.via ackedBy_mem (abortSends_wf hs))
  exact .via (State.modDev_mem ..) h1

/-! ### Waits that reach their limit (R192, R237) -/

theorem stalledAt_wf {k} (hs : s.Wf) : OnSome (fun q => q.2.2.Wf) (stalledAt s k) := by
  unfold stalledAt
  extract_lets fl s1
  split
  · trivial
  · have h1 : s1.Wf := startRun_wf (.via (State.modFlk_mem ..) hs)
    split
    · trivial
    · split
      · trivial
      · split
        · exact h1
        · trivial

theorem limitRun_wf {k body sel} (hs : s.Wf) (hb : ∀ i r g u f, State.Wf u → OnOk SndWf (body i r g u f)) :
    (limitRun s k body sel).Wf := by
  unfold limitRun
  split
  · exact hs
  · next r i s1 stalled =>
    have h1 : s1.Wf := (stalledAt_wf hs).apply stalled
    split
    · exact hs
    · split
      · exact hs
      · next s2 issued =>
        have h2 : s2.Wf := (issueReads_wf h1).apply issued
        extract_lets g
        exact settle_wf h2 (foldLanes_wf (openOuts_wf h2) fun _ _ _ hu => hb _ _ _ _ _ hu)

theorem barwLimit_wf {i r g f} (hs : s.Wf) : OnOk SndWf (barwLimit i r g s f) := by
  unfold barwLimit
  split
  · refine .skip fun _ => .skip fun q => ?_
    extract_lets tok
    split
    · exact barwLane_wf hs
    · trivial
  · trivial

theorem rdvLimit_wf {i r g f} : OnOk SndWf (rdvLimit i r g s f) := by
  unfold rdvLimit
  split
  · extract_lets low
    refine .skip fun l => .skip fun tok => ?_
    split <;> trivial
  · trivial

theorem tileLimit_wf {i r g f} (hs : s.Wf) : OnOk SndWf (tileLimit i r g s f) := by
  unfold tileLimit
  split
  · split
    · trivial
    · exact (qstLane_wf hs).map fun _ hu => hu
  · split <;> trivial

end Sys2Proof.Machine
end

section
/-! PROOFS. The host, the errors and the containment of agents keep the canonical form of memory. -/

namespace Sys2Proof.Machine

variable {s t : State}

/-! ### Accesses of the host and of other devices (R443 to R451) -/

theorem writeLine_wf {pa bytes} (hs : s.Wf) : OnSome State.Wf (writeLine s pa bytes) := by
  unfold writeLine
  extract_lets cells
  split
  · trivial
  · exact State.Wf.via (markCode_mem ..) (performHome_wf _ _ _ (State.Wf.via (clearPoison_mem ..) hs))

theorem writeLines_wf {n pa bytes} (hs : s.Wf) : OnSome State.Wf (writeLines s n pa bytes) := by
  induction n generalizing s pa bytes with
  | zero => exact hs
  | succ n ih =>
    unfold writeLines
    split
    · exact hs
    · extract_lets k
      exact (writeLine_wf hs).bind fun u hu => ih hu

@[simp] theorem hostHolds_mem {pa n wr} : (hostHolds s pa n wr).mem = s.mem := by
  unfold hostHolds
  split <;> rfl

theorem hostOwnWrite_wf {key bytes} (hs : s.Wf) : (hostOwnWrite s key bytes).Wf :=
  .via ((State.modDev_mem ..).trans (wakeWords_mem ..)) (putBytes_wf _ _ _ hs)

@[simp] theorem hostConfigWrite_mem {ofs bytes} : (hostConfigWrite s ofs bytes).mem = s.mem := by
  unfold hostConfigWrite
  split
  · rfl
  · split <;> rfl

theorem reqAtHome_wf {pa r} (hs : s.Wf) : OnSome SndWf (reqAtHome s pa r) := by
  unfold reqAtHome
  extract_lets n old
  split
  · split
    · exact hs
    · exact (writeLine_wf hs).map fun _ hu => hu
  · split
    next vs s0 drawn =>
    have h0 : s0.Wf := by
      have drew : SndWf (if s.mixedScope pa n .system then s.drawMany 2 else ([], s)) := by
        split
        · exact State.Wf.via drawMany_mem hs
        · exact hs
      rw [drawn] at drew
      exact drew
    refine (flushKeys_wf h0).bind fun s1 h1 => ?_
    extract_lets read old new
    exact (writeLine_wf h1).map fun _ hu => State.Wf.via noteScope_mem hu

@[simp] theorem viewReply_mem {dev pa n view} : (viewReply s dev pa n view).mem = s.mem := by
  unfold viewReply
  split
  · exact (State.send_mem ..).trans (backInvalidate_mem ..)
  · rfl
  · rfl

theorem remoteAt_wf {dev cx pa n ok} (hs : s.Wf) (h : State.Wf ok) : (remoteAt s dev cx pa n ok).Wf := by
  unfold remoteAt
  split
  · exact .via (State.send_mem ..) hs
  · split
    · exact .via (State.send_mem ..) hs
    · exact h

theorem remoteMem_wf {dev pa q} (hs : s.Wf) : (remoteMem s dev pa q).Wf := by
  refine .ite (.via (State.send_mem ..) hs) ?_
  split
  · exact hs
  · next u found => exact State.Wf.via ((State.send_mem ..).trans (backInvalidate_mem ..)) ((reqAtHome_wf hs).apply found)

theorem awayStore_wf {dev f k pa bytes} (hs : s.Wf) : (awayStore s dev f k pa bytes).Wf := by
  unfold awayStore
  extract_lets cells r
  split
  · exact .via (State.send_mem ..) hs
  · split
    · exact hs
    · next u stored => exact State.Wf.via (State.send_mem ..) ((storePendingAll_wf hs).apply stored)

theorem awayStep_wf {dev tag reply} {g : State → Nat → State} (hs : s.Wf) (hg : ∀ u l, (g u l).mem = u.mem) :
    (awayStep s dev tag g reply).Wf :=
  .via ((State.send_mem ..).trans (foldl_mem _ hg _ _)) hs

theorem awayAck_wf {dev tag} (hs : s.Wf) : (awayAck s dev tag).Wf := by
  unfold awayAck
  split
  · exact .via (State.send_mem ..) hs
  · exact awayStep_wf hs fun _ _ => State.modLine_mem ..

theorem awayStamp_wf {dev tag stamp digest} (hs : s.Wf) : (awayStamp s dev tag stamp digest).Wf :=
  awayStep_wf hs fun _ _ => (State.modLine_mem ..).trans (invalidate_mem ..)

theorem peerReset_wf {dev} (hs : s.Wf) : (peerReset s dev).Wf := by
  unfold peerReset
  extract_lets cxs s1 s2
  have h1 : s1.Wf := .via abortSeals_mem hs
  have h2 : s2.Wf := loseStores_wf (abortSends_wf h1)
  exact .via (State.modDev_mem ..) h2

@[simp] theorem rejectStore_mem {core n r} : (rejectStore s core n r).mem = s.mem := by
  simp only [rejectStore]
  split
  · exact (finishStore_mem ..).trans ((State.modCore_mem ..).trans (logError_mem ..))
  · exact (State.modCore_mem ..).trans (logError_mem ..)

/-! ### Errors (R455 to R463) -/

@[simp] theorem markLoops_mem {core hit g} : (markLoops s core hit g).mem = s.mem := by
  refine foldl_mem _ (fun u p => ?_) _ _
  split
  · rfl
  · split <;> rfl

@[simp] theorem engineHit_mem {key loop xfer phase} : (engineHit s key loop xfer phase).mem = s.mem :=
  foldl_mem _ (fun _ _ => (State.modCore_mem ..).trans markLoops_mem) _ _

@[simp] theorem countCorr_mem {p} : (countCorr s p).mem = s.mem := by
  unfold countCorr
  extract_lets count read
  have read_mem (key : Nat) : (read key).mem = s.mem := engineHit_mem
  split
  · exact markLoops_mem
  · exact markLoops_mem
  · exact read_mem _
  · exact read_mem _
  · exact read_mem _
  · exact read_mem _
  · rfl

@[simp] theorem loseOwner_mem {core} : (loseOwner s core).mem = s.mem :=
  foldl_mem _ (fun _ _ => markPoison_mem ..) _ _

theorem markDead_wf {kind index} (hs : s.Wf) : (markDead s kind index).Wf := by
  unfold markDead
  extract_lets s1 s2 s3
  have h1 : s1.Wf := loseStores_wf (.via abortSeals_mem hs)
  have h2 : s2.Wf := by
    show State.Wf (if kind = 4 then _ else _)
    split
    · exact losePath_wf h1
    · exact h1
  refine State.Wf.via (State.modDev_mem ..) ?_
  show State.Wf (match agentCore s2 kind index with | some c => _ | none => _)
  split
  · refine State.Wf.via (State.modCore_mem ..) ?_
    split
    · exact h2
    · exact .via loseOwner_mem h2
  · exact h2

theorem haltLaunch_wf {status key} (hs : s.Wf) : OnSome State.Wf (haltLaunch s status key) := by
  unfold haltLaunch
  split
  · exact hs
  · split
    · exact hs
    · extract_lets w
      refine OnSome.map (P := State.Wf) ?_ fun u hu => .via (acceptEntry_mem.trans delLaunch_mem) hu
      split
      · exact hs
      · exact writeCompletion_wf hs

@[simp] theorem stopContext_mem {status cx} : (stopContext s status cx).mem = s.mem :=
  (State.modCtx_mem ..).trans (foldl_mem _ (fun _ _ => terminateTeam_mem) _ _)

theorem haltContext_wf {status cx} (hs : s.Wf) : (haltContext s status cx).Wf := by
  unfold haltContext
  extract_lets ts s1
  have h1 : s1.Wf := .via stopContext_mem hs
  split
  · exact h1
  · refine OnSome.getD ?_ h1
    refine OnSome.bind (P := State.Wf) (.foldl ts (.mk h1) fun _ _ hu => removeTeam_wf hu) fun u hu => ?_
    exact .foldl _ (.mk hu) fun _ _ hv => haltLaunch_wf hv

theorem contain_wf {kind index} (hs : s.Wf) : (contain s kind index).Wf := by
  unfold contain
  extract_lets hit s1
  have h1 : s1.Wf := markDead_wf (.mk hs)
  exact .via (logError_mem ..) (foldl_inv (I := State.Wf) hit h1 fun _ _ hu => haltContext_wf hu)

theorem stopClass1_wf {k code lane reg} (hs : s.Wf) : (stopClass1 s k code lane reg).Wf := by
  unfold stopClass1
  extract_lets fl lanes
  exact stopFlock_wf (.mk hs)

theorem stopAtLow_wf {k code reg} (hs : s.Wf) : (stopAtLow s k code reg).Wf := by
  unfold stopAtLow
  split
  · exact hs
  · exact stopClass1_wf hs

theorem stopFibre_wf {f code reg} (hs : s.Wf) : OnSome State.Wf (stopFibre s f code reg) := by
  refine .skip fun x => ?_
  split
  · exact stopClass1_wf hs
  · trivial

@[simp] theorem loseDirty_mem {key} : (loseDirty s key).mem = s.mem := (markPoison_mem ..).trans (dropDirty_mem ..)

theorem refetched_wf {p} (hs : s.Wf) : OnSome State.Wf (refetched s p) := by
  unfold refetched
  split
  · split
    · trivial
    · exact State.Wf.via (invalidate_mem ..) hs
  · exact State.Wf.via dropCode_mem hs
  · trivial

@[simp] theorem loseElem_mem {core bank e} : (loseElem s core bank e).mem = s.mem := by
  unfold loseElem
  split
  · split
    · rfl
    · exact undefineElems_mem
  · exact undefineElems_mem

@[simp] theorem loseScratch_mem {key} : (loseScratch s key).mem = s.mem := engineHit_mem

theorem uncorrected_wf {p} (hs : s.Wf) : (uncorrected s p).Wf := by
  unfold uncorrected
  split
  · exact (stopFibre_wf hs).getD hs
  · exact stopAtLow_wf hs
  · exact (stopFibre_wf hs).getD (.via loseScratch_mem hs)
  · exact (stopFibre_wf hs).getD hs
  · exact .via loseDirty_mem hs
  · exact .via (markPoison_mem ..) hs
  · exact .via (markPoison_mem ..) hs
  · exact .via markLoops_mem hs
  · exact .via loseElem_mem hs
  · split
    · exact contain_wf hs
    · exact hs
  · exact hs

@[simp] theorem served_mem {p} : (served s p).mem = s.mem := rfl

theorem zeroSlice_wf {slice} (hs : s.Wf) : (zeroSlice s slice).Wf := by
  unfold zeroSlice
  extract_lets bare
  exact hs.filter _ rfl

end Sys2Proof.Machine
end

section
/-! PROOFS. The loader and the management of the device keep the canonical form of memory. -/

namespace Sys2Proof.Machine

variable {s t : State}

/-! ### The loader (R411, R412, R432, R433) -/

theorem chooseBase_wf {ctx m required} (hs : s.Wf) : OnSome SndWf (chooseBase s ctx m required) := by
  unfold chooseBase
  extract_lets n p inLow
  have hp : p.2.Wf := .via (pick_mem ..) hs
  clear_value p
  split
  · split
    · exact hs
    · trivial
  · split
    · exact hs
    · exact .map_skip fun _ => SndWf.mk hp

theorem serviceStore_wf {key bytes} (hs : s.Wf) : (serviceStore s key bytes).Wf :=
  performHome_wf _ _ _ (State.Wf.via (clearPoison_mem ..) hs)

/-- (The next free page stands for itself, so that the search for it is not evaluated; so in `mapPage_wf`.) -/
theorem tableUnder_wf {fr entry} (hs : s.Wf) : OnSome TrdWf (tableUnder s fr entry) := by
  unfold tableUnder
  obtain ⟨next, same⟩ : ∃ o, o = fr.next := ⟨_, rfl⟩
  rw [← same]
  extract_lets e
  split
  · exact hs
  · exact .map_skip fun _ => serviceStore_wf (zero_wf _ _ _ hs)

theorem mapPage_wf {ctx va leaf bytes fr} (hs : s.Wf) : OnSome SndWf (mapPage s ctx va leaf bytes fr) := by
  unfold mapPage
  obtain ⟨next, same⟩ : ∃ g, g = Frames.next := ⟨_, rfl⟩
  rw [← same]
  exact (tableUnder_wf hs).bind fun _ h1 => (tableUnder_wf h1).bind fun _ h0 => .map_skip fun _ =>
    serviceStore_wf (zero_wf _ _ _ (serviceStore_wf h0))

theorem mapPages_wf {ctx b flags m blk fr} (hs : s.Wf) : OnSome State.Wf (mapPages s ctx b flags m blk fr) :=
  OnSome.map (P := SndWf) (.foldl _ hs fun _ _ hq => mapPage_wf hq) fun _ hq => hq

@[simp] theorem icinvRange_mem {ctx b n} : (icinvRange s ctx b n).mem = s.mem := rfl

theorem answerBind_wf {r} (hs : s.Wf) : OnSome State.Wf (answerBind s r) := orKeep_wf (droverWrite_wf hs) hs fun _ hu => hu

theorem serviceWrite_wf {r va bytes} (hs : s.Wf) : OnSome State.Wf (serviceWrite s r va bytes) :=
  orKeep_wf (droverWrite_wf hs) hs fun _ hu => hu

/-- (The mapping of the pages stands for itself, with what is known of it, so that it is not evaluated.) -/
theorem loadImage_wf {ctx b required flags} (hs : s.Wf) : OnDone SndWf (loadImage s ctx b required flags) := by
  unfold loadImage
  obtain ⟨map, same, hmap⟩ : ∃ g, g = mapPages ∧ ∀ u ctx b flags m blk fr, State.Wf u →
      OnSome State.Wf (g u ctx b flags m blk fr) := ⟨_, rfl, fun _ _ _ _ _ _ _ => mapPages_wf⟩
  rw [← same]
  split
  · trivial
  · split
    · trivial
    · extract_lets e m n
      split
      · trivial
      · split
        · trivial
        · split
          · trivial
          · next base s1 chosen =>
            have h1 : s1.Wf := by
              have found : OnSome SndWf (if (s.ctx ctx).ttb = 0 then none else chooseBase s ctx m required) :=
                .ite trivial (chooseBase_wf hs)
              exact found.apply chosen
            split
            · trivial
            · extract_lets p image
              have hp : p.2.Wf := .via (pick_mem ..) h1
              split
              · trivial
              · next s2 mapped =>
                exact State.Wf.via ((State.modCtx_mem ..).trans icinvRange_mem) ((hmap _ _ _ _ _ _ _ hp).apply mapped)

theorem serveLoad_wf {r} (hs : s.Wf) : OnSome State.Wf (serveLoad s r) := by
  unfold serveLoad
  split
  · exact hs
  · split
    · exact serviceWrite_wf hs
    · next base s2 loaded =>
      have h2 : s2.Wf := (loadImage_wf hs).apply loaded
      exact (serviceWrite_wf h2).bind fun _ hu => serviceWrite_wf hu

theorem unmapPage_wf {ctx va} (hs : s.Wf) : (unmapPage s ctx va).Wf := by
  unfold unmapPage
  extract_lets e2 e1 s1
  exact .via dropTlb_mem (.ite (serviceStore_wf hs) hs)

theorem unloadImage_wf {ctx base} (hs : s.Wf) : SndWf (unloadImage s ctx base) := by
  unfold unloadImage
  split
  · exact hs
  · split
    · exact hs
    · exact State.Wf.via (State.modCtx_mem ..) (foldl_inv (I := State.Wf) _ hs fun _ _ hu => unmapPage_wf hu)

theorem serveUnload_wf {r} (hs : s.Wf) : OnSome State.Wf (serveUnload s r) := by
  unfold serveUnload
  split
  · exact hs
  · extract_lets u
    exact serviceWrite_wf (unloadImage_wf hs)

theorem serveRecord_wf {r} (hs : s.Wf) : OnSome State.Wf (serveRecord s r) :=
  .ite (serveLoad_wf hs) (.ite (serveUnload_wf hs) (.ite (answerBind_wf hs) hs))

theorem serveFirst_wf {ctx} (hs : s.Wf) : OnSome State.Wf (serveFirst s ctx) := by
  unfold serveFirst
  split
  · exact hs
  · extract_lets late room
    exact serveRecord_wf (.via (State.modCtx_mem ..) hs)

theorem serveThrough_wf {ctx sel} (hs : s.Wf) : (serveThrough s ctx sel).Wf := by
  unfold serveThrough
  split
  · exact hs
  · exact OnSome.getD (.foldl _ (.mk hs) fun _ _ hu => serveFirst_wf hu) hs

theorem serveBind_wf {ctx ea} (hs : s.Wf) : (serveBind s ctx ea).Wf := serveThrough_wf hs

theorem bindDue_wf {f} (hs : s.Wf) : (bindDue s f).Wf := by
  unfold bindDue
  split
  · exact bindEntry_wf hs
  · exact hs

/-! ### Links, resets and power (R391, R464, R467 to R469) -/

@[simp] theorem dropHostStores_mem : (dropHostStores s).mem = s.mem := rfl

theorem dropContexts_wf (hs : s.Wf) : (dropContexts s).Wf := by
  refine foldl_inv (I := State.Wf) _ hs fun u cx hu => ?_
  extract_lets forced
  have hf : forced.Wf := dropGrants_wf (dropSegments_wf (dropFaults_wf (settleDirty_wf hu)))
  exact (tearDown_wf hu).getD (.mk hf)

theorem zeroBuffers_wf (hs : s.Wf) : (zeroBuffers s).Wf := hs.filter _ rfl

theorem powerLost_wf : (powerLost s).Wf := rfl

@[simp] theorem powered_mem : (powered s).mem = s.mem := rfl

theorem startFirmware_wf {image} (hs : s.Wf) : (startFirmware s image).Wf := startOwn_wf hs

@[simp] theorem respond_mem {code bytes} : (respond s code bytes).mem = s.mem := rfl

end Sys2Proof.Machine
end

section
/-! PROOFS. The instructions of a flock keep the canonical form of memory: registers, control, continuations and memory. -/

namespace Sys2Proof.Machine

variable {s t : State}

/-! ### Registers, floating point and the lanes of a flock (R136 to R162) -/

theorem divLane_wf {i o fn zero} (hs : s.Wf) : OnNext State.Wf (divLane i o s fn zero) :=
  perLane_wf hs fun _ u f l hu => .skip fun _ => .skip fun _ => .skip fun b => by
    split
    · exact withConds_wf hu fun _ hv => .via put32_mem hv
    · exact hu

theorem pairSum_wf {i o bw fn} (hs : s.Wf) : OnNext State.Wf (pairSum i o bw s fn) := by
  unfold pairSum
  split
  · exact pair2_wf hs
  · exact pairBy_wf hs
  · exact pairBy_wf hs

theorem fpLane_wf {i d val} (hs : s.Wf) : OnNext State.Wf (fpLane i d s val) :=
  perLane_wf hs fun _ _ _ _ hu => .skip fun _ => .skip fun _ => withConds_wf hu fun _ hv => .via put32_mem hv

theorem fp1_wf {i o m fn} (hs : s.Wf) : OnNext State.Wf (fp1 i o m s fn) := fpLane_wf hs
theorem fp2_wf {i o m fn} (hs : s.Wf) : OnNext State.Wf (fp2 i o m s fn) := fpLane_wf hs
theorem pred2_wf {i p a b na nb fn} (hs : s.Wf) : OnNext State.Wf (pred2 i p a b na nb s fn) := lanePred_wf hs

theorem execFcmp_wf {g p a b fmt cond sgn} (hs : s.Wf) : OnNext State.Wf (execFcmp g p a b fmt cond sgn s) :=
  perLane_wf hs fun _ _ _ _ hu => .skip fun _ => .skip fun _ => withConds_wf hu fun _ hv => .via putPred_mem hv

/-- An instruction that takes the values of several lanes keeps the form when what it writes does (R157 to R161). -/
theorem crossLane_wf {α : Type} {i} {val : State → Nat → Res α} {fin} (hs : s.Wf)
    (hf : ∀ u f l v vs, (fin u f l v vs).mem = u.mem) : OnNext State.Wf (crossLane i s val fin) :=
  perLane_wf hs fun _ _ _ _ hu => .skip fun _ => State.Wf.via (hf ..) hu

theorem execPart_wf {g d a pw dbl} (hs : s.Wf) : OnNext State.Wf (execPart g d a pw dbl s) :=
  crossLane_wf hs fun _ _ _ _ _ => put32_mem

theorem execShfl_wf {g d a b pw mode dbl} (hs : s.Wf) : OnNext State.Wf (execShfl g d a b pw mode dbl s) :=
  crossLane_wf hs fun _ _ _ _ _ => putWide_mem

theorem execRedu_wf {g d a pw op dbl} (hs : s.Wf) : OnNext State.Wf (execRedu g d a pw op dbl s) :=
  crossLane_wf hs fun _ _ _ _ _ => putWide_mem

theorem execVote_wf {g d a pw mode dbl} (hs : s.Wf) : OnNext State.Wf (execVote g d a pw mode dbl s) :=
  crossLane_wf hs fun _ _ _ _ _ => by cases mode <;> rfl

theorem execMovu_wf {g d a sel dbl} (hs : s.Wf) : OnNext State.Wf (execMovu g d a sel dbl s) :=
  perLane_wf hs fun _ _ _ _ hu => .skip fun _ => .mk (.ite (.via setSreg_mem hu) hu)

theorem execSrd_wf {g ud d n} (hs : s.Wf) : OnNext State.Wf (execSrd g ud d n s) := by
  unfold execSrd
  split
  · refine perFlock_wf hs fun u f fs hu => ?_
    split
    · trivial
    · exact State.Wf.via setSreg_mem hu
  · refine perLane_wf hs fun m u f l hu => ?_
    split
    · trivial
    · exact .skip fun _ => State.Wf.via putWide_mem hu

theorem execSwr_wf {g n a} (hs : s.Wf) : OnNext State.Wf (execSwr g n a s) := by
  refine perLane_wf hs fun m u f l hu => ?_
  split
  · exact .skip fun _ => State.Wf.via (State.modFib_mem ..) hu
  · split
    · exact .skip fun _ => State.Wf.via (State.modFib_mem ..) hu
    · trivial

/-! ### Control (R105, R114 to R125) -/

theorem execBra_wf {g off} (hs : s.Wf) : OnNext State.Wf (execBra g off s) :=
  perLane_wf hs fun _ _ _ _ hu => transfer_wf hu

theorem execRet_wf {g a} (hs : s.Wf) : OnNext State.Wf (execRet g a s) :=
  perLane_wf hs fun _ _ _ _ hu => .skip fun _ => transfer_wf hu

theorem execNop_wf {g} (hs : s.Wf) : OnNext State.Wf (execNop g s) := perLane_wf hs fun _ _ _ _ hu => hu
theorem execIsync_wf {g} (hs : s.Wf) : OnNext State.Wf (execIsync g s) := perLane_wf hs fun _ _ _ _ hu => hu

theorem execCall_wf {g d off} (hs : s.Wf) : OnNext State.Wf (execCall g d off s) :=
  perLane_wf hs fun _ _ _ _ hu => .skip fun _ => (transfer_wf hu).map fun _ hr => State.Wf.via put64_mem hr

theorem execCalls_wf {g d off} (hs : s.Wf) : OnNext State.Wf (execCalls g d off s) :=
  perLane_wf hs fun _ _ _ _ hu => .skip fun _ => .skip fun _ => (pushSegment_wf hu).bind fun _ hp =>
    State.Wf.via (setTarget_mem.trans put64_mem) hp

theorem execRetS_wf {g} (hs : s.Wf) : OnNext State.Wf (execRetS g s) := by
  refine perLane_wf hs fun m u f l hu => (readLink_wf hu).bind fun v hv => ?_
  extract_lets top kind s2
  have h2 : s2.Wf := .via (State.modFib_mem ..) hv
  split
  · trivial
  · split
    · trivial
    · exact .skip fun _ => freeSeg_wf _ _ _ (State.Wf.via leaveTo_mem h2)

theorem execBrx_wf {g a b} (hs : s.Wf) : OnNext State.Wf (execBrx g a b s) :=
  perLane_wf hs fun _ _ _ _ hu => .skip fun _ => .skip fun _ => (tableTarget_wf hu).bind fun _ hr => transfer_wf hr

theorem execCallx_wf {g d a b} (hs : s.Wf) : OnNext State.Wf (execCallx g d a b s) :=
  perLane_wf hs fun _ _ _ _ hu => .skip fun _ => .skip fun _ => .skip fun _ => (tableTarget_wf hu).bind fun _ hr =>
    (transfer_wf hr).map fun _ hq => State.Wf.via put64_mem hq

theorem execReform_wf {g} (hs : s.Wf) : OnNext State.Wf (execReform g s) :=
  perLane_wf hs fun _ _ _ _ hu => (drained_wf hu).bind fun _ hv =>
    State.Wf.via (scrambleSu_mem.trans (penFile_mem.trans (leaveFlock_mem.trans (State.modFib_mem ..)))) hv

theorem execBackoff_wf {g p} (hs : s.Wf) : OnNext State.Wf (execBackoff g p s) := by
  unfold execBackoff
  split
  · trivial
  · extract_lets polled failed o s1
    have ho : o.s.Wf := openOuts_wf hs
    exact settle_wf hs (State.Wf.via (State.modFlk_mem ..) ho)

theorem execExit_wf {g} (hs : s.Wf) : OnNext State.Wf (execExit g s) := by
  refine perLane_wf hs fun m u f l hu => ?_
  split
  · trivial
  · exact (exitDrain_wf hu).bind fun _ hv => (exitFolds_wf hv).bind fun _ hw => removeFibre_wf hw

theorem execSpawn_wf {g x d off} (hs : s.Wf) : OnNext State.Wf (execSpawn g x d off s) :=
  perLane_wf hs fun _ _ _ _ hu => .skip fun _ => .skip fun _ => .skip fun _ => (drainAt_wf hu).bind fun _ hv =>
    (spawnOne_wf hv).bind fun _ hr => State.Wf.via put32_mem hr

/-! ### Handlers and continuations (R125 to R134) -/

theorem execHinst_wf {g ve k off} (hs : s.Wf) : OnNext State.Wf (execHinst g ve k off s) := by
  refine perLane_wf hs fun m u f l hu => ?_
  extract_lets x
  split
  · trivial
  · split
    · trivial
    · exact .skip fun _ => .skip fun _ => (pushSegment_wf hu).bind fun _ hp => State.Wf.via (State.modFib_mem ..) hp

theorem execHdrop_wf {g} (hs : s.Wf) : OnNext State.Wf (execHdrop g s) := by
  refine perLane_wf hs fun m u f l hu => (readLink_wf hu).bind fun v hv => ?_
  extract_lets x top kind rpc s2
  have h2 : s2.Wf := .via (State.modFib_mem ..) hv
  split
  · trivial
  · split
    · trivial
    · exact freeSeg_wf _ _ _ h2

theorem execPerf_wf {g d a b r} (hs : s.Wf) : OnNext State.Wf (execPerf g d a b r s) := by
  refine perLane_wf hs fun m u f l hu => .skip fun _ => .skip fun e => .skip fun v => ?_
  split <;> trivial

theorem execRsm_wf {g a b} (hs : s.Wf) : OnNext State.Wf (execRsm g a b s) :=
  perLane_wf hs fun _ _ _ _ hu => .skip fun _ => .skip fun _ => resumeLane_wf hu

theorem execRsmt_wf {g a b} (hs : s.Wf) : OnNext State.Wf (execRsmt g a b s) :=
  perLane_wf hs fun _ _ _ _ hu => .skip fun _ => .skip fun _ => resumeLane_wf hu

/-- (The check of the links stands for itself, so that the chain is not evaluated.) -/
theorem execDropk_wf {g a} (hs : s.Wf) : OnNext State.Wf (execDropk g a s) := by
  unfold execDropk
  obtain ⟨links, same⟩ : ∃ g, g = linksSound := ⟨_, rfl⟩
  rw [← same]
  refine perLane_wf hs fun m u f l hu => .skip fun h => .skip fun _ => ?_
  split
  · trivial
  · exact .skip fun _ => .skip fun _ => dropContinuation_wf (State.Wf.via (touchSegs_mem ..) hu)

theorem execKsend_wf {g d a b c} (hs : s.Wf) : OnNext State.Wf (execKsend g d a b c s) := by
  refine perLane_wf hs fun m u f l hu => .skip fun _ => .skip fun h => .skip fun w => .skip fun dev => ?_
  split
  · trivial
  · refine (sendOne_wf hu).bind fun r hr => .ok (.mk ?_)
    split
    · exact .via put32_mem hr
    · exact .via (State.modFib_mem ..) hr

theorem execKinfo_wf {g d sel} (hs : s.Wf) : OnNext State.Wf (execKinfo g d sel s) :=
  perLane_wf hs fun _ _ _ _ hu => .skip fun _ => .skip fun _ => .skip fun _ =>
    State.Wf.via (putWide_mem.trans (touchSegs_mem ..)) hu

/-! ### Loads, stores and atomics (R163 to R182) -/

theorem execLd_wf {g m} (hs : s.Wf) : OnNext State.Wf (execLd g m s) :=
  perLane_wf hs fun _ _ _ _ hu => .skip fun _ => (loadAccess_wf hu).bind fun _ hr => (acquireLoad_wf hr).bind fun _ hv =>
    State.Wf.via putLoaded_mem hv

theorem releaseOne_wf {c : Prop} {d : Decidable c} {f scope hold} (hs : s.Wf) :
    OnOk State.Wf (@ite _ c d (drainAt s f scope hold) (.ok s)) := by
  split
  · exact drainAt_wf hs
  · exact hs

theorem releaseEach_wf {c : Prop} {d : Decidable c} {fs scope} (hs : s.Wf) :
    OnOk State.Wf (@ite _ c d (Res.foldM (fun s h => drainAt s h scope false) s fs) (.ok s)) := by
  split
  · exact .foldM _ hs fun _ _ hu => drainAt_wf hu
  · exact hs

theorem execSt_wf {g m} (hs : s.Wf) : OnNext State.Wf (execSt g m s) :=
  perLane_wf hs fun _ _ _ _ hu => .skip fun _ => .skip fun _ => (checkStore_wf hu).bind fun _ hr =>
    (releaseOne_wf hr).bind fun _ hv => State.Wf.via (pushStore_mem.trans startTok_mem) hv

theorem execLds_wf {g m} (hs : s.Wf) : OnNext State.Wf (execLds g m s) :=
  perFlock_wf hs fun _ _ _ hu => (loadAccess_wf hu).bind fun _ hr => (acquireLoad_wf hr).bind fun _ hv =>
    State.Wf.via setSreg_mem hv

theorem execSts_wf {g m} (hs : s.Wf) : OnNext State.Wf (execSts g m s) :=
  perFlock_wf hs fun _ _ _ hu => .skip fun _ => (checkStore_wf hu).bind fun _ hr => (releaseEach_wf hr).bind fun _ hv =>
    State.Wf.via (pushStore_mem.trans startTok_mem) hv

theorem execAtom_wf {g m op nr} (hs : s.Wf) : OnNext State.Wf (execAtom g m op nr s) :=
  perLane_wf hs fun _ _ _ _ hu => .skip fun _ => atomLane_wf hu

theorem execAtomd_wf {g m op nr} (hs : s.Wf) : OnNext State.Wf (execAtomd g m op nr s) :=
  perLane_wf hs fun _ _ _ _ hu => .skip fun _ => atomLane_wf hu

theorem execCas_wf {g m c} (hs : s.Wf) : OnNext State.Wf (execCas g m c s) :=
  perLane_wf hs fun _ _ _ _ hu => .skip fun _ => .skip fun _ => atomLane_wf hu

theorem execCasd_wf {g m c} (hs : s.Wf) : OnNext State.Wf (execCasd g m c s) :=
  perLane_wf hs fun _ _ _ _ hu => .skip fun _ => .skip fun _ => atomLane_wf hu

theorem execLnset_wf {g m} (hs : s.Wf) : OnNext State.Wf (execLnset g m s) :=
  perLane_wf hs fun _ _ _ _ hu => lineBit_wf hu

theorem execLnclr_wf {g m} (hs : s.Wf) : OnNext State.Wf (execLnclr g m s) :=
  perLane_wf hs fun _ _ _ _ hu => lineBit_wf hu

theorem execFence_wf {g scope ord} (hs : s.Wf) : OnNext State.Wf (execFence g scope ord s) := by
  refine perLane_wf hs fun m u f l hu => (releaseOne_wf hu).bind fun v hv => ?_
  refine OnOk.bind (P := State.Wf) ?_ fun w hw => hw
  split
  · exact advanceView_wf hv
  · exact hv

theorem execFenceSc_wf {g scope} (hs : s.Wf) : OnNext State.Wf (execFenceSc g scope s) :=
  perLane_wf (State.Wf.via recordT0_mem hs) fun _ _ _ _ hu => fenceLane_wf hu

theorem dropCodes_mem {cores : List Nat} {line} : (cores.foldl (fun s c => dropCode s c line) s).mem = s.mem :=
  foldl_mem _ (fun _ _ => dropCode_mem) _ _

theorem execIcinv_wf {g m} (hs : s.Wf) : OnNext State.Wf (execIcinv g m s) := by
  refine perLane_wf hs fun _ u f l hu => .skip fun b => .skip fun line => (drainAt_wf hu).bind fun v hv => ?_
  split
  · exact hv
  · split
    · trivial
    · next w homed => exact State.Wf.via (askDevices_mem.trans dropCodes_mem) ((homeLine_wf hv).apply homed)

/-! ### Folds and barriers (R183 to R191, R344) -/

theorem execFopen_wf {g n} (hs : s.Wf) : OnNext State.Wf (execFopen g n s) :=
  perLane_wf hs fun _ _ _ _ hu => (openLane_wf hu).map fun _ hv => hv

theorem execFseal_wf {g d n} (hs : s.Wf) : OnNext State.Wf (execFseal g d n s) :=
  perLane_wf hs fun _ _ _ _ hu => (sealLane_wf hu).map fun _ hv => hv

theorem execFabort_wf {g d n} (hs : s.Wf) : OnNext State.Wf (execFabort g d n s) :=
  perLane_wf hs fun _ _ _ _ hu => .skip fun _ => (abortLane_wf hu).bind fun _ hr => State.Wf.via put32_mem hr

theorem execView_wf {g d stamp} (hs : s.Wf) : OnNext State.Wf (execView g d stamp s) :=
  perLane_wf hs fun _ _ _ _ hu => .skip fun _ => .skip fun _ => (viewLane_wf hu).bind fun _ hv =>
    State.Wf.via put64_mem hv

theorem execBaraArrive_wf {g d m} (hs : s.Wf) : OnNext State.Wf (execBaraArrive g d m s) :=
  perLane_wf hs fun _ _ _ _ hu => arriveLane_wf hu

theorem execBaraLeave_wf {g d m} (hs : s.Wf) : OnNext State.Wf (execBaraLeave g d m s) :=
  perLane_wf hs fun _ _ _ _ hu => arriveLane_wf hu

theorem execBarw_wf {g d m} (hs : s.Wf) : OnNext State.Wf (execBarw g d m s) :=
  perLane_wf hs fun _ _ _ _ hu => barwLane_wf hu

theorem execBaraInit_wf {g d m} (hs : s.Wf) : OnNext State.Wf (execBaraInit g d m s) := by
  refine perFlock_wf hs fun u f fs hu => .skip fun _ => (barrierLine_wf hu).bind fun r hr => ?_
  extract_lets n
  split
  · trivial
  · split
    · trivial
    · refine OnOk.bind (P := State.Wf) (.foldM fs hr fun _ _ hv => drainAt_wf hv) fun v hv => ?_
      extract_lets s3
      have h3 : s3.Wf := clearLine_wf hv
      exact .skip fun _ => .skip fun _ => putBarrier_wf (State.Wf.via (State.modLine_mem ..) h3)

theorem execBaraKill_wf {g d m} (hs : s.Wf) : OnNext State.Wf (execBaraKill g d m s) :=
  perFlock_wf hs fun _ _ fs hu => (barrierLine_wf hu).bind fun _ hr =>
    OnOk.bind (P := State.Wf) (.foldM fs hr fun _ _ hv => drainAt_wf hv) fun _ hv => .skip fun _ =>
      State.Wf.via (wakeBarrier_mem ..) (killBarrier_wf (State.Wf.via (State.modLine_mem ..) hv))

end Sys2Proof.Machine
end

section
/-! PROOFS. The instructions of a flock keep the canonical form of memory: tiles, matrix, copies, tasks and the system. -/

namespace Sys2Proof.Machine

variable {s t : State}

/-! ### Tiles (R203 to R217) -/

theorem execTdef_wf {g d a b chain ready} (hs : s.Wf) : OnNext State.Wf (execTdef g d a b chain ready s) := by
  refine perFlock_wf hs fun u f fs hu => .skip fun _ => .skip fun va => .skip fun base => ?_
  refine (loadBytes_wf hu).bind fun r hr => .skip fun t => .skip fun t1 => ?_
  split
  · exact State.Wf.via put32All_mem hr
  · exact State.Wf.via (put32All_mem.trans defineTile_mem) hr

theorem execTtag_wf {g a b} (hs : s.Wf) : OnNext State.Wf (execTtag g a b s) := by
  refine perFlock_wf hs fun u f fs hu => .skip fun h => .skip fun tag => .skip fun r => ?_
  split
  · trivial
  · refine .skip fun _ => .skip fun _ => .skip fun x => (drained_wf hu).bind fun v hv => ?_
    exact (findReady_wf (performCore_wf hv)).bind fun w hw => State.Wf.via modTile_mem hw

theorem execTwait_wf {g a empty} (hs : s.Wf) : OnNext State.Wf (execTwait g a empty s) :=
  perFlock_wf hs fun _ _ _ hu => .skip fun _ => .skip fun _ => .skip fun _ => acquireAll_wf hu

theorem execTrel_wf {g a u} (hs : s.Wf) : OnNext State.Wf (execTrel g a u s) := by
  refine perFlock_wf hs fun v f fs hv => .skip fun h => .skip fun r => .skip fun _ => (drained_wf hv).bind fun w hw => ?_
  refine OnOk.bind (P := State.Wf) ?_ fun x hx => ?_
  · split
    · exact findReady_wf hw
    · exact hw
  · extract_lets s3
    have h3 : s3.Wf := .via (setTileState_mem ..) hx
    exact State.Wf.ite (.via freeTile_mem h3) h3

theorem execTransfer_wf {i d a b c ft store} (hs : s.Wf) :
    OnNext State.Wf (perFlock i s fun s1 f fs => transferTile s1 s.run f fs d a b c ft store) :=
  perFlock_wf hs fun _ _ _ hu => transferTile_wf hu

theorem execRodld_wf {g d a b ft} (hs : s.Wf) : OnNext State.Wf (execRodld g d a b ft s) := by
  refine perFlock_wf hs fun u f fs hu => .skip fun _ => .skip fun ha => .skip fun hb => .skip fun dst => .skip fun src => ?_
  refine .skip fun _ => .skip fun _ => .skip fun _ => .skip fun _ => (drained_wf hu).bind fun v hv => ?_
  exact (findReady_wf hv).bind fun w hw => State.Wf.via ((beginTransfer_mem ..).trans startOp_mem) hw

theorem execQst_wf {g d a b keep n cy ft} (hs : s.Wf) : OnNext State.Wf (execQst g d a b keep n cy ft s) :=
  perLane_wf hs fun _ _ _ _ hu => (qstLane_wf hu).map fun _ hv => hv

theorem execCywr_wf {g a cy} (hs : s.Wf) : OnNext State.Wf (execCywr g a cy s) :=
  perLane_wf hs fun _ _ _ _ hu => .skip fun _ => State.Wf.via (State.modFib_mem ..) hu

/-! ### The matrix unit (R219 to R229) -/

theorem execMready_wf {g a} (hs : s.Wf) : OnNext State.Wf (execMready g a s) := by
  refine perFlock_wf hs fun u f fs hu => .skip fun lw => ?_
  extract_lets w
  refine .skip fun ta => .skip fun tb => .skip fun _ => .skip fun _ => (drained_wf hu).bind fun v hv => ?_
  extract_lets s0
  have h0 : s0.Wf := performCore_wf hv
  exact .skip fun _ => (findReady_wf h0).bind fun _ h2 => (findReady_wf h2).bind fun _ h3 =>
    State.Wf.via (State.modFibs_mem ..) h3

theorem execMloop_wf {g d a b c bank ft} (hs : s.Wf) : OnNext State.Wf (execMloop g d a b c bank ft s) := by
  refine perFlock_wf hs fun u f fs hu => .skip fun _ => .skip fun _ => .skip fun lw => .skip fun ba => ?_
  extract_lets w core team
  split
  · trivial
  · refine .skip fun _ => .skip fun ta => .skip fun tb => .skip fun _ => .skip fun fw => .skip fun ops => .skip fun _ => ?_
    refine (loopBarrier_wf hu).bind fun br hbr => .skip fun _ => .skip fun _ => .skip fun _ => ?_
    refine (findReady_wf hbr).bind fun s2 h2 => (findReady_wf h2).bind fun s3 h3 => ?_
    exact State.Wf.via ((State.modFibs_mem ..).trans put32All_mem) (acceptLoop_wf (State.Wf.via startTok_mem h3))

theorem execMwait_wf {g bank} (hs : s.Wf) : OnNext State.Wf (execMwait g bank s) := by
  refine perFlock_wf hs fun u f fs hu => .skip fun _ => ?_
  extract_lets core team mine k
  exact .skip fun _ => (acquireAll_wf hu).map fun v hv => State.Wf.via matchLoops_mem hv

theorem execAccrd_wf {g d a bank n} (hs : s.Wf) : OnNext State.Wf (execAccrd g d a bank n s) :=
  perLane_wf hs fun _ _ _ _ hu => (accRead_wf hu).map fun _ hv => hv

theorem execAccwr_wf {g d a bank n} (hs : s.Wf) : OnNext State.Wf (execAccwr g d a bank n s) :=
  perLane_wf hs fun _ _ _ _ hu => .skip fun _ => State.Wf.via (State.modCore_mem ..) hu

theorem execAccz_wf {g bank} (hs : s.Wf) : OnNext State.Wf (execAccz g bank s) :=
  perFlock_wf hs fun _ _ _ hu => .skip fun _ => .skip fun _ => State.Wf.via acceptZero_mem hu

theorem execMstat_wf {g d a clr} (hs : s.Wf) : OnNext State.Wf (execMstat g d a clr s) := by
  refine perLane_wf hs fun m u f l hu => .skip fun _ => .skip fun va => (checkAccess_wf hu).bind fun r hr => ?_
  extract_lets p line
  split
  · trivial
  · refine (settleStores_wf hr).bind fun s2 h2 => ?_
    extract_lets due
    split
    next vs s3 drawn =>
    have h3 : s3.Wf := by
      have drew : SndWf (if due then s2.drawMany 2 else ([], s2)) := by
        split
        · exact State.Wf.via drawMany_mem h2
        · exact h2
      rw [drawn] at drew
      exact drew
    extract_lets cleared
    exact (atomicAt_wf h3).bind fun q hq => (advanceView_wf hq).bind fun v hv => State.Wf.via put64_mem hv

/-! ### Copies, tasks and dispatch (R231 to R238) -/

theorem execTcopy_wf {g d a b tile ft} (hs : s.Wf) : OnNext State.Wf (execTcopy g d a b tile ft s) :=
  perFlock_wf hs fun _ _ _ hu => copySlice_wf hu

theorem execTcopyv_wf {g d a b c tile ft} (hs : s.Wf) : OnNext State.Wf (execTcopyv g d a b c tile ft s) :=
  perFlock_wf hs fun _ _ _ hu => copySlice_wf hu

theorem execFork_wf {g d a b c} (hs : s.Wf) : OnNext State.Wf (execFork g d a b c s) := by
  refine perFlock_wf hs fun u f fs hu => .skip fun _ => .skip fun va => .skip fun list => .skip fun obj => ?_
  refine (loadBytes_wf hu).bind fun q hq => ?_
  extract_lets ent need
  split
  · trivial
  · exact (namedBarrier_wf hq).bind fun o ho => .skip fun _ => (releaseAll_wf ho).bind fun v hv =>
      State.Wf.via (put32All_mem.trans (enqueuePrograms_mem.trans newGroup_mem)) hv

theorem execRdv_wf {g a b} (hs : s.Wf) : OnNext State.Wf (execRdv g a b s) :=
  perFlock_wf (rdvArrive_wf hs) fun _ _ _ hu => rdvWait_wf hu

theorem execDisp_wf {g d a b c} (hs : s.Wf) : OnNext State.Wf (execDisp g d a b c s) := by
  refine perFlock_wf hs fun u f fs hu => .skip fun _ => .skip fun op => .skip fun list => .skip fun obj => ?_
  split
  · trivial
  · refine .skip fun os => (namedBarrier_wf hu).bind fun o ho => (lookupMethod_wf ho).bind fun found hfound => ?_
    extract_lets core need
    exact .skip fun _ => (releaseAll_wf hfound).bind fun v hv => (runDispatch_wf hv).map fun w hw =>
      .via put32All_mem hw

/-! ### The system group (R241 to R255) -/

theorem execPrd_wf {g ud d n} (hs : s.Wf) : OnNext State.Wf (execPrd g ud d n s) :=
  perFlock_wf hs fun _ _ _ hu => .skip fun _ => .skip fun _ => State.Wf.via putDest64_mem hu

theorem execPwr_wf {g n a} (hs : s.Wf) : OnNext State.Wf (execPwr g n a s) :=
  perFlock_wf hs fun _ _ _ hu => .skip fun _ => writePriv_wf hu

theorem execPwrHbctl_wf {g a} (hs : s.Wf) : OnNext State.Wf (execPwrHbctl g a s) :=
  perFlock_wf hs fun _ _ _ hu => .skip fun _ => writePriv_wf hu

theorem execTlbiVa_wf {g sys a b} (hs : s.Wf) : OnNext State.Wf (execTlbiVa g sys a b s) :=
  perFlock_wf (State.Wf.via tlbiAsk_mem hs) fun _ _ _ hu => .skip fun _ => tlbiAt_wf hu

theorem execTlbiCtx_wf {g sys b} (hs : s.Wf) : OnNext State.Wf (execTlbiCtx g sys b s) :=
  perFlock_wf (State.Wf.via tlbiAsk_mem hs) fun _ _ _ hu => .skip fun _ => tlbiAt_wf hu

theorem execTlbiAll_wf {g sys} (hs : s.Wf) : OnNext State.Wf (execTlbiAll g sys s) :=
  perFlock_wf (State.Wf.via tlbiAsk_mem hs) fun _ _ _ hu => tlbiAt_wf hu

theorem execCancelfCtx_wf {g d a} (hs : s.Wf) : OnNext State.Wf (execCancelfCtx g d a s) :=
  perFlock_wf hs fun _ _ _ hu => .skip fun _ => .skip fun _ => cancelFaults_wf hu

theorem execCancelfPage_wf {g d a b} (hs : s.Wf) : OnNext State.Wf (execCancelfPage g d a b s) :=
  perFlock_wf hs fun _ _ _ hu => .skip fun _ => .skip fun _ => .skip fun _ => cancelFaults_wf hu

theorem execCancelfRec_wf {g d a b} (hs : s.Wf) : OnNext State.Wf (execCancelfRec g d a b s) :=
  perFlock_wf hs fun _ _ _ hu => .skip fun _ => .skip fun _ => .skip fun _ => cancelFaults_wf hu

theorem execRegroup_wf {g a b hold} (hs : s.Wf) : OnNext State.Wf (execRegroup g a b hold s) := by
  refine perFlock_wf hs fun u f fs hu => .skip fun _ => .skip fun fw => ?_
  split
  · trivial
  · split
    · trivial
    · refine (handOver_wf hu).bind fun v hv => ?_
      split
      · exact hv
      · exact regroupBuild_wf hv

theorem execCtxrd_wf {g ud d a n} (hs : s.Wf) : OnNext State.Wf (execCtxrd g ud d a n s) := by
  unfold execCtxrd
  split
  · exact perFlock_wf hs fun _ _ _ hu => .skip fun _ => .skip fun _ => State.Wf.via setSreg_mem hu
  · exact lane32_wf hs

theorem execHbrd_wf {g ud d sub} (hs : s.Wf) : OnNext State.Wf (execHbrd g ud d sub s) := by
  unfold execHbrd
  extract_lets tick
  have tick_wf {u : State} (hu : u.Wf) : (tick u).Wf := .ite (.mk hu) hu
  split
  · exact perFlock_wf hs fun _ _ _ hu => State.Wf.via setSreg_mem (tick_wf hu)
  · exact perLane_wf hs fun _ _ _ _ hu => .skip fun _ => State.Wf.via put64_mem (tick_wf hu)

theorem execTbrd_wf {g d n} (hs : s.Wf) : OnNext State.Wf (execTbrd g d n s) := by
  refine perLane_wf hs fun m u f l hu => ?_
  split
  · exact .skip fun _ => State.Wf.via put64_mem (.mk hu)
  · split
    · exact .skip fun _ => State.Wf.via put32_mem hu
    · trivial

theorem execSvc_wf {g d a b} (hs : s.Wf) : OnNext State.Wf (execSvc g d a b s) :=
  perFlock_wf hs fun _ _ _ hu => .skip fun _ => .skip fun _ => .skip fun _ => postService_wf hu

theorem execWinrd_wf {g d a c} (hs : s.Wf) : OnNext State.Wf (execWinrd g d a c s) := by
  refine perLane_wf hs fun m u f l hu => ?_
  extract_lets n
  split
  · trivial
  · exact .skip fun _ => .skip fun sel => .skip fun w => .skip fun p => .mk (.ite (.via put64_mem hu) (.via put32_mem hu))

theorem execWinwr_wf {g d a c} (hs : s.Wf) : OnNext State.Wf (execWinwr g d a c s) := by
  refine perLane_wf hs fun m u f l hu => ?_
  extract_lets n
  split
  · trivial
  · refine .skip fun v => .skip fun sel => .skip fun w => .skip fun p => ?_
    split
    · trivial
    · split
      · trivial
      · exact (drained_wf hu).map fun x hx => State.Wf.via putItem_mem hx

end Sys2Proof.Machine
end

section
/-! PROOFS. The events of the engines, the flocks, the homes and the waits keep the canonical form of memory. -/

namespace Sys2Proof.Machine

variable {s t : State}

theorem OnNext.next {φ ρ : Type} (hs : s.Wf) : OnNext State.Wf (.next s : Host.Outcome State φ ρ) := hs

/-! ### Events of the engines (R214 to R235, R352 to R365) -/

theorem execCopyPhaseComplete_wf {core} (hs : s.Wf) : OnNext State.Wf (execCopyPhaseComplete core s) := by
  refine .next ?_
  split
  · exact hs
  · exact completePhase_wf hs

@[simp] theorem passTurn_mem {core phys} : (passTurn s core phys).mem = s.mem := rfl

theorem execMatrixStep_wf {core} (hs : s.Wf) : OnNext State.Wf (execMatrixStep core s) := by
  refine .next ?_
  split
  · exact hs
  · split
    · exact hs
    · exact .via (passTurn_mem.trans runStep_mem) hs

theorem execAccZeroComplete_wf {core bank} (hs : s.Wf) : OnNext State.Wf (execAccZeroComplete core bank s) := by
  refine .next ?_
  split
  · exact hs
  · split
    · exact hs
    · extract_lets s1 s2
      have h2 : s2.Wf := .via ((State.modCore_mem ..).trans passTurn_mem) hs
      exact (commandEnds_wf h2).getD hs

theorem execMatrixLoopComplete_wf {core} (hs : s.Wf) : OnNext State.Wf (execMatrixLoopComplete core s) := by
  refine .next ?_
  split
  · exact hs
  · split
    · exact hs
    · exact (finishLoop_wf hs).getD hs

theorem execTileTransferComplete_wf {core} (hs : s.Wf) : OnNext State.Wf (execTileTransferComplete core s) := by
  refine .next (OnSome.getD ?_ hs)
  split
  · trivial
  · split
    · exact .skip fun _ => endLoad_wf hs
    · exact .skip fun _ => endStore_wf hs
    · trivial

theorem execRodLoadComplete_wf {core} (hs : s.Wf) : OnNext State.Wf (execRodLoadComplete core s) := by
  refine .next (OnSome.getD ?_ hs)
  split
  · trivial
  · split
    · exact .skip fun _ => .skip fun _ => endRod_wf hs
    · trivial

theorem execCopyPhaseRun_wf {core} (hs : s.Wf) : OnNext State.Wf (execCopyPhaseRun core s) := by
  refine .next (.ite hs ?_)
  split
  · exact hs
  · exact startPhase_wf hs

theorem execEngineCmdEnd_wf {core task} (hs : s.Wf) : OnNext State.Wf (execEngineCmdEnd core task s) := by
  refine .next ?_
  split
  · exact hs
  · exact .ite hs ((endTask_wf hs).getD hs)

theorem execEngineCmdMatrixLoop_wf {core task} (hs : s.Wf) : OnNext State.Wf (execEngineCmdMatrixLoop core task s) :=
  .next (serveCommand_wf hs fun _ _ _ _ _ => loopCommand_wf)

theorem execEngineCmdAccZero_wf {core task} (hs : s.Wf) : OnNext State.Wf (execEngineCmdAccZero core task s) :=
  .next (serveCommand_wf hs fun _ _ _ _ _ => zeroCommand_wf)

theorem execEngineCmdTileLoad_wf {core task} (hs : s.Wf) : OnNext State.Wf (execEngineCmdTileLoad core task s) :=
  .next (serveCommand_wf hs fun _ _ _ _ _ => transferCommand_wf)

theorem execEngineCmdTileStore_wf {core task} (hs : s.Wf) : OnNext State.Wf (execEngineCmdTileStore core task s) :=
  .next (serveCommand_wf hs fun _ _ _ _ _ => transferCommand_wf)

theorem execEngineCmdRodLoad_wf {core task} (hs : s.Wf) : OnNext State.Wf (execEngineCmdRodLoad core task s) :=
  .next (serveCommand_wf hs fun _ _ _ _ _ => rodCommand_wf)

theorem execEngineCmdReserved_wf {core task} (hs : s.Wf) : OnNext State.Wf (execEngineCmdReserved core task s) :=
  .next (serveCommand_wf hs fun _ _ _ _ _ _ => trivial)

theorem execEngineCmdConvert_wf {core task} (hs : s.Wf) : OnNext State.Wf (execEngineCmdConvert core task s) := by
  refine .next ?_
  split
  · exact .ite ((endConvert_wf hs).getD hs) hs
  · exact serveCommand_wf hs fun _ _ _ _ _ => convertCommand_wf

theorem execTaskWatchdog_wf {core task} (hs : s.Wf) : OnNext State.Wf (execTaskWatchdog core task s) := by
  refine .next ?_
  split
  · exact hs
  · exact .ite hs ((commandDone_wf hs).getD hs)

/-! ### Windows and the issue of flocks (R262 to R272, R303) -/

theorem execSystemEventDelivery_wf (hs : s.Wf) : OnNext State.Wf (execSystemEventDelivery s) := by
  refine .next ?_
  split
  · exact hs
  · split
    · exact .mk hs
    · split
      · exact hs
      · extract_lets s1
        have h1 : s1.Wf := openWindow_wf (.mk hs)
        exact .mk h1

theorem execRunStart_wf {core port} (hs : s.Wf) : OnNext State.Wf (execRunStart core port s) := by
  unfold execRunStart
  extract_lets s1
  have h1 : s1.Wf := .via (endStalledRun_mem.trans (noteEligible_mem _)) hs
  refine .next ?_
  split
  · exact h1
  · exact startRun_wf h1

theorem execLagLimit_wf {flock lane} (hs : s.Wf) : OnNext State.Wf (execLagLimit flock lane s) := by
  refine .next ?_
  split
  · exact hs
  · exact .ite hs (.via (State.modFlk_mem ..) hs)

theorem execFlockRestore_wf {flock} (hs : s.Wf) : OnNext State.Wf (execFlockRestore flock s) := by
  unfold execFlockRestore
  extract_lets s0 fl
  have h0 : s0.Wf := .via (noteEligible_mem _) hs
  refine .next ?_
  split
  · exact h0
  · next age _ =>
    have place : OnSome SndWf (if (freeSlot s0 fl.core).isSome then
        (if oldestClaim s0 fl.core age then (freeSlot s0 fl.core).map fun n => (n, s0) else none)
        else if fl.overdue then makeSlot s0 fl.core else none) :=
      .ite (.ite (.map_skip fun _ => h0) trivial) (.ite (makeSlot_wf h0) trivial)
    split
    · exact h0
    · next n s1 found =>
      exact State.Wf.via ((noteEligible_mem _).trans (State.modFlk_mem ..)) (place.apply found)

theorem execPenDraw_wf {core} (hs : s.Wf) : OnNext State.Wf (execPenDraw core s) := by
  unfold execPenDraw
  extract_lets s0
  have h0 : s0.Wf := .via (noteEligible_mem _) hs
  refine .next ?_
  split
  · exact h0
  · next e _ =>
    have place : OnSome SndWf
        (if (freeSlot s0 core).isSome && !oldestClaim s0 core e.filed then none else makeSlot s0 core) :=
      .ite trivial (makeSlot_wf h0)
    split
    · exact h0
    · next slot s1 found =>
      extract_lets lanes x s2 u
      exact State.Wf.via ((formFlock_mem ..).trans (drawMany_mem.trans (State.modCore_mem ..))) (place.apply found)

/-! ### Homes and folds (R322, R341, R344, R391) -/

theorem execStorePending_wf {core n} (hs : s.Wf) : OnNext State.Wf (execStorePending core n s) := by
  refine .next ?_
  split
  · exact .ite (performNth_wf hs) hs
  · exact hs

theorem execL1WriteBack_wf {cluster line} (hs : s.Wf) : OnNext State.Wf (execL1WriteBack cluster line s) := by
  unfold execL1WriteBack
  extract_lets keys
  exact .next (.via (State.modClus_mem ..) (foldl_inv (I := State.Wf) _ hs fun _ _ hu => evictByte_wf hu))

theorem execSettledStampAdvertise_wf {dev stamp} (hs : s.Wf) :
    OnNext State.Wf (execSettledStampAdvertise dev stamp s) :=
  .next (.ite (.via (State.send_mem ..) hs) (.ite hs (.via (State.modDev_mem ..) hs)))

theorem execHeartbeatTick_wf (hs : s.Wf) : OnNext State.Wf (execHeartbeatTick s) :=
  .next (.ite (.via (tick_mem.trans endReset_mem) hs) hs)

/-! ### Sends and waits (R133, R192, R237, R298, R299) -/

/-- (What is received stands for itself, so that the search for its segments is not evaluated.) -/
theorem execKsendTransferReceive_wf {m} (hs : s.Wf) : OnNext State.Wf (execKsendTransferReceive m s) := by
  unfold execKsendTransferReceive
  extract_lets reply c k
  have reply_wf {u : State} {st : Nat} (hu : u.Wf) : (reply u st).Wf := .via (State.send_mem ..) hu
  refine .next (.ite (reply_wf hs) ?_)
  obtain ⟨o, same, ho⟩ : ∃ o, o = receiveContinuation s m ∧ OnSome SndWf o := ⟨_, rfl, receiveContinuation_wf hs⟩
  rw [← same]
  split
  · exact reply_wf hs
  · next h s1 =>
    have h1 : s1.Wf := ho
    extract_lets a
    have ha : a.2.2.Wf := .via withContext_mem h1
    split
    · next p s2 found =>
      have h2 : s2.Wf := (translate_wf ha).apply found
      split
      · exact hs
      · next s3 placed => exact reply_wf ((deliver_wf (State.Wf.via dropAgent_mem h2)).apply placed)
    · exact reply_wf hs
    · exact hs
    · exact reply_wf hs

theorem execParkedFibreWake_wf {fibre} (hs : s.Wf) : OnNext State.Wf (execParkedFibreWake fibre s) :=
  .next (.ite (returnParked_wf hs) hs)

theorem execWatchdogExpiry_wf {flock} (hs : s.Wf) : OnNext State.Wf (execWatchdogExpiry flock s) :=
  .next (.ite hs (stopFlock_wf (.mk hs)))

theorem execBarwWaitLimit_wf {flock} (hs : s.Wf) : OnNext State.Wf (execBarwWaitLimit flock s) :=
  .next (limitRun_wf hs fun _ _ _ _ _ => barwLimit_wf)

theorem execRdvWaitLimit_wf {flock} (hs : s.Wf) : OnNext State.Wf (execRdvWaitLimit flock s) :=
  .next (limitRun_wf hs fun _ _ _ _ _ _ => rdvLimit_wf)

theorem execTileStallLimit_wf {flock} (hs : s.Wf) : OnNext State.Wf (execTileStallLimit flock s) :=
  .next (limitRun_wf hs fun _ _ _ _ _ => tileLimit_wf)

end Sys2Proof.Machine
end

section
/-! PROOFS. The events of queues, launches, contexts, the host and the device keep the canonical form of memory. -/

namespace Sys2Proof.Machine

variable {s t : State}

/-! ### Queues and launches (R377 to R406) -/

theorem readTails_wf {keys : List Nat} (hs : s.Wf) : (keys.foldl readTail s).Wf :=
  foldl_inv keys hs fun _ _ hu => readTail_wf hu

theorem execQueueInstall_wf {drover q} (hs : s.Wf) : OnNext State.Wf (execQueueInstall drover q s) :=
  .next (.ite hs (.ite (.via (State.send_mem ..) hs) (.mk hs)))

theorem execDoorbell_wf {dbi} (hs : s.Wf) : OnNext State.Wf (execDoorbell dbi s) := .next (.ite hs (readTails_wf hs))

theorem execTailInvalidate_wf {queue} (hs : s.Wf) : OnNext State.Wf (execTailInvalidate queue s) := by
  refine .next ?_
  split
  · exact readTail_wf hs
  · exact hs

theorem execTailPoll_wf {drover} (hs : s.Wf) : OnNext State.Wf (execTailPoll drover s) := .next (readTails_wf hs)

theorem execPacketRead_wf {queue} (hs : s.Wf) : OnNext State.Wf (execPacketRead queue s) := by
  refine .next ?_
  split
  · exact hs
  · split
    · exact hs
    · split
      · exact .via overflowStop_mem hs
      · next b s1 taken =>
        have h1 : s1.Wf := (takeEntry_wf hs).apply taken
        split
        · extract_lets key
          exact .via (modQueue_mem.trans addLaunch_mem) h1
        · split
          · exact hs
          · next r s2 accepted => exact (takePacket_wf h1).apply accepted

theorem execLaunchReplicate_wf {src ctx packet} (hs : s.Wf) : OnNext State.Wf (execLaunchReplicate src ctx packet s) := by
  refine .next ?_
  split
  · exact hs
  · next s1 accepted => exact (takePacket_wf hs).apply accepted
  · next r s1 _ accepted => exact State.Wf.via (State.send_mem ..) ((takePacket_wf hs).apply accepted)

theorem execServiceRequestPacket_wf {queue} (hs : s.Wf) : OnNext State.Wf (execServiceRequestPacket queue s) := by
  refine .next ?_
  split
  · exact hs
  · split
    · exact hs
    · extract_lets done
      have hd : done.Wf := .via (acceptEntry_mem.trans delLaunch_mem) hs
      exact .ite hs (.ite (.via (logError_mem ..) hd) (.ite hs (.via (State.modCtx_mem ..) hd)))

theorem execAdmitTeam_wf (hs : s.Wf) : OnNext State.Wf (execAdmitTeam s) := by
  refine .next ?_
  split
  · exact hs
  · split
    · split
      · exact hs
      · next s1 admitted => exact armLaunch_wf ((admitFirst_wf hs).apply admitted)
    · exact hs

theorem execArmedMessage_wf {src gen} (hs : s.Wf) : OnNext State.Wf (execArmedMessage src gen s) := by
  refine .next ?_
  split
  · exact hs
  · exact tryGo_wf (.via modLaunch_mem hs)

theorem execGoMessage_wf {src gen} (hs : s.Wf) : OnNext State.Wf (execGoMessage src gen s) := by
  refine .next ?_
  split
  · exact hs
  · exact goLocal_wf hs

theorem execStartTimeRelease_wf {launch} (hs : s.Wf) : OnNext State.Wf (execStartTimeRelease launch s) := by
  refine .next ?_
  split
  · exact hs
  · exact .ite (startTeams_wf hs) hs

theorem execTeamComplete_wf {team} (hs : s.Wf) : OnNext State.Wf (execTeamComplete team s) := by
  refine .next ?_
  split
  · exact hs
  · exact .ite hs (((removeTeam_wf hs).bind fun _ hu => endLaunch_wf hu).getD hs)

theorem execRejectMessage_wf {src gen} (hs : s.Wf) : OnNext State.Wf (execRejectMessage src gen s) := by
  refine .next ?_
  split
  · exact hs
  · exact abortAll_wf hs

theorem execAbortMessage_wf {src gen} (hs : s.Wf) : OnNext State.Wf (execAbortMessage src gen s) := by
  refine .next ?_
  split
  · exact hs
  · exact abortLocal_wf hs

theorem execArmedTimeout_wf {launch} (hs : s.Wf) : OnNext State.Wf (execArmedTimeout launch s) := by
  refine .next ?_
  split
  · exact hs
  · split
    · exact hs
    · exact .ite (abortAll_wf hs) hs

theorem execMethodTableInstall_wf {launch} (hs : s.Wf) : OnNext State.Wf (execMethodTableInstall launch s) := by
  refine .next ?_
  split
  · exact hs
  · exact .ite hs (.via (State.modCtx_mem ..) hs)

theorem execActiveMessage_wf {queue} (hs : s.Wf) : OnNext State.Wf (execActiveMessage queue s) := by
  refine .next ?_
  split
  · exact hs
  · split
    · exact hs
    · split
      · exact .via overflowStop_mem hs
      · next b s1 taken => exact (takeMessage_wf ((takeEntry_wf hs).apply taken)).getD hs

theorem execActiveMessageDeliver_wf {ctx} (hs : s.Wf) : OnNext State.Wf (execActiveMessageDeliver ctx s) := by
  refine .next ?_
  split
  · exact hs
  · extract_lets s1
    have h1 : s1.Wf := .via (State.modCtx_mem ..) hs
    split
    · exact hs
    · split
      · exact OnSome.getD (P := State.Wf) ((messageStatus_wf h1).map fun _ hu => freeSeg_wf _ _ _ hu) hs
      · exact (deliverMessage_wf h1).getD hs

/-! ### Teams and contexts (R319, R393 to R403) -/

theorem execVacateCore_wf {team} (hs : s.Wf) : OnNext State.Wf (execVacateCore team s) := by
  refine .next ?_
  split
  · exact hs
  · exact .ite hs (((settleTeam_wf hs).map fun _ hu => vacateTeam_wf hu).getD hs)

theorem execTeamRestore_wf {team} (hs : s.Wf) : OnNext State.Wf (execTeamRestore team s) := by
  refine .next ?_
  split
  · exact hs
  · extract_lets n p
    have hp : p.2.Wf := .via (pick_mem ..) hs
    refine .ite hs (.ite hs (OnSome.getD (.of_forall fun u found => ?_) hs))
    exact restores_wf hp u (List.mem_of_getElem? found)

theorem execPreempt_wf (hs : s.Wf) : OnNext State.Wf (execPreempt s) := by
  refine .next ?_
  split
  · exact hs
  · extract_lets s1 ways p
    exact .ite hs (.via (askToLeave_mem.trans (pick_mem ..)) hs)

theorem execContextSwapOut_wf {ctx} (hs : s.Wf) : OnNext State.Wf (execContextSwapOut ctx s) :=
  .next (.ite ((swapOut_wf hs).getD hs) hs)

theorem execContextSwapIn_wf {ctx} (hs : s.Wf) : OnNext State.Wf (execContextSwapIn ctx s) := by
  unfold execContextSwapIn
  extract_lets c
  refine .next (.ite hs ?_)
  split
  · exact hs
  · next s1 placed =>
    have h1 : s1.Wf := (makePlace_wf hs).apply placed
    exact .ite (loadChip_wf (.via becomeResident_mem h1)) hs

theorem execContextAllocation_wf {ctx} (hs : s.Wf) : OnNext State.Wf (execContextAllocation ctx s) := by
  refine .next (.ite hs ?_)
  split
  · exact hs
  · next s1 placed =>
    have h1 : s1.Wf := (makePlace_wf hs).apply placed
    exact .via (becomeResident_mem.trans ((State.modDev_mem ..).trans (State.setCtx_mem ..))) h1

theorem execContextSuspend_wf {ctx} (hs : s.Wf) : OnNext State.Wf (execContextSuspend ctx s) :=
  .next (.ite hs (.via (askToLeave_mem.trans (State.modCtx_mem ..)) hs))

theorem execContextResume_wf {ctx} (hs : s.Wf) : OnNext State.Wf (execContextResume ctx s) := by
  refine .next (.ite hs ?_)
  split
  · exact hs
  · next s1 placed =>
    have h1 : s1.Wf := (makePlace_wf hs).apply placed
    exact .via (foldl_mem _ (fun _ _ => State.modTm_mem ..) _ _) (State.Wf.via becomeResident_mem h1)

theorem execChipScratchpadConvert_wf {die ctx grant} (hs : s.Wf) :
    OnNext State.Wf (execChipScratchpadConvert die ctx grant s) := by
  unfold execChipScratchpadConvert
  extract_lets c n s1
  have h1 : s1.Wf := flushChip_wf hs
  refine .next (.ite hs (.ite (.ite hs ?_) (.ite hs ?_)))
  · exact .via (State.modCtx_mem ..) (zero_wf _ _ _ hs)
  · exact .via (State.modCtx_mem ..) (zero_wf _ _ _ h1)

theorem execContextTeardown_wf {ctx} (hs : s.Wf) : OnNext State.Wf (execContextTeardown ctx s) :=
  .next (.ite hs (.ite (.via (askToLeave_mem.trans (State.modCtx_mem ..)) hs) (.ite ((tearDown_wf hs).getD hs) hs)))

/-! ### The host and other devices (R444 to R453) -/

theorem execHostMemoryRead_wf {pa n} (hs : s.Wf) : OnNext State.Wf (execHostMemoryRead pa n s) :=
  .next (.ite hs (.ite (.ite hs hs) (.ite hs (.ite hs (.ite hs (.via ((State.send_mem ..).trans hostHolds_mem) hs))))))

theorem execHostMemoryWrite_wf {pa bytes} (hs : s.Wf) : OnNext State.Wf (execHostMemoryWrite pa bytes s) := by
  unfold execHostMemoryWrite
  split
  · exact .next (hostOwnWrite_wf hs)
  · split
    · exact .next (.ite hs hs)
    · split
      · exact .next (.via hostConfigWrite_mem hs)
      · split
        · split
          · exact execDoorbell_wf hs
          · exact hs
        · exact .next (.ite hs (((writeLines_wf hs).map fun _ hu => .via hostHolds_mem hu).getD hs))

theorem execHostAtomic_wf {pa r} (hs : s.Wf) : OnNext State.Wf (execHostAtomic pa r s) := by
  refine .next (.ite hs (.ite hs ?_))
  split
  · exact hs
  · next q found => exact State.Wf.via ((State.send_mem ..).trans hostHolds_mem) ((reqAtHome_wf hs).apply found)

theorem execRemoteAccess_wf {dev pa r} (hs : s.Wf) : OnNext State.Wf (execRemoteAccess dev pa r s) := by
  refine .next (.ite hs ?_)
  cases r with
  | mem cx q => exact remoteAt_wf hs (remoteMem_wf hs)
  | load cx n view => exact remoteAt_wf hs (.via viewReply_mem hs)
  | icinv tok => exact .via ((State.send_mem ..).trans dropCodes_mem) hs
  | ack tok => exact .via ackedBy_mem hs
  | foldStore f k bytes => exact remoteAt_wf hs (awayStore_wf hs)
  | foldAck f => exact awayAck_wf hs
  | foldStamp f t digest => exact awayStamp_wf hs
  | foldConfirm f t digest =>
    exact .via (State.send_mem ..) (foldl_inv (I := State.Wf) _ hs fun _ _ hu => promoteWith_wf hu)
  | foldDiscard f => exact awayStep_wf hs fun _ _ => State.modLine_mem ..
  | wasReset => exact peerReset_wf hs

theorem execHostAccessCompletion_wf {core n ok} (hs : s.Wf) : OnNext State.Wf (execHostAccessCompletion core n ok s) := by
  unfold execHostAccessCompletion
  extract_lets later
  have hl : later.Wf := .via (State.modCore_mem ..) hs
  refine .next ?_
  split
  · exact hl
  · exact .ite hl (.ite (performNth_wf hs) (.via rejectStore_mem hs))

theorem execTlbiSysMessage_wf {src kind ctx va} (hs : s.Wf) : OnNext State.Wf (execTlbiSysMessage src kind ctx va s) := by
  refine .next (.ite hs ?_)
  split
  · next s1 done => exact State.Wf.via (State.send_mem ..) ((tlbiLocal_wf hs).apply done)
  · exact hs

theorem execHeartbeatAgreement_wf {dev hb} (hs : s.Wf) : OnNext State.Wf (execHeartbeatAgreement dev hb s) :=
  .next (.ite hs (.ite hs (.via (State.modDev_mem ..) hs)))

theorem losePaths_wf {devs : List Nat} (hs : s.Wf) : (devs.foldl losePath s).Wf :=
  foldl_inv devs hs fun _ _ hu => losePath_wf hu

theorem execSwetexLinkTrain_wf {found} (hs : s.Wf) : OnNext State.Wf (execSwetexLinkTrain found s) := by
  unfold execSwetexLinkTrain
  extract_lets me known reached all_ lost
  have hl : lost.Wf := losePaths_wf hs
  exact .next (.via (State.modDev_mem ..) hl)

theorem execSwetexLaneSpare_wf {link} (hs : s.Wf) : OnNext State.Wf (execSwetexLaneSpare link s) := by
  unfold execSwetexLaneSpare
  extract_lets n s1
  have h1 : s1.Wf := .via (State.modDev_mem ..) hs
  exact .next (.ite hs (losePaths_wf h1))

/-! ### Errors and spares (R455 to R466) -/

theorem execCorrectedError_wf {p} (hs : s.Wf) : OnNext State.Wf (execCorrectedError p s) :=
  .next (.via ((logPlace_mem ..).trans countCorr_mem) hs)

theorem execAgentDead_wf {kind index} (hs : s.Wf) : OnNext State.Wf (execAgentDead kind index s) := by
  refine .next (.ite hs ?_)
  split
  · exact .via (State.modDev_mem ..) hs
  · exact .ite (contain_wf hs) hs

theorem execUncorrectableError_wf {p} (hs : s.Wf) : OnNext State.Wf (execUncorrectableError p s) := by
  refine .next ?_
  split
  · next s1 found => exact State.Wf.via ((logPlace_mem ..).trans countCorr_mem) ((refetched_wf hs).apply found)
  · exact uncorrected_wf (.via (logPlace_mem ..) hs)

theorem execRodSpare_wf {core rod} (hs : s.Wf) : OnNext State.Wf (execRodSpare core rod s) := by
  unfold execRodSpare
  extract_lets c mine
  exact .next (.ite hs (.ite (.via ((State.modCore_mem ..).trans served_mem) hs) (contain_wf hs)))

theorem execCoreSpareJoin_wf {die} (hs : s.Wf) : OnNext State.Wf (execCoreSpareJoin die s) := by
  refine .next ?_
  split
  · exact hs
  · extract_lets s1
    have h1 : s1.Wf := zero_wf _ _ _ (zero_wf _ _ _ hs)
    exact .ite hs (.via ((State.modDev_mem ..).trans (State.setCore_mem ..)) h1)

theorem execL2SliceSpare_wf {slice} (hs : s.Wf) : OnNext State.Wf (execL2SliceSpare slice s) := by
  unfold execL2SliceSpare
  extract_lets die used mine dead
  refine .next (.ite hs (.ite (.ite hs (contain_wf hs)) ?_))
  exact .via ((State.modDev_mem ..).trans served_mem) (State.Wf.ite (zeroSlice_wf hs) hs)

theorem execHbmRowSpare_wf {stack row} (hs : s.Wf) : OnNext State.Wf (execHbmRowSpare stack row s) := by
  unfold execHbmRowSpare
  extract_lets hit
  exact .next (.ite hs (.via ((State.modDev_mem ..).trans served_mem) hs))

theorem execPseudoChannelSpare_wf {channel} (hs : s.Wf) : OnNext State.Wf (execPseudoChannelSpare channel s) := by
  unfold execPseudoChannelSpare
  extract_lets mine
  exact .next (.ite hs (hs.filter _ rfl))

theorem execSurpriseLinkLoss_wf (hs : s.Wf) : OnNext State.Wf (execSurpriseLinkLoss s) := .next (.ite hs (contain_wf hs))

/-! ### Services, resets and boot (R438, R464 to R471) -/

theorem execBindWake_wf {fibre} (hs : s.Wf) : OnNext State.Wf (execBindWake fibre s) := by
  refine .next ?_
  split
  · exact bindDue_wf (serveBind_wf hs)
  · exact bindDue_wf hs

theorem execFunctionLevelReset_wf (hs : s.Wf) : OnNext State.Wf (execFunctionLevelReset s) := by
  unfold execFunctionLevelReset
  extract_lets s1 dev
  have h1 : s1.Wf := zeroBuffers_wf (dropContexts_wf (.via dropHostStores_mem hs))
  exact .next (.mk h1)

theorem execPowerOn_wf : OnNext State.Wf (execPowerOn s) :=
  .next (State.Wf.via (powered_mem.trans (State.modDev_mem ..)) powerLost_wf)

theorem execPowerCycle_wf : OnNext State.Wf (execPowerCycle s) := .next (State.Wf.via powered_mem powerLost_wf)

theorem execThermalShutdown_wf : OnNext State.Wf (execThermalShutdown s) :=
  .next (State.Wf.via (State.send_mem ..) powerLost_wf)

theorem execBootVerify_wf {stage image} (hs : s.Wf) : OnNext State.Wf (execBootVerify stage image s) := by
  refine .next (.ite hs (.ite ?_ (.via ((State.send_mem ..).trans (State.modDev_mem ..)) hs)))
  exact .via (State.modDev_mem ..) (State.Wf.ite (startFirmware_wf hs) hs)

theorem execFirmwareUpdate_wf {image version confirmed} (hs : s.Wf) :
    OnNext State.Wf (execFirmwareUpdate image version confirmed s) := by
  unfold execFirmwareUpdate
  extract_lets v
  exact .next (.ite hs (.ite hs hs))

end Sys2Proof.Machine
end

section
/-! PROOFS. Every step of the machine keeps the canonical form of memory. -/

namespace Sys2Proof.Machine

variable {s t : State}

theorem OnNext.ite {φ ρ : Type} {P : State → Prop} {c : Prop} {d : Decidable c} {a b : Host.Outcome State φ ρ}
    (ha : OnNext P a) (hb : OnNext P b) : OnNext P (@ite _ c d a b) := by
  split
  · exact ha
  · exact hb

/-- Every instruction and every event keeps the canonical form of memory. -/
theorem exec_wf (i : Instr) (hs : s.Wf) : OnNext State.Wf (exec i s) := by
  cases i with
  | add | sub | mul | mulhi | min | max | and | or | xor | shl | shr | sar | rot | bfx => exact op2_wf hs
  | mad | bfi => exact op3_wf hs
  | div | rem => exact divLane_wf hs
  | clz | popc | brev | mov => exact op1_wf hs
  | sel | pack | unpk | tqry | cyrd => exact lane32_wf hs
  | icmp | icmpd | icmpi | pnot | pset => exact lanePred_wf hs
  | addd | subd => exact pairSum_wf hs
  | muld | andd | ord | xord => exact pair2_wf hs
  | shld | shrd | sard => exact pairBy_wf hs
  | movd | adddi | aupc | lup => exact .ite (uniform_wf hs) (lane64_wf hs)
  | addi | muli | andi | ori | xori | shli | shri | sari => exact opImm_wf hs
  | movi | lui => exact .ite (uniform_wf hs) (lane32_wf hs)
  | fadd | fsub | fmul | fdiv | fmin | fmax => unfold exec; exact fp2_wf hs
  | ffma | cvt => exact fpLane_wf hs
  | fsqrt | frcp | frsq | fexp2 | flog2 | fabs | fneg | fclass => unfold exec; exact fp1_wf hs
  | fcmp => exact execFcmp_wf hs
  | pand | por | pxor => exact pred2_wf hs
  | part => exact execPart_wf hs
  | shfl => exact execShfl_wf hs
  | vote => exact execVote_wf hs
  | redu => exact execRedu_wf hs
  | movu => exact execMovu_wf hs
  | srd => exact execSrd_wf hs
  | swr => exact execSwr_wf hs
  | bra => exact execBra_wf hs
  | call => exact execCall_wf hs
  | calls => exact execCalls_wf hs
  | ret => exact execRet_wf hs
  | retS => exact execRetS_wf hs
  | brx => exact execBrx_wf hs
  | callx => exact execCallx_wf hs
  | reform => exact execReform_wf hs
  | backoff => exact execBackoff_wf hs
  | nop => exact execNop_wf hs
  | exit => exact execExit_wf hs
  | spawn => exact execSpawn_wf hs
  | hinst => exact execHinst_wf hs
  | hdrop => exact execHdrop_wf hs
  | perf => exact execPerf_wf hs
  | rsm => exact execRsm_wf hs
  | rsmt => exact execRsmt_wf hs
  | dropk => exact execDropk_wf hs
  | ksend => exact execKsend_wf hs
  | kinfo => exact execKinfo_wf hs
  | ld => exact execLd_wf hs
  | st => exact execSt_wf hs
  | lds => exact execLds_wf hs
  | sts => exact execSts_wf hs
  | atom => exact execAtom_wf hs
  | atomd => exact execAtomd_wf hs
  | cas => exact execCas_wf hs
  | casd => exact execCasd_wf hs
  | lnset => exact execLnset_wf hs
  | lnclr => exact execLnclr_wf hs
  | fence => exact execFence_wf hs
  | fenceSc => exact execFenceSc_wf hs
  | fopen => exact execFopen_wf hs
  | fseal => exact execFseal_wf hs
  | fabort => exact execFabort_wf hs
  | view => exact execView_wf hs
  | baraArrive => exact execBaraArrive_wf hs
  | baraInit => exact execBaraInit_wf hs
  | baraLeave => exact execBaraLeave_wf hs
  | baraKill => exact execBaraKill_wf hs
  | barw => exact execBarw_wf hs
  | icinv => exact execIcinv_wf hs
  | isync => exact execIsync_wf hs
  | tdef => exact execTdef_wf hs
  | ttag => exact execTtag_wf hs
  | twait => exact execTwait_wf hs
  | trel => exact execTrel_wf hs
  | tld | tst => exact execTransfer_wf hs
  | qst => exact execQst_wf hs
  | cywr => exact execCywr_wf hs
  | mready => exact execMready_wf hs
  | mloop => exact execMloop_wf hs
  | mwait => exact execMwait_wf hs
  | accrd => exact execAccrd_wf hs
  | accwr => exact execAccwr_wf hs
  | accz => exact execAccz_wf hs
  | mstat => exact execMstat_wf hs
  | tcopy => exact execTcopy_wf hs
  | tcopyv => exact execTcopyv_wf hs
  | rodld => exact execRodld_wf hs
  | fork => exact execFork_wf hs
  | rdv => exact execRdv_wf hs
  | disp => exact execDisp_wf hs
  | prd => exact execPrd_wf hs
  | pwr => exact execPwr_wf hs
  | pwrHbctl => exact execPwrHbctl_wf hs
  | tlbiVa => exact execTlbiVa_wf hs
  | tlbiCtx => exact execTlbiCtx_wf hs
  | tlbiAll => exact execTlbiAll_wf hs
  | tlbs => exact lane64_wf hs
  | cancelfCtx => exact execCancelfCtx_wf hs
  | cancelfPage => exact execCancelfPage_wf hs
  | cancelfRec => exact execCancelfRec_wf hs
  | regroup => exact execRegroup_wf hs
  | ctxrd => exact execCtxrd_wf hs
  | hbrd => exact execHbrd_wf hs
  | tbrd => exact execTbrd_wf hs
  | svc => exact execSvc_wf hs
  | winrd => exact execWinrd_wf hs
  | winwr => exact execWinwr_wf hs
  | winwrResume => exact .next (.via resumeWindow_mem hs)
  | winwrTerminate => exact .next (.via terminateWindow_mem hs)
  | winwrClose => exact .next (.via keepWindow_mem hs)
  | runStart => exact execRunStart_wf hs
  | flockWake | holdOffExpiry => exact .next (.via ((noteEligible_mem _).trans (State.modFlk_mem ..)) hs)
  | unchosenFlockLimit | savedFlockWaitLimit => exact .next (.ite (.via (State.modFlk_mem ..) hs) hs)
  | lagLimit => exact execLagLimit_wf hs
  | penDraw => exact execPenDraw_wf hs
  | penFibreAged => exact .next (.via (State.modCore_mem ..) hs)
  | flockRestore => exact execFlockRestore_wf hs
  | storeQueueDrain => exact .next (.via drainOne_mem hs)
  | storePerform => exact .next (performNth_wf hs)
  | l1MissFill | homeRead => exact .next (.via fillAt_mem hs)
  | l1WriteBack => exact execL1WriteBack_wf hs
  | spanInvalidate => exact .next (.via (State.modClus_mem ..) hs)
  | storePending => exact execStorePending_wf hs
  | foldAcknowledge => exact .next (ackFold_wf hs)
  | foldStamp => exact .next (stampFold_wf hs)
  | foldConfirm => exact .next (confirmFold_wf hs)
  | foldSealEnd => exact .next (.via endFold_mem hs)
  | settledStampAdvertise => exact execSettledStampAdvertise_wf hs
  | heartbeatTick => exact execHeartbeatTick_wf hs
  | matrixStep => exact execMatrixStep_wf hs
  | matrixLoopComplete => exact execMatrixLoopComplete_wf hs
  | accZeroComplete => exact execAccZeroComplete_wf hs
  | tileTransferComplete => exact execTileTransferComplete_wf hs
  | rodLoadComplete => exact execRodLoadComplete_wf hs
  | copyPhaseRun => exact execCopyPhaseRun_wf hs
  | copyPhaseComplete => exact execCopyPhaseComplete_wf hs
  | engineCmdEnd => exact execEngineCmdEnd_wf hs
  | engineCmdMatrixLoop => exact execEngineCmdMatrixLoop_wf hs
  | engineCmdAccZero => exact execEngineCmdAccZero_wf hs
  | engineCmdTileLoad => exact execEngineCmdTileLoad_wf hs
  | engineCmdTileStore => exact execEngineCmdTileStore_wf hs
  | engineCmdConvert => exact execEngineCmdConvert_wf hs
  | engineCmdRodLoad => exact execEngineCmdRodLoad_wf hs
  | engineCmdReserved => exact execEngineCmdReserved_wf hs
  | taskWatchdog => exact execTaskWatchdog_wf hs
  | ksendTransferReceive => exact execKsendTransferReceive_wf hs
  | ksendComplete => exact .next (completeSend_wf hs)
  | parkedFibreWake => exact execParkedFibreWake_wf hs
  | bindWake => exact execBindWake_wf hs
  | faultRecordRewalk => exact .next (rewalkRecord_wf hs)
  | systemEventDelivery => exact execSystemEventDelivery_wf hs
  | watchdogExpiry => exact execWatchdogExpiry_wf hs
  | barwWaitLimit => exact execBarwWaitLimit_wf hs
  | tileStallLimit => exact execTileStallLimit_wf hs
  | rdvWaitLimit => exact execRdvWaitLimit_wf hs
  | doorbell => exact execDoorbell_wf hs
  | tailInvalidate => exact execTailInvalidate_wf hs
  | tailPoll => exact execTailPoll_wf hs
  | queueInstall => exact execQueueInstall_wf hs
  | packetRead => exact execPacketRead_wf hs
  | serviceRequestPacket => exact execServiceRequestPacket_wf hs
  | dependenceRecheck => exact .next (.via checkDeps_mem hs)
  | launchReplicate => exact execLaunchReplicate_wf hs
  | armedMessage => exact execArmedMessage_wf hs
  | goMessage => exact execGoMessage_wf hs
  | rejectMessage => exact execRejectMessage_wf hs
  | abortMessage => exact execAbortMessage_wf hs
  | armedTimeout => exact execArmedTimeout_wf hs
  | startTimeRelease => exact execStartTimeRelease_wf hs
  | admitTeam => exact execAdmitTeam_wf hs
  | teamComplete => exact execTeamComplete_wf hs
  | methodTableInstall => exact execMethodTableInstall_wf hs
  | contextSwapOut => exact execContextSwapOut_wf hs
  | contextSwapIn => exact execContextSwapIn_wf hs
  | contextSuspend => exact execContextSuspend_wf hs
  | contextTeardown => exact execContextTeardown_wf hs
  | preempt => exact execPreempt_wf hs
  | vacateCore => exact execVacateCore_wf hs
  | teamRestore => exact execTeamRestore_wf hs
  | chipScratchpadConvert => exact execChipScratchpadConvert_wf hs
  | segmentCacheEvict => exact .next (.ite hs (.via (State.modCore_mem ..) hs))
  | activeMessage => exact execActiveMessage_wf hs
  | activeMessageDeliver => exact execActiveMessageDeliver_wf hs
  | serviceLoad | serviceUnload => exact .next (serveThrough_wf hs)
  | hostMemoryRead => exact execHostMemoryRead_wf hs
  | hostMemoryWrite => exact execHostMemoryWrite_wf hs
  | hostAtomic => exact execHostAtomic_wf hs
  | hostAccessCompletion => exact execHostAccessCompletion_wf hs
  | remoteAccess => exact execRemoteAccess_wf hs
  | tlbiSysMessage => exact execTlbiSysMessage_wf hs
  | heartbeatAgreement => exact execHeartbeatAgreement_wf hs
  | linkTrain => exact .next (.ite hs (.via (State.modDev_mem ..) hs))
  | uncorrectableError => exact execUncorrectableError_wf hs
  | correctedError => exact execCorrectedError_wf hs
  | agentDead => exact execAgentDead_wf hs
  | rodSpare => exact execRodSpare_wf hs
  | coreSpareJoin => exact execCoreSpareJoin_wf hs
  | l2SliceSpare => exact execL2SliceSpare_wf hs
  | hbmRowSpare => exact execHbmRowSpare_wf hs
  | pseudoChannelSpare => exact execPseudoChannelSpare_wf hs
  | swetexLaneSpare => exact execSwetexLaneSpare_wf hs
  | functionLevelReset => exact execFunctionLevelReset_wf hs
  | surpriseLinkLoss => exact execSurpriseLinkLoss_wf hs
  | hostLinkReset | thermalThrottle | hostSnoop | timeBaseLock => exact .next (.via (State.modDev_mem ..) hs)
  | powerOn => exact execPowerOn_wf
  | bootVerify => exact execBootVerify_wf hs
  | firmwareUpdate image version confirmed => exact execFirmwareUpdate_wf (version := version) hs
  | spdmRequest | errorLog | spareState | contextSummary => exact .next (.via respond_mem hs)
  | sensorRead => exact .next (State.Wf.via respond_mem (.mk hs))
  | powerCycle => exact execPowerCycle_wf
  | thermalShutdown => exact execThermalShutdown_wf
  | contextAllocation => exact execContextAllocation_wf hs
  | contextResume => exact execContextResume_wf hs
  | swetexLinkTrain => exact execSwetexLinkTrain_wf hs

theorem issueWord_wf {r} (hs : s.Wf) : OnNext State.Wf (issueWord s r) := by
  unfold issueWord
  extract_lets w
  split
  · exact raiseOn_wf hs
  · split
    · exact raiseOn_wf hs
    · split
      · exact State.Wf.via stall_mem hs
      · next s1 acquired => exact exec_wf _ ((issueReads_wf hs).apply acquired)

theorem turn_wf (hs : s.Wf) : OnNext State.Wf (turn s) := by
  unfold turn
  split
  · exact exec_wf _ hs
  · split
    · next r u taken => exact issueWord_wf (State.Wf.via (takeRun_mem taken) hs)
    · exact exec_wf _ hs
  · split
    · exact issueWord_wf hs
    · split <;> exact exec_wf _ hs

theorem step_wf (hs : s.Wf) : OnNext State.Wf (step s) := turn_wf (State.Wf.via (noteEligible_mem s) hs)

/-- Settles O59: each part of the machine that changes memory does so by operations that keep its form, so every instruction
and every event does, and a step is the note of the eligible flocks and one of these. -/
theorem memoryKept : Obligations.MemoryKept := by
  intro s t hs h
  have kept : OnNext State.Wf (step s) := step_wf hs
  rw [h] at kept
  exact kept

end Sys2Proof.Machine
end
